-- ==== Sys2Proof/Word.lean ====
section
/-! DEFINITION. The word types of the package: nonets, registers, lines, addresses, and the sparse
table `Store` in which State keeps everything that exists many times over. -/

namespace Sys2Proof

/-- The nonet of R2: eight value bits and a mark bit (bit 8). -/
abbrev Nonet := BitVec 9

/-- A Folxis-36 register image (R42, R43). -/
abbrev Reg := BitVec 72

/-- A control-space register or an instruction word (R9, R67). -/
abbrev W36 := BitVec 36

/-- An effective address or a program counter (R51, R72). -/
abbrev Addr := BitVec 64

/-- A line of 64 nonets: bit 9i + k is bit k of nonet i (R252). -/
abbrev LineBits := BitVec 576

/-- A line number N = PA div 64 (R136, R175). -/
abbrev LineNo := BitVec 46

/-- An octet of an outside standard (R5). -/
abbrev Octet := BitVec 8

/-- A sparse table: (number, value) pairs, numbers strictly rising, no pair holding the default. -/
abbrev Store (α : Type) := List (Nat × α)

end Sys2Proof
end

