-- ==== Sys2Proof/Config.lean ====
section
/-! DEFINITION. What an implementation fixes: the free values of the spec, as constants with no body, and
the constants of the outside standards that the spec names. -/

namespace Sys2Proof.Config

/-- The n-th free value: nothing is known of it (DESIGN CHOICE, log entry 11). -/
opaque freeBits : Nat → BitVec 64

/-- IEEE 754 lets an implementation detect tininess before or after rounding (R61, UNVERIFIED, log entry 12). -/
opaque tinyAfter : Bool

/-- IEEE 754 leaves open whether fusedMultiplyAdd(0, infinity, quiet NaN) is invalid (R61, UNVERIFIED, log entry 12). -/
opaque fmaQuietInvalid : Bool

/-- What the n-th wrong path touches: instruction (true) or data addresses, in order (R126 says what a wrong path may do, no
rule says which instructions it holds; DESIGN CHOICE, log entry 57). -/
opaque wrongPath : Nat → List (Bool × Addr)

/-- The type of a flit that carries a Borric message (R207 numbers no types; DESIGN CHOICE, log entry 58). -/
opaque flitType : BitVec 8

/-- Cermozo's Vendor ID (R288 gives no number; UNVERIFIED, log entry 14). -/
opaque vendorId : BitVec 16

/-- SHA-384 (R400, R402, R404; UNVERIFIED, log entry 14). -/
opaque sha384 : List Octet → BitVec 384

/-- ECDSA P-384 verification: public key x and y, message, r, s (R404; UNVERIFIED, log entry 14). -/
opaque ecdsaVerify : BitVec 384 → BitVec 384 → List Octet → BitVec 384 → BitVec 384 → Bool

/-- Cermozo's unlock key (R404; UNVERIFIED, log entry 14). -/
opaque cermozoX : BitVec 384
opaque cermozoY : BitVec 384

/-- The DeviceID public key in octets (R404; UNVERIFIED, log entry 14). -/
opaque deviceIdKey : List Octet

/-- The DER certificates 0 to 3 (R400); the Alias certificate depends on the running firmware, and is new with each Alias
key (R399). -/
opaque certificate : Nat → BitVec 24 → Nat → List Octet

/-- Measurements 1 and 5: the Umfoent ROM and the fuse configuration (R402). -/
opaque measureRom : BitVec 384
opaque measureFuse : BitVec 384

/-- Measurement 6 of the lock state, the open scopes and the owner key's digest (R402 gives no layout). -/
opaque measureLock : BitVec 2 → BitVec 3 → BitVec 384 → BitVec 384

/-- The body of an SPDM response beyond what R401 fixes: request kind and octet (UNVERIFIED, log entry 14). -/
opaque spdmBody : Nat → List Octet

/-- The octets that an opcode of the CXL mailbox answers (R287; UNVERIFIED, log entry 14). -/
opaque cxlOutput : Nat → Nat → Octet

/-- The fused VCORE curve before its stated limits are applied: Isle, step, mV (R384; UNVERIFIED, log entry 15). -/
opaque rawCurve : Nat → Nat → Nat

/-- Bank and row of a channel-local line (R266 to R269 name banks and rows, no rule maps lines to them;
UNVERIFIED, log entry 17). -/
opaque dramBank : Nat → Nat
opaque dramRow : Nat → Nat

/-- Whether the n-th ACTIVATE of a channel is sampled at a PEXP under R268 (UNVERIFIED, log entry 17). -/
opaque sampled : Nat → Nat → Nat → Bool

/-- The rolling activate count at which DDR5 refresh management requires RFM of a bank (R269; UNVERIFIED, log entry 17). -/
opaque raaLimit : Nat

/-- The curve within R384's limits: 600 to 1,050 mV, never falling from one step to the next. -/
def curveAt (isle step : Nat) : Nat :=
  (List.range (step + 1)).foldl (fun a k => max a (min 1050 (max 600 (rawCurve isle k)))) 600

/-- The prime of P-384 (FIPS 186; PRESUMED, log entry 14). -/
def p384 : Nat := 2 ^ 384 - 2 ^ 128 - 2 ^ 96 + 2 ^ 32 - 1

/-- The constant b of P-384 (FIPS 186; PRESUMED, log entry 14). -/
def p384b : Nat :=
  0xb3312fa7e23ee7e4988e056be3f82d19181d9c6efe8141120314088f5013875ac656398d8a2ed19d2a85c8edd3ec2aef

/-- The point lies on P-384 (R405). -/
def onCurve (x y : BitVec 384) : Bool :=
  x.toNat < p384 && y.toNat < p384 &&
    (y.toNat * y.toNat) % p384
      == (x.toNat * x.toNat * x.toNat + (p384 - 3) * x.toNat + p384b) % p384

end Sys2Proof.Config
end

