-- ==== Sys2Proof/Syntax.lean ====
section
/-! DEFINITION. The commands of the package: `Instr` has one constructor for each row of
spec/opcode_table.json, in the table's order. Before it stand the types of the operands. -/

namespace Sys2Proof

/-- Who makes a control-space access or a command (R15, R35, R368). -/
inductive Who where
  /-- A thread, in the world in which it executes. -/
  | thread (t : Fin 576)
  /-- Umfoent's own access: Vault, passing every filter (R368). -/
  | umfoent
  /-- Umfoent on behalf of a Court-world mailbox (R368, R398). -/
  | umfoentCourt
  /-- The SMBus front end (R365, R392). -/
  | smbus
  /-- The endpoint face of a port block (R301). -/
  | endpoint (b : Fin 12)
  /-- A Harbour engine in the world and context of its ring (R329). -/
  | harbour (vault : Bool) (ctx : BitVec 12)
  /-- A guest site behind the Gatehouse (R238). -/
  | guest (g : Fin 2)
  /-- A root port, in the world of its owner (R285). -/
  | port (p : Fin 96)
  deriving DecidableEq, Repr

/-- FENCE kinds (R59). -/
inductive FenceKind where
  | full | storeStore | loadLoad | instruction
  deriving DecidableEq, Repr

/-- The conditions of SKIPR and SKIPI (R75). -/
inductive Cond where
  | eq | ne | lt | ge | le | gt | ltu | geu | leu | gtu | any | none
  deriving DecidableEq, Repr

/-- The ALU72 and ALU36 operations (R71). -/
inductive AluOp where
  | add | sub | and | or | xor | andn | sll | srl | sra | mul | mulh | mulhu
  | div | divu | rem | remu | min | max | minu | maxu
  deriving DecidableEq, Repr

/-- The SHI kinds (R71). -/
inductive ShKind where
  | sll | srl | sra
  deriving DecidableEq, Repr

/-- The memory units below a line (the table before R2). -/
inductive MUnit where
  | nonet | half | word | double
  deriving DecidableEq, Repr

/-- The memory units with the line. -/
inductive MUnit5 where
  | nonet | half | word | double | line
  deriving DecidableEq, Repr

/-- The load kinds of R56 and LX SIZE (R57). -/
inductive LdSize where
  | n | ns | h | hs | w | ws | d
  deriving DecidableEq, Repr

/-- The AMO operations (R58). -/
inductive AmoOp where
  | swap | cas | add | and | or | xor | min | max | minu | maxu
  deriving DecidableEq, Repr

/-- The prefetch hints (R60). -/
inductive PrefHint where
  | l1 | l2 | isle | stream
  deriving DecidableEq, Repr

/-- The FOP operations (R71). -/
inductive FOp where
  | add | sub | mul | div | sqrt | min | max | neg | abs
  deriving DecidableEq, Repr

/-- Rounding fields: the five modes of FPCTL and the value 7, which selects FPCTL.RM (R46, R64). -/
inductive Rm where
  | even | zero | down | up | away | dyn
  deriving DecidableEq, Repr

/-- The fused operations (R71). -/
inductive FmaOp where
  | madd | msub | nmadd | nmsub
  deriving DecidableEq, Repr

/-- The FCVT conversions, 0 to 7 (R71). -/
inductive CvtOp where
  | d2s | s2d | d2l | d2ul | l2d | ul2d | s2w | w2s
  deriving DecidableEq, Repr

/-- The FCMP relations (R71). -/
inductive FRel where
  | eq | lt | le | unord
  deriving DecidableEq, Repr

/-- Vector element widths (R71). -/
inductive VElt where
  | double | word | half | nonet
  deriving DecidableEq, Repr

/-- The VOP operations (R71). -/
inductive VOp where
  | add | sub | and | or | xor | mul | min | max | minu | maxu
  deriving DecidableEq, Repr

/-- The VMOV kinds (R71). -/
inductive VmovKind where
  | broadcast | insert | extract
  deriving DecidableEq, Repr

/-- The Borric message types (R176). -/
inductive MsgTy where
  | rds | rdu | upg | rdn | wrn | wrl | atm | trw | wbd | evc | fws | fwu | sng | snc | sni | inv
  | pfh | ack | ackd | gone | gnt | cmp | busy | dat
  deriving DecidableEq, Repr

/-- The MOESI states that a message carries (R175). -/
inductive Moesi where
  | i | s | e | o | m
  deriving DecidableEq, Repr

/-- A Borric message (R175, R176). A field that the type does not carry is 0. -/
structure Msg where
  ty : MsgTy
  /-- Requester of FWS and FWU, sender of every other type. -/
  src : BitVec 4
  dst : BitVec 4
  tag : BitVec 9 := 0
  line : LineNo
  world : Bool := false
  ctx : BitVec 12 := 0
  st : Moesi := .i
  resp : BitVec 3 := 0
  /-- Bit 6: token present; bits 5:0: token number. -/
  token : BitVec 7 := 0
  cause : BitVec 2 := 0
  /-- ATM: OP (4:1) and SIZE (0) of R58. TRW: the OP of R158. -/
  op : BitVec 5 := 0
  mask : BitVec 64 := 0
  strm : Bool := false
  hasData : Bool := false
  data : LineBits := 0
  poison : Bool := false
  deriving DecidableEq, Repr

/-- What a BUSY-answered request waits for (R192). -/
inductive Resource where
  | dirSet (i : Fin 49152)
  | table
  deriving DecidableEq, Repr

/-- Watchdog reports (R224). -/
inductive Report where
  | severed | reset | clock
  deriving DecidableEq, Repr

/-- A unit whose refused bearing claim Umfoent or the block retries every 100 µs
(R210, R270, R284, R363, R377). -/
inductive WaitUnit where
  | strait (n : Fin 12)
  | channel (c : Fin 24)
  | block (b : Fin 12)
  | wakeIsle (n : Fin 12)
  | handover
  deriving DecidableEq, Repr

/-- A unit with a power request stream (R354). -/
inductive PUnit where
  | core (c : Fin 288)
  | isle (n : Fin 12)
  /-- 0 is Harbour, k is port block k − 1 (R366). -/
  | block (k : Fin 13)
  | package
  deriving DecidableEq, Repr

/-- What full training of a Strait finds: the working lanes toward the Isle and toward the Keystone,
the Lighthouse offset that admission measures (R210, R228), and a watchdog report that ends the admission (R232). -/
structure TrainIn where
  okI : BitVec 104
  okK : BitVec 104
  ofs : BitVec 16
  report : Option Report := none
  deriving DecidableEq, Repr

/-- The link that a port's training reaches (R286). -/
structure LinkRes where
  up : Bool
  /-- Lanes in use. -/
  width : BitVec 5
  /-- The encoding of PRT_PORTSTAT.RATE. -/
  rate : BitVec 3
  flit : Bool
  cxl : Bool
  deriving DecidableEq, Repr

/-- Completion statuses of a non-posted request (R295). -/
inductive CplStatus where
  | success | unsupported | abort | poisoned
  deriving DecidableEq, Repr

/-- Requests that reach a root port from below (R286, R298). -/
inductive TlpKind where
  | read | write | atomic
  deriving DecidableEq, Repr

/-- The spaces of the endpoint function that a host reaches beside CXL.mem (R301), and the HDM decoders that place that. -/
inductive HostSpace where
  | bar0 | bar2 | rom | config | hdm
  deriving DecidableEq, Repr

/-- A package access that an outbound window claims (R291). -/
structure OutReq where
  w : Who
  pa : BitVec 52
  size : MUnit5
  wr : Option LineBits
  deriving DecidableEq, Repr

/-- A claim that reaches the Bearing ledger: requester, member within it (0 where it has none), and units (R348, R350). -/
structure BearingReq where
  q : Fin 50
  mem : Fin 25
  core : BitVec 12
  hub : BitVec 12
  deriving DecidableEq, Repr

/-- Where a hand-over is started from (R376). -/
inductive HoSrc where
  | write (w : Who)
  | mailbox (m : Fin 16)
  deriving DecidableEq, Repr

/-- Classes of hand-over (R375). -/
inductive HoClass where
  | engine (e : Fin 32) | port (p : Fin 96) | part (n : Fin 12) (p : Fin 8) | site (g : Fin 2)
  deriving DecidableEq, Repr

/-- A start of a hand-over (R376). -/
structure HoAsk where
  src : HoSrc
  unit : HoClass
  toV : Bool
  deriving DecidableEq, Repr

/-- What verification of a signed image finds (R406, R407). -/
structure ImageIn where
  sigOk : Bool
  version : BitVec 24
  security : BitVec 32
  digest : BitVec 384
  deriving DecidableEq, Repr

/-- How an SPDM request reached Umfoent (R401). -/
inductive Transport where
  | smbus
  | port (p : Fin 96)
  deriving DecidableEq, Repr

/-- The owner of a set of unit counters (R425). -/
inductive SndUnit where
  | isle (n : Fin 12)
  | keystone
  deriving DecidableEq, Repr

/-- The rails of R443. -/
inductive Rail where
  | vcore (n : Fin 12) | vkey | vserdes | vddq | vaux | vfuse
  deriving DecidableEq, Repr

/-- What Umfoent finds on one channel at start-up (R244, R245, R247, R455, R270, R274). -/
structure DimmIn where
  chan : Fin 24
  /-- 0 none; 1 RDIMM; 2 MRDIMM; 3 any other module, or devices that are not ×4. -/
  type : BitVec 2
  spdOk : Bool
  one : Bool
  capGn : BitVec 10
  caParity : Bool
  /-- Bit r = 1: the SPD lists rate r of MC_CHSTAT.RATE (bits 1 to 5). -/
  rates : BitVec 6
  pasr : Bool
  /-- The devices advertise DRFM (R268). -/
  drfm : Bool
  trains : Bool
  /-- No uncorrectable or command/address error during training and fill. -/
  clean : Bool
  deriving DecidableEq, Repr

/-- The boot image of a world in the board flash (R433). -/
structure BootImage where
  load : BitVec 52
  entry : Addr
  lines : List LineBits
  deriving DecidableEq, Repr

/-- What one start-up step finds, with its duration in ns (R426 to R434). -/
inductive StartIn where
  | step1 (dur : BitVec 64)
  | step2 (dur : BitVec 64) (aOk bOk ucodeOk vaultOk : Bool)
  | step3 (dur : BitVec 64) (fuseOk : Bool) (digests : List (BitVec 32))
  | step4 (dur : BitVec 64) (isles : List (Fin 12 × TrainIn))
  | step5 (dur : BitVec 64) (dimms : List DimmIn) (repaired : List Bool)
  | step6 (dur : BitVec 64) (failed : List (Fin 24))
  | step7 (dur : BitVec 64) (rngFails : Fin 4) (keys : List (BitVec 64)) (vaultKey : BitVec 64)
      (offsets : List (BitVec 16))
  | step8 (dur : BitVec 64)
  deriving DecidableEq, Repr

/-- The commands: one constructor for each row of spec/opcode_table.json. -/
inductive Instr where
  /-- NOP (R70). -/
  | nop (t : Fin 576)
  /-- ILLEGAL_INSTRUCTION (R69). -/
  | illegalInstruction (t : Fin 576) (w : W36)
  /-- FENCE (R59). -/
  | fence (t : Fin 576) (k : FenceKind)
  /-- CRR (R44). -/
  | crr (t : Fin 576) (rd : BitVec 6) (num : BitVec 10)
  /-- CRW (R44). -/
  | crw (t : Fin 576) (rs1 : BitVec 6) (num : BitVec 10)
  /-- CRW_CTXID (R122). -/
  | crwCtxid (t : Fin 576) (rs1 : BitVec 6)
  /-- TLBINV_PAGE (R115). -/
  | tlbinvPage (t : Fin 576) (rs1 : BitVec 6)
  /-- TLBINV_CONTEXT (R115). -/
  | tlbinvContext (t : Fin 576) (rs1 : BitVec 6)
  /-- TLBINV_TABLE (R115). -/
  | tlbinvTable (t : Fin 576) (rs1 : BitVec 6)
  /-- TLBINV_PAGE_ALL (R115). -/
  | tlbinvPageAll (t : Fin 576) (rs1 : BitVec 6)
  /-- TLBINV_BROADCAST_APPLIED (R116). -/
  | tlbinvBroadcastApplied (t : Fin 576)
  /-- CTXRESEED (R123). -/
  | ctxreseed (t : Fin 576) (rs1 : BitVec 6)
  /-- RESEED_START (R124); `more` of the waiting writes arrived in the same Keystone cycle as the first. -/
  | reseedStart (more : Nat)
  /-- RESEED_DONE (R123). -/
  | reseedDone (healthy : Bool) (key : BitVec 64)
  /-- FSTEP_WRITE (R130). -/
  | fstepWrite (t : Fin 576) (rs1 : BitVec 6)
  /-- STEP_RAISE (R131). -/
  | stepRaise (c : Fin 288)
  /-- STEP_LOWER (R132). -/
  | stepLower (c : Fin 288)
  /-- SYSCALL (R91). -/
  | syscall (t : Fin 576)
  /-- HVCALL (R91). -/
  | hvcall (t : Fin 576)
  /-- TRET (R90). -/
  | tret (t : Fin 576)
  /-- WAIT (R97). -/
  | wait (t : Fin 576)
  /-- WAIT_COMPLETE (R97). -/
  | waitComplete (t : Fin 576)
  /-- LAUNCH (R326). -/
  | launch (t : Fin 576) (rd : BitVec 6) (rs1 : BitVec 6)
  /-- LAUNCH_FIRE (R326). -/
  | launchFire (t : Fin 576)
  /-- VCALL (R99). -/
  | vcall (t : Fin 576)
  /-- VRET (R100). -/
  | vret (t : Fin 576)
  /-- BR (R77). -/
  | br (t : Fin 576) (a : Bool) (off : BitVec 27)
  /-- BL (R77). -/
  | bl (t : Fin 576) (a : Bool) (off : BitVec 27)
  /-- JR (R77). -/
  | jr (t : Fin 576) (a : Bool) (rd : BitVec 6) (rs1 : BitVec 6)
  /-- DBNZ (R79). -/
  | dbnz (t : Fin 576) (a : Bool) (rc : BitVec 6) (off : BitVec 21)
  /-- SKIPR (R74). -/
  | skipr (t : Fin 576) (ra : BitVec 6) (rb : BitVec 6) (cond : Cond)
  /-- SKIPI (R74). -/
  | skipi (t : Fin 576) (ra : BitVec 6) (cond : Cond) (imm : BitVec 18)
  /-- ALU72 (R48). -/
  | alu72 (t : Fin 576) (rd : BitVec 6) (rs1 : BitVec 6) (rs2 : BitVec 6) (op : AluOp)
  /-- ALU36 (R48). -/
  | alu36 (t : Fin 576) (rd : BitVec 6) (rs1 : BitVec 6) (rs2 : BitVec 6) (op : AluOp)
  /-- ADDI (R68). -/
  | addi (t : Fin 576) (rd : BitVec 6) (rs1 : BitVec 6) (imm : BitVec 16)
  /-- ADDI36 (R68). -/
  | addi36 (t : Fin 576) (rd : BitVec 6) (rs1 : BitVec 6) (imm : BitVec 16)
  /-- ANDI (R68). -/
  | andi (t : Fin 576) (rd : BitVec 6) (rs1 : BitVec 6) (imm : BitVec 16)
  /-- ORI (R68). -/
  | ori (t : Fin 576) (rd : BitVec 6) (rs1 : BitVec 6) (imm : BitVec 16)
  /-- XORI (R68). -/
  | xori (t : Fin 576) (rd : BitVec 6) (rs1 : BitVec 6) (imm : BitVec 16)
  /-- SHI (R71). -/
  | shi (t : Fin 576) (rd : BitVec 6) (rs1 : BitVec 6) (kind : ShKind) (w36 : Bool) (amt : BitVec 7)
  /-- LI (R68). -/
  | li (t : Fin 576) (rd : BitVec 6) (imm : BitVec 22)
  /-- INSH (R70). -/
  | insh (t : Fin 576) (rd : BitVec 6) (pos : BitVec 2) (imm : BitVec 18)
  /-- LN (R56). -/
  | ln (t : Fin 576) (rd : BitVec 6) (rs1 : BitVec 6) (imm : BitVec 16)
  /-- LNS (R56). -/
  | lns (t : Fin 576) (rd : BitVec 6) (rs1 : BitVec 6) (imm : BitVec 16)
  /-- LH (R56). -/
  | lh (t : Fin 576) (rd : BitVec 6) (rs1 : BitVec 6) (imm : BitVec 16)
  /-- LHS (R56). -/
  | lhs (t : Fin 576) (rd : BitVec 6) (rs1 : BitVec 6) (imm : BitVec 16)
  /-- LW (R56). -/
  | lw (t : Fin 576) (rd : BitVec 6) (rs1 : BitVec 6) (imm : BitVec 16)
  /-- LWS (R56). -/
  | lws (t : Fin 576) (rd : BitVec 6) (rs1 : BitVec 6) (imm : BitVec 16)
  /-- LD (R56). -/
  | ld (t : Fin 576) (rd : BitVec 6) (rs1 : BitVec 6) (imm : BitVec 16)
  /-- LX (R57). -/
  | lx (t : Fin 576) (rd : BitVec 6) (rs1 : BitVec 6) (rs2 : BitVec 6) (size : LdSize) (scale : BitVec 2)
  /-- SN (R56). -/
  | sn (t : Fin 576) (rd : BitVec 6) (rs1 : BitVec 6) (imm : BitVec 16)
  /-- SH (R56). -/
  | sh (t : Fin 576) (rd : BitVec 6) (rs1 : BitVec 6) (imm : BitVec 16)
  /-- SW (R56). -/
  | sw (t : Fin 576) (rd : BitVec 6) (rs1 : BitVec 6) (imm : BitVec 16)
  /-- SD (R56). -/
  | sd (t : Fin 576) (rd : BitVec 6) (rs1 : BitVec 6) (imm : BitVec 16)
  /-- SX (R57). -/
  | sx (t : Fin 576) (rd : BitVec 6) (rs1 : BitVec 6) (rs2 : BitVec 6) (size : MUnit) (scale : BitVec 2)
  /-- AMO (R58). -/
  | amo (t : Fin 576) (rd : BitVec 6) (rs1 : BitVec 6) (rs2 : BitVec 6) (op : AmoOp) (word : Bool)
  /-- PREF (R60). -/
  | pref (t : Fin 576) (hint : PrefHint) (rs1 : BitVec 6) (imm : BitVec 16)
  /-- LWM (R56). -/
  | lwm (t : Fin 576) (rd : BitVec 6) (rs1 : BitVec 6) (emark : BitVec 8) (act : Bool) (disp : BitVec 7)
  /-- LDM (R56). -/
  | ldm (t : Fin 576) (rd : BitVec 6) (rs1 : BitVec 6) (emark : BitVec 8) (act : Bool) (disp : BitVec 7)
  /-- SWM (R56). -/
  | swm (t : Fin 576) (rd : BitVec 6) (rs1 : BitVec 6) (emark : BitVec 8) (act : Bool) (disp : BitVec 7)
  /-- SDM (R56). -/
  | sdm (t : Fin 576) (rd : BitVec 6) (rs1 : BitVec 6) (emark : BitVec 8) (act : Bool) (disp : BitVec 7)
  /-- ADD_M (R49). -/
  | addM (t : Fin 576) (rd : BitVec 6) (rs1 : BitVec 6) (rs2 : BitVec 6) (emark : BitVec 8) (act : Bool) (w : Bool)
  /-- SUB_M (R49). -/
  | subM (t : Fin 576) (rd : BitVec 6) (rs1 : BitVec 6) (rs2 : BitVec 6) (emark : BitVec 8) (act : Bool) (w : Bool)
  /-- MUL_M (R49). -/
  | mulM (t : Fin 576) (rd : BitVec 6) (rs1 : BitVec 6) (rs2 : BitVec 6) (emark : BitVec 8) (act : Bool) (w : Bool)
  /-- AND_M (R49). -/
  | andM (t : Fin 576) (rd : BitVec 6) (rs1 : BitVec 6) (rs2 : BitVec 6) (emark : BitVec 8) (act : Bool) (w : Bool)
  /-- OR_M (R49). -/
  | orM (t : Fin 576) (rd : BitVec 6) (rs1 : BitVec 6) (rs2 : BitVec 6) (emark : BitVec 8) (act : Bool) (w : Bool)
  /-- XOR_M (R49). -/
  | xorM (t : Fin 576) (rd : BitVec 6) (rs1 : BitVec 6) (rs2 : BitVec 6) (emark : BitVec 8) (act : Bool) (w : Bool)
  /-- MTEST (R50). -/
  | mtest (t : Fin 576) (rs1 : BitVec 6) (emark : BitVec 8) (act : Bool) (w : Bool)
  /-- MSET (R50). -/
  | mset (t : Fin 576) (rd : BitVec 6) (rs1 : BitVec 6) (emark : BitVec 8) (w : Bool)
  /-- MGET (R50). -/
  | mget (t : Fin 576) (rd : BitVec 6) (rs1 : BitVec 6) (w : Bool)
  /-- FOP64 (R61). -/
  | fop64 (t : Fin 576) (rd : BitVec 6) (rs1 : BitVec 6) (rs2 : BitVec 6) (op : FOp) (rm : Rm)
  /-- FOP32 (R61). -/
  | fop32 (t : Fin 576) (rd : BitVec 6) (rs1 : BitVec 6) (rs2 : BitVec 6) (op : FOp) (rm : Rm)
  /-- FMA64 (R71). -/
  | fma64 (t : Fin 576) (rd : BitVec 6) (rs1 : BitVec 6) (rs2 : BitVec 6) (op : FmaOp) (rm : Rm)
  /-- FMA32 (R71). -/
  | fma32 (t : Fin 576) (rd : BitVec 6) (rs1 : BitVec 6) (rs2 : BitVec 6) (op : FmaOp) (rm : Rm)
  /-- FCVT (R71). -/
  | fcvt (t : Fin 576) (rd : BitVec 6) (rs1 : BitVec 6) (op : CvtOp) (rm : Rm)
  /-- FCMP (R71). -/
  | fcmp (t : Fin 576) (rd : BitVec 6) (rs1 : BitVec 6) (rs2 : BitVec 6) (w : Bool) (sig : Bool) (rel : FRel)
  /-- VLD (R65). -/
  | vld (t : Fin 576) (vd : BitVec 5) (rs1 : BitVec 6) (imm : BitVec 16)
  /-- VST (R65). -/
  | vst (t : Fin 576) (vs : BitVec 5) (rs1 : BitVec 6) (imm : BitVec 16)
  /-- VOP (R65). -/
  | vop (t : Fin 576) (vd : BitVec 5) (v1 : BitVec 5) (v2 : BitVec 5) (elt : VElt) (op : VOp)
  /-- VFOP (R65). -/
  | vfop (t : Fin 576) (vd : BitVec 5) (v1 : BitVec 5) (v2 : BitVec 5) (w : Bool) (op : FOp) (rm : Rm)
  /-- VMOV (R71). -/
  | vmov (t : Fin 576) (k : VmovKind) (v : BitVec 5) (g : BitVec 6) (lane : BitVec 6) (elt : VElt)
  /-- INTERRUPT (R94). -/
  | interrupt (t : Fin 576)
  /-- CORE_AUTOSLACK_ENTER (R346). -/
  | coreAutoslackEnter (c : Fin 288)
  /-- ISLE_SLACK_ENTER (R345). -/
  | isleSlackEnter (n : Fin 12)
  /-- ISLE_SLACK_EXIT (R345). -/
  | isleSlackExit (n : Fin 12)
  /-- SRAM_PATROL (R144). -/
  | sramPatrol (n : Fin 12) (line : LineNo)
  /-- CIS_CACHECTL_WRITE (R146). -/
  | cisCachectlWrite (w : Who) (n : Fin 12) (v : W36)
  /-- CACHE_DISABLE_COMPLETE (R146). -/
  | cacheDisableComplete (n : Fin 12) (k : Fin 25)
  /-- DROP_WALK_DONE (R199). -/
  | dropWalkDone (n : Fin 12)
  /-- CIS_WAYCTL_WRITE (R153). -/
  | cisWayctlWrite (w : Who) (n : Fin 12) (v : W36)
  /-- WAY_CONVERTED (R154). -/
  | wayConverted (n : Fin 12)
  /-- CISTERN_ACCESS (R169). -/
  | cisternAccess (m : Msg)
  /-- TRW_CLAIM (R163); `others` read it in the same fabric cycle (R165). -/
  | trwClaim (w : Who) (others : List Who) (n : Fin 12)
  /-- GO (R164). -/
  | go (w : Who) (n : Fin 12) (k : Fin 8) (v : W36)
  /-- CANCEL (R164). -/
  | cancel (w : Who) (n : Fin 12) (k : Fin 8) (v : W36)
  /-- RELEASE (R164). -/
  | release (w : Who) (n : Fin 12) (k : Fin 8) (v : W36)
  /-- CLEAN (R158). -/
  | clean (n : Fin 12)
  /-- INVAL (R158). -/
  | inval (n : Fin 12)
  /-- CLEAN_INVAL (R158). -/
  | cleanInval (n : Fin 12)
  /-- ZERO (R158). -/
  | zero (n : Fin 12)
  /-- ARRAY_INVAL (R158). -/
  | arrayInval (n : Fin 12)
  /-- TROWEL_LINE_ISSUE (R160). -/
  | trowelLineIssue (n : Fin 12)
  /-- TROWEL_LINE_DONE (R161). -/
  | trowelLineDone (n : Fin 12)
  /-- CANCELLED_DONE (R164). -/
  | cancelledDone (n : Fin 12)
  /-- RDS (R182). -/
  | rds (m : Msg)
  /-- RDU (R182). -/
  | rdu (m : Msg)
  /-- UPG (R182). -/
  | upg (m : Msg)
  /-- RDN (R182). -/
  | rdn (m : Msg)
  /-- WRN (R183). -/
  | wrn (m : Msg)
  /-- WRL (R182). -/
  | wrl (m : Msg)
  /-- ATM (R183). -/
  | atm (m : Msg)
  /-- TRW (R184). -/
  | trw (m : Msg)
  /-- WBD (R182). -/
  | wbd (m : Msg)
  /-- EVC (R182). -/
  | evc (m : Msg)
  /-- QUEUED_REQUEST_OPEN (R181). -/
  | queuedRequestOpen (line : LineNo)
  /-- FWS (R186). -/
  | fws (m : Msg)
  /-- FWU (R186). -/
  | fwu (m : Msg)
  /-- SNG (R186). -/
  | sng (m : Msg)
  /-- SNC (R186). -/
  | snc (m : Msg)
  /-- SNI (R186). -/
  | sni (m : Msg)
  /-- INV (R186). -/
  | inv (m : Msg)
  /-- PFH (R147). -/
  | pfh (m : Msg)
  /-- ACK (R182). -/
  | ack (m : Msg)
  /-- ACKD (R182). -/
  | ackd (m : Msg)
  /-- GONE (R196). -/
  | gone (m : Msg)
  /-- GNT (R185). -/
  | gnt (m : Msg)
  /-- CMP (R176). -/
  | cmp (m : Msg)
  /-- BUSY_RECEIVED (R192). -/
  | busyReceived (m : Msg)
  /-- DAT (R185). -/
  | dat (m : Msg)
  /-- TOKEN_RESEND (R192). -/
  | tokenResend (m : Msg)
  /-- RESERVATION_EXPIRE (R193). -/
  | reservationExpire (s : Fin 24) (r : Resource)
  /-- HOLD_WINDOW_END (R188). -/
  | holdWindowEnd (n : Fin 12) (line : LineNo)
  /-- PURGE_END (R202). -/
  | purgeEnd (dur : BitVec 64)
  /-- FLIT_CRC_REPLAY (R207). -/
  | flitCrcReplay (n : Fin 12) (toK : Bool) (seq : BitVec 12) (bad : BitVec 104)
  /-- SIDEBAND_FAILOVER (R208). -/
  | sidebandFailover (n : Fin 12) (toK : Bool)
  /-- LANE_FAILED (R212). -/
  | laneFailed (n : Fin 12) (toK : Bool) (lanes : BitVec 104) (cond : Fin 3)
  /-- SUBSTITUTED (R213). -/
  | substituted (n : Fin 12) (toK : Bool) (stall : BitVec 32)
  /-- NARROWED (R214). -/
  | narrowed (n : Fin 12) (toK : Bool) (stall : BitVec 32)
  /-- LANE_RESTORED (R213). -/
  | laneRestored (n : Fin 12) (toK : Bool) (ok : Bool)
  /-- RECAL_PASS_START (R218). -/
  | recalPassStart (n : Fin 12)
  /-- RUN (R218). -/
  | run (w : Who) (n : Fin 12) (v : W36)
  /-- RECAL_LANE_DONE (R218). -/
  | recalLaneDone (n : Fin 12)
  /-- FULL_TRAINING (R210). -/
  | fullTraining (n : Fin 12)
  /-- FULL_TRAINING_DONE (R210). -/
  | fullTrainingDone (n : Fin 12) (okI : BitVec 104) (okK : BitVec 104)
  /-- ADMISSION (R228). -/
  | admission (n : Fin 12) (ofs : BitVec 16)
  /-- BEARING_RETRY (R210). -/
  | bearingRetry (u : WaitUnit)
  /-- HEARTBEAT (R223). -/
  | heartbeat (n : Fin 12) (rst : Bool) (clk : Bool) (seq : BitVec 8)
  /-- HEARTBEAT_TIMEOUT (R224). -/
  | heartbeatTimeout (n : Fin 12)
  /-- WATCHDOG_REPORT (R224). -/
  | watchdogReport (n : Fin 12) (k : Report)
  /-- VCORE_REMOVE (R226). -/
  | vcoreRemove (n : Fin 12)
  /-- GUEST_REQUEST (R238). -/
  | guestRequest (g : Fin 2) (octets : List Octet) (other : List Octet) (l1 : Bool)
  /-- GUEST_COMPLETION (R236). -/
  | guestCompletion (g : Fin 2) (tag : BitVec 16)
  /-- GATEHOUSE_TOKEN_REFILL (R242). -/
  | gatehouseTokenRefill (g : Fin 2)
  /-- GUEST_REGISTER_ACCESS (R240). -/
  | guestRegisterAccess (w : Who) (g : Fin 2) (off : BitVec 32) (wr : Option W36) (ans : BitVec 32)
  /-- GUEST_ACCESS_FAILED (R240). -/
  | guestAccessFailed (w : Who) (g : Fin 2) (off : BitVec 32) (wr : Option W36) (err : Bool)
  /-- GUEST_LINK_LOST (R241). -/
  | guestLinkLost (g : Fin 2)
  /-- UCIE_LANE_REPAIR (R221). -/
  | ucieLaneRepair (g : Fin 2)
  /-- DRAM_READ (R254). -/
  | dramRead (c : Fin 24) (line : LineNo) (err : BitVec 640)
  /-- DRAM_WRITE (R264). -/
  | dramWrite (c : Fin 24)
  /-- CORRECTED_REREAD (R258). -/
  | correctedReread (c : Fin 24) (err : BitVec 640)
  /-- PATROL_READ (R261). -/
  | patrolRead (c : Fin 24) (err : BitVec 640)
  /-- REFSB (R267). -/
  | refsb (c : Fin 24) (hot : Bool)
  /-- MEM_THROTTLED (R267). -/
  | memThrottled (c : Fin 24) (temp : BitVec 16)
  /-- SAMPLED_ROW_REFRESH (R268). -/
  | sampledRowRefresh (c : Fin 24) (bank : BitVec 16) (row : BitVec 32)
  /-- TALLY_CLEAR (R269). -/
  | tallyClear (c : Fin 24)
  /-- TRACKING_RETRAIN (R271). -/
  | trackingRetrain (c : Fin 24)
  /-- CHANNEL_FULL_TRAINING (R270). -/
  | channelFullTraining (c : Fin 24) (works : Bool)
  /-- POISON_FILL_DONE (R272). -/
  | poisonFillDone (c : Fin 24)
  /-- CA_PARITY_ALERT (R275). -/
  | caParityAlert (c : Fin 24) (line : Option LineNo)
  /-- RESUME (R277). -/
  | resume (m : Fin 16) (works : Bool)
  /-- RETRAIN (R277). -/
  | retrain (m : Fin 16)
  /-- FAIL (R277). -/
  | fail (m : Fin 16)
  /-- MEM_RETRAIN (R272). -/
  | memRetrain (m : Fin 16)
  /-- MEM_INCLUDE (R249). -/
  | memInclude (m : Fin 16)
  /-- MEM_MARK (R260). -/
  | memMark (m : Fin 16)
  /-- MEM_PPR_ENROLL (R263). -/
  | memPprEnroll (m : Fin 16)
  /-- PORT_LINK_TRAINING (R284). -/
  | portLinkTraining (p : Fin 96) (res : LinkRes)
  /-- OUTBOUND_REQUEST (R292). -/
  | outboundRequest (rs : List OutReq)
  /-- PORT_COMPLETION (R295). -/
  | portCompletion (p : Fin 96) (tag : BitVec 14) (st : CplStatus) (data : List Octet)
  /-- CPL_TIMEOUT (R296). -/
  | cplTimeout (p : Fin 96) (tag : BitVec 14)
  /-- INBOUND_REQUEST (R298). -/
  | inboundRequest (p : Fin 96) (kind : TlpKind) (addr : BitVec 64) (len : BitVec 13) (data : List Octet)
  /-- INTERRUPT_MESSAGE (R297). -/
  | interruptMessage (p : Fin 96) (addr : BitVec 64) (data : BitVec 32)
  /-- INTX_MESSAGE (R300). -/
  | intxMessage (p : Fin 96) (pin : Fin 4) (lvl : Bool)
  /-- HOST_BAR_REQUEST (R301). -/
  | hostBarRequest (b : Fin 12) (space : HostSpace) (off : BitVec 40) (wr : Option (List Octet)) (len : BitVec 13) (poison : Bool)
  /-- LENDING_REQUEST (R302). -/
  | lendingRequest (b : Fin 12) (addr : BitVec 52) (wr : Option LineBits) (mask : BitVec 64) (poison : Bool)
  /-- BUS_MASTER_ENABLE_CLEAR (R308). -/
  | busMasterEnableClear (b : Fin 12)
  /-- D3HOT_ENTRY (R307). -/
  | d3hotEntry (b : Fin 12)
  /-- D3COLD_ENTRY (R307). -/
  | d3coldEntry (b : Fin 12)
  /-- D0_RETURN (R307). -/
  | d0Return (b : Fin 12)
  /-- FLR (R309). -/
  | flr (b : Fin 12)
  /-- PRT_PERST_ASSERT (R453). -/
  | prtPerstAssert (b : Fin 12)
  /-- PME (R307). -/
  | pme (b : Fin 12)
  /-- PRT_EPINTSTAT_WRITE (R305). -/
  | prtEpintstatWrite (b : Fin 12) (v : BitVec 32)
  /-- DOORBELL_TAIL (R332). -/
  | doorbellTail (w : Who) (r : Fin 524288) (v : W36) (others : List (Who × W36))
  /-- DOORBELL_HEAD (R332). -/
  | doorbellHead (w : Who) (r : Fin 524288) (v : W36) (others : List (Who × W36))
  /-- DOORBELL_RESUME (R332). -/
  | doorbellResume (w : Who) (r : Fin 524288) (v : W36) (others : List (Who × W36))
  /-- HBR_RCTL_WRITE (R331). -/
  | hbrRctlWrite (w : Who) (r : Fin 524288) (v : W36)
  /-- HARBOUR_SCHEDULE (R340). -/
  | harbourSchedule
  /-- COPY (R334). -/
  | copy (e : Fin 32)
  /-- FILL (R334). -/
  | fill (e : Fin 32)
  /-- COMPARE (R334). -/
  | compare (e : Fin 32)
  /-- CRC64 (R334). -/
  | crc64 (e : Fin 32)
  /-- REPACK_D (R334). -/
  | repackD (e : Fin 32)
  /-- REPACK_L (R334). -/
  | repackL (e : Fin 32)
  /-- PREFETCH (R334). -/
  | prefetch (e : Fin 32)
  /-- TIMED_ACCEPT (R341). -/
  | timedAccept (r : Fin 524288)
  /-- TIMED_DESCRIPTOR_DUE (R341). -/
  | timedDescriptorDue (vault : Bool)
  /-- TIMED_LEAD_EXPIRED (R341). -/
  | timedLeadExpired (r : Fin 524288)
  /-- DESCRIPTOR_DONE (R337). -/
  | descriptorDone (r : Fin 524288)
  /-- SET (R316). -/
  | set (w : Who) (v : W36)
  /-- SET_APPLY (R316). -/
  | setApply
  /-- CANCEL_SLEW (R315). -/
  | cancelSlew (w : Who) (v : W36)
  /-- LH_SLEW_WRITE (R315). -/
  | lhSlewWrite (w : Who) (v : W36)
  /-- SLEW_TICK (R315). -/
  | slewTick
  /-- LH_CTL_WRITE (R312). -/
  | lhCtlWrite (w : Who) (v : W36)
  /-- LH_PPS_EDGE (R314). -/
  | lhPpsEdge
  /-- PPS_TIMEOUT (R314). -/
  | ppsTimeout
  /-- REF_LOST (R312). -/
  | refLost
  /-- REF_LOCKED (R312). -/
  | refLocked
  /-- COPY_CORRECTION (R318). -/
  | copyCorrection (n : Fin 12) (ofs : BitVec 16)
  /-- DRIFT_CLEARED (R318). -/
  | driftCleared (n : Fin 12) (ofs : BitVec 16)
  /-- ALARM_FIRE (R328). -/
  | alarmFire (t : Fin 576) (vault : Bool)
  /-- PWR_CORECTL_WRITE (R355). -/
  | pwrCorectlWrite (w : Who) (c : Fin 288) (v : W36)
  /-- PWR_ISLECTL_WRITE (R355). -/
  | pwrIslectlWrite (w : Who) (n : Fin 12) (v : W36)
  /-- PWR_BLKCTL_WRITE (R355). -/
  | pwrBlkctlWrite (w : Who) (k : Fin 13) (v : W36)
  /-- PWR_PKGCTL_WRITE (R355). -/
  | pwrPkgctlWrite (w : Who) (v : W36)
  /-- TIMED_REQUEST_FIRE (R356). -/
  | timedRequestFire (u : PUnit)
  /-- POWER_REQUEST_COMPLETE (R355). -/
  | powerRequestComplete (u : PUnit)
  /-- CORE_TO_NEAP (R357). -/
  | coreToNeap (c : Fin 288)
  /-- CORE_NEAP_TO_RUN (R357). -/
  | coreNeapToRun (c : Fin 288)
  /-- CORE_TO_DRY (R357). -/
  | coreToDry (c : Fin 288)
  /-- CORE_DRY_TO_RUN (R357). -/
  | coreDryToRun (c : Fin 288)
  /-- ISLE_TO_NEAP (R357). -/
  | isleToNeap (n : Fin 12)
  /-- ISLE_NEAP_TO_RUN (R357). -/
  | isleNeapToRun (n : Fin 12)
  /-- ISLE_TO_DRY (R357). -/
  | isleToDry (n : Fin 12)
  /-- ISLE_DRY_TO_RUN (R357). -/
  | isleDryToRun (n : Fin 12) (tr : TrainIn)
  /-- HARBOUR_TO_DRY (R357). -/
  | harbourToDry
  /-- PORT_BLOCK_TO_DRY (R357). -/
  | portBlockToDry (b : Fin 12)
  /-- KEYSTONE_BLOCK_TO_RUN (R357). -/
  | keystoneBlockToRun (k : Fin 13)
  /-- LAGOON_ENTER (R360). -/
  | lagoonEnter
  /-- LAGOON_EXIT (R360). -/
  | lagoonExit
  /-- WAKE (R457). -/
  | wake (u : PUnit)
  /-- PORT_WAKE (R364). -/
  | portWake (b : Fin 12)
  /-- SMBUS_ADDRESS_MATCH (R365). -/
  | smbusAddressMatch (addr : BitVec 7)
  /-- BEARING_CLAIM (R348). -/
  | bearingClaim (c : BearingReq) (others : List BearingReq)
  /-- BEARING_RELEASE (R351). -/
  | bearingRelease (q : Fin 50) (core : BitVec 12) (hub : BitVec 12)
  /-- CURRENT_CAP_CHECK (R353). -/
  | currentCapCheck (core : BitVec 16) (hub : BitVec 16)
  /-- THERMAL_CAP (R385). -/
  | thermalCap (n : Fin 12) (pts : List (BitVec 16))
  /-- WLD_RGNCTL_WRITE (R372). -/
  | wldRgnctlWrite (w : Who) (v : W36)
  /-- REGION_TABLE_ARRIVES (R372). -/
  | regionTableArrives (n : Fin 12)
  /-- HANDOVER_ENGINE (R378). -/
  | handoverEngine (f : HoSrc) (k : Fin 32) (toV : Bool) (others : List HoAsk)
  /-- HANDOVER_PORT (R378). -/
  | handoverPort (f : HoSrc) (p : Fin 96) (toV : Bool) (others : List HoAsk)
  /-- HANDOVER_PARTITION (R378). -/
  | handoverPartition (f : HoSrc) (n : Fin 12) (p : Fin 8) (toV : Bool) (others : List HoAsk)
  /-- HANDOVER_GUEST_SITE (R378). -/
  | handoverGuestSite (f : HoSrc) (g : Fin 2) (toV : Bool) (others : List HoAsk)
  /-- HANDOVER_QUIESCED (R377). -/
  | handoverQuiesced
  /-- MAILBOX_SERVE (R390). -/
  | mailboxServe
  /-- INFO (R398). -/
  | info (m : Fin 16)
  /-- CPL_READ (R398). -/
  | cplRead (m : Fin 16)
  /-- HANDLE_STATUS (R398). -/
  | handleStatus (m : Fin 16)
  /-- SENSOR_READ (R384). -/
  | sensorRead (m : Fin 16)
  /-- LH_SET (R398). -/
  | lhSet (m : Fin 16)
  /-- LH_SLEW (R398). -/
  | lhSlew (m : Fin 16)
  /-- LH_POLICY (R398). -/
  | lhPolicy (m : Fin 16)
  /-- BRG_SETLIMIT (R398). -/
  | brgSetlimit (m : Fin 16)
  /-- ISLE_POLICY (R398). -/
  | islePolicy (m : Fin 16)
  /-- ID_CERT (R400). -/
  | idCert (m : Fin 16)
  /-- ID_MEASURE (R402). -/
  | idMeasure (m : Fin 16)
  /-- UNLOCK_CHALLENGE (R404). -/
  | unlockChallenge (m : Fin 16) (nonce : BitVec 256)
  /-- NONCE_EXPIRE (R404). -/
  | nonceExpire
  /-- UNLOCK_RESPONSE (R404). -/
  | unlockResponse (m : Fin 16)
  /-- LOCK (R403). -/
  | lock (m : Fin 16)
  /-- OWNER_ENROLL (R405). -/
  | ownerEnroll (m : Fin 16)
  /-- ISLE_RELEASE (R398). -/
  | isleRelease (m : Fin 16)
  /-- ISLE_ADMIT (R398). -/
  | isleAdmit (m : Fin 16) (tr : TrainIn)
  /-- ISLE_OFFLINE (R408). -/
  | isleOffline (m : Fin 16)
  /-- ISLE_ONLINE (R408). -/
  | isleOnline (m : Fin 16) (tr : TrainIn)
  /-- UCODE_LOAD (R407). -/
  | ucodeLoad (m : Fin 16) (img : ImageIn)
  /-- UCODE_ISLE_PARKED (R407). -/
  | ucodeIsleParked (ok : Bool)
  /-- PORT_CONFIG (R283). -/
  | portConfig (m : Fin 16)
  /-- EVR_CLEAR (R416). -/
  | evrClear (m : Fin 16)
  /-- EVR_CLEAR_DONE (R416). -/
  | evrClearDone
  /-- FW_STAGE (R406). -/
  | fwStage (m : Fin 16) (img : ImageIn) (flashOk : Bool)
  /-- FW_SWAP (R406). -/
  | fwSwap (m : Fin 16) (selfTest : Bool)
  /-- HANDLE_COMPLETION (R394). -/
  | handleCompletion (m : Fin 16)
  /-- UMF_MBINT_WRITE (R391). -/
  | umfMbintWrite (w : Who) (m : Fin 16) (v : W36)
  /-- SMBUS_MCTP_WRITE (R392). -/
  | smbusMctpWrite (data : List Octet) (pecOk : Bool)
  /-- SMBUS_MAILBOX_WRITE (R392). -/
  | smbusMailboxWrite (i : Fin 2) (data : List Octet) (pecOk : Bool)
  /-- SMBUS_MAILBOX_READ (R392). -/
  | smbusMailboxRead (i : Fin 2)
  /-- GET_VERSION (R401). -/
  | getVersion (p : Transport)
  /-- GET_CAPABILITIES (R401). -/
  | getCapabilities (p : Transport)
  /-- NEGOTIATE_ALGORITHMS (R401). -/
  | negotiateAlgorithms (p : Transport) (asym : BitVec 32) (hash : BitVec 32)
  /-- GET_DIGESTS (R401). -/
  | getDigests (p : Transport)
  /-- GET_CERTIFICATE (R401). -/
  | getCertificate (p : Transport) (slot : BitVec 8) (off : BitVec 16) (len : BitVec 16)
  /-- CHALLENGE (R401). -/
  | challenge (p : Transport) (slot : BitVec 8) (nonce : BitVec 256)
  /-- GET_MEASUREMENTS (R401). -/
  | getMeasurements (p : Transport) (idx : BitVec 8)
  /-- RECORD_ARRIVES (R411). -/
  | recordArrives (k : Nat)
  /-- RECORD_STORE (R411). -/
  | recordStore
  /-- EVR_WINDOW_READ (R415). -/
  | evrWindowRead (w : Who) (k : Fin 16)
  /-- SND_ULO_READ (R425). -/
  | sndUloRead (w : Who) (u : SndUnit) (i : Fin 8)
  /-- SND_ULO_WRITE (R425). -/
  | sndUloWrite (w : Who) (u : SndUnit) (i : Fin 8) (v : W36)
  /-- REGISTER_WRITE (R9). -/
  | registerWrite (w : Who) (a : BitVec 52) (v : W36)
  /-- POWER_ON (R426). -/
  | powerOn (straps : BitVec 3) (slotsOk : Bool)
  /-- PKG_RESET_ASSERT (R439). -/
  | pkgResetAssert
  /-- PKG_RESET_RELEASE (R426). -/
  | pkgResetRelease (held : BitVec 32) (straps : BitVec 3)
  /-- STARTUP_STEP (R428). -/
  | startupStep (x : StartIn)
  /-- RAIL_OUT_OF_RANGE (R445). -/
  | railOutOfRange (r : Rail)
  /-- REFCLK_LOSS (R448). -/
  | refclkLoss
  /-- THERMAL_TRIP (R447). -/
  | thermalTrip (pt : Fin 96)
  /-- PMB_ALERT (R444). -/
  | pmbAlert (lvled : Bool)
  /-- ARRAY_INVAL_DONE (R161). -/
  | arrayInvalDone (n : Fin 12)
  /-- MAILBOX_REQ_WRITE (R389). -/
  | mailboxReqWrite (w : Who) (m : Fin 16) (v : W36)
  /-- GUEST_LINK_TRAINED (R241). -/
  | guestLinkTrained (g : Fin 2) (ok : Bool)
  /-- SURPRISE_REMOVAL (R286). -/
  | surpriseRemoval (p : Fin 96) (dpc : Bool)
  /-- INTERRUPT_DISABLE_WRITE (R305). -/
  | interruptDisableWrite (b : Fin 12) (v : Bool)
  /-- TAG_REUSE_ALLOWED (R296). -/
  | tagReuseAllowed (p : Fin 96) (tag : BitVec 14)
  /-- BACKUP_SIDEBAND_LANE_FAILED (R208). -/
  | backupSidebandLaneFailed (n : Fin 12) (toK : Bool)
  deriving DecidableEq, Repr

end Sys2Proof
end

