-- ==== Sys2Proof/WellFormed.lean ====
section
/-! DEFINITION. Which commands are well formed: the relations between operands that the types do not
say. Units, register numbers, control-register numbers and selectors are bounded by their types. -/

namespace Sys2Proof

/-- EMARK[7:4] must be 0 in word form (R49, R56). -/
def emarkOk (e : BitVec 8) (wordForm : Bool) : Bool := !wordForm || e.extractLsb' 4 4 == 0

/-- FSQRT, FNEG and FABS read no rs2; FMIN, FMAX, FNEG and FABS do not round (R64, R71). -/
def fopOk (op : FOp) (rs2Zero : Bool) (rm : Rm) : Bool :=
  match op with
  | .add | .sub | .mul | .div => true
  | .sqrt => rs2Zero
  | .min | .max => rm == .even
  | .neg | .abs => rs2Zero && rm == .even

/-- The lane is below the lane count; a broadcast names no lane (R66, R71). -/
def laneOk (k : VmovKind) (lane : BitVec 6) (e : VElt) : Bool :=
  match k with
  | .broadcast => lane == 0
  | .insert | .extract =>
    match e with
    | .double => decide (lane.toNat < 8)
    | .word => decide (lane.toNat < 16)
    | .half => decide (lane.toNat < 32)
    | .nonet => true

/-- The SHI amount is below the width (R71). -/
def shiOk (w36 : Bool) (amt : BitVec 7) : Bool := decide (amt.toNat < if w36 then 36 else 72)

/-- Isle agents, and for uncached requests also guests and the Keystone, send requests (R170, R176). -/
def senderOk (isleOnly : Bool) (src : BitVec 4) : Bool :=
  decide (src.toNat < 12) || (!isleOnly && src != 14)

/-- A message from a home to an Isle. -/
def toIsle (m : Msg) : Bool := decide (m.dst.toNat < 12)

/-- The check that a command's operands fit together. -/
def wellFormed : Instr → Bool
  | .shi _ _ _ _ w amt => shiOk w amt
  | .lwm _ _ _ e _ _ => emarkOk e true
  | .swm _ _ _ e _ _ => emarkOk e true
  | .addM _ _ _ _ e _ w => emarkOk e w
  | .subM _ _ _ _ e _ w => emarkOk e w
  | .mulM _ _ _ _ e _ w => emarkOk e w
  | .andM _ _ _ _ e _ w => emarkOk e w
  | .orM _ _ _ _ e _ w => emarkOk e w
  | .xorM _ _ _ _ e _ w => emarkOk e w
  | .mtest _ _ e _ w => emarkOk e w
  | .mset _ _ _ e w => emarkOk e w
  | .fop64 _ _ _ rs2 op rm => fopOk op (rs2 == 0) rm
  | .fop32 _ _ _ rs2 op rm => fopOk op (rs2 == 0) rm
  | .vfop _ _ _ v2 _ op rm => fopOk op (v2 == 0) rm
  | .vmov _ k _ _ lane e => laneOk k lane e
  | .rds m => senderOk true m.src
  | .rdu m => senderOk true m.src
  | .upg m => senderOk true m.src
  | .trw m => senderOk true m.src
  | .wbd m => senderOk true m.src && m.hasData
  | .evc m => senderOk true m.src
  | .rdn m => senderOk false m.src
  | .wrn m => senderOk false m.src && m.hasData
  | .wrl m => senderOk false m.src && m.hasData
  | .atm m => senderOk false m.src && m.hasData
  | .cisternAccess m => senderOk false m.src && toIsle m
  | .fws m => toIsle m
  | .fwu m => toIsle m
  | .sng m => toIsle m
  | .snc m => toIsle m
  | .sni m => toIsle m
  | .inv m => toIsle m
  | .pfh m => toIsle m
  | .ackd m => m.hasData
  | .dat m => m.hasData && toIsle m
  | .thermalCap _ pts => pts.length == 6
  | .inboundRequest _ k _ len data => k == .read || data.length == len.toNat
  | .portLinkTraining _ r => !r.up || (r.width == 1 || r.width == 2 || r.width == 4 || r.width == 8 || r.width == 16)
  | _ => true

end Sys2Proof
end

