-- ==== Sys2Proof/Decode.lean ====
section
/-! DEFINITION. The instruction words of Folxis-36 (R67 to R71): the encoder, the check of a word (R69,
R92), and the decoder of a word. `decodeTableWord` is the host's decoder over the table's bits; the
table gives no row any bits. -/

namespace Sys2Proof

/-! ### Fields and formats (R67) -/

def wMajor (w : W36) : BitVec 8 := w.extractLsb' 28 8
def wRd (w : W36) : BitVec 6 := w.extractLsb' 22 6
def wRs1 (w : W36) : BitVec 6 := w.extractLsb' 16 6
def wRs2 (w : W36) : BitVec 6 := w.extractLsb' 10 6
def wMinor (w : W36) : BitVec 10 := w.extractLsb' 0 10
def wImm16 (w : W36) : BitVec 16 := w.extractLsb' 0 16

def fmtA (maj : BitVec 8) (rd rs1 rs2 : BitVec 6) (mn : BitVec 10) : W36 := maj ++ rd ++ rs1 ++ rs2 ++ mn
def fmtI (maj : BitVec 8) (rd rs1 : BitVec 6) (imm : BitVec 16) : W36 := maj ++ rd ++ rs1 ++ imm
def fmtL (maj : BitVec 8) (rd : BitVec 6) (imm : BitVec 22) : W36 := maj ++ rd ++ imm
def fmtH (maj : BitVec 8) (rd : BitVec 6) (pos : BitVec 2) (imm : BitVec 18) : W36 :=
  maj ++ rd ++ (0 : BitVec 2) ++ pos ++ imm
def fmtM (maj : BitVec 8) (rd rs1 rs2 : BitVec 6) (emark : BitVec 8) (act w : Bool) : W36 :=
  maj ++ rd ++ rs1 ++ rs2 ++ emark ++ BitVec.ofBool act ++ BitVec.ofBool w
def fmtN (maj : BitVec 8) (rd rs1 : BitVec 6) (emark : BitVec 8) (act : Bool) (disp : BitVec 7) : W36 :=
  maj ++ rd ++ rs1 ++ emark ++ BitVec.ofBool act ++ disp
def fmtK (maj : BitVec 8) (ra : BitVec 6) (cond : BitVec 4) (imm : BitVec 18) : W36 := maj ++ ra ++ cond ++ imm
def fmtB (maj : BitVec 8) (a : Bool) (off : BitVec 27) : W36 := maj ++ BitVec.ofBool a ++ off
def fmtD (maj : BitVec 8) (a : Bool) (rc : BitVec 6) (off : BitVec 21) : W36 := maj ++ BitVec.ofBool a ++ rc ++ off
def fmtJ (maj : BitVec 8) (a : Bool) (rd rs1 : BitVec 6) : W36 :=
  maj ++ BitVec.ofBool a ++ rd ++ rs1 ++ (0 : BitVec 15)
def fmtZ (maj : BitVec 8) : W36 := maj ++ (0 : BitVec 28)

/-! ### Selectors (R58, R59, R60, R64, R71, R75) -/

def FenceKind.code : FenceKind → BitVec 10
  | .full => 0 | .storeStore => 1 | .loadLoad => 2 | .instruction => 3

def Cond.code : Cond → BitVec 4
  | .eq => 0 | .ne => 1 | .lt => 2 | .ge => 3 | .le => 4 | .gt => 5 | .ltu => 6 | .geu => 7
  | .leu => 8 | .gtu => 9 | .any => 10 | .none => 11

def condOf (c : BitVec 4) : Option Cond :=
  [Cond.eq, .ne, .lt, .ge, .le, .gt, .ltu, .geu, .leu, .gtu, .any, .none][c.toNat]?

def AluOp.code : AluOp → BitVec 10
  | .add => 0 | .sub => 1 | .and => 2 | .or => 3 | .xor => 4 | .andn => 5 | .sll => 6 | .srl => 7
  | .sra => 8 | .mul => 9 | .mulh => 10 | .mulhu => 11 | .div => 12 | .divu => 13 | .rem => 14
  | .remu => 15 | .min => 16 | .max => 17 | .minu => 18 | .maxu => 19

def aluOf (c : BitVec 10) : Option AluOp :=
  [AluOp.add, .sub, .and, .or, .xor, .andn, .sll, .srl, .sra, .mul, .mulh, .mulhu, .div, .divu, .rem,
    .remu, .min, .max, .minu, .maxu][c.toNat]?

def ShKind.code : ShKind → BitVec 2
  | .sll => 0 | .srl => 1 | .sra => 2

def shOf (c : BitVec 2) : Option ShKind := [ShKind.sll, .srl, .sra][c.toNat]?

def LdSize.code : LdSize → BitVec 3
  | .n => 0 | .ns => 1 | .h => 2 | .hs => 3 | .w => 4 | .ws => 5 | .d => 6

def ldOf (c : BitVec 3) : Option LdSize := [LdSize.n, .ns, .h, .hs, .w, .ws, .d][c.toNat]?

/-- SX takes the even LX sizes (R57). -/
def MUnit.sxCode : MUnit → BitVec 3
  | .nonet => 0 | .half => 2 | .word => 4 | .double => 6

def sxOf (c : BitVec 3) : Option MUnit :=
  [some MUnit.nonet, none, some .half, none, some .word, none, some .double, none][c.toNat]?.join

def AmoOp.code : AmoOp → BitVec 4
  | .swap => 0 | .cas => 1 | .add => 2 | .and => 3 | .or => 4 | .xor => 5 | .min => 6 | .max => 7
  | .minu => 8 | .maxu => 9

def amoOf (c : BitVec 4) : Option AmoOp :=
  [AmoOp.swap, .cas, .add, .and, .or, .xor, .min, .max, .minu, .maxu][c.toNat]?

def PrefHint.code : PrefHint → BitVec 6
  | .l1 => 0 | .l2 => 1 | .isle => 2 | .stream => 3

def prefOf (c : BitVec 6) : Option PrefHint := [PrefHint.l1, .l2, .isle, .stream][c.toNat]?

def fenceOf (c : BitVec 10) : Option FenceKind :=
  [FenceKind.full, .storeStore, .loadLoad, .instruction][c.toNat]?

def FOp.code : FOp → Nat
  | .add => 0 | .sub => 1 | .mul => 2 | .div => 3 | .sqrt => 4 | .min => 5 | .max => 6 | .neg => 7 | .abs => 8

def fopOf (c : Nat) : Option FOp := [FOp.add, .sub, .mul, .div, .sqrt, .min, .max, .neg, .abs][c]?

/-- Operations that read no rs2 (R71). -/
def FOp.unary : FOp → Bool
  | .sqrt | .neg | .abs => true
  | .add | .sub | .mul | .div | .min | .max => false

/-- Operations that do not round, so that RM must be 0 (R64). -/
def FOp.exact : FOp → Bool
  | .min | .max | .neg | .abs => true
  | .add | .sub | .mul | .div | .sqrt => false

def Rm.code : Rm → BitVec 3
  | .even => 0 | .zero => 1 | .down => 2 | .up => 3 | .away => 4 | .dyn => 7

def rmOf (c : BitVec 3) : Option Rm :=
  [some Rm.even, some .zero, some .down, some .up, some .away, none, none, some .dyn][c.toNat]?.join

def FmaOp.code : FmaOp → BitVec 7
  | .madd => 0 | .msub => 1 | .nmadd => 2 | .nmsub => 3

def fmaOf (c : BitVec 7) : Option FmaOp := [FmaOp.madd, .msub, .nmadd, .nmsub][c.toNat]?

def CvtOp.code : CvtOp → BitVec 7
  | .d2s => 0 | .s2d => 1 | .d2l => 2 | .d2ul => 3 | .l2d => 4 | .ul2d => 5 | .s2w => 6 | .w2s => 7

def cvtOf (c : BitVec 7) : Option CvtOp :=
  [CvtOp.d2s, .s2d, .d2l, .d2ul, .l2d, .ul2d, .s2w, .w2s][c.toNat]?

def FRel.code : FRel → BitVec 2
  | .eq => 0 | .lt => 1 | .le => 2 | .unord => 3

def frelOf (c : BitVec 2) : FRel :=
  if c = 0 then .eq else if c = 1 then .lt else if c = 2 then .le else .unord

def VElt.code : VElt → BitVec 2
  | .double => 0 | .word => 1 | .half => 2 | .nonet => 3

def veltOf (c : BitVec 2) : VElt :=
  if c = 0 then .double else if c = 1 then .word else if c = 2 then .half else .nonet

/-- Lanes of a vector register (R43). -/
def VElt.lanes : VElt → Nat
  | .double => 8 | .word => 16 | .half => 32 | .nonet => 64

def VOp.code : VOp → BitVec 6
  | .add => 0 | .sub => 1 | .and => 2 | .or => 3 | .xor => 4 | .mul => 5 | .min => 6 | .max => 7
  | .minu => 8 | .maxu => 9

def vopOf (c : BitVec 6) : Option VOp :=
  [VOp.add, .sub, .and, .or, .xor, .mul, .min, .max, .minu, .maxu][c.toNat]?

/-! ### The check of a word -/

/-- DETAIL 1 before DETAIL 2 (R93). -/
def firstDetail (reserved nonzero : Bool) : Option (BitVec 8) :=
  if reserved then some 1 else if nonzero then some 2 else none

/-- DETAIL 0 to 2 of Illegal-instruction for a word (R64, R66, R69 to R71, R92); none for a word whose
encoding is defined. -/
def wordDetail (w : W36) : Option (BitVec 8) :=
  let rd := wRd w
  let rs1 := wRs1 w
  let rs2 := wRs2 w
  let mn := wMinor w
  let low28 := w.extractLsb' 0 28
  let rm : BitVec 3 := mn.extractLsb' 7 3
  let op7 : BitVec 7 := mn.extractLsb' 0 7
  let op6 : BitVec 6 := mn.extractLsb' 0 6
  let big (r : BitVec 6) : Bool := decide (31 < r.toNat)
  let emHi (e : BitVec 8) : Bool := e.extractLsb' 4 4 != 0
  let emM : BitVec 8 := w.extractLsb' 2 8
  let emN : BitVec 8 := w.extractLsb' 8 8
  let wbit := w.getLsbD 0
  let act := w.getLsbD 1
  let fopCheck (op : Nat) (extra : Bool) : Option (BitVec 8) :=
    match fopOf op with
    | none => some 1
    | some o =>
      firstDetail (extra || (!o.exact && (rmOf rm).isNone)) ((o.unary && rs2 != 0) || (o.exact && rm != 0))
  match (wMajor w).toNat with
  | 0o001 => firstDetail false (low28 != 0)
  | 0o002 => firstDetail (fenceOf mn).isNone (rd != 0 || rs1 != 0 || rs2 != 0)
  | 0o003 => firstDetail false (rs1 != 0 || rs2 != 0)
  | 0o004 => firstDetail false (rd != 0 || rs2 != 0)
  | 0o005 =>
    firstDetail (decide (4 < mn.toNat)) (if mn = 4 then rs2 != 0 else rd != 0 || rs1 != 0 || rs2 != 0)
  | 0o006 | 0o007 => firstDetail false (low28 != 0)
  | 0o020 | 0o021 | 0o023 => none
  | 0o022 => firstDetail false (w.extractLsb' 0 15 != 0)
  | 0o024 => firstDetail (condOf (mn.extractLsb' 6 4)).isNone (rs2 != 0 || op6 != 0)
  | 0o025 => firstDetail (condOf (w.extractLsb' 18 4)).isNone false
  | 0o040 | 0o041 => firstDetail (aluOf mn).isNone false
  | 0o042 | 0o043 | 0o044 | 0o045 | 0o046 => none
  | 0o047 =>
    firstDetail ((shOf (mn.extractLsb' 8 2)).isNone
      || decide ((if mn.getLsbD 7 then 36 else 72) ≤ op7.toNat)) (rs2 != 0)
  | 0o050 => none
  | 0o051 => firstDetail false (w.extractLsb' 20 2 != 0)
  | 0o060 | 0o061 | 0o062 | 0o063 | 0o064 | 0o065 | 0o066 => none
  | 0o067 => firstDetail (ldOf (mn.extractLsb' 7 3)).isNone (mn.extractLsb' 0 5 != 0)
  | 0o070 | 0o071 | 0o072 | 0o073 => none
  | 0o074 => firstDetail (sxOf (mn.extractLsb' 7 3)).isNone (mn.extractLsb' 0 5 != 0)
  | 0o075 => firstDetail (amoOf (mn.extractLsb' 6 4)).isNone (mn.extractLsb' 0 5 != 0)
  | 0o076 => firstDetail (prefOf rd).isNone false
  | 0o100 | 0o102 => firstDetail (emHi emN) false
  | 0o101 | 0o103 => none
  | 0o120 | 0o121 | 0o122 | 0o123 | 0o124 | 0o125 => firstDetail (wbit && emHi emM) false
  | 0o126 => firstDetail (wbit && emHi emM) (rd != 0 || rs2 != 0)
  | 0o127 => firstDetail (wbit && emHi emM) (rs2 != 0 || act)
  | 0o130 => firstDetail false (rs2 != 0 || emM != 0 || act)
  | 0o140 | 0o141 => fopCheck op7.toNat false
  | 0o142 | 0o143 => firstDetail ((fmaOf op7).isNone || (rmOf rm).isNone) false
  | 0o144 => firstDetail ((cvtOf op7).isNone || (rmOf rm).isNone) (rs2 != 0)
  | 0o145 => firstDetail false (mn.extractLsb' 7 2 != 0 || mn.extractLsb' 2 4 != 0)
  | 0o160 | 0o161 => firstDetail (big rd) false
  | 0o162 => firstDetail ((vopOf op6).isNone || big rd || big rs1 || big rs2) (mn.extractLsb' 6 2 != 0)
  | 0o163 =>
    fopCheck op6.toNat (big rd || big rs1 || (big rs2 && !((fopOf op6.toNat).map FOp.unary == some true)))
  | 0o164 =>
    let n := (veltOf (mn.extractLsb' 8 2)).lanes
    match (mn.extractLsb' 6 2).toNat with
    | 0 => firstDetail (big rd) (rs2 != 0 || op6 != 0)
    | 1 => firstDetail (big rd || decide (n ≤ rs2.toNat)) (op6 != 0)
    | 2 => firstDetail (big rs1 || decide (n ≤ rs2.toNat)) (op6 != 0)
    | _ => some 1
  | _ => some 0

/-! ### The encoder -/

/-- A vector register number in a 6-bit field. -/
def vReg (v : BitVec 5) : BitVec 6 := (0 : BitVec 1) ++ v

def rmOp (rm : Rm) (op : BitVec 7) : BitVec 10 := rm.code ++ op

/-- The instruction word of a Folxis-36 row (R67 to R71); none for a row that is no instruction. The
rows that write one control register with a behaviour of its own are CRW words. -/
def encodeWord : Instr → Option W36
  | .nop _ => some (fmtZ 0o001)
  | .illegalInstruction _ w => some w
  | .fence _ k => some (fmtA 0o002 0 0 0 k.code)
  | .crr _ rd num => some (fmtA 0o003 rd 0 0 num)
  | .crw _ rs1 num => some (fmtA 0o004 0 rs1 0 num)
  | .crwCtxid _ rs1 => some (fmtA 0o004 0 rs1 0 0o0001)
  | .tlbinvPage _ rs1 => some (fmtA 0o004 0 rs1 0 0o0102)
  | .tlbinvContext _ rs1 => some (fmtA 0o004 0 rs1 0 0o0102)
  | .tlbinvTable _ rs1 => some (fmtA 0o004 0 rs1 0 0o0102)
  | .tlbinvPageAll _ rs1 => some (fmtA 0o004 0 rs1 0 0o0102)
  | .ctxreseed _ rs1 => some (fmtA 0o004 0 rs1 0 0o0110)
  | .fstepWrite _ rs1 => some (fmtA 0o004 0 rs1 0 0o0120)
  | .syscall _ => some (fmtA 0o005 0 0 0 0)
  | .hvcall _ => some (fmtA 0o005 0 0 0 1)
  | .tret _ => some (fmtA 0o005 0 0 0 2)
  | .wait _ => some (fmtA 0o005 0 0 0 3)
  | .launch _ rd rs1 => some (fmtA 0o005 rd rs1 0 4)
  | .vcall _ => some (fmtZ 0o006)
  | .vret _ => some (fmtZ 0o007)
  | .br _ a off => some (fmtB 0o020 a off)
  | .bl _ a off => some (fmtB 0o021 a off)
  | .jr _ a rd rs1 => some (fmtJ 0o022 a rd rs1)
  | .dbnz _ a rc off => some (fmtD 0o023 a rc off)
  | .skipr _ ra rb c => some (fmtA 0o024 ra rb 0 (c.code ++ (0 : BitVec 6)))
  | .skipi _ ra c imm => some (fmtK 0o025 ra c.code imm)
  | .alu72 _ rd rs1 rs2 op => some (fmtA 0o040 rd rs1 rs2 op.code)
  | .alu36 _ rd rs1 rs2 op => some (fmtA 0o041 rd rs1 rs2 op.code)
  | .addi _ rd rs1 imm => some (fmtI 0o042 rd rs1 imm)
  | .addi36 _ rd rs1 imm => some (fmtI 0o043 rd rs1 imm)
  | .andi _ rd rs1 imm => some (fmtI 0o044 rd rs1 imm)
  | .ori _ rd rs1 imm => some (fmtI 0o045 rd rs1 imm)
  | .xori _ rd rs1 imm => some (fmtI 0o046 rd rs1 imm)
  | .shi _ rd rs1 k w amt => some (fmtA 0o047 rd rs1 0 (k.code ++ BitVec.ofBool w ++ amt))
  | .li _ rd imm => some (fmtL 0o050 rd imm)
  | .insh _ rd pos imm => some (fmtH 0o051 rd pos imm)
  | .ln _ rd rs1 imm => some (fmtI 0o060 rd rs1 imm)
  | .lns _ rd rs1 imm => some (fmtI 0o061 rd rs1 imm)
  | .lh _ rd rs1 imm => some (fmtI 0o062 rd rs1 imm)
  | .lhs _ rd rs1 imm => some (fmtI 0o063 rd rs1 imm)
  | .lw _ rd rs1 imm => some (fmtI 0o064 rd rs1 imm)
  | .lws _ rd rs1 imm => some (fmtI 0o065 rd rs1 imm)
  | .ld _ rd rs1 imm => some (fmtI 0o066 rd rs1 imm)
  | .lx _ rd rs1 rs2 size sc => some (fmtA 0o067 rd rs1 rs2 (size.code ++ sc ++ (0 : BitVec 5)))
  | .sn _ rd rs1 imm => some (fmtI 0o070 rd rs1 imm)
  | .sh _ rd rs1 imm => some (fmtI 0o071 rd rs1 imm)
  | .sw _ rd rs1 imm => some (fmtI 0o072 rd rs1 imm)
  | .sd _ rd rs1 imm => some (fmtI 0o073 rd rs1 imm)
  | .sx _ rd rs1 rs2 size sc => some (fmtA 0o074 rd rs1 rs2 (size.sxCode ++ sc ++ (0 : BitVec 5)))
  | .amo _ rd rs1 rs2 op w => some (fmtA 0o075 rd rs1 rs2 (op.code ++ BitVec.ofBool w ++ (0 : BitVec 5)))
  | .pref _ h rs1 imm => some (fmtI 0o076 h.code rs1 imm)
  | .lwm _ rd rs1 em act d => some (fmtN 0o100 rd rs1 em act d)
  | .ldm _ rd rs1 em act d => some (fmtN 0o101 rd rs1 em act d)
  | .swm _ rd rs1 em act d => some (fmtN 0o102 rd rs1 em act d)
  | .sdm _ rd rs1 em act d => some (fmtN 0o103 rd rs1 em act d)
  | .addM _ rd rs1 rs2 em act w => some (fmtM 0o120 rd rs1 rs2 em act w)
  | .subM _ rd rs1 rs2 em act w => some (fmtM 0o121 rd rs1 rs2 em act w)
  | .mulM _ rd rs1 rs2 em act w => some (fmtM 0o122 rd rs1 rs2 em act w)
  | .andM _ rd rs1 rs2 em act w => some (fmtM 0o123 rd rs1 rs2 em act w)
  | .orM _ rd rs1 rs2 em act w => some (fmtM 0o124 rd rs1 rs2 em act w)
  | .xorM _ rd rs1 rs2 em act w => some (fmtM 0o125 rd rs1 rs2 em act w)
  | .mtest _ rs1 em act w => some (fmtM 0o126 0 rs1 0 em act w)
  | .mset _ rd rs1 em w => some (fmtM 0o127 rd rs1 0 em false w)
  | .mget _ rd rs1 w => some (fmtM 0o130 rd rs1 0 0 false w)
  | .fop64 _ rd rs1 rs2 op rm => some (fmtA 0o140 rd rs1 rs2 (rmOp rm (BitVec.ofNat 7 op.code)))
  | .fop32 _ rd rs1 rs2 op rm => some (fmtA 0o141 rd rs1 rs2 (rmOp rm (BitVec.ofNat 7 op.code)))
  | .fma64 _ rd rs1 rs2 op rm => some (fmtA 0o142 rd rs1 rs2 (rmOp rm op.code))
  | .fma32 _ rd rs1 rs2 op rm => some (fmtA 0o143 rd rs1 rs2 (rmOp rm op.code))
  | .fcvt _ rd rs1 op rm => some (fmtA 0o144 rd rs1 0 (rmOp rm op.code))
  | .fcmp _ rd rs1 rs2 w sig rel =>
    some (fmtA 0o145 rd rs1 rs2 (BitVec.ofBool w ++ (0 : BitVec 2) ++ BitVec.ofBool sig ++ (0 : BitVec 4) ++ rel.code))
  | .vld _ vd rs1 imm => some (fmtI 0o160 (vReg vd) rs1 imm)
  | .vst _ vs rs1 imm => some (fmtI 0o161 (vReg vs) rs1 imm)
  | .vop _ vd a b e op =>
    some (fmtA 0o162 (vReg vd) (vReg a) (vReg b) (e.code ++ (0 : BitVec 2) ++ op.code))
  | .vfop _ vd a b w op rm =>
    some (fmtA 0o163 (vReg vd) (vReg a) (vReg b) (rm.code ++ BitVec.ofBool w ++ BitVec.ofNat 6 op.code))
  | .vmov _ .broadcast v g lane e =>
    some (fmtA 0o164 (vReg v) g lane (e.code ++ (0 : BitVec 2) ++ (0 : BitVec 6)))
  | .vmov _ .insert v g lane e =>
    some (fmtA 0o164 (vReg v) g lane (e.code ++ (1 : BitVec 2) ++ (0 : BitVec 6)))
  | .vmov _ .extract v g lane e =>
    some (fmtA 0o164 g (vReg v) lane (e.code ++ (2 : BitVec 2) ++ (0 : BitVec 6)))
  | _ => none

/-! ### The decoder of a word -/

/-- The low five bits of a field that names a vector register. -/
def vOf (r : BitVec 6) : BitVec 5 := r.extractLsb' 0 5

/-- The row that a legal instruction word is, for thread t; none for an illegal word. A CRW is the row
CRW whatever register it names. -/
def decodeWord (t : Fin 576) (w : W36) : Option Instr :=
  if (wordDetail w).isSome then none else
  let rd := wRd w
  let rs1 := wRs1 w
  let rs2 := wRs2 w
  let mn := wMinor w
  let imm := wImm16 w
  let a := w.getLsbD 27
  let rm := (rmOf (mn.extractLsb' 7 3)).getD .even
  let op7 : BitVec 7 := mn.extractLsb' 0 7
  let emM : BitVec 8 := w.extractLsb' 2 8
  let emN : BitVec 8 := w.extractLsb' 8 8
  let actM := w.getLsbD 1
  let actN := w.getLsbD 7
  let dN : BitVec 7 := w.extractLsb' 0 7
  let b0 := w.getLsbD 0
  let ve := veltOf (mn.extractLsb' 8 2)
  match (wMajor w).toNat with
  | 0o001 => some (.nop t)
  | 0o002 => (fenceOf mn).map (.fence t)
  | 0o003 => some (.crr t rd mn)
  | 0o004 => some (.crw t rs1 mn)
  | 0o005 =>
    [Instr.syscall t, .hvcall t, .tret t, .wait t, .launch t rd rs1][mn.toNat]?
  | 0o006 => some (.vcall t)
  | 0o007 => some (.vret t)
  | 0o020 => some (.br t a (w.extractLsb' 0 27))
  | 0o021 => some (.bl t a (w.extractLsb' 0 27))
  | 0o022 => some (.jr t a (w.extractLsb' 21 6) (w.extractLsb' 15 6))
  | 0o023 => some (.dbnz t a (w.extractLsb' 21 6) (w.extractLsb' 0 21))
  | 0o024 => (condOf (mn.extractLsb' 6 4)).map (.skipr t rd rs1)
  | 0o025 => (condOf (w.extractLsb' 18 4)).map fun c => .skipi t rd c (w.extractLsb' 0 18)
  | 0o040 => (aluOf mn).map (.alu72 t rd rs1 rs2)
  | 0o041 => (aluOf mn).map (.alu36 t rd rs1 rs2)
  | 0o042 => some (.addi t rd rs1 imm)
  | 0o043 => some (.addi36 t rd rs1 imm)
  | 0o044 => some (.andi t rd rs1 imm)
  | 0o045 => some (.ori t rd rs1 imm)
  | 0o046 => some (.xori t rd rs1 imm)
  | 0o047 => (shOf (mn.extractLsb' 8 2)).map fun k => .shi t rd rs1 k (mn.getLsbD 7) op7
  | 0o050 => some (.li t rd (w.extractLsb' 0 22))
  | 0o051 => some (.insh t rd (w.extractLsb' 18 2) (w.extractLsb' 0 18))
  | 0o060 => some (.ln t rd rs1 imm)
  | 0o061 => some (.lns t rd rs1 imm)
  | 0o062 => some (.lh t rd rs1 imm)
  | 0o063 => some (.lhs t rd rs1 imm)
  | 0o064 => some (.lw t rd rs1 imm)
  | 0o065 => some (.lws t rd rs1 imm)
  | 0o066 => some (.ld t rd rs1 imm)
  | 0o067 => (ldOf (mn.extractLsb' 7 3)).map fun z => .lx t rd rs1 rs2 z (mn.extractLsb' 5 2)
  | 0o070 => some (.sn t rd rs1 imm)
  | 0o071 => some (.sh t rd rs1 imm)
  | 0o072 => some (.sw t rd rs1 imm)
  | 0o073 => some (.sd t rd rs1 imm)
  | 0o074 => (sxOf (mn.extractLsb' 7 3)).map fun z => .sx t rd rs1 rs2 z (mn.extractLsb' 5 2)
  | 0o075 => (amoOf (mn.extractLsb' 6 4)).map fun o => .amo t rd rs1 rs2 o (mn.getLsbD 5)
  | 0o076 => (prefOf rd).map fun h => .pref t h rs1 imm
  | 0o100 => some (.lwm t rd rs1 emN actN dN)
  | 0o101 => some (.ldm t rd rs1 emN actN dN)
  | 0o102 => some (.swm t rd rs1 emN actN dN)
  | 0o103 => some (.sdm t rd rs1 emN actN dN)
  | 0o120 => some (.addM t rd rs1 rs2 emM actM b0)
  | 0o121 => some (.subM t rd rs1 rs2 emM actM b0)
  | 0o122 => some (.mulM t rd rs1 rs2 emM actM b0)
  | 0o123 => some (.andM t rd rs1 rs2 emM actM b0)
  | 0o124 => some (.orM t rd rs1 rs2 emM actM b0)
  | 0o125 => some (.xorM t rd rs1 rs2 emM actM b0)
  | 0o126 => some (.mtest t rs1 emM actM b0)
  | 0o127 => some (.mset t rd rs1 emM b0)
  | 0o130 => some (.mget t rd rs1 b0)
  | 0o140 => (fopOf op7.toNat).map fun o => .fop64 t rd rs1 rs2 o rm
  | 0o141 => (fopOf op7.toNat).map fun o => .fop32 t rd rs1 rs2 o rm
  | 0o142 => (fmaOf op7).map fun o => .fma64 t rd rs1 rs2 o rm
  | 0o143 => (fmaOf op7).map fun o => .fma32 t rd rs1 rs2 o rm
  | 0o144 => (cvtOf op7).map fun o => .fcvt t rd rs1 o rm
  | 0o145 => some (.fcmp t rd rs1 rs2 (mn.getLsbD 9) (mn.getLsbD 6) (frelOf (mn.extractLsb' 0 2)))
  | 0o160 => some (.vld t (vOf rd) rs1 imm)
  | 0o161 => some (.vst t (vOf rd) rs1 imm)
  | 0o162 => (vopOf (mn.extractLsb' 0 6)).map fun o => .vop t (vOf rd) (vOf rs1) (vOf rs2) ve o
  | 0o163 =>
    (fopOf (mn.extractLsb' 0 6).toNat).map fun o => .vfop t (vOf rd) (vOf rs1) (vOf rs2) (mn.getLsbD 6) o rm
  | 0o164 =>
    match (mn.extractLsb' 6 2).toNat with
    | 0 => some (.vmov t .broadcast (vOf rd) rs1 rs2 ve)
    | 1 => some (.vmov t .insert (vOf rd) rs1 rs2 ve)
    | _ => some (.vmov t .extract (vOf rs1) rd rs2 ve)
  | _ => none

/-! ### Rows that are instructions -/

/-- The thread whose instruction a row is; none for a row that is no instruction (R67). -/
def instrThread : Instr → Option (Fin 576)
  | .nop t | .illegalInstruction t _ | .fence t _ | .crr t _ _ | .crw t _ _ | .crwCtxid t _ | .tlbinvPage t _
  | .tlbinvContext t _ | .tlbinvTable t _ | .tlbinvPageAll t _ | .ctxreseed t _ | .fstepWrite t _ | .syscall t
  | .hvcall t | .tret t | .wait t | .launch t _ _ | .vcall t | .vret t | .br t _ _ | .bl t _ _ | .jr t _ _ _
  | .dbnz t _ _ _ | .skipr t _ _ _ | .skipi t _ _ _ | .alu72 t _ _ _ _ | .alu36 t _ _ _ _ | .addi t _ _ _
  | .addi36 t _ _ _ | .andi t _ _ _ | .ori t _ _ _ | .xori t _ _ _ | .shi t _ _ _ _ _ | .li t _ _ | .insh t _ _ _
  | .ln t _ _ _ | .lns t _ _ _ | .lh t _ _ _ | .lhs t _ _ _ | .lw t _ _ _ | .lws t _ _ _ | .ld t _ _ _
  | .lx t _ _ _ _ _ | .sn t _ _ _ | .sh t _ _ _ | .sw t _ _ _ | .sd t _ _ _ | .sx t _ _ _ _ _ | .amo t _ _ _ _ _
  | .pref t _ _ _ | .lwm t _ _ _ _ _ | .ldm t _ _ _ _ _ | .swm t _ _ _ _ _ | .sdm t _ _ _ _ _ | .addM t _ _ _ _ _ _
  | .subM t _ _ _ _ _ _ | .mulM t _ _ _ _ _ _ | .andM t _ _ _ _ _ _ | .orM t _ _ _ _ _ _ | .xorM t _ _ _ _ _ _
  | .mtest t _ _ _ _ | .mset t _ _ _ _ | .mget t _ _ _ | .fop64 t _ _ _ _ _ | .fop32 t _ _ _ _ _ | .fma64 t _ _ _ _ _
  | .fma32 t _ _ _ _ _ | .fcvt t _ _ _ _ | .fcmp t _ _ _ _ _ _ | .vld t _ _ _ | .vst t _ _ _ | .vop t _ _ _ _ _
  | .vfop t _ _ _ _ _ _ | .vmov t _ _ _ _ _ => some t
  | _ => none

/-- The row that an instruction's word decodes to: the rows that write one control register are CRW words (R44). -/
def asDecoded : Instr → Instr
  | .crwCtxid t rs1 => .crw t rs1 0o0001
  | .tlbinvPage t rs1 | .tlbinvContext t rs1 | .tlbinvTable t rs1 | .tlbinvPageAll t rs1 => .crw t rs1 0o0102
  | .ctxreseed t rs1 => .crw t rs1 0o0110
  | .fstepWrite t rs1 => .crw t rs1 0o0120
  | i => i

/-- The host's decoder of a table word: spec/opcode_table.json gives no row any bits, so no word spells a
command. -/
def decodeTableWord (_nbits _w : Nat) : Option Instr := none

end Sys2Proof
end

