-- ==== Sys2Proof/Machine/State.lean ====
section
/-! DEFINITION. The state of the package as plain data: every register, queue, counter, mode and land
that the spec gives it, the queue of waiting commands, the stops, and the state after reset.
Many of a kind stand in a `Store`, whose unlisted numbers hold the kind's default. -/

namespace Sys2Proof.Machine

/-- Why a step stops with a fault. -/
inductive Fault where
  /-- Raised by no meaning: an access to a unit that the ordering code does not fit answers ABSENT (R24), and an
  event of such a unit never comes, so its command changes nothing. -/
  | absentUnit
  deriving DecidableEq, Repr

/-- Why a step is refused: no meaning of this model refuses. -/
inductive Refusal where
  /-- Raised by an arm of `exec` that has no meaning yet. Safe. -/
  | notModelled (mnemonic : String)
  deriving DecidableEq, Repr

/-- The ordering codes of R1. -/
inductive Variant where
  | ty2304 | ty1920 | ty1536 | ty1920g
  deriving DecidableEq, Repr

/-- The power states of R345. -/
inductive PState where
  | run | slack | neap | dry
  deriving DecidableEq, Repr

/-- A line with its POISON flag (R175, R257). -/
structure LineVal where
  bits : LineBits := 0
  poison : Bool := false
  deriving DecidableEq, Repr

/-! ### Threads and cores -/

/-- What a thread is doing. -/
inductive TMode where
  /-- Stopped until ISLE_RELEASE or the boot release (R434). -/
  | stopped
  | running
  /-- Waiting in WAIT (R97). -/
  | waiting
  /-- Waiting in LAUNCH for reading T; the status goes to rd (R326). -/
  | launch (t : Reg) (rd : BitVec 6)
  /-- Its CRW to CTXRESEED waits for the reseed (R124). -/
  | reseed
  /-- Its CRW to TLBINV waits for the broadcast (R116). -/
  | bcast
  deriving DecidableEq, Repr

/-- One bank of trap registers, S or H, of one world (R86, R87). -/
structure Bank where
  cause : Reg := 0
  pc : Reg := 0
  npc : Reg := 0
  val : Reg := 0
  stat : Reg := 0
  vec : Reg := 0
  scr : Reg := 0
  iena : Reg := 0
  deriving DecidableEq, Repr

/-- The control registers that a thread has once per world (R86, R105, R324, R418). -/
structure WReg where
  s : Bank := {}
  h : Bank := {}
  troute : Reg := 0x40000
  /-- Interrupt-message bits of IPEND (R297). -/
  msgPend : BitVec 8 := 0
  /-- Rotation pointers of R96 for classes targeted at supervisor and at hypervisor. -/
  ptrS : Fin 8 := 0
  ptrH : Fin 8 := 0
  sxroot : Reg := 0
  hxroot : Reg := 0
  alarm : Reg := 0
  alctl : Reg := 0
  sndcnt : Store Reg := []
  sndsel : Store Reg := []
  sndperm : Reg := 0
  sndovf : Reg := 0
  deriving DecidableEq, Repr

/-- A store whose access has not ended (R103): its thread does not advance, and the store ends as its row is given again
(log entry 6). -/
structure SbStore where
  pa : Nat
  nonets : Nat
  data : LineBits
  deriving DecidableEq, Repr

/-- A thread (R42, R43, R46, R72, R98, R103, R120). -/
structure Thread where
  g : Store Reg := []
  v : Store LineBits := []
  pc : Addr := 0
  npc : Addr := 4
  ds : Bool := false
  mode : TMode := .stopped
  ctx : BitVec 12 := 0
  priv : BitVec 2 := 2
  vault : Bool := false
  rm : BitVec 3 := 0
  flags : BitVec 5 := 0
  wc : WReg := {}
  wv : WReg := {}
  ventry : Reg := 0
  vrpc : Reg := 0
  vrsave : Reg := 0
  ret : List Addr := []
  /-- The store buffer (R103). -/
  sb : List SbStore := []
  deriving DecidableEq, Repr

/-- A power request (R354 to R356). -/
structure PReq where
  target : BitVec 2
  timed : Bool
  t : Reg
  vault : Bool
  /-- The clock chosen when the request became active: the Isle's copy or the master (R321). -/
  onCopy : Bool := false
  deriving DecidableEq, Repr

/-- The request stream of a unit (R355) with the fields of its status register (R366). -/
structure Stream where
  act : Option PReq := none
  held : Option PReq := none
  waitT : Bool := false
  saving : Bool := false
  /-- A Neap or Lagoon entry has drained its cores and stopped their Isles' requests, and waits for what is open (R190). -/
  quiesce : Bool := false
  result : BitVec 3 := 0
  refuser : BitVec 4 := 0
  /-- Refusals per refuser 1 to 7, supersessions at 0 (18 bits, saturating). -/
  counts : Store Nat := []
  aborts : Store Nat := []
  deriving DecidableEq, Repr

/-- A translation that a TLB holds (R113). -/
structure TlbEntry where
  vault : Bool
  hTable : Bool
  ctx : BitVec 12
  level : Fin 3
  /-- Effective-address bits above the page offset. -/
  vpn : Nat
  pte : Reg
  deriving DecidableEq, Repr

/-- A way of a cache's tag array (R134 to R138): the line (or, in an L1, the sector) it holds. -/
structure Way where
  tag : Nat := 0
  /-- Per line of the sector; bit 0 in an L2 and the Isle cache. 0 is an invalid way. -/
  valid : BitVec 4 := 0
  dirty : BitVec 4 := 0
  age : BitVec 2 := 0
  deriving DecidableEq, Repr

/-- A core (R102 to R132, R345). -/
structure Core where
  st : PState := .dry
  autoslack : Bool := true
  /-- Slack that a request asked for (R346). -/
  slackReq : Bool := false
  stream : Stream := {}
  fReq : BitVec 6 := 29
  fCur : BitVec 6 := 29
  fRefuser : BitVec 4 := 0
  fPending : Bool := false
  /-- The last raise ended in a refusal of the ledger's claim (R353). -/
  fBlocked : Bool := false
  /-- The refuser of the limit that last lowered CAP: 3 THERMAL, 1 BEARING (R131). -/
  capBy : BitVec 4 := 3
  /-- The requests of the second stream of R354: active and held REQ. -/
  fHeld : Option (BitVec 6) := none
  fused : BitVec 6 := 36
  /-- Its claim of start-up step 8 was refused and is retried (R432). -/
  bootWait : Bool := false
  itlb : List TlbEntry := []
  dtlb : List TlbEntry := []
  tlb2 : List TlbEntry := []
  /-- The key cache, most recently used context first (R122). -/
  keys : List Nat := []
  dirTab : Store (BitVec 2) := []
  reseedCtx : BitVec 12 := 0
  reseedStatus : BitVec 2 := 0
  fixC : Store Reg := []
  fixV : Store Reg := []
  l1i : Store Way := []
  l1d : Store Way := []
  l2 : Store Way := []
  /-- Errors in the check-bit-protected nonets of the data arrays, by physical nonet address (1 or 2 bits), and in the
  tags of each way (1: one bit in one copy, 2: two bits in one copy, 3: two bits in both copies) (R141 to R143). -/
  errI : Store (BitVec 2) := []
  errD : Store (BitVec 2) := []
  err2 : Store (BitVec 2) := []
  tagI : Store (BitVec 2) := []
  tagD : Store (BitVec 2) := []
  tag2 : Store (BitVec 2) := []
  /-- Bit h: a wrong path of thread h has not been squashed yet (R126). -/
  wrong : BitVec 2 := 0
  /-- Lines that the L2 and its L1s hold valid but untracked since their disable, with their old data (R146, R148). -/
  old : Store (Option LineVal) := []
  deriving DecidableEq, Repr

/-! ### Isles -/

/-- The states of an Isle agent for a line (R185). -/
inductive AState where
  | i | s | e | o | m | isD | imD | smA | miA | eiA
  deriving DecidableEq, Repr

/-- An Isle agent's line (R185 to R189). -/
structure AgentLine where
  st : AState := .i
  val : LineVal := {}
  /-- The 96-cycle hold window is open (R188). -/
  window : Bool := false
  /-- Data and grant held while the line is being won. -/
  gotData : Option LineVal := none
  grant : Option Moesi := none
  /-- The state from which UPG was sent was O. -/
  wasO : Bool := false
  tag : BitVec 9 := 0
  deferred : List Msg := []
  deriving DecidableEq, Repr

/-- Where an Isle stands toward the package (R227, R230). -/
inductive IsleCond where
  | out | admitted | quarantined | severed | clockLost | reset | offline
  deriving DecidableEq, Repr

/-- The states of a Trowel slot (R162, R163). -/
inductive TrwState where
  | free | claimed | queued | running | doneOk | doneCistern | donePoison | faultAddr | faultWorld
  | faultTarget | cancelled | aborted
  deriving DecidableEq, Repr

/-- A Trowel slot (R163). -/
structure TrwSlot where
  st : TrwState := .free
  lo : BitVec 30 := 0
  hi : BitVec 16 := 0
  len : BitVec 32 := 0
  op : BitVec 3 := 0
  target : BitVec 5 := 0
  done : BitVec 32 := 0
  cis : BitVec 32 := 0
  pois : BitVec 32 := 0
  /-- World and context of the GO write (R160). -/
  world : Bool := false
  ctx : BitVec 12 := 0
  /-- Lines issued or skipped so far, and lines in flight. -/
  next : Nat := 0
  flight : List Nat := []
  /-- CANCEL was written, or a fault ended the range: no new line is issued; the state to take. -/
  ending : Option TrwState := none
  /-- ARRAY_INVAL: the set that its walk is in (R164). -/
  inSet : Option Nat := none
  deriving DecidableEq, Repr

/-- The CIS_ unit of an Isle (R145 to R157). -/
structure Cis where
  req : BitVec 4 := 0
  cur : BitVec 4 := 0
  /-- The way 15 − CUR is being converted (R154, R156). -/
  conv : Bool := false
  icen : Bool := true
  l2en : BitVec 24 := 0xFFFFFF
  stale : BitVec 25 := 0
  partworld : BitVec 8 := 0
  /-- Bit k: an ARRAY_INVAL of cache k has ended DONE_OK since its last disable (R148). -/
  cleared : BitVec 25 := 0
  /-- Bit k: the disable of cache k has not yet taken effect (R146). -/
  disabling : BitVec 25 := 0
  /-- Contents by window offset, and nonets whose check bits read bad (R142). -/
  mem : Store Nonet := []
  bad : Store Bool := []
  deriving DecidableEq, Repr

/-- A unit counter of SND_ (R425). -/
structure SndCnt where
  unit : BitVec 11 := 0
  vw : Bool := false
  event : BitVec 10 := 0
  count : BitVec 48 := 0
  uhi : BitVec 24 := 0
  deriving DecidableEq, Repr

/-- A memory region of the world filters (R370, R381). -/
structure Region where
  en : Bool := false
  vault : Bool := false
  lo : BitVec 22 := 0
  hi : BitVec 16 := 0
  size : BitVec 32 := 0
  deriving DecidableEq, Repr

/-- An Isle. -/
structure Isle where
  st : PState := .dry
  cond : IsleCond := .out
  vcore : Bool := false
  umfLock : Bool := false
  parked : Bool := false
  /-- A wake by Umfoent waits for its bearing claim (R363). -/
  wakeWait : Bool := false
  bootSeq : BitVec 8 := 0
  stream : Stream := {}
  tlo : BitVec 32 := 0
  thi : BitVec 32 := 0
  tep : BitVec 8 := 0
  refsel : BitVec 10 := 0
  /-- Cores that were in Run or Slack when the Isle entered Neap (R357). -/
  wasUp : BitVec 24 := 0
  lines : Store AgentLine := []
  ic : Store Way := []
  /-- Lines that the Isle cache holds valid but untracked since its disable, with their old data. -/
  old : Store (Option LineVal) := []
  /-- As for a core: errors in the data arrays of the Isle cache and of the Cistern, by physical nonet address, in the
  tags of the Isle cache, and in the agent's state and snoop-filter entry of a line (R141 to R143). -/
  dataErr : Store (BitVec 2) := []
  tagErr : Store (BitVec 2) := []
  agentErr : Store (BitVec 2) := []
  /-- An error in both copies has made it stop answering on its Strait (R143). -/
  mute : Bool := false
  /-- Prefetched lines, with the tags of their requests, whose fill waits for an eligible way (R139). -/
  fillWait : List (Nat × BitVec 9) := []
  /-- The requester that the Trowel looks at first: 0 the Isle's cores, 1 the Strait (R17, R165). -/
  trwPtr : BitVec 1 := 0
  cis : Cis := {}
  slots : Store TrwSlot := []
  /-- Queued and running slots in GO order (R162). -/
  queue : List (Fin 8) := []
  regions : Store Region := []
  rgnGen : BitVec 12 := 0
  lhEpoch : BitVec 8 := 0
  lhCount : BitVec 64 := 0
  /-- The least count that LHNOW shows in this epoch: a copy set back is not seen to go back (R320). -/
  lhLow : BitVec 64 := 0
  lhSync : Bool := false
  lhDrift : Bool := false
  iver : BitVec 24 := 0
  idigest : BitVec 32 := 0
  snd : Store SndCnt := []
  thermal : BitVec 6 := 36
  /-- The thermal cap is being lowered; samples below the margin since the last raise (R385). -/
  thLower : Bool := false
  thSamples : Nat := 0
  temps : Store (BitVec 16) := []
  tempMax : Store (BitVec 16) := []
  /-- The highest current of its VCORE since reset (R384). -/
  vCurMax : BitVec 32 := 0
  deriving DecidableEq, Repr

/-! ### Straits -/

/-- Roles of a physical lane (R233). -/
inductive LaneRole where
  | data | spare | standin | failed | dormant | recal
  deriving DecidableEq, Repr

/-- A physical lane of one direction. -/
structure Lane where
  role : LaneRole := .dormant
  logical : BitVec 7 := 0
  err : BitVec 12 := 0
  deriving DecidableEq, Repr

/-- A flit (R207). Its payload is the message that it carries; its CRC is a function of the rest that no rule gives. -/
structure Flit where
  kind : BitVec 8
  seq : BitVec 12
  ack : BitVec 12
  load : Msg
  deriving DecidableEq, Repr

/-- One direction of a Strait (R205 to R217). -/
structure Dir where
  /-- The encoding of IWIDTH and KWIDTH. -/
  width : BitVec 2 := 3
  fail : BitVec 7 := 0
  lanes : Store Lane := []
  pri : Bool := false
  bak : Bool := false
  /-- Logical lanes that wait for a spare in the stall in progress. -/
  lost : List Nat := []
  /-- A lane restored after a substitution or a spare's failure is due (R209, R213). -/
  restore : Nat := 0
  /-- Sequence numbers of the next flit, of the next one to be acknowledged, and of the last replay request; the last 256
  flits sent, oldest first, and those that the last replay sent again (R207, R213). -/
  seq : BitVec 12 := 0
  acked : BitVec 12 := 0
  replay : BitVec 12 := 0
  kept : List Flit := []
  resent : List Flit := []
  deriving DecidableEq, Repr

/-- STR_LINK.STATE (R233). -/
inductive LinkSt where
  | down | training | up | stalled | severed
  deriving DecidableEq, Repr

/-- A Strait (R233). -/
structure Strait where
  st : LinkSt := .down
  toI : Dir := {}
  toK : Dir := {}
  lanesel : BitVec 8 := 0
  subst : BitVec 16 := 0
  narrow : BitVec 4 := 0
  defer : BitVec 12 := 0
  period : BitVec 8 := 60
  active : Bool := false
  /-- Lanes still to visit in the pass: 0 to 103 toward the Isle, 104 to 207 toward the Keystone. -/
  todo : List Nat := []
  /-- The lane being recalibrated and its stand-in. -/
  recal : Option (Nat × Nat) := none
  result : BitVec 3 := 0
  vermis : Bool := false
  digmis : Bool := false
  lhmis : Bool := false
  bearwait : Bool := false
  lhofs : BitVec 16 := 0
  armed : Bool := false
  /-- The boot sequence number last seen. -/
  seenSeq : BitVec 8 := 0
  /-- The report to be made for what the watchdog has detected (R224). -/
  due : Option Report := none
  refDigest : BitVec 32 := 0
  deriving DecidableEq, Repr

/-! ### Directory -/

/-- Home states of an entry (R172, R173); a line with no entry is in I. -/
inductive HState where
  | i | s | x | o
  deriving DecidableEq, Repr

/-- A directory entry (R172). -/
structure Entry where
  st : HState := .i
  owner : BitVec 4 := 0
  sharers : BitVec 14 := 0
  age : BitVec 2 := 0
  way : Fin 16 := 0
  deriving DecidableEq, Repr

/-- An open transaction (R179 to R184, R195, R196). -/
structure Txn where
  req : Msg
  /-- Isles whose answer to a snoop is awaited. -/
  waits : BitVec 16 := 0
  /-- The owner that was asked. -/
  owner : Option (BitVec 4) := none
  /-- The way that the request's new entry will take (R194). -/
  way : Option (Fin 16) := none
  /-- Held open until the recall of the victim's line ends (R195). -/
  held : Bool := false
  /-- The memory read of the request is awaited (R182). -/
  memWait : Bool := false
  /-- Data from memory, from the owner's ACKD or from its crossing WBD. -/
  data : Option LineVal := none
  /-- The device below a homed CXL window does not have the line (R295). -/
  absent : Bool := false
  /-- The data came from the owner dirty: memory does not hold it yet. -/
  dirty : Bool := false
  /-- State of the owner after its ACK, when it supplied the line. -/
  ownerSt : Option Moesi := none
  /-- The owner holds nothing any more: it answered ACK I with no line, or its eviction was taken in. -/
  left : Bool := false
  /-- The owner's eviction, taken in ahead of the transaction, whose CMP waits for GONE (R196). -/
  evict : Option Msg := none
  /-- GONE has arrived and the eviction is still to come. -/
  gone : Bool := false
  /-- The grant or completion has been sent. -/
  granted : Bool := false
  /-- The line whose request takes the way of this recall (R195). -/
  recallFor : Option LineNo := none
  deriving DecidableEq, Repr

/-- A fairness token (R192). -/
structure Token where
  num : BitVec 6
  agent : BitVec 4
  tag : BitVec 9
  res : Resource
  deriving DecidableEq, Repr

/-- A directory slice (R192, R193, R204). -/
structure Slice where
  tokens : List Token := []
  /-- Reserved resources and the token for which they are reserved. -/
  resv : List (Resource × BitVec 6) := []
  ptr : BitVec 4 := 0
  busy : BitVec 32 := 0
  vict : BitVec 32 := 0
  gone : BitVec 32 := 0
  deriving DecidableEq, Repr

/-- The home directory (R167 to R204). -/
structure Home where
  entries : Store Entry := []
  /-- Bits in error in an entry, by its line (R172). -/
  dirErr : Store (BitVec 2) := []
  txns : List (Nat × Txn) := []
  queues : Store (List Msg) := []
  slices : Store Slice := []
  mask : BitVec 12 := 0
  purging : Bool := false
  purgeIsle : BitVec 4 := 15
  purgePois : BitVec 24 := 0
  /-- Isles whose purge waits for the one in progress, with their reports and the lines that requests have had purged
  meanwhile (R202). -/
  purgeNext : List (Fin 12 × Report × List LineNo) := []
  /-- The rotation pointer of purges (R17, R225). -/
  purgePtr : BitVec 4 := 0
  drop : BitVec 12 := 0
  deriving DecidableEq, Repr

/-! ### Memory controllers -/

/-- MC_CHSTAT.STATE (R280). -/
inductive ChState where
  | empty | training | filling | run | frozen | failed | excluded | selfref
  deriving DecidableEq, Repr

/-- A corrected-error log entry (R262). -/
structure CeEntry where
  line : LineNo := 0
  dev : BitVec 5 := 0
  syms : BitVec 2 := 0
  hard : Bool := false
  deriving DecidableEq, Repr

/-- Whose transaction a record concerns (R410): its world, its context, and its thread or 1,023. -/
structure Xid where
  world : Bool := false
  ctx : BitVec 12 := 0
  thread : BitVec 10 := 1023
  deriving DecidableEq, Repr

/-- A corrected error whose hardness the reread will tell: line and, per device, the symbols (R258). -/
structure Reread where
  line : LineNo
  devs : List (Nat × BitVec 2)
  id : Xid := {}
  deriving DecidableEq, Repr

/-- An interleave set (R247). -/
structure MemSet where
  base : BitVec 52 := 0
  members : BitVec 24 := 0
  depth : BitVec 20 := 0
  deriving DecidableEq, Repr

/-- The row-disturbance and page-policy state of a channel (R266 to R269, R280). -/
structure RowHam where
  pexp : BitVec 4 := 10
  thresh : BitVec 16 := 1024
  nbr : BitVec 18 := 0
  rfm : BitVec 18 := 0
  /-- The activate tally table: bank and row to tally. -/
  tally : List ((Nat × Nat) × Nat) := []
  /-- Sampled rows, bank and row, whose refresh is due. -/
  sampled : List (Nat × Nat) := []
  /-- Rolling activate counts of the banks, the RFMs that they required, and the bank of the last RFM (R269). -/
  raa : Store Nat := []
  raaRfm : Nat := 0
  rfmBank : Option Nat := none
  pgMode : BitVec 2 := 0
  pgThresh : BitVec 3 := 2
  /-- Per bank: the row last accessed, whether it is kept open, and the four history bits (R266). -/
  lastRow : Store (Option Nat) := []
  rowOpen : Store Bool := []
  hist : Store (BitVec 4) := []
  /-- ACTIVATEs so far. -/
  acts : Nat := 0
  halved : Bool := false
  throttled : Bool := false
  refsb : Nat := 0
  deriving DecidableEq, Repr

/-- A queued read, and how many younger ones have passed it (R264). -/
structure QRead where
  line : LineNo
  passed : Nat := 0
  deriving DecidableEq, Repr

/-- A queued write; `behind`: it arrived after a read of its line that is still queued (R265). -/
structure QWrite where
  line : LineNo
  val : LineVal
  vault : Bool
  behind : Bool := false
  deriving DecidableEq, Repr

/-- A command that a controller issues (R275). -/
inductive DramCmd where
  | activate (bank row : Nat)
  | read (line : LineNo)
  | write (line : LineNo)
  | refresh
  | rfm (bank : Nat)
  /-- A refresh of a sampled row or of its neighbours (R268). -/
  | neighbour (bank row : Nat)
  | track
  /-- A command that the RCD blocked, with the line that it served. -/
  | blocked (line : Option LineNo)
  deriving DecidableEq, Repr

/-- A memory controller and its channel. -/
structure Chan where
  st : ChState := .empty
  rate : BitVec 3 := 0
  type : BitVec 2 := 0
  cap : BitVec 10 := 0
  mark : Option (BitVec 5) := none
  second : Bool := false
  devsel : BitVec 5 := 0
  cecnt : Store (BitVec 16) := []
  hard : Store (BitVec 8) := []
  /-- Lines at which a device has erred hard (R259). -/
  hardAt : List (Nat × LineNo) := []
  ceIdx : BitVec 4 := 0
  ceNew : BitVec 4 := 0
  ceFill : BitVec 5 := 0
  celog : Store CeEntry := []
  frzCause : BitVec 3 := 0
  lostovf : Bool := false
  lost : List LineNo := []
  /-- What MC_FRZSTAT keeps until the next freeze: lines listed and the overflow. -/
  frzLost : BitVec 11 := 0
  frzOvf : Bool := false
  frzRdq : BitVec 7 := 0
  frzWrq : BitVec 7 := 0
  noline : Bool := false
  frzLine : LineNo := 0
  /-- The read and write queues, oldest first, and reads that wait for a place among the 64 (R264). -/
  readQ : List QRead := []
  readWait : List LineNo := []
  writeQ : List QWrite := []
  /-- Writes drain, from 48 queued ones until 16 are left (R264). -/
  draining : Bool := false
  /-- The last 64 commands, oldest first; those that a RESUME replays; what a freeze leaves of the PHY's state (R275, R277). -/
  cmds : List DramCmd := []
  replay : List DramCmd := []
  phy : BitVec 64 := 0
  /-- Command/address errors met while frozen (R278). -/
  caCount : Nat := 0
  /-- The devices advertise DRFM (R268). -/
  drfm : Bool := false
  /-- A full training or the POISON fill after it runs in service (R272, R277); the thaw it belongs to. -/
  inService : Bool := false
  thaw : Option (BitVec 2) := none
  bearwait : Bool := false
  rereads : List Reread := []
  /-- Bit e: what eighth e of the channel does not list was last filled with POISON (R272, R277). -/
  poisonFill : BitVec 8 := 0
  scrubh : BitVec 8 := 24
  trackms : BitVec 8 := 128
  markhard : BitVec 4 := 2
  trackdefer : BitVec 16 := 0
  pasrSupp : Bool := false
  keep : BitVec 8 := 0xFF
  patrol : Nat := 0
  /-- Corrected-error events recorded in the second recSecond (R262). -/
  recorded : Nat := 0
  recSecond : Nat := 0
  rh : RowHam := {}
  deriving DecidableEq, Repr

/-! ### Ports -/

/-- A port's inbound or endpoint window (R310). -/
structure Win where
  en : Bool := false
  rd : Bool := false
  wr : Bool := false
  pack : Bool := false
  space : BitVec 2 := 0
  busLo : BitVec 24 := 0
  busHi : BitVec 28 := 0
  tgtLo : BitVec 24 := 0
  tgtHi : BitVec 16 := 0
  size : BitVec 32 := 0
  deriving DecidableEq, Repr

/-- An outbound window (R291, R310). -/
structure OWin where
  en : Bool := false
  port : BitVec 7 := 0
  kind : BitVec 3 := 0
  pack : Bool := false
  baseLo : BitVec 24 := 0
  baseHi : BitVec 16 := 0
  size : BitVec 32 := 0
  busLo : BitVec 24 := 0
  busHi : BitVec 28 := 0
  deriving DecidableEq, Repr

/-- Who waits for the completion of a request that the package sent on a port (R295): a requester of an outbound window, a
Harbour engine that reads from the host, the home of a CXL line, or nobody any more. -/
inductive PortSrc where
  | who (w : Who)
  | engine (e : Fin 32)
  | home (n : LineNo)
  | dropped
  deriving DecidableEq, Repr

/-- A request that the package has sent on a port (R292, R295). -/
structure PortReq where
  tag : BitVec 14
  src : PortSrc
  addr : BitVec 64
  octets : Nat
  write : Bool
  deriving DecidableEq, Repr

/-- What leaves the package through a port: a request, a completion or a message. -/
inductive PortTx where
  | request (tag : BitVec 14) (addr : BitVec 64) (wr : Option (List Octet)) (len : Nat)
  /-- MemRd of a 64-octet CXL line. -/
  | memRd (tag : BitVec 14) (addr : BitVec 64)
  /-- MemWr of a 64-octet CXL line, MemWrPtl where a byte enable is 0. -/
  | memWr (addr : BitVec 64) (data : List Octet) (enable : BitVec 64) (poison : Bool)
  | completion (data : List Octet) (st : CplStatus)
  | intx (assert : Bool)
  | pme
  | spdm (resp : List Octet)
  deriving DecidableEq, Repr

/-- The answer that a requester receives from a port (R295). -/
structure PortAns where
  src : PortSrc
  addr : BitVec 64
  write : Bool
  resp : BitVec 3
  data : List Octet
  deriving DecidableEq, Repr

/-- A request from the other end of a port that waits for its turn (R299, R306). -/
inductive InReq where
  /-- From below a root port. -/
  | mem (kind : TlpKind) (addr len : Nat) (data : List Octet)
  /-- Of the host, to a space of the endpoint function. -/
  | bar (space : HostSpace) (off : Nat) (wr : Option (List Octet)) (len : Nat) (poison : Bool)
  /-- Of the host, to the CXL.mem range. -/
  | lend (addr : Nat) (wr : Option LineBits) (mask : BitVec 64) (poison : Bool)
  deriving DecidableEq, Repr

/-- The configuration space of the endpoint function as the host set it, beside the bits of `Port` (R286, R301, R309). -/
structure EpCfg where
  /-- Memory Space Enable. -/
  mse : Bool := false
  bar0 : BitVec 64 := 0
  bar2 : BitVec 64 := 0
  rom : BitVec 32 := 0
  irqLine : BitVec 8 := 0
  /-- Device Control. -/
  devCtl : BitVec 16 := 0x2810
  /-- AER Uncorrectable Error Status. -/
  aer : BitVec 32 := 0
  deriving DecidableEq, Repr

/-- The CXL device registers of an endpoint: its mailbox (R287). -/
structure CxlBox where
  irq : Bool := false
  cmd : BitVec 64 := 0
  status : BitVec 64 := 0
  payload : Store Octet := []
  deriving DecidableEq, Repr

/-- An HDM decoder of an endpoint, in octets (R287). -/
structure Hdm where
  base : BitVec 64 := 0
  size : BitVec 64 := 0
  commit : Bool := false
  deriving DecidableEq, Repr

/-- A port (R285, R310). -/
structure Port where
  role : BitVec 2 := 1
  cxl : Bool := false
  intxthr : BitVec 10 := 0
  intxcls : BitVec 3 := 0
  intxen : Bool := false
  link : BitVec 3 := 0
  width : BitVec 5 := 0
  rate : BitVec 3 := 0
  flit : Bool := false
  cxlup : Bool := false
  dstate : BitVec 2 := 0
  bme : Bool := false
  flr : Bool := false
  tmo : BitVec 4 := 7
  late : BitVec 32 := 0
  markdrop : BitVec 32 := 0
  packerr : BitVec 32 := 0
  winsel : BitVec 6 := 0
  wins : Store Win := []
  out : List PortReq := []
  /-- Tags of timed-out requests that may not yet be reused (R296). -/
  dead : List (BitVec 14) := []
  /-- Tags whose outstanding requests were given up: their completions are discarded (R308, R309, R378). -/
  gone : List (BitVec 14) := []
  nextTag : BitVec 14 := 0
  /-- Levels of INTA to INTD from below (R300). -/
  intx : BitVec 4 := 0
  epStat : BitVec 3 := 0
  epEn : BitVec 3 := 0
  intDis : Bool := false
  inta : Bool := false
  pmeEn : Bool := false
  pmeDue : Bool := false
  cfg : EpCfg := {}
  cbox : CxlBox := {}
  hdm : Store Hdm := []
  /-- The Quay table as Umfoent last built it, and its generation (R303, R304). -/
  quay : List Octet := []
  quayGen : BitVec 32 := 0
  /-- Requests from the other end that wait, oldest first (R299, R306). -/
  waits : List InReq := []
  /-- The R17 pointer of the transmit queue (R294). -/
  txPtr : BitVec 4 := 0
  /-- Sent outward, oldest first; answers to package requesters. -/
  tx : List PortTx := []
  ans : List PortAns := []
  /-- CXL.mem data that the last lending read returned, with its poison. -/
  lent : Option LineVal := none
  deriving DecidableEq, Repr

/-- A port block (R281 to R284). -/
structure Block where
  bearwait : Bool := false
  /-- HUB that the last refused claim asked for, and HUB granted ahead of a training (R284). -/
  wants : Nat := 0
  hold : Nat := 0
  bound : BitVec 7 := 0
  st : PState := .run
  stream : Stream := {}
  perst : Bool := false
  wakeOut : Bool := false
  umfLock : Bool := false
  deriving DecidableEq, Repr

/-- The ports sub-block. -/
structure Ports where
  owinsel : BitVec 6 := 0
  owins : Store OWin := []
  blocks : Store Block := []
  ports : Store Port := []
  deriving DecidableEq, Repr

/-! ### Gatehouse -/

/-- A window of a guest site (R242). -/
structure GWin where
  pack : Bool := false
  wr : Bool := false
  rd : Bool := false
  en : Bool := false
  lo : BitVec 30 := 0
  hi : BitVec 16 := 0
  size : BitVec 32 := 0
  deriving DecidableEq, Repr

/-- A guest request that passed steps 1 to 3 of R238, or a completion to be sent. -/
structure GReq where
  tag : BitVec 16
  write : Bool
  dense : Bool
  addr : BitVec 52
  len : Nat
  data : LineBits
  /-- Set when the completion is known: STATUS and read data. -/
  status : Option (BitVec 8) := none
  answer : List Octet := []
  /-- The link was lost after it passed step 5: its completion is discarded (R241). -/
  drop : Bool := false
  deriving DecidableEq, Repr

/-- A register access that is forwarded to a guest (R240). -/
structure GAcc where
  who : Who
  off : BitVec 32
  wr : Option (BitVec 32)
  deriving DecidableEq, Repr

/-- A guest site (R235 to R242). -/
structure Site where
  rate : BitVec 12 := 0
  burst : BitVec 12 := 1
  en : Bool := false
  link : BitVec 3 := 0
  refuse : BitVec 32 := 0
  markdrop : BitVec 32 := 0
  wins : Store GWin := []
  tokens : BitVec 12 := 0
  waiting : List GReq := []
  outst : List GReq := []
  /-- Octets of the raw stream that make no whole request yet (R237). -/
  stream : List Octet := []
  /-- The low-power link state L1 (R235). -/
  l1 : Bool := false
  /-- Completions sent to the guest: TAG, STATUS, data. -/
  sent : List (BitVec 16 × BitVec 8 × List Octet) := []
  /-- Register accesses forwarded to the guest: octet offset and written value. -/
  regTx : List (BitVec 32 × Option (BitVec 32)) := []
  /-- Accesses that wait for the guest, and answers that wait for their requesters. -/
  regOut : List GAcc := []
  regDone : List (GAcc × BitVec 3 × W36) := []
  /-- What the last access answered its requester. -/
  regAns : BitVec 3 × W36 := (0, 0)
  /-- Of site 12's record: the site that the Gatehouse looks at first (R17, R239). -/
  turn : BitVec 1 := 0
  deriving DecidableEq, Repr

/-! ### Harbour -/

/-- A descriptor, the value fields of its eight doubles (R333). -/
structure Desc where
  d0 : BitVec 64 := 0
  d1 : BitVec 64 := 0
  d2 : BitVec 64 := 0
  d3 : BitVec 64 := 0
  d4 : BitVec 64 := 0
  d5 : BitVec 64 := 0
  d6 : BitVec 64 := 0
  d7 : BitVec 64 := 0
  deriving DecidableEq, Repr

/-- A descriptor of a ring that has started (or is in the timed table), in submission order; `res` is its
STATUS and RESULT once its work has ended (R336, R337). -/
structure Work where
  slot : BitVec 16
  desc : Desc
  timed : Bool
  res : Option (BitVec 8 × BitVec 64) := none
  deriving DecidableEq, Repr

/-- HBR_RSTAT.STATE (R343). -/
inductive RingSt where
  | disabled | active | paused | draining | error
  deriving DecidableEq, Repr

/-- A ring (R330, R343). -/
structure RingR where
  intthr : BitVec 10 := 0
  intcls : BitVec 3 := 0
  epb : BitVec 4 := 0
  ctx : BitVec 12 := 0
  world : Bool := false
  inten : Bool := false
  en : Bool := false
  sqlo : BitVec 30 := 0
  sqhi : BitVec 16 := 0
  cqlo : BitVec 30 := 0
  cqhi : BitVec 16 := 0
  sqsz : BitVec 5 := 2
  cqsz : BitVec 5 := 2
  sqHead : BitVec 16 := 0
  sqTail : BitVec 16 := 0
  cqHead : BitVec 16 := 0
  cqTail : BitVec 16 := 0
  phase : Bool := true
  /-- Records between HEAD and TAIL: tells a full completion ring from an empty one. -/
  cqUsed : Nat := 0
  st : RingSt := .disabled
  last : BitVec 8 := 0
  works : List Work := []
  /-- Waits for a full timed table (R341). -/
  waitTable : Bool := false
  /-- Once drained, Umfoent enables the ring again, bound to this world (R309, R342). -/
  again : Option Bool := none
  /-- The R17 pointer of its doorbell (R332). -/
  bellPtr : BitVec 4 := 0
  deriving DecidableEq, Repr

/-- What an engine runs: ring and submission slot (R329). -/
structure Job where
  ring : Fin 524288
  slot : BitVec 16
  desc : Desc
  /-- Units done, and the CRC so far (R334). -/
  pos : Nat := 0
  acc : BitVec 64 := 0
  deriving DecidableEq, Repr

/-- A Harbour engine (R329, R343). -/
structure Engine where
  timed : Bool := false
  world : Bool := false
  job : Option Job := none
  locked : Bool := false
  deriving DecidableEq, Repr

/-- Harbour. -/
structure Harbour where
  dbrej : BitVec 32 := 0
  miss : BitVec 32 := 0
  engines : Store Engine := []
  rings : Store RingR := []
  table : List Job := []
  ptrC : Nat := 0
  ptrV : Nat := 0
  tptrC : Nat := 0
  tptrV : Nat := 0
  st : PState := .run
  stream : Stream := {}
  deriving DecidableEq, Repr

/-! ### Lighthouse, power, ledger, worlds -/

/-- The Lighthouse master and LH_ registers (R311 to R317, R344). -/
structure Lighthouse where
  epoch : BitVec 8 := 0
  count : BitVec 64 := 0
  /-- What trim has gained below one quarter-nanosecond, in 10^-9 of one. -/
  frac : Int := 0
  /-- Cycles of 2 ns since the last whole microsecond (R315). -/
  phase : Nat := 0
  courtwr : Bool := false
  refsel : BitVec 2 := 0
  src : Bool := false
  ppsen : Bool := false
  setres : BitVec 3 := 0
  setbusy : Bool := false
  reflock : Bool := false
  ppsseen : Bool := false
  run : Bool := false
  setlo : BitVec 32 := 0
  sethi : BitVec 32 := 0
  slew : BitVec 24 := 0
  rate : BitVec 24 := 0
  ppsSeq : BitVec 4 := 0
  ppsCount : BitVec 64 := 0
  ppsEpoch : BitVec 8 := 0
  applyAt : BitVec 64 := 0
  applyVal : BitVec 64 := 0
  deriving DecidableEq, Repr

/-- The package's power controller (R354 to R366). -/
structure Pwr where
  lagoon : Bool := false
  stream : Stream := {}
  tlo : BitVec 32 := 0
  thi : BitVec 32 := 0
  tep : BitVec 8 := 0
  refsel : BitVec 10 := 0
  wakeIsle : BitVec 4 := 0
  wakeSmb : Bool := false
  wakePort : BitVec 12 := 0
  wakesrc : BitVec 6 := 0
  /-- The Isles in Neap that this Lagoon entry put there, and the Isle that the wake names. -/
  entered : BitVec 12 := 0
  wakeName : Option (Fin 12) := none
  umfAwake : Bool := true
  deriving DecidableEq, Repr

/-- Units claimed in the two pools (R348). -/
structure Amount where
  core : Nat := 0
  hub : Nat := 0
  deriving DecidableEq, Repr

/-- The Bearing ledger (R348 to R353, R367). -/
structure Ledger where
  limCore : BitVec 12 := 3280
  limHub : BitVec 12 := 1200
  claimed : Store Amount := []
  refused : BitVec 32 := 0
  /-- The pointer of R17 among the 50 requesters (R350). -/
  ptr : Nat := 0
  blksel : BitVec 6 := 0
  /-- Granted CORE ramps that have not ended: start after the present instant and length, in
  quarter-nanoseconds (R349). -/
  ramps : List (Nat × Nat) := []
  cap : BitVec 6 := 36
  /-- Microseconds in a row with the CORE measurement above the limit, and since it fell below 95%. -/
  overUs : Nat := 0
  underUs : Nat := 0
  lowering : Bool := false
  measCore : BitVec 16 := 0
  measHub : BitVec 16 := 0
  deriving DecidableEq, Repr

/-- The hand-over in progress (R376, R377). -/
structure Handing where
  unit : HoClass
  toV : Bool
  mailbox : Option (Fin 16)
  /-- The step of R377 it stands at. -/
  step : BitVec 3
  waitClaim : Bool := false
  deriving DecidableEq, Repr

/-- The world filters (R370 to R381). -/
structure Worlds where
  gen : BitVec 12 := 0
  vaulten : Bool := false
  rgnsel : BitVec 6 := 0
  regions : Store Region := []
  portown : BitVec 96 := 0
  guestown : BitVec 2 := 0
  hoClass : BitVec 2 := 0
  hoTo : Bool := false
  hoIndex : BitVec 7 := 0
  rej : Bool := false
  result : BitVec 4 := 0
  /-- The pointer of R17 among Umfoent and the thread writes (R376). -/
  hoPtr : Nat := 0
  ho : Option Handing := none
  deriving DecidableEq, Repr

/-! ### Umfoent, recorder, board -/

/-- The units that carry at most one open handle (R395). -/
inductive HUnit where
  | channel (c : Fin 24) | isle (n : Fin 12) | block (b : Fin 12) | handover | lhSet | firmware | recorder
  | ucode
  deriving DecidableEq, Repr

/-- An open handle (R393); `res` is STATUS and DETAIL once its operation has ended; `queued` once its
entry is in the completion queue. -/
structure Handle where
  num : BitVec 16
  unit : HUnit
  cmd : Nat
  res : Option (BitVec 8 × BitVec 8) := none
  queued : Bool := false
  /-- Its completion is dropped: the endpoint was reset (R309). -/
  drop : Bool := false
  deriving DecidableEq, Repr

/-- A mailbox (R386 to R396, R409). -/
structure Mailbox where
  buf : Store W36 := []
  path : BitVec 2 := 0
  block : BitVec 4 := 0
  intthr : BitVec 10 := 0
  intcls : BitVec 3 := 0
  inten : Bool := false
  cplPend : Bool := false
  donePend : Bool := false
  lastK : BitVec 12 := 0
  handles : List Handle := []
  queue : List (BitVec 32) := []
  deriving DecidableEq, Repr

/-- The update of microcode in progress (R407). -/
structure UcodeRun where
  mailbox : Fin 16
  todo : List (Fin 12)
  version : BitVec 24
  digest : BitVec 384
  failed : Option (Fin 12) := none
  deriving DecidableEq, Repr

/-- Umfoent (R383 to R409). -/
structure Umf where
  boxes : Store Mailbox := []
  serving : Option (Fin 16) := none
  ptr : Fin 16 := 0
  fails : BitVec 8 := 0
  lock : BitVec 2 := 0
  scopes : BitVec 3 := 0
  standby : Bool := false
  active : Bool := false
  verA : BitVec 24 := 0
  verB : BitVec 24 := 0
  floor : BitVec 32 := 0
  nonce : Option (BitVec 256) := none
  nonceScope : BitVec 32 := 0
  nonceKey : Bool := false
  /-- When the last challenge was issued (R404). -/
  lastChal : Option (BitVec 8 × BitVec 64) := none
  sigR : Option (BitVec 384) := none
  ownerX : Option (BitVec 384) := none
  islePolicy : BitVec 12 := 0
  admref : BitVec 24 := 0
  alt : BitVec 24 := 0
  altValid : Bool := false
  ucodeVer : BitVec 24 := 0
  ucode : Option UcodeRun := none
  measure : Store (BitVec 384) := []
  /-- Alias keys derived since power-on: one at each start-up and firmware swap (R399). -/
  aliasNo : Nat := 0
  keyTemps : Store (BitVec 16) := []
  keyTempMax : Store (BitVec 16) := []
  railMax : Store (BitVec 32) := []
  /-- SMBus: packets of MCTP received, octets returned to the board, the octets of the last Block Read. -/
  mctp : List (List Octet) := []
  spdm : List (List Octet) := []
  smbOut : List Octet := []
  sclHeld : Bool := false
  deriving DecidableEq, Repr

/-- A record (R410). -/
structure Rec where
  code : BitVec 16 := 0
  src : BitVec 4 := 0
  /-- Position within SOURCE 15 (R458). -/
  pos : Nat := 0
  seq : BitVec 44 := 0
  epoch : BitVec 8 := 0
  count : BitVec 64 := 0
  lost : BitVec 16 := 0
  world : Bool := false
  unit : BitVec 16 := 0
  ctx : BitVec 12 := 0
  thread : BitVec 10 := 0
  p0 : Reg := 0
  p1 : Reg := 0
  p2 : Reg := 0
  p3 : Reg := 0
  deriving DecidableEq, Repr

/-- One reader's cursor and shadow (R414, R415). -/
structure Reader where
  auto : Bool := false
  slot : BitVec 15 := 0
  shadow : Rec := {}
  deriving DecidableEq, Repr

/-- The event recorder (R410 to R416). -/
structure Evr where
  /-- Records on their way from their sources. -/
  travel : List Rec := []
  queue : List Rec := []
  ptr : Fin 16 := 0
  slots : Store Rec := []
  seq : BitVec 44 := 0
  ffill : BitVec 13 := 0
  tnext : BitVec 15 := 0
  tfull : Bool := false
  seqsat : Bool := false
  clearing : Bool := false
  clearBy : BitVec 1 := 0
  clearBox : BitVec 4 := 0
  dropcnt : BitVec 32 := 0
  lost : BitVec 16 := 0
  court : Reader := {}
  vault : Reader := {}
  umf : Reader := {}
  deriving DecidableEq, Repr

/-- The keys of the Keystone and the reseeds (R121 to R124), and outstanding broadcast TLBINVs (R116). -/
structure Keys where
  ctxKeys : Store (BitVec 64) := []
  vaultKey : BitVec 64 := 0
  waiting : List (Fin 576 × BitVec 12) := []
  serving : Option (Fin 576 × BitVec 12) := none
  /-- The thread that the reseeds' arbiter looks at first (R17, R124). -/
  ptr : Nat := 0
  bcasts : List (Fin 576 × Bool × Reg) := []
  deriving DecidableEq, Repr

/-- The board flash: what survives every reset (R438). -/
structure Flash where
  court : BootImage := { load := 0, entry := 0, lines := [] }
  vault : Option BootImage := none
  paths : Store (BitVec 2) := [(6, 1), (7, 1), (8, 1), (9, 1), (10, 2), (11, 2), (12, 3), (13, 3), (14, 3), (15, 3)]
  blockOf : Store (BitVec 4) := []
  bounds : Store (BitVec 7) := []
  roles : Store (BitVec 2) := []
  cxls : Store Bool := []
  /-- First ring and number of rings that each block's endpoint is assigned (R331; DESIGN CHOICE, log entry 63). -/
  epRings : Store (Nat × Nat) := []
  islePolicy : BitVec 12 := 0
  courtwr : Bool := false
  excluded : BitVec 24 := 0
  repair : Store (List (BitVec 32 × BitVec 32 × BitVec 32 × BitVec 32)) := []
  ownerKey : Option (BitVec 384 × BitVec 384) := none
  slotA : BitVec 24 := 0
  slotB : BitVec 24 := 0
  bootB : Bool := false
  ucode : BitVec 24 := 0
  /-- SHA-384 digests of the images in slots A and B, of the microcode and of the Vault image (R402). -/
  digA : BitVec 384 := 0
  digB : BitVec 384 := 0
  digU : BitVec 384 := 0
  digV : BitVec 384 := 0
  deriving DecidableEq, Repr

/-- Start-up, package reset and package fatal, and the board's lands (R426 to R454). -/
structure Board where
  /-- The start-up step in progress, 1 to 8; 9 when the package runs; 0 while the reset land is held. -/
  step : Nat := 1
  /-- Start-up has stopped with this reason (R429). -/
  stopped : Option (BitVec 8) := none
  /-- Package fatal with this DETAIL (R446). -/
  fatal : Option (BitVec 8) := none
  /-- VAUX is in range. -/
  vaux : Bool := true
  resetHeld : Bool := false
  thermtrip : Bool := false
  smbAddr : BitVec 3 := 2
  /-- Rails switched on: VKEY, VSERDES, VDDQ. -/
  vkey : Bool := false
  vserdes : Bool := false
  vddq : Bool := false
  pmbAlert : Bool := false
  /-- The recorder's slots and fill fields are lost or inconsistent, which step 1 will find (R412). -/
  slotsLost : Bool := true
  /-- A Vault image is installed and step 2 has verified it (R429, R433). -/
  vaultOk : Bool := false
  /-- Step 4 goes on until the ledger grants what it has refused (R426, R432). -/
  stepWaits : Bool := false
  flash : Flash := {}
  deriving DecidableEq, Repr

/-- The package. -/
structure State where
  /-- The commands that wait, first in, first out. -/
  pending : List Instr := []
  variant : Variant := .ty2304
  threads : Store Thread := []
  cores : Store Core := []
  isles : Store Isle := []
  straits : Store Strait := []
  home : Home := {}
  net : List Msg := []
  replies : List Msg := []
  mem : Store LineVal := []
  chans : Store Chan := []
  memSets : List MemSet := []
  memTop : BitVec 24 := 0
  ports : Ports := {}
  sites : Store Site := []
  harbour : Harbour := {}
  lh : Lighthouse := {}
  pwr : Pwr := {}
  ledger : Ledger := {}
  worlds : Worlds := {}
  umf : Umf := {}
  evr : Evr := {}
  snd : Store SndCnt := []
  keys : Keys := {}
  board : Board := {}
  /-- The MODEL's own counter of free values. -/
  free : Nat := 0
  deriving DecidableEq, Repr

/-- The package right after reset: every register at the value its register map gives, VAUX just in
range and start-up step 1 to run (R426). -/
def State.reset : State := {}

end Sys2Proof.Machine
end

