-- ==== Sys2Proof/Machine/Store.lean ====
section
/-! DEFINITION. Reading and writing a `Store`: a list of (number, value) pairs with rising numbers and
no pair that holds the default `d`. -/

namespace Sys2Proof.Machine

variable {α : Type} [DecidableEq α]

/-- The value at number k; the default where k is not listed. -/
def sget (d : α) : Store α → Nat → α
  | [], _ => d
  | (j, v) :: m, k => if j = k then v else sget d m k

/-- Inserts a pair before the first greater number. -/
def sins (k : Nat) (v : α) : Store α → Store α
  | [] => [(k, v)]
  | (j, w) :: m => if k < j then (k, v) :: (j, w) :: m else (j, w) :: sins k v m

/-- Removes every pair at number k. -/
def sdel (k : Nat) : Store α → Store α
  | [] => []
  | (j, w) :: m => if j = k then sdel k m else (j, w) :: sdel k m

/-- Writes the value at number k; writing the default removes the pair. -/
def sset (d : α) (m : Store α) (k : Nat) (v : α) : Store α :=
  if v = d then sdel k m else sins k v (sdel k m)

/-- Applies f to the value at number k. -/
def smod (d : α) (m : Store α) (k : Nat) (f : α → α) : Store α := sset d m k (f (sget d m k))

/-- The numbers listed. -/
def skeys (m : Store α) : List Nat := m.map (·.1)

/-- Applies f to every listed value. -/
def smap (d : α) (m : Store α) (f : Nat → α → α) : Store α :=
  (skeys m).foldl (fun r k => sset d r k (f k (sget d m k))) []

/-- The canonical form. -/
def swf (d : α) : Store α → Bool
  | [] => true
  | (k, v) :: m => decide (v ≠ d) && (m.all fun p => decide (k < p.1)) && swf d m

end Sys2Proof.Machine
end

