-- ==== Sys2Proof/Machine/Ops.lean ====
section
/-! DEFINITION. The named operations over the state: units and their numbers, lines and nonets, the
Lighthouse readings, records, counters, and taking and leaving a trap. -/

namespace Sys2Proof.Machine

open Host (Outcome)

/-- The three outcomes of a command. -/
abbrev Res := Outcome State Fault Refusal

/-! ### What is fitted (R20 to R31) -/

def Variant.isles : Variant → Nat
  | .ty2304 => 12 | .ty1920 => 10 | .ty1536 => 8 | .ty1920g => 10

def Variant.chans : Variant → Nat
  | .ty2304 => 24 | .ty1920 => 24 | .ty1536 => 16 | .ty1920g => 24

def Variant.guests : Variant → Nat
  | .ty1920g => 2
  | .ty2304 | .ty1920 | .ty1536 => 0

def State.isleFit (s : State) (n : Nat) : Bool := decide (n < s.variant.isles)
def State.chanFit (s : State) (c : Nat) : Bool := decide (c < s.variant.chans)
def State.siteFit (s : State) (g : Nat) : Bool := decide (g < s.variant.guests)
def State.coreFit (s : State) (c : Nat) : Bool := s.isleFit (c / 24)
def State.threadFit (s : State) (t : Nat) : Bool := s.isleFit (t / 48)

/-- UMF_PKGINFO, UMF_FITMAP and UMF_CHANMAP (R31). -/
def Variant.pkginfo : Variant → W36
  | .ty2304 => 0o000002130014 | .ty1920 => 0o000012130012
  | .ty1536 => 0o000022120010 | .ty1920g => 0o000032130212

def Variant.fitmap : Variant → W36
  | .ty2304 => 0o000000007777 | .ty1920 => 0o000000001777
  | .ty1536 => 0o000000000377 | .ty1920g => 0o000000031777

def Variant.chanmap : Variant → W36
  | .ty1536 => 0o000000177777
  | .ty2304 | .ty1920 | .ty1920g => 0o000077777777

/-! ### Units in the state -/

def State.thread (s : State) (t : Nat) : Thread := sget {} s.threads t
def State.setThread (s : State) (t : Nat) (x : Thread) : State := { s with threads := sset {} s.threads t x }
def State.modThread (s : State) (t : Nat) (f : Thread → Thread) : State := s.setThread t (f (s.thread t))

def State.core (s : State) (c : Nat) : Core := sget {} s.cores c
def State.setCore (s : State) (c : Nat) (x : Core) : State := { s with cores := sset {} s.cores c x }
def State.modCore (s : State) (c : Nat) (f : Core → Core) : State := s.setCore c (f (s.core c))

def State.isle (s : State) (n : Nat) : Isle := sget {} s.isles n
def State.setIsle (s : State) (n : Nat) (x : Isle) : State := { s with isles := sset {} s.isles n x }
def State.modIsle (s : State) (n : Nat) (f : Isle → Isle) : State := s.setIsle n (f (s.isle n))

def State.strait (s : State) (n : Nat) : Strait := sget {} s.straits n
def State.setStrait (s : State) (n : Nat) (x : Strait) : State := { s with straits := sset {} s.straits n x }
def State.modStrait (s : State) (n : Nat) (f : Strait → Strait) : State := s.setStrait n (f (s.strait n))

def State.chan (s : State) (c : Nat) : Chan := sget {} s.chans c
def State.setChan (s : State) (c : Nat) (x : Chan) : State := { s with chans := sset {} s.chans c x }
def State.modChan (s : State) (c : Nat) (f : Chan → Chan) : State := s.setChan c (f (s.chan c))

def State.site (s : State) (g : Nat) : Site := sget {} s.sites g
def State.setSite (s : State) (g : Nat) (x : Site) : State := { s with sites := sset {} s.sites g x }
def State.modSite (s : State) (g : Nat) (f : Site → Site) : State := s.setSite g (f (s.site g))

def State.port (s : State) (p : Nat) : Port := sget {} s.ports.ports p
def State.setPort (s : State) (p : Nat) (x : Port) : State :=
  { s with ports := { s.ports with ports := sset {} s.ports.ports p x } }
def State.modPort (s : State) (p : Nat) (f : Port → Port) : State := s.setPort p (f (s.port p))

def State.block (s : State) (b : Nat) : Block := sget {} s.ports.blocks b
def State.setBlock (s : State) (b : Nat) (x : Block) : State :=
  { s with ports := { s.ports with blocks := sset {} s.ports.blocks b x } }
def State.modBlock (s : State) (b : Nat) (f : Block → Block) : State := s.setBlock b (f (s.block b))

def State.engine (s : State) (e : Nat) : Engine := sget {} s.harbour.engines e
def State.setEngine (s : State) (e : Nat) (x : Engine) : State :=
  { s with harbour := { s.harbour with engines := sset {} s.harbour.engines e x } }
def State.modEngine (s : State) (e : Nat) (f : Engine → Engine) : State := s.setEngine e (f (s.engine e))

def State.ring (s : State) (r : Nat) : RingR := sget {} s.harbour.rings r
def State.setRing (s : State) (r : Nat) (x : RingR) : State :=
  { s with harbour := { s.harbour with rings := sset {} s.harbour.rings r x } }
def State.modRing (s : State) (r : Nat) (f : RingR → RingR) : State := s.setRing r (f (s.ring r))

def State.box (s : State) (m : Nat) : Mailbox := sget {} s.umf.boxes m
def State.setBox (s : State) (m : Nat) (x : Mailbox) : State :=
  { s with umf := { s.umf with boxes := sset {} s.umf.boxes m x } }
def State.modBox (s : State) (m : Nat) (f : Mailbox → Mailbox) : State := s.setBox m (f (s.box m))

def State.slice (s : State) (k : Nat) : Slice := sget {} s.home.slices k
def State.setSlice (s : State) (k : Nat) (x : Slice) : State :=
  { s with home := { s.home with slices := sset {} s.home.slices k x } }
def State.modSlice (s : State) (k : Nat) (f : Slice → Slice) : State := s.setSlice k (f (s.slice k))

/-- The general registers: g0 reads 0 and discards writes (R42). -/
def Thread.gr (x : Thread) (r : BitVec 6) : Reg := if r = 0 then 0 else sget 0 x.g r.toNat
def Thread.setGr (x : Thread) (r : BitVec 6) (v : Reg) : Thread :=
  if r = 0 then x else { x with g := sset 0 x.g r.toNat v }

/-- The vector registers (R43). -/
def Thread.vr (x : Thread) (r : BitVec 5) : LineBits := sget 0 x.v r.toNat
def Thread.setVr (x : Thread) (r : BitVec 5) (v : LineBits) : Thread := { x with v := sset 0 x.v r.toNat v }

/-- The control registers of a world, and of the current world (R86). -/
def Thread.wreg (x : Thread) (vault : Bool) : WReg := if vault then x.wv else x.wc
def Thread.setWreg (x : Thread) (vault : Bool) (w : WReg) : Thread :=
  if vault then { x with wv := w } else { x with wc := w }
def Thread.cur (x : Thread) : WReg := x.wreg x.vault
def Thread.setCur (x : Thread) (w : WReg) : Thread := x.setWreg x.vault w

/-- The bank of level 2, else the S bank. -/
def WReg.bank (w : WReg) (lvl : BitVec 2) : Bank := if lvl = 2 then w.h else w.s
def WReg.setBank (w : WReg) (lvl : BitVec 2) (b : Bank) : WReg :=
  if lvl = 2 then { w with h := b } else { w with s := b }

def Isle.line (x : Isle) (l : Nat) : AgentLine := sget {} x.lines l
def Isle.setLine (x : Isle) (l : Nat) (a : AgentLine) : Isle := { x with lines := sset {} x.lines l a }
def Isle.slot (x : Isle) (k : Nat) : TrwSlot := sget {} x.slots k
def Isle.setSlot (x : Isle) (k : Nat) (a : TrwSlot) : Isle := { x with slots := sset {} x.slots k a }

/-! ### Nonets, units and lines (R2, R252) -/

def nonetAt (l : LineBits) (i : Nat) : Nonet := l.extractLsb' (9 * i) 9

def setNonet (l : LineBits) (i : Nat) (v : Nonet) : LineBits :=
  (l &&& ~~~((0x1FF : LineBits) <<< (9 * i))) ||| (v.setWidth 576 <<< (9 * i))

/-- Folds over the first n naturals. -/
def forN {α : Type} (n : Nat) (a : α) (f : Nat → α → α) : α :=
  match n with
  | 0 => a
  | k + 1 => f k (forN k a f)

/-- The register image of the unit of w nonets at nonet o of a line: value bits, and above them the mark
bits (R2). -/
def unitAt (w : Nat) (l : LineBits) (o : Nat) : Reg :=
  forN w 0 fun k a =>
    let v := nonetAt l (o + k)
    a ||| ((v.setWidth 8).setWidth 72 <<< (8 * k)) ||| ((BitVec.ofBool (v.getLsbD 8)).setWidth 72 <<< (8 * w + k))

/-- Nonet k of a unit of w nonets (R2). -/
def nonetOf (w : Nat) (x : Reg) (k : Nat) : Nonet :=
  BitVec.ofBool (x.getLsbD (8 * w + k)) ++ (x.extractLsb' (8 * k) 8 : BitVec 8)

/-- Stores a unit of w nonets at nonet o of a line (R2). -/
def setUnit (w : Nat) (l : LineBits) (o : Nat) (x : Reg) : LineBits :=
  forN w l fun k a => setNonet a (o + k) (nonetOf w x k)

/-- The nonets of b under the mask, the rest of a. -/
def merge (a b : LineBits) (mask : BitVec 64) : LineBits :=
  forN 64 a fun i acc => if mask.getLsbD i then setNonet acc i (nonetAt b i) else acc

/-- Ones at w nonets from nonet o. -/
def maskOf (o w : Nat) : BitVec 64 := BitVec.ofNat 64 ((2 ^ w - 1) * 2 ^ o)

def unitNonets : MUnit → Nat
  | .nonet => 1 | .half => 2 | .word => 4 | .double => 8

def unit5Nonets : MUnit5 → Nat
  | .nonet => 1 | .half => 2 | .word => 4 | .double => 8 | .line => 64

/-- Saturating addition at width w. -/
def satAdd {w : Nat} (x : BitVec w) (k : Nat) : BitVec w := BitVec.ofNat w (min (2 ^ w - 1) (x.toNat + k))

/-- Bits of a control-space word as a number. -/
def fld (v : W36) (hi lo : Nat) : Nat := (v.toNat / 2 ^ lo) % 2 ^ (hi - lo + 1)

/-- A bit of a control-space word. -/
def bitOf (v : W36) (i : Nat) : Bool := v.getLsbD i

/-- Places a number in a control-space word from bit lo. -/
def put (lo : Nat) (x : Nat) : W36 := BitVec.ofNat 36 (x * 2 ^ lo)

def putB (lo : Nat) (b : Bool) : W36 := if b then put lo 1 else 0

/-! ### Physical addresses (R36, R37) -/

inductive PaClass where
  | dram | window | cistern (n off : Nat) | control | unmapped
  deriving DecidableEq, Repr

/-- Where a 52-bit physical address lies (R36). -/
def paClass (pa : Nat) : PaClass :=
  if pa < 0x00C0000000000 then .dram
  else if pa < 0x1000000000000 then .unmapped
  else if pa < 0x8000000000000 then .window
  else if pa < 0xE000000000000 then .unmapped
  else if pa < 0xE000018000000 then
    .cistern ((pa - 0xE000000000000) / 0x2000000) ((pa - 0xE000000000000) % 0x2000000)
  else if pa < 0xFF00000000000 then .unmapped
  else .control

/-! ### Responses (R12) -/

inductive Resp where
  | ok | absent | dormant | world | rsvd | poison
  deriving DecidableEq, Repr

def Resp.num : Resp → BitVec 3
  | .ok => 0 | .absent => 1 | .dormant => 2 | .world => 3 | .rsvd => 4 | .poison => 5

def respOf (n : BitVec 3) : Resp :=
  match n.toNat with
  | 0 => .ok | 1 => .absent | 2 => .dormant | 3 => .world | 4 => .rsvd | _ => .poison

/-! ### Lighthouse readings (R311, R318) -/

/-- A reading as a double: the count as value, the epoch as mark (R311). -/
def reading (epoch : BitVec 8) (count : BitVec 64) : Reg := epoch ++ count

def State.masterNow (s : State) : Reg := reading s.lh.epoch s.lh.count
def State.copyNow (s : State) (n : Nat) : Reg := reading (s.isle n).lhEpoch (s.isle n).lhCount

/-- LHNOW of Isle n: its copy, which does not go back within an epoch (R320). -/
def State.copyShown (s : State) (n : Nat) : Reg :=
  let x := s.isle n
  if x.lhCount.toNat < x.lhLow.toNat then reading x.lhEpoch x.lhLow else s.copyNow n

/-- A copy that will be set in an epoch: what it has shown in that epoch is kept. -/
def Isle.keepLow (x : Isle) (epoch : BitVec 8) : Isle :=
  { x with lhLow := if x.lhEpoch = epoch ∧ x.lhSync then (if x.lhLow.toNat < x.lhCount.toNat then x.lhCount else x.lhLow) else 0 }


/-! ### Records (R410, R411, R458) -/

/-- Sends a record of an Isle's event to the recorder. -/
def State.recIsle (s : State) (n : Nat) (code : BitVec 16) (unit : Nat) (p0 p1 : Nat) (id : Xid := {}) : State :=
  let i := s.isle n
  { s with evr := { s.evr with travel := s.evr.travel ++
      [{ code, src := BitVec.ofNat 4 n, epoch := i.lhEpoch, count := i.lhCount, unit := BitVec.ofNat 16 unit,
         world := id.world, ctx := id.ctx, thread := id.thread, p0 := BitVec.ofNat 72 p0, p1 := BitVec.ofNat 72 p1 }] } }

/-- Sends a record of a Keystone event to the recorder, from position pos of SOURCE 15 (R458). -/
def State.recKey (s : State) (pos : Nat) (code : BitVec 16) (unit : Nat) (ps : List Reg)
    (world : Bool := false) (ctx : BitVec 12 := 0) (thread : BitVec 10 := 1023) : State :=
  { s with evr := { s.evr with travel := s.evr.travel ++
      [{ code, src := 15, pos, epoch := s.lh.epoch, count := s.lh.count, unit := BitVec.ofNat 16 unit,
         world, ctx, thread, p0 := ps.getD 0 0, p1 := ps.getD 1 0, p2 := ps.getD 2 0, p3 := ps.getD 3 0 }] } }

/-- Positions of the Keystone's sources (R458). -/
def posUmf : Nat := 44
def posWatch : Nat := 96
def posDir : Nat := 69
def posMc (c : Nat) : Nat := 45 + c
def posPort (b : Nat) : Nat := 32 + b
def posLh : Nat := 93
def posWld : Nat := 97
def posGth : Nat := 95

/-- A number as a record's parameter. -/
def rp (n : Nat) : Reg := BitVec.ofNat 72 n

/-! ### Unit counters (R425) -/

/-- Counts k units of an event on the counters of an owner that select it. -/
def countSnd (m : Store SndCnt) (ev unit : Nat) (vault : Bool) (k : Nat) : Store SndCnt :=
  forN 8 m fun i m =>
    let c := sget {} m i
    if c.event.toNat = ev ∧ c.vw = vault ∧ (c.unit.toNat = unit ∨ (c.unit = 2047 ∧ ev < 16)) then
      sset {} m i { c with count := c.count + BitVec.ofNat 48 k }
    else m

def State.sndKey (s : State) (ev unit : Nat) (vault : Bool) (k : Nat := 1) : State :=
  { s with snd := countSnd s.snd ev unit vault k }

def State.sndIsle (s : State) (n ev unit : Nat) (vault : Bool) (k : Nat := 1) : State :=
  s.modIsle n fun x => { x with snd := countSnd x.snd ev unit vault k }

/-! ### The R17 arbiter -/

/-- The requester granted among n under R17, from pointer p. -/
def arbitrate (n p : Nat) (req : Nat → Bool) : Option Nat :=
  ((List.range n).map fun i => (p + i) % n).find? req

/-- Of requests of one cycle, the one that R17 grants by position, and R18 by member within a position. -/
def pickOne {α : Type} (n ptr : Nat) (pos mem : α → Nat) (l : List α) : Option α :=
  match arbitrate n ptr fun a => l.any fun r => pos r == a with
  | some a =>
    let mine := l.filter fun r => pos r == a
    let low := mine.foldl (fun m r => min m (mem r)) ((mine.head?.map mem).getD 0)
    mine.find? fun r => mem r == low
  | none => none

/-- Requests of one cycle in the order of their grants, at most fuel of them, and the pointer behind the last. -/
def inTurn {α : Type} [BEq α] (n : Nat) (pos mem : α → Nat) : Nat → List α → Nat → List α × Nat
  | ptr, _, 0 => ([], ptr)
  | ptr, l, k + 1 =>
    match pickOne n ptr pos mem l with
    | some r =>
      let t := inTurn n pos mem ((pos r + 1) % n) (l.erase r) k
      (r :: t.1, t.2)
    | none => ([], ptr)

/-! ### Free values -/

/-- Takes the next free value (DESIGN CHOICE, log entry 11). -/
def State.takeFree (s : State) : BitVec 64 × State := (Config.freeBits s.free, { s with free := s.free + 1 })

/-! ### Owners (R285, R368) -/

def State.portVault (s : State) (p : Nat) : Bool := s.worlds.portown.getLsbD p

/-- The endpoint port of block b. -/
def State.epPort (s : State) (b : Nat) : Option Nat :=
  ((List.range 8).map fun g => 8 * b + g).find? fun p => (s.port p).role == 2

/-- The world of a requester (R35, R368); an endpoint's is that of its port (R285). -/
def State.whoVault (s : State) : Who → Bool
  | .thread t => (s.thread t).vault
  | .umfoent => true
  | .umfoentCourt => false
  | .smbus => false
  | .endpoint b => s.portVault ((s.epPort b).getD (8 * b.val))
  | .harbour v _ => v
  | .guest g => s.worlds.guestown.getLsbD g
  | .port p => s.portVault p

/-! ### Interrupt classes (R94) -/

/-- Bit c of a class set. -/
def clsBit (c : BitVec 3) : BitVec 8 := 1 <<< c.toNat

/-- Classes held by the INTx levels of ports for thread t in a world (R300). -/
def State.intxPend (s : State) (t : Nat) (vault : Bool) : BitVec 8 :=
  s.ports.ports.foldl (fun a p =>
    if p.2.intxen ∧ p.2.intx ≠ 0 ∧ p.2.role = 1 ∧ p.2.intxthr.toNat = t ∧ s.portVault p.1 = vault then a ||| clsBit p.2.intxcls
    else a) 0

/-- Classes held by Harbour rings (R339). -/
def State.ringPend (s : State) (t : Nat) (vault : Bool) : BitVec 8 :=
  s.harbour.rings.foldl (fun a r =>
    if r.2.inten ∧ r.2.epb = 0 ∧ r.2.cqUsed ≠ 0 ∧ r.2.intthr.toNat = t ∧ r.2.world = vault then a ||| clsBit r.2.intcls
    else a) 0

/-- Classes held by mailboxes of the Court and Vault paths (R391). -/
def State.boxPend (s : State) (t : Nat) (vault : Bool) : BitVec 8 :=
  s.umf.boxes.foldl (fun a b =>
    if b.2.inten ∧ (b.2.cplPend ∨ b.2.donePend) ∧ b.2.path = (if vault then 1 else 0) ∧ b.2.intthr.toNat = t then
      a ||| clsBit b.2.intcls
    else a) 0

/-- The class that LHALCTL selects, held while FIRED (R325, R328). -/
def WReg.alarmPend (w : WReg) : BitVec 8 :=
  if w.alctl.getLsbD 4 then clsBit (w.alctl.extractLsb' 1 3) else 0

/-- Classes that overflowed counters hold (R420). -/
def WReg.sndPend (w : WReg) : BitVec 8 :=
  forN 6 0 fun i a =>
    let sel := sget 0 w.sndsel i
    if w.sndovf.getLsbD i ∧ sel.getLsbD 20 then a ||| clsBit (sel.extractLsb' 21 3) else a

/-- IPEND of thread t for a world (R94). -/
def State.ipend (s : State) (t : Nat) (vault : Bool) : BitVec 8 :=
  let w := (s.thread t).wreg vault
  w.msgPend ||| w.alarmPend ||| w.sndPend ||| s.intxPend t vault ||| s.ringPend t vault ||| s.boxPend t vault

/-- The level that class number k (c − 32) targets (R94). -/
def WReg.target (w : WReg) (k : Nat) : BitVec 2 := if w.troute.getLsbD (32 + k) then 2 else 1

/-- Class k is deliverable (R94). -/
def deliverable (x : Thread) (pend : BitVec 8) (k : Nat) : Bool :=
  let w := x.cur
  let l := w.target k
  let b := w.bank l
  pend.getLsbD k && b.iena.getLsbD k && (decide (x.priv.toNat < l.toNat) || (x.priv == l && b.stat.getLsbD 0))

/-- The class taken next, hypervisor targets first, R17 within a level (R96). -/
def State.pickInt (s : State) (t : Nat) : Option (Nat × BitVec 2) :=
  let x := s.thread t
  let p := s.ipend t x.vault
  let w := x.cur
  match arbitrate 8 w.ptrH.val fun k => deliverable x p k && w.target k == 2 with
  | some k => some (k, 2)
  | none => (arbitrate 8 w.ptrS.val fun k => deliverable x p k && w.target k == 1).map fun k => (k, 1)

/-! ### Taking a trap and returning (R88 to R90) -/

/-- xCAUSE (R87). -/
def causeWord (ds intr : Bool) (detail code : BitVec 8) : Reg :=
  (0 : BitVec 48) ++ BitVec.ofBool ds ++ BitVec.ofBool intr ++ (0 : BitVec 6) ++ detail ++ code

/-- The level that takes cause c from level p (R89). -/
def trapLevel (w : WReg) (p : BitVec 2) (code : BitVec 8) : BitVec 2 :=
  if p = 2 ∨ code = 18 then 2
  else if code.toNat < 32 then (if w.troute.getLsbD code.toNat then 2 else 1)
  else w.target (code.toNat - 32)

/-- Trap entry (R89), with the PC, nPC and DS that it saves. -/
def Thread.takeTrap (x : Thread) (code detail : BitVec 8) (val : Reg) (pc npc : Addr) (ds : Bool) : Thread :=
  let w := x.cur
  let l := trapLevel w x.priv code
  let b := w.bank l
  let stat : Reg := (0 : BitVec 68) ++ x.priv ++ BitVec.ofBool (b.stat.getLsbD 0) ++ (0 : BitVec 1)
  let nb : Bank := { b with
    cause := causeWord ds (decide (32 ≤ code.toNat)) detail code
    pc := pc.setWidth 72, npc := npc.setWidth 72, val, stat }
  let v : Addr := b.vec.extractLsb' 0 64
  { x.setCur (w.setBank l nb) with priv := l, pc := v, npc := v + 4, ds := false, sb := [] }

/-- A wrong path lies behind the instruction of thread t: what it leaves is seen as the thread issues again (R126). -/
def State.markWrong (s : State) (t : Nat) : State :=
  s.modCore (t / 2) fun x => { x with wrong := x.wrong ||| ((1 : BitVec 2) <<< (t % 2)) }

/-- A synchronous trap of the instruction at PC (R88, R89); what was fetched behind it is squashed. -/
def State.trap (s : State) (t : Nat) (code detail : BitVec 8) (val : Reg) : State :=
  (s.modThread t fun x => x.takeTrap code detail val x.pc x.npc x.ds).markWrong t

/-- Takes interrupt class k, with the pointer of its level moving on (R17, R94, R96). -/
def State.takeInt (s : State) (t : Nat) (k : Nat) (l : BitVec 2) : State :=
  s.modThread t fun x =>
    let w := x.cur
    let n : Fin 8 := Fin.ofNat 8 (k + 1)
    let w := if l = 2 then { w with ptrH := n } else { w with ptrS := n }
    (x.setCur w).takeTrap (BitVec.ofNat 8 (32 + k)) 0 0 x.pc x.npc x.ds

/-- Return from the bank of the current level (R90). -/
def Thread.trapReturn (x : Thread) : Thread :=
  let w := x.cur
  let b := w.bank x.priv
  let stat : Reg := (b.stat &&& ~~~(1 : Reg)) ||| (BitVec.ofBool (b.stat.getLsbD 1)).setWidth 72
  { x.setCur (w.setBank x.priv { b with stat }) with
    pc := b.pc.extractLsb' 0 64, npc := b.npc.extractLsb' 0 64, ds := b.cause.getLsbD 23
    priv := b.stat.extractLsb' 2 2 }

/-! ### The outcomes of R73 -/

inductive Flow where
  | ordinary
  | skip
  | taken (target : Addr)
  | notTaken (annul : Bool)
  deriving DecidableEq, Repr

/-- The advance of PC, nPC and DS (R73). -/
def Thread.advance (x : Thread) : Flow → Thread
  | .ordinary => { x with pc := x.npc, npc := x.npc + 4, ds := false }
  | .skip => { x with pc := x.npc + 4, npc := x.npc + 8, ds := false }
  | .taken a => { x with pc := x.npc, npc := a, ds := true }
  | .notTaken false => { x with pc := x.npc, npc := x.npc + 4, ds := true }
  | .notTaken true => { x with pc := x.npc + 4, npc := x.npc + 8, ds := false }

end Sys2Proof.Machine
end

