-- ==== Sys2Proof/Machine/Ashlar.lean ====
section
/-! DEFINITION. The Ashlar code (R250 to R257): GF(2^16), syndromes, and the decoding of a read. A stored
line is a codeword, or for POISON a codeword with its four check symbols complemented, so the
syndromes of a read are those of the bits in error, XOR the POISON pattern for a POISON line. -/

namespace Sys2Proof.Machine

abbrev Sym := BitVec 16

/-- Multiplication by α: x^16 = x^12 + x^3 + x + 1 (R253). -/
def gx (a : Sym) : Sym := (a <<< 1) ^^^ (if a.getLsbD 15 then 0x100B else 0)

/-- The product in GF(2^16). -/
def gmul (a b : Sym) : Sym := forN 16 0 fun i acc => gx acc ^^^ (if a.getLsbD (15 - i) then b else 0)

/-- α^n. -/
def gpow (n : Nat) : Sym := forN n 1 fun _ a => gx a

/-- The inverse a^(2^16 − 2) = a^2 · a^4 · … · a^(2^15). -/
def ginv (a : Sym) : Sym :=
  (forN 15 ((1, a) : Sym × Sym) fun _ p => let q := gmul p.2 p.2; (gmul p.1 q, q)).1

/-- Symbol j of a transfer: beats 4(j mod 2) to 4(j mod 2) + 3 of device j div 2 (R251). -/
def symOf (x : BitVec 640) (j : Nat) : Sym := x.extractLsb' (16 * j) 16

/-- The four sums of R253. -/
structure Synd where
  s0 : Sym := 0
  s1 : Sym := 0
  s2 : Sym := 0
  s3 : Sym := 0
  deriving DecidableEq, Repr

def syndXor (a b : Synd) : Synd := ⟨a.s0 ^^^ b.s0, a.s1 ^^^ b.s1, a.s2 ^^^ b.s2, a.s3 ^^^ b.s3⟩

/-- The syndromes of error e at symbol j. -/
def syndAt (j : Nat) (e : Sym) : Synd :=
  let x := gpow j
  let e1 := gmul x e
  let e2 := gmul x e1
  ⟨e, e1, e2, gmul x e2⟩

/-- The syndromes of 640 bits (R253). -/
def synd (x : BitVec 640) : Synd := forN 40 {} fun j a => if symOf x j = 0 then a else syndXor a (syndAt j (symOf x j))

/-- The syndromes of the four complemented check symbols (R257). -/
def syndPoison : Synd :=
  syndXor (syndXor (syndAt 18 0xFFFF) (syndAt 19 0xFFFF)) (syndXor (syndAt 38 0xFFFF) (syndAt 39 0xFFFF))

/-- The one symbol in error, when the syndromes are those of one. -/
def oneSym (s : Synd) : Option (List (Nat × Sym)) :=
  if s.s0 = 0 then none
  else ((List.range 40).find? fun j => syndAt j s.s0 == s).map fun j => [(j, s.s0)]

/-- The values of errors at symbols j and k that give s0 and s1. -/
def solveTwo (s : Synd) (j k : Nat) : Sym × Sym :=
  let x := gpow j
  let y := gpow k
  let a := gmul (s.s1 ^^^ gmul y s.s0) (ginv (x ^^^ y))
  (a, s.s0 ^^^ a)

/-- Two symbols in error: their locations satisfy the two recurrences of the syndromes. -/
def twoSym (s : Synd) : Option (List (Nat × Sym)) :=
  let fits (j k : Nat) : Bool :=
    let x := gpow j
    let y := gpow k
    let s1 := x ^^^ y
    let s2 := gmul x y
    decide (j < k) && gmul s1 s.s1 ^^^ gmul s2 s.s0 == s.s2 && gmul s1 s.s2 ^^^ gmul s2 s.s1 == s.s3
  ((List.range 40).findSome? fun j => ((List.range 40).find? (fits j)).map fun k => (j, k)).map fun (j, k) =>
    let (a, b) := solveTwo s j k
    [(j, a), (k, b)]

/-- Device d's two symbols as erasures, and at most one symbol elsewhere (R255, R259). -/
def erasedSym (d : Nat) (s : Synd) : Option (List (Nat × Sym)) :=
  let x := gpow (2 * d)
  let y := gpow (2 * d + 1)
  let c1 := x ^^^ y
  let c0 := gmul x y
  let t0 := s.s2 ^^^ gmul c1 s.s1 ^^^ gmul c0 s.s0
  let t1 := s.s3 ^^^ gmul c1 s.s2 ^^^ gmul c0 s.s1
  let other : Option (List (Nat × Sym)) :=
    if t0 = 0 then (if t1 = 0 then some [] else none)
    else
      ((List.range 40).find? fun j => j / 2 != d && gmul (gpow j) t0 == t1).map fun j =>
        let z := gpow j
        [(j, gmul t0 (ginv (gmul (z ^^^ x) (z ^^^ y))))]
  other.map fun o =>
    let s' := o.foldl (fun a p => syndXor a (syndAt p.1 p.2)) s
    let (a, b) := solveTwo s' (2 * d) (2 * d + 1)
    ((2 * d, a) :: (2 * d + 1, b) :: o).filter fun p => p.2 != 0

/-- The correctable errors of R255. -/
def correctable (mark : Option (BitVec 5)) (s : Synd) : Option (List (Nat × Sym)) :=
  match mark with
  | some d => erasedSym d.toNat s
  | none => match oneSym s with
    | some e => some e
    | none => twoSym s

/-- What a read finds (R254): the line, and the symbols corrected; none when it is uncorrectable. -/
structure ReadOut where
  val : LineVal
  fixed : List (Nat × Sym) := []
  deriving DecidableEq, Repr

/-- The line bits that an error at code symbol j turns; a check symbol turns none (R252). -/
def lineErr (j : Nat) (e : Sym) : LineBits :=
  if j < 18 then e.setWidth 576 <<< (16 * j)
  else if 20 ≤ j ∧ j < 38 then e.setWidth 576 <<< (16 * (j - 2))
  else 0

def lineErrs (es : List (Nat × Sym)) : LineBits := es.foldl (fun a p => a ^^^ lineErr p.1 p.2) 0

/-- The error bits of a transfer, symbol by symbol. -/
def errList (x : BitVec 640) : List (Nat × Sym) :=
  ((List.range 40).map fun j => (j, symOf x j)).filter fun p => p.2 != 0

/-- The decoding of R254. -/
def ashlarRead (mark : Option (BitVec 5)) (v : LineVal) (err : BitVec 640) : Option ReadOut :=
  let s0 := synd err
  let s := if v.poison then syndXor s0 syndPoison else s0
  let bits := v.bits ^^^ lineErrs (errList err)
  if s = {} then some { val := { bits } }
  else if s = syndPoison then some { val := { bits, poison := true } }
  else match correctable mark s with
    | some es => some { val := { bits := bits ^^^ lineErrs es }, fixed := es }
    | none => match correctable mark (syndXor s syndPoison) with
      | some es => some { val := { bits := bits ^^^ lineErrs es, poison := true }, fixed := es }
      | none => none

/-- The devices corrected, with their symbols: bit 0 even, bit 1 odd (R258, R262). -/
def fixedDevs (es : List (Nat × Sym)) : List (Nat × BitVec 2) :=
  (List.range 20).filterMap fun d =>
    let ev := es.any fun p => p.1 == 2 * d
    let od := es.any fun p => p.1 == 2 * d + 1
    if ev || od then some (d, BitVec.ofBool od ++ BitVec.ofBool ev) else none

end Sys2Proof.Machine
end

