-- ==== Sys2Proof/Machine/Ledger.lean ====
section
/-! DEFINITION. The Bearing ledger (R348 to R352): claims, releases and declared bearings. -/

namespace Sys2Proof.Machine

/-! ### Declared bearings (R352) -/

def coreBearing (step : Nat) : Nat := if step ≤ 24 then 4 else step - 20

/-- HUB units of one direction of a Strait: one per started group of 8 powered lanes. -/
def straitDirBearing (lanes : Nat) : Nat := (lanes + 7) / 8

/-- HUB units of a trained link of a port: RATE 6 is 64 GT/s (R310). -/
def linkBearing (lanes : Nat) (fast : Bool) : Nat := if fast then lanes else (lanes + 1) / 2

/-! ### Claims (R348 to R351) -/

/-- The earliest start, in quarter-nanoseconds, of a ramp of length len that overlaps no granted ramp. -/
def rampStart (ramps : List (Nat × Nat)) (len : Nat) : Nat :=
  let free (c : Nat) : Bool := ramps.all fun r => decide (c + len ≤ r.1 ∨ r.1 + r.2 ≤ c)
  ((0 :: ramps.map fun r => r.1 + r.2).filter free).foldl min (ramps.foldl (fun a r => max a (r.1 + r.2)) 0)

/-- Length of the ramp of a CORE claim: units of 0.25 A at 40 A per µs, in quarter-nanoseconds. -/
def rampLen (core : Nat) : Nat := 25 * core

/-- Whether a claim is granted (R348, R349). -/
def claimOk (l : Ledger) (core hub : Nat) : Bool :=
  let tot := l.claimed.foldl (fun a p => (a.1 + p.2.core, a.2 + p.2.hub)) (0, 0)
  decide (tot.1 + core ≤ l.limCore.toNat) && decide (tot.2 + hub ≤ l.limHub.toNat) &&
    (core == 0 || decide (rampStart l.ramps (rampLen core) ≤ 16000))

/-- A claim of requester q (R350), which moves the pointer of R17 behind it: the state after it and whether it was granted.
A difference of 0 is granted without reaching the ledger (R351). -/
def State.claim (s : State) (q core hub : Nat) : State × Bool :=
  if core = 0 ∧ hub = 0 then (s, true)
  else
    let l := { s.ledger with ptr := (q + 1) % 50 }
    if claimOk l core hub then
      let a := sget {} l.claimed q
      ({ s with ledger := { l with
          claimed := sset {} l.claimed q ⟨a.core + core, a.hub + hub⟩
          ramps := if core = 0 then l.ramps else l.ramps ++ [(rampStart l.ramps (rampLen core), rampLen core)] } }, true)
    else ({ s with ledger := { l with refused := l.refused + 1 } }, false)

/-- A release of requester q; never refused (R351). -/
def State.release (s : State) (q core hub : Nat) : State :=
  let a := sget {} s.ledger.claimed q
  { s with ledger := { s.ledger with claimed := sset {} s.ledger.claimed q ⟨a.core - core, a.hub - hub⟩ } }

/-- Requester numbers (R350). -/
def reqIsle (n : Nat) : Nat := n
def reqChan (c : Nat) : Nat := 12 + c
def reqBlock (b : Nat) : Nat := 36 + b
def reqHarbour : Nat := 48
def reqUmf : Nat := 49

/-- BEARING_CLAIM (R348, R350): a claim with the others that reach the ledger in its Keystone cycle, served in the order
of R17 by requester and, within an Isle, of R18 by member. -/
def execBearingClaim (c : BearingReq) (others : List BearingReq) (s : State) : Res :=
  let cs := c :: others
  let order := (inTurn 50 (fun r : BearingReq => r.q.val) (fun r => r.mem.val) s.ledger.ptr cs cs.length).1
  .next (order.foldl (fun s r => (s.claim r.q.val r.core.toNat r.hub.toNat).1) s)

/-- BEARING_RELEASE (R351). -/
def execBearingRelease (q : Fin 50) (core hub : BitVec 12) (s : State) : Res :=
  .next (s.release q.val core.toNat hub.toNat)

end Sys2Proof.Machine
end

