-- ==== Sys2Proof/Machine/Dram.lean ====
section
/-! DEFINITION. Memory controllers (R243 to R280): where lines lie, reads and writes of DRAM, corrected
errors, freeze and training. Operations that answer queued reads return the answers, which the home
takes in (`Home.lean`). -/

namespace Sys2Proof.Machine

/-- Answers to reads that waited for memory. -/
abbrev Answers := List (LineNo × LineVal)

def poisonLine : LineVal := { bits := 0, poison := true }

/-! ### The map (R247, R248) -/

def bits24 (m : BitVec 24) : List Nat := (List.range 24).filter fun c => m.getLsbD c

/-- Lines per channel of a depth in Mn. -/
def depthLines (d : BitVec 20) : Nat := 16384 * d.toNat

/-- Channel and channel-local line of physical line n, from the sets and the local lines that earlier sets
took from each channel (R248). -/
def placeIn : List MemSet → (Nat → Nat) → Nat → Option (Nat × Nat)
  | [], _, _ => none
  | k :: ks, used, n =>
    let ms := bits24 k.members
    let base := k.base.toNat / 64
    if base ≤ n ∧ n < base + ms.length * depthLines k.depth then
      let j := n - base
      (ms[j % ms.length]?).map fun c => (c, used c + j / ms.length)
    else placeIn ks (fun c => used c + (if k.members.getLsbD c then depthLines k.depth else 0)) n

def State.place (s : State) (n : LineNo) : Option (Nat × Nat) := placeIn s.memSets (fun _ => 0) n.toNat

/-- The physical line of a channel-local line. -/
def lineIn (c : Nat) : List MemSet → Nat → Option Nat
  | [], _ => none
  | k :: ks, loc =>
    if k.members.getLsbD c then
      let ms := bits24 k.members
      if loc < depthLines k.depth then some (k.base.toNat / 64 + loc * ms.length + (ms.idxOf c))
      else lineIn c ks (loc - depthLines k.depth)
    else lineIn c ks loc

/-- Lines of local DRAM below the installed top (R37). -/
def State.dramLine (s : State) (n : LineNo) : Bool := decide (n.toNat < 16384 * s.memTop.toNat)

/-- Lines of a channel. -/
def Chan.lines (x : Chan) : Nat := 2 ^ 24 * x.cap.toNat

/-- The eighth of its channel in which a channel-local line lies (R279). -/
def Chan.eighth (x : Chan) (loc : Nat) : Nat := if x.lines = 0 then 0 else loc / (x.lines / 8)

/-! ### Contents -/

/-- Whether an unlisted line reads POISON, its channel having been filled so. -/
def State.fillPoison (s : State) (n : LineNo) : Bool :=
  match s.place n with
  | some (c, loc) => let x := s.chan c; x.poisonFill.getLsbD (x.eighth loc)
  | none => false

/-- What memory holds at a line. -/
def State.memGet (s : State) (n : LineNo) : LineVal :=
  let v := sget {} s.mem n.toNat
  { v with poison := v.poison != s.fillPoison n }

/-- Writes a line of memory. -/
def State.memPut (s : State) (n : LineNo) (v : LineVal) : State :=
  { s with mem := sset {} s.mem n.toNat { v with poison := v.poison != s.fillPoison n } }

/-- Removes the listed lines of a channel in the eighths of a mask and sets what they read as. -/
def State.fillEighths (s : State) (c : Nat) (mask : BitVec 8) (poison : Bool) : State :=
  let x := s.chan c
  let mem := s.mem.filter fun p =>
    match s.place (BitVec.ofNat 46 p.1) with
    | some (c', loc) => !(c' == c && mask.getLsbD (x.eighth loc))
    | none => true
  { s with mem }.modChan c fun x => { x with poisonFill := if poison then x.poisonFill ||| mask else x.poisonFill &&& ~~~mask }

/-! ### Rows and activates (R266, R268, R269) -/

/-- Ones of a 4-bit history. -/
def ones4 (h : BitVec 4) : Nat := ((List.range 4).filter fun i => h.getLsbD i).length

/-- An ACTIVATE of a row: its tally, and an RFM to its bank when the tally reaches the threshold (R269). -/
def tallyRow (x : RowHam) (bank row : Nat) : RowHam :=
  let key := (bank, row)
  let t := x.tally
  let (t, k) : List ((Nat × Nat) × Nat) × Nat :=
    match t.find? fun p => p.1 == key with
    | some p => (t.filter (fun q => q.1 != key), p.2 + 1)
    | none =>
      if t.length < 512 then (t, 1)
      else
        let least := t.foldl (fun a p => min a p.2) ((t.head?.map (·.2)).getD 0)
        match t.find? fun p => p.2 == least with
        | some p => (t.filter (fun q => q.1 != p.1), least + 1)
        | none => (t, 1)
  if x.thresh.toNat ≤ k then { x with tally := t ++ [(key, 0)], rfm := satAdd x.rfm 1, rfmBank := some bank }
  else { x with tally := t ++ [(key, k)] }

/-- An ACTIVATE counts in its bank's rolling count, and that at its limit requires an RFM of the bank (R269). -/
def rollRow (x : RowHam) (bank : Nat) : RowHam :=
  let k := sget 0 x.raa bank + 1
  let full := decide (Config.raaLimit ≤ k)
  { x with raa := sset 0 x.raa bank (if full then 0 else k), raaRfm := if full then x.raaRfm + 1 else x.raaRfm
           rfmBank := if full then some bank else x.rfmBank }

/-- An ACTIVATE of a row in channel c: tallied, counted and perhaps sampled (R268, R269). -/
def activate (c : Nat) (x : RowHam) (bank row : Nat) : RowHam :=
  let x := rollRow (tallyRow x bank row) bank
  { x with acts := x.acts + 1
           sampled := if Config.sampled c x.pexp.toNat x.acts then x.sampled ++ [(bank, row)] else x.sampled }

/-- An access to a channel-local line would hit the open row of its bank. -/
def RowHam.hits (x : RowHam) (loc : Nat) : Bool :=
  let b := Config.dramBank loc
  sget false x.rowOpen b && sget none x.lastRow b == some (Config.dramRow loc)

/-- One access of a channel-local line: the row, the history and the page policy (R266). The bit that it leaves is 1 when it
hit an open row (DEDUCED, log entry 17). -/
def rowAccess (c loc : Nat) (x : RowHam) : RowHam :=
  let b := Config.dramBank loc
  let row := Config.dramRow loc
  let hit := x.hits loc
  let x := if hit then x else activate c x b row
  let h : BitVec 4 := (sget 0 x.hist b <<< 1) ||| (BitVec.ofBool hit).setWidth 4
  let keep := x.pgMode == 1 || (x.pgMode == 0 && decide (x.pgThresh.toNat ≤ ones4 h))
  { x with lastRow := sset none x.lastRow b (some row), rowOpen := sset false x.rowOpen b keep, hist := sset 0 x.hist b h }

/-- The last 64 commands that a controller issued (R275). -/
def Chan.issue (x : Chan) (cs : List DramCmd) : Chan := { x with cmds := (x.cmds ++ cs).drop ((x.cmds ++ cs).length - 64) }

/-- The channel-local line of a physical line. -/
def State.localLine (s : State) (n : LineNo) : Nat := ((s.place n).map (·.2)).getD 0

/-- The bookkeeping of one access to line n of channel c: commands, rows and unit counters 16 to 18. -/
def State.dramTouch (s : State) (c : Nat) (n : LineNo) (wr vault : Bool) : State :=
  let loc := s.localLine n
  let hit := (s.chan c).rh.hits loc
  let cmds := (if hit then [] else [DramCmd.activate (Config.dramBank loc) (Config.dramRow loc)]) ++ [if wr then .write n else .read n]
  let s := s.modChan c fun x => { x.issue cmds with rh := rowAccess c loc x.rh }
  let s := s.sndKey (if wr then 17 else 16) c vault
  if hit then s.sndKey 18 c vault else s

/-! ### Corrected errors (R258 to R262) -/

/-- MC_CELOG: the newest entry follows the last one, mod 16. -/
def Chan.logCe (x : Chan) (e : CeEntry) : Chan :=
  let i : BitVec 4 := if x.ceFill = 0 then 0 else x.ceNew + 1
  { x with celog := sset {} x.celog i.toNat e, ceNew := i, ceFill := if x.ceFill = 16 then 16 else x.ceFill + 1 }

/-- A hard error of device d at a line: HARD counts distinct lines, and the count makes the mark, or SECOND once for
each device that meets the criterion (R258 to R260). -/
def State.hardError (s : State) (c d : Nat) (n : LineNo) : State :=
  let x := s.chan c
  let fresh := !x.hardAt.contains (d, n)
  let x := if fresh then { x with hardAt := x.hardAt ++ [(d, n)], hard := sset 0 x.hard d (satAdd (sget 0 x.hard d) 1) } else x
  let k := (x.hardAt.filter fun p => p.1 == d).length
  let s := s.setChan c x
  if k < x.markhard.toNat then s
  else match x.mark with
    | none =>
      (s.modChan c fun x => { x with mark := some (BitVec.ofNat 5 d) }).recKey (posMc c) 0o004002 c [rp d, 0]
    | some m =>
      if m.toNat = d ∨ (x.second ∧ !(fresh && k == x.markhard.toNat)) then s
      else (s.modChan c fun x => { x with second := true }).recKey (posMc c) 0o004003 c [rp d]

/-- Second of the master's epoch, for R262's limit. -/
def State.second (s : State) : Nat := s.lh.count.toNat / 4000000000

/-- Counts, logs and records a corrected error of one device (R258, R262). -/
def State.countCe (s : State) (c : Nat) (n : LineNo) (d : Nat) (syms : BitVec 2) (hard : Bool) (id : Xid := {}) : State :=
  let s := s.modChan c fun x =>
    { x.logCe { line := n, dev := BitVec.ofNat 5 d, syms, hard } with
      cecnt := sset 0 x.cecnt d (satAdd (sget 0 x.cecnt d) 1)
      recorded := if x.recSecond = s.second then x.recorded else 0
      recSecond := s.second }
  let s :=
    if (s.chan c).recorded < 64 then
      (s.modChan c fun x => { x with recorded := x.recorded + 1 }).recKey (posMc c) 0o004001 c
        [rp (n.toNat * 64), rp d, rp syms.toNat, rp hard.toNat] id.world id.ctx id.thread
    else s
  if hard then s.hardError c d n else s

/-- Counts every waiting corrected error as soft: its reread will not be made (R258). -/
def State.flushRereads (s : State) (c : Nat) : State :=
  let rs := (s.chan c).rereads
  let s := rs.foldl (fun s r => r.devs.foldl (fun s d => s.countCe c r.line d.1 d.2 false r.id) s) s
  s.modChan c fun x => { x with rereads := [] }

/-! ### Handles that end -/

/-- Ends the handle that unit u carries, with STATUS and DETAIL (R394). -/
def State.endHandle (s : State) (u : HUnit) (status detail : BitVec 8) : State :=
  { s with umf := { s.umf with boxes := s.umf.boxes.map fun p =>
      (p.1, { p.2 with handles := p.2.handles.map fun h =>
        if h.unit = u ∧ h.res.isNone then { h with res := some (status, detail) } else h }) } }

/-- Ends the handle that Isle n carries for ISLE_ADMIT or ISLE_ONLINE: r is STR_ADMIT.RESULT, or 0 when its Strait
is found severed (R398, R408). -/
def State.endIsle (s : State) (n r : Nat) : State :=
  let d (h : Handle) : BitVec 8 × BitVec 8 :=
    if r = 1 then (0, if h.cmd = 49 then 1 else 0)
    else (9, if h.cmd = 49 then BitVec.ofNat 8 r else if r = 0 then 1 else 2)
  let give (h : Handle) : Handle :=
    if h.unit = .isle (Fin.ofNat 12 n) ∧ h.res.isNone then { h with res := some (d h) } else h
  { s with umf := { s.umf with boxes := s.umf.boxes.map fun p => (p.1, { p.2 with handles := p.2.handles.map give }) } }

/-! ### Freeze and failure (R270, R273, R275) -/

/-- Answers every queued and every waiting read POISON. -/
def State.poisonReads (s : State) (c : Nat) : State × Answers :=
  let q := (s.chan c).readQ.map QRead.line ++ (s.chan c).readWait
  (s.modChan c fun x => { x with readQ := [], readWait := [] }, q.map fun n => (n, poisonLine))

/-- A retrain by command that waits for its bearing ends ABORTED as its channel freezes: only MEM_THAW thaws it (R277;
DESIGN CHOICE, log entry 60). -/
def State.dropRetrain (s : State) (c : Nat) : State :=
  if (s.chan c).bearwait then
    (s.modChan c fun x => { x with bearwait := false }).endHandle (.channel (Fin.ofNat 24 c)) 10 0
  else s

/-- A freeze (R275). What is kept of the PHY's state is a free value, which no command shows (log entry 60). -/
def State.freeze (s : State) (c : Nat) (cause : BitVec 3) (line : Option LineNo) (id : Xid := {}) : State × Answers :=
  let s := (s.flushRereads c).dropRetrain c
  let (phy, s) := s.takeFree
  let x := if cause = 2 then (s.chan c).issue [.blocked line] else s.chan c
  let replay := if cause = 2 then [DramCmd.blocked line] else []
  let s := s.setChan c { x with
    st := .frozen, frzCause := cause, lostovf := false, lost := [], frzLost := 0, frzOvf := false
    frzRdq := BitVec.ofNat 7 x.readQ.length, frzWrq := BitVec.ofNat 7 x.writeQ.length
    noline := line.isNone, frzLine := line.getD 0, draining := false, phy, replay }
  let s := s.recKey (posMc c) 0o004010 c
    [rp cause.toNat, rp ((line.map fun n => n.toNat * 64).getD 0), rp x.readQ.length, rp x.writeQ.length]
    id.world id.ctx id.thread
  s.poisonReads c

/-- The channel becomes Failed (R270, R273, R277): why is P0 of CHANNEL_FAILED. -/
def State.chanFail (s : State) (c why : Nat) : State × Answers :=
  let s := s.flushRereads c
  let x := s.chan c
  let s := s.release (reqChan c) 0 (12 + if x.st = .training then 24 else 0)
  let s := s.setChan c { x with
    st := .failed, writeQ := [], draining := false, replay := [], inService := false, bearwait := false, rereads := [] }
  let s := { s with board := { s.board with flash := { s.board.flash with
    excluded := s.board.flash.excluded ||| ((1 : BitVec 24) <<< c) } } }
  (s.recKey (posMc c) 0o004013 c [rp why]).poisonReads c

/-- THAWED (R277) with its action and result, and the end of the handle. -/
def State.thawed (s : State) (c : Nat) (action : BitVec 2) (result : Nat) : State :=
  let s := (s.modChan c fun x => { x with thaw := none }).recKey (posMc c) 0o004011 c [rp action.toNat, rp result]
  match result with
  | 0 => s.endHandle (.channel (Fin.ofNat 24 c)) 0 0
  | 1 => s.endHandle (.channel (Fin.ofNat 24 c)) 0 1
  | _ => s.endHandle (.channel (Fin.ofNat 24 c)) 7 1

/-! ### Reads and writes -/

/-- Takes a queued write out of the queue into DRAM (R264, R265). -/
def State.drainWrite (s : State) (c : Nat) (w : QWrite) : State :=
  ((s.modChan c fun x => { x with writeQ := x.writeQ.erase w }).memPut w.line w.val).dramTouch c w.line true w.vault

/-- The queued write that a read of line n waits for is issued (R265). -/
def State.drainLine (s : State) (c : Nat) (n : LineNo) : State :=
  match (s.chan c).writeQ.find? fun w => w.line == n && !w.behind with
  | some w => s.drainWrite c w
  | none => s

/-- The oldest write that is behind no read is issued. -/
def State.drainOldest (s : State) (c : Nat) : State :=
  match (s.chan c).writeQ.find? fun w => !w.behind with
  | some w => s.drainWrite c w
  | none => s

/-- Drains the whole write queue. -/
def State.drainAll (s : State) (c : Nat) : State := (s.chan c).writeQ.foldl (fun s w => s.drainWrite c w) s

/-- Writes drain until 16 are left, where that has begun (R264). -/
def State.drainTo (s : State) (c : Nat) : State :=
  if (s.chan c).draining then
    let s := forN ((s.chan c).writeQ.length - 16) s fun _ s => s.drainOldest c
    s.modChan c fun x => { x with draining := false }
  else s

/-- Queues a write: in place over a queued write to the line, unless a read of the line is queued between the two; else last,
after room is made (R264, R265). -/
def State.queueWrite (s : State) (c : Nat) (n : LineNo) (v : LineVal) (vault : Bool) : State :=
  let behind := (s.chan c).readQ.any fun r => r.line == n
  let same (w : QWrite) : Bool := w.line == n && (w.behind || !behind)
  if (s.chan c).writeQ.any same then
    let put (w : QWrite) : QWrite := if same w then { w with val := v, vault } else w
    s.modChan c fun x => { x with writeQ := x.writeQ.map put }
  else
    let s := if 64 ≤ (s.chan c).writeQ.length then s.drainOldest c else s
    s.modChan c fun x =>
      { x with writeQ := x.writeQ ++ [{ line := n, val := v, vault, behind }], draining := x.draining || decide (48 ≤ x.writeQ.length + 1) }

/-- A read takes a place of the read queue, or waits for one (R264). -/
def Chan.enqueue (x : Chan) (n : LineNo) : Chan :=
  if x.readQ.length < 64 then { x with readQ := x.readQ ++ [{ line := n }] } else { x with readWait := x.readWait ++ [n] }

/-- A read leaves the queue: the reads that it passes are counted, writes behind it are free, a waiting read comes in. -/
def Chan.dequeue (x : Chan) (n : LineNo) : Chan :=
  let pass (r : QRead) : QRead := { r with passed := r.passed + 1 }
  let free (w : QWrite) : QWrite := if w.line = n then { w with behind := false } else w
  let older := (x.readQ.takeWhile fun r => r.line != n).map pass
  let younger := (x.readQ.dropWhile fun r => r.line != n).drop 1
  let y := { x with readQ := older ++ younger, writeQ := x.writeQ.map free }
  match y.readWait with
  | m :: ms => if y.readQ.length < 64 then { y with readQ := y.readQ ++ [{ line := m }], readWait := ms } else y
  | [] => y

/-- The read that the scheduler issues next: one that 16 younger ones have passed, else the oldest row hit, else the oldest
(R264). -/
def State.nextRead (s : State) (c : Nat) : Option LineNo :=
  let x := s.chan c
  match x.readQ with
  | [r] => some r.line
  | q =>
    let r := (q.find? fun r => decide (16 ≤ r.passed)).or ((q.find? fun r => x.rh.hits (s.localLine r.line)).or q.head?)
    r.map QRead.line

/-- Lists a write that a frozen channel loses (R276). -/
def Chan.lose (x : Chan) (n : LineNo) : Chan :=
  if x.lost.contains n then x
  else if x.lost.length < 1024 then { x with lost := x.lost ++ [n], frzLost := x.frzLost + 1 }
  else { x with lostovf := true, frzOvf := true }

/-- The home gives memory a line; true when it is written (R264, R272, R273, R276). -/
def State.memWrite (s : State) (n : LineNo) (v : LineVal) (vault : Bool) : State :=
  match s.place n with
  | some (c, _) =>
    match (s.chan c).st with
    | .run => s.queueWrite c n v vault
    | .frozen => s.modChan c fun x => x.lose n
    | .empty | .training | .filling | .failed | .excluded | .selfref => s
  | none => s.memPut n v

/-- The home asks memory for a line: queued at a running channel, or the answer at once. -/
def State.memRead (s : State) (n : LineNo) : State × Option LineVal :=
  match s.place n with
  | some (c, _) =>
    match (s.chan c).st with
    | .run => (s.modChan c fun x => x.enqueue n, none)
    | .frozen | .empty | .training | .filling | .failed | .excluded | .selfref => (s, some poisonLine)
  | none => (s, some (s.memGet n))

/-- Whether writes to a line's channel are lost and its memory copy is or will be POISON (R184). -/
def State.chanDown (s : State) (n : LineNo) : Bool :=
  match s.place n with
  | some (c, _) => (s.chan c).st != .run
  | none => false

def State.chanFailed (s : State) (n : LineNo) : Bool :=
  match s.place n with
  | some (c, _) => (s.chan c).st == .failed
  | none => false

/-- A read of DRAM with its error bits (R254, R258): the line read, none after a freeze. -/
def State.readDram (s : State) (c : Nat) (n : LineNo) (err : BitVec 640) (id : Xid) :
    State × Option LineVal × Answers :=
  let s := (s.drainLine c n).dramTouch c n false id.world
  match ashlarRead (s.chan c).mark (s.memGet n) err with
  | none => let r := s.freeze c 1 (some n) id; (r.1, none, r.2)
  | some o =>
    let devs := fixedDevs o.fixed
    if devs.isEmpty then (s, some o.val, [])
    else
      let s := s.queueWrite c n o.val id.world
      (s.modChan c fun x => { x with rereads := x.rereads ++ [{ line := n, devs, id }] }, some o.val, [])

/-- The reread that tells hardness (R258). A device that errs in it for the first time has a corrected read of its own, whose
reread follows (DEDUCED, log entry 15). -/
def State.reread (s : State) (c : Nat) (err : BitVec 640) : State × Answers :=
  let x := s.chan c
  if x.st ≠ .run then (s, [])
  else match x.rereads.find? fun r => !(x.writeQ.any fun w => w.line == r.line) with
    | none => (s, [])
    | some r =>
      let s := s.dramTouch c r.line false false
      match ashlarRead x.mark (s.memGet r.line) err with
      | none => s.freeze c 1 (some r.line) r.id
      | some o =>
        let again := fixedDevs o.fixed
        let s := s.modChan c fun x => { x with rereads := x.rereads.erase r }
        let new := again.filter fun a => !(r.devs.any fun d => d.1 == a.1)
        let s := if again.isEmpty then s else s.queueWrite c r.line o.val r.id.world
        let s := if new.isEmpty then s else s.modChan c fun x => { x with rereads := x.rereads ++ [{ r with devs := new }] }
        (r.devs.foldl (fun s d => s.countCe c r.line d.1 d.2 (again.any fun a => a.1 == d.1) r.id) s, [])

/-! ### Full training in service (R270, R272, R277) -/

/-- The training begins: the queues are given up and reads answer POISON. -/
def State.beginTraining (s : State) (c : Nat) : State × Answers :=
  let s := s.flushRereads c
  (s.modChan c fun x => { x with st := .training, inService := true, bearwait := false, writeQ := [], draining := false
                                 replay := [], lost := [], lostovf := false }).poisonReads c

/-- Claims the DRAM-training bearing; refused, the channel waits and the wait is recorded (R270). -/
def State.claimTraining (s : State) (c : Nat) : State × Answers :=
  match s.claim (reqChan c) 0 24 with
  | (s, true) => s.beginTraining c
  | (s, false) => ((s.modChan c fun x => { x with bearwait := true }).recKey posUmf 0o004023 c [], [])

/-- A channel that waits for its training's bearing claims again; one that start-up brings up is start-up's (R274). -/
def State.retryTraining (s : State) (c : Nat) : State × Answers :=
  let x := s.chan c
  if x.bearwait && (x.st == .run || x.st == .frozen) then s.claimTraining c else (s, [])

/-- The training of a channel ends: works, the POISON fill begins; else the channel is Failed. -/
def State.trainingEnds (s : State) (c : Nat) (works : Bool) : State × Answers :=
  let x := s.chan c
  if x.st ≠ .training then (s, [])
  else if works then
    ((s.release (reqChan c) 0 24).modChan c fun x => { x with st := .filling }, [])
  else
    let (s, a) := s.chanFail c 0
    match x.thaw with
    | some t => (s.thawed c t 1, a)
    | none => (s.endHandle (.channel (Fin.ofNat 24 c)) 0 1, a)

/-- The POISON fill ends and the channel runs (R272). -/
def State.fillEnds (s : State) (c : Nat) : State :=
  let x := s.chan c
  if x.st ≠ .filling ∨ !x.inService then s
  else
    let s := (s.fillEighths c 0xFF true).modChan c fun x =>
      { x with st := .run, inService := false, lost := [], lostovf := false }
    match x.thaw with
    | some t => s.thawed c t 0
    | none => s.endHandle (.channel (Fin.ofNat 24 c)) 0 0

/-- A command/address parity error (R270, R275, R278). -/
def State.caError (s : State) (c : Nat) (line : Option LineNo) : State × Answers :=
  let x := s.chan c
  match x.st with
  | .run => s.freeze c 2 line
  | .training | .filling =>
    let (s, a) := s.chanFail c (if x.inService then 0 else 2)
    match x.thaw with
    | some t => (s.thawed c t 1, a)
    | none => (s.endHandle (.channel (Fin.ofNat 24 c)) 0 1, a)
  | .frozen => ((s.modChan c fun x => { x with caCount := x.caCount + 1 }).recKey (posMc c) 0o004012 c [], [])
  | .empty | .failed | .excluded | .selfref => (s, [])

/-! ### Commands that answer no read -/

/-- Writes may be issued: they drain, or no read is queued (R264). -/
def Chan.writes (x : Chan) : Bool := x.draining || x.readQ.isEmpty

/-- DRAM_WRITE (R264): the oldest queued write goes to DRAM. -/
def execDramWrite (c : Fin 24) (s : State) : Res :=
  if s.chanFit c ∧ (s.chan c).st = .run ∧ (s.chan c).writes then
    .next ((s.drainOldest c).modChan c fun x => { x with draining := x.draining && decide (16 < x.writeQ.length) })
  else .next s

/-- REFSB (R267): a refresh, with the DIMM above 85 °C or not. -/
def execRefsb (c : Fin 24) (hot : Bool) (s : State) : Res :=
  if !s.chanFit c then .next s
  else match (s.chan c).st with
    | .run | .frozen =>
      .next (s.modChan c fun x => { x.issue [.refresh] with rh := { x.rh with halved := hot, refsb := x.rh.refsb + 1 } })
    | .empty | .training | .filling | .failed | .excluded | .selfref => .next s

/-- MEM_THROTTLED (R267): above 95 °C Umfoent throttles the channel and records it; temp is in 1/16 °C. -/
def execMemThrottled (c : Fin 24) (temp : BitVec 16) (s : State) : Res :=
  if !s.chanFit c then .next s
  else if temp.toNat ≤ 95 * 16 then .next (s.modChan c fun x => { x with rh := { x.rh with throttled := false } })
  else
    .next ((s.modChan c fun x => { x with rh := { x.rh with throttled := true } }).recKey posUmf 0o004022 c [rp temp.toNat])

/-- A row is activated and precharged, which leaves no row of its bank open (R268). -/
def strokeRow (c : Nat) (x : RowHam) (bank row : Nat) : RowHam :=
  let x := activate c x bank row
  { x with rowOpen := sset false x.rowOpen bank false }

/-- The refresh of a sampled row: DRFM, or its neighbours activated and precharged (R268). -/
def refreshRow (c : Nat) (drfm : Bool) (x : RowHam) (bank row : Nat) : RowHam :=
  let x := { x with sampled := x.sampled.erase (bank, row), nbr := satAdd x.nbr 1 }
  if drfm then x
  else
    let x := if row = 0 then x else strokeRow c x bank (row - 1)
    strokeRow c x bank (row + 1)

/-- SAMPLED_ROW_REFRESH (R268). -/
def execSampledRowRefresh (c : Fin 24) (bank : BitVec 16) (row : BitVec 32) (s : State) : Res :=
  if s.chanFit c ∧ (s.chan c).st = .run ∧ (s.chan c).rh.sampled.contains (bank.toNat, row.toNat) then
    .next (s.modChan c fun x =>
      { x.issue [.neighbour bank.toNat row.toNat] with rh := refreshRow c x.drfm x.rh bank.toNat row.toNat })
  else .next s

/-- TALLY_CLEAR (R269). -/
def execTallyClear (c : Fin 24) (s : State) : Res :=
  if s.chanFit c then .next (s.modChan c fun x => { x with rh := { x.rh with tally := [] } }) else .next s

/-- TRACKING_RETRAIN (R271): the tracking bearing is claimed and released, or the retrain is skipped. -/
def execTrackingRetrain (c : Fin 24) (s : State) : Res :=
  let x := s.chan c
  if !s.chanFit c ∨ x.st ≠ .run ∨ x.trackms = 0 then .next s
  else match s.claim (reqChan c) 0 4 with
      | (s, true) => .next ((s.release (reqChan c) 0 4).modChan c fun x => x.issue [.track])
      | (s, false) => .next (s.modChan c fun x => { x with trackdefer := satAdd x.trackdefer 1 })

/-- POISON_FILL_DONE (R272). -/
def execPoisonFillDone (c : Fin 24) (s : State) : Res :=
  if s.chanFit c then .next (s.fillEnds c) else .next s

end Sys2Proof.Machine
end

