-- ==== Sys2Proof/Machine/Operands.lean ====
section
/-! DEFINITION. Operand forms and integer results of Folxis-36: immediates, addresses, the raw ALU, shifts,
conditions, marked arithmetic, vector lanes and AMO results. -/

namespace Sys2Proof.Machine

/-! ### Immediates and addresses (R51, R57, R68) -/

def sext72 {w : Nat} (x : BitVec w) : Reg := x.signExtend 72
def zext72 {w : Nat} (x : BitVec w) : Reg := x.setWidth 72

/-- Bits 63:0 of a register, the part that takes part in an address (R51). -/
def low64 (x : Reg) : Addr := x.extractLsb' 0 64

/-- Effective address of format I (R51, R68). -/
def eaI (base : Reg) (imm : BitVec 16) : Addr := low64 base + imm.signExtend 64

/-- Effective address of formats N (R68): DISP7 scaled by the unit. -/
def eaN (base : Reg) (disp : BitVec 7) (unit : Nat) : Addr :=
  low64 base + disp.signExtend 64 * BitVec.ofNat 64 unit

/-- Effective address of VLD and VST (R65). -/
def eaV (base : Reg) (imm : BitVec 16) : Addr := low64 base + imm.signExtend 64 * 64

/-- Effective address of LX and SX (R57). -/
def eaX (base idx : Reg) (scale : BitVec 2) : Addr := low64 base + (low64 idx <<< scale.toNat)

/-- The bits 35:0 of a register sign-extended: how a 36-bit result fills its register (R48). -/
def fill36 (x : W36) : Reg := x.signExtend 72

/-! ### The raw ALU (R48, R71) -/

/-- Left, right and arithmetic right shift by an amount that may reach the width (R48). -/
def shiftOp {w : Nat} (k : ShKind) (a : BitVec w) (n : Nat) : BitVec w :=
  match k with
  | .sll => if w ≤ n then 0 else a <<< n
  | .srl => if w ≤ n then 0 else a >>> n
  | .sra => a.sshiftRight (min n w)

/-- An ALU operation at width w; amt is the shift amount, bits 63:0 of rs2 (R48). -/
def aluOp {w : Nat} (op : AluOp) (a b : BitVec w) (amt : Nat) : BitVec w :=
  match op with
  | .add => a + b
  | .sub => a - b
  | .and => a &&& b
  | .or => a ||| b
  | .xor => a ^^^ b
  | .andn => a &&& ~~~b
  | .sll => shiftOp .sll a amt
  | .srl => shiftOp .srl a amt
  | .sra => shiftOp .sra a amt
  | .mul => a * b
  | .mulh => BitVec.ofInt w (a.toInt * b.toInt / 2 ^ w)
  | .mulhu => BitVec.ofNat w (a.toNat * b.toNat / 2 ^ w)
  | .div => if b = 0 then BitVec.allOnes w else a.sdiv b
  | .divu => if b = 0 then BitVec.allOnes w else a.udiv b
  | .rem => if b = 0 then a else a.srem b
  | .remu => if b = 0 then a else a.umod b
  | .min => if a.slt b then a else b
  | .max => if a.slt b then b else a
  | .minu => if a.ult b then a else b
  | .maxu => if a.ult b then b else a

def alu72 (op : AluOp) (a b : Reg) : Reg := aluOp op a b (low64 b).toNat

def alu36 (op : AluOp) (a b : Reg) : Reg :=
  fill36 (aluOp op (a.setWidth 36) (b.setWidth 36) (low64 b).toNat)

/-- SHI (R71). -/
def shiOp (k : ShKind) (w36 : Bool) (a : Reg) (n : Nat) : Reg :=
  if w36 then fill36 (shiftOp k (a.setWidth 36 : W36) n) else shiftOp k a n

/-- INSH (R70). -/
def inshOp (x : Reg) (pos : BitVec 2) (imm : BitVec 18) : Reg :=
  (x &&& ~~~((0x3FFFF : Reg) <<< (18 * pos.toNat))) ||| (imm.setWidth 72 <<< (18 * pos.toNat))

/-! ### Conditions (R75) -/

def condHolds (c : Cond) (a b : Reg) : Bool :=
  match c with
  | .eq => a == b
  | .ne => a != b
  | .lt => a.slt b
  | .ge => !a.slt b
  | .le => !b.slt a
  | .gt => b.slt a
  | .ltu => a.ult b
  | .geu => !a.ult b
  | .leu => !b.ult a
  | .gtu => b.ult a
  | .any => a &&& b != 0
  | .none => a &&& b == 0

/-- IMM18 of SKIPI (R75). -/
def skipImm (c : Cond) (imm : BitVec 18) : Reg :=
  match c with
  | .any | .none => zext72 imm
  | .eq | .ne | .lt | .ge | .le | .gt | .ltu | .geu | .leu | .gtu => sext72 imm

/-! ### Marks (R47, R49, R50) -/

/-- The mark field in the word form (w) or the double form. -/
def markOf (w : Bool) (x : Reg) : BitVec 8 :=
  if w then (x.extractLsb' 32 4 : BitVec 4).setWidth 8 else x.extractLsb' 64 8

/-- A register of a value and a mark in form w, with the bits above a word form 0 (R49). -/
def withMark (w : Bool) (v : BitVec 64) (m : BitVec 8) : Reg :=
  if w then ((m.setWidth 4 ++ v.setWidth 32 : BitVec 36)).setWidth 72 else m ++ v

/-- MSET (R50). -/
def msetOp (w : Bool) (x : Reg) (m : BitVec 8) : Reg := withMark w (x.extractLsb' 0 64) m

inductive MarkOp where
  | add | sub | mul | and | or | xor
  deriving DecidableEq, Repr

/-- The exact signed result (add, sub, mul) or the bitwise one (R49). -/
def markedExact {n : Nat} (op : MarkOp) (a b : BitVec n) : Int :=
  match op with
  | .add => a.toInt + b.toInt
  | .sub => a.toInt - b.toInt
  | .mul => a.toInt * b.toInt
  | .and => (a &&& b).toInt
  | .or => (a ||| b).toInt
  | .xor => (a ^^^ b).toInt

/-- The result of a marked operation in form w, none when it does not fit the signed width (R49). -/
def markedResult (op : MarkOp) (w : Bool) (a b : Reg) : Option (BitVec 64) :=
  if w then
    let r := markedExact op (a.extractLsb' 0 32) (b.extractLsb' 0 32)
    if -(2 ^ 31) ≤ r ∧ r < 2 ^ 31 then some (BitVec.ofInt 64 r) else none
  else
    let r := markedExact op (a.extractLsb' 0 64) (b.extractLsb' 0 64)
    if -(2 ^ 63) ≤ r ∧ r < 2 ^ 63 then some (BitVec.ofInt 64 r) else none

/-! ### Loads and AMO (R56, R58) -/

def ldUnit : LdSize → Nat
  | .n | .ns => 1 | .h | .hs => 2 | .w | .ws => 4 | .d => 8

/-- What fills the register above the image (R56). -/
def ldFill (z : LdSize) (x : Reg) : Reg :=
  match z with
  | .n | .h | .w | .d => x
  | .ns => sext72 (x.setWidth 9)
  | .hs => sext72 (x.setWidth 18)
  | .ws => sext72 (x.setWidth 36)

/-- The new image of an AMO at width n (R58). -/
def amoAt {n : Nat} (op : AmoOp) (old src cmp : BitVec n) : BitVec n :=
  match op with
  | .swap => src
  | .cas => if old = cmp then src else old
  | .add => old + src
  | .and => old &&& src
  | .or => old ||| src
  | .xor => old ^^^ src
  | .min => if old.slt src then old else src
  | .max => if old.slt src then src else old
  | .minu => if old.ult src then old else src
  | .maxu => if old.ult src then src else old

def amoNew (op : AmoOp) (word : Bool) (old src cmp : Reg) : Reg :=
  if word then (amoAt op (old.setWidth 36 : W36) (src.setWidth 36) (cmp.setWidth 36)).setWidth 72
  else amoAt op old src cmp

/-! ### Vector lanes (R43, R65, R71) -/

def eltNonets : VElt → Nat
  | .double => 8 | .word => 4 | .half => 2 | .nonet => 1

def laneGet (e : VElt) (v : LineBits) (j : Nat) : Reg := unitAt (eltNonets e) v (j * (eltNonets e))
def laneSet (e : VElt) (v : LineBits) (j : Nat) (x : Reg) : LineBits := setUnit (eltNonets e) v (j * (eltNonets e)) x

def vopAlu : VOp → AluOp
  | .add => .add | .sub => .sub | .and => .and | .or => .or | .xor => .xor | .mul => .mul
  | .min => .min | .max => .max | .minu => .minu | .maxu => .maxu

/-- A lane result at the width of the element, with wraparound (R65). -/
def vopLane (e : VElt) (op : VOp) (a b : Reg) : Reg :=
  match e with
  | .double => aluOp (vopAlu op) a b 0
  | .word => (aluOp (vopAlu op) (a.setWidth 36) (b.setWidth 36) 0).setWidth 72
  | .half => (aluOp (vopAlu op) (a.setWidth 18) (b.setWidth 18) 0).setWidth 72
  | .nonet => (aluOp (vopAlu op) (a.setWidth 9) (b.setWidth 9) 0).setWidth 72

def vopLine (e : VElt) (op : VOp) (a b : LineBits) : LineBits :=
  forN e.lanes 0 fun j acc => laneSet e acc j (vopLane e op (laneGet e a j) (laneGet e b j))

/-- Every lane := the low image of g (R71). -/
def vmovAll (e : VElt) (g : Reg) : LineBits := forN e.lanes 0 fun j acc => laneSet e acc j g

end Sys2Proof.Machine
end

