-- ==== Sys2Proof/Machine/Link.lean ====
section
/-! DEFINITION. What every crossing of a port shares (R289 to R296): the packings, the outbound windows, the tags of
non-posted requests, and the reads and writes of homed CXL lines. -/

namespace Sys2Proof.Machine

/-! ### Octets (R289, R290) -/

/-- Loose octets into nonets from nonet o of a line. -/
def looseIn (l : LineBits) (o : Nat) (bs : List Octet) : LineBits :=
  bs.zipIdx.foldl (fun (l : LineBits) (p : Octet × Nat) => setNonet l (o + p.2) (p.1.setWidth 9)) l

/-- Nonets o to o + k − 1 as loose octets, and the nonzero marks dropped. -/
def looseOut (l : LineBits) (o k : Nat) : List Octet × Nat :=
  let ns := (List.range k).map fun i => nonetAt l (o + i)
  (ns.map fun v => v.setWidth 8, (ns.filter fun v => v.getLsbD 8).length)

/-- A line as 72 dense octets: octet i of double d is bits 8i + 7 to 8i of the double. -/
def denseOut (l : LineBits) : List Octet :=
  (List.range 72).map fun j => (unitAt 8 l (8 * (j / 9))).extractLsb' (8 * (j % 9)) 8

/-- 72 dense octets as a line. -/
def denseIn (bs : List Octet) : LineBits :=
  forN 8 0 fun d l =>
    setUnit 8 l (8 * d) (forN 9 0 fun i (x : Reg) => x ||| ((bs.getD (9 * d + i) 0).setWidth 72 <<< (8 * i)))

/-- The line with its marks cleared, and how many were nonzero: loose packing (R289). -/
def dropMarks (v : LineBits) : LineBits × Nat :=
  forN 64 (v, 0) fun i a =>
    if (nonetAt a.1 i).getLsbD 8 then (setNonet a.1 i (nonetAt a.1 i &&& 0xFF), a.2 + 1) else a

/-! ### Ports -/

def Port.linkUp (x : Port) : Bool := x.link == 2

/-- What leaves a port, with its payload octets counted (R425). -/
def State.portSend (s : State) (p : Nat) (t : PortTx) (octets : Nat) : State :=
  (s.modPort p fun x => { x with tx := x.tx ++ [t] }).sndKey 49 p (s.portVault p) octets

/-- The tag of the next non-posted request: none outstanding or dead carries it (R296). -/
def Port.freeTag (x : Port) : BitVec 14 :=
  let used := (x.out.map (·.tag)) ++ x.dead ++ x.gone
  (((List.range (used.length + 1)).map fun i => x.nextTag + BitVec.ofNat 14 i).find? fun t => !used.contains t).getD x.nextTag

/-- A non-posted request takes a tag and waits for its completion. -/
def Port.ask (x : Port) (src : PortSrc) (addr : BitVec 64) (k : Nat) (write : Bool) : Port :=
  { x with nextTag := x.freeTag + 1, out := x.out ++ [{ tag := x.freeTag, src, addr, octets := k, write }] }

/-- Sends a non-posted request. -/
def State.nonPosted (s : State) (p : Nat) (src : PortSrc) (addr k : Nat) (wr : Option (List Octet)) : State :=
  let tag := (s.port p).freeTag
  let a := BitVec.ofNat 64 addr
  (s.modPort p fun x => x.ask src a k wr.isSome).portSend p (.request tag a wr k) (if wr.isSome then k else 0)

/-- The answer that a requester has for its read or write at an address. -/
def Port.ansFor (x : Port) (src : PortSrc) (a : BitVec 64) (write : Bool) : Option PortAns :=
  x.ans.find? fun r => r.src == src && r.addr == a && r.write == write

/-- A requester's request at an address is outstanding. -/
def Port.asked (x : Port) (src : PortSrc) (a : BitVec 64) (write : Bool) : Bool :=
  x.out.any fun r => r.src == src && r.addr == a && r.write == write

/-- Nobody waits any more for what a requester asked of a port: answers go, and those to come are not delivered. -/
def Port.forget (x : Port) (src : PortSrc) : Port :=
  { x with ans := x.ans.filter fun r => r.src != src
           out := x.out.map fun r => if r.src = src then { r with src := .dropped } else r }

/-- Loose octets of k nonets from nonet o, the marks dropped counted in PRT_MARKDROP (R289). -/
def State.looseSend (s : State) (p : Nat) (l : LineBits) (o k : Nat) : State × List Octet :=
  let (bs, drops) := looseOut l o k
  (s.modPort p fun x => { x with markdrop := x.markdrop + BitVec.ofNat 32 drops }, bs)

/-! ### Outbound windows (R291) -/

def OWin.base (w : OWin) : Nat := 2 ^ 36 * w.baseHi.toNat + 4096 * w.baseLo.toNat
def OWin.len (w : OWin) : Nat := 4096 * (w.size.toNat + 1)
def OWin.bus (w : OWin) : Nat := 2 ^ 36 * w.busHi.toNat + 4096 * w.busLo.toNat
def OWin.has (w : OWin) (pa : Nat) : Bool := w.en && decide (w.base ≤ pa ∧ pa < w.base + w.len)

/-- The lowest-numbered enabled outbound window that contains an address (R291). -/
def State.owinAt (s : State) (pa : Nat) : Option OWin := (s.ports.owins.find? fun w => w.2.has pa).map (·.2)

/-- The homed CXL window of a line (KIND 3). -/
def State.cxlWin (s : State) (n : LineNo) : Option OWin := (s.owinAt (n.toNat * 64)).filter fun w => w.kind == 3

/-! ### Homed CXL lines (R292, R295) -/

/-- The first octet address of a line below a homed CXL window. -/
def OWin.octet (w : OWin) (n : LineNo) : Nat :=
  let o := n.toNat * 64 - w.base
  if w.pack then w.bus + 72 * (o / 64) else w.bus + o

/-- The 64-octet CXL lines that hold a line: one loosely, two densely. -/
def OWin.parts (w : OWin) (n : LineNo) : List Nat :=
  let a := w.octet n
  if w.pack then [a / 64 * 64, a / 64 * 64 + 64] else [a]

/-- The octets that a line takes on the port of a homed CXL window. -/
def OWin.lineOctets (w : OWin) : Nat := if w.pack then 72 else 64

/-- The line that the octets of its CXL lines give. -/
def OWin.lineIn (w : OWin) (n : LineNo) (bs : List Octet) : LineBits :=
  if w.pack then denseIn ((bs.drop (w.octet n % 64)).take 72) else looseIn 0 0 bs

/-- Sends a MemRd for a CXL line, unless its answer is there or on its way. -/
def State.memRd (s : State) (p : Nat) (n : LineNo) (a : Nat) : State :=
  let x := s.port p
  let b := BitVec.ofNat 64 a
  if (x.ansFor (.home n) b false).isSome || x.asked (.home n) b false then s
  else (s.modPort p fun x => x.ask (.home n) b 64 false).portSend p (.memRd x.freeTag b) 0

/-- The line that the answers of its CXL lines make: none for an Unsupported Request, POISON for one not completed
(R295). -/
def cxlLine (w : OWin) (n : LineNo) (rs : List PortAns) : Option LineVal :=
  if rs.any fun r => r.resp == Resp.absent.num then none
  else if rs.any fun r => r.resp != Resp.ok.num then some poisonLine
  else some { bits := w.lineIn n (rs.flatMap (·.data)) }

/-- A home's read of a CXL line: its answer, or none while a MemRd is out. Over a link that is down nothing is sent and the
line reads POISON (DESIGN CHOICE, log entry 25). -/
def State.cxlRead (s : State) (w : OWin) (n : LineNo) : State × Option (Option LineVal) :=
  let p := w.port.toNat
  let got (a : Nat) : Option PortAns := (s.port p).ansFor (.home n) (BitVec.ofNat 64 a) false
  let parts := w.parts n
  if parts.all fun a => (got a).isSome then
    (s.modPort p fun x => { x with ans := x.ans.filter fun r => r.src != .home n }, some (cxlLine w n (parts.filterMap got)))
  else if !(s.port p).linkUp then (s, some (some poisonLine))
  else (parts.foldl (fun s a => s.memRd p n a) s, none)

/-- A home's write of a CXL line; what was read of the line before counts no more. -/
def State.cxlWrite (s : State) (w : OWin) (n : LineNo) (v : LineVal) : State :=
  let p := w.port.toNat
  if !(s.port p).linkUp then s
  else
    let s := s.modPort p fun x => x.forget (.home n)
    if w.pack then
      let a := w.octet n
      let bs := denseOut v.bits
      (w.parts n).foldl (fun s q =>
        let mine (j : Nat) : Bool := decide (a ≤ q + j ∧ q + j < a + 72)
        let data := (List.range 64).map fun j => if mine j then bs.getD (q + j - a) 0 else 0
        let en := forN 64 (0 : BitVec 64) fun j m => if mine j then m ||| (1 : BitVec 64) <<< j else m
        s.portSend p (.memWr (BitVec.ofNat 64 q) data en v.poison) ((List.range 64).filter mine).length) s
    else
      let r := s.looseSend p v.bits 0 64
      r.1.portSend p (.memWr (BitVec.ofNat 64 (w.octet n)) r.2 (BitVec.allOnes 64) v.poison) 64

end Sys2Proof.Machine
end

