-- ==== Sys2Proof/Machine/Home.lean ====
section
/-! DEFINITION. The home directory (R167 to R204): which lines are coherent, the entries, requests and
evictions at a home, answers to snoops, recalls, BUSY and the fairness tokens. -/

namespace Sys2Proof.Machine

/-! ### Which lines are homed, and where (R167, R168, R291) -/

/-- The coherent lines (R167). -/
def State.coherent (s : State) (n : LineNo) : Bool := s.dramLine n || (s.cxlWin n).isSome

/-- The home slice of a coherent line (R167, R248). -/
def State.homeSlice (s : State) (n : LineNo) : Nat :=
  match s.place n with
  | some (c, _) => c
  | none => n.toNat % s.variant.chans

/-- The set of a line's entry in its slice (R171). -/
def State.dirSet (s : State) (n : LineNo) : Fin 49152 := Fin.ofNat 49152 (n.toNat / s.variant.chans)

/-! ### World filter (R370) -/

def Region.base (r : Region) : Nat := 2 ^ 36 * r.hi.toNat + 16384 * r.lo.toNat
def Region.len (r : Region) : Nat := 16384 * (r.size.toNat + 1)

/-- A physical address lies in an enabled Vault region of a table. -/
def inVault (t : Store Region) (pa : Nat) : Bool :=
  t.any fun r => r.2.en && r.2.vault && decide (r.2.base ≤ pa ∧ pa < r.2.base + r.2.len)

/-! ### Memory behind a home: DRAM, or the device below a homed CXL window (R292, R295) -/

def State.txn (s : State) (n : LineNo) : Option Txn := (s.home.txns.find? fun p => p.1 == n.toNat).map (·.2)
def State.setTxn (s : State) (n : LineNo) (t : Txn) : State :=
  let txns :=
    if s.home.txns.any fun p => p.1 == n.toNat then
      s.home.txns.map fun p => if p.1 = n.toNat then (p.1, t) else p
    else s.home.txns ++ [(n.toNat, t)]
  { s with home := { s.home with txns } }

/-- The home asks memory for a line: at once the line, or none of it where the device below a homed CXL window does not
have it (ABSENT); or an answer to come. -/
def State.homeRead (s : State) (n : LineNo) : State × Option (Option LineVal) :=
  match s.cxlWin n with
  | some w => s.cxlRead w n
  | none => let r := s.memRead n; (r.1, r.2.map some)

/-- A line given to memory. A read of the line that waits at its device is sent again behind the write. -/
def State.homeWrite (s : State) (n : LineNo) (v : LineVal) (vault : Bool) : State :=
  match s.cxlWin n with
  | some w =>
    let s := s.cxlWrite w n v
    if ((s.txn n).map (·.memWait)).getD false then (s.cxlRead w n).1 else s
  | none => s.memWrite n v vault

/-! ### Outbound windows and worlds (R369) -/

/-- A hand-over past its lock holds port p (R377). -/
def State.portLocked (s : State) (p : Nat) : Bool :=
  match s.worlds.ho with
  | some h => decide (2 ≤ h.step.toNat) && (match h.unit with
    | .port q => decide (q.val = p)
    | .engine _ | .part _ _ | .site _ => false)
  | none => false

/-- A window refuses a world: its port is Vault-owned, or in hand-over. -/
def State.winRefuses (s : State) (w : OWin) (vault : Bool) : Bool :=
  (!vault && s.portVault w.port.toNat) || s.portLocked w.port.toNat

/-! ### Entries and transactions -/

def State.entry (s : State) (n : LineNo) : Entry := sget {} s.home.entries n.toNat
def State.setEntry (s : State) (n : LineNo) (e : Entry) : State :=
  let entries := sset {} s.home.entries n.toNat (if e.st = .i then {} else e)
  { s with home := { s.home with entries } }

def State.dropTxn (s : State) (n : LineNo) : State :=
  { s with home := { s.home with txns := s.home.txns.filter fun p => p.1 != n.toNat } }

def State.queueOf (s : State) (n : LineNo) : List Msg := sget [] s.home.queues n.toNat
def State.setQueue (s : State) (n : LineNo) (q : List Msg) : State :=
  { s with home := { s.home with queues := sset [] s.home.queues n.toNat q } }

/-- Transaction-table entries in use in a slice (R181). -/
def State.tableUse (s : State) (k : Nat) : Nat :=
  (s.home.txns.filter fun p => p.2.recallFor.isNone && p.2.req.ty != .inv && s.homeSlice (BitVec.ofNat 46 p.1) == k).length +
  (s.home.queues.foldl (fun a p => if s.homeSlice (BitVec.ofNat 46 p.1) = k then a + p.2.length else a) 0)

/-- A bit of an agent set. -/
def agentBit (a : BitVec 4) : BitVec 16 := (1 : BitVec 16) <<< a.toNat

def sharersOf (e : Entry) : List (BitVec 4) :=
  ((List.range 12).filter fun i => e.sharers.getLsbD i).map (BitVec.ofNat 4)

def addSharer (e : Entry) (a : BitVec 4) : Entry := { e with sharers := e.sharers ||| ((1 : BitVec 14) <<< a.toNat) }
def dropSharer (e : Entry) (a : BitVec 4) : Entry := { e with sharers := e.sharers &&& ~~~((1 : BitVec 14) <<< a.toNat) }

/-- An entry without its owner: X becomes I, O becomes S or I (R196). -/
def dropOwner (e : Entry) : Entry :=
  match e.st with
  | .x => { e with st := .i, owner := 0 }
  | .o => { e with st := if e.sharers = 0 then .i else .s, owner := 0 }
  | .i | .s => e

/-- An entry that Isle a has left. -/
def leaveEntry (e : Entry) (a : BitVec 4) : Entry :=
  if (e.st = .x ∨ e.st = .o) ∧ e.owner = a then dropOwner e
  else
    let e := dropSharer e a
    if e.st = .s ∧ e.sharers = 0 then { e with st := .i } else e

/-! ### Sending -/

/-- Sends a message: answers to agents without caches go to `replies`, every other message to `net`. -/
def State.send (s : State) (m : Msg) : State :=
  if decide (12 ≤ m.dst.toNat) && (m.ty == .gnt || m.ty == .cmp || m.ty == .busy) then
    { s with replies := s.replies ++ [m] }
  else { s with net := s.net ++ [m] }

/-- A message of the home to agent a about request r. -/
def homeMsg (ty : MsgTy) (a : BitVec 4) (r : Msg) : Msg :=
  { ty, src := 15, dst := a, tag := r.tag, line := r.line, world := r.world, ctx := r.ctx }

/-- A forward names the requester in SRC (R176). -/
def snoopMsg (ty : MsgTy) (a : BitVec 4) (r : Msg) (cause : BitVec 2) : Msg :=
  { homeMsg ty a r with src := if ty == .fws || ty == .fwu then r.src else 15, cause }

def State.snoops (s : State) (ty : MsgTy) (as : List (BitVec 4)) (r : Msg) (cause : BitVec 2) : State :=
  as.foldl (fun s a => s.send (snoopMsg ty a r cause)) s

def bitsOf (as : List (BitVec 4)) : BitVec 16 := as.foldl (fun b a => b ||| agentBit a) 0

/-- The grant or completion that a refused request receives (R178). -/
def refusal (m : Msg) (resp : Resp) : Msg :=
  { homeMsg (if m.ty == .rds || m.ty == .rdu || m.ty == .upg then .gnt else .cmp) m.src m with resp := resp.num }

/-! ### Tokens and reservations (R191 to R193) -/

def State.holdsToken (s : State) (k : Nat) (m : Msg) : Option Token :=
  if m.token.getLsbD 6 then
    (s.slice k).tokens.find? fun t => t.num == m.token.extractLsb' 0 6 && t.agent == m.src && t.tag == m.tag
  else none

/-- Frees the token of an accepted request, with its reservation (R193). -/
def State.freeToken (s : State) (k : Nat) (m : Msg) : State :=
  match s.holdsToken k m with
  | some t => s.modSlice k fun x => { x with tokens := x.tokens.erase t, resv := x.resv.filter fun r => r.2 != t.num }
  | none => s

/-- The next holder, under R17, of a token bound to a resource for which nothing is reserved yet. Of several tokens of one
agent the oldest is taken (DESIGN CHOICE, log entry 51). -/
def nextHolder (x : Slice) (r : Resource) : Option Token :=
  let ts := x.tokens.filter fun t => t.res == r && !(x.resv.any fun p => p.2 == t.num)
  match arbitrate 16 x.ptr.toNat fun a => ts.any fun t => t.agent.toNat == a with
  | some a => ts.find? fun t => t.agent.toNat == a
  | none => none

/-- Reserves a freed resource (one more way of a set, one more entry of the table) for the next holder of a token bound
to it (R193). One pointer serves all the resources of a slice (DESIGN CHOICE, log entry 51). -/
def State.reserve (s : State) (k : Nat) (r : Resource) : State :=
  match nextHolder (s.slice k) r with
  | some t => s.modSlice k fun x => { x with resv := x.resv ++ [(r, t.num)], ptr := t.agent + 1 }
  | none => s

/-- How many of a resource are reserved for tokens other than the request's own. -/
def State.reservedAway (s : State) (k : Nat) (m : Msg) (r : Resource) : Nat :=
  let own := (s.holdsToken k m).map (·.num)
  ((s.slice k).resv.filter fun p => p.1 == r && some p.2 != own).length

/-- A token comes to wait for resource r; what was reserved for it of another resource passes on (DESIGN CHOICE, log
entry 51). -/
def State.rebind (s : State) (k : Nat) (num : BitVec 6) (r : Resource) : State :=
  let left := (s.slice k).resv.filter fun p => p.2 == num && p.1 != r
  let s := s.modSlice k fun x => { x with
    tokens := x.tokens.map fun t => if t.num = num then { t with res := r } else t
    resv := x.resv.filter fun p => p.2 != num || p.1 == r }
  left.foldl (fun s p => s.reserve k p.1) s

/-- Answers BUSY, with a token for the resource when one is free (R192): the token that the request carries, else the
lowest-numbered free one (DESIGN CHOICE, log entry 51). -/
def State.busy (s : State) (k : Nat) (m : Msg) (r : Resource) : State :=
  let s := (s.modSlice k fun x => { x with busy := x.busy + 1 }).sndKey 33 k m.world
  match s.holdsToken k m with
  | some t => (s.rebind k t.num r).send { homeMsg .busy m.src m with token := (1 : BitVec 1) ++ t.num }
  | none =>
    match (List.range 64).find? fun i => !((s.slice k).tokens.any fun t => t.num.toNat == i) with
    | some i =>
      let num := BitVec.ofNat 6 i
      (s.modSlice k fun x => { x with tokens := x.tokens ++ [{ num, agent := m.src, tag := m.tag, res := r }] }).send
        { homeMsg .busy m.src m with token := (1 : BitVec 1) ++ num }
    | none => s.send (homeMsg .busy m.src m)

/-! ### Ways (R194, R195) -/

/-- The entries of a line's set. -/
def State.setEntries (s : State) (n : LineNo) : List (LineNo × Entry) :=
  (s.home.entries.filter fun p =>
    let l := BitVec.ofNat 46 p.1
    s.homeSlice l == s.homeSlice n && s.dirSet l == s.dirSet n).map fun p => (BitVec.ofNat 46 p.1, p.2)

/-- Ways of the set that open transactions keep for their new entries. -/
def State.setKept (s : State) (n : LineNo) : List (Fin 16) :=
  s.home.txns.filterMap fun p =>
    let l := BitVec.ofNat 46 p.1
    if s.homeSlice l = s.homeSlice n ∧ s.dirSet l = s.dirSet n then p.2.way else none

/-- Ways of the set without an open transaction. -/
def State.waysFree (s : State) (n : LineNo) : Nat :=
  let used := ((s.setEntries n).filter fun p => (s.txn p.1).isSome).map (fun p => p.2.way) ++ s.setKept n
  16 - used.eraseDups.length

/-- Every way that a request could take is reserved for others (R193). -/
def State.waysReserved (s : State) (m : Msg) : Bool :=
  let away := s.reservedAway (s.homeSlice m.line) m (.dirSet (s.dirSet m.line))
  away != 0 && decide (s.waysFree m.line ≤ away)

/-- What a request that needs an entry finds in the set. -/
inductive WayFound where
  | free (w : Fin 16)
  | victim (n : LineNo) (e : Entry)
  | none
  deriving DecidableEq, Repr

/-- Entries of the set that may be recalled: those without an open transaction. -/
def State.victims (s : State) (n : LineNo) : List (LineNo × Entry) :=
  (s.setEntries n).filter fun p => (s.txn p.1).isNone

def State.findWay (s : State) (n : LineNo) : WayFound :=
  let used := (s.setEntries n).map (fun p => p.2.way) ++ s.setKept n
  match (List.finRange 16).find? fun w => !used.contains w with
  | some w => .free w
  | none =>
    let es := s.victims n
    let top := es.foldl (fun a p => max a p.2.age.toNat) 0
    match (List.finRange 16).findSome? fun w => es.find? fun p => p.2.way == w && p.2.age.toNat == top with
    | some (l, e) => .victim l e
    | none => .none

/-- Ages the entries of a set until the oldest reads 3 (R138, R194). -/
def State.ageSet (s : State) (n : LineNo) : State :=
  let es := s.victims n
  let top := es.foldl (fun a p => max a p.2.age.toNat) 0
  es.foldl (fun s p => s.setEntry p.1 { p.2 with age := p.2.age + BitVec.ofNat 2 (3 - top) }) s

/-- Requests that leave an entry (R191). -/
def needsEntry (ty : MsgTy) : Bool := ty == .rds || ty == .rdu || ty == .upg

/-! ### Opening a transaction (R182, R184) -/

def isListed (e : Entry) (a : BitVec 4) : Bool :=
  match e.st with
  | .i => false
  | .s => e.sharers.getLsbD a.toNat
  | .x => e.owner == a
  | .o => e.owner == a || e.sharers.getLsbD a.toNat

/-- Asks memory for the line of a transaction; an answer at once is kept. -/
def State.askMem (s : State) (n : LineNo) (t : Txn) : State :=
  match s.homeRead n with
  | (s, some v) => s.setTxn n { t with data := v, absent := v.isNone }
  | (s, none) => s.setTxn n { t with memWait := true }

/-- Sends the snoops of a transaction: `os` to the owner, `ss` to the sharers other than the requester. -/
def State.sendSnoops (s : State) (n : LineNo) (t : Txn) (cause : BitVec 2) (os ss : Option MsgTy) : State × Txn :=
  let e := s.entry n
  let m := t.req
  let own : Option (BitVec 4) := if e.st = .x ∨ e.st = .o then some e.owner else none
  let asks := if os.isSome then own.toList else []
  let sh := if ss.isSome then (sharersOf e).filter (fun a => a != m.src || !needsEntry m.ty) else []
  let s := match os with
    | some ty => s.snoops ty asks m cause
    | none => s
  let s := match ss with
    | some ty => s.snoops ty sh m cause
    | none => s
  let t := { t with waits := bitsOf (asks ++ sh), owner := if os.isSome then own else none }
  (s.setTxn n t, t)

/-- The entry as a fill sees it: an Isle that asks for a line that it is listed to own holds it no longer
(R146, R196), and its memory copy is current. -/
def forgetSelf (e : Entry) (m : Msg) : Entry :=
  if (m.ty = .rds ∨ m.ty = .rdu) ∧ (e.st = .x ∨ e.st = .o) ∧ e.owner = m.src then dropOwner e else e

/-- An UPG from an Isle no longer listed is an RDU (R182, R197). -/
def asRdu (e : Entry) (m : Msg) : Msg :=
  if m.ty = .upg ∧ isListed e m.src = false then { m with ty := .rdu } else m

/-- The home reads a line's entry: one bit in error is corrected (R172). What the home makes of an entry with two bits in
error no rule says: it is taken as it stands (DESIGN CHOICE, log entry 53). -/
def State.entryRead (s : State) (n : LineNo) : State :=
  if sget 0 s.home.dirErr n.toNat = 1 then { s with home := { s.home with dirErr := sset 0 s.home.dirErr n.toNat 0 } } else s

/-- Opens the transaction of a request on its line: its snoops and its memory read (R182 to R184). -/
def State.openTxn (s : State) (m : Msg) (way : Option (Fin 16)) : State :=
  let n := m.line
  let s := s.entryRead n
  let m := asRdu (s.entry n) m
  let e := forgetSelf (s.entry n) m
  -- the way stays with the request when its sender was the listed owner
  let way := if e.st = .i ∧ (s.entry n).st ≠ .i then some (s.entry n).way else way
  let e := if e.st = .i then e else { e with age := 0 }
  let s := s.setEntry n e
  let t : Txn := { req := m, way }
  let owned := e.st = .x ∨ e.st = .o
  match m.ty with
  | .rds =>
    if owned then (s.sendSnoops n t 0 (some .fws) none).1 else s.askMem n t
  | .rdu =>
    let r := s.sendSnoops n t 0 (some .fwu) (some .inv)
    if owned then r.1 else r.1.askMem n r.2
  | .upg =>
    let ow : Option MsgTy := if owned ∧ e.owner ≠ m.src then some .inv else none
    (s.sendSnoops n t 0 ow (some .inv)).1
  | .rdn => if owned then (s.sendSnoops n t 0 (some .sng) none).1 else s.askMem n t
  | .wrn | .atm =>
    let r := s.sendSnoops n t 0 (some .sni) (some .inv)
    if owned ∨ (m.ty = .wrn ∧ m.mask = BitVec.allOnes 64) then r.1 else r.1.askMem n r.2
  | .wrl => (s.sendSnoops n t 0 (some .inv) (some .inv)).1
  | .trw =>
    match m.op.toNat with
    | 0 => if owned then (s.sendSnoops n t 2 (some .snc) none).1 else s.setTxn n t
    | 2 => (s.sendSnoops n t 2 (some .sni) (some .inv)).1
    | _ => (s.sendSnoops n t 2 (some .inv) (some .inv)).1
  | _ => s.setTxn n t

/-- Opens the recall of a victim's line (R195). -/
def State.openRecall (s : State) (v : LineNo) (m : Msg) : State :=
  let k := s.homeSlice v
  let s := (s.modSlice k fun x => { x with vict := x.vict + 1 }).sndKey 34 k m.world
  let t : Txn := { req := { homeMsg .sni 15 m with line := v }, recallFor := some m.line }
  (s.sendSnoops v t 1 (some .sni) (some .inv)).1

/-! ### Finishing a transaction (R182 to R184, R187, R196) -/

def grantMsg (m : Msg) (st : Moesi) (d : Option LineVal) : Msg :=
  let g := { homeMsg .gnt m.src m with st }
  match d with
  | some v => { g with hasData := true, data := v.bits, poison := v.poison }
  | none => g

def cmpMsg (m : Msg) (resp : Resp) (d : Option LineBits) : Msg :=
  let g := { homeMsg .cmp m.src m with resp := resp.num }
  match d with
  | some v => { g with hasData := true, data := v }
  | none => g

/-- The first nonet of the unit of an ATM, which its DATA holds in nonet 16 (DEDUCED, log entry 19). -/
def atmOffset (d : LineBits) : Nat := (nonetAt d 16).toNat % 64

/-- An AMO on a line: the new line and the old image (R58). Operand image in DATA nonets 0 to 7, compare
image in 8 to 15 (DEDUCED, log entry 19). -/
def atmApply (m : Msg) (v : LineBits) : LineBits × Reg :=
  let word := m.op.getLsbD 0
  let w := if word then 4 else 8
  let o := atmOffset m.data
  let old := unitAt w v o
  let op := (amoOf (m.op.extractLsb' 1 4)).getD .swap
  (setUnit w v o (amoNew op word old (unitAt w m.data 0) (unitAt w m.data 8)), old)

/-- What the entry is once the transaction's owner has answered. -/
def afterOwner (e : Entry) (t : Txn) : Entry :=
  if t.left then dropOwner e
  else match t.ownerSt with
    | some .s => if e.st = .x then { e with st := .s, owner := 0, sharers := (1 : BitVec 14) <<< e.owner.toNat }
                 else if e.st = .o then { addSharer e e.owner with st := .s, owner := 0 } else e
    | some .o => { e with st := .o }
    | some .i | some .e | some .m | none => e

def newOwner (e : Entry) (a : BitVec 4) (way : Fin 16) (fresh : Bool) : Entry :=
  { e with st := .x, owner := a, sharers := 0, way, age := if fresh then 1 else e.age }

/-- A line written POISON for the purge of Isle n after the purge met its entry: it is counted and recorded with the
others (R202, R204). -/
def State.purgeMore (s : State) (n : BitVec 4) (l : LineNo) : State :=
  if s.home.purging && s.home.purgeIsle == n then
    ({ s with home := { s.home with purgePois := s.home.purgePois + 1 } }).recKey posDir 0o002002 n.toNat [rp (l.toNat * 64)]
  else
    let more (p : Fin 12 × Report × List LineNo) : Fin 12 × Report × List LineNo :=
      if p.1.val = n.toNat then (p.1, p.2.1, p.2.2 ++ [l]) else p
    { s with home := { s.home with purgeNext := s.home.purgeNext.map more } }

/-- Sends the grant or completion of a transaction whose answers suffice, and leaves the next state. An ATM on a line that
its owner supplied dirty with POISON leaves the line POISON in memory, which held older data (R183 over R187: DESIGN
CHOICE, log entry 54). -/
def State.grant (s : State) (n : LineNo) (t : Txn) : State :=
  let m := t.req
  let e0 := s.entry n
  let e := afterOwner e0 t
  let way := t.way.getD e0.way
  let fresh := e0.st = .i
  let d := t.data.getD {}
  let fin (s : State) (e : Entry) (g : Msg) : State := (s.setEntry n e).send g
  let s := s.setTxn n { t with granted := true }
  if decide (m.src.toNat < 12) && !s.home.mask.getLsbD m.src.toNat && needsEntry m.ty then
    -- the requester has been purged (R201): what an owner sent it, or dropped for it, is lost
    if m.ty = .rds then s.setEntry n e
    else
      let lost := (m.ty == .rdu && t.owner.isSome && !t.left) || (m.ty == .upg && e0.st == .o && !t.left)
      (if lost then (s.homeWrite n poisonLine m.world).purgeMore m.src n else s).setEntry n {}
  else if t.absent then
    -- the device below a homed CXL window does not have the line (R295): nothing is granted or written
    fin s (if m.ty = .rds ∨ m.ty = .rdn then e else {}) (refusal m .absent)
  else match m.ty with
  | .rds =>
    match e.st with
    | .i => fin s (newOwner e m.src way fresh) (grantMsg m .e (some d))
    | .s =>
      let own := t.owner.isSome && !t.left
      fin s (addSharer e m.src) (grantMsg m .s (if own then none else some d))
    | .x | .o => fin s (addSharer { e with st := .o } m.src) (grantMsg m .s none)
  | .rdu =>
    let own := t.owner.isSome && !t.left
    fin s (newOwner e m.src way fresh) (grantMsg m .m (if own then none else some d))
  | .upg => fin s (newOwner e m.src e.way false) (grantMsg m .m none)
  | .rdn =>
    let s := s.setEntry n e
    s.send (if d.poison then cmpMsg m .poison none else cmpMsg m .ok (some d.bits))
  | .wrn =>
    let full := m.mask = BitVec.allOnes 64
    let v : LineVal := { bits := merge d.bits m.data m.mask, poison := if full then m.poison else d.poison || m.poison }
    let failed := s.chanFailed n
    fin (s.homeWrite n v m.world) {} (cmpMsg m (if failed then .poison else .ok) none)
  | .atm =>
    if d.poison then
      let s := if t.dirty || s.chanDown n then s.homeWrite n d m.world else s
      fin s {} (cmpMsg m .poison none)
    else
      let r := atmApply m d.bits
      let failed := s.chanFailed n
      fin (s.homeWrite n { bits := r.1 } m.world) {}
        (if failed then cmpMsg m .poison none else cmpMsg m .ok (some (setUnit 8 0 0 r.2)))
  | .wrl =>
    let failed := s.chanFailed n
    fin (s.homeWrite n { bits := m.data, poison := m.poison } m.world) {} (cmpMsg m (if failed then .poison else .ok) none)
  | .trw =>
    let bad := (t.data.map (·.poison)).getD false || s.chanDown n
    let resp : Resp := if bad then .poison else .ok
    match m.op.toNat with
    | 0 =>
      let s := if t.dirty then s.homeWrite n d m.world else s
      fin s e (cmpMsg m resp none)
    | 1 => fin s {} (cmpMsg m resp none)
    | 2 =>
      let s := if t.dirty then s.homeWrite n d m.world else s
      fin s {} (cmpMsg m resp none)
    | _ => fin (s.homeWrite n {} m.world) {} (cmpMsg m resp none)
  | _ =>
    -- the recall of R195: an ACKD's data is written to memory, and the line is I.
    let s := if t.dirty then s.homeWrite n d m.world else s
    s.setEntry n {}

/-- Whether a transaction still needs the line from memory once its snoops are answered. -/
def needsData (t : Txn) : Bool :=
  t.data.isNone && !t.absent && match t.req.ty with
    | .rds | .rdu | .rdn => t.owner.isNone || t.left
    | .wrn => t.req.mask != BitVec.allOnes 64
    | .atm => true
    | _ => false

/-- The waits that hold back the grant: not those of an owner whose eviction has been taken in. -/
def grantWaits (t : Txn) : BitVec 16 :=
  match t.evict, t.owner with
  | some _, some a => t.waits &&& ~~~agentBit a
  | _, _ => t.waits

/-- One round of progress of the transaction on a line: read memory, grant, close. -/
def State.progress (s : State) (n : LineNo) : State :=
  match s.txn n with
  | none => s
  | some t =>
    if t.held then s
    else
      let s :=
        if !t.granted && grantWaits t == 0 && !t.gone && !t.memWait then
          if needsData t then s.askMem n t else s.grant n t
        else s
      -- an answer of memory at once completes the request in the same step
      match s.txn n with
      | none => s
      | some t =>
        if !t.granted && grantWaits t == 0 && !t.gone && !t.memWait && !needsData t then s.grant n t else s

/-- Closes a granted transaction whose answers have all come: the evicted owner's CMP goes out, the recall's
request opens, and freed resources are reserved (R181, R193, R195, R196). -/
def State.close (s : State) (n : LineNo) : State :=
  match s.txn n with
  | none => s
  | some t =>
    if !(t.granted && t.waits == 0 && !t.gone) then s
    else
      let s := match t.evict with
        | some v => s.send (cmpMsg v .ok none)
        | none => s
      let k := s.homeSlice n
      let w := (s.entry n).way
      let s := s.dropTxn n
      match t.recallFor with
      | some l =>
        match s.txn l with
        | some r => (s.dropTxn l).openTxn r.req (some (r.way.getD w)) |>.progress l
        | none => s
      | none =>
        (s.reserve k (.dirSet (s.dirSet n))).reserve k .table

/-- Progress and closing after an event on a line; a closed recall may let its request close at once. -/
def State.settle (s : State) (n : LineNo) : State :=
  let s := s.progress n
  match s.txn n with
  | some t =>
    let s := s.close n
    match t.recallFor with
    | some l => s.close l
    | none => s
  | none => s

/-! ### Purging one line (R201, R202) -/

/-- One line of a purge of Isle n: the Bool says it was written POISON. -/
def State.purgeLine (s : State) (n : Nat) (l : LineNo) : State × Bool :=
  let a := BitVec.ofNat 4 n
  let e := s.entry l
  let owner := (e.st = .x ∨ e.st = .o) ∧ e.owner = a
  let vault := inVault s.worlds.regions (l.toNat * 64)
  let r : Msg := { ty := .inv, src := 15, dst := 15, line := l }
  -- POISON in memory, INV to the sharers not yet asked, and the line's transaction open until all have answered
  let poison (s : State) (asked : BitVec 16) : State :=
    let sh := (sharersOf e).filter fun x => !asked.getLsbD x.toNat
    let s := (s.homeWrite l poisonLine vault).snoops .inv sh r 3
    let waits := asked ||| bitsOf sh
    if waits = 0 then (s.setEntry l {}).reserve (s.homeSlice l) (.dirSet (s.dirSet l))
    else (s.setEntry l { e with st := .s, owner := 0 }).setTxn l { req := r, waits }
  match s.txn l with
  | some t =>
    let clear := t.waits &&& ~~~agentBit a
    if t.waits.getLsbD n then
      if t.evict.isSome then ((s.setTxn l { t with waits := clear, gone := false }).settle l, false)
      else if owner then
        let s := s.homeWrite l poisonLine vault
        let t := { t with waits := clear, gone := false, left := true, owner := some a, data := some poisonLine, dirty := false }
        ((s.setTxn l t).settle l, true)
      else (((s.setEntry l (dropSharer e a)).setTxn l { t with waits := clear }).settle l, false)
    else if owner && t.granted then
      -- the grant went to the Isle
      ((s.homeWrite l poisonLine vault).setEntry l {}, true)
    else if owner && t.req.src == a then
      -- its own request on a line that it owns is closed
      (poison ((s.dropTxn l).reserve (s.homeSlice l) .table) clear, true)
    else (s.setEntry l (dropSharer e a), false)
  | none => if owner then (poison s 0, true) else (s.setEntry l (leaveEntry e a), false)

/-- A line whose entry still names an Isle whose purge waits is purged before a request for it is served (R202). -/
def State.purgeDemand (s : State) (l : LineNo) : State :=
  s.home.purgeNext.foldl (fun (s : State) (p : Fin 12 × Report × List LineNo) =>
    let a := BitVec.ofNat 4 p.1.val
    if isListed (s.entry l) a || ((s.txn l).map fun t => t.waits.getLsbD p.1.val).getD false then
      let r := s.purgeLine p.1.val l
      if r.2 then r.1.purgeMore a l else r.1
    else s) s

/-! ### Requests (R178 to R182, R191, R194) -/

/-- The home accepts a request, or answers BUSY or a refusal. -/
def State.homeRequest (s : State) (m : Msg) : State :=
  let n := m.line
  let pa := n.toNat * 64
  if decide (m.src.toNat < 12) && !s.home.mask.getLsbD m.src.toNat then s.send (refusal m .absent)
  else if !s.coherent n then s.send (refusal m .absent)
  else if !m.world && inVault s.worlds.regions pa then s.send (refusal m .world)
  else if ((s.cxlWin n).map fun w => s.winRefuses w m.world).getD false then s.send (refusal m .world)
  else
    let s := s.purgeDemand n
    let k := s.homeSlice n
    if 512 ≤ s.tableUse k + s.reservedAway k m .table then s.busy k m .table
    else
      let accept (s : State) : State := (s.freeToken k m).sndKey 32 k m.world
      -- behind an open transaction, and behind the requests that wait for the line to be opened
      if (s.txn n).isSome || !(s.queueOf n).isEmpty then (accept s).setQueue n (s.queueOf n ++ [m])
      else if needsEntry m.ty && (s.entry n).st == .i then
        let r := Resource.dirSet (s.dirSet n)
        if s.waysReserved m then s.busy k m r
        else match s.findWay n with
          | .free w => ((accept s).openTxn m (some w)).settle n
          | .victim v _ =>
            let s := (accept s).ageSet n
            let w := (s.entry v).way
            let s := s.setTxn n { req := m, way := some w, held := true }
            (s.openRecall v m).settle v
          | .none => s.busy k m r
      else ((accept s).openTxn m none).settle n

/-- The request at the head of a line's queue opens as the line is free (R181). One that needs an entry while every way of
its set has an open transaction, or is reserved for others, stays at the head (DESIGN CHOICE, log entry 51). -/
def State.openQueued (s : State) (n : LineNo) : State :=
  let s := s.purgeDemand n
  match s.txn n, s.queueOf n with
  | none, m :: q =>
    let s := s.setQueue n q
    if needsEntry m.ty && (s.entry n).st == .i then
      if s.waysReserved m then s.setQueue n (m :: q)
      else match s.findWay n with
      | .free w => (s.openTxn m (some w)).settle n
      | .victim v _ =>
        let s := s.ageSet n
        let w := (s.entry v).way
        let s := s.setTxn n { req := m, way := some w, held := true }
        (s.openRecall v m).settle v
      | .none => s.setQueue n (m :: q)
    else (s.openTxn m none).settle n
  | _, _ => s

/-! ### Evictions (R180, R182, R196) -/

/-- A WBD or EVC at the home: ahead of an open transaction that waits for its sender's GONE, else at once. -/
def State.homeEvict (s : State) (m : Msg) : State :=
  let n := m.line
  let v : LineVal := { bits := m.data, poison := m.poison }
  let e := s.entry n
  let isOwner := (e.st = .x ∨ e.st = .o) ∧ e.owner = m.src
  if !s.home.mask.getLsbD m.src.toNat then s
  else match s.txn n with
    | some t =>
      if t.waits.getLsbD m.src.toNat ∧ isOwner then
        -- the owner's answer is GONE; the eviction stands for it
        let s := if m.ty = .wbd then s.homeWrite n v m.world else s
        let d : Option LineVal := if m.ty = .wbd then some v else t.data
        let close := t.gone
        let t := { t with evict := some m, left := true, gone := false, data := d
                          dirty := if m.ty = .wbd then false else t.dirty
                          owner := some m.src
                          waits := if close then t.waits &&& ~~~agentBit m.src else t.waits }
        (s.setTxn n t).settle n
      else
        let s := if m.ty = .wbd ∧ isOwner then s.homeWrite n v m.world else s
        (s.setEntry n (leaveEntry e m.src)).send (cmpMsg m .ok none)
    | none =>
      let s := if m.ty = .wbd ∧ isOwner then s.homeWrite n v m.world else s
      (s.setEntry n (leaveEntry e m.src)).send (cmpMsg m .ok none)

/-! ### Answers to snoops (R182, R186, R196) -/

/-- ACK, ACKD or GONE at the home. RESP of an ACK is ABSENT when the Isle held nothing (DEDUCED, log entry 20). -/
def State.homeAnswer (s : State) (m : Msg) : State :=
  let n := m.line
  match s.txn n with
  | none => s
  | some t =>
    if !t.waits.getLsbD m.src.toNat then s
    else
      let fromOwner := t.owner == some m.src
      let clear := t.waits &&& ~~~agentBit m.src
      let t : Txn :=
        match m.ty with
        | .ackd =>
          { t with waits := clear, data := some { bits := m.data, poison := m.poison }
                   dirty := t.dirty || m.st == .i || t.req.ty == .trw
                   ownerSt := some m.st }
        | .gone =>
          if t.evict.isSome then { t with waits := clear }
          else if fromOwner then { t with gone := true }
          else
            -- an INV answered GONE: the eviction that follows finds its sender unlisted
            { t with waits := clear }
        | _ =>
          if fromOwner then
            if m.resp = Resp.absent.num then { t with waits := clear, left := true }
            else { t with waits := clear, ownerSt := some m.st }
          else { t with waits := clear }
      let s := if m.ty = .gone then s.modSlice (s.homeSlice n) fun x => { x with gone := x.gone + 1 } else s
      (s.setTxn n t).settle n

/-- The answer of memory to the transaction on a line. -/
def State.memAnswer (s : State) (n : LineNo) (v : LineVal) : State :=
  match s.txn n with
  | some t => if t.memWait then (s.setTxn n { t with memWait := false, data := some v }).settle n else s
  | none => s

/-- The completions of a CXL line that have come answer the transaction that waits for it (R295). -/
def State.cxlAnswer (s : State) (n : LineNo) : State :=
  match s.txn n with
  | some t =>
    if t.memWait then
      match s.homeRead n with
      | (s, some v) => (s.setTxn n { t with memWait := false, data := v, absent := v.isNone }).settle n
      | (s, none) => s
    else s
  | none => s

/-- What is kept of an access that had no end and is taken back from s' to s: the reads of its line that went out on a port
(log entry 6). -/
def State.keepAsk (s s' : State) (n : LineNo) : State :=
  match s.cxlWin n with
  | some w =>
    if (s'.port w.port.toNat).out.any fun r => r.src == .home n then
      match s.cxlRead w n with
      | (s, none) => s
      | (_, some _) => s
    else s
  | none => s

/-- The answers that a controller gives together. -/
def State.memAnswers (s : State) (a : Answers) : State := a.foldl (fun s p => s.memAnswer p.1 p.2) s

end Sys2Proof.Machine
end

