-- ==== Sys2Proof/Machine/Cache.lean ====
section
/-! DEFINITION. The tag arrays of the caches of an Isle (R133 to R140): placement, ages, victims, fills and
what leaves, and the SRAM errors that a read finds (R141 to R144). The data of a line stands once, in
the Isle's coherence agent (R135). -/

namespace Sys2Proof.Machine

/-! ### Arrays -/

/-- First way of a line's set, and its tag, in each array (R136). -/
def l1Base (n : Nat) : Nat := (n / 4 % 64) * 4
def l2Base (n : Nat) : Nat := (n % 4096) * 8
def icBase (n : Nat) : Nat := (2048 * (n % 24) + n / 24 % 2048) * 16

/-- The way of a set that holds a tag, with at least the given valid bits. -/
def findTag (a : Store Way) (base ways tag : Nat) (bits : BitVec 4) : Option Nat :=
  (List.range ways).find? fun i => let w := sget {} a (base + i); w.valid &&& bits != 0 && w.tag == tag

def sectorBit (n : Nat) : BitVec 4 := (1 : BitVec 4) <<< (n % 4)

def l1Has (a : Store Way) (n : Nat) : Bool := (findTag a (l1Base n) 4 (n / 4) (sectorBit n)).isSome
def l2Has (a : Store Way) (n : Nat) : Bool := (findTag a (l2Base n) 8 n 1).isSome
def icHas (a : Store Way) (n : Nat) : Bool := (findTag a (icBase n) 16 n 1).isSome

/-- The way that a fill takes: the lowest invalid eligible way, else the lowest of age 3 after ageing the
eligible ways; with the array aged (R138, R139). -/
def chooseWay (a : Store Way) (base ways : Nat) (ok : Nat → Bool) : Option (Nat × Store Way) :=
  let el := (List.range ways).filter ok
  match el.find? fun i => (sget {} a (base + i)).valid == 0 with
  | some i => some (base + i, a)
  | none =>
    let top := el.foldl (fun t i => max t (sget {} a (base + i)).age.toNat) 0
    let a := el.foldl (fun a i => smod {} a (base + i) fun w => { w with age := w.age + BitVec.ofNat 2 (3 - top) }) a
    (el.find? fun i => (sget {} a (base + i)).age == 3).map fun i => (base + i, a)

def setAge (a : Store Way) (k : Option Nat) (base : Nat) (age : BitVec 2) : Store Way :=
  match k with
  | some i => smod {} a (base + i) fun w => { w with age }
  | none => a

/-- Clears a line's valid and dirty bits in an array. -/
def clearLine (a : Store Way) (base ways tag : Nat) (bits : BitVec 4) : Store Way :=
  match findTag a base ways tag bits with
  | some i => smod {} a (base + i) fun w =>
      let v := w.valid &&& ~~~bits
      if v = 0 then {} else { w with valid := v, dirty := w.dirty &&& ~~~bits }
  | none => a

/-! ### Enables and conversion -/

def State.icOn (s : State) (i : Nat) : Bool := (s.isle i).cis.icen
def State.l2On (s : State) (i c : Nat) : Bool := (s.isle i).cis.l2en.getLsbD c

/-- Whether a way of the Isle cache may take a line: not Cistern, and not under conversion (R139, R154). -/
def cacheWay (x : Cis) (i : Nat) : Bool :=
  let kept := if x.conv then x.cur.toNat + 1 else x.cur.toNat
  decide (i + kept < 16)

/-- A line that may be a victim: outside its hold window and without an open transaction (R139). -/
def calmLine (x : Isle) (n : Nat) : Bool :=
  let a := x.line n
  !a.window && (a.st == .i || a.st == .s || a.st == .e || a.st == .o || a.st == .m)

/-- Evictions of Isle i in flight to slice k: those that await their CMP. -/
def State.evictsTo (s : State) (i k : Nat) : Nat :=
  ((s.isle i).lines.filter fun p =>
    (p.2.st == .miA || p.2.st == .eiA) && s.homeSlice (BitVec.ofNat 46 p.1) == k).length

/-- A line may leave the Isle now: it may be a victim, and its home has room for one more eviction of this Isle (R139,
R174). -/
def State.mayLeave (s : State) (i n : Nat) : Bool :=
  calmLine (s.isle i) n && decide (s.evictsTo i (s.homeSlice (BitVec.ofNat 46 n)) < 2)

/-! ### Who holds a line -/

/-- Local cores whose L2 holds a tracked copy. -/
def State.coresOf (s : State) (i n : Nat) : List Nat :=
  (List.range 24).filter fun c =>
    let x := s.core (i * 24 + c)
    l2Has x.l2 n && (sget none x.old n).isNone

/-- A tracked copy stands in some cache of the Isle. -/
def State.isleHas (s : State) (i n : Nat) : Bool :=
  (icHas (s.isle i).ic n && (sget none (s.isle i).old n).isNone) || !(s.coresOf i n).isEmpty

/-- Errors in the nonets of line n, forgotten: no read will meet them (R142). -/
def dropErrs (e : Store (BitVec 2)) (n : Nat) : Store (BitVec 2) := e.filter fun p => decide (p.1 / 64 ≠ n)

/-- Removes a line from the L2 and L1s of a core. -/
def dropCore (x : Core) (n : Nat) : Core :=
  { x with
    errI := dropErrs x.errI n
    errD := dropErrs x.errD n
    err2 := dropErrs x.err2 n
    l2 := clearLine x.l2 (l2Base n) 8 n 1
    l1i := clearLine x.l1i (l1Base n) 4 (n / 4) (sectorBit n)
    l1d := clearLine x.l1d (l1Base n) 4 (n / 4) (sectorBit n)
    old := sset none x.old n none }

/-- Removes a line from every cache of an Isle (R186); errors in its nonets are then never found (R142). -/
def State.dropCaches (s : State) (i n : Nat) : State :=
  let s := (List.range 24).foldl (fun s c => s.modCore (i * 24 + c) fun x => dropCore x n) s
  s.modIsle i fun x => { x with
    ic := clearLine x.ic (icBase n) 16 n 1
    old := sset none x.old n none
    dataErr := dropErrs x.dataErr n }

/-- Clears a line's dirty bits in every cache of an Isle: its data has gone to memory. -/
def State.cleanCaches (s : State) (i n : Nat) : State :=
  let clean (a : Store Way) (base ways tag : Nat) (b : BitVec 4) : Store Way :=
    match findTag a base ways tag b with
    | some k => smod {} a (base + k) fun w => { w with dirty := w.dirty &&& ~~~b }
    | none => a
  let s := (List.range 24).foldl (fun s c => s.modCore (i * 24 + c) fun x =>
    { x with l2 := clean x.l2 (l2Base n) 8 n 1, l1d := clean x.l1d (l1Base n) 4 (n / 4) (sectorBit n) }) s
  s.modIsle i fun x => { x with ic := clean x.ic (icBase n) 16 n 1 }

/-! ### SRAM errors in data (R141, R142) -/

/-- The agent holds the line dirty; an UPG from O leaves it so. -/
def AgentLine.isDirty (a : AgentLine) : Bool :=
  match a.st with
  | .m | .o => true
  | .smA => a.wasO
  | .i | .s | .e | .isD | .imD | .miA | .eiA => false

/-- The data and tag arrays of an Isle: of local core c, or the Isle cache. -/
inductive Arr where
  | l1i (c : Nat) | l1d (c : Nat) | l2 (c : Nat) | ic
  deriving DecidableEq, Repr

/-- The number by which a record names an array (R417). -/
def Arr.unit (i : Nat) : Arr → Nat
  | .l1i c | .l1d c | .l2 c => i * 24 + c
  | .ic => 288 + i

/-- The errors in an array's nonets. -/
def State.arrErr (s : State) (i : Nat) : Arr → Store (BitVec 2)
  | .l1i c => (s.core (i * 24 + c)).errI
  | .l1d c => (s.core (i * 24 + c)).errD
  | .l2 c => (s.core (i * 24 + c)).err2
  | .ic => (s.isle i).dataErr

def State.modArrErr (s : State) (i : Nat) (a : Arr) (f : Store (BitVec 2) → Store (BitVec 2)) : State :=
  match a with
  | .l1i c => s.modCore (i * 24 + c) fun x => { x with errI := f x.errI }
  | .l1d c => s.modCore (i * 24 + c) fun x => { x with errD := f x.errD }
  | .l2 c => s.modCore (i * 24 + c) fun x => { x with err2 := f x.err2 }
  | .ic => s.modIsle i fun x => { x with dataErr := f x.dataErr }

/-- A clean line is invalidated in one array; when no cache of the Isle holds it any more its agent holds nothing, and it
comes back from the home. A line in its window is refetched with the window open. -/
def State.loseClean (s : State) (i : Nat) (a : Arr) (n : Nat) : State :=
  let s := match a with
    | .l1i c => s.modCore (i * 24 + c) fun x => { x with
        l1i := clearLine x.l1i (l1Base n) 4 (n / 4) (sectorBit n), errI := dropErrs x.errI n }
    | .l1d c => s.modCore (i * 24 + c) fun x => { x with
        l1d := clearLine x.l1d (l1Base n) 4 (n / 4) (sectorBit n), errD := dropErrs x.errD n }
    | .l2 c => s.modCore (i * 24 + c) fun x => dropCore x n
    | .ic => s.modIsle i fun x => { x with
        ic := clearLine x.ic (icBase n) 16 n 1, old := sset none x.old n none, dataErr := dropErrs x.dataErr n }
  let l := (s.isle i).line n
  if (l.st = .s ∨ l.st = .e) ∧ !s.isleHas i n then
    s.modIsle i fun x => x.setLine n { window := l.window, deferred := l.deferred }
  else s

/-- A read of the nonets of a line named by mask in one array finds the errors there: the state after they are handled
(R142). A corrected nonet becomes good; two bits in a dirty line make it POISON, in a clean line they lose it. -/
def State.arrRead (s : State) (i : Nat) (a : Arr) (n : Nat) (mask : BitVec 64) (id : Xid := {}) : State :=
  let errs := (s.arrErr i a).filter fun e => decide (e.1 / 64 = n) && mask.getLsbD (e.1 % 64)
  errs.foldl (fun (s : State) (e : Nat × BitVec 2) =>
    let s := s.modArrErr i a fun m => sset 0 m e.1 0
    let l := (s.isle i).line n
    if e.2 == 1 then s.recIsle i 0o003001 (a.unit i) (n * 64) (e.1 % 64) id
    else if l.isDirty then
      (s.modIsle i fun x => x.setLine n { l with val := { l.val with poison := true } }).recIsle i 0o003003 (a.unit i)
        (n * 64) (e.1 % 64) id
    else (s.loseClean i a n).recIsle i 0o003002 (a.unit i) (n * 64) (e.1 % 64) id) s

/-- Core x holds a line dirty in its L1, in its L2. -/
def Core.dirty1 (x : Core) (n : Nat) : Bool :=
  (findTag x.l1d (l1Base n) 4 (n / 4) (sectorBit n)).any fun j => (sget {} x.l1d (l1Base n + j)).dirty &&& sectorBit n != 0
def Core.dirty2 (x : Core) (n : Nat) : Bool := (findTag x.l2 (l2Base n) 8 n 1).any fun j => (sget {} x.l2 (l2Base n + j)).dirty != 0

/-- The array from which the Isle supplies a line: the one that holds it dirty, else any (R186). -/
def State.supplier (s : State) (i n : Nat) : Option Arr :=
  let core (c : Nat) : Core := s.core (i * 24 + c)
  match (List.range 24).find? fun c => (core c).dirty1 n with
  | some c => some (.l1d c)
  | none => match (List.range 24).find? fun c => (core c).dirty2 n with
    | some c => some (.l2 c)
    | none =>
      if icHas (s.isle i).ic n then some .ic
      else ((List.range 24).find? fun c => l2Has (core c).l2 n).map Arr.l2

/-- The Isle reads a whole line to send it away (R142). -/
def State.supply (s : State) (i n : Nat) (id : Xid := {}) : State :=
  match s.supplier i n with
  | some a => s.arrRead i a n (BitVec.allOnes 64) id
  | none => s

/-! ### Leaving the Isle (R177) -/

/-- Tags of an Isle's own evictions. -/
def tagEvict : BitVec 9 := 256

/-- What an eviction's records and message say of a line: its world. -/
def State.lineXid (s : State) (n : Nat) : Xid := { world := inVault s.worlds.regions (n * 64) }

/-- Sends WBD or EVC for a line in a stable state (R177, R185); a write-back reads the line (R142). -/
def State.evictLine (s : State) (i n : Nat) : State :=
  let s := if ((s.isle i).line n).isDirty then s.supply i n (s.lineXid n) else s
  let a := (s.isle i).line n
  let msg (ty : MsgTy) (d : LineVal) (has : Bool) : Msg :=
    { ty, src := BitVec.ofNat 4 i, dst := 15, tag := tagEvict, line := BitVec.ofNat 46 n
      world := inVault s.worlds.regions (n * 64), hasData := has, data := d.bits, poison := d.poison }
  match a.st with
  | .m | .o =>
    ((s.dropCaches i n).modIsle i fun x => x.setLine n { a with st := .miA, window := false }).send (msg .wbd a.val true)
  | .e | .s =>
    ((s.dropCaches i n).modIsle i fun x => x.setLine n { a with st := .eiA, window := false }).send (msg .evc {} false)
  | .i | .isD | .imD | .smA | .miA | .eiA => s

/-- Evicts a line when no cache of the Isle holds it any more. -/
def State.evictIfGone (s : State) (i n : Nat) : State := if s.isleHas i n then s else s.evictLine i n

/-! ### Fills (R134, R135, R138, R139): none when no way is eligible -/

/-- Puts a line into the Isle cache. -/
def State.fillIc (s : State) (i n : Nat) (age : BitVec 2) : Option State :=
  let x := s.isle i
  if !x.cis.icen || icHas x.ic n then some s
  else
    let b := icBase n
    let ok (k : Nat) : Bool :=
      let w := sget {} x.ic (b + k)
      cacheWay x.cis k && (w.valid == 0 || s.mayLeave i w.tag)
    (chooseWay x.ic b 16 ok).map fun (k, ic) =>
      let w := sget {} ic k
      let new : Way := { tag := n, valid := 1, age }
      if w.valid = 0 then s.setIsle i { x with ic := sset {} ic k new }
      else
        let s := if w.dirty ≠ 0 then s.arrRead i .ic w.tag (BitVec.allOnes 64) (s.lineXid w.tag) else s
        let s := s.modIsle i fun x => { x with
          ic := sset {} ic k new, old := sset none x.old w.tag none, dataErr := dropErrs x.dataErr w.tag }
        s.evictIfGone i w.tag

/-- A dirty copy is written back into the Isle cache where that holds the line (R135). -/
def markIc (y : Isle) (n : Nat) : Isle :=
  match findTag y.ic (icBase n) 16 n 1 with
  | some j => { y with ic := smod {} y.ic (icBase n + j) fun v => { v with dirty := 1 }, dataErr := dropErrs y.dataErr n }
  | none => y

/-- A line leaves the L2 of local core c and its L1s: a dirty copy is read and goes to the Isle cache where that holds the
line, and the line leaves the Isle when no cache holds it any more. -/
def State.leaveL2 (s : State) (i c n : Nat) : State :=
  let q := i * 24 + c
  let d1 := (s.core q).dirty1 n
  let dirty := d1 || (s.core q).dirty2 n
  let s := if dirty then s.arrRead i (if d1 then .l1d c else .l2 c) n (BitVec.allOnes 64) (s.lineXid n) else s
  let s := s.modCore q fun x => dropCore x n
  (if dirty then s.modIsle i fun y => markIc y n else s).evictIfGone i n

/-- Puts a line into the L2 of local core c; the victim leaves the L1s with it. -/
def State.fillL2 (s : State) (i c n : Nat) (age : BitVec 2) : Option State :=
  let q := i * 24 + c
  let x := s.core q
  if !s.l2On i c || l2Has x.l2 n then some s
  else
    let b := l2Base n
    let ok (k : Nat) : Bool := let w := sget {} x.l2 (b + k); w.valid == 0 || s.mayLeave i w.tag
    (chooseWay x.l2 b 8 ok).map fun (k, l2) =>
      let w := sget {} l2 k
      let s := s.setCore q { x with l2 }
      let s := if w.valid = 0 then s else s.leaveL2 i c w.tag
      s.modCore q fun x => { x with l2 := sset {} x.l2 k { tag := n, valid := 1, age } }

/-- Writes the dirty lines of an L1 victim sector to the L2 (R134). -/
def sectorToL2 (l2 : Store Way) (w : Way) : Store Way :=
  forN 4 l2 fun k a =>
    if w.valid.getLsbD k && w.dirty.getLsbD k then
      let n := w.tag * 4 + k
      match findTag a (l2Base n) 8 n 1 with
      | some j => smod {} a (l2Base n + j) fun v => { v with dirty := 1 }
      | none => a
    else a

/-- A sector that may be a victim: each of its lines may (R139). -/
def calmSector (x : Isle) (w : Way) : Bool :=
  (List.range 4).all fun k => !w.valid.getLsbD k || calmLine x (w.tag * 4 + k)

/-- Puts a line into an L1 array of local core c, whose L2 holds it: the sector is there, or one is allocated in place of
one whose dirty lines are read and written to the L2. The fill gives the way its age (R138). -/
def State.fillL1 (s : State) (i c : Nat) (data : Bool) (n : Nat) (age : BitVec 2) (dirty : Bool) : Option State :=
  let q := i * 24 + c
  let x := s.core q
  let a := if data then x.l1d else x.l1i
  let b := l1Base n
  let bit := sectorBit n
  let put (a : Store Way) (x : Core) : Core := if data then { x with l1d := a } else { x with l1i := a }
  let mark (w : Way) : Way :=
    { w with valid := w.valid ||| bit, dirty := if dirty then w.dirty ||| bit else w.dirty, age }
  match (List.range 4).find? fun k => let w := sget {} a (b + k); w.valid != 0 && w.tag == n / 4 with
  | some k => some (s.modCore q (put (smod {} a (b + k) mark)))
  | none =>
    (chooseWay a b 4 fun k => calmSector (s.isle i) (sget {} a (b + k))).map fun (k, a) =>
      let w := sget {} a k
      let gone := (List.range 4).filter fun j => w.valid.getLsbD j
      let s := (gone.filter fun j => w.dirty.getLsbD j).foldl (fun (s : State) (j : Nat) =>
        s.arrRead i (.l1d c) (w.tag * 4 + j) (BitVec.allOnes 64) (s.lineXid (w.tag * 4 + j))) s
      s.modCore q fun x =>
        let x := put (sset {} a k (mark { tag := n / 4 })) { x with l2 := sectorToL2 x.l2 w }
        -- what leaves takes its errors along, and a write-back gives the L2 fresh check bits
        gone.foldl (fun (x : Core) (j : Nat) =>
          let l := w.tag * 4 + j
          if data then { x with errD := dropErrs x.errD l, err2 := if w.dirty.getLsbD j then dropErrs x.err2 l else x.err2 }
          else { x with errI := dropErrs x.errI l }) x

/-- The line of an L1 array hit by an access: made young by one that retires, and dirty by a store. -/
def touchL1 (a : Store Way) (n : Nat) (store young : Bool) : Option (Store Way) :=
  (findTag a (l1Base n) 4 (n / 4) (sectorBit n)).map fun k =>
    smod {} a (l1Base n + k) fun w =>
      { w with age := if young then 0 else w.age, dirty := if store then w.dirty ||| sectorBit n else w.dirty }

/-- A line is found in the Isle cache, where the hit of an access that retires makes it young, or filled there (R138). -/
def State.touchIc (s : State) (i n : Nat) (young : Bool) : Option State :=
  let x := s.isle i
  match findTag x.ic (icBase n) 16 n 1 with
  | some k => some (if young then s.setIsle i { x with ic := setAge x.ic (some k) (icBase n) 0 } else s)
  | none => s.fillIc i n 1

/-- A line is found in the L2 of local core c, or filled there from the Isle cache. -/
def State.touchL2 (s : State) (i c n : Nat) (young : Bool) : Option State :=
  let x := s.core (i * 24 + c)
  match findTag x.l2 (l2Base n) 8 n 1 with
  | some k => some (if young then s.setCore (i * 24 + c) { x with l2 := setAge x.l2 (some k) (l2Base n) 0 } else s)
  | none => (s.touchIc i n young).bind fun s => s.fillL2 i c n 1

/-- Which L1 an access goes through: a walker read goes through none (R112). -/
inductive Via where
  | data | fetch | walk
  deriving DecidableEq, Repr

/-- What one access of a core with its L2 enabled does to the arrays once its line is held: a hit of an access that retires
is made young, misses are filled (R138). A walker's read is none of the accesses that make a way young. -/
def State.cacheTouch (s : State) (i c n : Nat) (via : Via) (store retires : Bool) : Option State :=
  let q := i * 24 + c
  let x := s.core q
  match via with
  | .walk => s.touchL2 i c n false
  | .data =>
    match touchL1 x.l1d n store retires with
    | some a => some (s.setCore q { x with l1d := a })
    | none => (s.touchL2 i c n retires).bind fun s => s.fillL1 i c true n 1 store
  | .fetch =>
    match touchL1 x.l1i n false retires with
    | some a => some (s.setCore q { x with l1i := a })
    | none => (s.touchL2 i c n retires).bind fun s => s.fillL1 i c false n 1 false

/-- What a prefetch fills: hints 0 to 3 (R60, R138). -/
def State.prefFill (s : State) (i c n : Nat) (hint : Nat) : Option State :=
  match hint with
  | 0 =>
    ((s.fillIc i n 2).bind fun s => s.fillL2 i c n 2).bind fun s =>
      if l2Has (s.core (i * 24 + c)).l2 n then s.fillL1 i c true n 2 false else some s
  | 1 => (s.fillIc i n 2).bind fun s => s.fillL2 i c n 2
  | 2 => s.fillIc i n 2
  | _ => s.fillIc i n 3

/-! ### What an access reads (R142) -/

/-- A lookup by local core c reads the line in the first array that holds it, a hit in an L1 what the access covers, any
other the whole line; an array that loses the line to an error passes the read on to the next. -/
def State.dataRead (s : State) (i c n : Nat) (via : Via) (mask : BitVec 64) (store : Bool) (id : Xid) : State :=
  let q := i * 24 + c
  let all := BitVec.allOnes 64
  let on := s.l2On i c
  let at1 (s : State) : Option Arr :=
    match via with
    | .data => if on && l1Has (s.core q).l1d n then some (.l1d c) else none
    | .fetch => if on && l1Has (s.core q).l1i n then some (.l1i c) else none
    | .walk => none
  let s := match at1 s with
    | some a => if store then s else s.arrRead i a n mask id
    | none => s
  if (at1 s).isSome then s
  else
    let s := if on && l2Has (s.core q).l2 n then s.arrRead i (.l2 c) n all id else s
    if on && l2Has (s.core q).l2 n then s
    else
      let s := if s.icOn i && icHas (s.isle i).ic n then s.arrRead i .ic n all id else s
      if s.icOn i && icHas (s.isle i).ic n then s
      else match s.coresOf i n with
        | d :: _ => s.arrRead i (.l2 d) n all id
        | [] => s

/-! ### SRAM errors in tags, states and snoop-filter entries (R143) -/

/-- The tag errors of an array. -/
def State.arrTags (s : State) (i : Nat) : Arr → Store (BitVec 2)
  | .l1i c => (s.core (i * 24 + c)).tagI
  | .l1d c => (s.core (i * 24 + c)).tagD
  | .l2 c => (s.core (i * 24 + c)).tag2
  | .ic => (s.isle i).tagErr

def State.modArrTags (s : State) (i : Nat) (a : Arr) (f : Store (BitVec 2) → Store (BitVec 2)) : State :=
  match a with
  | .l1i c => s.modCore (i * 24 + c) fun x => { x with tagI := f x.tagI }
  | .l1d c => s.modCore (i * 24 + c) fun x => { x with tagD := f x.tagD }
  | .l2 c => s.modCore (i * 24 + c) fun x => { x with tag2 := f x.tag2 }
  | .ic => s.modIsle i fun x => { x with tagErr := f x.tagErr }

/-- First way of a line's set, ways of a set, and the set's number. -/
def Arr.place (n : Nat) : Arr → Nat × Nat × Nat
  | .l1i _ | .l1d _ => (l1Base n, 4, n / 4 % 64)
  | .l2 _ => (l2Base n, 8, n % 4096)
  | .ic => (icBase n, 16, n / 24 % 2048)

/-- An error found in a duplicated entry: repaired from the other copy, or, with both copies bad, the Isle stops answering
on its Strait, which the watchdog will report as RESET. -/
def State.copyError (s : State) (i unit set way : Nat) (e : BitVec 2) (id : Xid) : State :=
  if e == 3 then
    ((s.recIsle i 0o003005 unit set way id).modIsle i fun x => { x with mute := true }).modStrait i fun x =>
      { x with due := some .reset }
  else s.recIsle i 0o003004 unit set way id

/-- A lookup of a line's set in an array meets the tag errors of its ways; one that reaches the Isle cache or the agent
meets the line's state and snoop-filter entry too. -/
def State.tagRead (s : State) (i : Nat) (a : Arr) (n : Nat) (id : Xid := {}) : State :=
  let (b, ways, set) := a.place n
  let errs := (s.arrTags i a).filter fun e => decide (b ≤ e.1 ∧ e.1 < b + ways)
  let s := errs.foldl (fun (s : State) (e : Nat × BitVec 2) =>
    (s.modArrTags i a fun m => sset 0 m e.1 0).copyError i (a.unit i) set (e.1 - b) e.2 id) s
  let e := sget 0 (s.isle i).agentErr n
  if a = .ic ∧ e ≠ 0 then
    (s.modIsle i fun x => { x with agentErr := sset 0 x.agentErr n 0 }).copyError i (a.unit i) set 0 e id
  else s

end Sys2Proof.Machine
end

