-- ==== Sys2Proof/Machine/Agent.lean ====
section
/-! DEFINITION. The coherence agent of an Isle (R177, R185 to R190): its requests, its answers to snoops,
grants and data, the hold window, and the messages that end its waits. -/

namespace Sys2Proof.Machine

/-! ### Sending requests (R177) -/

/-- Tags: threads 0 to 47, Trowel 64 to 127, PFH 128 and 129, PREF 130 + 4 × core + hint, evictions 256. -/
def tagThread (c th : Nat) : BitVec 9 := BitVec.ofNat 9 (c * 2 + th)
def tagPref (c hint : Nat) : BitVec 9 := BitVec.ofNat 9 (130 + c * 4 + hint)

/-- A message carries its world and its context, not its thread (R35). -/
def xidOf (m : Msg) : Xid := { world := m.world, ctx := m.ctx }

/-- A request of Isle i. -/
def isleMsg (ty : MsgTy) (i n : Nat) (tag : BitVec 9) (vault : Bool) (ctx : BitVec 12) : Msg :=
  { ty, src := BitVec.ofNat 4 i, dst := 15, tag, line := BitVec.ofNat 46 n, world := vault, ctx }

/-- The transient state in which a request leaves the agent (R185). -/
def waitState : MsgTy → AState
  | .rds => .isD
  | .rdu => .imD
  | _ => .smA

/-- Sends RDS, RDU or UPG for a line and takes the transient state. -/
def State.sendFill (s : State) (i : Nat) (m : Msg) : State :=
  let a := (s.isle i).line m.line.toNat
  (s.modIsle i fun x => x.setLine m.line.toNat
    { a with st := waitState m.ty, wasO := a.st == .o, gotData := none, grant := none, tag := m.tag }).send m

/-! ### Snoops (R186) -/

/-- An answer of Isle i to a snoop. -/
def ansMsg (ty : MsgTy) (i : Nat) (m : Msg) (st : Moesi) : Msg :=
  { ty, src := BitVec.ofNat 4 i, dst := 15, tag := m.tag, line := m.line, world := m.world, ctx := m.ctx, st }

def ackdMsg (i : Nat) (m : Msg) (st : Moesi) (v : LineVal) : Msg :=
  { ansMsg .ackd i m st with hasData := true, data := v.bits, poison := v.poison }

/-- The line sent to the requester that a forward names in SRC. -/
def datMsg (i : Nat) (m : Msg) (st : Moesi) (v : LineVal) : Msg :=
  { ty := .dat, src := BitVec.ofNat 4 i, dst := m.src, tag := m.tag, line := m.line, world := m.world, ctx := m.ctx
    st, hasData := true, data := v.bits, poison := v.poison }

/-- The new state of a served snoop, the answer to the home, and the state in which a DAT goes out. -/
inductive SnoopAct where
  | ack (st : Moesi)
  /-- ACK I of an Isle that holds nothing. -/
  | nothing
  | ackd (st : Moesi)
  | gone
  | dat (d ack : Moesi)
  deriving DecidableEq, Repr

/-- The table of R186. An Isle in SM_A whose UPG left it from O still owns the line and answers forwards as O
(DEDUCED, log entry 21). -/
def snoopAct (st : AState) (wasO : Bool) (ty : MsgTy) : SnoopAct × AState :=
  match st, ty with
  | .m, .fws => (.dat .s .o, .o)
  | .m, .fwu => (.dat .m .i, .i)
  | .m, .sng => (.ackd .m, .m)
  | .m, .snc => (.ackd .e, .e)
  | .m, .sni => (.ackd .i, .i)
  | .o, .fws => (.dat .s .o, .o)
  | .o, .fwu => (.dat .m .i, .i)
  | .o, .sng => (.ackd .o, .o)
  | .o, .snc => (.ackd .s, .s)
  | .o, .sni => (.ackd .i, .i)
  | .e, .fws => (.dat .s .s, .s)
  | .e, .fwu => (.dat .m .i, .i)
  | .e, .sng => (.ackd .e, .e)
  | .e, .snc => (.ack .e, .e)
  | .e, .sni => (.ack .i, .i)
  | .miA, _ => (.gone, .miA)
  | .eiA, .inv => (.ack .i, .eiA)
  | .eiA, _ => (.gone, .eiA)
  | .smA, .inv => (.ack .i, .imD)
  | .smA, .fws => if wasO then (.dat .s .o, .smA) else (.nothing, .imD)
  | .smA, .fwu => if wasO then (.dat .m .i, .imD) else (.nothing, .imD)
  | .smA, .sng => if wasO then (.ackd .o, .smA) else (.nothing, .imD)
  | .smA, .snc => if wasO then (.ackd .s, .smA) else (.nothing, .imD)
  | .smA, .sni => if wasO then (.ackd .i, .imD) else (.nothing, .imD)
  | .i, _ => (.nothing, .i)
  | _, _ => (.ack .i, .i)

/-- The line goes out with the answer. -/
def SnoopAct.reads : SnoopAct → Bool
  | .ackd _ | .dat _ _ => true
  | .ack _ | .nothing | .gone => false

/-- Serves a snoop at Isle i (R186): an answer with data reads the line and meets its errors, the caches follow
the state. -/
def State.serveSnoop (s : State) (i : Nat) (m : Msg) : State :=
  let n := m.line.toNat
  let a := (s.isle i).line n
  let (act, st) := snoopAct a.st a.wasO m.ty
  let s := if act.reads then s.supply i n (xidOf m) else s
  let a := (s.isle i).line n
  let leaves := st == .i || st == .imD
  let s := if leaves then s.dropCaches i n else s
  let s := if m.ty == .snc || m.ty == .sni then s.cleanCaches i n else s
  let a' : AgentLine := { a with st, val := if leaves then {} else a.val, wasO := a.wasO && st == .smA }
  let s := s.modIsle i fun x => x.setLine n (if st = .i then { deferred := a.deferred } else a')
  match act with
  | .ack x => s.send (ansMsg .ack i m x)
  | .nothing => s.send { ansMsg .ack i m .i with resp := Resp.absent.num }
  | .ackd x => s.send (ackdMsg i m x a.val)
  | .gone => (s.sndIsle i 5 2047 m.world).send (ansMsg .gone i m .i)
  | .dat d x => (s.send (datMsg i m d a.val)).send (ansMsg .ack i m x)

/-- A snoop arrives: deferred while the line is being won or is within its window (R186, R188). -/
def State.recvSnoop (s : State) (i : Nat) (m : Msg) : State :=
  let s := (s.sndIsle i 3 2047 m.world).tagRead i .ic m.line.toNat (xidOf m)
  let a := (s.isle i).line m.line.toNat
  if a.st = .isD ∨ a.st = .imD ∨ a.window then
    (s.sndIsle i 4 2047 m.world).modIsle i fun x => x.setLine m.line.toNat { a with deferred := a.deferred ++ [m] }
  else s.serveSnoop i m

/-! ### Prefetched lines (R138, R139) -/

/-- What the caches take when a prefetch wins its line: none while a fill finds no eligible way. -/
def State.prefTake (s : State) (i n : Nat) (tag : BitVec 9) : Option State :=
  let t := tag.toNat
  if t = 128 then s.fillIc i n 2
  else if t = 129 then s.fillIc i n 3
  else if 130 ≤ t ∧ t < 226 then s.prefFill i ((t - 130) / 4) n ((t - 130) % 4)
  else some s

/-- A prefetched line enters the caches, or waits for a way. -/
def State.prefWon (s : State) (i n : Nat) (tag : BitVec 9) : State :=
  (s.prefTake i n tag).getD (s.modIsle i fun x => { x with fillWait := x.fillWait ++ [(n, tag)] })

/-- The fills that wait try again, of the lines that the Isle still holds. -/
def State.retryFills (s : State) (i : Nat) : State :=
  let waits := (s.isle i).fillWait
  let s := s.modIsle i fun x => { x with fillWait := [] }
  waits.foldl (fun s p => if ((s.isle i).line p.1).st = .i then s else s.prefWon i p.1 p.2) s

/-- The hold window of a line ends: its deferred snoops are served in order (R188). -/
def State.endWindow (s : State) (i n : Nat) : State :=
  let a := (s.isle i).line n
  if !a.window then s
  else
    let s := s.modIsle i fun x => x.setLine n { a with window := false, deferred := [] }
    (a.deferred.foldl (fun s m => s.serveSnoop i m) s).retryFills i

/-! ### Winning a line (R185, R187, R188) -/

/-- The agent's state for a granted state. -/
def stateOf : Moesi → AState
  | .i => .i | .s => .s | .e => .e | .o => .o | .m => .m

/-- The Isle wins a line: its state, its data and the hold window. -/
def State.win (s : State) (i n : Nat) (st : Moesi) (v : LineVal) : State :=
  let a := (s.isle i).line n
  let s := s.modIsle i fun x => x.setLine n { a with st := stateOf st, val := v, window := true, gotData := none
                                                     grant := none, wasO := false }
  let s := s.prefWon i n a.tag
  -- what an array held untracked is replaced by the line that was won
  let s := s.modIsle i fun x => { x with
    old := sset none x.old n none
    dataErr := dropErrs x.dataErr n }
  (List.range 24).foldl (fun s c =>
    if (sget none (s.core (i * 24 + c)).old n).isSome then s.modCore (i * 24 + c) fun x => dropCore x n else s) s

/-- GNT at an Isle. -/
def State.recvGnt (s : State) (i : Nat) (m : Msg) : State :=
  let n := m.line.toNat
  let a := (s.isle i).line n
  if m.resp ≠ 0 then
    -- refused: the agent is where it was before the request
    let st : AState := if a.st = .smA then (if a.wasO then .o else .s) else .i
    let s := s.modIsle i fun x => x.setLine n
      (if st = .i then { deferred := a.deferred } else { a with st, wasO := false })
    -- a prefetch leaves no one waiting for the answer
    if 128 ≤ m.tag.toNat then s else { s with replies := s.replies ++ [m] }
  else match a.st with
    | .smA => s.win i n .m (if m.hasData then { bits := m.data, poison := m.poison } else a.val)
    | .isD | .imD =>
      if m.hasData then s.win i n m.st { bits := m.data, poison := m.poison }
      else match a.gotData with
        | some v => s.win i n m.st v
        | none => s.modIsle i fun x => x.setLine n { a with grant := some m.st }
    | .i | .s | .e | .o | .m | .miA | .eiA => s

/-- DAT at an Isle. -/
def State.recvDat (s : State) (i : Nat) (m : Msg) : State :=
  let n := m.line.toNat
  let a := (s.isle i).line n
  let v : LineVal := { bits := m.data, poison := m.poison }
  if a.st = .isD ∨ a.st = .imD then
    match a.grant with
    | some g => s.win i n g v
    | none => s.modIsle i fun x => x.setLine n { a with gotData := some v }
  else s

/-- CMP at an Isle: the end of an eviction, or the completion of an uncached request or a Trowel line, which
its issuer takes from `replies`. -/
def State.recvCmp (s : State) (i : Nat) (m : Msg) : State :=
  let n := m.line.toNat
  let a := (s.isle i).line n
  if m.tag = tagEvict then
    if a.st = .miA ∨ a.st = .eiA then (s.modIsle i fun x => x.setLine n { deferred := a.deferred }).retryFills i else s
  else { s with replies := s.replies ++ [m] }

/-- PFH at an Isle (R147, R176): RDS if the line is not held. -/
def State.recvPfh (s : State) (i : Nat) (m : Msg) : State :=
  let n := m.line.toNat
  let a := (s.isle i).line n
  if !s.icOn i || s.home.drop.getLsbD i || a.st != .i then s
  else s.sendFill i { isleMsg .rds i n (if m.strm then 129 else 128) m.world m.ctx with strm := m.strm }

/-! ### Receiving at either end -/

/-- The channel of a message, where it left and where it goes (R169, R174, R176): agents, and 16 + k for slice k. A forward
leaves the home, whatever SRC names. -/
def State.lane (s : State) (m : Msg) : Nat × Nat × Nat :=
  let h := match paClass (m.line.toNat * 64) with
    | .cistern n _ => n
    | .dram | .window | .control | .unmapped => 16 + s.homeSlice m.line
  match m.ty with
  | .rds | .rdu | .upg | .rdn | .wrn | .wrl | .atm | .trw => (0, m.src.toNat, h)
  | .wbd | .evc => (1, m.src.toNat, h)
  | .fws | .fwu | .sng | .snc | .sni | .inv | .pfh => (2, h, m.dst.toNat)
  | .ack | .ackd | .gone => (3, m.src.toNat, h)
  | .gnt | .cmp | .busy => (3, h, m.dst.toNat)
  | .dat => (4, m.src.toNat, m.dst.toNat)

/-- The Strait of an Isle passes nothing: it is stalled (R217), or its Isle has stopped answering (R143). -/
def State.straitHeld (s : State) (i : Nat) : Bool := decide (i < 12) && ((s.strait i).st == .stalled || (s.isle i).mute)

/-- A message waits at a Strait on its way. -/
def State.held (s : State) (m : Msg) : Bool :=
  let (_, a, b) := s.lane m
  a != b && (s.straitHeld a || s.straitHeld b)

/-- The message that is delivered next on the channel of m between its ends (R174). -/
def State.laneHead (s : State) (m : Msg) : Msg := (s.net.find? fun x => s.lane x == s.lane m).getD m

/-- A message may reach its destination: no earlier one of its channel is on the way between its ends. -/
def State.mayArrive (s : State) (m : Msg) : Bool := !s.held m && (!s.net.contains m || s.laneHead m == m)

/-- Takes a message out of the network where it travels. -/
def State.takeMsg (s : State) (m : Msg) : State := { s with net := s.net.erase m }

/-! ### Flits (R207) -/

/-- A direction sends a message in a flit, which carries the acknowledgement of what its end has received. -/
def Dir.sends (d : Dir) (got : BitVec 12) (m : Msg) : Dir :=
  let f : Flit := { kind := Config.flitType, seq := d.seq, ack := got - 1, load := m }
  { d with seq := d.seq + 1, kept := (d.kept ++ [f]).drop (d.kept.length - 255) }

/-- A message crosses the Strait of Isle n, toward the Keystone or not; the other direction's flits are acknowledged. -/
def State.flit (s : State) (n : Nat) (toK : Bool) (m : Msg) : State :=
  s.modStrait n fun x =>
    if toK then { x with toK := x.toK.sends x.toI.seq m, toI := { x.toI with acked := x.toI.seq } }
    else { x with toI := x.toI.sends x.toK.seq m, toK := { x.toK with acked := x.toK.seq } }

/-- A message crosses the Straits between its ends. -/
def State.crosses (s : State) (m : Msg) : State :=
  let (_, a, b) := s.lane m
  if a = b then s
  else
    let s := if a < 12 then s.flit a true m else s
    if b < 12 then s.flit b false m else s

/-- A message reaches its destination. -/
def State.deliver (s : State) (m : Msg) : State :=
  let s := (s.crosses m).takeMsg m
  let i := m.dst.toNat
  match m.ty with
  | .rds | .rdu | .upg | .rdn | .wrn | .wrl | .atm | .trw => s.homeRequest m
  | .wbd | .evc => s.homeEvict m
  | .ack | .ackd | .gone => s.homeAnswer m
  | .fws | .fwu | .sng | .snc | .sni | .inv => s.recvSnoop i m
  | .pfh => s.recvPfh i m
  | .gnt => s.recvGnt i m
  | .dat => s.recvDat i m
  | .cmp => s.recvCmp i m
  | .busy => { s with replies := s.replies ++ [m] }

end Sys2Proof.Machine
end

