-- ==== Sys2Proof/Machine/Borric.lean ====
section
/-! DEFINITION. The Borric commands (R174 to R204): a message reaches its destination, a token is used, a
window or a reservation ends, an Isle is purged; and the memory commands whose answers go to a home. -/

namespace Sys2Proof.Machine

/-! ### Isles' conditions toward requesters (R227) -/

/-- Whether a requester is Umfoent. -/
def whoUmf : Who → Bool
  | .umfoent | .umfoentCourt => true
  | .thread _ | .smbus | .endpoint _ | .harbour _ _ | .guest _ | .port _ => false

/-- Umfoent's own accesses pass every world filter; those on behalf of a Court-world mailbox do not (R368). -/
def whoOwn : Who → Bool
  | .umfoent => true
  | .umfoentCourt | .thread _ | .smbus | .endpoint _ | .harbour _ _ | .guest _ | .port _ => false

/-- The answer of a fitted Isle to an access, before the target looks at it (R227). -/
def State.isleAnswer (s : State) (n : Nat) (umf : Bool) : Resp :=
  let x := s.isle n
  match x.cond with
  | .offline => .dormant
  | .severed | .clockLost => .poison
  | .reset | .quarantined => if umf then .ok else .poison
  | .admitted => if umf || x.st == .run || x.st == .slack then .ok else .dormant
  | .out => if umf then .ok else if x.vcore then .poison else .dormant

/-! ### Cistern accesses at the CIS_ unit (R142, R151, R152, R169) -/

def partSize : Nat := 0x300000

/-- Offsets of a Cistern line that the mask names. -/
def cisLine (m : Store Nonet) (off : Nat) : LineBits :=
  forN 64 0 fun i l => setNonet l i (sget 0 m (off + i))

/-- Physical address of offset off of Isle n's Cistern window (R36). -/
def cisAddr (n off : Nat) : Nat := 0xE000000000000 + 0x2000000 * n + off

/-- What a record says of a Cistern access that a message makes; the Isle knows its own threads. -/
def cisXid (m : Msg) (n : Nat) : Xid :=
  if m.src.toNat = n ∧ m.tag.toNat < 48 then { xidOf m with thread := BitVec.ofNat 10 (48 * n + m.tag.toNat) } else xidOf m

/-- A read of the named nonets of a Cistern line finds the errors there (R142). -/
def State.cisScan (s : State) (n off : Nat) (mask : BitVec 64) (id : Xid := {}) : State :=
  let errs := (List.range 64).filter fun i => mask.getLsbD i && sget 0 (s.isle n).dataErr (cisAddr n off + i) != 0
  errs.foldl (fun (s : State) (i : Nat) =>
    let one := sget 0 (s.isle n).dataErr (cisAddr n off + i) == 1
    let s := s.modIsle n fun x => { x with
      dataErr := sset 0 x.dataErr (cisAddr n off + i) 0
      cis := if one then x.cis else { x.cis with bad := sset false x.cis.bad (off + i) true } }
    s.recIsle n (if one then 0o003001 else 0o003003) (288 + n) (cisAddr n off) i id) s

/-- Whether an access of world `vault` may reach the Cistern line at an offset (R152). -/
def cisAllows (c : Cis) (off : Nat) (vault : Bool) : Resp :=
  if off + 64 > partSize * c.cur.toNat then .absent
  else if !vault && c.partworld.getLsbD (off / partSize) then .world else .ok

/-- Reads the named nonets of a Cistern line: the response, the line, the state with what was found (R142). -/
def State.cisRead (s : State) (n off : Nat) (mask : BitVec 64) (vault : Bool) (id : Xid := {}) : State × Resp × LineBits :=
  let s := s.sndIsle n 6 2047 vault
  match cisAllows (s.isle n).cis off vault with
  | .ok =>
    let s := s.cisScan n off mask id
    let bad := (List.range 64).any fun i => mask.getLsbD i && sget false (s.isle n).cis.bad (off + i)
    if bad then (s, .poison, 0) else (s, .ok, cisLine (s.isle n).cis.mem off)
  | r => (s, r, 0)

/-- Writes the named nonets of a Cistern line, with fresh check bits (R141, R169). -/
def State.cisWrite (s : State) (n off : Nat) (mask : BitVec 64) (d : LineBits) (vault : Bool) : State × Resp :=
  let s := s.sndIsle n 6 2047 vault
  match cisAllows (s.isle n).cis off vault with
  | .ok =>
    (forN 64 s fun i s =>
      if mask.getLsbD i then
        s.modIsle n fun x => { x with
          dataErr := sset 0 x.dataErr (cisAddr n off + i) 0
          cis := { x.cis with mem := sset 0 x.cis.mem (off + i) (nonetAt d i), bad := sset false x.cis.bad (off + i) false } }
      else s, .ok)
  | r => (s, r)

/-- Whether partition p of Isle n is in a hand-over past its lock (R369). -/
def State.partLocked (s : State) (n p : Nat) : Bool :=
  match s.worlds.ho with
  | some h => decide (2 ≤ h.step.toNat) && (match h.unit with
    | .part n' p' => n'.val == n && p'.val == p
    | .engine _ | .port _ | .site _ => false)
  | none => false

/-- What keeps a Cistern access of world `vault` from its data, in the order of R13: the offset and the partition's world
before the Isle's own condition; Umfoent passes a hand-over's lock. -/
def State.cisGate (s : State) (n off : Nat) (vault umf : Bool) : Resp :=
  if !s.isleFit n then .absent
  else match cisAllows (s.isle n).cis off vault with
    | .ok => if !umf && s.partLocked n (off / partSize) then .world else s.isleAnswer n umf
    | r => r

/-- A request to the Cistern window of Isle n is served by its CIS_ unit (R169). -/
def State.cisternServe (s : State) (m : Msg) (umf : Bool := false) : State :=
  let pa := m.line.toNat * 64
  match paClass pa with
  | .cistern n off =>
    match s.cisGate n off m.world umf with
    | .ok =>
      if m.ty = .rdn then
        let r := s.cisRead n off m.mask m.world (cisXid m n)
        r.1.send (cmpMsg m r.2.1 (if r.2.1 = .ok then some r.2.2 else none))
      else
        let r := s.cisWrite n off (if m.ty = .wrl then BitVec.allOnes 64 else m.mask) m.data m.world
        r.1.send (cmpMsg m r.2 none)
    | r => s.send (cmpMsg m r none)
  | .dram | .window | .control | .unmapped => s.send (cmpMsg m .absent none)

/-! ### Purges (R201, R202, R225) -/

/-- Home lines that a purge of Isle n meets: entries that name it and transactions that wait for it. -/
def State.purgeLines (s : State) (n : Nat) : List LineNo :=
  let a := BitVec.ofNat 4 n
  let es := (s.home.entries.filter fun p => isListed p.2 a).map (·.1)
  let ts := (s.home.txns.filter fun p => p.2.waits.getLsbD n && !es.contains p.1).map (·.1)
  (es ++ ts).map (BitVec.ofNat 46)

/-- PURGE_LINES records: up to four line addresses each. -/
def State.purgeRecords (s : State) (n : Nat) : List LineNo → State
  | [] => s
  | a :: b :: c :: d :: ls =>
    (s.recKey posDir 0o002002 n ([a, b, c, d].map fun l => rp (l.toNat * 64))).purgeRecords n ls
  | ls => s.recKey posDir 0o002002 n (ls.map fun l => rp (l.toNat * 64))

/-- A message that a lost agent a sent or was to receive; a forward names its requester in SRC. A line that it sent goes
on when the home has had its ACK, which left with it: the requester would wait for it for ever (DESIGN CHOICE, log entry 55). -/
def lostMsg (a : BitVec 4) (net : List Msg) (m : Msg) : Bool :=
  let acked : Bool := m.ty == .dat && !(net.any fun x => x.ty == .ack && x.src == a && x.line == m.line)
  m.dst == a || (m.src == a && m.ty != .fws && m.ty != .fwu && !acked)

/-- Frees the tokens of agent a, with their reservations. -/
def dropTokens (a : BitVec 4) (x : Slice) : Slice :=
  let gone (t : Token) : Bool := t.agent == a
  let nums := (x.tokens.filter gone).map Token.num
  let keep (r : Resource × BitVec 6) : Bool := !nums.contains r.2
  { x with tokens := x.tokens.filter fun t => !gone t, resv := x.resv.filter keep }

/-- The open transactions of a lost Isle's own fills close (R201): at once where no answer to a snoop is awaited, else as
the last answer comes (DEDUCED, log entry 55). A recall made for one goes on for no one. -/
def State.closeOwn (s : State) (a : BitVec 4) : State :=
  let mine := s.home.txns.filter fun p => p.2.req.src == a && needsEntry p.2.req.ty && p.2.waits == 0 && !p.2.granted
  mine.foldl (fun (s : State) (p : Nat × Txn) =>
    let l := BitVec.ofNat 46 p.1
    let free (q : Nat × Txn) : Nat × Txn := if q.2.recallFor = some l then (q.1, { q.2 with recallFor := none }) else q
    let s := s.dropTxn l
    let s := { s with home := { s.home with txns := s.home.txns.map free } }
    (s.reserve (s.homeSlice l) (.dirSet (s.dirSet l))).reserve (s.homeSlice l) .table) s

/-- An open transaction of a lost Isle's own fill waits for answers still. -/
def State.closesOwn (s : State) (a : BitVec 4) : Bool :=
  s.home.txns.any fun p => p.2.req.src == a && needsEntry p.2.req.ty

/-- The purge of Isle n starts: every entry that names it (R201). `done` are its lines that were written POISON before, as
requests came to them (R202). Its uncached requests at the homes are performed, and their completions are lost (DESIGN
CHOICE, log entry 55). -/
def State.purgeStart (s : State) (n : Nat) (k : Report) (done : List LineNo := []) : State :=
  let a := BitVec.ofNat 4 n
  let why := match k with | .severed => 0 | .reset => 1 | .clock => 2
  let cached (m : Msg) : Bool := m.src == a && needsEntry m.ty
  let queues : Store (List Msg) :=
    (s.home.queues.map fun (q : Nat × List Msg) => (q.1, q.2.filter fun m => !cached m)).filter fun q => !q.2.isEmpty
  let net := s.net.filter fun m => !lostMsg a s.net m
  let home := { s.home with
    purging := true, purgeIsle := a, purgePois := 0, queues, purgePtr := BitVec.ofNat 4 ((n + 1) % 12) }
  let s := { s with net, home }
  let s := s.recKey posDir 0o002001 n [rp why]
  let (s, pois) := (s.purgeLines n).foldl (fun (r : State × List LineNo) l =>
    let p := r.1.purgeLine n l
    (p.1, if p.2 then r.2 ++ [l] else r.2)) (s.closeOwn a, done)
  let slices := smap ({} : Slice) s.home.slices fun _ x => dropTokens a x
  let s := { s with home := { s.home with purgePois := s.home.purgePois + BitVec.ofNat 24 pois.length, slices } }
  s.purgeRecords n pois

/-- A report starts the purge, or waits for the purge in progress. -/
def State.purge (s : State) (n : Fin 12) (k : Report) : State :=
  let s := { s with home := { s.home with mask := s.home.mask &&& ~~~((1 : BitVec 12) <<< n.val) } }
  if s.home.purging then { s with home := { s.home with purgeNext := s.home.purgeNext ++ [(n, k, [])] } }
  else s.purgeStart n k

/-- PURGE_END (R202): dur is the purge's duration in ns; the purges that wait follow in R17 order (R225). A purge has not
ended while a fill of its Isle is open. -/
def execPurgeEnd (dur : BitVec 64) (s : State) : Res :=
  if !s.home.purging || s.closesOwn s.home.purgeIsle then .next s
  else
    let n := s.home.purgeIsle.toNat
    let s := s.recKey posDir 0o002003 n [rp s.home.purgePois.toNat, rp dur.toNat]
    let s := { s with home := { s.home with purging := false } }
    let next := arbitrate 12 s.home.purgePtr.toNat fun i => s.home.purgeNext.any fun p => p.1.val == i
    match s.home.purgeNext.find? fun p => next == some p.1.val with
    | some p => .next (({ s with home := { s.home with purgeNext := s.home.purgeNext.erase p } }).purgeStart p.1 p.2.1 p.2.2)
    | none => .next s

/-! ### Messages at a home -/

/-- The sender of a message is an agent that is fitted (R32). -/
def State.agentFit (s : State) (a : BitVec 4) : Bool :=
  if a.toNat < 12 then s.isleFit a.toNat
  else if a.toNat < 14 then s.siteFit (a.toNat - 12) else a == 15

/-- A message of a fitted sender reaches its destination, if nothing holds it on its way (R174, R217); no other ever
arrives (R32). -/
def State.arrive (s : State) (m : Msg) (f : State → State) : Res :=
  if s.agentFit m.src && s.mayArrive m then .next (f ((s.crosses m).takeMsg m)) else .next s

/-- A request reaches its home. -/
def State.toHome (s : State) (m : Msg) (ty : MsgTy) : Res := s.arrive { m with ty } fun s => s.homeRequest { m with ty }

/-- RDS (R182). -/
def execRds (m : Msg) (s : State) : Res := s.toHome m .rds
/-- RDU (R182). -/
def execRdu (m : Msg) (s : State) : Res := s.toHome m .rdu
/-- UPG (R182). -/
def execUpg (m : Msg) (s : State) : Res := s.toHome m .upg
/-- RDN (R182). -/
def execRdn (m : Msg) (s : State) : Res := s.toHome m .rdn
/-- WRN (R183). -/
def execWrn (m : Msg) (s : State) : Res := s.toHome m .wrn
/-- WRL (R182). -/
def execWrl (m : Msg) (s : State) : Res := s.toHome m .wrl
/-- ATM (R183). -/
def execAtm (m : Msg) (s : State) : Res := s.toHome m .atm
/-- TRW (R184). -/
def execTrw (m : Msg) (s : State) : Res := s.toHome m .trw

/-- WBD (R182, R196). -/
def execWbd (m : Msg) (s : State) : Res := s.arrive { m with ty := .wbd } fun s => s.homeEvict { m with ty := .wbd }
/-- EVC (R182, R196). -/
def execEvc (m : Msg) (s : State) : Res := s.arrive { m with ty := .evc } fun s => s.homeEvict { m with ty := .evc }

/-- QUEUED_REQUEST_OPEN (R181). -/
def execQueuedRequestOpen (line : LineNo) (s : State) : Res := .next (s.openQueued line)

/-- ACK (R182, R196). -/
def execAck (m : Msg) (s : State) : Res := s.arrive { m with ty := .ack } fun s => s.homeAnswer { m with ty := .ack }
/-- ACKD (R182). -/
def execAckd (m : Msg) (s : State) : Res := s.arrive { m with ty := .ackd } fun s => s.homeAnswer { m with ty := .ackd }
/-- GONE (R196, R198). -/
def execGone (m : Msg) (s : State) : Res := s.arrive { m with ty := .gone } fun s => s.homeAnswer { m with ty := .gone }

/-! ### Messages at an Isle agent or another requester -/

/-- A message reaches the agent of the Isle that DST names. Agents 12 to 15 hold no line, so what is sent there is dropped
(R170). -/
def State.toIsle (s : State) (m : Msg) (f : State → Nat → State) : Res :=
  s.arrive m fun s => if s.isleFit m.dst.toNat then f s m.dst.toNat else s

/-- FWS (R186). -/
def execFws (m : Msg) (s : State) : Res := s.toIsle { m with ty := .fws } fun s i => s.recvSnoop i { m with ty := .fws }
/-- FWU (R186). -/
def execFwu (m : Msg) (s : State) : Res := s.toIsle { m with ty := .fwu } fun s i => s.recvSnoop i { m with ty := .fwu }
/-- SNG (R186). -/
def execSng (m : Msg) (s : State) : Res := s.toIsle { m with ty := .sng } fun s i => s.recvSnoop i { m with ty := .sng }
/-- SNC (R186). -/
def execSnc (m : Msg) (s : State) : Res := s.toIsle { m with ty := .snc } fun s i => s.recvSnoop i { m with ty := .snc }
/-- SNI (R186). -/
def execSni (m : Msg) (s : State) : Res := s.toIsle { m with ty := .sni } fun s i => s.recvSnoop i { m with ty := .sni }
/-- INV (R186). -/
def execInv (m : Msg) (s : State) : Res := s.toIsle { m with ty := .inv } fun s i => s.recvSnoop i { m with ty := .inv }
/-- PFH (R147, R176). -/
def execPfh (m : Msg) (s : State) : Res := s.toIsle { m with ty := .pfh } fun s i => s.recvPfh i { m with ty := .pfh }
/-- DAT (R185). -/
def execDat (m : Msg) (s : State) : Res := s.toIsle { m with ty := .dat } fun s i => s.recvDat i { m with ty := .dat }

/-- GNT (R185): only Isles ask for grants. -/
def execGnt (m : Msg) (s : State) : Res := s.toIsle { m with ty := .gnt } fun s i => s.recvGnt i { m with ty := .gnt }

/-- An answer reaches its requester: an Isle, or a requester of the Keystone or a guest site, whose issuer takes it. -/
def State.toIssuer (s : State) (m : Msg) : Res :=
  s.arrive m fun s =>
    if !s.agentFit m.dst then s
    else if m.dst.toNat < 12 ∧ m.ty = .cmp then s.recvCmp m.dst.toNat m
    else if s.replies.contains m then s
    else { s with replies := s.replies ++ [m] }

/-- CMP (R176): at an Isle, or at a requester of the Keystone or a guest site. -/
def execCmp (m : Msg) (s : State) : Res := s.toIssuer { m with ty := .cmp }

/-! ### BUSY and tokens (R191 to R193) -/

/-- BUSY_RECEIVED (R192): the requester keeps the answer until it resends. -/
def execBusyReceived (m : Msg) (s : State) : Res := s.toIssuer { m with ty := .busy }

/-- The BUSY that waits to be answered by a resend of request m. -/
def State.busyFor (s : State) (m : Msg) : Option Msg :=
  s.replies.find? fun r => r.ty == .busy && r.dst == m.src && r.tag == m.tag && r.line == m.line

/-- Resends a BUSY-answered request with the token that the BUSY gave. -/
def State.resend (s : State) (m : Msg) : State :=
  match s.busyFor m with
  | some r => ({ s with replies := s.replies.erase r }).send { m with token := r.token }
  | none => s

/-- TOKEN_RESEND (R192): the request m is sent again. -/
def execTokenResend (m : Msg) (s : State) : Res :=
  if s.agentFit m.src then .next (s.resend m) else .next s

/-- The oldest reservation of a resource passes to the next holder of a token bound to it; with no other holder it stays
(R17, R193). -/
def Slice.passOn (x : Slice) (r : Resource) : Slice :=
  match x.resv.find? fun p => p.1 == r, nextHolder x r with
  | some p, some t => { x with resv := x.resv.erase p ++ [(r, t.num)], ptr := t.agent + 1 }
  | _, _ => x

/-- RESERVATION_EXPIRE (R193). -/
def execReservationExpire (k : Fin 24) (r : Resource) (s : State) : Res :=
  if s.chanFit k then .next (s.modSlice k fun x => x.passOn r) else .next s

/-- HOLD_WINDOW_END (R188). -/
def execHoldWindowEnd (n : Fin 12) (line : LineNo) (s : State) : Res :=
  if s.isleFit n then .next (s.endWindow n line.toNat) else .next s

/-- CISTERN_ACCESS (R169). -/
def execCisternAccess (m : Msg) (s : State) : Res := s.arrive m fun s => s.cisternServe m

/-! ### Memory commands whose answers go to a home -/

/-- Serves the queued read of channel c that the scheduler issues next; writes that drain go before it (R254, R264). -/
def State.serveRead (s : State) (c : Nat) (line : LineNo) (err : BitVec 640) : State :=
  if (s.chan c).st = .run ∧ s.nextRead c = some line then
    let id : Xid := ((s.txn line).map fun t => xidOf t.req).getD {}
    let s := (((s.drainTo c).drainLine c line)).modChan c fun x => x.dequeue line
    match s.readDram c line err id with
    | (s, some v, a) => (s.memAnswer line v).memAnswers a
    | (s, none, a) => (s.memAnswer line poisonLine).memAnswers a
  else s

/-- DRAM_READ (R254): err holds the bits in error of the 640 stored ones. -/
def execDramRead (c : Fin 24) (line : LineNo) (err : BitVec 640) (s : State) : Res :=
  if s.chanFit c then .next (s.serveRead c line err) else .next s

/-- CORRECTED_REREAD (R258). -/
def execCorrectedReread (c : Fin 24) (err : BitVec 640) (s : State) : Res :=
  if s.chanFit c then let r := s.reread c err; .next (r.1.memAnswers r.2) else .next s

/-- CA_PARITY_ALERT (R275, R278). -/
def execCaParityAlert (c : Fin 24) (line : Option LineNo) (s : State) : Res :=
  if s.chanFit c then let r := s.caError c line; .next (r.1.memAnswers r.2) else .next s

/-- PATROL_READ (R261): the next line of channel c in order, in a slot that no request wants. -/
def execPatrolRead (c : Fin 24) (err : BitVec 640) (s : State) : Res :=
  if !s.chanFit c then .next s
  else
    let x := s.chan c
    match x.st, lineIn c s.memSets x.patrol with
    | .run, some l =>
      if !x.readQ.isEmpty || x.draining then .next s
      else
      let n := BitVec.ofNat 46 l
      let next := if x.patrol + 1 < x.lines then x.patrol + 1 else 0
      let s := s.modChan c fun x => { x with patrol := next }
      let r := s.readDram c n err { world := inVault s.worlds.regions (l * 64) }
      .next (r.1.memAnswers r.2.2)
    | _, _ => .next s

/-- CHANNEL_FULL_TRAINING (R270): a channel that waits for its bearing asks again; one in training ends it. -/
def execChannelFullTraining (c : Fin 24) (works : Bool) (s : State) : Res :=
  if !s.chanFit c then .next s
  else if (s.chan c).bearwait then let r := s.retryTraining c; .next (r.1.memAnswers r.2)
  else let r := s.trainingEnds c works; .next (r.1.memAnswers r.2)

end Sys2Proof.Machine
end

