-- ==== Sys2Proof/Machine/Soundings.lean ====
section
/-! DEFINITION. What a retiring instruction counts in the Soundings of its thread and core (R418 to R423). Cycles,
occupancies and speculative work are timing and are not counted (DESIGN CHOICE, log entry 18). -/

namespace Sys2Proof.Machine

/-- Adds k to counter i of a world's copies; a wrap sets its SNDOVF bit (R420). -/
def WReg.addCount (w : WReg) (i k : Nat) : WReg :=
  let v := (sget 0 w.sndcnt i).toNat + k
  { w with
    sndcnt := sset 0 w.sndcnt i (BitVec.ofNat 72 (v % 2 ^ 48))
    sndovf := if 2 ^ 48 ≤ v then w.sndovf ||| ((1 : Reg) <<< i) else w.sndovf }

/-- Counts k of an event at a privilege level on the counters that select both (R420, R421). -/
def WReg.countEvent (w : WReg) (priv : BitVec 2) (ev k : Nat) : WReg :=
  forN 6 w fun i w =>
    let sel := sget 0 w.sndsel i
    if (sel.extractLsb' 0 8 : BitVec 8).toNat = ev ∧ sel.getLsbD (16 + priv.toNat) then w.addCount i k else w

/-- Counts events of thread t in a world and at a level. -/
def State.countEvents (s : State) (t : Nat) (vault : Bool) (priv : BitVec 2) (evs : List (Nat × Nat)) : State :=
  s.modThread t fun x =>
    x.setWreg vault (evs.foldl (fun (w : WReg) (e : Nat × Nat) => w.countEvent priv e.1 e.2) (x.wreg vault))

/-- SNDFIX0 to SNDFIX2 of a core, per world (R418). -/
def Core.fix (x : Core) (vault : Bool) : Store Reg := if vault then x.fixV else x.fixC
def Core.setFix (x : Core) (vault : Bool) (f : Store Reg) : Core :=
  if vault then { x with fixV := f } else { x with fixC := f }

/-- SNDFIX1 counts an instruction of the core; its wrap is seen by both threads (R420). -/
def State.countFix1 (s : State) (t : Nat) (vault : Bool) : State :=
  let f := (s.core (t / 2)).fix vault
  let v := (sget 0 f 1).toNat + 1
  let s := s.modCore (t / 2) fun x => x.setFix vault (sset 0 f 1 (BitVec.ofNat 72 (v % 2 ^ 48)))
  let wrap (s : State) (t : Nat) : State :=
    s.modThread t fun x => let w := x.wreg vault; x.setWreg vault { w with sndovf := w.sndovf ||| 0x80 }
  if 2 ^ 48 ≤ v then wrap (wrap s (2 * (t / 2))) (2 * (t / 2) + 1) else s

/-- An instruction of thread t retires: what it counts, in the world and at the level at which it executed. -/
def State.retired (s : State) (t : Nat) (vault : Bool) (priv : BitVec 2) (evs : List (Nat × Nat)) : State :=
  (s.countEvents t vault priv ((2, 1) :: (7, 1) :: evs)).countFix1 t vault

/-- What the outcome of an instruction counts: skips and transfers. -/
def flowEvents : Flow → List (Nat × Nat)
  | .ordinary => []
  | .skip => [(3, 1)]
  | .taken _ | .notTaken _ => [(4, 1)]

end Sys2Proof.Machine
end

