-- ==== Sys2Proof/Machine/Tick.lean ====
section
/-! DEFINITION. The passing of Lighthouse time (R311, R349): the master, the copies that run and the granted ramps. -/

namespace Sys2Proof.Machine

/-- A counter advanced by k quarter-nanoseconds. -/
def lhAdd (c : BitVec 64) (k : Nat) : BitVec 64 := c + BitVec.ofNat 64 k

/-- What is left of the granted ramps after k quarter-nanoseconds (R349). -/
def rampsAfter (rs : List (Nat × Nat)) (k : Nat) : List (Nat × Nat) :=
  (rs.filter fun r => decide (k < r.1 + r.2)).map fun r => (r.1 - k, r.2 - (k - r.1))

/-- The master and every running copy advance by k. -/
def lhAdvance (s : State) (k : Nat) : State :=
  { s with
    lh := { s.lh with count := lhAdd s.lh.count k }
    ledger := { s.ledger with ramps := rampsAfter s.ledger.ramps k }
    isles := s.isles.map fun p => if p.2.lhSync then (p.1, { p.2 with lhCount := lhAdd p.2.lhCount k }) else p }

end Sys2Proof.Machine
end

