-- ==== Sys2Proof/Machine/Trowel.lean ====
section
/-! DEFINITION. The CIS_ unit and the Trowel of an Isle (R144 to R166): switching caches, Cistern partitions,
and the eight slots of range operations. -/

namespace Sys2Proof.Machine

/-! ### Answers of a register access -/

/-- A write that sets a bit of the mask (the reserved bits of a register) is RSVD (R10). -/
def hasBits (v : W36) (mask : Nat) : Bool := decide (v.toNat &&& mask ≠ 0)

/-- Reserved bits hi:lo as a mask. -/
def bitsMask (hi lo : Nat) : Nat := (2 ^ (hi + 1 - lo) - 1) * 2 ^ lo

/-- The order of R13 between what an Isle answers and what the register would: ABSENT and WORLD first,
then DORMANT, RSVD, POISON. A refused access changes nothing. -/
def State.answered (s : State) (ans : Resp) (r : State × Resp) : State × Resp :=
  match r.2, ans with
  | .absent, _ => (s, .absent)
  | .world, _ => (s, .world)
  | _, .ok => r
  | _, .dormant => (s, .dormant)
  | .rsvd, _ => (s, .rsvd)
  | _, a => (s, a)

/-- The context ID of a requester (R35). -/
def State.whoCtx (s : State) : Who → BitVec 12
  | .thread t => (s.thread t).ctx
  | .harbour _ c => c
  | .umfoent | .umfoentCourt | .smbus | .endpoint _ | .guest _ | .port _ => 0

/-- Thread number concerned, 1,023 when none (R410). -/
def whoThread : Who → BitVec 10
  | .thread t => BitVec.ofNat 10 t.val
  | .umfoent | .umfoentCourt | .smbus | .endpoint _ | .harbour _ _ | .guest _ | .port _ => 1023

/-! ### Switching caches (R145 to R149) -/

/-- Cache k of an Isle: 0 to 23 its L2s, 24 the Isle cache. -/
def Cis.enabled (c : Cis) (k : Nat) : Bool := if k < 24 then c.l2en.getLsbD k else c.icen

/-- The agent gives up a line without a message; snoops that a window holds back are answered as the window ends (R146). -/
def Isle.forget (x : Isle) (l : Nat) : Isle := x.setLine l { window := (x.line l).window, deferred := (x.line l).deferred }

/-- A clean line in a stable state leaves the agent when no cache holds a tracked copy (R146). -/
def State.untrack (s : State) (n l : Nat) : State :=
  let a := (s.isle n).line l
  if (a.st = .s ∨ a.st = .e) ∧ !s.isleHas n l then s.modIsle n fun x => x.forget l else s

/-- The disable of the L2 of local core c takes effect: its clean lines are dropped from tracking (R146). -/
def State.l2Off (s : State) (n c : Nat) : State :=
  let q := n * 24 + c
  ((s.core q).l2.filter fun w => w.2.valid != 0).foldl (fun (s : State) (w : Nat × Way) =>
    let a := (s.isle n).line w.2.tag
    if a.st = .s ∨ a.st = .e then
      (s.modCore q fun x => { x with old := sset none x.old w.2.tag (some a.val) }).untrack n w.2.tag
    else s) s

/-- The disable of the Isle cache takes effect: the home drops the Isle from every sharer list, and the
agent its lines in S; lines in E stay with the agent (R146, R199). -/
def State.icOff (s : State) (n : Nat) : State :=
  let s := ((s.isle n).ic.filter fun w => w.2.valid != 0).foldl (fun (s : State) (w : Nat × Way) =>
    let a := (s.isle n).line w.2.tag
    if a.st = .s then
      s.modIsle n fun x => { x.forget w.2.tag with old := sset none x.old w.2.tag (some a.val) }
    else s) s
  let a := BitVec.ofNat 4 n
  let drop (e : Entry) : Entry :=
    let e := dropSharer e a
    if e.st = .s ∧ e.sharers = 0 then {} else e
  let entries := smap ({} : Entry) s.home.entries fun _ e => drop e
  { s with home := { s.home with entries, drop := s.home.drop ||| ((1 : BitVec 12) <<< n) } }

/-- A disable takes effect (R146). -/
def State.disableDone (s : State) (n k : Nat) : State :=
  if !(s.isle n).cis.disabling.getLsbD k then s
  else
    let s := s.modIsle n fun x => { x with cis := { x.cis with
      disabling := x.cis.disabling &&& ~~~((1 : BitVec 25) <<< k) } }
    if k < 24 then s.l2Off n k else s.icOff n

/-- Sets or clears the enable of cache k (R146, R148). -/
def State.cacheSwitch (s : State) (n k : Nat) (on : Bool) : State :=
  let c := (s.isle n).cis
  let bit : BitVec 25 := (1 : BitVec 25) <<< k
  if c.enabled k = on then s
  else
    let set (c : Cis) : Cis :=
      if k < 24 then { c with l2en := if on then c.l2en ||| ((1 : BitVec 24) <<< k) else c.l2en &&& ~~~((1 : BitVec 24) <<< k) }
      else { c with icen := on }
    if on then
      let s := s.disableDone n k
      let s := s.modIsle n fun x => { x with cis := set x.cis }
      if c.cleared.getLsbD k then s
      else (s.modIsle n fun x => { x with cis := { x.cis with stale := x.cis.stale ||| bit } }).recIsle n 0o003010 n k 0
    else s.modIsle n fun x => { x with cis := { set x.cis with
      disabling := x.cis.disabling ||| bit, cleared := x.cis.cleared &&& ~~~bit } }

/-- A write of CIS_CACHECTL (R145). -/
def State.cachectl (s : State) (w : Who) (n : Nat) (v : W36) : State × Resp :=
  let r : State × Resp :=
    if hasBits v (bitsMask 35 25) || (!bitOf v 24 && hasBits v (bitsMask 23 0)) then (s, .rsvd)
    else ((List.range 25).foldl (fun s k => s.cacheSwitch n k (bitOf v k)) s, .ok)
  s.answered (s.isleAnswer n (whoUmf w)) r

/-- CACHE_DISABLE_COMPLETE (R146). -/
def execCacheDisableComplete (n : Fin 12) (k : Fin 25) (s : State) : Res :=
  if s.isleFit n then .next (s.disableDone n k) else .next s

/-- DROP_WALK_DONE (R199). -/
def execDropWalkDone (n : Fin 12) (s : State) : Res :=
  if s.isleFit n then
    .next { s with home := { s.home with drop := s.home.drop &&& ~~~((1 : BitVec 12) <<< n.val) } }
  else .next s

/-- SRAM_PATROL (R144): a line of the Isle cache, or a Cistern line of the Isle. -/
def execSramPatrol (n : Fin 12) (line : LineNo) (s : State) : Res :=
  if !s.isleFit n then .next s
  else match paClass (line.toNat * 64) with
    | .cistern k off => if k = n.val then .next (s.cisScan n off (BitVec.allOnes 64)) else .next s
    | .dram | .window | .control | .unmapped =>
      if icHas (s.isle n).ic line.toNat then .next (s.arrRead n .ic line.toNat (BitVec.allOnes 64)) else .next s

/-! ### Partitions (R150 to R157) -/

/-- Unmaps the partitions from number r up (R155, R157). -/
def Cis.unmap (c : Cis) (r : Nat) : Cis :=
  { c with
    cur := BitVec.ofNat 4 r
    mem := c.mem.filter fun p => decide (p.1 < partSize * r)
    bad := c.bad.filter fun p => decide (p.1 < partSize * r)
    partworld := c.partworld &&& BitVec.ofNat 8 (2 ^ r - 1) }

/-- The Isle without its partitions from number r up: nothing will read their nonets, so their errors are forgotten. -/
def Isle.unmap (x : Isle) (n r : Nat) : Isle :=
  { x with
    cis := x.cis.unmap r
    dataErr := x.dataErr.filter fun e => decide (e.1 < cisAddr n (partSize * r) ∨ cisAddr n 0x2000000 ≤ e.1) }

/-- REQ takes a value: partitions above it are unmapped at once, unless a way is being converted, which first finishes its
step (R155, R156); a conversion starts where more partitions are asked for (R154). -/
def Isle.request (x : Isle) (n req : Nat) : Isle :=
  let x := { x with cis := { x.cis with req := BitVec.ofNat 4 req } }
  if x.cis.conv then x
  else if req < x.cis.cur.toNat then x.unmap n req
  else { x with cis := { x.cis with conv := decide (x.cis.cur.toNat < req) } }

/-- A write of CIS_WAYCTL (R153, R155, R156, R379). -/
def State.wayctl (s : State) (w : Who) (n : Nat) (v : W36) : State × Resp :=
  let c := (s.isle n).cis
  let req := fld v 11 8
  let lost := (List.range 8).filter fun p => decide (req ≤ p ∧ p < c.cur.toNat)
  let r : State × Resp :=
    if (!whoOwn w && lost.any fun p => s.partLocked n p) || (!s.whoVault w && lost.any fun p => c.partworld.getLsbD p) then (s, .world)
    else if hasBits v (bitsMask 35 12 ||| bitsMask 2 0) || decide (8 < req) then (s, .rsvd)
    else (s.modIsle n fun x => x.request n req, .ok)
  s.answered (s.isleAnswer n (whoUmf w)) r

/-- A line leaves way k of the Isle cache, as its window ends: read if it is dirty, and evicted when no cache of the Isle
holds it any more. -/
def State.leaveIc (s : State) (n k : Nat) (w : Way) : State :=
  let s := s.endWindow n w.tag
  let s := if w.dirty ≠ 0 then s.arrRead n .ic w.tag (BitVec.allOnes 64) (s.lineXid w.tag) else s
  let s := s.modIsle n fun x => { x with
    ic := sdel k x.ic, old := sset none x.old w.tag none, dataErr := dropErrs x.dataErr w.tag }
  s.evictIfGone n w.tag

/-- Every line of a way of the Isle cache leaves it (R154). -/
def State.emptyWay (s : State) (n way : Nat) : State :=
  ((s.isle n).ic.filter fun w => decide (w.1 % 16 = way)).foldl (fun (s : State) (w : Nat × Way) => s.leaveIc n w.1 w.2) s

/-- WAY_CONVERTED (R154, R156): the way is empty, then zero nonets with valid check bits; CUR moves, then on toward REQ. -/
def execWayConverted (n : Fin 12) (s : State) : Res :=
  let c := (s.isle n).cis
  if s.isleFit n && c.conv then
    let s := s.emptyWay n (15 - c.cur.toNat)
    .next (s.modIsle n fun x =>
      { x with cis := { x.cis with cur := x.cis.cur + 1, conv := false } }.request n x.cis.req.toNat)
  else .next s

/-! ### Trowel slots (R158 to R166) -/

def TrwState.num : TrwState → Nat
  | .free => 0 | .claimed => 1 | .queued => 2 | .running => 3 | .doneOk => 4 | .doneCistern => 5 | .donePoison => 6
  | .faultAddr => 7 | .faultWorld => 8 | .faultTarget => 9 | .cancelled => 10 | .aborted => 11

def State.modSlot (s : State) (n k : Nat) (f : TrwSlot → TrwSlot) : State :=
  s.modIsle n fun x => x.setSlot k (f (x.slot k))

/-- A read of TRW_CLAIM: the value read and the state (R163). -/
def State.trwClaim (s : State) (n : Nat) : State × W36 :=
  match (List.range 8).find? fun k => ((s.isle n).slot k).st == .free with
  | some k => (s.modSlot n k fun x => { x with st := .claimed }, put 0 k)
  | none => (s, put 3 1)

/-- The requester of an access to Isle n's Trowel: 0 its own cores, 1 the Strait (R165). -/
def trwSide (n : Nat) : Who → BitVec 1
  | .thread t => if t.val / 48 = n then 0 else 1
  | .umfoent | .umfoentCourt | .smbus | .endpoint _ | .harbour _ _ | .guest _ | .port _ => 1

/-- The Trowel has accepted an access: its arbiter's pointer moves on (R17). -/
def State.trwTook (s : State) (n : Nat) (w : Who) : State := s.modIsle n fun x => { x with trwPtr := trwSide n w + 1 }

/-- The order in which the Trowel accepts accesses that arrive together, one a cycle, from its pointer: the cores' in the
order of their threads' local numbers (R18), the Strait's as they came. -/
def trwOrder (p : BitVec 1) (cores strait : List Who) : Nat → List Who
  | 0 => []
  | k + 1 =>
    match cores, strait with
    | [], [] => []
    | c :: cs, [] => c :: trwOrder p cs [] k
    | [], x :: xs => x :: trwOrder p [] xs k
    | c :: cs, x :: xs => if p = 0 then c :: trwOrder 1 cs (x :: xs) k else x :: trwOrder 0 (c :: cs) xs k

/-- Accesses to Isle n's Trowel that arrive in one fabric cycle, in the order of their acceptance. -/
def State.trwTogether (s : State) (n : Nat) (ws : List Who) : List Who :=
  let mine := ws.filter fun w => trwSide n w == 0
  let sorted := (List.range 48).flatMap fun k => mine.filter fun w => (whoThread w).toNat % 48 == k
  trwOrder (s.isle n).trwPtr sorted (ws.filter fun w => trwSide n w == 1) ws.length

/-- A slot takes a done state and leaves the queue (R162). -/
def State.slotEnd (s : State) (n k : Nat) (st : TrwState) : State :=
  (s.modSlot n k fun x => { x with st, flight := [], ending := none, inSet := none }).modIsle n fun x =>
    { x with queue := x.queue.filter fun q => q.val != k }

/-- A write of TRW_CMD (R164). -/
def State.trwCmd (s : State) (w : Who) (n : Nat) (k : Fin 8) (v : W36) : State × Resp :=
  let op := fld v 7 5
  let target := fld v 4 0
  let r : State × Resp :=
    if hasBits v (bitsMask 35 10) || decide (4 < op) || decide (24 < target) then (s, .rsvd)
    else
      let x := (s.isle n).slot k
      let s := if x.st = .claimed then
        s.modSlot n k fun x => { x with op := BitVec.ofNat 3 op, target := BitVec.ofNat 5 target } else s
      let s : State := match fld v 9 8, x.st with
        | 1, .claimed =>
          let vault := s.whoVault w
          let ctx := s.whoCtx w
          let s := s.modSlot n k fun x => { x with done := 0, cis := 0, pois := 0, next := 0, flight := [], ending := none
                                                   inSet := none, world := vault, ctx }
          if op = 4 ∧ (s.isle n).cis.enabled target then s.modSlot n k fun x => { x with st := .faultTarget }
          else (s.modSlot n k fun x => { x with st := .queued }).modIsle n fun x => { x with queue := x.queue ++ [k] }
        | 2, .queued => s.slotEnd n k .cancelled
        | 2, .running => s.modSlot n k fun x => { x with ending := some .cancelled }
        | 3, .free => s
        | 3, .queued => s
        | 3, .running => s
        | 3, _ => s.modSlot n k fun _ => {}
        | _, _ => s
      (s, .ok)
  s.answered (s.isleAnswer n (whoUmf w)) r

/-- The slot at the head of the queue starts when its operation is op and no slot runs (R162). -/
def State.slotStart (s : State) (n op : Nat) : State :=
  match (s.isle n).queue with
  | k :: _ =>
    let x := (s.isle n).slot k
    if x.st = .queued ∧ x.op.toNat = op then s.modSlot n k fun x => { x with st := .running } else s
  | [] => s

def State.startRow (s : State) (n : Fin 12) (op : Nat) : Res :=
  .next (if s.isleFit n then s.slotStart n op else s)

/-- CLEAN (R158). -/
def execClean (n : Fin 12) (s : State) : Res := s.startRow n 0
/-- INVAL (R158). -/
def execInval (n : Fin 12) (s : State) : Res := s.startRow n 1
/-- CLEAN_INVAL (R158). -/
def execCleanInval (n : Fin 12) (s : State) : Res := s.startRow n 2
/-- ZERO (R158). -/
def execZero (n : Fin 12) (s : State) : Res := s.startRow n 3
/-- ARRAY_INVAL (R158). -/
def execArrayInval (n : Fin 12) (s : State) : Res := s.startRow n 4

/-- The slot that runs. -/
def State.runSlot (s : State) (n : Nat) : Option (Fin 8) :=
  (s.isle n).queue.head?.filter fun k => ((s.isle n).slot k).st == .running

/-- Ends a slot that has issued everything and has nothing in flight; a cancelled one waits for its row. -/
def State.slotSettle (s : State) (n : Nat) (k : Fin 8) : State :=
  let x := (s.isle n).slot k
  if !x.flight.isEmpty || x.ending = some .cancelled then s
  else match x.ending with
    | some st => s.slotEnd n k st
    | none =>
      if x.op = 4 then s
      else if x.next ≤ x.len.toNat then s
      else s.slotEnd n k (if x.pois ≠ 0 then .donePoison else if x.cis ≠ 0 then .doneCistern else .doneOk)

/-- First line of a slot's range (R163). -/
def TrwSlot.start (x : TrwSlot) : Nat := 2 ^ 30 * x.hi.toNat + x.lo.toNat

/-- The next line request of a range operation (R159, R160). -/
def State.lineIssue (s : State) (n : Nat) (k : Fin 8) : State :=
  let x := (s.isle n).slot k
  if x.len.toNat < x.next then s
  else
    let l := x.start + x.next
    let line := BitVec.ofNat 46 l
    let fault (st : TrwState) : State := s.modSlot n k fun x => { x with ending := some st }
    match paClass (l * 64) with
    | .cistern i _ =>
      if s.isleFit i then s.modSlot n k fun x => { x with next := x.next + 1, done := x.done + 1, cis := x.cis + 1 }
      else fault .faultAddr
    | .dram | .window =>
      let a := (s.isle n).line l
      if !s.coherent line then fault .faultAddr
      else if !x.world && inVault s.worlds.regions (l * 64) then fault .faultWorld
      else if ((s.cxlWin line).map fun w => s.winRefuses w x.world).getD false then fault .faultWorld
      -- an eviction of the line from this Isle awaits its CMP (R177)
      else if a.st = .miA ∨ a.st = .eiA then s
      else
        let tag := BitVec.ofNat 9 (64 + x.next % 64)
        let m : Msg := { isleMsg .trw n l tag x.world x.ctx with op := x.op.setWidth 5 }
        (s.modSlot n k fun x => { x with next := x.next + 1, flight := x.flight ++ [l] }).send m
    | .control | .unmapped => fault .faultAddr

/-- Ways of a set of an ARRAY_INVAL's target. -/
def arrayWays (t : Nat) : Nat := if t < 24 then 8 else 16

/-- The next way of an ARRAY_INVAL walk: the first valid one that is no Cistern way and is not under conversion (R158). -/
def State.arrayNext (s : State) (n : Nat) (x : TrwSlot) : Option (Nat × Way) :=
  let t := x.target.toNat
  let arr := if t < 24 then (s.core (n * 24 + t)).l2 else (s.isle n).ic.filter fun w => cacheWay (s.isle n).cis (w.1 % 16)
  arr.find? fun w => w.2.valid != 0

/-- A CANCEL leaves an ARRAY_INVAL the rest of the set in progress (R164). -/
def State.setLeft (s : State) (n : Nat) (x : TrwSlot) : Bool :=
  x.op == 4 && ((s.arrayNext n x).any fun w => x.inSet == some (w.1 / arrayWays x.target.toNat))

/-- One step of an ARRAY_INVAL walk. A write-back for which the home has no room waits (R174). -/
def State.arrayStep (s : State) (n : Nat) (k : Fin 8) : State :=
  let x := (s.isle n).slot k
  let t := x.target.toNat
  match s.arrayNext n x with
  | none =>
    if x.flight.isEmpty then
      (s.slotEnd n k .doneOk).modIsle n fun y => { y with cis := { y.cis with
        cleared := y.cis.cleared ||| ((1 : BitVec 25) <<< t) } }
    else s
  | some (i, w) =>
    let l := w.tag
    let s := s.endWindow n l
    let a := (s.isle n).line l
    let stale := if t < 24 then (sget none (s.core (n * 24 + t)).old l).isSome else (sget none (s.isle n).old l).isSome
    if !stale && !s.mayLeave n l then s
    else
      let s := s.modSlot n k fun y => { y with inSet := some (i / arrayWays t) }
      let s := if stale then
          if t < 24 then s.modCore (n * 24 + t) fun y => dropCore y l
          else s.modIsle n fun y => { y with ic := sdel i y.ic, old := sset none y.old l none, dataErr := dropErrs y.dataErr l }
        else if t < 24 then s.leaveL2 n t l else s.leaveIc n i w
      if !stale && (a.st == .m || a.st == .o) then
        -- written back to memory, or to the Isle cache where that keeps the line
        if ((s.isle n).line l).st = .miA then s.modSlot n k fun y => { y with flight := y.flight ++ [l] }
        else s.modSlot n k fun y => { y with done := y.done + 1 }
      else s

/-- TROWEL_LINE_ISSUE (R158 to R160, R164). -/
def execTrowelLineIssue (n : Fin 12) (s : State) : Res :=
  match if s.isleFit n then s.runSlot n else none with
  | none => .next s
  | some k =>
    let x := (s.isle n).slot k
    if decide (64 ≤ x.flight.length) then .next s
    else if x.ending = some .cancelled ∧ s.setLeft n x then .next (s.arrayStep n k)
    else if x.ending.isSome then .next (s.slotSettle n k)
    else if x.op = 4 then .next (s.arrayStep n k)
    else .next ((s.lineIssue n k).slotSettle n k)

/-- The completion of a Trowel line request that waits at the Isle. -/
def State.trwReply (s : State) (n : Nat) : Option Msg :=
  s.replies.find? fun m => m.ty == .cmp && m.dst.toNat == n && decide (64 ≤ m.tag.toNat ∧ m.tag.toNat < 128)

/-- Counts a completed line request (R159, R161). -/
def TrwSlot.lineDone (x : TrwSlot) (l : Nat) (r : Resp) : TrwSlot :=
  let x := { x with flight := x.flight.erase l }
  match r with
  | .ok => { x with done := x.done + 1 }
  | .poison => { x with done := x.done + 1, pois := x.pois + 1 }
  | .world => { x with ending := some (x.ending.getD .faultWorld) }
  | .absent | .dormant | .rsvd => { x with ending := some (x.ending.getD .faultAddr) }

/-- TROWEL_LINE_DONE (R161): a completion is counted; for ARRAY_INVAL, a write-back that its CMP has ended. -/
def execTrowelLineDone (n : Fin 12) (s : State) : Res :=
  match if s.isleFit n then s.runSlot n else none with
  | none => .next (match s.trwReply n with | some m => { s with replies := s.replies.erase m } | none => s)
  | some k =>
    let x := (s.isle n).slot k
    match if x.op = 4 then x.flight.find? fun l => ((s.isle n).line l).st != .miA else none with
    | some l => .next ((s.modSlot n k fun x => { x with flight := x.flight.erase l, done := x.done + 1 }).slotSettle n k)
    | none =>
      match s.trwReply n with
      | none => .next s
      | some m =>
        let s := { s with replies := s.replies.erase m }
        .next ((s.modSlot n k fun x => x.lineDone m.line.toNat (respOf m.resp)).slotSettle n k)

/-- CANCELLED_DONE (R164). -/
def execCancelledDone (n : Fin 12) (s : State) : Res :=
  match if s.isleFit n then s.runSlot n else none with
  | some k =>
    let x := (s.isle n).slot k
    .next (if x.ending = some .cancelled ∧ x.flight.isEmpty ∧ !s.setLeft n x then s.slotEnd n k .cancelled else s)
  | none => .next s

/-- Every queued or running slot of an Isle is aborted (R166). -/
def State.trwAbort (s : State) (n : Nat) : State :=
  (s.isle n).queue.foldl (fun s k => s.slotEnd n k .aborted) s

/-- Writes of TRW_ADDRLO, TRW_ADDRHI and TRW_LEN, which take effect only in CLAIMED (R164). -/
def State.trwField (s : State) (n : Nat) (k : Fin 8) (rsvd : Bool) (f : TrwSlot → TrwSlot) : State × Resp :=
  if rsvd then (s, .rsvd)
  else (s.modSlot n k fun x => if x.st = .claimed then f x else x, .ok)

/-- A Trowel is busy (R163). -/
def Isle.trwBusy (x : Isle) : Bool := !x.queue.isEmpty

end Sys2Proof.Machine
end

