-- ==== Sys2Proof/Machine/Pump.lean ====
section
/-! DEFINITION. Bringing the messages of one line to rest (DESIGN CHOICE, log entry 6): whole accesses of threads, engines and
ports, and the emptying of an Isle, run the messages of their lines one after another with this. -/

namespace Sys2Proof.Machine

/-- The next event of a line: its oldest message that no Strait holds, behind those of its channel; its queued read of DRAM,
behind those that its controller issues first; a queued request; or the end of a hold window that holds back a snoop. -/
def State.lineEvent (s : State) (l : LineNo) : Option State :=
  match s.net.find? fun m => m.line == l && !s.held m with
  | some m => some (s.deliver (s.laneHead m))
  | none =>
    let rd := match s.place l with
      | some (c, _) =>
        if (s.chan c).st = .run ∧ (s.chan c).readQ.any fun r => r.line == l then (s.nextRead c).map fun n => s.serveRead c n 0
        else none
      | none => none
    match rd with
    | some s => some s
    | none =>
      if (s.txn l).isNone && !(s.queueOf l).isEmpty then some (s.openQueued l)
      else match (List.range 12).find? fun i =>
          let a := (s.isle i).line l.toNat; a.window && !a.deferred.isEmpty with
        | some i => some (s.endWindow i l.toNat)
        | none => none

/-- The lines whose recall holds back the request on a line (R195). -/
def State.recalls (s : State) (l : LineNo) : List LineNo :=
  s.home.txns.filterMap fun p => if p.2.recallFor = some l then some (BitVec.ofNat 46 p.1) else none

/-- One event of a line, or of the lines that hold it back. -/
def State.pumpStep (s : State) (l : LineNo) : Option State :=
  match s.lineEvent l with
  | some s => some s
  | none => (s.recalls l).findSome? fun r => s.lineEvent r

/-- Runs the events of a line, at most fuel of them. -/
def State.pump (s : State) (l : LineNo) : Nat → State
  | 0 => s
  | k + 1 =>
    match s.pumpStep l with
    | some s => s.pump l k
    | none => s

/-- Events enough for any one request: two messages for each of 16 agents, twice over, and room. -/
def pumpFuel : Nat := 200

/-- Runs a line to rest. -/
def State.rest (s : State) (l : LineNo) : State := s.pump l pumpFuel

/-- Sends a request of an agent without caches, or an uncached one of an Isle, and runs it to its completion:
the CMP, or none when it is answered BUSY or still waits. A BUSY answer is resent at once with its token. -/
def State.uncached (s : State) (m : Msg) : State × Option Msg :=
  let isDone (r : Msg) : Bool := r.ty == .cmp && r.dst == m.src && r.tag == m.tag && r.line == m.line
  let go (s : State) : State := s.rest m.line
  let s := if (s.busyFor m).isSome then go (s.resend m) else go (s.send m)
  let s := if (s.busyFor m).isSome then go (s.resend m) else s
  match s.replies.find? isDone with
  | some r => ({ s with replies := s.replies.erase r }, some r)
  | none => (s, none)

/-- Evicts a line of an Isle and runs the eviction to its end (R190, R203). -/
def State.evictNow (s : State) (n l : Nat) : State :=
  let line := BitVec.ofNat 46 l
  let s := (s.rest line).endWindow n l
  (s.evictLine n l).rest line

/-- Every line leaves an Isle (R190). -/
def State.emptyIsle (s : State) (n : Nat) : State :=
  let s := (skeys (s.isle n).lines).foldl (fun s l => s.evictNow n l) s
  let s := s.modIsle n fun x => { x with ic := [], old := [], fillWait := [] }
  (List.range 24).foldl (fun s c => s.modCore (n * 24 + c) fun x =>
    { x with l1i := [], l1d := [], l2 := [], old := [], errI := [], errD := [], err2 := [] }) s

/-- The L1 and L2 of local core c are written back and invalidated (R345, R357). -/
def State.flushCore (s : State) (n c : Nat) : State :=
  let q := n * 24 + c
  let s := ((s.core q).l2.filter fun w => w.2.valid != 0).foldl (fun (s : State) (w : Nat × Way) =>
    let l := w.2.tag
    let tracked := (sget none (s.core q).old l).isNone
    let s := s.endWindow n l
    if tracked then (s.leaveL2 n c l).rest (BitVec.ofNat 46 l) else s.modCore q fun x => dropCore x l) s
  s.modCore q fun x => { x with l1i := [], l1d := [], l2 := [], old := [], errI := [], errD := [], err2 := [] }

/-! ### The end of an ARRAY_INVAL (R161) -/

/-- The write-backs of slot k's walk run to their ends and are counted. -/
def State.arrayFlight (s : State) (n : Nat) (k : Fin 8) : State :=
  ((s.isle n).slot k).flight.foldl (fun (s : State) (l : Nat) =>
    let s := s.rest (BitVec.ofNat 46 l)
    if ((s.isle n).line l).st = .miA then s
    else s.modSlot n k fun x => { x with flight := x.flight.erase l, done := x.done + 1 }) s

/-- The rest of slot k's walk, one valid way at a time. -/
def State.arrayWalk (s : State) (n : Nat) (k : Fin 8) : Nat → State
  | 0 => s
  | fuel + 1 =>
    if s.runSlot n = some k then ((s.arrayStep n k).arrayFlight n k).arrayWalk n k fuel else s

/-- ARRAY_INVAL_DONE (R161): the walk of the running slot goes through every way that is left. -/
def execArrayInvalDone (n : Fin 12) (s : State) : Res :=
  if !s.isleFit n then .next s
  else match s.runSlot n with
    | none => .next s
    | some k =>
      let x := (s.isle n).slot k
      if x.op ≠ 4 ∨ x.ending.isSome then .next s
      else
        let ways := (s.isle n).ic.length + (s.core (n.val * 24 + x.target.toNat)).l2.length
        .next (s.arrayWalk n k (ways + 2))

end Sys2Proof.Machine
end

