-- ==== Sys2Proof/Machine/Straits.lean ====
section
/-! DEFINITION. Straits (R205 to R232): lanes and their roles, training, substitution and narrowing,
recalibration, admission, the watchdog, and the loss of an Isle. -/

namespace Sys2Proof.Machine

/-! ### Lanes -/

def widthOf (w : BitVec 2) : Nat := if w = 0 then 96 else if w = 1 then 48 else if w = 2 then 24 else 0

def Dir.lane (d : Dir) (i : Nat) : Lane := sget {} d.lanes i
def Dir.setLane (d : Dir) (i : Nat) (l : Lane) : Dir := { d with lanes := sset {} d.lanes i l }
def Dir.modLane (d : Dir) (i : Nat) (f : Lane → Lane) : Dir := d.setLane i (f (d.lane i))

/-- Physical lanes in a role, in ascending order. -/
def Dir.having (d : Dir) (r : LaneRole) : List Nat := (List.range 104).filter fun i => (d.lane i).role == r

/-- Powered lanes: those in use, spares, and a lane and stand-in under recalibration (R209). -/
def Dir.powered (d : Dir) : List Nat :=
  (List.range 104).filter fun i => match (d.lane i).role with
    | .data | .spare | .standin | .recal => true
    | .failed | .dormant => false

def State.dirOf (s : State) (n : Nat) (toK : Bool) : Dir := if toK then (s.strait n).toK else (s.strait n).toI

/-- HUB units of the powered lanes of a Strait (R352). -/
def Strait.hub (x : Strait) : Nat := straitDirBearing x.toI.powered.length + straitDirBearing x.toK.powered.length

/-- Changes a Strait, and claims or releases what its powered lanes declare (R209, R351). -/
def State.relane (s : State) (n : Nat) (f : Strait → Strait) : State :=
  let a := (s.strait n).hub
  let s := s.modStrait n f
  let b := (s.strait n).hub
  if a < b then (s.claim (reqIsle n) 0 (b - a)).1 else s.release (reqIsle n) 0 (a - b)

def Strait.setDir (x : Strait) (toK : Bool) (d : Dir) : Strait := if toK then { x with toK := d } else { x with toI := d }

def State.relaneDir (s : State) (n : Nat) (toK : Bool) (f : Dir → Dir) : State :=
  s.relane n fun x => x.setDir toK (f (if toK then x.toK else x.toI))

def dirNum (toK : Bool) : Nat := if toK then 1 else 0

/-- Gives the lowest lanes of a list to data, the next eight to spares, and leaves the rest dormant (R209). -/
def layLanes (d : Dir) (work : List Nat) (w : Nat) : Dir :=
  work.zipIdx.foldl (fun (d : Dir) (p : Nat × Nat) => d.modLane p.1 fun l =>
    if p.2 < w then { l with role := .data, logical := BitVec.ofNat 7 p.2 }
    else { l with role := if p.2 < w + 8 then .spare else .dormant, logical := 0 }) d

/-- The lanes of a mask. -/
def lanesOf (m : BitVec 104) : List Nat := (List.range 104).filter fun i => m.getLsbD i

/-- What a full training finds in a direction before it takes a width: the lanes outside a mask have failed (R210). -/
def testDir (d : Dir) (ok : BitVec 104) : Dir :=
  (List.range 104).foldl (fun (d : Dir) i => if ok.getLsbD i then d else d.setLane i { role := .failed })
    { pri := d.pri, bak := d.bak, fail := BitVec.ofNat 7 (104 - (lanesOf ok).length) }

/-- A direction after full training with the lanes of a mask working; none below 24 lanes (R210). -/
def trainDir (d : Dir) (ok : BitVec 104) : Option Dir :=
  let work := lanesOf ok
  let base := testDir d ok
  if 96 ≤ work.length then some { layLanes base work 96 with width := 0 }
  else if 48 ≤ work.length then some { layLanes base work 48 with width := 1 }
  else if 24 ≤ work.length then some { layLanes base work 24 with width := 2 }
  else none

/-! ### Records and refused claims -/

def State.recStrait (s : State) (n : Nat) (code : BitVec 16) (ps : List Nat) : State := s.recKey posWatch code n (ps.map rp)

/-- The watchdog looks at an Isle that is admitted or quarantined, or in admission (R223, R232). -/
def Strait.watched (x : Strait) : Bool := x.armed || x.result == 3

/-- The first fatal event for a watched Strait waits for the watchdog's report (R224). -/
def State.detect (s : State) (n : Nat) (k : Report) : State :=
  s.modStrait n fun x => { x with due := if x.watched then x.due.or (some k) else none }

/-! ### Isle scope of reset (R438) -/

/-- Registers of a thread return to their reset values; VENTRY keeps what start-up set. -/
def Thread.scopeReset (x : Thread) : Thread := { ventry := x.ventry }

/-- A stopped thread starts at an entry after its reset (R438); bits 1:0 of a PC are 0 whatever the entry holds
(R72, DEDUCED, log entry 30). -/
def Thread.release (x : Thread) (entry : Addr) : Thread :=
  let a := entry &&& ~~~3
  if x.mode = .stopped then { x.scopeReset with pc := a, npc := a + 4, mode := .running } else x

/-- A core as its leaving Dry finds it, but for its state and its power-request registers (R116, R117, R438). -/
def State.coreScope (s : State) (q : Nat) : State :=
  let s := (s.modThread (2 * q) Thread.scopeReset).modThread (2 * q + 1) Thread.scopeReset
  s.modCore q fun x => { x with
    fReq := 29, fCur := 29, fRefuser := 0, fPending := false, fBlocked := false, fHeld := none, itlb := [], dtlb := []
    tlb2 := [], keys := [], dirTab := [], reseedCtx := 0, reseedStatus := 0, fixC := [], fixV := [], l1i := [], l1d := []
    l2 := [], errI := [], errD := [], err2 := [], tagI := [], tagD := [], tag2 := [], wrong := 0, old := []
    bootWait := false }

/-- A core is off: its threads and arrays are lost. -/
def State.coreGone (s : State) (q : Nat) : State := (s.coreScope q).modCore q fun x => { x with st := .dry }

/-- What an Isle loses in Dry or in a reset (R152, R438). -/
def State.isleScope (s : State) (n : Nat) : State :=
  let s := (List.range 24).foldl (fun s c => s.coreGone (n * 24 + c)) s
  s.modIsle n fun x => { x with
    lines := [], ic := [], old := [], dataErr := [], tagErr := [], agentErr := [], mute := false, fillWait := []
    trwPtr := 0, cis := {}, slots := [], queue := [], snd := [], lhSync := false, lhDrift := false, wasUp := 0 }

/-- An Isle is reset and powered: its boot sequence number changes (R223, R438), and it runs the installed microcode. -/
def State.isleReset (s : State) (n : Nat) : State :=
  (s.isleScope n).modIsle n fun x =>
    { x with vcore := true, st := .run, iver := s.umf.ucodeVer, bootSeq := x.bootSeq + 1 }

/-! ### Training (R210, R226) -/

/-- The end of a full training: true when both directions have a width. -/
def State.trained (s : State) (n : Nat) (okI okK : BitVec 104) : State × Bool :=
  let x := s.strait n
  let s := s.release (reqIsle n) 16 40
  match trainDir x.toI okI, trainDir x.toK okK with
  | some a, some b =>
    (s.relane n fun x => { x with toI := a, toK := b, st := .up, recal := none, todo := [], active := false, result := 3
                                  due := none }, true)
  | _, _ =>
    ((s.relane n fun x => { x with toI := testDir x.toI okI, toK := testDir x.toK okK, st := .severed, recal := none, todo := []
                                   active := false, result := 0 }).modIsle n fun x => { x with cond := .severed, st := .dry }, false)

/-- Full training is claimed and begins, or waits for its bearing (R210). -/
def State.trainStart (s : State) (n : Nat) : State × Bool :=
  match s.claim (reqIsle n) 16 40 with
  | (s, true) => (s.modStrait n fun x => { x with st := .training, bearwait := false }, true)
  | (s, false) =>
    ((s.modStrait n fun x => { x with bearwait := true }).recKey posUmf 0o001030 n [0], false)

/-- Whether an Isle's Strait may be fully trained: its die is powered, and it is neither admitted (R210) nor offline; one
that a report found severed or without its clock is reset first (R226). -/
def State.mayTrain (s : State) (n : Nat) : Bool :=
  (s.isle n).vcore && !s.home.mask.getLsbD n && match (s.isle n).cond with
    | .offline | .severed | .clockLost => false
    | .out | .admitted | .quarantined | .reset => true

/-- FULL_TRAINING (R210): a reset Isle whose ISLE_POLICY bit is 0 waits for its command (R226); a quarantined one too (R231). -/
def execFullTraining (n : Fin 12) (s : State) : Res :=
  if s.isleFit n && s.mayTrain n && (s.strait n).st != .training then
    if (s.strait n).bearwait then .next (s.trainStart n).1
    else match (s.isle n).cond with
      | .reset => if s.umf.islePolicy.getLsbD n then .next ((s.isleReset n).trainStart n).1 else .next s
      | .quarantined => .next s
      | .out | .admitted | .severed | .clockLost | .offline => .next (s.trainStart n).1
  else .next s

/-- FULL_TRAINING_DONE (R210). -/
def execFullTrainingDone (n : Fin 12) (okI okK : BitVec 104) (s : State) : Res :=
  if s.isleFit n && (s.strait n).st == .training then
    match s.trained n okI okK with
    | (s, true) => .next s
    | (s, false) => .next (s.endIsle n 0)
  else .next s

/-! ### Admission (R228 to R231) -/

/-- Magnitude of a signed 16-bit offset. -/
def ofsMag (o : BitVec 16) : Nat := o.toInt.natAbs

/-- The copy of an Isle is resynchronised to the master, when that runs. -/
def State.lhResync (s : State) (n : Nat) : State :=
  if s.lh.run then s.modIsle n fun x => { x.keepLow s.lh.epoch with lhEpoch := s.lh.epoch, lhCount := s.lh.count, lhSync := true } else s

/-- Quarantines an Isle for the given disagreements. -/
def State.quarantine (s : State) (n : Nat) (ver dig lhm : Bool) : State :=
  let s := s.modStrait n fun x => { x with result := 2, vermis := ver, digmis := dig, lhmis := lhm, armed := true }
  let s := s.modIsle n fun x => { x with cond := .quarantined }
  let s := { s with home := { s.home with mask := s.home.mask &&& ~~~((1 : BitVec 12) <<< n) } }
  s.recKey posUmf 0o001021 n [rp (ver.toNat * 4 + dig.toNat * 2 + lhm.toNat), rp (s.isle n).iver.toNat]

/-- Admission compares three things and admits or quarantines the Isle; true when it is admitted. -/
def State.admitIsle (s : State) (n : Nat) (ofs : BitVec 16) : State × Bool :=
  let x := s.isle n
  let s := (s.lhResync n).modStrait n fun y => { y with seenSeq := x.bootSeq }
  let s := if s.lh.run then s.modStrait n fun y => { y with lhofs := ofs } else s
  let ver := x.iver != s.umf.admref && !(s.umf.altValid && x.iver == s.umf.alt)
  let dig := x.idigest != (s.strait n).refDigest
  let lhm := s.lh.run && decide (8 < ofsMag ofs)
  if ver || dig || lhm then (s.quarantine n ver dig lhm, false)
  else
    let s := s.modIsle n fun x => { x with cond := .admitted, regions := s.worlds.regions, rgnGen := s.worlds.gen }
    let s := s.modStrait n fun y => { y with result := 1, vermis := false, digmis := false, lhmis := false, armed := true }
    let s := { s with home := { s.home with mask := s.home.mask ||| ((1 : BitVec 12) <<< n) } }
    (s.recKey posUmf 0o001020 n [rp x.iver.toNat], true)

/-- ADMISSION (R228): ofs is the measured Lighthouse offset. -/
def execAdmission (n : Fin 12) (ofs : BitVec 16) (s : State) : Res :=
  if s.isleFit n ∧ (s.strait n).st = .up ∧ (s.strait n).result = 3 then
    let r := s.admitIsle n ofs
    .next ((r.1.modIsle n fun x => { x with st := .run }).endIsle n (if r.2 then 1 else 2))
  else .next s

/-! ### Lane failures (R212 to R216, R220) -/

/-- Marks a powered lane failed: its role, its count, and what it leaves to be done. -/
def Dir.failLane (d : Dir) (i : Nat) : Dir :=
  let l := d.lane i
  let d := { d.setLane i { role := .failed, logical := 0, err := l.err } with fail := d.fail + 1 }
  match l.role with
  | .data => { d with lost := d.lost ++ [l.logical.toNat] }
  | .spare | .standin | .recal => { d with restore := d.restore + 1 }
  | .failed | .dormant => d

/-- The lane under recalibration returns to service and its stand-in becomes a spare (R218, R220). -/
def State.stopRecal (s : State) (n : Nat) : State :=
  match (s.strait n).recal with
  | some (k, j) =>
    let toK := decide (104 ≤ k)
    let s := s.release (reqIsle n) 0 1
    let s := s.relaneDir n toK fun d =>
      if k = j then d.modLane (k % 104) fun l => { l with role := .spare }
      else (d.modLane (k % 104) fun l => { l with role := .data }).modLane (j % 104) fun l =>
        { l with role := .spare, logical := 0 }
    s.modStrait n fun x => { x with recal := none }
  | none => s

/-- One physical lane declared failed (R212, R220). -/
def State.laneFail (s : State) (n : Nat) (toK : Bool) (i cond : Nat) : State :=
  let d := s.dirOf n toK
  match (d.lane i).role with
  | .failed | .dormant => s
  | r =>
    let s := s.recStrait n 0o001001 [dirNum toK, i, cond]
    let rc := (s.strait n).recal
    match r, rc with
    | .recal, some (_, si) =>
      -- the receiver stays on the stand-in
      let j := si % 104
      let s := (s.relaneDir n toK fun d => (d.failLane i).modLane j fun l =>
        if j = i then l else { l with role := .data }).modStrait n fun x => { x with recal := none }
      s.release (reqIsle n) 0 1
    | .standin, some (li, _) =>
      let lg := (d.lane i).logical
      let s := (s.relaneDir n toK fun d => (d.failLane i).modLane (li % 104) fun l =>
        { l with role := .data, logical := lg }).modStrait n fun x => { x with recal := none }
      s.release (reqIsle n) 0 1
    | _, _ => (s.stopRecal n).relaneDir n toK fun d => d.failLane i

/-- Finds whether a direction stalls or is lost after failures (R213 to R215); a dormant lane is no help in time (R214). -/
def State.afterFail (s : State) (n : Nat) (toK : Bool) : State :=
  let d := s.dirOf n toK
  let s := if d.lost.isEmpty then s else s.modStrait n fun x => { x with st := if x.st = .up then .stalled else x.st }
  if d.powered.length < 24 then s.detect n .severed else s

/-- A lane may be declared failed on a condition of R212: condition 1 takes 16 errors attributed to the lane. -/
def Dir.mayFail (d : Dir) (cond i : Nat) : Bool := decide (cond ≠ 1 ∨ 16 ≤ (d.lane i).err.toNat)

/-- LANE_FAILED (R212): the lanes of a mask, declared failed in one flit time. -/
def execLaneFailed (n : Fin 12) (toK : Bool) (lanes : BitVec 104) (cond : Fin 3) (s : State) : Res :=
  if s.isleFit n ∧ ((s.strait n).st = .up ∨ (s.strait n).st = .stalled) then
    let s := ((lanesOf lanes).filter ((s.dirOf n toK).mayFail cond)).foldl (fun s i => s.laneFail n toK i cond.val) s
    .next (s.afterFail n toK)
  else .next s

/-- Steers lost logical lanes onto free spares, lowest first (R213, R215); with the lanes steered. -/
def Dir.substitute (d : Dir) : Dir × List (Nat × Nat) :=
  let pairs := d.lost.zip (d.having .spare)
  let d' := pairs.foldl (fun (d : Dir) (p : Nat × Nat) =>
    d.setLane p.2 { d.lane p.2 with role := .data, logical := BitVec.ofNat 7 p.1 }) d
  ({ d' with lost := d.lost.drop pairs.length, restore := d'.restore + pairs.length }, pairs)

/-- Substitutes what the free spares allow, with counts and records. -/
def State.doSubst (s : State) (n : Nat) (toK : Bool) (stall : Nat) : State :=
  let (d, ps) := (s.dirOf n toK).substitute
  let s := s.relane n fun x => { x.setDir toK d with subst := satAdd x.subst ps.length }
  ps.foldl (fun s p => s.recStrait n 0o001002 [dirNum toK, p.1, p.2, stall]) s

/-- The flits kept from a sequence number on are sent again (R207). -/
def Dir.resend (d : Dir) (q : BitVec 12) : Dir :=
  { d with replay := q, resent := d.kept.drop (d.kept.length - (d.seq - q).toNat) }

/-- The stall ends when nothing is lost in either direction, and both ends replay from the last acknowledged flit (R213). -/
def State.endStall (s : State) (n : Nat) : State :=
  s.modStrait n fun x =>
    if x.st = .stalled ∧ x.toI.lost.isEmpty ∧ x.toK.lost.isEmpty then
      { x with st := .up, toI := x.toI.resend x.toI.acked, toK := x.toK.resend x.toK.acked }
    else x

/-- SUBSTITUTED (R213): stall is the stall's length in ns. -/
def execSubstituted (n : Fin 12) (toK : Bool) (stall : BitVec 32) (s : State) : Res :=
  if s.isleFit n ∧ (s.strait n).st = .stalled then .next ((s.doSubst n toK stall.toNat).endStall n) else .next s

/-- Narrows a direction by one width (R214). What its powered lanes lack of 8 spares is owed by its dormant ones (R209). -/
def Dir.narrow (d : Dir) : Option Dir :=
  let work := d.powered
  let w : Nat := if d.width = 0 then 48 else if d.width = 1 then 24 else 0
  if w = 0 then none
  else some { layLanes d work w with
    width := d.width + 1, restore := min (w + 8 - work.length) (d.having .dormant).length
    lost := if work.length < w then (List.range w).drop work.length else [] }

/-- NARROWED (R214, R215): spares are used first; a width that cannot be filled narrows once more. -/
def State.doNarrow (s : State) (n : Nat) (toK : Bool) (stall : Nat) : Nat → State
  | 0 => s
  | k + 1 =>
    let s := s.stopRecal n
    match (s.dirOf n toK).narrow with
    | none => s.detect n .severed
    | some d =>
      let s := s.relane n fun x => { x.setDir toK d with narrow := x.narrow + 1 }
      let s := s.recStrait n 0o001003 [dirNum toK, widthOf d.width, stall]
      if d.lost.isEmpty then s else s.doNarrow n toK stall k

/-- NARROWED (R214). -/
def execNarrowed (n : Fin 12) (toK : Bool) (stall : BitVec 32) (s : State) : Res :=
  if s.isleFit n ∧ (s.strait n).st = .stalled then
    let s := s.doSubst n toK stall.toNat
    if (s.dirOf n toK).lost.isEmpty then .next (s.endStall n)
    else .next ((s.doNarrow n toK stall.toNat 2).endStall n)
  else .next s

/-- LANE_RESTORED (R209, R213): the next dormant lane is calibrated, with the result ok. -/
def execLaneRestored (n : Fin 12) (toK : Bool) (ok : Bool) (s : State) : Res :=
  let d := s.dirOf n toK
  if !s.isleFit n || d.restore == 0 then .next s
  else match d.having .dormant with
      | [] => .next (s.relaneDir n toK fun d => { d with restore := 0 })
      | i :: _ =>
        match s.claim (reqIsle n) 0 1 with
        | (s, false) => .next (s.recKey posUmf 0o001030 n [1])
        | (s, true) =>
          let s := s.release (reqIsle n) 0 1
          if ok then
            .next ((s.relaneDir n toK fun d => { d.modLane i fun l => { l with role := .spare } with restore := d.restore - 1 }).recStrait
              n 0o001005 [dirNum toK, i])
          else
            .next ((s.relaneDir n toK fun d => { d.setLane i { role := .failed } with fail := d.fail + 1 }).recStrait
              n 0o001001 [dirNum toK, i, 2])

/-- Lanes that carry the bits of a flit. -/
def LaneRole.carries : LaneRole → Bool
  | .data | .standin | .recal => true
  | .spare | .failed | .dormant => false

/-- Each lane of a mask that carries a flit's bits takes one error (R212). -/
def Dir.attribute (d : Dir) (bad : BitVec 104) : Dir :=
  ((lanesOf bad).filter fun i => (d.lane i).role.carries).foldl
    (fun (d : Dir) i => d.modLane i fun l => { l with err := satAdd l.err 1 }) d

/-- FLIT_CRC_REPLAY (R207, R212): the receiver asks for the flit again, the sender resends from it, and the lanes whose bits
differ in the replayed copy take an error each. -/
def execFlitCrcReplay (n : Fin 12) (toK : Bool) (seq : BitVec 12) (bad : BitVec 104) (s : State) : Res :=
  if s.isleFit n then .next (s.modStrait n fun x => x.setDir toK (((if toK then x.toK else x.toI).attribute bad).resend seq))
  else .next s

/-- SIDEBAND_FAILOVER (R208). -/
def execSidebandFailover (n : Fin 12) (toK : Bool) (s : State) : Res :=
  if !s.isleFit n || (s.dirOf n toK).pri then .next s
  else
    let s := (s.relaneDir n toK fun d => { d with pri := true }).recStrait n 0o001004 [dirNum toK]
    .next (if (s.dirOf n toK).bak then s.detect n .severed else s)

/-- BACKUP_SIDEBAND_LANE_FAILED (R208). -/
def execBackupSidebandLaneFailed (n : Fin 12) (toK : Bool) (s : State) : Res :=
  if !s.isleFit n then .next s
  else
    let s := s.relaneDir n toK fun d => { d with bak := true }
    .next (if (s.dirOf n toK).pri then s.detect n .severed else s)

/-! ### Recalibration (R218, R219) -/

/-- Starts the recalibration of lane key (104 and up toward the Keystone), or defers it. -/
def State.recalLane (s : State) (n key : Nat) : State × Bool :=
  let toK := decide (104 ≤ key)
  let i := key % 104
  let d := s.dirOf n toK
  match (d.lane i).role with
  | .data =>
    match d.having .spare with
    | [] => (s.modStrait n fun x => { x with defer := satAdd x.defer 1 }, false)
    | j :: _ =>
      match s.claim (reqIsle n) 0 1 with
      | (s, false) => (s.modStrait n fun x => { x with defer := satAdd x.defer 1 }, false)
      | (s, true) =>
        ((s.relaneDir n toK fun d => (d.modLane i fun l => { l with role := .recal }).modLane j fun l =>
            { l with role := .standin, logical := (d.lane i).logical }).modStrait n fun x =>
          { x with recal := some (key, (if toK then 104 else 0) + j) }, true)
  | .spare =>
    match s.claim (reqIsle n) 0 1 with
    | (s, false) => (s.modStrait n fun x => { x with defer := satAdd x.defer 1 }, false)
    | (s, true) =>
      ((s.relaneDir n toK fun d => d.modLane i fun l => { l with role := .recal }).modStrait n fun x =>
        { x with recal := some (key, key) }, true)
  | .standin | .failed | .dormant | .recal => (s, false)

/-- The pass moves to its next lane, or ends. -/
def State.recalNext (s : State) (n : Nat) : List Nat → State
  | [] => s.modStrait n fun x => { x with todo := [], active := false }
  | k :: ks =>
    match s.recalLane n k with
    | (s, true) => s.modStrait n fun x => { x with todo := ks }
    | (s, false) => s.recalNext n ks

/-- A pass over the powered lanes starts, unless one runs. -/
def State.recalStart (s : State) (n : Nat) : State :=
  let x := s.strait n
  if x.active || (x.st != .up && x.st != .stalled) then s
  else (s.modStrait n fun x => { x with active := true }).recalNext n (x.toI.powered ++ x.toK.powered.map (· + 104))

/-- RECAL_PASS_START (R218): the PERIOD timer. -/
def execRecalPassStart (n : Fin 12) (s : State) : Res :=
  if !s.isleFit n || (s.strait n).period == 0 then .next s else .next (s.recalStart n)

/-- A write of STR_RECALCTL. -/
def State.recalctl (s : State) (n : Nat) (v : W36) : State × Resp :=
  if !s.isleFit n then (s, .absent)
  else if hasBits v (bitsMask 35 12 ||| bitsMask 1 0) then (s, .rsvd)
  else
    let s := s.modStrait n fun x => { x with period := BitVec.ofNat 8 (fld v 11 4) }
    (if bitOf v 3 then s.recalStart n else s, .ok)

/-- RUN (R218): a write of STR_RECALCTL with RUN = 1. -/
def execRun (_w : Who) (n : Fin 12) (v : W36) (s : State) : Res :=
  .next (s.recalctl n (v ||| put 3 1)).1

/-- RECAL_LANE_DONE (R218): the receiver returns to the lane, and the pass moves on. -/
def execRecalLaneDone (n : Fin 12) (s : State) : Res :=
  let x := s.strait n
  if s.isleFit n && (x.recal.isSome || x.active) then .next ((s.stopRecal n).recalNext n x.todo) else .next s

/-! ### Watchdog and lost Isles (R223 to R226, R359) -/

/-- HEARTBEAT (R223, R224). -/
def execHeartbeat (n : Fin 12) (rst clk : Bool) (seq : BitVec 8) (s : State) : Res :=
  let x := s.strait n
  if !s.isleFit n || (s.isle n).mute || (x.toK.pri && x.toK.bak) then .next s
  else
    if !x.watched then .next (s.modIsle n fun y => { y with bootSeq := seq })
    else
      let s := s.modStrait n fun x => { x with seenSeq := seq }
      let s := s.modIsle n fun y => { y with bootSeq := seq }
      if rst || seq != x.seenSeq then .next (s.detect n .reset)
      else if clk then .next (s.detect n .clock) else .next s

/-- HEARTBEAT_TIMEOUT (R224). -/
def execHeartbeatTimeout (n : Fin 12) (s : State) : Res :=
  if s.isleFit n then .next (s.detect n .severed) else .next s

/-- Bearing of the Isle's cores in their present states (R352). -/
def State.coresBearing (s : State) (n : Nat) : Nat :=
  (List.range 24).foldl (fun a c =>
    let x := s.core (n * 24 + c)
    a + match x.st with | .run | .slack => coreBearing x.fCur.toNat | .neap => 1 | .dry => 0) 0

/-- Ends the requests of a stream ABORTED with refuser STRAIT_DOWN (R359); an entry before its saving point is counted (R358). -/
def Stream.lost (x : Stream) : Stream :=
  match x.act with
  | none => x
  | some q =>
    let entry := decide (2 ≤ q.target.toNat) && !x.saving && !x.waitT
    { x with act := none, held := none, waitT := false, saving := false, quiesce := false, result := 3, refuser := 5
             aborts := if entry then sset 0 x.aborts 5 (min (2 ^ 18 - 1) (sget 0 x.aborts 5 + 1)) else x.aborts }

/-- Removes the broadcasts and reseeds that threads of a lost Isle wait for. -/
def State.forgetThreads (s : State) (n : Nat) : State :=
  { s with keys := { s.keys with
    waiting := s.keys.waiting.filter fun p => p.1.val / 48 != n
    bcasts := s.keys.bcasts.filter fun p => p.1.val / 48 != n } }

/-- Ends every handle on Isle n ABORTED (R395), an update of microcode that has it still to do among them. -/
def State.abortIsleHandles (s : State) (n : Nat) : State :=
  let s := s.endHandle (.isle (Fin.ofNat 12 n)) 10 0
  match s.umf.ucode with
  | none => s
  | some r =>
    if r.todo.any fun i => i.val == n then
      let s := { s with umf := { s.umf with ucode := none } }
      let isles := smap ({} : Isle) s.isles fun _ x => if x.parked then { x with parked := false, umfLock := false } else x
      { s with isles }.endHandle .ucode 10 0
    else s

/-- CLASS and INDEX of a unit of hand-over (R375). -/
def hoNums : HoClass → Nat × Nat
  | .engine e => (0, e.val)
  | .port p => (1, p.val)
  | .part n p => (2, n.val * 8 + p.val)
  | .site g => (3, 12 + g.val)

/-- The world that owns a unit of hand-over. -/
def State.hoOwner (s : State) : HoClass → Bool
  | .engine e => (s.engine e).world
  | .port p => s.portVault p
  | .part n p => (s.isle n).cis.partworld.getLsbD p.val
  | .site g => s.worlds.guestown.getLsbD g.val

/-- STATUS of a hand-over's handle for a RESULT (R397, DEDUCED, log entry 36). -/
def hoStatus (r : Nat) : BitVec 8 := if r = 1 then 0 else if r = 2 then 8 else if r = 3 then 9 else 10

/-- A hand-over ends with a RESULT and is recorded (R377). -/
def State.hoEnd (s : State) (u : HoClass) (fromV toV : Bool) (r : Nat) : State :=
  let s := { s with worlds := { s.worlds with ho := none, result := BitVec.ofNat 4 r } }
  let n := hoNums u
  (s.recKey posWld 0o011001 0 [rp n.1, rp n.2, rp (if fromV then 1 else 0), rp r] (if r = 1 then toV else fromV)).endHandle
    .handover (hoStatus r) (BitVec.ofNat 8 r)

/-- A report for an Isle (R224 to R226, R359, R379): one during its admission makes it a reset Isle (R232). -/
def State.isleLost (s : State) (n : Fin 12) (k : Report) : State :=
  let admitted := s.home.mask.getLsbD n.val
  let was := k
  let k := if (s.strait n).result = 3 then .reset else k
  let s := match was with
    | .severed => s.recStrait n 0o001010 []
    | .reset => s.recStrait n 0o001011 [(s.isle n).bootSeq.toNat]
    | .clock => s.recStrait n 0o001012 []
  let s := (s.trwAbort n).stopRecal n
  let freed := s.coresBearing n
  let aborted := (s.isle n).slots
  let s := (s.isleScope n).forgetThreads n
  let s := s.modIsle n fun x => { x with
    slots := aborted, stream := x.stream.lost
    cond := (match k with | .severed => .severed | .reset => .reset | .clock => .clockLost)
    st := (match k with | .reset => .run | .severed | .clock => .dry) }
  let s := (List.range 24).foldl (fun s c => s.modCore (n.val * 24 + c) fun x => { x with stream := x.stream.lost }) s
  let s := if k = .reset then s.release (reqIsle n) freed 0 else s
  let s := s.modStrait n fun x => { x with
    armed := false, due := none, active := false, todo := [], recal := none, bearwait := false
    result := if x.result = 3 then 0 else x.result
    st := (match k with | .severed => .severed | .reset | .clock => .down) }
  let s := s.abortIsleHandles n
  let s := match s.worlds.ho with
    | some h => (match h.unit with
      | .part i _ => if i = n then s.hoEnd h.unit (s.hoOwner h.unit) h.toV 4 else s
      | .engine _ | .port _ | .site _ => s)
    | none => s
  if admitted then s.purge n was else s

/-- WATCHDOG_REPORT (R224, R225, R232): the report of what the watchdog has detected on an Isle that it watches. -/
def execWatchdogReport (n : Fin 12) (k : Report) (s : State) : Res :=
  if s.isleFit n && (s.strait n).watched && (s.strait n).due == some k then .next (s.isleLost n k) else .next s

/-- VCORE goes off and the Isle's bearing, with that of its Strait's lanes, is released (R226). -/
def State.vcoreOff (s : State) (n : Nat) : State :=
  let a := sget {} s.ledger.claimed (reqIsle n)
  let off (d : Dir) : Dir := { pri := d.pri, bak := d.bak, fail := d.fail }
  let s := s.modStrait n fun x => { x with toI := off x.toI, toK := off x.toK, bearwait := false, recal := none }
  (s.release (reqIsle n) a.core a.hub).modIsle n fun x => { x with vcore := false }

/-- VCORE_REMOVE (R226). -/
def execVcoreRemove (n : Fin 12) (s : State) : Res :=
  if s.isleFit n ∧ (s.isle n).vcore ∧ ((s.isle n).cond = .severed ∨ (s.isle n).cond = .clockLost) then .next (s.vcoreOff n)
  else .next s

end Sys2Proof.Machine
end

