-- ==== Sys2Proof/Machine/Power.lean ====
section
/-! DEFINITION. Power states (R345 to R347, R354 to R364, R457): requests and their streams, refusers, the
transitions of cores, Isles, Keystone blocks and the package, and waking. -/

namespace Sys2Proof.Machine

/-! ### Units, streams and states -/

def State.streamOf (s : State) : PUnit → Stream
  | .core c => (s.core c).stream
  | .isle n => (s.isle n).stream
  | .block k => if k.val = 0 then s.harbour.stream else (s.block (k.val - 1)).stream
  | .package => s.pwr.stream

def State.modStream (s : State) (u : PUnit) (f : Stream → Stream) : State :=
  match u with
  | .core c => s.modCore c fun x => { x with stream := f x.stream }
  | .isle n => s.modIsle n fun x => { x with stream := f x.stream }
  | .block k =>
    if k.val = 0 then { s with harbour := { s.harbour with stream := f s.harbour.stream } }
    else s.modBlock (k.val - 1) fun x => { x with stream := f x.stream }
  | .package => { s with pwr := { s.pwr with stream := f s.pwr.stream } }

/-- STATE of a unit as its status register shows it (R366). -/
def State.unitState (s : State) : PUnit → BitVec 2
  | .core c => (match (s.core c).st with | .run => 0 | .slack => 1 | .neap => 2 | .dry => 3)
  | .isle n => (match (s.isle n).st with | .run => 0 | .slack => 1 | .neap => 2 | .dry => 3)
  | .block k =>
    (match if k.val = 0 then s.harbour.st else (s.block (k.val - 1)).st with
    | .run => 0 | .slack => 1 | .neap => 2 | .dry => 3)
  | .package => if s.pwr.lagoon then 2 else 0

/-- The Isle of a core or Isle unit. -/
def unitIsle : PUnit → Option Nat
  | .core c => some (c.val / 24)
  | .isle n => some n.val
  | .block _ | .package => none

/-- A unit that this variant fits. -/
def State.unitFit (s : State) (u : PUnit) : Bool :=
  match unitIsle u with
  | some n => s.isleFit n
  | none => true

/-! ### Vault-held units (R362) -/

def State.coreVault (s : State) (c : Nat) : Bool :=
  let held (x : Thread) : Bool := x.vault && x.mode != .stopped
  held (s.thread (2 * c)) || held (s.thread (2 * c + 1))

def State.isleVault (s : State) (n : Nat) : Bool :=
  (List.range 24).any (fun c => s.coreVault (n * 24 + c)) || (s.isle n).cis.partworld != 0

def State.harbourVault (s : State) : Bool := s.harbour.engines.any fun e => e.2.world

def State.blockVault (s : State) (b : Nat) : Bool := (List.range 8).any fun g => s.portVault (8 * b + g)

def State.vaultHeld (s : State) : PUnit → Bool
  | .core c => s.coreVault c
  | .isle n => s.isleVault n
  | .block k => if k.val = 0 then s.harbourVault else s.blockVault (k.val - 1)
  | .package =>
    (List.range 12).any (fun n => s.isleVault n) || s.harbourVault || decide (s.worlds.portown ≠ 0)
      || decide (s.worlds.guestown ≠ 0)

/-! ### Refusers (R361) -/

/-- A temperature above 100 °C, in 1/16 °C (R447). -/
def tooHot (t : BitVec 16) : Bool := decide (1600 < t.toInt)

def State.unitHot (s : State) (u : PUnit) : Bool :=
  match unitIsle u with
  | some n => (s.isle n).temps.any fun p => tooHot p.2
  | none => s.umf.keyTemps.any fun p => tooHot p.2

/-- A thread of core c waits in LAUNCH. -/
def State.coreLaunch (s : State) (c : Nat) : Bool :=
  let w (x : Thread) : Bool := match x.mode with
    | .launch _ _ => true
    | .stopped | .running | .waiting | .reseed | .bcast => false
  w (s.thread (2 * c)) || w (s.thread (2 * c + 1))

/-- A hand-over past its lock holds a unit or something in it (R377, R379). -/
def State.hoLocks (s : State) (u : PUnit) : Bool :=
  match s.worlds.ho with
  | none => false
  | some h =>
    decide (2 ≤ h.step.toNat) && match h.unit, u with
      | .engine _, .block k => k.val == 0
      | .port p, .block k => decide (k.val = p.val / 8 + 1)
      | .part n _, .isle m => n == m
      | .part n _, .core c => decide (c.val / 24 = n.val)
      | _, .package => true
      | _, _ => false

def State.locked (s : State) (u : PUnit) : Bool :=
  s.hoLocks u || match u with
    | .core c => (s.isle (c.val / 24)).umfLock
    | .isle n => (s.isle n).umfLock
    | .block k => decide (k.val ≠ 0) && (s.block (k.val - 1)).umfLock
    | .package => (List.range 12).any (fun n => (s.isle n).umfLock && (s.isle n).cond != .offline)
        || (List.range 12).any (fun b => (s.block b).umfLock)

/-- Preconditions of powering a unit down (R166, R190, R357, R360, refuser 4). -/
def State.cannotQuiesce (s : State) (u : PUnit) (target : BitVec 2) : Bool :=
  match u with
  | .core c => target != 0 && s.coreLaunch c
  | .isle n => target != 0 && ((s.isle n).trwBusy || (List.range 24).any fun c => s.coreLaunch (n.val * 24 + c))
  | .block k =>
    target == 3 &&
      if k.val = 0 then s.harbour.rings.any fun r => r.2.en
      else (List.range 8).any fun g => (s.port (8 * (k.val - 1) + g)).link != 0
  | .package =>
    target != 0 && (s.isles.any (fun i => i.2.trwBusy)
      || s.harbour.rings.any (fun r => !r.2.works.isEmpty) || !s.harbour.table.isEmpty
      || s.chans.any (fun c => c.2.st == .training || c.2.st == .frozen)
      || s.ports.ports.any (fun p => p.2.role == 2 && p.2.dstate == 0 && (p.2.link == 2 || p.2.link == 3))
      || (List.range 288).any fun c => s.coreLaunch c)

/-- Refuser 5: the Strait of the unit's Isle is not up, or the Isle is quarantined. -/
def State.straitOut (s : State) (u : PUnit) : Bool :=
  match unitIsle u with
  | none => false
  | some n =>
    let own := match u with
      | .isle _ => (s.isle n).st == .dry
      | .core _ | .block _ | .package => false
    !own && ((s.isle n).cond == .quarantined
      || ((s.strait n).st != .up && (s.strait n).st != .stalled))

/-- The CORE and HUB units that the first part of a request claims (R357, R352). -/
def State.raiseClaim (s : State) (u : PUnit) (target : BitVec 2) : Nat × Nat :=
  match u with
  | .core c =>
    let x := s.core c
    (match x.st with
    | .dry => if target = 3 then (0, 0) else (9, 0)
    | .neap => if target.toNat < 2 then (coreBearing x.fCur.toNat - 1, 0) else (0, 0)
    | .run | .slack => (0, 0))
  | .isle n =>
    let x := s.isle n
    (match x.st with
    | .dry => if target = 3 then (0, 0) else (40, 0)
    | .neap =>
      if target = 2 then (0, 0)
      else ((List.range 24).foldl (fun a c =>
        let y := s.core (n.val * 24 + c)
        if x.wasUp.getLsbD c && y.st == .neap then a + (coreBearing y.fCur.toNat - 1) else a) 32, 0)
    | .run | .slack => (0, 0))
  | .block k => if k.val = 0 ∧ s.harbour.st = .dry ∧ target = 0 then (0, 24) else (0, 0)
  | .package => (0, 0)

/-- The requester number of a unit's claims (R350). -/
def unitReq : PUnit → Nat
  | .core c => reqIsle (c.val / 24)
  | .isle n => reqIsle n.val
  | .block k => if k.val = 0 then reqHarbour else reqBlock (k.val - 1)
  | .package => reqUmf

/-- The lowest-numbered refuser of a request, but for the claim itself (R361). -/
def State.refuserOf (s : State) (u : PUnit) (q : PReq) : Option (BitVec 4) :=
  let cur := s.unitState u
  let lower := decide (cur.toNat < q.target.toNat)
  if !q.vault && lower && s.vaultHeld u then some 2
  else if decide (q.target.toNat < cur.toNat) && decide (2 ≤ cur.toNat) && s.unitHot u then some 3
  else if s.cannotQuiesce u q.target then some 4
  else if s.straitOut u then some 5
  else if s.locked u then some 6
  else none

/-! ### Streams (R355, R356, R358) -/

def satCount (m : Store Nat) (k : Nat) : Store Nat := sset 0 m k (min (2 ^ 18 - 1) (sget 0 m k + 1))

/-- The active request is refused. -/
def Stream.refuse (x : Stream) (r : BitVec 4) : Stream :=
  { x with act := none, waitT := false, saving := false, quiesce := false, result := 2, refuser := r, counts := satCount x.counts r.toNat }

/-- The active request ends with a result of R321: 4 PAST, 5 FAR, 6 EPOCH, 7 DRIFT; it is not counted. -/
def Stream.untimely (x : Stream) (r : BitVec 3) : Stream :=
  { x with act := none, waitT := false, saving := false, quiesce := false, result := r, refuser := 0 }

/-- The active entry is aborted (R358). -/
def Stream.abort (x : Stream) (r : BitVec 4) : Stream :=
  { x with act := none, waitT := false, saving := false, quiesce := false, result := 3, refuser := r, aborts := satCount x.aborts r.toNat }

/-- The active request is done. -/
def Stream.done (x : Stream) : Stream :=
  { x with act := none, waitT := false, saving := false, quiesce := false, result := 1, refuser := 0 }

/-- The first check of R321 that refuses a launch at T against a clock: 4 PAST, 5 FAR, 6 EPOCH, 7 DRIFT. -/
def launchCheck (now t : Reg) (lead : Nat) (drift : Bool) : Option (BitVec 3) :=
  let d : Int := ((low64 t).toNat : Int) - (low64 now).toNat
  if drift then some 7
  else if t.extractLsb' 64 8 ≠ now.extractLsb' 64 8 then some 6
  else if d < lead then some 4
  else if (2 : Int) ^ 32 < d then some 5
  else none

/-- The clock of a timed request: its Isle's copy where that runs, else the master (R321). -/
def State.reqOnCopy (s : State) (u : PUnit) : Bool :=
  match unitIsle u with
  | some n => (s.isle n).lhSync
  | none => false

def State.reqClock (s : State) (u : PUnit) (onCopy : Bool) : Reg :=
  match unitIsle u with
  | some n => if onCopy then s.copyNow n else s.masterNow
  | none => s.masterNow

/-- A core requested into Slack stays there (R346). -/
def State.slackAsked (s : State) (u : PUnit) (q : PReq) : State :=
  match u with
  | .core c => if q.target = 1 then s.modCore c fun x => { x with slackReq := true } else s
  | .isle _ | .block _ | .package => s

/-- The active request of a unit is checked as it becomes active; a Slack or Run request of a core whose clocks
only stop or restart completes at once. -/
def State.activate (s : State) (u : PUnit) (q : PReq) : State :=
  let s := s.modStream u fun x => { x with act := some q, waitT := false, saving := false }
  let lower := decide ((s.unitState u).toNat < q.target.toNat)
  if s.unitState u = q.target then (s.slackAsked u q).modStream u Stream.done
  else if !q.vault && lower && s.vaultHeld u then s.modStream u fun x => x.refuse 2
  else if q.timed then
    let onCopy := s.reqOnCopy u
    let drift := onCopy && ((unitIsle u).map fun n => (s.isle n).lhDrift).getD false
    match launchCheck (s.reqClock u onCopy) q.t 8000 drift with
    | some r => s.modStream u fun x => x.untimely r
    | none => s.modStream u fun x => { x with act := some { q with onCopy }, waitT := true }
  else
    let need := s.raiseClaim u q.target
    if !claimOk s.ledger need.1 need.2 then (s.claim (unitReq u) need.1 need.2).1.modStream u fun x => x.refuse 1
    else match s.refuserOf u q with
      | some r => s.modStream u fun x => x.refuse r
      | none => s

/-- The held request becomes active once nothing is (R355). -/
def State.nextHeld (s : State) (u : PUnit) : State :=
  let x := s.streamOf u
  match x.act, x.held with
  | none, some q =>
    let s := (s.modStream u fun x => { x with held := none }).activate u q
    s
  | _, _ => s

/-- A request arrives (R355). -/
def State.request (s : State) (u : PUnit) (q : PReq) : State :=
  let x := s.streamOf u
  match x.act, x.held with
  | none, _ => s.activate u q
  | some _, none => s.modStream u fun x => { x with held := some q }
  | some _, some _ => s.modStream u fun x => { x with held := some q, counts := satCount x.counts 0 }

/-- The active request that begins now: not waiting for T, its Isle's Strait not stalled (R359). In Lagoon, where every Isle
is in Neap or Dry and every Keystone block is off (R347), only one of the package begins (DESIGN CHOICE, log entry 64). -/
def State.beginning (s : State) (u : PUnit) : Option PReq :=
  let x := s.streamOf u
  if x.waitT || (s.pwr.lagoon && u != .package) then none
  else match unitIsle u with
    | some n => if (s.strait n).st = .stalled then none else x.act
    | none => x.act

/-- Refuses the active request, and the held one follows. -/
def State.refuseAct (s : State) (u : PUnit) (r : BitVec 4) : State := (s.modStream u fun x => x.refuse r).nextHeld u

/-! ### Threads and cores -/

/-- The core's clocks run, or are only stopped. -/
def Core.isUp (x : Core) : Bool := x.st == .run || x.st == .slack

/-- The threads of core c that wait or are stopped let it rest (R346). -/
def State.coreIdle (s : State) (c : Nat) : Bool :=
  let idle (x : Thread) : Bool := match x.mode with
    | .stopped | .waiting => true
    | .running | .launch _ _ | .reseed | .bcast => false
  idle (s.thread (2 * c)) && idle (s.thread (2 * c + 1))

/-- CORE_AUTOSLACK_ENTER (R346). -/
def execCoreAutoslackEnter (c : Fin 288) (s : State) : Res :=
  if !s.coreFit c then .next s
  else
    let x := s.core c
    if x.autoslack && x.st == .run && s.coreIdle c then .next (s.modCore c fun x => { x with st := .slack }) else .next s

/-- ISLE_SLACK_ENTER (R345). -/
def execIsleSlackEnter (n : Fin 12) (s : State) : Res :=
  if !s.isleFit n then .next s
  else if (s.isle n).st = .run ∧ (List.range 24).all fun c => (s.core (n.val * 24 + c)).st != .run then
    .next (s.modIsle n fun x => { x with st := .slack })
  else .next s

/-- ISLE_SLACK_EXIT (R345). -/
def execIsleSlackExit (n : Fin 12) (s : State) : Res :=
  if !s.isleFit n then .next s
  else if (s.isle n).st = .slack ∧ (List.range 24).any fun c => (s.core (n.val * 24 + c)).st == .run then
    .next (s.modIsle n fun x => { x with st := .run })
  else .next s

/-! ### Transitions of a core (R357) -/

/-- What a core loses in Neap (R116, R345). -/
def State.coreNeap (s : State) (c : Nat) : State :=
  let x := s.core c
  let s := s.release (reqIsle (c / 24)) (coreBearing x.fCur.toNat - 1) 0
  let s := s.modCore c fun x => { x with st := .neap, slackReq := false, itlb := [], dtlb := [], tlb2 := [], keys := [] }
  (s.modThread (2 * c) fun x => { x with ret := [] }).modThread (2 * c + 1) fun x => { x with ret := [] }

def State.coreRestore (s : State) (c : Nat) : State := s.modCore c fun x => { x with st := .run }

/-- A core's L1 and L2 are written back and it is gated. -/
def State.coreDry (s : State) (c : Nat) : State :=
  let x := s.core c
  let have' := match x.st with | .neap => 1 | .run | .slack => coreBearing x.fCur.toNat | .dry => 0
  ((s.flushCore (c / 24) (c % 24)).coreGone c).release (reqIsle (c / 24)) have' 0

/-- A core leaves Dry, its claim granted: both threads stopped (R117, R357, R438). -/
def State.coreUp (s : State) (c : Nat) : State := (s.coreScope c).modCore c fun x => { x with st := .run, slackReq := false }

/-- Every issued instruction of core c has completed and its store buffers are empty (R357). -/
def State.drained (s : State) (c : Nat) : Bool :=
  let idle (x : Thread) : Bool := x.sb.isEmpty && match x.mode with
    | .stopped | .running | .waiting | .launch _ _ => true
    | .reseed | .bcast => false
  idle (s.thread (2 * c)) && idle (s.thread (2 * c + 1))

/-- The cores of Isle n in Run or Slack are drained. -/
def State.isleDrained (s : State) (n : Nat) : Bool :=
  (List.range 24).all fun c => !(s.core (n * 24 + c)).isUp || s.drained (n * 24 + c)

/-- A transition row of a core: its request must ask for it. A step change is whole steps, each its own row (R355). -/
def State.coreRow (s : State) (c : Fin 288) (f : PReq → State) : Res :=
  if !s.coreFit c then .next s
  else match s.beginning (.core c) with
    | some q => .next (f q)
    | none => .next s

/-- CORE_TO_NEAP (R357): once the core is drained. -/
def execCoreToNeap (c : Fin 288) (s : State) : Res := s.coreRow c fun q =>
  let x := s.core c
  if q.target = 2 ∧ (x.st = .run ∨ x.st = .slack) then
    if s.coreLaunch c then s.refuseAct (.core c) 4
    else if !s.drained c then s
    else (s.coreNeap c).modStream (.core c) fun x => { x with saving := true }
  else s

/-- The Isle part of a raise of a core whose Isle is in Neap (R357): none when its claim is refused. -/
def State.isleRaise (s : State) (n : Nat) : Option State :=
  let x := s.isle n
  if x.st ≠ .neap then some s
  else
    let need := (s.raiseClaim (.isle (Fin.ofNat 12 n)) 0).1
    match s.claim (reqIsle n) need 0 with
    | (_, false) => none
    | (s, true) =>
      let s := (List.range 24).foldl (fun s c =>
        if x.wasUp.getLsbD c && (s.core (n * 24 + c)).st == .neap then s.coreRestore (n * 24 + c) else s) s
      some (s.modIsle n fun x => { x with st := .run, wasUp := 0 })

/-- CORE_NEAP_TO_RUN (R357): as the request, or the first part of it, asks. -/
def execCoreNeapToRun (c : Fin 288) (s : State) : Res := s.coreRow c fun q =>
  let n := c.val / 24
  if q.target.toNat < 2 ∧ (s.core c).st = .neap then
    if (s.isle n).st = .neap ∧ (s.isle n).stream.act.isSome then s
    else match s.isleRaise n with
      | none => (s.claim (reqIsle n) (s.raiseClaim (.isle (Fin.ofNat 12 n)) 0).1 0).1.refuseAct (.core c) 1
      | some s =>
        if (s.core c).st ≠ .neap then s
        else match s.claim (reqIsle n) (coreBearing (s.core c).fCur.toNat - 1) 0 with
          | (s, true) => s.coreRestore c
          | (s, false) => s.refuseAct (.core c) 1
  else s

/-- CORE_TO_DRY (R357): once the core is drained, which one in Neap is. -/
def execCoreToDry (c : Fin 288) (s : State) : Res := s.coreRow c fun q =>
  if q.target = 3 ∧ (s.core c).st ≠ .dry then
    if s.coreLaunch c then s.refuseAct (.core c) 4
    else if (s.core c).isUp && !s.drained c then s
    else (s.coreDry c).modStream (.core c) fun x => { x with saving := true }
  else s

/-- CORE_DRY_TO_RUN (R357): for a request of Run, or as the first part of one of Slack or Neap; it waits while its Isle
is in Neap, where no core can run (R345). -/
def execCoreDryToRun (c : Fin 288) (s : State) : Res := s.coreRow c fun q =>
  if q.target ≠ 3 ∧ (s.core c).st = .dry ∧ (s.isle (c.val / 24)).st ≠ .neap then
    match s.claim (reqIsle (c.val / 24)) (coreBearing 29) 0 with
    | (s, true) => s.coreUp c
    | (s, false) => s.refuseAct (.core c) 1
  else s

/-! ### Transitions of an Isle (R357) -/

/-- Requests of agent a are on their way, wait or are served at a home, or their ends are on their way back. -/
def State.openRequests (s : State) (a : BitVec 4) : Bool :=
  let ask (m : Msg) : Bool := m.src == a && match m.ty with
    | .rds | .rdu | .upg | .rdn | .wrn | .wrl | .atm | .trw | .wbd | .evc => true
    | .fws | .fwu | .sng | .snc | .sni | .inv | .pfh | .ack | .ackd | .gone | .gnt | .cmp | .busy | .dat => false
  let fin (m : Msg) : Bool := m.dst == a && match m.ty with
    | .gnt | .cmp | .busy | .dat => true
    | .rds | .rdu | .upg | .rdn | .wrn | .wrl | .atm | .trw | .wbd | .evc | .fws | .fwu | .sng | .snc | .sni | .inv | .pfh
    | .ack | .ackd | .gone => false
  (s.net.any fun m => ask m || fin m) || (s.home.queues.any fun q => q.2.any ask) || s.home.txns.any fun p => ask p.2.req

/-- A home waits for agent a's answer to a snoop. -/
def State.snooped (s : State) (a : BitVec 4) : Bool := s.home.txns.any fun p => p.2.waits.getLsbD a.toNat

/-- The Isle has no open request, and the windows that it has end (R190). -/
def State.isleQuiet (s : State) (n : Nat) : Bool :=
  !s.openRequests (BitVec.ofNat 4 n) && (s.isle n).lines.all fun p => match p.2.st with
    | .i | .s | .e | .o | .m => true
    | .isD | .imD | .smA | .miA | .eiA => false

def State.endWindows (s : State) (n : Nat) : State :=
  (skeys (s.isle n).lines).foldl (fun s l => s.endWindow n l) s

/-- An Isle enters Neap with its cores. -/
def State.isleNeap (s : State) (n : Nat) : State :=
  let up := (List.range 24).filter fun c =>
    let x := s.core (n * 24 + c)
    x.st == .run || x.st == .slack
  let s := (up.foldl (fun s c => s.coreNeap (n * 24 + c)) s).endWindows n
  let was := up.foldl (fun (b : BitVec 24) c => b ||| ((1 : BitVec 24) <<< c)) 0
  (s.release (reqIsle n) 32 0).modIsle n fun x => { x with st := .neap, wasUp := was }

/-- Isle n is out of every directory entry (R203). -/
def State.unlist (s : State) (n : Nat) : State :=
  let a := BitVec.ofNat 4 n
  let drop (e : Entry) : Entry :=
    let e := dropSharer e a
    let e := if (e.st = .x ∨ e.st = .o) ∧ e.owner = a then { e with st := .s, owner := 0 } else e
    if e.st = .s ∧ e.sharers = 0 then {} else e
  { s with home := { s.home with entries := smap ({} : Entry) s.home.entries fun _ e => drop e } }

/-- An Isle that goes to Dry has drained its cores, and no home waits for it or serves it. -/
def State.mayDry (s : State) (n : Nat) : Bool :=
  let a := BitVec.ofNat 4 n
  s.isleDrained n && !s.openRequests a && !s.snooped a

/-- An Isle goes to Dry: every core, every line, admission, the watchdog, VCORE and its bearing (R203, R223). -/
def State.isleDry (s : State) (n : Nat) : State :=
  let s := (List.range 24).foldl (fun s c => if (s.core (n * 24 + c)).st = .dry then s else s.coreDry (n * 24 + c)) s
  let s := ((s.endWindows n).emptyIsle n).unlist n
  let s := { s with home := { s.home with mask := s.home.mask &&& ~~~((1 : BitVec 12) <<< n) } }
  let s := s.modStrait n fun x => { x with armed := false, st := .down, result := 0, active := false, todo := [], recal := none }
  let s := ((s.isleScope n).vcoreOff n).modStrait n fun x => { x with toI := { x.toI with width := 3 }, toK := { x.toK with width := 3 } }
  s.modIsle n fun x => { x with st := .dry, cond := if x.cond = .offline then .offline else .out }

/-- A transition row of an Isle. -/
def State.isleRow (s : State) (n : Fin 12) (f : PReq → State) : Res :=
  if !s.isleFit n then .next s
  else match s.beginning (.isle n) with
    | some q => .next (f q)
    | none => .next s

/-- ISLE_TO_NEAP (R357, R190): the cores drain, then the Isle stops its requests and waits for what is open; still open
when the row comes again, the 20 µs have passed. -/
def execIsleToNeap (n : Fin 12) (s : State) : Res := s.isleRow n fun q =>
  let x := s.isle n
  if q.target = 2 ∧ (x.st = .run ∨ x.st = .slack) then
    if s.cannotQuiesce (.isle n) 2 then s.refuseAct (.isle n) 4
    else if !s.isleDrained n then s
    else if !s.isleQuiet n then
      if x.stream.quiesce then s.refuseAct (.isle n) 4 else s.modStream (.isle n) fun x => { x with quiesce := true }
    else (s.isleNeap n).modStream (.isle n) fun x => { x with saving := true }
  else s

/-- ISLE_NEAP_TO_RUN (R357): for Run, or as the first part of Neap → Dry. -/
def execIsleNeapToRun (n : Fin 12) (s : State) : Res := s.isleRow n fun q =>
  if q.target ≠ 2 ∧ (s.isle n).st = .neap then
    match s.isleRaise n with
    | some s => s
    | none => (s.claim (reqIsle n) (s.raiseClaim (.isle n) 0).1 0).1.refuseAct (.isle n) 1
  else s

/-- ISLE_TO_DRY (R357): from Run or Slack, once its cores are drained. -/
def execIsleToDry (n : Fin 12) (s : State) : Res := s.isleRow n fun q =>
  let x := s.isle n
  if q.target = 3 ∧ (x.st = .run ∨ x.st = .slack) then
    if s.cannotQuiesce (.isle n) 3 then s.refuseAct (.isle n) 4
    else if !s.mayDry n then s
    else (s.isleDry n).modStream (.isle n) fun x => { x with saving := true }
  else s

/-- The power-up of an Isle with its claim granted: VCORE, microcode, training and admission (R210, R228, R357,
R431). 0 admitted, 1 quarantined, 2 severed or ended by a report (R232), 3 the training claim is refused. -/
def State.islePower (s : State) (n : Nat) (tr : TrainIn) : State × Nat :=
  let s := s.isleReset n
  match s.trainStart n with
  | (s, false) => (s, 3)
  | (s, true) =>
    match s.trained n tr.okI tr.okK with
    | (s, false) => (s.vcoreOff n, 2)
    | (s, true) =>
      match tr.report with
      | some k => (s.isleLost (Fin.ofNat 12 n) k, 2)
      | none =>
        let (s, ok) := s.admitIsle n tr.ofs
        (s.modIsle n fun x => { x with st := .run }, if ok then 0 else 1)

/-- ISLE_DRY_TO_RUN (R357): tr is what training finds. An Isle that only waits for its training claim goes on; one that
is lost comes up once its VCORE is off (R226). -/
def execIsleDryToRun (n : Fin 12) (tr : TrainIn) (s : State) : Res := s.isleRow n fun q =>
  let waits := (s.isle n).vcore && (s.strait n).bearwait
  if q.target ≠ 3 ∧ ((s.isle n).st = .dry ∧ (s.isle n).vcore = false ∨ waits) then
    match if waits then (s, true) else s.claim (reqIsle n) 40 0 with
    | (s, false) => s.refuseAct (.isle n) 1
    | (s, true) =>
      match s.islePower n tr with
      | (s, 0) => s
      | (s, 3) => s
      | (s, _) => (s.modStream (.isle n) fun x => { x.abort 5 with aborts := x.aborts }).nextHeld (.isle n)
  else s

/-! ### Keystone blocks (R357) -/

def State.setBlockSt (s : State) (k : Fin 13) (st : PState) : State :=
  if k.val = 0 then { s with harbour := { s.harbour with st } } else s.modBlock (k.val - 1) fun x => { x with st }

/-- HUB units of the links of block b. -/
def State.blockHub (s : State) (b : Nat) : Nat :=
  (List.range 8).foldl (fun a g =>
    let p := s.port (8 * b + g)
    if p.link = 2 ∨ p.link = 3 then a + linkBearing p.width.toNat (p.rate == 6) else a) 0

/-- HARBOUR_TO_DRY (R357). -/
def execHarbourToDry (s : State) : Res :=
  match s.beginning (.block 0) with
  | some q =>
    if q.target = 3 ∧ s.harbour.st = .run then
      if s.cannotQuiesce (.block 0) 3 then .next (s.refuseAct (.block 0) 4)
      else .next ((s.release reqHarbour 0 24).setBlockSt 0 .dry)
    else .next s
  | none => .next s

/-- PORT_BLOCK_TO_DRY (R357). -/
def execPortBlockToDry (b : Fin 12) (s : State) : Res :=
  let k : Fin 13 := ⟨b.val + 1, by omega⟩
  match s.beginning (.block k) with
  | some q =>
    if q.target = 3 ∧ (s.block b).st = .run then
      if s.cannotQuiesce (.block k) 3 then .next (s.refuseAct (.block k) 4)
      else .next (((s.release (reqBlock b) 0 (s.block b).hold).modBlock b fun y => { y with hold := 0, bearwait := false }).setBlockSt k .dry)
    else .next s
  | none => .next s

/-- A claim of a port block for training: HUB in hand counts; a refusal sets BEARWAIT, is recorded, and is tried again
(R284). -/
def State.blockClaim (s : State) (b need : Nat) : State × Bool :=
  match s.claim (reqBlock b) 0 (need - (s.block b).hold) with
  | (s, true) => (s.modBlock b fun y => { y with bearwait := false, wants := 0, hold := max need y.hold }, true)
  | (s, false) =>
    ((s.modBlock b fun y => { y with bearwait := true, wants := need }).recKey (posPort b) 0o005003 b [], false)

/-- A Keystone block leaves Dry: Harbour claims its bearing, a port block that of a training (R284); true when granted. -/
def State.blockUp (s : State) (k : Fin 13) : State × Bool :=
  match if k.val = 0 then s.claim reqHarbour 0 24 else s.blockClaim (k.val - 1) 24 with
  | (s, true) => (s.setBlockSt k .run, true)
  | (s, false) => (s, false)

def State.blockDry (s : State) (k : Fin 13) : Bool :=
  (if k.val = 0 then s.harbour.st else (s.block (k.val - 1)).st) == .dry

/-- KEYSTONE_BLOCK_TO_RUN (R357). -/
def execKeystoneBlockToRun (k : Fin 13) (s : State) : Res :=
  match s.beginning (.block k) with
  | some q =>
    if q.target = 0 ∧ s.blockDry k then
      match s.blockUp k with
      | (s, true) => .next s
      | (s, false) => .next (s.refuseAct (.block k) 1)
    else .next s
  | none => .next s

/-! ### Requests by register writes (R354, R366) -/

/-- The reading that time registers hold. -/
def timeWord (tep : BitVec 8) (thi tlo : BitVec 32) : Reg := tep ++ (thi ++ tlo : BitVec 64)

/-- The request of a control word, when GO is 1. -/
def State.asked (s : State) (w : Who) (v : W36) (t : Reg) : Option PReq :=
  if bitOf v 5 then
    some { target := BitVec.ofNat 2 (fld v 1 0), timed := bitOf v 4, t := if bitOf v 4 then t else 0, vault := s.whoVault w }
  else none

def State.requestIf (s : State) (u : PUnit) (q : Option PReq) : State :=
  match q with
  | some q => s.request u q
  | none => s

/-- A write of PWR_CORECTL. -/
def State.corectl (s : State) (w : Who) (c : Fin 288) (v : W36) : State × Resp :=
  let n := c.val / 24
  let x := s.isle n
  let r : State × Resp :=
    if hasBits v (bitsMask 35 9 ||| bitsMask 7 6 ||| bitsMask 3 2) then (s, .rsvd)
    else
      let s := s.modCore c fun y => { y with autoslack := bitOf v 8 }
      (s.requestIf (.core c) (s.asked w v (timeWord x.tep x.thi x.tlo)), .ok)
  s.answered (s.isleAnswer n (whoUmf w)) r

/-- A write of PWR_ISLECTL. -/
def State.islectl (s : State) (w : Who) (n : Fin 12) (v : W36) : State × Resp :=
  if !s.isleFit n then (s, .absent)
  else if hasBits v (bitsMask 35 6 ||| bitsMask 3 2) || fld v 1 0 == 1 then (s, .rsvd)
  else (s.requestIf (.isle n) (s.asked w v (timeWord s.pwr.tep s.pwr.thi s.pwr.tlo)), .ok)

/-- PWR_ISLECTL_WRITE (R355). -/
def execPwrIslectlWrite (w : Who) (n : Fin 12) (v : W36) (s : State) : Res :=
  .next (s.islectl w n v).1

/-- A write of PWR_BLKCTL. -/
def State.blkctl (s : State) (w : Who) (k : Fin 13) (v : W36) : State × Resp :=
  if hasBits v (bitsMask 35 6 ||| bitsMask 3 2) || fld v 1 0 == 1 || fld v 1 0 == 2 then (s, .rsvd)
  else (s.requestIf (.block k) (s.asked w v (timeWord s.pwr.tep s.pwr.thi s.pwr.tlo)), .ok)

/-- PWR_BLKCTL_WRITE (R355). -/
def execPwrBlkctlWrite (w : Who) (k : Fin 13) (v : W36) (s : State) : Res := .next (s.blkctl w k v).1

/-- A write of PWR_PKGCTL. -/
def State.pkgctl (s : State) (w : Who) (v : W36) : State × Resp :=
  if hasBits v (bitsMask 35 6 ||| bitsMask 3 2) || fld v 1 0 == 1 || fld v 1 0 == 3 then (s, .rsvd)
  else (s.requestIf .package (s.asked w v (timeWord s.pwr.tep s.pwr.thi s.pwr.tlo)), .ok)

/-- PWR_PKGCTL_WRITE (R355). -/
def execPwrPkgctlWrite (w : Who) (v : W36) (s : State) : Res := .next (s.pkgctl w v).1

/-! ### Firing and completing (R322, R355, R356) -/

/-- A clock reaches T: it is within the 2 ns, 8 quarter-nanoseconds, of R322 before or after it. -/
def reached (now t : Reg) : Bool :=
  let a := (low64 now).toNat
  let b := (low64 t).toNat
  now.extractLsb' 64 8 == t.extractLsb' 64 8 && decide (b ≤ a + 8 ∧ a ≤ b + 8)

/-- A unit's timed request begins as its clock reaches T: it is checked again (R356). -/
def State.fireTimed (s : State) (u : PUnit) : State :=
  let x := s.streamOf u
  match x.act with
  | some q =>
    if x.waitT && reached (s.reqClock u q.onCopy) q.t then
      let s := s.modStream u fun x => { x with waitT := false }
      (s.activate u { q with timed := false }).nextHeld u
    else s
  | none => s

/-- TIMED_REQUEST_FIRE (R356). -/
def execTimedRequestFire (u : PUnit) (s : State) : Res := .next (if s.unitFit u then s.fireTimed u else s)

/-- What a unit that reached its target does with a request whose second part is Slack (R357). -/
def State.slackPart (s : State) (u : PUnit) (q : PReq) : State :=
  match u with
  | .core c =>
    if q.target = 1 ∧ ((s.core c).st = .run ∨ (s.core c).st = .slack) then s.modCore c fun x => { x with st := .slack, slackReq := true }
    else s
  | .isle _ | .block _ | .package => s

/-- POWER_REQUEST_COMPLETE (R355): an active request whose unit has its state is done, and the held request
becomes active. A request for Slack or from Slack to Run completes here. -/
def execPowerRequestComplete (u : PUnit) (s : State) : Res :=
  if !s.unitFit u then .next s
  else match s.beginning u with
    | none => .next s
    | some q =>
      let s := s.slackPart u q
      let s := match u with
        | .core c =>
          if q.target = 0 ∧ (s.core c).st = .slack then s.modCore c fun x => { x with st := .run, slackReq := false } else s
        | .isle _ | .block _ | .package => s
      let isRun : Bool := match u with
        | .isle _ => q.target == (0 : BitVec 2) && s.unitState u == (1 : BitVec 2)
        | .core _ | .block _ | .package => false
      if s.unitState u == q.target || isRun then .next ((s.modStream u Stream.done).nextHeld u) else .next s

end Sys2Proof.Machine
end

