-- ==== Sys2Proof/Machine/Waking.lean ====
section
/-! DEFINITION. Frequency steps and caps (R129 to R132, R353, R385), Lagoon (R347, R360) and waking (R361 to
R365, R457). -/

namespace Sys2Proof.Machine

/-! ### Caps and steps -/

/-- FSTEP.CAP (R353). -/
def State.coreCap (s : State) (c : Nat) : Nat :=
  min (s.core c).fused.toNat (min (s.isle (c / 24)).thermal.toNat s.ledger.cap.toNat)

/-- The refuser of a raise above CAP: BEARING when R353 last lowered CAP, THERMAL otherwise (R131). -/
def State.capRefuser (s : State) (c : Nat) : BitVec 4 := (s.core c).capBy

/-- A step change does not start while the core's state transition is at work (R355). -/
def State.stepMay (s : State) (c : Nat) : Bool := (s.core c).stream.act.isNone || (s.core c).stream.waitT

/-- Counts a refusal of a step request for core c. -/
def State.countStep (s : State) (c : Nat) (r : BitVec 4) : State :=
  s.modCore c fun x => { x with stream := { x.stream with counts := satCount x.stream.counts r.toNat } }

/-- A step request becomes active (R130, R131). -/
def State.stepStart (s : State) (c : Nat) (r : BitVec 6) : State :=
  let s := s.modCore c fun x => { x with fReq := r, fBlocked := false, fPending := false }
  let x := s.core c
  if r = x.fCur then s
  else if r.toNat < x.fCur.toNat then s.modCore c fun x => { x with fPending := true }
  else if s.coreCap c ≤ x.fCur.toNat then
    let k := s.capRefuser c
    (s.modCore c fun x => { x with fRefuser := k }).countStep c k
  else s.modCore c fun x => { x with fPending := true }

/-- The step change in progress ends and the held request follows (R355). -/
def State.stepEnd (s : State) (c : Nat) : State :=
  let s := s.modCore c fun x => { x with fPending := false }
  match (s.core c).fHeld with
  | some r => (s.modCore c fun x => { x with fHeld := none }).stepStart c r
  | none => s

/-- A write of FSTEP.REQ (R130, R355). -/
def State.stepRequest (s : State) (c : Nat) (r : BitVec 6) : State :=
  let x := s.core c
  if !x.fPending then s.stepStart c r
  else match x.fHeld with
    | none => s.modCore c fun x => { x with fHeld := some r }
    | some _ => (s.modCore c fun x => { x with fHeld := some r }).countStep c 0

/-- STEP_RAISE (R131): one step of a raise. -/
def execStepRaise (c : Fin 288) (s : State) : Res :=
  if !s.coreFit c then .next s
  else
    let x := s.core c
    if !(x.fPending && decide (x.fCur.toNat < x.fReq.toNat) && x.isUp && s.stepMay c) then .next s
    else if s.coreCap c ≤ x.fCur.toNat then
      let k := s.capRefuser c
      .next (((s.modCore c fun x => { x with fRefuser := k }).countStep c k).stepEnd c)
    else
      let k := x.fCur.toNat
      match s.claim (reqIsle (c.val / 24)) (coreBearing (k + 1) - coreBearing k) 0 with
      | (s, false) => .next (((s.modCore c fun x => { x with fRefuser := 1, fBlocked := true }).countStep c 1).stepEnd c)
      | (s, true) =>
        let s := s.modCore c fun x => { x with fCur := x.fCur + 1 }
        let x := s.core c
        if x.fCur = x.fReq then .next (s.stepEnd c)
        else if s.coreCap c ≤ x.fCur.toNat then
          let r := s.capRefuser c
          .next (((s.modCore c fun x => { x with fRefuser := r }).countStep c r).stepEnd c)
        else .next s

/-- CUR falls to a step, and the bearing is released (R132). -/
def State.stepTo (s : State) (c k : Nat) : State :=
  let x := s.core c
  let s := s.modCore c fun x => { x with fCur := BitVec.ofNat 6 k }
  if x.isUp then s.release (reqIsle (c / 24)) (coreBearing x.fCur.toNat - coreBearing k) 0 else s

/-- STEP_LOWER (R132): one step of a lowering. -/
def execStepLower (c : Fin 288) (s : State) : Res :=
  if !s.coreFit c then .next s
  else
    let x := s.core c
    if !(x.fPending && decide (x.fReq.toNat < x.fCur.toNat) && x.isUp && s.stepMay c) then .next s
    else
      let s := s.stepTo c (x.fCur.toNat - 1)
      if (s.core c).fCur = (s.core c).fReq then .next (s.stepEnd c) else .next s

/-- A core follows its CAP (R132, R353): down at once, or up again toward REQ. -/
def State.followCap (s : State) (c : Nat) (r : BitVec 4) : State :=
  let x := s.core c
  let cap := s.coreCap c
  if x.st = .dry then s
  else if cap < x.fCur.toNat then (s.stepTo c cap).countStep c r
  else if x.fCur.toNat < min x.fReq.toNat cap && !x.fBlocked && !x.fPending then
    s.modCore c fun x => { x with fPending := true }
  else s

def State.followAll (s : State) (cs : List Nat) (r : BitVec 4) : State := cs.foldl (fun s c => s.followCap c r) s

/-- Cores whose CAP a limit that has just fallen to k has lowered note its refuser, and all follow (R131, R132). -/
def State.lowerAll (s : State) (cs : List Nat) (r : BitVec 4) (k : Nat) (others : Nat → Nat) : State :=
  cs.foldl (fun s c => (if k < others c then s.modCore c fun x => { x with capBy := r } else s).followCap c r) s

/-- CURRENT_CAP_CHECK (R353): one microsecond's measurement of the two pools. -/
def execCurrentCapCheck (core hub : BitVec 16) (s : State) : Res :=
  let l := { s.ledger with measCore := core, measHub := hub }
  let limit := l.limCore.toNat
  let all := List.range 288
  let above := decide (limit < core.toNat)
  let below := decide (100 * core.toNat < limit * 95)
  if above || (l.lowering && !below) then
    if 10 ≤ l.overUs + 1 then
      let s := { s with ledger := { l with lowering := true, overUs := 0, underUs := 0 } }
      if l.cap.toNat ≤ 12 then .next s
      else
        let cap := l.cap - 1
        let s := { s with ledger := { s.ledger with cap } }
        let s := s.recKey posUmf 0o010001 0 [rp core.toNat, rp cap.toNat]
        .next (s.lowerAll all 1 cap.toNat fun c => min (s.core c).fused.toNat (s.isle (c / 24)).thermal.toNat)
    else .next { s with ledger := { l with overUs := l.overUs + 1, underUs := 0 } }
  else if below then
    if 1000 ≤ l.underUs + 1 ∧ l.cap.toNat < 36 then
      let s := { s with ledger := { l with cap := l.cap + 1, lowering := false, overUs := 0, underUs := 0 } }
      .next (s.followAll all 1)
    else .next { s with ledger := { l with lowering := false, overUs := 0, underUs := min 1000 (l.underUs + 1) } }
  else .next { s with ledger := { l with overUs := 0, underUs := 0 } }

/-- The hottest of a list of points. -/
def hottest (pts : List (BitVec 16)) : BitVec 16 :=
  match pts with
  | [] => 0
  | p :: ps => ps.foldl (fun a b => if a.slt b then b else a) p

/-- Stores samples with their maxima, from index k. -/
def keepSamples (cur mx : Store (BitVec 16)) (k : Nat) (pts : List (BitVec 16)) : Store (BitVec 16) × Store (BitVec 16) :=
  pts.zipIdx.foldl (fun (a : Store (BitVec 16) × Store (BitVec 16)) (p : BitVec 16 × Nat) =>
    (sset 0 a.1 (k + p.2) p.1, if (sget 0 a.2 (k + p.2)).slt p.1 then sset 0 a.2 (k + p.2) p.1 else a.2)) (cur, mx)

/-- THERMAL_CAP (R385): the samples of the six points of an Isle, every 100 µs. -/
def execThermalCap (n : Fin 12) (pts : List (BitVec 16)) (s : State) : Res :=
  if !s.isleFit n then .next s
  else
    let pts := pts.take 6
    let x := s.isle n
    let (temps, tempMax) := keepSamples x.temps x.tempMax 0 pts
    let s := s.modIsle n fun x => { x with temps, tempMax }
    let hot := hottest pts
    let calm := decide (hot.toInt ≤ 1600 - 48)
    let cores := (List.range 24).map fun c => n.val * 24 + c
    if decide (1600 < hot.toInt) || (x.thLower && !calm) then
      let s := s.modIsle n fun x => { x with thLower := true, thSamples := 0 }
      if x.thermal.toNat ≤ 12 then .next s
      else
        let cap := x.thermal - 1
        let s := s.modIsle n fun x => { x with thermal := cap }
        let s := s.recKey posUmf 0o010002 n [hot.setWidth 72, rp cap.toNat]
        .next (s.lowerAll cores 3 cap.toNat fun c => min (s.core c).fused.toNat s.ledger.cap.toNat)
    else if calm then
      if 10 ≤ x.thSamples + 1 ∧ x.thermal.toNat < 36 then
        let s := s.modIsle n fun x => { x with thermal := x.thermal + 1, thLower := false, thSamples := 0 }
        .next (s.followAll cores 3)
      else .next (s.modIsle n fun x => { x with thLower := false, thSamples := min 10 (x.thSamples + 1) })
    else .next (s.modIsle n fun x => { x with thSamples := 0 })

/-! ### Wake conditions (R97, R361) -/

/-- A pending class of the current world has its ENA bit set in the bank of the level it targets (R97). -/
def State.waitMet (s : State) (t : Nat) : Bool :=
  let x := s.thread t
  let w := x.cur
  let p := s.ipend t x.vault
  (List.range 8).any fun k => p.getLsbD k && (w.bank (w.target k)).iena.getLsbD k

def State.wakes (s : State) (c : Nat) : Bool :=
  let m (t : Nat) : Bool := (s.thread t).mode != .stopped && s.waitMet t
  m (2 * c) || m (2 * c + 1)

/-! ### Lagoon (R347, R360) -/

/-- Channels enter self-refresh, their queued writes done. -/
def State.selfRefresh (s : State) : State :=
  (List.range 24).foldl (fun s c =>
    if (s.chan c).st = .run then
      ((s.drainAll c).release (reqChan c) 0 12).modChan c fun x => { x with st := .selfref }
    else s) s

/-- The HUB units of the channels in self-refresh, once they leave it (R352). -/
def State.refreshHub (s : State) : Nat := 12 * ((List.range 24).filter fun c => (s.chan c).st == .selfref).length

/-- Channels leave self-refresh, and what was not kept is zero (R279). -/
def State.leaveRefresh (s : State) : State :=
  (List.range 24).foldl (fun s c =>
    if (s.chan c).st = .selfref then
      let s := (s.claim (reqChan c) 0 12).1
      let x := s.chan c
      let s := if x.pasrSupp then s.fillEighths c (~~~x.keep) false else s
      s.modChan c fun x => { x with st := .run }
    else s) s

/-- Root-port links go down, and their blocks' bearing is released. -/
def State.rootsDown (s : State) : State :=
  let s := (List.range 12).foldl (fun s b => (s.release (reqBlock b) 0 (s.blockHub b + (s.block b).hold)).modBlock b fun y =>
    { y with hold := 0 }) s
  { s with ports := { s.ports with ports := smap ({} : Port) s.ports.ports fun _ p =>
      if p.role = 1 then { p with link := 0, width := 0, rate := 0, flit := false, cxlup := false, intx := 0 } else p } }

/-- LAGOON_ENTER (R360): every Isle in Run or Slack drains its cores, stops its requests and enters Neap, or none does. -/
def execLagoonEnter (s : State) : Res :=
  match s.beginning .package with
  | none => .next s
  | some q =>
    if q.target ≠ 2 ∨ s.pwr.lagoon then .next s
    else
      let up := (List.range 12).filter fun n => (s.isle n).st == .run || (s.isle n).st == .slack
      match s.refuserOf .package q with
      | some r => .next (s.refuseAct .package r)
      | none =>
        match up.findSome? fun n => s.refuserOf (.isle (Fin.ofNat 12 n)) { q with target := 2 } with
        | some r => .next (s.refuseAct .package r)
        | none =>
          if up.any fun n => !s.isleDrained n then .next s
          else if up.any fun n => !s.isleQuiet n then
            if s.pwr.stream.quiesce then .next (s.refuseAct .package 4)
            else .next (s.modStream .package fun x => { x with quiesce := true })
          else
          let s := up.foldl (fun s n => s.isleNeap n) s
          let s := (s.rootsDown).selfRefresh
          let s := s.release reqUmf 0 160
          let s := if s.harbour.st = .run then s.release reqHarbour 0 24 else s
          let entered := up.foldl (fun (b : BitVec 12) n => b ||| ((1 : BitVec 12) <<< n)) 0
          let s := { s with pwr := { s.pwr with lagoon := true, entered, wakeName := none, umfAwake := false } }
          .next ((s.modStream .package fun x => { x with saving := true }).recKey posUmf 0o010003 0 [])

/-- An Isle in Neap goes to Run, outside its request stream. -/
def State.wakeIsle (s : State) (n : Nat) : State :=
  match s.isleRaise n with
  | some s => s.modIsle n fun x => { x with wakeWait := false }
  | none =>
    (s.claim (reqIsle n) (s.raiseClaim (.isle (Fin.ofNat 12 n)) 0).1 0).1.modIsle n fun x => { x with wakeWait := true }

/-- Names the Isle and the source of a Lagoon exit; the first source counts (R364). -/
def State.lagoonWake (s : State) (n : Fin 12) (src : BitVec 6) : State :=
  if !s.pwr.lagoon || s.pwr.wakeName.isSome then s
  else { s with pwr := { s.pwr with wakeName := some n, wakesrc := src, umfAwake := true } }

/-- LAGOON_EXIT (R360): once a wake has come, or a request of Run for the package is active, which names no Isle. It waits
while the bearings of the base, of Harbour and of the channels do not fit (R351, R363). -/
def execLagoonExit (s : State) : Res :=
  let asked := match s.beginning .package with
    | some q => q.target == (0 : BitVec 2)
    | none => false
  if !s.pwr.lagoon || (s.pwr.wakeName.isNone && !asked) then .next s
  else
    let hub := (160 + if s.harbour.st = .run then 24 else 0) + s.refreshHub
    if !claimOk s.ledger 0 hub then .next (s.claim reqUmf 0 hub).1
    else
      let named := s.pwr.wakeName
      let s := (s.claim reqUmf 0 160).1
      let s := if s.harbour.st = .run then (s.claim reqHarbour 0 24).1 else s
      let s := s.leaveRefresh
      let s := { s with pwr := { s.pwr with
        lagoon := false, wakeName := none, umfAwake := true, wakesrc := if named.isNone then 0 else s.pwr.wakesrc } }
      let s := s.modStream .package fun x => if x.saving then x.done else x
      let s := s.recKey posUmf 0o010004 0 [rp s.pwr.wakesrc.toNat]
      match named with
      | some n => .next ((s.wakeIsle n).nextHeld .package)
      | none => .next (s.nextHeld .package)

/-! ### Waking (R363, R457) -/

/-- An active entry of a unit that has not yet saved is aborted by its wake (R358). -/
def State.abortEntry (s : State) (u : PUnit) : State :=
  let x := s.streamOf u
  match x.act with
  | some q =>
    if !x.waitT && !x.saving && decide (2 ≤ q.target.toNat) then (s.modStream u fun x => x.abort 4).nextHeld u else s
  | none => s

/-- A core in Neap, its Isle awake, goes to Run. -/
def State.wakeCore (s : State) (c : Nat) : State :=
  if (s.core c).st = .neap ∧ (s.isle (c / 24)).st ≠ .neap then
    match s.claim (reqIsle (c / 24)) (coreBearing (s.core c).fCur.toNat - 1) 0 with
    | (s, true) => s.coreRestore c
    | (s, false) => s
  else s

/-- WAKE (R361, R457): a unit whose wake condition holds; a Keystone block that Umfoent's access wakes (R363). -/
def execWake (u : PUnit) (s : State) : Res :=
  if !s.unitFit u then .next s
  else match u with
    | .core c =>
      if !s.wakes c then .next s
      else if s.pwr.lagoon then .next (s.lagoonWake (Fin.ofNat 12 (c.val / 24)) 1)
      else
        let s := s.abortEntry (.core c)
        match (s.core c).st with
        | .neap => .next ((s.wakeIsle (c.val / 24)).wakeCore c)
        | .slack => .next (s.modCore c fun x => { x with st := .run, slackReq := false })
        | .run | .dry => .next s
    | .isle n =>
      let met := (List.range 24).any fun c => s.wakes (n.val * 24 + c)
      if !met then .next s
      else if s.pwr.lagoon then .next (s.lagoonWake n 1)
      else
        let s := s.abortEntry (.isle n)
        if (s.isle n).st = .neap then
          let s := s.wakeIsle n
          .next ((List.range 24).foldl (fun s c => if s.wakes (n.val * 24 + c) then s.wakeCore (n.val * 24 + c) else s) s)
        else .next s
    | .block k => if s.blockDry k then .next (s.blockUp k).1 else .next s
    | .package =>
      match (List.finRange 12).find? fun n => (List.range 24).any fun c => s.wakes (n.val * 24 + c) with
      | some n => .next (s.lagoonWake n 1)
      | none => .next s

/-- The Isle that a port or SMBus wake names; 12 to 15 are reserved, so it is one of 12. -/
def State.namedIsle (s : State) : Fin 12 := Fin.ofNat 12 s.pwr.wakeIsle.toNat

/-- PORT_WAKE (R364): a land that the package itself drives is not sensed (R453). -/
def execPortWake (b : Fin 12) (s : State) : Res :=
  if s.pwr.wakePort.getLsbD b.val && !(s.block b).wakeOut then
    .next (s.lagoonWake s.namedIsle (BitVec.ofNat 6 (16 + b.val)))
  else .next s

/-- The SMBALERT land is driven low: an event of an SMBus mailbox is pending (R391), or the package is stopped or has met a
fatal loss (R429, R446). -/
def State.smbAlert (s : State) : Bool :=
  (s.umf.boxes.any fun b => b.2.path == 2 && (b.2.donePend || b.2.cplPend))
    || s.board.stopped.isSome || s.board.fatal.isSome

/-- SMBUS_ADDRESS_MATCH (R365, R452). Until step 2 ends the front end acknowledges nothing (R428). The Alert Response Address
is answered with the front end's own address while SMBALERT is driven (R391), in an octet's upper 7 bits (UNVERIFIED, log
entry 40). -/
def execSmbusAddressMatch (addr : BitVec 7) (s : State) : Res :=
  let own := 0x58 + s.board.smbAddr.toNat
  let up := decide (3 ≤ s.board.step ∨ s.board.stopped.isSome ∨ s.board.fatal.isSome)
  if addr.toNat = 0x0C && up && s.smbAlert then .next { s with umf := { s.umf with smbOut := [BitVec.ofNat 8 (2 * own)] } }
  else if addr.toNat = 0x58 + s.board.smbAddr.toNat && decide (3 ≤ s.board.step ∨ s.board.stopped.isSome ∨ s.board.fatal.isSome) then
    let s := { s with umf := { s.umf with sclHeld := true }, pwr := { s.pwr with umfAwake := true } }
    .next (if s.pwr.wakeSmb then s.lagoonWake s.namedIsle 2 else s)
  else .next s

end Sys2Proof.Machine
end

