-- ==== Sys2Proof/Machine/LighthouseOps.lean ====
section
/-! DEFINITION. Lighthouse time (R311 to R328): sets, slews, sources, captures, the copies in the Isles, alarms,
and what a set or a drifting copy does to launches that wait. -/

namespace Sys2Proof.Machine

/-! ### Launches that wait (R323, R326, R327) -/

/-- A thread's LAUNCH completes with a status (R326). -/
def Thread.launchEnd (x : Thread) (status : Nat) : Thread :=
  match x.mode with
  | .launch _ rd => ({ x with mode := .running }.setGr rd (BitVec.ofNat 72 status)).advance .ordinary
  | .stopped | .running | .waiting | .reseed | .bcast => x

/-- The T that a thread waits for. -/
def Thread.launchT (x : Thread) : Option Reg :=
  match x.mode with
  | .launch t _ => some t
  | .stopped | .running | .waiting | .reseed | .bcast => none

/-- LAUNCH of thread t completes with a status, and retires. -/
def State.launchEnd (s : State) (t status : Nat) : State :=
  let x := s.thread t
  match x.launchT with
  | some _ => (s.retired t x.vault x.priv []).modThread t fun x => x.launchEnd status
  | none => s

/-- Ends the power requests that wait for T and satisfy p with a result of R321. -/
def Stream.dropTimed (x : Stream) (p : PReq → Bool) (r : BitVec 3) : Stream :=
  match x.act with
  | some q => if x.waitT && p q then x.untimely r else x
  | none => x

/-- A unit's waiting request is dropped and the held one follows. -/
def State.dropTimed (s : State) (u : PUnit) (p : PReq → Bool) (r : BitVec 3) : State :=
  (s.modStream u fun x => x.dropTimed p r).nextHeld u

/-- Every unit with a request stream that this state lists. -/
def State.units (s : State) : List PUnit :=
  (skeys s.cores).map (fun c => PUnit.core (Fin.ofNat 288 c)) ++ (skeys s.isles).map (fun n => PUnit.isle (Fin.ofNat 12 n))
    ++ (List.finRange 13).map PUnit.block ++ [PUnit.package]

/-- T falls before an instant of the same epoch. -/
def isBefore (t now : Reg) : Bool := t.extractLsb' 64 8 == now.extractLsb' 64 8 && decide ((low64 t).toNat < (low64 now).toNat)

/-! ### The master (R312 to R316) -/

/-- The clock runs from the package reference (R312). -/
def Lighthouse.trimmed (l : Lighthouse) : Bool := !(l.src && l.reflock)

/-- One cycle of 8 quarter-nanoseconds: what the master gains, and the clock with its slew, trim remainder and place in the
microsecond moved on. A slew gains or loses one quarter-nanosecond in every microsecond (R315). -/
def Lighthouse.cycle (l : Lighthouse) : Nat × Lighthouse :=
  let us : Bool := decide (500 ≤ l.phase + 1)
  let d : Int := if !us || l.slew.toInt == 0 then 0 else if 0 < l.slew.toInt then 1 else -1
  let f : Int := l.frac + (if l.trimmed then l.rate.toInt * 8 else 0)
  let whole : Int := f / 1000000000
  ((8 + d + whole).toNat,
    { l with phase := if us then 0 else l.phase + 1, slew := l.slew - BitVec.ofInt 24 d, frac := f - whole * 1000000000 })

/-- Whether a requester may write the Lighthouse registers (R317). -/
def State.lhMay (s : State) (w : Who) : Bool := s.whoVault w || s.lh.courtwr

/-- Starts a set of COUNT value v (R316); the result is SETRES's: 0 started. -/
def State.setStart (s : State) (v : BitVec 64) : State × BitVec 3 :=
  if s.lh.setbusy || !s.lh.run then ({ s with lh := { s.lh with setres := 3 } }, 3)
  else if s.lh.epoch = 255 then ({ s with lh := { s.lh with setres := 2 } }, 2)
  else ({ s with lh := { s.lh with setbusy := true, applyAt := s.lh.count + 80000, applyVal := v } }, 0)

/-- A write of LH_CMD. -/
def State.lhCmd (s : State) (w : Who) (v : W36) : State × Resp :=
  if !s.lhMay w then (s, .world)
  else if hasBits v (bitsMask 35 2) || fld v 1 0 == 3 then (s, .rsvd)
  else match fld v 1 0 with
    | 1 => ((s.setStart (s.lh.sethi ++ s.lh.setlo)).1, .ok)
    | 2 => ({ s with lh := { s.lh with slew := 0 } }, .ok)
    | _ => (s, .ok)

/-- SET (R316). -/
def execSet (w : Who) (v : W36) (s : State) : Res := .next (s.lhCmd w ((v &&& ~~~3) ||| 1)).1

/-- CANCEL_SLEW (R315). -/
def execCancelSlew (w : Who) (v : W36) (s : State) : Res := .next (s.lhCmd w ((v &&& ~~~3) ||| 2)).1

/-- A write of LH_SLEW. -/
def State.lhSlewWrite (s : State) (w : Who) (v : W36) : State × Resp :=
  if !s.lhMay w then (s, .world)
  else if hasBits v (bitsMask 35 24) then (s, .rsvd)
  else if s.lh.run then ({ s with lh := { s.lh with slew := v.setWidth 24 } }, .ok) else (s, .ok)

/-- LH_SLEW_WRITE (R315). -/
def execLhSlewWrite (w : Who) (v : W36) (s : State) : Res := .next (s.lhSlewWrite w v).1

/-- A write of LH_CTL (R312). -/
def State.lhCtlWrite (s : State) (w : Who) (v : W36) : State × Resp :=
  if !s.lhMay w then (s, .world)
  else if hasBits v (bitsMask 35 8 ||| bitsMask 2 0) || fld v 6 5 == 3 then (s, .rsvd)
  else
    let refsel := BitVec.ofNat 2 (fld v 6 5)
    let keep := s.lh.reflock && bitOf v 4 && refsel == s.lh.refsel
    let courtwr := if whoUmf w then bitOf v 7 else s.lh.courtwr
    ({ s with lh := { s.lh with refsel, src := bitOf v 4, ppsen := bitOf v 3, reflock := keep, courtwr } }, .ok)

/-- LH_CTL_WRITE (R312). -/
def execLhCtlWrite (w : Who) (v : W36) (s : State) : Res := .next (s.lhCtlWrite w v).1

/-- LH_PPS_EDGE (R314): PPSSEEN tells of edges whether they capture or not (R344; DEDUCED, log entry 40). -/
def execLhPpsEdge (s : State) : Res :=
  if s.lh.ppsen then
    .next { s with lh := { s.lh with ppsSeq := s.lh.ppsSeq + 1, ppsCount := s.lh.count, ppsEpoch := s.lh.epoch, ppsseen := true } }
  else .next { s with lh := { s.lh with ppsseen := true } }

/-- PPS_TIMEOUT (R314). -/
def execPpsTimeout (s : State) : Res := .next { s with lh := { s.lh with ppsseen := false } }

/-- REF_LOST (R312): the loss of a lock that is held. -/
def execRefLost (s : State) : Res :=
  if s.lh.src && s.lh.reflock then
    .next ({ s with lh := { s.lh with reflock := false } }.recKey posLh 0o007001 0 [])
  else .next s

/-- REF_LOCKED (R312). -/
def execRefLocked (s : State) : Res :=
  if s.lh.src && !s.lh.reflock then
    .next ({ s with lh := { s.lh with reflock := true } }.recKey posLh 0o007002 0 [])
  else .next s

/-! ### The apply instant (R316, R323) -/

/-- Launches that have not fired are refused EPOCH; those due before the apply instant fire. -/
def State.setLaunches (s : State) (instant : Reg) : State :=
  let s := (skeys s.threads).foldl (fun (s : State) (t : Nat) =>
    match (s.thread t).launchT with
    | some r => s.launchEnd t (if isBefore r instant then 0 else 3)
    | none => s) s
  s.units.foldl (fun s u =>
    let x := s.streamOf u
    match x.act with
    | some q =>
      if !x.waitT then s
      else if isBefore q.t instant then (s.modStream u fun x => { x with waitT := false }).activate u { q with timed := false }
      else s.dropTimed u (fun _ => true) 6
    | none => s) s

/-! ### Copies (R318, R323) -/

/-- The copy of an Isle is set to the master with an offset; what its threads have read stays the least that they read. -/
def State.copySet (s : State) (n : Nat) (ofs : Int) : State :=
  s.modIsle n fun x => { x.keepLow s.lh.epoch with lhEpoch := s.lh.epoch, lhCount := s.lh.count + BitVec.ofInt 64 ofs }

/-- Launches of an Isle that depend on its copy are refused DRIFT. -/
def State.driftLaunches (s : State) (n : Nat) : State :=
  let s := (skeys s.threads).foldl (fun (s : State) (t : Nat) => if t / 48 = n then s.launchEnd t 4 else s) s
  s.units.foldl (fun s u => if unitIsle u = some n then s.dropTimed u (fun q => q.onCopy) 7 else s) s

/-- COPY_CORRECTION (R318): the offset of the copy as the Keystone measures it. -/
def execCopyCorrection (n : Fin 12) (ofs : BitVec 16) (s : State) : Res :=
  if !s.isleFit n then .next s
  else
    let x := s.isle n
    if !(x.lhSync && s.lh.run) then .next s
    else if 8 < ofsMag ofs then
      let s := s.copySet n ofs.toInt
      if x.lhDrift then .next s
      else
        let s := s.modIsle n fun x => { x with lhDrift := true }
        .next ((s.recKey posLh 0o007005 n [ofs.signExtend 72]).driftLaunches n)
    else if x.lhDrift then .next s
    else .next (s.copySet n 0)

/-- DRIFT_CLEARED (R318). -/
def execDriftCleared (n : Fin 12) (ofs : BitVec 16) (s : State) : Res :=
  if !s.isleFit n then .next s
  else if (s.isle n).lhDrift ∧ ofsMag ofs ≤ 4 then
    let s := (s.copySet n 0).modIsle n fun x => { x with lhDrift := false }
    .next ((s.modStrait n fun x => { x with lhofs := ofs }).recKey posLh 0o007006 n [ofs.signExtend 72])
  else .next s

/-! ### Alarms (R328) -/

/-- A reading is at or past another in the order of R311. -/
def atOrPast (now t : Reg) : Bool :=
  decide ((t.extractLsb' 64 8).toNat < (now.extractLsb' 64 8).toNat) ||
    (t.extractLsb' 64 8 == now.extractLsb' 64 8 && decide ((low64 t).toNat ≤ (low64 now).toNat))

/-- ALARM_FIRE (R328). -/
def execAlarmFire (t : Fin 576) (vault : Bool) (s : State) : Res :=
  if !s.threadFit t then .next s
  else
    let w := (s.thread t).wreg vault
    let n := t.val / 48
    if w.alctl.getLsbD 0 && (s.isle n).lhSync && atOrPast (s.copyNow n) w.alarm then
      .next (s.modThread t fun x => x.setWreg vault { w with alctl := (w.alctl &&& ~~~(1 : Reg)) ||| 0x10 })
    else .next s

/-- LAUNCH of thread t fires as the copy reaches T (R326). -/
def State.fireLaunch (s : State) (t : Nat) : State :=
  match (s.thread t).launchT with
  | some r => if reached (s.copyNow (t / 48)) r then s.launchEnd t 0 else s
  | none => s

/-- LAUNCH_FIRE (R326). -/
def execLaunchFire (t : Fin 576) (s : State) : Res := .next (if s.threadFit t then s.fireLaunch t else s)

end Sys2Proof.Machine
end

