-- ==== Sys2Proof/Machine/Access.lean ====
section
/-! DEFINITION. Whole accesses of requesters that hold no line (R169, R170): a line read or written at its home
or at a Cistern unit, the waking of what Umfoent reaches, and the mailbox buffers and endpoint events that several units
share. -/

namespace Sys2Proof.Machine

/-! ### Umfoent wakes what it reaches (R16, R363) -/

/-- Umfoent asks for an Isle in Dry to be brought to Run. -/
def State.umfRun (s : State) (n : Fin 12) : State :=
  if (s.isle n).stream.act.isSome then s else s.request (.isle n) { target := 0, timed := false, t := 0, vault := true }

/-- The state in which an access of a fitted Isle's block is made, and what the Isle answers first (R227); no answer
while Umfoent's access waits for the Isle to wake, or for the package to leave Lagoon (DESIGN CHOICE, log entry 64). -/
def State.isleGate (s : State) (w : Who) (n : Fin 12) : State × Option Resp :=
  let x := s.isle n
  if whoUmf w && (x.cond == .admitted || x.cond == .out) then
    if s.pwr.lagoon && (x.st == .neap || x.st == .dry) then (s, none)
    else if x.st = .neap then
      let s := s.wakeIsle n
      (s, if (s.isle n).st = .neap then none else some .ok)
    else if x.st = .dry then (s.umfRun n, none)
    else (s, some .ok)
  else (s, some (s.isleAnswer n (whoUmf w)))

/-- The same of Harbour and the port blocks: k = 0 is Harbour, k − 1 a port block. -/
def State.blockGate (s : State) (w : Who) (k : Fin 13) : State × Option Resp :=
  if s.blockDry k then
    if whoUmf w then
      match s.blockUp k with
      | (s, true) => (s, some .ok)
      | (s, false) => (s, none)
    else (s, some .dormant)
  else (s, some .ok)

/-! ### Line accesses -/

/-- A requester of the Keystone or a guest site: agent, tag, world, context, and whether it is Umfoent. -/
structure Asker where
  src : BitVec 4
  tag : BitVec 9
  vault : Bool
  ctx : BitVec 12 := 0
  umf : Bool := false
  deriving DecidableEq, Repr

/-- The answer that a completion carries. -/
def answerOf (m : Msg) : Resp × LineBits := (respOf m.resp, m.data)

/-- The power gate of a Cistern access: an Isle in Neap or Dry that Umfoent may reach is woken first (R16, R169). -/
def State.cisternGate (s : State) (n off : Nat) (vault umf : Bool) : State × Bool :=
  if umf && s.cisGate n off vault true == .ok then
    let r := s.isleGate .umfoent (Fin.ofNat 12 n)
    (r.1, r.2.isNone)
  else (s, false)

/-- Sends a request for a line and runs it to its completion. One that waits has no effect but the reads that it has out on
a port, and Umfoent's waking of an Isle (DESIGN CHOICE, log entry 6). -/
def State.askLine (s : State) (m : Msg) (umf : Bool := false) : State × Option (Resp × LineBits) :=
  match paClass (m.line.toNat * 64) with
  | .cistern n off =>
    let (s, waits) := s.cisternGate n off m.world umf
    if waits || s.held m then (s, none)
    else
      let s1 := s.cisternServe m umf
      let isDone (r : Msg) : Bool := r.ty == .cmp && r.dst == m.src && r.tag == m.tag && r.line == m.line
      match s1.replies.find? isDone with
      | some r => ({ s1 with replies := s1.replies.erase r }, some (answerOf r))
      | none => (s, none)
  | .control | .unmapped => (s, some (.absent, 0))
  | .dram | .window =>
    match s.uncached m with
    | (s1, some r) => (s1, some (answerOf r))
    | (s1, none) => (s.keepAsk s1 m.line, none)

def Asker.msg (a : Asker) (ty : MsgTy) (n : LineNo) : Msg :=
  { ty, src := a.src, dst := 15, tag := a.tag, line := n, world := a.vault, ctx := a.ctx }

/-- Reads a line; the mask names what the access covers, which only a Cistern unit looks at: all of the line for Harbour and
the ports (R169). -/
def State.lineRead (s : State) (a : Asker) (n : LineNo) (mask : BitVec 64) : State × Option (Resp × LineBits) :=
  match paClass (n.toNat * 64) with
  | .cistern _ _ => s.askLine { a.msg .rdn n with mask := if a.src = 15 ∧ !a.umf then BitVec.allOnes 64 else mask } a.umf
  | .dram | .window | .control | .unmapped => s.askLine (a.msg .rdn n)

/-- Writes the nonets of a mask: WRL for a whole line, else WRN. -/
def State.lineWrite (s : State) (a : Asker) (n : LineNo) (mask : BitVec 64) (d : LineBits) (poison : Bool) :
    State × Option (Resp × LineBits) :=
  if mask = BitVec.allOnes 64 then s.askLine { a.msg .wrl n with hasData := true, data := d, poison }
  else s.askLine { a.msg .wrn n with mask, hasData := true, data := d, poison }

/-! ### The endpoint of a block and its interrupt (R285, R305, R307) -/

/-- Drives INTA as STAT, EN, Interrupt Disable and the D-state say. -/
def Port.driveInta (x : Port) : Port :=
  let lvl := x.epStat &&& x.epEn != 0 && !x.intDis && x.dstate == 0
  if lvl = x.inta then x else { x with inta := lvl, tx := x.tx ++ [.intx lvl] }

/-- An event for the host of block b: bit 0 mailbox, 1 Harbour, 2 CXL mailbox. -/
def State.epEvent (s : State) (b bit : Nat) : State :=
  match s.epPort b with
  | none => s
  | some p => s.modPort p fun x =>
    let x := { x with epStat := x.epStat ||| ((1 : BitVec 3) <<< bit), pmeDue := x.pmeDue || x.dstate != 0 }
    x.driveInta

/-! ### Mailbox buffers (R387 to R391) -/

/-- REQ of word 0 is 1: a command is in progress. -/
def Mailbox.busy (x : Mailbox) : Bool := (sget 0 x.buf 0).getLsbD 31

/-- A word 0 with REQ = 1 starts the command; DONEPEND clears (R391). -/
def Mailbox.start (x : Mailbox) : Mailbox := if x.busy then { x with donePend := false } else x

/-- A control-space write of word k (R389). -/
def Mailbox.write (x : Mailbox) (k : Nat) (v : W36) : Mailbox :=
  if x.busy then x else { x with buf := sset 0 x.buf k v }.start

/-- Octet j of a buffer, loosely: nonet j of its 64. -/
def bufOctet (m : Store W36) (j : Nat) : Octet := (sget 0 m (j / 4)).extractLsb' (8 * (j % 4)) 8

/-- Stores octet j with its mark 0. -/
def bufSet (m : Store W36) (j : Nat) (v : Octet) : Store W36 :=
  smod 0 m (j / 4) fun w =>
    (w &&& ~~~((0xFF : W36) <<< (8 * (j % 4))) &&& ~~~((1 : W36) <<< (32 + j % 4))) ||| (v.setWidth 36 <<< (8 * (j % 4)))

/-- A loose write of octets from octet o; applied whole, then the command starts (R389). -/
def Mailbox.writeOctets (x : Mailbox) (o : Nat) (bs : List Octet) : Mailbox :=
  if x.busy then x
  else
    let buf := bs.zipIdx.foldl (fun (m : Store W36) (p : Octet × Nat) => if o + p.2 < 64 then bufSet m (o + p.2) p.1 else m) x.buf
    { x with buf }.start

/-- A loose read of k octets from octet o. -/
def Mailbox.readOctets (x : Mailbox) (o k : Nat) : List Octet :=
  (List.range k).map fun i => if o + i < 64 then bufOctet x.buf (o + i) else 0

/-- An event of mailbox m: DONE or CPL (R391). -/
def State.boxEvent (s : State) (m : Nat) (done : Bool) : State :=
  let s := s.modBox m fun x => if done then { x with donePend := true } else { x with cplPend := true }
  let x := s.box m
  if x.path = 3 then s.epEvent x.block.toNat 0 else s

/-- The endpoint mailbox of block b. -/
def State.epBox (s : State) (b : Nat) : Option Nat :=
  (List.range 16).find? fun m => (s.box m).path == 3 && decide ((s.box m).block.toNat = b)

end Sys2Proof.Machine
end

