-- ==== Sys2Proof/Machine/Rings.lean ====
section
/-! DEFINITION. Harbour's rings (R330 to R333, R336 to R343): enabling and doorbells, the checks of a
descriptor, records in submission order, and the events that abort descriptors. -/

namespace Sys2Proof.Machine

/-! ### Descriptors (R333 to R335) -/

def Desc.op (d : Desc) : Nat := (d.d0.extractLsb' 0 8).toNat
def Desc.timed (d : Desc) : Bool := d.d0.getLsbD 8
def Desc.strm (d : Desc) : Bool := d.d0.getLsbD 9
def Desc.fence (d : Desc) : Bool := d.d0.getLsbD 10
def Desc.hpack (d : Desc) : Bool := d.d0.getLsbD 16
def Desc.sspc (d : Desc) : Nat := (d.d0.extractLsb' 20 2).toNat
def Desc.dspc (d : Desc) : Nat := (d.d0.extractLsb' 22 2).toNat
def Desc.tag (d : Desc) : BitVec 32 := d.d0.extractLsb' 32 32
def Desc.len (d : Desc) : Nat := d.d3.toNat
/-- T of a timed descriptor. -/
def Desc.launch (d : Desc) : Reg := d.d7.extractLsb' 0 8 ++ d.d6

/-- A descriptor needs requests toward the host. -/
def Desc.host (d : Desc) : Bool := d.sspc == 1 || d.dspc == 1

/-- The value fields of a line's eight doubles. -/
def descOf (l : LineBits) : Desc :=
  let v (i : Nat) : BitVec 64 := (unitAt 8 l (8 * i)).extractLsb' 0 64
  { d0 := v 0, d1 := v 1, d2 := v 2, d3 := v 3, d4 := v 4, d5 := v 5, d6 := v 6, d7 := v 7 }

def zeroBits (x : BitVec 64) (hi lo : Nat) : Bool := decide (x.toNat / 2 ^ lo % 2 ^ (hi + 1 - lo) = 0)

/-- A reserved bit or encoding in a descriptor of a ring whose EPB is epb. -/
def Desc.reserved (d : Desc) (epb : BitVec 4) : Bool :=
  let op := d.op
  let usesSrc := op = 1 ∨ 3 ≤ op
  let usesDst := op = 1 ∨ op = 2 ∨ op = 3 ∨ op = 5 ∨ op = 6
  !(zeroBits d.d0 31 24 && zeroBits d.d0 19 17 && zeroBits d.d0 15 11)
    || decide (2 ≤ d.sspc) || decide (2 ≤ d.dspc) || op == 0 || decide (8 ≤ op)
    || decide (d.len = 0 ∨ 2 ^ 40 < d.len)
    || (decide usesSrc && d.sspc == 0 && !zeroBits d.d1 63 52)
    || (decide usesDst && d.dspc == 0 && !zeroBits d.d2 63 52)
    || (d.host && (!(op == 1 || (op == 4 && d.dspc == 0)) || epb == 0 || (d.sspc == 1 && d.dspc == 1)))
    || !(op == 2 || op == 4 || op == 7 || d.d4 == 0)
    || !(if op = 2 then zeroBits d.d5 63 8 else if op = 4 then zeroBits d.d5 63 1 else d.d5 == 0)
    || (if d.timed then !zeroBits d.d7 63 8 else !(d.d6 == 0 && d.d7 == 0))

/-- The shape rules of R334. -/
def Desc.badShape (d : Desc) : Bool :=
  let src := d.d1.toNat
  let dst := d.d2.toNat
  let len := d.len
  match d.op with
  | 1 =>
    if d.host then d.hpack && decide (len % 64 ≠ 0 ∨ (if d.sspc = 1 then dst else src) % 64 ≠ 0)
    else decide (src < dst + len ∧ dst < src + len)
  | 2 => decide (dst % 8 ≠ 0 ∨ len % 8 ≠ 0)
  | 4 => (if d.host then d.hpack else d.d5.getLsbD 0) && decide (len % 8 ≠ 0 ∨ (d.host = false ∧ src % 8 ≠ 0))
  | 5 => decide (dst % 64 ≠ 0)
  | 6 => decide (src % 64 ≠ 0)
  | 7 => !zeroBits d.d4 63 4
  | _ => false

/-- STATUS of a descriptor's own checks: 4 RSVD, 7 SHAPE. -/
def Desc.check (d : Desc) (epb : BitVec 4) : Option (BitVec 8) :=
  if d.reserved epb then some 4 else if d.badShape then some 7 else none

/-! ### Rings -/

def RingR.sqBase (r : RingR) : Nat := 2 ^ 36 * r.sqhi.toNat + r.sqlo.toNat * 64
def RingR.cqBase (r : RingR) : Nat := 2 ^ 36 * r.cqhi.toNat + r.cqlo.toNat * 64
def RingR.sqSlots (r : RingR) : Nat := 2 ^ r.sqsz.toNat
def RingR.cqSlots (r : RingR) : Nat := 2 ^ r.cqsz.toNat

/-- Pending descriptors. -/
def RingR.waiting (r : RingR) : Nat := (r.sqTail.toNat + r.sqSlots - r.sqHead.toNat) % r.sqSlots

/-- Descriptors in execution. -/
def RingR.inflight (r : RingR) : Nat := (r.works.filter fun w => w.res.isNone && !w.timed).length

/-- Sets the result of the work of a slot, if it has none. -/
def RingR.finish (r : RingR) (slot : BitVec 16) (st : BitVec 8) (v : BitVec 64) : RingR :=
  { r with works := r.works.map fun w => if w.slot = slot ∧ w.res.isNone then { w with timed := false, res := some (st, v) } else w }

/-- Removes a ring's descriptors from the timed table. -/
def State.dropTable (s : State) (r : Nat) : State :=
  { s with harbour := { s.harbour with table := s.harbour.table.filter fun j => j.ring.val != r } }

/-- The world that a write of RCTL.EN binds: the writer's; for Umfoent enabling an endpoint's ring, the port's. -/
def State.bindWorld (s : State) (w : Who) (epb : BitVec 4) : Bool :=
  if whoUmf w && epb != 0 then ((s.epPort (epb.toNat - 1)).map fun p => s.portVault p).getD true else s.whoVault w

/-- A ring is enabled: pointers 0, PHASE 1 (R331). -/
def RingR.enable (r : RingR) (world : Bool) : RingR :=
  { r with en := true, world, sqHead := 0, sqTail := 0, cqHead := 0, cqTail := 0, phase := true, cqUsed := 0
           st := .active, works := [], waitTable := false, again := none }

/-- A draining ring with nothing left is disabled, and enabled again where Umfoent is to (R342). -/
def RingR.settle (r : RingR) : RingR :=
  if r.st = .draining ∧ r.works.isEmpty then
    match r.again with
    | some v => r.enable v
    | none => { r with st := .disabled }
  else r

/-- A ring that is enabled, or drains, keeps its configuration; one that drains is not enabled before it is DISABLED, so that
what runs ends with records of its own (DESIGN CHOICE, log entry 34). -/
def RingR.locked (r : RingR) : Bool := r.en || r.st == .draining

/-- EN is cleared: running descriptors finish, timed and pending ones are dropped (R342). -/
def State.ringOff (s : State) (r : Nat) : State :=
  (s.dropTable r).modRing r fun x =>
    { x with en := false, st := .draining, sqTail := x.sqHead, waitTable := false
             works := x.works.filter fun w => !w.timed }.settle

/-- A write of HBR_RCTL (R331, R343). -/
def State.rctlWrite (s : State) (w : Who) (r : Nat) (v : W36) : State × Resp :=
  let x := s.ring r
  if x.en && s.whoVault w != x.world && !whoOwn w then (s, .world)
  else if hasBits v (bitsMask 35 33 ||| bitsMask 1 1) || decide (576 ≤ fld v 32 23)
      || (whoUmf w && decide (13 ≤ fld v 19 16)) then (s, .rsvd)
  else
    let x1 := { x with intthr := BitVec.ofNat 10 (fld v 32 23), intcls := BitVec.ofNat 3 (fld v 22 20), inten := bitOf v 2 }
    let x2 := if x.locked then x1 else { x1 with
      ctx := BitVec.ofNat 12 (fld v 15 4), epb := if whoUmf w then BitVec.ofNat 4 (fld v 19 16) else x.epb }
    let s := s.setRing r x2
    if bitOf v 0 && !x.locked then (s.setRing r (x2.enable (s.bindWorld w x2.epb)), .ok)
    else if !bitOf v 0 && x.en then (s.ringOff r, .ok)
    else (s, .ok)

/-! ### Doorbells (R332) -/

/-- How far a completion HEAD moves; with a full ring, HEAD brought to TAIL frees every slot. -/
def RingR.freed (x : RingR) (val : Nat) : Nat :=
  let d := (val + x.cqSlots - x.cqHead.toNat) % x.cqSlots
  if d = 0 ∧ x.cqUsed = x.cqSlots then x.cqSlots else d

/-- The first row of R332 that rejects a doorbell, 0 to 4. -/
def RingR.rejects (x : RingR) (ctx : BitVec 12) (viaEp : Option Nat) (kind val : Nat) : Option Nat :=
  let bad := match kind with
    | 0 => decide (x.sqSlots ≤ val)
    | 1 => decide (x.cqSlots ≤ val) || decide (x.cqUsed < x.freed val)
    | _ => decide (val ≠ 0)
  if x.epb = 0 ∧ ctx ≠ x.ctx then some 0
  else if !x.en then some 1
  else if kind = 3 then some 2
  else if bad then some 3
  else if x.epb ≠ 0 ∧ viaEp ≠ some (x.epb.toNat - 1) then some 4
  else none

/-- A doorbell write. -/
def State.doorbell (s : State) (w : Who) (r : Nat) (v : W36) : State × Resp :=
  let x := s.ring r
  if x.en && s.whoVault w != x.world && !whoOwn w then (s, .world)
  else if hasBits v (bitsMask 35 18) then (s, .rsvd)
  else
    let kind := fld v 17 16
    let val := fld v 15 0
    let via := match w with
      | .endpoint b => some b.val
      | .thread _ | .umfoent | .umfoentCourt | .smbus | .harbour _ _ | .guest _ | .port _ => none
    match x.rejects (s.whoCtx w) via kind val with
    | some k =>
      ({ s with harbour := { s.harbour with dbrej := s.harbour.dbrej + 1 } }.recKey 0 0o006001 0
        [rp r, v.setWidth 72, rp k] (s.whoVault w) (s.whoCtx w) (whoThread w), .ok)
    | none =>
      let y := match kind with
        | 0 => { x with sqTail := BitVec.ofNat 16 val }
        | 1 => { x with cqHead := BitVec.ofNat 16 val, cqUsed := x.cqUsed - x.freed val }
        | _ => if x.st = .paused then { x with st := .active } else x
      (s.setRing r y, .ok)

/-! ### Records (R336 to R339) -/

/-- The asker of ring r's accesses, by engine e (R329). -/
def RingR.asker (x : RingR) (e : Nat) : Asker := { src := 15, tag := BitVec.ofNat 9 e, vault := x.world, ctx := x.ctx }

/-- C0 of a record. -/
def recordHead (x : RingR) (w : Work) (st : BitVec 8) : BitVec 64 :=
  w.desc.tag ++ w.slot ++ (0 : BitVec 7) ++ BitVec.ofBool x.phase ++ st

/-- Counts a completion: HBR_MISSCNT and SND event 64. -/
def State.countDone (s : State) (x : RingR) (e : Nat) (st : BitVec 8) : State :=
  let s := s.sndKey 64 e x.world
  if st = 8 ∨ st = 11 then { s with harbour := { s.harbour with miss := s.harbour.miss + 1 } } else s

/-- Engine e waits for nothing of the host any more. -/
def State.engineForget (s : State) (e : Nat) (r : RingR) : State :=
  match if r.epb = 0 then none else s.epPort (r.epb.toNat - 1) with
  | some p => s.modPort p fun x => x.forget (.engine (Fin.ofNat 32 e))
  | none => s

/-- The engines that run descriptors of a ring leave them. -/
def State.dropJobs (s : State) (r : Nat) : State :=
  (List.range 32).foldl (fun s e =>
    match (s.engine e).job with
    | some j => if j.ring.val = r then (s.engineForget e (s.ring r)).modEngine e fun y => { y with job := none } else s
    | none => s) s

/-- Writes the record of a ring's first work when that has ended; the ring enters ERROR when it cannot (R338). -/
def State.recordFirst (s : State) (r e : Nat) : State × Bool :=
  let x := s.ring r
  match x.works with
  | [] => (s, false)
  | w :: ws =>
    match w.res with
    | none => (s, false)
    | some (st, v) =>
      let addr := x.cqBase + 16 * x.cqTail.toNat
      let o := addr % 64
      let d := setUnit 8 (setUnit 8 0 o ((recordHead x w st).setWidth 72)) (o + 8) (v.setWidth 72)
      match s.lineWrite (x.asker e) (BitVec.ofNat 46 (addr / 64)) (maskOf o 16) d false with
      | (s, none) => (s, false)
      | (s, some (.ok, _)) =>
        let wraps := decide (x.cqTail.toNat + 1 = x.cqSlots)
        let s := s.modRing r fun y => { y with
          works := ws, cqTail := if wraps then 0 else y.cqTail + 1, phase := if wraps then !y.phase else y.phase
          cqUsed := y.cqUsed + 1, last := if st = 0 then y.last else st }.settle
        let s := s.countDone x e st
        (if x.epb = 0 then s else s.epEvent (x.epb.toNat - 1) 1, true)
      | (s, some _) =>
        let s := (s.dropTable r).dropJobs r
        ((s.modRing r fun y => { y with works := [], st := .error }).recKey e 0o006002 0 [rp r, rp addr] x.world x.ctx, false)

/-- Writes every record that may be written now, in submission order. -/
def State.recordAll (s : State) (r e : Nat) : Nat → State
  | 0 => s
  | k + 1 =>
    match s.recordFirst r e with
    | (s, true) => s.recordAll r e k
    | (s, false) => s

/-- DESCRIPTOR_DONE (R337). -/
def execDescriptorDone (r : Fin 524288) (s : State) : Res := .next (s.recordAll r 0 ((s.ring r).works.length))

/-- Ends the job of an engine with a status, and frees the engine. -/
def State.jobEnd (s : State) (e : Nat) (st : BitVec 8) (v : BitVec 64) : State :=
  match (s.engine e).job with
  | none => s
  | some j =>
    let s := s.engineForget e (s.ring j.ring)
    (s.modRing j.ring.val fun x => x.finish j.slot st v).modEngine e fun x => { x with job := none }

/-- RESULT of a job that ends before its end: the units done so far (R334). -/
def Job.sofar (j : Job) : BitVec 64 :=
  if j.desc.op = 4 then (if j.pos = 0 then j.desc.d4 else j.acc)
  else BitVec.ofNat 64 (if j.desc.op = 6 then 72 * j.pos else j.pos)

/-! ### Aborts (R342) -/

/-- Rings assigned to the endpoint of block b, in ascending order. -/
def State.epRings (s : State) (b : Nat) : List Nat :=
  (s.harbour.rings.filter fun r => r.2.epb.toNat == b + 1).map (·.1)

/-- Ends with a status every started descriptor of an endpoint's rings that p selects. -/
def State.abortRings (s : State) (b : Nat) (st : BitVec 8) (p : Desc → Bool) : State :=
  let rs := s.epRings b
  let engines := smap ({} : Engine) s.harbour.engines fun _ e =>
    match e.job with
    | some j => if rs.contains j.ring.val && p j.desc then { e with job := none } else e
    | none => e
  let gone (j : Job) : Bool := rs.contains j.ring.val && p j.desc
  let result (r : Nat) (w : Work) : BitVec 64 :=
    ((s.harbour.engines.findSome? fun e => e.2.job.filter fun j => j.ring.val == r && j.slot == w.slot).map Job.sofar).getD 0
  let s := { s with harbour := { s.harbour with engines, table := s.harbour.table.filter fun j => !gone j } }
  let endOne (r : Nat) (w : Work) : Work :=
    if w.res.isNone && p w.desc then { w with timed := false, res := some (st, result r w) } else w
  rs.foldl (fun s r => s.modRing r fun x => { x with works := x.works.map (endOne r) }) s

/-- The rings of an endpoint are disabled and their pending descriptors gone; the records of what was aborted are written. -/
def State.disableRings (s : State) (b : Nat) : State :=
  (s.epRings b).foldl (fun s r =>
    let s := s.modRing r fun x =>
      { x with en := false, st := .draining, sqTail := x.sqHead, waitTable := false, again := none }.settle
    s.recordAll r 0 (s.ring r).works.length) s

/-- Umfoent enables the rings of an endpoint in the world that owns its port, each once it drains no more (R331, R378). -/
def State.enableRings (s : State) (b : Nat) : State :=
  let world := ((s.epPort b).map fun p => s.portVault p).getD false
  (s.epRings b).foldl (fun s r => s.modRing r fun x =>
    if x.st = .draining then { x with again := some world } else if x.en then x else x.enable world) s

/-- The rings of an endpoint are disabled, their pending descriptors gone, and enabled again by Umfoent with pointers 0, once
the records of what was aborted are written (R309, R342). -/
def State.resetRings (s : State) (b : Nat) : State :=
  let world := ((s.epPort b).map fun p => s.portVault p).getD false
  (s.epRings b).foldl (fun s r =>
    let s := s.modRing r fun x =>
      { x with en := false, st := .draining, sqTail := x.sqHead, waitTable := false
               again := if x.en then some world else x.again }.settle
    s.recordAll r 0 (s.ring r).works.length) s

end Sys2Proof.Machine
end

