-- ==== Sys2Proof/Machine/Ports.lean ====
section
/-! DEFINITION. Ports, and root ports (R281 to R300): training and loss of links, outbound requests and their completions,
inbound requests, interrupt messages and INTx. -/

namespace Sys2Proof.Machine

/-! ### Ports that exist, and their links (R282 to R286) -/

/-- Port p exists under its block's BOUND (R282). -/
def State.portMade (s : State) (p : Nat) : Bool := decide (p % 8 = 0) || (s.block (p / 8)).bound.getLsbD (p % 8 - 1)

/-- The port's width in lanes: up to the next starting granule, or the end of the block (R282). -/
def State.portWidth (s : State) (p : Nat) : Nat :=
  2 * (((List.range 8).find? fun i => i != 0 && (decide (8 ≤ p % 8 + i) || s.portMade (p + i))).getD 8)

/-- The ports that a BOUND makes: starting granule and granules (R282). -/
def portsOf (bound : BitVec 7) : List (Nat × Nat) :=
  let starts := (List.range 8).filter fun g => g == 0 || bound.getLsbD (g - 1)
  starts.map fun g => (g, ((starts.find? fun h => decide (g < h)).getD 8) - g)

/-- A configuration of a block that keeps R282 and R285. -/
def blockLegal (bound : BitVec 7) (roles cxl : BitVec 32) : Bool :=
  let ps := portsOf bound
  let role (g : Nat) : Nat := roles.toNat / 4 ^ g % 4
  (ps.all fun p => (p.2 == 1 || p.2 == 2 || p.2 == 4 || p.2 == 8) && p.1 % p.2 == 0 && role p.1 != 3
      && (!cxl.getLsbD p.1 || decide (4 ≤ p.2)))
    && decide ((ps.filter fun p => role p.1 == 2).length ≤ 1)

/-- The ROLE fields and CXL bits of a block's granules, packed as `blockLegal` takes them. -/
def State.blockRoles (s : State) (b : Nat) : BitVec 32 × BitVec 32 :=
  (BitVec.ofNat 32 ((List.range 8).foldl (fun a g => a + 4 ^ g * (s.port (8 * b + g)).role.toNat) 0),
    BitVec.ofNat 32 ((List.range 8).foldl (fun a g => a + 2 ^ g * (if (s.port (8 * b + g)).cxl then 1 else 0)) 0))

/-- HUB units of a port's link (R352). -/
def Port.hub (x : Port) : Nat := if x.link = 0 then 0 else linkBearing x.width.toNat (x.rate == 6)

/-- The link of a port goes down: its lanes release their bearing and the INTx levels fall (R286). -/
def State.linkDown (s : State) (p : Nat) (st : BitVec 3) : State :=
  (s.release (reqBlock (p / 8)) 0 (s.port p).hub).modPort p fun x =>
    { x with link := st, width := 0, rate := 0, flit := false, cxlup := false, intx := 0 }

/-! ### AER (R286, R295) -/

/-- Bits of the Uncorrectable Error Status register (PRESUMED, log entry 61). -/
def aerTimeout : Nat := 14
def aerAbort : Nat := 15
def aerMalformed : Nat := 18
def aerUnsupported : Nat := 20

/-- Reports an error through AER. -/
def State.aer (s : State) (p bit : Nat) : State :=
  s.modPort p fun x => { x with cfg := { x.cfg with aer := x.cfg.aer ||| (1 : BitVec 32) <<< bit } }

/-- The 32-bit value of 4 octets, lowest first. -/
def word32 (bs : List Octet) : BitVec 32 := bs.getD 3 0 ++ bs.getD 2 0 ++ bs.getD 1 0 ++ bs.getD 0 0

def octets32 (v : BitVec 32) : List Octet := (List.range 4).map fun i => v.extractLsb' (8 * i) 8

/-! ### Outbound requests (R291 to R295) -/

/-- Octets k at octet address a of a root port's own configuration space, at bus 0, device 0, function 0 of its segment
(R293): AER's status is modelled; of the other standard registers the spec gives no contents, so they read a free value and
ignore writes (UNVERIFIED, log entry 61). -/
def State.rootConfig (s : State) (p a k : Nat) (wr : Option (List Octet)) : State × List Octet :=
  let r := a % 4096
  let sel (bs : List Octet) : List Octet := (bs.drop (r % 4)).take k
  match wr with
  | some bs =>
    if r / 4 * 4 = 0x104 then
      let v := word32 (List.replicate (r % 4) 0 ++ bs)
      (s.modPort p fun x => { x with cfg := { x.cfg with aer := x.cfg.aer &&& ~~~v } }, [])
    else (s, [])
  | none =>
    if r / 4 * 4 = 0x104 then (s, sel (octets32 (s.port p).cfg.aer))
    else
      let f := s.takeFree
      (f.2, sel (octets32 (f.1.setWidth 32)))

/-- An access to an address of an outbound window that is not homed, by w: the answer, or none while a non-posted
request waits for its completion. A write holds its nonets at their places in the line, and is posted (R294). -/
def State.outbound (s : State) (w : Who) (pa : Nat) (sz : MUnit5) (wr : Option LineBits) :
    State × Option (Resp × LineBits) :=
  let k := unit5Nonets sz
  let pa := pa - pa % k
  match s.owinAt pa with
  | none => (s, some (.absent, 0))
  | some win =>
    let p := win.port.toNat
    let x := s.port p
    let vault := s.whoVault w
    let addr := win.bus + (pa - win.base)
    let a := BitVec.ofNat 64 addr
    if win.kind = 0 || win.kind = 3 || (win.kind == 2 && decide (4 < k)) then (s, some (.absent, 0))
    else if !vault && inVault s.worlds.regions pa then (s, some (.world, 0))
    else if !whoOwn w && s.winRefuses win vault then (s, some (.world, 0))
    else if (s.block (p / 8)).st = .dry then (s, some (.dormant, 0))
    else if win.kind = 2 ∧ addr / 2 ^ 20 % 256 = 0 then
      -- bus 0 holds the root port alone
      if addr / 2 ^ 12 % 256 ≠ 0 then (s, some (.absent, 0))
      else
        let r := s.rootConfig p addr k (wr.map fun d => (looseOut d (pa % 64) k).1)
        (r.1, some (.ok, looseIn 0 (pa % 64) r.2))
    else if !x.linkUp then (s, some (.absent, 0))
    else match wr with
      | some d =>
        let (s, bs) := s.looseSend p d (pa % 64) k
        (s.portSend p (.request 0 a (some bs) k) k, some (.ok, 0))
      | none =>
        match x.ansFor (.who w) a false with
        | some r => (s.modPort p fun x => { x with ans := x.ans.erase r }, some (respOf r.resp, looseIn 0 (pa % 64) r.data))
        | none => if x.asked (.who w) a false then (s, none) else (s.nonPosted p (.who w) addr k none, none)

/-- The agent, world and context that a requester's transactions carry (R32, R35, R170). -/
def State.askerOf (s : State) (w : Who) : Asker :=
  match w with
  | .thread t => { src := BitVec.ofNat 4 (t.val / 48), tag := BitVec.ofNat 9 (t.val % 48), vault := s.whoVault w, ctx := s.whoCtx w }
  | .guest g => { src := BitVec.ofNat 4 (12 + g.val), tag := 0, vault := s.whoVault w, ctx := 0 }
  | .harbour _ _ | .umfoent | .umfoentCourt | .smbus | .endpoint _ | .port _ =>
    { src := 15, tag := 0, vault := s.whoVault w, ctx := s.whoCtx w }

/-- The number of a requester among those of its agent (R18, R179). -/
def whoMember : Who → Nat
  | .thread t => t.val % 48
  | .harbour _ _ => 0
  | .endpoint b => 32 + b.val
  | .port p => 32 + p.val / 8
  | .guest _ => 0
  | .umfoent | .umfoentCourt | .smbus => 44

/-- One package access at an outbound window: a homed line goes through its home (R291). -/
def State.outOne (s : State) (r : OutReq) : State :=
  let n : LineNo := BitVec.ofNat 46 (r.pa.toNat / 64)
  if (s.cxlWin n).isSome then
    let k := unit5Nonets r.size
    let o := r.pa.toNat % 64 - r.pa.toNat % k
    match r.wr with
      | some d => (s.lineWrite (s.askerOf r.w) n (maskOf o k) d false).1
      | none => (s.lineRead (s.askerOf r.w) n (maskOf o k)).1
  else (s.outbound r.w r.pa.toNat r.size r.wr).1

/-- The port that an access leaves by. -/
def State.outPort (s : State) (r : OutReq) : Option Nat := (s.owinAt r.pa.toNat).map fun w => w.port.toNat

/-- Of accesses of one cycle, the one that enters its port's transmit queue first, under R17 by agent and R18 within one. -/
def State.outFirst (s : State) (p : Nat) (rs : List OutReq) : Option OutReq :=
  pickOne 16 (s.port p).txPtr.toNat (fun r => (s.askerOf r.w).src.toNat) (fun r => whoMember r.w) rs

/-- The accesses of one cycle, port by port in the order of R294. -/
def State.outAll (s : State) (rs : List OutReq) : Nat → State
  | 0 => s
  | k + 1 =>
    match rs with
    | [] => s
    | r :: more =>
      match s.outPort r with
      | none => (s.outOne r).outAll more k
      | some p =>
        match s.outFirst p (rs.filter fun q => s.outPort q == some p) with
        | some q =>
          let s := s.modPort p fun x => { x with txPtr := (s.askerOf q.w).src + 1 }
          (s.outOne q).outAll (rs.erase q) k
        | none => (s.outOne r).outAll more k

/-- OUTBOUND_REQUEST (R292, R294): package accesses of one cycle. -/
def execOutboundRequest (rs : List OutReq) (s : State) : Res := .next (s.outAll rs rs.length)

/-- An answer has come for what was asked of a port: the home of a CXL line takes it in; the others ask for theirs. -/
def State.cplHome (s : State) : PortSrc → State
  | .home n => s.cxlAnswer n
  | .who _ | .engine _ | .dropped => s

/-- An outstanding request of port p ends with a response and its octets. -/
def State.cplEnd (s : State) (p : Nat) (r : PortReq) (resp : Resp) (data : List Octet) : State :=
  (s.modPort p fun x => { x with
    out := x.out.erase r
    ans := if r.src = .dropped then x.ans else x.ans ++ [{ src := r.src, addr := r.addr, write := r.write, resp := resp.num, data }] }).cplHome r.src

/-- What a completion answers (R295). To an engine only poisoned data is POISON, and every other failure is HOSTERR, which
ABSENT stands for here (R338). -/
def cplResp (src : PortSrc) (st : CplStatus) : Resp :=
  match src, st with
  | _, .success => .ok
  | .engine _, .abort | .engine _, .unsupported => .absent
  | _, .unsupported => .absent
  | _, .abort | _, .poisoned => .poison

/-- What a completion that does not come answers. -/
def timeoutResp : PortSrc → Resp
  | .engine _ => .absent
  | .who _ | .home _ | .dropped => .poison

/-- PORT_COMPLETION (R295, R296, R308, R309). -/
def execPortCompletion (p : Fin 96) (tag : BitVec 14) (st : CplStatus) (data : List Octet) (s : State) : Res :=
  let x := s.port p
  let late (s : State) : State := s.modPort p fun x => { x with late := x.late + 1 }
  match x.out.find? fun r => r.tag == tag with
  | some r =>
    let resp := cplResp r.src st
    if resp == .ok && !r.write then
      .next ((s.sndKey 48 p (s.portVault p) r.octets).cplEnd p r .ok (data.take r.octets))
    else .next (s.cplEnd p r resp [])
  | none =>
    if x.dead.contains tag then .next ((late s).recKey (posPort (p.val / 8)) 0o005002 p [0, tag.setWidth 72] (s.portVault p))
    else if x.gone.contains tag then .next ((late s).modPort p fun x => { x with gone := x.gone.erase tag })
    else .next s

/-- World, context and thread of who asked. -/
def State.srcId (s : State) (p : Nat) : PortSrc → Bool × BitVec 12 × BitVec 10
  | .who w => (s.whoVault w, s.whoCtx w, whoThread w)
  | .engine e =>
    match (s.engine e).job with
    | some j => ((s.ring j.ring).world, (s.ring j.ring).ctx, 1023)
    | none => (s.portVault p, 0, 1023)
  | .home n =>
    match s.txn n with
    | some t => (t.req.world, t.req.ctx, 1023)
    | none => (s.portVault p, 0, 1023)
  | .dropped => (s.portVault p, 0, 1023)

/-- CPL_TIMEOUT (R295, R296). -/
def execCplTimeout (p : Fin 96) (tag : BitVec 14) (s : State) : Res :=
  match (s.port p).out.find? fun r => r.tag == tag with
  | none => .next s
  | some r =>
    let id := s.srcId p r.src
    let s := (s.modPort p fun x => { x with dead := x.dead ++ [tag] }).aer p aerTimeout
    .next ((s.recKey (posPort (p.val / 8)) 0o005001 p [r.addr.setWidth 72, tag.setWidth 72] id.1 id.2.1 id.2.2).cplEnd p r (timeoutResp r.src) [])

/-- TAG_REUSE_ALLOWED (R296). -/
def execTagReuseAllowed (p : Fin 96) (tag : BitVec 14) (s : State) : Res :=
  .next (s.modPort p fun x => { x with dead := x.dead.filter fun t => t != tag })

/-- Every outstanding request of a port is answered POISON, and its completion will be discarded (R378). -/
def State.portGiveUp (s : State) (p : Nat) : State :=
  let out := (s.port p).out
  let give (r : PortReq) : Option PortAns := match r.src with
    | .who _ | .home _ => some { src := r.src, addr := r.addr, write := r.write, resp := Resp.num .poison, data := [] }
    | .engine _ | .dropped => none
  let s := s.modPort p fun x => { x with ans := x.ans ++ x.out.filterMap give, gone := x.gone ++ x.out.map (·.tag), out := [] }
  out.foldl (fun s r => s.cplHome r.src) s

/-! ### Inbound requests (R297 to R300) -/

def Win.base (w : Win) : Nat := 2 ^ 36 * w.busHi.toNat + 4096 * w.busLo.toNat
def Win.len (w : Win) : Nat := 4096 * (w.size.toNat + 1)
def Win.target (w : Win) : Nat := 2 ^ 36 * w.tgtHi.toNat + 4096 * w.tgtLo.toNat

/-- The lowest-numbered enabled window of a space that contains a whole request. -/
def Port.winFor (x : Port) (space : BitVec 2) (addr len : Nat) : Option Win :=
  (x.wins.find? fun w => w.2.en && w.2.space == space
    && decide (w.2.base ≤ addr ∧ addr + len ≤ w.2.base + w.2.len)).map (·.2)

/-- The parts of a range between multiples of u: multiple, first in it, count, position in the range. -/
def partsOf (u pa len : Nat) : List (Nat × Nat × Nat × Nat) :=
  (List.range ((pa % u + len + (u - 1)) / u)).map fun i =>
    let l := pa / u + i
    let a := max pa (u * l)
    let e := min (pa + len) (u * (l + 1))
    (l, a % u, e - a, a - pa)

/-- The parts of a range of nonets, line by line: line, first nonet, count, position in the range. -/
def linesOf (pa len : Nat) : List (Nat × Nat × Nat × Nat) := partsOf 64 pa len

/-- A multi-line read: the response that ended it, the octets so far, and whether a line read POISON; no end while a line
waits, the state then as it was but for the reads out on ports. -/
abbrev Multi := State × Option (Resp × List Octet × Bool)

/-- Reads the parts of a range of lines one after another; pack makes the octets of a part. -/
def State.readLines (s0 : State) (a : Asker) (parts : List (Nat × Nat × Nat × Nat)) (k : Nat → Nat)
    (pack : State → LineBits → Nat → Nat → State × List Octet) : Multi :=
  parts.foldl (fun (r : Multi) (q : Nat × Nat × Nat × Nat) =>
    match r with
    | (s, some (.ok, bs, pz)) =>
      let n : LineNo := BitVec.ofNat 46 q.1
      (match s.lineRead a n (maskOf q.2.1 q.2.2.1) with
      | (s, none) => (s0.keepAsk s n, none)
      | (s, some (.ok, l)) =>
        let t := pack s l q.2.1 q.2.2.1
        (t.1, some (.ok, bs ++ t.2, pz))
      | (s, some (.poison, _)) => (s, some (.ok, bs ++ List.replicate (k q.2.2.1) 0, true))
      | (s, some (e, _)) => (s, some (e, bs, pz)))
    | r => r) (s0, some (.ok, [], false))

/-- Reads nonets pa to pa + len − 1 loosely for port p. -/
def State.readLoose (s : State) (a : Asker) (p pa len : Nat) : Multi :=
  s.readLines a (linesOf pa len) id fun s l o k => s.looseSend p l o k

/-- Reads k lines densely. -/
def State.readDense (s : State) (a : Asker) (pa k : Nat) : Multi :=
  s.readLines a (linesOf pa (64 * k)) (fun _ => 72) fun s l _ _ => (s, denseOut l)

/-- Writes a range of lines, part by part; give makes the line of a part from its place and octets. -/
def State.writeLines (s0 : State) (a : Asker) (parts : List (Nat × Nat × Nat × Nat)) (poison : Bool)
    (give : Nat × Nat × Nat × Nat → LineBits) : State × Option Resp :=
  parts.foldl (fun (r : State × Option Resp) (q : Nat × Nat × Nat × Nat) =>
    match r with
    | (s, some .ok) =>
      let n : LineNo := BitVec.ofNat 46 q.1
      (match s.lineWrite a n (maskOf q.2.1 q.2.2.1) (give q) poison with
      | (s, none) => (s0.keepAsk s n, none)
      | (s, some (e, _)) => (s, some e))
    | r => r) (s0, some .ok)

/-- Writes octets loosely from nonet pa on. -/
def State.writeLoose (s : State) (a : Asker) (pa : Nat) (bs : List Octet) (poison : Bool := false) : State × Option Resp :=
  s.writeLines a (linesOf pa bs.length) poison fun q => looseIn 0 q.2.1 ((bs.drop q.2.2.2).take q.2.2.1)

/-- Writes whole lines densely. -/
def State.writeDense (s : State) (a : Asker) (pa : Nat) (bs : List Octet) : State × Option Resp :=
  s.writeLines a (linesOf pa (64 * (bs.length / 72))) false fun q => denseIn ((bs.drop (72 * (q.2.2.2 / 64))).take 72)

/-- Sends the completions of a read of octets from an address: each ends at a multiple of the 512-octet Max Payload Size,
itself one of the 64-octet Read Completion Boundary (R286; the choice of the cuts: DESIGN CHOICE, log entry 61). -/
def State.sendCpl (s : State) (p addr : Nat) (bs : List Octet) (st : CplStatus) : State :=
  if bs = [] then s.portSend p (.completion [] st) 0
  else (partsOf 512 addr bs.length).foldl (fun s q =>
    s.portSend p (.completion ((bs.drop q.2.2.2).take q.2.2.1) st) q.2.2.1) s

/-- What a status means to AER at the completer. -/
def cplAer : CplStatus → Nat
  | .unsupported => aerUnsupported
  | .success | .abort | .poisoned => aerAbort

/-- A request that is refused: one that wants a completion is completed so, a posted write is reported through AER. -/
def State.refuseTlp (s : State) (p : Nat) (posted : Bool) (st : CplStatus) : State :=
  if posted then s.aer p (cplAer st) else s.portSend p (.completion [] st) 0

/-- What a response of the home means on the link. -/
def cplOf : Resp → CplStatus
  | .ok => .success | .absent => .unsupported | .poison => .poisoned | .dormant | .world | .rsvd => .abort

/-- A served request: the state, and whether it has ended. -/
abbrev Served := State × Bool

/-- Ends a read at a window, if it has ended: the octets are completed. -/
def State.endRead (p addr : Nat) : Multi → Served
  | (s, none) => (s, false)
  | (s, some (.ok, bs, pz)) => (s.sendCpl p addr bs (if pz then .poisoned else .success), true)
  | (s, some (e, _, _)) => (s.refuseTlp p false (cplOf e), true)

/-- Ends a write at a window, if it has ended: the octets received are counted. -/
def State.endWrite (p k : Nat) : State × Option Resp → Served
  | (s, none) => (s, false)
  | (s, some .ok) => (s.sndKey 48 p (s.portVault p) k, true)
  | (s, some e) => (s.refuseTlp p true (cplOf e), true)

/-- The asker of a port's accesses: agent 15 in the world of its owner (R285). -/
def State.portAsker (s : State) (p : Nat) : Asker :=
  { src := 15, tag := BitVec.ofNat 9 (128 + p), vault := s.portVault p }

/-- A request at the windows of a root port (R297, R298). -/
def State.atWindows (s : State) (p : Nat) (write : Bool) (addr len : Nat) (data : List Octet) : Served :=
  match (s.port p).winFor 0 addr len with
  | none => (s.refuseTlp p write .unsupported, true)
  | some w =>
    let o := addr - w.base
    let a := s.portAsker p
    if !(if write then w.wr else w.rd) then (s.refuseTlp p write .abort, true)
    else if w.pack then
      if o % 72 ≠ 0 ∨ len % 72 ≠ 0 then
        ((s.modPort p fun x => { x with packerr := x.packerr + 1 }).refuseTlp p write .abort, true)
      else
        let pa := w.target + 64 * (o / 72)
        if write then State.endWrite p len (s.writeDense a pa data) else State.endRead p addr (s.readDense a pa (len / 72))
    else if write then State.endWrite p len (s.writeLoose a (w.target + o) data)
    else State.endRead p addr (s.readLoose a p (w.target + o) len)

/-- The thread that an address of a 4-octet write names (R297). -/
def msgThread (addr : Nat) : Option Nat :=
  if 0xFEE00000 ≤ addr ∧ addr < 0xFEE00000 + 16 * 576 ∧ addr % 16 = 0 then some ((addr - 0xFEE00000) / 16) else none

/-- An Isle that takes interrupt messages: fitted and admitted. -/
def State.isleTakes (s : State) (n : Nat) : Bool := s.isleFit n && (s.isle n).cond == .admitted

/-- An interrupt message for thread t from port p (R297). -/
def State.intMessage (s : State) (p t : Nat) (data : BitVec 32) : State :=
  if 8 ≤ data.toNat ∨ !s.isleTakes (t / 48) then s.aer p aerUnsupported
  else
    let v := s.portVault p
    s.modThread t fun x => x.setWreg v { x.wreg v with msgPend := (x.wreg v).msgPend ||| clsBit (data.extractLsb' 0 3) }

/-- A memory request from below a root port (R286, R297): AtomicOps are not supported, and a write of more than the Max
Payload Size is malformed. -/
def State.serveMem (s : State) (p : Nat) (kind : TlpKind) (addr len : Nat) (data : List Octet) : Served :=
  match kind with
  | .atomic => (s.refuseTlp p false .unsupported, true)
  | .read => s.atWindows p false addr len []
  | .write =>
    if 512 < data.length then (s.aer p aerMalformed, true)
    else match if data.length = 4 then msgThread addr else none with
      | some t => ((s.sndKey 48 p (s.portVault p) 4).intMessage p t (word32 data), true)
      | none => s.atWindows p true addr data.length data

/-- INTX_MESSAGE (R300). -/
def execIntxMessage (p : Fin 96) (pin : Fin 4) (lvl : Bool) (s : State) : Res :=
  let x := s.port p
  if x.role ≠ 1 ∨ !x.linkUp then .next s
  else
    let bit : BitVec 4 := (1 : BitVec 4) <<< pin.val
    .next (s.modPort p fun x => { x with intx := if lvl then x.intx ||| bit else x.intx &&& ~~~bit })

end Sys2Proof.Machine
end

