-- ==== Sys2Proof/Machine/Endpoint.lean ====
section
/-! DEFINITION. The endpoint face (R286 to R288, R301 to R309): its configuration space, BARs, CXL device registers, Quay
table and lending range, the requests that reach a port from its other end, and the events and training of links. -/

namespace Sys2Proof.Machine

/-! ### The Quay table (R303, R304) -/

/-- A number as k octets, lowest first. -/
def octetsLe (k v : Nat) : List Octet := (List.range k).map fun i => BitVec.ofNat 8 (v / 256 ^ i)

/-- The number that octets give, lowest first. -/
def numLe (bs : List Octet) : Nat := bs.foldr (fun b n => b.toNat + 256 * n) 0

/-- CRC-32 of IEEE 802.3 of one octet more. -/
def crc32Octet (c : BitVec 32) (b : Octet) : BitVec 32 :=
  forN 8 (c ^^^ b.setWidth 32) fun _ c => if c.getLsbD 0 then (c >>> 1) ^^^ 0xEDB88320 else c >>> 1

def crc32 (bs : List Octet) : BitVec 32 := ~~~(bs.foldl crc32Octet 0xFFFFFFFF)

/-- An entry: TYPE, FLAGS, SPACE, offset, length, and what the type adds. -/
def quayEntry (ty flags space off len more : Nat) : List Octet :=
  octetsLe 1 ty ++ octetsLe 1 0 ++ octetsLe 2 flags ++ octetsLe 1 space ++ octetsLe 3 0 ++ octetsLe 8 off ++ octetsLe 8 len ++
    octetsLe 8 more

def Win.flags (w : Win) : Nat := (if w.rd then 1 else 0) + (if w.wr then 2 else 0) + 4

/-- The endpoint's enabled windows of a space, in window order. -/
def Port.spaceWins (x : Port) (space : BitVec 2) : List Win := (x.wins.filter fun w => w.2.en && w.2.space == space).map (·.2)

/-- The lending windows' entries, from device address a on. -/
def lendEntries : List Win → Nat → List (List Octet)
  | [], _ => []
  | w :: ws, a => quayEntry 1 w.flags 0 a w.len 0 :: lendEntries ws (a + w.len)

/-- The entries that describe what the endpoint port p of block b offers: lending windows, ring memory, the mailbox and the
doorbells, in the order of their types (DESIGN CHOICE, log entry 61). -/
def State.quayEntries (s : State) (b p : Nat) : List (List Octet) :=
  let x := s.port p
  let rings := s.epRings b
  let range := rings.headD 0 + 2 ^ 32 * rings.length
  lendEntries (x.spaceWins 1) 0 ++
    (x.spaceWins 2).map (fun w => quayEntry 2 w.flags 2 w.base w.len range) ++
    (match s.epBox b with | some m => [quayEntry 3 3 1 0x1000 0x40 m] | none => []) ++
    (if rings = [] then [] else [quayEntry 4 2 1 0x10000 (8 * rings.length) range])

/-- UMF_PKGINFO.VARIANT. -/
def Variant.num (v : Variant) : Nat := fld v.pkginfo 23 21

/-- The whole table of a generation. -/
def State.quayTable (s : State) (b p : Nat) (gen : BitVec 32) : List Octet :=
  let es := s.quayEntries b p
  let n := es.length
  let front := [0x51, 0x55, 0x41, 0x59] ++ octetsLe 2 0x0100 ++ octetsLe 2 32 ++ octetsLe 2 n ++ octetsLe 2 32 ++
    octetsLe 4 (32 + 32 * n) ++ octetsLe 1 p ++ octetsLe 1 s.variant.num ++ octetsLe 2 0 ++ octetsLe 4 gen.toNat
  let rest := octetsLe 4 0 ++ es.flatten
  front ++ octets32 (crc32 (front ++ octetsLe 4 0 ++ rest)) ++ rest

/-- Umfoent rebuilds the table of block b's endpoint port p. -/
def State.rebuildQuay (s : State) (b p : Nat) : State :=
  let gen := (s.port p).quayGen + 1
  let quay := s.quayTable b p gen
  s.modPort p fun x => { x with quayGen := gen, quay }

/-- Octet o of the expansion ROM. -/
def Port.romOctet (x : Port) (o : Nat) : Octet := x.quay.getD o 0

/-! ### Events at the endpoint (R307 to R309, R453) -/

/-- No request toward the host is left: completions of those outstanding will be discarded and counted (R308). -/
def Port.dropHost (x : Port) : Port := { x with gone := x.gone ++ x.out.map (·.tag), out := [], ans := [] }

/-- What a clear of Bus Master Enable stops (R308). -/
def State.hostStop (s : State) (b p : Nat) : State := (s.abortRings b 12 Desc.host).modPort p Port.dropHost

/-- Umfoent's mailbox of an endpoint returns to its reset values; its open handles complete unseen (R309). -/
def Mailbox.epReset (x : Mailbox) : Mailbox :=
  let give (h : Handle) : Handle := { h with drop := true }
  { path := x.path, block := x.block, handles := (x.handles.filter fun h => !h.queued).map give }

/-- The endpoint of block b after an FLR or a link-down: requests toward the host stop, the descriptors of its rings end, and
its configuration space, BARs, interrupt registers and mailbox are reset; the HDM decoders stay; the Quay table is rebuilt
(R309). The power-management context goes with the configuration space only in an FLR or a fundamental reset. -/
def State.epReset (s : State) (b : Nat) (pm : Bool) : State :=
  match s.epPort b with
  | none => s
  | some p =>
    let s := (s.modPort p Port.dropHost).abortRings b 13 fun _ => true
    let s := s.resetRings b
    let s := s.modPort p fun x => { x with intDis := true }.driveInta
    let s := s.modPort p fun x => { x with
      bme := false, flr := false, epStat := 0, epEn := 0, intDis := false, inta := false, cfg := {}, cbox := {}
      dstate := if pm then 0 else x.dstate, pmeEn := x.pmeEn && !pm, pmeDue := x.pmeDue && !pm }
    let s := match s.epBox b with
      | some m =>
        let s := s.modBox m Mailbox.epReset
        if s.umf.serving = some (Fin.ofNat 16 m) then { s with umf := { s.umf with serving := none } } else s
      | none => s
    s.rebuildQuay b p

/-- BUS_MASTER_ENABLE_CLEAR (R308). -/
def execBusMasterEnableClear (b : Fin 12) (s : State) : Res :=
  match s.epPort b with
  | none => .next s
  | some p => .next ((s.hostStop b p).modPort p fun x => { x with bme := false })

/-- Entry to D3hot (R305, R307, R342): what the clear of Bus Master Enable stops, the INTA level falls, and the rings that
have work to come pause. -/
def State.toD3hot (s : State) (b p : Nat) : State :=
  let s := (s.hostStop b p).modPort p fun x => { x with dstate := 1 }.driveInta
  (s.epRings b).foldl (fun s r => s.modRing r fun y => if y.st = .active then { y with st := .paused } else y) s

/-- D3HOT_ENTRY (R307). -/
def execD3hotEntry (b : Fin 12) (s : State) : Res :=
  match s.epPort b with
  | none => .next s
  | some p => if (s.port p).dstate ≠ 0 then .next s else .next (s.toD3hot b p)

/-- Return to D0 (R307): the level follows R305 again and the wake land is released. -/
def State.toD0 (s : State) (b p : Nat) : State :=
  (s.modPort p fun x => { x with dstate := 0, pmeDue := false }.driveInta).modBlock b fun y => { y with wakeOut := false }

/-- D0_RETURN (R307). -/
def execD0Return (b : Fin 12) (s : State) : Res :=
  match s.epPort b with
  | none => .next s
  | some p => .next (s.toD0 b p)

/-- FLR (R309). -/
def execFlr (b : Fin 12) (s : State) : Res :=
  match s.epPort b with
  | none => .next s
  | some p => if (s.port p).linkUp then .next (s.epReset b true) else .next s

/-- D3COLD_ENTRY (R307, R309, R453). -/
def execD3coldEntry (b : Fin 12) (s : State) : Res :=
  match s.epPort b with
  | none => .next s
  | some p =>
    let s := ((s.linkDown p 0).epReset b false).modPort p fun x => { x with dstate := 2 }
    let x := s.port p
    if x.pmeEn && x.pmeDue then
      .next ((s.modPort p fun x => { x with pmeDue := false }).modBlock b fun y => { y with wakeOut := true })
    else .next s

/-- PRT_PERST_ASSERT (R453). -/
def execPrtPerstAssert (b : Fin 12) (s : State) : Res :=
  match s.epPort b with
  | none => .next s
  | some p => .next (((s.linkDown p 0).epReset b true).modBlock b fun y => { y with perst := true })

/-- PME (R307): a message in D3hot, the wake land in D3cold. -/
def execPme (b : Fin 12) (s : State) : Res :=
  match s.epPort b with
  | none => .next s
  | some p =>
    let x := s.port p
    if !x.pmeEn || !x.pmeDue || x.dstate == 0 then .next s
    else
      let s := s.modPort p fun x => { x with pmeDue := false }
      if x.dstate = 1 then .next (s.portSend p .pme 0) else .next (s.modBlock b fun y => { y with wakeOut := true })

/-- SURPRISE_REMOVAL (R286): the link of a port goes down, contained under DPC. -/
def execSurpriseRemoval (p : Fin 96) (dpc : Bool) (s : State) : Res :=
  let x := s.port p
  if !x.linkUp then .next s
  else if x.role = 2 then .next ((s.linkDown p 0).epReset (p.val / 8) true)
  else .next (s.linkDown p (if dpc then 4 else 0))

/-! ### Interrupt registers (R305) -/

/-- The bits of PRT_EPINTSTAT that a host write of ones clears (R305). -/
def State.epStatWrite (s : State) (p : Nat) (v : BitVec 32) : State :=
  s.modPort p fun x => { x with epStat := x.epStat &&& ~~~(v.setWidth 3) }.driveInta

/-- PRT_EPINTSTAT_WRITE (R305): a write in BAR0, decoded as Memory Space Enable and the D-state say. -/
def execPrtEpintstatWrite (b : Fin 12) (v : BitVec 32) (s : State) : Res :=
  match s.epPort b with
  | none => .next s
  | some p =>
    let x := s.port p
    if x.linkUp && x.cfg.mse && x.dstate == 0 then .next (s.epStatWrite p v) else .next s

/-- INTERRUPT_DISABLE_WRITE (R305). -/
def execInterruptDisableWrite (b : Fin 12) (v : Bool) (s : State) : Res :=
  match s.epPort b with
  | none => .next s
  | some p => .next (s.modPort p fun x => { x with intDis := v }.driveInta)

/-! ### Configuration space (R286, R288, R305, R307; the standard places of its registers: PRESUMED, log entry 61) -/

/-- The class code (R288). -/
def Port.classCode (x : Port) : Nat := if x.cxlup then 0x050210 else 0x058000

/-- The Device ID (R288). -/
def Variant.deviceId : Variant → Nat
  | .ty2304 => 0x2304 | .ty1920 => 0x1920 | .ty1536 => 0x1536 | .ty1920g => 0x192A

/-- log2 of BAR2's size: it holds every SPACE 2 window, 256 MiB to 64 GiB (R301). -/
def Port.bar2Log (x : Port) : Nat :=
  let e := (x.spaceWins 2).foldl (fun a w => max a (w.base + w.len)) 0
  28 + (((List.range 9).find? fun i => decide (e ≤ 2 ^ (28 + i))).getD 8)

/-- The bits of a BAR that a host can set. -/
def barMask (log : Nat) : BitVec 64 := BitVec.ofNat 64 (2 ^ 64 - 2 ^ log)

def bitN (b : Bool) (k : Nat) : Nat := if b then 2 ^ k else 0

/-- The configuration word at octet o of the endpoint port p. -/
def State.cfgWord (s : State) (p o : Nat) : BitVec 32 :=
  let x := s.port p
  let c := x.cfg
  BitVec.ofNat 32 (match o with
    | 0x00 => s.variant.deviceId * 2 ^ 16 + Config.vendorId.toNat
    | 0x04 =>
      bitN c.mse 1 + bitN x.bme 2 + bitN x.intDis 10 + bitN (x.epStat &&& x.epEn != 0) 19 + bitN true 20
    | 0x08 => x.classCode * 2 ^ 8
    | 0x10 => c.bar0.toNat % 2 ^ 32 + 0x4
    | 0x14 => c.bar0.toNat / 2 ^ 32
    | 0x18 => c.bar2.toNat % 2 ^ 32 + 0xC
    | 0x1C => c.bar2.toNat / 2 ^ 32
    | 0x30 => c.rom.toNat
    | 0x34 => 0x40
    | 0x3C => c.irqLine.toNat + 2 ^ 8
    -- power management: PME from D3hot and D3cold
    | 0x40 => 0xC0035001
    | 0x44 => (if x.dstate = 0 then 0 else 3) + bitN x.pmeEn 8 + bitN x.pmeDue 15
    -- PCI Express: an endpoint with FLR and a Max Payload Size of 512 octets
    | 0x50 => 0x00020010
    | 0x54 => 0x10000022
    | 0x58 => c.devCtl.toNat
    | 0x60 => 2 ^ 16 * (x.rate.toNat + 16 * x.width.toNat)
    | 0x100 => 0x00020001
    | 0x104 => c.aer.toNat
    | _ => 0)

/-- A host write of the bits m of the configuration word at octet o. -/
def State.cfgWrite (s : State) (b : Fin 12) (p o : Nat) (v m : BitVec 32) : State :=
  let c := (s.port p).cfg
  let set (old : BitVec 32) : BitVec 32 := (old &&& ~~~m) ||| (v &&& m)
  let setC (f : EpCfg → EpCfg) : State := s.modPort p fun x => { x with cfg := f x.cfg }
  let half (a : BitVec 64) (hi : Bool) (log : Nat) : BitVec 64 :=
    (if hi then set (a.extractLsb' 32 32) ++ a.extractLsb' 0 32 else a.extractLsb' 32 32 ++ set (a.extractLsb' 0 32)) &&& barMask log
  match o with
  | 0x04 =>
    let n := set (s.cfgWord p 4)
    let s := s.modPort p fun x => { x with cfg := { x.cfg with mse := n.getLsbD 1 }, intDis := n.getLsbD 10 }.driveInta
    if n.getLsbD 2 then s.modPort p fun x => { x with bme := true }
    else if (s.port p).bme then (s.hostStop b p).modPort p fun x => { x with bme := false }
    else s
  | 0x10 => setC fun c => { c with bar0 := half c.bar0 false 20 }
  | 0x14 => setC fun c => { c with bar0 := half c.bar0 true 20 }
  | 0x18 => setC fun c => { c with bar2 := half c.bar2 false (s.port p).bar2Log }
  | 0x1C => setC fun c => { c with bar2 := half c.bar2 true (s.port p).bar2Log }
  | 0x30 => setC fun c => { c with rom := set c.rom &&& 0xFFFF0001 }
  | 0x3C => setC fun c => { c with irqLine := (set (c.irqLine.setWidth 32)).setWidth 8 }
  | 0x44 =>
    let n := set (s.cfgWord p 0x44 &&& 0xFFFF7FFF)
    let s := s.modPort p fun x => { x with pmeEn := n.getLsbD 8, pmeDue := x.pmeDue && !n.getLsbD 15 }
    let d := n.extractLsb' 0 2
    if d = 3 ∧ (s.port p).dstate = 0 then s.toD3hot b p
    else if d = 0 ∧ (s.port p).dstate = 1 then s.toD0 b p
    else s
  | 0x58 =>
    let n := set (c.devCtl.setWidth 32)
    let s := setC fun c => { c with devCtl := n.setWidth 16 &&& 0x7FFF }
    if n.getLsbD 15 then s.epReset b true else s
  | 0x104 => setC fun c => { c with aer := c.aer &&& ~~~(v &&& m) }
  | _ => s

/-! ### The CXL device registers (R287; the standard places of the registers: PRESUMED, log entry 61) -/

/-- Octets of lent memory: the capacity of the device. -/
def Port.lentSize (x : Port) : Nat := (x.spaceWins 1).foldl (fun a w => a + w.len) 0

/-- What a mailbox opcode answers: the return code, and the length of its output, of n octets of input. -/
def cxlAnswers (op : Nat) (size : Nat) : Nat × Nat :=
  match op with
  | 0x4000 => (0, 69)
  | 0x0400 => (0, 28)
  | 0x0401 => (0, size)
  | 0x4200 => (0, 18)
  | _ => (3, 0)

/-- Octet i of an opcode's output: the capacity of Identify in units of 256 MB; of the rest the spec gives no contents
(UNVERIFIED, log entry 14). -/
def Port.cxlOutput (x : Port) (op i : Nat) : Octet :=
  if op = 0x4000 ∧ 16 ≤ i ∧ i < 32 then (octetsLe 8 (x.lentSize / 2 ^ 28)).getD (i % 8) 0 else Config.cxlOutput op i

/-- The doorbell of the CXL mailbox: the command in its register runs to its end. -/
def Port.cxlRun (x : Port) : Port :=
  let c := x.cbox
  let op := c.cmd.toNat % 2 ^ 16
  let asked := numLe ((List.range 4).map fun i => sget 0 c.payload (20 + i))
  let r := cxlAnswers op (min asked 512)
  let out : Store Octet := forN r.2 [] fun i m => sset 0 m i (x.cxlOutput op i)
  { x with cbox := { c with cmd := BitVec.ofNat 64 (op + 2 ^ 16 * r.2), status := BitVec.ofNat 64 (2 ^ 32 * r.1)
                            payload := if r.1 = 0 then out else c.payload } }

/-- Octet o of the CXL device registers: the capability array, the status registers and the mailbox. -/
def Port.cxlOctet (x : Port) (o : Nat) : Octet :=
  let at8 (base v : Nat) : Octet := (octetsLe 8 v).getD (o - base) 0
  if o < 0x08 then at8 0 (2 ^ 16 + 2 ^ 24 + 3 * 2 ^ 32)
  else if 0x10 ≤ o ∧ o < 0x18 then at8 0x10 (1 + 2 ^ 16 + 0x80 * 2 ^ 32)
  else if 0x18 ≤ o ∧ o < 0x20 then at8 0x18 8
  else if 0x20 ≤ o ∧ o < 0x28 then at8 0x20 (2 + 2 ^ 16 + 0x100 * 2 ^ 32)
  else if 0x28 ≤ o ∧ o < 0x30 then at8 0x28 0x220
  else if 0x30 ≤ o ∧ o < 0x38 then at8 0x30 (0x4000 + 2 ^ 16 + 0x90 * 2 ^ 32)
  else if 0x38 ≤ o ∧ o < 0x40 then at8 0x38 8
  else if 0x90 ≤ o ∧ o < 0x98 then at8 0x90 0x14
  else if 0x100 ≤ o ∧ o < 0x108 then at8 0x100 (0x29 + (if x.cbox.irq then 2 ^ 33 else 0))
  else if 0x108 ≤ o ∧ o < 0x110 then at8 0x108 x.cbox.cmd.toNat
  else if 0x110 ≤ o ∧ o < 0x118 then at8 0x110 x.cbox.status.toNat
  else if 0x120 ≤ o ∧ o < 0x320 then sget 0 x.cbox.payload (o - 0x120)
  else 0

/-- One octet written to the CXL device registers; the doorbell comes last. -/
def CxlBox.put (c : CxlBox) (o : Nat) (v : Octet) : CxlBox :=
  if 0x108 ≤ o ∧ o < 0x110 then
    let k := 8 * (o - 0x108)
    { c with cmd := (c.cmd &&& ~~~((0xFF : BitVec 64) <<< k)) ||| (v.setWidth 64 <<< k) }
  else if 0x120 ≤ o ∧ o < 0x320 then { c with payload := sset 0 c.payload (o - 0x120) v }
  else if o = 0x104 then { c with irq := v.getLsbD 1 }
  else c

/-- A host write to the CXL device registers. A command that ends sets bit 2 of PRT_EPINTSTAT when the mailbox's interrupt is
enabled. -/
def State.cxlWriteRegs (s : State) (b p o : Nat) (bs : List Octet) : State :=
  let s := s.modPort p fun x => { x with
    cbox := bs.zipIdx.foldl (fun (c : CxlBox) (q : Octet × Nat) => c.put (o + q.2) q.1) x.cbox }
  if bs.zipIdx.any fun q => o + q.2 == 0x104 && q.1.getLsbD 0 then
    let s := s.modPort p Port.cxlRun
    if (s.port p).cbox.irq then s.epEvent b 2 else s
  else s

/-! ### The BARs (R301) -/

/-- Octet o of BAR0 as a host reads it. -/
def State.bar0Octet (s : State) (b p o : Nat) : Octet :=
  let x := s.port p
  if o < 0x1000 then x.cxlOctet o
  else if o < 0x1040 then
    match s.epBox b with
    | some m => bufOctet (s.box m).buf (o - 0x1000)
    | none => 0
  else if 0x1100 ≤ o ∧ o < 0x1104 then (octets32 (x.epStat.setWidth 32)).getD (o - 0x1100) 0
  else if 0x1104 ≤ o ∧ o < 0x1108 then (octets32 (x.epEn.setWidth 32)).getD (o - 0x1104) 0
  else 0

/-- A host write to BAR0: the mailbox and the CXL registers take any octets of their views; registers and doorbells take 4. -/
def State.bar0Write (s : State) (b : Fin 12) (p o : Nat) (bs : List Octet) : State :=
  let v := word32 bs
  if o < 0x1000 then s.cxlWriteRegs b p o bs
  else if o < 0x1040 then
    match s.epBox b with
    | some m => s.modBox m fun x => x.writeOctets (o - 0x1000) bs
    | none => s
  else if bs.length ≠ 4 then s
  else if o = 0x1100 then s.epStatWrite p v
  else if o = 0x1104 then s.modPort p fun x => { x with epEn := v.setWidth 3 }.driveInta
  else if 0x10000 ≤ o ∧ o % 8 = 0 then
    match (s.epRings b)[(o - 0x10000) / 8]? with
    | some r => (s.doorbell (.endpoint b) r (v.setWidth 36)).1
    | none => s
  else s

/-- A refused access of a host to lent or ring memory is recorded (R302). -/
def State.lendRefused (s : State) (p pa : Nat) (write : Bool) : State :=
  s.recKey (posPort (p / 8)) 0o005004 p [rp pa, rp (if write then 1 else 0)] (s.portVault p)

/-- A request to BAR2: the SPACE 2 windows (R302). -/
def State.bar2Serve (s : State) (p o : Nat) (wr : Option (List Octet)) (len : Nat) (poison : Bool) : Served :=
  match (s.port p).winFor 2 o len with
  | none => (s.refuseTlp p wr.isSome .unsupported, true)
  | some w =>
    let pa := w.target + (o - w.base)
    let a := s.portAsker p
    match wr with
    | some bs =>
      if !w.wr then (s.refuseTlp p true .abort, true)
      else match s.writeLoose a pa bs poison with
        | (s, some .world) => (s.lendRefused p pa true, true)
        | r => State.endWrite p bs.length r
    | none =>
      if !w.rd then (s.refuseTlp p false .abort, true)
      else match s.readLoose a p pa len with
        | (s, some (.world, _, _)) => ((s.lendRefused p pa false).portSend p (.completion [] .poisoned) 0, true)
        | r => State.endRead p o r

/-! ### The HDM decoders and the lending range (R287, R301, R302) -/

/-- The word of 8 octets at octet o of the decoders' registers: base, size and commit of decoder o div 32 (DESIGN CHOICE,
log entry 61). -/
def Port.hdmWord (x : Port) (o : Nat) : BitVec 64 :=
  let h := sget {} x.hdm (o / 32)
  if 64 ≤ o then 0
  else match o % 32 / 8 with
    | 0 => h.base
    | 1 => h.size
    | 2 => BitVec.ofNat 64 (if h.commit then 1 else 0)
    | _ => 0

/-- Commits a decoder whose base and size are whole capacity granules. -/
def Hdm.tryCommit (h : Hdm) : Hdm :=
  { h with commit := decide (h.base.toNat % 2 ^ 28 = 0 ∧ h.size.toNat % 2 ^ 28 = 0 ∧ h.size ≠ 0) }

/-- A host write of 8 octets to the decoders' registers; a committed decoder keeps its base and size. -/
def Port.hdmWrite (x : Port) (o : Nat) (v : BitVec 64) : Port :=
  let h := sget {} x.hdm (o / 32)
  if 64 ≤ o then x
  else
    let n : Hdm := match o % 32 / 8 with
      | 0 => if h.commit then h else { h with base := v }
      | 1 => if h.commit then h else { h with size := v }
      | 2 => if v.getLsbD 0 then (if h.commit then h else h.tryCommit) else { h with commit := false }
      | _ => h
    { x with hdm := sset {} x.hdm (o / 32) n }

/-- The device address of a host address: the committed decoders, one after another from device address 0. -/
def Port.hdmAddr (x : Port) (a : Nat) : Option Nat :=
  let part (i : Nat) : Nat := let h := sget {} x.hdm i; if h.commit then h.size.toNat else 0
  (List.range 2).findSome? fun i =>
    let h := sget {} x.hdm i
    if h.commit ∧ h.base.toNat ≤ a ∧ a < h.base.toNat + h.size.toNat then
      some (a - h.base.toNat + if i = 1 then part 0 else 0)
    else none

/-- The lending window and the target of a device address: the SPACE 1 windows one after another (R301). -/
def lendAt : List Win → Nat → Option (Win × Nat)
  | [], _ => none
  | w :: ws, a => if a < w.len then some (w, w.target + a) else lendAt ws (a - w.len)

/-- The lending window and the target of a host address. -/
def Port.lendFor (x : Port) (addr : Nat) : Option (Win × Nat) :=
  (x.hdmAddr (addr - addr % 64)).bind fun a => lendAt (x.spaceWins 1) a

/-- A line of CXL.mem of the host at the lending windows (R302, R307); a write's octets stand in its nonets' value bits. -/
def State.lendServe (s : State) (p addr : Nat) (wr : Option LineBits) (mask : BitVec 64) (poison : Bool) : Served :=
  let x := s.port p
  let give (s : State) (v : LineVal) : State :=
    (s.modPort p fun x => { x with lent := some v }).sndKey 49 p (s.portVault p) 64
  let fail (s : State) : State := if wr.isSome then s else give s poisonLine
  if !x.linkUp || !x.cxlup then (s, true)
  else if x.dstate ≠ 0 then (fail s, true)
  else match x.lendFor addr with
    | none => (fail s, true)
    | some (w, pa) =>
      let n : LineNo := BitVec.ofNat 46 (pa / 64)
      match wr with
      | some d =>
        if !w.wr then (s, true)
        else match s.lineWrite (s.portAsker p) n mask (dropMarks d).1 poison with
          | (s, none) => (s, false)
          | (s, some (.world, _)) => (s.lendRefused p pa true, true)
          | (s, some _) => (s.sndKey 48 p (s.portVault p) 64, true)
      | none =>
        if !w.rd then (fail s, true)
        else match s.lineRead (s.portAsker p) n (BitVec.allOnes 64) with
          | (s, none) => (s, false)
          | (s, some (.ok, l)) =>
            let r := dropMarks l
            (give (s.modPort p fun x => { x with markdrop := x.markdrop + BitVec.ofNat 32 r.2 }) { bits := r.1 }, true)
          | (s, some (.world, _)) => (fail (s.lendRefused p pa false), true)
          | (s, some _) => (fail s, true)

/-- A host request to a space of the endpoint function (R301, R307): configuration space in every D-state, memory spaces in
D0 with Memory Space Enable set. -/
def State.barServe (s : State) (b : Fin 12) (p : Nat) (space : HostSpace) (o : Nat) (wr : Option (List Octet)) (len : Nat)
    (poison : Bool) : Served :=
  let x := s.port p
  let reply (s : State) (f : Nat → Octet) : State := s.sendCpl p o ((List.range len).map fun i => f (o + i)) .success
  let refuse : Served := (s.refuseTlp p wr.isSome .unsupported, true)
  match space with
  | .config =>
    let at4 := o / 4 * 4
    (match wr with
    | some bs =>
      let v := word32 (List.replicate (o % 4) 0 ++ bs)
      let m := word32 (List.replicate (o % 4) 0 ++ List.replicate (min bs.length (4 - o % 4)) 0xFF)
      ((s.cfgWrite b p at4 v m).portSend p (.completion [] .success) 0, true)
    | none => (reply s fun i => (octets32 (s.cfgWord p (i / 4 * 4))).getD (i % 4) 0, true))
  | .bar0 =>
    if x.dstate ≠ 0 ∨ !x.cfg.mse ∨ 0x100000 ≤ o then refuse
    else (match wr with
      | some bs => ((s.sndKey 48 p (s.portVault p) bs.length).bar0Write b p o bs, true)
      | none => (reply s fun i => s.bar0Octet b p i, true))
  | .bar2 => if x.dstate ≠ 0 ∨ !x.cfg.mse then refuse else s.bar2Serve p o wr len poison
  | .rom =>
    if x.dstate ≠ 0 ∨ !x.cfg.mse ∨ !x.cfg.rom.getLsbD 0 ∨ 0x10000 ≤ o ∨ wr.isSome then refuse
    else (reply s fun i => x.romOctet i, true)
  | .hdm =>
    if x.dstate ≠ 0 ∨ !x.cfg.mse ∨ !x.cxlup then refuse
    else (match wr with
      | some bs => (s.modPort p fun x => x.hdmWrite o (BitVec.ofNat 64 (numLe (bs.take 8))), true)
      | none => (reply s fun i => (octetsLe 8 (x.hdmWord (i / 8 * 8)).toNat).getD (i % 8) 0, true))

/-! ### The requests from the other end of a port, in arrival order (R299, R306) -/

/-- Serves one request; those of a link or a role that is gone are dropped. -/
def State.serveIn (s : State) (p : Nat) (q : InReq) : Served :=
  let x := s.port p
  if !x.linkUp then (s, true)
  else match q with
    | .mem kind addr len data => if x.role = 1 then s.serveMem p kind addr len data else (s, true)
    | .bar space o wr len poison =>
      if s.epPort (p / 8) = some p then s.barServe (Fin.ofNat 12 (p / 8)) p space o wr len poison else (s, true)
    | .lend addr wr mask poison => if x.role = 2 then s.lendServe p addr wr mask poison else (s, true)

/-- Serves the waiting requests of port p, up to one that cannot end yet. -/
def State.drainIn (s : State) (p : Nat) : Nat → State
  | 0 => s
  | k + 1 =>
    match (s.port p).waits with
    | [] => s
    | q :: qs =>
      match s.serveIn p q with
      | (s, true) => (s.modPort p fun x => { x with waits := qs }).drainIn p k
      | (s, false) => s

/-- A request arrives at port p. -/
def State.inbound (s : State) (p : Nat) (q : InReq) : State :=
  let s := s.modPort p fun x => { x with waits := x.waits ++ [q] }
  s.drainIn p (s.port p).waits.length

/-- Every port serves what waits (DESIGN CHOICE, log entry 61: as the queue of commands is empty). -/
def State.drainPorts (s : State) : State :=
  (List.range 96).foldl (fun s p => s.drainIn p (s.port p).waits.length) s

/-- INBOUND_REQUEST (R298, R299). -/
def execInboundRequest (p : Fin 96) (kind : TlpKind) (addr : BitVec 64) (len : BitVec 13) (data : List Octet) (s : State) : Res :=
  let x := s.port p
  if x.role ≠ 1 ∨ !x.linkUp then .next s else .next (s.inbound p (.mem kind addr.toNat len.toNat data))

/-- INTERRUPT_MESSAGE (R297): a 4-octet write. -/
def execInterruptMessage (p : Fin 96) (addr : BitVec 64) (data : BitVec 32) (s : State) : Res :=
  let x := s.port p
  if x.role ≠ 1 ∨ !x.linkUp then .next s else .next (s.inbound p (.mem .write addr.toNat 4 (octets32 data)))

/-- HOST_BAR_REQUEST (R301, R302, R306, R307). -/
def execHostBarRequest (b : Fin 12) (space : HostSpace) (off : BitVec 40) (wr : Option (List Octet)) (len : BitVec 13)
    (poison : Bool) (s : State) : Res :=
  match s.epPort b with
  | none => .next s
  | some p =>
    if !(s.port p).linkUp then .next s
    else .next (s.inbound p (.bar space off.toNat wr (match wr with | some bs => bs.length | none => len.toNat) poison))

/-- LENDING_REQUEST (R302, R306, R307): a line of CXL.mem at a host address. -/
def execLendingRequest (b : Fin 12) (addr : BitVec 52) (wr : Option LineBits) (mask : BitVec 64) (poison : Bool) (s : State) :
    Res :=
  match s.epPort b with
  | none => .next s
  | some p => if (s.port p).linkUp then .next (s.inbound p (.lend addr.toNat wr mask poison)) else .next s

/-! ### Training (R284) -/

/-- PORT_LINK_TRAINING (R284, R286), once start-up has ended (R436); an endpoint's link that was up and does not come back is
a link-down (R309). Umfoent builds the Quay table before an endpoint's link trains from Down (R301). -/
def execPortLinkTraining (p : Fin 96) (res : LinkRes) (s : State) : Res :=
  let x := s.port p
  let b := p.val / 8
  if decide (s.board.step ≤ 8) || !s.portMade p || x.role == 0 || s.portLocked p || (s.block b).st == .dry then .next s
  else
    let now := if res.up then linkBearing res.width.toNat (res.rate == 6) else 0
    match s.blockClaim b (24 + (now - x.hub)) with
    | (s, false) => .next s
    | (s, true) =>
      let s := (s.release (reqBlock b) 0 ((s.block b).hold + x.hub - now)).modBlock b fun y =>
        { y with hold := 0, perst := y.perst && !(x.role == 2 && res.up), wakeOut := y.wakeOut && !(x.role == 2 && res.up) }
      let s := if x.role == 2 && !x.linkUp then s.rebuildQuay b p else s
      if res.up then
        let cxl := res.cxl && x.cxl && decide (8 ≤ s.portWidth p)
        .next (s.modPort p fun y => { y with
          link := 2, width := res.width, rate := res.rate, flit := res.flit, cxlup := cxl
          dstate := if x.linkUp then y.dstate else 0 })
      else
        let s := s.modPort p fun y => { y with link := 0, width := 0, rate := 0, flit := false, cxlup := false, intx := 0 }
        .next (if x.role == 2 && x.linkUp then s.epReset b true else s)

end Sys2Proof.Machine
end

