-- ==== Sys2Proof/Machine/HarbourRun.lean ====
section
/-! DEFINITION. Harbour's scheduling and operations (R333 to R335, R340, R341): engines take ready rings, run
descriptors line by line, and timed descriptors wait in the timed table. -/

namespace Sys2Proof.Machine

/-! ### Accesses of an engine (R329, R330, R335) -/

/-- Reads k nonets of one line; none while the line or the port makes the engine wait. -/
def State.engRead (s : State) (x : RingR) (e pa k : Nat) : State × Option (Resp × List Nonet) :=
  let o := pa % 64
  let n : LineNo := BitVec.ofNat 46 (pa / 64)
  let pick (l : LineBits) : List Nonet := (List.range k).map fun i => nonetAt l (o + i)
  let homed (s : State) : State × Option (Resp × List Nonet) :=
    match s.lineRead (x.asker e) n (maskOf o k) with
    | (s, some (r, l)) => (s, some (r, pick l))
    | (s, none) => (s, none)
  match paClass pa with
  | .control | .unmapped => (s, some (.absent, []))
  | .dram | .cistern _ _ => homed s
  | .window =>
    if (s.cxlWin n).isSome then homed s
    else match s.outbound (.harbour x.world x.ctx) (pa - o) .line none with
      | (s, some (r, l)) => (s, some (r, pick l))
      | (s, none) => (s, none)

/-- Writes nonets into one line. -/
def State.engWrite (s : State) (x : RingR) (e pa : Nat) (ns : List Nonet) : State × Option Resp :=
  let o := pa % 64
  let n : LineNo := BitVec.ofNat 46 (pa / 64)
  let d := ns.zipIdx.foldl (fun (l : LineBits) (p : Nonet × Nat) => setNonet l (o + p.2) p.1) 0
  let homed (s : State) : State × Option Resp :=
    match s.lineWrite (x.asker e) n (maskOf o ns.length) d false with
    | (s, some (r, _)) => (s, some r)
    | (s, none) => (s, none)
  match paClass pa with
  | .control | .unmapped => (s, some .absent)
  | .dram | .cistern _ _ => homed s
  | .window =>
    if (s.cxlWin n).isSome then homed s
    else
      let w : Who := .harbour x.world x.ctx
      let send (s : State) (a : Nat) (sz : MUnit5) : State × Option Resp :=
        let r := s.outbound w a sz (some d)
        (r.1, r.2.map (·.1))
      if ns.length = 64 then send s (pa - o) .line
      else (List.range ns.length).foldl (fun (r : State × Option Resp) i =>
        match r with
        | (s, some .ok) => send s (pa + i) .nonet
        | r => r) (s, some .ok)

/-- Reads k nonets from pa on, line by line, up to the first response that is not OK. -/
def State.engReads (s : State) (x : RingR) (e pa k : Nat) : State × Option (Resp × List Nonet) :=
  (linesOf pa k).foldl (fun (r : State × Option (Resp × List Nonet)) (q : Nat × Nat × Nat × Nat) =>
    match r with
    | (s, some (.ok, ns)) =>
      (match s.engRead x e (64 * q.1 + q.2.1) q.2.2.1 with
      | (s, some (a, m)) => (s, some (a, ns ++ m))
      | (s, none) => (s, none))
    | r => r) (s, some (.ok, []))

/-- Writes nonets from pa on, line by line: the response and how many were written. -/
def State.engWrites (s : State) (x : RingR) (e pa : Nat) (ns : List Nonet) : State × Option (Resp × Nat) :=
  (linesOf pa ns.length).foldl (fun (r : State × Option (Resp × Nat)) (q : Nat × Nat × Nat × Nat) =>
    match r with
    | (s, some (.ok, k)) =>
      (match s.engWrite x e (64 * q.1 + q.2.1) ((ns.drop q.2.2.2).take q.2.2.1) with
      | (s, some .ok) => (s, some (.ok, k + q.2.2.1))
      | (s, some a) => (s, some (a, k))
      | (s, none) => (s, none))
    | r => r) (s, some (.ok, 0))

/-! ### Running a descriptor (R334, R335) -/

/-- How one unit of an operation leaves it. -/
inductive Go where
  | more (s : State) (pos : Nat) (acc : BitVec 64)
  | done (s : State) (st : BitVec 8) (v : BitVec 64)
  | wait (s : State)
  deriving DecidableEq, Repr

def respSt (r : Resp) : BitVec 8 := r.num.setWidth 8

/-- What a host read gives: octets, a status that ends the descriptor, or nothing yet. -/
inductive HostGot where
  | octets (bs : List Octet)
  | ends (st : BitVec 8)
  | waits
  deriving DecidableEq, Repr

/-- Reads k octets of the host at an address through port p for engine e: the completion, or a non-posted request that waits
for it (R295, R338). -/
def State.hostRead (s : State) (e p : Nat) (a : BitVec 64) (k : Nat) : State × HostGot :=
  let src : PortSrc := .engine (Fin.ofNat 32 e)
  match (s.port p).ansFor src a false with
  | some r =>
    (s.modPort p fun x => { x with ans := x.ans.erase r },
      match respOf r.resp with
      | .ok => .octets ((List.range k).map fun i => r.data.getD i 0)
      | .poison => .ends 5
      | .absent | .dormant | .world | .rsvd => .ends 15)
  | none => if (s.port p).asked src a false then (s, .waits) else (s.nonPosted p src a.toNat k none, .waits)

/-- ECMA-182 CRC of one octet more (R334). -/
def crcOctet (c : BitVec 64) (b : Octet) : BitVec 64 :=
  forN 8 (c ^^^ (b.setWidth 64 <<< 56)) fun _ c => if c.getLsbD 63 then (c <<< 1) ^^^ 0x42F0E1EBA9EA3693 else c <<< 1

def ofLen (n : Nat) : BitVec 64 := BitVec.ofNat 64 n

/-- The nine octets of a double given as its nonets (R290). -/
def doubleOctets (ns : List Nonet) : List Octet :=
  let l := ns.zipIdx.foldl (fun (l : LineBits) (p : Nonet × Nat) => setNonet l p.2 p.1) 0
  (denseOut l).take (9 * (ns.length / 8))

def nonetsOf (l : LineBits) : List Nonet := (List.range 64).map (nonetAt l)

def lineOf (ns : List Nonet) : LineBits := ns.zipIdx.foldl (fun (l : LineBits) (p : Nonet × Nat) => setNonet l p.2 p.1) 0

/-- COPY within the package: up to the end of a destination line. -/
def State.copyStep (s : State) (x : RingR) (e : Nat) (d : Desc) (pos : Nat) : Go :=
  let da := d.d2.toNat + pos
  let k := min (64 - da % 64) (d.len - pos)
  match s.engReads x e (d.d1.toNat + pos) k with
  | (s, none) => .wait s
  | (s, some (.ok, ns)) =>
    (match s.engWrite x e da ns with
    | (s, none) => .wait s
    | (s, some .ok) => .more s (pos + k) 0
    | (s, some r) => .done s (respSt r) (ofLen pos))
  | (s, some (r, _)) => .done s (respSt r) (ofLen pos)

/-- COPY from the host. What was read is read again while the destination makes the engine wait. -/
def State.copyIn (s : State) (x : RingR) (e p : Nat) (d : Desc) (pos : Nat) : Go :=
  let da := d.d2.toNat + pos
  let k := if d.hpack then 64 else min (64 - da % 64) (d.len - pos)
  let o := if d.hpack then 72 * (pos / 64) else pos
  match s.hostRead e p (d.d1 + ofLen o) (if d.hpack then 72 else k) with
  | (s, .waits) => .wait s
  | (s, .ends st) => .done s st (ofLen pos)
  | (s1, .octets bs) =>
    let ns := if d.hpack then nonetsOf (denseIn bs) else bs.map fun b => b.setWidth 9
    match s1.engWrite x e da ns with
    | (s2, none) => .wait (s.keepAsk s2 (BitVec.ofNat 46 (da / 64)))
    | (s, some .ok) => .more s (pos + k) 0
    | (s, some r) => .done s (respSt r) (ofLen pos)

/-- COPY to the host: posted writes of a source line's octets. -/
def State.copyOut (s : State) (x : RingR) (e p : Nat) (d : Desc) (pos : Nat) : Go :=
  let sa := d.d1.toNat + pos
  let k := min (64 - sa % 64) (d.len - pos)
  match s.engRead x e sa k with
  | (s, none) => .wait s
  | (s, some (.ok, ns)) =>
    if d.hpack then
      .more (s.portSend p (.request 0 (d.d2 + ofLen (72 * (pos / 64))) (some (denseOut (lineOf ns))) 72) 72) (pos + k) 0
    else
      let (s, bs) := s.looseSend p (lineOf ns) 0 k
      .more (s.portSend p (.request 0 (d.d2 + ofLen pos) (some bs) k) k) (pos + k) 0
  | (s, some (r, _)) => .done s (respSt r) (ofLen pos)

/-- FILL: up to the end of a destination line. -/
def State.fillStep (s : State) (x : RingR) (e : Nat) (d : Desc) (pos : Nat) : Go :=
  let da := d.d2.toNat + pos
  let k := min (64 - da % 64) (d.len - pos)
  let v : Reg := d.d5.extractLsb' 0 8 ++ d.d4
  match s.engWrite x e da ((List.range k).map fun i => nonetOf 8 v (i % 8)) with
  | (s, none) => .wait s
  | (s, some .ok) => .more s (pos + k) 0
  | (s, some r) => .done s (respSt r) (ofLen pos)

/-- COMPARE: up to the end of a source line. -/
def State.compareStep (s : State) (x : RingR) (e : Nat) (d : Desc) (pos : Nat) : Go :=
  let sa := d.d1.toNat + pos
  let k := min (64 - sa % 64) (d.len - pos)
  match s.engRead x e sa k with
  | (s, none) => .wait s
  | (s, some (.ok, a)) =>
    (match s.engReads x e (d.d2.toNat + pos) k with
    | (s, none) => .wait s
    | (s, some (.ok, b)) =>
      (match (List.range k).find? fun i => a.getD i 0 != b.getD i 0 with
      | some i => .done s 6 (ofLen (pos + i))
      | none => .more s (pos + k) 0)
    | (s, some (r, _)) => .done s (respSt r) (ofLen pos))
  | (s, some (r, _)) => .done s (respSt r) (ofLen pos)

/-- CRC64 of up to the end of a source line, or of the host's octets. -/
def State.crcStep (s : State) (x : RingR) (e p : Nat) (d : Desc) (pos : Nat) (acc : BitVec 64) : Go :=
  if d.host then
    let k := min 64 (d.len - pos)
    let o (n : Nat) : Nat := if d.hpack then 9 * (n / 8) else n
    match s.hostRead e p (d.d1 + ofLen (o pos)) (o (pos + k) - o pos) with
    | (s, .waits) => .wait s
    | (s, .ends st) => .done s st acc
    | (s, .octets bs) => .more s (pos + k) (bs.foldl crcOctet acc)
  else
    let sa := d.d1.toNat + pos
    let k := min (64 - sa % 64) (d.len - pos)
    match s.engRead x e sa k with
    | (s, none) => .wait s
    | (s, some (.ok, ns)) =>
      let bs := if d.d5.getLsbD 0 then doubleOctets ns else ns.map fun v => v.setWidth 8
      .more s (pos + k) (bs.foldl crcOctet acc)
    | (s, some (r, _)) => .done s (respSt r) acc

/-- REPACK_D: one line. -/
def State.repackDStep (s : State) (x : RingR) (e : Nat) (d : Desc) (pos : Nat) : Go :=
  match s.engReads x e (d.d1.toNat + 72 * pos) 72 with
  | (s, none) => .wait s
  | (s, some (.ok, ns)) =>
    (match s.engWrite x e (d.d2.toNat + 64 * pos) (nonetsOf (denseIn (ns.map fun v => v.setWidth 8))) with
    | (s, none) => .wait s
    | (s, some .ok) => .more s (pos + 1) 0
    | (s, some r) => .done s (respSt r) (ofLen pos))
  | (s, some (r, _)) => .done s (respSt r) (ofLen pos)

/-- REPACK_L: one line. -/
def State.repackLStep (s : State) (x : RingR) (e : Nat) (d : Desc) (pos : Nat) : Go :=
  match s.engRead x e (d.d1.toNat + 64 * pos) 64 with
  | (s, none) => .wait s
  | (s, some (.ok, ns)) =>
    (match s.engWrites x e (d.d2.toNat + 72 * pos) ((denseOut (lineOf ns)).map fun b => b.setWidth 9) with
    | (s, none) => .wait s
    | (s, some (.ok, _)) => .more s (pos + 1) 0
    | (s, some (r, k)) => .done s (respSt r) (ofLen (72 * pos + k)))
  | (s, some (r, _)) => .done s (respSt r) (ofLen (72 * pos))

/-- PREFETCH: one line; the first checks the Isle. -/
def State.prefetchStep (s : State) (x : RingR) (e : Nat) (d : Desc) (pos : Nat) : Go :=
  let i := d.d4.toNat % 16
  let l := d.d1.toNat / 64 + pos
  let n : LineNo := BitVec.ofNat 46 l
  let y := s.isle i
  if !s.isleFit i then .done s 1 (ofLen pos)
  else if y.cond ≠ .admitted ∨ !(y.st == .run || y.st == .slack) then .done s 2 (ofLen pos)
  else if 2 ^ 46 ≤ l ∨ !s.coherent n then .done s 1 (ofLen pos)
  else
    let m : Msg := { ty := .pfh, src := 15, dst := BitVec.ofNat 4 i, tag := BitVec.ofNat 9 e, line := n
                     world := x.world, ctx := x.ctx, strm := d.strm }
    .more (s.send m) (pos + 1) 0

/-- Units that an operation counts its progress in. -/
def Desc.total (d : Desc) : Nat :=
  if d.op = 7 then (d.d1.toNat + d.len + 63) / 64 - d.d1.toNat / 64 else d.len

/-- RESULT of an operation that ran to its end. -/
def Desc.result (d : Desc) (acc : BitVec 64) : BitVec 64 :=
  if d.op = 4 then acc else if d.op = 6 then ofLen (72 * d.len) else ofLen d.total

/-- One unit of the descriptor of engine e; p is the endpoint of its ring. -/
def State.opStep (s : State) (x : RingR) (e : Nat) (d : Desc) (pos : Nat) (acc : BitVec 64) : Go :=
  let ep := s.epPort (x.epb.toNat - 1)
  if d.host && ((ep.map fun p => !(s.port p).bme || (s.port p).dstate != 0).getD true) then
    .done s 12 (if d.op = 4 then acc else ofLen pos)
  else
    let p := ep.getD 0
    match d.op with
    | 1 => if d.sspc = 1 then s.copyIn x e p d pos else if d.dspc = 1 then s.copyOut x e p d pos else s.copyStep x e d pos
    | 2 => s.fillStep x e d pos
    | 3 => s.compareStep x e d pos
    | 4 => s.crcStep x e p d pos acc
    | 5 => s.repackDStep x e d pos
    | 6 => s.repackLStep x e d pos
    | _ => s.prefetchStep x e d pos

/-- Runs the descriptor of engine e to its end, or until it waits: at most the fuel's units. -/
def State.opRun (s : State) (x : RingR) (e : Nat) (d : Desc) : Nat → Nat → BitVec 64 → State
  | 0, pos, acc => if d.total ≤ pos then s.jobEnd e 0 (d.result acc) else s
  | k + 1, pos, acc =>
    if d.total ≤ pos then s.jobEnd e 0 (d.result acc)
    else match s.opStep x e d pos acc with
      | .more s pos acc =>
        let keep (j : Job) : Job := { j with pos, acc }
        State.opRun (s.modEngine e fun y => { y with job := y.job.map keep }) x e d k pos acc
      | .done s st v => s.jobEnd e st v
      | .wait s => s

/-- A row of an operation: engine e runs its descriptor when that is of this OP. -/
def State.runOp (s : State) (e : Fin 32) (op : Nat) : Res :=
  let y := s.engine e
  match y.job with
  | some j =>
    if j.desc.op = op ∧ s.harbour.st = .run then
      .next (s.opRun (s.ring j.ring) e j.desc (j.desc.total - j.pos) j.pos (if j.pos = 0 then j.desc.d4 else j.acc))
    else .next s
  | none => .next s

/-- COPY (R334). -/
def execCopy (e : Fin 32) (s : State) : Res := s.runOp e 1
/-- FILL (R334). -/
def execFill (e : Fin 32) (s : State) : Res := s.runOp e 2
/-- COMPARE (R334). -/
def execCompare (e : Fin 32) (s : State) : Res := s.runOp e 3
/-- CRC64 (R334). -/
def execCrc64 (e : Fin 32) (s : State) : Res := s.runOp e 4
/-- REPACK_D (R334). -/
def execRepackD (e : Fin 32) (s : State) : Res := s.runOp e 5
/-- REPACK_L (R334). -/
def execRepackL (e : Fin 32) (s : State) : Res := s.runOp e 6
/-- PREFETCH (R334). -/
def execPrefetch (e : Fin 32) (s : State) : Res := s.runOp e 7

/-! ### Scheduling (R340) -/

/-- The numbers of a rising list in the order of R17 from a pointer. -/
def r17Order (ptr n : Nat) (rs : List Nat) : List Nat :=
  (rs.filter fun r => decide (ptr % n ≤ r)) ++ rs.filter fun r => decide (r < ptr % n)

/-- Every condition of readiness but those that the descriptor itself sets. -/
def RingR.mayStart (x : RingR) : Bool :=
  x.st == .active && decide (x.waiting ≠ 0) && decide (x.inflight < 4) && decide (x.cqUsed + x.works.length < x.cqSlots)
    && !(x.works.any fun w => w.timed && w.res.isNone)

/-- The ring's HEAD moves past the descriptor that starts. -/
def RingR.take (x : RingR) (w : Work) : RingR :=
  { x with works := x.works ++ [w], waitTable := false
           sqHead := if x.sqHead.toNat + 1 = x.sqSlots then 0 else x.sqHead + 1 }

/-- Reads the descriptor at a ring's HEAD. -/
def State.readDesc (s : State) (r e : Nat) : State × Option (Resp × Desc) :=
  let x := s.ring r
  match s.engRead x e (x.sqBase + 64 * x.sqHead.toNat) 64 with
  | (s, some (a, ns)) => (s, some (a, descOf (lineOf ns)))
  | (s, none) => (s, none)

/-- A grant to ring r moves its world's pointer on. -/
def State.ringGranted (s : State) (r : Nat) (vault : Bool) : State :=
  let p := (r + 1) % 524288
  { s with harbour := if vault then { s.harbour with ptrV := p } else { s.harbour with ptrC := p } }

/-- Tries rings one after another for free engine e, up to the first that is ready: its descriptor starts, or ends at once
with the status of its check. A descriptor that cannot be read yet, is timed, or is held by FENCE makes its ring not ready. -/
def State.engineTakes (s : State) (e : Nat) (vault : Bool) : List Nat → State
  | [] => s
  | r :: rs =>
    let x := s.ring r
    match s.readDesc r e with
    | (s, none) => s.engineTakes e vault rs
    | (s, some (.ok, d)) =>
      if d.timed || (d.fence && !x.works.isEmpty) then s.engineTakes e vault rs
      else
        let ended (st : BitVec 8) : State := s.modRing r fun x => x.take { slot := x.sqHead, desc := d, timed := false, res := some (st, 0) }
        (match d.check x.epb with
        | some st => (ended st).ringGranted r vault
        | none =>
          let dead := d.host && (((s.epPort (x.epb.toNat - 1)).map fun p => !(s.port p).bme || (s.port p).dstate != 0).getD true)
          if dead then (ended 12).ringGranted r vault
          else
            let s := s.modEngine e fun y => { y with job := some { ring := Fin.ofNat 524288 r, slot := x.sqHead, desc := d } }
            (s.modRing r fun x => x.take { slot := x.sqHead, desc := d, timed := false }).ringGranted r vault)
    | (s, some (a, _)) =>
      (s.modRing r fun x => x.take { slot := x.sqHead, desc := {}, timed := false, res := some (respSt a, 0) }).ringGranted r vault

/-- The rings of a world that may start a descriptor, in R17 order. -/
def State.readyRings (s : State) (vault : Bool) : List Nat :=
  r17Order (if vault then s.harbour.ptrV else s.harbour.ptrC) 524288
    ((s.harbour.rings.filter fun r => r.2.world == vault && r.2.mayStart).map (·.1))

/-- A free engine of a world. -/
def State.engineFree (s : State) (e : Nat) (vault timed : Bool) : Bool :=
  let y := s.engine e
  y.world == vault && y.timed == timed && y.job.isNone && !y.locked

/-- HARBOUR_SCHEDULE (R340). -/
def execHarbourSchedule (s : State) : Res :=
  if s.harbour.st ≠ .run then .next s
  else .next ((List.range 32).foldl (fun s e =>
    let v := (s.engine e).world
    if s.engineFree e v false then s.engineTakes e v (s.readyRings v) else s) s)

/-! ### Timed descriptors (R321, R341) -/

/-- STATUS of a refusal of R321: PAST, FAR, EPOCH. -/
def timedRefusal (c : BitVec 3) : BitVec 8 := c.setWidth 8 + 4

/-- TIMED_ACCEPT (R341). -/
def execTimedAccept (r : Fin 524288) (s : State) : Res :=
  let x := s.ring r
  if !x.mayStart || s.harbour.st != .run then .next s
  else match s.readDesc r 0 with
    | (s, none) => .next s
    | (s, some (.ok, d)) =>
      if !d.timed || (d.fence && !x.works.isEmpty) then .next s
      else
        let ended (st : BitVec 8) : Res := .next (s.modRing r fun x => x.take { slot := x.sqHead, desc := d, timed := false, res := some (st, 0) })
        (match d.check x.epb with
        | some st => ended st
        | none => match launchCheck s.masterNow d.launch 2000 false with
          | some c => ended (timedRefusal c)
          | none =>
            if 4096 ≤ s.harbour.table.length then .next (s.modRing r fun x => { x with waitTable := true })
            else
              let j : Job := { ring := r, slot := x.sqHead, desc := d }
              let s := { s with harbour := { s.harbour with table := s.harbour.table ++ [j] } }
              .next (s.modRing r fun x => x.take { slot := x.sqHead, desc := d, timed := true }))
    | (s, some (a, _)) =>
      .next (s.modRing r fun x => x.take { slot := x.sqHead, desc := {}, timed := false, res := some (respSt a, 0) })

/-- TIMED_LEAD_EXPIRED (R341): a descriptor that waits for a full table completes PAST. -/
def execTimedLeadExpired (r : Fin 524288) (s : State) : Res :=
  let x := s.ring r
  if !x.waitTable || !x.mayStart then .next s
  else match s.readDesc r 0 with
    | (s, some (.ok, d)) =>
      if d.timed && launchCheck s.masterNow d.launch 2000 false == some 4 then
        .next (s.modRing r fun x => x.take { slot := x.sqHead, desc := d, timed := false, res := some (8, 0) })
      else .next s
    | (s, _) => .next s

/-- One due descriptor: the lowest-numbered free timed engine of its world takes it, or NOENGINE. -/
def State.startDue (s : State) (vault : Bool) (j : Job) : State :=
  let s := { s with harbour := { s.harbour with table := s.harbour.table.erase j } }
  match (List.range 32).find? fun e => s.engineFree e vault true with
  | some e =>
    let p := (j.ring.val + 1) % 524288
    let s := { s with harbour := if vault then { s.harbour with tptrV := p } else { s.harbour with tptrC := p } }
    let start (w : Work) : Work := if w.slot = j.slot ∧ w.timed then { w with timed := false } else w
    (s.modEngine e fun y => { y with job := some j }).modRing j.ring.val fun x => { x with works := x.works.map start }
  | none => s.modRing j.ring.val fun x => x.finish j.slot 11 0

/-- The descriptors of a world's timed table that p selects start in the order of R17 by ring. -/
def State.startTable (s : State) (vault : Bool) (p : Job → Bool) : State :=
  let due := s.harbour.table.filter fun j => (s.ring j.ring).world == vault && p j
  let ptr := if vault then s.harbour.tptrV else s.harbour.tptrC
  let ord := (r17Order ptr 524288 (skeys s.harbour.rings)).flatMap fun r => due.filter fun j => j.ring.val == r
  ord.foldl (fun s j => s.startDue vault j) s

/-- TIMED_DESCRIPTOR_DUE (R341). -/
def execTimedDescriptorDue (vault : Bool) (s : State) : Res :=
  .next (s.startTable vault fun j => reached s.masterNow j.desc.launch)

end Sys2Proof.Machine
end

