-- ==== Sys2Proof/Machine/Clock.lean ====
section
/-! DEFINITION. The Lighthouse's clock at work (R312, R315, R316, R322, R323): a cycle of 2 ns with its trim and slew, the set
at its apply instant, and the launches that fire as their clock reaches T. -/

namespace Sys2Proof.Machine

/-- A descriptor of the timed table whose T is not before the instant of a set ends EPOCH; the others start (R323). -/
def State.setTable (s : State) (instant : Reg) : State :=
  let early (j : Job) : Bool := isBefore j.desc.launch instant
  let s := (s.startTable true early).startTable false early
  let s := s.harbour.table.foldl (fun (s : State) (j : Job) => s.modRing j.ring.val fun r => r.finish j.slot 10 0) s
  { s with harbour := { s.harbour with table := [] } }

/-- The set at its apply instant (R316): the master and every copy step into the new epoch. -/
def State.setApply (s : State) : State :=
  let old := s.masterNow
  let instant := reading s.lh.epoch s.lh.applyAt
  let epoch := s.lh.epoch + 1
  let s := s.recKey posLh 0o007003 0 [reading epoch s.lh.applyVal]
  let s := (s.setLaunches instant).setTable instant
  let isles := smap ({} : Isle) s.isles fun _ x =>
    if x.lhSync then { x with lhEpoch := epoch, lhCount := s.lh.applyVal, lhLow := 0 } else x
  let s := { s with isles, lh := { s.lh with epoch, count := s.lh.applyVal, setbusy := false, setres := 1 } }
  (s.recKey posLh 0o007004 0 [old]).endHandle .lhSet 0 0

/-- A set is in progress and its instant has come. -/
def Lighthouse.applies (l : Lighthouse) : Bool := l.setbusy && decide (l.applyAt.toNat ≤ l.count.toNat)

/-- SET_APPLY (R316). -/
def execSetApply (s : State) : Res := .next (if s.lh.applies then s.setApply else s)

/-- Every launch whose clock reaches its T fires: LAUNCH, power requests, timed descriptors (R322). -/
def State.fireDue (s : State) : State :=
  let s := (skeys s.threads).foldl (fun s t => s.fireLaunch t) s
  let s := s.units.foldl (fun s u => s.fireTimed u) s
  let due (s : State) (j : Job) : Bool := reached s.masterNow j.desc.launch
  let s := s.startTable true (due s)
  s.startTable false (due s)

/-- One Lighthouse cycle, once the master runs: 8 quarter-nanoseconds with trim and slew, a set at its instant, and what is
due, so that no launch fires late (R312, R315, R316, R323). -/
def lighthouseCycle (s : State) : State :=
  if s.lh.run then
    let c := s.lh.cycle
    let s := lhAdvance { s with lh := c.2 } c.1
    (if s.lh.applies then s.setApply else s).fireDue
  else s

/-- Cycles one after another. -/
def clockRun : Nat → State → State
  | 0, s => s
  | k + 1, s => clockRun k (lighthouseCycle s)

/-- SLEW_TICK (R312, R315): one microsecond passes, 500 cycles. -/
def execSlewTick (s : State) : Res := .next (clockRun 500 s)

/-- The package with no command: a Lighthouse cycle, and the ports serve what waits at them (DESIGN CHOICE, log entries 1
and 61). -/
def idle (s : State) : State := (lighthouseCycle s).drainPorts

end Sys2Proof.Machine
end

