-- ==== Sys2Proof/Machine/Guest.lean ====
section
/-! DEFINITION. The Gatehouse and the guest sites (R235 to R242). -/

namespace Sys2Proof.Machine

/-- The number of guest site g, 12 or 13 (R235). -/
def siteNum (g : Nat) : Nat := 12 + g

/-- The link carries requests: UP or DEGRADED. -/
def Site.linkUp (x : Site) : Bool := x.link == 2 || x.link == 3

/-- A hand-over past its lock holds site g (R369). -/
def State.siteLocked (s : State) (g : Nat) : Bool :=
  match s.worlds.ho with
  | some h => decide (2 ≤ h.step.toNat) && (match h.unit with
    | .site q => decide (q.val = g)
    | .engine _ | .port _ | .part _ _ => false)
  | none => false

/-- Octet i of a request's data. -/
def guestOctets (d : LineBits) (k : Nat) : List Octet := (List.range k).map fun i => d.extractLsb' (8 * i) 8

/-- The target of a request may be reached: DRAM, a homed window or a Cistern window (R238). -/
def State.guestTarget (s : State) (pa : Nat) : Bool :=
  match paClass pa with
  | .control => false
  | .window => ((s.owinAt pa).map fun w => w.kind == 3).getD true
  | .dram | .cistern _ _ | .unmapped => true

def GWin.base (w : GWin) : Nat := 2 ^ 36 * w.hi.toNat + w.lo.toNat * 64

/-- Steps 1 to 3 of R238: the target address, or the STATUS of the first check that fails. A target in control space or a
port BAR is refused with step 1 (DESIGN CHOICE, log entry 59). -/
def State.guestCheck (s : State) (g : Nat) (write : Bool) (addr : BitVec 48) (len : Nat) : Except (BitVec 8) Nat :=
  let x := s.site g
  let w := sget {} x.wins (addr.extractLsb' 44 4).toNat
  let o := (addr.extractLsb' 0 44).toNat
  let lines := w.size.toNat + 1
  let pa := if w.pack then w.base + o / 72 * 64 else w.base + o
  if !x.en || !w.en || decide ((if w.pack then 72 else 64) * lines ≤ o) || !s.guestTarget pa then .error 8
  else if !(if write then w.wr else w.rd) then .error 9
  else if (if w.pack then decide (len = 72 ∧ o % 72 = 0) else decide (len ≤ 64 ∧ o % 64 + len ≤ 64)) then .ok pa
  else .error 10

/-- A well-formed header (R237). -/
def guestFormed (ty : BitVec 8) (len : Nat) : Bool := (ty == 1 || ty == 2) && decide (1 ≤ len ∧ len ≤ 72)

/-- The asker of a site. -/
def State.siteAsker (s : State) (g : Nat) (tag : BitVec 16) : Asker :=
  { src := BitVec.ofNat 4 (siteNum g), tag := tag.setWidth 9, vault := s.worlds.guestown.getLsbD g }

/-- Step 5 of R238: the request is served; it stays without a status while its line makes it wait. -/
def State.guestServe (s : State) (g : Nat) (q : GReq) : State × GReq :=
  let a := s.siteAsker g q.tag
  let pa := q.addr.toNat
  let n : LineNo := BitVec.ofNat 46 (pa / 64)
  let o := pa % 64
  let mask := if q.dense then BitVec.allOnes 64 else maskOf o q.len
  if q.write then
    let bs := guestOctets q.data q.len
    let d := if q.dense then denseIn bs else looseIn 0 o bs
    match s.lineWrite a n mask d false with
    | (s', some (r, _)) => (s', { q with status := some (r.num.setWidth 8) })
    | (_, none) => (s, q)
  else match s.lineRead a n mask with
    | (s', some (.ok, l)) =>
      if q.dense then (s', { q with status := some 0, answer := denseOut l })
      else
        let (bs, k) := looseOut l o q.len
        (s'.modSite g fun x => { x with markdrop := x.markdrop + BitVec.ofNat 32 k }, { q with status := some 0, answer := bs })
    | (s', some (r, _)) => (s', { q with status := some (r.num.setWidth 8) })
    | (_, none) => (s, q)

/-- Tokens that step 4 may take: none while RATE is 0, and never more than BURST (R242). -/
def Site.ready (x : Site) : Nat := if x.rate = 0 then 0 else min x.burst.toNat x.tokens.toNat

/-- One token is taken. -/
def Site.spend (x : Site) : Site := { x with tokens := BitVec.ofNat 12 (x.ready - 1) }

/-- A request past step 3 takes its token, or waits in arrival order. -/
def State.guestTake (s : State) (g : Nat) (q : GReq) : State :=
  let x := s.site g
  if x.ready = 0 ∨ !x.waiting.isEmpty then s.modSite g fun x => { x with waiting := x.waiting ++ [q] }
  else
    let (s, q) := (s.modSite g Site.spend).guestServe g q
    s.modSite g fun x => { x with outst := x.outst ++ [q] }

/-- The Gatehouse refuses a request with a status, which holds an outstanding place until it is sent. -/
def State.guestRefuse (s : State) (g : Nat) (q : GReq) (st : BitVec 8) : State :=
  s.modSite g fun x => { x with refuse := x.refuse + 1, outst := x.outst ++ [{ q with status := some st }] }

/-- A request as R237 frames it. -/
structure GHead where
  ty : BitVec 8
  tag : BitVec 16
  addr : BitVec 48
  len : BitVec 8
  /-- Octet i at bits 8i + 7 to 8i. -/
  data : LineBits
  deriving DecidableEq, Repr

/-- Octets in little-endian order. -/
def bitsLe (n : Nat) (bs : List Octet) : BitVec n :=
  bs.zipIdx.foldl (fun (v : BitVec n) (p : Octet × Nat) => v ||| (p.1.setWidth n <<< (8 * p.2))) 0

/-- Octets of the stream that a header takes after it: the data of TYPE 2. -/
def headMore (ty len : BitVec 8) : Nat := if ty = 2 then len.toNat else 0

/-- The first whole request of a stream, with the octets that follow it (R236, R237). -/
def frame (bs : List Octet) : Option (GHead × List Octet) :=
  let ty := bs.getD 0 0
  let len := bs.getD 9 0
  let more := headMore ty len
  if bs.length < 10 + more then none
  else some ({ ty, len, tag := bitsLe 16 ((bs.drop 1).take 2), addr := bitsLe 48 ((bs.drop 3).take 6)
               data := bitsLe 576 (((bs.drop 10).take more).take 72) }, bs.drop (10 + more))

/-- One framed request of site g: refused, or past steps 1 to 3 (R237, R238). -/
def State.guestOne (s : State) (g : Nat) (h : GHead) : State :=
  let q : GReq := { tag := h.tag, write := h.ty == 2, dense := false, addr := 0, len := h.len.toNat, data := h.data }
  if !guestFormed h.ty h.len.toNat then s.guestRefuse g q 11
  else match s.guestCheck g (h.ty == 2) h.addr h.len.toNat with
    | .error st => s.guestRefuse g q st
    | .ok pa =>
      let dense := (sget {} (s.site g).wins (h.addr.extractLsb' 44 4).toNat).pack
      s.guestTake g { q with dense, addr := BitVec.ofNat 52 pa }

/-- The next request of a site that has one of its 128 places free (R236). -/
def Site.next (x : Site) : Option (GHead × List Octet) :=
  if !x.linkUp || decide (128 ≤ x.outst.length + x.waiting.length) then none else frame x.stream

/-- The Gatehouse takes the requests that have come whole, one site after the other as R17 grants them (R239). -/
def State.gatehouse (s : State) : Nat → State
  | 0 => s
  | k + 1 =>
    match arbitrate 2 (s.site 0).turn.toNat fun g => s.siteFit g && (s.site g).next.isSome with
    | none => s
    | some g =>
      match (s.site g).next with
      | none => s
      | some (h, rest) =>
        let s := (s.modSite g fun x => { x with stream := rest }).guestOne g h
        (s.modSite 0 fun x => { x with turn := BitVec.ofNat 1 (g + 1) }).gatehouse k

/-- The Gatehouse takes all that it can. -/
def State.gatehouseAll (s : State) : State := s.gatehouse ((s.site 0).stream.length + (s.site 1).stream.length + 1)

/-- Octets of a guest's stream arrive: traffic leaves L1 (R235). -/
def State.guestOctetsIn (s : State) (g : Nat) (bs : List Octet) : State :=
  if bs.isEmpty || !(s.site g).linkUp then s
  else s.modSite g fun x => { x with stream := x.stream ++ bs, l1 := false }

/-- GUEST_REQUEST (R236 to R239): octets of site g's raw stream, with those of the other site that reach the Gatehouse in the
same cycle; then the guest may ask for L1 (R235). -/
def execGuestRequest (g : Fin 2) (octets other : List Octet) (l1 : Bool) (s : State) : Res :=
  if !s.siteFit g then .next s
  else
    let s := ((s.guestOctetsIn g octets).guestOctetsIn (1 - g.val) other).gatehouseAll
    .next (if l1 && (s.site g).linkUp then s.modSite g fun x => { x with l1 := true } else s)

/-- A request leaves its place: with a completion to the guest, or without one when the link was lost. -/
def Site.complete (x : Site) (q : GReq) (st : BitVec 8) (answer : List Octet) : Site :=
  { x with outst := x.outst.erase q, l1 := false, sent := if q.drop then x.sent else x.sent ++ [(q.tag, st, answer)] }

/-- GUEST_COMPLETION (R236): the oldest request of a tag answers; one that still waits for its line is served. Its place is
free for a request that is held. -/
def execGuestCompletion (g : Fin 2) (tag : BitVec 16) (s : State) : Res :=
  match (s.site g).outst.find? fun q => q.tag == tag with
  | none => .next s
  | some q =>
    let (s, q') := if q.status.isSome then (s, q) else s.guestServe g q
    match q'.status with
    | none => .next s
    | some st => .next (s.modSite g fun x => x.complete q st q'.answer).gatehouseAll

/-- Requests that wait for tokens are sent on in arrival order. -/
def State.guestDrain (s : State) (g : Nat) : Nat → State
  | 0 => s
  | k + 1 =>
    let x := s.site g
    match x.waiting with
    | [] => s
    | q :: qs =>
      if x.ready = 0 then s
      else
        let (s, q) := (s.modSite g fun x => { x.spend with waiting := qs }).guestServe g q
        (s.modSite g fun x => { x with outst := x.outst ++ [q] }).guestDrain g k

/-- GATEHOUSE_TOKEN_REFILL (R242): one microsecond's tokens. -/
def execGatehouseTokenRefill (g : Fin 2) (s : State) : Res :=
  if !s.siteFit g then .next s
  else
    let s := s.modSite g fun x => { x with tokens := BitVec.ofNat 12 (min x.burst.toNat (x.tokens.toNat + x.rate.toNat)) }
    .next (s.guestDrain g (s.site g).waiting.length)

/-- The answer to an access of the site's block before it reaches the guest (R24, R240, R241, R369). -/
def State.siteAnswer (s : State) (w : Who) (g : Nat) : Resp :=
  if !s.siteFit g then .absent
  else if !whoOwn w && (s.whoVault w != s.worlds.guestown.getLsbD g || s.siteLocked g) then .world
  else if !(s.site g).linkUp then .poison
  else .ok

/-- An access reaches the guest, unless it is there already. -/
def Site.forward (x : Site) (a : GAcc) : Site :=
  if x.regOut.contains a then x
  else { x with l1 := false, regTx := x.regTx ++ [(a.off, a.wr)], regOut := x.regOut ++ [a] }

/-- The guest's answer to an access, which waits for its requester when that waits for it. -/
def Site.answer (x : Site) (a : GAcc) (r : Resp) (v : W36) : Site :=
  let y := x.forward a
  { y with regOut := y.regOut.erase a, regAns := (r.num, v)
           regDone := if x.regOut.contains a then x.regDone ++ [(a, r.num, v)] else x.regDone }

/-- A word access to a guest's block (R240): none while the guest has not answered. -/
def State.siteAccess (s : State) (w : Who) (g off : Nat) (wr : Option W36) : State × Option (Resp × W36) :=
  let a : GAcc := { who := w, off := BitVec.ofNat 32 off, wr := wr.map fun v => v.setWidth 32 }
  match (s.site g).regDone.find? fun d => d.1 == a with
  | some d => (s.modSite g fun x => { x with regDone := x.regDone.erase d }, some (respOf d.2.1, d.2.2))
  | none => match s.siteAnswer w g with
    | .ok => (s.modSite g fun x => x.forward a, none)
    | .absent => (s, some (.absent, BitVec.allOnes 36))
    | r => (s, some (r, 0))

/-- GUEST_REGISTER_ACCESS (R240): ans is what the guest answers to a read. -/
def execGuestRegisterAccess (w : Who) (g : Fin 2) (off : BitVec 32) (wr : Option W36) (ans : BitVec 32) (s : State) : Res :=
  match s.siteAnswer w g with
  | .ok =>
    .next (s.modSite g fun x =>
      x.answer { who := w, off, wr := wr.map fun v => v.setWidth 32 } .ok (if wr.isSome then 0 else ans.setWidth 36))
  | .absent => .next (s.modSite g fun x => { x with regAns := (Resp.absent.num, if wr.isSome then 0 else BitVec.allOnes 36) })
  | r => .next (s.modSite g fun x => { x with regAns := (r.num, 0) })

/-- GUEST_ACCESS_FAILED (R240): no answer to a read, or to the write of wr, in 100 µs, or an error. -/
def execGuestAccessFailed (w : Who) (g : Fin 2) (off : BitVec 32) (wr : Option W36) (err : Bool) (s : State) : Res :=
  match s.siteAnswer w g with
  | .ok =>
    .next ((s.modSite g fun x => x.answer { who := w, off, wr := wr.map fun v => v.setWidth 32 } .poison 0).recKey posGth
      0o012002 (siteNum g) [off.setWidth 72, rp (if err then 1 else 0)] (s.whoVault w) (s.whoCtx w) (whoThread w))
  | .absent => .next (s.modSite g fun x => { x with regAns := (Resp.absent.num, if wr.isSome then 0 else BitVec.allOnes 36) })
  | r => .next (s.modSite g fun x => { x with regAns := (r.num, 0) })

/-- What has not passed step 4 is discarded; requests past step 5 complete, and their completions are discarded (R241). -/
def Site.dropReqs (x : Site) : Site :=
  { x with waiting := [], stream := [], outst := (x.outst.filter fun q => q.status.isNone).map fun q => { q with drop := true } }

/-- The link of a site stops carrying data: its bearing is released, and its requests are dropped (R241). Accesses that wait
for the guest will answer POISON. -/
def State.siteLinkOff (s : State) (g : Nat) (st : BitVec 3) : State :=
  (if (s.site g).linkUp then s.release reqUmf 0 8 else s).modSite g fun x => { x.dropReqs with link := st, l1 := false, regOut := [] }

/-- GUEST_LINK_LOST (R241). -/
def execGuestLinkLost (g : Fin 2) (s : State) : Res :=
  if s.siteFit g && (s.site g).linkUp then .next ((s.siteLinkOff g 4).recKey posGth 0o012001 (siteNum g) [] (s.worlds.guestown.getLsbD g))
  else .next s

/-- GUEST_LINK_TRAINED (R235, R241): the link of a site that is DOWN or TRAINING comes up at 32 GT/s or fails; an UP link bears
8 HUB units (R352). A link that failed is DOWN (DEDUCED, log entry 59). -/
def execGuestLinkTrained (g : Fin 2) (ok : Bool) (s : State) : Res :=
  if s.siteFit g ∧ ((s.site g).link = 0 ∨ (s.site g).link = 1) then
    if !ok then .next (s.modSite g fun x => { x with link := 0 })
    else match s.claim reqUmf 0 8 with
      | (s, true) => .next (s.modSite g fun x => { x with link := 2 })
      | (s, false) => .next s
  else .next s

/-- UCIE_LANE_REPAIR (R221, R242). -/
def execUcieLaneRepair (g : Fin 2) (s : State) : Res :=
  if s.siteFit g && (s.site g).linkUp then .next (s.modSite g fun x => { x with link := 3 })
  else .next s

end Sys2Proof.Machine
end

