-- ==== Sys2Proof/Machine/WorldsOps.lean ====
section
/-! DEFINITION. The world filters and the hand-over (R370 to R379), and the retries of refused bearing claims. -/

namespace Sys2Proof.Machine

/-! ### Memory regions (R370 to R372, R381) -/

/-- Who may write the Keystone's WLD_ registers (R369, R374). -/
def State.mayWld (s : State) (w : Who) : Bool := whoOwn w || (s.whoVault w && s.worlds.vaulten)

/-- An Isle that holds a copy of the region table: admitted or quarantined, in Neap too. -/
def State.holdsTable (s : State) (n : Nat) : Bool :=
  let x := s.isle n
  s.isleFit n && (x.cond == .admitted || x.cond == .quarantined) && x.st != .dry

/-- WLD_CTL.PENDING: a copy lags (R372). -/
def State.tableLags (s : State) : Bool :=
  (List.range 12).any fun n => s.holdsTable n && (s.isle n).rgnGen != s.worlds.gen

/-- Writes the region that WLD_RGNSEL selects. -/
def State.setRegion (s : State) (r : Region) : State :=
  { s with worlds := { s.worlds with regions := sset {} s.worlds.regions s.worlds.rgnsel.toNat r } }

/-- A write of WLD_RGNCTL (R372, R381). -/
def State.rgnctl (s : State) (w : Who) (v : W36) : State × Resp :=
  let r := sget {} s.worlds.regions s.worlds.rgnsel.toNat
  let en := bitOf v 0
  if !s.mayWld w then (s, .world)
  else if hasBits v (bitsMask 35 2) || (en && decide (0x8000000000000 < r.base + r.len)) then (s, .rsvd)
  else
    let s := s.setRegion { r with en, vault := if r.en then r.vault else bitOf v 1 }
    (if en = r.en then s else { s with worlds := { s.worlds with gen := s.worlds.gen + 1 } }, .ok)

/-- WLD_RGNCTL_WRITE (R372). -/
def execWldRgnctlWrite (w : Who) (v : W36) (s : State) : Res := .next (s.rgnctl w v).1

/-- REGION_TABLE_ARRIVES (R372): the Isle's copy takes the whole table. -/
def execRegionTableArrives (n : Fin 12) (s : State) : Res :=
  if !s.isleFit n then .next s
  else if s.holdsTable n then .next (s.modIsle n fun x => { x with regions := s.worlds.regions, rgnGen := s.worlds.gen })
  else .next s

/-! ### Hand-over (R375 to R379) -/

/-- The unit of a CLASS and INDEX; none for a reserved encoding (R376). -/
def State.hoUnit (s : State) (cls idx : Nat) : Option HoClass :=
  match cls with
  | 0 => if h : idx < 32 then some (.engine ⟨idx, h⟩) else none
  | 1 => if h : idx < 96 then (if s.portMade idx then some (.port ⟨idx, h⟩) else none) else none
  | 2 => if h : idx < 96 then some (.part ⟨idx / 8, by omega⟩ (Fin.ofNat 8 idx)) else none
  | 3 => if idx = 12 then some (.site 0) else if idx = 13 then some (.site 1) else none
  | _ => none

/-- Step 1 of R377: RESULT of a check that ends the hand-over. -/
def State.hoCheck (s : State) : HoClass → Option Nat
  | .engine _ | .port _ => none
  | .part n p =>
    let x := s.isle n
    if !s.isleFit n || decide (x.cis.cur.toNat ≤ p.val) then some 2
    else if x.cond ≠ .admitted ∨ x.st = .dry then some 3
    else none
  | .site g => if s.siteFit g then none else some 2

/-- The wake that step 1 needs (R363): true unless the ledger refuses it. -/
def State.hoWake (s : State) : HoClass → State × Bool
  | .engine _ => if s.harbour.st = .dry then s.blockUp 0 else (s, true)
  | .port p => if (s.block (p.val / 8)).st = .dry then s.blockUp ⟨p.val / 8 + 1, by omega⟩ else (s, true)
  | .part n _ =>
    let s := if (s.isle n).st = .neap then s.wakeIsle n else s
    (s, (s.isle n).st != .neap)
  | .site _ => (s, true)

/-- Steps 2 and 3 of R377: the unit is locked and quiesces (R378). -/
def State.hoLock (s : State) (h : Handing) : State :=
  let s := { s with worlds := { s.worlds with ho := some { h with step := 3, waitClaim := false } } }
  match h.unit with
  | .engine e =>
    let done := (((s.engine e).job).map Job.sofar).getD 0
    (s.jobEnd e 14 done).modEngine e fun x => { x with locked := true }
  | .port p =>
    let s := s.linkDown p 0
    if (s.port p).role = 2 then
      ((s.modPort p Port.dropHost).abortRings (p.val / 8) 13 fun _ => true).disableRings (p.val / 8)
    else s.portGiveUp p
  | .part _ _ => s
  | .site g => s.modSite g fun x => { x.dropReqs with en := false }

/-- Step 1, and on to the lock when it passes. -/
def State.hoStep1 (s : State) (h : Handing) : State :=
  match s.hoCheck h.unit with
  | some r => s.hoEnd h.unit (s.hoOwner h.unit) h.toV r
  | none =>
    match s.hoWake h.unit with
    | (s, true) => s.hoLock h
    | (s, false) => { s with worlds := { s.worlds with ho := some { h with step := 1, waitClaim := true } } }

/-- A hand-over starts, taken from requester q (R376). -/
def State.hoStart (s : State) (u : HoClass) (toV : Bool) (m : Option (Fin 16)) (q : Nat) : State :=
  { s with worlds := { s.worlds with hoPtr := (q + 1) % 2 } }.hoStep1 { unit := u, toV, mailbox := m, step := 1 }

/-- The owner register takes the target world (R375). -/
def State.hoAssign (s : State) (u : HoClass) (v : Bool) : State :=
  let setBit {w : Nat} (b : BitVec w) (i : Nat) : BitVec w :=
    if v then b ||| ((1 : BitVec w) <<< i) else b &&& ~~~((1 : BitVec w) <<< i)
  match u with
  | .engine e => s.modEngine e fun x => { x with world := v }
  | .port p => { s with worlds := { s.worlds with portown := setBit s.worlds.portown p } }
  | .part n p => s.modIsle n fun x => { x with cis := { x.cis with partworld := setBit x.cis.partworld p } }
  | .site g => { s with worlds := { s.worlds with guestown := setBit s.worlds.guestown g } }

/-- A partition filled with zero nonets and valid check bits. -/
def Isle.zeroPart (x : Isle) (n p : Nat) : Isle :=
  let out (a : Nat) : Bool := decide (a < partSize * p ∨ partSize * (p + 1) ≤ a)
  { x with
    dataErr := x.dataErr.filter fun e => decide (e.1 < cisAddr n (partSize * p) ∨ cisAddr n (partSize * (p + 1)) ≤ e.1)
    cis := { x.cis with mem := x.cis.mem.filter fun e => out e.1, bad := x.cis.bad.filter fun e => out e.1 } }

/-- Step 4 of R377 (R378), for units other than an endpoint port, which is reset once it has its new owner. -/
def State.hoReset (s : State) (u : HoClass) : State :=
  match u with
  | .engine e => s.modEngine e fun x => { x with timed := false, locked := false }
  | .port p =>
    if (s.port p).role = 2 then s
    else
      let s := s.modPort p fun x => { x with intxthr := 0, intxcls := 0, intxen := false, tmo := 7, winsel := 0, wins := [] }
      let off (w : OWin) : OWin := if w.port.toNat = p.val then { w with en := false } else w
      { s with ports := { s.ports with owins := smap ({} : OWin) s.ports.owins fun _ w => off w } }
  | .part n p => s.modIsle n fun x => x.zeroPart n p
  | .site g =>
    (s.siteLinkOff g 1).modSite g fun x =>
      { refuse := x.refuse, markdrop := x.markdrop, link := 1, sent := x.sent, regTx := x.regTx, regAns := x.regAns
        regDone := x.regDone, outst := x.outst, turn := x.turn }

/-- What a unit in hand-over had under way has ended (R378). -/
def State.hoQuiet (s : State) : HoClass → Bool
  | .engine _ | .part _ _ => true
  | .port p => (s.port p).waits.isEmpty
  | .site g => (s.site g).outst.isEmpty

/-- HANDOVER_QUIESCED (R377): steps 4 to 6, once the unit is quiet. Umfoent enables the rings of an endpoint in its new
world. -/
def execHandoverQuiesced (s : State) : Res :=
  match s.worlds.ho with
  | none => .next s
  | some h =>
    if h.step ≠ 3 || !s.hoQuiet h.unit then .next s
    else
      let was := s.hoOwner h.unit
      let s := (s.hoReset h.unit).hoAssign h.unit h.toV
      let s := match h.unit with
        | .port p => if (s.port p).role = 2 then (s.epReset (p.val / 8) true).enableRings (p.val / 8) else s
        | .engine _ | .part _ _ | .site _ => s
      .next (s.hoEnd h.unit was h.toV 1)

/-! ### Cores that wait for their start-up claim (R432, R434) -/

/-- The lowest-numbered admitted Isle. -/
def State.firstIsle (s : State) : Option Nat := (List.range 12).find? fun n => (s.isle n).cond == .admitted

/-- The claim of core q of start-up step 8: its start, the boot thread's with it, or a wait. -/
def State.bootCore (s : State) (q : Nat) : State :=
  match s.claim (reqIsle (q / 24)) (coreBearing 29) 0 with
  | (s, true) =>
    let s := s.coreUp q
    if s.firstIsle = some (q / 24) ∧ q % 24 = 0 then s.modThread (2 * q) fun x => x.release s.board.flash.court.entry else s
  | (s, false) => s.modCore q fun x => { x with bootWait := true }

/-- The cores of Isle n that wait claim again. -/
def State.bootRetry (s : State) (n : Nat) : State :=
  (List.range 24).foldl (fun s c => if (s.core (n * 24 + c)).bootWait then s.bootCore (n * 24 + c) else s) s

/-! ### Retries (R210, R270, R284, R363, R377, R432) -/

/-- BEARING_RETRY: a unit whose claim was refused claims again; for an Isle, its wake or its cores at start-up. -/
def execBearingRetry (u : WaitUnit) (s : State) : Res :=
  match u with
  | .strait n => if s.isleFit n && s.mayTrain n && (s.strait n).bearwait then .next (s.trainStart n).1 else .next s
  | .channel c =>
    let r := s.retryTraining c
    .next (r.1.memAnswers r.2)
  | .block b =>
    if !(s.block b).bearwait then .next s
    else if (s.block b).st = .dry then .next (s.blockUp ⟨b.val + 1, by omega⟩).1
    else .next (s.blockClaim b (s.block b).wants).1
  | .wakeIsle n =>
    if s.isleFit n then .next ((if (s.isle n).wakeWait then s.wakeIsle n else s).bootRetry n) else .next s
  | .handover =>
    match s.worlds.ho with
    | some h => if h.waitClaim then .next (s.hoStep1 { h with waitClaim := false }) else .next s
    | none => .next s

end Sys2Proof.Machine
end

