-- ==== Sys2Proof/Machine/Umfoent.lean ====
section
/-! DEFINITION. Umfoent's mailboxes (R386 to R397), its information, sensor, Lighthouse, identity and lock commands
(R384, R398 to R405), the SMBus front end (R392) and SPDM (R401). -/

namespace Sys2Proof.Machine

/-! ### Messages (R387, R388) -/

def Mailbox.cmd (x : Mailbox) : Nat := (sget 0 x.buf 0).toNat % 65536
def Mailbox.arg (x : Mailbox) (k : Nat) : BitVec 32 := (sget 0 x.buf k).setWidth 32
def Mailbox.argN (x : Mailbox) (k : Nat) : Nat := (x.arg k).toNat

/-- Octets packed into words, four a word (R387). -/
def packWords (bs : List Octet) : List (BitVec 32) :=
  (List.range ((bs.length + 3) / 4)).map fun i => word32 (bs.drop (4 * i))

/-- A number of 8k bits as k octets, highest first. -/
def bigEndian (k v : Nat) : List Octet := (List.range k).map fun j => BitVec.ofNat 8 (v / 256 ^ (k - 1 - j))

/-- The 48 octets of words 2 to 13, highest first (R404). -/
def Mailbox.arg48 (x : Mailbox) : BitVec 384 :=
  (List.range 48).foldl (fun (a : BitVec 384) j => (a <<< 8) ||| ((x.arg (2 + j / 4)).extractLsb' (8 * (j % 4)) 8).setWidth 384) 0

/-- Word 0 of a response. -/
def respHead (len : Nat) (seq st : BitVec 8) : BitVec 32 := (1 : BitVec 2) ++ BitVec.ofNat 6 len ++ seq ++ st ++ (0 : BitVec 8)

/-- The response to mailbox m: result words, then word 0, then the DONE event (R389). -/
def State.respond (s : State) (m : Fin 16) (st : BitVec 8) (ws : List (BitVec 32)) : State :=
  let put (x : Mailbox) : Mailbox :=
    let seq : BitVec 8 := (sget 0 x.buf 0).extractLsb' 16 8
    let buf := ws.zipIdx.foldl (fun (b : Store W36) (p : BitVec 32 × Nat) => sset 0 b (p.2 + 1) (p.1.setWidth 36)) x.buf
    { x with buf := sset 0 buf 0 ((respHead ws.length seq st).setWidth 36) }
  ({ s with umf := { s.umf with serving := none } }.modBox m put).boxEvent m true

/-! ### Serving (R390, R398, R429, R437, R446) -/

/-- A listed command. -/
def umfListed (c : Nat) : Bool :=
  [1, 2, 3, 4, 8, 9, 10, 12, 13, 16, 17, 18, 19, 20, 21, 32, 33, 34, 35, 36, 48, 49, 50, 51, 52, 60, 64, 72, 80, 81].contains c

/-- The path may issue the command. -/
def State.umfMay (s : State) (x : Mailbox) : Bool :=
  let c := x.cmd
  match x.path.toNat with
  | 0 => [1, 2, 3, 4, 16, 17, 32, 33, 35, 48, 50, 51].contains c || ((c == 8 || c == 9) && s.lh.courtwr)
      || (c == 64 && x.arg 3 == 0 && ((s.hoUnit (x.argN 1) (x.argN 2)).map fun u => !s.hoOwner u).getD true)
  | 3 => [1, 2, 3, 16, 17].contains c
  | _ => true

/-- Commands that Umfoent serves in Lagoon. -/
def lagoonServes (c : Nat) : Bool := [1, 2, 3, 4, 8, 9, 10, 16, 17].contains c

/-- The unit that the command names has not come up yet (R437). -/
def State.umfEarly (s : State) (x : Mailbox) : Bool :=
  let c := x.cmd
  let step := s.board.step
  ((c == 8 || c == 9) && !s.lh.run)
    || ((48 ≤ c && c ≤ 51 || (c == 52 && x.arg 4 != 0) || (c == 64 && x.arg 1 == 2)) && decide (step ≤ 4))
    || (32 ≤ c && c ≤ 36 && decide (step ≤ 6))
    || ((c == 60 || (c == 64 && x.arg 1 == 1)) && decide (step ≤ 8))

/-- Arguments that name no action or no unit: MEM_THAW and HANDOVER. -/
def State.umfBadArgs (s : State) (x : Mailbox) : Bool :=
  (x.cmd == 32 && decide (2 < x.argN 2))
    || (x.cmd == 64 && (decide (1 < x.argN 3) || (s.hoUnit (x.argN 1) (x.argN 2)).isNone))

/-- The answer that a mailbox gets before its command is looked at further. -/
def State.umfRefuses (s : State) (x : Mailbox) : Option (BitVec 8 × List (BitVec 32)) :=
  let c := x.cmd
  match s.board.fatal, s.board.stopped with
  | some d, _ => if c = 1 ∨ c = 4 then none else some (9, [d.setWidth 32])
  | none, some r => if c = 1 then none else some (9, [r.setWidth 32])
  | none, none =>
    if !umfListed c then some (2, [])
    else if !s.umfMay x then some (4, [])
    else if s.pwr.lagoon && !lagoonServes c then some (11, [])
    else if s.umfEarly x then some (6, [])
    else if s.umfBadArgs x then some (3, [])
    else none

/-- Umfoent runs: its firmware has started, or the always-on island answers for a stopped package. -/
def State.umfServes (s : State) : Bool :=
  decide (3 ≤ s.board.step) || s.board.stopped.isSome || s.board.fatal.isSome

/-- MAILBOX_SERVE (R390): the next mailbox whose REQ is 1 under R17. -/
def execMailboxServe (s : State) : Res :=
  if !s.umfServes || s.umf.serving.isSome then .next s
  else match arbitrate 16 s.umf.ptr.val fun m => (s.box m).busy with
    | none => .next s
    | some m =>
      let i := Fin.ofNat 16 m
      let s := { s with umf := { s.umf with serving := some i, ptr := Fin.ofNat 16 (m + 1) } }
      match s.umfRefuses (s.box m) with
      | some (st, ws) => .next (s.respond i st ws)
      | none => .next s

/-- A command row: mailbox m is the one being served, and its CMD is this one. -/
def State.commanded (s : State) (m : Fin 16) (c : Nat) (f : Mailbox → State) : State :=
  if s.umf.serving = some m ∧ (s.box m).cmd = c then f (s.box m) else s

def State.command (s : State) (m : Fin 16) (c : Nat) (f : Mailbox → State) : Res := .next (s.commanded m c f)

/-! ### Handles (R393 to R396) -/

/-- A unit carries an open handle, or an update of microcode has the Isle to do. -/
def State.unitBusy (s : State) (u : HUnit) : Bool :=
  (s.umf.boxes.any fun b => b.2.handles.any fun h => h.unit == u)
    || match u, s.umf.ucode with
      | .isle n, some r => r.todo.contains n
      | .ucode, some _ => true
      | _, _ => false

/-- The next handle count of a mailbox: 1 to 4,095, skipping those in use. -/
def Mailbox.nextK (x : Mailbox) : BitVec 12 :=
  let after (k : Nat) (i : Nat) : BitVec 12 := BitVec.ofNat 12 ((k - 1 + i) % 4095 + 1)
  (((List.range 9).map fun i => after (x.lastK.toNat + 1) i).find? fun k =>
    !(x.handles.any fun h => h.num.setWidth 12 == k)).getD 1

/-- A mailbox has no room for one handle more. -/
def Mailbox.handlesFull (x : Mailbox) : Bool := decide (8 ≤ x.handles.length ∨ 16 ≤ x.handles.length + x.queue.length)

/-- Answers ACCEPTED with a handle on unit u and does the operation, or BUSY. -/
def State.accepted (s : State) (m : Fin 16) (u : HUnit) (op : State → State) : State :=
  let x := s.box m
  if s.unitBusy u || x.handlesFull then s.respond m 6 []
  else
    let k := x.nextK
    let num : BitVec 16 := BitVec.ofNat 4 m.val ++ k
    let s := s.modBox m fun y => { y with lastK := k, handles := y.handles ++ [{ num, unit := u, cmd := y.cmd }] }
    op (s.respond m 1 [num.setWidth 32])

/-- HANDLE_COMPLETION (R394): the oldest ended handle's entry enters the queue; one of a reset endpoint goes unseen. -/
def execHandleCompletion (m : Fin 16) (s : State) : Res :=
  let x := s.box m
  match x.handles.find? fun h => h.res.isSome && !h.queued with
  | none => .next s
  | some h =>
    if h.drop then .next (s.modBox m fun y => { y with handles := y.handles.erase h })
    else
      let r := h.res.getD (0, 0)
      let mark (g : Handle) : Handle := if g.num = h.num then { g with queued := true } else g
      .next ((s.modBox m fun y => { y with
        handles := y.handles.map mark, queue := y.queue ++ [h.num ++ r.1 ++ r.2] }).boxEvent m false)

/-! ### Information (R398) -/

/-- INFO. -/
def execInfo (m : Fin 16) (s : State) : Res := s.command m 1 fun _ =>
  let ver (b : Bool) : BitVec 24 := if b then s.umf.verB else s.umf.verA
  let word (w : W36) : BitVec 32 := w.setWidth 32
  s.respond m 0 [word s.variant.pkginfo, word s.variant.fitmap, word s.variant.chanmap, (ver s.umf.active).setWidth 32,
    if s.umf.standby then (ver !s.umf.active).setWidth 32 else 0]

/-- CPL_READ: up to 14 entries leave the queue, and their handles close. -/
def execCplRead (m : Fin 16) (s : State) : Res := s.command m 2 fun x =>
  let es := x.queue.take 14
  let closed (h : Handle) : Bool := es.any fun e => e.extractLsb' 16 16 == h.num
  let rest := x.queue.drop 14
  let s := s.modBox m fun y => { y with
    queue := rest, handles := y.handles.filter fun h => !closed h, cplPend := y.cplPend && !rest.isEmpty }
  s.respond m 0 (BitVec.ofNat 32 es.length :: es)

/-- HANDLE_STATUS. -/
def execHandleStatus (m : Fin 16) (s : State) : Res := s.command m 3 fun x =>
  match x.handles.find? fun h => h.num.setWidth 32 == x.arg 1 with
  | none => s.respond m 0 [0]
  | some h => s.respond m 0 [if h.queued then 2 else 1]

/-! ### Sensors (R384, R443) -/

/-- The VCORE set point of Isle n in mV. -/
def State.setPoint (s : State) (n : Nat) : Nat :=
  let steps := (List.range 24).filterMap fun c =>
    let x := s.core (n * 24 + c)
    if x.st = .run ∨ x.st = .slack then some x.fCur.toNat else none
  Config.curveAt n (if steps.isEmpty then 12 else steps.foldl max 12)

/-- A free reading within a tolerance, in permille, of a nominal value. -/
def nearValue (f : BitVec 64) (nominal permille : Nat) : Nat :=
  let d := nominal * permille / 1000
  nominal - d + f.toNat % (2 * d + 1)

/-- Nominal mV, tolerance in permille and peak current in 0.25 A of VKEY, VDDQ, VSERDES, VAUX and VFUSE (R443). -/
def State.railSpec (s : State) (i : Nat) : Nat × Nat × Nat :=
  match i with
  | 0 => (if !s.board.vkey then 0 else if s.pwr.lagoon then 700 else 800, 30, 720)
  | 1 => (if s.board.vddq then 1100 else 0, 30, 160)
  | 2 => (if s.board.vserdes && !s.pwr.lagoon then 900 else 0, 20, 360)
  | 3 => (900, 30, 16)
  | _ => (1800, 50, 0)

/-- A rail's reading: voltage, current and the highest current since reset, free within the rail's limits. -/
def State.railRead (s : State) (mv tol peak : Nat) (old : BitVec 32) : State × BitVec 32 × BitVec 32 × BitVec 32 :=
  let (a, s) := s.takeFree
  let (b, s) := s.takeFree
  let (c, s) := s.takeFree
  let cur := if mv = 0 then 0 else b.toNat % (peak + 1)
  let top := max (max old.toNat cur) (c.toNat % (peak + 1))
  (s, BitVec.ofNat 32 (nearValue a mv tol), BitVec.ofNat 32 cur, BitVec.ofNat 32 top)

/-- SENSOR_READ (R384). -/
def execSensorRead (m : Fin 16) (s : State) : Res := s.command m 4 fun x =>
  let i := x.argN 1
  if i < 72 then
    if s.isleFit (i / 6) then
      let y := s.isle (i / 6)
      s.respond m 0 [(sget 0 y.temps (i % 6)).signExtend 32, 0, (sget 0 y.tempMax (i % 6)).signExtend 32]
    else s.respond m 8 []
  else if i < 96 then
    s.respond m 0 [(sget 0 s.umf.keyTemps (i - 72)).signExtend 32, 0, (sget 0 s.umf.keyTempMax (i - 72)).signExtend 32]
  else if 128 ≤ i ∧ i < 140 then
    let n := i - 128
    if s.isleFit n then
      let y := s.isle n
      let (s, v, c, t) := s.railRead (if y.vcore then s.setPoint n else 0) 20 440 y.vCurMax
      (s.modIsle n fun y => { y with vCurMax := t }).respond m 0 [v, c, t]
    else s.respond m 8 []
  else if 140 ≤ i ∧ i < 145 then
    let k := i - 140
    let (mv, tol, peak) := s.railSpec k
    let (s, v, c, t) := s.railRead mv tol peak (sget 0 s.umf.railMax k)
    { s with umf := { s.umf with railMax := sset 0 s.umf.railMax k t } }.respond m 0 [v, c, t]
  else if 160 ≤ i ∧ i < 172 then
    if !s.isleFit (i - 160) then s.respond m 8 []
    else if x.argN 2 < 12 ∨ 36 < x.argN 2 then s.respond m 3 []
    else s.respond m 0 [BitVec.ofNat 32 (Config.curveAt (i - 160) (x.argN 2)), 0, 0]
  else s.respond m 3 []

/-! ### Lighthouse, bearing and policies (R398) -/

/-- LH_SET. -/
def execLhSet (m : Fin 16) (s : State) : Res := s.command m 8 fun x =>
  if s.lh.setbusy then s.respond m 6 []
  else s.accepted m .lhSet fun s =>
    match s.setStart (x.arg 2 ++ x.arg 1) with
    | (s, 0) => s
    | (s, r) => s.endHandle .lhSet 9 (r.setWidth 8)

/-- LH_SLEW. -/
def execLhSlew (m : Fin 16) (s : State) : Res := s.command m 9 fun x =>
  if 2 ^ 24 ≤ x.argN 1 then s.respond m 3 []
  else { s with lh := { s.lh with slew := (x.arg 1).setWidth 24 } }.respond m 0 []

/-- LH_POLICY: COURTWR, now and in the stored configuration. -/
def execLhPolicy (m : Fin 16) (s : State) : Res := s.command m 10 fun x =>
  if 2 ≤ x.argN 1 then s.respond m 3 []
  else
    let v := x.arg 1 == 1
    { s with lh := { s.lh with courtwr := v }
             board := { s.board with flash := { s.board.flash with courtwr := v } } }.respond m 0 []

/-- Units claimed in each pool (R367). -/
def Ledger.total (l : Ledger) : Nat × Nat := l.claimed.foldl (fun a p => (a.1 + p.2.core, a.2 + p.2.hub)) (0, 0)

/-- BRG_SETLIMIT (R348). -/
def execBrgSetlimit (m : Fin 16) (s : State) : Res := s.command m 12 fun x =>
  let c := x.argN 1
  let h := x.argN 2
  let t := s.ledger.total
  if 3280 < c ∨ 1200 < h ∨ c < t.1 ∨ h < t.2 then s.respond m 3 []
  else { s with ledger := { s.ledger with limCore := BitVec.ofNat 12 c, limHub := BitVec.ofNat 12 h } }.respond m 0 []

/-- ISLE_POLICY (R226), now and in the stored configuration. -/
def execIslePolicy (m : Fin 16) (s : State) : Res := s.command m 13 fun x =>
  if 4096 ≤ x.argN 1 then s.respond m 3 []
  else
    let v := (x.arg 1).setWidth 12
    { s with umf := { s.umf with islePolicy := v }
             board := { s.board with flash := { s.board.flash with islePolicy := v } } }.respond m 0 []

/-! ### Identity (R400, R402) -/

/-- The running firmware's version. -/
def State.fwVersion (s : State) : BitVec 24 := if s.umf.active then s.umf.verB else s.umf.verA

/-- Certificate k of R400. -/
def State.certificate (s : State) (k : Nat) : List Octet := Config.certificate k s.fwVersion (if k = 3 then s.umf.aliasNo else 0)

/-- ID_CERT. -/
def execIdCert (m : Fin 16) (s : State) : Res := s.command m 16 fun x =>
  if 4 ≤ x.argN 1 then s.respond m 3 []
  else
    let c := s.certificate (x.argN 1)
    s.respond m 0 (BitVec.ofNat 32 c.length :: packWords ((c.drop (x.argN 2)).take 56))

/-- The digest of the enrolled owner key, 0 when there is none. -/
def State.ownerDigest (s : State) : BitVec 384 :=
  match s.board.flash.ownerKey with
  | none => 0
  | some (x, y) => Config.sha384 (bigEndian 48 x.toNat ++ bigEndian 48 y.toNat)

/-- Measurement k (R402). -/
def State.measured (s : State) (k : Nat) : BitVec 384 :=
  match k with
  | 1 => Config.measureRom
  | 3 => if s.worlds.vaulten then sget 0 s.umf.measure 3 else 0
  | 5 => Config.measureFuse
  | 6 => Config.measureLock s.umf.lock s.umf.scopes s.ownerDigest
  | _ => sget 0 s.umf.measure k

/-- The version that goes with measurement k: of the firmware and of the microcode; a free value for the others. -/
def State.measureVer (s : State) (k : Nat) : State × BitVec 32 :=
  match k with
  | 2 => (s, s.fwVersion.setWidth 32)
  | 4 => (s, s.umf.ucodeVer.setWidth 32)
  | _ => (s.takeFree.2, s.takeFree.1.setWidth 32)

/-- ID_MEASURE. -/
def execIdMeasure (m : Fin 16) (s : State) : Res := s.command m 17 fun x =>
  let k := x.argN 1
  if k < 1 ∨ 6 < k then s.respond m 3 []
  else
    let d := s.measured k
    let r := s.measureVer k
    r.1.respond m 0 (packWords (bigEndian 48 d.toNat) ++ [r.2])

/-! ### The field lock (R403 to R405) -/

/-- After 8 failures a challenge is issued at most once every 10 s, by the master's count. -/
def State.challengeEarly (s : State) : Bool :=
  decide (8 ≤ s.umf.fails.toNat) && match s.umf.lastChal with
    | none => false
    | some (e, c) => e == s.lh.epoch && decide (s.lh.count.toNat < c.toNat + 40000000000)

/-- UNLOCK_CHALLENGE: the fresh nonce comes from the command. -/
def execUnlockChallenge (m : Fin 16) (nonce : BitVec 256) (s : State) : Res := s.command m 18 fun x =>
  if 8 ≤ x.argN 1 ∨ 2 ≤ x.argN 2 ∨ (x.argN 2 = 1 ∧ s.board.flash.ownerKey.isNone) then s.respond m 3 []
  else if s.challengeEarly then s.respond m 6 []
  else
    { s with umf := { s.umf with nonce := some nonce, nonceScope := x.arg 1, nonceKey := x.argN 2 == 1, sigR := none
                                 lastChal := some (s.lh.epoch, s.lh.count) } }.respond m 0 (packWords (bigEndian 32 nonce.toNat))

/-- NONCE_EXPIRE (R404). -/
def execNonceExpire (s : State) : Res := .next { s with umf := { s.umf with nonce := none, sigR := none } }

/-- The 97 octets that are signed (R404). -/
def State.unlockMessage (s : State) (nonce : BitVec 256) : List Octet :=
  [0x54, 0x49, 0x52, 0x59, 0x53, 0x2D, 0x55, 0x4E, 0x4C, 0x4F, 0x43, 0x4B]
    ++ bigEndian 48 (Config.sha384 Config.deviceIdKey).toNat ++ bigEndian 32 nonce.toNat
    ++ octets32 s.umf.nonceScope ++ [if s.umf.nonceKey then 1 else 0]

/-- The signature verifies with the selected key. -/
def State.unlockOk (s : State) (nonce : BitVec 256) (r v : BitVec 384) : Bool :=
  let msg := s.unlockMessage nonce
  if s.umf.nonceKey then
    match s.board.flash.ownerKey with
    | some (x, y) => Config.ecdsaVerify x y msg r v
    | none => false
  else Config.ecdsaVerify Config.cermozoX Config.cermozoY msg r v

/-- UNLOCK_RESPONSE. -/
def execUnlockResponse (m : Fin 16) (s : State) : Res := s.command m 19 fun x =>
  match s.umf.nonce with
  | none => s.respond m 3 []
  | some nonce =>
    if x.argN 1 = 0 then { s with umf := { s.umf with sigR := some x.arg48 } }.respond m 0 []
    else if 1 < x.argN 1 then s.respond m 3 []
    else match s.umf.sigR with
      | none => s.respond m 3 []
      | some r =>
        let scope := rp s.umf.nonceScope.toNat
        let key := rp (if s.umf.nonceKey then 1 else 0)
        let ok := s.unlockOk nonce r x.arg48
        let u := { s.umf with nonce := none, sigR := none }
        if ok then
          let s := { s with umf := { u with
            lock := if s.umf.nonceKey then 2 else 1, scopes := s.umf.scopes ||| s.umf.nonceScope.setWidth 3 } }
          (s.recKey posUmf 0o013001 0 [scope, key]).respond m 0 []
        else
          let s := { s with umf := { u with fails := satAdd s.umf.fails 1 } }
          (s.recKey posUmf 0o013002 0 [scope, key, rp s.umf.fails.toNat]).respond m 5 []

/-- LOCK. -/
def execLock (m : Fin 16) (s : State) : Res := s.command m 20 fun _ =>
  { s with umf := { s.umf with lock := 0, scopes := 0 } }.respond m 0 []

/-- OWNER_ENROLL (R405). -/
def execOwnerEnroll (m : Fin 16) (s : State) : Res := s.command m 21 fun x =>
  if !s.umf.scopes.getLsbD 1 then s.respond m 5 []
  else if x.argN 1 = 0 then { s with umf := { s.umf with ownerX := some x.arg48 } }.respond m 0 []
  else if 1 < x.argN 1 then s.respond m 3 []
  else match s.umf.ownerX with
    | none => s.respond m 3 []
    | some px =>
      if Config.onCurve px x.arg48 then
        let s := { s with umf := { s.umf with ownerX := none }
                          board := { s.board with flash := { s.board.flash with ownerKey := some (px, x.arg48) } } }
        (s.recKey posUmf 0o013003 0 []).respond m 0 []
      else { s with umf := { s.umf with ownerX := none } }.respond m 3 []

/-! ### Mailbox interrupts (R391, R409) -/

/-- Whether a requester reaches the buffer and UMF_MBINT of mailbox m by control space (R386). -/
def State.boxMay (s : State) (w : Who) (m : Nat) : Bool :=
  whoOwn w || match (s.box m).path.toNat with
    | 0 => !s.whoVault w
    | 1 => s.whoVault w
    | _ => false

/-- A write of UMF_MBINT. -/
def State.mbint (s : State) (w : Who) (m : Nat) (v : W36) : State × Resp :=
  if !s.boxMay w m then (s, .world)
  else if hasBits v (bitsMask 35 32 ||| bitsMask 17 2) || decide (576 ≤ fld v 31 22) then (s, .rsvd)
  else
    (s.modBox m fun x => { x with
      intthr := BitVec.ofNat 10 (fld v 31 22), intcls := BitVec.ofNat 3 (fld v 21 19), inten := bitOf v 18
      cplPend := x.cplPend && !bitOf v 1, donePend := x.donePend && !bitOf v 0 }, .ok)

/-- UMF_MBINT_WRITE. -/
def execUmfMbintWrite (w : Who) (m : Fin 16) (v : W36) (s : State) : Res := .next (s.mbint w m v).1

/-- A control-space write of word k of a buffer (R386, R389). -/
def State.mbbuf (s : State) (w : Who) (m k : Nat) (v : W36) : State × Resp :=
  if s.boxMay w m then (s.modBox m fun x => x.write k v, .ok) else (s, .world)

/-- MAILBOX_REQ_WRITE (R389): word 0. -/
def execMailboxReqWrite (w : Who) (m : Fin 16) (v : W36) (s : State) : Res := .next (s.mbbuf w m 0 v).1

/-! ### The SMBus front end (R365, R392) -/

/-- The i-th SMBus mailbox. -/
def State.smbBox (s : State) (i : Nat) : Option Nat := ((List.range 16).filter fun m => (s.box m).path == 2)[i]?

/-- A transaction that the front end takes: Umfoent runs and stretches the clock no longer. -/
def State.smbTake (s : State) : State := { s with umf := { s.umf with sclHeld := false } }

/-- SMBUS_MCTP_WRITE. -/
def execSmbusMctpWrite (data : List Octet) (pecOk : Bool) (s : State) : Res :=
  if !s.umfServes then .next s
  else
    let s := s.smbTake
    if pecOk then .next { s with umf := { s.umf with mctp := s.umf.mctp ++ [data] } } else .next s

/-- SMBUS_MAILBOX_WRITE. -/
def execSmbusMailboxWrite (i : Fin 2) (data : List Octet) (pecOk : Bool) (s : State) : Res :=
  if !s.umfServes then .next s
  else
    let s := s.smbTake
    match s.smbBox i.val with
    | some m =>
      if pecOk && decide (1 ≤ data.length ∧ data.length ≤ 64) then .next (s.modBox m fun x => x.writeOctets 0 data)
      else .next s
    | none => .next s

/-- SMBUS_MAILBOX_READ. -/
def execSmbusMailboxRead (i : Fin 2) (s : State) : Res :=
  if !s.umfServes then .next s
  else
    let s := s.smbTake
    match s.smbBox i.val with
    | some m => .next { s with umf := { s.umf with smbOut := (s.box m).readOctets 0 64 } }
    | none => .next s

/-! ### SPDM (R401); the response codes are DSP0274's (UNVERIFIED, log entry 14) -/

/-- Sends an SPDM response back by the transport of its request. -/
def State.spdmSend (s : State) (p : Transport) (bs : List Octet) : Res :=
  if !s.umfServes then .next s
  else match p with
    | .smbus => .next { s with umf := { s.umf with spdm := s.umf.spdm ++ [bs] } }
    | .port q => if (s.port q).linkUp then .next (s.portSend q (.spdm bs) bs.length) else .next s

def spdmError : List Octet := [0x13, 0x7F, 0x01, 0x00]

/-- GET_VERSION. -/
def execGetVersion (p : Transport) (s : State) : Res := s.spdmSend p ([0x10, 0x04] ++ Config.spdmBody 0)
/-- GET_CAPABILITIES. -/
def execGetCapabilities (p : Transport) (s : State) : Res := s.spdmSend p ([0x13, 0x61] ++ Config.spdmBody 1)
/-- NEGOTIATE_ALGORITHMS: ECDSA P-384 is bit 7 of the asymmetric algorithms, SHA-384 bit 1 of the hashes. -/
def execNegotiateAlgorithms (p : Transport) (asym hash : BitVec 32) (s : State) : Res :=
  s.spdmSend p (if asym.getLsbD 7 && hash.getLsbD 1 then [0x13, 0x63] ++ Config.spdmBody 2 else spdmError)
/-- GET_DIGESTS: slot 0. -/
def execGetDigests (p : Transport) (s : State) : Res := s.spdmSend p ([0x13, 0x01] ++ Config.spdmBody 3)
/-- GET_CERTIFICATE: part of the chain of certificates 0 to 3 of slot 0. -/
def execGetCertificate (p : Transport) (slot : BitVec 8) (off len : BitVec 16) (s : State) : Res :=
  let chain := (List.range 4).flatMap fun k => s.certificate k
  s.spdmSend p (if slot = 0 then [0x13, 0x02] ++ Config.spdmBody 4 ++ ((chain.drop off.toNat).take len.toNat) else spdmError)
/-- CHALLENGE: slot 0. -/
def execChallenge (p : Transport) (slot : BitVec 8) (nonce : BitVec 256) (s : State) : Res :=
  s.spdmSend p (if slot = 0 then [0x13, 0x03] ++ Config.spdmBody (6 + nonce.toNat) else spdmError)
/-- GET_MEASUREMENTS: none (0), one (1 to 6) or all (255). -/
def execGetMeasurements (p : Transport) (idx : BitVec 8) (s : State) : Res :=
  let give (k : Nat) : List Octet := bigEndian 48 (s.measured k).toNat
  let i := idx.toNat
  s.spdmSend p (if i = 0 then [0x13, 0x60, 6] ++ Config.spdmBody 5
    else if i = 255 then [0x13, 0x60, 0] ++ Config.spdmBody 5 ++ ((List.range 6).flatMap fun k => give (k + 1))
    else if i ≤ 6 then [0x13, 0x60, 0] ++ Config.spdmBody 5 ++ give i
    else spdmError)

end Sys2Proof.Machine
end

