-- ==== Sys2Proof/Machine/Service.lean ====
section
/-! DEFINITION. Umfoent's service commands (R398): memory channels, Isles, microcode, firmware, port configuration,
hand-over and clearing the recorder. -/

namespace Sys2Proof.Machine

/-! ### Memory channels (R249, R260, R263, R272, R277) -/

/-- Argument word 1 as a channel: none is answered BADARG or ABSENT. -/
def State.withChan (s : State) (m : Fin 16) (x : Mailbox) (f : Fin 24 → State) : State :=
  if h : x.argN 1 < 24 then (if s.chanFit (x.argN 1) then f ⟨x.argN 1, h⟩ else s.respond m 8 []) else s.respond m 3 []

/-- A MEM_THAW row with its action: only a frozen channel is thawed. -/
def State.thawCmd (s : State) (m : Fin 16) (action : Nat) (f : State → Fin 24 → State) : Res := s.command m 32 fun x =>
  if x.argN 2 ≠ action then s
  else s.withChan m x fun c =>
    if (s.chan c).st ≠ .frozen then s.respond m 3 [] else s.accepted m (.channel c) fun s => f s c

/-- Writes POISON to the trigger line of a data freeze and to every listed line. -/
def State.poisonLost (s : State) (c : Nat) : State :=
  let x := s.chan c
  let ls := (if x.frzCause = 1 then [x.frzLine] else []) ++ x.lost
  ls.foldl (fun s n => s.memPut n poisonLine) s

/-- The blocked command and those after it are issued again (R277). -/
def State.replayAll (s : State) (c : Nat) : State :=
  let again (s : State) (x : DramCmd) : State :=
    match x with
    | .blocked (some n) => s.dramTouch c n false false
    | x => s.modChan c fun y => y.issue [x]
  ((s.chan c).replay.foldl again s).modChan c fun x => { x with replay := [] }

/-- RESUME (R277): works is what its tracking retrain finds. -/
def execResume (m : Fin 16) (works : Bool) (s : State) : Res := s.thawCmd m 0 fun s c =>
  match s.claim (reqChan c) 0 4 with
  | (s, false) => s.thawed c 0 2
  | (s, true) =>
    let s := s.release (reqChan c) 0 4
    if !works then
      let r := s.chanFail c 0
      (r.1.memAnswers r.2).thawed c 0 1
    else
      let s := ((s.replayAll c).drainAll c).poisonLost c
      if (s.chan c).lostovf then s.modChan c fun x => { x with st := .filling, inService := true, thaw := some 0, lost := [], lostovf := false }
      else (s.modChan c fun x => { x with st := .run, lost := [] }).thawed c 0 0

/-- RETRAIN (R277). -/
def execRetrain (m : Fin 16) (s : State) : Res := s.thawCmd m 1 fun s c =>
  let r := (s.modChan c fun x => { x with thaw := some 1 }).claimTraining c
  r.1.memAnswers r.2

/-- FAIL (R277). -/
def execFail (m : Fin 16) (s : State) : Res := s.thawCmd m 2 fun s c =>
  let r := s.chanFail c 1
  (r.1.memAnswers r.2).thawed c 2 1

/-- MEM_RETRAIN (R272). -/
def execMemRetrain (m : Fin 16) (s : State) : Res := s.command m 33 fun x =>
  s.withChan m x fun c =>
    if (s.chan c).st ≠ .run then s.respond m 3 []
    else s.accepted m (.channel c) fun s =>
      let r := s.claimTraining c
      r.1.memAnswers r.2

/-- MEM_INCLUDE (R249): effective at the next start-up. -/
def execMemInclude (m : Fin 16) (s : State) : Res := s.command m 34 fun x =>
  s.withChan m x fun c =>
    if (s.chan c).st ≠ .excluded then s.respond m 3 []
    else if s.unitBusy (.channel c) then s.respond m 6 []
    else
      { s with board := { s.board with flash := { s.board.flash with
          excluded := s.board.flash.excluded &&& ~~~((1 : BitVec 24) <<< c.val) } } }.respond m 0 []

/-- MEM_MARK (R260). -/
def execMemMark (m : Fin 16) (s : State) : Res := s.command m 35 fun x =>
  s.withChan m x fun c =>
    if 20 ≤ x.argN 2 then s.respond m 3 []
    else if s.unitBusy (.channel c) then s.respond m 6 []
    else if (s.chan c).mark.isSome then s.respond m 9 []
    else
      ((s.modChan c fun y => { y with mark := some (BitVec.ofNat 5 (x.argN 2)) }).recKey (posMc c) 0o004002 c
        [rp (x.argN 2), 1]).respond m 0 []

/-- MEM_PPR_ENROLL (R263). -/
def execMemPprEnroll (m : Fin 16) (s : State) : Res := s.command m 36 fun x =>
  s.withChan m x fun c =>
    let rows := sget [] s.board.flash.repair c
    if s.unitBusy (.channel c) || decide (8 ≤ rows.length) then s.respond m 6 []
    else
      { s with board := { s.board with flash := { s.board.flash with
          repair := sset [] s.board.flash.repair c (rows ++ [(x.arg 2, x.arg 3, x.arg 4, x.arg 5)]) } } }.respond m 0 []

/-! ### Isles (R398, R408) -/

/-- Argument word 1 as an Isle. -/
def State.withIsle (s : State) (m : Fin 16) (x : Mailbox) (f : Fin 12 → State) : State :=
  if h : x.argN 1 < 12 then (if s.isleFit (x.argN 1) then f ⟨x.argN 1, h⟩ else s.respond m 8 []) else s.respond m 3 []

/-- Both threads of core q that are stopped start; a core in Slack runs again. -/
def State.releaseCore (s : State) (q : Nat) (entry : Addr) : State :=
  if (s.core q).st = .dry then s
  else
    let s := (s.modThread (2 * q) fun x => x.release entry).modThread (2 * q + 1) fun x => x.release entry
    s.modCore q fun x => if x.st = .slack ∧ !x.slackReq then { x with st := .run } else x

/-- ISLE_RELEASE: an Isle in Neap is woken first; while its claim is refused the command waits (R363). -/
def execIsleRelease (m : Fin 16) (s : State) : Res := s.command m 48 fun x =>
  s.withIsle m x fun n =>
    if s.unitBusy (.isle n) then s.respond m 6 []
    else if (s.isle n).cond ≠ .admitted ∨ (s.isle n).st = .dry ∨ 2 ^ 24 ≤ x.argN 2 then s.respond m 3 []
    else
      let s := if (s.isle n).st = .neap then s.wakeIsle n else s
      if (s.isle n).st = .neap then s
      else
        let entry : Addr := x.arg 4 ++ x.arg 3
        ((List.range 24).foldl (fun (s : State) c =>
          if (x.arg 2).getLsbD c then s.releaseCore (n * 24 + c) entry else s) s).respond m 0 []

/-- An Isle that is powered is trained and admitted again (R226, R231): 0 severed, 1 admitted, 2 quarantined, 3 its
training waits for bearing. A report during the admission ends it (R232). -/
def State.readmit (s : State) (n : Nat) (tr : TrainIn) : State × Nat :=
  let s := if (s.isle n).cond = .reset then s.isleReset n else s
  match s.trainStart n with
  | (s, false) => (s, 3)
  | (s, true) =>
    match s.trained n tr.okI tr.okK with
    | (s, false) => (s.vcoreOff n, 0)
    | (s, true) =>
      match tr.report with
      | some k => (s.isleLost (Fin.ofNat 12 n) k, 0)
      | none =>
        let r := s.admitIsle n tr.ofs
        (r.1.modIsle n fun x => { x with st := .run }, if r.2 then 1 else 2)

/-- An Isle without VCORE comes up, its claim granted, as STR_ADMIT.RESULT. -/
def State.powerAdmit (s : State) (n : Nat) (tr : TrainIn) : State × Nat :=
  match s.islePower n tr with
  | (s, 0) => (s, 1)
  | (s, 1) => (s, 2)
  | (s, 2) => (s, 0)
  | (s, _) => (s, 3)

/-- The handle of an Isle ends with a result, or waits with its training. -/
def State.endAdmit (r : State × Nat) (n : Nat) : State := if r.2 = 3 then r.1 else r.1.endIsle n r.2

/-- ISLE_ADMIT: tr is what its training finds. VCORE of an Isle that is severed or has lost its clock goes off first
(R226). -/
def execIsleAdmit (m : Fin 16) (tr : TrainIn) (s : State) : Res := s.command m 49 fun x =>
  s.withIsle m x fun n =>
    let c := (s.isle n).cond
    if c = .admitted ∨ c = .offline ∨ c = .out then s.respond m 3 []
    else s.accepted m (.isle n) fun s =>
      let s := if c = .severed ∨ c = .clockLost then s.vcoreOff n else s
      if (s.isle n).vcore then State.endAdmit (s.readmit n tr) n
      else match s.claim (reqIsle n) 40 0 with
        | (s, true) => State.endAdmit (s.powerAdmit n tr) n
        | (s, false) => s.endHandle (.isle n) 7 1

/-- The requests of an Isle and its cores end as Umfoent takes it (R358, R361). -/
def State.dropRequests (s : State) (n : Fin 12) : State :=
  let off (x : Stream) : Stream := if x.act.isSome then { x.abort 6 with held := none } else x
  let s := s.modStream (.isle n) off
  (List.range 24).foldl (fun s c => s.modCore (n.val * 24 + c) fun x => { x with stream := off x.stream }) s

/-- ISLE_OFFLINE (R408), once the Isle's cores are drained; a Court command cannot power down a Vault-held Isle. -/
def execIsleOffline (m : Fin 16) (s : State) : Res := s.command m 50 fun x =>
  s.withIsle m x fun n =>
    if (s.isle n).cond = .offline then s.respond m 3 []
    else if x.path = 0 && s.isleVault n then
      (s.modStream (.isle n) fun y => { y with counts := satCount y.counts 2 }).respond m 7 [2]
    else if (s.isle n).cond = .admitted && !s.mayDry n then s
    else s.accepted m (.isle n) fun s =>
      let s := ((s.dropRequests n).trwAbort n).modIsle n fun y => { y with umfLock := true, cond := .offline }
      (s.isleDry n).endHandle (.isle n) 0 0

/-- ISLE_ONLINE (R408). -/
def execIsleOnline (m : Fin 16) (tr : TrainIn) (s : State) : Res := s.command m 51 fun x =>
  s.withIsle m x fun n =>
    if (s.isle n).cond ≠ .offline then s.respond m 3 []
    else s.accepted m (.isle n) fun s =>
      match s.claim (reqIsle n) 40 0 with
      | (s, false) => s.endHandle (.isle n) 7 1
      | (s, true) =>
        State.endAdmit ((s.modIsle n fun y => { y with umfLock := false, cond := .out }).powerAdmit n tr) n

/-! ### Images in package memory (R406) -/

/-- Umfoent's asker: agent 15, Vault (R368). -/
def umfAsker : Asker := { src := 15, tag := 511, vault := true, umf := true }

/-- Reads an image of len nonets from pa: whether every line answered; none while one waits. -/
def State.readImage (s : State) (pa len : Nat) : State × Option Bool :=
  (linesOf pa len).foldl (fun (r : State × Option Bool) (q : Nat × Nat × Nat × Nat) =>
    match r with
    | (s, some true) =>
      (match s.lineRead umfAsker (BitVec.ofNat 46 q.1) (maskOf q.2.1 q.2.2.1) with
      | (s, none) => (s, none)
      | (s, some (a, _)) => (s, some (a == .ok)))
    | r => r) (s, some true)

/-- Verification of an image: none when it passes, else DETAIL 1 signature or 2 security version. R398 and R407 do not say
what an image gives whose read answers another response than OK: DETAIL 1 (DESIGN CHOICE, log entry 62). -/
def State.imageBad (s : State) (img : ImageIn) (readable : Bool) : Option (BitVec 8) :=
  if !readable || !img.sigOk then some 1 else if img.security.toNat < s.umf.floor.toNat then some 2 else none

/-! ### Microcode (R407) -/

/-- The first Isle to do is woken, locked and parks. -/
def State.parkNext (s : State) : State :=
  match s.umf.ucode with
  | some { todo := n :: _, .. } =>
    let s := if (s.isle n).st = .neap then s.wakeIsle n else s
    s.modIsle n fun x => { x with umfLock := true, parked := true }
  | _ => s

/-- The update ends (R407). -/
def State.ucodeEnds (s : State) (r : UcodeRun) : State :=
  let s := { s with
    umf := { s.umf with ucode := none, ucodeVer := r.version, admref := r.version, altValid := false
                        measure := sset 0 s.umf.measure 4 r.digest }
    board := { s.board with flash := { s.board.flash with ucode := r.version, digU := r.digest } } }
  match r.failed with
  | none => s.endHandle .ucode 0 0
  | some n => s.endHandle .ucode 9 (BitVec.ofNat 8 n.val)

/-- UCODE_LOAD. -/
def execUcodeLoad (m : Fin 16) (img : ImageIn) (s : State) : Res := s.command m 52 fun x =>
  let pa := 2 ^ 32 * x.argN 2 + x.argN 1
  let mask := x.argN 4
  let todo : List (Fin 12) := (List.finRange 12).filter fun (n : Fin 12) =>
    let c := (s.isle n).cond
    mask.testBit n && s.isleFit n && (c == .admitted || c == .quarantined) && (s.isle n).st != .dry
  if 4096 ≤ mask ∨ x.argN 3 = 0 then s.respond m 3 []
  else if todo.any fun n => s.unitBusy (.isle n) then s.respond m 6 []
  else match s.readImage pa (x.argN 3) with
    | (s, none) => s
    | (s, some readable) => s.accepted m .ucode fun s =>
      match s.imageBad img readable with
      | some d => s.endHandle .ucode 9 d
      | none =>
        let r : UcodeRun := { mailbox := m, todo, version := img.version, digest := img.digest }
        let s := { s with umf := { s.umf with alt := img.version, altValid := true, ucode := some r } }
        if todo.isEmpty then s.ucodeEnds r else s.parkNext

/-- An Isle whose load failed is quarantined: its lines leave it and its cores go to Dry (R407, R227). -/
def State.ucodeFailed (s : State) (n : Nat) : State :=
  let s := (((((s.trwAbort n).forgetThreads n).endWindows n).emptyIsle n).unlist n)
  let freed := s.coresBearing n
  let s := (List.range 24).foldl (fun s c => s.coreGone (n * 24 + c)) s
  (s.release (reqIsle n) freed 0).quarantine n true false false

/-- UCODE_ISLE_PARKED (R407): the parked Isle, its issued instructions complete, loads, and the next one follows. -/
def execUcodeIsleParked (ok : Bool) (s : State) : Res :=
  match s.umf.ucode with
  | none => .next s
  | some r =>
    match r.todo with
    | [] => .next s
    | n :: todo =>
      if (s.isle n).st = .neap ∨ !s.isleDrained n ∨ (List.range 24).any (fun c => s.coreLaunch (n.val * 24 + c)) then .next s
      else
        let s := if ok then s.modIsle n fun x => { x with iver := r.version } else s.ucodeFailed n
        let s := s.recKey posUmf 0o013005 n [r.version.setWidth 72, rp (if ok then 0 else 9)]
        let s := s.modIsle n fun x => { x with umfLock := false, parked := false }
        let r := { r with todo, failed := if ok || r.failed.isSome then r.failed else some n }
        if todo.isEmpty then .next (s.ucodeEnds r)
        else .next ({ s with umf := { s.umf with ucode := some r } }.parkNext)

/-! ### Firmware (R406) -/

/-- FW_STAGE. -/
def execFwStage (m : Fin 16) (img : ImageIn) (flashOk : Bool) (s : State) : Res := s.command m 80 fun x =>
  match s.readImage (2 ^ 32 * x.argN 2 + x.argN 1) (x.argN 3) with
  | (s, none) => s
  | (s, some readable) => s.accepted m .firmware fun s =>
    match s.imageBad img readable with
    | some d => s.endHandle .firmware 9 d
    | none =>
      if !flashOk then s.endHandle .firmware 9 3
      else
        let fl := s.board.flash
        let s := if s.umf.active then
            { s with umf := { s.umf with verA := img.version }, board := { s.board with flash := { fl with slotA := img.version, digA := img.digest } } }
          else { s with umf := { s.umf with verB := img.version }, board := { s.board with flash := { fl with slotB := img.version, digB := img.digest } } }
        { s with umf := { s.umf with standby := true } }.endHandle .firmware 0 0

/-- FW_SWAP. -/
def execFwSwap (m : Fin 16) (selfTest : Bool) (s : State) : Res := s.command m 81 fun _ =>
  if !s.umf.standby then s.respond m 3 []
  else s.accepted m .firmware fun s =>
    let old := s.fwVersion
    let new := if s.umf.active then s.umf.verA else s.umf.verB
    let st : BitVec 8 := if selfTest then 0 else 9
    let s := { s with umf := { s.umf with aliasNo := s.umf.aliasNo + if selfTest then 1 else 2 } }
    let s := if selfTest then
        { s with umf := { s.umf with
                   active := !s.umf.active, standby := false, measure := sset 0 s.umf.measure 2 (if s.umf.active then s.board.flash.digA else s.board.flash.digB) }
                 board := { s.board with flash := { s.board.flash with bootB := !s.umf.active } } }
      else s
    (s.recKey posUmf 0o013004 0 [old.setWidth 72, new.setWidth 72, st.setWidth 72]).endHandle .firmware st 0

/-! ### Port configuration (R282, R283, R285, R386) -/

/-- The endpoint-path mailboxes are assigned to the blocks with endpoint ports, both ascending (R386). -/
def State.assignBoxes (s : State) : State :=
  let bs := (List.range 12).filter fun b => (s.epPort b).isSome
  let ms := (List.range 16).filter fun m => (s.box m).path == 3
  (bs.zip ms).foldl (fun s p => s.modBox p.2 fun x => { x with block := BitVec.ofNat 4 p.1 }) s

/-- The rings of block b's endpoint: the contiguous range that the stored configuration gives it is assigned and enabled, in
its port's world; rings that it no longer has are package rings again (R331). -/
def State.assignRings (s : State) (b : Nat) : State :=
  let range := sget (0, 0) s.board.flash.epRings b
  let epb := BitVec.ofNat 4 (b + 1)
  let mine (r : Nat) : Bool := (s.epPort b).isSome && decide (range.1 ≤ r ∧ r < range.1 + range.2 ∧ r < 524288)
  let s := (s.epRings b).foldl (fun s r =>
    if mine r then s
    else s.modRing r fun x =>
      if x.st = .draining then { x with epb := 0, again := none } else { x with en := false, st := .disabled, epb := 0, again := none }) s
  match s.epPort b with
  | none => s
  | some p =>
    (List.range (min range.2 65536)).foldl (fun s i =>
      let r := range.1 + i
      if mine r && !(s.ring r).locked then s.modRing r fun x => { x with epb }.enable (s.portVault p) else s) s

/-- The ports of a block take their stored roles. -/
def State.setRoles (s : State) (b : Nat) (bound : BitVec 7) (roles cxl : BitVec 32) : State :=
  (List.range 8).foldl (fun s g =>
    let made := (portsOf bound).any fun p => p.1 == g
    s.modPort (8 * b + g) fun x =>
      if made then { x with role := BitVec.ofNat 2 (roles.toNat / 4 ^ g), cxl := cxl.getLsbD g } else { x with role := 1, cxl := false }) s

/-- PORT_CONFIG: every link of the block goes down, to be trained again. -/
def execPortConfig (m : Fin 16) (s : State) : Res := s.command m 60 fun x =>
  if h : x.argN 1 < 12 then
    let b : Fin 12 := ⟨x.argN 1, h⟩
    let bound : BitVec 7 := (x.arg 2).extractLsb' 1 7
    let roles := x.arg 3
    let cxl := x.arg 4
    let others := (List.range 12).filter fun q => q != b.val && (s.epPort q).isSome
    let mine := (portsOf bound).filter fun p => roles.toNat / 4 ^ p.1 % 4 == 2
    let boxes := (List.range 16).filter fun q => (s.box q).path == 3
    let plain := x.argN 2 < 256 ∧ x.argN 2 % 2 = 0 ∧ x.argN 3 < 65536 ∧ x.argN 4 < 256
    if !plain || !blockLegal bound roles cxl || decide (boxes.length < others.length + mine.length) then s.respond m 3 []
    else s.accepted m (.block b) fun s =>
      let s := s.epReset b true
      let s := (List.range 8).foldl (fun s g => (s.linkDown (8 * b + g) 0).portGiveUp (8 * b + g)) s
      let s := (s.modBlock b fun y => { y with bound }).setRoles b bound roles cxl
      let fl := s.board.flash
      let ps := (List.range 8).map fun g => 8 * b.val + g
      let fl := { fl with
        bounds := sset 0 fl.bounds b bound
        roles := ps.foldl (fun (r : Store (BitVec 2)) p => sset 1 r p (s.port p).role) fl.roles
        cxls := ps.foldl (fun (r : Store Bool) p => sset false r p (s.port p).cxl) fl.cxls }
      (({ s with board := { s.board with flash := fl } }.assignBoxes).assignRings b).endHandle (.block b) 0 0
  else s.respond m 3 []

/-! ### Hand-over (R376) -/

/-- The requester of a start (R376): Umfoent 0, the thread writes 1, which R18 orders by thread number. -/
def hoPos : HoSrc → Nat
  | .mailbox _ => 0
  | .write w => if whoUmf w then 0 else 1
def hoMem : HoSrc → Nat
  | .write (.thread t) => t.val
  | .write _ | .mailbox _ => 0

/-- One start of a hand-over, by a register write or by mailbox m's HANDOVER command. -/
def State.handoverOne (s : State) (a : HoAsk) : State :=
  let n := hoNums a.unit
  match a.src, s.hoUnit n.1 n.2 with
  | .write w, some u =>
    if !s.mayWld w then s
    else if s.worlds.ho.isSome then { s with worlds := { s.worlds with rej := true } }
    else
      let s := { s with worlds := { s.worlds with
        hoClass := BitVec.ofNat 2 n.1, hoTo := a.toV, hoIndex := BitVec.ofNat 7 n.2 } }
      s.hoStart u a.toV none (hoPos a.src)
  | .write _, none => s
  | .mailbox m, u => s.commanded m 64 fun x =>
    if x.argN 1 ≠ n.1 ∨ x.argN 2 ≠ n.2 ∨ x.argN 3 ≠ (if a.toV then 1 else 0) then s
    else match u with
      | none => s.respond m 3 []
      | some u =>
        if a.toV && !s.worlds.vaulten then s.respond m 3 []
        else if s.worlds.ho.isSome then { s with worlds := { s.worlds with rej := true } }.respond m 6 []
        else s.accepted m .handover fun s => s.hoStart u a.toV (some m) 0

/-- A hand-over row: its start, with the others that arrive in its cycle, in the order of R17 and R18 (R376). -/
def State.handover (s : State) (a : HoAsk) (others : List HoAsk) : Res :=
  let l := a :: others
  let order := (inTurn 2 (fun a : HoAsk => hoPos a.src) (fun a => hoMem a.src) s.worlds.hoPtr l l.length).1
  .next (order.foldl (fun s a => s.handoverOne a) s)

/-- HANDOVER_ENGINE (R378). -/
def execHandoverEngine (f : HoSrc) (k : Fin 32) (toV : Bool) (others : List HoAsk) (s : State) : Res :=
  s.handover ⟨f, .engine k, toV⟩ others
/-- HANDOVER_PORT (R378). -/
def execHandoverPort (f : HoSrc) (p : Fin 96) (toV : Bool) (others : List HoAsk) (s : State) : Res :=
  s.handover ⟨f, .port p, toV⟩ others
/-- HANDOVER_PARTITION (R378). -/
def execHandoverPartition (f : HoSrc) (n : Fin 12) (p : Fin 8) (toV : Bool) (others : List HoAsk) (s : State) : Res :=
  s.handover ⟨f, .part n p, toV⟩ others
/-- HANDOVER_GUEST_SITE (R378). -/
def execHandoverGuestSite (f : HoSrc) (g : Fin 2) (toV : Bool) (others : List HoAsk) (s : State) : Res :=
  s.handover ⟨f, .site g, toV⟩ others

/-! ### Clearing the recorder (R416) -/

/-- EVR_CLEAR: the recorder stops storing. -/
def execEvrClear (m : Fin 16) (s : State) : Res := s.command m 72 fun _ =>
  if !s.umf.scopes.getLsbD 2 then s.respond m 5 []
  else s.accepted m .recorder fun s =>
    { s with evr := { s.evr with clearing := true, clearBy := if s.umf.lock = 2 then 1 else 0, clearBox := BitVec.ofNat 4 m.val } }

end Sys2Proof.Machine
end

