-- ==== Sys2Proof/Machine/Recorder.lean ====
section
/-! DEFINITION. The event recorder (R410 to R416) and the unit counters of the Isles and the Keystone (R425). -/

namespace Sys2Proof.Machine

/-! ### Acceptance (R411) -/

/-- The oldest record of the lowest-numbered position of source 15, or of another source (R18). -/
def nextOfSource (rs : List Rec) (src : Nat) : Option Rec :=
  let mine := rs.filter fun r => r.src.toNat == src
  let low := mine.foldl (fun a r => min a r.pos) ((mine.head?.map (·.pos)).getD 0)
  mine.find? fun r => r.pos == low

/-- The record that R17 and R18 grant next. -/
def Evr.granted (e : Evr) (batch : List Rec) : Option Rec :=
  match arbitrate 16 e.ptr.val fun k => batch.any fun r => r.src.toNat == k with
  | some k => nextOfSource batch k
  | none => none

/-- A record is dropped and counted. -/
def Evr.dropOne (e : Evr) : Evr := { e with dropcnt := e.dropcnt + 1, lost := satAdd e.lost 1 }

/-- A record is accepted, or dropped when the queue is full or SEQ has saturated. -/
def Evr.accept (e : Evr) (r : Rec) : Evr :=
  let e := { e with ptr := Fin.ofNat 16 (r.src.toNat + 1) }
  if e.seqsat || decide (256 ≤ e.queue.length) then e.dropOne else { e with queue := e.queue ++ [r] }

/-- The records of one cycle arrive. -/
def Evr.arrive (e : Evr) (batch : List Rec) : Nat → Evr
  | 0 => e
  | k + 1 =>
    match e.granted batch with
    | none => e
    | some r => (e.accept r).arrive (batch.erase r) k

/-- RECORD_ARRIVES: the k oldest records on their way arrive in one Keystone cycle. -/
def execRecordArrives (k : Nat) (s : State) : Res :=
  let batch := s.evr.travel.take k
  .next { s with evr := { s.evr with travel := s.evr.travel.drop k }.arrive batch batch.length }

/-! ### Storing (R411, R412) -/

/-- The slot of the record with sequence number q: Foundation slots first, Tide slots in rotation. -/
def slotOf (q : Nat) : Nat := if q < 4096 then q else 4096 + (q - 4096) % 28672

/-- The fill fields after the record with sequence number q. -/
def Evr.filled (e : Evr) (q : Nat) : Evr :=
  if q < 4096 then { e with ffill := BitVec.ofNat 13 (q + 1) }
  else
    let t := ((q - 4096) % 28672 + 1) % 28672
    { e with tnext := BitVec.ofNat 15 t, tfull := e.tfull || t == 0 }

/-- Stores a record with the next SEQ and the records lost before it. -/
def Evr.store (e : Evr) (r : Rec) : Evr :=
  let q := e.seq.toNat
  { e.filled q with
    slots := sset {} e.slots (slotOf q) { r with seq := e.seq, lost := e.lost }
    lost := 0, seq := e.seq + 1, seqsat := q == 2 ^ 44 - 1 }

/-- RECORD_STORE: the head of the queue drains, unless a clear runs. -/
def execRecordStore (s : State) : Res :=
  match s.evr.queue with
  | [] => .next s
  | r :: q =>
    if s.evr.clearing then .next s
    else if s.evr.seqsat then .next { s with evr := { s.evr with queue := q }.dropOne }
    else .next { s with evr := { s.evr with queue := q }.store r }

/-- The recorder empty, what waits for it and the counts of what it dropped kept (R412, R416). -/
def Evr.zeroed (e : Evr) : Evr :=
  { e with slots := [], seq := 0, ffill := 0, tnext := 0, tfull := false, seqsat := false }

/-- EVR_CLEAR_DONE (R416): CLEARED is record 0, and the handle ends OK. -/
def execEvrClearDone (s : State) : Res :=
  if !s.evr.clearing then .next s
  else
    let r : Rec := { code := 0o000001, src := 15, pos := posUmf, epoch := s.lh.epoch, count := s.lh.count, thread := 1023
                     p0 := s.evr.seq.setWidth 72, p1 := s.evr.clearBy.setWidth 72, p2 := s.evr.clearBox.setWidth 72 }
    .next ({ s with evr := { s.evr.zeroed.store r with clearing := false } }.endHandle .recorder 0 0)

/-! ### Reading (R410, R414, R415) -/

/-- Double d of a record as it lies in its slot. -/
def Rec.double (r : Rec) (d : Nat) : Reg :=
  match d with
  | 0 => (0 : BitVec 8) ++ r.seq ++ r.src ++ r.code
  | 1 => r.epoch ++ r.count
  | 2 => (0 : BitVec 24) ++ r.lost ++ (0 : BitVec 15) ++ BitVec.ofBool r.world ++ r.unit
  | 3 => (0 : BitVec 50) ++ r.ctx ++ r.thread
  | 4 => r.p0
  | 5 => r.p1
  | 6 => r.p2
  | 7 => r.p3
  | _ => 0

/-- The Court world's view of a record (R415). -/
def Rec.courtDouble (r : Rec) (d : Nat) : Reg := if r.world && decide (3 ≤ d) then 0 else r.double d

/-- The three readers (R414). -/
inductive Rdr where
  | court | vault | umf
  deriving DecidableEq, Repr

def State.rdrOf (s : State) (w : Who) : Rdr := if whoUmf w then .umf else if s.whoVault w then .vault else .court

def Evr.reader (e : Evr) : Rdr → Reader
  | .court => e.court
  | .vault => e.vault
  | .umf => e.umf

def Evr.setReader (e : Evr) (k : Rdr) (r : Reader) : Evr :=
  match k with
  | .court => { e with court := r }
  | .vault => { e with vault := r }
  | .umf => { e with umf := r }

/-- Word k of a reader's window. -/
def windowWord (k : Rdr) (r : Reader) (i : Nat) : W36 :=
  let d := if k = .court then r.shadow.courtDouble (i / 2) else r.shadow.double (i / 2)
  d.extractLsb' (36 * (i % 2)) 36

/-- A read of EVR_WINDOW word i. -/
def State.windowRead (s : State) (w : Who) (i : Nat) : State × W36 :=
  let k := s.rdrOf w
  let r := s.evr.reader k
  let r := if i = 0 then { r with shadow := sget {} s.evr.slots r.slot.toNat } else r
  let v := windowWord k r i
  let r := if i = 15 ∧ r.auto then { r with slot := r.slot + 1 } else r
  ({ s with evr := s.evr.setReader k r }, v)

/-- EVR_WINDOW_READ (R415). -/
def execEvrWindowRead (w : Who) (k : Fin 16) (s : State) : Res := .next (s.windowRead w k.val).1

/-! ### Unit counters (R425) -/

def State.sndOf (s : State) : SndUnit → Store SndCnt
  | .isle n => (s.isle n).snd
  | .keystone => s.snd

def State.setSnd (s : State) (u : SndUnit) (i : Nat) (c : SndCnt) : State :=
  match u with
  | .isle n => s.modIsle n fun x => { x with snd := sset {} x.snd i c }
  | .keystone => { s with snd := sset {} s.snd i c }

/-- How the registers of counter i answer: R227 for an Isle's, WORLD to a Court access while VW is 1. -/
def State.sndAnswer (s : State) (w : Who) (u : SndUnit) (i : Nat) : Resp :=
  let world : Bool := (sget {} (s.sndOf u) i).vw && !s.whoVault w
  match u with
  | .isle n =>
    (match s.isleAnswer n (whoUmf w) with
    | .absent => .absent
    | a => if world then .world else a)
  | .keystone => if world then .world else .ok

/-- A read of SND_ULO. -/
def State.uloRead (s : State) (w : Who) (u : SndUnit) (i : Nat) : State × Resp × W36 :=
  match s.sndAnswer w u i with
  | .ok =>
    let c := sget {} (s.sndOf u) i
    (s.setSnd u i { c with uhi := c.count.extractLsb' 24 24 }, .ok, (c.count.extractLsb' 0 24 : BitVec 24).setWidth 36)
  | a => (s, a, 0)

/-- A write of SND_ULO. -/
def State.uloWrite (s : State) (w : Who) (u : SndUnit) (i : Nat) (v : W36) : State × Resp :=
  match s.sndAnswer w u i with
  | .ok =>
    if hasBits v (bitsMask 35 24) then (s, .rsvd)
    else (s.setSnd u i { sget {} (s.sndOf u) i with count := v.setWidth 48 }, .ok)
  | a => (s, a)

/-- The UNIT values that an event admits: 2,047 for every slice of an Isle. -/
def uselLegal (u : SndUnit) (ev unit : Nat) : Bool :=
  match u with
  | .isle _ => ev == 0 && (decide (unit < 24) || unit == 2047) || decide (1 ≤ ev ∧ ev ≤ 6) && (decide (unit < 24) || unit == 2047)
  | .keystone =>
    (ev == 0 && decide (unit < 96)) || (decide (16 ≤ ev ∧ ev ≤ 18) && decide (unit < 24)) || (decide (32 ≤ ev ∧ ev ≤ 34) && decide (unit < 24))
      || (decide (48 ≤ ev ∧ ev ≤ 49) && decide (unit < 96)) || (ev == 64 && decide (unit < 32))

/-- A write of SND_USEL. -/
def State.uselWrite (s : State) (w : Who) (u : SndUnit) (i : Nat) (v : W36) : State × Resp :=
  match s.sndAnswer w u i with
  | .ok =>
    if bitOf v 15 && !s.whoVault w then (s, .world)
    else if hasBits v (bitsMask 35 27 ||| bitsMask 14 10) || !uselLegal u (fld v 9 0) (fld v 26 16) then (s, .rsvd)
    else (s.setSnd u i { sget {} (s.sndOf u) i with
      unit := BitVec.ofNat 11 (fld v 26 16), vw := bitOf v 15, event := BitVec.ofNat 10 (fld v 9 0) }, .ok)
  | a => (s, a)

end Sys2Proof.Machine
end

