-- ==== Sys2Proof/Machine/Startup.lean ====
section
/-! DEFINITION. Start-up, the scopes of reset and package fatal (R426 to R448): power-on, the reset land, the eight
steps, and the rails, clocks and lands of the board. -/

namespace Sys2Proof.Machine

/-! ### Records of start-up (R428, R429) -/

/-- STARTUP_STEP of step k, and the next step begins. -/
def State.stepDone (s : State) (k : Nat) (dur : BitVec 64) : State :=
  let s := s.recKey posUmf (BitVec.ofNat 16 (8 + k)) 0 [dur.setWidth 72]
  { s with board := { s.board with step := k + 1 } }

/-- STARTUP_FAIL with its step and reason. -/
def State.startFail (s : State) (k reason : Nat) : State := s.recKey posUmf 0o000021 0 [rp k, rp reason]

/-- Start-up stops with a reason. -/
def State.startStop (s : State) (k reason : Nat) : State :=
  let s := s.startFail k reason
  { s with board := { s.board with stopped := some (BitVec.ofNat 8 reason) } }

/-! ### Step 1 (R412) -/

/-- The recorder finds its slots and fill fields lost, and stores CONTENT_LOST as record 0. -/
def State.checkSlots (s : State) : State :=
  if s.board.slotsLost then
    let r : Rec := { code := 0o000002, src := 15, pos := posUmf, epoch := s.lh.epoch, count := s.lh.count, thread := 1023 }
    { s with evr := s.evr.zeroed.store r, board := { s.board with slotsLost := false } }
  else s

def State.startup1 (s : State) (dur : BitVec 64) : State := s.checkSlots.stepDone 1 dur

/-! ### Step 2 (R386, R406, R428) -/

/-- The stored configuration is loaded: mailboxes, ports, ISLE_POLICY and COURTWR. -/
def State.loadConfig (s : State) : State :=
  let f := s.board.flash
  let box (s : State) (m : Nat) : State :=
    s.modBox m fun x => { x with path := sget 0 f.paths m, block := sget 0 f.blockOf m }
  let port (s : State) (p : Nat) : State := s.modPort p fun x => { x with role := sget 1 f.roles p, cxl := sget false f.cxls p }
  -- a BOUND that yields an illegal port is not loaded (R283)
  let block (s : State) (b : Nat) : State :=
    let r := s.blockRoles b
    let bound := sget 0 f.bounds b
    s.modBlock b fun x => { x with bound := if blockLegal bound r.1 r.2 then bound else 0 }
  let s := (List.range 16).foldl box s
  let s := (List.range 96).foldl port s
  let s := (List.range 12).foldl block s
  { s with umf := { s.umf with islePolicy := f.islePolicy }, lh := { s.lh with courtwr := f.courtwr } }

/-- Versions and measurements of the images that run. -/
def State.loadImages (s : State) (slotB : Bool) : State :=
  let f := s.board.flash
  let m := sset 0 (sset 0 s.umf.measure 2 (if slotB then f.digB else f.digA)) 4 f.digU
  { s with umf := { s.umf with
      aliasNo := s.umf.aliasNo + 1, active := slotB, verA := f.slotA, verB := f.slotB, ucodeVer := f.ucode, admref := f.ucode, measure := sset 0 m 3 f.digV } }

def State.startup2 (s : State) (dur : BitVec 64) (aOk bOk ucodeOk vaultOk : Bool) : State :=
  let first := s.board.flash.bootB
  let ok (b : Bool) : Bool := if b then bOk else aOk
  if !aOk && !bOk then s.startStop 2 1
  else if !ucodeOk then s.startStop 2 2
  else
    let has := s.board.flash.vault.isSome
    let s := if has && !vaultOk then s.startFail 2 3 else s
    let s := (s.loadImages (if ok first then first else !first)).loadConfig
    let s := { s with board := { s.board with vaultOk := has && vaultOk } }
    s.stepDone 2 dur

/-! ### Steps 3 and 4 (R428, R430, R444) -/

/-- Step 3 goes on while the base bearing is refused (R426). digests 0 to 11 are what the Keystone computes for each Isle position, 12 to 23 what the Isles' own fuse maps give;
a digest not given for an Isle equals the Keystone's. -/
def State.startup3 (s : State) (dur : BitVec 64) (fuseOk : Bool) (digests : List (BitVec 32)) : State :=
  if !fuseOk then s.startStop 3 4
  else
    match s.claim reqUmf 0 160 with
    | (s, false) => s
    | (s, true) =>
    let s := { s with board := { s.board with vkey := true, vddq := true, vserdes := true } }
    let give (s : State) (n : Nat) : State :=
      let d := digests.getD n 0
      (s.modStrait n fun x => { x with refDigest := d }).modIsle n fun x => { x with idigest := digests.getD (12 + n) d }
    ((List.range s.variant.isles).foldl give s).stepDone 3 dur

/-- Time enough for the granted ramps to end passes. -/
def State.rampsEnd (s : State) : State := { s with ledger := { s.ledger with ramps := [] } }

/-- An Isle that its training or a report severed is powered off (R226, R430). -/
def State.startOff (s : State) (n : Nat) : State :=
  ((s.vcoreOff n).modStrait n fun x => { x with st := .severed }).modIsle n fun x => { x with cond := .severed, st := .dry }

/-- One Isle is powered, trained and admitted, or found severed; while a claim of its is refused it waits. -/
def State.startIsle (s : State) (n : Fin 12) (tr : TrainIn) : State :=
  let c := (s.isle n).cond
  let waits := (s.isle n).vcore && (s.strait n).bearwait
  if s.isleFit n && (c == .out || c == .severed) then
    match if waits then (s, true) else s.rampsEnd.claim (reqIsle n) 40 0 with
    | (s, true) =>
      match s.islePower n tr with
      | (s, 2) => s.startOff n
      | (s, _) => s
    | (s, false) => s
  else s

/-- What training finds for each fitted Isle; a second entry for an Isle is its second training (R430). While an Isle waits
for bearing the step goes on: the next row of the step tries those that are still out (R426). -/
def State.startup4 (s : State) (dur : BitVec 64) (isles : List (Fin 12 × TrainIn)) : State :=
  let isles := if s.board.stepWaits then isles.filter fun p => (s.isle p.1).cond == .out else isles
  let twice := isles.zipIdx.filter fun p => decide (((isles.take p.2).filter fun q => q.1 == p.1.1).length < 2)
  let s := twice.foldl (fun s p => s.startIsle p.1.1 p.1.2) s
  let stepWaits := twice.any fun p => s.isleFit p.1.1 && (s.isle p.1.1).cond == .out
  let s := { s with board := { s.board with stepWaits } }
  if stepWaits then s else if s.home.mask = 0 then s.startStop 4 5 else s.stepDone 4 dur

/-! ### Step 5 (R244, R245, R263, R270, R274, R432, R455) -/

/-- Rates that a module type admits: bit r is rate r of MC_CHSTAT. -/
def typeRates (ty : BitVec 2) : BitVec 6 := if ty = 1 then 0b011110 else if ty = 2 then 0b110000 else 0

def dimmRates (d : DimmIn) : BitVec 6 := d.rates &&& typeRates d.type

/-- The first of reasons 1 to 6 that applies. -/
def dimmReason (d : DimmIn) : Option Nat :=
  if !d.spdOk then some 1
  else if d.type = 3 then some 2
  else if !d.one then some 3
  else if d.capGn.toNat < 32 ∨ 512 < d.capGn.toNat then some 4
  else if !d.caParity then some 5
  else if dimmRates d = 0 then some 6
  else none

/-- The rate that most of the modules support, the highest when several tie (R245). -/
def chooseRate (ds : List DimmIn) : Nat :=
  let count (r : Nat) : Nat := (ds.filter fun d => (dimmRates d).getLsbD r).length
  [2, 3, 4, 5].foldl (fun best r => if count best ≤ count r then r else best) 1

/-- hPPR of the enrolled rows: those repaired leave the list, the others too, recorded (R263). -/
def State.applyPpr (s : State) (cs : List Nat) (repaired : List Bool) : State :=
  let rows := cs.flatMap fun c => (sget [] s.board.flash.repair c).map fun r => (c, r)
  let s := rows.zipIdx.foldl (fun (s : State) p =>
    if repaired.getD p.2 true then s
    else
      let r := p.1.2
      s.recKey posUmf 0o004021 p.1.1 [r.1.setWidth 72, r.2.1.setWidth 72, r.2.2.1.setWidth 72, r.2.2.2.setWidth 72]) s
  let repair := cs.foldl (fun m c => sset [] m c []) s.board.flash.repair
  { s with board := { s.board with flash := { s.board.flash with repair } } }

/-- A channel claims its bearing and begins to train where there is room for the whole claim, else it waits (R432). -/
def State.startClaim (s : State) (rate : Nat) (d : DimmIn) : State :=
  let c := d.chan.val
  if claimOk s.ledger 0 36 then
    (s.claim (reqChan c) 0 36).1.modChan c fun x => { x with
      st := .training, bearwait := false, rate := BitVec.ofNat 3 rate, type := d.type, cap := d.capGn
      pasrSupp := d.pasr, drfm := d.drfm }
  else s.modChan c fun x => { x with bearwait := true }

/-- The training of a channel ends: it is filled, or Failed. -/
def State.startTrained (s : State) (d : DimmIn) : State :=
  let c := d.chan.val
  if (s.chan c).st ≠ .training then s
  else if !d.trains then (s.chanFail c 0).1
  else if !d.clean then (s.chanFail c 2).1
  else (s.release (reqChan c) 0 24).modChan c fun x => { x with st := .filling }

/-- As many channels train at once as the bearing grants; those that it refused follow as it is released (R274). -/
def State.startRounds (s : State) (rate : Nat) : Nat → List DimmIn → State
  | 0, _ => s
  | _, [] => s
  | k + 1, ds =>
    let s := ds.foldl (fun s d => s.startClaim rate d) s
    let s := ds.foldl State.startTrained s
    let left := ds.filter fun d => (s.chan d.chan).bearwait
    if left.length = ds.length then s else s.startRounds rate k left

/-- The modules that are read: those of fitted channels that are not excluded. -/
def State.readDimms (s : State) (dimms : List DimmIn) : List DimmIn :=
  (List.range s.variant.chans).filterMap fun c =>
    if s.board.flash.excluded.getLsbD c then none else dimms.find? fun d => d.chan.val == c && d.type != 0

/-- Steps 1 to 3 of R274, up to the training: exclusions, the reasons of R455, hPPR; reason 7 comes before any training. -/
def State.startModules (s : State) (dimms : List DimmIn) (repaired : List Bool) : State :=
  let out := s.board.flash.excluded
  let s := (List.range s.variant.chans).foldl (fun (s : State) c =>
    if out.getLsbD c then s.modChan c fun x => { x with st := .excluded } else s) s
  let here := s.readDimms dimms
  let s := here.foldl (fun (s : State) d =>
    match dimmReason d with
    | some r => s.recKey posUmf 0o004020 d.chan [rp r]
    | none => s) s
  let good := here.filter fun d => (dimmReason d).isNone
  let s := s.applyPpr (good.map fun d => d.chan.val) repaired
  good.foldl (fun (s : State) d =>
    if (dimmRates d).getLsbD (chooseRate good) then s else s.recKey posUmf 0o004020 d.chan [7]) s

/-- Step 5. While a channel waits for its bearing the step goes on: the next row of the step tries again (R270, R432). -/
def State.startup5 (s : State) (dur : BitVec 64) (dimms : List DimmIn) (repaired : List Bool) : State :=
  let again := s.chans.any fun c => c.2.bearwait
  let good := (s.readDimms dimms).filter fun d => (dimmReason d).isNone
  let rate := chooseRate good
  let fit := good.filter fun d => (dimmRates d).getLsbD rate
  let s := if again then s else s.startModules dimms repaired
  let ds := if again then fit.filter fun d => (s.chan d.chan).bearwait else fit
  let s := s.startRounds rate ds.length ds
  if s.chans.any fun c => c.2.bearwait then s else s.stepDone 5 dur

/-! ### Step 6 (R247, R274, R433) -/

/-- The interleave sets of channels with remaining capacities in Mn, from base B. -/
def buildSets : Nat → List (Nat × Nat) → Nat → List MemSet × Nat
  | 0, _, b => ([], b)
  | k + 1, rem, b =>
    let ms := rem.filter fun p => decide (0 < p.2)
    match ms with
    | [] => ([], b)
    | m :: _ =>
      let depth := ms.foldl (fun a p => min a p.2) m.2
      let members := ms.foldl (fun (a : BitVec 24) p => a ||| ((1 : BitVec 24) <<< p.1)) 0
      let r := buildSets k (ms.map fun p => (p.1, p.2 - depth)) (b + ms.length * depth)
      ({ base := BitVec.ofNat 52 (2 ^ 20 * b), members, depth := BitVec.ofNat 20 depth } :: r.1, r.2)

/-- The map of the working channels. -/
def State.buildMap (s : State) : State :=
  let work := (List.range 24).filter fun c => (s.chan c).st == .run
  let r := buildSets 24 (work.map fun c => (c, 1024 * (s.chan c).cap.toNat)) 0
  { s with memSets := r.1, memTop := BitVec.ofNat 24 r.2 }

/-- An image is copied to its load address, one line per 72 octets. -/
def State.copyImage (s : State) (b : BootImage) : State :=
  b.lines.zipIdx.foldl (fun (s : State) p =>
    let n : LineNo := BitVec.ofNat 46 (b.load.toNat / 64 + p.2)
    if s.dramLine n then s.memPut n { bits := p.1 } else s) s

def State.startup6 (s : State) (dur : BitVec 64) (failed : List (Fin 24)) : State :=
  let s := failed.foldl (fun (s : State) c => if (s.chan c).st = .filling then (s.chanFail c 2).1 else s) s
  let s := (List.range 24).foldl (fun (s : State) c =>
    if (s.chan c).st = .filling then s.modChan c fun x => { x with st := .run, poisonFill := 0 } else s) s
  let s := { s with mem := [] }.buildMap
  if s.memSets.isEmpty then s.startStop 6 6
  else
    let s := s.copyImage s.board.flash.court
    let s := match s.board.flash.vault with
      | some b => if s.board.vaultOk then s.copyImage b else s
      | none => s
    s.stepDone 6 dur

/-! ### Step 7 (R98, R121, R229, R312, R374, R433) -/

/-- Region 0 over the pages of an image. -/
def imageRegion (b : BootImage) : Region :=
  let pages := (b.load.toNat + b.lines.length * 64 + 16383) / 16384 - b.load.toNat / 16384
  { en := true, vault := true, lo := BitVec.ofNat 22 (b.load.toNat / 16384), hi := BitVec.ofNat 16 (b.load.toNat / 2 ^ 36)
    size := BitVec.ofNat 32 (pages - 1) }

/-- The copies of the admitted and the quarantined Isles start; those of the admitted ones are checked (R229, R318). -/
def State.startCopies (s : State) (offsets : List (BitVec 16)) : State :=
  (List.range 12).foldl (fun (s : State) n =>
    if (s.isle n).cond = .admitted then
      let o := offsets.getD n 0
      let s := (s.lhResync n).modStrait n fun x => { x with lhofs := o }
      if 8 < ofsMag o then s.quarantine n false false true else s
    else if (s.isle n).cond = .quarantined then
      (s.lhResync n).modStrait n fun x => { x with lhofs := offsets.getD n 0 }
    else s) s

/-- The Vault entry of every thread, region 0 and VAULTEN. -/
def State.installVault (s : State) : State :=
  match s.board.vaultOk, s.board.flash.vault with
  | true, some b =>
    let v : Reg := ((b.entry &&& ~~~63) ||| 1).setWidth 72
    let s := (List.range (48 * s.variant.isles)).foldl (fun (s : State) t => s.modThread t fun x => { x with ventry := v }) s
    { s with worlds := { s.worlds with vaulten := true, regions := sset {} s.worlds.regions 0 (imageRegion b), gen := s.worlds.gen + 1 } }
  | _, _ => s

/-- Every admitted Isle takes the region table. -/
def State.sendTable (s : State) : State :=
  let isles := smap ({} : Isle) s.isles fun _ x =>
    if x.cond = .admitted then { x with regions := s.worlds.regions, rgnGen := s.worlds.gen } else x
  { s with isles }

/-- The context keys and the Vault key are drawn (R121). -/
def State.drawKeys (s : State) (keys : List (BitVec 64)) (vaultKey : BitVec 64) : State :=
  let ctxKeys : Store (BitVec 64) := (keys.take 4096).zipIdx.foldl (fun m p => sset 0 m p.2 p.1) []
  { s with keys := { s.keys with ctxKeys, vaultKey } }

/-- Step 7, once Harbour's bearing fits (R426). -/
def State.startup7 (s : State) (dur : BitVec 64) (rngFails : Nat) (keys : List (BitVec 64)) (vaultKey : BitVec 64)
    (offsets : List (BitVec 16)) : State :=
  if !claimOk s.ledger 0 24 then (s.claim reqHarbour 0 24).1
  else
  let s : State := { s with lh := { s.lh with run := true, count := 0, epoch := 0 } }
  let s := s.startCopies offsets
  if s.home.mask = 0 then s.startStop 7 5
  else if rngFails = 3 then s.startStop 7 7
  else
    let s := ((s.drawKeys keys vaultKey).installVault).sendTable
    let s := (s.claim reqHarbour 0 24).1
    ((List.range 12).foldl (fun s b => s.assignRings b) s).stepDone 7 dur

/-! ### Step 8 (R357, R432, R434) -/

def State.startup8 (s : State) (dur : BitVec 64) : State :=
  let isles := (List.range 12).filter fun n => (s.isle n).cond == .admitted
  let s := (isles.flatMap fun n => (List.range 24).map fun c => n * 24 + c).foldl (fun (s : State) q => s.rampsEnd.bootCore q) s
  s.stepDone 8 dur

/-- The package starts up: VAUX is in range, the reset land is released, and nothing has stopped it. -/
def Board.starting (b : Board) : Bool := b.vaux && !b.resetHeld && b.stopped.isNone && b.fatal.isNone

/-- STARTUP_STEP (R428): the step in progress ends with what it found. -/
def execStartupStep (x : StartIn) (s : State) : Res :=
  if !s.board.starting then .next s
  else match s.board.step, x with
    | 1, .step1 dur => .next (s.startup1 dur)
    | 2, .step2 dur a b u v => .next (s.startup2 dur a b u v)
    | 3, .step3 dur ok ds => .next (s.startup3 dur ok ds)
    | 4, .step4 dur is => .next (s.startup4 dur is)
    | 5, .step5 dur ds rs => .next (s.startup5 dur ds rs)
    | 6, .step6 dur fs => .next (s.startup6 dur fs)
    | 7, .step7 dur r ks vk os => .next (s.startup7 dur r.val ks vk os)
    | 8, .step8 dur => .next (s.startup8 dur)
    | _, _ => .next s

/-! ### Scopes of reset (R438 to R440) -/

/-- What every reset keeps: the waiting commands, the part itself with its fuses, the board flash and the free values. -/
def State.fresh (s : State) (straps : BitVec 3) : State :=
  { State.reset with
    pending := s.pending, variant := s.variant, free := s.free
    umf := { State.reset.umf with floor := s.umf.floor, aliasNo := s.umf.aliasNo }
    board := { State.reset.board with flash := s.board.flash, smbAddr := straps } }

/-- The recorder's slots and fill fields, kept while VAUX stays (R412). -/
def Evr.kept (e : Evr) : Evr :=
  { slots := e.slots, seq := e.seq, ffill := e.ffill, tnext := e.tnext, tfull := e.tfull, seqsat := e.seqsat }

/-- POWER_ON (R426, R440): slotsOk is what the recorder will find at step 1. -/
def execPowerOn (straps : BitVec 3) (slotsOk : Bool) (s : State) : Res :=
  let t := s.fresh straps
  .next { t with
    evr := if slotsOk && !s.board.slotsLost then s.evr.kept else {}
    board := { t.board with slotsLost := !slotsOk || s.board.slotsLost } }

/-- PKG_RESET_ASSERT (R439): the units outside the always-on island stop. -/
def execPkgResetAssert (s : State) : Res := .next { s with board := { s.board with resetHeld := true } }

/-- A package reset (R438, R439): step 1's record, and step 2 begins. -/
def State.packageReset (s : State) (straps : BitVec 3) : State :=
  let t := s.fresh straps
  let t := { t with
    evr := { s.evr.kept with travel := s.evr.travel, queue := s.evr.queue, lost := s.evr.lost }
    board := { t.board with thermtrip := s.board.thermtrip, slotsLost := s.board.slotsLost } }
  t.checkSlots.stepDone 1 0

/-- PKG_RESET_RELEASE (R426): held is how long the land was low, in ns. -/
def execPkgResetRelease (held : BitVec 32) (straps : BitVec 3) (s : State) : Res :=
  if !s.board.resetHeld then .next s
  else if held.toNat < 10000 ∨ !s.board.vaux then .next { s with board := { s.board with resetHeld := false } }
  else .next (s.packageReset straps)

/-! ### Package fatal (R445 to R448) -/

/-- Every unit outside the always-on island stops and loses its state; the last temperatures stay (R446). -/
def State.unitsStop (s : State) : State :=
  let isles := smap ({} : Isle) s.isles fun _ x => { temps := x.temps, tempMax := x.tempMax, vCurMax := x.vCurMax, idigest := x.idigest }
  { s with
    threads := [], cores := [], isles, straits := [], home := {}, net := [], replies := [], mem := [], chans := [], memSets := []
    memTop := 0, ports := {}, sites := [], harbour := {}, worlds := {}, snd := [], keys := {} }

/-- Package fatal with its DETAIL; the first cause stands. -/
def State.fatal (s : State) (d : BitVec 8) : State :=
  let s := s.unitsStop
  { s with board := { s.board with
      fatal := some (s.board.fatal.getD d), vkey := false, vserdes := false, vddq := false } }

/-- RAIL_OUT_OF_RANGE (R445): a rail that is off has no range. -/
def execRailOutOfRange (r : Rail) (s : State) : Res :=
  match r with
  | .vcore n =>
    if s.isleFit n && (s.isle n).vcore then .next ((s.modIsle n fun x => { x with mute := true }).detect n .severed) else .next s
  | .vkey => if s.board.vkey then .next (s.fatal 8) else .next s
  | .vserdes => if s.board.vserdes && !s.pwr.lagoon then .next (s.fatal 8) else .next s
  | .vddq => if s.board.vddq then .next (s.fatal 8) else .next s
  | .vaux =>
    let s := s.unitsStop
    .next { s with
      evr := {}
      board := { s.board with vaux := false, slotsLost := true, step := 0, vkey := false, vserdes := false, vddq := false } }
  | .vfuse => if 1 ≤ s.board.step ∧ s.board.step ≤ 3 then .next (s.fatal 8) else .next s

/-- REFCLK_LOSS (R448). -/
def execRefclkLoss (s : State) : Res := if s.board.vaux then .next (s.fatal 9) else .next s

/-- THERMAL_TRIP (R447): points 0 to 71 are the Isles', six each, and 72 to 95 the Keystone's. -/
def execThermalTrip (pt : Fin 96) (s : State) : Res :=
  if pt.val < 72 ∧ !s.isleFit (pt.val / 6) then .next s
  else if s.board.vaux then
    let s := s.fatal 10
    .next { s with board := { s.board with thermtrip := true } }
  else .next s

/-- PMB_ALERT (R444): Umfoent reads the land. -/
def execPmbAlert (lvled : Bool) (s : State) : Res := .next { s with board := { s.board with pmbAlert := lvled } }

end Sys2Proof.Machine
end

