-- ==== Sys2Proof/Machine/Registers.lean ====
section
/-! DEFINITION. The control space (R9 to R16, R38 to R41): which register lies at an address, what a read of it
returns and does, and what a write does, for the blocks of the Isles and the guest sites. -/

namespace Sys2Proof.Machine

/-! ### Views of a register -/

/-- A register as one requester sees it in one state: the state after a read with the response and the value
read, and the state after a write with its response. -/
structure View where
  rd : State × Resp × W36
  wr : W36 → State × Resp

/-- The read value that goes with a response other than OK (R12). -/
def refusedValue : Resp → W36
  | .absent => BitVec.allOnes 36
  | .ok | .dormant | .world | .rsvd | .poison => 0

/-- Every access answers r and changes nothing. -/
def View.refuse (s : State) (r : Resp) : View := { rd := (s, r, refusedValue r), wr := fun _ => (s, r) }

/-- A register of value v whose bits of the mask are RSVD; f is what a legal write does, bad tells reserved
encodings (R9, R10). -/
def View.reg (s : State) (v : W36) (rsvd : Nat) (bad : W36 → Bool) (f : W36 → State) : View :=
  { rd := (s, .ok, v), wr := fun x => if hasBits x rsvd || bad x then (s, .rsvd) else (f x, .ok) }

/-- A register whose write is an operation of its own. -/
def View.op (s : State) (v : W36) (f : W36 → State × Resp) : View := { rd := (s, .ok, v), wr := f }

/-- A register with no field to write. -/
def View.ro (s : State) (v : W36) (rsvd : Nat) : View := View.reg s v rsvd (fun _ => false) fun _ => s

/-- A word that holds no register (R11). -/
def View.hole (s : State) : View := View.ro s 0 (bitsMask 35 0)

/-- Writes answer WORLD, after ABSENT and before the rest (R13). -/
def View.noWrite (x : View) (s : State) (refused : Bool) : View :=
  if refused then { x with wr := fun v => if (x.wr v).2 = .absent then x.wr v else (s, .world) } else x

/-- What a view answers when its unit answers r before the register is looked at (R13). -/
def View.gate (x : View) (s : State) (r : Resp) : View :=
  match r with
  | .ok => x
  | r => {
    rd := match x.rd.2.1 with
      | .absent => x.rd
      | .world => x.rd
      | _ => (s, r, refusedValue r)
    wr := fun v => s.answered r (x.wr v) }

/-- Two 30 and 16 bit address registers: the LOW part of a line number and its HIGH part. -/
def lowWord (n : LineNo) : W36 := (n.extractLsb' 0 30 : BitVec 30).setWidth 36
def highWord (n : LineNo) : W36 := (n.extractLsb' 30 16 : BitVec 16).setWidth 36

/-! ### Power registers (R366) -/

/-- CORESTAT, ISLESTAT, BLKSTAT and PKGSTAT. -/
def statWord (x : Stream) (st : BitVec 2) : W36 :=
  let held := x.held.map fun q => putB 14 q.timed ||| put 12 q.target.toNat
  let act := x.act.map fun q => put 6 q.target.toNat
  put 21 x.result.toNat ||| put 17 x.refuser.toNat ||| putB 15 x.held.isSome ||| held.getD 0
    ||| putB 11 x.act.isSome ||| putB 10 x.waitT ||| putB 9 x.saving ||| act.getD 0 ||| put 0 st.toNat

def statRsvd : Nat := bitsMask 35 24 ||| bitsMask 16 16 ||| bitsMask 8 8 ||| bitsMask 5 2

def State.statView (s : State) (u : PUnit) : View := View.ro s (statWord (s.streamOf u) (s.unitState u)) statRsvd

/-- PWR_REFCNT of a unit and refuser. -/
def refWord (x : Stream) (k : Nat) : W36 := put 18 (sget 0 x.aborts k) ||| put 0 (sget 0 x.counts k)

/-! ### The blocks of the Isles (R39, R163, R234, R366, R382, R425) -/

def State.isleStr (s : State) (n o : Nat) : View :=
  match o with
  | 0 => View.ro s ((s.isle n).iver.setWidth 36) (bitsMask 35 24)
  | 4 => View.ro s ((s.isle n).idigest.setWidth 36) (bitsMask 35 32)
  | _ => View.hole s

def TrwSlot.cmdWord (x : TrwSlot) : W36 := put 5 x.op.toNat ||| put 0 x.target.toNat

def State.trwSlotView (s : State) (w : Who) (n : Nat) (k : Fin 8) (o : Nat) : View :=
  let x := (s.isle n).slot k
  match o with
  | 0 => View.op s (x.lo.setWidth 36) fun v => s.trwField n k (hasBits v (bitsMask 35 30)) fun y => { y with lo := v.setWidth 30 }
  | 4 => View.op s (x.hi.setWidth 36) fun v => s.trwField n k (hasBits v (bitsMask 35 16)) fun y => { y with hi := v.setWidth 16 }
  | 8 => View.op s (x.len.setWidth 36) fun v => s.trwField n k (hasBits v (bitsMask 35 32)) fun y => { y with len := v.setWidth 32 }
  | 0xC => View.op s x.cmdWord fun v => s.trwCmd w n k v
  | 0x10 => View.ro s (put 0 x.st.num) (bitsMask 35 4)
  | 0x14 => View.ro s (x.done.setWidth 36) (bitsMask 35 32)
  | 0x18 => View.ro s (x.cis.setWidth 36) (bitsMask 35 32)
  | 0x1C => View.ro s (x.pois.setWidth 36) (bitsMask 35 32)
  | _ => View.hole s

/-- TRW_STAT. -/
def State.trwStat (s : State) (n : Nat) : W36 :=
  put 8 (s.isle n).queue.length ||| put 5 (((s.runSlot n).map Fin.val).getD 0) ||| putB 0 (s.isle n).trwBusy

def State.isleTrw (s : State) (w : Who) (n o : Nat) : View :=
  if o = 0 then View.ro s (s.trwStat n) (bitsMask 35 12 ||| bitsMask 4 1)
  else if o = 4 then
    { View.ro s 0 (bitsMask 35 4) with rd := ((s.trwClaim n).1, .ok, (s.trwClaim n).2) }
  else if 0x100 ≤ o ∧ o < 0x300 then s.trwSlotView w n (Fin.ofNat 8 ((o - 0x100) / 0x40)) ((o - 0x100) % 0x40)
  else View.hole s

def Cis.wayWord (c : Cis) : W36 := put 8 c.req.toNat ||| put 4 c.cur.toNat ||| putB 3 (c.req != c.cur)

def State.isleCis (s : State) (w : Who) (n o : Nat) : View :=
  let c := (s.isle n).cis
  match o with
  | 0 => View.op s c.wayWord fun v => s.wayctl w n v
  | 4 => View.op s (putB 24 c.icen ||| c.l2en.setWidth 36) fun v => s.cachectl w n v
  | 8 => View.reg s (c.stale.setWidth 36) (bitsMask 35 25) (fun _ => false) fun v =>
    s.modIsle n fun x => { x with cis := { x.cis with stale := x.cis.stale &&& ~~~(v.setWidth 25) } }
  | 0xC => View.ro s (c.partworld.setWidth 36) (bitsMask 35 8)
  | _ => View.hole s

/-- Registers of local core c. -/
def State.corePwr (s : State) (w : Who) (n c o : Nat) : View :=
  let u : Fin 288 := Fin.ofNat 288 (n * 24 + c)
  match o with
  | 0 => View.op s (putB 8 (s.core u.val).autoslack) fun v => s.corectl w u v
  | 4 => s.statView (.core u)
  | _ => View.hole s

def State.islePwr (s : State) (w : Who) (n o : Nat) : View :=
  let x := s.isle n
  if o = 0 then View.reg s (x.tlo.setWidth 36) (bitsMask 35 32) (fun _ => false) fun v => s.modIsle n fun y => { y with tlo := v.setWidth 32 }
  else if o = 4 then View.reg s (x.thi.setWidth 36) (bitsMask 35 32) (fun _ => false) fun v => s.modIsle n fun y => { y with thi := v.setWidth 32 }
  else if o = 8 then View.reg s (x.tep.setWidth 36) (bitsMask 35 8) (fun _ => false) fun v => s.modIsle n fun y => { y with tep := v.setWidth 8 }
  else if o = 0xC then View.reg s (x.refsel.setWidth 36) (bitsMask 35 10) (fun v => decide (24 ≤ fld v 9 4 ∨ 8 ≤ fld v 3 0)) fun v =>
    s.modIsle n fun y => { y with refsel := v.setWidth 10 }
  else if o = 0x10 then
    View.ro s (refWord (s.core (n * 24 + x.refsel.toNat / 16)).stream (x.refsel.toNat % 16)) 0
  else if 0x100 ≤ o ∧ o < 0x280 then s.corePwr w n ((o - 0x100) / 16) ((o - 0x100) % 16)
  else View.hole s

/-- The three registers of unit counter i (R425). -/
def State.sndView (s : State) (w : Who) (u : SndUnit) (i o : Nat) : View :=
  let c := sget {} (s.sndOf u) i
  let world : Bool := c.vw && !s.whoVault w
  let x : View := match o with
    | 0 => View.op s (put 16 c.unit.toNat ||| putB 15 c.vw ||| put 0 c.event.toNat) fun v => s.uselWrite w u i v
    | 4 => { rd := s.uloRead w u i, wr := fun v => s.uloWrite w u i v }
    | 8 => View.ro s (c.uhi.setWidth 36) (bitsMask 35 24)
    | _ => View.hole s
  if world && o != 12 then View.refuse s .world else x

def State.sndBlock (s : State) (w : Who) (u : SndUnit) (o : Nat) : View :=
  if o < 0x80 then s.sndView w u (o / 16) (o % 16) else View.hole s

def State.isleWld (s : State) (w : Who) (n o : Nat) : View :=
  match o with
  | 0 => (View.ro s (put 4 (s.isle n).rgnGen.toNat) (bitsMask 35 16 ||| bitsMask 3 0)).noWrite s (!s.mayWld w)
  | 4 =>
    let bits := (List.range 24).foldl (fun a c => if s.coreVault (n * 24 + c) then a + 2 ^ c else a) 0
    (View.ro s (put 0 bits) (bitsMask 35 24)).noWrite s (!s.mayWld w)
  | _ => View.hole s

def State.isleView (s : State) (w : Who) (n off : Nat) : View :=
  let o := off % 0x10000000
  match off / 0x10000000 with
  | 0 => s.isleStr n o
  | 1 => s.isleTrw w n o
  | 2 => s.isleCis w n o
  | 3 => s.islePwr w n o
  | 4 => s.sndBlock w (.isle (Fin.ofNat 12 n)) o
  | 5 => s.isleWld w n o
  | _ => View.hole s

end Sys2Proof.Machine
end

