-- ==== Sys2Proof/Machine/Keystone.lean ====
section
/-! DEFINITION. The Keystone's control-space block (R28 to R30, R204, R233, R242, R280, R310, R343, R344, R366,
R367, R381, R409, R414, R425), and an access to any control-space address. -/

namespace Sys2Proof.Machine

/-! ### Encodings of states -/

def LinkSt.num : LinkSt → Nat
  | .down => 0 | .training => 1 | .up => 2 | .stalled => 3 | .severed => 4

def LaneRole.num : LaneRole → Nat
  | .data => 0 | .spare => 1 | .standin => 2 | .failed => 3 | .dormant => 4 | .recal => 5

def ChState.num : ChState → Nat
  | .empty => 0 | .training => 1 | .filling => 2 | .run => 3 | .frozen => 4 | .failed => 5 | .excluded => 6 | .selfref => 7

def RingSt.num : RingSt → Nat
  | .disabled => 0 | .active => 1 | .paused => 2 | .draining => 3 | .error => 4

/-! ### UMF_, EVR_ and DIR_ -/

/-- UMF_STAT. -/
def State.umfStat (s : State) : W36 :=
  let opened := s.umf.boxes.foldl (fun a b => a + b.2.handles.length) 0
  put 16 opened ||| put 8 s.umf.fails.toNat ||| put 4 s.umf.lock.toNat ||| putB 2 s.umf.ownerX.isSome
    ||| putB 1 s.umf.standby ||| putB 0 s.umf.active

def Mailbox.intWord (x : Mailbox) : W36 :=
  put 22 x.intthr.toNat ||| put 19 x.intcls.toNat ||| putB 18 x.inten ||| putB 1 x.cplPend ||| putB 0 x.donePend

def State.boxView (s : State) (w : Who) (m o : Nat) : View :=
  let x := s.box m
  let mine (y : View) : View := if s.boxMay w m then y else View.refuse s .world
  if o < 0x40 then mine (View.op s (sget 0 x.buf (o / 4)) fun v => s.mbbuf w m (o / 4) v)
  else if o = 0x40 then View.reg s (put 4 x.block.toNat ||| put 0 x.path.toNat) (bitsMask 35 8 ||| bitsMask 3 2) (fun _ => false) fun v =>
    if whoUmf w then s.modBox m fun y => { y with block := BitVec.ofNat 4 (fld v 7 4), path := BitVec.ofNat 2 (fld v 1 0) } else s
  else if o = 0x44 then mine (View.op s x.intWord fun v => s.mbint w m v)
  else View.hole s

def State.umfView (s : State) (w : Who) (o : Nat) : View :=
  if o = 0 then View.ro s s.variant.pkginfo (bitsMask 35 24)
  else if o = 4 then View.ro s s.variant.fitmap (bitsMask 35 14)
  else if o = 8 then View.ro s s.variant.chanmap (bitsMask 35 24)
  else if o = 0x10 then View.ro s s.umfStat (bitsMask 35 24 ||| bitsMask 7 6)
  else if 0x1000 ≤ o ∧ o < 0x1800 then s.boxView w ((o - 0x1000) / 0x80) ((o - 0x1000) % 0x80)
  else View.hole s

/-- EVR_STAT. -/
def Evr.statWord (e : Evr) : W36 :=
  putB 30 e.seqsat ||| putB 29 e.clearing ||| putB 28 e.tfull ||| put 13 e.tnext.toNat ||| put 0 e.ffill.toNat

def State.evrView (s : State) (w : Who) (o : Nat) : View :=
  let k := s.rdrOf w
  let r := s.evr.reader k
  if o = 0 then View.ro s s.evr.statWord (bitsMask 35 31)
  else if o = 4 then View.reg s (putB 15 r.auto ||| put 0 r.slot.toNat) (bitsMask 35 16) (fun _ => false) fun v =>
    { s with evr := s.evr.setReader k { r with auto := bitOf v 15, slot := v.setWidth 15 } }
  else if o = 8 then View.ro s (s.evr.dropcnt.setWidth 36) (bitsMask 35 32)
  else if 0x100 ≤ o ∧ o < 0x140 then
    let x := s.windowRead w ((o - 0x100) / 4)
    { View.ro s 0 0 with rd := (x.1, .ok, x.2) }
  else View.hole s

def State.sliceView (s : State) (k o : Nat) : View :=
  let x := s.slice k
  if !s.chanFit k then View.refuse s .absent
  else match o with
    | 0 => View.ro s (put 7 (s.tableUse k) ||| put 0 x.tokens.length) (bitsMask 35 17)
    | 4 => View.ro s (x.busy.setWidth 36) (bitsMask 35 32)
    | 8 => View.ro s (x.vict.setWidth 36) (bitsMask 35 32)
    | 0xC => View.ro s (x.gone.setWidth 36) (bitsMask 35 32)
    | _ => View.hole s

def State.dirView (s : State) (o : Nat) : View :=
  let h := s.home
  if o = 0 then View.ro s (h.mask.setWidth 36) (bitsMask 35 12)
  else if o = 4 then View.ro s (putB 7 h.purging ||| put 0 h.purgeIsle.toNat) (bitsMask 35 8 ||| bitsMask 6 4)
  else if o = 8 then View.ro s (h.purgePois.setWidth 36) (bitsMask 35 24)
  else if o = 0xC then View.ro s (h.drop.setWidth 36) (bitsMask 35 12)
  else if 0x1000 ≤ o ∧ o < 0x1600 then s.sliceView ((o - 0x1000) / 0x40) ((o - 0x1000) % 0x40)
  else View.hole s

/-! ### MC_ (R280) -/

def State.memSetView (s : State) (k o : Nat) : View :=
  let x := s.memSets.getD k {}
  match o with
  | 0 => View.ro s (put 0 (x.base.toNat / 64 % 2 ^ 30)) (bitsMask 35 30)
  | 4 => View.ro s (put 0 (x.base.toNat / 2 ^ 36)) (bitsMask 35 16)
  | 8 => View.ro s (x.members.setWidth 36) (bitsMask 35 24)
  | 0xC => View.ro s (x.depth.setWidth 36) (bitsMask 35 20)
  | _ => View.hole s

def Chan.statWord (x : Chan) : W36 := put 33 x.st.num ||| put 30 x.rate.toNat ||| put 28 x.type.toNat ||| put 8 x.cap.toNat

def Chan.frzWord (x : Chan) : W36 :=
  put 33 x.frzCause.toNat ||| putB 32 x.frzOvf ||| put 21 x.frzLost.toNat ||| put 14 x.frzRdq.toNat
    ||| put 7 x.frzWrq.toNat ||| putB 6 x.noline

def Chan.maintWord (x : Chan) : W36 :=
  put 28 x.scrubh.toNat ||| put 20 x.trackms.toNat ||| put 16 x.markhard.toNat ||| put 0 x.trackdefer.toNat

/-- The error registers of a channel. -/
def State.chanErrView (s : State) (c o : Nat) : View :=
  let x := s.chan c
  let d := x.devsel.toNat
  let e := sget {} x.celog x.ceIdx.toNat
  match o with
  | 0x00 => View.ro s x.statWord (bitsMask 27 18 ||| bitsMask 7 0)
  | 0x04 => View.reg s (putB 7 x.mark.isSome ||| putB 6 x.second ||| put 0 (x.mark.getD 0).toNat) (bitsMask 35 8 ||| bitsMask 5 5)
      (fun _ => false) fun v => s.modChan c fun y => { y with second := y.second && !bitOf v 6 }
  | 0x08 => View.reg s (put 0 d) (bitsMask 35 5) (fun v => decide (20 ≤ fld v 4 0)) fun v => s.modChan c fun y => { y with devsel := v.setWidth 5 }
  | 0x0C => View.ro s (put 20 (sget 0 x.cecnt d).toNat ||| put 12 (sget 0 x.hard d).toNat) (bitsMask 11 0)
  | 0x10 => View.reg s (put 8 x.ceFill.toNat ||| put 4 x.ceNew.toNat ||| put 0 x.ceIdx.toNat) (bitsMask 35 13) (fun _ => false) fun v =>
      s.modChan c fun y => { y with ceIdx := v.setWidth 4 }
  | 0x14 => View.ro s (lowWord e.line) (bitsMask 35 30)
  | 0x18 => View.ro s (put 31 e.dev.toNat ||| put 29 e.syms.toNat ||| putB 28 e.hard ||| highWord e.line) (bitsMask 27 16)
  | _ => View.hole s

def State.chanView (s : State) (c o : Nat) : View :=
  let x := s.chan c
  let h := x.rh
  if !s.chanFit c then View.refuse s .absent
  else if o < 0x1C then s.chanErrView c o
  else match o with
    | 0x1C => View.ro s x.frzWord (bitsMask 5 0)
    | 0x20 => View.ro s (if x.noline then 0 else lowWord x.frzLine) (bitsMask 35 30)
    | 0x24 => View.ro s (if x.noline then 0 else highWord x.frzLine) (bitsMask 35 16)
    | 0x28 => View.reg s (put 20 h.pexp.toNat ||| put 4 h.thresh.toNat) (bitsMask 35 24 ||| bitsMask 3 0)
        (fun v => decide (fld v 23 20 < 8 ∨ 13 < fld v 23 20 ∨ fld v 19 4 < 64)) fun v =>
        s.modChan c fun y => { y with rh := { y.rh with pexp := BitVec.ofNat 4 (fld v 23 20), thresh := BitVec.ofNat 16 (fld v 19 4) } }
    | 0x2C => View.ro s (put 18 h.nbr.toNat ||| put 0 h.rfm.toNat) 0
    | 0x30 => View.reg s (put 3 h.pgMode.toNat ||| put 0 h.pgThresh.toNat) (bitsMask 35 5)
        (fun v => decide (fld v 4 3 = 3 ∨ 5 ≤ fld v 2 0)) fun v =>
        s.modChan c fun y => { y with rh := { y.rh with pgMode := BitVec.ofNat 2 (fld v 4 3), pgThresh := BitVec.ofNat 3 (fld v 2 0) } }
    | 0x34 => View.reg s x.maintWord 0 (fun v => decide (fld v 35 28 = 0 ∨ fld v 19 16 = 0)) fun v =>
        s.modChan c fun y => { y with scrubh := BitVec.ofNat 8 (fld v 35 28), trackms := BitVec.ofNat 8 (fld v 27 20)
                                      markhard := BitVec.ofNat 4 (fld v 19 16) }
    | 0x38 => View.reg s (putB 8 x.pasrSupp ||| put 0 x.keep.toNat) (bitsMask 35 9) (fun _ => false) fun v =>
        s.modChan c fun y => { y with keep := v.setWidth 8 }
    | _ => View.hole s

def State.mcView (s : State) (o : Nat) : View :=
  if o = 0 then View.ro s (put 24 s.memSets.length ||| put 0 s.memTop.toNat) (bitsMask 35 29)
  else if 0x100 ≤ o ∧ o < 0x280 then s.memSetView ((o - 0x100) / 16) ((o - 0x100) % 16)
  else if 0x1000 ≤ o ∧ o < 0x1C00 then s.chanView ((o - 0x1000) / 0x80) ((o - 0x1000) % 0x80)
  else View.hole s

/-! ### PRT_ (R310) -/

/-- The writer's world does not own port p, or a hand-over holds it (R310, R369). -/
def State.portRefuses (s : State) (w : Who) (p : Nat) : Bool := !whoOwn w && (s.whoVault w != s.portVault p || s.portLocked p)

def State.setOwin (s : State) (x : OWin) : State :=
  { s with ports := { s.ports with owins := sset {} s.ports.owins s.ports.owinsel.toNat x } }

/-- A write of EN = 1 that PRT_OWINCTL reserves. -/
def State.owinBad (s : State) (x : OWin) (v : W36) : Bool :=
  let p := fld v 16 10
  let kind := fld v 9 7
  decide (96 ≤ p ∨ 5 ≤ kind) ||
    (bitOf v 0 && (decide (x.base < 0x1000000000000 ∨ 0x8000000000000 < x.base + x.len)
      || !(s.portMade p && (s.port p).role == 1) || (decide (kind = 3 ∨ kind = 4) && !(s.port p).cxl)
      || (bitOf v 6 && decide (kind ≠ 3))))

def OWin.ctlWord (x : OWin) : W36 := put 10 x.port.toNat ||| put 7 x.kind.toNat ||| putB 6 x.pack ||| putB 0 x.en

/-- PRT_OWINCTL: while EN is 1 a write that changes another field is ignored. -/
def State.owinCtl (s : State) (w : Who) (x : OWin) (v : W36) : State × Resp :=
  let changes := (v.toNat / 64 != x.ctlWord.toNat / 64)
  if fld v 16 10 < 96 ∧ s.portRefuses w (fld v 16 10) ∨ x.en ∧ s.portRefuses w x.port.toNat then (s, .world)
  else if hasBits v (bitsMask 35 17 ||| bitsMask 5 1) || s.owinBad x v then (s, .rsvd)
  else if x.en && changes then (s, .ok)
  else (s.setOwin { x with port := BitVec.ofNat 7 (fld v 16 10), kind := BitVec.ofNat 3 (fld v 9 7), pack := bitOf v 6, en := bitOf v 0 }, .ok)

/-- An address or size register of the outbound window shown. -/
def State.owinField (s : State) (w : Who) (x : OWin) (val : W36) (rsvd : Nat) (f : W36 → OWin) : View :=
  (View.reg s val rsvd (fun _ => false) fun v => if x.en then s else s.setOwin (f v)).noWrite s (s.portRefuses w x.port.toNat)

def State.owinView (s : State) (w : Who) (o : Nat) : View :=
  let x := sget {} s.ports.owins s.ports.owinsel.toNat
  match o with
  | 0x00 => View.reg s (s.ports.owinsel.setWidth 36) (bitsMask 35 6) (fun _ => false) fun v =>
      { s with ports := { s.ports with owinsel := v.setWidth 6 } }
  | 0x04 => View.op s x.ctlWord fun v => s.owinCtl w x v
  | 0x08 => s.owinField w x (x.baseLo.setWidth 36) (bitsMask 35 24) fun v => { x with baseLo := v.setWidth 24 }
  | 0x0C => s.owinField w x (x.baseHi.setWidth 36) (bitsMask 35 16) fun v => { x with baseHi := v.setWidth 16 }
  | 0x10 => s.owinField w x (x.size.setWidth 36) (bitsMask 35 32) fun v => { x with size := v.setWidth 32 }
  | 0x14 => s.owinField w x (x.busLo.setWidth 36) (bitsMask 35 24) fun v => { x with busLo := v.setWidth 24 }
  | 0x18 => s.owinField w x (x.busHi.setWidth 36) (bitsMask 35 28) fun v => { x with busHi := v.setWidth 28 }
  | _ => View.hole s

/-- PRT_BLKCFG: BOUND changes with the stored configuration only, at start-up and by PORT_CONFIG (R283). -/
def State.blkcfgView (s : State) (b o : Nat) : View :=
  let x := s.block b
  if o = 0 then View.ro s (putB 8 x.bearwait ||| put 1 x.bound.toNat) (bitsMask 35 9 ||| bitsMask 0 0) else View.hole s

def Port.ctlWord (x : Port) : W36 :=
  put 34 x.role.toNat ||| putB 33 x.cxl ||| put 20 x.intxthr.toNat ||| put 17 x.intxcls.toNat ||| putB 16 x.intxen

def Port.statWord (x : Port) : W36 :=
  put 33 x.link.toNat ||| put 28 x.width.toNat ||| put 25 x.rate.toNat ||| putB 24 x.flit ||| putB 23 x.cxlup
    ||| put 21 x.dstate.toNat ||| putB 20 x.bme ||| putB 19 x.flr ||| putB 18 x.inta

/-- Changes the window that PRT_WINSEL shows. -/
def State.setWin (s : State) (p : Nat) (f : Win → Win) : State :=
  s.modPort p fun x => { x with wins := smod {} x.wins x.winsel.toNat f }

def Win.ctlWord (x : Win) : W36 := put 4 x.space.toNat ||| putB 3 x.pack ||| putB 2 x.wr ||| putB 1 x.rd ||| putB 0 x.en

/-- A PRT_WINCTL value that is a reserved encoding. -/
def Port.winBad (x : Port) (y : Win) (v : W36) : Bool :=
  let page := 2 ^ 24 * y.busHi.toNat + y.busLo.toNat
  fld v 5 4 == 3 || (x.role == 1 && fld v 5 4 != 0) ||
    (bitOf v 0 && bitOf v 3 && (fld v 5 4 != 0 || decide (page % 9 ≠ 0 ∨ (y.size.toNat + 1) % 9 ≠ 0)))

/-- The window registers of an endpoint port are Umfoent's, which sets them before the link trains (R301, R310). -/
def Port.winLocked (x : Port) (w : Who) : Bool := x.role == 2 && (!whoUmf w || x.linkUp)

def State.winCtl (s : State) (w : Who) (p : Nat) (y : Win) : View :=
  let x := s.port p
  View.reg s y.ctlWord (bitsMask 35 6) (fun v => x.winBad y v) fun v =>
    if x.winLocked w then s
    else s.setWin p fun z => { z with space := BitVec.ofNat 2 (fld v 5 4), pack := bitOf v 3, wr := bitOf v 2, rd := bitOf v 1, en := bitOf v 0 }

/-- An address or size register of the port's window shown. -/
def State.winField (s : State) (w : Who) (p : Nat) (y : Win) (val : W36) (rsvd : Nat) (f : W36 → Win) : View :=
  View.reg s val rsvd (fun _ => false) fun v =>
    if (y.en && (s.port p).role == 1) || (s.port p).winLocked w then s else s.setWin p fun _ => f v

/-- The window registers of port p. -/
def State.winView (s : State) (w : Who) (p o : Nat) : View :=
  let x := s.port p
  let y := sget {} x.wins x.winsel.toNat
  match o with
  | 0x18 => View.reg s (x.winsel.setWidth 36) (bitsMask 35 6) (fun _ => false) fun v => s.modPort p fun z => { z with winsel := v.setWidth 6 }
  | 0x1C => s.winCtl w p y
  | 0x20 => s.winField w p y (y.busLo.setWidth 36) (bitsMask 35 24) fun v => { y with busLo := v.setWidth 24 }
  | 0x24 => s.winField w p y (y.busHi.setWidth 36) (bitsMask 35 28) fun v => { y with busHi := v.setWidth 28 }
  | 0x28 => s.winField w p y (y.tgtLo.setWidth 36) (bitsMask 35 24) fun v => { y with tgtLo := v.setWidth 24 }
  | 0x2C => s.winField w p y (y.tgtHi.setWidth 36) (bitsMask 35 16) fun v => { y with tgtHi := v.setWidth 16 }
  | 0x30 => s.winField w p y (y.size.setWidth 36) (bitsMask 35 32) fun v => { y with size := v.setWidth 32 }
  | _ => View.hole s

/-- Umfoent's change of a port's ROLE and CXL, where the block keeps R285. -/
def State.setRole (s : State) (p : Nat) (role : BitVec 2) (cxl : Bool) : State :=
  let s1 := s.modPort p fun y => { y with role, cxl }
  let r := s1.blockRoles (p / 8)
  if blockLegal (s.block (p / 8)).bound r.1 r.2 then s1 else s

/-- PRT_PORTCTL. -/
def State.portCtl (s : State) (w : Who) (p : Nat) : View :=
  let x := s.port p
  View.reg s x.ctlWord (bitsMask 32 30 ||| bitsMask 15 0)
    (fun v => decide (576 ≤ fld v 29 20) || (whoUmf w && fld v 35 34 == 3)) fun v =>
    (if whoUmf w then s.setRole p (BitVec.ofNat 2 (fld v 35 34)) (bitOf v 33) else s).modPort p fun y =>
      { y with intxthr := BitVec.ofNat 10 (fld v 29 20), intxcls := BitVec.ofNat 3 (fld v 19 17), intxen := bitOf v 16 }

/-- The group of port p: writes of a world that does not own it answer WORLD, and every access of a world while a
hand-over holds the port (R310, R369). -/
def State.portView (s : State) (w : Who) (p o : Nat) : View :=
  let x := s.port p
  let y : View := match o with
    | 0x00 => s.portCtl w p
    | 0x04 => View.ro s x.statWord (bitsMask 17 0)
    | 0x08 => View.reg s (x.tmo.setWidth 36) (bitsMask 35 4) (fun v => decide (12 ≤ fld v 3 0)) fun v => s.modPort p fun z => { z with tmo := v.setWidth 4 }
    | 0x0C => View.ro s (x.late.setWidth 36) (bitsMask 35 32)
    | 0x10 => View.ro s (x.markdrop.setWidth 36) (bitsMask 35 32)
    | 0x14 => View.ro s (x.packerr.setWidth 36) (bitsMask 35 32)
    | o => s.winView w p o
  if !s.portMade p then View.hole s
  else if !whoOwn w && s.portLocked p then View.refuse s .world
  else y.noWrite s (s.portRefuses w p)

def State.prtView (s : State) (w : Who) (o : Nat) : View :=
  if o < 0x1000 then s.owinView w o
  else if o < 0x1300 then s.blkcfgView ((o - 0x1000) / 0x40) ((o - 0x1000) % 0x40)
  else if 0x4000 ≤ o ∧ o < 0x7000 then s.portView w ((o - 0x4000) / 0x80) ((o - 0x4000) % 0x80)
  else View.hole s

/-- The block of a PRT_ address: 1 to 12 as PWR_BLKCTL counts; none for the global registers. -/
def prtBlock (o : Nat) : Option (Fin 13) :=
  if 0x1000 ≤ o ∧ o < 0x1300 then some (Fin.ofNat 13 ((o - 0x1000) / 0x40 + 1))
  else if 0x4000 ≤ o ∧ o < 0x7000 then some (Fin.ofNat 13 ((o - 0x4000) / 0x400 + 1))
  else none

/-! ### HBR_ (R343) -/

/-- A hand-over past its lock holds engine e. -/
def State.engineRefuses (s : State) (w : Who) (e : Nat) : Bool := !whoOwn w && ((s.engine e).world != s.whoVault w || (s.engine e).locked)

def State.engView (s : State) (w : Who) (e : Nat) : View :=
  let x := s.engine e
  let v := put 3 ((x.job.map fun j => j.ring.val).getD 0) ||| putB 2 x.job.isSome ||| putB 1 x.timed ||| putB 0 x.world
  if !whoOwn w && x.locked then View.refuse s .world
  else (View.reg s v (bitsMask 35 22) (fun _ => false) fun v => s.modEngine e fun y => { y with timed := bitOf v 1 }).noWrite s (s.engineRefuses w e)

def RingR.ctlWord (x : RingR) : W36 :=
  put 23 x.intthr.toNat ||| put 20 x.intcls.toNat ||| put 16 x.epb.toNat ||| put 4 x.ctx.toNat ||| putB 3 x.world
    ||| putB 2 x.inten ||| putB 0 x.en

/-- A size of R330. -/
def badSize (n : Nat) : Bool := decide (n < 2 ∨ 16 < n)

/-- A base or size register of ring r: ignored while the ring is enabled or drains. -/
def State.ringField (s : State) (r : Nat) (x : RingR) (val : W36) (rsvd : Nat) (bad : W36 → Bool) (f : W36 → RingR) : View :=
  View.reg s val rsvd bad fun v => if x.locked then s else s.setRing r (f v)

def State.ringView (s : State) (w : Who) (r o : Nat) : View :=
  let x := s.ring r
  let no (_ : W36) : Bool := false
  let y : View := match o with
    | 0x00 => View.op s x.ctlWord fun v => s.rctlWrite w r v
    | 0x04 => s.ringField r x (x.sqlo.setWidth 36) (bitsMask 35 30) no fun v => { x with sqlo := v.setWidth 30 }
    | 0x08 => s.ringField r x (x.sqhi.setWidth 36) (bitsMask 35 16) no fun v => { x with sqhi := v.setWidth 16 }
    | 0x0C => s.ringField r x (x.cqlo.setWidth 36) (bitsMask 35 30) no fun v => { x with cqlo := v.setWidth 30 }
    | 0x10 => s.ringField r x (x.cqhi.setWidth 36) (bitsMask 35 16) no fun v => { x with cqhi := v.setWidth 16 }
    | 0x14 => s.ringField r x (put 8 x.cqsz.toNat ||| put 0 x.sqsz.toNat) (bitsMask 35 13 ||| bitsMask 7 5)
        (fun v => badSize (fld v 12 8) || badSize (fld v 4 0)) fun v => { x with cqsz := BitVec.ofNat 5 (fld v 12 8), sqsz := BitVec.ofNat 5 (fld v 4 0) }
    | 0x18 => View.ro s (put 16 x.sqTail.toNat ||| put 0 x.sqHead.toNat) (bitsMask 35 32)
    | 0x1C => View.ro s (putB 32 x.phase ||| put 16 x.cqHead.toNat ||| put 0 x.cqTail.toNat) (bitsMask 35 33)
    | 0x20 => View.ro s (put 8 x.last.toNat ||| put 5 x.inflight ||| put 0 x.st.num) (bitsMask 35 16 ||| bitsMask 4 3)
    | _ => View.hole s
  if x.en && s.whoVault w != x.world && !whoOwn w then View.refuse s .world else y

def State.hbrView (s : State) (w : Who) (o : Nat) : View :=
  let h := s.harbour
  let busy := (h.engines.filter fun e => e.2.job.isSome).length
  if o = 0 then View.ro s (put 16 h.table.length ||| put 0 busy) (bitsMask 35 29 ||| bitsMask 15 6)
  else if o = 4 then View.ro s (h.dbrej.setWidth 36) (bitsMask 35 32)
  else if o = 8 then View.ro s (h.miss.setWidth 36) (bitsMask 35 32)
  else if 0x100 ≤ o ∧ o < 0x180 then s.engView w ((o - 0x100) / 4)
  else if 0x1000000 ≤ o ∧ o < 0x3000000 then s.ringView w ((o - 0x1000000) / 0x40) ((o - 0x1000000) % 0x40)
  else if 0x8000000 ≤ o ∧ o < 0x8400000 ∧ o % 8 = 0 then View.op s 0 fun v => s.doorbell w ((o - 0x8000000) / 8) v
  else View.hole s

/-! ### LH_, BRG_ and PWR_ -/

/-- LH_STAT. -/
def Lighthouse.statWord (l : Lighthouse) : W36 :=
  put 12 l.epoch.toNat ||| put 9 l.setres.toNat ||| putB 8 l.setbusy ||| putB 7 l.reflock ||| putB 6 l.ppsseen ||| putB 5 l.run

/-- LH_RATE.PPB lies within ±200,000. -/
def rateLegal (v : W36) : Bool := let r := (v.setWidth 24 : BitVec 24).toInt; decide (-200000 ≤ r ∧ r ≤ 200000)

def State.lhView (s : State) (w : Who) (o : Nat) : View :=
  let l := s.lh
  let no (_ : W36) : Bool := false
  let drift := (List.range 12).foldl (fun a n => if (s.isle n).lhDrift then a + 2 ^ n else a) 0
  let half (val : W36) (f : W36 → Lighthouse) : View :=
    (View.reg s val (bitsMask 35 32) no fun v => { s with lh := f v }).noWrite s (!s.lhMay w)
  match o with
  | 0x00 => View.op s (putB 7 l.courtwr ||| put 5 l.refsel.toNat ||| putB 4 l.src ||| putB 3 l.ppsen) fun v => s.lhCtlWrite w v
  | 0x04 => View.ro s l.statWord (bitsMask 35 20 ||| bitsMask 4 0)
  | 0x08 => half (l.setlo.setWidth 36) fun v => { l with setlo := v.setWidth 32 }
  | 0x0C => half (l.sethi.setWidth 36) fun v => { l with sethi := v.setWidth 32 }
  | 0x10 => View.op s 0 fun v => s.lhCmd w v
  | 0x14 => View.op s (l.slew.setWidth 36) fun v => s.lhSlewWrite w v
  | 0x18 => (View.reg s (l.rate.setWidth 36) (bitsMask 35 24) (fun v => !rateLegal v) fun v =>
      { s with lh := { l with rate := v.setWidth 24 } }).noWrite s (!s.lhMay w)
  | 0x1C => View.ro s (put 0 drift) (bitsMask 35 12)
  | 0x20 => View.ro s (put 32 l.ppsSeq.toNat ||| put 0 (l.ppsCount.toNat % 2 ^ 32)) 0
  | 0x24 => View.ro s (put 32 l.ppsSeq.toNat ||| put 0 (l.ppsCount.toNat / 2 ^ 32)) 0
  | 0x28 => View.ro s (put 32 l.ppsSeq.toNat ||| put 0 l.ppsEpoch.toNat) (bitsMask 31 8)
  | _ => View.hole s

def amountWord (core hub : Nat) : W36 := put 16 core ||| put 0 hub

def State.brgView (s : State) (w : Who) (o : Nat) : View :=
  let l := s.ledger
  let tot := l.claimed.foldl (fun a p => (a.1 + p.2.core, a.2 + p.2.hub)) (0, 0)
  let sel := sget {} l.claimed l.blksel.toNat
  let rsv := bitsMask 35 28 ||| bitsMask 15 12
  match o with
  | 0x00 => View.reg s (amountWord l.limCore.toNat l.limHub.toNat) rsv (fun _ => false) fun v =>
      if whoUmf w then { s with ledger := { l with limCore := BitVec.ofNat 12 (fld v 27 16), limHub := BitVec.ofNat 12 (fld v 11 0) } } else s
  | 0x04 => View.ro s (amountWord tot.1 tot.2) rsv
  | 0x08 => View.ro s (l.refused.setWidth 36) (bitsMask 35 32)
  | 0x0C => View.reg s (l.blksel.setWidth 36) (bitsMask 35 6) (fun v => decide (50 ≤ fld v 5 0)) fun v =>
      { s with ledger := { l with blksel := v.setWidth 6 } }
  | 0x10 => View.ro s (amountWord sel.core sel.hub) rsv
  | _ => View.hole s

/-- The stream that UNIT of the Keystone's PWR_REFSEL selects. -/
def State.refStream (s : State) (u : Nat) : Stream :=
  if u < 12 then (s.isle u).stream
  else if u = 12 then s.pwr.stream
  else s.streamOf (.block (Fin.ofNat 13 (u - 13)))

def State.pwrUnit (s : State) (w : Who) (o : Nat) : View :=
  if 0x100 ≤ o ∧ o < 0x1C0 then
    let n : Fin 12 := Fin.ofNat 12 ((o - 0x100) / 16)
    if !s.isleFit n then View.refuse s .absent
    else match o % 16 with
      | 0 => View.op s 0 fun v => s.islectl w n v
      | 4 => s.statView (.isle n)
      | _ => View.hole s
  else if 0x200 ≤ o ∧ o < 0x2D0 then
    let k : Fin 13 := Fin.ofNat 13 ((o - 0x200) / 16)
    match o % 16 with
    | 0 => View.op s 0 fun v => s.blkctl w k v
    | 4 => s.statView (.block k)
    | _ => View.hole s
  else View.hole s

def State.pwrView (s : State) (w : Who) (o : Nat) : View :=
  let p := s.pwr
  let no (_ : W36) : Bool := false
  match o with
  | 0x00 => View.op s 0 fun v => s.pkgctl w v
  | 0x04 => s.statView .package
  | 0x08 => View.reg s (put 14 p.wakeIsle.toNat ||| putB 13 p.wakeSmb ||| put 0 p.wakePort.toNat) (bitsMask 35 18 ||| bitsMask 12 12)
      (fun v => decide (12 ≤ fld v 17 14)) fun v =>
      { s with pwr := { p with wakeIsle := BitVec.ofNat 4 (fld v 17 14), wakeSmb := bitOf v 13, wakePort := BitVec.ofNat 12 (fld v 11 0) } }
  | 0x0C => View.ro s (p.wakesrc.setWidth 36) (bitsMask 35 6)
  | 0x10 => View.reg s (p.tlo.setWidth 36) (bitsMask 35 32) no fun v => { s with pwr := { p with tlo := v.setWidth 32 } }
  | 0x14 => View.reg s (p.thi.setWidth 36) (bitsMask 35 32) no fun v => { s with pwr := { p with thi := v.setWidth 32 } }
  | 0x18 => View.reg s (p.tep.setWidth 36) (bitsMask 35 8) no fun v => { s with pwr := { p with tep := v.setWidth 8 } }
  | 0x1C => View.reg s (p.refsel.setWidth 36) (bitsMask 35 10) (fun v => decide (26 ≤ fld v 9 4 ∨ 8 ≤ fld v 3 0)) fun v =>
      { s with pwr := { p with refsel := v.setWidth 10 } }
  | 0x20 => View.ro s (refWord (s.refStream (p.refsel.toNat / 16)) (p.refsel.toNat % 16)) 0
  | o => s.pwrUnit w o

/-! ### WLD_, GTH_ and STR_ -/

/-- A write of WLD_HOCTL (R376, R381). -/
def State.hoctl (s : State) (w : Who) (v : W36) : State × Resp :=
  let cls := fld v 11 10
  let idx := fld v 6 0
  if !s.mayWld w then (s, .world)
  else if hasBits v (bitsMask 35 13 ||| bitsMask 8 7) then (s, .rsvd)
  else match s.hoUnit cls idx with
    | none => (s, .rsvd)
    | some u =>
      if bitOf v 12 && s.worlds.ho.isSome then ({ s with worlds := { s.worlds with rej := true } }, .ok)
      else
        let s := { s with worlds := { s.worlds with hoClass := BitVec.ofNat 2 cls, hoTo := bitOf v 9, hoIndex := BitVec.ofNat 7 idx } }
        (if bitOf v 12 then s.hoStart u (bitOf v 9) none (if whoUmf w then 0 else 1) else s, .ok)

/-- A register of the region that WLD_RGNSEL shows, written only while its EN is 0. -/
def State.rgnField (s : State) (val : W36) (rsvd : Nat) (f : Region → W36 → Region) : View :=
  let r := sget {} s.worlds.regions s.worlds.rgnsel.toNat
  View.reg s val rsvd (fun _ => false) fun v => if r.en then s else s.setRegion (f r v)

def State.portownView (s : State) (i : Nat) : View := View.ro s (put 0 (s.worlds.portown.toNat / 2 ^ (32 * i) % 2 ^ 32)) (bitsMask 35 32)

def State.wldReg (s : State) (w : Who) (o : Nat) : Option View :=
  let d := s.worlds
  let r := sget {} d.regions d.rgnsel.toNat
  let step := (d.ho.map fun h => h.step.toNat).getD 0
  match o with
  | 0x00 => some (View.reg s (put 4 d.gen.toNat ||| putB 1 s.tableLags ||| putB 0 d.vaulten) (bitsMask 35 16 ||| bitsMask 3 2) (fun _ => false)
      fun v => if whoUmf w then { s with worlds := { d with vaulten := bitOf v 0 } } else s)
  | 0x04 => some (View.reg s (d.rgnsel.setWidth 36) (bitsMask 35 6) (fun _ => false) fun v => { s with worlds := { d with rgnsel := v.setWidth 6 } })
  | 0x08 => some (View.op s (putB 1 r.vault ||| putB 0 r.en) fun v => s.rgnctl w v)
  | 0x0C => some (s.rgnField (r.lo.setWidth 36) (bitsMask 35 22) fun r v => { r with lo := v.setWidth 22 })
  | 0x10 => some (s.rgnField (r.hi.setWidth 36) (bitsMask 35 16) fun r v => { r with hi := v.setWidth 16 })
  | 0x14 => some (s.rgnField (r.size.setWidth 36) (bitsMask 35 32) fun r v => { r with size := v.setWidth 32 })
  | 0x18 => some (s.portownView 0)
  | 0x1C => some (s.portownView 1)
  | 0x20 => some (s.portownView 2)
  | 0x24 => some (View.ro s (d.guestown.setWidth 36) (bitsMask 35 2))
  | 0x28 => some (View.op s (put 10 d.hoClass.toNat ||| putB 9 d.hoTo ||| put 0 d.hoIndex.toNat) fun v => s.hoctl w v)
  | 0x2C => some (View.reg s (put 9 step ||| putB 8 d.ho.isSome ||| putB 7 d.rej ||| put 0 d.result.toNat) (bitsMask 35 12 ||| bitsMask 6 4)
      (fun _ => false) fun v => { s with worlds := { d with rej := d.rej && !bitOf v 7 } })
  | _ => none

/-- The WLD_ sub-block: reads OK, writes WORLD to whom R369 and R374 shut out. -/
def State.wldView (s : State) (w : Who) (o : Nat) : View :=
  match s.wldReg w o with
  | some v => v.noWrite s (!s.mayWld w)
  | none => View.hole s

def State.setGWin (s : State) (g i : Nat) (f : GWin → GWin) : State := s.modSite g fun x => { x with wins := smod {} x.wins i f }

def State.gwinView (s : State) (g i o : Nat) : View :=
  let y := sget {} (s.site g).wins i
  let no (_ : W36) : Bool := false
  match o with
  | 0x0 => View.reg s (putB 3 y.pack ||| putB 2 y.wr ||| putB 1 y.rd ||| putB 0 y.en) (bitsMask 35 4) no fun v =>
      s.setGWin g i fun z => { z with pack := if z.en then z.pack else bitOf v 3, wr := bitOf v 2, rd := bitOf v 1, en := bitOf v 0 }
  | 0x4 => View.reg s (y.lo.setWidth 36) (bitsMask 35 30) no fun v => if y.en then s else s.setGWin g i fun z => { z with lo := v.setWidth 30 }
  | 0x8 => View.reg s (y.hi.setWidth 36) (bitsMask 35 16) no fun v => if y.en then s else s.setGWin g i fun z => { z with hi := v.setWidth 16 }
  | 0xC => View.reg s (y.size.setWidth 36) (bitsMask 35 32) no fun v => if y.en then s else s.setGWin g i fun z => { z with size := v.setWidth 32 }
  | _ => View.hole s

def State.siteView (s : State) (w : Who) (g o : Nat) : View :=
  let x := s.site g
  let y : View :=
    if o = 0 then View.reg s (put 20 x.rate.toNat ||| put 8 x.burst.toNat ||| putB 0 x.en) (bitsMask 35 32 ||| bitsMask 7 1)
      (fun v => fld v 19 8 == 0) fun v =>
      s.modSite g fun z =>
        let z := { z with rate := BitVec.ofNat 12 (fld v 31 20), burst := BitVec.ofNat 12 (fld v 19 8), en := bitOf v 0 }
        { z with tokens := BitVec.ofNat 12 (min z.burst.toNat z.tokens.toNat) }
    else if o = 4 then View.ro s (put 16 (x.outst.length + x.waiting.length) ||| put 0 x.link.toNat) (bitsMask 35 24 ||| bitsMask 15 3)
    else if o = 8 then View.ro s (x.refuse.setWidth 36) (bitsMask 35 32)
    else if o = 0xC then View.ro s (x.markdrop.setWidth 36) (bitsMask 35 32)
    else if 0x100 ≤ o ∧ o < 0x200 then s.gwinView g ((o - 0x100) / 16) (o % 16)
    else View.hole s
  if !s.siteFit g then View.refuse s .absent
  else if !whoOwn w && s.siteLocked g then View.refuse s .world
  else y.noWrite s (!whoOwn w && s.whoVault w != s.worlds.guestown.getLsbD g)

def State.gthView (s : State) (w : Who) (o : Nat) : View :=
  if 0x1000 ≤ o ∧ o < 0x3000 then s.siteView w ((o - 0x1000) / 0x1000) (o % 0x1000) else View.hole s

def Strait.linkWord (x : Strait) : W36 :=
  put 28 x.st.num ||| put 26 x.toI.width.toNat ||| put 24 x.toK.width.toNat ||| put 17 x.toI.fail.toNat ||| put 10 x.toK.fail.toNat
    ||| putB 9 (x.toI.pri || x.toK.pri) ||| putB 8 (x.toI.bak || x.toK.bak)

def Strait.laneWord (x : Strait) : W36 :=
  let d := if x.lanesel.getLsbD 7 then x.toK else x.toI
  let l := sget {} d.lanes (x.lanesel.toNat % 128)
  put 12 l.err.toNat ||| put 9 l.role.num ||| put 2 (if l.role = .data ∨ l.role = .standin then l.logical.toNat else 0)

def State.straitView (s : State) (n o : Nat) : View :=
  let x := s.strait n
  if !s.isleFit n then View.refuse s .absent
  else match o with
    | 0x00 => View.ro s x.linkWord (bitsMask 35 32 ||| bitsMask 7 0)
    | 0x04 => View.reg s (x.lanesel.setWidth 36) (bitsMask 35 8) (fun v => decide (104 ≤ fld v 6 0)) fun v =>
        s.modStrait n fun y => { y with lanesel := v.setWidth 8 }
    | 0x08 => View.ro s x.laneWord (bitsMask 35 24 ||| bitsMask 1 0)
    | 0x0C => View.ro s (put 16 x.subst.toNat ||| put 12 x.narrow.toNat ||| put 0 x.defer.toNat) (bitsMask 35 32)
    | 0x10 => View.op s (put 4 x.period.toNat ||| putB 2 x.active) fun v => s.recalctl n v
    | 0x14 => View.ro s (put 9 x.result.toNat ||| putB 8 x.vermis ||| putB 7 x.digmis ||| putB 6 x.lhmis ||| putB 5 x.bearwait)
        (bitsMask 35 12 ||| bitsMask 4 0)
    | 0x18 => View.ro s (x.lhofs.setWidth 36) (bitsMask 35 16)
    | _ => View.hole s

def State.strView (s : State) (w : Who) (o : Nat) : View :=
  let no (_ : W36) : Bool := false
  if o = 0 then View.reg s (s.umf.admref.setWidth 36) (bitsMask 35 24) no fun v =>
    if whoUmf w then { s with umf := { s.umf with admref := v.setWidth 24 } } else s
  else if o = 4 then View.reg s (putB 24 s.umf.altValid ||| s.umf.alt.setWidth 36) (bitsMask 35 25) no fun v =>
    if whoUmf w then { s with umf := { s.umf with alt := v.setWidth 24, altValid := bitOf v 24 } } else s
  else if 0x1000 ≤ o ∧ o < 0x1300 then s.straitView ((o - 0x1000) / 0x40) ((o - 0x1000) % 0x40)
  else View.hole s

/-! ### An access to control space -/

def State.keyView (s : State) (w : Who) (off : Nat) : View :=
  let o := off % 0x10000000
  match off / 0x10000000 with
  | 0 => s.umfView w o
  | 1 => s.evrView w o
  | 2 => s.dirView o
  | 3 => s.mcView o
  | 4 => s.prtView w o
  | 5 => s.hbrView w o
  | 6 => s.lhView w o
  | 7 => s.brgView w o
  | 8 => s.pwrView w o
  | 9 => s.wldView w o
  | 10 => s.gthView w o
  | 11 => s.strView w o
  | 12 => s.sndBlock w .keystone o
  | _ => View.hole s

/-- The state in which an access of the Keystone's block is made, and what its unit answers first: DORMANT for a
Harbour or a port block in Dry, and for the Keystone in Lagoon (R347, R363). -/
def State.keyGate (s : State) (w : Who) (off : Nat) : State × Option Resp :=
  let o := off % 0x10000000
  let k : Option (Fin 13) := if off / 0x10000000 = 5 then some 0 else if off / 0x10000000 = 4 then prtBlock o else none
  if s.pwr.lagoon && !whoUmf w then (s, some .dormant)
  else match k with
    | some k => s.blockGate w k
    | none => (s, some .ok)

/-- Where a control-space address lies (R38). -/
inductive CsUnit where
  | isle (n : Fin 12) | site (g : Fin 2) | keystone | none
  deriving DecidableEq, Repr

def csUnit (pa : Nat) : CsUnit :=
  let b := (pa - 0xFF00000000000) / 0x100000000
  if pa < 0xFF00000000000 then .none
  else if h : b < 12 then .isle ⟨b, h⟩
  else if b = 12 then .site 0
  else if b = 13 then .site 1
  else if b = 16 then .keystone
  else .none

/-- The Isle in which a requester stands. -/
def whoIsle : Who → Option Nat
  | .thread t => some (t.val / 48)
  | .umfoent | .umfoentCourt | .smbus | .endpoint _ | .harbour _ _ | .guest _ | .port _ => none

/-- A Strait on the way of an access to a unit passes nothing for now (R217). -/
def State.csHeld (s : State) (w : Who) (u : CsUnit) : Bool :=
  let out := ((whoIsle w).map s.straitHeld).getD false
  match u with
  | .isle n => whoIsle w != some n.val && (out || s.straitHeld n.val)
  | .site _ | .keystone => out
  | .none => false

/-- The register at a word address of the package, in the state in which the access is made; no view while the access waits.
The registers of a guest site are the guest's. -/
def State.csView (s : State) (w : Who) (pa : Nat) : State × Option View :=
  let off := pa % 0x100000000 / 4 * 4
  if s.csHeld w (csUnit pa) then (s, none)
  else match csUnit pa with
  | .none | .site _ => (s, some (View.refuse s .absent))
  | .isle n =>
    if !s.isleFit n then (s, some (View.refuse s .absent))
    else
      let (s, r) := s.isleGate w n
      let s := if off / 0x10000000 = 1 ∧ r = some .ok then s.trwTook n w else s
      (s, r.map fun r => (s.isleView w n off).gate s r)
  | .keystone =>
    let (s, r) := s.keyGate w off
    (s, r.map fun r => (s.keyView w off).gate s r)

/-- An access to a guest site's block, or none of that (R240). -/
def State.csSite (s : State) (w : Who) (pa : Nat) (wr : Option W36) : Option (State × Option (Resp × W36)) :=
  match csUnit pa with
  | .site g => some (if s.csHeld w (.site g) then (s, none) else s.siteAccess w g (pa % 0x100000000 / 4 * 4) wr)
  | .isle _ | .keystone | .none => none

/-- A read of a control-space word; none while it waits. -/
def State.csRead (s : State) (w : Who) (pa : Nat) : State × Option (Resp × W36) :=
  match s.csSite w pa none with
  | some r => r
  | none => match s.csView w pa with
    | (_, some v) => (v.rd.1, some v.rd.2)
    | (s, none) => (s, none)

/-- A write of a control-space word; none while it waits. -/
def State.csWrite (s : State) (w : Who) (pa : Nat) (x : W36) : State × Option Resp :=
  match s.csSite w pa (some x) with
  | some (s, r) => (s, r.map (·.1))
  | none => match s.csView w pa with
    | (_, some v) => ((v.wr x).1, some (v.wr x).2)
    | (s, none) => (s, none)

/-! ### Commands that are accesses to one register -/

/-- Addresses of an Isle's and the Keystone's sub-blocks (R38, R39). -/
def isleReg (n sub o : Nat) : Nat := 0xFF00000000000 + 0x100000000 * n + 0x10000000 * sub + o
def keyReg (sub o : Nat) : Nat := 0xFF01000000000 + 0x10000000 * sub + o

/-- REGISTER_WRITE: a write of any control-space word (R9 to R13). -/
def execRegisterWrite (w : Who) (addr : BitVec 52) (v : W36) (s : State) : Res := .next (s.csWrite w addr.toNat v).1

/-- CIS_CACHECTL_WRITE (R145, R146, R148). -/
def execCisCachectlWrite (w : Who) (n : Fin 12) (v : W36) (s : State) : Res := .next (s.csWrite w (isleReg n 2 4) v).1

/-- CIS_WAYCTL_WRITE (R153). -/
def execCisWayctlWrite (w : Who) (n : Fin 12) (v : W36) (s : State) : Res := .next (s.csWrite w (isleReg n 2 0) v).1

/-- TRW_CLAIM (R163, R165): a read, with others that arrive in the same fabric cycle. -/
def execTrwClaim (w : Who) (others : List Who) (n : Fin 12) (s : State) : Res :=
  .next ((s.trwTogether n (w :: others)).foldl (fun s v => (s.csRead v (isleReg n 1 4)).1) s)

/-- A TRW_CMD word with its ACTION field replaced. -/
def withAction (v : W36) (a : Nat) : W36 := (v &&& ~~~(put 8 3)) ||| put 8 a

/-- Address of TRW_CMD of slot k. -/
def cmdReg (n k : Nat) : Nat := isleReg n 1 (0x10C + 0x40 * k)

/-- GO (R164). -/
def execGo (w : Who) (n : Fin 12) (k : Fin 8) (v : W36) (s : State) : Res := .next (s.csWrite w (cmdReg n k) (withAction v 1)).1
/-- CANCEL (R164). -/
def execCancel (w : Who) (n : Fin 12) (k : Fin 8) (v : W36) (s : State) : Res := .next (s.csWrite w (cmdReg n k) (withAction v 2)).1
/-- RELEASE (R164). -/
def execRelease (w : Who) (n : Fin 12) (k : Fin 8) (v : W36) (s : State) : Res := .next (s.csWrite w (cmdReg n k) (withAction v 3)).1

/-- PWR_CORECTL_WRITE (R355). -/
def execPwrCorectlWrite (w : Who) (c : Fin 288) (v : W36) (s : State) : Res :=
  .next (s.csWrite w (isleReg (c.val / 24) 3 (0x100 + c.val % 24 * 16)) v).1

/-- HBR_RCTL_WRITE (R331). -/
def execHbrRctlWrite (w : Who) (r : Fin 524288) (v : W36) (s : State) : Res := .next (s.csWrite w (keyReg 5 (0x1000000 + 0x40 * r.val)) v).1

/-- A doorbell word with its KIND replaced. -/
def withKind (v : W36) (k : Nat) : W36 := (v &&& ~~~(put 16 3)) ||| put 16 k

/-- Address of the doorbell of ring r (R332). -/
def bellReg (r : Nat) : Nat := keyReg 5 (0x8000000 + r * 8)

/-- Doorbell writes to ring r of one Harbour cycle, in the order of R17 by agent and R18 within one. -/
def State.doorbells (s : State) (r : Nat) (ws : List (Who × W36)) : State :=
  let t := inTurn 16 (fun q : Who × W36 => (s.askerOf q.1).src.toNat) (fun q => whoMember q.1) (s.ring r).bellPtr.toNat ws ws.length
  (t.1.foldl (fun s q => (s.csWrite q.1 (bellReg r) q.2).1) s).modRing r fun x => { x with bellPtr := BitVec.ofNat 4 t.2 }

/-- DOORBELL_TAIL (R332), with other doorbell writes to the ring in the same Harbour cycle. -/
def execDoorbellTail (w : Who) (r : Fin 524288) (v : W36) (others : List (Who × W36)) (s : State) : Res :=
  .next (s.doorbells r ((w, withKind v 0) :: others))
/-- DOORBELL_HEAD (R332). -/
def execDoorbellHead (w : Who) (r : Fin 524288) (v : W36) (others : List (Who × W36)) (s : State) : Res :=
  .next (s.doorbells r ((w, withKind v 1) :: others))
/-- DOORBELL_RESUME (R332). -/
def execDoorbellResume (w : Who) (r : Fin 524288) (v : W36) (others : List (Who × W36)) (s : State) : Res :=
  .next (s.doorbells r ((w, withKind v 2) :: others))

/-- Address of SND_ULO of counter i. -/
def uloReg (u : SndUnit) (i : Nat) : Nat :=
  match u with
  | .isle n => isleReg n 4 (16 * i + 4)
  | .keystone => keyReg 12 (16 * i + 4)

/-- SND_ULO_READ (R425). -/
def execSndUloRead (w : Who) (u : SndUnit) (i : Fin 8) (s : State) : Res := .next (s.csRead w (uloReg u i)).1

/-- SND_ULO_WRITE (R425). -/
def execSndUloWrite (w : Who) (u : SndUnit) (i : Fin 8) (v : W36) (s : State) : Res := .next (s.csWrite w (uloReg u i) v).1

end Sys2Proof.Machine
end

