-- ==== Sys2Proof/Machine/ThreadMem.lean ====
section
/-! DEFINITION. Memory accesses of threads (R51 to R55, R58, R112, R135, R147, R169, R177, R371): a line read, written
or exchanged through the caches of the Isle, at a home, at a Cistern unit or through an outbound window. -/

namespace Sys2Proof.Machine

/-! ### What a thread's access carries (R35) -/

structure Acr where
  t : Nat
  vault : Bool
  ctx : BitVec 12
  deriving DecidableEq, Repr

/-- Isle, local core and tag of the requests of thread t (R33). -/
def Acr.isle (k : Acr) : Nat := k.t / 48
def Acr.core (k : Acr) : Nat := k.t / 2 % 24
def Acr.tag (k : Acr) : BitVec 9 := tagThread k.core (k.t % 2)
def Acr.who (k : Acr) : Who := .thread (Fin.ofNat 576 k.t)

/-- What a record says of an access of a thread (R410). -/
def Acr.xid (k : Acr) : Xid := { world := k.vault, ctx := k.ctx, thread := BitVec.ofNat 10 k.t }

def State.acr (s : State) (t : Nat) : Acr := let x := s.thread t; { t, vault := x.vault, ctx := x.ctx }

/-- What an access does to its unit: o is the unit's first nonet in the line, w its nonets. -/
inductive MemOp where
  | read
  /-- A store of the unit's nonets, at their places in the line. -/
  | write (d : LineBits)
  /-- An AMO with its operand and compare images (R58). -/
  | amo (op : AmoOp) (word : Bool) (src cmp : Reg)
  deriving DecidableEq, Repr

def MemOp.stores : MemOp → Bool
  | .read => false
  | .write _ | .amo .. => true

/-- The line after an access at nonets o to o + w − 1. -/
def MemOp.apply (m : MemOp) (o w : Nat) (l : LineBits) : LineBits :=
  match m with
  | .read => l
  | .write d => merge l d (maskOf o w)
  | .amo op word src cmp => setUnit w l o (amoNew op word (unitAt w l o) src cmp)

/-- How an access ends: with the line as it was before, with a response other than OK, or not yet. -/
inductive Ans where
  | ok (l : LineBits)
  | resp (r : Resp)
  | wait
  deriving DecidableEq, Repr

/-- An access: the state, what it counts if its instruction retires (R421), and its end. -/
structure Got where
  s : State
  evs : List (Nat × Nat)
  ans : Ans
  deriving DecidableEq, Repr

def ansOf (r : Resp × LineBits) : Ans := if r.1 = .ok then .ok r.2 else .resp r.1

/-! ### Winning a line for an access (R177, R185) -/

/-- The request that a line's state needs before a load or a store can use it. -/
def needs (st : AState) (store : Bool) : Option MsgTy :=
  match st with
  | .i => some (if store then .rdu else .rds)
  | .s | .o => if store then some .upg else none
  | .e | .m => none
  | .isD | .imD | .smA | .miA | .eiA => none

def stable (st : AState) : Bool :=
  match st with
  | .i | .s | .e | .o | .m => true
  | .isD | .imD | .smA | .miA | .eiA => false

/-- The agent of an Isle holds a line in a state that serves a load, or a store. -/
def usable (st : AState) (store : Bool) : Bool := stable st && (needs st store).isNone

/-- Brings a line into a state that serves the access: at once, by a request that runs to its end, with a refusal,
or not yet. The Bool says that a request was sent. -/
def State.winFor (s : State) (k : Acr) (n : LineNo) (store : Bool) : State × Bool × Ans :=
  let i := k.isle
  let at0 := ((s.isle i).line n.toNat).st
  let s := if stable at0 then s else s.rest n
  let st := ((s.isle i).line n.toNat).st
  if usable st store then (s, false, .ok 0)
  else match needs st store with
    | none => (s, false, .wait)
    | some ty =>
      -- no RDS, RDU or UPG while the homes drop the Isle's sharer bits (R200)
      if s.home.drop.getLsbD i then (s, false, .wait)
      else
      let m := isleMsg ty i n.toNat k.tag k.vault k.ctx
      let s := (s.sendFill i m).rest n
      let s := if (s.busyFor m).isSome then (s.resend m).rest n else s
      let refused (r : Msg) : Bool := r.ty == .gnt && r.dst == m.src && r.tag == m.tag && r.line == n
      match s.replies.find? refused with
      | some r => ({ s with replies := s.replies.erase r }, true, .resp (respOf r.resp))
      | none => if usable ((s.isle i).line n.toNat).st store then (s, true, .ok 0) else (s, true, .wait)

/-! ### Cacheable accesses -/

/-- Where the caches of a core hold a line: what a lookup counts in the Isle and for the thread (R421, R425). -/
def State.lookups (s : State) (k : Acr) (n : Nat) (via : Via) : State × List (Nat × Nat) :=
  let i := k.isle
  let x := s.core (i * 24 + k.core)
  let on := s.l2On i k.core
  let l1 := match via with
    | .data => on && l1Has x.l1d n
    | .fetch => on && l1Has x.l1i n
    | .walk => false
  let l2 := on && l2Has x.l2 n
  let s := if !on then s
    else
      let s := match via with
        | .data => s.tagRead i (.l1d k.core) n k.xid
        | .fetch => s.tagRead i (.l1i k.core) n k.xid
        | .walk => s
      if l1 then s else s.tagRead i (.l2 k.core) n k.xid
  let e1 := match via with
    | .data => if on && !l1 then [(11, 1)] else []
    | .fetch => if on && !l1 then [(12, 1)] else []
    | .walk => []
  if l1 || l2 then (s, e1)
  else
    let s := (s.sndIsle i 1 (n % 24) k.vault).tagRead i .ic n k.xid
    let s := if icHas (s.isle i).ic n then s else s.sndIsle i 2 (n % 24) k.vault
    (s, e1 ++ if on then [(13, 1)] else [])

/-- What an enabled array holds of a line that it does not track (R148). -/
def State.staleAt (s : State) (k : Acr) (n : Nat) : Option LineVal :=
  let x := s.core (k.isle * 24 + k.core)
  let mine := if s.l2On k.isle k.core then sget none x.old n else none
  match mine with
  | some v => some v
  | none => if s.icOn k.isle then sget none (s.isle k.isle).old n else none

/-- The Isle's copy of a line after an access at nonets o to o + w − 1: a store makes it M, with fresh check bits in the
array that takes it (R135, R141). -/
def State.useLine (s : State) (i n o w : Nat) (a : Arr) (m : MemOp) : State :=
  let l := (s.isle i).line n
  if m.stores then
    (s.modIsle i fun x => x.setLine n { l with st := .m, val := { l.val with bits := m.apply o w l.val.bits } }).modArrErr i a
      fun e => e.filter fun p => decide (p.1 < n * 64 + o ∨ n * 64 + o + w ≤ p.1)
  else s

/-- A cacheable access to a coherent line by a core whose L2 and Isle cache are on. One that cannot end yet has no effect
but the reads of its line out on a port (DESIGN CHOICE, log entry 6); a fill that finds no eligible way is one (R139). An
access that answers POISON does not retire, so it makes no way young (R138). -/
def State.cached (s : State) (k : Acr) (n : LineNo) (o w : Nat) (via : Via) (m : MemOp) : Got :=
  let i := k.isle
  let (s1, evs) := s.lookups k n.toNat via
  match s1.staleAt k n.toNat, m.stores with
  | some v, false => ⟨s1, evs, if v.poison then .resp .poison else .ok v.bits⟩
  | _, _ =>
    let store := match m with | .write _ => true | .read | .amo .. => false
    let s1 := s1.dataRead i k.core n.toNat via (maskOf o w) store k.xid
    match s1.winFor k n m.stores with
    | (s2, sent, .ok _) =>
      let evs := if sent then evs ++ [(14, 1)] else evs
      let a := (s2.isle i).line n.toNat
      let s3 := if a.val.poison then s2 else s2.useLine i n.toNat o w (.l1d k.core) m
      match s3.cacheTouch i k.core n.toNat via (m.stores && !a.val.poison) !a.val.poison with
      | some s4 => ⟨s4, evs, if a.val.poison then .resp .poison else .ok a.val.bits⟩
      | none => ⟨s, [], .wait⟩
    | (s2, _, .resp r) => ⟨s2, evs, .resp r⟩
    | (s2, _, .wait) => ⟨s.keepAsk s2 n, [], .wait⟩

/-! ### Uncached accesses -/

/-- The request of an uncached access (R177). -/
def Acr.request (k : Acr) (n : LineNo) (o w : Nat) (m : MemOp) : Msg :=
  let r := isleMsg .rdn k.isle n.toNat k.tag k.vault k.ctx
  match m with
  | .read => r
  | .write d => if w = 64 then { r with ty := .wrl, hasData := true, data := d } else { r with ty := .wrn, mask := maskOf o w, hasData := true, data := d }
  | .amo op word src cmp =>
    { r with ty := .atm, op := op.code ++ BitVec.ofBool word, hasData := true
             data := setNonet (setUnit 8 (setUnit 8 0 0 src) 8 cmp) 16 (BitVec.ofNat 9 o) }

/-- An uncached access to a coherent line, at its home. The answer of an ATM is the old image. No request leaves for a line
whose eviction from the same Isle awaits its CMP (R177): that ends first. -/
def State.atHome (s : State) (k : Acr) (n : LineNo) (o w : Nat) (m : MemOp) : Got :=
  let leaving (s : State) : Bool :=
    let st := ((s.isle k.isle).line n.toNat).st
    st == .miA || st == .eiA
  let s0 := if leaving s then s.rest n else s
  if leaving s0 then ⟨s, [], .wait⟩
  else match s0.uncached (k.request n o w m) with
    | (s1, none) => ⟨s.keepAsk s1 n, [], .wait⟩
    | (s1, some r) =>
      let l := match m with
        | .read | .write _ => r.data
        | .amo .. => setUnit w 0 o (unitAt 8 r.data 0)
      ⟨s1, [(14, 1)], ansOf (respOf r.resp, l)⟩

/-- A cacheable access of a core whose L2 is off (R147): a single line at the Isle cache, which serves it where it holds
the line in a state that allows it and fills nothing; else the request goes on to the home (DEDUCED, log entry 56). -/
def State.atIsleCache (s : State) (k : Acr) (n : LineNo) (o w : Nat) (via : Via) (m : MemOp) : Got :=
  let i := k.isle
  let (s1, evs) := s.lookups k n.toNat via
  match s1.staleAt k n.toNat, m.stores with
  | some v, false => ⟨s1, evs, if v.poison then .resp .poison else .ok v.bits⟩
  | _, _ =>
    let store := match m with | .write _ => true | .read | .amo .. => false
    let s2 := if store then s1 else s1.arrRead i .ic n.toNat (maskOf o w) k.xid
    let a := (s2.isle i).line n.toNat
    let mine := icHas (s2.isle i).ic n.toNat && (sget none (s2.isle i).old n.toNat).isNone
    if !mine || !usable a.st m.stores then
      match s2.atHome k n o w m with
      | ⟨s3, _, .wait⟩ => ⟨s.keepAsk s3 n, [], .wait⟩
      | g => ⟨g.s, evs ++ g.evs, g.ans⟩
    else if a.val.poison then ⟨s2, evs, .resp .poison⟩
    else
      let s3 := s2.useLine i n.toNat o w .ic m
      let s3 := if m.stores then s3.modIsle i fun x => markIc x n.toNat else s3
      ⟨(s3.touchIc i n.toNat true).getD s3, evs, .ok a.val.bits⟩

/-- An access to a Cistern window: the CMP of its CIS_ unit (R169), once the Straits on its way let it through. -/
def State.atCistern (s : State) (k : Acr) (n : LineNo) (o w : Nat) (m : MemOp) : Got :=
  let r := { k.request n o w m with mask := maskOf o w }
  if s.held r then ⟨s, [], .wait⟩
  else
    let s1 := s.cisternServe r
    let isDone (q : Msg) : Bool := q.ty == .cmp && q.dst == r.src && q.tag == r.tag && q.line == n
    match s1.net.find? isDone with
    | some q => ⟨{ s1 with net := s1.net.erase q }, [], ansOf (answerOf q)⟩
    | none => ⟨s, [], .wait⟩

/-- An access to a window that no home serves (R291 to R295). -/
def State.atWindow (s : State) (k : Acr) (pa : Nat) (sz : MUnit5) (m : MemOp) : Got :=
  let wr := match m with
    | .write d => some d
    | .read | .amo .. => none
  if s.straitHeld k.isle then ⟨s, [], .wait⟩
  else match s.outbound k.who pa sz wr with
  | (s1, some r) => ⟨s1, [(14, 1)], ansOf r⟩
  | (s1, none) => ⟨s1, [], .wait⟩

/-- An address outside control space that answers ABSENT to every thread (R37). -/
def State.nowhere (s : State) (pa : Nat) : Bool :=
  match paClass pa with
  | .control | .unmapped => true
  | .dram => !s.coherent (BitVec.ofNat 46 (pa / 64))
  | .window => (s.owinAt pa).isNone
  | .cistern _ _ => false

/-- An access to the physical address of a unit outside control space: ABSENT first (R13, R37, R53), then the region
table of the Isle, before any lookup (R371). -/
def State.access (s : State) (k : Acr) (pa : Nat) (sz : MUnit5) (uc : Bool) (via : Via) (m : MemOp) : Got :=
  let n : LineNo := BitVec.ofNat 46 (pa / 64)
  let w := unit5Nonets sz
  let o := pa % 64
  if s.nowhere pa then ⟨s, [], .resp .absent⟩
  else match paClass pa with
    | .cistern _ _ => s.atCistern k n o w m
    | .dram | .window | .control | .unmapped =>
      if !k.vault && inVault (s.isle k.isle).regions pa then ⟨s, [], .resp .world⟩
      else if !s.coherent n then s.atWindow k pa sz m
      else if uc || !s.icOn k.isle then s.atHome k n o w m
      else if !s.l2On k.isle k.core then s.atIsleCache k n o w via m
      else s.cached k n o w via m

end Sys2Proof.Machine
end

