-- ==== Sys2Proof/Machine/Translate.lean ====
section
/-! DEFINITION. Address translation of threads (R106 to R112), the translation buffers (R113, R114) and what a TLBINV
write removes from them (R115, R116). -/

namespace Sys2Proof.Machine

/-- Why an address is translated; a store or AMO is a store (R110, R111). -/
inductive TKind where
  | fetch | load | store
  deriving DecidableEq, Repr

def TKind.num : TKind → BitVec 8
  | .fetch => 0 | .load => 1 | .store => 2

/-- Page cause, protection cause (R111). -/
def TKind.page (k : TKind) : BitVec 8 := 8 + k.num
def TKind.prot (k : TKind) : BitVec 8 := 11 + k.num

/-! ### Table entries (R106, R108) -/

/-- Lowest effective-address bit that indexes level l: 14, 25, 36, 47. -/
def levelShift (l : Nat) : Nat := 14 + 11 * l

/-- The physical address in bits 51:14 of an entry or a root register. -/
def pfnOf (e : Reg) : Nat := 2 ^ 14 * (e.extractLsb' 14 38 : BitVec 38).toNat

def pteV (e : Reg) : Bool := e.getLsbD 0
def pteR (e : Reg) : Bool := e.getLsbD 3
def pteW (e : Reg) : Bool := e.getLsbD 4
def pteX (e : Reg) : Bool := e.getLsbD 5
def pteU (e : Reg) : Bool := e.getLsbD 6
def pteA (e : Reg) : Bool := e.getLsbD 7
def pteD (e : Reg) : Bool := e.getLsbD 8
def pteG (e : Reg) : Bool := e.getLsbD 9
def pteUC (e : Reg) : Bool := e.getLsbD 10

/-- A valid entry that points to a table. -/
def pteNext (e : Reg) : Bool := !pteR e && !pteW e && !pteX e

/-- Whether a valid entry read at level l is reserved (R108). -/
def pteReserved (l : Nat) (e : Reg) : Bool :=
  (e.extractLsb' 52 20 : BitVec 20) != 0 || (e.extractLsb' 11 3 : BitVec 3) != 0 || (e.extractLsb' 1 2 : BitVec 2) != 0
    || (pteW e && !pteR e)
    || (if pteNext e then l == 0 || pteU e || pteG e || pteA e || pteD e || pteUC e
        else l == 3 || pfnOf e % 2 ^ levelShift l != 0)

/-- The protection DETAIL of a leaf, lowest first (R110, R111). -/
def leafFault (k : TKind) (priv : BitVec 2) (sum : Bool) (e : Reg) : Option (BitVec 8) :=
  let clear := match k with | .fetch => !pteX e | .load => !pteR e | .store => !pteW e
  let rule :=
    if priv = 0 then !pteU e
    else if priv = 1 then pteU e && (k == .fetch || !sum)
    else false
  if clear then some 0
  else if rule then some 1
  else if !pteA e then some 2
  else if k == .store && !pteD e then some 3
  else none

/-! ### Translation buffers (R113) -/

/-- A TLB entry matches an access: world, table, context unless global, page. -/
def TlbEntry.hits (x : TlbEntry) (vault hTable : Bool) (ctx : BitVec 12) (ea : Addr) : Bool :=
  x.vault == vault && x.hTable == hTable && (pteG x.pte || x.ctx == ctx) && x.vpn == ea.toNat / 2 ^ levelShift x.level.val

def findTlb (l : List TlbEntry) (vault hTable : Bool) (ctx : BitVec 12) (ea : Addr) : Option TlbEntry :=
  l.find? fun x => x.hits vault hTable ctx ea

/-- Adds an entry at the end; of the entries of its set, the oldest leaves when there are more than `ways`
(DESIGN CHOICE, log entry 9). -/
def addTlb (l : List TlbEntry) (ways : Nat) (same : TlbEntry → Bool) (x : TlbEntry) : List TlbEntry :=
  let l := l.erase x
  let l := if ways ≤ (l.filter same).length then (match l.find? same with | some y => l.erase y | none => l) else l
  l ++ [x]

/-- Sets of the second-level TLB: 256 of 12 ways, by page number (DESIGN CHOICE, log entry 9). -/
def tlbSet (x : TlbEntry) : Nat := x.vpn % 256

/-- A leaf enters the TLB of its side, and the second level. -/
def Core.installTlb (x : Core) (fetch : Bool) (e : TlbEntry) : Core :=
  let x := { x with tlb2 := addTlb x.tlb2 12 (fun y => tlbSet y == tlbSet e) e }
  if fetch then { x with itlb := addTlb x.itlb 64 (fun _ => true) e } else { x with dtlb := addTlb x.dtlb 96 (fun _ => true) e }

/-- A hit in the second level enters the TLB of its side too, if the access passes its leaf's checks (DESIGN CHOICE, log
entry 9). -/
def Core.copyTlb (x : Core) (fetch : Bool) (e : TlbEntry) : Core :=
  if fetch then { x with itlb := if x.itlb.contains e then x.itlb else addTlb x.itlb 64 (fun _ => true) e }
  else { x with dtlb := if x.dtlb.contains e then x.dtlb else addTlb x.dtlb 96 (fun _ => true) e }

/-- What the TLBs hold for an access. -/
def Core.lookTlb (x : Core) (fetch vault hTable : Bool) (ctx : BitVec 12) (ea : Addr) : Option TlbEntry :=
  match findTlb (if fetch then x.itlb else x.dtlb) vault hTable ctx ea with
  | some e => some e
  | none => findTlb x.tlb2 vault hTable ctx ea

/-! ### The walk (R106, R112) -/

/-- How a translation ends. -/
inductive Tr where
  | ok (pa : Nat) (uc : Bool)
  | trap (code detail : BitVec 8) (val : Reg)
  | wait
  deriving DecidableEq, Repr

/-- How a walk ends: a leaf with its level, a trap, or not yet. -/
inductive Walk where
  | leaf (level : Fin 3) (e : Reg)
  | trap (code detail : BitVec 8) (val : Reg)
  | wait
  deriving DecidableEq, Repr

/-- A walk from the table at physical address `table`, its entry taken at level l; the list is what it counts. -/
def State.walk (s : State) (a : Acr) (k : TKind) (ea : Addr) : Nat → Nat → State × List (Nat × Nat) × Walk
  | l, table =>
    let pa := table + 8 * (ea.toNat / 2 ^ levelShift l % 2048)
    let g := s.access a pa .double false .walk .read
    match g.ans with
    | .wait => (g.s, g.evs, .wait)
    | .resp r => (g.s, g.evs, .trap 14 (k.num * 16 + r.num.setWidth 8) (BitVec.ofNat 72 pa))
    | .ok line =>
      let e := unitAt 8 line (pa % 64)
      if !pteV e then (g.s, g.evs, .trap k.page 1 (zext72 ea))
      else if pteReserved l e then (g.s, g.evs, .trap k.page 2 (zext72 ea))
      else match l with
        | 0 => (g.s, g.evs, .leaf 0 e)
        | l' + 1 =>
          if pteNext e then
            match State.walk g.s a k ea l' (pfnOf e) with
            | (s, evs, r) => (s, g.evs ++ evs, r)
          else (g.s, g.evs, .leaf (Fin.ofNat 3 (l' + 1)) e)

/-- The physical address that a leaf gives. -/
def leafPa (level : Nat) (e : Reg) (ea : Addr) : Nat := pfnOf e + ea.toNat % 2 ^ levelShift level

/-- A leaf found: its protection is checked, else the access goes on (R110). -/
def leafTr (k : TKind) (priv : BitVec 2) (sum : Bool) (level : Nat) (e : Reg) (ea : Addr) : Tr :=
  match leafFault k priv sum e with
  | some d => .trap k.prot d (zext72 ea)
  | none => .ok (leafPa level e ea) (pteUC e)

/-- Translates an effective address of thread t (R106). -/
def State.translate (s : State) (t : Nat) (k : TKind) (ea : Addr) : State × List (Nat × Nat) × Tr :=
  let x := s.thread t
  let hyp := x.priv == 2
  let root := if hyp then x.cur.hxroot else x.cur.sxroot
  if !root.getLsbD 0 then
    if (ea.extractLsb' 52 12 : BitVec 12) != 0 then (s, [], .trap k.page 0 (zext72 ea)) else (s, [], .ok ea.toNat false)
  else
    let top : BitVec 7 := ea.extractLsb' 57 7
    if top != 0 && top != BitVec.allOnes 7 then (s, [], .trap k.page 0 (zext72 ea))
    else
      let sum := x.cur.sxroot.getLsbD 1
      let fetch := k == .fetch
      let q := t / 2
      match (s.core q).lookTlb fetch x.vault hyp x.ctx ea with
      | some e =>
        match leafTr k x.priv sum e.level.val e.pte ea with
        | .ok pa uc => (s.modCore q fun c => c.copyTlb fetch e, [], .ok pa uc)
        | r => (s, [], r)
      | none =>
        match s.walk (s.acr t) k ea 3 (pfnOf root) with
        | (s1, evs, .wait) => (s1, evs, .wait)
        | (s1, evs, .trap c d v) => (s1, evs, .trap c d v)
        | (s1, evs, .leaf l e) =>
          match leafTr k x.priv sum l.val e ea with
          | .ok pa uc =>
            let ent : TlbEntry := { vault := x.vault, hTable := hyp, ctx := x.ctx, level := l
                                    vpn := ea.toNat / 2 ^ levelShift l.val, pte := e }
            (s1.modCore q fun c => c.installTlb fetch ent, (15, 1) :: evs, .ok pa uc)
          | r => (s1, (15, 1) :: evs, r)

/-! ### TLBINV (R115, R116) -/

/-- What a TLBINV value removes among the entries of a world. -/
def tlbMatch (v : Reg) (vault : Bool) (x : TlbEntry) : Bool :=
  let kind := (v.extractLsb' 69 3 : BitVec 3).toNat
  let ctx : BitVec 12 := v.extractLsb' 0 12
  let page := (v.extractLsb' 12 50 : BitVec 50).toNat
  let inPage := x.vpn == 2 ^ 14 * page / 2 ^ levelShift x.level.val
  x.vault == vault && x.hTable == v.getLsbD 67 &&
    (match kind with
     | 0 => inPage && !pteG x.pte && x.ctx == ctx
     | 1 => !pteG x.pte && x.ctx == ctx
     | 2 => true
     | _ => inPage)

def Core.tlbInv (x : Core) (v : Reg) (vault : Bool) : Core :=
  let keep (e : TlbEntry) : Bool := !tlbMatch v vault e
  { x with itlb := x.itlb.filter keep, dtlb := x.dtlb.filter keep, tlb2 := x.tlb2.filter keep }

/-- Every core of every admitted Isle that is in Run or Slack applies a broadcast. Entries of others are empty when
they leave Neap or Dry (R116). -/
def State.tlbInvAll (s : State) (v : Reg) (vault : Bool) : State :=
  { s with cores := smap ({} : Core) s.cores fun c x =>
      if (s.isle (c / 24)).cond == .admitted && (x.st == .run || x.st == .slack) then x.tlbInv v vault else x }

end Sys2Proof.Machine
end

