-- ==== Sys2Proof/Machine/Predict.lean ====
section
/-! DEFINITION. Direction prediction, the return stack and the key cache of a core (R117 to R123), and what a wrong path
leaves in the caches and translation buffers of its core (R126, R140). -/

namespace Sys2Proof.Machine

/-! ### Keys (R121, R122) -/

/-- The current contexts of a core's threads. -/
def State.currentCtx (s : State) (q : Nat) : List Nat := [(s.thread (2 * q)).ctx.toNat, (s.thread (2 * q + 1)).ctx.toNat]

/-- The list of a key cache, most recently used first, cut to 8: the least recently used key that is not current leaves. -/
def cutKeys (l cur : List Nat) : List Nat :=
  if l.length ≤ 8 then l
  else match l.reverse.find? fun k => !cur.contains k with
    | some k => l.erase k
    | none => l.dropLast

/-- A CRW to CTXID or a VRET makes a context current for core q: its key is used, loaded on a miss. -/
def State.useKey (s : State) (q : Nat) (ctx : Nat) : State :=
  s.modCore q fun x => { x with keys := cutKeys (ctx :: x.keys.erase ctx) (s.currentCtx q) }

/-- The key of a context is needed for a prediction: loaded on a miss. A hit changes nothing. -/
def State.needKey (s : State) (q : Nat) (ctx : Nat) : State := if (s.core q).keys.contains ctx then s else s.useKey q ctx

/-- The current key of a thread: its context's, XORed with the Vault key in the Vault world (R118). -/
def State.currentKey (s : State) (x : Thread) : BitVec 64 :=
  let k := sget 0 s.keys.ctxKeys x.ctx.toNat
  if x.vault then k ^^^ s.keys.vaultKey else k

/-! ### The direction table (R117 to R119) -/

/-- The counter that an address and a key select (R118). -/
def dirIndex (a : Addr) (key : BitVec 64) : Nat :=
  let x : BitVec 62 := a.extractLsb' 2 62 ^^^ key.extractLsb' 0 62
  let i : BitVec 14 := x.extractLsb' 0 14 ^^^ x.extractLsb' 14 14 ^^^ x.extractLsb' 28 14 ^^^ x.extractLsb' 42 14
    ^^^ (x.extractLsb' 56 6 : BitVec 6).setWidth 14
  i.toNat

/-- A saturating two-bit counter moves toward an outcome (R119). -/
def dirMove (c : BitVec 2) (up : Bool) : BitVec 2 := if up then (if c = 3 then 3 else c + 1) else (if c = 0 then 0 else c - 1)

/-- A predicted instruction at the PC of thread t retires: the counter moves; the Bool says it was mispredicted. -/
def State.train (s : State) (t : Nat) (up : Bool) : State × Bool :=
  let x := s.thread t
  let q := t / 2
  let s := s.needKey q x.ctx.toNat
  let i := dirIndex x.pc (s.currentKey x)
  let c := sget 1 (s.core q).dirTab i
  (s.modCore q fun y => { y with dirTab := sset 1 y.dirTab i (dirMove c up) }, decide (2 ≤ c.toNat) != up)

/-! ### The return stack (R120) -/

/-- BL and a JR that links push a + 8; the oldest of 16 drops. -/
def pushRet (l : List Addr) (a : Addr) : List Addr := (a :: l).take 16

/-- What a JR counts and the return stack after it: 17 a fetch stop, 5 a mispredicted return. -/
def jrStack (x : Thread) (rd rs1 : BitVec 6) (target : Addr) : List Addr × List (Nat × Nat) :=
  if rd = 0 ∧ rs1 = 63 then
    match x.ret with
    | [] => ([], [(17, 1)])
    | a :: l => (l, if a = target then [] else [(5, 1)])
  else (if rd = 0 then x.ret else pushRet x.ret (x.pc + 8), [(17, 1)])

/-! ### The wrong path (R126, R140) -/

/-- The line that an access of thread t's core hits in its L2 or L1, if its world may read it. -/
def State.quietLine (s : State) (a : Acr) (pa : Nat) : Option LineBits :=
  let n : LineNo := BitVec.ofNat 46 (pa / 64)
  let x := s.core (a.t / 2)
  let v := (sget none x.old n.toNat).getD ((s.isle a.isle).line n.toNat).val
  let closed := !a.vault && inVault (s.isle a.isle).regions pa
  if s.l2On a.isle a.core && s.coherent n && !closed && l2Has x.l2 n.toNat && !v.poison then some v.bits else none

/-- A walk whose every entry read hits in the L1 or L2, to the leaf that it finds. -/
def State.quietWalk (s : State) (a : Acr) (ea : Addr) : Nat → Nat → Option (Fin 3 × Reg)
  | l, table =>
    let pa := table + 8 * (ea.toNat / 2 ^ levelShift l % 2048)
    (s.quietLine a pa).bind fun line =>
      let e := unitAt 8 line (pa % 64)
      if !pteV e || pteReserved l e then none
      else match l with
        | 0 => some (0, e)
        | l' + 1 => if pteNext e then s.quietWalk a ea l' (pfnOf e) else some (Fin.ofNat 3 (l' + 1), e)

/-- A wrong-path translation: none where it would trap or must wait; the leaf of a walk is installed. -/
def State.quietTranslate (s : State) (t : Nat) (fetch : Bool) (ea : Addr) : State × Option (Nat × Bool) :=
  let x := s.thread t
  let hyp := x.priv == 2
  let root := if hyp then x.cur.hxroot else x.cur.sxroot
  let k : TKind := if fetch then .fetch else .load
  let top : BitVec 7 := ea.extractLsb' 57 7
  if !root.getLsbD 0 then (s, if (ea.extractLsb' 52 12 : BitVec 12) != 0 then none else some (ea.toNat, false))
  else if top != 0 && top != BitVec.allOnes 7 then (s, none)
  else
    let ends (l : Nat) (e : Reg) : Option (Nat × Bool) :=
      match leafTr k x.priv (x.cur.sxroot.getLsbD 1) l e ea with
      | .ok pa uc => some (pa, uc)
      | .trap .. | .wait => none
    match (s.core (t / 2)).lookTlb fetch x.vault hyp x.ctx ea with
    | some e => (if (ends e.level.val e.pte).isSome then s.modCore (t / 2) fun c => c.copyTlb fetch e else s, ends e.level.val e.pte)
    | none =>
      match s.quietWalk (s.acr t) ea 3 (pfnOf root) with
      | none => (s, none)
      | some (l, e) =>
        let ent : TlbEntry := { vault := x.vault, hTable := hyp, ctx := x.ctx, level := l, vpn := ea.toNat / 2 ^ levelShift l.val, pte := e }
        (if (ends l.val e).isSome then s.modCore (t / 2) fun c => c.installTlb fetch ent else s, ends l.val e)

/-- A wrong-path fetch or load: it fills the L1 of its core from a line that hits in the L2, at age 1, and goes no further. -/
def State.wrongAccess (s : State) (t : Nat) (fetch : Bool) (ea : Addr) : State :=
  match s.quietTranslate t fetch ea with
  | (s, some (pa, false)) =>
    let a := s.acr t
    let n := pa / 64
    let there := if fetch then l1Has (s.core (t / 2)).l1i n else l1Has (s.core (t / 2)).l1d n
    if (s.quietLine a pa).isSome && !there then (s.fillL1 a.isle a.core (!fetch) n 1 false).getD s else s
  | (s, _) => s

/-- What the wrong path behind thread t's last mispredict or trap has left. -/
def State.wrongPath (s : State) (t : Nat) : State :=
  let bit : BitVec 2 := (1 : BitVec 2) <<< (t % 2)
  if (s.core (t / 2)).wrong &&& bit = 0 then s
  else
    let s1 := { s with free := s.free + 1 }.modCore (t / 2) fun x => { x with wrong := x.wrong &&& ~~~bit }
    (Config.wrongPath s.free).foldl (fun s p => s.wrongAccess t p.1 p.2) s1

end Sys2Proof.Machine
end

