-- ==== Sys2Proof/Machine/Issue.lean ====
section
/-! DEFINITION. How an instruction of a thread runs (R72, R73, R83, R92, R93, R102): whether the thread issues, a
deliverable interrupt first, the fetch, the checks of the word, then the instruction's own effect and what
follows its completion. -/

namespace Sys2Proof.Machine

/-- How an instruction's own part ends. -/
inductive Done where
  /-- Completes with an outcome of R73. `predicted`: its direction was predicted (R117). -/
  | done (s : State) (f : Flow) (predicted : Bool) (evs : List (Nat × Nat))
  /-- Completes and has set PC, nPC and DS itself. -/
  | moved (s : State)
  /-- A CRW: its write takes effect after what its retirement counts (R423). -/
  | wrote (s : State) (write : State → State)
  /-- SYSCALL and HVCALL: complete by entering a trap (R88). -/
  | call (s : State) (code : BitVec 8)
  /-- Traps; the state holds what the caches and TLBs took. -/
  | trap (s : State) (code detail : BitVec 8) (val : Reg)
  /-- Cannot complete yet: the thread does not advance. -/
  | wait (s : State)

/-- An ordinary completion. -/
def Done.ord (s : State) : Done := .done s .ordinary false []

/-- Whether thread t can issue: it runs, in a core in Run of an Isle that is admitted, at work and not stopped for an entry of
Neap or Lagoon (R190). -/
def State.issues (s : State) (t : Nat) : Bool :=
  let i := s.isle (t / 48)
  (s.thread t).mode == .running && (s.core (t / 2)).st == .run && i.cond == .admitted && i.st == .run && (!i.parked || !(s.thread t).sb.isEmpty)
    && !i.stream.quiesce && !s.pwr.stream.quiesce
    && !s.board.resetHeld && s.board.fatal.isNone

/-! ### Fetch (R53, R93, R104, R112) -/

/-- Fetches the instruction at PC, after what a squashed path has left. The word itself is the command's (DESIGN CHOICE, log
entry 5). The access follows a translation that succeeds, so a translation trap comes before Fetch-access (R51, R112:
DEDUCED, log entry 50). -/
def State.fetch (s : State) (t : Nat) : State × List (Nat × Nat) × Tr :=
  let s := s.wrongPath t
  let pc := (s.thread t).pc
  match s.translate t .fetch pc with
  | (s1, evs, .ok pa uc) =>
    let g := s1.access (s1.acr t) pa .word uc .fetch .read
    match g.ans with
    | .ok _ => (g.s, evs ++ g.evs, .ok pa uc)
    | .resp r => (g.s, evs ++ g.evs, .trap 6 (r.num.setWidth 8) (zext72 pc))
    | .wait => (g.s, evs ++ g.evs, .wait)
  | r => r

/-! ### The checks of the word (R83, R92, R93) -/

/-- The groups of R83. -/
def slotIllegal (w : W36) : Bool :=
  match (wMajor w).toNat with
  | 0o020 | 0o021 | 0o022 | 0o023 | 0o024 | 0o025 | 0o006 | 0o007 => true
  | 0o005 => decide ((wMinor w).toNat < 3)
  | 0o120 | 0o121 | 0o122 | 0o123 | 0o124 | 0o125 | 0o126 => !w.getLsbD 1
  | 0o100 | 0o101 | 0o102 | 0o103 => !w.getLsbD 7
  | _ => false

/-- DETAIL of Illegal-instruction for a word executed with a slot flag, lowest first. -/
def illegalDetail (w : W36) (ds : Bool) : Option (BitVec 8) :=
  match wordDetail w with
  | some d => some d
  | none => if ds && slotIllegal w then some 3 else none

/-! ### Completion (R73, R119, R421) -/

/-- An instruction of thread t completes with outcome f. -/
def State.complete (s : State) (t : Nat) (f : Flow) (predicted : Bool) (evs : List (Nat × Nat)) : State :=
  let x := s.thread t
  let up := match f with | .skip | .taken _ => true | .ordinary | .notTaken _ => false
  let p := if predicted then s.train t up else (s, false)
  let more := flowEvents f ++ if p.2 then [(5, 1)] else []
  let s := if p.2 then p.1.markWrong t else p.1
  (s.retired t x.vault x.priv (evs ++ more)).modThread t fun y => y.advance f

/-- A trap of the instruction at PC; its issue slot counts as squashed (R422). -/
def State.trapped (s : State) (t : Nat) (code detail : BitVec 8) (val : Reg) : State :=
  let x := s.thread t
  (s.countEvents t x.vault x.priv [(8, 1)]).trap t code detail val

/-- SYSCALL and HVCALL complete: the trap saves what follows them (R88, R91). -/
def State.called (s : State) (t : Nat) (code : BitVec 8) (evs : List (Nat × Nat)) : State :=
  let x := s.thread t
  let s := (s.countEvents t x.vault x.priv ((2, 1) :: (8, 1) :: evs)).countFix1 t x.vault
  s.modThread t fun y => y.takeTrap code 0 0 y.npc (y.npc + 4) false

/-- What follows an instruction's own part; `old` is the thread before it. An instruction that has begun to wait counts
its fetch now and the rest when it completes. -/
def State.finish (t : Nat) (old : Thread) (evs : List (Nat × Nat)) : Done → State
  | .done s f p more => s.complete t f p (evs ++ more)
  | .moved s => s.retired t old.vault old.priv evs
  | .wrote s f => (f (s.retired t old.vault old.priv evs)).modThread t fun y => y.advance .ordinary
  | .call s c => s.called t c evs
  | .trap s c d v => s.trapped t c d v
  | .wait s => if (s.thread t).mode = .running then s else s.countEvents t old.vault old.priv evs

/-- Runs an instruction word of thread t whose own part is `body`. -/
def State.runWord (s : State) (t : Fin 576) (w : W36) (body : State → Done) : State :=
  match s.pickInt t.val with
  | some (k, l) => s.takeInt t.val k l
  | none =>
    match s.fetch t.val with
    | (s1, _, .wait) => s1
    | (s1, _, .trap c d v) => s1.trap t.val c d v
    | (s1, evs, .ok _ _) =>
      let x := s1.thread t.val
      match illegalDetail w x.ds with
      | some d => s1.trapped t.val 1 d (zext72 w)
      | none => State.finish t.val x evs (body s1)

/-- Runs instruction i of thread t: nothing happens while the thread does not issue. -/
def State.run (s : State) (t : Fin 576) (i : Instr) (body : State → Done) : Res :=
  if !s.threadFit t.val || !s.issues t.val then .next s
  else .next (s.runWord t ((encodeWord i).getD 0) body)

/-! ### Parts that many instructions share -/

/-- A general register of thread t. -/
def State.g (s : State) (t : Fin 576) (r : BitVec 6) : Reg := (s.thread t.val).gr r

/-- Writes a general register of thread t. -/
def State.setG (s : State) (t : Fin 576) (r : BitVec 6) (v : Reg) : State := s.modThread t.val fun x => x.setGr r v

/-- rd := a value, and the ordinary outcome. -/
def writeG (t : Fin 576) (rd : BitVec 6) (v : State → Reg) (s : State) : Done := .ord (s.setG t rd (v s))

/-- Privilege for an instruction that needs level l (R92). -/
def needPriv (t : Fin 576) (l : BitVec 2) (w : W36) (body : State → Done) (s : State) : Done :=
  if (s.thread t.val).priv.toNat < l.toNat then .trap s 2 (l.setWidth 8) (zext72 w) else body s

end Sys2Proof.Machine
end

