-- ==== Sys2Proof/Machine/System.lean ====
section
/-! DEFINITION. The system group (R90, R91, R97 to R101, R326, R327), and an interrupt taken between
instructions (R94 to R96). -/

namespace Sys2Proof.Machine

/-! ### SYSCALL, HVCALL, TRET (R90, R91) -/

/-- The word of an instruction, as xVAL of Illegal-instruction and Privilege holds it (R92). -/
def wordOf (i : Instr) : W36 := (encodeWord i).getD 0

/-- SYSCALL (R91). -/
def execSyscall (t : Fin 576) (s : State) : Res := s.run t (.syscall t) fun s => .call s 17

/-- HVCALL (R91). -/
def execHvcall (t : Fin 576) (s : State) : Res :=
  s.run t (.hvcall t) (needPriv t 1 (wordOf (.hvcall t)) fun s => .call s 18)

/-- TRET (R90). -/
def execTret (t : Fin 576) (s : State) : Res :=
  s.run t (.tret t) (needPriv t 1 (wordOf (.tret t)) fun s => .moved (s.modThread t.val Thread.trapReturn))

/-! ### WAIT (R97) -/

/-- WAIT completes at once: nothing is enabled, or an enabled class is pending at its level. -/
def State.waitEnds (s : State) (t : Nat) : Bool :=
  let w := (s.thread t).cur
  (w.s.iena == 0 && w.h.iena == 0) || s.waitMet t

/-- WAIT (R97). -/
def execWait (t : Fin 576) (s : State) : Res :=
  s.run t (.wait t) fun s =>
    if s.waitEnds t.val then .ord s else .wait (s.modThread t.val fun x => { x with mode := .waiting })

/-- A waiting thread's WAIT completes, and its core returns to Run from Slack (R97, R346). -/
def State.endWait (s : State) (t : Nat) : State :=
  let s := s.modThread t fun x => { x with mode := .running }
  (s.complete t .ordinary false []).modCore (t / 2) fun x => if x.st = .slack then { x with st := .run, slackReq := false } else x

/-- A thread of this core can complete what it waits in: the core is in Run or Slack, its Isle at work. -/
def State.awake (s : State) (t : Nat) : Bool :=
  let i := s.isle (t / 48)
  (s.core (t / 2)).isUp && i.cond == .admitted && (i.st == .run || i.st == .slack) && !s.board.resetHeld && s.board.fatal.isNone

/-- WAIT_COMPLETE (R97). -/
def execWaitComplete (t : Fin 576) (s : State) : Res :=
  if s.threadFit t.val && (s.thread t.val).mode == .waiting && s.waitMet t.val && s.awake t.val then .next (s.endWait t.val)
  else .next s

/-! ### LAUNCH (R321, R326, R327) -/

/-- The refusal of R321 as LAUNCH reports it. -/
def launchRefusal (drift : Bool) (t now : Reg) : Option Nat :=
  if drift then some 4
  else if t.extractLsb' 64 8 ≠ now.extractLsb' 64 8 then some 3
  else
    let d : Int := (low64 t).toNat - (low64 now).toNat
    if d < 1 then some 1 else if 2 ^ 32 < d then some 2 else none

/-- LAUNCH (R326): refused at once, or waiting for its reading. -/
def execLaunch (t : Fin 576) (rd rs1 : BitVec 6) (s : State) : Res :=
  s.run t (.launch t rd rs1) fun s =>
    let n := t.val / 48
    let r := s.g t rs1
    match launchRefusal (s.isle n).lhDrift r (s.copyNow n) with
    | some k => .ord (s.setG t rd (BitVec.ofNat 72 k))
    | none => .wait (s.modThread t.val fun x => { x with mode := .launch r rd })

/-! ### Interrupts (R94 to R97, R327) -/

/-- INTERRUPT (R94): a deliverable class of the thread's current world is taken before its next instruction. A thread in
WAIT completes it first (R97), and a thread in LAUNCH ends it with status 5 (R327). -/
def execInterrupt (t : Fin 576) (s : State) : Res :=
  match if s.threadFit t.val then s.pickInt t.val else none with
  | none => .next s
  | some (k, l) =>
    if !s.awake t.val then .next s
    else match (s.thread t.val).mode with
      | .running => if s.issues t.val then .next (s.takeInt t.val k l) else .next s
      | .waiting => .next ((s.endWait t.val).takeInt t.val k l)
      | .launch _ _ => .next ((s.launchEnd t.val 5).takeInt t.val k l)
      | .stopped | .reseed | .bcast => .next s

/-! ### The Vault world (R98 to R101, R120, R122) -/

/-- VRSAVE (R98). -/
def vrsaveOf (x : Thread) : Reg := (0 : BitVec 50) ++ x.priv ++ x.ctx ++ x.rm ++ x.flags

/-- VCALL (R99). -/
def execVcall (t : Fin 576) (s : State) : Res :=
  s.run t (.vcall t) (needPriv t 1 (wordOf (.vcall t)) fun s =>
    let x := s.thread t.val
    if x.vault then .trap s 19 0 0
    else if !x.ventry.getLsbD 0 then .trap s 19 1 0
    else
      let a : Addr := x.ventry.extractLsb' 6 58 ++ (0 : BitVec 6)
      .moved (s.modThread t.val fun x => { x with
        vrpc := zext72 (x.pc + 4), vrsave := vrsaveOf x, vault := true, priv := 2, ret := []
        pc := a, npc := a + 4, ds := false }))

/-- VRET (R100): general registers above g4 and every vector register are cleared. -/
def execVret (t : Fin 576) (s : State) : Res :=
  s.run t (.vret t) (needPriv t 1 (wordOf (.vret t)) fun s =>
    let x := s.thread t.val
    if !x.vault then .trap s 19 2 0
    else
      let v := x.vrsave
      let a := low64 x.vrpc
      let s := s.modThread t.val fun x => { x with
        g := x.g.filter fun p => decide (p.1 < 5), v := []
        priv := v.extractLsb' 20 2, ctx := v.extractLsb' 8 12, rm := v.extractLsb' 5 3, flags := v.extractLsb' 0 5
        vault := false, ret := [], pc := a, npc := a + 4, ds := false }
      .moved (s.useKey (t.val / 2) (s.thread t.val).ctx.toNat))

end Sys2Proof.Machine
end

