-- ==== Sys2Proof/Machine/ControlRegs.lean ====
section
/-! DEFINITION. Control registers (R44 to R46, R86, R87, R98, R105, R107, R115, R123, R130, R324, R325, R418 to R420): which exist, who
may reach them, what they read and what a write does; TLBINV, CTXRESEED and FSTEP with them. -/

namespace Sys2Proof.Machine

/-! ### The registers (R44, R86, R105, R324, R418) -/

/-- The level that may read a register and the level that may write it, none for one that is never written. -/
structure CrInfo where
  rd : BitVec 2
  wr : Option (BitVec 2)
  /-- Reached in the Vault world only (R86). -/
  vault : Bool := false
  deriving DecidableEq, Repr

/-- The control registers that are defined. -/
def crInfo (num : Nat) : Option CrInfo :=
  match num with
  | 0o0000 | 0o0002 | 0o0003 => some { rd := 0, wr := none }
  | 0o0001 => some { rd := 1, wr := some 2 }
  | 0o0004 | 0o0005 => some { rd := 0, wr := some 0 }
  | 0o0030 => some { rd := 2, wr := some 2 }
  | 0o0031 => some { rd := 1, wr := none }
  | 0o0040 => some { rd := 2, wr := none, vault := true }
  | 0o0041 | 0o0042 => some { rd := 1, wr := none, vault := true }
  | 0o0100 | 0o0102 => some { rd := 1, wr := some 1 }
  | 0o0101 | 0o0110 => some { rd := 2, wr := some 2 }
  | 0o0120 => some { rd := 1, wr := some 2 }
  | 0o0230 | 0o0231 | 0o0302 | 0o0303 => some { rd := 1, wr := some 1 }
  | 0o0300 | 0o0301 => some { rd := 0, wr := none }
  | _ =>
    if 0o0010 ≤ num ∧ num ≤ 0o0017 then some { rd := 1, wr := some 1 }
    else if 0o0020 ≤ num ∧ num ≤ 0o0027 then some { rd := 2, wr := some 2 }
    else if (0o0200 ≤ num ∧ num ≤ 0o0205) ∨ (0o0210 ≤ num ∧ num ≤ 0o0215) ∨ (0o0220 ≤ num ∧ num ≤ 0o0222) then
      some { rd := 1, wr := some 1 }
    else none

/-! ### Trap banks by number (R86, R87) -/

/-- Register k of a bank, in the order of 0o0010 to 0o0017. -/
def Bank.get (b : Bank) (k : Nat) : Reg :=
  match k with
  | 0 => b.cause | 1 => b.pc | 2 => b.npc | 3 => b.val | 4 => b.stat | 5 => b.vec | 6 => b.scr | _ => b.iena

def Bank.set (b : Bank) (k : Nat) (v : Reg) : Bank :=
  match k with
  | 0 => { b with cause := v } | 1 => { b with pc := v } | 2 => { b with npc := v } | 3 => { b with val := v }
  | 4 => { b with stat := v } | 5 => { b with vec := v } | 6 => { b with scr := v } | _ => { b with iena := v }

/-- Bits hi to lo set. -/
def regMask (hi lo : Nat) : Reg := BitVec.ofNat 72 (2 ^ (hi + 1) - 2 ^ lo)

/-- Reserved bits and encodings of register k of a bank (R87). -/
def bankBad (hyp : Bool) (k : Nat) (v : Reg) : Bool :=
  match k with
  | 0 => v &&& (regMask 71 24 ||| regMask 21 16) != 0
  | 1 | 2 => v &&& (regMask 71 64 ||| regMask 1 0) != 0
  | 3 | 6 => false
  | 4 => v &&& regMask 71 4 != 0 || decide ((if hyp then 3 else 2) ≤ (v.extractLsb' 2 2 : BitVec 2).toNat)
  | 5 => v &&& (regMask 71 64 ||| regMask 5 0) != 0
  | _ => v &&& regMask 71 8 != 0

/-! ### Soundings (R418 to R421) -/

/-- The events of R421. -/
def eventKnown (e : Nat) : Bool := decide (e ≤ 18 ∨ (32 ≤ e ∧ e ≤ 35))

/-- Events whose counts depend on cycles, occupancy or wrong-path work, which the model leaves out: a counter of one
reads a free value (DESIGN CHOICE, log entry 18). -/
def eventTimed (e : Nat) : Bool := decide (e = 1 ∨ e = 5 ∨ e = 6 ∨ e = 8 ∨ e = 9 ∨ e = 10 ∨ e = 18 ∨ 32 ≤ e)

def selBad (v : Reg) : Bool :=
  let e : BitVec 8 := v.extractLsb' 0 8
  v &&& (regMask 71 36 ||| regMask 19 19 ||| regMask 15 8) != 0 || !eventKnown e.toNat
    || ((v.extractLsb' 24 12 : BitVec 12) != 0 && decide (e.toNat < 32))

/-! ### What a write may not set (R45, R46, R87, R107, R115, R123, R130, R325, R420) -/

/-- A value that sets a reserved bit or places a reserved encoding, written by a thread at level p. -/
def crBad (num : Nat) (p : BitVec 2) (v : Reg) : Bool :=
  match num with
  | 0o0001 => v &&& regMask 71 12 != 0
  | 0o0004 => v &&& regMask 71 3 != 0 || decide (5 ≤ (v.extractLsb' 0 3 : BitVec 3).toNat)
  | 0o0005 => v &&& regMask 71 5 != 0
  | 0o0030 => v &&& (regMask 71 40 ||| regMask 31 20 ||| regMask 7 7 ||| regMask 0 0) != 0
  | 0o0100 => v &&& (regMask 71 52 ||| regMask 13 2) != 0
  | 0o0101 => v &&& (regMask 71 52 ||| regMask 13 1) != 0
  | 0o0102 =>
    v &&& regMask 66 62 != 0 || decide (3 < (v.extractLsb' 69 3 : BitVec 3).toNat) || (p == 1 && v.getLsbD 67)
  | 0o0110 => v &&& (regMask 71 16 ||| regMask 13 12) != 0
  | 0o0120 =>
    let r := (v.extractLsb' 24 6 : BitVec 6).toNat
    v &&& (regMask 71 30 ||| regMask 6 0) != 0 || decide (r < 12 ∨ 36 < r)
  | 0o0230 => v &&& regMask 71 13 != 0
  | 0o0231 => v &&& regMask 71 9 != 0
  | 0o0302 => false
  | 0o0303 => v &&& regMask 71 5 != 0
  | _ =>
    if 0o0010 ≤ num ∧ num ≤ 0o0017 then bankBad false (num - 0o0010) v
    else if 0o0020 ≤ num ∧ num ≤ 0o0027 then bankBad true (num - 0o0020) v
    else if 0o0210 ≤ num ∧ num ≤ 0o0215 then selBad v
    else v &&& regMask 71 48 != 0

/-! ### Reads -/

/-- FSTEP (R130). -/
def State.fstepWord (s : State) (q : Nat) : Reg :=
  let x := s.core q
  BitVec.ofNat 72 (2 ^ 24 * (x.fHeld.getD x.fReq).toNat + 2 ^ 18 * x.fCur.toNat + 2 ^ 12 * s.coreCap q + 2 ^ 8 * x.fRefuser.toNat
    + if x.fPending then 128 else 0)

/-- A counter that the model does not count reads a free value of its 48 bits. -/
def State.freeCount (s : State) : State × Reg := let f := s.takeFree; (f.2, zext72 (f.1.extractLsb' 0 48))

/-- What a permitted CRR of thread t reads. -/
def State.crGet (s : State) (t : Fin 576) (num : Nat) : State × Reg :=
  let x := s.thread t.val
  let q := t.val / 2
  let w := x.cur
  let fix := (s.core q).fix x.vault
  match num with
  | 0o0000 => (s, BitVec.ofNat 72 t.val)
  | 0o0001 => (s, zext72 x.ctx)
  | 0o0002 => (s, zext72 x.priv)
  | 0o0003 => (s, if x.vault then 1 else 0)
  | 0o0004 => (s, zext72 x.rm)
  | 0o0005 => (s, zext72 x.flags)
  | 0o0030 => (s, w.troute)
  | 0o0031 => (s, zext72 (s.ipend t.val x.vault))
  | 0o0040 => (s, x.ventry)
  | 0o0041 => (s, x.vrpc)
  | 0o0042 => (s, x.vrsave)
  | 0o0100 => (s, w.sxroot)
  | 0o0101 => (s, w.hxroot)
  | 0o0102 => (s, 0)
  | 0o0110 => (s, BitVec.ofNat 72 (2 ^ 14 * (s.core q).reseedStatus.toNat + (s.core q).reseedCtx.toNat))
  | 0o0120 => (s, s.fstepWord q)
  | 0o0221 => (s, sget 0 fix 1)
  | 0o0230 => (s, w.sndperm)
  | 0o0231 => (s, w.sndovf)
  | 0o0300 => (s, s.copyShown (t.val / 48))
  | 0o0301 =>
    let i := s.isle (t.val / 48)
    (s, (if i.lhDrift then 2 else 0) ||| (if i.lhSync then 1 else 0))
  | 0o0302 => (s, w.alarm)
  | 0o0303 => (s, w.alctl)
  | _ =>
    if 0o0010 ≤ num ∧ num ≤ 0o0017 then (s, w.s.get (num - 0o0010))
    else if 0o0020 ≤ num ∧ num ≤ 0o0027 then (s, w.h.get (num - 0o0020))
    else if 0o0200 ≤ num ∧ num ≤ 0o0205 then
      let sel := sget 0 w.sndsel (num - 0o0200)
      if eventTimed (sel.extractLsb' 0 8 : BitVec 8).toNat then s.freeCount else (s, sget 0 w.sndcnt (num - 0o0200))
    else if 0o0210 ≤ num ∧ num ≤ 0o0215 then (s, sget 0 w.sndsel (num - 0o0210))
    else s.freeCount

/-! ### Writes -/

/-- Changes the current world's copies of a thread's registers. -/
def State.modCur (s : State) (t : Nat) (f : WReg → WReg) : State := s.modThread t fun x => x.setCur (f x.cur)

/-- What a permitted CRW of a legal value does at once. CTXRESEED and a broadcast TLBINV are in `crwPart`. -/
def State.crSet (s : State) (t : Fin 576) (num : Nat) (v : Reg) : State :=
  let t := t.val
  let q := t / 2
  let vault := (s.thread t).vault
  match num with
  | 0o0001 => (s.modThread t fun x => { x with ctx := v.setWidth 12, ret := [] }).useKey q (v.setWidth 12 : BitVec 12).toNat
  | 0o0004 => s.modThread t fun x => { x with rm := v.setWidth 3 }
  | 0o0005 => s.modThread t fun x => { x with flags := v.setWidth 5 }
  | 0o0030 => s.modCur t fun w => { w with troute := v ||| 0x40000 }
  | 0o0100 => s.modCur t fun w => { w with sxroot := v }
  | 0o0101 => s.modCur t fun w => { w with hxroot := v }
  | 0o0102 => s.modCore q fun x => x.tlbInv v vault
  | 0o0120 => s.stepRequest q (v.extractLsb' 24 6)
  | 0o0230 => s.modCur t fun w => { w with sndperm := v }
  | 0o0231 => s.modCur t fun w => { w with sndovf := w.sndovf &&& ~~~v }
  | 0o0302 => s.modCur t fun w => { w with alarm := v }
  | 0o0303 => s.modCur t fun w => { w with alctl := v }
  | _ =>
    if 0o0010 ≤ num ∧ num ≤ 0o0017 then s.modCur t fun w => { w with s := w.s.set (num - 0o0010) v }
    else if 0o0020 ≤ num ∧ num ≤ 0o0027 then s.modCur t fun w => { w with h := w.h.set (num - 0o0020) v }
    else if 0o0200 ≤ num ∧ num ≤ 0o0205 then s.modCur t fun w => { w with sndcnt := sset 0 w.sndcnt (num - 0o0200) v }
    else if 0o0210 ≤ num ∧ num ≤ 0o0215 then s.modCur t fun w => { w with sndsel := sset 0 w.sndsel (num - 0o0210) v }
    else s.modCore q fun x => x.setFix vault (sset 0 (x.fix vault) (num - 0o0220) v)

/-! ### CRR and CRW (R44, R45, R93, R419) -/

/-- The register that a CRR or CRW of thread t names: none is Illegal-instruction DETAIL 4 (R45, R86). -/
def crFor (x : Thread) (num : Nat) : Option CrInfo := (crInfo num).filter fun i => !i.vault || x.vault

/-- A user-level CRR of a counter is permitted (R419). -/
def Thread.mayCount (x : Thread) (num : Nat) : Bool :=
  decide ((0o0200 ≤ num ∧ num ≤ 0o0205) ∨ (0o0220 ≤ num ∧ num ≤ 0o0222)) && x.cur.sndperm.getLsbD 12
    && x.cur.sndperm.extractLsb' 0 12 == x.ctx

/-- The own part of CRR. -/
def crrPart (t : Fin 576) (rd : BitVec 6) (num : Nat) (w : W36) (s : State) : Done :=
  let x := s.thread t.val
  match crFor x num with
  | none => .trap s 1 4 (zext72 w)
  | some i =>
    if x.priv.toNat < i.rd.toNat ∧ !x.mayCount num then .trap s 2 (i.rd.setWidth 8) (zext72 w)
    else let r := s.crGet t num; .ord (r.1.setG t rd r.2)

/-- The own part of CRW, and of the rows that are a CRW of one register. -/
def crwPart (t : Fin 576) (rs1 : BitVec 6) (num : Nat) (w : W36) (s : State) : Done :=
  let x := s.thread t.val
  let v := x.gr rs1
  match crFor x num with
  | none => .trap s 1 4 (zext72 w)
  | some i =>
    match i.wr with
    | none => .trap s 1 5 (zext72 w)
    | some l =>
      if crBad num x.priv v then .trap s 1 5 (zext72 w)
      else if x.priv.toNat < l.toNat then .trap s 2 (l.setWidth 8) (zext72 w)
      else if num = 0o0110 then
        let c : BitVec 12 := v.setWidth 12
        let s := s.modCore (t.val / 2) fun y => { y with reseedCtx := c }
        let s := { s with keys := { s.keys with waiting := s.keys.waiting ++ [(t, c)] } }
        .wait (s.modThread t.val fun y => { y with mode := .reseed })
      else if num = 0o0102 ∧ v.getLsbD 68 then
        let s := { s with keys := { s.keys with bcasts := s.keys.bcasts ++ [(t, x.vault, v)] } }
        .wait (s.modThread t.val fun y => { y with mode := .bcast })
      else .wrote s fun s => s.crSet t num v

/-- CRR (R44, R45). -/
def execCrr (t : Fin 576) (rd : BitVec 6) (num : BitVec 10) (s : State) : Res :=
  s.run t (.crr t rd num) (crrPart t rd num.toNat (wordOf (.crr t rd num)))

/-- CRW (R44, R45). -/
def execCrw (t : Fin 576) (rs1 : BitVec 6) (num : BitVec 10) (s : State) : Res :=
  s.run t (.crw t rs1 num) (crwPart t rs1 num.toNat (wordOf (.crw t rs1 num)))

/-- CRW_CTXID (R120, R122). -/
def execCrwCtxid (t : Fin 576) (rs1 : BitVec 6) (s : State) : Res :=
  s.run t (.crwCtxid t rs1) (crwPart t rs1 0o0001 (wordOf (.crwCtxid t rs1)))

/-- TLBINV_PAGE (R115): the value in rs1 selects the kind. -/
def execTlbinvPage (t : Fin 576) (rs1 : BitVec 6) (s : State) : Res :=
  s.run t (.tlbinvPage t rs1) (crwPart t rs1 0o0102 (wordOf (.tlbinvPage t rs1)))

/-- TLBINV_CONTEXT (R115): the value in rs1 selects the kind. -/
def execTlbinvContext (t : Fin 576) (rs1 : BitVec 6) (s : State) : Res :=
  s.run t (.tlbinvContext t rs1) (crwPart t rs1 0o0102 (wordOf (.tlbinvContext t rs1)))

/-- TLBINV_TABLE (R115): the value in rs1 selects the kind. -/
def execTlbinvTable (t : Fin 576) (rs1 : BitVec 6) (s : State) : Res :=
  s.run t (.tlbinvTable t rs1) (crwPart t rs1 0o0102 (wordOf (.tlbinvTable t rs1)))

/-- TLBINV_PAGE_ALL (R115): the value in rs1 selects the kind. -/
def execTlbinvPageAll (t : Fin 576) (rs1 : BitVec 6) (s : State) : Res :=
  s.run t (.tlbinvPageAll t rs1) (crwPart t rs1 0o0102 (wordOf (.tlbinvPageAll t rs1)))

/-- CTXRESEED (R123, R124): the write waits for its reseed. -/
def execCtxreseed (t : Fin 576) (rs1 : BitVec 6) (s : State) : Res :=
  s.run t (.ctxreseed t rs1) (crwPart t rs1 0o0110 (wordOf (.ctxreseed t rs1)))

/-- FSTEP_WRITE (R130, R355). -/
def execFstepWrite (t : Fin 576) (rs1 : BitVec 6) (s : State) : Res :=
  s.run t (.fstepWrite t rs1) (crwPart t rs1 0o0120 (wordOf (.fstepWrite t rs1)))

/-! ### What ends a CRW that waits (R116, R123, R124) -/

/-- A thread's CRW completes. -/
def State.endCrw (s : State) (t : Nat) : State :=
  (s.modThread t fun x => { x with mode := .running }).complete t .ordinary false []

/-- TLBINV_BROADCAST_APPLIED (R116): every core has applied thread t's broadcast. -/
def execTlbinvBroadcastApplied (t : Fin 576) (s : State) : Res :=
  match s.keys.bcasts.find? fun p => p.1 == t with
  | none => .next s
  | some (_, vault, v) =>
    let rest (p : Fin 576 × Bool × Reg) : Bool := p.1 != t
    let s := { s with keys := { s.keys with bcasts := s.keys.bcasts.filter rest } }
    let s := s.tlbInvAll v vault
    .next (if (s.thread t.val).mode == .bcast then s.endCrw t.val else s)

/-- RESEED_START (R124): one of the writes that wait longest is served; `more` others arrived in the Keystone cycle of the
first, and R17 chooses among them by thread number (DESIGN CHOICE, log entry 32: the command says which came together). -/
def execReseedStart (more : Nat) (s : State) : Res :=
  let k := s.keys
  let first := k.waiting.take (more + 1)
  match k.serving, (arbitrate 576 k.ptr fun t => first.any fun p => p.1.val == t).bind fun t => first.find? fun p => p.1.val == t with
  | none, some p => .next { s with keys := { k with
      waiting := k.waiting.erase p, serving := some p, ptr := (p.1.val + 1) % 576 } }
  | _, _ => .next s

/-- RESEED_DONE (R123): key is what the random source gave, used if it passed its health test. -/
def execReseedDone (healthy : Bool) (key : BitVec 64) (s : State) : Res :=
  match s.keys.serving with
  | none => .next s
  | some (t, c) =>
    let q := t.val / 2
    let s := { s with keys := { s.keys with serving := none } }
    let s :=
      if healthy then
        let cores := smap ({} : Core) s.cores fun _ x => { x with keys := x.keys.erase c.toNat }
        { s with cores, keys := { s.keys with ctxKeys := sset 0 s.keys.ctxKeys c.toNat key } }
      else s.recKey 0 0o006003 q [rp c.toNat] (s.thread t.val).vault c (BitVec.ofNat 10 t.val)
    let s := s.modCore q fun x => { x with reseedStatus := if healthy then 0 else 1 }
    .next (if (s.thread t.val).mode == .reseed then s.endCrw t.val else s)

end Sys2Proof.Machine
end

