-- ==== Sys2Proof/Machine/Flags.lean ====
section
/-! DEFINITION. IEEE 754-2019 binary64 and binary32 with the flags of FPFLAGS (R46, R61 to R64): exact
results as an integer times a power of two, rounded once. -/

namespace Sys2Proof.Machine

/-- FPFLAGS: NV, DZ, OF, UF, NX from bit 4 to bit 0 (R46). -/
abbrev FFlags := BitVec 5

def fNV : FFlags := 16
def fDZ : FFlags := 8
def fOF : FFlags := 4
def fUF : FFlags := 2
def fNX : FFlags := 1

/-- A binary format: exponent and fraction widths. -/
structure FFmt where
  ew : Nat
  fw : Nat
  deriving DecidableEq, Repr

def b64 : FFmt := ⟨11, 52⟩
def b32 : FFmt := ⟨8, 23⟩

def FFmt.bias (f : FFmt) : Nat := 2 ^ (f.ew - 1) - 1
/-- Exponent of the last place of the least normal and of every subnormal number. -/
def FFmt.qmin (f : FFmt) : Int := 1 - (f.bias : Int) - (f.fw : Int)
def FFmt.signBit (f : FFmt) : Nat := 2 ^ (f.ew + f.fw)
def FFmt.infBits (f : FFmt) : Nat := (2 ^ f.ew - 1) * 2 ^ f.fw
/-- The canonical quiet NaN (R63). -/
def FFmt.nan (f : FFmt) : Nat := f.infBits + 2 ^ (f.fw - 1)
def FFmt.withSign (f : FFmt) (neg : Bool) (x : Nat) : Nat := if neg then f.signBit + x else x

/-- What a bit pattern stands for; a finite number is m × 2^e. -/
inductive FVal where
  | nan (signaling : Bool)
  | inf (neg : Bool)
  | fin (neg : Bool) (m : Nat) (e : Int)
  deriving DecidableEq, Repr

def FFmt.unpack (f : FFmt) (x : Nat) : FVal :=
  let neg := decide (x / f.signBit % 2 = 1)
  let ex := x / 2 ^ f.fw % 2 ^ f.ew
  let fr := x % 2 ^ f.fw
  if ex = 2 ^ f.ew - 1 then
    if fr = 0 then .inf neg else .nan (decide (fr < 2 ^ (f.fw - 1)))
  else if ex = 0 then .fin neg fr f.qmin
  else .fin neg (2 ^ f.fw + fr) (f.qmin + (ex : Int) - 1)

def FVal.isNan : FVal → Bool
  | .nan _ => true
  | .inf _ | .fin .. => false

def FVal.isSnan : FVal → Bool
  | .nan sg => sg
  | .inf _ | .fin .. => false

/-- Number of bits of m. -/
def bitLen (m : Nat) : Nat := if m = 0 then 0 else m.log2 + 1

/-- Whether a magnitude is rounded up: odd is its last kept bit; rem, half and sticky describe what is cut. -/
def roundsUp (rm : Rm) (neg odd : Bool) (rem half : Nat) (sticky : Bool) : Bool :=
  let inexact := rem != 0 || sticky
  match rm with
  | .even => decide (half < rem) || (rem == half && half != 0 && (sticky || odd))
  | .zero => false
  | .down => inexact && neg
  | .up => inexact && !neg
  | .away => decide (half ≤ rem) && half != 0
  | .dyn => false

/-- m × 2^e (and a fraction of its last place when sticky) cut to a multiple of 2^q: the magnitude and
whether it is inexact. -/
def cutAt (rm : Rm) (neg : Bool) (m : Nat) (e : Int) (sticky : Bool) (q : Int) : Nat × Bool :=
  if q ≤ e then (m * 2 ^ (e - q).toNat, sticky)
  else
    let d := (q - e).toNat
    let k := m / 2 ^ d
    let rem := m % 2 ^ d
    let up := roundsUp rm neg (k % 2 == 1) rem (2 ^ (d - 1)) sticky
    (if up then k + 1 else k, rem != 0 || sticky)

/-- Rounds a nonzero m × 2^e to the format (R61, R63). Tininess is the implementation's choice (log 12). -/
def FFmt.roundPack (f : FFmt) (rm : Rm) (neg : Bool) (m : Nat) (e : Int) (sticky : Bool) : Nat × FFlags :=
  let p : Int := (f.fw : Int) + 1
  let len : Int := bitLen m
  let qn := e + len - p
  let q := max qn f.qmin
  let (k, inexact) := cutAt rm neg m e sticky q
  let (k, q) := if k = 2 ^ (f.fw + 1) then (2 ^ f.fw, q + 1) else (k, q)
  let tinyBefore := decide (qn < f.qmin)
  let (k2, _) := cutAt rm neg m e sticky qn
  let tinyA := decide ((if k2 = 2 ^ (f.fw + 1) then qn + 1 else qn) < f.qmin)
  if 2 ^ f.fw ≤ k ∧ (f.bias : Int) < q + (f.fw : Int) then
    let toInf := match rm with
      | .even | .away => true
      | .zero | .dyn => false
      | .down => neg
      | .up => !neg
    (f.withSign neg (if toInf then f.infBits else f.infBits - 1), fOF ||| fNX)
  else
    let bits := if k < 2 ^ f.fw then k else (q - f.qmin).toNat * 2 ^ f.fw + k
    let uf := inexact && tinyBefore && (tinyA || !Config.tinyAfter)
    (f.withSign neg bits, (if inexact then fNX else 0) ||| (if uf then fUF else 0))

/-- Rounds m × 2^e, with the sign of an exact zero given. -/
def FFmt.roundZ (f : FFmt) (rm : Rm) (neg zneg : Bool) (m : Nat) (e : Int) : Nat × FFlags :=
  if m = 0 then (f.withSign zneg 0, 0) else f.roundPack rm neg m e false

/-- The canonical NaN with NV if any operand signals or the operation is invalid (R63). -/
def FFmt.nanRes (f : FFmt) (nv : Bool) : Nat × FFlags := (f.nan, if nv then fNV else 0)

/-- The sum of two finite numbers, each a signed magnitude times a power of two. -/
def FFmt.sumFin (f : FFmt) (rm : Rm) (n1 : Bool) (m1 : Nat) (e1 : Int) (n2 : Bool) (m2 : Nat) (e2 : Int) :
    Nat × FFlags :=
  let e := min e1 e2
  let a : Int := m1 * 2 ^ (e1 - e).toNat
  let b : Int := m2 * 2 ^ (e2 - e).toNat
  let t := (if n1 then -a else a) + (if n2 then -b else b)
  let zneg := if n1 = n2 then n1 else rm == .down
  f.roundZ rm (decide (t < 0)) zneg t.natAbs e

def FFmt.add (f : FFmt) (rm : Rm) (x y : FVal) : Nat × FFlags :=
  match x, y with
  | .nan a, y => f.nanRes (a || y.isSnan)
  | _, .nan b => f.nanRes b
  | .inf a, .inf b => if a = b then (f.withSign a f.infBits, 0) else f.nanRes true
  | .inf a, .fin .. => (f.withSign a f.infBits, 0)
  | .fin .., .inf b => (f.withSign b f.infBits, 0)
  | .fin n1 m1 e1, .fin n2 m2 e2 => f.sumFin rm n1 m1 e1 n2 m2 e2

def FVal.negate : FVal → FVal
  | .nan a => .nan a
  | .inf n => .inf (!n)
  | .fin n m e => .fin (!n) m e

def FFmt.mul (f : FFmt) (rm : Rm) (x y : FVal) : Nat × FFlags :=
  match x, y with
  | .nan a, y => f.nanRes (a || y.isSnan)
  | _, .nan b => f.nanRes b
  | .inf a, .inf b => (f.withSign (a != b) f.infBits, 0)
  | .inf a, .fin b m _ => if m = 0 then f.nanRes true else (f.withSign (a != b) f.infBits, 0)
  | .fin a m _, .inf b => if m = 0 then f.nanRes true else (f.withSign (a != b) f.infBits, 0)
  | .fin a m1 e1, .fin b m2 e2 => f.roundZ rm (a != b) (a != b) (m1 * m2) (e1 + e2)

def FFmt.div (f : FFmt) (rm : Rm) (x y : FVal) : Nat × FFlags :=
  match x, y with
  | .nan a, y => f.nanRes (a || y.isSnan)
  | _, .nan b => f.nanRes b
  | .inf _, .inf _ => f.nanRes true
  | .inf a, .fin b _ _ => (f.withSign (a != b) f.infBits, 0)
  | .fin a _ _, .inf b => (f.withSign (a != b) 0, 0)
  | .fin a m1 e1, .fin b m2 e2 =>
    if m2 = 0 then
      if m1 = 0 then f.nanRes true else (f.withSign (a != b) f.infBits, fDZ)
    else if m1 = 0 then (f.withSign (a != b) 0, 0)
    else
      let sh := f.fw + 4 + bitLen m2
      let n := m1 * 2 ^ sh
      f.roundPack rm (a != b) (n / m2) (e1 - e2 - (sh : Int)) (n % m2 != 0)

def FFmt.sqrt (f : FFmt) (rm : Rm) (x : FVal) : Nat × FFlags :=
  match x with
  | .nan a => f.nanRes a
  | .inf n => if n then f.nanRes true else (f.infBits, 0)
  | .fin n m e =>
    if m = 0 then (f.withSign n 0, 0)
    else if n then f.nanRes true
    else
      -- m × 2^e = (m × 2^sh) × 2^(e - sh), with an even exponent and enough bits for the root.
      let sh := 2 * (f.fw + 4) + (e % 2).toNat
      let v := m * 2 ^ sh
      let r := Nat.sqrt v
      f.roundPack rm false r ((e - (sh : Int)) / 2) (r * r != v)

/-- x < y over numbers that are not NaN. -/
def FVal.lt (x y : FVal) : Bool :=
  match x, y with
  | .nan _, _ | _, .nan _ => false
  | .inf a, .inf b => a && !b
  | .inf a, .fin .. => a
  | .fin .., .inf b => !b
  | .fin n1 m1 e1, .fin n2 m2 e2 =>
    let e := min e1 e2
    let a : Int := m1 * 2 ^ (e1 - e).toNat
    let b : Int := m2 * 2 ^ (e2 - e).toNat
    decide ((if n1 then -a else a) < (if n2 then -b else b))

def FVal.isZero : FVal → Bool
  | .fin _ m _ => m == 0
  | .nan _ | .inf _ => false

def FVal.neg : FVal → Bool
  | .fin n _ _ | .inf n => n
  | .nan _ => false

/-- minimumNumber and maximumNumber (R71): a NaN loses to a number, −0 is below +0. -/
def FFmt.minmax (f : FFmt) (isMax : Bool) (a b : Nat) : Nat × FFlags :=
  let x := f.unpack a
  let y := f.unpack b
  let nv := if x.isSnan || y.isSnan then fNV else 0
  if x.isNan && y.isNan then (f.nan, nv)
  else if x.isNan then (b, nv)
  else if y.isNan then (a, nv)
  else
    let aBelow := x.lt y || (x.isZero && y.isZero && x.neg)
    (if aBelow = isMax then b else a, nv)

/-- FOP (R71) on bit patterns. FNEG and FABS act on the sign bit alone, as IEEE 754-2019 has negate and abs do, and so
keep a NaN operand's payload: R63 names neither (DEDUCED, log entry 12). -/
def FFmt.fop (f : FFmt) (op : FOp) (rm : Rm) (a b : Nat) : Nat × FFlags :=
  match op with
  | .add => f.add rm (f.unpack a) (f.unpack b)
  | .sub => f.add rm (f.unpack a) (f.unpack b).negate
  | .mul => f.mul rm (f.unpack a) (f.unpack b)
  | .div => f.div rm (f.unpack a) (f.unpack b)
  | .sqrt => f.sqrt rm (f.unpack a)
  | .min => f.minmax false a b
  | .max => f.minmax true a b
  | .neg => ((a + f.signBit) % (2 * f.signBit), 0)
  | .abs => (a % f.signBit, 0)

/-- (±(a × b)) ± c, rounded once (R71). -/
def FFmt.fma (f : FFmt) (rm : Rm) (negP negC : Bool) (a b c : FVal) : Nat × FFlags :=
  let c := if negC then c.negate else c
  let snan := a.isSnan || b.isSnan || c.isSnan
  let zeroInf : Bool := match a, b with
    | .inf _, .fin _ m _ => m == 0
    | .fin _ m _, .inf _ => m == 0
    | _, _ => false
  if a.isNan || b.isNan then f.nanRes snan
  else if c.isNan then
    if snan then f.nanRes true
    else if zeroInf then f.nanRes Config.fmaQuietInvalid
    else f.nanRes false
  else if zeroInf then f.nanRes true
  else
    let pn := (a.neg != b.neg) != negP
    match a, b with
    | .fin _ m1 e1, .fin _ m2 e2 =>
      match c with
      | .fin n3 m3 e3 => f.sumFin rm pn (m1 * m2) (e1 + e2) n3 m3 e3
      | .inf n3 => (f.withSign n3 f.infBits, 0)
      | .nan _ => f.nanRes false
    | _, _ =>
      match c with
      | .inf n3 => if n3 = pn then (f.withSign pn f.infBits, 0) else f.nanRes true
      | .fin .. => (f.withSign pn f.infBits, 0)
      | .nan _ => f.nanRes false

def fmaNegP : FmaOp → Bool
  | .nmadd | .nmsub => true
  | .madd | .msub => false

def fmaNegC : FmaOp → Bool
  | .msub | .nmadd => true
  | .madd | .nmsub => false

/-- A conversion to an integer range: nearest representable, 0 for NaN, with NV (R63). -/
def toIntF (rm : Rm) (lo hi : Int) (x : FVal) : Int × FFlags :=
  match x with
  | .nan _ => (0, fNV)
  | .inf n => (if n then lo else hi, fNV)
  | .fin n m e =>
    let (k, inexact) := cutAt rm n m e false 0
    let v : Int := if n then -k else k
    if v < lo then (lo, fNV)
    else if hi < v then (hi, fNV)
    else (v, if inexact then fNX else 0)

/-- An integer to a format. -/
def FFmt.ofInt (f : FFmt) (rm : Rm) (v : Int) : Nat × FFlags :=
  f.roundZ rm (decide (v < 0)) false v.natAbs 0

/-- One format to another (R61, R63). -/
def FFmt.conv (f : FFmt) (rm : Rm) (x : FVal) : Nat × FFlags :=
  match x with
  | .nan a => f.nanRes a
  | .inf n => (f.withSign n f.infBits, 0)
  | .fin n m e => f.roundZ rm n n m e

/-- FCVT (R62, R71): the value goes to the form of the result with the mark of R62. -/
def fcvtOp (op : CvtOp) (rm : Rm) (x : Reg) : Reg × FFlags :=
  let d : Nat := (x.extractLsb' 0 64 : BitVec 64).toNat
  let w : Nat := (x.extractLsb' 0 32 : BitVec 32).toNat
  let md := markOf false x
  let mw := markOf true x
  let dbl (r : Nat × FFlags) (m : BitVec 8) : Reg × FFlags := (withMark false (BitVec.ofNat 64 r.1) m, r.2)
  let wrd (r : Nat × FFlags) (m : BitVec 8) : Reg × FFlags := (withMark true (BitVec.ofNat 64 r.1) m, r.2)
  match op with
  | .d2s => wrd (b32.conv rm (b64.unpack d)) (md &&& 0x0F)
  | .s2d => dbl (b64.conv rm (b32.unpack w)) mw
  | .d2l =>
    let r := toIntF rm (-(2 ^ 63)) (2 ^ 63 - 1) (b64.unpack d)
    (withMark false (BitVec.ofInt 64 r.1) md, r.2)
  | .d2ul =>
    let r := toIntF rm 0 (2 ^ 64 - 1) (b64.unpack d)
    (withMark false (BitVec.ofInt 64 r.1) md, r.2)
  | .l2d => dbl (b64.ofInt rm (x.extractLsb' 0 64 : BitVec 64).toInt) md
  | .ul2d => dbl (b64.ofInt rm d) md
  | .s2w =>
    let r := toIntF rm (-(2 ^ 31)) (2 ^ 31 - 1) (b32.unpack w)
    (withMark true (BitVec.ofInt 64 r.1) mw, r.2)
  | .w2s => wrd (b32.ofInt rm (x.extractLsb' 0 32 : BitVec 32).toInt) mw

/-- FCMP (R71): the relation and NV. -/
def fcmpOp (f : FFmt) (sig : Bool) (rel : FRel) (a b : Nat) : Bool × FFlags :=
  let x := f.unpack a
  let y := f.unpack b
  let un := x.isNan || y.isNan
  let nv := if x.isSnan || y.isSnan || (sig && un) then fNV else 0
  let r := match rel with
    | .eq => !un && !x.lt y && !y.lt x
    | .lt => x.lt y
    | .le => !un && !y.lt x
    | .unord => un
  (r, nv)

/-- Rounding under R64: 7 selects FPCTL.RM. -/
def rmEff (rm : Rm) (fpctl : BitVec 3) : Rm :=
  match rm with
  | .dyn => (rmOf fpctl).getD .even
  | .even => .even | .zero => .zero | .down => .down | .up => .up | .away => .away

/-- The format and value field that a form selects. -/
def fmtOf (w : Bool) : FFmt := if w then b32 else b64
def fval (w : Bool) (x : Reg) : Nat :=
  if w then (x.extractLsb' 0 32 : BitVec 32).toNat else (x.extractLsb' 0 64 : BitVec 64).toNat

/-- FOP64 and FOP32: the result keeps the mark of rs1 (R62). -/
def fopReg (w : Bool) (op : FOp) (rm : Rm) (a b : Reg) : Reg × FFlags :=
  let r := (fmtOf w).fop op rm (fval w a) (fval w b)
  (withMark w (BitVec.ofNat 64 r.1) (markOf w a), r.2)

/-- FMA64 and FMA32: c is the former rd (R71). -/
def fmaReg (w : Bool) (op : FmaOp) (rm : Rm) (a b c : Reg) : Reg × FFlags :=
  let f := fmtOf w
  let r := f.fma rm (fmaNegP op) (fmaNegC op) (f.unpack (fval w a)) (f.unpack (fval w b)) (f.unpack (fval w c))
  (withMark w (BitVec.ofNat 64 r.1) (markOf w a), r.2)

/-- VFOP: 8 or 16 independent lanes, flags ORed (R65). -/
def vfopLine (w : Bool) (op : FOp) (rm : Rm) (a b : LineBits) : LineBits × FFlags :=
  let e : VElt := if w then .word else .double
  forN e.lanes (0, 0) fun j acc =>
    let r := fopReg w op rm (laneGet e a j) (laneGet e b j)
    (laneSet e acc.1 j r.1, acc.2 ||| r.2)

end Sys2Proof.Machine
end

