-- ==== Sys2Proof/Machine/Float.lean ====
section
/-! DEFINITION. Floating point and vector arithmetic (R61 to R66, R71). -/

namespace Sys2Proof.Machine

/-- Flags are set and never cleared by hardware (R46, R63). -/
def State.raise (s : State) (t : Fin 576) (f : FFlags) : State :=
  s.modThread t.val fun x => { x with flags := x.flags ||| f }

/-- The rounding mode in force for a rounding field (R64). -/
def State.rmFor (s : State) (t : Fin 576) (rm : Rm) : Rm := rmEff rm (s.thread t.val).rm

/-- rd := a result with its flags. -/
def writeF (t : Fin 576) (rd : BitVec 6) (v : State → Reg × FFlags) (s : State) : Done :=
  let r := v s
  .ord ((s.setG t rd r.1).raise t r.2)

/-- FOP64 (R61 to R64). -/
def execFop64 (t : Fin 576) (rd rs1 rs2 : BitVec 6) (op : FOp) (rm : Rm) (s : State) : Res :=
  s.run t (.fop64 t rd rs1 rs2 op rm) (writeF t rd fun s => fopReg false op (s.rmFor t rm) (s.g t rs1) (s.g t rs2))

/-- FOP32 (R61 to R64). -/
def execFop32 (t : Fin 576) (rd rs1 rs2 : BitVec 6) (op : FOp) (rm : Rm) (s : State) : Res :=
  s.run t (.fop32 t rd rs1 rs2 op rm) (writeF t rd fun s => fopReg true op (s.rmFor t rm) (s.g t rs1) (s.g t rs2))

/-- FMA64 (R61, R71). -/
def execFma64 (t : Fin 576) (rd rs1 rs2 : BitVec 6) (op : FmaOp) (rm : Rm) (s : State) : Res :=
  s.run t (.fma64 t rd rs1 rs2 op rm)
    (writeF t rd fun s => fmaReg false op (s.rmFor t rm) (s.g t rs1) (s.g t rs2) (s.g t rd))

/-- FMA32 (R61, R71). -/
def execFma32 (t : Fin 576) (rd rs1 rs2 : BitVec 6) (op : FmaOp) (rm : Rm) (s : State) : Res :=
  s.run t (.fma32 t rd rs1 rs2 op rm)
    (writeF t rd fun s => fmaReg true op (s.rmFor t rm) (s.g t rs1) (s.g t rs2) (s.g t rd))

/-- FCVT (R62, R63, R71). -/
def execFcvt (t : Fin 576) (rd rs1 : BitVec 6) (op : CvtOp) (rm : Rm) (s : State) : Res :=
  s.run t (.fcvt t rd rs1 op rm) (writeF t rd fun s => fcvtOp op (s.rmFor t rm) (s.g t rs1))

/-- FCMP (R62, R71). -/
def execFcmp (t : Fin 576) (rd rs1 rs2 : BitVec 6) (w sig : Bool) (rel : FRel) (s : State) : Res :=
  s.run t (.fcmp t rd rs1 rs2 w sig rel) (writeF t rd fun s =>
    let r := fcmpOp (fmtOf w) sig rel (fval w (s.g t rs1)) (fval w (s.g t rs2))
    (if r.1 then 1 else 0, r.2))

/-- A vector register of thread t. -/
def State.v (s : State) (t : Fin 576) (r : BitVec 5) : LineBits := (s.thread t.val).vr r

def State.setV (s : State) (t : Fin 576) (r : BitVec 5) (x : LineBits) : State := s.modThread t.val fun y => y.setVr r x

/-- VOP (R65). -/
def execVop (t : Fin 576) (vd a b : BitVec 5) (e : VElt) (op : VOp) (s : State) : Res :=
  s.run t (.vop t vd a b e op) fun s => .ord (s.setV t vd (vopLine e op (s.v t a) (s.v t b)))

/-- VFOP (R65). -/
def execVfop (t : Fin 576) (vd a b : BitVec 5) (w : Bool) (op : FOp) (rm : Rm) (s : State) : Res :=
  s.run t (.vfop t vd a b w op rm) fun s =>
    let r := vfopLine w op (s.rmFor t rm) (s.v t a) (s.v t b)
    .ord ((s.setV t vd r.1).raise t r.2)

/-- VMOV (R71). -/
def execVmov (t : Fin 576) (k : VmovKind) (v : BitVec 5) (g lane : BitVec 6) (e : VElt) (s : State) : Res :=
  s.run t (.vmov t k v g lane e) fun s =>
    match k with
    | .broadcast => .ord (s.setV t v (vmovAll e (s.g t g)))
    | .insert => .ord (s.setV t v (laneSet e (s.v t v) lane.toNat (s.g t g)))
    | .extract => .ord (s.setG t g (laneGet e (s.v t v) lane.toNat))

end Sys2Proof.Machine
end

