-- ==== Sys2Proof/Machine/Flow.lean ====
section
/-! DEFINITION. Skips and transfers (R74 to R81, R120). -/

namespace Sys2Proof.Machine

/-- The outcome of a skip. -/
def skipDone (t : Fin 576) (c : Cond) (ra : BitVec 6) (b : State → Reg) (s : State) : Done :=
  .done s (if condHolds c (s.g t ra) (b s) then .skip else .ordinary) true []

/-- SKIPR (R74, R75). -/
def execSkipr (t : Fin 576) (ra rb : BitVec 6) (c : Cond) (s : State) : Res :=
  s.run t (.skipr t ra rb c) (skipDone t c ra fun s => s.g t rb)

/-- SKIPI (R74, R75). -/
def execSkipi (t : Fin 576) (ra : BitVec 6) (c : Cond) (imm : BitVec 18) (s : State) : Res :=
  s.run t (.skipi t ra c imm) (skipDone t c ra fun _ => skipImm c imm)

/-- The target of BR, BL and DBNZ: the transfer's address and its offset in words (R77). -/
def branchTo {w : Nat} (x : Thread) (off : BitVec w) : Addr := x.pc + off.signExtend 64 * 4

/-- The link value, a + 8 (R77, R78). -/
def linkOf (x : Thread) : Reg := zext72 (x.pc + 8)

/-- BR (R77, R81). -/
def execBr (t : Fin 576) (a : Bool) (off : BitVec 27) (s : State) : Res :=
  s.run t (.br t a off) fun s => .done s (.taken (branchTo (s.thread t.val) off)) false []

/-- BL (R77, R78, R120). -/
def execBl (t : Fin 576) (a : Bool) (off : BitVec 27) (s : State) : Res :=
  s.run t (.bl t a off) fun s =>
    let x := s.thread t.val
    .done (s.modThread t.val fun y => { y.setGr 63 (linkOf x) with ret := pushRet y.ret (x.pc + 8) })
      (.taken (branchTo x off)) false []

/-- JR (R77, R78, R80, R120): rs1 is read before rd is written. -/
def execJr (t : Fin 576) (a : Bool) (rd rs1 : BitVec 6) (s : State) : Res :=
  s.run t (.jr t a rd rs1) fun s =>
    let x := s.thread t.val
    let target := low64 (x.gr rs1)
    if (target.extractLsb' 0 2 : BitVec 2) ≠ 0 then .trap s 4 0 (zext72 target)
    else
      let (ret, evs) := jrStack x rd rs1 target
      let s := s.modThread t.val fun y => { y.setGr rd (linkOf x) with ret }
      .done (if evs.contains (5, 1) then s.markWrong t.val else s) (.taken target) false evs

/-- DBNZ (R77, R79, R81). -/
def execDbnz (t : Fin 576) (a : Bool) (rc : BitVec 6) (off : BitVec 21) (s : State) : Res :=
  s.run t (.dbnz t a rc off) fun s =>
    let x := s.thread t.val
    let v := x.gr rc - 1
    .done (s.setG t rc v) (if v ≠ 0 then .taken (branchTo x off) else .notTaken a) true []

end Sys2Proof.Machine
end

