-- ==== Sys2Proof/Machine/Integer.lean ====
section
/-! DEFINITION. NOP, FENCE, the raw integer instructions and INSH (R48, R59, R69, R70, R71), and
ILLEGAL_INSTRUCTION. -/

namespace Sys2Proof.Machine

/-- NOP (R70). -/
def execNop (t : Fin 576) (s : State) : Res := s.run t (.nop t) Done.ord

/-- ILLEGAL_INSTRUCTION (R69, R92): the word w stands at PC. A word that is legal where it stands is not this
row's event, and nothing happens (DESIGN CHOICE, log entry 1). -/
def execIllegalInstruction (t : Fin 576) (w : W36) (s : State) : Res :=
  if (illegalDetail w (s.thread t.val).ds).isNone then .next s
  else s.run t (.illegalInstruction t w) Done.ord

/-- FENCE (R59): every access of the thread is complete before its next instruction, so its order holds already (DESIGN
CHOICE, log entry 6). -/
def execFence (t : Fin 576) (k : FenceKind) (s : State) : Res := s.run t (.fence t k) Done.ord

/-- ALU72 (R48, R71). -/
def execAlu72 (t : Fin 576) (rd rs1 rs2 : BitVec 6) (op : AluOp) (s : State) : Res :=
  s.run t (.alu72 t rd rs1 rs2 op) (writeG t rd fun s => alu72 op (s.g t rs1) (s.g t rs2))

/-- ALU36 (R48, R71). -/
def execAlu36 (t : Fin 576) (rd rs1 rs2 : BitVec 6) (op : AluOp) (s : State) : Res :=
  s.run t (.alu36 t rd rs1 rs2 op) (writeG t rd fun s => alu36 op (s.g t rs1) (s.g t rs2))

/-- ADDI (R68, R70). -/
def execAddi (t : Fin 576) (rd rs1 : BitVec 6) (imm : BitVec 16) (s : State) : Res :=
  s.run t (.addi t rd rs1 imm) (writeG t rd fun s => alu72 .add (s.g t rs1) (sext72 imm))

/-- ADDI36 (R48, R68). -/
def execAddi36 (t : Fin 576) (rd rs1 : BitVec 6) (imm : BitVec 16) (s : State) : Res :=
  s.run t (.addi36 t rd rs1 imm) (writeG t rd fun s => alu36 .add (s.g t rs1) (sext72 imm))

/-- ANDI (R68). -/
def execAndi (t : Fin 576) (rd rs1 : BitVec 6) (imm : BitVec 16) (s : State) : Res :=
  s.run t (.andi t rd rs1 imm) (writeG t rd fun s => alu72 .and (s.g t rs1) (zext72 imm))

/-- ORI (R68). -/
def execOri (t : Fin 576) (rd rs1 : BitVec 6) (imm : BitVec 16) (s : State) : Res :=
  s.run t (.ori t rd rs1 imm) (writeG t rd fun s => alu72 .or (s.g t rs1) (zext72 imm))

/-- XORI (R68). -/
def execXori (t : Fin 576) (rd rs1 : BitVec 6) (imm : BitVec 16) (s : State) : Res :=
  s.run t (.xori t rd rs1 imm) (writeG t rd fun s => alu72 .xor (s.g t rs1) (zext72 imm))

/-- SHI (R71). -/
def execShi (t : Fin 576) (rd rs1 : BitVec 6) (k : ShKind) (w36 : Bool) (amt : BitVec 7) (s : State) : Res :=
  s.run t (.shi t rd rs1 k w36 amt) (writeG t rd fun s => shiOp k w36 (s.g t rs1) amt.toNat)

/-- LI (R68). -/
def execLi (t : Fin 576) (rd : BitVec 6) (imm : BitVec 22) (s : State) : Res :=
  s.run t (.li t rd imm) (writeG t rd fun _ => sext72 imm)

/-- INSH (R70). -/
def execInsh (t : Fin 576) (rd : BitVec 6) (pos : BitVec 2) (imm : BitVec 18) (s : State) : Res :=
  s.run t (.insh t rd pos imm) (writeG t rd fun s => inshOp (s.g t rd) pos imm)

end Sys2Proof.Machine
end

