-- ==== Sys2Proof/Machine/Marked.lean ====
section
/-! DEFINITION. Marked arithmetic and mark tests (R49, R50). -/

namespace Sys2Proof.Machine

/-- A mark check has failed: Mark-check with ACT = 1, else a skip (R49, R76). The instruction was predicted when
it can skip (R117). -/
def markFails (act : Bool) (detail : BitVec 8) (m : BitVec 8) (s : State) (evs : List (Nat × Nat)) : Done :=
  if act then .trap s 16 detail (zext72 m) else .done s .skip true ((16, 1) :: evs)

/-- An instruction that can skip or trap on a mark completes without doing so. -/
def markPasses (act : Bool) (s : State) (evs : List (Nat × Nat)) : Done := .done s .ordinary (!act) evs

/-- Marked arithmetic (R49): rs1's mark, then rs2's, then overflow, before anything is written. -/
def markedOp (t : Fin 576) (op : MarkOp) (rd rs1 rs2 : BitVec 6) (em : BitVec 8) (act w : Bool) (s : State) : Done :=
  let a := s.g t rs1
  let b := s.g t rs2
  if markOf w a ≠ em then markFails act 0 (markOf w a) s []
  else if markOf w b ≠ em then markFails act 1 (markOf w b) s []
  else match markedResult op w a b with
    | none => markFails act 2 0 s []
    | some r => markPasses act (s.setG t rd (withMark w r em)) []

/-- ADD.M (R49). -/
def execAddM (t : Fin 576) (rd rs1 rs2 : BitVec 6) (em : BitVec 8) (act w : Bool) (s : State) : Res :=
  s.run t (.addM t rd rs1 rs2 em act w) (markedOp t .add rd rs1 rs2 em act w)
/-- SUB.M (R49). -/
def execSubM (t : Fin 576) (rd rs1 rs2 : BitVec 6) (em : BitVec 8) (act w : Bool) (s : State) : Res :=
  s.run t (.subM t rd rs1 rs2 em act w) (markedOp t .sub rd rs1 rs2 em act w)
/-- MUL.M (R49). -/
def execMulM (t : Fin 576) (rd rs1 rs2 : BitVec 6) (em : BitVec 8) (act w : Bool) (s : State) : Res :=
  s.run t (.mulM t rd rs1 rs2 em act w) (markedOp t .mul rd rs1 rs2 em act w)
/-- AND.M (R49). -/
def execAndM (t : Fin 576) (rd rs1 rs2 : BitVec 6) (em : BitVec 8) (act w : Bool) (s : State) : Res :=
  s.run t (.andM t rd rs1 rs2 em act w) (markedOp t .and rd rs1 rs2 em act w)
/-- OR.M (R49). -/
def execOrM (t : Fin 576) (rd rs1 rs2 : BitVec 6) (em : BitVec 8) (act w : Bool) (s : State) : Res :=
  s.run t (.orM t rd rs1 rs2 em act w) (markedOp t .or rd rs1 rs2 em act w)
/-- XOR.M (R49). -/
def execXorM (t : Fin 576) (rd rs1 rs2 : BitVec 6) (em : BitVec 8) (act w : Bool) (s : State) : Res :=
  s.run t (.xorM t rd rs1 rs2 em act w) (markedOp t .xor rd rs1 rs2 em act w)

/-- MTEST (R50). -/
def execMtest (t : Fin 576) (rs1 : BitVec 6) (em : BitVec 8) (act w : Bool) (s : State) : Res :=
  s.run t (.mtest t rs1 em act w) fun s =>
    let m := markOf w (s.g t rs1)
    if m ≠ em then markFails act 0 m s [] else markPasses act s []

/-- MSET (R50). -/
def execMset (t : Fin 576) (rd rs1 : BitVec 6) (em : BitVec 8) (w : Bool) (s : State) : Res :=
  s.run t (.mset t rd rs1 em w) (writeG t rd fun s => msetOp w (s.g t rs1) em)

/-- MGET (R50). -/
def execMget (t : Fin 576) (rd rs1 : BitVec 6) (w : Bool) (s : State) : Res :=
  s.run t (.mget t rd rs1 w) (writeG t rd fun s => zext72 (markOf w (s.g t rs1)))

end Sys2Proof.Machine
end

