-- ==== Sys2Proof/Machine/Memory.lean ====
section
/-! DEFINITION. Loads, stores, AMO and PREF (R51 to R60, R65): the checks of R54 in their order, the access, and the
register that receives what was read. -/

namespace Sys2Proof.Machine

/-! ### The checks before the access (R52, R53, R54, R58) -/

/-- An access that may go on: where, uncached or not; or how the instruction ends without it. -/
inductive Prep where
  | go (s : State) (evs : List (Nat × Nat)) (pa : Nat) (uc : Bool)
  | stop (d : Done)

/-- Which physical addresses an access of this kind may reach: control space takes the words of LW, LWS, LWM, SW and SWM,
and an AMO takes local DRAM and CXL windows. -/
inductive Reach where
  | word | plain | amo
  deriving DecidableEq, Repr

def State.reaches (s : State) (r : Reach) (pa : Nat) : Bool :=
  match r, paClass pa with
  | .word, _ => true
  | .plain, .control => false
  | .plain, _ => true
  | .amo, .dram => true
  | .amo, _ => (s.cxlWin (BitVec.ofNat 46 (pa / 64))).isSome

/-- Alignment, translation and width, in this order. -/
def State.prep (s : State) (t : Fin 576) (ea : Addr) (sz : MUnit5) (k : TKind) (r : Reach) : Prep :=
  if ea.toNat % unit5Nonets sz ≠ 0 then .stop (.trap s 3 0 (zext72 ea))
  else match s.translate t.val k ea with
    | (s1, _, .wait) => .stop (.wait s1)
    | (s1, _, .trap c d v) => .stop (.trap s1 c d v)
    | (s1, evs, .ok pa uc) => if s1.reaches r pa then .go s1 evs pa uc else .stop (.trap s1 3 1 (zext72 ea))

/-- A Data-access trap (R14, R92). -/
def dataTrap (s : State) (ea : Addr) (r : Resp) : Done := .trap s 5 (r.num.setWidth 8) (zext72 ea)

/-! ### The access -/

/-- The access of thread t to a unit: a register of control space, or memory. -/
def State.touch (s : State) (t : Fin 576) (pa : Nat) (sz : MUnit5) (uc : Bool) (m : MemOp) : Got :=
  match paClass pa with
  | .control =>
    match m with
    | .write d =>
      match s.csWrite (.thread t) pa ((unitAt 4 d (pa % 64)).setWidth 36) with
      | (s1, some r) => ⟨s1, [], ansOf (r, 0)⟩
      | (s1, none) => ⟨s1, [], .wait⟩
    | .read | .amo .. =>
      match s.csRead (.thread t) pa with
      | (s1, some (r, v)) => ⟨s1, [], ansOf (r, setUnit 4 0 (pa % 64) (zext72 v))⟩
      | (s1, none) => ⟨s1, [], .wait⟩
  | .dram | .window | .cistern _ _ | .unmapped => s.access (s.acr t.val) pa sz uc .data m

/-- A load: `use` receives the line with the unit at nonet pa mod 64. -/
def State.loads (s : State) (t : Fin 576) (ea : Addr) (sz : MUnit5) (r : Reach)
    (fin : State → List (Nat × Nat) → LineBits → Done) : Done :=
  match s.prep t ea sz .load r with
  | .stop d => d
  | .go s1 evs pa uc =>
    let g := s1.touch t pa sz uc .read
    match g.ans with
    | .ok l => fin g.s (evs ++ g.evs) l
    | .resp r => dataTrap g.s ea r
    | .wait => .wait g.s

/-- What the store buffer of thread t holds (R103). -/
def State.setSb (s : State) (t : Fin 576) (sb : List SbStore) : State := s.modThread t.val fun x => { x with sb }

/-- A store whose access has not ended stands in the store buffer; loads and AMOs never do. -/
def MemOp.buffered (m : MemOp) (pa nonets : Nat) : List SbStore :=
  match m with
  | .write d => [{ pa, nonets, data := d }]
  | .read | .amo .. => []

/-- A store or AMO: `chk` is the mark check of a marked store, made before the access (R54). -/
def State.stores (s : State) (t : Fin 576) (ea : Addr) (sz : MUnit5) (r : Reach) (m : MemOp)
    (chk : State → List (Nat × Nat) → Option Done) (fin : State → List (Nat × Nat) → LineBits → Done) : Done :=
  match s.prep t ea sz .store r with
  | .stop d => d
  | .go s1 evs pa uc =>
    match chk s1 evs with
    | some d => d
    | none =>
      let g := s1.touch t pa sz uc m
      match g.ans with
      | .ok l => fin (g.s.setSb t []) (evs ++ g.evs) l
      | .resp r => dataTrap (g.s.setSb t []) ea r
      | .wait => .wait (g.s.setSb t (m.buffered pa (unit5Nonets sz)))

def noCheck (_ : State) (_ : List (Nat × Nat)) : Option Done := none

/-- An access that ends ordinarily. -/
def plainEnd (s : State) (evs : List (Nat × Nat)) (_ : LineBits) : Done := .done s .ordinary false evs

/-! ### Loads (R56, R57) -/

def unit5Of : MUnit → MUnit5
  | .nonet => .nonet | .half => .half | .word => .word | .double => .double

def sizeOf5 : LdSize → MUnit5
  | .n | .ns => .nonet | .h | .hs => .half | .w | .ws => .word | .d => .double

/-- rd := the unit at an address, filled as the load kind says. -/
def loadG (t : Fin 576) (rd : BitVec 6) (z : LdSize) (r : Reach) (ea : State → Addr) (s : State) : Done :=
  s.loads t (ea s) (sizeOf5 z) r fun s1 evs l =>
    .done (s1.setG t rd (ldFill z (unitAt (ldUnit z) l ((ea s).toNat % 64)))) .ordinary false evs

/-- The address of a format I access. -/
def addrI (t : Fin 576) (rs1 : BitVec 6) (imm : BitVec 16) (s : State) : Addr := eaI (s.g t rs1) imm

/-- LN (R56). -/
def execLn (t : Fin 576) (rd rs1 : BitVec 6) (imm : BitVec 16) (s : State) : Res :=
  s.run t (.ln t rd rs1 imm) (loadG t rd .n .plain (addrI t rs1 imm))
/-- LNS (R56). -/
def execLns (t : Fin 576) (rd rs1 : BitVec 6) (imm : BitVec 16) (s : State) : Res :=
  s.run t (.lns t rd rs1 imm) (loadG t rd .ns .plain (addrI t rs1 imm))
/-- LH (R56). -/
def execLh (t : Fin 576) (rd rs1 : BitVec 6) (imm : BitVec 16) (s : State) : Res :=
  s.run t (.lh t rd rs1 imm) (loadG t rd .h .plain (addrI t rs1 imm))
/-- LHS (R56). -/
def execLhs (t : Fin 576) (rd rs1 : BitVec 6) (imm : BitVec 16) (s : State) : Res :=
  s.run t (.lhs t rd rs1 imm) (loadG t rd .hs .plain (addrI t rs1 imm))
/-- LW (R53, R56). -/
def execLw (t : Fin 576) (rd rs1 : BitVec 6) (imm : BitVec 16) (s : State) : Res :=
  s.run t (.lw t rd rs1 imm) (loadG t rd .w .word (addrI t rs1 imm))
/-- LWS (R53, R56). -/
def execLws (t : Fin 576) (rd rs1 : BitVec 6) (imm : BitVec 16) (s : State) : Res :=
  s.run t (.lws t rd rs1 imm) (loadG t rd .ws .word (addrI t rs1 imm))
/-- LD (R56). -/
def execLd (t : Fin 576) (rd rs1 : BitVec 6) (imm : BitVec 16) (s : State) : Res :=
  s.run t (.ld t rd rs1 imm) (loadG t rd .d .plain (addrI t rs1 imm))

/-- The address of LX and SX (R57). -/
def addrX (t : Fin 576) (rs1 rs2 : BitVec 6) (scale : BitVec 2) (s : State) : Addr := eaX (s.g t rs1) (s.g t rs2) scale

/-- LX (R57): a word of it is no LW or LWS, so control space refuses its width (R53). -/
def execLx (t : Fin 576) (rd rs1 rs2 : BitVec 6) (size : LdSize) (scale : BitVec 2) (s : State) : Res :=
  s.run t (.lx t rd rs1 rs2 size scale) (loadG t rd size .plain (addrX t rs1 rs2 scale))

/-! ### Stores (R56, R57) -/

/-- The unit of w nonets at its place in the line of an address. -/
def placed (w : Nat) (ea : Addr) (v : Reg) : LineBits := setUnit w 0 (ea.toNat % 64) v

/-- memory := the image of register r. -/
def storeG (t : Fin 576) (r : BitVec 6) (u : MUnit) (k : Reach) (ea : State → Addr) (s : State) : Done :=
  s.stores t (ea s) (unit5Of u) k (.write (placed (unitNonets u) (ea s) (s.g t r))) noCheck plainEnd

/-- SN (R56). -/
def execSn (t : Fin 576) (rd rs1 : BitVec 6) (imm : BitVec 16) (s : State) : Res :=
  s.run t (.sn t rd rs1 imm) (storeG t rd .nonet .plain (addrI t rs1 imm))
/-- SH (R56). -/
def execSh (t : Fin 576) (rd rs1 : BitVec 6) (imm : BitVec 16) (s : State) : Res :=
  s.run t (.sh t rd rs1 imm) (storeG t rd .half .plain (addrI t rs1 imm))
/-- SW (R53, R56). -/
def execSw (t : Fin 576) (rd rs1 : BitVec 6) (imm : BitVec 16) (s : State) : Res :=
  s.run t (.sw t rd rs1 imm) (storeG t rd .word .word (addrI t rs1 imm))
/-- SD (R56). -/
def execSd (t : Fin 576) (rd rs1 : BitVec 6) (imm : BitVec 16) (s : State) : Res :=
  s.run t (.sd t rd rs1 imm) (storeG t rd .double .plain (addrI t rs1 imm))
/-- SX (R57). -/
def execSx (t : Fin 576) (rd rs1 rs2 : BitVec 6) (size : MUnit) (scale : BitVec 2) (s : State) : Res :=
  s.run t (.sx t rd rs1 rs2 size scale) (storeG t rd size .plain (addrX t rs1 rs2 scale))

/-! ### AMO (R58) -/

/-- AMO (R58): rd holds the compare value before and the old image after. -/
def execAmo (t : Fin 576) (rd rs1 rs2 : BitVec 6) (op : AmoOp) (word : Bool) (s : State) : Res :=
  s.run t (.amo t rd rs1 rs2 op word) fun s =>
    let ea := low64 (s.g t rs1)
    let w := if word then 4 else 8
    s.stores t ea (if word then .word else .double) .amo (.amo op word (s.g t rs2) (s.g t rd)) noCheck fun s1 evs l =>
      .done (s1.setG t rd (unitAt w l (ea.toNat % 64))) .ordinary false evs

/-! ### Marked loads and stores (R54, R56, R76) -/

/-- Nonets of the word or the double form. -/
def formNonets (w : Bool) : Nat := if w then 4 else 8
def formUnit (w : Bool) : MUnit5 := if w then .word else .double
def formReach (w : Bool) : Reach := if w then .word else .plain

/-- The address of a format N access (R68). -/
def addrN (t : Fin 576) (rs1 : BitVec 6) (disp : BitVec 7) (w : Bool) (s : State) : Addr := eaN (s.g t rs1) disp (formNonets w)

/-- A marked load in form w: the mark check follows the access. -/
def markedLoad (t : Fin 576) (w : Bool) (rd rs1 : BitVec 6) (em : BitVec 8) (act : Bool) (disp : BitVec 7) (s : State) : Done :=
  let ea := addrN t rs1 disp w s
  s.loads t ea (formUnit w) (formReach w) fun s1 evs l =>
    let v := unitAt (formNonets w) l (ea.toNat % 64)
    if markOf w v ≠ em then markFails act 3 (markOf w v) s1 evs else markPasses act (s1.setG t rd v) evs

/-- A marked store in form w: the mark check comes before the access. -/
def markedStore (t : Fin 576) (w : Bool) (rd rs1 : BitVec 6) (em : BitVec 8) (act : Bool) (disp : BitVec 7) (s : State) : Done :=
  let ea := addrN t rs1 disp w s
  let v := s.g t rd
  let m := markOf w v
  s.stores t ea (formUnit w) (formReach w) (.write (placed (formNonets w) ea v))
    (fun s1 evs => if m ≠ em then some (markFails act 4 m s1 evs) else none) fun s1 evs _ => markPasses act s1 evs

/-- LWM (R56). -/
def execLwm (t : Fin 576) (rd rs1 : BitVec 6) (em : BitVec 8) (act : Bool) (disp : BitVec 7) (s : State) : Res :=
  s.run t (.lwm t rd rs1 em act disp) (markedLoad t true rd rs1 em act disp)
/-- LDM (R56). -/
def execLdm (t : Fin 576) (rd rs1 : BitVec 6) (em : BitVec 8) (act : Bool) (disp : BitVec 7) (s : State) : Res :=
  s.run t (.ldm t rd rs1 em act disp) (markedLoad t false rd rs1 em act disp)
/-- SWM (R56). -/
def execSwm (t : Fin 576) (rd rs1 : BitVec 6) (em : BitVec 8) (act : Bool) (disp : BitVec 7) (s : State) : Res :=
  s.run t (.swm t rd rs1 em act disp) (markedStore t true rd rs1 em act disp)
/-- SDM (R56). -/
def execSdm (t : Fin 576) (rd rs1 : BitVec 6) (em : BitVec 8) (act : Bool) (disp : BitVec 7) (s : State) : Res :=
  s.run t (.sdm t rd rs1 em act disp) (markedStore t false rd rs1 em act disp)

/-! ### Vector lines (R65) -/

/-- VLD (R65). -/
def execVld (t : Fin 576) (vd : BitVec 5) (rs1 : BitVec 6) (imm : BitVec 16) (s : State) : Res :=
  s.run t (.vld t vd rs1 imm) fun s =>
    s.loads t (eaV (s.g t rs1) imm) .line .plain fun s1 evs l => .done (s1.setV t vd l) .ordinary false evs

/-- VST (R65). -/
def execVst (t : Fin 576) (vs : BitVec 5) (rs1 : BitVec 6) (imm : BitVec 16) (s : State) : Res :=
  s.run t (.vst t vs rs1 imm) fun s =>
    s.stores t (eaV (s.g t rs1) imm) .line .plain (.write (s.v t vs)) noCheck plainEnd

/-! ### PREF (R60) -/

/-- A prefetch by thread t of a line that its Isle may hold: the fill of the hint, whose request is dropped if it
cannot end at once (DESIGN CHOICE, log entry 8). -/
def State.prefetch (s : State) (k : Acr) (n : LineNo) (hint : Nat) : State :=
  let i := k.isle
  let st := ((s.isle i).line n.toNat).st
  if usable st false then s.prefWon i n.toNat (tagPref k.core hint)
  else if st ≠ .i ∨ s.home.drop.getLsbD i then s
  else
    let m := { isleMsg .rds i n.toNat (tagPref k.core hint) k.vault k.ctx with strm := hint == 3 }
    let s1 := (s.sendFill i m).rest n
    let s1 := if (s1.busyFor m).isSome then (s1.resend m).rest n else s1
    if usable ((s1.isle i).line n.toNat).st false then s1 else s

/-- PREF (R60): a hint, which never traps on its address. -/
def execPref (t : Fin 576) (h : PrefHint) (rs1 : BitVec 6) (imm : BitVec 16) (s : State) : Res :=
  s.run t (.pref t h rs1 imm) fun s =>
    match s.translate t.val .load (eaI (s.g t rs1) imm) with
    | (s1, evs, .ok pa uc) =>
      let n : LineNo := BitVec.ofNat 46 (pa / 64)
      let k := s1.acr t.val
      let world := !k.vault && inVault (s1.isle k.isle).regions pa
      if uc || world || !s1.icOn k.isle || !s1.coherent n then .done s1 .ordinary false evs
      else .done (s1.prefetch k n h.code.toNat) .ordinary false evs
    | (_, _, .trap ..) => .ord s
    | (_, _, .wait) => .ord s

end Sys2Proof.Machine
end

