-- ==== Sys2Proof/Machine/Dispatch.lean ====
section
/-! DEFINITION. The dispatch of a command to its meaning, one arm per row of the opcode table. -/

namespace Sys2Proof.Machine

open Host

def exec (i : Instr) (s : State) : Host.Outcome State Fault Refusal :=
  match i with
  | .nop t => Sys2Proof.Machine.execNop t s
  | .illegalInstruction t w => Sys2Proof.Machine.execIllegalInstruction t w s
  | .fence t k => Sys2Proof.Machine.execFence t k s
  | .crr t rd num => Sys2Proof.Machine.execCrr t rd num s
  | .crw t rs1 num => Sys2Proof.Machine.execCrw t rs1 num s
  | .crwCtxid t rs1 => Sys2Proof.Machine.execCrwCtxid t rs1 s
  | .tlbinvPage t rs1 => Sys2Proof.Machine.execTlbinvPage t rs1 s
  | .tlbinvContext t rs1 => Sys2Proof.Machine.execTlbinvContext t rs1 s
  | .tlbinvTable t rs1 => Sys2Proof.Machine.execTlbinvTable t rs1 s
  | .tlbinvPageAll t rs1 => Sys2Proof.Machine.execTlbinvPageAll t rs1 s
  | .tlbinvBroadcastApplied t => Sys2Proof.Machine.execTlbinvBroadcastApplied t s
  | .ctxreseed t rs1 => Sys2Proof.Machine.execCtxreseed t rs1 s
  | .reseedStart more => Sys2Proof.Machine.execReseedStart more s
  | .reseedDone healthy key => Sys2Proof.Machine.execReseedDone healthy key s
  | .fstepWrite t rs1 => Sys2Proof.Machine.execFstepWrite t rs1 s
  | .stepRaise c => Sys2Proof.Machine.execStepRaise c s
  | .stepLower c => Sys2Proof.Machine.execStepLower c s
  | .syscall t => Sys2Proof.Machine.execSyscall t s
  | .hvcall t => Sys2Proof.Machine.execHvcall t s
  | .tret t => Sys2Proof.Machine.execTret t s
  | .wait t => Sys2Proof.Machine.execWait t s
  | .waitComplete t => Sys2Proof.Machine.execWaitComplete t s
  | .launch t rd rs1 => Sys2Proof.Machine.execLaunch t rd rs1 s
  | .launchFire t => Sys2Proof.Machine.execLaunchFire t s
  | .vcall t => Sys2Proof.Machine.execVcall t s
  | .vret t => Sys2Proof.Machine.execVret t s
  | .br t a off => Sys2Proof.Machine.execBr t a off s
  | .bl t a off => Sys2Proof.Machine.execBl t a off s
  | .jr t a rd rs1 => Sys2Proof.Machine.execJr t a rd rs1 s
  | .dbnz t a rc off => Sys2Proof.Machine.execDbnz t a rc off s
  | .skipr t ra rb cond => Sys2Proof.Machine.execSkipr t ra rb cond s
  | .skipi t ra cond imm => Sys2Proof.Machine.execSkipi t ra cond imm s
  | .alu72 t rd rs1 rs2 op => Sys2Proof.Machine.execAlu72 t rd rs1 rs2 op s
  | .alu36 t rd rs1 rs2 op => Sys2Proof.Machine.execAlu36 t rd rs1 rs2 op s
  | .addi t rd rs1 imm => Sys2Proof.Machine.execAddi t rd rs1 imm s
  | .addi36 t rd rs1 imm => Sys2Proof.Machine.execAddi36 t rd rs1 imm s
  | .andi t rd rs1 imm => Sys2Proof.Machine.execAndi t rd rs1 imm s
  | .ori t rd rs1 imm => Sys2Proof.Machine.execOri t rd rs1 imm s
  | .xori t rd rs1 imm => Sys2Proof.Machine.execXori t rd rs1 imm s
  | .shi t rd rs1 kind w36 amt => Sys2Proof.Machine.execShi t rd rs1 kind w36 amt s
  | .li t rd imm => Sys2Proof.Machine.execLi t rd imm s
  | .insh t rd pos imm => Sys2Proof.Machine.execInsh t rd pos imm s
  | .ln t rd rs1 imm => Sys2Proof.Machine.execLn t rd rs1 imm s
  | .lns t rd rs1 imm => Sys2Proof.Machine.execLns t rd rs1 imm s
  | .lh t rd rs1 imm => Sys2Proof.Machine.execLh t rd rs1 imm s
  | .lhs t rd rs1 imm => Sys2Proof.Machine.execLhs t rd rs1 imm s
  | .lw t rd rs1 imm => Sys2Proof.Machine.execLw t rd rs1 imm s
  | .lws t rd rs1 imm => Sys2Proof.Machine.execLws t rd rs1 imm s
  | .ld t rd rs1 imm => Sys2Proof.Machine.execLd t rd rs1 imm s
  | .lx t rd rs1 rs2 size scale => Sys2Proof.Machine.execLx t rd rs1 rs2 size scale s
  | .sn t rd rs1 imm => Sys2Proof.Machine.execSn t rd rs1 imm s
  | .sh t rd rs1 imm => Sys2Proof.Machine.execSh t rd rs1 imm s
  | .sw t rd rs1 imm => Sys2Proof.Machine.execSw t rd rs1 imm s
  | .sd t rd rs1 imm => Sys2Proof.Machine.execSd t rd rs1 imm s
  | .sx t rd rs1 rs2 size scale => Sys2Proof.Machine.execSx t rd rs1 rs2 size scale s
  | .amo t rd rs1 rs2 op word => Sys2Proof.Machine.execAmo t rd rs1 rs2 op word s
  | .pref t hint rs1 imm => Sys2Proof.Machine.execPref t hint rs1 imm s
  | .lwm t rd rs1 emark act disp => Sys2Proof.Machine.execLwm t rd rs1 emark act disp s
  | .ldm t rd rs1 emark act disp => Sys2Proof.Machine.execLdm t rd rs1 emark act disp s
  | .swm t rd rs1 emark act disp => Sys2Proof.Machine.execSwm t rd rs1 emark act disp s
  | .sdm t rd rs1 emark act disp => Sys2Proof.Machine.execSdm t rd rs1 emark act disp s
  | .addM t rd rs1 rs2 emark act w => Sys2Proof.Machine.execAddM t rd rs1 rs2 emark act w s
  | .subM t rd rs1 rs2 emark act w => Sys2Proof.Machine.execSubM t rd rs1 rs2 emark act w s
  | .mulM t rd rs1 rs2 emark act w => Sys2Proof.Machine.execMulM t rd rs1 rs2 emark act w s
  | .andM t rd rs1 rs2 emark act w => Sys2Proof.Machine.execAndM t rd rs1 rs2 emark act w s
  | .orM t rd rs1 rs2 emark act w => Sys2Proof.Machine.execOrM t rd rs1 rs2 emark act w s
  | .xorM t rd rs1 rs2 emark act w => Sys2Proof.Machine.execXorM t rd rs1 rs2 emark act w s
  | .mtest t rs1 emark act w => Sys2Proof.Machine.execMtest t rs1 emark act w s
  | .mset t rd rs1 emark w => Sys2Proof.Machine.execMset t rd rs1 emark w s
  | .mget t rd rs1 w => Sys2Proof.Machine.execMget t rd rs1 w s
  | .fop64 t rd rs1 rs2 op rm => Sys2Proof.Machine.execFop64 t rd rs1 rs2 op rm s
  | .fop32 t rd rs1 rs2 op rm => Sys2Proof.Machine.execFop32 t rd rs1 rs2 op rm s
  | .fma64 t rd rs1 rs2 op rm => Sys2Proof.Machine.execFma64 t rd rs1 rs2 op rm s
  | .fma32 t rd rs1 rs2 op rm => Sys2Proof.Machine.execFma32 t rd rs1 rs2 op rm s
  | .fcvt t rd rs1 op rm => Sys2Proof.Machine.execFcvt t rd rs1 op rm s
  | .fcmp t rd rs1 rs2 w sig rel => Sys2Proof.Machine.execFcmp t rd rs1 rs2 w sig rel s
  | .vld t vd rs1 imm => Sys2Proof.Machine.execVld t vd rs1 imm s
  | .vst t vs rs1 imm => Sys2Proof.Machine.execVst t vs rs1 imm s
  | .vop t vd v1 v2 elt op => Sys2Proof.Machine.execVop t vd v1 v2 elt op s
  | .vfop t vd v1 v2 w op rm => Sys2Proof.Machine.execVfop t vd v1 v2 w op rm s
  | .vmov t k v g lane elt => Sys2Proof.Machine.execVmov t k v g lane elt s
  | .interrupt t => Sys2Proof.Machine.execInterrupt t s
  | .coreAutoslackEnter c => Sys2Proof.Machine.execCoreAutoslackEnter c s
  | .isleSlackEnter n => Sys2Proof.Machine.execIsleSlackEnter n s
  | .isleSlackExit n => Sys2Proof.Machine.execIsleSlackExit n s
  | .sramPatrol n line => Sys2Proof.Machine.execSramPatrol n line s
  | .cisCachectlWrite w n v => Sys2Proof.Machine.execCisCachectlWrite w n v s
  | .cacheDisableComplete n k => Sys2Proof.Machine.execCacheDisableComplete n k s
  | .dropWalkDone n => Sys2Proof.Machine.execDropWalkDone n s
  | .cisWayctlWrite w n v => Sys2Proof.Machine.execCisWayctlWrite w n v s
  | .wayConverted n => Sys2Proof.Machine.execWayConverted n s
  | .cisternAccess m => Sys2Proof.Machine.execCisternAccess m s
  | .trwClaim w others n => Sys2Proof.Machine.execTrwClaim w others n s
  | .go w n k v => Sys2Proof.Machine.execGo w n k v s
  | .cancel w n k v => Sys2Proof.Machine.execCancel w n k v s
  | .release w n k v => Sys2Proof.Machine.execRelease w n k v s
  | .clean n => Sys2Proof.Machine.execClean n s
  | .inval n => Sys2Proof.Machine.execInval n s
  | .cleanInval n => Sys2Proof.Machine.execCleanInval n s
  | .zero n => Sys2Proof.Machine.execZero n s
  | .arrayInval n => Sys2Proof.Machine.execArrayInval n s
  | .trowelLineIssue n => Sys2Proof.Machine.execTrowelLineIssue n s
  | .trowelLineDone n => Sys2Proof.Machine.execTrowelLineDone n s
  | .cancelledDone n => Sys2Proof.Machine.execCancelledDone n s
  | .rds m => Sys2Proof.Machine.execRds m s
  | .rdu m => Sys2Proof.Machine.execRdu m s
  | .upg m => Sys2Proof.Machine.execUpg m s
  | .rdn m => Sys2Proof.Machine.execRdn m s
  | .wrn m => Sys2Proof.Machine.execWrn m s
  | .wrl m => Sys2Proof.Machine.execWrl m s
  | .atm m => Sys2Proof.Machine.execAtm m s
  | .trw m => Sys2Proof.Machine.execTrw m s
  | .wbd m => Sys2Proof.Machine.execWbd m s
  | .evc m => Sys2Proof.Machine.execEvc m s
  | .queuedRequestOpen line => Sys2Proof.Machine.execQueuedRequestOpen line s
  | .fws m => Sys2Proof.Machine.execFws m s
  | .fwu m => Sys2Proof.Machine.execFwu m s
  | .sng m => Sys2Proof.Machine.execSng m s
  | .snc m => Sys2Proof.Machine.execSnc m s
  | .sni m => Sys2Proof.Machine.execSni m s
  | .inv m => Sys2Proof.Machine.execInv m s
  | .pfh m => Sys2Proof.Machine.execPfh m s
  | .ack m => Sys2Proof.Machine.execAck m s
  | .ackd m => Sys2Proof.Machine.execAckd m s
  | .gone m => Sys2Proof.Machine.execGone m s
  | .gnt m => Sys2Proof.Machine.execGnt m s
  | .cmp m => Sys2Proof.Machine.execCmp m s
  | .busyReceived m => Sys2Proof.Machine.execBusyReceived m s
  | .dat m => Sys2Proof.Machine.execDat m s
  | .tokenResend m => Sys2Proof.Machine.execTokenResend m s
  | .reservationExpire sl r => Sys2Proof.Machine.execReservationExpire sl r s
  | .holdWindowEnd n line => Sys2Proof.Machine.execHoldWindowEnd n line s
  | .purgeEnd dur => Sys2Proof.Machine.execPurgeEnd dur s
  | .flitCrcReplay n toK seq bad => Sys2Proof.Machine.execFlitCrcReplay n toK seq bad s
  | .sidebandFailover n toK => Sys2Proof.Machine.execSidebandFailover n toK s
  | .laneFailed n toK lanes cond => Sys2Proof.Machine.execLaneFailed n toK lanes cond s
  | .substituted n toK stall => Sys2Proof.Machine.execSubstituted n toK stall s
  | .narrowed n toK stall => Sys2Proof.Machine.execNarrowed n toK stall s
  | .laneRestored n toK ok => Sys2Proof.Machine.execLaneRestored n toK ok s
  | .recalPassStart n => Sys2Proof.Machine.execRecalPassStart n s
  | .run w n v => Sys2Proof.Machine.execRun w n v s
  | .recalLaneDone n => Sys2Proof.Machine.execRecalLaneDone n s
  | .fullTraining n => Sys2Proof.Machine.execFullTraining n s
  | .fullTrainingDone n okI okK => Sys2Proof.Machine.execFullTrainingDone n okI okK s
  | .admission n ofs => Sys2Proof.Machine.execAdmission n ofs s
  | .bearingRetry u => Sys2Proof.Machine.execBearingRetry u s
  | .heartbeat n rst clk seq => Sys2Proof.Machine.execHeartbeat n rst clk seq s
  | .heartbeatTimeout n => Sys2Proof.Machine.execHeartbeatTimeout n s
  | .watchdogReport n k => Sys2Proof.Machine.execWatchdogReport n k s
  | .vcoreRemove n => Sys2Proof.Machine.execVcoreRemove n s
  | .guestRequest g octets other l1 => Sys2Proof.Machine.execGuestRequest g octets other l1 s
  | .guestCompletion g tag => Sys2Proof.Machine.execGuestCompletion g tag s
  | .gatehouseTokenRefill g => Sys2Proof.Machine.execGatehouseTokenRefill g s
  | .guestRegisterAccess w g off wr ans => Sys2Proof.Machine.execGuestRegisterAccess w g off wr ans s
  | .guestAccessFailed w g off wr err => Sys2Proof.Machine.execGuestAccessFailed w g off wr err s
  | .guestLinkLost g => Sys2Proof.Machine.execGuestLinkLost g s
  | .ucieLaneRepair g => Sys2Proof.Machine.execUcieLaneRepair g s
  | .dramRead c line err => Sys2Proof.Machine.execDramRead c line err s
  | .dramWrite c => Sys2Proof.Machine.execDramWrite c s
  | .correctedReread c err => Sys2Proof.Machine.execCorrectedReread c err s
  | .patrolRead c err => Sys2Proof.Machine.execPatrolRead c err s
  | .refsb c hot => Sys2Proof.Machine.execRefsb c hot s
  | .memThrottled c temp => Sys2Proof.Machine.execMemThrottled c temp s
  | .sampledRowRefresh c bank row => Sys2Proof.Machine.execSampledRowRefresh c bank row s
  | .tallyClear c => Sys2Proof.Machine.execTallyClear c s
  | .trackingRetrain c => Sys2Proof.Machine.execTrackingRetrain c s
  | .channelFullTraining c works => Sys2Proof.Machine.execChannelFullTraining c works s
  | .poisonFillDone c => Sys2Proof.Machine.execPoisonFillDone c s
  | .caParityAlert c line => Sys2Proof.Machine.execCaParityAlert c line s
  | .resume m works => Sys2Proof.Machine.execResume m works s
  | .retrain m => Sys2Proof.Machine.execRetrain m s
  | .fail m => Sys2Proof.Machine.execFail m s
  | .memRetrain m => Sys2Proof.Machine.execMemRetrain m s
  | .memInclude m => Sys2Proof.Machine.execMemInclude m s
  | .memMark m => Sys2Proof.Machine.execMemMark m s
  | .memPprEnroll m => Sys2Proof.Machine.execMemPprEnroll m s
  | .portLinkTraining p res => Sys2Proof.Machine.execPortLinkTraining p res s
  | .outboundRequest rs => Sys2Proof.Machine.execOutboundRequest rs s
  | .portCompletion p tag st data => Sys2Proof.Machine.execPortCompletion p tag st data s
  | .cplTimeout p tag => Sys2Proof.Machine.execCplTimeout p tag s
  | .inboundRequest p write addr len data => Sys2Proof.Machine.execInboundRequest p write addr len data s
  | .interruptMessage p addr data => Sys2Proof.Machine.execInterruptMessage p addr data s
  | .intxMessage p pin lvl => Sys2Proof.Machine.execIntxMessage p pin lvl s
  | .hostBarRequest b bar2 off wr len poison => Sys2Proof.Machine.execHostBarRequest b bar2 off wr len poison s
  | .lendingRequest b addr wr mask poison => Sys2Proof.Machine.execLendingRequest b addr wr mask poison s
  | .busMasterEnableClear b => Sys2Proof.Machine.execBusMasterEnableClear b s
  | .d3hotEntry b => Sys2Proof.Machine.execD3hotEntry b s
  | .d3coldEntry b => Sys2Proof.Machine.execD3coldEntry b s
  | .d0Return b => Sys2Proof.Machine.execD0Return b s
  | .flr b => Sys2Proof.Machine.execFlr b s
  | .prtPerstAssert b => Sys2Proof.Machine.execPrtPerstAssert b s
  | .pme b => Sys2Proof.Machine.execPme b s
  | .prtEpintstatWrite b v => Sys2Proof.Machine.execPrtEpintstatWrite b v s
  | .doorbellTail w r v others => Sys2Proof.Machine.execDoorbellTail w r v others s
  | .doorbellHead w r v others => Sys2Proof.Machine.execDoorbellHead w r v others s
  | .doorbellResume w r v others => Sys2Proof.Machine.execDoorbellResume w r v others s
  | .hbrRctlWrite w r v => Sys2Proof.Machine.execHbrRctlWrite w r v s
  | .harbourSchedule => Sys2Proof.Machine.execHarbourSchedule s
  | .copy e => Sys2Proof.Machine.execCopy e s
  | .fill e => Sys2Proof.Machine.execFill e s
  | .compare e => Sys2Proof.Machine.execCompare e s
  | .crc64 e => Sys2Proof.Machine.execCrc64 e s
  | .repackD e => Sys2Proof.Machine.execRepackD e s
  | .repackL e => Sys2Proof.Machine.execRepackL e s
  | .prefetch e => Sys2Proof.Machine.execPrefetch e s
  | .timedAccept r => Sys2Proof.Machine.execTimedAccept r s
  | .timedDescriptorDue vault => Sys2Proof.Machine.execTimedDescriptorDue vault s
  | .timedLeadExpired r => Sys2Proof.Machine.execTimedLeadExpired r s
  | .descriptorDone r => Sys2Proof.Machine.execDescriptorDone r s
  | .set w v => Sys2Proof.Machine.execSet w v s
  | .setApply => Sys2Proof.Machine.execSetApply s
  | .cancelSlew w v => Sys2Proof.Machine.execCancelSlew w v s
  | .lhSlewWrite w v => Sys2Proof.Machine.execLhSlewWrite w v s
  | .slewTick => Sys2Proof.Machine.execSlewTick s
  | .lhCtlWrite w v => Sys2Proof.Machine.execLhCtlWrite w v s
  | .lhPpsEdge => Sys2Proof.Machine.execLhPpsEdge s
  | .ppsTimeout => Sys2Proof.Machine.execPpsTimeout s
  | .refLost => Sys2Proof.Machine.execRefLost s
  | .refLocked => Sys2Proof.Machine.execRefLocked s
  | .copyCorrection n ofs => Sys2Proof.Machine.execCopyCorrection n ofs s
  | .driftCleared n ofs => Sys2Proof.Machine.execDriftCleared n ofs s
  | .alarmFire t vault => Sys2Proof.Machine.execAlarmFire t vault s
  | .pwrCorectlWrite w c v => Sys2Proof.Machine.execPwrCorectlWrite w c v s
  | .pwrIslectlWrite w n v => Sys2Proof.Machine.execPwrIslectlWrite w n v s
  | .pwrBlkctlWrite w k v => Sys2Proof.Machine.execPwrBlkctlWrite w k v s
  | .pwrPkgctlWrite w v => Sys2Proof.Machine.execPwrPkgctlWrite w v s
  | .timedRequestFire u => Sys2Proof.Machine.execTimedRequestFire u s
  | .powerRequestComplete u => Sys2Proof.Machine.execPowerRequestComplete u s
  | .coreToNeap c => Sys2Proof.Machine.execCoreToNeap c s
  | .coreNeapToRun c => Sys2Proof.Machine.execCoreNeapToRun c s
  | .coreToDry c => Sys2Proof.Machine.execCoreToDry c s
  | .coreDryToRun c => Sys2Proof.Machine.execCoreDryToRun c s
  | .isleToNeap n => Sys2Proof.Machine.execIsleToNeap n s
  | .isleNeapToRun n => Sys2Proof.Machine.execIsleNeapToRun n s
  | .isleToDry n => Sys2Proof.Machine.execIsleToDry n s
  | .isleDryToRun n tr => Sys2Proof.Machine.execIsleDryToRun n tr s
  | .harbourToDry => Sys2Proof.Machine.execHarbourToDry s
  | .portBlockToDry b => Sys2Proof.Machine.execPortBlockToDry b s
  | .keystoneBlockToRun k => Sys2Proof.Machine.execKeystoneBlockToRun k s
  | .lagoonEnter => Sys2Proof.Machine.execLagoonEnter s
  | .lagoonExit => Sys2Proof.Machine.execLagoonExit s
  | .wake u => Sys2Proof.Machine.execWake u s
  | .portWake b => Sys2Proof.Machine.execPortWake b s
  | .smbusAddressMatch addr => Sys2Proof.Machine.execSmbusAddressMatch addr s
  | .bearingClaim c others => Sys2Proof.Machine.execBearingClaim c others s
  | .bearingRelease q core hub => Sys2Proof.Machine.execBearingRelease q core hub s
  | .currentCapCheck core hub => Sys2Proof.Machine.execCurrentCapCheck core hub s
  | .thermalCap n pts => Sys2Proof.Machine.execThermalCap n pts s
  | .wldRgnctlWrite w v => Sys2Proof.Machine.execWldRgnctlWrite w v s
  | .regionTableArrives n => Sys2Proof.Machine.execRegionTableArrives n s
  | .handoverEngine f k toV others => Sys2Proof.Machine.execHandoverEngine f k toV others s
  | .handoverPort f p toV others => Sys2Proof.Machine.execHandoverPort f p toV others s
  | .handoverPartition f n p toV others => Sys2Proof.Machine.execHandoverPartition f n p toV others s
  | .handoverGuestSite f g toV others => Sys2Proof.Machine.execHandoverGuestSite f g toV others s
  | .handoverQuiesced => Sys2Proof.Machine.execHandoverQuiesced s
  | .mailboxServe => Sys2Proof.Machine.execMailboxServe s
  | .info m => Sys2Proof.Machine.execInfo m s
  | .cplRead m => Sys2Proof.Machine.execCplRead m s
  | .handleStatus m => Sys2Proof.Machine.execHandleStatus m s
  | .sensorRead m => Sys2Proof.Machine.execSensorRead m s
  | .lhSet m => Sys2Proof.Machine.execLhSet m s
  | .lhSlew m => Sys2Proof.Machine.execLhSlew m s
  | .lhPolicy m => Sys2Proof.Machine.execLhPolicy m s
  | .brgSetlimit m => Sys2Proof.Machine.execBrgSetlimit m s
  | .islePolicy m => Sys2Proof.Machine.execIslePolicy m s
  | .idCert m => Sys2Proof.Machine.execIdCert m s
  | .idMeasure m => Sys2Proof.Machine.execIdMeasure m s
  | .unlockChallenge m nonce => Sys2Proof.Machine.execUnlockChallenge m nonce s
  | .nonceExpire => Sys2Proof.Machine.execNonceExpire s
  | .unlockResponse m => Sys2Proof.Machine.execUnlockResponse m s
  | .lock m => Sys2Proof.Machine.execLock m s
  | .ownerEnroll m => Sys2Proof.Machine.execOwnerEnroll m s
  | .isleRelease m => Sys2Proof.Machine.execIsleRelease m s
  | .isleAdmit m tr => Sys2Proof.Machine.execIsleAdmit m tr s
  | .isleOffline m => Sys2Proof.Machine.execIsleOffline m s
  | .isleOnline m tr => Sys2Proof.Machine.execIsleOnline m tr s
  | .ucodeLoad m img => Sys2Proof.Machine.execUcodeLoad m img s
  | .ucodeIsleParked ok => Sys2Proof.Machine.execUcodeIsleParked ok s
  | .portConfig m => Sys2Proof.Machine.execPortConfig m s
  | .evrClear m => Sys2Proof.Machine.execEvrClear m s
  | .evrClearDone => Sys2Proof.Machine.execEvrClearDone s
  | .fwStage m img flashOk => Sys2Proof.Machine.execFwStage m img flashOk s
  | .fwSwap m selfTest => Sys2Proof.Machine.execFwSwap m selfTest s
  | .handleCompletion m => Sys2Proof.Machine.execHandleCompletion m s
  | .umfMbintWrite w m v => Sys2Proof.Machine.execUmfMbintWrite w m v s
  | .smbusMctpWrite data pecOk => Sys2Proof.Machine.execSmbusMctpWrite data pecOk s
  | .smbusMailboxWrite b data pecOk => Sys2Proof.Machine.execSmbusMailboxWrite b data pecOk s
  | .smbusMailboxRead b => Sys2Proof.Machine.execSmbusMailboxRead b s
  | .getVersion p => Sys2Proof.Machine.execGetVersion p s
  | .getCapabilities p => Sys2Proof.Machine.execGetCapabilities p s
  | .negotiateAlgorithms p asym hash => Sys2Proof.Machine.execNegotiateAlgorithms p asym hash s
  | .getDigests p => Sys2Proof.Machine.execGetDigests p s
  | .getCertificate p slot off len => Sys2Proof.Machine.execGetCertificate p slot off len s
  | .challenge p slot nonce => Sys2Proof.Machine.execChallenge p slot nonce s
  | .getMeasurements p idx => Sys2Proof.Machine.execGetMeasurements p idx s
  | .recordArrives k => Sys2Proof.Machine.execRecordArrives k s
  | .recordStore => Sys2Proof.Machine.execRecordStore s
  | .evrWindowRead w k => Sys2Proof.Machine.execEvrWindowRead w k s
  | .sndUloRead w u k => Sys2Proof.Machine.execSndUloRead w u k s
  | .sndUloWrite w u k v => Sys2Proof.Machine.execSndUloWrite w u k v s
  | .registerWrite w a v => Sys2Proof.Machine.execRegisterWrite w a v s
  | .powerOn straps slotsOk => Sys2Proof.Machine.execPowerOn straps slotsOk s
  | .pkgResetAssert => Sys2Proof.Machine.execPkgResetAssert s
  | .pkgResetRelease held straps => Sys2Proof.Machine.execPkgResetRelease held straps s
  | .startupStep x => Sys2Proof.Machine.execStartupStep x s
  | .railOutOfRange r => Sys2Proof.Machine.execRailOutOfRange r s
  | .refclkLoss => Sys2Proof.Machine.execRefclkLoss s
  | .thermalTrip pt => Sys2Proof.Machine.execThermalTrip pt s
  | .pmbAlert asserted => Sys2Proof.Machine.execPmbAlert asserted s
  | .arrayInvalDone n => Sys2Proof.Machine.execArrayInvalDone n s
  | .mailboxReqWrite w m v => Sys2Proof.Machine.execMailboxReqWrite w m v s
  | .guestLinkTrained g ok => Sys2Proof.Machine.execGuestLinkTrained g ok s
  | .surpriseRemoval p dpc => Sys2Proof.Machine.execSurpriseRemoval p dpc s
  | .interruptDisableWrite b v => Sys2Proof.Machine.execInterruptDisableWrite b v s
  | .tagReuseAllowed p tag => Sys2Proof.Machine.execTagReuseAllowed p tag s
  | .backupSidebandLaneFailed n toK => Sys2Proof.Machine.execBackupSidebandLaneFailed n toK s

end Sys2Proof.Machine
end

