-- ==== Sys2Proof/Safety.lean ====
section
/-! DEFINITION. The terms in which claims are stated: what a legal thread is, the canonical form of memory, when an
instruction runs, and what an instruction that completes leaves as it was. -/

namespace Sys2Proof.Machine

/-! ### Legal threads (R42, R46, R72, R87) -/

/-- No register of the bank holds a reserved bit or encoding. -/
def Bank.legal (hyp : Bool) (b : Bank) : Bool := (List.range 8).all fun k => !bankBad hyp k (b.get k)

/-- Both banks are legal, and TROUTE reads as R87 says. -/
def WReg.legal (w : WReg) : Bool :=
  w.s.legal false && w.h.legal true && !crBad 0o0030 2 w.troute && w.troute.getLsbD 18

/-- A thread as its registers' layouts allow it: PC and nPC are multiples of 4, the level is 0 to 2, RM is a mode, and
what VCALL saved is legal. -/
def Thread.legal (x : Thread) : Bool :=
  x.pc.extractLsb' 0 2 == (0 : BitVec 2) && x.npc.extractLsb' 0 2 == (0 : BitVec 2)
    && decide (x.priv.toNat < 3) && decide (x.rm.toNat < 5)
    && x.wc.legal && x.wv.legal
    && x.vrpc &&& (regMask 71 64 ||| regMask 1 0) == 0
    && decide ((x.vrsave.extractLsb' 20 2 : BitVec 2).toNat < 3)
    && decide ((x.vrsave.extractLsb' 5 3 : BitVec 3).toNat < 5)

/-- Every thread is legal. -/
def ThreadsLegal (s : State) : Prop := ∀ t, (s.thread t).legal = true

/-- Memory is in its canonical form: lines rising, none equal to what an unlisted line reads as. -/
abbrev Memory.wf (s : State) : Prop := swf ({} : LineVal) s.mem = true

/-! ### Instructions -/

/-- The state after the fetch of thread t's next instruction, and the events it counted. -/
def State.fetched (s : State) (t : Fin 576) : State := (s.fetch t.val).1
def State.fetchEvents (s : State) (t : Fin 576) : List (Nat × Nat) := (s.fetch t.val).2.1

/-- A translation or fetch ended with an address. -/
def Tr.isOk : Tr → Bool
  | .ok _ _ => true
  | .trap _ _ _ | .wait => false

/-- Thread t runs instruction i next: it issues (R102, R345), no interrupt class is taken before it (R94), its fetch
ends without a trap (R93), and its word is legal where it stands (R69, R83). -/
def State.ready (s : State) (t : Fin 576) (i : Instr) : Bool :=
  s.threadFit t.val && s.issues t.val && (s.pickInt t.val).isNone && (s.fetch t.val).2.2.isOk
    && (illegalDetail ((encodeWord i).getD 0) (s.thread t.val).ds).isNone

/-- A thread without what its counters hold (R418, R420), the model's count of retired work, and without its store buffer
(R103), which no instruction reads. -/
def WReg.quietly (w : WReg) : WReg := { w with sndcnt := [], sndovf := 0 }
def Thread.arch (x : Thread) : Thread := { x with wc := x.wc.quietly, wv := x.wv.quietly, sb := [] }

/-- A core without its counters (R418), its direction table and its key cache (R117 to R122), and without the mark of a
wrong path that the next fetch will show (R126). -/
def Core.arch (x : Core) : Core := { x with fixC := [], fixV := [], dirTab := [], keys := [], wrong := 0 }

/-- u is the state after an instruction of thread t: thread t is x, every other thread is as in s, and the rest is as
its fetch left it in f, all of memory among it; only counters and predictors may have moved. -/
def After (s f : State) (t : Fin 576) (x : Thread) (u : State) : Prop :=
  (∀ k, (u.thread k).arch = if k = t.val then x.arch else (s.thread k).arch)
    ∧ (∀ q, (u.core q).arch = (f.core q).arch)
    ∧ u = { f with threads := u.threads, cores := u.cores }

/-! ### Register accesses (R10, R13, R227, R347) -/

/-- Isle n is fitted and lets an access of w through to its registers, as it stands; no Strait on the way holds it up. -/
def State.isleOpen (s : State) (w : Who) (n : Fin 12) : Prop :=
  s.isleFit n.val = true ∧ s.isleGate w n = (s, some .ok) ∧ s.csHeld w (.isle n) = false

/-- The Keystone lets an access of w through to the register at o of sub-block sub, as it stands; no Strait on the way holds it
up. -/
def State.keyOpen (s : State) (w : Who) (sub o : Nat) : Prop :=
  s.keyGate w (0x10000000 * sub + o) = (s, some .ok) ∧ s.csHeld w .keystone = false

/-! ### Messages (R174, R178, R181, R191, R207) -/

/-- Message m of a fitted sender comes to its destination: nothing on its way holds it, and no earlier one of its channel. -/
def State.comes (s : State) (m : Msg) : Prop := s.agentFit m.src = true ∧ s.mayArrive m = true

/-- The state in which message m has come: the flits that carried it are counted, and it travels no more. -/
def State.arrived (s : State) (m : Msg) : State := (s.crosses m).takeMsg m

/-- The directory knows the line of a request as it stands: no purge waits, and its entry has no bit in error. -/
def State.homeCalm (s : State) (n : LineNo) : Prop := s.home.purgeNext = [] ∧ sget 0 s.home.dirErr n.toNat = 0

/-- The home opens request m at once: it comes, its sender is admitted, its line is coherent and free, its world and its
window let it through, the transaction table has room, and it carries no token while none is given out. -/
def State.homeOpen (s : State) (m : Msg) : Prop :=
  s.comes m ∧ (m.src.toNat < 12 → s.home.mask.getLsbD m.src.toNat = true)
    ∧ s.coherent m.line = true ∧ (m.world = true ∨ inVault s.worlds.regions (m.line.toNat * 64) = false)
    ∧ s.cxlWin m.line = none ∧ s.tableUse (s.homeSlice m.line) < 512
    ∧ (s.slice (s.homeSlice m.line)).tokens = [] ∧ (s.slice (s.homeSlice m.line)).resv = []
    ∧ s.txn m.line = none ∧ s.queueOf m.line = [] ∧ s.homeCalm m.line

/-- No array of Isle i holds an SRAM error (R141 to R143). -/
def State.isleClean (s : State) (i : Nat) : Prop :=
  (s.isle i).dataErr = [] ∧ (s.isle i).tagErr = [] ∧ (s.isle i).agentErr = []
    ∧ ∀ q, q / 24 = i → (s.core q).errI = [] ∧ (s.core q).errD = [] ∧ (s.core q).err2 = []
        ∧ (s.core q).tagI = [] ∧ (s.core q).tagD = [] ∧ (s.core q).tag2 = []

end Sys2Proof.Machine
end

