-- ==== Sys2Proof/Certificates/Slice0/Obligations.lean ====
section
/-! DEFINITION. What is claimed of the machine: one statement a definition, each under the rules it formalises. Statements
about an instruction say that exec answers a next state, which state, and what stays. A value the spec leaves open is free:
a statement about one holds for every value. -/

open Sys2Proof Sys2Proof.Machine

/-- One step: the command at the front of the queue runs on the state with the queue's rest. -/
def Obligations.StepRunsTheFrontCommand : Prop :=
  ∀ (c : Instr) (rest : List Instr) (s : State), step { s with pending := c :: rest } = exec c { s with pending := rest }

/-- R311 to R313: with no command waiting, one Lighthouse cycle of 2 ns passes and the ports serve what waits at them (log
entries 1 and 61: the model's choice of what an empty queue means). Where nothing waits for an instant, for a set or at a port,
only the master, the copies that run and the time that granted bearing takes to come into use move, once the master runs. -/
def Obligations.IdleStepIsOneCycle : Prop :=
  ∀ s : State, s.pending = [] →
    let c := s.lh.cycle
    -- nothing waits for an instant, for a set or at a port
    let calm : Prop := (∀ t, (s.thread t).launchT = none) ∧ (∀ u, (s.streamOf u).waitT = false) ∧ s.harbour.table = []
      ∧ s.lh.setbusy = false ∧ ∀ p, (s.port p).waits = []
    (∃ u, step s = .next u)
      ∧ (s.lh.run = false → (∀ p, (s.port p).waits = []) → step s = .next s)
      ∧ (s.lh.run = true → calm → ∃ u, step s = .next u ∧ u = { s with lh := u.lh, isles := u.isles, ledger := u.ledger }
          ∧ u.lh = { c.2 with count := s.lh.count + BitVec.ofNat 64 c.1 }
          ∧ (∀ n, u.isle n = if (s.isle n).lhSync then { s.isle n with lhCount := (s.isle n).lhCount + BitVec.ofNat 64 c.1 } else s.isle n)
          ∧ u.ledger = { s.ledger with ramps := u.ledger.ramps })

/-- A command leaves the queue's rest and the ordering code as they are: what a command does is done to everything else. -/
def Obligations.CommandsLeaveTheQueue : Prop :=
  ∀ (c : Instr) (s u : State), exec c s = .next u → u.pending = s.pending ∧ u.variant = s.variant

/-- R42, R46, R72, R85, R87: every thread stays legal: PC and nPC are multiples of 4, the level is 0 to 2, FPCTL.RM is a mode,
and no trap register, TROUTE or saved Vault register holds a reserved bit or encoding, whatever command runs. -/
def Obligations.ThreadsStayLegal : Prop :=
  ∀ s u : State, ThreadsLegal s → step s = .next u → ThreadsLegal u

/-- Memory keeps its canonical form, whatever command runs. -/
def Obligations.MemoryStaysCanonical : Prop :=
  ∀ s u : State, Memory.wf s → step s = .next u → Memory.wf u

/-- The invariants hold at reset, where nothing waits and memory lists nothing. -/
def Obligations.ResetMeetsTheInvariants : Prop :=
  ThreadsLegal State.reset ∧ Memory.wf State.reset ∧ State.reset.pending = [] ∧ State.reset.mem = []

/-- R67 to R71: the word of a well-formed instruction decodes to that instruction; a row that is a CRW of one register decodes
as the CRW of that register. -/
def Obligations.DecodeOfEncode : Prop :=
  ∀ (t : Fin 576) (i : Instr) (w : W36), wellFormed i = true → instrThread i = some t → (∀ v, i ≠ .illegalInstruction t v) →
    encodeWord i = some w → decodeWord t w = some (asDecoded i)

/-- R69, R70: a word that decodes is the word of the instruction that it decodes to, so no bit of a legal word is ignored and
every other word is refused. -/
def Obligations.EncodeOfDecode : Prop :=
  ∀ (t : Fin 576) (w : W36), (∀ i, decodeWord t w = some i → encodeWord i = some w ∧ wellFormed i = true ∧ instrThread i = some t)
    ∧ (decodeWord t w = none ↔ ∃ d, wordDetail w = some d ∧ d.toNat ≤ 2)

/-- R73: the next values of PC, nPC and DS by the outcome of the instruction that completes. -/
def Obligations.OutcomesMovePcNpcDs : Prop :=
  ∀ (x : Thread) (target : Addr),
    let after (f : Flow) (pc npc : Addr) (ds : Bool) : Prop :=
      (x.advance f).pc = pc ∧ (x.advance f).npc = npc ∧ (x.advance f).ds = ds
        ∧ x.advance f = { x with pc := (x.advance f).pc, npc := (x.advance f).npc, ds := (x.advance f).ds }
    after .ordinary x.npc (x.npc + 4) false
      ∧ after .skip (x.npc + 4) (x.npc + 8) false
      ∧ after (.taken target) x.npc target true
      ∧ after (.notTaken false) x.npc (x.npc + 4) true
      ∧ after (.notTaken true) (x.npc + 4) (x.npc + 8) false

/-- R48, R59, R68, R70, R71: what the raw integer instructions, LI, INSH, NOP and FENCE write, with the frame: no other
register, flag, special register or thread changes, and no byte of memory. A write to g0 is discarded (`Thread.setGr`). -/
def Obligations.IntegerInstructionsWriteRd : Prop :=
  ∀ (s : State) (t : Fin 576) (rd rs1 rs2 : BitVec 6) (imm : BitVec 16),
    let x := s.thread t.val
    let writes (i : Instr) (v : Reg) : Prop :=
      s.ready t i = true → ∃ u, exec i s = .next u ∧ After s (s.fetched t) t ((x.setGr rd v).advance .ordinary) u
    let a := x.gr rs1
    let b := x.gr rs2
    let low36 (r : Reg) : BitVec 36 := r.setWidth 36
    (∀ op, writes (.alu72 t rd rs1 rs2 op) (aluOp op a b (low64 b).toNat))
      ∧ (∀ op, writes (.alu36 t rd rs1 rs2 op) ((aluOp op (low36 a) (low36 b) (low64 b).toNat).signExtend 72))
      ∧ writes (.addi t rd rs1 imm) (a + imm.signExtend 72)
      ∧ writes (.addi36 t rd rs1 imm) ((low36 a + imm.signExtend 36).signExtend 72)
      ∧ writes (.andi t rd rs1 imm) (a &&& imm.setWidth 72)
      ∧ writes (.ori t rd rs1 imm) (a ||| imm.setWidth 72)
      ∧ writes (.xori t rd rs1 imm) (a ^^^ imm.setWidth 72)
      ∧ (∀ k (amt : BitVec 7), amt.toNat < 72 → writes (.shi t rd rs1 k false amt)
          (match k with | .sll => a <<< amt.toNat | .srl => a >>> amt.toNat | .sra => a.sshiftRight amt.toNat))
      ∧ (∀ k (amt : BitVec 7), amt.toNat < 36 → writes (.shi t rd rs1 k true amt)
          ((match k with
            | .sll => low36 a <<< amt.toNat
            | .srl => low36 a >>> amt.toNat
            | .sra => (low36 a).sshiftRight amt.toNat).signExtend 72))
      ∧ (∀ v : BitVec 22, writes (.li t rd v) (v.signExtend 72))
      ∧ (∀ (pos : BitVec 2) (v : BitVec 18), ∃ r : Reg, writes (.insh t rd pos v) r
          ∧ ∀ k, k < 72 → r.getLsbD k =
              if 18 * pos.toNat ≤ k ∧ k < 18 * pos.toNat + 18 then v.getLsbD (k - 18 * pos.toNat) else (x.gr rd).getLsbD k)
      ∧ (s.ready t (.nop t) = true → ∃ u, exec (.nop t) s = .next u ∧ After s (s.fetched t) t (x.advance .ordinary) u)
      ∧ (∀ k, s.ready t (.fence t k) = true →
          ∃ u, exec (.fence t k) s = .next u ∧ After s (s.fetched t) t (x.advance .ordinary) u)

/-- R48: the operations of the raw ALU at any width, with the corners of division and of shifts. -/
def Obligations.AluOperationsAreExact : Prop :=
  ∀ (w : Nat) (a b : BitVec w) (n : Nat), 0 < w →
    aluOp .add a b n = BitVec.ofInt w (a.toInt + b.toInt) ∧ aluOp .sub a b n = BitVec.ofInt w (a.toInt - b.toInt)
      ∧ aluOp .mul a b n = BitVec.ofInt w (a.toInt * b.toInt)
      ∧ (aluOp .mulh a b n).toInt = a.toInt * b.toInt / 2 ^ w
      ∧ (aluOp .mulhu a b n).toNat = a.toNat * b.toNat / 2 ^ w
      ∧ (aluOp .div a 0 n = BitVec.allOnes w ∧ aluOp .divu a 0 n = BitVec.allOnes w ∧ aluOp .rem a 0 n = a ∧ aluOp .remu a 0 n = a)
      ∧ (b ≠ 0 → aluOp .div a b n = BitVec.ofInt w (a.toInt.tdiv b.toInt) ∧ aluOp .rem a b n = BitVec.ofInt w (a.toInt.tmod b.toInt)
          ∧ (aluOp .divu a b n).toNat = a.toNat / b.toNat ∧ (aluOp .remu a b n).toNat = a.toNat % b.toNat)
      ∧ (w ≤ n → aluOp .sll a b n = 0 ∧ aluOp .srl a b n = 0 ∧ aluOp .sra a b n = if a.msb then BitVec.allOnes w else 0)
      ∧ (aluOp .min a b n).toInt = min a.toInt b.toInt ∧ (aluOp .max a b n).toInt = max a.toInt b.toInt
      ∧ (aluOp .minu a b n).toNat = min a.toNat b.toNat ∧ (aluOp .maxu a b n).toNat = max a.toNat b.toNat
      ∧ ∀ k, k < w → (aluOp .and a b n).getLsbD k = (a.getLsbD k && b.getLsbD k)
          ∧ (aluOp .or a b n).getLsbD k = (a.getLsbD k || b.getLsbD k)
          ∧ (aluOp .xor a b n).getLsbD k = (a.getLsbD k != b.getLsbD k)
          ∧ (aluOp .andn a b n).getLsbD k = (a.getLsbD k && !b.getLsbD k)
          ∧ (n < w → (aluOp .sll a b n).getLsbD k = (decide (n ≤ k) && a.getLsbD (k - n))
              ∧ (aluOp .srl a b n).getLsbD k = a.getLsbD (k + n)
              ∧ (aluOp .sra a b n).getLsbD k = if k + n < w then a.getLsbD (k + n) else a.msb)

/-- R74, R75, R77 to R81: skips and transfers, with links and targets. -/
def Obligations.SkipsAndTransfers : Prop :=
  ∀ (s : State) (t : Fin 576) (ra rb : BitVec 6) (a : Bool),
    let x := s.thread t.val
    let goes (i : Instr) (y : Thread) (f : Flow) : Prop :=
      s.ready t i = true → ∃ u, exec i s = .next u ∧ After s (s.fetched t) t (y.advance f) u
    let holds (c : Cond) (p q : Reg) : Prop :=
      match c with
      | .eq => p = q | .ne => p ≠ q
      | .lt => p.toInt < q.toInt | .ge => q.toInt ≤ p.toInt | .le => p.toInt ≤ q.toInt | .gt => q.toInt < p.toInt
      | .ltu => p.toNat < q.toNat | .geu => q.toNat ≤ p.toNat | .leu => p.toNat ≤ q.toNat | .gtu => q.toNat < p.toNat
      | .any => p &&& q ≠ 0 | .none => p &&& q = 0
    let imm18 (c : Cond) (v : BitVec 18) : Reg := if c = .any ∨ c = .none then v.setWidth 72 else v.signExtend 72
    let link : Reg := (x.pc + 8).setWidth 72
    (∀ c, (holds c (x.gr ra) (x.gr rb) → goes (.skipr t ra rb c) x .skip)
          ∧ (¬ holds c (x.gr ra) (x.gr rb) → goes (.skipr t ra rb c) x .ordinary))
      ∧ (∀ c (v : BitVec 18), (holds c (x.gr ra) (imm18 c v) → goes (.skipi t ra c v) x .skip)
          ∧ (¬ holds c (x.gr ra) (imm18 c v) → goes (.skipi t ra c v) x .ordinary))
      ∧ (∀ off : BitVec 27, goes (.br t a off) x (.taken (x.pc + off.signExtend 64 * 4))
          ∧ goes (.bl t a off) { x.setGr 63 link with ret := pushRet x.ret (x.pc + 8) } (.taken (x.pc + off.signExtend 64 * 4)))
      ∧ ((x.gr rb).extractLsb' 0 2 = (0 : BitVec 2) → ∃ ret,
          goes (.jr t a ra rb) { x.setGr ra link with ret } (.taken ((x.gr rb).extractLsb' 0 64)))
      ∧ ((x.gr rb).extractLsb' 0 2 ≠ (0 : BitVec 2) → s.ready t (.jr t a ra rb) = true →
          ∃ u, exec (.jr t a ra rb) s = .next u ∧ After s (s.fetched t) t
            (x.takeTrap 4 0 (((x.gr rb).extractLsb' 0 64 : Addr).setWidth 72) x.pc x.npc x.ds) u)
      ∧ (∀ off : BitVec 21, (x.gr ra ≠ 1 → goes (.dbnz t a ra off) (x.setGr ra (x.gr ra - 1)) (.taken (x.pc + off.signExtend 64 * 4)))
          ∧ (x.gr ra = 1 → goes (.dbnz t a ra off) (x.setGr ra 0) (.notTaken a)))

/-- R47, R49, R50: marked arithmetic, mark tests, MSET and MGET: the checks in order, the result, the skip or the
Mark-check trap. -/
def Obligations.MarkedArithmetic : Prop :=
  ∀ (s : State) (t : Fin 576) (rd rs1 rs2 : BitVec 6) (em : BitVec 8) (act w : Bool),
    let x := s.thread t.val
    let ends (i : Instr) (y : Thread) : Prop :=
      s.ready t i = true → ∃ u, exec i s = .next u ∧ After s (s.fetched t) t y u
    let mark (r : Reg) : BitVec 8 := if w then (r.extractLsb' 32 4 : BitVec 4).setWidth 8 else r.extractLsb' 64 8
    let value (r : Reg) : Int := if w then (r.extractLsb' 0 32 : BitVec 32).toInt else (r.extractLsb' 0 64 : BitVec 64).toInt
    let result (v : Int) (m : BitVec 8) : Reg :=
      if w then (m.setWidth 4 ++ BitVec.ofInt 32 v : BitVec 36).setWidth 72 else m ++ BitVec.ofInt 64 v
    let half : Int := if w then 2 ^ 31 else 2 ^ 63
    let fails (d m : BitVec 8) : Thread := if act then x.takeTrap 16 d (m.setWidth 72) x.pc x.npc x.ds else x.advance .skip
    let a := x.gr rs1
    let b := x.gr rs2
    let rule (i : Instr) (v : Int) : Prop :=
      (mark a ≠ em → ends i (fails 0 (mark a)))
        ∧ (mark a = em → mark b ≠ em → ends i (fails 1 (mark b)))
        ∧ (mark a = em → mark b = em → ¬ (-half ≤ v ∧ v < half) → ends i (fails 2 0))
        ∧ (mark a = em → mark b = em → -half ≤ v → v < half → ends i ((x.setGr rd (result v em)).advance .ordinary))
    let bits (f : ∀ n, BitVec n → BitVec n → BitVec n) : Int :=
      if w then (f 32 (a.extractLsb' 0 32) (b.extractLsb' 0 32)).toInt else (f 64 (a.extractLsb' 0 64) (b.extractLsb' 0 64)).toInt
    rule (.addM t rd rs1 rs2 em act w) (value a + value b)
      ∧ rule (.subM t rd rs1 rs2 em act w) (value a - value b)
      ∧ rule (.mulM t rd rs1 rs2 em act w) (value a * value b)
      ∧ rule (.andM t rd rs1 rs2 em act w) (bits fun _ p q => p &&& q)
      ∧ rule (.orM t rd rs1 rs2 em act w) (bits fun _ p q => p ||| q)
      ∧ rule (.xorM t rd rs1 rs2 em act w) (bits fun _ p q => p ^^^ q)
      ∧ (mark a ≠ em → ends (.mtest t rs1 em act w) (fails 0 (mark a)))
      ∧ (mark a = em → ends (.mtest t rs1 em act w) (x.advance .ordinary))
      ∧ ends (.mset t rd rs1 em w) ((x.setGr rd (result (a.extractLsb' 0 64 : BitVec 64).toInt em)).advance .ordinary)
      ∧ ends (.mget t rd rs1 w) ((x.setGr rd ((mark a).setWidth 72)).advance .ordinary)

/-- R2: a unit of w nonets and its image: the low eight bits of each nonet in order, then the ninth bits; writing a unit
changes exactly its nonets. -/
def Obligations.UnitImages : Prop :=
  ∀ (n : MUnit) (l : LineBits) (o : Nat) (x : Reg), o + unitNonets n ≤ 64 →
    let w := unitNonets n
    (∀ k, k < 72 → (unitAt w l o).getLsbD k =
        if k < 8 * w then (nonetAt l (o + k / 8)).getLsbD (k % 8) else if k < 9 * w then (nonetAt l (o + (k - 8 * w))).getLsbD 8 else false)
      ∧ (∀ k, k < 64 → nonetAt (setUnit w l o x) k = if o ≤ k ∧ k < o + w then nonetOf w x (k - o) else nonetAt l k)
      ∧ unitAt w (setUnit w l o x) o = BitVec.ofNat 72 (x.toNat % 2 ^ (9 * w))

/-- R61 to R64, R71: floating-point instructions write their result and its flags; FPFLAGS is only set, never cleared, and
nothing traps on a value. RM 7 is FPCTL.RM. -/
def Obligations.FloatingPointInstructions : Prop :=
  ∀ (s : State) (t : Fin 576) (rd rs1 rs2 : BitVec 6) (rm : Rm),
    let x := s.thread t.val
    let gives (i : Instr) (r : Reg × FFlags) : Prop :=
      s.ready t i = true → ∃ u, exec i s = .next u
        ∧ After s (s.fetched t) t ({ x.setGr rd r.1 with flags := x.flags ||| r.2 }.advance .ordinary) u
    let a := x.gr rs1
    let b := x.gr rs2
    let mode : Rm := if rm = .dyn then rmEff .dyn x.rm else rm
    (∀ op, gives (.fop64 t rd rs1 rs2 op rm) (fopReg false op mode a b))
      ∧ (∀ op, gives (.fop32 t rd rs1 rs2 op rm) (fopReg true op mode a b))
      ∧ (∀ op, gives (.fma64 t rd rs1 rs2 op rm) (fmaReg false op mode a b (x.gr rd)))
      ∧ (∀ op, gives (.fma32 t rd rs1 rs2 op rm) (fmaReg true op mode a b (x.gr rd)))
      ∧ (∀ op, gives (.fcvt t rd rs1 op rm) (fcvtOp op mode a))
      ∧ (∀ w sig rel, ∃ c f, gives (.fcmp t rd rs1 rs2 w sig rel) (if c then 1 else 0, f)
          ∧ ((c, f) : Bool × FFlags) = fcmpOp (fmtOf w) sig rel (fval w a) (fval w b))

/-- R61, R62, R63: marks, the width of a binary32 result and the canonical NaN. -/
def Obligations.FloatingResults : Prop :=
  ∀ (w : Bool) (rm : Rm) (a b c : Reg),
    let nan : Nat := if w then 0x7FC00000 else 0x7FF8000000000000
    let isNan (r : Reg) : Prop := ((fmtOf w).unpack (fval w r)).isNan = true
    (∀ op, markOf w (fopReg w op rm a b).1 = markOf w a) ∧ (∀ op, markOf w (fmaReg w op rm a b c).1 = markOf w a)
      ∧ (∀ op, w = true → (fopReg w op rm a b).1.toNat < 2 ^ 36) ∧ (∀ op, w = true → (fmaReg w op rm a b c).1.toNat < 2 ^ 36)
      ∧ (isNan a ∨ isNan b → (∀ op, op = .add ∨ op = .sub ∨ op = .mul ∨ op = .div → fval w (fopReg w op rm a b).1 = nan))
      ∧ (isNan a → fval w (fopReg w .sqrt rm a b).1 = nan)
      ∧ (isNan a ∨ isNan b ∨ isNan c → ∀ op, fval w (fmaReg w op rm a b c).1 = nan)
      ∧ (fcvtOp .d2s rm a).1.extractLsb' 32 4 = a.extractLsb' 64 4
      ∧ (fcvtOp .s2d rm a).1.extractLsb' 64 4 = a.extractLsb' 32 4 ∧ (fcvtOp .s2d rm a).1.extractLsb' 68 4 = (0 : BitVec 4)
      ∧ (((b64.unpack (fval false a)).isNan = true) → (fcvtOp .d2l rm a).1.extractLsb' 0 64 = (0 : BitVec 64)
          ∧ (fcvtOp .d2l rm a).2.getLsbD 4 = true)

/-- R43, R65, R71: vector instructions complete and write their vector register lane by lane; FPFLAGS gains the flags of every
lane and no others. -/
def Obligations.VectorInstructions : Prop :=
  ∀ (s : State) (t : Fin 576) (vd v1 v2 : BitVec 5) (g lane : BitVec 6) (e : VElt) (rm : Rm),
    let x := s.thread t.val
    let n (e : VElt) : Nat := match e with | .double => 8 | .word => 4 | .half => 2 | .nonet => 1
    let element (e : VElt) (l : LineBits) (j : Nat) : Reg := unitAt (n e) l (j * n e)
    let low (e : VElt) (r : Reg) : Reg := BitVec.ofNat 72 (r.toNat % 2 ^ (9 * n e))
    let wide (op : AluOp) (p q : Reg) : Reg :=
      match e with
      | .double => aluOp op p q 0
      | .word => (aluOp op (p.setWidth 36 : BitVec 36) (q.setWidth 36) 0).setWidth 72
      | .half => (aluOp op (p.setWidth 18 : BitVec 18) (q.setWidth 18) 0).setWidth 72
      | .nonet => (aluOp op (p.setWidth 9 : BitVec 9) (q.setWidth 9) 0).setWidth 72
    (∀ op, s.ready t (.vop t vd v1 v2 e op) = true → ∃ u r, exec (.vop t vd v1 v2 e op) s = .next u
          ∧ After s (s.fetched t) t ((x.setVr vd r).advance .ordinary) u
          ∧ ∀ j, j < e.lanes → element e r j = wide (vopAlu op) (element e (x.vr v1) j) (element e (x.vr v2) j))
      ∧ (∀ w op, s.ready t (.vfop t vd v1 v2 w op rm) = true → ∃ u r f, exec (.vfop t vd v1 v2 w op rm) s = .next u
          ∧ After s (s.fetched t) t ({ x.setVr vd r with flags := x.flags ||| f }.advance .ordinary) u
          ∧ (let k : VElt := if w then .word else .double
             let q (j : Nat) := fopReg w op (if rm = .dyn then rmEff .dyn x.rm else rm) (element k (x.vr v1) j) (element k (x.vr v2) j)
             (∀ j, j < (if w then 16 else 8) → element k r j = (q j).1)
               ∧ ∀ b, f.getLsbD b = true ↔ ∃ j, j < (if w then 16 else 8) ∧ (q j).2.getLsbD b = true))
      ∧ (s.ready t (.vmov t .broadcast vd g lane e) = true → ∃ u r, exec (.vmov t .broadcast vd g lane e) s = .next u
          ∧ After s (s.fetched t) t ((x.setVr vd r).advance .ordinary) u ∧ ∀ j, j < e.lanes → element e r j = low e (x.gr g))
      ∧ (s.ready t (.vmov t .insert vd g lane e) = true → ∃ u r, exec (.vmov t .insert vd g lane e) s = .next u
          ∧ After s (s.fetched t) t ((x.setVr vd r).advance .ordinary) u
          ∧ ∀ j, j < e.lanes → element e r j = if j = lane.toNat then low e (x.gr g) else element e (x.vr vd) j)
      ∧ (s.ready t (.vmov t .extract v1 g lane e) = true → ∃ u, exec (.vmov t .extract v1 g lane e) s = .next u
          ∧ After s (s.fetched t) t ((x.setGr g (element e (x.vr v1) lane.toNat)).advance .ordinary) u)

/-- R51, R53, R54, R56, R57, R65: a load whose address is aligned, translates and may be reached, and whose access answers
with its line, writes the unit to its register, filled as its kind says; nothing else changes beyond what the access did
to reach the line.
What the access itself does is the value of `touch` (log entry 6). -/
def Obligations.LoadsReadTheirUnit : Prop :=
  ∀ (s : State) (t : Fin 576) (rd rs1 rs2 : BitVec 6) (vd : BitVec 5) (imm : BitVec 16) (size : LdSize) (scale : BitVec 2)
    (em : BitVec 8) (act : Bool) (disp : BitVec 7),
    let x := s.thread t.val
    let base : Addr := (x.gr rs1).extractLsb' 0 64
    let disp1 : Addr := base + imm.signExtend 64
    let indexed : Addr := base + (((x.gr rs2).extractLsb' 0 64 : Addr) <<< scale.toNat)
    let bytes (z : LdSize) : Nat := match z with | .n | .ns => 1 | .h | .hs => 2 | .w | .ws => 4 | .d => 8
    let signed (z : LdSize) : Bool := match z with | .ns | .hs | .ws => true | .n | .h | .w | .d => false
    let unit (n : Nat) : MUnit5 := if n = 1 then .nonet else if n = 2 then .half else if n = 4 then .word else if n = 8 then .double else .line
    -- the access of instruction i to n nonets at ea answers with the line l; f is the state after it
    let reads (i : Instr) (ea : Addr) (n : Nat) (r : Reach) (l : LineBits) (f : State) : Prop :=
      s.ready t i = true ∧ ea.toNat % n = 0 ∧ ∃ f1 evs pa uc ev2, (s.fetched t).translate t.val .load ea = (f1, evs, .ok pa uc)
        ∧ f1.reaches r pa = true ∧ f1.touch t pa (unit n) uc .read = ⟨f, ev2, .ok l⟩
    let ends (i : Instr) (f : State) (y : Thread) : Prop := ∃ u, exec i s = .next u ∧ After s f t y u
    let filled (z : LdSize) (l : LineBits) (ea : Addr) : Reg :=
      let v := unitAt (bytes z) l (ea.toNat % 64)
      if signed z then (BitVec.ofNat (9 * bytes z) v.toNat).signExtend 72 else v
    let kinds : List (Instr × LdSize × Addr × Reach) :=
      [(.ln t rd rs1 imm, .n, disp1, .plain), (.lns t rd rs1 imm, .ns, disp1, .plain), (.lh t rd rs1 imm, .h, disp1, .plain),
       (.lhs t rd rs1 imm, .hs, disp1, .plain), (.lw t rd rs1 imm, .w, disp1, .word), (.lws t rd rs1 imm, .ws, disp1, .word),
       (.ld t rd rs1 imm, .d, disp1, .plain), (.lx t rd rs1 rs2 size scale, size, indexed, .plain)]
    let marked : List (Instr × Bool × Nat) := [(.lwm t rd rs1 em act disp, true, 4), (.ldm t rd rs1 em act disp, false, 8)]
    (∀ k ∈ kinds, ∀ l f, reads k.1 k.2.2.1 (bytes k.2.1) k.2.2.2 l f →
        ends k.1 f ((x.setGr rd (filled k.2.1 l k.2.2.1)).advance .ordinary))
      ∧ (∀ k ∈ marked, ∀ l f,
          let ea := base + disp.signExtend 64 * BitVec.ofNat 64 k.2.2
          let v := unitAt k.2.2 l (ea.toNat % 64)
          reads k.1 ea k.2.2 (if k.2.1 then .word else .plain) l f →
            (markOf k.2.1 v = em → ends k.1 f ((x.setGr rd v).advance .ordinary))
              ∧ (markOf k.2.1 v ≠ em → ends k.1 f (if act then x.takeTrap 16 3 ((markOf k.2.1 v).setWidth 72) x.pc x.npc x.ds
                  else x.advance .skip)))
      ∧ (∀ l f, reads (.vld t vd rs1 imm) (base + imm.signExtend 64 * 64) 64 .plain l f →
          ends (.vld t vd rs1 imm) f ((x.setVr vd l).advance .ordinary))

/-- R51, R53, R54, R56 to R58, R65: a store or AMO whose address is aligned, translates and may be reached. A marked store
checks its mark before the access and, on a mismatch, makes none.
What the access itself does is the value of `touch` (log entry 6). -/
def Obligations.StoresAndAmoWriteTheirUnit : Prop :=
  ∀ (s : State) (t : Fin 576) (rd rs1 rs2 : BitVec 6) (vs : BitVec 5) (imm : BitVec 16) (size : MUnit) (scale : BitVec 2)
    (em : BitVec 8) (act : Bool) (disp : BitVec 7) (op : AmoOp) (word : Bool),
    let x := s.thread t.val
    let base : Addr := (x.gr rs1).extractLsb' 0 64
    let disp1 : Addr := base + imm.signExtend 64
    let indexed : Addr := base + (((x.gr rs2).extractLsb' 0 64 : Addr) <<< scale.toNat)
    let unit (n : Nat) : MUnit5 := if n = 1 then .nonet else if n = 2 then .half else if n = 4 then .word else if n = 8 then .double else .line
    let reached (i : Instr) (ea : Addr) (n : Nat) (r : Reach) (f1 : State) (pa : Nat) (uc : Bool) : Prop :=
      s.ready t i = true ∧ ea.toNat % n = 0
        ∧ (∃ evs, (s.fetched t).translate t.val .store ea = (f1, evs, .ok pa uc)) ∧ f1.reaches r pa = true
    -- the write is of the unit's nonets at their places in a line
    let writes (i : Instr) (ea : Addr) (n : Nat) (r : Reach) (m : MemOp) (l : LineBits) (f : State) : Prop :=
      ∃ f1 pa uc ev2, reached i ea n r f1 pa uc ∧ f1.touch t pa (unit n) uc m = ⟨f, ev2, .ok l⟩
    let image (n : Nat) (ea : Addr) (v : Reg) : MemOp := .write (setUnit n 0 (ea.toNat % 64) v)
    let ends (i : Instr) (f : State) (y : Thread) : Prop := ∃ u, exec i s = .next u ∧ After s f t y u
    let kinds : List (Instr × Nat × Addr × Reach) :=
      [(.sn t rd rs1 imm, 1, disp1, .plain), (.sh t rd rs1 imm, 2, disp1, .plain), (.sw t rd rs1 imm, 4, disp1, .word),
       (.sd t rd rs1 imm, 8, disp1, .plain), (.sx t rd rs1 rs2 size scale, unitNonets size, indexed, .plain)]
    let marked : List (Instr × Bool × Nat) := [(.swm t rd rs1 em act disp, true, 4), (.sdm t rd rs1 em act disp, false, 8)]
    (∀ k ∈ kinds, ∀ l f, writes k.1 k.2.2.1 k.2.1 k.2.2.2 (image k.2.1 k.2.2.1 (x.gr rd)) l f → ends k.1 f (x.advance .ordinary))
      ∧ (∀ k ∈ marked,
          let ea := base + disp.signExtend 64 * BitVec.ofNat 64 k.2.2
          let m := markOf k.2.1 (x.gr rd)
          let r : Reach := if k.2.1 then .word else .plain
          (m = em → ∀ l f, writes k.1 ea k.2.2 r (image k.2.2 ea (x.gr rd)) l f → ends k.1 f (x.advance .ordinary))
            ∧ (m ≠ em → ∀ f1 pa uc, reached k.1 ea k.2.2 r f1 pa uc →
                ends k.1 f1 (if act then x.takeTrap 16 4 (m.setWidth 72) x.pc x.npc x.ds else x.advance .skip)))
      ∧ (∀ l f, writes (.vst t vs rs1 imm) (base + imm.signExtend 64 * 64) 64 .plain (.write (x.vr vs)) l f →
          ends (.vst t vs rs1 imm) f (x.advance .ordinary))
      ∧ (let n := if word then 4 else 8
         ∀ l f, writes (.amo t rd rs1 rs2 op word) base n .amo (.amo op word (x.gr rs2) (x.gr rd)) l f →
          ends (.amo t rd rs1 rs2 op word) f ((x.setGr rd (unitAt n l (base.toNat % 64))).advance .ordinary))

/-- R52, R53, R54, R92, R106: where a memory instruction traps before its access: a misaligned address, then translation,
then a unit that the instruction may not reach. -/
def Obligations.MemoryChecksComeInOrder : Prop :=
  ∀ (s : State) (t : Fin 576) (rd rs1 : BitVec 6) (imm : BitVec 16),
    let x := s.thread t.val
    let ea : Addr := (x.gr rs1).extractLsb' 0 64 + imm.signExtend 64
    let traps (i : Instr) (f : State) (c d : BitVec 8) (v : Reg) : Prop :=
      ∃ u, exec i s = .next u ∧ After s f t (x.takeTrap c d v x.pc x.npc x.ds) u
    let kinds : List (Instr × TKind × Nat × Reach) :=
      [(.ln t rd rs1 imm, .load, 1, .plain), (.lns t rd rs1 imm, .load, 1, .plain), (.lh t rd rs1 imm, .load, 2, .plain),
       (.lhs t rd rs1 imm, .load, 2, .plain), (.lw t rd rs1 imm, .load, 4, .word), (.lws t rd rs1 imm, .load, 4, .word),
       (.ld t rd rs1 imm, .load, 8, .plain), (.sn t rd rs1 imm, .store, 1, .plain), (.sh t rd rs1 imm, .store, 2, .plain),
       (.sw t rd rs1 imm, .store, 4, .word), (.sd t rd rs1 imm, .store, 8, .plain)]
    ∀ k ∈ kinds, s.ready t k.1 = true →
      (ea.toNat % k.2.2.1 ≠ 0 → traps k.1 (s.fetched t) 3 0 (ea.setWidth 72))
        ∧ (ea.toNat % k.2.2.1 = 0 → ∀ f evs c d v, (s.fetched t).translate t.val k.2.1 ea = (f, evs, .trap c d v) → traps k.1 f c d v)
        ∧ (ea.toNat % k.2.2.1 = 0 → ∀ f evs pa uc, (s.fetched t).translate t.val k.2.1 ea = (f, evs, .ok pa uc) →
            paClass pa = .control → k.2.2.2 = .plain → traps k.1 f 3 1 (ea.setWidth 72))

/-- R107, R110: with EN = 0 an effective address below 2^52 is the physical address, and any other raises the page cause
with DETAIL 0; with EN = 1 bits 63:57 must be equal. Nothing is accessed in either case. -/
def Obligations.TranslationWithoutATable : Prop :=
  ∀ (s : State) (t : Nat) (k : TKind) (ea : Addr),
    let x := s.thread t
    let root := if x.priv = 2 then x.cur.hxroot else x.cur.sxroot
    let page : BitVec 8 := match k with | .fetch => 8 | .load => 9 | .store => 10
    (root.getLsbD 0 = false → ea.toNat < 2 ^ 52 → s.translate t k ea = (s, [], .ok ea.toNat false))
      ∧ (root.getLsbD 0 = false → 2 ^ 52 ≤ ea.toNat → s.translate t k ea = (s, [], .trap page 0 (ea.setWidth 72)))
      ∧ (root.getLsbD 0 = true → (2 ^ 57 ≤ ea.toNat ∧ ea.toNat < 2 ^ 64 - 2 ^ 57) →
          s.translate t k ea = (s, [], .trap page 0 (ea.setWidth 72)))

/-- R53, R55 to R58, R185: an access to a line of local DRAM that the thread's Isle holds in M or E, through its caches, reads
the line as it is held, and one that hits in the L1 ends at once. It changes exactly the nonets of its unit, and only a store or
an AMO does; no other nonet of memory changes, wherever it is held: in a line of an Isle, in DRAM or in a Cistern. A fetch from
such a line changes none. No array of the Isle holds an SRAM error (R142, R143). That an access is one whole step is log
entry 6. -/
def Obligations.HeldLinesAreReadAndWritten : Prop :=
  ∀ (s : State) (t : Fin 576) (pa : Nat) (sz : MUnit5),
    let i := t.val / 48
    let n := pa / 64
    let w := unit5Nonets sz
    let o := pa % 64
    let a := (s.isle i).line n
    let l := a.val.bits
    let c := s.core (t.val / 2)
    -- every nonet but those of line n at Isle i reads as in s; that line holds l'
    let holds (f : State) (l' : LineBits) : Prop := ((f.isle i).line n).val = { a.val with bits := l' }
      ∧ (∀ j k, j ≠ i ∨ k ≠ n → ((f.isle j).line k).val = ((s.isle j).line k).val)
      ∧ (∀ j, (f.isle j).cis = (s.isle j).cis) ∧ f.mem = s.mem ∧ f.home = s.home ∧ f.threads = s.threads
    let amoWord (op : AmoOp) (wd : Nat) (old src cmp : BitVec wd) : BitVec wd :=
      match op with
      | .swap => src
      | .cas => if old = cmp then src else old
      | .add => old + src | .and => old &&& src | .or => old ||| src | .xor => old ^^^ src
      | .min => if old.toInt ≤ src.toInt then old else src | .max => if src.toInt ≤ old.toInt then old else src
      | .minu => if old.toNat ≤ src.toNat then old else src | .maxu => if src.toNat ≤ old.toNat then old else src
    paClass pa = .dram → s.coherent (BitVec.ofNat 46 n) = true → s.icOn i = true →
      (s.thread t).vault = true ∨ inVault (s.isle i).regions pa = false → a.st = .m ∨ a.st = .e → a.val.poison = false →
      s.isleClean i → s.l2On i (t.val / 2 % 24) = true → s.staleAt (s.acr t) n = none → pa % w = 0 →
      -- a hit in the L1 ends; whatever ends has read the line as it was, and leaves l' in the state st
      let ends (m : MemOp) (l' : LineBits) (st : AState) : Prop :=
        (l1Has c.l1d n = true → ∃ f evs, s.touch t pa sz false m = ⟨f, evs, .ok l⟩)
          ∧ ∀ f evs r, s.touch t pa sz false m = ⟨f, evs, .ok r⟩ → r = l ∧ holds f l' ∧ ((f.isle i).line n).st = st
      ends .read l a.st
        ∧ (∀ d, ∃ l', ends (.write d) l' .m ∧ ∀ k, k < 64 → nonetAt l' k = if o ≤ k ∧ k < o + w then nonetAt d k else nonetAt l k)
        ∧ (∀ op word src cmp, sz = (if word then .word else .double) → ∃ l', ends (.amo op word src cmp) l' .m
              ∧ (∀ k, k < 64 → ¬ (o ≤ k ∧ k < o + w) → nonetAt l' k = nonetAt l k)
              ∧ unitAt w l' o = if word then (amoWord op 36 ((unitAt w l o).setWidth 36) (src.setWidth 36) (cmp.setWidth 36)).setWidth 72
                  else amoWord op 72 (unitAt w l o) src cmp)
        ∧ ((s.thread t).pc.toNat = pa → ((s.thread t).cur.sxroot.getLsbD 0 = false ∧ (s.thread t).cur.hxroot.getLsbD 0 = false) → sz = .word →
            c.wrong = 0 → (l1Has c.l1i n = true → ∃ f evs, s.fetch t = (f, evs, .ok pa false))
              ∧ ∀ f evs, s.fetch t = (f, evs, .ok pa false) → holds f l ∧ ((f.isle i).line n).st = a.st)

/-- R89: what taking a trap saves and where it goes. The causes are those of R92, CROUTE and IROUTE are the bits of TROUTE
(R87), and every field that is not named stays. -/
def Obligations.TrapEntry : Prop :=
  ∀ (x : Thread) (c d : BitVec 8) (v : Reg) (pc npc : Addr) (ds : Bool),
    let l : BitVec 2 := if x.priv = 2 ∨ c = 18 ∨ x.cur.troute.getLsbD c.toNat = true then 2 else 1
    let y := x.takeTrap c d v pc npc ds
    let b := x.cur.bank l
    let b' := y.cur.bank l
    b'.cause = BitVec.ofNat 72 ((if ds then 2 ^ 23 else 0) + (if 32 ≤ c.toNat then 2 ^ 22 else 0) + 256 * d.toNat + c.toNat)
      ∧ b'.pc = pc.setWidth 72 ∧ b'.npc = npc.setWidth 72 ∧ b'.val = v
      ∧ b'.stat = BitVec.ofNat 72 (4 * x.priv.toNat + if b.stat.getLsbD 0 then 2 else 0)
      ∧ b'.vec = b.vec ∧ b'.scr = b.scr ∧ b'.iena = b.iena
      ∧ y.cur = x.cur.setBank l b' ∧ y.wreg (!x.vault) = x.wreg (!x.vault)
      ∧ y.priv = l ∧ y.pc = b.vec.extractLsb' 0 64 ∧ y.npc = b.vec.extractLsb' 0 64 + 4 ∧ y.ds = false
      ∧ y = { x with wc := y.wc, wv := y.wv, priv := y.priv, pc := y.pc, npc := y.npc, ds := y.ds, sb := [] }

/-- R88, R91, R92: SYSCALL and HVCALL complete by entering the trap that names what follows them; HVCALL at user level and
every other word that is illegal where it stands trap at themselves. -/
def Obligations.CallsAndIllegalWords : Prop :=
  ∀ (s : State) (t : Fin 576) (w : W36),
    let x := s.thread t.val
    let ends (i : Instr) (y : Thread) : Prop := ∃ u, exec i s = .next u ∧ After s (s.fetched t) t y u
    (s.ready t (.syscall t) = true → ends (.syscall t) (x.takeTrap 17 0 0 x.npc (x.npc + 4) false))
      ∧ (s.ready t (.hvcall t) = true → x.priv ≠ 0 → ends (.hvcall t) (x.takeTrap 18 0 0 x.npc (x.npc + 4) false))
      ∧ (s.ready t (.hvcall t) = true → x.priv = 0 →
          ends (.hvcall t) (x.takeTrap 2 1 (BitVec.ofNat 72 (5 * 2 ^ 28 + 1)) x.pc x.npc x.ds))
      ∧ (s.threadFit t.val = true → s.issues t.val = true → s.pickInt t.val = none → (s.fetch t.val).2.2.isOk = true →
          ∀ d, illegalDetail w x.ds = some d → ends (.illegalInstruction t w) (x.takeTrap 1 d (w.setWidth 72) x.pc x.npc x.ds))

/-- R90: TRET takes PC, nPC and DS from xPC, xNPC and xCAUSE.DSLOT of the current level's bank, then the level from xSTAT.PPRIV,
and puts xSTAT.PIE into xSTAT.IE; at user level it traps. -/
def Obligations.TretReturns : Prop :=
  ∀ (s : State) (t : Fin 576), s.ready t (.tret t) = true →
    let x := s.thread t.val
    let b := x.cur.bank x.priv
    let ends (y : Thread) : Prop := ∃ u, exec (.tret t) s = .next u ∧ After s (s.fetched t) t y u
    (x.priv ≠ 0 → ∃ stat : Reg,
        ends { x.setCur (x.cur.setBank x.priv { b with stat }) with
          pc := b.pc.extractLsb' 0 64, npc := b.npc.extractLsb' 0 64, ds := b.cause.getLsbD 23, priv := b.stat.extractLsb' 2 2 }
        ∧ ∀ k, stat.getLsbD k = if k = 0 then b.stat.getLsbD 1 else b.stat.getLsbD k)
      ∧ (x.priv = 0 → ends (x.takeTrap 2 1 (BitVec.ofNat 72 (5 * 2 ^ 28 + 2)) x.pc x.npc x.ds))

/-- R69, R83, R88, R93, R94, R102: what comes before an instruction's own part: a thread that does not issue does nothing, a
deliverable interrupt is taken first, then a fetch that traps, then an illegal word; the instruction does nothing else. -/
def Obligations.ChecksBeforeAnInstruction : Prop :=
  ∀ (s : State) (t : Fin 576) (i : Instr) (w : W36), instrThread i = some t → encodeWord i = some w →
    (∀ t' w', i ≠ .illegalInstruction t' w') → s.threadFit t.val = true →
    let x := s.thread t.val
    (s.issues t.val = false → exec i s = .next s)
      ∧ (s.issues t.val = true →
          (∀ k l, s.pickInt t.val = some (k, l) → ∃ u, exec i s = .next u
              ∧ u = s.setThread t.val (u.thread t.val) ∧ (u.thread t.val).pc = ((x.cur.bank l).vec.extractLsb' 0 64)
              ∧ (u.thread t.val).priv = l ∧ ((u.thread t.val).cur.bank l).pc = x.pc.setWidth 72
              ∧ ((u.thread t.val).cur.bank l).npc = x.npc.setWidth 72)
            ∧ (s.pickInt t.val = none →
                (∀ f evs c d v, s.fetch t.val = (f, evs, .trap c d v) →
                    ∃ u, exec i s = .next u ∧ After s f t (x.takeTrap c d v x.pc x.npc x.ds) u)
                  ∧ ((s.fetch t.val).2.2.isOk = true → ∀ d, illegalDetail w x.ds = some d →
                      ∃ u, exec i s = .next u ∧ After s (s.fetched t) t (x.takeTrap 1 d (w.setWidth 72) x.pc x.npc x.ds) u)))

/-- R83: the words that are illegal in a delay slot, with DETAIL 3, are those of transfers, skips, VCALL, VRET, SYSCALL,
HVCALL, TRET and marked instructions with ACT = 0. -/
def Obligations.SlotPlacement : Prop :=
  ∀ (i : Instr) (w : W36), wellFormed i = true → (∀ t v, i ≠ .illegalInstruction t v) → encodeWord i = some w →
    illegalDetail w false = none
      ∧ illegalDetail w true = (match i with
        | .br .. | .bl .. | .jr .. | .dbnz .. | .skipr .. | .skipi .. | .vcall _ | .vret _ | .syscall _ | .hvcall _ | .tret _
        | .addM _ _ _ _ _ false _ | .subM _ _ _ _ _ false _ | .mulM _ _ _ _ _ false _ | .andM _ _ _ _ _ false _
        | .orM _ _ _ _ _ false _ | .xorM _ _ _ _ _ false _ | .mtest _ _ _ false _ | .lwm _ _ _ _ false _ | .ldm _ _ _ _ false _
        | .swm _ _ _ _ false _ | .sdm _ _ _ _ false _ => some 3
        | _ => none)

/-- R98 to R100: VCALL and VRET, with their traps. -/
def Obligations.WorldTransitions : Prop :=
  ∀ (s : State) (t : Fin 576),
    let x := s.thread t.val
    let ends (i : Instr) (y : Thread) : Prop := ∃ u, exec i s = .next u ∧ After s (s.fetched t) t y u
    let traps (i : Instr) (c d : BitVec 8) (v : Nat) : Prop := ends i (x.takeTrap c d (BitVec.ofNat 72 v) x.pc x.npc x.ds)
    (s.ready t (.vcall t) = true →
        (x.priv = 0 → traps (.vcall t) 2 1 (6 * 2 ^ 28))
          ∧ (x.priv ≠ 0 → x.vault = true → traps (.vcall t) 19 0 0)
          ∧ (x.priv ≠ 0 → x.vault = false → x.ventry.getLsbD 0 = false → traps (.vcall t) 19 1 0)
          ∧ (x.priv ≠ 0 → x.vault = false → x.ventry.getLsbD 0 = true →
              let a : Addr := BitVec.ofNat 64 (x.ventry.toNat / 64 * 64)
              ends (.vcall t) { x with
                vrpc := (x.pc + 4).setWidth 72
                vrsave := BitVec.ofNat 72 (2 ^ 20 * x.priv.toNat + 2 ^ 8 * x.ctx.toNat + 2 ^ 5 * x.rm.toNat + x.flags.toNat)
                vault := true, priv := 2, ret := [], pc := a, npc := a + 4, ds := false }))
      ∧ (s.ready t (.vret t) = true →
        (x.priv = 0 → traps (.vret t) 2 1 (7 * 2 ^ 28))
          ∧ (x.priv ≠ 0 → x.vault = false → traps (.vret t) 19 2 0)
          ∧ (x.priv ≠ 0 → x.vault = true → ∃ y,
              ends (.vret t) y
                ∧ (∀ r, y.gr r = if r.toNat < 5 then x.gr r else 0) ∧ (∀ r, y.vr r = 0)
                ∧ y = { x with
                    g := y.g, v := y.v, priv := x.vrsave.extractLsb' 20 2, ctx := x.vrsave.extractLsb' 8 12
                    rm := x.vrsave.extractLsb' 5 3, flags := x.vrsave.extractLsb' 0 5, vault := false, ret := []
                    pc := x.vrpc.extractLsb' 0 64, npc := x.vrpc.extractLsb' 0 64 + 4, ds := false }))

/-- R97, R326, R346: WAIT and LAUNCH complete at once or hold the thread; WAIT_COMPLETE and LAUNCH_FIRE complete what a thread
waits in. -/
def Obligations.WaitAndLaunch : Prop :=
  ∀ (s : State) (t : Fin 576) (rd rs1 : BitVec 6),
    let x := s.thread t.val
    let f := s.fetched t
    let ends (i : Instr) (f : State) (y : Thread) : Prop := ∃ u, exec i s = .next u ∧ After s f t y u
    -- a pending class whose ENA bit is set in the bank of the level that it targets
    let met (s : State) : Prop := ∃ k, k < 8 ∧ (s.ipend t.val x.vault).getLsbD k = true
      ∧ (if x.cur.troute.getLsbD (32 + k) then x.cur.h.iena else x.cur.s.iena).getLsbD k = true
    let idle : Prop := x.cur.s.iena = 0 ∧ x.cur.h.iena = 0
    (s.ready t (.wait t) = true → (idle ∨ met f → ends (.wait t) f (x.advance .ordinary))
        ∧ (¬ (idle ∨ met f) → ends (.wait t) f { x with mode := .waiting }))
      ∧ (s.threadFit t.val = true → x.mode = .waiting → met s → s.awake t.val = true →
          ends (.waitComplete t) (s.modCore (t.val / 2) fun c => if c.st = .slack then { c with st := .run, slackReq := false } else c)
            ({ x with mode := .running }.advance .ordinary))
      ∧ (s.ready t (.launch t rd rs1) = true →
          let n := t.val / 48
          let now := f.copyNow n
          let r := x.gr rs1
          let far : Int := (r.extractLsb' 0 64 : BitVec 64).toNat - (now.extractLsb' 0 64 : BitVec 64).toNat
          let other : Prop := r.extractLsb' 64 8 ≠ (now.extractLsb' 64 8 : BitVec 8)
          ((f.isle n).lhDrift = true → ends (.launch t rd rs1) f ((x.setGr rd 4).advance .ordinary))
            ∧ ((f.isle n).lhDrift = false → other → ends (.launch t rd rs1) f ((x.setGr rd 3).advance .ordinary))
            ∧ ((f.isle n).lhDrift = false → ¬ other → far < 1 → ends (.launch t rd rs1) f ((x.setGr rd 1).advance .ordinary))
            ∧ ((f.isle n).lhDrift = false → ¬ other → 2 ^ 32 < far → ends (.launch t rd rs1) f ((x.setGr rd 2).advance .ordinary))
            ∧ ((f.isle n).lhDrift = false → ¬ other → 1 ≤ far → far ≤ 2 ^ 32 →
                ends (.launch t rd rs1) f { x with mode := .launch r rd }))
      ∧ (∀ r, s.threadFit t.val = true → x.mode = .launch r rd →
          -- the copy is within 2 ns of the reading
          (let now := s.copyNow (t.val / 48)
           let a := (now.extractLsb' 0 64 : BitVec 64).toNat
           let b := (r.extractLsb' 0 64 : BitVec 64).toNat
           (now.extractLsb' 64 8 : BitVec 8) = r.extractLsb' 64 8 ∧ b ≤ a + 8 ∧ a ≤ b + 8) →
          ends (.launchFire t) s (({ x with mode := .running }.setGr rd 0).advance .ordinary))

/-- R94 to R97, R327: an interrupt is taken before the next instruction of a running thread; a thread in WAIT completes it
first, and a thread in LAUNCH ends with status 5.
Log entry 50 for the threads that wait. -/
def Obligations.InterruptIsTaken : Prop :=
  ∀ (s : State) (t : Fin 576) (k : Nat) (l : BitVec 2), s.threadFit t.val = true → s.pickInt t.val = some (k, l) →
    s.awake t.val = true →
    let x := s.thread t.val
    -- thread y takes class k at level l, at its own PC
    let taken (y : Thread) (u : State) : Prop := ∃ u', exec (.interrupt t) s = .next u' ∧ u' = u.setThread t.val (u'.thread t.val)
      ∧ (u'.thread t.val).priv = l ∧ (u'.thread t.val).ds = false
      ∧ (u'.thread t.val).pc = (y.cur.bank l).vec.extractLsb' 0 64
      ∧ ((u'.thread t.val).cur.bank l).pc = y.pc.setWidth 72 ∧ ((u'.thread t.val).cur.bank l).npc = y.npc.setWidth 72
      ∧ ((u'.thread t.val).cur.bank l).cause = BitVec.ofNat 72 ((if y.ds then 2 ^ 23 else 0) + 2 ^ 22 + (32 + k))
    (x.mode = .running → s.issues t.val = true → taken x s)
      ∧ (x.mode = .waiting → ∃ u, After s (s.modCore (t.val / 2) fun c => if c.st = .slack then { c with st := .run, slackReq := false } else c)
            t ({ x with mode := .running }.advance .ordinary) u ∧ taken ({ x with mode := .running }.advance .ordinary) u)
      ∧ (∀ r rd, x.mode = .launch r rd → ∃ u, After s s t (({ x with mode := .running }.setGr rd 5).advance .ordinary) u
            ∧ taken (({ x with mode := .running }.setGr rd 5).advance .ordinary) u)

/-- R42 to R46, R86, R87, R107, R325: CRR: what plain control registers read, and when a read traps. -/
def Obligations.ControlRegisterReads : Prop :=
  ∀ (s : State) (t : Fin 576) (rd : BitVec 6) (num : BitVec 10), s.ready t (.crr t rd num) = true →
    let x := s.thread t.val
    let n := num.toNat
    let f := s.fetched t
    let ends (f : State) (y : Thread) : Prop := ∃ u, exec (.crr t rd num) s = .next u ∧ After s f t y u
    let reads (v : Reg) : Prop := ends f ((x.setGr rd v).advance .ordinary)
    let word : Reg := BitVec.ofNat 72 (3 * 2 ^ 28 + rd.toNat * 2 ^ 22 + n)
    let plain : List (Nat × BitVec 2 × Reg) :=
      [(0o0000, 0, BitVec.ofNat 72 t.val), (0o0001, 1, x.ctx.setWidth 72), (0o0002, 0, x.priv.setWidth 72),
       (0o0003, 0, if x.vault then 1 else 0), (0o0004, 0, x.rm.setWidth 72), (0o0005, 0, x.flags.setWidth 72),
       (0o0010, 1, x.cur.s.cause), (0o0011, 1, x.cur.s.pc), (0o0012, 1, x.cur.s.npc), (0o0013, 1, x.cur.s.val),
       (0o0014, 1, x.cur.s.stat), (0o0015, 1, x.cur.s.vec), (0o0016, 1, x.cur.s.scr), (0o0017, 1, x.cur.s.iena),
       (0o0020, 2, x.cur.h.cause), (0o0021, 2, x.cur.h.pc), (0o0022, 2, x.cur.h.npc), (0o0023, 2, x.cur.h.val),
       (0o0024, 2, x.cur.h.stat), (0o0025, 2, x.cur.h.vec), (0o0026, 2, x.cur.h.scr), (0o0027, 2, x.cur.h.iena),
       (0o0030, 2, x.cur.troute), (0o0031, 1, (f.ipend t.val x.vault).setWidth 72), (0o0100, 1, x.cur.sxroot), (0o0101, 2, x.cur.hxroot), (0o0102, 1, 0),
       (0o0230, 1, x.cur.sndperm), (0o0231, 1, x.cur.sndovf), (0o0300, 0, f.copyShown (t.val / 48)),
       (0o0302, 1, x.cur.alarm), (0o0303, 1, x.cur.alctl)]
    (∀ k ∈ plain, n = k.1 → (k.2.1.toNat ≤ x.priv.toNat → reads k.2.2)
        ∧ (x.priv.toNat < k.2.1.toNat → ends f (x.takeTrap 2 (k.2.1.setWidth 8) word x.pc x.npc x.ds)))
      ∧ (∀ k ∈ [(0o0040, (2 : BitVec 2), x.ventry), (0o0041, 1, x.vrpc), (0o0042, 1, x.vrsave)], n = k.1 →
          (x.vault = true → k.2.1.toNat ≤ x.priv.toNat → reads k.2.2)
            ∧ (x.vault = false → ends f (x.takeTrap 1 4 word x.pc x.npc x.ds)))
      -- every number that has no register
      ∧ ((6 ≤ n ∧ n < 0o0010 ∨ 0o0031 < n ∧ n < 0o0040 ∨ 0o0042 < n ∧ n < 0o0100 ∨ 0o0102 < n ∧ n < 0o0110 ∨ 0o0110 < n ∧ n < 0o0120
            ∨ 0o0120 < n ∧ n < 0o0200 ∨ 0o0205 < n ∧ n < 0o0210 ∨ 0o0215 < n ∧ n < 0o0220 ∨ 0o0222 < n ∧ n < 0o0230
            ∨ 0o0231 < n ∧ n < 0o0300 ∨ 0o0303 < n) → ends f (x.takeTrap 1 4 word x.pc x.npc x.ds))
      -- the counters and the registers of the core and the copy, as the model reads them
      ∧ (∀ i, crFor x n = some i → i.rd.toNat ≤ x.priv.toNat ∨ x.mayCount n = true →
          ends (f.crGet t n).1 ((x.setGr rd (f.crGet t n).2).advance .ordinary))

/-- R44 to R46, R86, R87, R107, R120, R130, R325, R355: CRW: what a permitted write of a legal value changes, and in which order it traps:
a register that no CRW writes or a reserved bit, then the level. CRW_CTXID is the CRW of CTXID, FSTEP_WRITE
that of FSTEP, which asks for a step. -/
def Obligations.ControlRegisterWrites : Prop :=
  ∀ (s : State) (t : Fin 576) (rs1 : BitVec 6) (num : BitVec 10),
    let x := s.thread t.val
    let n := num.toNat
    let v := x.gr rs1
    let w := x.cur
    let ends (i : Instr) (y : Thread) : Prop := ∃ u, exec i s = .next u ∧ After s (s.fetched t) t y u
    let word (n : Nat) : Reg := BitVec.ofNat 72 (4 * 2 ^ 28 + rs1.toNat * 2 ^ 16 + n)
    let plain : List (Nat × BitVec 2 × Thread) :=
      [(0o0001, 2, { x with ctx := v.setWidth 12, ret := [] }), (0o0004, 0, { x with rm := v.setWidth 3 }),
       (0o0005, 0, { x with flags := v.setWidth 5 }),
       (0o0010, 1, x.setCur { w with s := { w.s with cause := v } }), (0o0011, 1, x.setCur { w with s := { w.s with pc := v } }),
       (0o0012, 1, x.setCur { w with s := { w.s with npc := v } }), (0o0013, 1, x.setCur { w with s := { w.s with val := v } }),
       (0o0014, 1, x.setCur { w with s := { w.s with stat := v } }), (0o0015, 1, x.setCur { w with s := { w.s with vec := v } }),
       (0o0016, 1, x.setCur { w with s := { w.s with scr := v } }), (0o0017, 1, x.setCur { w with s := { w.s with iena := v } }),
       (0o0020, 2, x.setCur { w with h := { w.h with cause := v } }), (0o0021, 2, x.setCur { w with h := { w.h with pc := v } }),
       (0o0022, 2, x.setCur { w with h := { w.h with npc := v } }), (0o0023, 2, x.setCur { w with h := { w.h with val := v } }),
       (0o0024, 2, x.setCur { w with h := { w.h with stat := v } }), (0o0025, 2, x.setCur { w with h := { w.h with vec := v } }),
       (0o0026, 2, x.setCur { w with h := { w.h with scr := v } }), (0o0027, 2, x.setCur { w with h := { w.h with iena := v } }),
       (0o0030, 2, x.setCur { w with troute := v ||| 0x40000 }), (0o0100, 1, x.setCur { w with sxroot := v }),
       (0o0101, 2, x.setCur { w with hxroot := v }), (0o0230, 1, x.setCur { w with sndperm := v }),
       (0o0302, 1, x.setCur { w with alarm := v }), (0o0303, 1, x.setCur { w with alctl := v })]
    (s.ready t (.crw t rs1 num) = true →
        (∀ k ∈ plain, n = k.1 →
          (crBad n x.priv v = true → ends (.crw t rs1 num) (x.takeTrap 1 5 (word n) x.pc x.npc x.ds))
            ∧ (crBad n x.priv v = false → x.priv.toNat < k.2.1.toNat →
                ends (.crw t rs1 num) (x.takeTrap 2 (k.2.1.setWidth 8) (word n) x.pc x.npc x.ds))
            ∧ (crBad n x.priv v = false → k.2.1.toNat ≤ x.priv.toNat → ends (.crw t rs1 num) (k.2.2.advance .ordinary)))
          ∧ (n ∈ [0o0000, 0o0002, 0o0003, 0o0031, 0o0300, 0o0301] → ends (.crw t rs1 num) (x.takeTrap 1 5 (word n) x.pc x.npc x.ds))
          ∧ (x.vault = false → n ∈ [0o0040, 0o0041, 0o0042] →
              ends (.crw t rs1 num) (x.takeTrap 1 4 (word n) x.pc x.npc x.ds)))
      ∧ (s.ready t (.crwCtxid t rs1) = true → v.toNat < 2 ^ 12 →
          (x.priv = 2 → ends (.crwCtxid t rs1) ({ x with ctx := v.setWidth 12, ret := [] }.advance .ordinary))
            ∧ (x.priv.toNat < 2 → ends (.crwCtxid t rs1) (x.takeTrap 2 2 (word 1) x.pc x.npc x.ds)))
      ∧ (s.ready t (.fstepWrite t rs1) = true → crBad 0o0120 x.priv v = false →
          let f := s.fetched t
          let q := t.val / 2
          let y := f.core q
          let r : BitVec 6 := v.extractLsb' 24 6
          let asks (z : Core) : Prop := ∃ u, exec (.fstepWrite t rs1) s = .next u ∧ After s (f.setCore q z) t (x.advance .ordinary) u
          (x.priv = 2 → y.fPending = false → r.toNat < y.fCur.toNat ∨ (y.fCur.toNat < r.toNat ∧ y.fCur.toNat < f.coreCap q) →
              asks { y with fReq := r, fBlocked := false, fPending := true })
            ∧ (x.priv = 2 → y.fPending = false → r = y.fCur → asks { y with fReq := r, fBlocked := false })
            ∧ (x.priv = 2 → y.fPending = true → y.fHeld = none → asks { y with fHeld := some r })
            ∧ (x.priv.toNat < 2 → ends (.fstepWrite t rs1) (x.takeTrap 2 2 (word 0o0120) x.pc x.npc x.ds)))

/-- R113, R115, R116, R123, R124: a TLBINV write removes from its core's TLBs, at once, the entries of the thread's world that its
kind and table select; with BCAST it holds the thread until every core that is due has done the same. A reseed waits its turn,
gives its context a fresh key and removes the old one from every core's key cache; its writer then completes.
Log entries 9 and 48 are the model's choices in it. -/
def Obligations.InvalidationsAndReseeds : Prop :=
  (∀ (s : State) (t : Fin 576) (rs1 : BitVec 6),
      let x := s.thread t.val
      let v := x.gr rs1
      let f := s.fetched t
      -- whether an entry leaves
      let leaves (vault : Bool) (v : Reg) (e : TlbEntry) : Prop :=
        e.vault = vault ∧ e.hTable = v.getLsbD 67 ∧
          let page : Prop := e.vpn = 2 ^ 14 * (v.extractLsb' 12 50 : BitVec 50).toNat / 2 ^ levelShift e.level.val
          match (v.extractLsb' 69 3 : BitVec 3).toNat with
          | 0 => page ∧ pteG e.pte = false ∧ e.ctx = v.extractLsb' 0 12
          | 1 => pteG e.pte = false ∧ e.ctx = v.extractLsb' 0 12
          | 2 => True
          | _ => page
      let kept (b : Bool) (v : Reg) (l l' : List TlbEntry) : Prop := ∀ e, e ∈ l' ↔ e ∈ l ∧ ¬ leaves b v e
      let swept (b : Bool) (v : Reg) (c c' : Core) : Prop := kept b v c.itlb c'.itlb ∧ kept b v c.dtlb c'.dtlb
        ∧ kept b v c.tlb2 c'.tlb2 ∧ c' = { c with itlb := c'.itlb, dtlb := c'.dtlb, tlb2 := c'.tlb2 }
      let legal : Prop := crBad 0o0102 x.priv v = false ∧ x.priv ≠ 0
      (∀ i ∈ [Instr.tlbinvPage t rs1, .tlbinvContext t rs1, .tlbinvTable t rs1, .tlbinvPageAll t rs1, .crw t rs1 0o0102],
          s.ready t i = true → legal →
            (v.getLsbD 68 = false → ∃ u c, exec i s = .next u ∧ swept x.vault v (f.core (t.val / 2)) c
                ∧ After s (f.setCore (t.val / 2) c) t (x.advance .ordinary) u)
              ∧ (v.getLsbD 68 = true → ∃ u, exec i s = .next u
                ∧ After s { f with keys := { f.keys with bcasts := f.keys.bcasts ++ [(t, x.vault, v)] } } t { x with mode := .bcast } u))
        ∧ (s.threadFit t.val = true → x.mode = .bcast → ∀ b v, s.keys.bcasts.find? (fun p => p.1 == t) = some (t, b, v) →
            ∃ u cores, exec (.tlbinvBroadcastApplied t) s = .next u
              ∧ (∀ q, (s.isle (q / 24)).cond = .admitted → ((s.core q).st = .run ∨ (s.core q).st = .slack) → swept b v (s.core q) (sget {} cores q))
              ∧ (∀ q, ¬ ((s.isle (q / 24)).cond = .admitted ∧ ((s.core q).st = .run ∨ (s.core q).st = .slack)) → sget {} cores q = s.core q)
              ∧ After s { s with cores, keys := { s.keys with bcasts := s.keys.bcasts.filter fun p => p.1 != t } } t
                  ({ x with mode := .running }.advance .ordinary) u))
    ∧ (∀ (s : State) (t : Fin 576) (rs1 : BitVec 6) (key : BitVec 64),
        let x := s.thread t.val
        let v := x.gr rs1
        let f := s.fetched t
        let c : BitVec 12 := v.setWidth 12
        (s.ready t (.ctxreseed t rs1) = true → crBad 0o0110 x.priv v = false → x.priv = 2 →
            ∃ u, exec (.ctxreseed t rs1) s = .next u
              ∧ After s { f.modCore (t.val / 2) (fun y => { y with reseedCtx := c }) with
                  keys := { f.keys with waiting := f.keys.waiting ++ [(t, c)] } } t { x with mode := .reseed } u)
          ∧ (∀ more, s.keys.serving = none → s.keys.waiting ≠ [] →
              -- the first of those that came together in thread order from the pointer of R17
              ∃ p ∈ s.keys.waiting.take (more + 1),
                (∀ r ∈ s.keys.waiting.take (more + 1),
                    (p.1.val + 576 - s.keys.ptr % 576) % 576 ≤ (r.1.val + 576 - s.keys.ptr % 576) % 576)
                  ∧ exec (.reseedStart more) s = .next { s with keys := { s.keys with
                      waiting := s.keys.waiting.erase p, serving := some p, ptr := (p.1.val + 1) % 576 } })
          ∧ (∀ c, s.keys.serving = some (t, c) → x.mode = .reseed → ∃ u, exec (.reseedDone true key) s = .next u
              ∧ (u.thread t.val).mode = .running ∧ (u.thread t.val).pc = x.npc
              ∧ u.keys.serving = none ∧ sget 0 u.keys.ctxKeys c.toNat = key
              ∧ (∀ d : BitVec 12, d ≠ c → sget 0 u.keys.ctxKeys d.toNat = sget 0 s.keys.ctxKeys d.toNat)
              ∧ (∀ q, (u.core q).keys = (s.core q).keys.erase c.toNat) ∧ (u.core (t.val / 2)).reseedStatus = 0
              ∧ u = { s with threads := u.threads, cores := u.cores, keys := u.keys })
          ∧ (∀ c, s.keys.serving = some (t, c) → x.mode = .reseed → ∃ u, exec (.reseedDone false key) s = .next u
              ∧ (u.thread t.val).mode = .running ∧ u.keys = { s.keys with serving := none } ∧ (u.core (t.val / 2)).reseedStatus = 1))

/-- R60: PREF completes in every state that runs it: it never traps on its address and changes no register, flag or special
register of any thread. It does nothing where the address does not translate, or is uncached, of the other world, or of no
coherent line; else the caches take the fill of its hint. -/
def Obligations.PrefetchIsAHint : Prop :=
  ∀ (s : State) (t : Fin 576) (h : PrefHint) (rs1 : BitVec 6) (imm : BitVec 16), s.ready t (.pref t h rs1 imm) = true →
    let x := s.thread t.val
    let i := t.val / 48
    let ea : Addr := (x.gr rs1).extractLsb' 0 64 + imm.signExtend 64
    let ends (f : State) : Prop := ∃ u, exec (.pref t h rs1 imm) s = .next u ∧ After s f t (x.advance .ordinary) u
      ∧ u.pending = s.pending ∧ u.variant = s.variant
    (∀ f evs, (∃ c d v, (s.fetched t).translate t.val .load ea = (f, evs, .trap c d v)) → ends (s.fetched t))
      ∧ (∀ f evs, (s.fetched t).translate t.val .load ea = (f, evs, .wait) → ends (s.fetched t))
      ∧ (∀ f evs pa uc, (s.fetched t).translate t.val .load ea = (f, evs, .ok pa uc) →
          let n : LineNo := BitVec.ofNat 46 (pa / 64)
          let code : Nat := match h with | .l1 => 0 | .l2 => 1 | .isle => 2 | .stream => 3
          let none : Prop := uc = true ∨ (x.vault = false ∧ inVault (f.isle i).regions pa = true) ∨ f.icOn i = false ∨ f.coherent n = false
          (none → ends f) ∧ (¬ none → ends (f.prefetch (f.acr t.val) n code)))

/-- R17, R18, R348 to R351: claims and releases of the Bearing ledger. A claim is granted when each pool holds it and its ramp
can start within 4 µs; a refusal counts; either moves the ledger's pointer behind its requester; a release is never refused. Of
two claims of one cycle the one that comes first from the pointer is served first, and of one requester the lower member.
Log entry 32 for how ramps are kept. -/
def Obligations.BearingLedger : Prop :=
  ∀ (s : State) (q : Fin 50) (mem : Fin 25) (core hub : BitVec 12),
    let l := s.ledger
    let claim : Instr := .bearingClaim { q, mem, core, hub } []
    let ptr := (q.val + 1) % 50
    let a := sget ({} : Amount) l.claimed q.val
    let fits : Prop := (l.claimed.map fun p => p.2.core).sum + core.toNat ≤ l.limCore.toNat
      ∧ (l.claimed.map fun p => p.2.hub).sum + hub.toNat ≤ l.limHub.toNat
      ∧ (core = 0 ∨ rampStart l.ramps (rampLen core.toNat) ≤ 16000)
    (core = 0 → hub = 0 → exec claim s = .next s)
      ∧ (core ≠ 0 ∨ hub ≠ 0 → fits → ∃ u, exec claim s = .next u
          ∧ u = { s with ledger := { l with claimed := u.ledger.claimed, ramps := u.ledger.ramps, ptr } }
          ∧ (∀ k, sget ({} : Amount) u.ledger.claimed k = if k = q.val then ⟨a.core + core.toNat, a.hub + hub.toNat⟩ else sget ({} : Amount) l.claimed k)
          ∧ (core = 0 → u.ledger.ramps = l.ramps))
      ∧ (core ≠ 0 ∨ hub ≠ 0 → ¬ fits → exec claim s = .next { s with ledger := { l with refused := l.refused + 1, ptr } })
      ∧ (∀ a b : BearingReq,
          let dist (r : BearingReq) : Nat := (r.q.val + 50 - l.ptr % 50) % 50
          (dist a < dist b ∨ a.q = b.q ∧ a.mem.val < b.mem.val) → ∃ s1,
            exec (.bearingClaim a []) s = .next s1 ∧ exec (.bearingClaim a [b]) s = exec (.bearingClaim b []) s1
              ∧ exec (.bearingClaim b [a]) s = exec (.bearingClaim b []) s1)
      ∧ (∃ u, exec (.bearingRelease q core hub) s = .next u ∧ u = { s with ledger := { l with claimed := u.ledger.claimed } }
          ∧ ∀ k, sget ({} : Amount) u.ledger.claimed k = if k = q.val then ⟨a.core - core.toNat, a.hub - hub.toNat⟩ else sget ({} : Amount) l.claimed k)

/-- R130 to R132, R210, R284, R345, R346, R349, R353, R385: cores and Isles enter and leave Slack, a core's step changes one at a time
with its bearing, the caps are measured, and a refused claim is made again.
Log entry 32 for the retry of a refused claim. -/
def Obligations.StepsSlackAndCaps : Prop :=
  ∀ (s : State) (c : Fin 288) (n : Fin 12),
    let x := s.core c.val
    let l := s.ledger
    let k := x.fCur.toNat
    (s.coreFit c.val = true → x.autoslack = true → x.st = .run → s.coreIdle c.val = true →
        exec (.coreAutoslackEnter c) s = .next (s.setCore c.val { x with st := .slack }))
      ∧ (s.isleFit n.val = true → (s.isle n.val).st = .run → (∀ j, j < 24 → (s.core (n.val * 24 + j)).st ≠ .run) →
          exec (.isleSlackEnter n) s = .next (s.setIsle n.val { s.isle n.val with st := .slack }))
      ∧ (s.isleFit n.val = true → (s.isle n.val).st = .slack → (∃ j, j < 24 ∧ (s.core (n.val * 24 + j)).st = .run) →
          exec (.isleSlackExit n) s = .next (s.setIsle n.val { s.isle n.val with st := .run }))
      ∧ (s.coreFit c.val = true → x.fPending = true → (x.st = .run ∨ x.st = .slack) → s.stepMay c.val = true → k + 1 < x.fReq.toNat →
          k + 1 < min x.fused.toNat (min (s.isle (c.val / 24)).thermal.toNat l.cap.toNat) →
          ∀ s1, s.claim (c.val / 24) ((if k + 1 ≤ 24 then 4 else k + 1 - 20) - (if k ≤ 24 then 4 else k - 20)) 0 = (s1, true) →
            exec (.stepRaise c) s = .next (s1.setCore c.val { x with fCur := x.fCur + 1 }))
      ∧ (s.coreFit c.val = true → x.fPending = true → (x.st = .run ∨ x.st = .slack) → s.stepMay c.val = true → x.fReq.toNat + 1 < k →
          exec (.stepLower c) s = .next ((s.setCore c.val { x with fCur := x.fCur - 1 }).release (c.val / 24)
            ((if k ≤ 24 then 4 else k - 20) - (if k - 1 ≤ 24 then 4 else k - 1 - 20)) 0))
      ∧ (∀ core hub : BitVec 16,
          (core.toNat ≤ l.limCore.toNat → l.limCore.toNat * 95 ≤ 100 * core.toNat → l.lowering = false →
            exec (.currentCapCheck core hub) s
              = .next { s with ledger := { l with measCore := core, measHub := hub, overUs := 0, underUs := 0 } })
          ∧ (l.limCore.toNat < core.toNat → l.overUs < 9 → exec (.currentCapCheck core hub) s
              = .next { s with ledger := { l with measCore := core, measHub := hub, overUs := l.overUs + 1, underUs := 0 } })
          ∧ (l.limCore.toNat < core.toNat → 9 ≤ l.overUs → ∃ u, exec (.currentCapCheck core hub) s = .next u
              ∧ u.ledger.cap = (if l.cap.toNat ≤ 12 then l.cap else l.cap - 1) ∧ u.ledger.overUs = 0))
      ∧ (∀ p : BitVec 16, s.isleFit n.val = true → 1552 < p.toInt → p.toInt ≤ 1600 → (s.isle n.val).thLower = false →
          ∃ u, exec (.thermalCap n [p, p, p, p, p, p]) s = .next u ∧ u = s.setIsle n.val (u.isle n.val)
            ∧ (∀ j, j < 6 → sget 0 (u.isle n.val).temps j = p) ∧ (u.isle n.val).thermal = (s.isle n.val).thermal)
      ∧ (∀ p : BitVec 16, s.isleFit n.val = true → 1600 < p.toInt →
          ∃ u, exec (.thermalCap n [p, p, p, p, p, p]) s = .next u
            ∧ (u.isle n.val).thermal = if (s.isle n.val).thermal.toNat ≤ 12 then (s.isle n.val).thermal else (s.isle n.val).thermal - 1)
      ∧ (s.isleFit n.val = true → s.mayTrain n.val = true → (s.strait n.val).bearwait = true → ∀ s1,
          (s.claim n.val 16 40 = (s1, true) → exec (.bearingRetry (.strait n)) s
            = .next (s1.setStrait n.val { s.strait n.val with st := .training, bearwait := false }))
          ∧ (s.claim n.val 16 40 = (s1, false) → ∃ u, exec (.bearingRetry (.strait n)) s = .next u
            ∧ u.strait n.val = s.strait n.val ∧ u.ledger = { l with refused := l.refused + 1, ptr := (n.val + 1) % 50 }))
      -- a port block claims what was refused, less what it holds; one that leaves Dry then runs
      ∧ (∀ b : Fin 12, (s.block b).bearwait = true → ∀ s1,
          let z := s.block b
          let need := if z.st = .dry then 24 else z.wants
          (s.claim (36 + b.val) 0 (need - z.hold) = (s1, true) → ∃ u, exec (.bearingRetry (.block b)) s = .next u
            ∧ u.block b = { z with bearwait := false, wants := 0, hold := max need z.hold, st := if z.st = .dry then .run else z.st }
            ∧ u = { s1 with ports := u.ports })
          ∧ (s.claim (36 + b.val) 0 (need - z.hold) = (s1, false) → ∃ u, exec (.bearingRetry (.block b)) s = .next u
            ∧ u.block b = { z with wants := need } ∧ u.ledger = s1.ledger))

/-- R144 to R148, R188, R199: CIS_CACHECTL switches the caches of an Isle; a disable marks the cache, an enable of a cache
that no ARRAY_INVAL has cleared marks it STALE; a reserved bit, or an L2 enabled without the Isle cache, changes nothing. A
disable that takes effect drops what the cache tracked, the Isle cache's from the home. The patrol finds and clears the
errors of a line; the hold window's end serves what it deferred, and fills that wait for a way try again.
Log entries 8 and 16 are the model's choices in it. -/
def Obligations.CachesOfAnIsle : Prop :=
  ∀ (s : State) (w : Who) (n : Fin 12) (v : W36) (k : Fin 25) (l : LineNo),
    let x := s.isle n
    let c := x.cis
    (s.isleOpen w n → v.toNat < 2 ^ 25 → (v.getLsbD 24 = true ∨ v = 0) →
        ∃ u, exec (.cisCachectlWrite w n v) s = .next u
          ∧ (u.isle n).cis.enabled k = v.getLsbD k
          ∧ (c.enabled k = true → v.getLsbD k = false →
              (u.isle n).cis.disabling.getLsbD k = true ∧ (u.isle n).cis.cleared.getLsbD k = false)
          ∧ (c.enabled k = false → v.getLsbD k = true →
              (u.isle n).cis.stale.getLsbD k = (c.stale.getLsbD k || !c.cleared.getLsbD k))
          ∧ u.mem = s.mem ∧ u.threads = s.threads)
      ∧ (s.isleOpen w n → 2 ^ 25 ≤ v.toNat ∨ v.getLsbD 24 = false ∧ v ≠ 0 → exec (.cisCachectlWrite w n v) s = .next s)
      ∧ (s.isleFit n = true → c.disabling.getLsbD k = false → exec (.cacheDisableComplete n k) s = .next s)
      ∧ (s.isleFit n = true → c.disabling.getLsbD k = true → ∃ u, exec (.cacheDisableComplete n k) s = .next u
          ∧ (u.isle n).cis = { c with disabling := c.disabling &&& ~~~(1#25 <<< k.val) } ∧ u.mem = s.mem
          ∧ (k.val < 24 → u.home = s.home)
          ∧ (k.val = 24 → u.home.drop.getLsbD n = true
              ∧ ∀ j, (sget ({} : Entry) u.home.entries j).sharers.getLsbD n = false))
      ∧ (s.isleFit n = true →
          exec (.dropWalkDone n) s = .next { s with home := { s.home with drop := s.home.drop &&& ~~~(1#12 <<< n.val) } })
      ∧ (s.isleFit n = true → paClass (l.toNat * 64) = .dram → icHas x.ic l.toNat = true →
          (∃ u, exec (.sramPatrol n l) s = .next u ∧ (∀ i, i < 64 → sget 0 (u.isle n).dataErr (l.toNat * 64 + i) = 0)
            ∧ u = { s with isles := u.isles, evr := u.evr })
          ∧ ∀ a, x.dataErr.filter (fun e => decide (e.1 / 64 = l.toNat)) = [(a, 1)] →
              exec (.sramPatrol n l) s = .next ((s.setIsle n { x with dataErr := sset 0 x.dataErr a 0 }).recIsle n 0o003001
                (288 + n) (l.toNat * 64) (a % 64)))
      ∧ (s.isleFit n = true → (x.line l.toNat).window = false → exec (.holdWindowEnd n l) s = .next s)
      ∧ (s.isleFit n = true → (x.line l.toNat).window = true → exec (.holdWindowEnd n l) s
          = .next (((x.line l.toNat).deferred.foldl (fun u m => u.serveSnoop n m)
              (s.setIsle n (x.setLine l.toNat { x.line l.toNat with window := false, deferred := [] }))).retryFills n))

/-- R13, R150 to R157, R169: CIS_WAYCTL asks for partitions and unmaps those above REQ at once, or as the conversion in
progress has finished its step; a way converted adds one partition and leaves no line in its way; an access of the Cistern
window reads or writes the Isle's own bytes, or is refused outside the mapped partitions, then across worlds, then by the Isle's
own condition. -/
def Obligations.CisternPartitions : Prop :=
  ∀ (s : State) (w : Who) (n : Fin 12) (v : W36) (m : Msg) (off : Nat),
    let x := s.isle n
    let c := x.cis
    let req := fld v 11 8
    let mask := if m.ty = .wrl then BitVec.allOnes 64 else m.mask
    (s.isleOpen w n → v.toNat < 2 ^ 12 → v.toNat % 8 = 0 → req ≤ 8 →
        (∀ p, p < 8 → req ≤ p → p < c.cur.toNat → s.partLocked n p = false ∧ (s.whoVault w = true ∨ c.partworld.getLsbD p = false)) →
        (c.conv = true →
          exec (.cisWayctlWrite w n v) s = .next (s.setIsle n { x with cis := { c with req := BitVec.ofNat 4 req } }))
        ∧ (c.conv = false → c.cur.toNat ≤ req → exec (.cisWayctlWrite w n v) s
            = .next (s.setIsle n { x with cis := { c with req := BitVec.ofNat 4 req, conv := decide (c.cur.toNat < req) } }))
        ∧ (c.conv = false → req < c.cur.toNat → ∃ u, exec (.cisWayctlWrite w n v) s = .next u
          ∧ u = s.setIsle n { x with cis := (u.isle n).cis, dataErr := (u.isle n).dataErr }
          ∧ (∀ j, 0x300000 * req ≤ j → j < 0x2000000 → sget 0 (u.isle n).dataErr (0xE000000000000 + 0x2000000 * n.val + j) = 0)
          ∧ (u.isle n).cis = { c with req := BitVec.ofNat 4 req, cur := BitVec.ofNat 4 req, mem := (u.isle n).cis.mem
                                      bad := (u.isle n).cis.bad, partworld := (u.isle n).cis.partworld }
          ∧ (∀ p, p < 8 → (u.isle n).cis.partworld.getLsbD p = (c.partworld.getLsbD p && decide (p < req)))
          ∧ ∀ j, 0x300000 * req ≤ j → sget 0 (u.isle n).cis.mem j = 0))
      ∧ (s.isleOpen w n → 2 ^ 12 ≤ v.toNat ∨ v.toNat % 8 ≠ 0 ∨ 8 < req → exec (.cisWayctlWrite w n v) s = .next s)
      ∧ (s.isleFit n = true → c.conv = true → ∃ u, exec (.wayConverted n) s = .next u
          ∧ (let k := (c.cur + 1).toNat
             (k ≤ c.req.toNat → (u.isle n).cis = { c with cur := c.cur + 1, conv := decide (k < c.req.toNat) })
               ∧ (c.req.toNat < k → (u.isle n).cis.cur = c.req ∧ (u.isle n).cis.req = c.req ∧ (u.isle n).cis.conv = false
                   ∧ ∀ j, 0x300000 * c.req.toNat ≤ j → sget 0 (u.isle n).cis.mem j = 0))
          ∧ u.mem = s.mem ∧ ∀ j, j % 16 = 15 - c.cur.toNat → sget ({} : Way) (u.isle n).ic j = {})
      ∧ (s.isleFit n = true → c.conv = false → exec (.wayConverted n) s = .next s)
      ∧ (paClass (m.line.toNat * 64) = .cistern n off → s.isleFit n = true → s.comes m →
          let f := s.arrived m
          let part := off / 0x300000
          let mapped : Prop := off + 64 ≤ 0x300000 * c.cur.toNat
          let mine : Prop := m.world = true ∨ c.partworld.getLsbD part = false
          let free : Prop := s.partLocked n part = false
          (mapped → mine → free → s.isleAnswer n false = .ok →
            (m.ty = .rdn → x.dataErr = [] → c.bad = [] → exec (.cisternAccess m) s
                = .next ((f.sndIsle n 6 2047 m.world).send (cmpMsg m .ok (some (cisLine c.mem off)))))
            ∧ (m.ty = .wrl ∨ m.ty = .wrn → ∃ u, exec (.cisternAccess m) s = .next (u.send (cmpMsg m .ok none))
                ∧ u = f.setIsle n (u.isle n)
                ∧ ∀ j, sget 0 (u.isle n).cis.mem j
                    = if off ≤ j ∧ j < off + 64 ∧ mask.getLsbD (j - off) = true then nonetAt m.data (j - off) else sget 0 c.mem j))
          ∧ (¬ mapped → exec (.cisternAccess m) s = .next (f.send (cmpMsg m .absent none)))
          ∧ (mapped → ¬ (mine ∧ free) → exec (.cisternAccess m) s = .next (f.send (cmpMsg m .world none)))
          ∧ (mapped → mine → free → ∀ r, s.isleAnswer n false = r → r ≠ .ok →
              exec (.cisternAccess m) s = .next (f.send (cmpMsg m r none))))

/-- R158, R162 to R165: a slot of the Trowel is claimed, gets its operation, is queued by GO, leaves by CANCEL and RELEASE,
and starts at the head of the queue. Of two reads of TRW_CLAIM of one cycle, one of the Isle's own cores and one from its
Strait, the arbiter's pointer chooses, and each accepted access moves it.
Log entry 52 for the rows that start a slot. -/
def Obligations.TrowelSlots : Prop :=
  ∀ (s : State) (w : Who) (n : Fin 12) (k : Fin 8) (v : W36),
    let x := s.isle n
    let y := x.slot k.val
    let op := fld v 7 5
    let target := fld v 4 0
    -- the arbiter's pointer after an access of w: behind the Isle's own cores (0) or its Strait (1)
    let side (w : Who) : BitVec 1 := match w with
      | .thread t => if t.val / 48 = n.val then 0 else 1
      | .umfoent | .umfoentCourt | .smbus | .endpoint _ | .harbour _ _ | .guest _ | .port _ => 1
    let put (z : TrwSlot) (q : List (Fin 8)) : State := s.setIsle n { x.setSlot k.val z with queue := q, trwPtr := side w + 1 }
    let off := x.queue.filter fun j => j != k
    (s.isleOpen w n → y.st = .free → (∀ j, j < k.val → (x.slot j).st ≠ .free) →
        exec (.trwClaim w [] n) s = .next (put { y with st := .claimed } x.queue)
          ∧ (s.csRead w (isleReg n.val 1 4)).2 = some (.ok, BitVec.ofNat 36 k.val))
      ∧ (s.isleOpen w n → (∀ j, j < 8 → (x.slot j).st ≠ .free) →
          exec (.trwClaim w [] n) s = .next (s.setIsle n { x with trwPtr := side w + 1 })
            ∧ (s.csRead w (isleReg n.val 1 4)).2 = some (.ok, 8))
      ∧ (∀ v : Who, side w = 0 → side v = 1 →
          let a := if x.trwPtr = 0 then w else v
          let b := if x.trwPtr = 0 then v else w
          ∃ s1, exec (.trwClaim a [] n) s = .next s1 ∧ exec (.trwClaim w [v] n) s = exec (.trwClaim b [] n) s1
            ∧ exec (.trwClaim v [w] n) s = exec (.trwClaim b [] n) s1)
      ∧ (s.isleOpen w n → v.toNat < 2 ^ 10 → op ≤ 4 → target ≤ 24 →
          (y.st = .claimed →
            let z : TrwSlot := { y with op := BitVec.ofNat 3 op, target := BitVec.ofNat 5 target, done := 0, cis := 0, pois := 0
                                        next := 0, flight := [], ending := none, inSet := none, world := s.whoVault w
                                        ctx := s.whoCtx w }
            (op ≠ 4 ∨ x.cis.enabled target = false →
              exec (.go w n k v) s = .next (put { z with st := .queued } (x.queue ++ [k])))
            ∧ (op = 4 → x.cis.enabled target = true →
              exec (.go w n k v) s = .next (put { z with st := .faultTarget } x.queue))
            ∧ exec (.release w n k v) s = .next (put {} x.queue))
          ∧ (y.st = .queued → exec (.cancel w n k v) s
              = .next (put { y with st := .cancelled, flight := [], ending := none, inSet := none } off))
          ∧ (y.st = .running → exec (.cancel w n k v) s = .next (put { y with ending := some .cancelled } x.queue))
          ∧ (4 ≤ y.st.num → exec (.release w n k v) s = .next (put {} x.queue)))
      ∧ (s.isleFit n = true → x.queue.head? = some k → y.st = .queued →
          let t : Host.Outcome State Fault Refusal := .next (s.setIsle n (x.setSlot k.val { y with st := .running }))
          (y.op = 0 → exec (.clean n) s = t) ∧ (y.op = 1 → exec (.inval n) s = t) ∧ (y.op = 2 → exec (.cleanInval n) s = t)
            ∧ (y.op = 3 → exec (.zero n) s = t) ∧ (y.op = 4 → exec (.arrayInval n) s = t))

/-- R158 to R161, R164: the running slot sends one request for each line of its range, counts the completions, and takes
its done state when none is left; no request leaves for a line whose eviction awaits its CMP; a Cistern line is skipped and
counted; a line of no memory ends the range; an ARRAY_INVAL ends when its array holds no line. -/
def Obligations.TrowelLines : Prop :=
  ∀ (s : State) (n : Fin 12) (k : Fin 8) (m : Msg),
    let x := s.isle n
    let y := x.slot k.val
    let l := 2 ^ 30 * y.hi.toNat + y.lo.toNat + y.next
    let off := x.queue.filter fun j => j != k
    s.isleFit n = true → x.queue.head? = some k → y.st = .running →
      (y.op.toNat < 4 → y.ending = none → y.flight.length < 64 → y.next ≤ y.len.toNat →
          (paClass (l * 64) = .dram ∨ paClass (l * 64) = .window → s.coherent (BitVec.ofNat 46 l) = true →
            (y.world = true ∨ inVault s.worlds.regions (l * 64) = false) →
            (∀ w, s.cxlWin (BitVec.ofNat 46 l) = some w → s.winRefuses w y.world = false) →
            (x.line l).st ≠ .miA → (x.line l).st ≠ .eiA →
            exec (.trowelLineIssue n) s = .next ((s.setIsle n (x.setSlot k.val { y with next := y.next + 1, flight := y.flight ++ [l] })).send
              { ty := .trw, src := BitVec.ofNat 4 n.val, dst := 15, tag := BitVec.ofNat 9 (64 + y.next % 64)
                line := BitVec.ofNat 46 l, world := y.world, ctx := y.ctx, op := y.op.setWidth 5 }))
          ∧ (∀ i o, paClass (l * 64) = .cistern i o → s.isleFit i = true → y.next < y.len.toNat →
              exec (.trowelLineIssue n) s = .next (s.setIsle n (x.setSlot k.val
                { y with next := y.next + 1, done := y.done + 1, cis := y.cis + 1 })))
          ∧ (paClass (l * 64) = .control ∨ paClass (l * 64) = .unmapped → y.flight ≠ [] →
              exec (.trowelLineIssue n) s = .next (s.setIsle n (x.setSlot k.val { y with ending := some .faultAddr }))))
      ∧ (y.op.toNat < 4 → s.trwReply n.val = some m → m.resp = 0 →
          (y.next ≤ y.len.toNat → y.ending = none → exec (.trowelLineDone n) s
              = .next ({ s with replies := s.replies.erase m }.setIsle n (x.setSlot k.val
                  { y with flight := y.flight.erase m.line.toNat, done := y.done + 1 })))
          ∧ (y.len.toNat < y.next → y.flight = [m.line.toNat] → y.ending = none → y.pois = 0 → y.cis = 0 →
              exec (.trowelLineDone n) s = .next ({ s with replies := s.replies.erase m }.setIsle n
                { x.setSlot k.val { y with flight := [], done := y.done + 1, st := .doneOk, inSet := none } with queue := off })))
      -- a cancelled ARRAY_INVAL goes on to the end of the set in progress
      ∧ (y.ending = some .cancelled → y.flight = [] → s.setLeft n.val y = false → exec (.cancelledDone n) s
          = .next (s.setIsle n { x.setSlot k.val { y with st := .cancelled, ending := none, inSet := none } with queue := off }))
      ∧ (y.op = 4 → y.ending = none → y.flight = [] →
          (if y.target.toNat < 24 then (s.core (n.val * 24 + y.target.toNat)).l2 else x.ic).all (fun e => e.2.valid == 0) = true →
          exec (.arrayInvalDone n) s = .next (s.setIsle n { x.setSlot k.val { y with st := .doneOk, inSet := none } with
            queue := off, cis := { x.cis with cleared := x.cis.cleared ||| 1#25 <<< y.target.toNat } }))

/-- R170, R178, R182 to R184: a request for a line that another Isle owns is answered by no memory read: the home asks the owner
with the snoop of the request's type, and the transaction waits for it (log entry 22 for the requests of an owner itself). A home
refuses the request of an Isle that is not admitted, of a line that is not coherent, and of the Court world for a Vault line. -/
def Obligations.HomeAsksTheOwner : Prop :=
  (∀ (s : State) (m : Msg),
      let e := s.entry m.line
      -- command c brings request q, which the home takes as r
      let asks (c : Instr) (q r : Msg) (ty : MsgTy) (cause : BitVec 2) : Prop :=
        let f := s.arrived q
        s.homeOpen q → ∃ u : State, exec c s = .next u ∧ u.net = f.net ++ [snoopMsg ty e.owner r cause]
          ∧ u.txn m.line = some { req := r, waits := 1#16 <<< e.owner.toNat, owner := some e.owner }
          ∧ u.entry m.line = { e with age := 0 }
          ∧ u = { f with net := u.net, snd := u.snd, home := { s.home with entries := u.home.entries, txns := u.home.txns } }
      let as (ty : MsgTy) : Msg := { m with ty }
      e.st = .x → e.sharers = 0 → e.owner ≠ m.src →
        asks (.rds m) (as .rds) (as .rds) .fws 0
          ∧ asks (.rdu m) (as .rdu) (as .rdu) .fwu 0
          ∧ asks (.upg m) (as .upg) (as .rdu) .fwu 0
          ∧ asks (.rdn m) (as .rdn) (as .rdn) .sng 0
          ∧ asks (.wrn m) (as .wrn) (as .wrn) .sni 0
          ∧ asks (.atm m) (as .atm) (as .atm) .sni 0
          ∧ asks (.wrl m) (as .wrl) (as .wrl) .inv 0
          ∧ (m.op = 0 → asks (.trw m) (as .trw) (as .trw) .snc 2)
          ∧ (m.op = 1 ∨ m.op = 3 → asks (.trw m) (as .trw) (as .trw) .inv 2)
          ∧ (m.op = 2 → asks (.trw m) (as .trw) (as .trw) .sni 2))
    ∧ (∀ (s : State) (m : Msg) (ty : MsgTy),
        let c : List (MsgTy × Instr) := [(.rds, .rds m), (.rdu, .rdu m), (.upg, .upg m), (.rdn, .rdn m), (.wrn, .wrn m), (.wrl, .wrl m),
          (.atm, .atm m), (.trw, .trw m)]
        let gives (i : Instr) (r : Resp) : Prop := exec i s = .next ((s.arrived { m with ty }).send
          { homeMsg (if ty = .rds ∨ ty = .rdu ∨ ty = .upg then .gnt else .cmp) m.src m with resp := r.num })
        ∀ i, (ty, i) ∈ c → s.comes { m with ty } →
          (m.src.toNat < 12 → s.home.mask.getLsbD m.src.toNat = false → gives i .absent)
            ∧ ((m.src.toNat < 12 → s.home.mask.getLsbD m.src.toNat = true) → s.coherent m.line = false → gives i .absent)
            ∧ ((m.src.toNat < 12 → s.home.mask.getLsbD m.src.toNat = true) → s.coherent m.line = true → m.world = false →
                inVault s.worlds.regions (m.line.toNat * 64) = true → gives i .world))

/-- R181 to R184, R196, R264, R265: requests for a line that nobody holds, its channel running: reads are queued at memory, writes
of a whole line are queued and complete; an upgrade by the one sharer is granted at once; an eviction writes its data, leaves
the entry and completes; a request in a line's queue opens as the line is free.
Log entries 7 and 23: how a waiting message and a queued write are kept. -/
def Obligations.HomeServesFreeLines : Prop :=
  ∀ (s : State) (m : Msg) (c : Nat) (loc : Nat) (w : Fin 16),
    let n := m.line
    let x := s.chan c
    let as (ty : MsgTy) : Msg := { m with ty }
    -- a read takes a place of the read queue, or waits for one
    let asked : Chan := if x.readQ.length < 64 then { x with readQ := x.readQ ++ [{ line := n }] } else { x with readWait := x.readWait ++ [n] }
    let reads (i : Instr) (q r : Msg) (way : Option (Fin 16)) : Prop :=
      let f := s.arrived q
      s.homeOpen q → ∃ u : State, exec i s = .next u ∧ u.net = f.net ∧ u.txn n = some { req := r, way, memWait := true }
        ∧ u = { f.setChan c asked with snd := u.snd, home := u.home }
    let v : LineVal := { bits := m.data, poison := m.poison }
    -- behind a queued read of the line (R265); the queue drains from 48 writes on
    let filled : Chan := { x with
      writeQ := x.writeQ ++ [{ line := n, val := v, vault := m.world, behind := x.readQ.any fun r => r.line == n }]
      draining := x.draining || decide (48 ≤ x.writeQ.length + 1) }
    let wrote (f u : State) : Prop :=
      u = { f.setChan c filled with net := u.net, snd := u.snd, home := u.home, replies := u.replies }
    (s.entry n = {} → s.place n = some (c, loc) → x.st = .run →
      (s.findWay n = .free w →
          reads (.rds m) (as .rds) (as .rds) (some w) ∧ reads (.rdu m) (as .rdu) (as .rdu) (some w)
            ∧ reads (.upg m) (as .upg) (as .rdu) (some w))
        ∧ reads (.rdn m) (as .rdn) (as .rdn) none ∧ reads (.atm m) (as .atm) (as .atm) none
        ∧ (m.mask ≠ BitVec.allOnes 64 → reads (.wrn m) (as .wrn) (as .wrn) none)
        ∧ (x.writeQ.length < 64 → (∀ q ∈ x.writeQ, q.line ≠ n) →
            (s.homeOpen (as .wrl) → ∃ u : State, exec (.wrl m) s = .next (u.send (cmpMsg m .ok none)) ∧ wrote (s.arrived (as .wrl)) u
                ∧ u.txn n = none)
              ∧ (s.homeOpen (as .wrn) → m.mask = BitVec.allOnes 64 → ∃ u : State, exec (.wrn m) s = .next (u.send (cmpMsg m .ok none))
                ∧ wrote (s.arrived (as .wrn)) u ∧ u.txn n = none))
        ∧ (s.homeOpen (as .trw) → m.op.toNat < 3 →
            ∃ u : State, exec (.trw m) s = .next (u.send (cmpMsg m .ok none)) ∧ u.chans = s.chans ∧ u.txn n = none))
      ∧ (s.homeOpen (as .upg) → m.src.toNat < 12 → (s.entry n).st = .s → (s.entry n).sharers = 1#14 <<< m.src.toNat →
          let f := s.arrived (as .upg)
          ∃ u : State, exec (.upg m) s = .next u ∧ u.net = f.net ++ [grantMsg m .m none]
            ∧ u.entry n = { s.entry n with st := .x, owner := m.src, sharers := 0, age := 0 } ∧ u.txn n = none
            ∧ u = { f with net := u.net, snd := u.snd, home := u.home })
      ∧ (s.home.mask.getLsbD m.src.toNat = true → s.txn n = none → s.cxlWin n = none → (s.entry n).owner = m.src →
          (s.comes (as .wbd) → s.place n = some (c, loc) → x.st = .run → (s.entry n).st = .x → x.writeQ.length < 64 →
            (∀ q ∈ x.writeQ, q.line ≠ n) →
            let f := s.arrived (as .wbd)
            ∃ u : State, exec (.wbd m) s = .next (u.send (cmpMsg m .ok none)) ∧ wrote f u ∧ u.entry n = {} ∧ u.net = f.net)
          ∧ (s.comes (as .evc) → (s.entry n).st = .x ∨ (s.entry n).st = .o ∧ (s.entry n).sharers = 0 →
            ∃ u : State, exec (.evc m) s = .next (u.send (cmpMsg m .ok none)) ∧ u.entry n = {}
              ∧ u = { s.arrived (as .evc) with home := { s.home with entries := u.home.entries } }))
      ∧ (s.homeCalm n → s.txn n = none → s.queueOf n = [m] → m.ty = .rdn → (s.entry n).st = .x → (s.entry n).sharers = 0 →
          ∃ u : State, exec (.queuedRequestOpen n) s = .next u ∧ u.net = s.net ++ [snoopMsg .sng (s.entry n).owner m 0]
            ∧ u.queueOf n = [] ∧ u.txn n = some { req := m, waits := 1#16 <<< (s.entry n).owner.toNat, owner := some (s.entry n).owner })
      ∧ (s.homeCalm n → s.txn n = none → s.queueOf n = [] → exec (.queuedRequestOpen n) s = .next s)

/-- R185, R186, R188: every snoop that comes to a fitted Isle is served or deferred, whatever the state of its line, and changes
no thread, no home and no memory. What the Isle answers to each snoop in each state, and the state it takes; a snoop of a line
being won, or within its window, waits.
Log entries 20 and 21: the RESP of an ACK and an owner that waits for its UPG. -/
def Obligations.SnoopsAtAnIsle : Prop :=
  ∀ (s : State) (m : Msg),
    let i := m.dst.toNat
    let l := m.line.toNat
    let a := (s.isle i).line l
    let ans (ty : MsgTy) (st : Moesi) : Msg :=
      { ty, src := m.dst, dst := 15, tag := m.tag, line := m.line, world := m.world, ctx := m.ctx, st }
    let full (x : Msg) : Msg := { x with hasData := true, data := a.val.bits, poison := a.val.poison }
    let dat (st : Moesi) : Msg := full { ans .dat st with dst := m.src }
    let kinds : List (Instr × MsgTy) :=
      [(.fws m, .fws), (.fwu m, .fwu), (.sng m, .sng), (.snc m, .snc), (.sni m, .sni), (.inv m, .inv)]
    let absent : Msg := { ans .ack .i with resp := Resp.absent.num }
    let row (c : Instr) (out : List Msg) (st : AState) : Prop :=
      ∀ ty, (c, ty) ∈ kinds → s.comes { m with ty } → ∃ u, exec c s = .next u ∧ u.net = (s.arrived { m with ty }).net ++ out
        ∧ ((u.isle i).line l).st = st ∧ (st ≠ .i ∧ st ≠ .imD → ((u.isle i).line l).val = a.val)
        ∧ u.mem = s.mem ∧ u.threads = s.threads ∧ u.home = s.home
    m.dst.toNat < 12 → s.isleFit i = true →
      -- each snoop that comes is taken, in every state
      (∀ p ∈ kinds, s.comes { m with ty := p.2 } → ∃ u, exec p.1 s = .next u ∧ u.mem = s.mem ∧ u.threads = s.threads ∧ u.home = s.home)
      ∧ (s.isleClean i → a.window = false →
          (a.st = .m → row (.fws m) [dat .s, ans .ack .o] .o ∧ row (.fwu m) [dat .m, ans .ack .i] .i
            ∧ row (.sng m) [full (ans .ackd .m)] .m ∧ row (.snc m) [full (ans .ackd .e)] .e
            ∧ row (.sni m) [full (ans .ackd .i)] .i)
          ∧ (a.st = .o → row (.fws m) [dat .s, ans .ack .o] .o ∧ row (.fwu m) [dat .m, ans .ack .i] .i
            ∧ row (.sng m) [full (ans .ackd .o)] .o ∧ row (.snc m) [full (ans .ackd .s)] .s
            ∧ row (.sni m) [full (ans .ackd .i)] .i)
          ∧ (a.st = .e → row (.fws m) [dat .s, ans .ack .s] .s ∧ row (.fwu m) [dat .m, ans .ack .i] .i
            ∧ row (.sng m) [full (ans .ackd .e)] .e ∧ row (.snc m) [ans .ack .e] .e ∧ row (.sni m) [ans .ack .i] .i)
          ∧ (a.st = .s ∨ a.st = .e → row (.inv m) [ans .ack .i] .i)
          ∧ (a.st = .miA → row (.fws m) [ans .gone .i] .miA ∧ row (.fwu m) [ans .gone .i] .miA
            ∧ row (.sng m) [ans .gone .i] .miA ∧ row (.snc m) [ans .gone .i] .miA ∧ row (.sni m) [ans .gone .i] .miA
            ∧ row (.inv m) [ans .gone .i] .miA)
          ∧ (a.st = .eiA → (∀ p ∈ kinds, p.2 ≠ .inv → row p.1 [ans .gone .i] .eiA) ∧ row (.inv m) [ans .ack .i] .eiA)
          ∧ (a.st = .i → ∀ p ∈ kinds, row p.1 [absent] .i)
          ∧ (a.st = .smA → a.wasO = false → (∀ p ∈ kinds, p.2 ≠ .inv → row p.1 [absent] .imD) ∧ row (.inv m) [ans .ack .i] .imD)
          ∧ (a.st = .smA → a.wasO = true → row (.fws m) [dat .s, ans .ack .o] .smA ∧ row (.fwu m) [dat .m, ans .ack .i] .imD
            ∧ row (.sng m) [full (ans .ackd .o)] .smA ∧ row (.snc m) [full (ans .ackd .s)] .smA
            ∧ row (.sni m) [full (ans .ackd .i)] .imD ∧ row (.inv m) [ans .ack .i] .imD))
      ∧ (s.isleClean i → a.window = true ∨ a.st = .isD ∨ a.st = .imD → ∀ p ∈ kinds, s.comes { m with ty := p.2 } →
          ∃ u, exec p.1 s = .next u ∧ u.net = (s.arrived { m with ty := p.2 }).net
            ∧ (u.isle i).line l = { a with deferred := a.deferred ++ [{ m with ty := p.2 }] })

/-- R147, R176, R182, R185, R187, R192, R193, R196, R202: grants, data, completions and BUSY answers at requesters, the
resend of a request with its token, the answers to snoops at a home, the next holder of an expired reservation, and the end
of a purge.
Log entries 7, 20, 22 and 51 are the model's readings in it. -/
def Obligations.GrantsAnswersAndTokens : Prop :=
  ∀ (s : State) (m : Msg),
    let i := m.dst.toNat
    let l := m.line.toNat
    let x := s.isle i
    let a := x.line l
    let v : LineVal := { bits := m.data, poison := m.poison }
    let comes (ty : MsgTy) : Prop := s.comes { m with ty }
    let taken (ty : MsgTy) : State := s.arrived { m with ty }
    (m.dst.toNat < 12 → s.isleFit i = true →
        (comes .pfh → x.cis.icen = true → s.home.drop.getLsbD i = false → a.st = .i → exec (.pfh m) s
            = .next (((taken .pfh).setIsle i (x.setLine l { a with
                st := .isD, wasO := false, gotData := none, grant := none, tag := if m.strm then 129 else 128 })).send
                { ty := .rds, src := m.dst, dst := 15, tag := if m.strm then 129 else 128, line := m.line, world := m.world
                  ctx := m.ctx, strm := m.strm }))
        ∧ (comes .gnt → m.resp = 0 → m.hasData = true → a.st = .isD ∨ a.st = .imD → a.tag.toNat < 128 → ∃ u, exec (.gnt m) s = .next u
            ∧ (u.isle i).line l = { a with st := stateOf m.st, val := v, window := true, gotData := none, grant := none, wasO := false }
            ∧ u = { taken .gnt with isles := u.isles, cores := u.cores })
        ∧ (comes .dat → a.st = .isD ∨ a.st = .imD → a.grant = none →
            exec (.dat m) s = .next ((taken .dat).setIsle i (x.setLine l { a with gotData := some v })))
        ∧ (comes .cmp → m.tag = 256 → a.st = .miA ∨ a.st = .eiA →
            exec (.cmp m) s = .next (((taken .cmp).setIsle i (x.setLine l { deferred := a.deferred })).retryFills i))
        ∧ (comes .cmp → m.tag ≠ 256 → exec (.cmp m) s = .next { taken .cmp with replies := s.replies ++ [{ m with ty := .cmp }] }))
      ∧ (comes .cmp → 12 ≤ m.dst.toNat → s.agentFit m.dst = true → { m with ty := .cmp } ∉ s.replies →
          exec (.cmp m) s = .next { taken .cmp with replies := s.replies ++ [{ m with ty := .cmp }] })
      ∧ (comes .busy → s.agentFit m.dst = true → { m with ty := .busy } ∉ s.replies →
          exec (.busyReceived m) s = .next { taken .busy with replies := s.replies ++ [{ m with ty := .busy }] })
      ∧ (s.agentFit m.src = true → ∀ r, s.replies.find? (fun r => r.ty == .busy && r.dst == m.src && r.tag == m.tag && r.line == m.line) = some r →
          exec (.tokenResend m) s = .next ({ s with replies := s.replies.erase r }.send { m with token := r.token }))
      ∧ ((s.txn m.line = none → (comes .ack → exec (.ack m) s = .next (taken .ack))
              ∧ (comes .ackd → exec (.ackd m) s = .next (taken .ackd)) ∧ (comes .gone → exec (.gone m) s = .next (taken .gone)))
          ∧ (∀ r : Msg, m.src.toNat < 12 → r.src.toNat < 12 → s.home.mask.getLsbD r.src.toNat = true → r.line = m.line →
            (s.slice (s.homeSlice m.line)).tokens = [] →
            (comes .ack → r.ty = .upg → s.txn m.line = some { req := r, waits := 1#16 <<< m.src.toNat } → ∃ u, exec (.ack m) s = .next u
              ∧ u.net = (taken .ack).net ++ [grantMsg r .m none] ∧ u.txn m.line = none
              ∧ u.entry m.line = { s.entry m.line with st := .x, owner := r.src, sharers := 0 })
            ∧ (comes .ackd → r.ty = .rdn → (s.entry m.line).st = .x → m.st = .m ∨ m.st = .e → m.poison = false →
              s.txn m.line = some { req := r, waits := 1#16 <<< m.src.toNat, owner := some m.src } → ∃ u, exec (.ackd m) s = .next u
              ∧ u.net = (taken .ackd).net ++ [cmpMsg r .ok (some m.data)] ∧ u.txn m.line = none ∧ u.entry m.line = s.entry m.line)
            ∧ (comes .gone → r.ty = .rdn → s.txn m.line = some { req := r, waits := 1#16 <<< m.src.toNat, owner := some m.src } →
              ∃ u, exec (.gone m) s = .next u ∧ u.net = (taken .gone).net
                ∧ u.txn m.line = some { req := r, waits := 1#16 <<< m.src.toNat, owner := some m.src, gone := true })))
      ∧ (∀ (k : Fin 24) (r : Resource) (a b : Token), s.chanFit k = true → (s.slice k).resv = [(r, a.num)] →
          (s.slice k).tokens = [a, b] → a.res = r → b.res = r → a.num ≠ b.num →
          exec (.reservationExpire k r) s = .next (s.setSlice k { s.slice k with resv := [(r, b.num)], ptr := b.agent + 1 }))
      ∧ (∀ dur : BitVec 64, s.home.purging = true → s.home.purgeNext = [] → s.closesOwn s.home.purgeIsle = false → exec (.purgeEnd dur) s
          = .next { s.recKey posDir 0o002003 s.home.purgeIsle.toNat [rp s.home.purgePois.toNat, rp dur.toNat] with
              home := { s.home with purging := false } })

/-- R207 to R210, R212 to R219, R226, R228 to R231: the lanes of a Strait. A replay sends again what is kept and charges the
lanes that carried bad bits; the sidebands fail over; a failed lane
leaves its logical lane to a spare, or the direction narrows; a dormant lane becomes a spare; a lane is recalibrated on a
stand-in; full training lays the lanes out; admission admits or quarantines the Isle.
Log entry 27: which spare is taken; log entry 58: flits. -/
def Obligations.StraitLanes : Prop :=
  ∀ (s : State) (n : Fin 12) (toK : Bool) (w : Who) (v : W36),
    let x := s.strait n
    let d := s.dirOf n toK
    let lost : Option Report := if x.armed = true ∨ x.result = 3 then x.due.or (some .severed) else none
    s.isleFit n = true →
      (∀ (q : BitVec 12) (bad : BitVec 104), ∃ u, exec (.flitCrcReplay n toK q bad) s = .next u
          ∧ u.dirOf n toK = { d with replay := q, resent := d.kept.drop (d.kept.length - (d.seq - q).toNat), lanes := (u.dirOf n toK).lanes }
          ∧ (∀ i : Fin 104, (u.dirOf n toK).lane i.val =
              if bad.getLsbD i.val = true ∧ ((d.lane i.val).role = .data ∨ (d.lane i.val).role = .standin ∨ (d.lane i.val).role = .recal) then
                { d.lane i.val with err := satAdd (d.lane i.val).err 1 } else d.lane i.val)
          ∧ u.dirOf n (!toK) = s.dirOf n (!toK) ∧ u = { s with straits := u.straits })
      ∧ (d.pri = false → ∃ u, exec (.sidebandFailover n toK) s = .next u ∧ u.dirOf n toK = { d with pri := true }
          ∧ (u.strait n).due = if d.bak then lost else x.due)
      ∧ (d.pri = true → exec (.sidebandFailover n toK) s = .next s)
      ∧ (∃ u, exec (.backupSidebandLaneFailed n toK) s = .next u ∧ u.dirOf n toK = { d with bak := true }
          ∧ (u.strait n).due = if d.pri then lost else x.due)
      ∧ (∀ i : Fin 104, x.st = .up → (d.lane i).err.toNat < 16 → d.lost = [] → 24 ≤ d.powered.length →
          exec (.laneFailed n toK (1#104 <<< i.val) 1) s = .next s)
      ∧ (∀ (i : Fin 104) (c : Fin 3), x.st = .up → x.recal = none → (d.lane i).role = .data → c ≠ 1 ∨ 16 ≤ (d.lane i).err.toNat →
          ∃ u, exec (.laneFailed n toK (1#104 <<< i.val) c) s = .next u ∧ (u.strait n).st = .stalled
            ∧ u.dirOf n toK = { d.setLane i { role := .failed, err := (d.lane i).err } with
                fail := d.fail + 1, lost := d.lost ++ [(d.lane i).logical.toNat] })
      ∧ (∀ (g : Fin 96) (j : Nat) (js : List Nat) (t : BitVec 32), x.st = .stalled → d.lost = [g.val] → (s.dirOf n (!toK)).lost = [] →
          d.having .spare = j :: js → ∃ u, exec (.substituted n toK t) s = .next u ∧ (u.strait n).st = .up
            ∧ u.dirOf n toK = { d.setLane j { d.lane j with role := .data, logical := BitVec.ofNat 7 g.val } with
                lost := [], restore := d.restore + 1, replay := d.acked
                resent := d.kept.drop (d.kept.length - (d.seq - d.acked).toNat) }
            ∧ (u.strait n).subst = satAdd x.subst 1)
      ∧ (∀ t : BitVec 32, x.st = .stalled → d.lost ≠ [] → (s.dirOf n (!toK)).lost = [] → d.having .spare = [] → d.width = 0 →
          48 ≤ d.powered.length → ∃ u, exec (.narrowed n toK t) s = .next u ∧ (u.strait n).st = .up
            ∧ (u.dirOf n toK).width = 1 ∧ (u.dirOf n toK).lost = [] ∧ (u.strait n).narrow = x.narrow + 1)
      ∧ (∀ (i : Nat) (js : List Nat), d.restore ≠ 0 → d.having .dormant = i :: js → claimOk s.ledger 0 1 = true →
          (∃ u, exec (.laneRestored n toK true) s = .next u
            ∧ u.dirOf n toK = { d.setLane i { d.lane i with role := .spare } with restore := d.restore - 1 })
          ∧ ∃ u, exec (.laneRestored n toK false) s = .next u
            ∧ u.dirOf n toK = { d.setLane i { role := .failed } with fail := d.fail + 1 })
      ∧ (∀ (i j : Nat) (is js : List Nat), x.st = .up → x.active = false → x.toI.powered = i :: is → (x.toI.lane i).role = .data →
          x.toI.having .spare = j :: js → claimOk s.ledger 0 1 = true →
          let on (c : Instr) (p : BitVec 8) : Prop := ∃ u, exec c s = .next u ∧ (u.strait n).recal = some (i, j)
            ∧ (u.strait n).active = true ∧ (u.strait n).period = p
            ∧ ((u.strait n).toI.lane i).role = .recal ∧ (u.strait n).toI.lane j = { x.toI.lane j with
                role := .standin, logical := (x.toI.lane i).logical }
          (x.period ≠ 0 → on (.recalPassStart n) x.period)
            ∧ (v.toNat < 2 ^ 12 → v.toNat % 4 = 0 → on (.run w n v) (BitVec.ofNat 8 (v.toNat / 16))))
      ∧ (∀ i j : Fin 104, i ≠ j → x.recal = some (i.val, j.val) → x.todo = [] → ∃ u, exec (.recalLaneDone n) s = .next u
          ∧ (u.strait n).recal = none ∧ (u.strait n).active = false ∧ ((u.strait n).toI.lane i).role = .data
          ∧ ((u.strait n).toI.lane j).role = .spare)
      ∧ (s.mayTrain n = true → x.st ≠ .training →
          (x.bearwait = true ∨ (s.isle n).cond = .out ∨ (s.isle n).cond = .admitted → ∀ s1, s.claim n.val 16 40 = (s1, true) →
            exec (.fullTraining n) s = .next (s1.setStrait n { x with st := .training, bearwait := false }))
          ∧ (x.bearwait = false → (s.isle n).cond = .reset → s.umf.islePolicy.getLsbD n = true → claimOk s.ledger 16 40 = true →
            ∃ u, exec (.fullTraining n) s = .next u ∧ (u.strait n).st = .training ∧ (u.isle n).st = .run
              ∧ (u.isle n).bootSeq = (s.isle n).bootSeq + 1 ∧ (u.isle n).iver = s.umf.ucodeVer ∧ u.mem = s.mem)
          ∧ (x.bearwait = false → (s.isle n).cond = .quarantined ∨ (s.isle n).cond = .reset ∧ s.umf.islePolicy.getLsbD n = false →
            exec (.fullTraining n) s = .next s))
      ∧ (s.mayTrain n = false → exec (.fullTraining n) s = .next s)
      ∧ (x.st = .training →
          (∃ u, exec (.fullTrainingDone n (BitVec.allOnes 104) (BitVec.allOnes 104)) s = .next u
            ∧ (u.strait n).st = .up ∧ (u.strait n).result = 3 ∧ (u.dirOf n toK).width = 0 ∧ (u.dirOf n toK).fail = 0
            ∧ ∀ i, i < 104 → ((u.dirOf n toK).lane i).role = (if i < 96 then .data else .spare)
              ∧ (i < 96 → ((u.dirOf n toK).lane i).logical = BitVec.ofNat 7 i))
          ∧ ∃ u, exec (.fullTrainingDone n 0 0) s = .next u ∧ (u.strait n).st = .severed ∧ (u.isle n).cond = .severed)
      ∧ (∀ ofs : BitVec 16, x.st = .up → x.result = 3 → ∃ u, exec (.admission n ofs) s = .next u
          ∧ let y := s.isle n
            let ver := decide (y.iver ≠ s.umf.admref ∧ ¬ (s.umf.altValid = true ∧ y.iver = s.umf.alt))
            let dig := decide (y.idigest ≠ x.refDigest)
            let lhm := s.lh.run && decide (8 < ofs.toInt.natAbs)
            (u.isle n).st = .run ∧ (u.strait n).armed = true
            ∧ ((ver || dig || lhm) = false → (u.isle n).cond = .admitted ∧ (u.strait n).result = 1
                ∧ u.home.mask.getLsbD n = true ∧ (u.isle n).regions = s.worlds.regions ∧ (u.isle n).rgnGen = s.worlds.gen)
            ∧ ((ver || dig || lhm) = true → (u.isle n).cond = .quarantined ∧ (u.strait n).result = 2 ∧ u.home.mask.getLsbD n = false
                ∧ (u.strait n).vermis = ver ∧ (u.strait n).digmis = dig ∧ (u.strait n).lhmis = lhm))

/-- R24, R221, R223 to R226, R235 to R242: the watchdog of an Isle, and the Gatehouse's guest sites: the framing of a
request's octets, requests refused, sent on or waiting for a token, their completions, the accesses of a site's block, and the
site's link.
Log entries 31, 46 and 59 are the model's readings in it. -/
def Obligations.WatchdogAndGuests : Prop :=
  ∀ (s : State) (n : Fin 12) (g : Fin 2) (w : Who),
    let x := s.strait n
    let y := s.site g
    let sees (k : Report) : Option Report := x.due.or (some k)
    (s.isleFit n = true →
        (∀ (q : BitVec 8) (r k : Bool), (s.isle n).mute = true ∨ (x.toK.pri && x.toK.bak) = true → exec (.heartbeat n r k q) s = .next s)
        ∧ (∀ q : BitVec 8, x.armed = true ∨ x.result = 3 → (s.isle n).mute = false → (x.toK.pri && x.toK.bak) = false →
          let base := (s.setStrait n { x with seenSeq := q }).setIsle n { s.isle n with bootSeq := q }
          (q = x.seenSeq → exec (.heartbeat n false false q) s = .next base)
            ∧ (q = x.seenSeq → exec (.heartbeat n false true q) s = .next (base.setStrait n { x with seenSeq := q, due := sees .clock }))
            ∧ (∀ r k, r = true ∨ q ≠ x.seenSeq →
                exec (.heartbeat n r k q) s = .next (base.setStrait n { x with seenSeq := q, due := sees .reset })))
        ∧ (x.armed = true ∨ x.result = 3 → exec (.heartbeatTimeout n) s = .next (s.setStrait n { x with due := sees .severed }))
        ∧ (∀ k : Report, x.due ≠ some k ∨ (x.armed = false ∧ x.result ≠ 3) → exec (.watchdogReport n k) s = .next s)
        ∧ (∀ k : Report, x.armed = true ∨ x.result = 3 → x.due = some k → ∃ u, exec (.watchdogReport n k) s = .next u
          ∧ u.home.mask.getLsbD n = false ∧ (u.strait n).armed = false ∧ (u.isle n).lines = []
          ∧ (u.isle n).cond = (if x.result = 3 then .reset else match k with | .severed => .severed | .reset => .reset | .clock => .clockLost)
          ∧ (s.home.mask.getLsbD n = true → u.home.purging = true))
        ∧ ((s.isle n).vcore = true → (s.isle n).cond = .severed ∨ (s.isle n).cond = .clockLost → ∃ u, exec (.vcoreRemove n) s = .next u
          ∧ (u.isle n).vcore = false ∧ sget ({} : Amount) u.ledger.claimed n = {}
          ∧ u = { s with isles := u.isles, straits := u.straits, ledger := u.ledger }))
      ∧ (∀ (ty len : BitVec 8) (tag : BitVec 16) (addr : BitVec 48) (data : List Octet),
          data.length = (if ty = 2 then len.toNat else 0) →
          frame ([ty, tag.extractLsb' 0 8, tag.extractLsb' 8 8] ++ (List.range 6).map (fun i => addr.extractLsb' (8 * i) 8) ++ len :: data)
            = some ({ ty, tag, addr, len, data := bitsLe 576 (data.take 72) }, []))
      ∧ (s.siteFit g = false → ∀ (off : BitVec 32) (v : W36) (ans : BitVec 32) (err : Bool),
          let absent (v : W36) : State := s.setSite g { y with regAns := (Resp.absent.num, v) }
          exec (.guestRegisterAccess w g off none ans) s = .next (absent (BitVec.allOnes 36))
            ∧ exec (.guestRegisterAccess w g off (some v) ans) s = .next (absent 0)
            ∧ exec (.guestAccessFailed w g off none err) s = .next (absent (BitVec.allOnes 36))
            ∧ exec (.guestAccessFailed w g off (some v) err) s = .next (absent 0))
      ∧ (s.siteFit g = true →
        (∀ (h : GHead) (octets : List Octet) (l1 : Bool), frame octets = some (h, []) → y.stream = [] → (s.site (1 - g.val)).next = none →
          y.link = 2 ∨ y.link = 3 → y.outst.length + y.waiting.length < 128 →
          let came : Site := { y with l1 := false }
          let ends (u : State) : State :=
            let u := u.modSite 0 fun z => { z with turn := BitVec.ofNat 1 (g.val + 1) }
            if l1 then u.modSite g fun z => { z with l1 := true } else u
          let q : GReq := { tag := h.tag, write := h.ty == 2, dense := false, addr := 0, len := h.len.toNat, data := h.data }
          let refused (st : BitVec 8) : State :=
            ends (s.setSite g { came with refuse := y.refuse + 1, outst := y.outst ++ [{ q with status := some st }] })
          let runs (u : State) : Prop := exec (.guestRequest g octets [] l1) s = .next u
          ((h.ty ≠ 1 ∧ h.ty ≠ 2 ∨ h.len = 0 ∨ 72 < h.len.toNat) → runs (refused 11))
            ∧ ((h.ty = 1 ∨ h.ty = 2) → h.len ≠ 0 → h.len.toNat ≤ 72 →
                (∀ st, s.guestCheck g (h.ty == 2) h.addr h.len.toNat = .error st → runs (refused st))
                ∧ ∀ pa, s.guestCheck g (h.ty == 2) h.addr h.len.toNat = .ok pa →
                  let r : GReq := { q with dense := (sget ({} : GWin) y.wins (h.addr.extractLsb' 44 4).toNat).pack, addr := BitVec.ofNat 52 pa }
                  let ready := if y.rate = 0 then 0 else min y.burst.toNat y.tokens.toNat
                  (ready = 0 ∨ y.waiting ≠ [] → runs (ends (s.setSite g { came with waiting := y.waiting ++ [r] })))
                  ∧ (ready ≠ 0 → y.waiting = [] → l1 = false →
                      let p := (s.setSite g { came with tokens := BitVec.ofNat 12 (ready - 1) }).guestServe g r
                      runs ((ends (p.1.setSite g { p.1.site g with outst := (p.1.site g).outst ++ [p.2] })).gatehouse
                        (octets.length + (s.site (1 - g.val)).stream.length)))))
        ∧ (∀ (tag : BitVec 16) (q : GReq) (st : BitVec 8), y.outst.find? (fun q => q.tag == tag) = some q → q.status = some st →
            y.stream = [] → (s.site (1 - g.val)).next = none → exec (.guestCompletion g tag) s = .next (s.setSite g { y with
              outst := y.outst.erase q, l1 := false, sent := if q.drop then y.sent else y.sent ++ [(tag, st, q.answer)] }))
        ∧ (y.waiting = [] → exec (.gatehouseTokenRefill g) s
            = .next (s.setSite g { y with tokens := BitVec.ofNat 12 (min y.burst.toNat (y.tokens.toNat + y.rate.toNat)) }))
        ∧ (∀ (off : BitVec 32) (wr : Option W36) (ans : BitVec 32) (err : Bool),
            let v := wr.map fun v => v.setWidth 32
            let a : GAcc := { who := w, off, wr := v }
            let answered (r : Resp) (d : W36) : State := s.setSite g
              (if a ∈ y.regOut then { y with regOut := y.regOut.erase a, regAns := (r.num, d), regDone := y.regDone ++ [(a, r.num, d)] }
                else { y with l1 := false, regTx := y.regTx ++ [(off, v)], regAns := (r.num, d) })
            (s.siteAnswer w g = .ok →
              exec (.guestRegisterAccess w g off wr ans) s = .next (answered .ok (if wr.isSome then 0 else ans.setWidth 36))
              ∧ exec (.guestAccessFailed w g off wr err) s = .next ((answered .poison 0).recKey posGth 0o012002
                  (siteNum g) [off.setWidth 72, rp (if err then 1 else 0)] (s.whoVault w) (s.whoCtx w) (whoThread w)))
            ∧ (s.siteAnswer w g ≠ .ok →
                let no := s.setSite g { y with regAns := ((s.siteAnswer w g).num, 0) }
                exec (.guestRegisterAccess w g off wr ans) s = .next no ∧ exec (.guestAccessFailed w g off wr err) s = .next no))
        ∧ (y.link = 2 ∨ y.link = 3 → ∃ u, exec (.guestLinkLost g) s = .next u
            ∧ u.site g = { y with link := 4, l1 := false, stream := [], waiting := [], regOut := []
                                  outst := (y.outst.filter fun q => q.status.isNone).map fun q => { q with drop := true } })
        ∧ (y.link = 0 ∨ y.link = 1 → exec (.guestLinkTrained g false) s = .next (s.setSite g { y with link := 0 })
            ∧ ∀ s1, s.claim reqUmf 0 8 = (s1, true) → exec (.guestLinkTrained g true) s = .next (s1.setSite g { y with link := 2 }))
        ∧ (y.link = 2 ∨ y.link = 3 → exec (.ucieLaneRepair g) s = .next (s.setSite g { y with link := 3 })))

/-- R254, R258, R261, R264 to R273, R275, R278: what a channel does: the scheduler's order of reads; a queued read answers its
home, or freezes the channel; a queued write reaches DRAM when writes may go; rereads count corrected errors; refreshes, tallies
and tracking; the end of a training and of a POISON fill; a parity error.
Log entries 15, 17, 23 and 24 are the model's readings in it. -/
def Obligations.DramChannels : Prop :=
  ∀ (s : State) (c : Fin 24) (n : LineNo) (err : BitVec 640) (o : ReadOut),
    let x := s.chan c
    let here := ashlarRead x.mark (s.memGet n) err
    let alone : Prop := ∀ w ∈ x.writeQ, w.line ≠ n
    s.chanFit c = true →
      (∀ r q, x.readQ = r :: q → 16 ≤ r.passed ∨ (∀ p ∈ x.readQ, p.passed < 16 ∧
            x.rh.hits (s.localLine p.line) = x.rh.hits (s.localLine r.line)) → s.nextRead c = some r.line)
      ∧ (x.st ≠ .run ∨ s.nextRead c ≠ some n → exec (.dramRead c n err) s = .next s)
      ∧ (x.st = .run → s.nextRead c = some n → alone → x.draining = false →
          (∀ (r : Msg) (older younger : List QRead) (k : Nat), r.ty = .rdn → 12 ≤ r.src.toNat → r.line = n →
            s.txn n = some { req := r, memWait := true } → (s.slice (s.homeSlice n)).tokens = [] → here = some o → fixedDevs o.fixed = [] →
            x.readQ = older ++ { line := n, passed := k } :: younger → (∀ q ∈ older, q.line ≠ n) → x.readWait = [] →
            ∃ u, exec (.dramRead c n err) s = .next u
              ∧ (u.chan c).readQ = older.map (fun q => { q with passed := q.passed + 1 }) ++ younger ∧ u.mem = s.mem ∧ u.txn n = none
              ∧ u.replies = s.replies ++ [if o.val.poison then cmpMsg r .poison none else cmpMsg r .ok (some o.val.bits)])
          ∧ (here = none → ∃ u, exec (.dramRead c n err) s = .next u ∧ (u.chan c).st = .frozen ∧ (u.chan c).frzCause = 1
              ∧ (u.chan c).frzLine = n ∧ (u.chan c).readQ = [] ∧ (u.chan c).writeQ = x.writeQ))
      ∧ (∀ (w : QWrite) (q : List QWrite), x.st = .run → x.writeQ = w :: q → w.behind = false →
          (x.draining = true ∨ x.readQ = [] → ∃ u, exec (.dramWrite c) s = .next u ∧ (u.chan c).writeQ = q ∧ u.memGet w.line = w.val
            ∧ ((u.chan c).draining = true ↔ x.draining = true ∧ 16 < q.length) ∧ ∀ l, l ≠ w.line → u.memGet l = s.memGet l)
          ∧ (x.draining = false → x.readQ ≠ [] → exec (.dramWrite c) s = .next s))
      ∧ (∀ (d : Nat) (sy : BitVec 2) (id : Xid), x.st = .run → x.rereads = [{ line := n, devs := [(d, sy)], id }] → alone →
          x.writeQ.length < 64 → here = some o → ∃ u, exec (.correctedReread c err) s = .next u
            ∧ sget 0 (u.chan c).cecnt d = satAdd (sget 0 x.cecnt d) 1 ∧ u.mem = s.mem
            ∧ let new := (fixedDevs o.fixed).filter fun a => a.1 ≠ d
              (u.chan c).rereads = if new = [] then [] else [{ line := n, devs := new, id }])
      ∧ (x.st = .run → x.readQ = [] → x.draining = false → lineIn c s.memSets x.patrol = some n.toNat → alone → here = some o →
          fixedDevs o.fixed = [] → ∃ u, exec (.patrolRead c err) s = .next u ∧ u.mem = s.mem
            ∧ (u.chan c).patrol = if x.patrol + 1 < x.lines then x.patrol + 1 else 0)
      ∧ (∀ hot : Bool, x.st = .run ∨ x.st = .frozen → exec (.refsb c hot) s
          = .next (s.setChan c { x.issue [.refresh] with rh := { x.rh with halved := hot, refsb := x.rh.refsb + 1 } }))
      ∧ (∀ temp : BitVec 16,
          (temp.toNat ≤ 1520 → exec (.memThrottled c temp) s = .next (s.setChan c { x with rh := { x.rh with throttled := false } }))
          ∧ (1520 < temp.toNat → exec (.memThrottled c temp) s
              = .next ((s.setChan c { x with rh := { x.rh with throttled := true } }).recKey posUmf 0o004022 c [rp temp.toNat])))
      ∧ (∀ (bank : BitVec 16) (row : BitVec 32), x.st = .run → (bank.toNat, row.toNat) ∈ x.rh.sampled →
          (x.drfm = true → exec (.sampledRowRefresh c bank row) s
            = .next (s.setChan c { x.issue [.neighbour bank.toNat row.toNat] with rh := { x.rh with
                sampled := x.rh.sampled.erase (bank.toNat, row.toNat), nbr := satAdd x.rh.nbr 1 } }))
          ∧ (x.drfm = false → ∃ u, exec (.sampledRowRefresh c bank row) s = .next u ∧ u = { s with chans := u.chans }
              ∧ (u.chan c).rh.nbr = satAdd x.rh.nbr 1 ∧ sget false (u.chan c).rh.rowOpen bank.toNat = false
              ∧ (u.chan c).rh.acts = x.rh.acts + if row.toNat = 0 then 1 else 2))
      ∧ exec (.tallyClear c) s = .next (s.setChan c { x with rh := { x.rh with tally := [] } })
      ∧ (x.st = .run → x.trackms ≠ 0 →
          (claimOk s.ledger 0 4 = true → ∃ u, exec (.trackingRetrain c) s = .next u
            ∧ (∀ k, sget ({} : Amount) u.ledger.claimed k = sget {} s.ledger.claimed k) ∧ u.chan c = x.issue [.track]
            ∧ u = { s with ledger := { s.ledger with claimed := u.ledger.claimed, ptr := 13 + c.val }, chans := u.chans })
          ∧ (claimOk s.ledger 0 4 = false → ∃ u, exec (.trackingRetrain c) s = .next u
            ∧ u = { s with ledger := { s.ledger with refused := s.ledger.refused + 1, ptr := 13 + c.val }, chans := u.chans }
            ∧ u.chan c = { x with trackdefer := satAdd x.trackdefer 1 }))
      ∧ (x.bearwait = false → x.st = .training →
          exec (.channelFullTraining c true) s = .next ((s.release (12 + c.val) 0 24).setChan c { x with st := .filling })
          ∧ ∃ u, exec (.channelFullTraining c false) s = .next u ∧ (u.chan c).st = .failed ∧ (u.chan c).writeQ = [])
      ∧ (x.st = .filling → x.inService = true → ∃ u, exec (.poisonFillDone c) s = .next u ∧ (u.chan c).st = .run
          ∧ (u.chan c).inService = false ∧ ∀ l loc, s.place l = some (c.val, loc) → loc < x.lines → u.memGet l = { bits := 0, poison := true })
      ∧ (∀ line : Option LineNo, x.st = .run → ∃ u, exec (.caParityAlert c line) s = .next u ∧ (u.chan c).st = .frozen
          ∧ (u.chan c).frzCause = 2 ∧ (u.chan c).noline = line.isNone ∧ (u.chan c).readQ = [] ∧ (u.chan c).replay = [.blocked line])
      ∧ (∀ line : Option LineNo, x.st = .frozen → exec (.caParityAlert c line) s
          = .next ((s.setChan c { x with caCount := x.caCount + 1 }).recKey (posMc c) 0o004012 c []))

/-- R249, R260, R263, R270, R272, R277, R395: Umfoent's memory commands, served for mailbox m and naming channel c: a frozen
channel resumes with what it lost POISON, is retrained or is failed; a running one is retrained; marks, repairs and the
excluded channels of the stored configuration.
The STATUS and DETAIL of a thaw and of a retrain are the model's reading (log entries 36 and 60). -/
def Obligations.MemoryCommands : Prop :=
  ∀ (s : State) (m : Fin 16) (c : Fin 24),
    let x := s.chan c
    let b := s.box m
    let room : Prop := s.unitBusy (.channel c) = false ∧ b.handlesFull = false
    let has (u : State) (res : Option (BitVec 8 × BitVec 8)) : Prop := ∃ h ∈ (u.box m).handles, h.unit = .channel c ∧ h.res = res
    s.umf.serving = some m → b.argN 1 = c.val → s.chanFit c = true →
      (b.cmd = 32 → x.st = .frozen → room →
          (b.argN 2 = 0 → claimOk s.ledger 0 4 = true → x.lostovf = false → ∃ u, exec (.resume m true) s = .next u
            ∧ (u.chan c).st = .run ∧ (u.chan c).writeQ = [] ∧ (∀ l ∈ x.lost, u.memGet l = { bits := 0, poison := true })
            ∧ has u (some (0, 0)))
          ∧ (b.argN 2 = 1 → ∃ u, exec (.retrain m) s = .next u ∧ has u none
            ∧ (claimOk s.ledger 0 24 = true → (u.chan c).st = .training ∧ (u.chan c).writeQ = [])
            ∧ (claimOk s.ledger 0 24 = false → (u.chan c).st = .frozen ∧ (u.chan c).bearwait = true))
          ∧ (b.argN 2 = 2 → ∃ u, exec (.fail m) s = .next u ∧ (u.chan c).st = .failed
            ∧ u.board.flash.excluded.getLsbD c = true ∧ has u (some (0, 1))))
      ∧ (b.cmd = 33 → x.st = .run → room → claimOk s.ledger 0 24 = true → ∃ u, exec (.memRetrain m) s = .next u
          ∧ (u.chan c).st = .training ∧ has u none)
      ∧ (b.cmd = 33 → x.st ≠ .run → exec (.memRetrain m) s = .next (s.respond m 3 []))
      ∧ (b.cmd = 34 → x.st = .excluded → s.unitBusy (.channel c) = false → exec (.memInclude m) s
          = .next ({ s with board := { s.board with flash := { s.board.flash with
              excluded := s.board.flash.excluded &&& ~~~(1#24 <<< c.val) } } }.respond m 0 []))
      ∧ (b.cmd = 35 → b.argN 2 < 20 → s.unitBusy (.channel c) = false → x.mark = none → exec (.memMark m) s
          = .next (((s.setChan c { x with mark := some (BitVec.ofNat 5 (b.argN 2)) }).recKey (posMc c) 0o004002 c
              [rp (b.argN 2), 1]).respond m 0 []))
      ∧ (b.cmd = 36 → s.unitBusy (.channel c) = false → (sget [] s.board.flash.repair c).length < 8 → exec (.memPprEnroll m) s
          = .next ({ s with board := { s.board with flash := { s.board.flash with
              repair := sset [] s.board.flash.repair c (sget [] s.board.flash.repair c ++ [(b.arg 2, b.arg 3, b.arg 4, b.arg 5)]) } } }.respond
            m 0 []))

/-- R284, R286, R291 to R301, R308: a port's link trains or goes down; an access of an outbound window leaves as a request with
its tag, and its completion, its timeout or its late completion is taken; a memory request from below, with none before it,
reads or writes its window, or is refused, or is an interrupt message; an INTx level.
Log entries 26, 35 and 61: what training sets, how a response becomes a completion, and AER's bits. -/
def Obligations.PortTraffic : Prop :=
  ∀ (s : State) (p : Fin 96) (w : Who) (tag : BitVec 14) (data : LineBits),
    let x := s.port p
    let b := p.val / 8
    (∀ r : LinkRes, 8 < s.board.step → s.portMade p = true → x.role ≠ 0 → s.portLocked p = false → (s.block b).st ≠ .dry →
        let now := if r.up then linkBearing r.width.toNat (r.rate == 6) else 0
        let need := 24 + (now - x.hub)
        let y : Port := if x.role = 2 ∧ x.link ≠ 2 then
          { x with quayGen := x.quayGen + 1, quay := s.quayTable b p (x.quayGen + 1) } else x
        (claimOk s.ledger 0 (need - (s.block b).hold) = true → ∃ u, exec (.portLinkTraining p r) s = .next u
          ∧ (r.up = false → x.role = 2 → x.link = 2 → s.epPort b = some p.val → (u.port p).bme = false ∧ (u.port p).epStat = 0)
          ∧ (r.up = true ∨ x.role ≠ 2 ∨ x.link ≠ 2 → (u.block b).bearwait = false ∧ (u.block b).hold = 0
          ∧ u.port p = (if r.up then { y with link := 2, width := r.width, rate := r.rate, flit := r.flit
                                              cxlup := r.cxl && x.cxl && decide (8 ≤ s.portWidth p)
                                              dstate := if x.link = 2 then x.dstate else 0 }
              else { y with link := 0, width := 0, rate := 0, flit := false, cxlup := false, intx := 0 })
          ∧ u = { s with ports := u.ports, ledger := u.ledger }))
        ∧ (claimOk s.ledger 0 (need - (s.block b).hold) = false → ∃ u, exec (.portLinkTraining p r) s = .next u
          ∧ (u.block b).bearwait = true ∧ (u.block b).wants = need ∧ u.port p = x))
      ∧ (∀ r : LinkRes, s.board.step ≤ 8 → exec (.portLinkTraining p r) s = .next s)
      ∧ (∀ (pa : BitVec 52) (sz : MUnit5) (win : OWin), s.cxlWin (BitVec.ofNat 46 (pa.toNat / 64)) = none →
          let k := unit5Nonets sz
          let a := pa.toNat - pa.toNat % k
          let bus := BitVec.ofNat 64 (win.bus + (a - win.base))
          let turn := (s.askerOf w).src + 1
          s.owinAt pa.toNat = some win → s.owinAt a = some win → win.kind = 1 → win.port.toNat = p.val →
          s.whoVault w = true ∨ inVault s.worlds.regions a = false →
          s.winRefuses win (s.whoVault w) = false → (s.block b).st ≠ .dry → x.link = 2 →
            (∃ u, exec (.outboundRequest [{ w, pa, size := sz, wr := some data }]) s = .next u
              ∧ (u.port p).tx = x.tx ++ [.request 0 bus (some (looseOut data (a % 64) k).1) k] ∧ (u.port p).txPtr = turn
              ∧ u = { s with ports := u.ports, snd := u.snd })
            ∧ (x.ans = [] → x.out = [] → ∃ u, exec (.outboundRequest [{ w, pa, size := sz, wr := none }]) s = .next u
              ∧ (u.port p).tx = x.tx ++ [.request x.freeTag bus none k] ∧ (u.port p).txPtr = turn
              ∧ (u.port p).out = [{ tag := x.freeTag, src := .who w, addr := bus, octets := k, write := false }]
              ∧ (u.port p).nextTag = x.freeTag + 1 ∧ u = { s with ports := u.ports, snd := u.snd }))
      ∧ (∀ r : PortReq, x.out.find? (fun r => r.tag == tag) = some r → ∀ (st : CplStatus) (bs : List Octet),
          let own : Prop := match r.src with | .home n => s.txn n = none | .dropped => False | .who _ | .engine _ => True
          let toEngine : Bool := match r.src with | .engine _ => true | .home _ | .dropped | .who _ => false
          let resp : BitVec 3 := match st with | .success => 0 | .poisoned => 5 | .unsupported => 1 | .abort => if toEngine then 1 else 5
          let gone := if toEngine then (1 : BitVec 3) else 5
          let id := s.srcId p r.src
          let late : Port := { x with dead := x.dead ++ [tag], cfg := { x.cfg with aer := x.cfg.aer ||| 1#32 <<< 14 } }
          (own → ∃ u, exec (.portCompletion p tag st bs) s = .next u ∧ (u.port p).out = x.out.erase r
            ∧ (u.port p).ans = x.ans ++ [{ src := r.src, addr := r.addr, write := r.write, resp
                                           data := if st = .success ∧ r.write = false then bs.take r.octets else [] }]
            ∧ u = { s with ports := u.ports, snd := u.snd })
          ∧ (r.src = .dropped → ∃ u, exec (.portCompletion p tag st bs) s = .next u ∧ u.port p = { x with out := x.out.erase r }
            ∧ u = { s with ports := u.ports, snd := u.snd })
          ∧ (own → exec (.cplTimeout p tag) s = .next (((s.setPort p late).recKey
              (posPort b) 0o005001 p [r.addr.setWidth 72, tag.setWidth 72] id.1 id.2.1 id.2.2).setPort p { late with
                out := x.out.erase r
                ans := x.ans ++ [{ src := r.src, addr := r.addr, write := r.write, resp := gone, data := [] }] })))
      ∧ (∀ st bs, x.out.find? (fun r => r.tag == tag) = none →
          (tag ∈ x.dead → exec (.portCompletion p tag st bs) s
            = .next ((s.setPort p { x with late := x.late + 1 }).recKey (posPort b) 0o005002 p [0, tag.setWidth 72] (s.portVault p)))
          ∧ (tag ∉ x.dead → tag ∈ x.gone → exec (.portCompletion p tag st bs) s
            = .next (s.setPort p { x with late := x.late + 1, gone := x.gone.erase tag })))
      ∧ exec (.tagReuseAllowed p tag) s = .next (s.setPort p { x with dead := x.dead.filter fun t => t != tag })
      ∧ (x.role = 1 → x.link = 2 →
          (x.waits = [] → ∀ (t : Fin 576) (v : BitVec 3), s.isleFit (t.val / 48) = true → (s.isle (t.val / 48)).cond = .admitted →
            let y := s.thread t
            let vault := s.portVault p
            let u : State := ((s.setPort p x).sndKey 48 p vault 4).setThread t
              (y.setWreg vault { y.wreg vault with msgPend := (y.wreg vault).msgPend ||| 1#8 <<< v.toNat })
            exec (.interruptMessage p (BitVec.ofNat 64 (0xFEE00000 + 16 * t.val)) (v.setWidth 32)) s = .next u
              ∧ exec (.inboundRequest p .write (BitVec.ofNat 64 (0xFEE00000 + 16 * t.val)) 0 [v.setWidth 8, 0, 0, 0]) s = .next u)
          ∧ (x.waits = [] → ∀ (addr : BitVec 64) (len : BitVec 13) (bs : List Octet) (kind : TlpKind),
            let s' := s.setPort p { x with waits := [.mem kind addr.toNat len.toNat bs] }
            let takes (u : State) : Prop := exec (.inboundRequest p kind addr len bs) s = .next u
            let ends (u : State) : Prop := takes (u.modPort p fun y => { y with waits := [] })
            (kind = .atomic → ends (s'.portSend p (.completion [] .unsupported) 0))
            ∧ (kind = .read → x.winFor 0 addr.toNat len.toNat = none → ends (s'.portSend p (.completion [] .unsupported) 0))
            ∧ (kind = .write → 512 < bs.length → ends (s'.aer p 18))
            ∧ ∀ win : Win,
              let at' := win.target + (addr.toNat - win.base)
              (kind = .read → x.winFor 0 addr.toNat len.toNat = some win → win.rd = true →
                (win.pack = false → ∀ s1 r,
                  (s'.readLoose (s'.portAsker p) p at' len.toNat = (s1, some (.ok, r, false)) → ends (s1.sendCpl p addr.toNat r .success))
                  ∧ (s'.readLoose (s'.portAsker p) p at' len.toNat = (s1, none) → takes s1))
                ∧ (win.pack = true → (addr.toNat - win.base) % 72 ≠ 0 ∨ len.toNat % 72 ≠ 0 →
                  ends ((s'.modPort p fun y => { y with packerr := y.packerr + 1 }).portSend p (.completion [] .abort) 0)))
              ∧ (kind = .write → bs.length ≤ 512 → bs.length ≠ 4 ∨ msgThread addr.toNat = none →
                x.winFor 0 addr.toNat bs.length = some win → win.wr = true → win.pack = false → ∀ s1,
                  (s'.writeLoose (s'.portAsker p) at' bs = (s1, some .ok) → ends (s1.sndKey 48 p (s1.portVault p) bs.length))
                  ∧ (s'.writeLoose (s'.portAsker p) at' bs = (s1, none) → takes s1)))
          ∧ (∀ (pin : Fin 4) (on : Bool), exec (.intxMessage p pin on) s = .next (s.setPort p { x with
              intx := if on then x.intx ||| 1#4 <<< pin.val else x.intx &&& ~~~(1#4 <<< pin.val) }))
          ∧ (∀ dpc : Bool, ∃ u, exec (.surpriseRemoval p dpc) s = .next u ∧ u = { s with ports := u.ports, ledger := u.ledger }
            ∧ u.port p = { x with link := if dpc then 4 else 0, width := 0, rate := 0, flit := false, cxlup := false, intx := 0 }))

/-- R288, R301 to R303, R305, R307 to R309, R453: what the host does to the endpoint face of a port block, with no request
before it waiting: configuration space, BARs, lent memory, interrupt registers, Bus Master Enable, D-states, PME and resets.
Log entries 26, 35 and 61: what training sets, how a response becomes a completion, and the standard registers' places. -/
def Obligations.EndpointEvents : Prop :=
  ∀ (s : State) (b : Fin 12) (p : Nat) (v : BitVec 32),
    let x := s.port p
    let stopped : Port := { x with gone := x.gone ++ x.out.map (·.tag), out := [], ans := [] }
    let sofar (r : Nat) (w : Work) : BitVec 64 :=
      ((s.harbour.engines.findSome? fun e => e.2.job.filter fun j => j.ring.val == r && j.slot == w.slot).map Job.sofar).getD 0
    s.epPort b = some p →
      ((s.cfgWord p 0).toNat / 2 ^ 16
            = (match s.variant with | .ty2304 => 0x2304 | .ty1920 => 0x1920 | .ty1536 => 0x1536 | .ty1920g => 0x192A)
          ∧ (s.cfgWord p 8).toNat / 2 ^ 8 = if x.cxlup then 0x050210 else 0x058000)
      ∧ (x.link = 2 → x.waits = [] →
          (∀ (space : HostSpace) (off : BitVec 40) (wr : Option (List Octet)) (len : BitVec 13) (pz : Bool),
            let k := match wr with | some bs => bs.length | none => len.toNat
            let s' := s.setPort p { x with waits := [.bar space off.toNat wr k pz] }
            let takes (u : State) : Prop := exec (.hostBarRequest b space off wr len pz) s = .next u
            let ends (u : State) : Prop := takes (u.modPort p fun y => { y with waits := [] })
            let shows (f : Nat → Octet) : Prop :=
              ends (s'.sendCpl p off.toNat ((List.range len.toNat).map fun i => f (off.toNat + i)) .success)
            (space = .config → wr = none → len = 4 → off.toNat % 4 = 0 →
              ends (s'.sendCpl p off.toNat (octets32 (s'.cfgWord p off.toNat)) .success))
            ∧ (x.dstate ≠ 0 ∨ x.cfg.mse = false → space ≠ .config → ends (s'.refuseTlp p wr.isSome .unsupported))
            ∧ (x.dstate = 0 → x.cfg.mse = true →
              (space = .bar0 → wr = none → off.toNat < 0x100000 → shows fun i => s'.bar0Octet b p i)
              ∧ (space = .rom → wr = none → x.cfg.rom.getLsbD 0 = true → off.toNat < 0x10000 → shows fun i => x.quay.getD i 0)
              ∧ (space = .bar0 → off = 0x1104 → wr = some (octets32 v) → ∃ u, takes u ∧ (u.port p).epEn = v.setWidth 3
                ∧ u = { s with ports := u.ports, snd := u.snd })
              ∧ ∀ (win : Win) (s1 : State), space = .bar2 → x.winFor 2 off.toNat k = some win →
                let at' := win.target + (off.toNat - win.base)
                (wr = none → win.rd = true → ∀ bs,
                  (s'.readLoose (s'.portAsker p) p at' len.toNat = (s1, some (.ok, bs, false)) → ends (s1.sendCpl p off.toNat bs .success))
                  ∧ (s'.readLoose (s'.portAsker p) p at' len.toNat = (s1, none) → takes s1))
                ∧ (∀ bs, wr = some bs → win.wr = true →
                  (s'.writeLoose (s'.portAsker p) at' bs pz = (s1, some .ok) → ends (s1.sndKey 48 p (s1.portVault p) bs.length))
                  ∧ (s'.writeLoose (s'.portAsker p) at' bs pz = (s1, none) → takes s1)
                  ∧ (s'.writeLoose (s'.portAsker p) at' bs pz = (s1, some .world) →
                    ends (s1.recKey (posPort (p / 8)) 0o005004 p [rp at', rp 1] (s1.portVault p))))))
          ∧ (∀ (addr : BitVec 52) (win : Win) (a pa : Nat) (mask : BitVec 64) (wr : Option LineBits) (l : LineBits) (poison : Bool)
              (s1 : State), x.dstate = 0 → x.cxlup = true → x.hdmAddr (addr.toNat - addr.toNat % 64) = some a →
            lendAt ((x.wins.filter fun w => w.2.en && w.2.space == 1).map (·.2)) a = some (win, pa) →
            let s' := s.setPort p { x with waits := [.lend addr.toNat wr mask poison] }
            let takes (u : State) : Prop := exec (.lendingRequest b addr wr mask poison) s = .next u
            (wr = none → win.rd = true → s'.lineRead (s'.portAsker p) (BitVec.ofNat 46 (pa / 64)) (BitVec.allOnes 64) = (s1, some (.ok, l)) →
              ∃ u, takes u ∧ (u.port p).lent = some { bits := (dropMarks l).1 } ∧ (u.port p).waits = [])
            ∧ (∀ d, wr = some d → win.wr = true →
              s'.lineWrite (s'.portAsker p) (BitVec.ofNat 46 (pa / 64)) mask (dropMarks d).1 poison = (s1, some (.ok, l)) →
              takes ((s1.sndKey 48 p (s1.portVault p) 64).modPort p fun y => { y with waits := [] }))))
      ∧ (x.link = 2 → x.cfg.mse = true → x.dstate = 0 →
          exec (.prtEpintstatWrite b v) s = .next (s.setPort p { x with epStat := x.epStat &&& ~~~(v.setWidth 3) }.driveInta))
      ∧ (∀ on : Bool, exec (.interruptDisableWrite b on) s = .next (s.setPort p { x with intDis := on }.driveInta))
      ∧ (∃ u, exec (.busMasterEnableClear b) s = .next u ∧ u.port p = { stopped with bme := false }
          ∧ (∀ r, (s.ring r).epb.toNat = b.val + 1 → (u.ring r).works = (s.ring r).works.map fun w =>
              if w.res.isNone && w.desc.host then { w with timed := false, res := some (12, sofar r w) } else w)
          ∧ u = { s with ports := u.ports, harbour := u.harbour })
      ∧ (x.dstate = 0 → ∃ u, exec (.d3hotEntry b) s = .next u ∧ u.port p = { stopped with dstate := 1 }.driveInta
          ∧ (∀ r, (s.ring r).epb.toNat = b.val + 1 → (u.ring r).st = if (s.ring r).st = .active then .paused else (s.ring r).st)
          ∧ u = { s with ports := u.ports, harbour := u.harbour })
      ∧ (∃ u, exec (.d3coldEntry b) s = .next u ∧ (u.port p).dstate = 2 ∧ (u.port p).bme = false ∧ (u.port p).cfg = {}
          ∧ (u.port p).epStat = 0 ∧ (u.port p).inta = false
          ∧ (s.epRings b = [] → (u.port p).link = 0 ∧ (u.port p).out = [] ∧ (u.port p).hdm = x.hdm))
      ∧ exec (.d0Return b) s = .next ((s.setPort p { x with dstate := 0, pmeDue := false }.driveInta).setBlock b
          { s.block b with wakeOut := false })
      ∧ (x.link = 2 → ∃ u, exec (.flr b) s = .next u ∧ (u.port p).dstate = 0 ∧ (u.port p).bme = false ∧ (u.port p).cfg = {}
          ∧ (u.port p).epStat = 0 ∧ (u.port p).epEn = 0 ∧ (u.port p).inta = false
          ∧ (s.epRings b = [] → (u.port p).link = 2 ∧ (u.port p).out = [] ∧ (u.port p).gone = x.gone ++ x.out.map (·.tag)
              ∧ (u.port p).hdm = x.hdm ∧ (u.port p).quayGen = x.quayGen + 1))
      ∧ (∃ u, exec (.prtPerstAssert b) s = .next u ∧ (u.block b).perst = true ∧ (u.port p).dstate = 0 ∧ (u.port p).bme = false
          ∧ (u.port p).cfg = {} ∧ (s.epRings b = [] → (u.port p).link = 0 ∧ (u.port p).out = []))
      ∧ (x.pmeEn = true → x.pmeDue = true →
          (x.dstate = 1 → ∃ u, exec (.pme b) s = .next u ∧ u.port p = { x with pmeDue := false, tx := x.tx ++ [.pme] })
          ∧ (x.dstate = 2 → exec (.pme b) s
              = .next ((s.setPort p { x with pmeDue := false }).setBlock b { s.block b with wakeOut := true })))

/-- R322, R330 to R332, R336 to R343: a ring is enabled and disabled; doorbells move its pointers or are rejected with a
record; its descriptors start, wait timed, become due or complete PAST, and their records are written.
Log entry 34 is the model's reading in it. -/
def Obligations.RingsAndDoorbells : Prop :=
  ∀ (s : State) (w : Who) (r : Fin 524288) (v : W36),
    let x := s.ring r
    let val := fld v 15 0
    let bell : BitVec 4 := (s.askerOf w).src + 1
    (s.keyOpen w 5 (0x8000000 + 8 * r.val) → hasBits v (bitsMask 35 18) = false → x.epb = 0 →
        (x.en = true → s.whoVault w = x.world → s.whoCtx w = x.ctx →
          (val < 2 ^ x.sqsz.toNat → exec (.doorbellTail w r v []) s = .next (s.setRing r { x with sqTail := BitVec.ofNat 16 val, bellPtr := bell }))
          ∧ (val < 2 ^ x.cqsz.toNat → x.freed val ≤ x.cqUsed → exec (.doorbellHead w r v []) s
              = .next (s.setRing r { x with cqHead := BitVec.ofNat 16 val, cqUsed := x.cqUsed - x.freed val, bellPtr := bell }))
          ∧ (val = 0 → exec (.doorbellResume w r v []) s
              = .next (s.setRing r { x with st := if x.st = .paused then .active else x.st, bellPtr := bell })))
        ∧ (x.en = false → s.whoCtx w = x.ctx → ∃ rec : Rec, rec.code = 0o006001 ∧ rec.p0 = rp r.val ∧ rec.p2 = rp 1
            ∧ rec.ctx = x.ctx ∧ rec.world = s.whoVault w
            ∧ exec (.doorbellTail w r v []) s = .next ({ s with
                harbour := { s.harbour with dbrej := s.harbour.dbrej + 1 }
                evr := { s.evr with travel := s.evr.travel ++ [rec] } }.setRing r { x with bellPtr := bell })))
      ∧ (s.keyOpen w 5 (0x1000000 + 0x40 * r.val) → hasBits v (bitsMask 35 33 ||| bitsMask 1 1) = false → fld v 32 23 < 576 →
          (x.en = false → x.st ≠ .draining → bitOf v 0 = true → whoUmf w = false → exec (.hbrRctlWrite w r v) s = .next (s.setRing r { x with
            en := true, world := s.whoVault w, intthr := BitVec.ofNat 10 (fld v 32 23), intcls := BitVec.ofNat 3 (fld v 22 20)
            inten := bitOf v 2, ctx := BitVec.ofNat 12 (fld v 15 4), sqHead := 0, sqTail := 0, cqHead := 0, cqTail := 0
            phase := true, cqUsed := 0, st := .active, works := [], waitTable := false, again := none }))
          ∧ (x.en = true → s.whoVault w = x.world → bitOf v 0 = false → whoUmf w = false ∨ fld v 19 16 < 13 → x.again = none → ∃ u, exec (.hbrRctlWrite w r v) s = .next u
            ∧ (u.ring r).en = false ∧ (u.ring r).sqTail = x.sqHead ∧ (u.ring r).sqHead = x.sqHead ∧ (u.ring r).ctx = x.ctx
            ∧ (u.ring r).works = x.works.filter (fun w => !w.timed)
            ∧ (u.ring r).st = (if (x.works.filter fun w => !w.timed) = [] then .disabled else .draining)
            ∧ u.harbour.table = s.harbour.table.filter (fun j => j.ring.val != r.val)
            ∧ u = { s with harbour := { s.harbour with table := u.harbour.table, rings := u.harbour.rings } }))
      ∧ (∀ (d : Desc) (s1 : State), x.mayStart = true → s.readDesc r 0 = (s1, some (.ok, d)) → d.timed = true →
          s1.ring r = x → s1.masterNow = s.masterNow →
          (s.harbour.st = .run → (d.fence = true → x.works = []) → d.check x.epb = none →
            (launchCheck s.masterNow d.launch 2000 false = none → s1.harbour.table.length < 4096 →
              ∃ u, exec (.timedAccept r) s = .next u
                ∧ (u.ring r).works = x.works ++ [{ slot := x.sqHead, desc := d, timed := true }]
                ∧ u.harbour.table = s1.harbour.table ++ [{ ring := r, slot := x.sqHead, desc := d }]
                ∧ (u.ring r).sqHead = (if x.sqHead.toNat + 1 = 2 ^ x.sqsz.toNat then 0 else x.sqHead + 1)
                ∧ u = { s1 with harbour := u.harbour })
            ∧ (∀ c, launchCheck s.masterNow d.launch 2000 false = some c → ∃ u, exec (.timedAccept r) s = .next u
                ∧ (u.ring r).works = x.works ++ [{ slot := x.sqHead, desc := d, timed := false, res := some (timedRefusal c, 0) }]))
          ∧ (x.waitTable = true → launchCheck s.masterNow d.launch 2000 false = some 4 → ∃ u, exec (.timedLeadExpired r) s = .next u
            ∧ (u.ring r).works = x.works ++ [{ slot := x.sqHead, desc := d, timed := false, res := some (8, 0) }]
            ∧ (u.ring r).waitTable = false))
      ∧ (∀ j : Job, j.ring = r → s.harbour.rings = [(r.val, x)] → s.harbour.table = [j] → reached s.masterNow j.desc.launch = true →
          (∀ e : Nat, (List.range 32).find? (fun e => s.engineFree e x.world true) = some e →
            ∃ u, exec (.timedDescriptorDue x.world) s = .next u ∧ u.harbour.table = [] ∧ (u.engine e).job = some j
              ∧ (u.ring r).works = x.works.map fun w => if w.slot = j.slot ∧ w.timed then { w with timed := false } else w)
          ∧ ((List.range 32).find? (fun e => s.engineFree e x.world true) = none →
            ∃ u, exec (.timedDescriptorDue x.world) s = .next u ∧ u.harbour.table = [] ∧ u.harbour.engines = s.harbour.engines
              ∧ (u.ring r).works = x.works.map fun w => if w.slot = j.slot ∧ w.res.isNone then { w with timed := false, res := some (11, 0) } else w))
      ∧ (∀ (e : Fin 32) (d : Desc) (s1 : State), s.harbour.st = .run → s.harbour.rings = [(r.val, x)] → x.mayStart = true →
          (∀ k : Fin 32, s.engineFree k (s.engine k).world false = decide (k = e)) → (s.engine e).world = x.world →
          s.readDesc r e = (s1, some (.ok, d)) → s1.harbour = s.harbour → d.timed = false → (d.fence = true → x.works = []) →
          d.check x.epb = none → d.host = false → ∃ u, exec .harbourSchedule s = .next u
            ∧ (u.engine e).job = some { ring := r, slot := x.sqHead, desc := d }
            ∧ (u.ring r).works = x.works ++ [{ slot := x.sqHead, desc := d, timed := false }]
            ∧ (u.ring r).sqHead = (if x.sqHead.toNat + 1 = 2 ^ x.sqsz.toNat then 0 else x.sqHead + 1)
            ∧ u = { s1 with harbour := u.harbour })
      ∧ (∀ (k : Work) (st : BitVec 8) (res : BitVec 64) (s1 : State) (a : Resp) (l : LineBits), x.works = [k] → k.res = some (st, res) →
          let at' := x.cqBase + 16 * x.cqTail.toNat
          let o := at' % 64
          let head : BitVec 64 := k.desc.tag ++ k.slot ++ (0 : BitVec 7) ++ BitVec.ofBool x.phase ++ st
          s.lineWrite { src := 15, tag := 0, vault := x.world, ctx := x.ctx } (BitVec.ofNat 46 (at' / 64)) (maskOf o 16)
            (setUnit 8 (setUnit 8 0 o (head.setWidth 72)) (o + 8) (res.setWidth 72)) false = (s1, some (a, l)) → s1.ring r = x →
          ∃ u, exec (.descriptorDone r) s = .next u ∧ (u.ring r).works = []
            ∧ (a = .ok → x.st ≠ .draining ∨ x.again = none → (u.ring r).cqUsed = x.cqUsed + 1 ∧ (u.ring r).last = (if st = 0 then x.last else st)
              ∧ (u.ring r).cqTail = (if x.cqTail.toNat + 1 = 2 ^ x.cqsz.toNat then 0 else x.cqTail + 1)
              ∧ (u.ring r).phase = (if x.cqTail.toNat + 1 = 2 ^ x.cqsz.toNat then !x.phase else x.phase)
              ∧ u.harbour.miss = s1.harbour.miss + (if st = 8 ∨ st = 11 then 1 else 0))
            ∧ (a ≠ .ok → (u.ring r).st = .error ∧ ∀ e, e < 32 → ∀ j, (s1.engine e).job = some j → j.ring = r → (u.engine e).job = none))

/-- R334, R335, R337, R342: the last unit of each operation, which ends the descriptor in its ring with STATUS and RESULT and
frees the engine; a response other than OK, a difference, and an endpoint out of D0 or not master.
Log entry 34 is the model's reading in it. -/
def Obligations.HarbourOperations : Prop :=
  ∀ (s : State) (e : Fin 32) (j : Job), (s.engine e).job = some j → s.harbour.st = .run →
    let x := s.ring j.ring
    let d := j.desc
    let pos := j.pos
    let src := d.d1.toNat + pos
    let dst := d.d2.toNat + pos
    let toLine (a : Nat) : Nat := min (64 - a % 64) (d.d3.toNat - pos)
    let ended (f : State) (c : Instr) (st : BitVec 8) (v : BitVec 64) : Prop := ∃ u, exec c s = .next u ∧ (u.engine e).job = none
      ∧ (u.ring j.ring).works = (x.works.map fun w => if w.slot = j.slot ∧ w.res.isNone then { w with timed := false, res := some (st, v) } else w)
      ∧ u = { f.engineForget e x with harbour := { s.harbour with engines := u.harbour.engines, rings := u.harbour.rings } }
    (d.op = 1 → d.host = false → pos < d.len → ∀ ns s1 s2, s.engReads x e src (toLine dst) = (s1, some (.ok, ns)) →
        s1.engWrite x e dst ns = (s2, some .ok) → s2.harbour = s.harbour → pos + toLine dst = d.len → ended s2 (.copy e) 0 (ofLen d.len))
      ∧ (d.op = 1 → d.host = false → pos < d.len → ∀ a ns s1, s.engReads x e src (toLine dst) = (s1, some (a, ns)) → a ≠ .ok →
          s1.harbour = s.harbour → ended s1 (.copy e) (respSt a) (ofLen pos))
      ∧ (∀ p, d.op = 1 → s.epPort (x.epb.toNat - 1) = some p → (s.port p).bme = true → (s.port p).dstate = 0 → pos < d.len →
          (d.sspc = 1 →
            let k := if d.hpack then 64 else toLine dst
            let m := if d.hpack then 72 else k
            let a := d.d1 + ofLen (if d.hpack then 72 * (pos / 64) else pos)
            let got := (s.port p).ansFor (.engine e) a false
            (got = none → exec (.copy e) s
                = .next (if (s.port p).asked (.engine e) a false then s else s.nonPosted p (.engine e) a.toNat m none))
              ∧ (∀ r : PortAns, got = some r →
                let s1 := s.modPort p fun x => { x with ans := x.ans.erase r }
                let bs := (List.range m).map fun i => r.data.getD i 0
                (r.resp = 0 → pos + k = d.len → ∀ s2,
                  s1.engWrite x e dst (if d.hpack then nonetsOf (denseIn bs) else bs.map fun b => b.setWidth 9) = (s2, some .ok) →
                  s2.harbour = s.harbour → ended s2 (.copy e) 0 (ofLen d.len))
                ∧ (r.resp = 5 → ended s1 (.copy e) 5 (ofLen pos))
                ∧ (r.resp = 1 → ended s1 (.copy e) 15 (ofLen pos))))
          ∧ (d.sspc = 0 → d.dspc = 1 → d.hpack = true → pos + toLine src = d.len → ∀ ns s1, s.engRead x e src (toLine src) = (s1, some (.ok, ns)) →
            s1.harbour = s.harbour → ended (s1.portSend p (.request 0 (d.d2 + ofLen (72 * (pos / 64))) (some (denseOut (lineOf ns))) 72) 72)
              (.copy e) 0 (ofLen d.len)))
      ∧ (∀ p, d.op = 1 → d.host = true → s.epPort (x.epb.toNat - 1) = some p → (s.port p).bme = false ∨ (s.port p).dstate ≠ 0 → pos < d.len →
          ended s (.copy e) 12 (ofLen pos))
      ∧ (d.op = 2 → d.host = false → pos < d.len → ∀ a s1,
          s.engWrite x e dst ((List.range (toLine dst)).map fun i => nonetOf 8 ((d.d5.extractLsb' 0 8 : BitVec 8) ++ d.d4) (i % 8)) = (s1, some a) →
          s1.harbour = s.harbour → (a = .ok → pos + toLine dst = d.len → ended s1 (.fill e) 0 (ofLen d.len))
            ∧ (a ≠ .ok → ended s1 (.fill e) (respSt a) (ofLen pos)))
      ∧ (d.op = 3 → d.host = false → pos < d.len → ∀ a b s1 s2, s.engRead x e src (toLine src) = (s1, some (.ok, a)) →
          s1.engReads x e dst (toLine src) = (s2, some (.ok, b)) → s2.harbour = s.harbour →
          ((∀ i, i < toLine src → a.getD i 0 = b.getD i 0) → pos + toLine src = d.len → ended s2 (.compare e) 0 (ofLen d.len))
          ∧ (∀ i, i < toLine src → a.getD i 0 ≠ b.getD i 0 → (∀ k, k < i → a.getD k 0 = b.getD k 0) → ended s2 (.compare e) 6 (ofLen (pos + i))))
      ∧ (d.op = 4 → d.host = false → pos < d.len → ∀ ns s1, s.engRead x e src (toLine src) = (s1, some (.ok, ns)) → s1.harbour = s.harbour →
          pos + toLine src = d.len → ended s1 (.crc64 e) 0
            ((if d.d5.getLsbD 0 then doubleOctets ns else ns.map fun v => v.setWidth 8).foldl crcOctet (if pos = 0 then d.d4 else j.acc)))
      ∧ (d.op = 5 → d.host = false → pos + 1 = d.len → ∀ ns s1 s2, s.engReads x e (d.d1.toNat + 72 * pos) 72 = (s1, some (.ok, ns)) →
          s1.engWrite x e (d.d2.toNat + 64 * pos) (nonetsOf (denseIn (ns.map fun v => v.setWidth 8))) = (s2, some .ok) → s2.harbour = s.harbour →
          ended s2 (.repackD e) 0 (ofLen d.len))
      ∧ (d.op = 6 → d.host = false → pos + 1 = d.len → ∀ ns k s1 s2, s.engRead x e (d.d1.toNat + 64 * pos) 64 = (s1, some (.ok, ns)) →
          s1.engWrites x e (d.d2.toNat + 72 * pos) ((denseOut (lineOf ns)).map fun b => b.setWidth 9) = (s2, some (.ok, k)) → s2.harbour = s.harbour →
          ended s2 (.repackL e) 0 (ofLen (72 * d.len)))
      ∧ (d.op = 7 → d.host = false → pos + 1 = (d.d1.toNat + d.len + 63) / 64 - d.d1.toNat / 64 →
          let i := d.d4.toNat % 16
          let l := d.d1.toNat / 64 + pos
          (s.isleFit i = true → (s.isle i).cond = .admitted → (s.isle i).st = .run → l < 2 ^ 46 → s.coherent (BitVec.ofNat 46 l) = true →
            ended (s.send { ty := .pfh, src := 15, dst := BitVec.ofNat 4 i, tag := BitVec.ofNat 9 e, line := BitVec.ofNat 46 l
                            world := x.world, ctx := x.ctx, strm := d.strm }) (.prefetch e) 0 (ofLen (pos + 1)))
          ∧ (s.isleFit i = false → ended s (.prefetch e) 1 (ofLen pos)))

/-- R311 to R318, R320, R323, R328, R344: writes of the Lighthouse registers by who may write them; a set and its apply
instant, with no launch of a thread or power request waiting; a cycle with its trim and slew, and a microsecond; the pulse, the reference and its lock; the copies of the Isles; alarms.
That an edge with PPSEN 0 sets PPSSEEN is the model's reading (log entry 40), and when an alarm fires is log entry 29. -/
def Obligations.LighthouseTime : Prop :=
  ∀ (s : State) (w : Who) (v : W36) (n : Fin 12) (ofs : BitVec 16) (t : Fin 576) (vault : Bool),
    let l := s.lh
    let x := s.isle n
    let idle : Prop := (∀ k, (s.thread k).launchT = none) ∧ ∀ u, (s.streamOf u).act = none ∧ (s.streamOf u).held = none
    (s.lhMay w = false → exec (.set w v) s = .next s ∧ exec (.cancelSlew w v) s = .next s ∧ exec (.lhSlewWrite w v) s = .next s
        ∧ exec (.lhCtlWrite w v) s = .next s)
      ∧ (s.lhMay w = true → hasBits v (bitsMask 35 2) = false →
          (l.setbusy = false → l.run = true → l.epoch ≠ 255 → exec (.set w v) s
              = .next { s with lh := { l with setbusy := true, applyAt := l.count + 80000, applyVal := l.sethi ++ l.setlo } })
          ∧ (l.setbusy = false → l.run = true → l.epoch = 255 → exec (.set w v) s = .next { s with lh := { l with setres := 2 } })
          ∧ (l.setbusy = true ∨ l.run = false → exec (.set w v) s = .next { s with lh := { l with setres := 3 } })
          ∧ exec (.cancelSlew w v) s = .next { s with lh := { l with slew := 0 } })
      ∧ (s.lhMay w = true → hasBits v (bitsMask 35 24) = false → exec (.lhSlewWrite w v) s
          = .next (if l.run then { s with lh := { l with slew := v.setWidth 24 } } else s))
      ∧ (s.lhMay w = true → hasBits v (bitsMask 35 8 ||| bitsMask 2 0) = false → fld v 6 5 ≠ 3 → whoUmf w = false →
          exec (.lhCtlWrite w v) s = .next { s with lh := { l with
            refsel := BitVec.ofNat 2 (fld v 6 5), src := bitOf v 4, ppsen := bitOf v 3
            reflock := l.reflock && bitOf v 4 && BitVec.ofNat 2 (fld v 6 5) == l.refsel } })
      ∧ (idle → l.setbusy = true → l.applyAt.toNat ≤ l.count.toNat → ∃ u, exec .setApply s = .next u
          ∧ u.lh = { l with epoch := l.epoch + 1, count := l.applyVal, setbusy := false, setres := 1 }
          ∧ (∀ k, (s.isle k).lhSync = true → (u.isle k).lhEpoch = l.epoch + 1 ∧ (u.isle k).lhCount = l.applyVal ∧ (u.isle k).lhLow = 0)
          ∧ (∃ a b : Rec, u.evr = { s.evr with travel := s.evr.travel ++ [a, b] }
            ∧ a.code = 0o007003 ∧ a.epoch = l.epoch ∧ a.count = l.count ∧ a.p0 = reading (l.epoch + 1) l.applyVal
            ∧ b.code = 0o007004 ∧ b.epoch = l.epoch + 1 ∧ b.count = l.applyVal ∧ b.p0 = reading l.epoch l.count)
          ∧ u.harbour.table = []
          ∧ (∀ j : Job, s.harbour.table = [j] → isBefore j.desc.launch (reading l.epoch l.applyAt) = false →
              (u.ring j.ring).works = (s.ring j.ring).works.map fun w =>
                if w.slot = j.slot ∧ w.res.isNone then { w with timed := false, res := some (10, 0) } else w)
          ∧ u.threads = s.threads)
      ∧ (l.setbusy = false ∨ l.count.toNat < l.applyAt.toNat → exec .setApply s = .next s)
      ∧ (0 ≤ l.frac → l.frac < 1000000000 → l.phase < 500 →
          let trim : Int := if l.src = true ∧ l.reflock = true then 0 else l.rate.toInt * 8
          let d : Int := if l.phase = 499 then l.slew.toInt.sign else 0
          (l.cycle.1 : Int) * 1000000000 + l.cycle.2.frac = (8 + d) * 1000000000 + l.frac + trim
            ∧ 0 ≤ l.cycle.2.frac ∧ l.cycle.2.frac < 1000000000
            ∧ l.cycle.2 = { l with frac := l.cycle.2.frac, phase := (l.phase + 1) % 500, slew := l.slew - BitVec.ofInt 24 d })
      ∧ (l.run = true → l.src = true → l.reflock = true → 0 ≤ l.frac → l.frac < 1000000000 → l.phase < 500 → l.setbusy = false →
          s.harbour.table = [] → idle → ∃ u, exec .slewTick s = .next u
          ∧ (l.slew = 0 → u.lh = { l with count := l.count + 4000 })
          ∧ (0 < l.slew.toInt → u.lh = { l with count := l.count + 4001, slew := l.slew - 1 })
          ∧ (l.slew.toInt < 0 → u.lh = { l with count := l.count + 3999, slew := l.slew + 1 })
          ∧ (∀ k, (s.isle k).lhSync = true → (u.isle k).lhCount - (s.isle k).lhCount = u.lh.count - l.count)
          ∧ (∀ k, (s.isle k).lhSync = false → u.isle k = s.isle k)
          ∧ u = { s with lh := u.lh, isles := u.isles, ledger := { s.ledger with ramps := u.ledger.ramps } })
      ∧ (l.run = false → exec .slewTick s = .next s)
      ∧ (l.ppsen = true → exec .lhPpsEdge s
          = .next { s with lh := { l with ppsSeq := l.ppsSeq + 1, ppsCount := l.count, ppsEpoch := l.epoch, ppsseen := true } })
      ∧ (l.ppsen = false → exec .lhPpsEdge s = .next { s with lh := { l with ppsseen := true } })
      ∧ exec .ppsTimeout s = .next { s with lh := { l with ppsseen := false } }
      ∧ (l.src = true → l.reflock = true → exec .refLost s = .next ({ s with lh := { l with reflock := false } }.recKey posLh 0o007001 0 []))
      ∧ (l.src = true → l.reflock = false → exec .refLocked s = .next ({ s with lh := { l with reflock := true } }.recKey posLh 0o007002 0 []))
      ∧ (s.isleFit n = true → x.lhSync = true → l.run = true →
          (ofs.toInt.natAbs ≤ 8 → x.lhDrift = false → exec (.copyCorrection n ofs) s
              = .next (s.setIsle n { x.keepLow l.epoch with lhEpoch := l.epoch, lhCount := l.count })
            ∧ (x.lhEpoch = l.epoch → (low64 (s.copyShown n)).toNat ≤ (low64 ((s.setIsle n { x.keepLow l.epoch with
                lhEpoch := l.epoch, lhCount := l.count }).copyShown n)).toNat))
          ∧ (8 < ofs.toInt.natAbs → x.lhDrift = false → idle → ∃ u, exec (.copyCorrection n ofs) s = .next u
              ∧ u.isle n = { x.keepLow l.epoch with lhEpoch := l.epoch, lhCount := l.count + BitVec.ofInt 64 ofs.toInt, lhDrift := true }
              ∧ u.evr = (s.recKey posLh 0o007005 n [ofs.signExtend 72]).evr))
      ∧ (s.isleFit n = true → x.lhDrift = true → ofs.toInt.natAbs ≤ 4 → exec (.driftCleared n ofs) s
          = .next (((s.setIsle n { x.keepLow l.epoch with lhEpoch := l.epoch, lhCount := l.count, lhDrift := false }).setStrait n
            { s.strait n with lhofs := ofs }).recKey posLh 0o007006 n [ofs.signExtend 72]))
      ∧ (s.isleFit (t.val / 48) = true → (s.isle (t.val / 48)).lhSync = true →
          let y := s.thread t
          let a := (y.wreg vault).alctl
          (a.getLsbD 0 = true → atOrPast (s.copyNow (t.val / 48)) (y.wreg vault).alarm = true → exec (.alarmFire t vault) s
              = .next (s.setThread t (y.setWreg vault { y.wreg vault with alctl := (a &&& ~~~(1 : Reg)) ||| 0x10 })))
          ∧ (a.getLsbD 0 = false ∨ atOrPast (s.copyNow (t.val / 48)) (y.wreg vault).alarm = false → exec (.alarmFire t vault) s = .next s))

/-- R321, R354 to R356, R361, R366: a write of a control word with GO hands its unit a request; what a request meets: a busy
stream, its own state, the clock, the ledger and the other refusers; the fire of a timed one and the end of one.
When a timed request fires is log entry 29; a row acts on the request at work (log entry 33). -/
def Obligations.PowerRequests : Prop :=
  ∀ (s : State) (w : Who) (v : W36) (c : Fin 288) (n : Fin 12) (k : Fin 13) (u : Sys2Proof.PUnit) (q : PReq),
    let asks (t : Reg) : PReq := { target := BitVec.ofNat 2 (fld v 1 0), timed := bitOf v 4, t := if bitOf v 4 then t else 0, vault := s.whoVault w }
    let pkgT := timeWord s.pwr.tep s.pwr.thi s.pwr.tlo
    let plain : Prop := hasBits v (bitsMask 35 6 ||| bitsMask 3 2) = false
    let given (u : Sys2Proof.PUnit) : State := if bitOf v 5 then s.request u (asks pkgT) else s
    let x := s.streamOf u
    let lower := decide ((s.unitState u).toNat < q.target.toNat)
    let need := s.raiseClaim u q.target
    (s.isleOpen w n → n.val = c.val / 24 → hasBits v (bitsMask 35 9 ||| bitsMask 7 6 ||| bitsMask 3 2) = false →
        let s1 := s.setCore c { s.core c with autoslack := bitOf v 8 }
        let y := s.isle n
        exec (.pwrCorectlWrite w c v) s
          = .next (if bitOf v 5 then s1.request (.core c) (asks (timeWord y.tep y.thi y.tlo)) else s1))
      ∧ (s.isleFit n = true → plain → fld v 1 0 ≠ 1 → exec (.pwrIslectlWrite w n v) s = .next (given (.isle n)))
      ∧ (plain → fld v 1 0 = 0 ∨ fld v 1 0 = 3 → exec (.pwrBlkctlWrite w k v) s = .next (given (.block k)))
      ∧ (plain → fld v 1 0 = 0 ∨ fld v 1 0 = 2 → exec (.pwrPkgctlWrite w v) s = .next (given .package))
      ∧ (x.act ≠ none → (s.request u q).streamOf u
          = { x with held := some q, counts := if x.held.isSome then satCount x.counts 0 else x.counts })
      ∧ (x.act = none → s.unitState u = q.target → (s.request u q).streamOf u
          = { x with waitT := false, saving := false, quiesce := false, result := 1, refuser := 0 })
      ∧ (x.act = none → s.unitState u ≠ q.target →
          (q.vault = false → lower = true → s.vaultHeld u = true → (s.request u q).streamOf u
            = { x with waitT := false, saving := false, quiesce := false, result := 2, refuser := 2, counts := satCount x.counts 2 })
          ∧ (q.vault = true ∨ lower = false ∨ s.vaultHeld u = false →
            (q.timed = true →
              let copy := s.reqOnCopy u
              let drift := copy && ((unitIsle u).map fun n => (s.isle n).lhDrift).getD false
              (launchCheck (s.reqClock u copy) q.t 8000 drift = none → (s.request u q).streamOf u
                = { x with act := some { q with onCopy := copy }, waitT := true, saving := false })
              ∧ (∀ r, launchCheck (s.reqClock u copy) q.t 8000 drift = some r → (s.request u q).streamOf u
                = { x with waitT := false, saving := false, quiesce := false, result := r, refuser := 0 }))
            ∧ (q.timed = false →
              (claimOk s.ledger need.1 need.2 = false → (s.request u q).streamOf u
                = { x with waitT := false, saving := false, quiesce := false, result := 2, refuser := 1, counts := satCount x.counts 1 })
              ∧ (claimOk s.ledger need.1 need.2 = true → s.refuserOf u q = none → (s.request u q).streamOf u
                = { x with act := some q, waitT := false, saving := false })
              ∧ (∀ r, claimOk s.ledger need.1 need.2 = true → s.refuserOf u q = some r → (s.request u q).streamOf u
                = { x with waitT := false, saving := false, quiesce := false, result := 2, refuser := r, counts := satCount x.counts r.toNat }))))
      ∧ (s.unitFit u = true → x.act = some q → x.held = none → x.waitT = true →
          (reached (s.reqClock u q.onCopy) q.t = false → exec (.timedRequestFire u) s = .next s)
          ∧ (reached (s.reqClock u q.onCopy) q.t = true → s.unitState u ≠ q.target → claimOk s.ledger need.1 need.2 = true →
            (s.refuserOf u q = none → ∃ t, exec (.timedRequestFire u) s = .next t
              ∧ t.streamOf u = { x with act := some { q with timed := false }, waitT := false, saving := false })
            ∧ (∀ r, s.refuserOf u q = some r → ∃ t, exec (.timedRequestFire u) s = .next t
              ∧ t.streamOf u = { x with act := none, waitT := false, saving := false, quiesce := false, result := 2, refuser := r
                                        counts := satCount x.counts r.toNat })))
      ∧ (s.unitFit u = true → x.held = none → s.beginning u = some q →
          (s.unitState u = q.target → (∀ j, u = .core j → q.target ≠ 1) → exec (.powerRequestComplete u) s = .next (s.modStream u fun x =>
            { x with act := none, waitT := false, saving := false, quiesce := false, result := 1, refuser := 0 }))
          ∧ (u = .core c → q.target = 1 → (s.core c).st = .run ∨ (s.core c).st = .slack → exec (.powerRequestComplete u) s = .next (s.setCore c
            { s.core c with st := .slack, slackReq := true
                            stream := { x with act := none, waitT := false, saving := false, quiesce := false, result := 1, refuser := 0 } })))

/-- R138, R190, R223, R284, R347, R351 to R353, R357, R360 to R365, R391, R453, R457: what an active request does to its core,
Isle, block or package once what it waits for is done, and what wakes one.
A row acts on the request at work (log entry 33); which Isle a wake names is log entry 28; the octet that answers an alert
response is log entry 40. -/
def Obligations.PowerTransitions : Prop :=
  ∀ (s : State) (c : Fin 288) (n : Fin 12) (b : Fin 12) (k : Fin 13) (q : PReq) (tr : TrainIn) (addr : BitVec 7),
    let x := s.core c
    let y := s.isle n
    (s.isleFit n = true → n.val = c.val / 24 → s.beginning (.core c) = some q →
        (q.target = 2 → x.st = .run ∨ x.st = .slack → s.coreLaunch c = false → s.drained c = false → exec (.coreToNeap c) s = .next s)
          ∧ (q.target = 2 → x.st = .run ∨ x.st = .slack → s.coreLaunch c = false → s.drained c = true → ∃ u, exec (.coreToNeap c) s = .next u
            ∧ u.core c = { x with st := .neap, slackReq := false, itlb := [], dtlb := [], tlb2 := [], keys := [], stream := { x.stream with saving := true } }
            ∧ (u.thread (2 * c.val)).ret = [] ∧ (u.thread (2 * c.val + 1)).ret = []
            ∧ (sget {} u.ledger.claimed n).core = (sget {} s.ledger.claimed n).core - (coreBearing x.fCur.toNat - 1)
            ∧ u = { s with threads := u.threads, cores := u.cores, ledger := u.ledger })
          ∧ (q.target.toNat < 2 → x.st = .neap → y.st ≠ .neap → claimOk s.ledger (coreBearing x.fCur.toNat - 1) 0 = true →
            exec (.coreNeapToRun c) s = .next ((s.claim n (coreBearing x.fCur.toNat - 1) 0).1.setCore c { x with st := .run }))
          ∧ (q.target = 3 → x.st ≠ .dry → s.coreLaunch c = false → x.st = .neap ∨ s.drained c = true → ∃ u, exec (.coreToDry c) s = .next u ∧ (u.core c).st = .dry
            ∧ (u.core c).l2 = [] ∧ (u.core c).l1d = [] ∧ (u.core c).stream.saving = true
            ∧ (u.thread (2 * c.val)).mode = .stopped ∧ (u.thread (2 * c.val + 1)).mode = .stopped)
          ∧ (q.target ≠ 3 → x.st = .dry → y.st ≠ .neap → claimOk s.ledger 9 0 = true → ∃ u, exec (.coreDryToRun c) s = .next u
            ∧ (u.core c).st = .run ∧ (u.core c).fCur = 29 ∧ (u.core c).dirTab = [] ∧ (u.thread (2 * c.val)).mode = .stopped
            ∧ u.ledger = (s.claim n 9 0).1.ledger ∧ u = { s with threads := u.threads, cores := u.cores, ledger := u.ledger }))
      ∧ (s.isleFit n = true → s.beginning (.isle n) = some q →
          (q.target = 2 → y.st = .run ∨ y.st = .slack → s.isleDrained n = true → s.isleQuiet n = false → s.cannotQuiesce (.isle n) 2 = false →
            (y.stream.quiesce = false → exec (.isleToNeap n) s = .next (s.setIsle n { y with stream := { y.stream with quiesce := true } }))
            ∧ (y.stream.quiesce = true → y.stream.held = none → exec (.isleToNeap n) s = .next (s.setIsle n { y with stream := { y.stream with
                act := none, waitT := false, saving := false, quiesce := false, result := 2, refuser := 4
                counts := satCount y.stream.counts 4 } })))
          ∧ (q.target = 2 → y.st = .run ∨ y.st = .slack → s.isleDrained n = true → s.isleQuiet n = true → s.cannotQuiesce (.isle n) 2 = false →
            ∃ u, exec (.isleToNeap n) s = .next u ∧ (u.isle n).st = .neap ∧ (u.isle n).stream.saving = true
              ∧ ∀ i, i < 24 → (u.isle n).wasUp.getLsbD i = ((s.core (n.val * 24 + i)).st == .run || (s.core (n.val * 24 + i)).st == .slack))
          ∧ (let need := (s.raiseClaim (.isle n) 0).1
            q.target ≠ 2 → y.st = .neap → claimOk s.ledger need 0 = true → ∃ u, exec (.isleNeapToRun n) s = .next u
              ∧ u.isle n = { y with st := .run, wasUp := 0 } ∧ u.ledger = (s.claim n need 0).1.ledger
              ∧ (∀ i, i < 24 → (u.core (n.val * 24 + i)).st
                = if y.wasUp.getLsbD i && (s.core (n.val * 24 + i)).st == .neap then .run else (s.core (n.val * 24 + i)).st)
              ∧ u = { s with cores := u.cores, isles := u.isles, ledger := u.ledger })
          ∧ (q.target = 3 → y.st = .run ∨ y.st = .slack → s.cannotQuiesce (.isle n) 3 = false → s.mayDry n = true → ∃ u, exec (.isleToDry n) s = .next u
            ∧ (u.isle n).st = .dry ∧ (u.isle n).vcore = false ∧ (u.isle n).cond ≠ .admitted ∧ (u.isle n).stream.saving = true
            ∧ u.home.mask.getLsbD n.val = false ∧ (u.strait n).st = .down ∧ (u.strait n).armed = false)
          ∧ (q.target ≠ 3 → y.st = .dry → y.vcore = false → claimOk s.ledger 40 0 = true →
            ∀ t, (s.claim n 40 0).1.islePower n tr = (t, 0) → exec (.isleDryToRun n tr) s = .next t ∧ (t.isle n).st = .run))
      ∧ (s.beginning (.block 0) = some q → q.target = 3 → s.harbour.st = .run → (s.harbour.rings.any fun r => r.2.en) = false →
          exec .harbourToDry s = .next { s.release 48 0 24 with harbour := { s.harbour with st := .dry } })
      ∧ (s.beginning (.block ⟨b.val + 1, by omega⟩) = some q → q.target = 3 → (s.block b).st = .run →
          (∀ g, g < 8 → (s.port (8 * b.val + g)).link = 0) →
          exec (.portBlockToDry b) s = .next ((s.release (36 + b.val) 0 (s.block b).hold).setBlock b
            { s.block b with st := .dry, hold := 0, bearwait := false }))
      ∧ (s.beginning (.block k) = some q → q.target = 0 →
          (k.val = 0 → s.harbour.st = .dry → claimOk s.ledger 0 24 = true → exec (.keystoneBlockToRun k) s
            = .next { (s.claim 48 0 24).1 with harbour := { s.harbour with st := .run } })
          ∧ (k.val = b.val + 1 → (s.block b).st = .dry →
            let z := s.block b
            let r := s.claim (36 + b.val) 0 (24 - z.hold)
            (r.2 = true → exec (.keystoneBlockToRun k) s
              = .next (r.1.setBlock b { z with st := .run, bearwait := false, wants := 0, hold := max 24 z.hold }))
            ∧ (r.2 = false → z.stream.held = none → ∃ u, exec (.keystoneBlockToRun k) s = .next u ∧ (u.block b).st = .dry
              ∧ (u.block b).bearwait = true ∧ (u.block b).wants = 24 ∧ (u.block b).stream.result = 2 ∧ (u.block b).stream.refuser = 1)))
      ∧ (s.beginning .package = some q → q.target = 2 → s.pwr.lagoon = false → s.refuserOf .package q = none →
          (∀ i : Fin 12, (s.isle i).st = .run ∨ (s.isle i).st = .slack → s.isleDrained i = true ∧ s.isleQuiet i = true
            ∧ s.refuserOf (.isle i) { q with target := 2 } = none) →
          ∃ u, exec .lagoonEnter s = .next u ∧ u.pwr.lagoon = true ∧ u.pwr.wakeName = none ∧ u.pwr.umfAwake = false
            ∧ u.pwr.stream.saving = true ∧ (∀ i, i < 24 → (s.chan i).st = .run → (u.chan i).st = .selfref)
            ∧ ∀ p, (u.port p).role = 1 → (u.port p).link = 0)
      ∧ (s.pwr.lagoon = true → s.pwr.wakeName = some n → s.pwr.stream.held = none →
          let hub := (160 + if s.harbour.st = .run then 24 else 0) + 12 * ((List.range 24).filter fun i => (s.chan i).st == .selfref).length
          (claimOk s.ledger 0 hub = true → ∃ u, exec .lagoonExit s = .next u ∧ u.pwr = { s.pwr with
              lagoon := false, wakeName := none, umfAwake := true
              stream := if s.pwr.stream.saving then
                  { s.pwr.stream with act := none, waitT := false, saving := false, quiesce := false, result := 1, refuser := 0 }
                else s.pwr.stream }
              ∧ ∀ i, i < 24 → (s.chan i).st = .selfref → (u.chan i).st = .run)
          ∧ (claimOk s.ledger 0 hub = false → exec .lagoonExit s
            = .next { s with ledger := { s.ledger with refused := s.ledger.refused + 1, ptr := 0 } }))
      ∧ (s.isleFit n = true → n.val = c.val / 24 → s.wakes c = true →
          (s.pwr.lagoon = false → x.stream.act = none →
            (x.st = .slack → exec (.wake (.core c)) s = .next (s.setCore c { x with st := .run, slackReq := false }))
            ∧ (x.st = .neap → y.st ≠ .neap → claimOk s.ledger (coreBearing x.fCur.toNat - 1) 0 = true →
              ∃ u, exec (.wake (.core c)) s = .next u ∧ u.core c = { x with st := .run } ∧ u.isle n = { y with wakeWait := false }
                ∧ u.ledger = (s.claim n (coreBearing x.fCur.toNat - 1) 0).1.ledger))
          ∧ (s.pwr.lagoon = true → s.pwr.wakeName = none → exec (.wake (.core c)) s
            = .next { s with pwr := { s.pwr with wakeName := some n, wakesrc := 1, umfAwake := true } }))
      ∧ (s.isleFit n = true → n.val = c.val / 24 → s.wakes c = false → exec (.wake (.core c)) s = .next s)
      ∧ (s.pwr.wakePort.getLsbD b.val = true → (s.block b).wakeOut = false → s.pwr.lagoon = true → s.pwr.wakeName = none →
          exec (.portWake b) s = .next { s with pwr := { s.pwr with
            wakeName := some s.namedIsle, wakesrc := BitVec.ofNat 6 (16 + b.val), umfAwake := true } })
      ∧ (s.pwr.wakePort.getLsbD b.val = false → exec (.portWake b) s = .next s)
      ∧ (addr.toNat = 0x58 + s.board.smbAddr.toNat → 3 ≤ s.board.step → s.pwr.wakeSmb = false → exec (.smbusAddressMatch addr) s
          = .next { s with umf := { s.umf with sclHeld := true }, pwr := { s.pwr with umfAwake := true } })
      ∧ (addr = 0x0C → 3 ≤ s.board.step → s.smbAlert = true → exec (.smbusAddressMatch addr) s
          = .next { s with umf := { s.umf with smbOut := [BitVec.ofNat 8 (2 * (0x58 + s.board.smbAddr.toNat))] } })

/-- R369, R371, R372, R375 to R379, R381: region writes and the Isles' copies of the table; a hand-over starts by a register or by
mailbox m, locks its unit, or ends ABSENT or UNAVAIL; once the unit has quiesced its owner register takes the target world.
The STATUS of its handle, and the requesters that are arbitrated, are the model's reading (log entry 36). -/
def Obligations.WorldHandOvers : Prop :=
  ∀ (s : State) (w : Who) (v : W36) (n : Fin 12) (m : Fin 16) (c : HoClass) (toV : Bool),
    let d := s.worlds
    let r : Region := sget {} d.regions d.rgnsel.toNat
    let b := s.box m
    let row (f : HoSrc) : Instr := match c with
      | .engine e => .handoverEngine f e toV []
      | .port p => .handoverPort f p toV []
      | .part n p => .handoverPartition f n p toV []
      | .site g => .handoverGuestSite f g toV []
    let awake : Prop := match c with
      | .engine _ => s.harbour.st ≠ .dry
      | .port p => (s.block (p.val / 8)).st ≠ .dry
      | .part n _ => (s.isle n).st ≠ .neap
      | .site _ => True
    let lockedIn (u : State) (by' : Option (Fin 16)) : Prop :=
      u.worlds.ho = some { unit := c, toV, mailbox := by', step := 3 } ∧ u.hoOwner c = s.hoOwner c
        ∧ match c with
          | .engine e => (u.engine e).locked = true ∧ (u.engine e).job = none
          | .port p => (u.port p).link = 0
            ∧ ((s.port p).role = 2 ∨ (∀ q ∈ (s.port p).out, ∀ k, q.src ≠ .home k) → (u.port p).out = [])
          | .part _ _ => u.isles = s.isles
          | .site g => (u.site g).en = false ∧ (u.site g).waiting = [] ∧ (u.site g).stream = []
            ∧ (u.site g).outst = ((s.site g).outst.filter fun q => q.status.isNone).map fun q => { q with drop := true }
    let noRings : Prop := ∀ p, c = .port p → (s.port p).role = 2 → s.epRings (p.val / 8) = []
    (s.mayWld w = false → exec (.wldRgnctlWrite w v) s = .next s ∧ exec (row (.write w)) s = .next s)
      ∧ (s.mayWld w = true → hasBits v (bitsMask 35 2) = false → (bitOf v 0 = true → r.base + r.len ≤ 0x8000000000000) →
          exec (.wldRgnctlWrite w v) s = .next { s with worlds := { d with
            regions := sset {} d.regions d.rgnsel.toNat { r with en := bitOf v 0, vault := if r.en then r.vault else bitOf v 1 }
            gen := if bitOf v 0 = r.en then d.gen else d.gen + 1 } })
      ∧ (s.isleFit n = true → (s.isle n).cond = .admitted ∨ (s.isle n).cond = .quarantined → (s.isle n).st ≠ .dry →
          exec (.regionTableArrives n) s = .next (s.setIsle n { s.isle n with regions := d.regions, rgnGen := d.gen }))
      ∧ (s.mayWld w = true → d.ho ≠ none → s.hoUnit (hoNums c).1 (hoNums c).2 = some c → exec (row (.write w)) s = .next { s with worlds := { d with rej := true } })
      ∧ (s.mayWld w = true → d.ho = none → s.hoUnit (hoNums c).1 (hoNums c).2 = some c →
          (s.hoCheck c = none → awake → noRings → ∃ u, exec (row (.write w)) s = .next u ∧ lockedIn u none
            ∧ u.worlds.hoPtr = if whoUmf w then 1 else 0)
          ∧ (∀ k, s.hoCheck c = some k → ∃ u, exec (row (.write w)) s = .next u ∧ u.worlds.ho = none
            ∧ u.worlds.result = BitVec.ofNat 4 k ∧ u.hoOwner c = s.hoOwner c))
      ∧ (s.umf.serving = some m → b.cmd = 64 → b.argN 1 = (hoNums c).1 → b.argN 2 = (hoNums c).2 → b.argN 3 = (if toV then 1 else 0) →
          s.hoUnit (hoNums c).1 (hoNums c).2 = some c → (toV = true → d.vaulten = true) →
          (d.ho = none → s.unitBusy .handover = false → b.handlesFull = false → s.hoCheck c = none → awake → noRings →
            ∃ u, exec (row (.mailbox m)) s = .next u ∧ lockedIn u (some m) ∧ u.umf.serving = none ∧ u.worlds.hoPtr = 1
              ∧ ∃ h ∈ (u.box m).handles, h.unit = .handover ∧ h.res = none)
          ∧ (d.ho ≠ none → exec (row (.mailbox m)) s = .next ({ s with worlds := { d with rej := true } }.respond m 6 [])))
      ∧ (∀ h : Handing, d.ho = some h → h.unit = c → h.step = 3 →
          (s.hoQuiet c = false → exec .handoverQuiesced s = .next s)
          ∧ (s.hoQuiet c = true → noRings → ∃ u, exec .handoverQuiesced s = .next u ∧ u.worlds.ho = none ∧ u.worlds.result = 1 ∧ u.hoOwner c = h.toV
            ∧ match c with
              | .engine e => (u.engine e).timed = false ∧ (u.engine e).locked = false
              | .port p => (s.port p).role ≠ 2 → (u.port p).wins = [] ∧ (u.port p).intxen = false
              | .part k p => ∀ a, partSize * p.val ≤ a → a < partSize * (p.val + 1) → sget 0 (u.isle k).cis.mem a = 0
              | .site g => (u.site g).wins = [] ∧ (u.site g).en = false ∧ (u.site g).link = 1))

/-- R384, R386 to R394, R398, R400, R402 to R405: Umfoent serves one mailbox at a time. What a response leaves in a buffer; what
each command of information, sensors, Lighthouse, limits, policies, identity and the field lock answers and does; the
completion queue; the interrupt register. Certificates, digests and signatures are the model's uninterpreted values.
Log entries 11 and 37: versions of measurements that are free values, and the order of answers. -/
def Obligations.MailboxCommands : Prop :=
  ∀ (s : State) (m : Fin 16) (w : Who) (v : W36),
    let x := s.box m
    let on (c : Nat) : Prop := s.umf.serving = some m ∧ x.cmd = c
    let gives (c : Instr) (t : State) (st : BitVec 8) (ws : List (BitVec 32)) : Prop := exec c s = .next (t.respond m st ws)
    (∀ (st : BitVec 8) (ws : List (BitVec 32)), ws.length ≤ 15 →
        let u := s.respond m st ws
        u.umf.serving = none ∧ (u.box m).donePend = true ∧ (u.box m).handles = x.handles ∧ (u.box m).queue = x.queue
          ∧ (sget 0 (u.box m).buf 0).toNat = 2 ^ 30 + ws.length * 2 ^ 24 + (sget 0 x.buf 0).toNat / 2 ^ 16 % 2 ^ 8 * 2 ^ 16 + st.toNat * 2 ^ 8
          ∧ (∀ i, i < ws.length → sget 0 (u.box m).buf (i + 1) = (ws.getD i 0).setWidth 36)
          ∧ (∀ i, ws.length < i → sget 0 (u.box m).buf i = sget 0 x.buf i)
          ∧ u = { s with umf := { s.umf with serving := none, boxes := u.umf.boxes }, ports := u.ports })
      ∧ (s.umfServes = true → s.umf.serving = none → arbitrate 16 s.umf.ptr.val (fun k => (s.box k).busy) = some m.val →
          let s1 : State := { s with umf := { s.umf with serving := some m, ptr := Fin.ofNat 16 (m.val + 1) } }
          (s.umfRefuses x = none → exec .mailboxServe s = .next s1)
            ∧ (∀ st ws, s.umfRefuses x = some (st, ws) → exec .mailboxServe s = .next (s1.respond m st ws)))
      ∧ (s.boxMay w m = true → x.busy = false → exec (.mailboxReqWrite w m v) s
          = .next (s.setBox m { x with buf := sset 0 x.buf 0 v, donePend := x.donePend && !v.getLsbD 31 }))
      ∧ (s.boxMay w m = true → hasBits v (bitsMask 35 32 ||| bitsMask 17 2) = false → fld v 31 22 < 576 →
          exec (.umfMbintWrite w m v) s = .next (s.setBox m { x with
            intthr := BitVec.ofNat 10 (fld v 31 22), intcls := BitVec.ofNat 3 (fld v 21 19), inten := bitOf v 18
            cplPend := x.cplPend && !bitOf v 1, donePend := x.donePend && !bitOf v 0 }))
      ∧ (s.boxMay w m = false → exec (.mailboxReqWrite w m v) s = .next s ∧ exec (.umfMbintWrite w m v) s = .next s)
      ∧ (on 1 → gives (.info m) s 0 [s.variant.pkginfo.setWidth 32, s.variant.fitmap.setWidth 32, s.variant.chanmap.setWidth 32,
          (if s.umf.active then s.umf.verB else s.umf.verA).setWidth 32,
          if s.umf.standby then (if s.umf.active then s.umf.verA else s.umf.verB).setWidth 32 else 0])
      ∧ (on 2 → gives (.cplRead m) (s.setBox m { x with
          queue := x.queue.drop 14, cplPend := x.cplPend && !(x.queue.drop 14).isEmpty
          handles := x.handles.filter fun h => !((x.queue.take 14).any fun e => e.extractLsb' 16 16 == h.num) })
          0 (BitVec.ofNat 32 (min 14 x.queue.length) :: x.queue.take 14))
      ∧ (on 3 → ∀ f, f = (x.handles.find? fun h => h.num.setWidth 32 == x.arg 1) →
          gives (.handleStatus m) s 0 [match f with | none => 0 | some h => if h.queued then 2 else 1])
      ∧ (∀ h r, x.handles.find? (fun h => h.res.isSome && !h.queued) = some h → h.res = some r →
          (h.drop = false → ∃ u, exec (.handleCompletion m) s = .next u ∧ (u.box m).queue = x.queue ++ [h.num ++ r.1 ++ r.2]
            ∧ (u.box m).cplPend = true ∧ (u.box m).handles = (x.handles.map fun g => if g.num = h.num then { g with queued := true } else g)
            ∧ u = { s with umf := { s.umf with boxes := u.umf.boxes }, ports := u.ports })
          ∧ (h.drop = true → exec (.handleCompletion m) s = .next (s.setBox m { x with handles := x.handles.erase h })))
      ∧ (on 4 →
          (∀ (n : Fin 12) (k : Fin 6), x.argN 1 = n.val * 6 + k.val → s.isleFit n = true → gives (.sensorRead m) s 0
            [(sget 0 (s.isle n).temps k).signExtend 32, 0, (sget 0 (s.isle n).tempMax k).signExtend 32])
          ∧ (∀ k : Fin 24, x.argN 1 = 72 + k.val → gives (.sensorRead m) s 0
            [(sget 0 s.umf.keyTemps k).signExtend 32, 0, (sget 0 s.umf.keyTempMax k).signExtend 32])
          ∧ (∀ n : Fin 12, x.argN 1 = 160 + n.val → s.isleFit n = true → 12 ≤ x.argN 2 → x.argN 2 ≤ 36 →
            gives (.sensorRead m) s 0 [BitVec.ofNat 32 (Config.curveAt n (x.argN 2)), 0, 0])
          ∧ (∀ n : Fin 12, x.argN 1 = 128 + n.val → s.isleFit n = true → ∃ (a c t : BitVec 32) (u : State),
            gives (.sensorRead m) (u.setIsle n { s.isle n with vCurMax := t }) 0 [a, c, t] ∧ c.toNat ≤ 440 ∧ u = { s with free := u.free })
          ∧ (∀ k : Fin 5, x.argN 1 = 140 + k.val → ∃ (a c t : BitVec 32) (u : State),
            gives (.sensorRead m) { u with umf := { s.umf with railMax := sset 0 s.umf.railMax k t } } 0 [a, c, t] ∧ u = { s with free := u.free }))
      ∧ (on 8 →
          (s.lh.setbusy = false → s.lh.run = true → s.lh.epoch ≠ 255 → s.unitBusy .lhSet = false → x.handlesFull = false →
            ∃ u, exec (.lhSet m) s = .next u
              ∧ u.lh = { s.lh with setbusy := true, applyAt := s.lh.count + 80000, applyVal := x.arg 2 ++ x.arg 1 }
              ∧ ∃ h ∈ (u.box m).handles, h.unit = .lhSet ∧ h.res = none)
          ∧ (s.lh.setbusy = true → gives (.lhSet m) s 6 []))
      ∧ (on 9 → x.argN 1 < 2 ^ 24 → gives (.lhSlew m) { s with lh := { s.lh with slew := (x.arg 1).setWidth 24 } } 0 [])
      ∧ (on 10 → x.argN 1 < 2 → gives (.lhPolicy m) { s with
          lh := { s.lh with courtwr := x.arg 1 == 1 }
          board := { s.board with flash := { s.board.flash with courtwr := x.arg 1 == 1 } } } 0 [])
      ∧ (on 12 → let beyond : Prop := 3280 < x.argN 1 ∨ 1200 < x.argN 2 ∨ x.argN 1 < s.ledger.total.1 ∨ x.argN 2 < s.ledger.total.2
          (¬ beyond → gives (.brgSetlimit m)
            { s with ledger := { s.ledger with limCore := (x.arg 1).setWidth 12, limHub := (x.arg 2).setWidth 12 } } 0 [])
          ∧ (beyond → gives (.brgSetlimit m) s 3 []))
      ∧ (on 13 → x.argN 1 < 4096 → gives (.islePolicy m) { s with
          umf := { s.umf with islePolicy := (x.arg 1).setWidth 12 }
          board := { s.board with flash := { s.board.flash with islePolicy := (x.arg 1).setWidth 12 } } } 0 [])
      ∧ (on 16 → x.argN 1 < 4 → let c := s.certificate (x.argN 1)
          gives (.idCert m) s 0 (BitVec.ofNat 32 c.length :: packWords ((c.drop (x.argN 2)).take 56)))
      ∧ (on 17 →
          (x.argN 1 = 2 → gives (.idMeasure m) s 0 (packWords (bigEndian 48 (sget 0 s.umf.measure 2).toNat) ++ [s.fwVersion.setWidth 32]))
          ∧ (x.argN 1 = 4 → gives (.idMeasure m) s 0 (packWords (bigEndian 48 (sget 0 s.umf.measure 4).toNat) ++ [s.umf.ucodeVer.setWidth 32]))
          ∧ (∀ k, k = 1 ∨ k = 3 ∨ k = 5 ∨ k = 6 → x.argN 1 = k → ∃ a : BitVec 32, gives (.idMeasure m) { s with free := s.free + 1 } 0
            (packWords (bigEndian 48 (s.measured k).toNat) ++ [a])))
      ∧ (on 18 → ∀ nonce : BitVec 256, x.argN 1 < 8 → x.argN 2 = 0 ∨ (x.argN 2 = 1 ∧ s.board.flash.ownerKey ≠ none) →
          (s.umf.fails.toNat < 8 → gives (.unlockChallenge m nonce) { s with umf := { s.umf with
            nonce := some nonce, nonceScope := x.arg 1, nonceKey := x.argN 2 == 1, sigR := none
            lastChal := some (s.lh.epoch, s.lh.count) } } 0 (packWords (bigEndian 32 nonce.toNat)))
          ∧ (8 ≤ s.umf.fails.toNat → ∀ c, s.umf.lastChal = some (s.lh.epoch, c) → s.lh.count.toNat < c.toNat + 40000000000 →
            gives (.unlockChallenge m nonce) s 6 []))
      ∧ exec .nonceExpire s = .next { s with umf := { s.umf with nonce := none, sigR := none } }
      ∧ (on 19 →
          (s.umf.nonce ≠ none → x.argN 1 = 0 → gives (.unlockResponse m) { s with umf := { s.umf with sigR := some x.arg48 } } 0 [])
          ∧ (∀ nonce r, s.umf.nonce = some nonce → s.umf.sigR = some r → x.argN 1 = 1 →
            let key := rp (if s.umf.nonceKey then 1 else 0)
            (s.unlockOk nonce r x.arg48 = true → gives (.unlockResponse m) ({ s with umf := { s.umf with
              nonce := none, sigR := none, lock := if s.umf.nonceKey then 2 else 1
              scopes := s.umf.scopes ||| s.umf.nonceScope.setWidth 3 } }.recKey posUmf 0o013001 0 [rp s.umf.nonceScope.toNat, key]) 0 [])
            ∧ (s.unlockOk nonce r x.arg48 = false → gives (.unlockResponse m) ({ s with umf := { s.umf with
              nonce := none, sigR := none, fails := satAdd s.umf.fails 1 } }.recKey posUmf 0o013002 0
              [rp s.umf.nonceScope.toNat, key, rp (satAdd s.umf.fails 1).toNat]) 5 []))
          ∧ (s.umf.nonce = none → gives (.unlockResponse m) s 3 []))
      ∧ (on 20 → gives (.lock m) { s with umf := { s.umf with lock := 0, scopes := 0 } } 0 [])
      ∧ (on 21 →
          (s.umf.scopes.getLsbD 1 = false → gives (.ownerEnroll m) s 5 [])
          ∧ (s.umf.scopes.getLsbD 1 = true → x.argN 1 = 0 → gives (.ownerEnroll m) { s with umf := { s.umf with ownerX := some x.arg48 } } 0 [])
          ∧ (∀ px, s.umf.scopes.getLsbD 1 = true → x.argN 1 = 1 → s.umf.ownerX = some px → Config.onCurve px x.arg48 = true →
            gives (.ownerEnroll m) ({ s with
              umf := { s.umf with ownerX := none }
              board := { s.board with flash := { s.board.flash with ownerKey := some (px, x.arg48) } } }.recKey posUmf 0o013003 0 []) 0 []))

/-- R226 to R231, R282, R283, R395, R398, R406 to R408, R412, R416: Umfoent's commands for Isles, microcode, firmware, ports and
the recorder, served for mailbox m, and what ends them: threads released; an Isle admitted, taken offline and back; microcode
loaded Isle by Isle; an image staged and swapped to; a block configured; the recorder cleared.
The STATUS of ISLE_ADMIT, the order of answers and an image that cannot be read are the model's reading (log entries 36, 37
and 62). -/
def Obligations.MachineServices : Prop :=
  ∀ (s : State) (m : Fin 16) (n : Fin 12) (tr : TrainIn) (img : ImageIn) (s1 : State),
    let x := s.box m
    let y := s.isle n
    let on (c : Nat) : Prop := s.umf.serving = some m ∧ x.cmd = c
    let onIsle (c : Nat) : Prop := on c ∧ x.argN 1 = n.val ∧ s.isleFit n = true
    let room (k : HUnit) : Prop := s.unitBusy k = false ∧ x.handlesFull = false
    let has (u : State) (k : HUnit) (res : Option (BitVec 8 × BitVec 8)) : Prop := ∃ h ∈ (u.box m).handles, h.unit = k ∧ h.res = res
    let s0 : State := if y.cond = .severed ∨ y.cond = .clockLost then s.vcoreOff n else s
    let ready : Prop := claimOk s0.ledger 40 0 = true ∧ claimOk (s0.claim n 40 0).1.ledger 16 40 = true
      ∧ s.umf.ucodeVer = s.umf.admref ∧ y.idigest = (s.strait n).refDigest ∧ tr.okI = BitVec.allOnes 104 ∧ tr.okK = BitVec.allOnes 104
      ∧ (s.lh.run = false ∨ tr.ofs.toInt.natAbs ≤ 8) ∧ tr.report = none
    let up (u : State) : Prop := (u.isle n).cond = .admitted ∧ (u.isle n).st = .run ∧ (u.isle n).vcore = true
      ∧ (u.isle n).iver = s.umf.ucodeVer ∧ u.home.mask.getLsbD n = true ∧ (u.strait n).st = .up ∧ (u.strait n).armed = true
    let good : Prop := img.sigOk = true ∧ s.umf.floor.toNat ≤ img.security.toNat
    (onIsle 48 → s.unitBusy (.isle n) = false → y.cond = .admitted → y.st = .run ∨ y.st = .slack → x.argN 2 < 2 ^ 24 →
        ∃ u, exec (.isleRelease m) s = .next u ∧ u.umf.serving = none
          ∧ ∀ (c : Nat) (k : Fin 2), c < 24 → let q := n.val * 24 + c
            (((x.arg 2).getLsbD c = true ∧ (s.core q).st ≠ .dry ∧ (s.thread (2 * q + k)).mode = .stopped) →
              (u.thread (2 * q + k)).mode = .running ∧ (u.thread (2 * q + k)).pc = (x.arg 4 ++ x.arg 3) &&& ~~~3
                ∧ (u.thread (2 * q + k)).priv = 2 ∧ (u.thread (2 * q + k)).vault = false)
            ∧ ((x.arg 2).getLsbD c = false → u.thread (2 * q + k) = s.thread (2 * q + k)))
      ∧ (onIsle 49 → (y.cond = .admitted ∨ y.cond = .offline ∨ y.cond = .out → exec (.isleAdmit m tr) s = .next (s.respond m 3 []))
          ∧ (y.cond ≠ .admitted → y.cond ≠ .offline → y.cond ≠ .out → y.vcore = false → room (.isle n) →
            (ready → ∃ u, exec (.isleAdmit m tr) s = .next u ∧ up u ∧ has u (.isle n) (some (0, 1)))
            ∧ (claimOk s0.ledger 40 0 = false → ∃ u, exec (.isleAdmit m tr) s = .next u ∧ has u (.isle n) (some (7, 1)) ∧ u.isle n = y)))
      ∧ (onIsle 50 → y.cond ≠ .offline →
          (x.path = 0 → s.isleVault n = true → exec (.isleOffline m) s = .next ((s.setIsle n { y with
            stream := { y.stream with counts := satCount y.stream.counts 2 } }).respond m 7 [2]))
          ∧ (x.path ≠ 0 ∨ s.isleVault n = false →
            (y.cond = .admitted → s.mayDry n = false → exec (.isleOffline m) s = .next s)
            ∧ ((y.cond = .admitted → s.mayDry n = true) → room (.isle n) → ∃ u, exec (.isleOffline m) s = .next u
              ∧ (u.isle n).st = .dry ∧ (u.isle n).vcore = false ∧ u.home.mask.getLsbD n = false ∧ (u.strait n).st = .down)))
      ∧ (onIsle 51 → (y.cond ≠ .offline → exec (.isleOnline m tr) s = .next (s.respond m 3 []))
          ∧ (y.cond = .offline → room (.isle n) → ready → ∃ u, exec (.isleOnline m tr) s = .next u ∧ up u ∧ has u (.isle n) (some (0, 0))
            ∧ (u.isle n).umfLock = false))
      ∧ (on 52 → x.argN 3 ≠ 0 → x.argN 4 = 2 ^ n.val → s.isleFit n = true → y.cond = .admitted ∨ y.cond = .quarantined → y.st ≠ .dry →
          s.unitBusy (.isle n) = false → s.readImage (2 ^ 32 * x.argN 2 + x.argN 1) (x.argN 3) = (s1, none) →
          exec (.ucodeLoad m img) s = .next s1)
      ∧ (∀ ok, on 52 → x.argN 3 ≠ 0 → x.argN 4 = 2 ^ n.val → s.isleFit n = true → y.cond = .admitted ∨ y.cond = .quarantined → y.st ≠ .dry →
          s.unitBusy (.isle n) = false → room .ucode → s.readImage (2 ^ 32 * x.argN 2 + x.argN 1) (x.argN 3) = (s1, some ok) →
          s1.umf = s.umf → ∃ u, exec (.ucodeLoad m img) s = .next u
            ∧ (ok = true → good → u.umf.ucode = some { mailbox := m, todo := [n], version := img.version, digest := img.digest }
              ∧ u.umf.alt = img.version ∧ u.umf.altValid = true ∧ (u.isle n).umfLock = true ∧ (u.isle n).parked = true ∧ has u .ucode none)
            ∧ (ok = true → img.sigOk = true → img.security.toNat < s.umf.floor.toNat → has u .ucode (some (9, 2)) ∧ u.umf.ucode = none)
            ∧ (ok = false ∨ img.sigOk = false → has u .ucode (some (9, 1)) ∧ u.umf.ucode = none))
      ∧ (∀ r : UcodeRun, s.umf.ucode = some r → r.todo = [n] → y.st ≠ .neap → (∀ c, c < 24 → s.coreLaunch (n.val * 24 + c) = false) →
          (s.isleDrained n = false → ∀ ok, exec (.ucodeIsleParked ok) s = .next s)
          ∧ (s.isleDrained n = true → ∀ ok, ∃ u, exec (.ucodeIsleParked ok) s = .next u ∧ (u.isle n).umfLock = false ∧ (u.isle n).parked = false
            ∧ u.umf.ucode = none ∧ u.umf.ucodeVer = r.version ∧ u.umf.admref = r.version ∧ u.umf.altValid = false
            ∧ u.board.flash.ucode = r.version ∧ (ok = true → (u.isle n).iver = r.version) ∧ (ok = false → (u.isle n).cond = .quarantined)))
      ∧ (∀ (b : Fin 12), on 60 → x.argN 1 = b.val → x.argN 2 < 256 → x.argN 2 % 2 = 0 → x.argN 3 < 65536 → x.argN 4 < 256 →
          let bound : BitVec 7 := (x.arg 2).extractLsb' 1 7
          (blockLegal bound (x.arg 3) (x.arg 4) = false → exec (.portConfig m) s = .next (s.respond m 3 []))
          ∧ (blockLegal bound (x.arg 3) (x.arg 4) = true → (∀ p ∈ portsOf bound, x.argN 3 / 4 ^ p.1 % 4 ≠ 2) →
            (∀ k, s.epPort k = none) →
            (∀ g, g < 8 → ∀ q ∈ (s.port (8 * b.val + g)).out, ∀ k, q.src ≠ .home k) → room (.block b) → ∃ u, exec (.portConfig m) s = .next u ∧ (u.block b).bound = bound
              ∧ sget 0 u.board.flash.bounds b = bound ∧ has u (.block b) (some (0, 0))
              ∧ ∀ g, g < 8 → let made := g = 0 ∨ bound.getLsbD (g - 1) = true
                (u.port (8 * b.val + g)).link = 0 ∧ (u.port (8 * b.val + g)).out = []
                ∧ (made → (u.port (8 * b.val + g)).role = BitVec.ofNat 2 (x.argN 3 / 4 ^ g) ∧ (u.port (8 * b.val + g)).cxl = (x.arg 4).getLsbD g)
                ∧ (¬ made → (u.port (8 * b.val + g)).role = 1)))
      ∧ (on 72 → (s.umf.scopes.getLsbD 2 = false → exec (.evrClear m) s = .next (s.respond m 5 []))
          ∧ (s.umf.scopes.getLsbD 2 = true → room .recorder → ∃ u, exec (.evrClear m) s = .next u ∧ has u .recorder none
            ∧ u.evr = { s.evr with clearing := true, clearBy := if s.umf.lock = 2 then 1 else 0, clearBox := BitVec.ofNat 4 m.val }))
      ∧ (s.evr.clearing = true → ∃ u, exec .evrClearDone s = .next u ∧ u.evr.clearing = false ∧ u.evr.seq = 1 ∧ u.evr.ffill = 1
          ∧ u.evr.tnext = 0 ∧ u.evr.tfull = false ∧ u.evr.travel = s.evr.travel ∧ u.evr.queue = s.evr.queue
          ∧ ∃ r : Rec, u.evr.slots = sset {} [] 0 r ∧ r.code = 1 ∧ r.seq = 0 ∧ r.p0 = s.evr.seq.setWidth 72
            ∧ r.p1 = s.evr.clearBy.setWidth 72 ∧ r.p2 = s.evr.clearBox.setWidth 72)
      ∧ (on 80 → s.readImage (2 ^ 32 * x.argN 2 + x.argN 1) (x.argN 3) = (s1, none) → ∀ fl, exec (.fwStage m img fl) s = .next s1)
      ∧ (∀ ok, on 80 → room .firmware → s.readImage (2 ^ 32 * x.argN 2 + x.argN 1) (x.argN 3) = (s1, some ok) → s1.umf = s.umf →
          (good → ok = true → ∃ u, exec (.fwStage m img true) s = .next u ∧ u.umf.standby = true ∧ has u .firmware (some (0, 0))
            ∧ (if s.umf.active then u.umf.verA = img.version ∧ u.umf.verB = s.umf.verB else u.umf.verB = img.version ∧ u.umf.verA = s.umf.verA))
          ∧ (good → ok = true → ∃ u, exec (.fwStage m img false) s = .next u ∧ u.umf.standby = s.umf.standby ∧ has u .firmware (some (9, 3)))
          ∧ (∀ fl, ok = false ∨ img.sigOk = false → ∃ u, exec (.fwStage m img fl) s = .next u ∧ has u .firmware (some (9, 1)) ∧ u.board = s1.board))
      ∧ (on 81 → (s.umf.standby = false → ∀ t, exec (.fwSwap m t) s = .next (s.respond m 3 []))
          ∧ (s.umf.standby = true → room .firmware →
            (∃ u, exec (.fwSwap m true) s = .next u ∧ u.umf.active = !s.umf.active ∧ u.umf.standby = false
              ∧ u.board.flash.bootB = !s.umf.active ∧ u.umf.aliasNo = s.umf.aliasNo + 1 ∧ has u .firmware (some (0, 0)))
            ∧ (∃ u, exec (.fwSwap m false) s = .next u ∧ u.umf.active = s.umf.active ∧ u.board = s.board
              ∧ u.umf.aliasNo = s.umf.aliasNo + 2 ∧ has u .firmware (some (9, 0)))))

/-- R9 to R13, R365, R392, R401, R410, R411, R414, R415, R425: SMBus transactions; SPDM requests and where their responses go
(their bodies are the model's uninterpreted octets, log entry 14); records arrive, are stored and are read; unit counters; a
write of a register.
Log entries 45 and 47 for the fields of records and for the SMBus front end. -/
def Obligations.SidebandRecorderAndRegisters : Prop :=
  ∀ (s : State) (w : Who) (n : Fin 12) (i : Fin 2) (j : Fin 8) (k : Fin 16) (p : Transport) (bs : List Octet) (v : W36) (r : Rec),
    let taken : State := { s with umf := { s.umf with sclHeld := false } }
    let e := s.evr
    let rd := e.reader (s.rdrOf w)
    let reply (bs : List Octet) : State := match p with
      | .smbus => { s with umf := { s.umf with spdm := s.umf.spdm ++ [bs] } }
      | .port q => s.portSend q (.spdm bs) bs.length
    let refusal : List Octet := [0x13, 0x7F, 0x01, 0x00]
    (s.umfServes = true →
        exec (.smbusMctpWrite bs true) s = .next { s with umf := { s.umf with sclHeld := false, mctp := s.umf.mctp ++ [bs] } }
        ∧ exec (.smbusMctpWrite bs false) s = .next taken
        ∧ ∀ m, s.smbBox i = some m →
          (1 ≤ bs.length → bs.length ≤ 64 → exec (.smbusMailboxWrite i bs true) s = .next (taken.setBox m ((s.box m).writeOctets 0 bs)))
          ∧ exec (.smbusMailboxWrite i bs false) s = .next taken
          ∧ exec (.smbusMailboxRead i) s = .next { s with umf := { s.umf with sclHeld := false, smbOut := (s.box m).readOctets 0 64 } })
      ∧ (s.umfServes = true → (∀ q, p = .port q → (s.port q).link = 2) → ∀ (asym hash : BitVec 32) (nonce : BitVec 256) (off len : BitVec 16),
          exec (.getVersion p) s = .next (reply ([0x10, 0x04] ++ Config.spdmBody 0))
          ∧ exec (.getCapabilities p) s = .next (reply ([0x13, 0x61] ++ Config.spdmBody 1))
          ∧ exec (.negotiateAlgorithms p asym hash) s
            = .next (reply (if asym.getLsbD 7 && hash.getLsbD 1 then [0x13, 0x63] ++ Config.spdmBody 2 else refusal))
          ∧ exec (.getDigests p) s = .next (reply ([0x13, 0x01] ++ Config.spdmBody 3))
          ∧ exec (.getCertificate p 0 off len) s = .next (reply ([0x13, 0x02] ++ Config.spdmBody 4
              ++ (((s.certificate 0 ++ (s.certificate 1 ++ (s.certificate 2 ++ s.certificate 3))).drop off.toNat).take len.toNat)))
          ∧ exec (.challenge p 0 nonce) s = .next (reply ([0x13, 0x03] ++ Config.spdmBody (6 + nonce.toNat)))
          ∧ (∀ slot : BitVec 8, slot ≠ 0 → exec (.getCertificate p slot off len) s = .next (reply refusal)
              ∧ exec (.challenge p slot nonce) s = .next (reply refusal))
          ∧ exec (.getMeasurements p 0) s = .next (reply ([0x13, 0x60, 6] ++ Config.spdmBody 5))
          ∧ (∀ a : Fin 6, exec (.getMeasurements p (BitVec.ofNat 8 (a.val + 1))) s
            = .next (reply ([0x13, 0x60, 0] ++ Config.spdmBody 5 ++ bigEndian 48 (s.measured (a.val + 1)).toNat))))
      ∧ (e.travel = [r] → e.seqsat = false →
          (e.queue.length < 256 → exec (.recordArrives 1) s = .next { s with evr := { e with
            travel := [], queue := e.queue ++ [r], ptr := Fin.ofNat 16 (r.src.toNat + 1) } })
          ∧ (256 ≤ e.queue.length → exec (.recordArrives 1) s = .next { s with evr := { e with
            travel := [], ptr := Fin.ofNat 16 (r.src.toNat + 1), dropcnt := e.dropcnt + 1, lost := satAdd e.lost 1 } }))
      ∧ (∀ q, e.queue = r :: q → e.clearing = false →
          (e.seqsat = false → ∃ u, exec .recordStore s = .next u
            ∧ sget {} u.evr.slots (if e.seq.toNat < 4096 then e.seq.toNat else 4096 + (e.seq.toNat - 4096) % 28672)
              = { r with seq := e.seq, lost := e.lost }
            ∧ u.evr.queue = q ∧ u.evr.seq = e.seq + 1 ∧ u.evr.lost = 0 ∧ u.evr.seqsat = decide (e.seq = BitVec.allOnes 44)
            ∧ u.evr.ffill = (if e.seq.toNat < 4096 then BitVec.ofNat 13 (e.seq.toNat + 1) else e.ffill)
            ∧ u = { s with evr := { e with slots := u.evr.slots, queue := q, seq := u.evr.seq, lost := 0, seqsat := u.evr.seqsat
                                           ffill := u.evr.ffill, tnext := u.evr.tnext, tfull := u.evr.tfull } })
          ∧ (e.seqsat = true → exec .recordStore s = .next { s with evr := { e with
              queue := q, dropcnt := e.dropcnt + 1, lost := satAdd e.lost 1 } }))
      ∧ (∀ q, e.queue = r :: q → e.clearing = true → exec .recordStore s = .next s)
      ∧ exec (.evrWindowRead w k) s = .next { s with evr := e.setReader (s.rdrOf w) { rd with
          shadow := if k.val = 0 then sget {} e.slots rd.slot.toNat else rd.shadow
          slot := if k.val = 15 ∧ rd.auto = true then rd.slot + 1 else rd.slot } }
      ∧ (∀ u : SndUnit, (u = .isle n ∧ s.isleOpen w n) ∨ (u = .keystone ∧ s.keyOpen w 12 (16 * j.val + 4)) →
          let c : SndCnt := sget {} (s.sndOf u) j
          c.vw = false ∨ s.whoVault w = true →
            exec (.sndUloRead w u j) s = .next (s.setSnd u j { c with uhi := c.count.extractLsb' 24 24 })
            ∧ (hasBits v (bitsMask 35 24) = false → exec (.sndUloWrite w u j v) s = .next (s.setSnd u j { c with count := v.setWidth 48 })))
      ∧ (s.keyOpen w 8 0x10 →
          exec (.registerWrite w 0xFF01080000010 v) s
            = .next (if hasBits v (bitsMask 35 32) then s else { s with pwr := { s.pwr with tlo := v.setWidth 32 } }))
      ∧ (s.isleOpen w n → exec (.registerWrite w (BitVec.ofNat 52 (isleReg n 3 0)) v) s
          = .next (if hasBits v (bitsMask 35 32) then s else s.setIsle n { s.isle n with tlo := v.setWidth 32 }))
      ∧ exec (.registerWrite w 0xFF00E00000000 v) s = .next s

/-- R426 to R434, R438 to R448: power-on, the package reset land, the steps of start-up and what stops it, and the rails, the
reference clock, the trip points and the alert land.
Log entries 38, 44 and 60: the order of claims in a step, what a reset keeps, and a step that waits for its bearing. -/
def Obligations.StartUpResetAndFatal : Prop :=
  ∀ (s : State) (straps : BitVec 3) (ok : Bool) (dur : BitVec 64) (n : Fin 12) (held : BitVec 32),
    let b := s.board
    let at' (k : Nat) : Prop := b.starting = true ∧ b.step = k
    let stops (x : StartIn) (reason : BitVec 8) : Prop := ∃ u, exec (.startupStep x) s = .next u ∧ u.board.stopped = some reason ∧ u.board.step = b.step
    let dead (c : Instr) (d : BitVec 8) : Prop := ∃ u, exec c s = .next u ∧ u.board.fatal = some (b.fatal.getD d)
      ∧ u.threads = [] ∧ u.cores = [] ∧ u.mem = [] ∧ u.chans = [] ∧ u.harbour = {} ∧ u.board.vkey = false ∧ u.board.vddq = false
      ∧ u.board.vserdes = false ∧ u.evr = s.evr ∧ u.umf = s.umf ∧ u.board.flash = b.flash
    (∃ u, exec (.powerOn straps ok) s = .next u ∧ u.board.step = 1 ∧ u.board.flash = b.flash ∧ u.board.smbAddr = straps ∧ u.threads = []
        ∧ u.isles = [] ∧ u.mem = [] ∧ u.umf.floor = s.umf.floor ∧ u.board.slotsLost = (!ok || b.slotsLost)
        ∧ (ok = true → b.slotsLost = false → u.evr.slots = s.evr.slots ∧ u.evr.seq = s.evr.seq)
        ∧ u = { State.reset with pending := s.pending, variant := s.variant, free := s.free, umf := u.umf, board := u.board, evr := u.evr })
      ∧ exec .pkgResetAssert s = .next { s with board := { b with resetHeld := true } }
      ∧ (b.resetHeld = false → exec (.pkgResetRelease held straps) s = .next s)
      ∧ (b.resetHeld = true → held.toNat < 10000 → exec (.pkgResetRelease held straps) s = .next { s with board := { b with resetHeld := false } })
      ∧ (b.resetHeld = true → 10000 ≤ held.toNat → b.vaux = true → b.slotsLost = false → ∃ u, exec (.pkgResetRelease held straps) s = .next u
          ∧ u.board.step = 2 ∧ u.board.resetHeld = false ∧ u.board.flash = b.flash ∧ u.board.thermtrip = b.thermtrip ∧ u.board.smbAddr = straps
          ∧ u.evr.slots = s.evr.slots ∧ u.evr.seq = s.evr.seq ∧ u.threads = [] ∧ u.mem = [] ∧ u.umf.floor = s.umf.floor
          ∧ u = { State.reset with pending := s.pending, variant := s.variant, free := s.free, umf := u.umf, board := u.board, evr := u.evr })
      ∧ (b.starting = false → ∀ x, exec (.startupStep x) s = .next s)
      ∧ (at' 1 → b.slotsLost = false → ∃ r : Rec, r.code = 9 ∧ r.p0 = dur.setWidth 72 ∧ exec (.startupStep (.step1 dur)) s
          = .next { s with evr := { s.evr with travel := s.evr.travel ++ [r] }, board := { b with step := 2 } })
      ∧ (at' 2 →
          (∀ x y, stops (.step2 dur false false x y) 1) ∧ (∀ y, stops (.step2 dur true true false y) 2)
          ∧ (∀ y, ∃ u, exec (.startupStep (.step2 dur true true true y)) s = .next u ∧ u.board.step = 3
            ∧ u.umf.active = b.flash.bootB ∧ u.umf.ucodeVer = b.flash.ucode ∧ u.umf.admref = b.flash.ucode
            ∧ u.umf.islePolicy = b.flash.islePolicy ∧ u.lh.courtwr = b.flash.courtwr ∧ u.board.vaultOk = (b.flash.vault.isSome && y)
            ∧ (∀ m, m < 16 → (u.box m).path = sget 0 b.flash.paths m) ∧ (∀ p, p < 96 → (u.port p).role = sget 1 b.flash.roles p)
            ∧ ∀ k, k < 12 → let r := u.blockRoles k
              (u.block k).bound = if blockLegal (sget 0 b.flash.bounds k) r.1 r.2 then sget 0 b.flash.bounds k else 0))
      ∧ (at' 3 → (∀ ds, stops (.step3 dur false ds) 4)
          ∧ (claimOk s.ledger 0 160 = false → ∀ ds, exec (.startupStep (.step3 dur true ds)) s = .next (s.claim 49 0 160).1)
          ∧ (claimOk s.ledger 0 160 = true → ∀ ds, ∃ u, exec (.startupStep (.step3 dur true ds)) s = .next u ∧ u.board.step = 4 ∧ u.board.vkey = true ∧ u.board.vddq = true
            ∧ u.board.vserdes = true ∧ (s.isleFit n = true → (u.strait n).refDigest = ds.getD n 0
              ∧ (u.isle n).idigest = ds.getD (12 + n.val) (ds.getD n 0)) ∧ u.ledger = (s.claim 49 0 160).1.ledger))
      ∧ (at' 4 → (s.home.mask = 0 → stops (.step4 dur []) 5)
          ∧ (s.home.mask ≠ 0 → ∃ u, exec (.startupStep (.step4 dur [])) s = .next u ∧ u.board.step = 5))
      ∧ (at' 5 → (s.chans.any fun c => c.2.bearwait) = true → exec (.startupStep (.step5 dur [] [])) s = .next s)
      ∧ (at' 5 → (s.chans.any fun c => c.2.bearwait) = false → ∃ u, exec (.startupStep (.step5 dur [] [])) s = .next u ∧ u.board.step = 6
          ∧ ∀ c, s.chanFit c = true → b.flash.excluded.getLsbD c = true → (u.chan c).st = .excluded)
      ∧ (at' 6 → ((∀ c, (s.chan c).st ≠ .filling ∧ (s.chan c).st ≠ .run) → stops (.step6 dur []) 6)
          ∧ (∀ c : Fin 24, b.flash.court.lines = [] → b.flash.vault = none → (∀ k, k ≠ c.val → (s.chan k).st ≠ .filling ∧ (s.chan k).st ≠ .run) →
            (s.chan c).st = .filling → (s.chan c).cap ≠ 0 → ∃ u, exec (.startupStep (.step6 dur [])) s = .next u ∧ u.board.step = 7
              ∧ (u.chan c).st = .run ∧ u.mem = [] ∧ u.memTop.toNat = 1024 * (s.chan c).cap.toNat
              ∧ u.memSets = [{ base := 0, members := 1#24 <<< c.val, depth := BitVec.ofNat 20 (1024 * (s.chan c).cap.toNat) }]))
      ∧ (at' 7 → claimOk s.ledger 0 24 = false → ∀ f ks vk, exec (.startupStep (.step7 dur f ks vk [])) s = .next (s.claim 48 0 24).1)
      ∧ (at' 7 → claimOk s.ledger 0 24 = true → ∀ ks vk, (s.home.mask = 0 → ∀ f, stops (.step7 dur f ks vk []) 5)
          ∧ (s.home.mask ≠ 0 → b.flash.vault = none → stops (.step7 dur 3 ks vk []) 7
            ∧ ∃ u, exec (.startupStep (.step7 dur 0 ks vk [])) s = .next u ∧ u.board.step = 8 ∧ u.lh.run = true ∧ u.lh.count = 0
              ∧ u.lh.epoch = 0 ∧ u.keys.vaultKey = vk ∧ (ks.length ≤ 4096 → ∀ i, i < ks.length → sget 0 u.keys.ctxKeys i = ks.getD i 0)
              ∧ u.worlds.vaulten = s.worlds.vaulten))
      ∧ (at' 8 → ∃ u, exec (.startupStep (.step8 dur)) s = .next u ∧ u.board.step = 9)
      ∧ (s.isleFit n = true →
          ((s.isle n).vcore = true → ∃ u, exec (.railOutOfRange (.vcore n)) s = .next u ∧ (u.strait n).due = (if (s.strait n).watched then (s.strait n).due.or (some .severed) else none)
            ∧ (u.isle n).mute = true)
          ∧ ((s.isle n).vcore = false → exec (.railOutOfRange (.vcore n)) s = .next s))
      ∧ (b.vkey = true → dead (.railOutOfRange .vkey) 8) ∧ (b.vkey = false → exec (.railOutOfRange .vkey) s = .next s)
      ∧ (b.vserdes = true → s.pwr.lagoon = false → dead (.railOutOfRange .vserdes) 8)
      ∧ (b.vddq = true → dead (.railOutOfRange .vddq) 8)
      ∧ (1 ≤ b.step → b.step ≤ 3 → dead (.railOutOfRange .vfuse) 8) ∧ (3 < b.step → exec (.railOutOfRange .vfuse) s = .next s)
      ∧ (∃ u, exec (.railOutOfRange .vaux) s = .next u ∧ u.board.vaux = false ∧ u.board.step = 0 ∧ u.evr = {} ∧ u.mem = [] ∧ u.threads = [])
      ∧ (b.vaux = true → dead .refclkLoss 9)
      ∧ (∀ pt : Fin 96, b.vaux = true → (pt.val / 6 = n.val ∧ s.isleFit n = true) ∨ 72 ≤ pt.val →
          dead (.thermalTrip pt) 10 ∧ ∃ u, exec (.thermalTrip pt) s = .next u ∧ u.board.thermtrip = true)
      ∧ (∀ l : Bool, exec (.pmbAlert l) s = .next { s with board := { b with pmbAlert := l } })
end

