-- ==== Sys2Proof/Laws/Legal.lean ====
section
/-! SUPPORT. What keeps a thread legal (Safety.lean): its fields written, an advance, trap entry and return, VCALL and
VRET, counters. With it the three ways in which a fact passes through an if, a fold and a bounded loop. -/

namespace Sys2Proof.Machine

variable {β : Type}

theorem pres_ite {Q : β → Prop} {c : Prop} [Decidable c] {a b : β} (h : c → Q a) (k : ¬c → Q b) :
    Q (if c then a else b) := by
  split
  · exact h ‹_›
  · exact k ‹_›

theorem pres_fold {γ : Type} {Q : γ → Prop} (f : γ → β → γ) (l : List β) {a : γ} (h : Q a) (step : ∀ a x, Q a → Q (f a x)) :
    Q (l.foldl f a) := by
  induction l generalizing a with
  | nil => exact h
  | cons x l ih => exact ih (step a x h)

theorem pres_forN {Q : β → Prop} (f : Nat → β → β) (n : Nat) {a : β} (h : Q a) (step : ∀ k a, Q a → Q (f k a)) :
    Q (forN n a f) := by
  induction n with
  | zero => exact h
  | succ k ih => exact step _ _ ih


theorem regMask_getLsbD (hi lo i : Nat) (h : hi < 72) (k : lo ≤ hi) : (regMask hi lo).getLsbD i = (decide (lo ≤ i) && decide (i ≤ hi)) := by
  have e : 2 ^ (hi + 1) - 2 ^ lo = 2 ^ lo * (2 ^ (hi + 1 - lo) - 1) := by
    rw [Nat.mul_sub, ← Nat.pow_add, Nat.mul_one]; congr 2; omega
  simp only [regMask, BitVec.getLsbD_ofNat, e, Nat.testBit_two_pow_mul, Nat.testBit_two_pow_sub_one]
  by_cases a : lo ≤ i <;> by_cases b : i ≤ hi <;> simp [a, b] <;> omega

theorem and_eq_zero_iff {n : Nat} (v m : BitVec n) : v &&& m = 0 ↔ ∀ i, m.getLsbD i = true → v.getLsbD i = false := by
  constructor
  · intro h i k
    have := congrArg (fun x : BitVec n => x.getLsbD i) h
    simpa [k] using this
  · intro h
    apply BitVec.eq_of_getLsbD_eq
    intro i hi
    simp only [BitVec.getLsbD_and]
    cases hm : m.getLsbD i
    · simp
    · simp [h i hm]

theorem Bank.legal_iff (hyp : Bool) (b : Bank) : b.legal hyp = true ↔
    bankBad hyp 0 b.cause = false ∧ bankBad hyp 1 b.pc = false ∧ bankBad hyp 1 b.npc = false ∧ bankBad hyp 4 b.stat = false
      ∧ bankBad hyp 5 b.vec = false ∧ bankBad hyp 7 b.iena = false := by
  simp [Bank.legal, List.range_succ, Bank.get, and_assoc, bankBad]

/-- A multiple of 4. -/
def Aligned (a : Addr) : Prop := a.extractLsb' 0 2 = (0 : BitVec 2)

theorem aligned_iff (a : Addr) : Aligned a ↔ a.getLsbD 0 = false ∧ a.getLsbD 1 = false := by
  unfold Aligned
  constructor
  · intro h
    have h0 := congrArg (fun x : BitVec 2 => x.getLsbD 0) h
    have h1 := congrArg (fun x : BitVec 2 => x.getLsbD 1) h
    simp at h0 h1
    simp [h0, h1]
  · rintro ⟨h0, h1⟩
    apply BitVec.eq_of_getLsbD_eq
    intro i hi
    have : i = 0 ∨ i = 1 := by omega
    simp only [BitVec.getLsbD_extractLsb']
    rcases this with rfl | rfl <;> simp only [h0, h1, Nat.zero_add] <;> rfl

theorem aligned_toNat (a : Addr) : Aligned a ↔ a.toNat % 4 = 0 := by
  unfold Aligned
  rw [← BitVec.toNat_inj]
  simp

theorem Aligned.add {a b : Addr} (h : Aligned a) (k : Aligned b) : Aligned (a + b) := by
  rw [aligned_toNat] at *
  rw [BitVec.toNat_add]
  omega

theorem aligned4 : Aligned 4 := rfl
theorem aligned8 : Aligned 8 := rfl

theorem aligned_times4 (a : Addr) : Aligned (a * 4) := by
  rw [aligned_toNat, BitVec.toNat_mul]
  simp

/-- A transfer's target is a multiple of 4. -/
def Flow.aligned : Flow → Prop
  | .taken a => Aligned a
  | .ordinary | .skip | .notTaken _ => True

theorem WReg.legal_iff (w : WReg) : w.legal = true ↔ w.s.legal false = true ∧ w.h.legal true = true
    ∧ crBad 0o0030 2 w.troute = false ∧ w.troute.getLsbD 18 = true := by
  simp [WReg.legal, and_assoc]

theorem Thread.legal_iff (x : Thread) : x.legal = true ↔ Aligned x.pc ∧ Aligned x.npc ∧ x.priv.toNat < 3 ∧ x.rm.toNat < 5
    ∧ x.wc.legal = true ∧ x.wv.legal = true ∧ x.vrpc &&& (regMask 71 64 ||| regMask 1 0) = 0
    ∧ (x.vrsave.extractLsb' 20 2 : BitVec 2).toNat < 3 ∧ (x.vrsave.extractLsb' 5 3 : BitVec 3).toNat < 5 := by
  simp only [Thread.legal, Aligned, Bool.and_eq_true, beq_iff_eq, decide_eq_true_eq, and_assoc]

theorem Thread.legal_default : ({} : Thread).legal = true := by decide

theorem Thread.legal_wreg {x : Thread} (h : x.legal = true) (v : Bool) : (x.wreg v).legal = true := by
  rw [Thread.legal_iff] at h
  cases v
  · exact h.2.2.2.2.1
  · exact h.2.2.2.2.2.1

theorem Thread.legal_cur {x : Thread} (h : x.legal = true) : x.cur.legal = true := Thread.legal_wreg h _

theorem Thread.legal_setWreg {x : Thread} (h : x.legal = true) (v : Bool) {w : WReg} (k : w.legal = true) :
    (x.setWreg v w).legal = true := by
  rw [Thread.legal_iff] at *
  obtain ⟨a, b, c, d, e, f, g⟩ := h
  cases v
  · exact ⟨a, b, c, d, k, f, g⟩
  · exact ⟨a, b, c, d, e, k, g⟩

theorem Thread.legal_setCur {x : Thread} (h : x.legal = true) {w : WReg} (k : w.legal = true) :
    (x.setCur w).legal = true := Thread.legal_setWreg h _ k

/-- The legality of a thread does not rest on its other fields. -/
theorem Thread.legal_congr {x y : Thread} (h : x.legal = true) (a : y.pc = x.pc) (b : y.npc = x.npc) (c : y.priv = x.priv)
    (d : y.rm = x.rm) (e : y.wc = x.wc) (f : y.wv = x.wv) (g : y.vrpc = x.vrpc) (i : y.vrsave = x.vrsave) : y.legal = true := by
  rw [Thread.legal_iff] at *
  rw [a, b, c, d, e, f, g, i]
  exact h

theorem WReg.legal_congr {x y : WReg} (h : x.legal = true) (a : y.s = x.s) (b : y.h = x.h) (c : y.troute = x.troute) :
    y.legal = true := by
  rw [WReg.legal_iff] at *
  rw [a, b, c]
  exact h

theorem Thread.legal_setGr {x : Thread} (h : x.legal = true) (r : BitVec 6) (v : Reg) : (x.setGr r v).legal = true := by
  unfold Thread.setGr
  split
  · exact h
  · exact Thread.legal_congr h rfl rfl rfl rfl rfl rfl rfl rfl

theorem Thread.legal_setVr {x : Thread} (h : x.legal = true) (r : BitVec 5) (v : LineBits) : (x.setVr r v).legal = true :=
  Thread.legal_congr h rfl rfl rfl rfl rfl rfl rfl rfl

/-- A thread moves to other addresses. -/
theorem Thread.legal_pc {x y : Thread} (h : x.legal = true) (a : Aligned y.pc) (b : Aligned y.npc) (c : y.priv = x.priv)
    (d : y.rm = x.rm) (e : y.wc = x.wc) (f : y.wv = x.wv) (g : y.vrpc = x.vrpc) (i : y.vrsave = x.vrsave) : y.legal = true := by
  rw [Thread.legal_iff] at *
  rw [c, d, e, f, g, i]
  exact ⟨a, b, h.2.2⟩

theorem Thread.legal_advance {x : Thread} (h : x.legal = true) {f : Flow} (k : f.aligned) : (x.advance f).legal = true := by
  have n := ((Thread.legal_iff x).mp h).2.1
  unfold Thread.advance
  split
  · exact Thread.legal_pc h n (n.add aligned4) rfl rfl rfl rfl rfl rfl
  · exact Thread.legal_pc h (n.add aligned4) (n.add aligned8) rfl rfl rfl rfl rfl rfl
  · exact Thread.legal_pc h n k rfl rfl rfl rfl rfl rfl
  · exact Thread.legal_pc h n (n.add aligned4) rfl rfl rfl rfl rfl rfl
  · exact Thread.legal_pc h (n.add aligned4) (n.add aligned8) rfl rfl rfl rfl rfl rfl

theorem WReg.legal_bank {w : WReg} (h : w.legal = true) (l : BitVec 2) : (w.bank l).legal (l == 2) = true := by
  rw [WReg.legal_iff] at h
  unfold WReg.bank
  by_cases k : l = 2
  · subst k
    exact h.2.1
  · rw [if_neg k, beq_eq_false_iff_ne.mpr k]
    exact h.1

theorem WReg.legal_setBank {w : WReg} (h : w.legal = true) (l : BitVec 2) {b : Bank} (k : b.legal (l == 2) = true) :
    (w.setBank l b).legal = true := by
  rw [WReg.legal_iff] at *
  unfold WReg.setBank
  by_cases e : l = 2
  · simp only [e, if_true] at *
    exact ⟨h.1, k, h.2.2⟩
  · rw [beq_eq_false_iff_ne.mpr e] at k
    rw [if_neg e]
    exact ⟨k, h.2⟩

theorem masked_bit {v m : Reg} (h : v &&& m = 0) (i : Nat) (k : m.getLsbD i = true) : v.getLsbD i = false :=
  (and_eq_zero_iff v m).mp h i k

theorem bankBad_pc {hyp : Bool} {a : Addr} (h : Aligned a) : bankBad hyp 1 (a.setWidth 72) = false := by
  rw [aligned_iff] at h
  simp only [bankBad, bne_eq_false_iff_eq]
  rw [and_eq_zero_iff]
  intro i
  rw [BitVec.getLsbD_or, regMask_getLsbD _ _ _ (by omega) (by omega), regMask_getLsbD _ _ _ (by omega) (by omega), BitVec.getLsbD_setWidth]
  intro k
  simp at k
  rcases k with ⟨k, -⟩ | k
  · simp [BitVec.getLsbD_of_ge a i k]
  · have : i = 0 ∨ i = 1 := by omega
    rcases this with rfl | rfl
    · rw [h.1, Bool.and_false]
    · rw [h.2, Bool.and_false]

theorem aligned_of_pc {hyp : Bool} {r : Reg} (h : bankBad hyp 1 r = false) : Aligned (r.extractLsb' 0 64) := by
  simp only [bankBad, bne_eq_false_iff_eq] at h
  rw [aligned_iff]
  have h0 := masked_bit h 0 (by decide)
  have h1 := masked_bit h 1 (by decide)
  simp only [BitVec.getLsbD_extractLsb', h0, h1, Nat.zero_add, Bool.and_false, and_self]

theorem bankBad_cause (hyp ds intr : Bool) (d c : BitVec 8) : bankBad hyp 0 (causeWord ds intr d c) = false := by
  simp only [bankBad, bne_eq_false_iff_eq]
  rw [and_eq_zero_iff]
  intro i
  rw [BitVec.getLsbD_or, regMask_getLsbD _ _ _ (by omega) (by omega), regMask_getLsbD _ _ _ (by omega) (by omega)]
  intro k
  simp at k
  unfold causeWord
  simp only [BitVec.getLsbD_append, BitVec.getLsbD_zero]
  rcases k with ⟨k, -⟩ | k
  · have a1 : ¬ i < 8 := by omega
    have a2 : ¬ i - 8 < 8 := by omega
    have a3 : ¬ i - 8 - 8 < 6 := by omega
    have a4 : ¬ i - 8 - 8 - 6 < 1 := by omega
    have a5 : ¬ i - 8 - 8 - 6 - 1 < 1 := by omega
    simp [a1, a2, a3, a4, a5]
  · have a1 : ¬ i < 8 := by omega
    have a2 : ¬ i - 8 < 8 := by omega
    have a3 : i - 8 - 8 < 6 := by omega
    simp [a1, a2, a3]

theorem bankBad_stat {hyp : Bool} (p : BitVec 2) (ie : Bool) (h : p.toNat < if hyp then 3 else 2) :
    bankBad hyp 4 ((0 : BitVec 68) ++ p ++ BitVec.ofBool ie ++ (0 : BitVec 1)) = false := by
  revert h
  cases hyp <;> cases ie <;> revert p <;> decide

theorem vec_aligned {hyp : Bool} {r : Reg} (h : bankBad hyp 5 r = false) : Aligned (r.extractLsb' 0 64) := by
  simp only [bankBad, bne_eq_false_iff_eq] at h
  rw [aligned_iff]
  have h0 := masked_bit h 0 (by decide)
  have h1 := masked_bit h 1 (by decide)
  simp only [BitVec.getLsbD_extractLsb', h0, h1, Nat.zero_add, Bool.and_false, and_self]

theorem trapLevel_cases (w : WReg) (p : BitVec 2) (c : BitVec 8) :
    trapLevel w p c = 2 ∨ (trapLevel w p c = 1 ∧ p ≠ 2) := by
  unfold trapLevel WReg.target
  by_cases h : p = 2
  · simp [h]
  · by_cases k : c = 18
    · simp [k]
    · simp only [h, k, or_self, if_false]
      split
      · split
        · exact .inl rfl
        · exact .inr ⟨rfl, h⟩
      · split
        · exact .inl rfl
        · exact .inr ⟨rfl, h⟩

theorem Thread.legal_takeTrap {x : Thread} (h : x.legal = true) (c d : BitVec 8) (v : Reg) {pc npc : Addr} (ds : Bool)
    (a : Aligned pc) (b : Aligned npc) : (x.takeTrap c d v pc npc ds).legal = true := by
  have hw := Thread.legal_cur h
  have hb := WReg.legal_bank hw (trapLevel x.cur x.priv c)
  have hp := ((Thread.legal_iff x).mp h).2.2.1
  have hl := trapLevel_cases x.cur x.priv c
  unfold Thread.takeTrap
  dsimp only
  generalize trapLevel x.cur x.priv c = l at *
  have lp : x.priv.toNat < if (l == 2) then 3 else 2 := by
    rcases hl with rfl | ⟨rfl, k⟩
    · simpa using hp
    · have : x.priv.toNat ≠ 2 := fun e => k (BitVec.eq_of_toNat_eq e)
      simp
      omega
  rw [Bank.legal_iff] at hb
  have k := Thread.legal_setCur h (WReg.legal_setBank hw l ((Bank.legal_iff _ _).mpr
    ⟨bankBad_cause (l == 2) ds (decide (32 ≤ c.toNat)) d c, bankBad_pc a, bankBad_pc b,
     bankBad_stat x.priv (((x.cur).bank l).stat.getLsbD 0) lp, hb.2.2.2.2⟩ : Bank.legal (l == 2) { (x.cur).bank l with cause := _, pc := _, npc := _, val := v, stat := _ } = true))
  rw [Thread.legal_iff] at k ⊢
  refine ⟨vec_aligned hb.2.2.2.2.1, (vec_aligned hb.2.2.2.2.1).add aligned4, ?_, k.2.2.2⟩
  show l.toNat < 3
  rcases hl with rfl | ⟨rfl, -⟩ <;> decide

theorem stat_and_or (hyp : Bool) (v : Reg) (c : Bool) (h : bankBad hyp 4 v = false) :
    bankBad hyp 4 ((v &&& ~~~(1 : Reg)) ||| (BitVec.ofBool c).setWidth 72) = false := by
  have e : (((v &&& ~~~(1 : Reg)) ||| (BitVec.ofBool c).setWidth 72).extractLsb' 2 2 : BitVec 2) = v.extractLsb' 2 2 := by
    apply BitVec.eq_of_getLsbD_eq
    intro i hi
    have : i = 0 ∨ i = 1 := by omega
    rcases this with rfl | rfl <;> cases c <;> simp
  simp only [bankBad, e, Bool.or_eq_false_iff, bne_eq_false_iff_eq] at *
  refine ⟨?_, h.2⟩
  rw [and_eq_zero_iff] at *
  intro i k
  have z := h.1 i k
  rw [regMask_getLsbD _ _ _ (by omega) (by omega)] at k
  simp at k
  simp only [BitVec.getLsbD_or, BitVec.getLsbD_and, z, BitVec.getLsbD_setWidth]
  have : ¬ i < 1 := by omega
  simp [BitVec.getLsbD_of_ge (BitVec.ofBool c) i (by omega)]

theorem Bank.legal_stat {hyp : Bool} {b : Bank} (h : b.legal hyp = true) {v : Reg} (k : bankBad hyp 4 v = false) :
    Bank.legal hyp { b with stat := v } = true := by
  rw [Bank.legal_iff] at *
  exact ⟨h.1, h.2.1, h.2.2.1, k, h.2.2.2.2⟩

theorem Thread.legal_trapReturn {x : Thread} (h : x.legal = true) : x.trapReturn.legal = true := by
  have hw := Thread.legal_cur h
  have hb := (Bank.legal_iff _ _).mp (WReg.legal_bank hw x.priv)
  unfold Thread.trapReturn
  dsimp only
  have k := Thread.legal_setCur h (WReg.legal_setBank hw x.priv (Bank.legal_stat (WReg.legal_bank hw x.priv)
    (stat_and_or _ _ (((x.cur).bank x.priv).stat.getLsbD 1) hb.2.2.2.1)))
  rw [Thread.legal_iff] at k ⊢
  refine ⟨aligned_of_pc hb.2.1, aligned_of_pc hb.2.2.1, ?_, k.2.2.2⟩
  have s := hb.2.2.2.1
  simp only [bankBad, Bool.or_eq_false_iff, decide_eq_false_iff_not] at s
  have s2 := s.2
  have q : (if (x.priv == 2) = true then 3 else 2) ≤ 3 := by split <;> decide
  show ((x.cur.bank x.priv).stat.extractLsb' 2 2 : BitVec 2).toNat < 3
  omega

theorem Thread.legal_priv {x : Thread} (h : x.legal = true) : x.priv.toNat < 3 := ((Thread.legal_iff x).mp h).2.2.1
theorem Thread.legal_aligned {x : Thread} (h : x.legal = true) : Aligned x.pc ∧ Aligned x.npc :=
  ⟨((Thread.legal_iff x).mp h).1, ((Thread.legal_iff x).mp h).2.1⟩

theorem Thread.legal_trap {x : Thread} (h : x.legal = true) (c d : BitVec 8) (v : Reg) :
    (x.takeTrap c d v x.pc x.npc x.ds).legal = true :=
  Thread.legal_takeTrap h c d v x.ds (Thread.legal_aligned h).1 (Thread.legal_aligned h).2

theorem Thread.legal_call {x : Thread} (h : x.legal = true) (c : BitVec 8) :
    (x.takeTrap c 0 0 x.npc (x.npc + 4) false).legal = true :=
  Thread.legal_takeTrap h c 0 0 false (Thread.legal_aligned h).2 ((Thread.legal_aligned h).2.add aligned4)

theorem Thread.legal_scopeReset (x : Thread) : x.scopeReset.legal = true :=
  Thread.legal_congr Thread.legal_default rfl rfl rfl rfl rfl rfl rfl rfl

theorem aligned_mask (a : Addr) : Aligned (a &&& ~~~3) := by
  rw [aligned_iff, BitVec.getLsbD_and, BitVec.getLsbD_and]
  constructor
  · rw [show (~~~3 : Addr).getLsbD 0 = false from by decide, Bool.and_false]
  · rw [show (~~~3 : Addr).getLsbD 1 = false from by decide, Bool.and_false]

theorem Thread.legal_release {x : Thread} (h : x.legal = true) (a : Addr) : (x.release a).legal = true := by
  unfold Thread.release
  dsimp only
  split
  · exact Thread.legal_pc (x := x.scopeReset) (Thread.legal_scopeReset x) (aligned_mask a) ((aligned_mask a).add aligned4) rfl rfl rfl rfl rfl rfl
  · exact h

theorem Thread.legal_launchEnd {x : Thread} (h : x.legal = true) (k : Nat) : (x.launchEnd k).legal = true := by
  unfold Thread.launchEnd
  split
  · have k : Thread.legal { x with mode := .running } = true := Thread.legal_congr h rfl rfl rfl rfl rfl rfl rfl rfl
    exact Thread.legal_advance (Thread.legal_setGr k _ _) trivial
  all_goals exact h

theorem WReg.legal_addCount {w : WReg} (h : w.legal = true) (i k : Nat) : (w.addCount i k).legal = true :=
  WReg.legal_congr h rfl rfl rfl

theorem WReg.legal_countEvent {w : WReg} (h : w.legal = true) (p : BitVec 2) (e k : Nat) :
    (w.countEvent p e k).legal = true := by
  unfold WReg.countEvent
  exact pres_forN (Q := fun w : WReg => w.legal = true) _ _ h fun i w g =>
    pres_ite (Q := fun w : WReg => w.legal = true) (fun _ => WReg.legal_addCount g _ _) fun _ => g

theorem WReg.legal_countEvents {w : WReg} (h : w.legal = true) (p : BitVec 2) (l : List (Nat × Nat)) :
    (l.foldl (fun (w : WReg) (e : Nat × Nat) => w.countEvent p e.1 e.2) w).legal = true :=
  pres_fold (Q := fun w : WReg => w.legal = true) _ _ h fun _ _ g => WReg.legal_countEvent g _ _ _

theorem bankBad_any {hyp : Bool} (k : Nat) (b : Bank) (v : Reg) (h : b.legal hyp = true) (g : bankBad hyp k v = false) :
    (b.set k v).legal hyp = true := by
  rw [Bank.legal_iff] at *
  match k with
  | 0 => exact ⟨g, h.2⟩
  | 1 => exact ⟨h.1, g, h.2.2⟩
  | 2 => exact ⟨h.1, h.2.1, g, h.2.2.2⟩
  | 3 => exact h
  | 4 => exact ⟨h.1, h.2.1, h.2.2.1, g, h.2.2.2.2⟩
  | 5 => exact ⟨h.1, h.2.1, h.2.2.1, h.2.2.2.1, g, h.2.2.2.2.2⟩
  | 6 => exact h
  | n + 7 => exact ⟨h.1, h.2.1, h.2.2.1, h.2.2.2.1, h.2.2.2.2.1, g⟩

theorem troute_bit {v : Reg} (h : crBad 0o0030 2 v = false) :
    crBad 0o0030 2 (v ||| 0x40000) = false ∧ (v ||| 0x40000).getLsbD 18 = true := by
  refine ⟨?_, by simp⟩
  simp only [crBad, bne_eq_false_iff_eq] at *
  rw [and_eq_zero_iff] at *
  intro i k
  rw [BitVec.getLsbD_or, h i k, Bool.false_or]
  have : i ≠ 18 := by rintro rfl; revert k; decide
  by_cases z : i < 72
  · have : ∀ j : Fin 72, j.val ≠ 18 → (0x40000 : Reg).getLsbD j.val = false := by decide
    exact this ⟨i, z⟩ ‹_›
  · exact BitVec.getLsbD_of_ge _ _ (by omega)

theorem crBad_troute (p : BitVec 2) (v : Reg) : crBad 0o0030 p v = crBad 0o0030 2 v := rfl

theorem Thread.legal_rm {x : Thread} (h : x.legal = true) (p : BitVec 2) (v : Reg) (k : crBad 0o0004 p v = false) :
    Thread.legal { x with rm := v.setWidth 3 } = true := by
  rw [Thread.legal_iff] at *
  obtain ⟨a, b, c, d, e⟩ := h
  refine ⟨a, b, c, ?_, e⟩
  simp only [crBad, Bool.or_eq_false_iff, decide_eq_false_iff_not] at k
  have e : (v.extractLsb' 0 3 : BitVec 3) = v.setWidth 3 := by
    apply BitVec.eq_of_toNat_eq
    rw [BitVec.extractLsb'_toNat, BitVec.toNat_setWidth, Nat.shiftRight_zero]
  have := k.2
  rw [e] at this
  show (v.setWidth 3 : BitVec 3).toNat < 5
  omega

theorem Thread.legal_vcall {x : Thread} (h : x.legal = true) (a : Addr) (k : Aligned a) : Thread.legal { x with
      vrpc := zext72 (x.pc + 4), vrsave := vrsaveOf x, vault := true, priv := 2, ret := []
      pc := a, npc := a + 4, ds := false } = true := by
  rw [Thread.legal_iff] at *
  obtain ⟨p, n, c, d, e, f, g, i, j⟩ := h
  refine ⟨k, k.add aligned4, (by decide : (2 : BitVec 2).toNat < 3), d, e, f, ?_, ?_, ?_⟩
  · have := bankBad_pc (hyp := true) (p.add aligned4)
    simp only [bankBad, bne_eq_false_iff_eq] at this
    exact this
  · have : (vrsaveOf x).extractLsb' 20 2 = x.priv := by
      unfold vrsaveOf
      apply BitVec.eq_of_getLsbD_eq
      intro i hi
      simp only [BitVec.getLsbD_extractLsb', BitVec.getLsbD_append]
      have : i = 0 ∨ i = 1 := by omega
      rcases this with rfl | rfl <;> simp
    show (BitVec.extractLsb' 20 2 (vrsaveOf x)).toNat < 3
    rw [this]
    exact c
  · have : (vrsaveOf x).extractLsb' 5 3 = x.rm := by
      unfold vrsaveOf
      apply BitVec.eq_of_getLsbD_eq
      intro i hi
      simp only [BitVec.getLsbD_extractLsb', BitVec.getLsbD_append]
      have : i = 0 ∨ i = 1 ∨ i = 2 := by omega
      rcases this with rfl | rfl | rfl <;> simp
    show (BitVec.extractLsb' 5 3 (vrsaveOf x)).toNat < 5
    rw [this]
    exact d

theorem vrpc_aligned {v : Reg} (h : v &&& (regMask 71 64 ||| regMask 1 0) = 0) : Aligned (low64 v) :=
  aligned_of_pc (hyp := true) (by simp only [bankBad, h]; rfl)

theorem Thread.legal_vret {x : Thread} (h : x.legal = true) : Thread.legal { x with
      g := x.g.filter fun p => decide (p.1 < 5), v := []
      priv := x.vrsave.extractLsb' 20 2, ctx := x.vrsave.extractLsb' 8 12, rm := x.vrsave.extractLsb' 5 3
      flags := x.vrsave.extractLsb' 0 5
      vault := false, ret := [], pc := low64 x.vrpc, npc := low64 x.vrpc + 4, ds := false } = true := by
  rw [Thread.legal_iff] at *
  obtain ⟨p, n, c, d, e, f, g, i, j⟩ := h
  exact ⟨vrpc_aligned g, (vrpc_aligned g).add aligned4, i, j, e, f, g, i, j⟩

end Sys2Proof.Machine
end

