-- ==== Sys2Proof/Laws/Store.lean ====
section
/-! SUPPORT. What a `Store` reads after a write, and that every operation keeps the canonical form. -/

namespace Sys2Proof.Machine

variable {α : Type}

@[simp] theorem sget_nil (d : α) (k : Nat) : sget d [] k = d := rfl

theorem sget_sdel_same (d : α) (m : Store α) (k : Nat) : sget d (sdel k m) k = d := by
  induction m with
  | nil => rfl
  | cons p m ih =>
    obtain ⟨j, w⟩ := p
    by_cases h : j = k <;> simp [sdel, sget, h, ih]

theorem sget_sdel_ne (d : α) (m : Store α) {k j : Nat} (h : j ≠ k) : sget d (sdel k m) j = sget d m j := by
  induction m with
  | nil => rfl
  | cons p m ih =>
    obtain ⟨i, w⟩ := p
    by_cases hk : i = k
    · subst hk; simp [sdel, sget, ih, Ne.symm h]
    · simp [sdel, sget, hk, ih]

theorem sget_sins_same (d : α) (m : Store α) (k : Nat) (v : α) (h : ∀ p ∈ m, p.1 ≠ k) : sget d (sins k v m) k = v := by
  induction m with
  | nil => simp [sins, sget]
  | cons p m ih =>
    obtain ⟨j, w⟩ := p
    have hj : j ≠ k := h (j, w) (by simp)
    by_cases hlt : k < j
    · simp [sins, sget, hlt]
    · simp [sins, sget, hlt, hj, ih fun p hp => h p (by simp [hp])]

theorem sget_sins_ne (d : α) (m : Store α) {k j : Nat} (v : α) (h : j ≠ k) : sget d (sins k v m) j = sget d m j := by
  induction m with
  | nil => simp [sins, sget, Ne.symm h]
  | cons p m ih =>
    obtain ⟨i, w⟩ := p
    by_cases hlt : k < i
    · simp [sins, sget, hlt, Ne.symm h]
    · simp [sins, sget, hlt, ih]

theorem mem_sdel {m : Store α} {k : Nat} {p : Nat × α} (h : p ∈ sdel k m) : p.1 ≠ k ∧ p ∈ m := by
  induction m with
  | nil => simp [sdel] at h
  | cons q m ih =>
    obtain ⟨j, w⟩ := q
    by_cases hk : j = k
    · simp only [sdel, hk, if_true] at h
      exact ⟨(ih h).1, by simp [(ih h).2]⟩
    · simp only [sdel, hk, if_false, List.mem_cons] at h
      rcases h with rfl | h
      · exact ⟨hk, by simp⟩
      · exact ⟨(ih h).1, by simp [(ih h).2]⟩

/-- A write is read back. -/
@[simp] theorem sget_sset_same [DecidableEq α] (d : α) (m : Store α) (k : Nat) (v : α) : sget d (sset d m k v) k = v := by
  unfold sset
  split
  · rename_i h; rw [sget_sdel_same, h]
  · exact sget_sins_same d _ k v fun p hp => (mem_sdel hp).1

/-- A write leaves every other number alone. -/
theorem sget_sset_ne [DecidableEq α] (d : α) (m : Store α) {k j : Nat} (v : α) (h : j ≠ k) : sget d (sset d m k v) j = sget d m j := by
  unfold sset
  split
  · exact sget_sdel_ne d m h
  · rw [sget_sins_ne d _ v h, sget_sdel_ne d m h]

theorem sget_sset [DecidableEq α] (d : α) (m : Store α) (k j : Nat) (v : α) :
    sget d (sset d m k v) j = if j = k then v else sget d m j := by
  by_cases h : j = k
  · subst h; simp
  · simp [h, sget_sset_ne d m v h]

theorem swf_cons [DecidableEq α] (d : α) (k : Nat) (v : α) (m : Store α) :
    swf d ((k, v) :: m) = true ↔ v ≠ d ∧ (∀ p ∈ m, k < p.1) ∧ swf d m = true := by
  simp [swf, and_assoc]

theorem swf_filter [DecidableEq α] (d : α) (m : Store α) (f : Nat × α → Bool) (h : swf d m = true) : swf d (m.filter f) = true := by
  induction m with
  | nil => rfl
  | cons p m ih =>
    obtain ⟨k, v⟩ := p
    obtain ⟨hv, hm, hw⟩ := (swf_cons d k v m).mp h
    by_cases hf : f (k, v)
    · rw [List.filter_cons_of_pos hf, swf_cons]
      exact ⟨hv, fun p hp => hm p (List.mem_filter.mp hp).1, ih hw⟩
    · rw [List.filter_cons_of_neg hf]
      exact ih hw

theorem swf_sdel [DecidableEq α] (d : α) (m : Store α) (k : Nat) (h : swf d m = true) : swf d (sdel k m) = true := by
  induction m with
  | nil => rfl
  | cons p m ih =>
    obtain ⟨j, w⟩ := p
    obtain ⟨hv, hm, hw⟩ := (swf_cons d j w m).mp h
    by_cases hk : j = k
    · simpa [sdel, hk] using ih hw
    · simp only [sdel, hk, if_false]
      exact (swf_cons d j w _).mpr ⟨hv, fun p hp => hm p (mem_sdel hp).2, ih hw⟩

theorem mem_sins {m : Store α} {k : Nat} {v : α} {p : Nat × α} (h : p ∈ sins k v m) : p = (k, v) ∨ p ∈ m := by
  induction m with
  | nil => simpa [sins] using h
  | cons q m ih =>
    obtain ⟨j, w⟩ := q
    by_cases hlt : k < j
    · simpa [sins, hlt] using h
    · simp only [sins, hlt, if_false, List.mem_cons] at h ⊢
      rcases h with rfl | h
      · simp
      · rcases ih h with h | h <;> simp [h]

theorem swf_sins [DecidableEq α] (d : α) (m : Store α) (k : Nat) (v : α) (hv : v ≠ d) (hk : ∀ p ∈ m, p.1 ≠ k) (h : swf d m = true) :
    swf d (sins k v m) = true := by
  induction m with
  | nil => simp [sins, swf, hv]
  | cons p m ih =>
    obtain ⟨j, w⟩ := p
    obtain ⟨hw, hm, hs⟩ := (swf_cons d j w m).mp h
    have hj : j ≠ k := hk (j, w) (by simp)
    by_cases hlt : k < j
    · simp only [sins, hlt, if_true]
      refine (swf_cons d k v _).mpr ⟨hv, ?_, h⟩
      intro p hp
      rcases List.mem_cons.mp hp with rfl | hp
      · exact hlt
      · exact lt_trans hlt (hm p hp)
    · simp only [sins, hlt, if_false]
      refine (swf_cons d j w _).mpr ⟨hw, ?_, ih (fun p hp => hk p (by simp [hp])) hs⟩
      intro p hp
      rcases mem_sins hp with rfl | hp
      · exact lt_of_le_of_ne (not_lt.mp hlt) hj
      · exact hm p hp

/-- A write keeps the canonical form. -/
theorem swf_sset [DecidableEq α] (d : α) (m : Store α) (k : Nat) (v : α) (h : swf d m = true) : swf d (sset d m k v) = true := by
  unfold sset
  split
  · exact swf_sdel d m k h
  · rename_i hv
    exact swf_sins d _ k v hv (fun p hp => (mem_sdel hp).1) (swf_sdel d m k h)

/-- A change of every listed value is in the canonical form. -/
theorem swf_smap [DecidableEq α] (d : α) (m : Store α) (f : Nat → α → α) : swf d (smap d m f) = true := by
  have h (ks : List Nat) (r : Store α) (hr : swf d r = true) :
      swf d (ks.foldl (fun r k => sset d r k (f k (sget d m k))) r) = true := by
    induction ks generalizing r with
    | nil => exact hr
    | cons k ks ih => exact ih _ (swf_sset d r k _ hr)
  exact h _ _ rfl

theorem sget_of_not_mem {d : α} {m : Store α} {k : Nat} (h : k ∉ skeys m) : sget d m k = d := by
  induction m with
  | nil => rfl
  | cons p m ih =>
    obtain ⟨j, v⟩ := p
    simp only [skeys, List.map_cons, List.mem_cons, not_or] at h
    simp only [sget, if_neg (Ne.symm h.1)]
    exact ih h.2

/-- What a change of every listed value reads as. -/
theorem sget_smap [DecidableEq α] (d : α) (m : Store α) (f : Nat → α → α) (hf : ∀ k, f k d = d) (k : Nat) :
    sget d (smap d m f) k = f k (sget d m k) := by
  have h (ks : List Nat) (r : Store α) :
      sget d (ks.foldl (fun r k => sset d r k (f k (sget d m k))) r) k = if k ∈ ks then f k (sget d m k) else sget d r k := by
    induction ks generalizing r with
    | nil => simp
    | cons j ks ih =>
      rw [List.foldl_cons, ih]
      by_cases hk : k ∈ ks
      · simp [hk]
      · by_cases hj : k = j
        · subst hj; simp [hk]
        · rw [sget_sset_ne d r _ hj]; simp [hk, hj]
  unfold smap
  rw [h]
  split
  · rfl
  · rename_i hk
    rw [sget_of_not_mem hk, hf]; rfl

/-! ### Writing twice -/

theorem sdel_of_all {m : Store α} {k : Nat} (h : ∀ p ∈ m, p.1 ≠ k) : sdel k m = m := by
  induction m with
  | nil => rfl
  | cons p m ih =>
    unfold sdel
    rw [if_neg (h p (List.mem_cons_self ..)), ih fun q hq => h q (List.mem_cons_of_mem _ hq)]

theorem sdel_sins [DecidableEq α] (m : Store α) (k : Nat) (v : α) (h : ∀ p ∈ m, p.1 ≠ k) : sdel k (sins k v m) = m := by
  induction m with
  | nil => simp [sins, sdel]
  | cons p m ih =>
    have hp := h p (List.mem_cons_self ..)
    have hm : ∀ q ∈ m, q.1 ≠ k := fun q hq => h q (List.mem_cons_of_mem _ hq)
    unfold sins
    split
    · unfold sdel
      rw [if_pos rfl]
      exact sdel_of_all h
    · unfold sdel
      rw [if_neg hp, ih hm]

/-- The last write to a number counts. -/
@[simp] theorem sset_sset [DecidableEq α] (d : α) (m : Store α) (k : Nat) (v w : α) : sset d (sset d m k v) k w = sset d m k w := by
  have h : sdel k (sset d m k v) = sdel k m := by
    have a : ∀ p ∈ sdel k m, p.1 ≠ k := fun p hp => (mem_sdel hp).1
    unfold sset
    split
    · exact sdel_of_all a
    · exact sdel_sins _ _ _ a
  show (if w = d then _ else _) = _
  rw [h]
  rfl

end Sys2Proof.Machine
end

