-- ==== Sys2Proof/Laws/State.lean ====
section
/-! SUPPORT. What each update of a unit leaves alone, field by field, and what reading a unit gives after it. -/

namespace Sys2Proof.Machine

variable (s : State)

/-! ### setThread -/

@[simp] theorem State.setThread_pending (t : Nat) (x : Thread) : (s.setThread t x).pending = s.pending := rfl
@[simp] theorem State.setThread_variant (t : Nat) (x : Thread) : (s.setThread t x).variant = s.variant := rfl
@[simp] theorem State.setThread_cores (t : Nat) (x : Thread) : (s.setThread t x).cores = s.cores := rfl
@[simp] theorem State.setThread_isles (t : Nat) (x : Thread) : (s.setThread t x).isles = s.isles := rfl
@[simp] theorem State.setThread_straits (t : Nat) (x : Thread) : (s.setThread t x).straits = s.straits := rfl
@[simp] theorem State.setThread_home (t : Nat) (x : Thread) : (s.setThread t x).home = s.home := rfl
@[simp] theorem State.setThread_net (t : Nat) (x : Thread) : (s.setThread t x).net = s.net := rfl
@[simp] theorem State.setThread_replies (t : Nat) (x : Thread) : (s.setThread t x).replies = s.replies := rfl
@[simp] theorem State.setThread_mem (t : Nat) (x : Thread) : (s.setThread t x).mem = s.mem := rfl
@[simp] theorem State.setThread_chans (t : Nat) (x : Thread) : (s.setThread t x).chans = s.chans := rfl
@[simp] theorem State.setThread_memSets (t : Nat) (x : Thread) : (s.setThread t x).memSets = s.memSets := rfl
@[simp] theorem State.setThread_memTop (t : Nat) (x : Thread) : (s.setThread t x).memTop = s.memTop := rfl
@[simp] theorem State.setThread_ports (t : Nat) (x : Thread) : (s.setThread t x).ports = s.ports := rfl
@[simp] theorem State.setThread_sites (t : Nat) (x : Thread) : (s.setThread t x).sites = s.sites := rfl
@[simp] theorem State.setThread_harbour (t : Nat) (x : Thread) : (s.setThread t x).harbour = s.harbour := rfl
@[simp] theorem State.setThread_lh (t : Nat) (x : Thread) : (s.setThread t x).lh = s.lh := rfl
@[simp] theorem State.setThread_pwr (t : Nat) (x : Thread) : (s.setThread t x).pwr = s.pwr := rfl
@[simp] theorem State.setThread_ledger (t : Nat) (x : Thread) : (s.setThread t x).ledger = s.ledger := rfl
@[simp] theorem State.setThread_worlds (t : Nat) (x : Thread) : (s.setThread t x).worlds = s.worlds := rfl
@[simp] theorem State.setThread_umf (t : Nat) (x : Thread) : (s.setThread t x).umf = s.umf := rfl
@[simp] theorem State.setThread_evr (t : Nat) (x : Thread) : (s.setThread t x).evr = s.evr := rfl
@[simp] theorem State.setThread_snd (t : Nat) (x : Thread) : (s.setThread t x).snd = s.snd := rfl
@[simp] theorem State.setThread_keys (t : Nat) (x : Thread) : (s.setThread t x).keys = s.keys := rfl
@[simp] theorem State.setThread_board (t : Nat) (x : Thread) : (s.setThread t x).board = s.board := rfl
@[simp] theorem State.setThread_free (t : Nat) (x : Thread) : (s.setThread t x).free = s.free := rfl

/-! ### setCore -/

@[simp] theorem State.setCore_pending (c : Nat) (x : Core) : (s.setCore c x).pending = s.pending := rfl
@[simp] theorem State.setCore_variant (c : Nat) (x : Core) : (s.setCore c x).variant = s.variant := rfl
@[simp] theorem State.setCore_threads (c : Nat) (x : Core) : (s.setCore c x).threads = s.threads := rfl
@[simp] theorem State.setCore_isles (c : Nat) (x : Core) : (s.setCore c x).isles = s.isles := rfl
@[simp] theorem State.setCore_straits (c : Nat) (x : Core) : (s.setCore c x).straits = s.straits := rfl
@[simp] theorem State.setCore_home (c : Nat) (x : Core) : (s.setCore c x).home = s.home := rfl
@[simp] theorem State.setCore_net (c : Nat) (x : Core) : (s.setCore c x).net = s.net := rfl
@[simp] theorem State.setCore_replies (c : Nat) (x : Core) : (s.setCore c x).replies = s.replies := rfl
@[simp] theorem State.setCore_mem (c : Nat) (x : Core) : (s.setCore c x).mem = s.mem := rfl
@[simp] theorem State.setCore_chans (c : Nat) (x : Core) : (s.setCore c x).chans = s.chans := rfl
@[simp] theorem State.setCore_memSets (c : Nat) (x : Core) : (s.setCore c x).memSets = s.memSets := rfl
@[simp] theorem State.setCore_memTop (c : Nat) (x : Core) : (s.setCore c x).memTop = s.memTop := rfl
@[simp] theorem State.setCore_ports (c : Nat) (x : Core) : (s.setCore c x).ports = s.ports := rfl
@[simp] theorem State.setCore_sites (c : Nat) (x : Core) : (s.setCore c x).sites = s.sites := rfl
@[simp] theorem State.setCore_harbour (c : Nat) (x : Core) : (s.setCore c x).harbour = s.harbour := rfl
@[simp] theorem State.setCore_lh (c : Nat) (x : Core) : (s.setCore c x).lh = s.lh := rfl
@[simp] theorem State.setCore_pwr (c : Nat) (x : Core) : (s.setCore c x).pwr = s.pwr := rfl
@[simp] theorem State.setCore_ledger (c : Nat) (x : Core) : (s.setCore c x).ledger = s.ledger := rfl
@[simp] theorem State.setCore_worlds (c : Nat) (x : Core) : (s.setCore c x).worlds = s.worlds := rfl
@[simp] theorem State.setCore_umf (c : Nat) (x : Core) : (s.setCore c x).umf = s.umf := rfl
@[simp] theorem State.setCore_evr (c : Nat) (x : Core) : (s.setCore c x).evr = s.evr := rfl
@[simp] theorem State.setCore_snd (c : Nat) (x : Core) : (s.setCore c x).snd = s.snd := rfl
@[simp] theorem State.setCore_keys (c : Nat) (x : Core) : (s.setCore c x).keys = s.keys := rfl
@[simp] theorem State.setCore_board (c : Nat) (x : Core) : (s.setCore c x).board = s.board := rfl
@[simp] theorem State.setCore_free (c : Nat) (x : Core) : (s.setCore c x).free = s.free := rfl

/-! ### setIsle -/

@[simp] theorem State.setIsle_pending (n : Nat) (x : Isle) : (s.setIsle n x).pending = s.pending := rfl
@[simp] theorem State.setIsle_variant (n : Nat) (x : Isle) : (s.setIsle n x).variant = s.variant := rfl
@[simp] theorem State.setIsle_threads (n : Nat) (x : Isle) : (s.setIsle n x).threads = s.threads := rfl
@[simp] theorem State.setIsle_cores (n : Nat) (x : Isle) : (s.setIsle n x).cores = s.cores := rfl
@[simp] theorem State.setIsle_straits (n : Nat) (x : Isle) : (s.setIsle n x).straits = s.straits := rfl
@[simp] theorem State.setIsle_home (n : Nat) (x : Isle) : (s.setIsle n x).home = s.home := rfl
@[simp] theorem State.setIsle_net (n : Nat) (x : Isle) : (s.setIsle n x).net = s.net := rfl
@[simp] theorem State.setIsle_replies (n : Nat) (x : Isle) : (s.setIsle n x).replies = s.replies := rfl
@[simp] theorem State.setIsle_mem (n : Nat) (x : Isle) : (s.setIsle n x).mem = s.mem := rfl
@[simp] theorem State.setIsle_chans (n : Nat) (x : Isle) : (s.setIsle n x).chans = s.chans := rfl
@[simp] theorem State.setIsle_memSets (n : Nat) (x : Isle) : (s.setIsle n x).memSets = s.memSets := rfl
@[simp] theorem State.setIsle_memTop (n : Nat) (x : Isle) : (s.setIsle n x).memTop = s.memTop := rfl
@[simp] theorem State.setIsle_ports (n : Nat) (x : Isle) : (s.setIsle n x).ports = s.ports := rfl
@[simp] theorem State.setIsle_sites (n : Nat) (x : Isle) : (s.setIsle n x).sites = s.sites := rfl
@[simp] theorem State.setIsle_harbour (n : Nat) (x : Isle) : (s.setIsle n x).harbour = s.harbour := rfl
@[simp] theorem State.setIsle_lh (n : Nat) (x : Isle) : (s.setIsle n x).lh = s.lh := rfl
@[simp] theorem State.setIsle_pwr (n : Nat) (x : Isle) : (s.setIsle n x).pwr = s.pwr := rfl
@[simp] theorem State.setIsle_ledger (n : Nat) (x : Isle) : (s.setIsle n x).ledger = s.ledger := rfl
@[simp] theorem State.setIsle_worlds (n : Nat) (x : Isle) : (s.setIsle n x).worlds = s.worlds := rfl
@[simp] theorem State.setIsle_umf (n : Nat) (x : Isle) : (s.setIsle n x).umf = s.umf := rfl
@[simp] theorem State.setIsle_evr (n : Nat) (x : Isle) : (s.setIsle n x).evr = s.evr := rfl
@[simp] theorem State.setIsle_snd (n : Nat) (x : Isle) : (s.setIsle n x).snd = s.snd := rfl
@[simp] theorem State.setIsle_keys (n : Nat) (x : Isle) : (s.setIsle n x).keys = s.keys := rfl
@[simp] theorem State.setIsle_board (n : Nat) (x : Isle) : (s.setIsle n x).board = s.board := rfl
@[simp] theorem State.setIsle_free (n : Nat) (x : Isle) : (s.setIsle n x).free = s.free := rfl

/-! ### setStrait -/

@[simp] theorem State.setStrait_pending (n : Nat) (x : Strait) : (s.setStrait n x).pending = s.pending := rfl
@[simp] theorem State.setStrait_variant (n : Nat) (x : Strait) : (s.setStrait n x).variant = s.variant := rfl
@[simp] theorem State.setStrait_threads (n : Nat) (x : Strait) : (s.setStrait n x).threads = s.threads := rfl
@[simp] theorem State.setStrait_cores (n : Nat) (x : Strait) : (s.setStrait n x).cores = s.cores := rfl
@[simp] theorem State.setStrait_isles (n : Nat) (x : Strait) : (s.setStrait n x).isles = s.isles := rfl
@[simp] theorem State.setStrait_home (n : Nat) (x : Strait) : (s.setStrait n x).home = s.home := rfl
@[simp] theorem State.setStrait_net (n : Nat) (x : Strait) : (s.setStrait n x).net = s.net := rfl
@[simp] theorem State.setStrait_replies (n : Nat) (x : Strait) : (s.setStrait n x).replies = s.replies := rfl
@[simp] theorem State.setStrait_mem (n : Nat) (x : Strait) : (s.setStrait n x).mem = s.mem := rfl
@[simp] theorem State.setStrait_chans (n : Nat) (x : Strait) : (s.setStrait n x).chans = s.chans := rfl
@[simp] theorem State.setStrait_memSets (n : Nat) (x : Strait) : (s.setStrait n x).memSets = s.memSets := rfl
@[simp] theorem State.setStrait_memTop (n : Nat) (x : Strait) : (s.setStrait n x).memTop = s.memTop := rfl
@[simp] theorem State.setStrait_ports (n : Nat) (x : Strait) : (s.setStrait n x).ports = s.ports := rfl
@[simp] theorem State.setStrait_sites (n : Nat) (x : Strait) : (s.setStrait n x).sites = s.sites := rfl
@[simp] theorem State.setStrait_harbour (n : Nat) (x : Strait) : (s.setStrait n x).harbour = s.harbour := rfl
@[simp] theorem State.setStrait_lh (n : Nat) (x : Strait) : (s.setStrait n x).lh = s.lh := rfl
@[simp] theorem State.setStrait_pwr (n : Nat) (x : Strait) : (s.setStrait n x).pwr = s.pwr := rfl
@[simp] theorem State.setStrait_ledger (n : Nat) (x : Strait) : (s.setStrait n x).ledger = s.ledger := rfl
@[simp] theorem State.setStrait_worlds (n : Nat) (x : Strait) : (s.setStrait n x).worlds = s.worlds := rfl
@[simp] theorem State.setStrait_umf (n : Nat) (x : Strait) : (s.setStrait n x).umf = s.umf := rfl
@[simp] theorem State.setStrait_evr (n : Nat) (x : Strait) : (s.setStrait n x).evr = s.evr := rfl
@[simp] theorem State.setStrait_snd (n : Nat) (x : Strait) : (s.setStrait n x).snd = s.snd := rfl
@[simp] theorem State.setStrait_keys (n : Nat) (x : Strait) : (s.setStrait n x).keys = s.keys := rfl
@[simp] theorem State.setStrait_board (n : Nat) (x : Strait) : (s.setStrait n x).board = s.board := rfl
@[simp] theorem State.setStrait_free (n : Nat) (x : Strait) : (s.setStrait n x).free = s.free := rfl

/-! ### setChan -/

@[simp] theorem State.setChan_pending (c : Nat) (x : Chan) : (s.setChan c x).pending = s.pending := rfl
@[simp] theorem State.setChan_variant (c : Nat) (x : Chan) : (s.setChan c x).variant = s.variant := rfl
@[simp] theorem State.setChan_threads (c : Nat) (x : Chan) : (s.setChan c x).threads = s.threads := rfl
@[simp] theorem State.setChan_cores (c : Nat) (x : Chan) : (s.setChan c x).cores = s.cores := rfl
@[simp] theorem State.setChan_isles (c : Nat) (x : Chan) : (s.setChan c x).isles = s.isles := rfl
@[simp] theorem State.setChan_straits (c : Nat) (x : Chan) : (s.setChan c x).straits = s.straits := rfl
@[simp] theorem State.setChan_home (c : Nat) (x : Chan) : (s.setChan c x).home = s.home := rfl
@[simp] theorem State.setChan_net (c : Nat) (x : Chan) : (s.setChan c x).net = s.net := rfl
@[simp] theorem State.setChan_replies (c : Nat) (x : Chan) : (s.setChan c x).replies = s.replies := rfl
@[simp] theorem State.setChan_mem (c : Nat) (x : Chan) : (s.setChan c x).mem = s.mem := rfl
@[simp] theorem State.setChan_memSets (c : Nat) (x : Chan) : (s.setChan c x).memSets = s.memSets := rfl
@[simp] theorem State.setChan_memTop (c : Nat) (x : Chan) : (s.setChan c x).memTop = s.memTop := rfl
@[simp] theorem State.setChan_ports (c : Nat) (x : Chan) : (s.setChan c x).ports = s.ports := rfl
@[simp] theorem State.setChan_sites (c : Nat) (x : Chan) : (s.setChan c x).sites = s.sites := rfl
@[simp] theorem State.setChan_harbour (c : Nat) (x : Chan) : (s.setChan c x).harbour = s.harbour := rfl
@[simp] theorem State.setChan_lh (c : Nat) (x : Chan) : (s.setChan c x).lh = s.lh := rfl
@[simp] theorem State.setChan_pwr (c : Nat) (x : Chan) : (s.setChan c x).pwr = s.pwr := rfl
@[simp] theorem State.setChan_ledger (c : Nat) (x : Chan) : (s.setChan c x).ledger = s.ledger := rfl
@[simp] theorem State.setChan_worlds (c : Nat) (x : Chan) : (s.setChan c x).worlds = s.worlds := rfl
@[simp] theorem State.setChan_umf (c : Nat) (x : Chan) : (s.setChan c x).umf = s.umf := rfl
@[simp] theorem State.setChan_evr (c : Nat) (x : Chan) : (s.setChan c x).evr = s.evr := rfl
@[simp] theorem State.setChan_snd (c : Nat) (x : Chan) : (s.setChan c x).snd = s.snd := rfl
@[simp] theorem State.setChan_keys (c : Nat) (x : Chan) : (s.setChan c x).keys = s.keys := rfl
@[simp] theorem State.setChan_board (c : Nat) (x : Chan) : (s.setChan c x).board = s.board := rfl
@[simp] theorem State.setChan_free (c : Nat) (x : Chan) : (s.setChan c x).free = s.free := rfl

/-! ### setSite -/

@[simp] theorem State.setSite_pending (g : Nat) (x : Site) : (s.setSite g x).pending = s.pending := rfl
@[simp] theorem State.setSite_variant (g : Nat) (x : Site) : (s.setSite g x).variant = s.variant := rfl
@[simp] theorem State.setSite_threads (g : Nat) (x : Site) : (s.setSite g x).threads = s.threads := rfl
@[simp] theorem State.setSite_cores (g : Nat) (x : Site) : (s.setSite g x).cores = s.cores := rfl
@[simp] theorem State.setSite_isles (g : Nat) (x : Site) : (s.setSite g x).isles = s.isles := rfl
@[simp] theorem State.setSite_straits (g : Nat) (x : Site) : (s.setSite g x).straits = s.straits := rfl
@[simp] theorem State.setSite_home (g : Nat) (x : Site) : (s.setSite g x).home = s.home := rfl
@[simp] theorem State.setSite_net (g : Nat) (x : Site) : (s.setSite g x).net = s.net := rfl
@[simp] theorem State.setSite_replies (g : Nat) (x : Site) : (s.setSite g x).replies = s.replies := rfl
@[simp] theorem State.setSite_mem (g : Nat) (x : Site) : (s.setSite g x).mem = s.mem := rfl
@[simp] theorem State.setSite_chans (g : Nat) (x : Site) : (s.setSite g x).chans = s.chans := rfl
@[simp] theorem State.setSite_memSets (g : Nat) (x : Site) : (s.setSite g x).memSets = s.memSets := rfl
@[simp] theorem State.setSite_memTop (g : Nat) (x : Site) : (s.setSite g x).memTop = s.memTop := rfl
@[simp] theorem State.setSite_ports (g : Nat) (x : Site) : (s.setSite g x).ports = s.ports := rfl
@[simp] theorem State.setSite_harbour (g : Nat) (x : Site) : (s.setSite g x).harbour = s.harbour := rfl
@[simp] theorem State.setSite_lh (g : Nat) (x : Site) : (s.setSite g x).lh = s.lh := rfl
@[simp] theorem State.setSite_pwr (g : Nat) (x : Site) : (s.setSite g x).pwr = s.pwr := rfl
@[simp] theorem State.setSite_ledger (g : Nat) (x : Site) : (s.setSite g x).ledger = s.ledger := rfl
@[simp] theorem State.setSite_worlds (g : Nat) (x : Site) : (s.setSite g x).worlds = s.worlds := rfl
@[simp] theorem State.setSite_umf (g : Nat) (x : Site) : (s.setSite g x).umf = s.umf := rfl
@[simp] theorem State.setSite_evr (g : Nat) (x : Site) : (s.setSite g x).evr = s.evr := rfl
@[simp] theorem State.setSite_snd (g : Nat) (x : Site) : (s.setSite g x).snd = s.snd := rfl
@[simp] theorem State.setSite_keys (g : Nat) (x : Site) : (s.setSite g x).keys = s.keys := rfl
@[simp] theorem State.setSite_board (g : Nat) (x : Site) : (s.setSite g x).board = s.board := rfl
@[simp] theorem State.setSite_free (g : Nat) (x : Site) : (s.setSite g x).free = s.free := rfl

/-! ### setPort -/

@[simp] theorem State.setPort_pending (p : Nat) (x : Port) : (s.setPort p x).pending = s.pending := rfl
@[simp] theorem State.setPort_variant (p : Nat) (x : Port) : (s.setPort p x).variant = s.variant := rfl
@[simp] theorem State.setPort_threads (p : Nat) (x : Port) : (s.setPort p x).threads = s.threads := rfl
@[simp] theorem State.setPort_cores (p : Nat) (x : Port) : (s.setPort p x).cores = s.cores := rfl
@[simp] theorem State.setPort_isles (p : Nat) (x : Port) : (s.setPort p x).isles = s.isles := rfl
@[simp] theorem State.setPort_straits (p : Nat) (x : Port) : (s.setPort p x).straits = s.straits := rfl
@[simp] theorem State.setPort_home (p : Nat) (x : Port) : (s.setPort p x).home = s.home := rfl
@[simp] theorem State.setPort_net (p : Nat) (x : Port) : (s.setPort p x).net = s.net := rfl
@[simp] theorem State.setPort_replies (p : Nat) (x : Port) : (s.setPort p x).replies = s.replies := rfl
@[simp] theorem State.setPort_mem (p : Nat) (x : Port) : (s.setPort p x).mem = s.mem := rfl
@[simp] theorem State.setPort_chans (p : Nat) (x : Port) : (s.setPort p x).chans = s.chans := rfl
@[simp] theorem State.setPort_memSets (p : Nat) (x : Port) : (s.setPort p x).memSets = s.memSets := rfl
@[simp] theorem State.setPort_memTop (p : Nat) (x : Port) : (s.setPort p x).memTop = s.memTop := rfl
@[simp] theorem State.setPort_sites (p : Nat) (x : Port) : (s.setPort p x).sites = s.sites := rfl
@[simp] theorem State.setPort_harbour (p : Nat) (x : Port) : (s.setPort p x).harbour = s.harbour := rfl
@[simp] theorem State.setPort_lh (p : Nat) (x : Port) : (s.setPort p x).lh = s.lh := rfl
@[simp] theorem State.setPort_pwr (p : Nat) (x : Port) : (s.setPort p x).pwr = s.pwr := rfl
@[simp] theorem State.setPort_ledger (p : Nat) (x : Port) : (s.setPort p x).ledger = s.ledger := rfl
@[simp] theorem State.setPort_worlds (p : Nat) (x : Port) : (s.setPort p x).worlds = s.worlds := rfl
@[simp] theorem State.setPort_umf (p : Nat) (x : Port) : (s.setPort p x).umf = s.umf := rfl
@[simp] theorem State.setPort_evr (p : Nat) (x : Port) : (s.setPort p x).evr = s.evr := rfl
@[simp] theorem State.setPort_snd (p : Nat) (x : Port) : (s.setPort p x).snd = s.snd := rfl
@[simp] theorem State.setPort_keys (p : Nat) (x : Port) : (s.setPort p x).keys = s.keys := rfl
@[simp] theorem State.setPort_board (p : Nat) (x : Port) : (s.setPort p x).board = s.board := rfl
@[simp] theorem State.setPort_free (p : Nat) (x : Port) : (s.setPort p x).free = s.free := rfl

/-! ### setBlock -/

@[simp] theorem State.setBlock_pending (b : Nat) (x : Block) : (s.setBlock b x).pending = s.pending := rfl
@[simp] theorem State.setBlock_variant (b : Nat) (x : Block) : (s.setBlock b x).variant = s.variant := rfl
@[simp] theorem State.setBlock_threads (b : Nat) (x : Block) : (s.setBlock b x).threads = s.threads := rfl
@[simp] theorem State.setBlock_cores (b : Nat) (x : Block) : (s.setBlock b x).cores = s.cores := rfl
@[simp] theorem State.setBlock_isles (b : Nat) (x : Block) : (s.setBlock b x).isles = s.isles := rfl
@[simp] theorem State.setBlock_straits (b : Nat) (x : Block) : (s.setBlock b x).straits = s.straits := rfl
@[simp] theorem State.setBlock_home (b : Nat) (x : Block) : (s.setBlock b x).home = s.home := rfl
@[simp] theorem State.setBlock_net (b : Nat) (x : Block) : (s.setBlock b x).net = s.net := rfl
@[simp] theorem State.setBlock_replies (b : Nat) (x : Block) : (s.setBlock b x).replies = s.replies := rfl
@[simp] theorem State.setBlock_mem (b : Nat) (x : Block) : (s.setBlock b x).mem = s.mem := rfl
@[simp] theorem State.setBlock_chans (b : Nat) (x : Block) : (s.setBlock b x).chans = s.chans := rfl
@[simp] theorem State.setBlock_memSets (b : Nat) (x : Block) : (s.setBlock b x).memSets = s.memSets := rfl
@[simp] theorem State.setBlock_memTop (b : Nat) (x : Block) : (s.setBlock b x).memTop = s.memTop := rfl
@[simp] theorem State.setBlock_sites (b : Nat) (x : Block) : (s.setBlock b x).sites = s.sites := rfl
@[simp] theorem State.setBlock_harbour (b : Nat) (x : Block) : (s.setBlock b x).harbour = s.harbour := rfl
@[simp] theorem State.setBlock_lh (b : Nat) (x : Block) : (s.setBlock b x).lh = s.lh := rfl
@[simp] theorem State.setBlock_pwr (b : Nat) (x : Block) : (s.setBlock b x).pwr = s.pwr := rfl
@[simp] theorem State.setBlock_ledger (b : Nat) (x : Block) : (s.setBlock b x).ledger = s.ledger := rfl
@[simp] theorem State.setBlock_worlds (b : Nat) (x : Block) : (s.setBlock b x).worlds = s.worlds := rfl
@[simp] theorem State.setBlock_umf (b : Nat) (x : Block) : (s.setBlock b x).umf = s.umf := rfl
@[simp] theorem State.setBlock_evr (b : Nat) (x : Block) : (s.setBlock b x).evr = s.evr := rfl
@[simp] theorem State.setBlock_snd (b : Nat) (x : Block) : (s.setBlock b x).snd = s.snd := rfl
@[simp] theorem State.setBlock_keys (b : Nat) (x : Block) : (s.setBlock b x).keys = s.keys := rfl
@[simp] theorem State.setBlock_board (b : Nat) (x : Block) : (s.setBlock b x).board = s.board := rfl
@[simp] theorem State.setBlock_free (b : Nat) (x : Block) : (s.setBlock b x).free = s.free := rfl

/-! ### setEngine -/

@[simp] theorem State.setEngine_pending (e : Nat) (x : Engine) : (s.setEngine e x).pending = s.pending := rfl
@[simp] theorem State.setEngine_variant (e : Nat) (x : Engine) : (s.setEngine e x).variant = s.variant := rfl
@[simp] theorem State.setEngine_threads (e : Nat) (x : Engine) : (s.setEngine e x).threads = s.threads := rfl
@[simp] theorem State.setEngine_cores (e : Nat) (x : Engine) : (s.setEngine e x).cores = s.cores := rfl
@[simp] theorem State.setEngine_isles (e : Nat) (x : Engine) : (s.setEngine e x).isles = s.isles := rfl
@[simp] theorem State.setEngine_straits (e : Nat) (x : Engine) : (s.setEngine e x).straits = s.straits := rfl
@[simp] theorem State.setEngine_home (e : Nat) (x : Engine) : (s.setEngine e x).home = s.home := rfl
@[simp] theorem State.setEngine_net (e : Nat) (x : Engine) : (s.setEngine e x).net = s.net := rfl
@[simp] theorem State.setEngine_replies (e : Nat) (x : Engine) : (s.setEngine e x).replies = s.replies := rfl
@[simp] theorem State.setEngine_mem (e : Nat) (x : Engine) : (s.setEngine e x).mem = s.mem := rfl
@[simp] theorem State.setEngine_chans (e : Nat) (x : Engine) : (s.setEngine e x).chans = s.chans := rfl
@[simp] theorem State.setEngine_memSets (e : Nat) (x : Engine) : (s.setEngine e x).memSets = s.memSets := rfl
@[simp] theorem State.setEngine_memTop (e : Nat) (x : Engine) : (s.setEngine e x).memTop = s.memTop := rfl
@[simp] theorem State.setEngine_ports (e : Nat) (x : Engine) : (s.setEngine e x).ports = s.ports := rfl
@[simp] theorem State.setEngine_sites (e : Nat) (x : Engine) : (s.setEngine e x).sites = s.sites := rfl
@[simp] theorem State.setEngine_lh (e : Nat) (x : Engine) : (s.setEngine e x).lh = s.lh := rfl
@[simp] theorem State.setEngine_pwr (e : Nat) (x : Engine) : (s.setEngine e x).pwr = s.pwr := rfl
@[simp] theorem State.setEngine_ledger (e : Nat) (x : Engine) : (s.setEngine e x).ledger = s.ledger := rfl
@[simp] theorem State.setEngine_worlds (e : Nat) (x : Engine) : (s.setEngine e x).worlds = s.worlds := rfl
@[simp] theorem State.setEngine_umf (e : Nat) (x : Engine) : (s.setEngine e x).umf = s.umf := rfl
@[simp] theorem State.setEngine_evr (e : Nat) (x : Engine) : (s.setEngine e x).evr = s.evr := rfl
@[simp] theorem State.setEngine_snd (e : Nat) (x : Engine) : (s.setEngine e x).snd = s.snd := rfl
@[simp] theorem State.setEngine_keys (e : Nat) (x : Engine) : (s.setEngine e x).keys = s.keys := rfl
@[simp] theorem State.setEngine_board (e : Nat) (x : Engine) : (s.setEngine e x).board = s.board := rfl
@[simp] theorem State.setEngine_free (e : Nat) (x : Engine) : (s.setEngine e x).free = s.free := rfl

/-! ### setRing -/

@[simp] theorem State.setRing_pending (r : Nat) (x : RingR) : (s.setRing r x).pending = s.pending := rfl
@[simp] theorem State.setRing_variant (r : Nat) (x : RingR) : (s.setRing r x).variant = s.variant := rfl
@[simp] theorem State.setRing_threads (r : Nat) (x : RingR) : (s.setRing r x).threads = s.threads := rfl
@[simp] theorem State.setRing_cores (r : Nat) (x : RingR) : (s.setRing r x).cores = s.cores := rfl
@[simp] theorem State.setRing_isles (r : Nat) (x : RingR) : (s.setRing r x).isles = s.isles := rfl
@[simp] theorem State.setRing_straits (r : Nat) (x : RingR) : (s.setRing r x).straits = s.straits := rfl
@[simp] theorem State.setRing_home (r : Nat) (x : RingR) : (s.setRing r x).home = s.home := rfl
@[simp] theorem State.setRing_net (r : Nat) (x : RingR) : (s.setRing r x).net = s.net := rfl
@[simp] theorem State.setRing_replies (r : Nat) (x : RingR) : (s.setRing r x).replies = s.replies := rfl
@[simp] theorem State.setRing_mem (r : Nat) (x : RingR) : (s.setRing r x).mem = s.mem := rfl
@[simp] theorem State.setRing_chans (r : Nat) (x : RingR) : (s.setRing r x).chans = s.chans := rfl
@[simp] theorem State.setRing_memSets (r : Nat) (x : RingR) : (s.setRing r x).memSets = s.memSets := rfl
@[simp] theorem State.setRing_memTop (r : Nat) (x : RingR) : (s.setRing r x).memTop = s.memTop := rfl
@[simp] theorem State.setRing_ports (r : Nat) (x : RingR) : (s.setRing r x).ports = s.ports := rfl
@[simp] theorem State.setRing_sites (r : Nat) (x : RingR) : (s.setRing r x).sites = s.sites := rfl
@[simp] theorem State.setRing_lh (r : Nat) (x : RingR) : (s.setRing r x).lh = s.lh := rfl
@[simp] theorem State.setRing_pwr (r : Nat) (x : RingR) : (s.setRing r x).pwr = s.pwr := rfl
@[simp] theorem State.setRing_ledger (r : Nat) (x : RingR) : (s.setRing r x).ledger = s.ledger := rfl
@[simp] theorem State.setRing_worlds (r : Nat) (x : RingR) : (s.setRing r x).worlds = s.worlds := rfl
@[simp] theorem State.setRing_umf (r : Nat) (x : RingR) : (s.setRing r x).umf = s.umf := rfl
@[simp] theorem State.setRing_evr (r : Nat) (x : RingR) : (s.setRing r x).evr = s.evr := rfl
@[simp] theorem State.setRing_snd (r : Nat) (x : RingR) : (s.setRing r x).snd = s.snd := rfl
@[simp] theorem State.setRing_keys (r : Nat) (x : RingR) : (s.setRing r x).keys = s.keys := rfl
@[simp] theorem State.setRing_board (r : Nat) (x : RingR) : (s.setRing r x).board = s.board := rfl
@[simp] theorem State.setRing_free (r : Nat) (x : RingR) : (s.setRing r x).free = s.free := rfl

/-! ### setBox -/

@[simp] theorem State.setBox_pending (m : Nat) (x : Mailbox) : (s.setBox m x).pending = s.pending := rfl
@[simp] theorem State.setBox_variant (m : Nat) (x : Mailbox) : (s.setBox m x).variant = s.variant := rfl
@[simp] theorem State.setBox_threads (m : Nat) (x : Mailbox) : (s.setBox m x).threads = s.threads := rfl
@[simp] theorem State.setBox_cores (m : Nat) (x : Mailbox) : (s.setBox m x).cores = s.cores := rfl
@[simp] theorem State.setBox_isles (m : Nat) (x : Mailbox) : (s.setBox m x).isles = s.isles := rfl
@[simp] theorem State.setBox_straits (m : Nat) (x : Mailbox) : (s.setBox m x).straits = s.straits := rfl
@[simp] theorem State.setBox_home (m : Nat) (x : Mailbox) : (s.setBox m x).home = s.home := rfl
@[simp] theorem State.setBox_net (m : Nat) (x : Mailbox) : (s.setBox m x).net = s.net := rfl
@[simp] theorem State.setBox_replies (m : Nat) (x : Mailbox) : (s.setBox m x).replies = s.replies := rfl
@[simp] theorem State.setBox_mem (m : Nat) (x : Mailbox) : (s.setBox m x).mem = s.mem := rfl
@[simp] theorem State.setBox_chans (m : Nat) (x : Mailbox) : (s.setBox m x).chans = s.chans := rfl
@[simp] theorem State.setBox_memSets (m : Nat) (x : Mailbox) : (s.setBox m x).memSets = s.memSets := rfl
@[simp] theorem State.setBox_memTop (m : Nat) (x : Mailbox) : (s.setBox m x).memTop = s.memTop := rfl
@[simp] theorem State.setBox_ports (m : Nat) (x : Mailbox) : (s.setBox m x).ports = s.ports := rfl
@[simp] theorem State.setBox_sites (m : Nat) (x : Mailbox) : (s.setBox m x).sites = s.sites := rfl
@[simp] theorem State.setBox_harbour (m : Nat) (x : Mailbox) : (s.setBox m x).harbour = s.harbour := rfl
@[simp] theorem State.setBox_lh (m : Nat) (x : Mailbox) : (s.setBox m x).lh = s.lh := rfl
@[simp] theorem State.setBox_pwr (m : Nat) (x : Mailbox) : (s.setBox m x).pwr = s.pwr := rfl
@[simp] theorem State.setBox_ledger (m : Nat) (x : Mailbox) : (s.setBox m x).ledger = s.ledger := rfl
@[simp] theorem State.setBox_worlds (m : Nat) (x : Mailbox) : (s.setBox m x).worlds = s.worlds := rfl
@[simp] theorem State.setBox_evr (m : Nat) (x : Mailbox) : (s.setBox m x).evr = s.evr := rfl
@[simp] theorem State.setBox_snd (m : Nat) (x : Mailbox) : (s.setBox m x).snd = s.snd := rfl
@[simp] theorem State.setBox_keys (m : Nat) (x : Mailbox) : (s.setBox m x).keys = s.keys := rfl
@[simp] theorem State.setBox_board (m : Nat) (x : Mailbox) : (s.setBox m x).board = s.board := rfl
@[simp] theorem State.setBox_free (m : Nat) (x : Mailbox) : (s.setBox m x).free = s.free := rfl

/-! ### setSlice -/

@[simp] theorem State.setSlice_pending (k : Nat) (x : Slice) : (s.setSlice k x).pending = s.pending := rfl
@[simp] theorem State.setSlice_variant (k : Nat) (x : Slice) : (s.setSlice k x).variant = s.variant := rfl
@[simp] theorem State.setSlice_threads (k : Nat) (x : Slice) : (s.setSlice k x).threads = s.threads := rfl
@[simp] theorem State.setSlice_cores (k : Nat) (x : Slice) : (s.setSlice k x).cores = s.cores := rfl
@[simp] theorem State.setSlice_isles (k : Nat) (x : Slice) : (s.setSlice k x).isles = s.isles := rfl
@[simp] theorem State.setSlice_straits (k : Nat) (x : Slice) : (s.setSlice k x).straits = s.straits := rfl
@[simp] theorem State.setSlice_net (k : Nat) (x : Slice) : (s.setSlice k x).net = s.net := rfl
@[simp] theorem State.setSlice_replies (k : Nat) (x : Slice) : (s.setSlice k x).replies = s.replies := rfl
@[simp] theorem State.setSlice_mem (k : Nat) (x : Slice) : (s.setSlice k x).mem = s.mem := rfl
@[simp] theorem State.setSlice_chans (k : Nat) (x : Slice) : (s.setSlice k x).chans = s.chans := rfl
@[simp] theorem State.setSlice_memSets (k : Nat) (x : Slice) : (s.setSlice k x).memSets = s.memSets := rfl
@[simp] theorem State.setSlice_memTop (k : Nat) (x : Slice) : (s.setSlice k x).memTop = s.memTop := rfl
@[simp] theorem State.setSlice_ports (k : Nat) (x : Slice) : (s.setSlice k x).ports = s.ports := rfl
@[simp] theorem State.setSlice_sites (k : Nat) (x : Slice) : (s.setSlice k x).sites = s.sites := rfl
@[simp] theorem State.setSlice_harbour (k : Nat) (x : Slice) : (s.setSlice k x).harbour = s.harbour := rfl
@[simp] theorem State.setSlice_lh (k : Nat) (x : Slice) : (s.setSlice k x).lh = s.lh := rfl
@[simp] theorem State.setSlice_pwr (k : Nat) (x : Slice) : (s.setSlice k x).pwr = s.pwr := rfl
@[simp] theorem State.setSlice_ledger (k : Nat) (x : Slice) : (s.setSlice k x).ledger = s.ledger := rfl
@[simp] theorem State.setSlice_worlds (k : Nat) (x : Slice) : (s.setSlice k x).worlds = s.worlds := rfl
@[simp] theorem State.setSlice_umf (k : Nat) (x : Slice) : (s.setSlice k x).umf = s.umf := rfl
@[simp] theorem State.setSlice_evr (k : Nat) (x : Slice) : (s.setSlice k x).evr = s.evr := rfl
@[simp] theorem State.setSlice_snd (k : Nat) (x : Slice) : (s.setSlice k x).snd = s.snd := rfl
@[simp] theorem State.setSlice_keys (k : Nat) (x : Slice) : (s.setSlice k x).keys = s.keys := rfl
@[simp] theorem State.setSlice_board (k : Nat) (x : Slice) : (s.setSlice k x).board = s.board := rfl
@[simp] theorem State.setSlice_free (k : Nat) (x : Slice) : (s.setSlice k x).free = s.free := rfl

/-! ### Reading a unit after an update -/

@[simp] theorem State.thread_setThread (t : Nat) (x : Thread) : (s.setThread t x).thread t = x := sget_sset_same ..
theorem State.thread_setThread_ne {t j : Nat} (x : Thread) (h : j ≠ t) : (s.setThread t x).thread j = s.thread j := sget_sset_ne _ _ _ h
@[simp] theorem State.modThread_eq (t : Nat) (f : Thread → Thread) : s.modThread t f = s.setThread t (f (s.thread t)) := rfl
@[simp] theorem State.core_setCore (c : Nat) (x : Core) : (s.setCore c x).core c = x := sget_sset_same ..
theorem State.core_setCore_ne {c j : Nat} (x : Core) (h : j ≠ c) : (s.setCore c x).core j = s.core j := sget_sset_ne _ _ _ h
@[simp] theorem State.modCore_eq (c : Nat) (f : Core → Core) : s.modCore c f = s.setCore c (f (s.core c)) := rfl
@[simp] theorem State.isle_setIsle (n : Nat) (x : Isle) : (s.setIsle n x).isle n = x := sget_sset_same ..
theorem State.isle_setIsle_ne {n j : Nat} (x : Isle) (h : j ≠ n) : (s.setIsle n x).isle j = s.isle j := sget_sset_ne _ _ _ h
@[simp] theorem State.modIsle_eq (n : Nat) (f : Isle → Isle) : s.modIsle n f = s.setIsle n (f (s.isle n)) := rfl
@[simp] theorem State.strait_setStrait (n : Nat) (x : Strait) : (s.setStrait n x).strait n = x := sget_sset_same ..
theorem State.strait_setStrait_ne {n j : Nat} (x : Strait) (h : j ≠ n) : (s.setStrait n x).strait j = s.strait j := sget_sset_ne _ _ _ h
@[simp] theorem State.modStrait_eq (n : Nat) (f : Strait → Strait) : s.modStrait n f = s.setStrait n (f (s.strait n)) := rfl
@[simp] theorem State.chan_setChan (c : Nat) (x : Chan) : (s.setChan c x).chan c = x := sget_sset_same ..
theorem State.chan_setChan_ne {c j : Nat} (x : Chan) (h : j ≠ c) : (s.setChan c x).chan j = s.chan j := sget_sset_ne _ _ _ h
@[simp] theorem State.modChan_eq (c : Nat) (f : Chan → Chan) : s.modChan c f = s.setChan c (f (s.chan c)) := rfl
@[simp] theorem State.site_setSite (g : Nat) (x : Site) : (s.setSite g x).site g = x := sget_sset_same ..
theorem State.site_setSite_ne {g j : Nat} (x : Site) (h : j ≠ g) : (s.setSite g x).site j = s.site j := sget_sset_ne _ _ _ h
@[simp] theorem State.modSite_eq (g : Nat) (f : Site → Site) : s.modSite g f = s.setSite g (f (s.site g)) := rfl
@[simp] theorem State.port_setPort (p : Nat) (x : Port) : (s.setPort p x).port p = x := sget_sset_same ..
theorem State.port_setPort_ne {p j : Nat} (x : Port) (h : j ≠ p) : (s.setPort p x).port j = s.port j := sget_sset_ne _ _ _ h
@[simp] theorem State.modPort_eq (p : Nat) (f : Port → Port) : s.modPort p f = s.setPort p (f (s.port p)) := rfl
@[simp] theorem State.block_setBlock (b : Nat) (x : Block) : (s.setBlock b x).block b = x := sget_sset_same ..
theorem State.block_setBlock_ne {b j : Nat} (x : Block) (h : j ≠ b) : (s.setBlock b x).block j = s.block j := sget_sset_ne _ _ _ h
@[simp] theorem State.modBlock_eq (b : Nat) (f : Block → Block) : s.modBlock b f = s.setBlock b (f (s.block b)) := rfl
@[simp] theorem State.engine_setEngine (e : Nat) (x : Engine) : (s.setEngine e x).engine e = x := sget_sset_same ..
theorem State.engine_setEngine_ne {e j : Nat} (x : Engine) (h : j ≠ e) : (s.setEngine e x).engine j = s.engine j := sget_sset_ne _ _ _ h
@[simp] theorem State.modEngine_eq (e : Nat) (f : Engine → Engine) : s.modEngine e f = s.setEngine e (f (s.engine e)) := rfl
@[simp] theorem State.ring_setRing (r : Nat) (x : RingR) : (s.setRing r x).ring r = x := sget_sset_same ..
theorem State.ring_setRing_ne {r j : Nat} (x : RingR) (h : j ≠ r) : (s.setRing r x).ring j = s.ring j := sget_sset_ne _ _ _ h
@[simp] theorem State.modRing_eq (r : Nat) (f : RingR → RingR) : s.modRing r f = s.setRing r (f (s.ring r)) := rfl
@[simp] theorem State.box_setBox (m : Nat) (x : Mailbox) : (s.setBox m x).box m = x := sget_sset_same ..
theorem State.box_setBox_ne {m j : Nat} (x : Mailbox) (h : j ≠ m) : (s.setBox m x).box j = s.box j := sget_sset_ne _ _ _ h
@[simp] theorem State.modBox_eq (m : Nat) (f : Mailbox → Mailbox) : s.modBox m f = s.setBox m (f (s.box m)) := rfl
@[simp] theorem State.slice_setSlice (k : Nat) (x : Slice) : (s.setSlice k x).slice k = x := sget_sset_same ..
theorem State.slice_setSlice_ne {k j : Nat} (x : Slice) (h : j ≠ k) : (s.setSlice k x).slice j = s.slice j := sget_sset_ne _ _ _ h
@[simp] theorem State.modSlice_eq (k : Nat) (f : Slice → Slice) : s.modSlice k f = s.setSlice k (f (s.slice k)) := rfl

/-! ### Reading a unit after an update of another kind -/

@[simp] theorem State.core_setThread (t : Nat) (x : Thread) (j : Nat) : (s.setThread t x).core j = s.core j := rfl
@[simp] theorem State.isle_setThread (t : Nat) (x : Thread) (j : Nat) : (s.setThread t x).isle j = s.isle j := rfl
@[simp] theorem State.strait_setThread (t : Nat) (x : Thread) (j : Nat) : (s.setThread t x).strait j = s.strait j := rfl
@[simp] theorem State.chan_setThread (t : Nat) (x : Thread) (j : Nat) : (s.setThread t x).chan j = s.chan j := rfl
@[simp] theorem State.site_setThread (t : Nat) (x : Thread) (j : Nat) : (s.setThread t x).site j = s.site j := rfl
@[simp] theorem State.port_setThread (t : Nat) (x : Thread) (j : Nat) : (s.setThread t x).port j = s.port j := rfl
@[simp] theorem State.block_setThread (t : Nat) (x : Thread) (j : Nat) : (s.setThread t x).block j = s.block j := rfl
@[simp] theorem State.engine_setThread (t : Nat) (x : Thread) (j : Nat) : (s.setThread t x).engine j = s.engine j := rfl
@[simp] theorem State.ring_setThread (t : Nat) (x : Thread) (j : Nat) : (s.setThread t x).ring j = s.ring j := rfl
@[simp] theorem State.box_setThread (t : Nat) (x : Thread) (j : Nat) : (s.setThread t x).box j = s.box j := rfl
@[simp] theorem State.slice_setThread (t : Nat) (x : Thread) (j : Nat) : (s.setThread t x).slice j = s.slice j := rfl
@[simp] theorem State.thread_setCore (c : Nat) (x : Core) (j : Nat) : (s.setCore c x).thread j = s.thread j := rfl
@[simp] theorem State.isle_setCore (c : Nat) (x : Core) (j : Nat) : (s.setCore c x).isle j = s.isle j := rfl
@[simp] theorem State.strait_setCore (c : Nat) (x : Core) (j : Nat) : (s.setCore c x).strait j = s.strait j := rfl
@[simp] theorem State.chan_setCore (c : Nat) (x : Core) (j : Nat) : (s.setCore c x).chan j = s.chan j := rfl
@[simp] theorem State.site_setCore (c : Nat) (x : Core) (j : Nat) : (s.setCore c x).site j = s.site j := rfl
@[simp] theorem State.port_setCore (c : Nat) (x : Core) (j : Nat) : (s.setCore c x).port j = s.port j := rfl
@[simp] theorem State.block_setCore (c : Nat) (x : Core) (j : Nat) : (s.setCore c x).block j = s.block j := rfl
@[simp] theorem State.engine_setCore (c : Nat) (x : Core) (j : Nat) : (s.setCore c x).engine j = s.engine j := rfl
@[simp] theorem State.ring_setCore (c : Nat) (x : Core) (j : Nat) : (s.setCore c x).ring j = s.ring j := rfl
@[simp] theorem State.box_setCore (c : Nat) (x : Core) (j : Nat) : (s.setCore c x).box j = s.box j := rfl
@[simp] theorem State.slice_setCore (c : Nat) (x : Core) (j : Nat) : (s.setCore c x).slice j = s.slice j := rfl
@[simp] theorem State.thread_setIsle (n : Nat) (x : Isle) (j : Nat) : (s.setIsle n x).thread j = s.thread j := rfl
@[simp] theorem State.core_setIsle (n : Nat) (x : Isle) (j : Nat) : (s.setIsle n x).core j = s.core j := rfl
@[simp] theorem State.strait_setIsle (n : Nat) (x : Isle) (j : Nat) : (s.setIsle n x).strait j = s.strait j := rfl
@[simp] theorem State.chan_setIsle (n : Nat) (x : Isle) (j : Nat) : (s.setIsle n x).chan j = s.chan j := rfl
@[simp] theorem State.site_setIsle (n : Nat) (x : Isle) (j : Nat) : (s.setIsle n x).site j = s.site j := rfl
@[simp] theorem State.port_setIsle (n : Nat) (x : Isle) (j : Nat) : (s.setIsle n x).port j = s.port j := rfl
@[simp] theorem State.block_setIsle (n : Nat) (x : Isle) (j : Nat) : (s.setIsle n x).block j = s.block j := rfl
@[simp] theorem State.engine_setIsle (n : Nat) (x : Isle) (j : Nat) : (s.setIsle n x).engine j = s.engine j := rfl
@[simp] theorem State.ring_setIsle (n : Nat) (x : Isle) (j : Nat) : (s.setIsle n x).ring j = s.ring j := rfl
@[simp] theorem State.box_setIsle (n : Nat) (x : Isle) (j : Nat) : (s.setIsle n x).box j = s.box j := rfl
@[simp] theorem State.slice_setIsle (n : Nat) (x : Isle) (j : Nat) : (s.setIsle n x).slice j = s.slice j := rfl
@[simp] theorem State.thread_setStrait (n : Nat) (x : Strait) (j : Nat) : (s.setStrait n x).thread j = s.thread j := rfl
@[simp] theorem State.core_setStrait (n : Nat) (x : Strait) (j : Nat) : (s.setStrait n x).core j = s.core j := rfl
@[simp] theorem State.isle_setStrait (n : Nat) (x : Strait) (j : Nat) : (s.setStrait n x).isle j = s.isle j := rfl
@[simp] theorem State.chan_setStrait (n : Nat) (x : Strait) (j : Nat) : (s.setStrait n x).chan j = s.chan j := rfl
@[simp] theorem State.site_setStrait (n : Nat) (x : Strait) (j : Nat) : (s.setStrait n x).site j = s.site j := rfl
@[simp] theorem State.port_setStrait (n : Nat) (x : Strait) (j : Nat) : (s.setStrait n x).port j = s.port j := rfl
@[simp] theorem State.block_setStrait (n : Nat) (x : Strait) (j : Nat) : (s.setStrait n x).block j = s.block j := rfl
@[simp] theorem State.engine_setStrait (n : Nat) (x : Strait) (j : Nat) : (s.setStrait n x).engine j = s.engine j := rfl
@[simp] theorem State.ring_setStrait (n : Nat) (x : Strait) (j : Nat) : (s.setStrait n x).ring j = s.ring j := rfl
@[simp] theorem State.box_setStrait (n : Nat) (x : Strait) (j : Nat) : (s.setStrait n x).box j = s.box j := rfl
@[simp] theorem State.slice_setStrait (n : Nat) (x : Strait) (j : Nat) : (s.setStrait n x).slice j = s.slice j := rfl
@[simp] theorem State.thread_setChan (c : Nat) (x : Chan) (j : Nat) : (s.setChan c x).thread j = s.thread j := rfl
@[simp] theorem State.core_setChan (c : Nat) (x : Chan) (j : Nat) : (s.setChan c x).core j = s.core j := rfl
@[simp] theorem State.isle_setChan (c : Nat) (x : Chan) (j : Nat) : (s.setChan c x).isle j = s.isle j := rfl
@[simp] theorem State.strait_setChan (c : Nat) (x : Chan) (j : Nat) : (s.setChan c x).strait j = s.strait j := rfl
@[simp] theorem State.site_setChan (c : Nat) (x : Chan) (j : Nat) : (s.setChan c x).site j = s.site j := rfl
@[simp] theorem State.port_setChan (c : Nat) (x : Chan) (j : Nat) : (s.setChan c x).port j = s.port j := rfl
@[simp] theorem State.block_setChan (c : Nat) (x : Chan) (j : Nat) : (s.setChan c x).block j = s.block j := rfl
@[simp] theorem State.engine_setChan (c : Nat) (x : Chan) (j : Nat) : (s.setChan c x).engine j = s.engine j := rfl
@[simp] theorem State.ring_setChan (c : Nat) (x : Chan) (j : Nat) : (s.setChan c x).ring j = s.ring j := rfl
@[simp] theorem State.box_setChan (c : Nat) (x : Chan) (j : Nat) : (s.setChan c x).box j = s.box j := rfl
@[simp] theorem State.slice_setChan (c : Nat) (x : Chan) (j : Nat) : (s.setChan c x).slice j = s.slice j := rfl
@[simp] theorem State.thread_setSite (g : Nat) (x : Site) (j : Nat) : (s.setSite g x).thread j = s.thread j := rfl
@[simp] theorem State.core_setSite (g : Nat) (x : Site) (j : Nat) : (s.setSite g x).core j = s.core j := rfl
@[simp] theorem State.isle_setSite (g : Nat) (x : Site) (j : Nat) : (s.setSite g x).isle j = s.isle j := rfl
@[simp] theorem State.strait_setSite (g : Nat) (x : Site) (j : Nat) : (s.setSite g x).strait j = s.strait j := rfl
@[simp] theorem State.chan_setSite (g : Nat) (x : Site) (j : Nat) : (s.setSite g x).chan j = s.chan j := rfl
@[simp] theorem State.port_setSite (g : Nat) (x : Site) (j : Nat) : (s.setSite g x).port j = s.port j := rfl
@[simp] theorem State.block_setSite (g : Nat) (x : Site) (j : Nat) : (s.setSite g x).block j = s.block j := rfl
@[simp] theorem State.engine_setSite (g : Nat) (x : Site) (j : Nat) : (s.setSite g x).engine j = s.engine j := rfl
@[simp] theorem State.ring_setSite (g : Nat) (x : Site) (j : Nat) : (s.setSite g x).ring j = s.ring j := rfl
@[simp] theorem State.box_setSite (g : Nat) (x : Site) (j : Nat) : (s.setSite g x).box j = s.box j := rfl
@[simp] theorem State.slice_setSite (g : Nat) (x : Site) (j : Nat) : (s.setSite g x).slice j = s.slice j := rfl
@[simp] theorem State.thread_setPort (p : Nat) (x : Port) (j : Nat) : (s.setPort p x).thread j = s.thread j := rfl
@[simp] theorem State.core_setPort (p : Nat) (x : Port) (j : Nat) : (s.setPort p x).core j = s.core j := rfl
@[simp] theorem State.isle_setPort (p : Nat) (x : Port) (j : Nat) : (s.setPort p x).isle j = s.isle j := rfl
@[simp] theorem State.strait_setPort (p : Nat) (x : Port) (j : Nat) : (s.setPort p x).strait j = s.strait j := rfl
@[simp] theorem State.chan_setPort (p : Nat) (x : Port) (j : Nat) : (s.setPort p x).chan j = s.chan j := rfl
@[simp] theorem State.site_setPort (p : Nat) (x : Port) (j : Nat) : (s.setPort p x).site j = s.site j := rfl
@[simp] theorem State.block_setPort (p : Nat) (x : Port) (j : Nat) : (s.setPort p x).block j = s.block j := rfl
@[simp] theorem State.engine_setPort (p : Nat) (x : Port) (j : Nat) : (s.setPort p x).engine j = s.engine j := rfl
@[simp] theorem State.ring_setPort (p : Nat) (x : Port) (j : Nat) : (s.setPort p x).ring j = s.ring j := rfl
@[simp] theorem State.box_setPort (p : Nat) (x : Port) (j : Nat) : (s.setPort p x).box j = s.box j := rfl
@[simp] theorem State.slice_setPort (p : Nat) (x : Port) (j : Nat) : (s.setPort p x).slice j = s.slice j := rfl
@[simp] theorem State.thread_setBlock (b : Nat) (x : Block) (j : Nat) : (s.setBlock b x).thread j = s.thread j := rfl
@[simp] theorem State.core_setBlock (b : Nat) (x : Block) (j : Nat) : (s.setBlock b x).core j = s.core j := rfl
@[simp] theorem State.isle_setBlock (b : Nat) (x : Block) (j : Nat) : (s.setBlock b x).isle j = s.isle j := rfl
@[simp] theorem State.strait_setBlock (b : Nat) (x : Block) (j : Nat) : (s.setBlock b x).strait j = s.strait j := rfl
@[simp] theorem State.chan_setBlock (b : Nat) (x : Block) (j : Nat) : (s.setBlock b x).chan j = s.chan j := rfl
@[simp] theorem State.site_setBlock (b : Nat) (x : Block) (j : Nat) : (s.setBlock b x).site j = s.site j := rfl
@[simp] theorem State.port_setBlock (b : Nat) (x : Block) (j : Nat) : (s.setBlock b x).port j = s.port j := rfl
@[simp] theorem State.engine_setBlock (b : Nat) (x : Block) (j : Nat) : (s.setBlock b x).engine j = s.engine j := rfl
@[simp] theorem State.ring_setBlock (b : Nat) (x : Block) (j : Nat) : (s.setBlock b x).ring j = s.ring j := rfl
@[simp] theorem State.box_setBlock (b : Nat) (x : Block) (j : Nat) : (s.setBlock b x).box j = s.box j := rfl
@[simp] theorem State.slice_setBlock (b : Nat) (x : Block) (j : Nat) : (s.setBlock b x).slice j = s.slice j := rfl
@[simp] theorem State.thread_setEngine (e : Nat) (x : Engine) (j : Nat) : (s.setEngine e x).thread j = s.thread j := rfl
@[simp] theorem State.core_setEngine (e : Nat) (x : Engine) (j : Nat) : (s.setEngine e x).core j = s.core j := rfl
@[simp] theorem State.isle_setEngine (e : Nat) (x : Engine) (j : Nat) : (s.setEngine e x).isle j = s.isle j := rfl
@[simp] theorem State.strait_setEngine (e : Nat) (x : Engine) (j : Nat) : (s.setEngine e x).strait j = s.strait j := rfl
@[simp] theorem State.chan_setEngine (e : Nat) (x : Engine) (j : Nat) : (s.setEngine e x).chan j = s.chan j := rfl
@[simp] theorem State.site_setEngine (e : Nat) (x : Engine) (j : Nat) : (s.setEngine e x).site j = s.site j := rfl
@[simp] theorem State.port_setEngine (e : Nat) (x : Engine) (j : Nat) : (s.setEngine e x).port j = s.port j := rfl
@[simp] theorem State.block_setEngine (e : Nat) (x : Engine) (j : Nat) : (s.setEngine e x).block j = s.block j := rfl
@[simp] theorem State.ring_setEngine (e : Nat) (x : Engine) (j : Nat) : (s.setEngine e x).ring j = s.ring j := rfl
@[simp] theorem State.box_setEngine (e : Nat) (x : Engine) (j : Nat) : (s.setEngine e x).box j = s.box j := rfl
@[simp] theorem State.slice_setEngine (e : Nat) (x : Engine) (j : Nat) : (s.setEngine e x).slice j = s.slice j := rfl
@[simp] theorem State.thread_setRing (r : Nat) (x : RingR) (j : Nat) : (s.setRing r x).thread j = s.thread j := rfl
@[simp] theorem State.core_setRing (r : Nat) (x : RingR) (j : Nat) : (s.setRing r x).core j = s.core j := rfl
@[simp] theorem State.isle_setRing (r : Nat) (x : RingR) (j : Nat) : (s.setRing r x).isle j = s.isle j := rfl
@[simp] theorem State.strait_setRing (r : Nat) (x : RingR) (j : Nat) : (s.setRing r x).strait j = s.strait j := rfl
@[simp] theorem State.chan_setRing (r : Nat) (x : RingR) (j : Nat) : (s.setRing r x).chan j = s.chan j := rfl
@[simp] theorem State.site_setRing (r : Nat) (x : RingR) (j : Nat) : (s.setRing r x).site j = s.site j := rfl
@[simp] theorem State.port_setRing (r : Nat) (x : RingR) (j : Nat) : (s.setRing r x).port j = s.port j := rfl
@[simp] theorem State.block_setRing (r : Nat) (x : RingR) (j : Nat) : (s.setRing r x).block j = s.block j := rfl
@[simp] theorem State.engine_setRing (r : Nat) (x : RingR) (j : Nat) : (s.setRing r x).engine j = s.engine j := rfl
@[simp] theorem State.box_setRing (r : Nat) (x : RingR) (j : Nat) : (s.setRing r x).box j = s.box j := rfl
@[simp] theorem State.slice_setRing (r : Nat) (x : RingR) (j : Nat) : (s.setRing r x).slice j = s.slice j := rfl
@[simp] theorem State.thread_setBox (m : Nat) (x : Mailbox) (j : Nat) : (s.setBox m x).thread j = s.thread j := rfl
@[simp] theorem State.core_setBox (m : Nat) (x : Mailbox) (j : Nat) : (s.setBox m x).core j = s.core j := rfl
@[simp] theorem State.isle_setBox (m : Nat) (x : Mailbox) (j : Nat) : (s.setBox m x).isle j = s.isle j := rfl
@[simp] theorem State.strait_setBox (m : Nat) (x : Mailbox) (j : Nat) : (s.setBox m x).strait j = s.strait j := rfl
@[simp] theorem State.chan_setBox (m : Nat) (x : Mailbox) (j : Nat) : (s.setBox m x).chan j = s.chan j := rfl
@[simp] theorem State.site_setBox (m : Nat) (x : Mailbox) (j : Nat) : (s.setBox m x).site j = s.site j := rfl
@[simp] theorem State.port_setBox (m : Nat) (x : Mailbox) (j : Nat) : (s.setBox m x).port j = s.port j := rfl
@[simp] theorem State.block_setBox (m : Nat) (x : Mailbox) (j : Nat) : (s.setBox m x).block j = s.block j := rfl
@[simp] theorem State.engine_setBox (m : Nat) (x : Mailbox) (j : Nat) : (s.setBox m x).engine j = s.engine j := rfl
@[simp] theorem State.ring_setBox (m : Nat) (x : Mailbox) (j : Nat) : (s.setBox m x).ring j = s.ring j := rfl
@[simp] theorem State.slice_setBox (m : Nat) (x : Mailbox) (j : Nat) : (s.setBox m x).slice j = s.slice j := rfl
@[simp] theorem State.thread_setSlice (k : Nat) (x : Slice) (j : Nat) : (s.setSlice k x).thread j = s.thread j := rfl
@[simp] theorem State.core_setSlice (k : Nat) (x : Slice) (j : Nat) : (s.setSlice k x).core j = s.core j := rfl
@[simp] theorem State.isle_setSlice (k : Nat) (x : Slice) (j : Nat) : (s.setSlice k x).isle j = s.isle j := rfl
@[simp] theorem State.strait_setSlice (k : Nat) (x : Slice) (j : Nat) : (s.setSlice k x).strait j = s.strait j := rfl
@[simp] theorem State.chan_setSlice (k : Nat) (x : Slice) (j : Nat) : (s.setSlice k x).chan j = s.chan j := rfl
@[simp] theorem State.site_setSlice (k : Nat) (x : Slice) (j : Nat) : (s.setSlice k x).site j = s.site j := rfl
@[simp] theorem State.port_setSlice (k : Nat) (x : Slice) (j : Nat) : (s.setSlice k x).port j = s.port j := rfl
@[simp] theorem State.block_setSlice (k : Nat) (x : Slice) (j : Nat) : (s.setSlice k x).block j = s.block j := rfl
@[simp] theorem State.engine_setSlice (k : Nat) (x : Slice) (j : Nat) : (s.setSlice k x).engine j = s.engine j := rfl
@[simp] theorem State.ring_setSlice (k : Nat) (x : Slice) (j : Nat) : (s.setSlice k x).ring j = s.ring j := rfl
@[simp] theorem State.box_setSlice (k : Nat) (x : Slice) (j : Nat) : (s.setSlice k x).box j = s.box j := rfl

/-! ### Registers of a thread -/

variable (x : Thread)

@[simp] theorem Thread.gr_zero : x.gr 0 = 0 := by simp [Thread.gr]
@[simp] theorem Thread.setGr_zero (v : Reg) : x.setGr 0 v = x := by simp [Thread.setGr]

/-- g0 discards writes and reads 0; another register reads what was written last (R42). -/
theorem Thread.gr_setGr (r q : BitVec 6) (v : Reg) :
    (x.setGr r v).gr q = if q = 0 then 0 else if q = r then v else x.gr q := by
  unfold Thread.gr
  by_cases hq : q = 0
  · rw [if_pos hq, if_pos hq]
  · rw [if_neg hq, if_neg hq]
    unfold Thread.setGr
    by_cases hr : r = 0
    · subst hr
      rw [if_pos rfl, if_neg hq, if_neg hq]
    · rw [if_neg hr, if_neg hq]
      show sget 0 (sset 0 x.g r.toNat v) q.toNat = _
      rw [sget_sset]
      by_cases h : q = r
      · rw [if_pos h, if_pos (congrArg _ h)]
      · rw [if_neg h, if_neg fun e => h (BitVec.eq_of_toNat_eq e)]

/-- A vector register reads what was written last (R43). -/
theorem Thread.vr_setVr (r q : BitVec 5) (v : LineBits) : (x.setVr r v).vr q = if q = r then v else x.vr q := by
  by_cases h : q = r
  · subst h; simp [Thread.vr, Thread.setVr]
  · have : q.toNat ≠ r.toNat := fun e => h (BitVec.eq_of_toNat_eq e)
    simp [Thread.vr, Thread.setVr, h, sget_sset_ne _ _ _ this]

@[simp] theorem Thread.setGr_v (r : BitVec 6) (v : Reg) : (x.setGr r v).v = x.v := by unfold Thread.setGr; split <;> rfl
@[simp] theorem Thread.setGr_pc (r : BitVec 6) (v : Reg) : (x.setGr r v).pc = x.pc := by unfold Thread.setGr; split <;> rfl
@[simp] theorem Thread.setGr_npc (r : BitVec 6) (v : Reg) : (x.setGr r v).npc = x.npc := by unfold Thread.setGr; split <;> rfl
@[simp] theorem Thread.setGr_ds (r : BitVec 6) (v : Reg) : (x.setGr r v).ds = x.ds := by unfold Thread.setGr; split <;> rfl
@[simp] theorem Thread.setGr_mode (r : BitVec 6) (v : Reg) : (x.setGr r v).mode = x.mode := by unfold Thread.setGr; split <;> rfl
@[simp] theorem Thread.setGr_ctx (r : BitVec 6) (v : Reg) : (x.setGr r v).ctx = x.ctx := by unfold Thread.setGr; split <;> rfl
@[simp] theorem Thread.setGr_priv (r : BitVec 6) (v : Reg) : (x.setGr r v).priv = x.priv := by unfold Thread.setGr; split <;> rfl
@[simp] theorem Thread.setGr_vault (r : BitVec 6) (v : Reg) : (x.setGr r v).vault = x.vault := by unfold Thread.setGr; split <;> rfl
@[simp] theorem Thread.setGr_rm (r : BitVec 6) (v : Reg) : (x.setGr r v).rm = x.rm := by unfold Thread.setGr; split <;> rfl
@[simp] theorem Thread.setGr_flags (r : BitVec 6) (v : Reg) : (x.setGr r v).flags = x.flags := by unfold Thread.setGr; split <;> rfl
@[simp] theorem Thread.setGr_wc (r : BitVec 6) (v : Reg) : (x.setGr r v).wc = x.wc := by unfold Thread.setGr; split <;> rfl
@[simp] theorem Thread.setGr_wv (r : BitVec 6) (v : Reg) : (x.setGr r v).wv = x.wv := by unfold Thread.setGr; split <;> rfl
@[simp] theorem Thread.setGr_ventry (r : BitVec 6) (v : Reg) : (x.setGr r v).ventry = x.ventry := by unfold Thread.setGr; split <;> rfl
@[simp] theorem Thread.setGr_vrpc (r : BitVec 6) (v : Reg) : (x.setGr r v).vrpc = x.vrpc := by unfold Thread.setGr; split <;> rfl
@[simp] theorem Thread.setGr_vrsave (r : BitVec 6) (v : Reg) : (x.setGr r v).vrsave = x.vrsave := by unfold Thread.setGr; split <;> rfl
@[simp] theorem Thread.setGr_ret (r : BitVec 6) (v : Reg) : (x.setGr r v).ret = x.ret := by unfold Thread.setGr; split <;> rfl
@[simp] theorem Thread.setVr_g (r : BitVec 5) (v : LineBits) : (x.setVr r v).g = x.g := rfl
@[simp] theorem Thread.setVr_pc (r : BitVec 5) (v : LineBits) : (x.setVr r v).pc = x.pc := rfl
@[simp] theorem Thread.setVr_npc (r : BitVec 5) (v : LineBits) : (x.setVr r v).npc = x.npc := rfl
@[simp] theorem Thread.setVr_ds (r : BitVec 5) (v : LineBits) : (x.setVr r v).ds = x.ds := rfl
@[simp] theorem Thread.setVr_mode (r : BitVec 5) (v : LineBits) : (x.setVr r v).mode = x.mode := rfl
@[simp] theorem Thread.setVr_ctx (r : BitVec 5) (v : LineBits) : (x.setVr r v).ctx = x.ctx := rfl
@[simp] theorem Thread.setVr_priv (r : BitVec 5) (v : LineBits) : (x.setVr r v).priv = x.priv := rfl
@[simp] theorem Thread.setVr_vault (r : BitVec 5) (v : LineBits) : (x.setVr r v).vault = x.vault := rfl
@[simp] theorem Thread.setVr_rm (r : BitVec 5) (v : LineBits) : (x.setVr r v).rm = x.rm := rfl
@[simp] theorem Thread.setVr_flags (r : BitVec 5) (v : LineBits) : (x.setVr r v).flags = x.flags := rfl
@[simp] theorem Thread.setVr_wc (r : BitVec 5) (v : LineBits) : (x.setVr r v).wc = x.wc := rfl
@[simp] theorem Thread.setVr_wv (r : BitVec 5) (v : LineBits) : (x.setVr r v).wv = x.wv := rfl
@[simp] theorem Thread.setVr_ventry (r : BitVec 5) (v : LineBits) : (x.setVr r v).ventry = x.ventry := rfl
@[simp] theorem Thread.setVr_vrpc (r : BitVec 5) (v : LineBits) : (x.setVr r v).vrpc = x.vrpc := rfl
@[simp] theorem Thread.setVr_vrsave (r : BitVec 5) (v : LineBits) : (x.setVr r v).vrsave = x.vrsave := rfl
@[simp] theorem Thread.setVr_ret (r : BitVec 5) (v : LineBits) : (x.setVr r v).ret = x.ret := rfl

/-! ### The advance of R73 -/

@[simp] theorem Thread.advance_g (k : Flow) : (x.advance k).g = x.g := by unfold Thread.advance; split <;> rfl
@[simp] theorem Thread.advance_v (k : Flow) : (x.advance k).v = x.v := by unfold Thread.advance; split <;> rfl
@[simp] theorem Thread.advance_mode (k : Flow) : (x.advance k).mode = x.mode := by unfold Thread.advance; split <;> rfl
@[simp] theorem Thread.advance_ctx (k : Flow) : (x.advance k).ctx = x.ctx := by unfold Thread.advance; split <;> rfl
@[simp] theorem Thread.advance_priv (k : Flow) : (x.advance k).priv = x.priv := by unfold Thread.advance; split <;> rfl
@[simp] theorem Thread.advance_vault (k : Flow) : (x.advance k).vault = x.vault := by unfold Thread.advance; split <;> rfl
@[simp] theorem Thread.advance_rm (k : Flow) : (x.advance k).rm = x.rm := by unfold Thread.advance; split <;> rfl
@[simp] theorem Thread.advance_flags (k : Flow) : (x.advance k).flags = x.flags := by unfold Thread.advance; split <;> rfl
@[simp] theorem Thread.advance_wc (k : Flow) : (x.advance k).wc = x.wc := by unfold Thread.advance; split <;> rfl
@[simp] theorem Thread.advance_wv (k : Flow) : (x.advance k).wv = x.wv := by unfold Thread.advance; split <;> rfl
@[simp] theorem Thread.advance_ventry (k : Flow) : (x.advance k).ventry = x.ventry := by unfold Thread.advance; split <;> rfl
@[simp] theorem Thread.advance_vrpc (k : Flow) : (x.advance k).vrpc = x.vrpc := by unfold Thread.advance; split <;> rfl
@[simp] theorem Thread.advance_vrsave (k : Flow) : (x.advance k).vrsave = x.vrsave := by unfold Thread.advance; split <;> rfl
@[simp] theorem Thread.advance_ret (k : Flow) : (x.advance k).ret = x.ret := by unfold Thread.advance; split <;> rfl

@[simp] theorem Thread.gr_advance (k : Flow) (r : BitVec 6) : (x.advance k).gr r = x.gr r := by simp [Thread.gr]
@[simp] theorem Thread.vr_advance (k : Flow) (r : BitVec 5) : (x.advance k).vr r = x.vr r := by simp [Thread.vr]

/-! ### The last of two updates of a unit counts -/

@[simp] theorem State.setThread_setThread (s : State) (k : Nat) (x y : Thread) : (s.setThread k x).setThread k y = s.setThread k y := by
  simp [State.setThread]
@[simp] theorem State.setCore_setCore (s : State) (k : Nat) (x y : Core) : (s.setCore k x).setCore k y = s.setCore k y := by
  simp [State.setCore]
@[simp] theorem State.setIsle_setIsle (s : State) (k : Nat) (x y : Isle) : (s.setIsle k x).setIsle k y = s.setIsle k y := by
  simp [State.setIsle]
@[simp] theorem State.setStrait_setStrait (s : State) (k : Nat) (x y : Strait) : (s.setStrait k x).setStrait k y = s.setStrait k y := by
  simp [State.setStrait]
@[simp] theorem State.setChan_setChan (s : State) (k : Nat) (x y : Chan) : (s.setChan k x).setChan k y = s.setChan k y := by
  simp [State.setChan]
@[simp] theorem State.setSite_setSite (s : State) (k : Nat) (x y : Site) : (s.setSite k x).setSite k y = s.setSite k y := by
  simp [State.setSite]
@[simp] theorem State.setPort_setPort (s : State) (k : Nat) (x y : Port) : (s.setPort k x).setPort k y = s.setPort k y := by
  simp [State.setPort]
@[simp] theorem State.setBlock_setBlock (s : State) (k : Nat) (x y : Block) : (s.setBlock k x).setBlock k y = s.setBlock k y := by
  simp [State.setBlock]
@[simp] theorem State.setEngine_setEngine (s : State) (k : Nat) (x y : Engine) : (s.setEngine k x).setEngine k y = s.setEngine k y := by
  simp [State.setEngine]
@[simp] theorem State.setRing_setRing (s : State) (k : Nat) (x y : RingR) : (s.setRing k x).setRing k y = s.setRing k y := by
  simp [State.setRing]
@[simp] theorem State.setBox_setBox (s : State) (k : Nat) (x y : Mailbox) : (s.setBox k x).setBox k y = s.setBox k y := by
  simp [State.setBox]
@[simp] theorem State.setSlice_setSlice (s : State) (k : Nat) (x y : Slice) : (s.setSlice k x).setSlice k y = s.setSlice k y := by
  simp [State.setSlice]

end Sys2Proof.Machine
end

