-- ==== Sys2Proof/Laws/Keep.lean ====
section
/-! SUPPORT. What every operation of the model keeps, as a property P of states that is closed under the changes the
operation can make; each operation has one lemma `<operation>_pres`. The queue and the ordering code stay; memory keeps
its canonical form; the operations of a fetch leave threads alone. -/

namespace Sys2Proof.Machine

/-- P survives every change that leaves the queue, the ordering code and the threads alone and keeps memory canonical. -/
structure Quiet (P : State → Prop) : Prop where
  of : ∀ s u, P s → u.pending = s.pending → u.variant = s.variant → u.threads = s.threads → u.mem = s.mem → P u
  mem : ∀ s (m : Store LineVal), P s → (swf ({} : LineVal) s.mem = true → swf ({} : LineVal) m = true) → P { s with mem := m }

/-- P says nothing of threads. -/
def Free (P : State → Prop) : Prop := ∀ s t x, P s → P (s.setThread t x)

/-- P survives, besides, a change of one thread that keeps it legal, and the loss of every thread's state. -/
structure Loud (P : State → Prop) : Prop extends Quiet P where
  thread : ∀ s t x, P s → ((s.thread t).legal = true → x.legal = true) → P (s.setThread t x)
  threads : ∀ s, P s → P { s with threads := [] }
  legal : ∀ s, P s → ThreadsLegal s ∨ Free P

variable {α β : Type} {P : State → Prop}

/-! ### P on what operations answer -/

def OnFst (P : State → Prop) (x : State × α) : Prop := P x.1
def OnSome (P : State → Prop) (x : Option State) : Prop := ∀ u, x = some u → P u
def OnSomeFst (P : State → Prop) (x : Option (State × α)) : Prop := ∀ u, x = some u → P u.1
def OnSnd (P : State → Prop) (x : α × State) : Prop := P x.2
def OnNext (P : State → Prop) (x : Res) : Prop := ∀ u, x = .next u → P u
def OnGot (P : State → Prop) (x : Got) : Prop := P x.s

/-- A transfer's target is aligned, where P speaks of threads. -/
def Flow.ok (P : State → Prop) (f : Flow) : Prop := f.aligned ∨ Free P

/-- The state of an instruction's own end, with a transfer's target aligned; a CRW's write is an operation too. -/
def OnDone (P : State → Prop) : Done → Prop
  | .done s f _ _ => P s ∧ f.ok P
  | .moved s | .call s _ | .trap s _ _ _ | .wait s => P s
  | .wrote s f => P s ∧ ∀ u, P u → P (f u)

def OnSomeDone (P : State → Prop) (x : Option Done) : Prop := ∀ d, x = some d → OnDone P d

def OnPrep (P : State → Prop) : Prep → Prop
  | .go s _ _ _ => P s
  | .stop d => OnDone P d

def OnGo (P : State → Prop) : Go → Prop
  | .more s _ _ | .done s _ _ | .wait s => P s

/-- Both sides of a register, whatever is written to it. -/
def OnView (P : State → Prop) (v : View) : Prop := OnFst P v.rd ∧ ∀ x, OnFst P (v.wr x)
def OnSomeView (P : State → Prop) (v : Option View) : Prop := ∀ x, v = some x → OnView P x

/-- The state, and the register's two sides where there is a register. -/
def OnCs (P : State → Prop) (x : State × Option View) : Prop := P x.1 ∧ ∀ v, x.2 = some v → OnView P v

theorem OnView.mk {α : State × Resp × W36} {f : W36 → State × Resp} (h : OnFst P α) (k : ∀ x, OnFst P (f x)) : OnView P ⟨α, f⟩ := ⟨h, k⟩
theorem OnView.rd {v : View} (h : OnView P v) : OnFst P v.rd := h.1
theorem OnView.wr {v : View} (h : OnView P v) (x : W36) : OnFst P (v.wr x) := h.2 x
theorem OnSomeView.mk {v : View} (h : OnView P v) : OnSomeView P (some v) := by intro u e; cases e; exact h
theorem OnSomeView.none : OnSomeView P none := by intro u e; cases e
theorem OnSomeView.eq {x : Option View} {v : View} (h : OnSomeView P x) (e : x = some v) : OnView P v := h v e

theorem OnGo.more {s : State} (p : Nat) (a : BitVec 64) (h : P s) : OnGo P (.more s p a) := h
theorem OnGo.done {s : State} (p : BitVec 8) (a : BitVec 64) (h : P s) : OnGo P (.done s p a) := h
theorem OnGo.wait {s : State} (h : P s) : OnGo P (.wait s) := h
theorem OnGo.moreEq {x : Go} {s : State} {p : Nat} {a : BitVec 64} (h : OnGo P x) (e : x = .more s p a) : P s := by subst e; exact h
theorem OnGo.doneEq {x : Go} {s : State} {p : BitVec 8} {a : BitVec 64} (h : OnGo P x) (e : x = .done s p a) : P s := by subst e; exact h
theorem OnGo.waitEq {x : Go} {s : State} (h : OnGo P x) (e : x = .wait s) : P s := by subst e; exact h
theorem OnFst.mk {s : State} (b : α) (h : P s) : OnFst P (s, b) := h
theorem OnFst.fst {x : State × α} (h : OnFst P x) : P x.1 := h
theorem OnFst.eq {x : State × α} {s : State} {b : α} (h : OnFst P x) (e : x = (s, b)) : P s := by subst e; exact h
theorem OnSnd.mk {s : State} (b : α) (h : P s) : OnSnd P (b, s) := h
theorem OnSnd.snd {x : α × State} (h : OnSnd P x) : P x.2 := h
theorem OnSnd.eq {x : α × State} {s : State} {b : α} (h : OnSnd P x) (e : x = (b, s)) : P s := by subst e; exact h
theorem OnSome.mk {s : State} (h : P s) : OnSome P (some s) := by intro u e; cases e; exact h
theorem OnSome.none : OnSome P none := by intro u e; cases e
theorem OnSome.eq {x : Option State} {s : State} (h : OnSome P x) (e : x = some s) : P s := h s e
theorem OnSome.map {γ : Type} {f : γ → State} {x : Option γ} (h : ∀ a, P (f a)) : OnSome P (x.map f) := by
  intro u e
  cases x with
  | none => cases e
  | some a => cases e; exact h a
theorem OnSome.bind {f : State → Option State} {x : Option State} (k : OnSome P x) (h : ∀ u, P u → OnSome P (f u)) : OnSome P (x.bind f) := by
  intro u e
  cases x with
  | none => cases e
  | some a => exact h a (k a rfl) u e
theorem OnSomeFst.bind {f : State → Option (State × α)} {x : Option State} (k : OnSome P x) (h : ∀ u, P u → OnSomeFst P (f u)) : OnSomeFst P (x.bind f) := by
  intro u e
  cases x with
  | none => cases e
  | some a => exact h a (k a rfl) u e
theorem OnSomeFst.map {γ : Type} {f : γ → State × α} {x : Option γ} (h : ∀ a, P (f a).1) : OnSomeFst P (x.map f) := by
  intro u e
  cases x with
  | none => cases e
  | some a => cases e; exact h a
theorem OnSome.getD {x : Option State} {s : State} (h : OnSome P x) (hs : P s) : P (x.getD s) := by
  cases x with
  | none => exact hs
  | some u => exact h u rfl
theorem OnSomeFst.mk {s : State} (b : α) (h : P s) : OnSomeFst P (some (s, b)) := by intro u e; cases e; exact h
theorem OnSomeFst.none : OnSomeFst P (none : Option (State × α)) := by intro u e; cases e
theorem OnSome.get {s : State} (h : OnSome P (some s)) : P s := h s rfl
theorem OnSomeFst.get {s : State} {b : α} (h : OnSomeFst P (some (s, b))) : P s := h _ rfl
theorem OnFst.get {s : State} {b : α} (h : OnFst P (s, b)) : P s := h
theorem OnSomeFst.eq {x : Option (State × α)} {s : State} {b : α} (h : OnSomeFst P x) (e : x = some (s, b)) : P s := h _ e
theorem State.setThread_pres (C : Loud P) {s : State} (t : Nat) (x : Thread) (h : P s)
    (k : (s.thread t).legal = true → x.legal = true) : P (s.setThread t x) := C.thread s t x h k
theorem State.modThread_pres (C : Loud P) {s : State} (t : Nat) (f : Thread → Thread) (h : P s)
    (k : ∀ x : Thread, x.legal = true → (f x).legal = true) : P (s.modThread t f) := C.thread s t _ h (k _)
theorem OnNext.mk {s : State} (h : P s) : OnNext P (.next s) := by intro u e; cases e; exact h
theorem OnNext.refused (r : Refusal) : OnNext P (.refused r) := by intro u e; cases e
theorem OnGot.mk {s : State} (e : List (Nat × Nat)) (a : Ans) (h : P s) : OnGot P ⟨s, e, a⟩ := h
theorem OnGot.eq {x : Got} {s : State} {e : List (Nat × Nat)} {a : Ans} (h : OnGot P x) (k : x = ⟨s, e, a⟩) : P s := by subst k; exact h
theorem OnGot.s {x : Got} (h : OnGot P x) : P x.s := h
theorem OnDone.mk {s : State} (f : Flow) (p : Bool) (e : List (Nat × Nat)) (h : P s) (k : f.ok P) : OnDone P (.done s f p e) := ⟨h, k⟩
theorem OnDone.moved {s : State} (h : P s) : OnDone P (.moved s) := h
theorem OnDone.wrote {s : State} {f : State → State} (h : P s) (k : ∀ u, P u → P (f u)) : OnDone P (.wrote s f) := ⟨h, k⟩
theorem OnDone.call {s : State} (c : BitVec 8) (h : P s) : OnDone P (.call s c) := h
theorem OnDone.trap {s : State} (c d : BitVec 8) (v : Reg) (h : P s) : OnDone P (.trap s c d v) := h
theorem OnDone.wait {s : State} (h : P s) : OnDone P (.wait s) := h
theorem OnSomeDone.mk {d : Done} (h : OnDone P d) : OnSomeDone P (some d) := by intro u e; cases e; exact h
theorem OnSomeDone.none : OnSomeDone P none := by intro u e; cases e
theorem OnSomeDone.eq {x : Option Done} {d : Done} (h : OnSomeDone P x) (e : x = some d) : OnDone P d := h d e
theorem OnPrep.go {s : State} (e : List (Nat × Nat)) (p : Nat) (u : Bool) (h : P s) : OnPrep P (.go s e p u) := h
theorem OnPrep.stop {d : Done} (h : OnDone P d) : OnPrep P (.stop d) := h
theorem OnPrep.goEq {x : Prep} {s : State} {e : List (Nat × Nat)} {p : Nat} {u : Bool} (h : OnPrep P x)
    (k : x = .go s e p u) : P s := by subst k; exact h
theorem OnPrep.stopEq {x : Prep} {d : Done} (h : OnPrep P x) (k : x = .stop d) : OnDone P d := by subst k; exact h
theorem branchTo_ok (C : Loud P) {s : State} {w : Nat} (t : Nat) (off : BitVec w) (h : P s) :
    (Flow.taken (branchTo (s.thread t) off)).ok P := by
  rcases C.legal s h with g | g
  · exact .inl ((Thread.legal_aligned (g t)).1.add (aligned_times4 _))
  · exact .inr g
theorem OnNext.fault (f : Fault) : OnNext P (.fault f) := by intro u e; cases e

/-- A record update that leaves the four fields. -/
theorem Quiet.update (C : Quiet P) {s : State} (coresx : Store Core) (islesx : Store Isle) (straitsx : Store Strait) (homex : Home) (netx : List Msg) (repliesx : List Msg) (chansx : Store Chan) (memSetsx : List MemSet) (memTopx : BitVec 24) (portsx : Ports) (sitesx : Store Site) (harbourx : Harbour) (lhx : Lighthouse) (pwrx : Pwr) (ledgerx : Ledger) (worldsx : Worlds) (umfx : Umf) (evrx : Evr) (sndx : Store SndCnt) (keysx : Keys) (boardx : Board) (freex : Nat) (h : P s) :
    P (State.mk s.pending s.variant s.threads coresx islesx straitsx homex netx repliesx s.mem chansx memSetsx memTopx portsx sitesx harbourx lhx pwrx ledgerx worldsx umfx evrx sndx keysx boardx freex) :=
  C.of s _ h rfl rfl rfl rfl

end Sys2Proof.Machine
end

