-- ==== Sys2Proof/Laws/KeepOps.lean ====
section
/-! SUPPORT. What the operations of Machine/Ops.lean keep. -/

namespace Sys2Proof.Machine

variable {P : State → Prop}

theorem State.setCore_pres (C : Quiet P) {s : State} (a1 : ℕ) (a2 : Core) (h : P s) : P (State.setCore s a1 a2) := by
  unfold State.setCore
  try dsimp only
  repeat' first
    | with_reducible assumption
    | fail_if_no_progress with_reducible apply C.update

theorem State.modCore_pres (C : Quiet P) {s : State} (a1 : ℕ) (a2 : Core → Core) (h : P s) : P (State.modCore s a1 a2) := by
  unfold State.modCore
  try dsimp only
  repeat' first
    | with_reducible assumption
    | with_reducible apply State.setCore_pres C

theorem State.setIsle_pres (C : Quiet P) {s : State} (a1 : ℕ) (a2 : Isle) (h : P s) : P (State.setIsle s a1 a2) := by
  unfold State.setIsle
  try dsimp only
  repeat' first
    | with_reducible assumption
    | fail_if_no_progress with_reducible apply C.update

theorem State.modIsle_pres (C : Quiet P) {s : State} (a1 : ℕ) (a2 : Isle → Isle) (h : P s) : P (State.modIsle s a1 a2) := by
  unfold State.modIsle
  try dsimp only
  repeat' first
    | with_reducible assumption
    | with_reducible apply State.setIsle_pres C

theorem State.setStrait_pres (C : Quiet P) {s : State} (a1 : ℕ) (a2 : Strait) (h : P s) : P (State.setStrait s a1 a2) := by
  unfold State.setStrait
  try dsimp only
  repeat' first
    | with_reducible assumption
    | fail_if_no_progress with_reducible apply C.update

theorem State.modStrait_pres (C : Quiet P) {s : State} (a1 : ℕ) (a2 : Strait → Strait) (h : P s) : P (State.modStrait s a1 a2) := by
  unfold State.modStrait
  try dsimp only
  repeat' first
    | with_reducible assumption
    | with_reducible apply State.setStrait_pres C

theorem State.setChan_pres (C : Quiet P) {s : State} (a1 : ℕ) (a2 : Chan) (h : P s) : P (State.setChan s a1 a2) := by
  unfold State.setChan
  try dsimp only
  repeat' first
    | with_reducible assumption
    | fail_if_no_progress with_reducible apply C.update

theorem State.modChan_pres (C : Quiet P) {s : State} (a1 : ℕ) (a2 : Chan → Chan) (h : P s) : P (State.modChan s a1 a2) := by
  unfold State.modChan
  try dsimp only
  repeat' first
    | with_reducible assumption
    | with_reducible apply State.setChan_pres C

theorem State.setSite_pres (C : Quiet P) {s : State} (a1 : ℕ) (a2 : Site) (h : P s) : P (State.setSite s a1 a2) := by
  unfold State.setSite
  try dsimp only
  repeat' first
    | with_reducible assumption
    | fail_if_no_progress with_reducible apply C.update

theorem State.modSite_pres (C : Quiet P) {s : State} (a1 : ℕ) (a2 : Site → Site) (h : P s) : P (State.modSite s a1 a2) := by
  unfold State.modSite
  try dsimp only
  repeat' first
    | with_reducible assumption
    | with_reducible apply State.setSite_pres C

theorem State.setPort_pres (C : Quiet P) {s : State} (a1 : ℕ) (a2 : Port) (h : P s) : P (State.setPort s a1 a2) := by
  unfold State.setPort
  try dsimp only
  repeat' first
    | with_reducible assumption
    | fail_if_no_progress with_reducible apply C.update

theorem State.modPort_pres (C : Quiet P) {s : State} (a1 : ℕ) (a2 : Port → Port) (h : P s) : P (State.modPort s a1 a2) := by
  unfold State.modPort
  try dsimp only
  repeat' first
    | with_reducible assumption
    | with_reducible apply State.setPort_pres C

theorem State.setBlock_pres (C : Quiet P) {s : State} (a1 : ℕ) (a2 : Block) (h : P s) : P (State.setBlock s a1 a2) := by
  unfold State.setBlock
  try dsimp only
  repeat' first
    | with_reducible assumption
    | fail_if_no_progress with_reducible apply C.update

theorem State.modBlock_pres (C : Quiet P) {s : State} (a1 : ℕ) (a2 : Block → Block) (h : P s) : P (State.modBlock s a1 a2) := by
  unfold State.modBlock
  try dsimp only
  repeat' first
    | with_reducible assumption
    | with_reducible apply State.setBlock_pres C

theorem State.setEngine_pres (C : Quiet P) {s : State} (a1 : ℕ) (a2 : Engine) (h : P s) : P (State.setEngine s a1 a2) := by
  unfold State.setEngine
  try dsimp only
  repeat' first
    | with_reducible assumption
    | fail_if_no_progress with_reducible apply C.update

theorem State.modEngine_pres (C : Quiet P) {s : State} (a1 : ℕ) (a2 : Engine → Engine) (h : P s) : P (State.modEngine s a1 a2) := by
  unfold State.modEngine
  try dsimp only
  repeat' first
    | with_reducible assumption
    | with_reducible apply State.setEngine_pres C

theorem State.setRing_pres (C : Quiet P) {s : State} (a1 : ℕ) (a2 : RingR) (h : P s) : P (State.setRing s a1 a2) := by
  unfold State.setRing
  try dsimp only
  repeat' first
    | with_reducible assumption
    | fail_if_no_progress with_reducible apply C.update

theorem State.modRing_pres (C : Quiet P) {s : State} (a1 : ℕ) (a2 : RingR → RingR) (h : P s) : P (State.modRing s a1 a2) := by
  unfold State.modRing
  try dsimp only
  repeat' first
    | with_reducible assumption
    | with_reducible apply State.setRing_pres C

theorem State.setBox_pres (C : Quiet P) {s : State} (a1 : ℕ) (a2 : Mailbox) (h : P s) : P (State.setBox s a1 a2) := by
  unfold State.setBox
  try dsimp only
  repeat' first
    | with_reducible assumption
    | fail_if_no_progress with_reducible apply C.update

theorem State.modBox_pres (C : Quiet P) {s : State} (a1 : ℕ) (a2 : Mailbox → Mailbox) (h : P s) : P (State.modBox s a1 a2) := by
  unfold State.modBox
  try dsimp only
  repeat' first
    | with_reducible assumption
    | with_reducible apply State.setBox_pres C

theorem State.setSlice_pres (C : Quiet P) {s : State} (a1 : ℕ) (a2 : Slice) (h : P s) : P (State.setSlice s a1 a2) := by
  unfold State.setSlice
  try dsimp only
  repeat' first
    | with_reducible assumption
    | fail_if_no_progress with_reducible apply C.update

theorem State.modSlice_pres (C : Quiet P) {s : State} (a1 : ℕ) (a2 : Slice → Slice) (h : P s) : P (State.modSlice s a1 a2) := by
  unfold State.modSlice
  try dsimp only
  repeat' first
    | with_reducible assumption
    | with_reducible apply State.setSlice_pres C

theorem State.recIsle_pres (C : Quiet P) {s : State} (a1 : ℕ) (a2 : BitVec 16) (a3 : ℕ) (a4 : ℕ) (a5 : ℕ) (a6 : Xid) (h : P s) : P (State.recIsle s a1 a2 a3 a4 a5 a6) := by
  unfold State.recIsle
  try dsimp only
  repeat' first
    | with_reducible assumption
    | fail_if_no_progress with_reducible apply C.update

theorem State.recKey_pres (C : Quiet P) {s : State} (a1 : ℕ) (a2 : BitVec 16) (a3 : ℕ) (a4 : List Reg) (a5 : Bool) (a6 : BitVec 12) (a7 : BitVec 10) (h : P s) : P (State.recKey s a1 a2 a3 a4 a5 a6 a7) := by
  unfold State.recKey
  try dsimp only
  repeat' first
    | with_reducible assumption
    | fail_if_no_progress with_reducible apply C.update

theorem State.sndKey_pres (C : Quiet P) {s : State} (a1 : ℕ) (a2 : ℕ) (a3 : Bool) (a4 : ℕ) (h : P s) : P (State.sndKey s a1 a2 a3 a4) := by
  unfold State.sndKey
  try dsimp only
  repeat' first
    | with_reducible assumption
    | fail_if_no_progress with_reducible apply C.update

theorem State.sndIsle_pres (C : Quiet P) {s : State} (a1 : ℕ) (a2 : ℕ) (a3 : ℕ) (a4 : Bool) (a5 : ℕ) (h : P s) : P (State.sndIsle s a1 a2 a3 a4 a5) := by
  unfold State.sndIsle
  try dsimp only
  repeat' first
    | with_reducible assumption
    | with_reducible apply State.modIsle_pres C

theorem State.takeFree_pres (C : Quiet P) {s : State}  (h : P s) : OnSnd P (State.takeFree s) := by
  unfold State.takeFree
  try dsimp only
  repeat' first
    | with_reducible assumption
    | fail_if_no_progress with_reducible apply C.update
    | with_reducible apply OnSnd.mk

theorem State.markWrong_pres (C : Quiet P) {s : State} (a1 : ℕ) (h : P s) : P (State.markWrong s a1) := by
  unfold State.markWrong
  try dsimp only
  repeat' first
    | with_reducible assumption
    | with_reducible apply State.modCore_pres C
    | with_reducible intro _
    | fail_if_no_progress with_reducible apply C.update

theorem State.trap_pres (C : Loud P) {s : State} (a1 : ℕ) (a2 : BitVec 8) (a3 : BitVec 8) (a4 : Reg) (h : P s) : P (State.trap s a1 a2 a3 a4) := by
  unfold State.trap
  try dsimp only
  repeat' first
    | with_reducible assumption
    | with_reducible apply State.markWrong_pres C.toQuiet
    | (refine State.modThread_pres C _ _ ?_ ?_)
    | (with_reducible intro x k; first | exact Thread.legal_scopeReset _ | exact Thread.legal_congr k rfl rfl rfl rfl rfl rfl rfl rfl | exact Thread.legal_trap k _ _ _ | exact Thread.legal_launchEnd k _)
    | with_reducible intro _

theorem State.takeInt_pres (C : Loud P) {s : State} (a1 : ℕ) (a2 : ℕ) (a3 : BitVec 2) (h : P s) : P (State.takeInt s a1 a2 a3) := by
  unfold State.takeInt
  refine State.modThread_pres C _ _ h fun x k => ?_
  dsimp only
  refine Thread.legal_takeTrap ?_ _ _ _ _ (Thread.legal_aligned k).1 (Thread.legal_aligned k).2
  refine Thread.legal_setCur k ?_
  refine pres_ite (Q := fun w : WReg => w.legal = true) (fun _ => ?_) fun _ => ?_
  · exact WReg.legal_congr (Thread.legal_cur k) rfl rfl rfl
  · exact WReg.legal_congr (Thread.legal_cur k) rfl rfl rfl

end Sys2Proof.Machine
end

