-- ==== Sys2Proof/Laws/KeepLedger.lean ====
section
/-! SUPPORT. What the operations of Machine/Ledger.lean keep. -/

namespace Sys2Proof.Machine

variable {P : State → Prop}

theorem State.claim_pres (C : Quiet P) {s : State} (a1 : ℕ) (a2 : ℕ) (a3 : ℕ) (h : P s) : OnFst P (State.claim s a1 a2 a3) := by
  unfold State.claim
  try dsimp only
  repeat' first
    | with_reducible assumption
    | with_reducible apply pres_ite
    | with_reducible exact OnNext.refused _
    | with_reducible intro _
    | with_reducible refine OnFst.eq ?_ (by with_reducible assumption)
    | fail_if_no_progress with_reducible apply C.update
    | with_reducible apply OnFst.mk

theorem State.release_pres (C : Quiet P) {s : State} (a1 : ℕ) (a2 : ℕ) (a3 : ℕ) (h : P s) : P (State.release s a1 a2 a3) := by
  unfold State.release
  try dsimp only
  repeat' first
    | with_reducible assumption
    | fail_if_no_progress with_reducible apply C.update

theorem execBearingClaim_pres (C : Quiet P) (a1 : BearingReq) (a2 : List BearingReq) {s : State} (h : P s) : OnNext P (execBearingClaim a1 a2 s) := by
  unfold execBearingClaim
  try dsimp only
  repeat' first
    | with_reducible assumption
    | with_reducible apply State.claim_pres C
    | (with_reducible apply OnFst.fst; with_reducible apply State.claim_pres C)
    | with_reducible apply pres_fold
    | with_reducible apply OnNext.mk
    | with_reducible intro _
    | with_reducible refine OnFst.eq ?_ (by with_reducible assumption)
    | with_reducible apply OnFst.mk

theorem execBearingRelease_pres (C : Quiet P) {s : State} (a1 : Fin 50) (a2 : BitVec 12) (a3 : BitVec 12) (h : P s) : OnNext P (execBearingRelease a1 a2 a3 s) := by
  unfold execBearingRelease
  try dsimp only
  repeat' first
    | with_reducible assumption
    | with_reducible apply State.release_pres C
    | with_reducible apply OnNext.mk

end Sys2Proof.Machine
end

