-- ==== Sys2Proof/Laws/KeepDram.lean ====
section
/-! SUPPORT. What the operations of Machine/Dram.lean keep. -/

namespace Sys2Proof.Machine

variable {P : State → Prop}

theorem State.memPut_pres (C : Quiet P) {s : State} (a1 : LineNo) (a2 : LineVal) (h : P s) : P (State.memPut s a1 a2) :=
  C.mem _ _ h fun k => swf_sset _ _ _ _ k

theorem State.fillEighths_pres (C : Quiet P) {s : State} (a1 : ℕ) (a2 : BitVec 8) (a3 : Bool) (h : P s) : P (State.fillEighths s a1 a2 a3) := by
  unfold State.fillEighths
  exact State.modChan_pres C _ _ (C.mem _ _ h fun k => swf_filter _ _ _ k)

theorem State.dramTouch_pres (C : Quiet P) {s : State} (a1 : ℕ) (a2 : LineNo) (a3 : Bool) (a4 : Bool) (h : P s) : P (State.dramTouch s a1 a2 a3 a4) := by
  unfold State.dramTouch
  try dsimp only
  repeat' first
    | with_reducible assumption
    | with_reducible apply State.sndKey_pres C
    | with_reducible apply State.modChan_pres C
    | with_reducible apply pres_ite
    | with_reducible intro _
    | fail_if_no_progress with_reducible apply C.update

theorem State.hardError_pres (C : Quiet P) {s : State} (a1 : ℕ) (a2 : ℕ) (a3 : LineNo) (h : P s) : P (State.hardError s a1 a2 a3) := by
  unfold State.hardError
  try dsimp only
  repeat' first
    | with_reducible assumption
    | with_reducible apply State.setChan_pres C
    | with_reducible apply State.recKey_pres C
    | with_reducible apply State.modChan_pres C
    | with_reducible apply pres_ite
    | with_reducible intro _
    | split

theorem State.countCe_pres (C : Quiet P) {s : State} (a1 : ℕ) (a2 : LineNo) (a3 : ℕ) (a4 : BitVec 2) (a5 : Bool) (a6 : Xid) (h : P s) : P (State.countCe s a1 a2 a3 a4 a5 a6) := by
  unfold State.countCe
  try dsimp only
  repeat' first
    | with_reducible assumption
    | with_reducible apply State.modChan_pres C
    | with_reducible apply State.recKey_pres C
    | with_reducible apply State.hardError_pres C
    | with_reducible apply pres_ite
    | with_reducible intro _

theorem State.flushRereads_pres (C : Quiet P) {s : State} (a1 : ℕ) (h : P s) : P (State.flushRereads s a1) := by
  unfold State.flushRereads
  try dsimp only
  repeat' first
    | with_reducible assumption
    | with_reducible apply State.countCe_pres C
    | with_reducible apply State.modChan_pres C
    | with_reducible apply pres_fold
    | with_reducible intro _

theorem State.endHandle_pres (C : Quiet P) {s : State} (a1 : HUnit) (a2 : BitVec 8) (a3 : BitVec 8) (h : P s) : P (State.endHandle s a1 a2 a3) := by
  unfold State.endHandle
  try dsimp only
  repeat' first
    | with_reducible assumption
    | fail_if_no_progress with_reducible apply C.update

theorem State.endIsle_pres (C : Quiet P) {s : State} (a1 : ℕ) (a2 : ℕ) (h : P s) : P (State.endIsle s a1 a2) := by
  unfold State.endIsle
  try dsimp only
  repeat' first
    | with_reducible assumption
    | fail_if_no_progress with_reducible apply C.update

theorem State.poisonReads_pres (C : Quiet P) {s : State} (a1 : ℕ) (h : P s) : OnFst P (State.poisonReads s a1) := by
  unfold State.poisonReads
  try dsimp only
  repeat' first
    | with_reducible assumption
    | with_reducible apply State.modChan_pres C
    | with_reducible intro _
    | with_reducible refine OnFst.eq ?_ (by with_reducible assumption)
    | fail_if_no_progress with_reducible apply C.update
    | with_reducible apply OnFst.mk

theorem State.dropRetrain_pres (C : Quiet P) {s : State} (a1 : ℕ) (h : P s) : P (State.dropRetrain s a1) := by
  unfold State.dropRetrain
  try dsimp only
  repeat' first
    | with_reducible assumption
    | with_reducible apply State.endHandle_pres C
    | with_reducible apply State.modChan_pres C
    | with_reducible apply pres_ite
    | with_reducible intro _
    | fail_if_no_progress with_reducible apply C.update

theorem State.freeze_pres (C : Quiet P) {s : State} (a1 : ℕ) (a2 : BitVec 3) (a3 : Option LineNo) (a4 : Xid) (h : P s) : OnFst P (State.freeze s a1 a2 a3 a4) := by
  unfold State.freeze
  try dsimp only
  repeat' first
    | with_reducible assumption
    | with_reducible apply State.poisonReads_pres C
    | (with_reducible apply OnFst.fst; with_reducible apply State.poisonReads_pres C)
    | with_reducible apply State.recKey_pres C
    | with_reducible apply State.setChan_pres C
    | with_reducible apply State.takeFree_pres C
    | (with_reducible apply OnSnd.snd; with_reducible apply State.takeFree_pres C)
    | with_reducible apply State.dropRetrain_pres C
    | with_reducible apply State.flushRereads_pres C
    | with_reducible apply pres_ite
    | with_reducible exact OnFst.get (by with_reducible assumption)
    | with_reducible intro _
    | with_reducible refine OnFst.eq ?_ (by with_reducible assumption)
    | with_reducible refine OnSnd.eq ?_ (by with_reducible assumption)
    | fail_if_no_progress with_reducible apply C.update
    | split
    | with_reducible apply OnFst.mk
    | with_reducible apply OnSnd.mk

theorem State.chanFail_pres (C : Quiet P) {s : State} (a1 : ℕ) (a2 : ℕ) (h : P s) : OnFst P (State.chanFail s a1 a2) := by
  unfold State.chanFail
  try dsimp only
  repeat' first
    | with_reducible assumption
    | with_reducible apply State.poisonReads_pres C
    | (with_reducible apply OnFst.fst; with_reducible apply State.poisonReads_pres C)
    | with_reducible apply State.recKey_pres C
    | with_reducible apply State.setChan_pres C
    | with_reducible apply State.release_pres C
    | with_reducible apply State.flushRereads_pres C
    | with_reducible apply pres_ite
    | with_reducible intro _
    | with_reducible refine OnFst.eq ?_ (by with_reducible assumption)
    | fail_if_no_progress with_reducible apply C.update
    | with_reducible apply OnFst.mk

theorem State.thawed_pres (C : Quiet P) {s : State} (a1 : ℕ) (a2 : BitVec 2) (a3 : ℕ) (h : P s) : P (State.thawed s a1 a2 a3) := by
  unfold State.thawed
  try dsimp only
  repeat' first
    | with_reducible assumption
    | with_reducible apply State.recKey_pres C
    | with_reducible apply State.modChan_pres C
    | with_reducible apply State.endHandle_pres C
    | split

theorem State.drainWrite_pres (C : Quiet P) {s : State} (a1 : ℕ) (a2 : QWrite) (h : P s) : P (State.drainWrite s a1 a2) := by
  unfold State.drainWrite
  try dsimp only
  repeat' first
    | with_reducible assumption
    | with_reducible apply State.dramTouch_pres C
    | with_reducible apply State.memPut_pres C
    | with_reducible apply State.modChan_pres C
    | with_reducible intro _
    | fail_if_no_progress with_reducible apply C.update

theorem State.drainLine_pres (C : Quiet P) {s : State} (a1 : ℕ) (a2 : LineNo) (h : P s) : P (State.drainLine s a1 a2) := by
  unfold State.drainLine
  try dsimp only
  repeat' first
    | with_reducible assumption
    | with_reducible apply State.drainWrite_pres C
    | with_reducible intro _
    | fail_if_no_progress with_reducible apply C.update
    | split

theorem State.drainOldest_pres (C : Quiet P) {s : State} (a1 : ℕ) (h : P s) : P (State.drainOldest s a1) := by
  unfold State.drainOldest
  try dsimp only
  repeat' first
    | with_reducible assumption
    | with_reducible apply State.drainWrite_pres C
    | with_reducible intro _
    | fail_if_no_progress with_reducible apply C.update
    | split

theorem State.drainAll_pres (C : Quiet P) {s : State} (a1 : ℕ) (h : P s) : P (State.drainAll s a1) := by
  unfold State.drainAll
  try dsimp only
  repeat' first
    | with_reducible assumption
    | with_reducible apply State.drainWrite_pres C
    | with_reducible apply pres_fold
    | with_reducible intro _

theorem State.drainTo_pres (C : Quiet P) {s : State} (a1 : ℕ) (h : P s) : P (State.drainTo s a1) := by
  unfold State.drainTo
  try dsimp only
  repeat' first
    | with_reducible assumption
    | with_reducible apply State.modChan_pres C
    | with_reducible apply State.drainOldest_pres C
    | with_reducible apply pres_ite
    | with_reducible apply pres_forN
    | with_reducible intro _
    | fail_if_no_progress with_reducible apply C.update

theorem State.queueWrite_pres (C : Quiet P) {s : State} (a1 : ℕ) (a2 : LineNo) (a3 : LineVal) (a4 : Bool) (h : P s) : P (State.queueWrite s a1 a2 a3 a4) := by
  unfold State.queueWrite
  try dsimp only
  repeat' first
    | with_reducible assumption
    | with_reducible apply State.modChan_pres C
    | with_reducible apply State.drainOldest_pres C
    | with_reducible apply pres_ite
    | with_reducible intro _
    | fail_if_no_progress with_reducible apply C.update

theorem State.memWrite_pres (C : Quiet P) {s : State} (a1 : LineNo) (a2 : LineVal) (a3 : Bool) (h : P s) : P (State.memWrite s a1 a2 a3) := by
  unfold State.memWrite
  try dsimp only
  repeat' first
    | with_reducible assumption
    | with_reducible apply State.queueWrite_pres C
    | with_reducible apply State.modChan_pres C
    | with_reducible apply State.memPut_pres C
    | split

theorem State.memRead_pres (C : Quiet P) {s : State} (a1 : LineNo) (h : P s) : OnFst P (State.memRead s a1) := by
  unfold State.memRead
  try dsimp only
  repeat' first
    | with_reducible assumption
    | with_reducible apply State.modChan_pres C
    | with_reducible exact OnFst.get (by with_reducible assumption)
    | with_reducible intro _
    | with_reducible refine OnFst.eq ?_ (by with_reducible assumption)
    | fail_if_no_progress with_reducible apply C.update
    | split
    | with_reducible apply OnFst.mk

theorem State.readDram_pres (C : Quiet P) {s : State} (a1 : ℕ) (a2 : LineNo) (a3 : BitVec 640) (a4 : Xid) (h : P s) : OnFst P (State.readDram s a1 a2 a3 a4) := by
  unfold State.readDram
  try dsimp only
  repeat' first
    | with_reducible assumption
    | with_reducible apply State.dramTouch_pres C
    | with_reducible apply State.drainLine_pres C
    | (with_reducible apply OnFst.fst; with_reducible apply State.freeze_pres C)
    | with_reducible apply State.queueWrite_pres C
    | with_reducible apply State.modChan_pres C
    | with_reducible apply pres_ite
    | with_reducible intro _
    | split
    | with_reducible apply OnFst.mk

theorem State.reread_pres (C : Quiet P) {s : State} (a1 : ℕ) (a2 : BitVec 640) (h : P s) : OnFst P (State.reread s a1 a2) := by
  unfold State.reread
  try dsimp only
  repeat' first
    | with_reducible assumption
    | with_reducible apply State.countCe_pres C
    | with_reducible apply State.modChan_pres C
    | with_reducible apply State.queueWrite_pres C
    | with_reducible apply State.freeze_pres C
    | (with_reducible apply OnFst.fst; with_reducible apply State.freeze_pres C)
    | with_reducible apply State.dramTouch_pres C
    | with_reducible apply pres_ite
    | with_reducible apply pres_fold
    | with_reducible exact OnFst.get (by with_reducible assumption)
    | with_reducible intro _
    | with_reducible refine OnFst.eq ?_ (by with_reducible assumption)
    | fail_if_no_progress with_reducible apply C.update
    | split
    | with_reducible apply OnFst.mk

theorem State.beginTraining_pres (C : Quiet P) {s : State} (a1 : ℕ) (h : P s) : OnFst P (State.beginTraining s a1) := by
  unfold State.beginTraining
  try dsimp only
  repeat' first
    | with_reducible assumption
    | with_reducible apply State.poisonReads_pres C
    | (with_reducible apply OnFst.fst; with_reducible apply State.poisonReads_pres C)
    | with_reducible apply State.modChan_pres C
    | with_reducible apply State.flushRereads_pres C
    | with_reducible intro _
    | with_reducible refine OnFst.eq ?_ (by with_reducible assumption)
    | fail_if_no_progress with_reducible apply C.update
    | with_reducible apply OnFst.mk

theorem State.claimTraining_pres (C : Quiet P) {s : State} (a1 : ℕ) (h : P s) : OnFst P (State.claimTraining s a1) := by
  unfold State.claimTraining
  try dsimp only
  repeat' first
    | with_reducible assumption
    | with_reducible apply State.claim_pres C
    | with_reducible apply State.beginTraining_pres C
    | with_reducible apply State.recKey_pres C
    | with_reducible apply State.modChan_pres C
    | with_reducible refine OnFst.eq ?_ (by with_reducible assumption)
    | split
    | with_reducible apply OnFst.mk

theorem State.retryTraining_pres (C : Quiet P) {s : State} (a1 : ℕ) (h : P s) : OnFst P (State.retryTraining s a1) := by
  unfold State.retryTraining
  try dsimp only
  repeat' first
    | with_reducible assumption
    | with_reducible apply State.claimTraining_pres C
    | (with_reducible apply OnFst.fst; with_reducible apply State.claimTraining_pres C)
    | with_reducible apply pres_ite
    | with_reducible intro _
    | with_reducible refine OnFst.eq ?_ (by with_reducible assumption)
    | with_reducible apply OnFst.mk

theorem State.trainingEnds_pres (C : Quiet P) {s : State} (a1 : ℕ) (a2 : Bool) (h : P s) : OnFst P (State.trainingEnds s a1 a2) := by
  unfold State.trainingEnds
  try dsimp only
  repeat' first
    | with_reducible assumption
    | with_reducible apply State.modChan_pres C
    | with_reducible apply State.release_pres C
    | (with_reducible apply OnFst.fst; with_reducible apply State.chanFail_pres C)
    | with_reducible apply State.thawed_pres C
    | with_reducible apply State.endHandle_pres C
    | with_reducible apply pres_ite
    | with_reducible intro _
    | split
    | with_reducible apply OnFst.mk

theorem State.fillEnds_pres (C : Quiet P) {s : State} (a1 : ℕ) (h : P s) : P (State.fillEnds s a1) := by
  unfold State.fillEnds
  try dsimp only
  repeat' first
    | with_reducible assumption
    | with_reducible apply State.modChan_pres C
    | with_reducible apply State.fillEighths_pres C
    | with_reducible apply State.thawed_pres C
    | with_reducible apply State.endHandle_pres C
    | with_reducible apply pres_ite
    | with_reducible intro _
    | split

theorem State.caError_pres (C : Quiet P) {s : State} (a1 : ℕ) (a2 : Option LineNo) (h : P s) : OnFst P (State.caError s a1 a2) := by
  unfold State.caError
  try dsimp only
  repeat' first
    | with_reducible assumption
    | with_reducible apply State.recKey_pres C
    | with_reducible apply State.modChan_pres C
    | with_reducible apply State.endHandle_pres C
    | with_reducible apply State.thawed_pres C
    | with_reducible apply State.chanFail_pres C
    | (with_reducible apply OnFst.fst; with_reducible apply State.chanFail_pres C)
    | with_reducible apply State.freeze_pres C
    | (with_reducible apply OnFst.fst; with_reducible apply State.freeze_pres C)
    | with_reducible apply pres_ite
    | with_reducible exact OnFst.get (by with_reducible assumption)
    | with_reducible intro _
    | with_reducible refine OnFst.eq ?_ (by with_reducible assumption)
    | fail_if_no_progress with_reducible apply C.update
    | split
    | with_reducible apply OnFst.mk

theorem execDramWrite_pres (C : Quiet P) (a1 : Fin 24) {s : State} (h : P s) : OnNext P (execDramWrite a1 s) := by
  unfold execDramWrite
  try dsimp only
  repeat' first
    | with_reducible assumption
    | with_reducible apply State.modChan_pres C
    | with_reducible apply State.drainOldest_pres C
    | with_reducible apply pres_ite
    | with_reducible apply OnNext.mk
    | with_reducible intro _
    | fail_if_no_progress with_reducible apply C.update

theorem execRefsb_pres (C : Quiet P) (a1 : Fin 24) (a2 : Bool) {s : State} (h : P s) : OnNext P (execRefsb a1 a2 s) := by
  unfold execRefsb
  try dsimp only
  repeat' first
    | with_reducible assumption
    | with_reducible apply State.modChan_pres C
    | with_reducible apply pres_ite
    | with_reducible apply OnNext.mk
    | with_reducible intro _
    | fail_if_no_progress with_reducible apply C.update
    | split

theorem execMemThrottled_pres (C : Quiet P) (a1 : Fin 24) (a2 : BitVec 16) {s : State} (h : P s) : OnNext P (execMemThrottled a1 a2 s) := by
  unfold execMemThrottled
  try dsimp only
  repeat' first
    | with_reducible assumption
    | with_reducible apply State.recKey_pres C
    | with_reducible apply State.modChan_pres C
    | with_reducible apply pres_ite
    | with_reducible apply OnNext.mk
    | with_reducible intro _
    | fail_if_no_progress with_reducible apply C.update

theorem execSampledRowRefresh_pres (C : Quiet P) (a1 : Fin 24) (a2 : BitVec 16) (a3 : BitVec 32) {s : State} (h : P s) : OnNext P (execSampledRowRefresh a1 a2 a3 s) := by
  unfold execSampledRowRefresh
  try dsimp only
  repeat' first
    | with_reducible assumption
    | with_reducible apply State.modChan_pres C
    | with_reducible apply pres_ite
    | with_reducible apply OnNext.mk
    | with_reducible intro _
    | fail_if_no_progress with_reducible apply C.update

theorem execTallyClear_pres (C : Quiet P) (a1 : Fin 24) {s : State} (h : P s) : OnNext P (execTallyClear a1 s) := by
  unfold execTallyClear
  try dsimp only
  repeat' first
    | with_reducible assumption
    | with_reducible apply State.modChan_pres C
    | with_reducible apply pres_ite
    | with_reducible apply OnNext.mk
    | with_reducible intro _
    | fail_if_no_progress with_reducible apply C.update

theorem execTrackingRetrain_pres (C : Quiet P) (a1 : Fin 24) {s : State} (h : P s) : OnNext P (execTrackingRetrain a1 s) := by
  unfold execTrackingRetrain
  try dsimp only
  repeat' first
    | with_reducible assumption
    | with_reducible apply State.modChan_pres C
    | with_reducible apply State.release_pres C
    | with_reducible apply State.claim_pres C
    | (with_reducible apply OnFst.fst; with_reducible apply State.claim_pres C)
    | with_reducible apply pres_ite
    | with_reducible apply OnNext.mk
    | with_reducible exact OnFst.get (by with_reducible assumption)
    | with_reducible intro _
    | with_reducible refine OnFst.eq ?_ (by with_reducible assumption)
    | fail_if_no_progress with_reducible apply C.update
    | split
    | with_reducible apply OnFst.mk

theorem execPoisonFillDone_pres (C : Quiet P) (a1 : Fin 24) {s : State} (h : P s) : OnNext P (execPoisonFillDone a1 s) := by
  unfold execPoisonFillDone
  try dsimp only
  repeat' first
    | with_reducible assumption
    | with_reducible apply State.fillEnds_pres C
    | with_reducible apply pres_ite
    | with_reducible apply OnNext.mk
    | with_reducible intro _

end Sys2Proof.Machine
end

