-- ==== Sys2Proof/Laws/KeepLink.lean ====
section
/-! SUPPORT. What the operations of Machine/Link.lean keep. -/

namespace Sys2Proof.Machine

variable {P : State → Prop}

theorem State.portSend_pres (C : Quiet P) {s : State} (a1 : ℕ) (a2 : PortTx) (a3 : ℕ) (h : P s) : P (State.portSend s a1 a2 a3) := by
  unfold State.portSend
  try dsimp only
  repeat' first
    | with_reducible assumption
    | with_reducible apply State.sndKey_pres C
    | with_reducible apply State.modPort_pres C

theorem State.nonPosted_pres (C : Quiet P) {s : State} (a1 : ℕ) (a2 : PortSrc) (a3 : ℕ) (a4 : ℕ) (a5 : Option (List Octet)) (h : P s) : P (State.nonPosted s a1 a2 a3 a4 a5) := by
  unfold State.nonPosted
  try dsimp only
  repeat' first
    | with_reducible assumption
    | with_reducible apply State.portSend_pres C
    | with_reducible apply State.modPort_pres C
    | with_reducible apply pres_ite
    | with_reducible intro _

theorem State.looseSend_pres (C : Quiet P) {s : State} (a1 : ℕ) (a2 : LineBits) (a3 : ℕ) (a4 : ℕ) (h : P s) : OnFst P (State.looseSend s a1 a2 a3 a4) := by
  unfold State.looseSend
  try dsimp only
  repeat' first
    | with_reducible assumption
    | with_reducible apply State.modPort_pres C
    | with_reducible apply OnFst.mk

theorem State.memRd_pres (C : Quiet P) {s : State} (a1 : ℕ) (a2 : LineNo) (a3 : ℕ) (h : P s) : P (State.memRd s a1 a2 a3) := by
  unfold State.memRd
  try dsimp only
  repeat' first
    | with_reducible assumption
    | with_reducible apply State.portSend_pres C
    | with_reducible apply State.modPort_pres C
    | with_reducible apply pres_ite
    | with_reducible intro _
    | split

theorem State.cxlRead_pres (C : Quiet P) {s : State} (a1 : OWin) (a2 : LineNo) (h : P s) : OnFst P (State.cxlRead s a1 a2) := by
  unfold State.cxlRead
  try dsimp only
  repeat' first
    | with_reducible assumption
    | with_reducible apply State.memRd_pres C
    | with_reducible apply State.modPort_pres C
    | with_reducible apply pres_ite
    | with_reducible apply pres_fold
    | (with_reducible apply OnFst.fst; with_reducible apply pres_fold)
    | with_reducible exact OnFst.fst (by with_reducible assumption)
    | with_reducible intro _
    | with_reducible refine OnFst.eq ?_ (by with_reducible assumption)
    | fail_if_no_progress with_reducible apply C.update
    | with_reducible apply OnFst.mk

theorem State.cxlWrite_pres (C : Quiet P) {s : State} (a1 : OWin) (a2 : LineNo) (a3 : LineVal) (h : P s) : P (State.cxlWrite s a1 a2 a3) := by
  unfold State.cxlWrite
  try dsimp only
  repeat' first
    | with_reducible assumption
    | with_reducible apply State.portSend_pres C
    | with_reducible apply State.looseSend_pres C
    | (with_reducible apply OnFst.fst; with_reducible apply State.looseSend_pres C)
    | with_reducible apply State.modPort_pres C
    | with_reducible apply pres_ite
    | with_reducible apply pres_fold
    | (with_reducible apply OnFst.fst; with_reducible apply pres_fold)
    | with_reducible exact OnFst.fst (by with_reducible assumption)
    | with_reducible apply pres_forN
    | with_reducible exact OnFst.get (by with_reducible assumption)
    | with_reducible intro _
    | with_reducible refine OnFst.eq ?_ (by with_reducible assumption)
    | split
    | with_reducible apply OnFst.mk

end Sys2Proof.Machine
end

