-- ==== Sys2Proof/Laws/KeepHome.lean ====
section
/-! SUPPORT. What the operations of Machine/Home.lean keep. -/

namespace Sys2Proof.Machine

variable {P : State → Prop}

theorem State.setTxn_pres (C : Quiet P) {s : State} (a1 : LineNo) (a2 : Txn) (h : P s) : P (State.setTxn s a1 a2) := by
  unfold State.setTxn
  try dsimp only
  repeat' first
    | with_reducible assumption
    | fail_if_no_progress with_reducible apply C.update

theorem State.homeRead_pres (C : Quiet P) {s : State} (a1 : LineNo) (h : P s) : OnFst P (State.homeRead s a1) := by
  unfold State.homeRead
  try dsimp only
  repeat' first
    | with_reducible assumption
    | with_reducible apply State.memRead_pres C
    | (with_reducible apply OnFst.fst; with_reducible apply State.memRead_pres C)
    | with_reducible apply State.cxlRead_pres C
    | (with_reducible apply OnFst.fst; with_reducible apply State.cxlRead_pres C)
    | with_reducible exact OnFst.get (by with_reducible assumption)
    | with_reducible intro _
    | with_reducible refine OnFst.eq ?_ (by with_reducible assumption)
    | fail_if_no_progress with_reducible apply C.update
    | split
    | with_reducible apply OnFst.mk

theorem State.homeWrite_pres (C : Quiet P) {s : State} (a1 : LineNo) (a2 : LineVal) (a3 : Bool) (h : P s) : P (State.homeWrite s a1 a2 a3) := by
  unfold State.homeWrite
  try dsimp only
  repeat' first
    | with_reducible assumption
    | with_reducible apply State.memWrite_pres C
    | with_reducible apply State.cxlRead_pres C
    | (with_reducible apply OnFst.fst; with_reducible apply State.cxlRead_pres C)
    | with_reducible apply State.cxlWrite_pres C
    | with_reducible apply pres_ite
    | with_reducible exact OnFst.get (by with_reducible assumption)
    | with_reducible intro _
    | with_reducible refine OnFst.eq ?_ (by with_reducible assumption)
    | fail_if_no_progress with_reducible apply C.update
    | split
    | with_reducible apply OnFst.mk

theorem State.setEntry_pres (C : Quiet P) {s : State} (a1 : LineNo) (a2 : Entry) (h : P s) : P (State.setEntry s a1 a2) := by
  unfold State.setEntry
  try dsimp only
  repeat' first
    | with_reducible assumption
    | fail_if_no_progress with_reducible apply C.update

theorem State.dropTxn_pres (C : Quiet P) {s : State} (a1 : LineNo) (h : P s) : P (State.dropTxn s a1) := by
  unfold State.dropTxn
  try dsimp only
  repeat' first
    | with_reducible assumption
    | fail_if_no_progress with_reducible apply C.update

theorem State.setQueue_pres (C : Quiet P) {s : State} (a1 : LineNo) (a2 : List Msg) (h : P s) : P (State.setQueue s a1 a2) := by
  unfold State.setQueue
  try dsimp only
  repeat' first
    | with_reducible assumption
    | fail_if_no_progress with_reducible apply C.update

theorem State.send_pres (C : Quiet P) {s : State} (a1 : Msg) (h : P s) : P (State.send s a1) := by
  unfold State.send
  try dsimp only
  repeat' first
    | with_reducible assumption
    | with_reducible apply pres_ite
    | with_reducible intro _
    | fail_if_no_progress with_reducible apply C.update

theorem State.snoops_pres (C : Quiet P) {s : State} (a1 : MsgTy) (a2 : List (BitVec 4)) (a3 : Msg) (a4 : BitVec 2) (h : P s) : P (State.snoops s a1 a2 a3 a4) := by
  unfold State.snoops
  try dsimp only
  repeat' first
    | with_reducible assumption
    | with_reducible apply State.send_pres C
    | with_reducible apply pres_fold
    | with_reducible intro _

theorem State.freeToken_pres (C : Quiet P) {s : State} (a1 : ℕ) (a2 : Msg) (h : P s) : P (State.freeToken s a1 a2) := by
  unfold State.freeToken
  try dsimp only
  repeat' first
    | with_reducible assumption
    | with_reducible apply State.modSlice_pres C
    | split

theorem State.reserve_pres (C : Quiet P) {s : State} (a1 : ℕ) (a2 : Resource) (h : P s) : P (State.reserve s a1 a2) := by
  unfold State.reserve
  try dsimp only
  repeat' first
    | with_reducible assumption
    | with_reducible apply State.modSlice_pres C
    | with_reducible intro _
    | fail_if_no_progress with_reducible apply C.update
    | split

theorem State.rebind_pres (C : Quiet P) {s : State} (a1 : ℕ) (a2 : BitVec 6) (a3 : Resource) (h : P s) : P (State.rebind s a1 a2 a3) := by
  unfold State.rebind
  try dsimp only
  repeat' first
    | with_reducible assumption
    | with_reducible apply State.reserve_pres C
    | with_reducible apply State.modSlice_pres C
    | with_reducible apply pres_ite
    | with_reducible apply pres_fold
    | (with_reducible apply OnFst.fst; with_reducible apply pres_fold)
    | with_reducible exact OnFst.fst (by with_reducible assumption)
    | with_reducible exact OnFst.get (by with_reducible assumption)
    | with_reducible intro _
    | with_reducible refine OnFst.eq ?_ (by with_reducible assumption)
    | fail_if_no_progress with_reducible apply C.update
    | split
    | with_reducible apply OnFst.mk

theorem State.busy_pres (C : Quiet P) {s : State} (a1 : ℕ) (a2 : Msg) (a3 : Resource) (h : P s) : P (State.busy s a1 a2 a3) := by
  unfold State.busy
  try dsimp only
  repeat' first
    | with_reducible assumption
    | with_reducible apply State.send_pres C
    | with_reducible apply State.modSlice_pres C
    | with_reducible apply State.rebind_pres C
    | with_reducible apply State.sndKey_pres C
    | with_reducible intro _
    | fail_if_no_progress with_reducible apply C.update
    | split

theorem State.ageSet_pres (C : Quiet P) {s : State} (a1 : LineNo) (h : P s) : P (State.ageSet s a1) := by
  unfold State.ageSet
  try dsimp only
  repeat' first
    | with_reducible assumption
    | with_reducible apply State.setEntry_pres C
    | with_reducible apply pres_fold
    | with_reducible intro _

theorem State.askMem_pres (C : Quiet P) {s : State} (a1 : LineNo) (a2 : Txn) (h : P s) : P (State.askMem s a1 a2) := by
  unfold State.askMem
  try dsimp only
  repeat' first
    | with_reducible assumption
    | with_reducible apply State.setTxn_pres C
    | with_reducible apply State.homeRead_pres C
    | (with_reducible apply OnFst.fst; with_reducible apply State.homeRead_pres C)
    | with_reducible exact OnFst.get (by with_reducible assumption)
    | with_reducible intro _
    | with_reducible refine OnFst.eq ?_ (by with_reducible assumption)
    | fail_if_no_progress with_reducible apply C.update
    | split
    | with_reducible apply OnFst.mk

theorem State.sendSnoops_pres (C : Quiet P) {s : State} (a1 : LineNo) (a2 : Txn) (a3 : BitVec 2) (a4 : Option MsgTy) (a5 : Option MsgTy) (h : P s) : OnFst P (State.sendSnoops s a1 a2 a3 a4 a5) := by
  unfold State.sendSnoops
  try dsimp only
  repeat' first
    | with_reducible assumption
    | with_reducible apply State.snoops_pres C
    | with_reducible apply State.setTxn_pres C
    | split
    | with_reducible apply OnFst.mk

theorem State.entryRead_pres (C : Quiet P) {s : State} (a1 : LineNo) (h : P s) : P (State.entryRead s a1) := by
  unfold State.entryRead
  try dsimp only
  repeat' first
    | with_reducible assumption
    | with_reducible apply pres_ite
    | with_reducible intro _
    | fail_if_no_progress with_reducible apply C.update

theorem State.openTxn_pres (C : Quiet P) {s : State} (a1 : Msg) (a2 : Option (Fin 16)) (h : P s) : P (State.openTxn s a1 a2) := by
  unfold State.openTxn
  try dsimp only
  repeat' first
    | with_reducible assumption
    | with_reducible apply State.setTxn_pres C
    | with_reducible apply State.sendSnoops_pres C
    | (with_reducible apply OnFst.fst; with_reducible apply State.sendSnoops_pres C)
    | with_reducible apply State.askMem_pres C
    | with_reducible apply State.setEntry_pres C
    | with_reducible apply State.entryRead_pres C
    | with_reducible apply pres_ite
    | with_reducible exact OnFst.get (by with_reducible assumption)
    | with_reducible intro _
    | with_reducible refine OnFst.eq ?_ (by with_reducible assumption)
    | fail_if_no_progress with_reducible apply C.update
    | split
    | with_reducible apply OnFst.mk

theorem State.openRecall_pres (C : Quiet P) {s : State} (a1 : LineNo) (a2 : Msg) (h : P s) : P (State.openRecall s a1 a2) := by
  unfold State.openRecall
  try dsimp only
  repeat' first
    | with_reducible assumption
    | with_reducible apply State.sndKey_pres C
    | with_reducible apply State.modSlice_pres C
    | (with_reducible apply OnFst.fst; with_reducible apply State.sendSnoops_pres C)

theorem State.purgeMore_pres (C : Quiet P) {s : State} (a1 : BitVec 4) (a2 : LineNo) (h : P s) : P (State.purgeMore s a1 a2) := by
  unfold State.purgeMore
  try dsimp only
  repeat' first
    | with_reducible assumption
    | with_reducible apply State.recKey_pres C
    | with_reducible apply pres_ite
    | with_reducible intro _
    | fail_if_no_progress with_reducible apply C.update

theorem State.grant_pres (C : Quiet P) {s : State} (a1 : LineNo) (a2 : Txn) (h : P s) : P (State.grant s a1 a2) := by
  unfold State.grant
  try dsimp only
  repeat' first
    | with_reducible assumption
    | with_reducible apply State.setEntry_pres C
    | with_reducible apply State.homeWrite_pres C
    | with_reducible apply State.send_pres C
    | with_reducible apply State.purgeMore_pres C
    | with_reducible apply State.setTxn_pres C
    | with_reducible apply pres_ite
    | with_reducible intro _
    | fail_if_no_progress with_reducible apply C.update
    | split

theorem State.progress_pres (C : Quiet P) {s : State} (a1 : LineNo) (h : P s) : P (State.progress s a1) := by
  unfold State.progress
  try dsimp only
  repeat' first
    | with_reducible assumption
    | with_reducible apply State.askMem_pres C
    | with_reducible apply State.grant_pres C
    | with_reducible apply pres_ite
    | with_reducible intro _
    | split

theorem State.close_pres (C : Quiet P) {s : State} (a1 : LineNo) (h : P s) : P (State.close s a1) := by
  unfold State.close
  try dsimp only
  repeat' first
    | with_reducible assumption
    | with_reducible apply State.reserve_pres C
    | with_reducible apply State.progress_pres C
    | with_reducible apply State.openTxn_pres C
    | with_reducible apply State.dropTxn_pres C
    | with_reducible apply State.send_pres C
    | with_reducible apply pres_ite
    | with_reducible intro _
    | fail_if_no_progress with_reducible apply C.update
    | split

theorem State.settle_pres (C : Quiet P) {s : State} (a1 : LineNo) (h : P s) : P (State.settle s a1) := by
  unfold State.settle
  try dsimp only
  repeat' first
    | with_reducible assumption
    | with_reducible apply State.progress_pres C
    | with_reducible apply State.close_pres C
    | split

theorem State.purgeLine_pres (C : Quiet P) {s : State} (a1 : ℕ) (a2 : LineNo) (h : P s) : OnFst P (State.purgeLine s a1 a2) := by
  unfold State.purgeLine
  try dsimp only
  repeat' first
    | with_reducible assumption
    | with_reducible apply State.setEntry_pres C
    | with_reducible apply State.reserve_pres C
    | with_reducible apply State.dropTxn_pres C
    | with_reducible apply State.homeWrite_pres C
    | with_reducible apply State.settle_pres C
    | with_reducible apply State.setTxn_pres C
    | with_reducible apply State.snoops_pres C
    | with_reducible apply pres_ite
    | with_reducible exact OnFst.get (by with_reducible assumption)
    | with_reducible intro _
    | with_reducible refine OnFst.eq ?_ (by with_reducible assumption)
    | fail_if_no_progress with_reducible apply C.update
    | split
    | with_reducible apply OnFst.mk

theorem State.purgeDemand_pres (C : Quiet P) {s : State} (a1 : LineNo) (h : P s) : P (State.purgeDemand s a1) := by
  unfold State.purgeDemand
  try dsimp only
  repeat' first
    | with_reducible assumption
    | with_reducible apply State.purgeMore_pres C
    | with_reducible apply State.purgeLine_pres C
    | (with_reducible apply OnFst.fst; with_reducible apply State.purgeLine_pres C)
    | with_reducible apply pres_ite
    | with_reducible apply pres_fold
    | (with_reducible apply OnFst.fst; with_reducible apply pres_fold)
    | with_reducible exact OnFst.fst (by with_reducible assumption)
    | with_reducible exact OnFst.get (by with_reducible assumption)
    | with_reducible intro _
    | with_reducible refine OnFst.eq ?_ (by with_reducible assumption)
    | split
    | with_reducible apply OnFst.mk

theorem State.homeRequest_pres (C : Quiet P) {s : State} (a1 : Msg) (h : P s) : P (State.homeRequest s a1) := by
  unfold State.homeRequest
  try dsimp only
  repeat' first
    | with_reducible assumption
    | with_reducible apply State.settle_pres C
    | with_reducible apply State.openTxn_pres C
    | with_reducible apply State.busy_pres C
    | with_reducible apply State.openRecall_pres C
    | with_reducible apply State.setTxn_pres C
    | with_reducible apply State.ageSet_pres C
    | with_reducible apply State.setQueue_pres C
    | with_reducible apply State.sndKey_pres C
    | with_reducible apply State.freeToken_pres C
    | with_reducible apply State.purgeDemand_pres C
    | with_reducible apply State.send_pres C
    | with_reducible apply pres_ite
    | with_reducible intro _
    | fail_if_no_progress with_reducible apply C.update
    | split

theorem State.openQueued_pres (C : Quiet P) {s : State} (a1 : LineNo) (h : P s) : P (State.openQueued s a1) := by
  unfold State.openQueued
  try dsimp only
  repeat' first
    | with_reducible assumption
    | with_reducible apply State.settle_pres C
    | with_reducible apply State.openTxn_pres C
    | with_reducible apply State.setQueue_pres C
    | with_reducible apply State.openRecall_pres C
    | with_reducible apply State.setTxn_pres C
    | with_reducible apply State.ageSet_pres C
    | with_reducible apply State.purgeDemand_pres C
    | with_reducible apply pres_ite
    | with_reducible intro _
    | fail_if_no_progress with_reducible apply C.update
    | split

theorem State.homeEvict_pres (C : Quiet P) {s : State} (a1 : Msg) (h : P s) : P (State.homeEvict s a1) := by
  unfold State.homeEvict
  try dsimp only
  repeat' first
    | with_reducible assumption
    | with_reducible apply State.homeWrite_pres C
    | with_reducible apply State.settle_pres C
    | with_reducible apply State.setTxn_pres C
    | with_reducible apply State.send_pres C
    | with_reducible apply State.setEntry_pres C
    | with_reducible apply pres_ite
    | with_reducible intro _
    | split

theorem State.homeAnswer_pres (C : Quiet P) {s : State} (a1 : Msg) (h : P s) : P (State.homeAnswer s a1) := by
  unfold State.homeAnswer
  try dsimp only
  repeat' first
    | with_reducible assumption
    | with_reducible apply State.modSlice_pres C
    | with_reducible apply State.settle_pres C
    | with_reducible apply State.setTxn_pres C
    | with_reducible apply pres_ite
    | with_reducible intro _
    | split

theorem State.memAnswer_pres (C : Quiet P) {s : State} (a1 : LineNo) (a2 : LineVal) (h : P s) : P (State.memAnswer s a1 a2) := by
  unfold State.memAnswer
  try dsimp only
  repeat' first
    | with_reducible assumption
    | with_reducible apply State.settle_pres C
    | with_reducible apply State.setTxn_pres C
    | with_reducible apply pres_ite
    | with_reducible intro _
    | split

theorem State.cxlAnswer_pres (C : Quiet P) {s : State} (a1 : LineNo) (h : P s) : P (State.cxlAnswer s a1) := by
  unfold State.cxlAnswer
  try dsimp only
  repeat' first
    | with_reducible assumption
    | with_reducible apply State.settle_pres C
    | with_reducible apply State.setTxn_pres C
    | with_reducible apply State.homeRead_pres C
    | (with_reducible apply OnFst.fst; with_reducible apply State.homeRead_pres C)
    | with_reducible apply pres_ite
    | with_reducible exact OnFst.get (by with_reducible assumption)
    | with_reducible intro _
    | with_reducible refine OnFst.eq ?_ (by with_reducible assumption)
    | fail_if_no_progress with_reducible apply C.update
    | split
    | with_reducible apply OnFst.mk

theorem State.keepAsk_pres (C : Quiet P) {s : State} (a1 : State) (h1 : P a1) (a2 : LineNo) (h : P s) : P (State.keepAsk s a1 a2) := by
  unfold State.keepAsk
  try dsimp only
  repeat' first
    | with_reducible assumption
    | with_reducible apply State.cxlRead_pres C
    | (with_reducible apply OnFst.fst; with_reducible apply State.cxlRead_pres C)
    | with_reducible apply pres_ite
    | with_reducible exact OnFst.get (by with_reducible assumption)
    | with_reducible intro _
    | with_reducible refine OnFst.eq ?_ (by with_reducible assumption)
    | fail_if_no_progress with_reducible apply C.update
    | split
    | with_reducible apply OnFst.mk

theorem State.memAnswers_pres (C : Quiet P) {s : State} (a1 : Answers) (h : P s) : P (State.memAnswers s a1) := by
  unfold State.memAnswers
  try dsimp only
  repeat' first
    | with_reducible assumption
    | with_reducible apply State.memAnswer_pres C
    | with_reducible apply pres_fold
    | with_reducible intro _

end Sys2Proof.Machine
end

