-- ==== Sys2Proof/Laws/KeepCache.lean ====
section
/-! SUPPORT. What the operations of Machine/Cache.lean keep. -/

namespace Sys2Proof.Machine

variable {P : State → Prop}

theorem State.dropCaches_pres (C : Quiet P) {s : State} (a1 : ℕ) (a2 : ℕ) (h : P s) : P (State.dropCaches s a1 a2) := by
  unfold State.dropCaches
  try dsimp only
  repeat' first
    | with_reducible assumption
    | with_reducible apply State.modIsle_pres C
    | with_reducible apply State.modCore_pres C
    | with_reducible apply pres_fold
    | with_reducible intro _
    | fail_if_no_progress with_reducible apply C.update

theorem State.cleanCaches_pres (C : Quiet P) {s : State} (a1 : ℕ) (a2 : ℕ) (h : P s) : P (State.cleanCaches s a1 a2) := by
  unfold State.cleanCaches
  try dsimp only
  repeat' first
    | with_reducible assumption
    | with_reducible apply State.modCore_pres C
    | with_reducible apply State.modIsle_pres C
    | with_reducible apply pres_fold
    | with_reducible intro _

theorem State.modArrErr_pres (C : Quiet P) {s : State} (a1 : ℕ) (a2 : Arr) (a3 : Store (BitVec 2) → Store (BitVec 2)) (h : P s) : P (State.modArrErr s a1 a2 a3) := by
  unfold State.modArrErr
  try dsimp only
  repeat' first
    | with_reducible assumption
    | with_reducible apply State.modIsle_pres C
    | with_reducible apply State.modCore_pres C
    | with_reducible intro _
    | fail_if_no_progress with_reducible apply C.update
    | split

theorem State.loseClean_pres (C : Quiet P) {s : State} (a1 : ℕ) (a2 : Arr) (a3 : ℕ) (h : P s) : P (State.loseClean s a1 a2 a3) := by
  unfold State.loseClean
  try dsimp only
  repeat' first
    | with_reducible assumption
    | with_reducible apply State.modIsle_pres C
    | with_reducible apply State.modCore_pres C
    | with_reducible apply pres_ite
    | with_reducible intro _
    | fail_if_no_progress with_reducible apply C.update
    | split

theorem State.arrRead_pres (C : Quiet P) {s : State} (a1 : ℕ) (a2 : Arr) (a3 : ℕ) (a4 : BitVec 64) (a5 : Xid) (h : P s) : P (State.arrRead s a1 a2 a3 a4 a5) := by
  unfold State.arrRead
  try dsimp only
  repeat' first
    | with_reducible assumption
    | with_reducible apply State.recIsle_pres C
    | with_reducible apply State.loseClean_pres C
    | with_reducible apply State.modIsle_pres C
    | with_reducible apply State.modArrErr_pres C
    | with_reducible apply pres_ite
    | with_reducible apply pres_fold
    | (with_reducible apply OnFst.fst; with_reducible apply pres_fold)
    | with_reducible exact OnFst.fst (by with_reducible assumption)
    | with_reducible intro _
    | with_reducible refine OnFst.eq ?_ (by with_reducible assumption)
    | fail_if_no_progress with_reducible apply C.update
    | with_reducible apply OnFst.mk

theorem State.supply_pres (C : Quiet P) {s : State} (a1 : ℕ) (a2 : ℕ) (a3 : Xid) (h : P s) : P (State.supply s a1 a2 a3) := by
  unfold State.supply
  try dsimp only
  repeat' first
    | with_reducible assumption
    | with_reducible apply State.arrRead_pres C
    | with_reducible intro _
    | fail_if_no_progress with_reducible apply C.update
    | split

theorem State.evictLine_pres (C : Quiet P) {s : State} (a1 : ℕ) (a2 : ℕ) (h : P s) : P (State.evictLine s a1 a2) := by
  unfold State.evictLine
  try dsimp only
  repeat' first
    | with_reducible assumption
    | with_reducible apply State.send_pres C
    | with_reducible apply State.modIsle_pres C
    | with_reducible apply State.dropCaches_pres C
    | with_reducible apply State.supply_pres C
    | with_reducible apply pres_ite
    | with_reducible intro _
    | fail_if_no_progress with_reducible apply C.update
    | split

theorem State.evictIfGone_pres (C : Quiet P) {s : State} (a1 : ℕ) (a2 : ℕ) (h : P s) : P (State.evictIfGone s a1 a2) := by
  unfold State.evictIfGone
  try dsimp only
  repeat' first
    | with_reducible assumption
    | with_reducible apply State.evictLine_pres C
    | with_reducible apply pres_ite
    | with_reducible intro _

theorem State.fillIc_pres (C : Quiet P) {s : State} (a1 : ℕ) (a2 : ℕ) (a3 : BitVec 2) (h : P s) : OnSome P (State.fillIc s a1 a2 a3) := by
  unfold State.fillIc
  try dsimp only
  repeat' first
    | with_reducible assumption
    | with_reducible apply State.evictIfGone_pres C
    | with_reducible apply State.modIsle_pres C
    | with_reducible apply State.arrRead_pres C
    | with_reducible apply State.setIsle_pres C
    | with_reducible apply pres_ite
    | with_reducible apply OnSome.map
    | with_reducible exact OnSome.get (by with_reducible assumption)
    | with_reducible apply OnSome.mk
    | with_reducible exact OnSome.none
    | with_reducible intro _
    | with_reducible refine OnSome.eq ?_ (by with_reducible assumption)
    | fail_if_no_progress with_reducible apply C.update
    | split

theorem State.leaveL2_pres (C : Quiet P) {s : State} (a1 : ℕ) (a2 : ℕ) (a3 : ℕ) (h : P s) : P (State.leaveL2 s a1 a2 a3) := by
  unfold State.leaveL2
  try dsimp only
  repeat' first
    | with_reducible assumption
    | with_reducible apply State.evictIfGone_pres C
    | with_reducible apply State.modIsle_pres C
    | with_reducible apply State.modCore_pres C
    | with_reducible apply State.arrRead_pres C
    | with_reducible apply pres_ite
    | with_reducible intro _
    | split

theorem State.fillL2_pres (C : Quiet P) {s : State} (a1 : ℕ) (a2 : ℕ) (a3 : ℕ) (a4 : BitVec 2) (h : P s) : OnSome P (State.fillL2 s a1 a2 a3 a4) := by
  unfold State.fillL2
  try dsimp only
  repeat' first
    | with_reducible assumption
    | with_reducible apply State.modCore_pres C
    | with_reducible apply State.leaveL2_pres C
    | with_reducible apply State.setCore_pres C
    | with_reducible apply pres_ite
    | with_reducible apply OnSome.map
    | with_reducible exact OnSome.get (by with_reducible assumption)
    | with_reducible apply OnSome.mk
    | with_reducible exact OnSome.none
    | with_reducible intro _
    | with_reducible refine OnSome.eq ?_ (by with_reducible assumption)
    | fail_if_no_progress with_reducible apply C.update
    | split

theorem State.fillL1_pres (C : Quiet P) {s : State} (a1 : ℕ) (a2 : ℕ) (a3 : Bool) (a4 : ℕ) (a5 : BitVec 2) (a6 : Bool) (h : P s) : OnSome P (State.fillL1 s a1 a2 a3 a4 a5 a6) := by
  unfold State.fillL1
  try dsimp only
  repeat' first
    | with_reducible assumption
    | with_reducible apply State.modCore_pres C
    | with_reducible apply State.arrRead_pres C
    | with_reducible apply pres_ite
    | with_reducible apply pres_fold
    | with_reducible apply OnSome.map
    | with_reducible exact OnSome.get (by with_reducible assumption)
    | with_reducible apply OnSome.mk
    | with_reducible exact OnSome.none
    | with_reducible intro _
    | with_reducible refine OnSome.eq ?_ (by with_reducible assumption)
    | fail_if_no_progress with_reducible apply C.update
    | split

theorem State.touchIc_pres (C : Quiet P) {s : State} (a1 : ℕ) (a2 : ℕ) (a3 : Bool) (h : P s) : OnSome P (State.touchIc s a1 a2 a3) := by
  unfold State.touchIc
  try dsimp only
  repeat' first
    | with_reducible assumption
    | with_reducible apply State.fillIc_pres C
    | (with_reducible apply OnSome.getD; with_reducible apply State.fillIc_pres C)
    | with_reducible apply State.setIsle_pres C
    | with_reducible apply pres_ite
    | with_reducible exact OnSome.get (by with_reducible assumption)
    | with_reducible apply OnSome.mk
    | with_reducible exact OnSome.none
    | with_reducible intro _
    | with_reducible refine OnSome.eq ?_ (by with_reducible assumption)
    | fail_if_no_progress with_reducible apply C.update
    | split

theorem State.touchL2_pres (C : Quiet P) {s : State} (a1 : ℕ) (a2 : ℕ) (a3 : ℕ) (a4 : Bool) (h : P s) : OnSome P (State.touchL2 s a1 a2 a3 a4) := by
  unfold State.touchL2
  try dsimp only
  repeat' first
    | with_reducible assumption
    | with_reducible apply State.fillL2_pres C
    | (with_reducible apply OnSome.getD; with_reducible apply State.fillL2_pres C)
    | with_reducible apply State.touchIc_pres C
    | (with_reducible apply OnSome.getD; with_reducible apply State.touchIc_pres C)
    | with_reducible apply State.setCore_pres C
    | with_reducible apply pres_ite
    | with_reducible apply OnSome.bind
    | with_reducible exact OnSome.get (by with_reducible assumption)
    | with_reducible apply OnSome.mk
    | with_reducible exact OnSome.none
    | with_reducible intro _
    | with_reducible refine OnSome.eq ?_ (by with_reducible assumption)
    | fail_if_no_progress with_reducible apply C.update
    | split

theorem State.cacheTouch_pres (C : Quiet P) {s : State} (a1 : ℕ) (a2 : ℕ) (a3 : ℕ) (a4 : Via) (a5 : Bool) (a6 : Bool) (h : P s) : OnSome P (State.cacheTouch s a1 a2 a3 a4 a5 a6) := by
  unfold State.cacheTouch
  try dsimp only
  repeat' first
    | with_reducible assumption
    | with_reducible apply State.fillL1_pres C
    | (with_reducible apply OnSome.getD; with_reducible apply State.fillL1_pres C)
    | with_reducible apply State.touchL2_pres C
    | (with_reducible apply OnSome.getD; with_reducible apply State.touchL2_pres C)
    | with_reducible apply State.setCore_pres C
    | with_reducible apply OnSome.bind
    | with_reducible exact OnSome.get (by with_reducible assumption)
    | with_reducible apply OnSome.mk
    | with_reducible exact OnSome.none
    | with_reducible intro _
    | with_reducible refine OnSome.eq ?_ (by with_reducible assumption)
    | fail_if_no_progress with_reducible apply C.update
    | split

theorem State.prefFill_pres (C : Quiet P) {s : State} (a1 : ℕ) (a2 : ℕ) (a3 : ℕ) (a4 : ℕ) (h : P s) : OnSome P (State.prefFill s a1 a2 a3 a4) := by
  unfold State.prefFill
  try dsimp only
  repeat' first
    | with_reducible assumption
    | with_reducible apply State.fillIc_pres C
    | (with_reducible apply OnSome.getD; with_reducible apply State.fillIc_pres C)
    | with_reducible apply State.fillL2_pres C
    | (with_reducible apply OnSome.getD; with_reducible apply State.fillL2_pres C)
    | with_reducible apply State.fillL1_pres C
    | (with_reducible apply OnSome.getD; with_reducible apply State.fillL1_pres C)
    | with_reducible apply pres_ite
    | with_reducible apply OnSome.bind
    | with_reducible exact OnSome.get (by with_reducible assumption)
    | with_reducible apply OnSome.mk
    | with_reducible exact OnSome.none
    | with_reducible intro _
    | with_reducible refine OnSome.eq ?_ (by with_reducible assumption)
    | fail_if_no_progress with_reducible apply C.update
    | split

theorem State.dataRead_pres (C : Quiet P) {s : State} (a1 : ℕ) (a2 : ℕ) (a3 : ℕ) (a4 : Via) (a5 : BitVec 64) (a6 : Bool) (a7 : Xid) (h : P s) : P (State.dataRead s a1 a2 a3 a4 a5 a6 a7) := by
  unfold State.dataRead
  try dsimp only
  repeat' first
    | with_reducible assumption
    | with_reducible apply State.arrRead_pres C
    | with_reducible apply pres_ite
    | with_reducible intro _
    | fail_if_no_progress with_reducible apply C.update
    | split

theorem State.modArrTags_pres (C : Quiet P) {s : State} (a1 : ℕ) (a2 : Arr) (a3 : Store (BitVec 2) → Store (BitVec 2)) (h : P s) : P (State.modArrTags s a1 a2 a3) := by
  unfold State.modArrTags
  try dsimp only
  repeat' first
    | with_reducible assumption
    | with_reducible apply State.modIsle_pres C
    | with_reducible apply State.modCore_pres C
    | with_reducible intro _
    | fail_if_no_progress with_reducible apply C.update
    | split

theorem State.copyError_pres (C : Quiet P) {s : State} (a1 : ℕ) (a2 : ℕ) (a3 : ℕ) (a4 : ℕ) (a5 : BitVec 2) (a6 : Xid) (h : P s) : P (State.copyError s a1 a2 a3 a4 a5 a6) := by
  unfold State.copyError
  try dsimp only
  repeat' first
    | with_reducible assumption
    | with_reducible apply State.recIsle_pres C
    | with_reducible apply State.modStrait_pres C
    | with_reducible apply State.modIsle_pres C
    | with_reducible apply pres_ite
    | with_reducible intro _
    | fail_if_no_progress with_reducible apply C.update

theorem State.tagRead_pres (C : Quiet P) {s : State} (a1 : ℕ) (a2 : Arr) (a3 : ℕ) (a4 : Xid) (h : P s) : P (State.tagRead s a1 a2 a3 a4) := by
  unfold State.tagRead
  try dsimp only
  repeat' first
    | with_reducible assumption
    | with_reducible apply State.copyError_pres C
    | with_reducible apply State.modIsle_pres C
    | with_reducible apply State.modArrTags_pres C
    | with_reducible apply pres_ite
    | with_reducible apply pres_fold
    | (with_reducible apply OnFst.fst; with_reducible apply pres_fold)
    | with_reducible exact OnFst.fst (by with_reducible assumption)
    | with_reducible exact OnFst.get (by with_reducible assumption)
    | with_reducible intro _
    | with_reducible refine OnFst.eq ?_ (by with_reducible assumption)
    | fail_if_no_progress with_reducible apply C.update
    | split
    | with_reducible apply OnFst.mk

end Sys2Proof.Machine
end

