-- ==== Sys2Proof/Laws/KeepAgent.lean ====
section
/-! SUPPORT. What the operations of Machine/Agent.lean keep. -/

namespace Sys2Proof.Machine

variable {P : State → Prop}

theorem State.sendFill_pres (C : Quiet P) {s : State} (a1 : ℕ) (a2 : Msg) (h : P s) : P (State.sendFill s a1 a2) := by
  unfold State.sendFill
  try dsimp only
  repeat' first
    | with_reducible assumption
    | with_reducible apply State.send_pres C
    | with_reducible apply State.modIsle_pres C

theorem State.serveSnoop_pres (C : Quiet P) {s : State} (a1 : ℕ) (a2 : Msg) (h : P s) : P (State.serveSnoop s a1 a2) := by
  unfold State.serveSnoop
  try dsimp only
  repeat' first
    | with_reducible assumption
    | with_reducible apply State.send_pres C
    | with_reducible apply State.sndIsle_pres C
    | with_reducible apply State.modIsle_pres C
    | with_reducible apply State.cleanCaches_pres C
    | with_reducible apply State.dropCaches_pres C
    | with_reducible apply State.supply_pres C
    | with_reducible apply pres_ite
    | with_reducible intro _
    | fail_if_no_progress with_reducible apply C.update
    | split

theorem State.recvSnoop_pres (C : Quiet P) {s : State} (a1 : ℕ) (a2 : Msg) (h : P s) : P (State.recvSnoop s a1 a2) := by
  unfold State.recvSnoop
  try dsimp only
  repeat' first
    | with_reducible assumption
    | with_reducible apply State.serveSnoop_pres C
    | with_reducible apply State.modIsle_pres C
    | with_reducible apply State.sndIsle_pres C
    | with_reducible apply State.tagRead_pres C
    | with_reducible apply pres_ite
    | with_reducible intro _
    | fail_if_no_progress with_reducible apply C.update

theorem State.prefTake_pres (C : Quiet P) {s : State} (a1 : ℕ) (a2 : ℕ) (a3 : BitVec 9) (h : P s) : OnSome P (State.prefTake s a1 a2 a3) := by
  unfold State.prefTake
  try dsimp only
  repeat' first
    | with_reducible assumption
    | with_reducible apply State.prefFill_pres C
    | (with_reducible apply OnSome.getD; with_reducible apply State.prefFill_pres C)
    | with_reducible apply State.fillIc_pres C
    | (with_reducible apply OnSome.getD; with_reducible apply State.fillIc_pres C)
    | with_reducible apply pres_ite
    | with_reducible exact OnSome.get (by with_reducible assumption)
    | with_reducible apply OnSome.mk
    | with_reducible exact OnSome.none
    | with_reducible intro _
    | with_reducible refine OnSome.eq ?_ (by with_reducible assumption)

theorem State.prefWon_pres (C : Quiet P) {s : State} (a1 : ℕ) (a2 : ℕ) (a3 : BitVec 9) (h : P s) : P (State.prefWon s a1 a2 a3) := by
  unfold State.prefWon
  try dsimp only
  repeat' first
    | with_reducible assumption
    | with_reducible apply State.modIsle_pres C
    | with_reducible apply State.prefTake_pres C
    | (with_reducible apply OnSome.getD; with_reducible apply State.prefTake_pres C)
    | with_reducible exact OnSome.get (by with_reducible assumption)
    | with_reducible apply OnSome.mk
    | with_reducible exact OnSome.none
    | with_reducible intro _
    | with_reducible refine OnSome.eq ?_ (by with_reducible assumption)
    | fail_if_no_progress with_reducible apply C.update

theorem State.retryFills_pres (C : Quiet P) {s : State} (a1 : ℕ) (h : P s) : P (State.retryFills s a1) := by
  unfold State.retryFills
  try dsimp only
  repeat' first
    | with_reducible assumption
    | with_reducible apply State.prefWon_pres C
    | with_reducible apply State.modIsle_pres C
    | with_reducible apply pres_ite
    | with_reducible apply pres_fold
    | (with_reducible apply OnFst.fst; with_reducible apply pres_fold)
    | with_reducible exact OnFst.fst (by with_reducible assumption)
    | with_reducible intro _
    | with_reducible refine OnFst.eq ?_ (by with_reducible assumption)
    | fail_if_no_progress with_reducible apply C.update
    | with_reducible apply OnFst.mk

theorem State.endWindow_pres (C : Quiet P) {s : State} (a1 : ℕ) (a2 : ℕ) (h : P s) : P (State.endWindow s a1 a2) := by
  unfold State.endWindow
  try dsimp only
  repeat' first
    | with_reducible assumption
    | with_reducible apply State.retryFills_pres C
    | with_reducible apply State.serveSnoop_pres C
    | with_reducible apply State.modIsle_pres C
    | with_reducible apply pres_ite
    | with_reducible apply pres_fold
    | with_reducible intro _
    | fail_if_no_progress with_reducible apply C.update

theorem State.win_pres (C : Quiet P) {s : State} (a1 : ℕ) (a2 : ℕ) (a3 : Moesi) (a4 : LineVal) (h : P s) : P (State.win s a1 a2 a3 a4) := by
  unfold State.win
  try dsimp only
  repeat' first
    | with_reducible assumption
    | with_reducible apply State.modCore_pres C
    | with_reducible apply State.modIsle_pres C
    | with_reducible apply State.prefWon_pres C
    | with_reducible apply pres_ite
    | with_reducible apply pres_fold
    | with_reducible intro _
    | fail_if_no_progress with_reducible apply C.update

theorem State.recvGnt_pres (C : Quiet P) {s : State} (a1 : ℕ) (a2 : Msg) (h : P s) : P (State.recvGnt s a1 a2) := by
  unfold State.recvGnt
  try dsimp only
  repeat' first
    | with_reducible assumption
    | with_reducible apply State.modIsle_pres C
    | with_reducible apply State.win_pres C
    | with_reducible apply pres_ite
    | with_reducible intro _
    | fail_if_no_progress with_reducible apply C.update
    | split

theorem State.recvDat_pres (C : Quiet P) {s : State} (a1 : ℕ) (a2 : Msg) (h : P s) : P (State.recvDat s a1 a2) := by
  unfold State.recvDat
  try dsimp only
  repeat' first
    | with_reducible assumption
    | with_reducible apply State.win_pres C
    | with_reducible apply State.modIsle_pres C
    | with_reducible apply pres_ite
    | with_reducible intro _
    | split

theorem State.recvCmp_pres (C : Quiet P) {s : State} (a1 : ℕ) (a2 : Msg) (h : P s) : P (State.recvCmp s a1 a2) := by
  unfold State.recvCmp
  try dsimp only
  repeat' first
    | with_reducible assumption
    | with_reducible apply State.retryFills_pres C
    | with_reducible apply State.modIsle_pres C
    | with_reducible apply pres_ite
    | with_reducible intro _
    | fail_if_no_progress with_reducible apply C.update

theorem State.recvPfh_pres (C : Quiet P) {s : State} (a1 : ℕ) (a2 : Msg) (h : P s) : P (State.recvPfh s a1 a2) := by
  unfold State.recvPfh
  try dsimp only
  repeat' first
    | with_reducible assumption
    | with_reducible apply State.sendFill_pres C
    | with_reducible apply pres_ite
    | with_reducible intro _

theorem State.takeMsg_pres (C : Quiet P) {s : State} (a1 : Msg) (h : P s) : P (State.takeMsg s a1) := by
  unfold State.takeMsg
  try dsimp only
  repeat' first
    | with_reducible assumption
    | fail_if_no_progress with_reducible apply C.update

theorem State.flit_pres (C : Quiet P) {s : State} (a1 : ℕ) (a2 : Bool) (a3 : Msg) (h : P s) : P (State.flit s a1 a2 a3) := by
  unfold State.flit
  try dsimp only
  repeat' first
    | with_reducible assumption
    | with_reducible apply State.modStrait_pres C
    | with_reducible apply pres_ite
    | with_reducible intro _
    | fail_if_no_progress with_reducible apply C.update

theorem State.crosses_pres (C : Quiet P) {s : State} (a1 : Msg) (h : P s) : P (State.crosses s a1) := by
  unfold State.crosses
  try dsimp only
  repeat' first
    | with_reducible assumption
    | with_reducible apply State.flit_pres C
    | with_reducible apply pres_ite
    | with_reducible intro _
    | split

theorem State.deliver_pres (C : Quiet P) {s : State} (a1 : Msg) (h : P s) : P (State.deliver s a1) := by
  unfold State.deliver
  try dsimp only
  repeat' first
    | with_reducible assumption
    | with_reducible apply State.recvCmp_pres C
    | with_reducible apply State.recvDat_pres C
    | with_reducible apply State.recvGnt_pres C
    | with_reducible apply State.recvPfh_pres C
    | with_reducible apply State.recvSnoop_pres C
    | with_reducible apply State.homeAnswer_pres C
    | with_reducible apply State.homeEvict_pres C
    | with_reducible apply State.homeRequest_pres C
    | with_reducible apply State.takeMsg_pres C
    | with_reducible apply State.crosses_pres C
    | with_reducible intro _
    | fail_if_no_progress with_reducible apply C.update
    | split

end Sys2Proof.Machine
end

