-- ==== Sys2Proof/Laws/KeepBorric.lean ====
section
/-! SUPPORT. What the operations of Machine/Borric.lean keep. -/

namespace Sys2Proof.Machine

variable {P : State → Prop}

theorem State.cisScan_pres (C : Quiet P) {s : State} (a1 : ℕ) (a2 : ℕ) (a3 : BitVec 64) (a4 : Xid) (h : P s) : P (State.cisScan s a1 a2 a3 a4) := by
  unfold State.cisScan
  try dsimp only
  repeat' first
    | with_reducible assumption
    | with_reducible apply State.modIsle_pres C
    | with_reducible apply State.recIsle_pres C
    | with_reducible apply pres_fold
    | with_reducible intro _

theorem State.cisRead_pres (C : Quiet P) {s : State} (a1 : ℕ) (a2 : ℕ) (a3 : BitVec 64) (a4 : Bool) (a5 : Xid) (h : P s) : OnFst P (State.cisRead s a1 a2 a3 a4 a5) := by
  unfold State.cisRead
  try dsimp only
  repeat' first
    | with_reducible assumption
    | with_reducible apply State.sndIsle_pres C
    | with_reducible apply State.cisScan_pres C
    | with_reducible apply pres_ite
    | with_reducible intro _
    | split
    | with_reducible apply OnFst.mk

theorem State.cisWrite_pres (C : Quiet P) {s : State} (a1 : ℕ) (a2 : ℕ) (a3 : BitVec 64) (a4 : LineBits) (a5 : Bool) (h : P s) : OnFst P (State.cisWrite s a1 a2 a3 a4 a5) := by
  unfold State.cisWrite
  try dsimp only
  repeat' first
    | with_reducible assumption
    | with_reducible apply State.sndIsle_pres C
    | with_reducible apply State.modIsle_pres C
    | with_reducible apply pres_ite
    | with_reducible apply pres_forN
    | with_reducible intro _
    | split
    | with_reducible apply OnFst.mk

theorem State.cisternServe_pres (C : Quiet P) {s : State} (a1 : Msg) (a2 : Bool) (h : P s) : P (State.cisternServe s a1 a2) := by
  unfold State.cisternServe
  try dsimp only
  repeat' first
    | with_reducible assumption
    | with_reducible apply State.send_pres C
    | with_reducible apply State.cisWrite_pres C
    | (with_reducible apply OnFst.fst; with_reducible apply State.cisWrite_pres C)
    | with_reducible apply State.cisRead_pres C
    | (with_reducible apply OnFst.fst; with_reducible apply State.cisRead_pres C)
    | with_reducible apply pres_ite
    | with_reducible exact OnFst.get (by with_reducible assumption)
    | with_reducible intro _
    | with_reducible refine OnFst.eq ?_ (by with_reducible assumption)
    | fail_if_no_progress with_reducible apply C.update
    | split
    | with_reducible apply OnFst.mk

theorem State.purgeRecords_pres (C : Quiet P) {s : State} (a1 : ℕ) (a2 : List LineNo) (h : P s) : P (State.purgeRecords s a1 a2) := by
  refine State.purgeRecords.induct a1 (motive := fun s l => P s → P (s.purgeRecords a1 l)) ?_ ?_ ?_ s a2 h
  · intro s h
    exact h
  · intro s a b c d ls ih h
    unfold State.purgeRecords
    exact ih (State.recKey_pres C _ _ _ _ _ _ _ h)
  · intro s ls h1 h2 h
    rw [State.purgeRecords]
    · exact State.recKey_pres C _ _ _ _ _ _ _ h
    · exact h1
    · exact h2

theorem State.closeOwn_pres (C : Quiet P) {s : State} (a1 : BitVec 4) (h : P s) : P (State.closeOwn s a1) := by
  unfold State.closeOwn
  try dsimp only
  repeat' first
    | with_reducible assumption
    | with_reducible apply State.reserve_pres C
    | with_reducible apply State.dropTxn_pres C
    | with_reducible apply pres_ite
    | with_reducible apply pres_fold
    | (with_reducible apply OnFst.fst; with_reducible apply pres_fold)
    | with_reducible exact OnFst.fst (by with_reducible assumption)
    | with_reducible intro _
    | with_reducible refine OnFst.eq ?_ (by with_reducible assumption)
    | fail_if_no_progress with_reducible apply C.update
    | with_reducible apply OnFst.mk

theorem State.purgeStart_pres (C : Quiet P) {s : State} (a1 : ℕ) (a2 : Report) (a3 : List LineNo) (h : P s) : P (State.purgeStart s a1 a2 a3) := by
  unfold State.purgeStart
  try dsimp only
  repeat' first
    | with_reducible assumption
    | with_reducible apply State.purgeRecords_pres C
    | with_reducible apply State.closeOwn_pres C
    | with_reducible apply State.purgeLine_pres C
    | (with_reducible apply OnFst.fst; with_reducible apply State.purgeLine_pres C)
    | with_reducible apply State.recKey_pres C
    | with_reducible apply pres_ite
    | with_reducible apply pres_fold
    | (with_reducible apply OnFst.fst; with_reducible apply pres_fold)
    | with_reducible exact OnFst.fst (by with_reducible assumption)
    | with_reducible exact OnFst.get (by with_reducible assumption)
    | with_reducible intro _
    | with_reducible refine OnFst.eq ?_ (by with_reducible assumption)
    | fail_if_no_progress with_reducible apply C.update
    | split
    | with_reducible apply OnFst.mk

theorem State.purge_pres (C : Quiet P) {s : State} (a1 : Fin 12) (a2 : Report) (h : P s) : P (State.purge s a1 a2) := by
  unfold State.purge
  try dsimp only
  repeat' first
    | with_reducible assumption
    | with_reducible apply State.purgeStart_pres C
    | with_reducible apply pres_ite
    | with_reducible intro _
    | fail_if_no_progress with_reducible apply C.update

theorem execPurgeEnd_pres (C : Quiet P) (a1 : BitVec 64) {s : State} (h : P s) : OnNext P (execPurgeEnd a1 s) := by
  unfold execPurgeEnd
  try dsimp only
  repeat' first
    | with_reducible assumption
    | with_reducible apply State.purgeStart_pres C
    | with_reducible apply State.recKey_pres C
    | with_reducible apply pres_ite
    | with_reducible apply OnNext.mk
    | with_reducible intro _
    | fail_if_no_progress with_reducible apply C.update
    | split

theorem State.arrive_pres (C : Quiet P) {s : State} (a1 : Msg) (a2 : State → State) (h2 : ∀ u, P u → P (a2 u)) (h : P s) : OnNext P (State.arrive s a1 a2) := by
  unfold State.arrive
  try dsimp only
  repeat' first
    | with_reducible assumption
    | with_reducible apply h2
    | with_reducible apply State.takeMsg_pres C
    | with_reducible apply State.crosses_pres C
    | with_reducible apply pres_ite
    | with_reducible apply OnNext.mk
    | with_reducible intro _

theorem State.toHome_pres (C : Quiet P) {s : State} (a1 : Msg) (a2 : MsgTy) (h : P s) : OnNext P (State.toHome s a1 a2) := by
  unfold State.toHome
  try dsimp only
  repeat' first
    | with_reducible assumption
    | with_reducible apply State.homeRequest_pres C
    | with_reducible apply State.arrive_pres C
    | with_reducible apply OnNext.mk
    | with_reducible intro _
    | fail_if_no_progress with_reducible apply C.update

theorem execRds_pres (C : Quiet P) {s : State} (a1 : Msg) (h : P s) : OnNext P (execRds a1 s) := by
  unfold execRds
  try dsimp only
  repeat' first
    | with_reducible assumption
    | with_reducible apply State.toHome_pres C

theorem execRdu_pres (C : Quiet P) {s : State} (a1 : Msg) (h : P s) : OnNext P (execRdu a1 s) := by
  unfold execRdu
  try dsimp only
  repeat' first
    | with_reducible assumption
    | with_reducible apply State.toHome_pres C

theorem execUpg_pres (C : Quiet P) {s : State} (a1 : Msg) (h : P s) : OnNext P (execUpg a1 s) := by
  unfold execUpg
  try dsimp only
  repeat' first
    | with_reducible assumption
    | with_reducible apply State.toHome_pres C

theorem execRdn_pres (C : Quiet P) {s : State} (a1 : Msg) (h : P s) : OnNext P (execRdn a1 s) := by
  unfold execRdn
  try dsimp only
  repeat' first
    | with_reducible assumption
    | with_reducible apply State.toHome_pres C

theorem execWrn_pres (C : Quiet P) {s : State} (a1 : Msg) (h : P s) : OnNext P (execWrn a1 s) := by
  unfold execWrn
  try dsimp only
  repeat' first
    | with_reducible assumption
    | with_reducible apply State.toHome_pres C

theorem execWrl_pres (C : Quiet P) {s : State} (a1 : Msg) (h : P s) : OnNext P (execWrl a1 s) := by
  unfold execWrl
  try dsimp only
  repeat' first
    | with_reducible assumption
    | with_reducible apply State.toHome_pres C

theorem execAtm_pres (C : Quiet P) {s : State} (a1 : Msg) (h : P s) : OnNext P (execAtm a1 s) := by
  unfold execAtm
  try dsimp only
  repeat' first
    | with_reducible assumption
    | with_reducible apply State.toHome_pres C

theorem execTrw_pres (C : Quiet P) {s : State} (a1 : Msg) (h : P s) : OnNext P (execTrw a1 s) := by
  unfold execTrw
  try dsimp only
  repeat' first
    | with_reducible assumption
    | with_reducible apply State.toHome_pres C

theorem execWbd_pres (C : Quiet P) (a1 : Msg) {s : State} (h : P s) : OnNext P (execWbd a1 s) := by
  unfold execWbd
  try dsimp only
  repeat' first
    | with_reducible assumption
    | with_reducible apply State.homeEvict_pres C
    | with_reducible apply State.arrive_pres C
    | with_reducible apply OnNext.mk
    | with_reducible intro _
    | fail_if_no_progress with_reducible apply C.update

theorem execEvc_pres (C : Quiet P) (a1 : Msg) {s : State} (h : P s) : OnNext P (execEvc a1 s) := by
  unfold execEvc
  try dsimp only
  repeat' first
    | with_reducible assumption
    | with_reducible apply State.homeEvict_pres C
    | with_reducible apply State.arrive_pres C
    | with_reducible apply OnNext.mk
    | with_reducible intro _
    | fail_if_no_progress with_reducible apply C.update

theorem execQueuedRequestOpen_pres (C : Quiet P) {s : State} (a1 : LineNo) (h : P s) : OnNext P (execQueuedRequestOpen a1 s) := by
  unfold execQueuedRequestOpen
  try dsimp only
  repeat' first
    | with_reducible assumption
    | with_reducible apply State.openQueued_pres C
    | with_reducible apply OnNext.mk

theorem execAck_pres (C : Quiet P) (a1 : Msg) {s : State} (h : P s) : OnNext P (execAck a1 s) := by
  unfold execAck
  try dsimp only
  repeat' first
    | with_reducible assumption
    | with_reducible apply State.homeAnswer_pres C
    | with_reducible apply State.arrive_pres C
    | with_reducible apply OnNext.mk
    | with_reducible intro _
    | fail_if_no_progress with_reducible apply C.update

theorem execAckd_pres (C : Quiet P) (a1 : Msg) {s : State} (h : P s) : OnNext P (execAckd a1 s) := by
  unfold execAckd
  try dsimp only
  repeat' first
    | with_reducible assumption
    | with_reducible apply State.homeAnswer_pres C
    | with_reducible apply State.arrive_pres C
    | with_reducible apply OnNext.mk
    | with_reducible intro _
    | fail_if_no_progress with_reducible apply C.update

theorem execGone_pres (C : Quiet P) (a1 : Msg) {s : State} (h : P s) : OnNext P (execGone a1 s) := by
  unfold execGone
  try dsimp only
  repeat' first
    | with_reducible assumption
    | with_reducible apply State.homeAnswer_pres C
    | with_reducible apply State.arrive_pres C
    | with_reducible apply OnNext.mk
    | with_reducible intro _
    | fail_if_no_progress with_reducible apply C.update

theorem State.toIsle_pres (C : Quiet P) {s : State} (a1 : Msg) (a2 : State → ℕ → State) (h2 : ∀ x0 x1, P x0 → P (a2 x0 x1)) (h : P s) : OnNext P (State.toIsle s a1 a2) := by
  unfold State.toIsle
  try dsimp only
  repeat' first
    | with_reducible assumption
    | with_reducible apply h2
    | with_reducible apply State.arrive_pres C
    | with_reducible apply pres_ite
    | with_reducible apply OnNext.mk
    | with_reducible intro _

theorem execFws_pres (C : Quiet P) (a1 : Msg) {s : State} (h : P s) : OnNext P (execFws a1 s) := by
  unfold execFws
  try dsimp only
  repeat' first
    | with_reducible assumption
    | with_reducible apply State.recvSnoop_pres C
    | with_reducible apply State.toIsle_pres C
    | with_reducible apply OnNext.mk
    | with_reducible intro _
    | fail_if_no_progress with_reducible apply C.update

theorem execFwu_pres (C : Quiet P) (a1 : Msg) {s : State} (h : P s) : OnNext P (execFwu a1 s) := by
  unfold execFwu
  try dsimp only
  repeat' first
    | with_reducible assumption
    | with_reducible apply State.recvSnoop_pres C
    | with_reducible apply State.toIsle_pres C
    | with_reducible apply OnNext.mk
    | with_reducible intro _
    | fail_if_no_progress with_reducible apply C.update

theorem execSng_pres (C : Quiet P) (a1 : Msg) {s : State} (h : P s) : OnNext P (execSng a1 s) := by
  unfold execSng
  try dsimp only
  repeat' first
    | with_reducible assumption
    | with_reducible apply State.recvSnoop_pres C
    | with_reducible apply State.toIsle_pres C
    | with_reducible apply OnNext.mk
    | with_reducible intro _
    | fail_if_no_progress with_reducible apply C.update

theorem execSnc_pres (C : Quiet P) (a1 : Msg) {s : State} (h : P s) : OnNext P (execSnc a1 s) := by
  unfold execSnc
  try dsimp only
  repeat' first
    | with_reducible assumption
    | with_reducible apply State.recvSnoop_pres C
    | with_reducible apply State.toIsle_pres C
    | with_reducible apply OnNext.mk
    | with_reducible intro _
    | fail_if_no_progress with_reducible apply C.update

theorem execSni_pres (C : Quiet P) (a1 : Msg) {s : State} (h : P s) : OnNext P (execSni a1 s) := by
  unfold execSni
  try dsimp only
  repeat' first
    | with_reducible assumption
    | with_reducible apply State.recvSnoop_pres C
    | with_reducible apply State.toIsle_pres C
    | with_reducible apply OnNext.mk
    | with_reducible intro _
    | fail_if_no_progress with_reducible apply C.update

theorem execInv_pres (C : Quiet P) (a1 : Msg) {s : State} (h : P s) : OnNext P (execInv a1 s) := by
  unfold execInv
  try dsimp only
  repeat' first
    | with_reducible assumption
    | with_reducible apply State.recvSnoop_pres C
    | with_reducible apply State.toIsle_pres C
    | with_reducible apply OnNext.mk
    | with_reducible intro _
    | fail_if_no_progress with_reducible apply C.update

theorem execPfh_pres (C : Quiet P) (a1 : Msg) {s : State} (h : P s) : OnNext P (execPfh a1 s) := by
  unfold execPfh
  try dsimp only
  repeat' first
    | with_reducible assumption
    | with_reducible apply State.recvPfh_pres C
    | with_reducible apply State.toIsle_pres C
    | with_reducible apply OnNext.mk
    | with_reducible intro _
    | fail_if_no_progress with_reducible apply C.update

theorem execDat_pres (C : Quiet P) (a1 : Msg) {s : State} (h : P s) : OnNext P (execDat a1 s) := by
  unfold execDat
  try dsimp only
  repeat' first
    | with_reducible assumption
    | with_reducible apply State.recvDat_pres C
    | with_reducible apply State.toIsle_pres C
    | with_reducible apply OnNext.mk
    | with_reducible intro _
    | fail_if_no_progress with_reducible apply C.update

theorem execGnt_pres (C : Quiet P) (a1 : Msg) {s : State} (h : P s) : OnNext P (execGnt a1 s) := by
  unfold execGnt
  try dsimp only
  repeat' first
    | with_reducible assumption
    | with_reducible apply State.recvGnt_pres C
    | with_reducible apply State.toIsle_pres C
    | with_reducible apply OnNext.mk
    | with_reducible intro _
    | fail_if_no_progress with_reducible apply C.update

theorem State.toIssuer_pres (C : Quiet P) {s : State} (a1 : Msg) (h : P s) : OnNext P (State.toIssuer s a1) := by
  unfold State.toIssuer
  try dsimp only
  repeat' first
    | with_reducible assumption
    | with_reducible apply State.recvCmp_pres C
    | with_reducible apply State.arrive_pres C
    | with_reducible apply pres_ite
    | with_reducible apply OnNext.mk
    | with_reducible intro _
    | fail_if_no_progress with_reducible apply C.update

theorem execCmp_pres (C : Quiet P) (a1 : Msg) {s : State} (h : P s) : OnNext P (execCmp a1 s) := by
  unfold execCmp
  try dsimp only
  repeat' first
    | with_reducible assumption
    | with_reducible apply State.toIssuer_pres C
    | with_reducible apply OnNext.mk
    | fail_if_no_progress with_reducible apply C.update

theorem execBusyReceived_pres (C : Quiet P) (a1 : Msg) {s : State} (h : P s) : OnNext P (execBusyReceived a1 s) := by
  unfold execBusyReceived
  try dsimp only
  repeat' first
    | with_reducible assumption
    | with_reducible apply State.toIssuer_pres C
    | with_reducible apply OnNext.mk
    | fail_if_no_progress with_reducible apply C.update

theorem State.resend_pres (C : Quiet P) {s : State} (a1 : Msg) (h : P s) : P (State.resend s a1) := by
  unfold State.resend
  try dsimp only
  repeat' first
    | with_reducible assumption
    | with_reducible apply State.send_pres C
    | fail_if_no_progress with_reducible apply C.update
    | split

theorem execTokenResend_pres (C : Quiet P) (a1 : Msg) {s : State} (h : P s) : OnNext P (execTokenResend a1 s) := by
  unfold execTokenResend
  try dsimp only
  repeat' first
    | with_reducible assumption
    | with_reducible apply State.resend_pres C
    | with_reducible apply pres_ite
    | with_reducible apply OnNext.mk
    | with_reducible intro _

theorem execReservationExpire_pres (C : Quiet P) (a1 : Fin 24) (a2 : Resource) {s : State} (h : P s) : OnNext P (execReservationExpire a1 a2 s) := by
  unfold execReservationExpire
  try dsimp only
  repeat' first
    | with_reducible assumption
    | with_reducible apply State.modSlice_pres C
    | with_reducible apply pres_ite
    | with_reducible apply OnNext.mk
    | with_reducible intro _

theorem execHoldWindowEnd_pres (C : Quiet P) (a1 : Fin 12) (a2 : LineNo) {s : State} (h : P s) : OnNext P (execHoldWindowEnd a1 a2 s) := by
  unfold execHoldWindowEnd
  try dsimp only
  repeat' first
    | with_reducible assumption
    | with_reducible apply State.endWindow_pres C
    | with_reducible apply pres_ite
    | with_reducible apply OnNext.mk
    | with_reducible intro _

theorem execCisternAccess_pres (C : Quiet P) (a1 : Msg) {s : State} (h : P s) : OnNext P (execCisternAccess a1 s) := by
  unfold execCisternAccess
  try dsimp only
  repeat' first
    | with_reducible assumption
    | with_reducible apply State.cisternServe_pres C
    | with_reducible apply State.arrive_pres C
    | with_reducible apply OnNext.mk
    | with_reducible intro _

theorem State.serveRead_pres (C : Quiet P) {s : State} (a1 : ℕ) (a2 : LineNo) (a3 : BitVec 640) (h : P s) : P (State.serveRead s a1 a2 a3) := by
  unfold State.serveRead
  try dsimp only
  repeat' first
    | with_reducible assumption
    | with_reducible apply State.memAnswers_pres C
    | with_reducible apply State.memAnswer_pres C
    | with_reducible apply State.readDram_pres C
    | (with_reducible apply OnFst.fst; with_reducible apply State.readDram_pres C)
    | with_reducible apply State.modChan_pres C
    | with_reducible apply State.drainLine_pres C
    | with_reducible apply State.drainTo_pres C
    | with_reducible apply pres_ite
    | with_reducible exact OnFst.get (by with_reducible assumption)
    | with_reducible intro _
    | with_reducible refine OnFst.eq ?_ (by with_reducible assumption)
    | fail_if_no_progress with_reducible apply C.update
    | split
    | with_reducible apply OnFst.mk

theorem execDramRead_pres (C : Quiet P) (a1 : Fin 24) (a2 : LineNo) (a3 : BitVec 640) {s : State} (h : P s) : OnNext P (execDramRead a1 a2 a3 s) := by
  unfold execDramRead
  try dsimp only
  repeat' first
    | with_reducible assumption
    | with_reducible apply State.serveRead_pres C
    | with_reducible apply pres_ite
    | with_reducible apply OnNext.mk
    | with_reducible intro _

theorem execCorrectedReread_pres (C : Quiet P) (a1 : Fin 24) (a2 : BitVec 640) {s : State} (h : P s) : OnNext P (execCorrectedReread a1 a2 s) := by
  unfold execCorrectedReread
  try dsimp only
  repeat' first
    | with_reducible assumption
    | with_reducible apply State.memAnswers_pres C
    | with_reducible apply State.reread_pres C
    | (with_reducible apply OnFst.fst; with_reducible apply State.reread_pres C)
    | with_reducible apply pres_ite
    | with_reducible apply OnNext.mk
    | with_reducible intro _
    | with_reducible refine OnFst.eq ?_ (by with_reducible assumption)
    | with_reducible apply OnFst.mk

theorem execCaParityAlert_pres (C : Quiet P) (a1 : Fin 24) (a2 : Option LineNo) {s : State} (h : P s) : OnNext P (execCaParityAlert a1 a2 s) := by
  unfold execCaParityAlert
  try dsimp only
  repeat' first
    | with_reducible assumption
    | with_reducible apply State.memAnswers_pres C
    | with_reducible apply State.caError_pres C
    | (with_reducible apply OnFst.fst; with_reducible apply State.caError_pres C)
    | with_reducible apply pres_ite
    | with_reducible apply OnNext.mk
    | with_reducible intro _
    | with_reducible refine OnFst.eq ?_ (by with_reducible assumption)
    | with_reducible apply OnFst.mk

theorem execPatrolRead_pres (C : Quiet P) (a1 : Fin 24) (a2 : BitVec 640) {s : State} (h : P s) : OnNext P (execPatrolRead a1 a2 s) := by
  unfold execPatrolRead
  try dsimp only
  repeat' first
    | with_reducible assumption
    | with_reducible apply State.memAnswers_pres C
    | with_reducible apply State.readDram_pres C
    | (with_reducible apply OnFst.fst; with_reducible apply State.readDram_pres C)
    | with_reducible apply State.modChan_pres C
    | with_reducible apply pres_ite
    | with_reducible apply OnNext.mk
    | with_reducible exact OnFst.get (by with_reducible assumption)
    | with_reducible intro _
    | with_reducible refine OnFst.eq ?_ (by with_reducible assumption)
    | fail_if_no_progress with_reducible apply C.update
    | split
    | with_reducible apply OnFst.mk

theorem execChannelFullTraining_pres (C : Quiet P) (a1 : Fin 24) (a2 : Bool) {s : State} (h : P s) : OnNext P (execChannelFullTraining a1 a2 s) := by
  unfold execChannelFullTraining
  try dsimp only
  repeat' first
    | with_reducible assumption
    | with_reducible apply State.memAnswers_pres C
    | with_reducible apply State.trainingEnds_pres C
    | (with_reducible apply OnFst.fst; with_reducible apply State.trainingEnds_pres C)
    | with_reducible apply State.retryTraining_pres C
    | (with_reducible apply OnFst.fst; with_reducible apply State.retryTraining_pres C)
    | with_reducible apply pres_ite
    | with_reducible apply OnNext.mk
    | with_reducible intro _
    | with_reducible refine OnFst.eq ?_ (by with_reducible assumption)
    | with_reducible apply OnFst.mk

end Sys2Proof.Machine
end

