-- ==== Sys2Proof/Laws/KeepTrowel.lean ====
section
/-! SUPPORT. What the operations of Machine/Trowel.lean keep. -/

namespace Sys2Proof.Machine

variable {P : State → Prop}

theorem State.answered_pres (C : Quiet P) {s : State} (a1 : Resp) (a2 : State × Resp) (h2 : OnFst P a2) (h : P s) : OnFst P (State.answered s a1 a2) := by
  unfold State.answered
  try dsimp only
  repeat' first
    | with_reducible assumption
    | split
    | with_reducible apply OnFst.mk

theorem State.untrack_pres (C : Quiet P) {s : State} (a1 : ℕ) (a2 : ℕ) (h : P s) : P (State.untrack s a1 a2) := by
  unfold State.untrack
  try dsimp only
  repeat' first
    | with_reducible assumption
    | with_reducible apply State.modIsle_pres C
    | with_reducible apply pres_ite
    | with_reducible intro _

theorem State.l2Off_pres (C : Quiet P) {s : State} (a1 : ℕ) (a2 : ℕ) (h : P s) : P (State.l2Off s a1 a2) := by
  unfold State.l2Off
  try dsimp only
  repeat' first
    | with_reducible assumption
    | with_reducible apply State.untrack_pres C
    | with_reducible apply State.modCore_pres C
    | with_reducible apply pres_ite
    | with_reducible apply pres_fold
    | with_reducible intro _

theorem State.icOff_pres (C : Quiet P) {s : State} (a1 : ℕ) (h : P s) : P (State.icOff s a1) := by
  unfold State.icOff
  try dsimp only
  repeat' first
    | with_reducible assumption
    | with_reducible apply State.modIsle_pres C
    | with_reducible apply pres_ite
    | with_reducible apply pres_fold
    | with_reducible intro _
    | fail_if_no_progress with_reducible apply C.update
    | split

theorem State.disableDone_pres (C : Quiet P) {s : State} (a1 : ℕ) (a2 : ℕ) (h : P s) : P (State.disableDone s a1 a2) := by
  unfold State.disableDone
  try dsimp only
  repeat' first
    | with_reducible assumption
    | with_reducible apply State.modIsle_pres C
    | with_reducible apply State.l2Off_pres C
    | with_reducible apply State.icOff_pres C
    | with_reducible apply pres_ite
    | with_reducible intro _

theorem State.cacheSwitch_pres (C : Quiet P) {s : State} (a1 : ℕ) (a2 : ℕ) (a3 : Bool) (h : P s) : P (State.cacheSwitch s a1 a2 a3) := by
  unfold State.cacheSwitch
  try dsimp only
  repeat' first
    | with_reducible assumption
    | with_reducible apply State.disableDone_pres C
    | with_reducible apply State.modIsle_pres C
    | with_reducible apply State.recIsle_pres C
    | with_reducible apply pres_ite
    | with_reducible intro _

theorem State.cachectl_pres (C : Quiet P) {s : State} (a1 : Who) (a2 : ℕ) (a3 : W36) (h : P s) : OnFst P (State.cachectl s a1 a2 a3) := by
  unfold State.cachectl
  try dsimp only
  repeat' first
    | with_reducible assumption
    | with_reducible apply State.cacheSwitch_pres C
    | with_reducible apply State.answered_pres C
    | with_reducible apply pres_ite
    | with_reducible apply pres_fold
    | with_reducible intro _
    | with_reducible apply OnFst.mk

theorem execCacheDisableComplete_pres (C : Quiet P) (a1 : Fin 12) (a2 : Fin 25) {s : State} (h : P s) : OnNext P (execCacheDisableComplete a1 a2 s) := by
  unfold execCacheDisableComplete
  try dsimp only
  repeat' first
    | with_reducible assumption
    | with_reducible apply State.disableDone_pres C
    | with_reducible apply pres_ite
    | with_reducible apply OnNext.mk
    | with_reducible intro _

theorem execDropWalkDone_pres (C : Quiet P) (a1 : Fin 12) {s : State} (h : P s) : OnNext P (execDropWalkDone a1 s) := by
  unfold execDropWalkDone
  try dsimp only
  repeat' first
    | with_reducible assumption
    | with_reducible apply pres_ite
    | with_reducible apply OnNext.mk
    | with_reducible intro _
    | fail_if_no_progress with_reducible apply C.update

theorem execSramPatrol_pres (C : Quiet P) (a1 : Fin 12) (a2 : LineNo) {s : State} (h : P s) : OnNext P (execSramPatrol a1 a2 s) := by
  unfold execSramPatrol
  try dsimp only
  repeat' first
    | with_reducible assumption
    | with_reducible apply State.arrRead_pres C
    | with_reducible apply State.cisScan_pres C
    | with_reducible apply pres_ite
    | with_reducible apply OnNext.mk
    | with_reducible intro _
    | fail_if_no_progress with_reducible apply C.update
    | split

theorem State.wayctl_pres (C : Quiet P) {s : State} (a1 : Who) (a2 : ℕ) (a3 : W36) (h : P s) : OnFst P (State.wayctl s a1 a2 a3) := by
  unfold State.wayctl
  try dsimp only
  repeat' first
    | with_reducible assumption
    | with_reducible apply State.answered_pres C
    | (with_reducible apply OnFst.fst; with_reducible apply State.answered_pres C)
    | with_reducible apply State.modIsle_pres C
    | with_reducible apply pres_ite
    | with_reducible exact OnFst.get (by with_reducible assumption)
    | with_reducible intro _
    | with_reducible refine OnFst.eq ?_ (by with_reducible assumption)
    | split
    | with_reducible apply OnFst.mk

theorem State.leaveIc_pres (C : Quiet P) {s : State} (a1 : ℕ) (a2 : ℕ) (a3 : Way) (h : P s) : P (State.leaveIc s a1 a2 a3) := by
  unfold State.leaveIc
  try dsimp only
  repeat' first
    | with_reducible assumption
    | with_reducible apply State.evictIfGone_pres C
    | with_reducible apply State.modIsle_pres C
    | with_reducible apply State.arrRead_pres C
    | with_reducible apply State.endWindow_pres C
    | with_reducible apply pres_ite
    | with_reducible intro _
    | fail_if_no_progress with_reducible apply C.update

theorem State.emptyWay_pres (C : Quiet P) {s : State} (a1 : ℕ) (a2 : ℕ) (h : P s) : P (State.emptyWay s a1 a2) := by
  unfold State.emptyWay
  try dsimp only
  repeat' first
    | with_reducible assumption
    | with_reducible apply State.leaveIc_pres C
    | with_reducible apply pres_fold
    | (with_reducible apply OnFst.fst; with_reducible apply pres_fold)
    | with_reducible exact OnFst.fst (by with_reducible assumption)
    | with_reducible intro _
    | with_reducible refine OnFst.eq ?_ (by with_reducible assumption)
    | with_reducible apply OnFst.mk

theorem execWayConverted_pres (C : Quiet P) (a1 : Fin 12) {s : State} (h : P s) : OnNext P (execWayConverted a1 s) := by
  unfold execWayConverted
  try dsimp only
  repeat' first
    | with_reducible assumption
    | with_reducible apply State.modIsle_pres C
    | with_reducible apply State.emptyWay_pres C
    | with_reducible apply pres_ite
    | with_reducible apply OnNext.mk
    | with_reducible intro _
    | fail_if_no_progress with_reducible apply C.update

theorem State.modSlot_pres (C : Quiet P) {s : State} (a1 : ℕ) (a2 : ℕ) (a3 : TrwSlot → TrwSlot) (h : P s) : P (State.modSlot s a1 a2 a3) := by
  unfold State.modSlot
  try dsimp only
  repeat' first
    | with_reducible assumption
    | with_reducible apply State.modIsle_pres C

theorem State.trwClaim_pres (C : Quiet P) {s : State} (a1 : ℕ) (h : P s) : OnFst P (State.trwClaim s a1) := by
  unfold State.trwClaim
  try dsimp only
  repeat' first
    | with_reducible assumption
    | with_reducible apply State.modSlot_pres C
    | split
    | with_reducible apply OnFst.mk

theorem State.trwTook_pres (C : Quiet P) {s : State} (a1 : ℕ) (a2 : Who) (h : P s) : P (State.trwTook s a1 a2) := by
  unfold State.trwTook
  try dsimp only
  repeat' first
    | with_reducible assumption
    | with_reducible apply State.modIsle_pres C
    | with_reducible intro _
    | fail_if_no_progress with_reducible apply C.update

theorem State.slotEnd_pres (C : Quiet P) {s : State} (a1 : ℕ) (a2 : ℕ) (a3 : TrwState) (h : P s) : P (State.slotEnd s a1 a2 a3) := by
  unfold State.slotEnd
  try dsimp only
  repeat' first
    | with_reducible assumption
    | with_reducible apply State.modIsle_pres C
    | with_reducible apply State.modSlot_pres C
    | with_reducible intro _
    | fail_if_no_progress with_reducible apply C.update

theorem State.trwCmd_pres (C : Quiet P) {s : State} (a1 : Who) (a2 : ℕ) (a3 : Fin 8) (a4 : W36) (h : P s) : OnFst P (State.trwCmd s a1 a2 a3 a4) := by
  unfold State.trwCmd
  try dsimp only
  repeat' first
    | with_reducible assumption
    | with_reducible apply State.answered_pres C
    | (with_reducible apply OnFst.fst; with_reducible apply State.answered_pres C)
    | with_reducible apply State.modSlot_pres C
    | with_reducible apply State.slotEnd_pres C
    | with_reducible apply State.modIsle_pres C
    | with_reducible apply pres_ite
    | with_reducible exact OnNext.fault _
    | with_reducible exact OnFst.get (by with_reducible assumption)
    | with_reducible intro _
    | with_reducible refine OnFst.eq ?_ (by with_reducible assumption)
    | fail_if_no_progress with_reducible apply C.update
    | split
    | with_reducible apply OnFst.mk

theorem State.slotStart_pres (C : Quiet P) {s : State} (a1 : ℕ) (a2 : ℕ) (h : P s) : P (State.slotStart s a1 a2) := by
  unfold State.slotStart
  try dsimp only
  repeat' first
    | with_reducible assumption
    | with_reducible apply State.modSlot_pres C
    | with_reducible apply pres_ite
    | with_reducible intro _
    | split

theorem State.startRow_pres (C : Quiet P) {s : State} (a1 : Fin 12) (a2 : ℕ) (h : P s) : OnNext P (State.startRow s a1 a2) := by
  unfold State.startRow
  try dsimp only
  repeat' first
    | with_reducible assumption
    | with_reducible apply State.slotStart_pres C
    | with_reducible apply pres_ite
    | with_reducible apply OnNext.mk
    | with_reducible intro _

theorem execClean_pres (C : Quiet P) {s : State} (a1 : Fin 12) (h : P s) : OnNext P (execClean a1 s) := by
  unfold execClean
  try dsimp only
  repeat' first
    | with_reducible assumption
    | with_reducible apply State.startRow_pres C

theorem execInval_pres (C : Quiet P) {s : State} (a1 : Fin 12) (h : P s) : OnNext P (execInval a1 s) := by
  unfold execInval
  try dsimp only
  repeat' first
    | with_reducible assumption
    | with_reducible apply State.startRow_pres C

theorem execCleanInval_pres (C : Quiet P) {s : State} (a1 : Fin 12) (h : P s) : OnNext P (execCleanInval a1 s) := by
  unfold execCleanInval
  try dsimp only
  repeat' first
    | with_reducible assumption
    | with_reducible apply State.startRow_pres C

theorem execZero_pres (C : Quiet P) {s : State} (a1 : Fin 12) (h : P s) : OnNext P (execZero a1 s) := by
  unfold execZero
  try dsimp only
  repeat' first
    | with_reducible assumption
    | with_reducible apply State.startRow_pres C

theorem execArrayInval_pres (C : Quiet P) {s : State} (a1 : Fin 12) (h : P s) : OnNext P (execArrayInval a1 s) := by
  unfold execArrayInval
  try dsimp only
  repeat' first
    | with_reducible assumption
    | with_reducible apply State.startRow_pres C

theorem State.slotSettle_pres (C : Quiet P) {s : State} (a1 : ℕ) (a2 : Fin 8) (h : P s) : P (State.slotSettle s a1 a2) := by
  unfold State.slotSettle
  try dsimp only
  repeat' first
    | with_reducible assumption
    | with_reducible apply State.slotEnd_pres C
    | with_reducible apply pres_ite
    | with_reducible intro _
    | split

theorem State.lineIssue_pres (C : Quiet P) {s : State} (a1 : ℕ) (a2 : Fin 8) (h : P s) : P (State.lineIssue s a1 a2) := by
  unfold State.lineIssue
  try dsimp only
  repeat' first
    | with_reducible assumption
    | with_reducible apply State.send_pres C
    | with_reducible apply State.modSlot_pres C
    | with_reducible apply pres_ite
    | with_reducible exact OnNext.fault _
    | with_reducible intro _
    | fail_if_no_progress with_reducible apply C.update
    | split

theorem State.arrayStep_pres (C : Quiet P) {s : State} (a1 : ℕ) (a2 : Fin 8) (h : P s) : P (State.arrayStep s a1 a2) := by
  unfold State.arrayStep
  try dsimp only
  repeat' first
    | with_reducible assumption
    | with_reducible apply State.modSlot_pres C
    | with_reducible apply State.leaveIc_pres C
    | with_reducible apply State.leaveL2_pres C
    | with_reducible apply State.modIsle_pres C
    | with_reducible apply State.modCore_pres C
    | with_reducible apply State.endWindow_pres C
    | with_reducible apply State.slotEnd_pres C
    | with_reducible apply pres_ite
    | with_reducible intro _
    | fail_if_no_progress with_reducible apply C.update
    | split

theorem execTrowelLineIssue_pres (C : Quiet P) (a1 : Fin 12) {s : State} (h : P s) : OnNext P (execTrowelLineIssue a1 s) := by
  unfold execTrowelLineIssue
  try dsimp only
  repeat' first
    | with_reducible assumption
    | with_reducible apply State.slotSettle_pres C
    | with_reducible apply State.lineIssue_pres C
    | with_reducible apply State.arrayStep_pres C
    | with_reducible apply pres_ite
    | with_reducible apply OnNext.mk
    | with_reducible intro _
    | fail_if_no_progress with_reducible apply C.update
    | split

theorem execTrowelLineDone_pres (C : Quiet P) (a1 : Fin 12) {s : State} (h : P s) : OnNext P (execTrowelLineDone a1 s) := by
  unfold execTrowelLineDone
  try dsimp only
  repeat' first
    | with_reducible assumption
    | with_reducible apply State.slotSettle_pres C
    | with_reducible apply State.modSlot_pres C
    | with_reducible apply pres_ite
    | with_reducible apply OnNext.mk
    | with_reducible intro _
    | fail_if_no_progress with_reducible apply C.update
    | split

theorem execCancelledDone_pres (C : Quiet P) (a1 : Fin 12) {s : State} (h : P s) : OnNext P (execCancelledDone a1 s) := by
  unfold execCancelledDone
  try dsimp only
  repeat' first
    | with_reducible assumption
    | with_reducible apply State.slotEnd_pres C
    | with_reducible apply pres_ite
    | with_reducible apply OnNext.mk
    | with_reducible intro _
    | fail_if_no_progress with_reducible apply C.update
    | split

theorem State.trwAbort_pres (C : Quiet P) {s : State} (a1 : ℕ) (h : P s) : P (State.trwAbort s a1) := by
  unfold State.trwAbort
  try dsimp only
  repeat' first
    | with_reducible assumption
    | with_reducible apply State.slotEnd_pres C
    | with_reducible apply pres_fold
    | with_reducible intro _

theorem State.trwField_pres (C : Quiet P) {s : State} (a1 : ℕ) (a2 : Fin 8) (a3 : Bool) (a4 : TrwSlot → TrwSlot) (h : P s) : OnFst P (State.trwField s a1 a2 a3 a4) := by
  unfold State.trwField
  try dsimp only
  repeat' first
    | with_reducible assumption
    | with_reducible apply State.modSlot_pres C
    | with_reducible apply pres_ite
    | with_reducible intro _
    | with_reducible apply OnFst.mk

end Sys2Proof.Machine
end

