-- ==== Sys2Proof/Laws/KeepPump.lean ====
section
/-! SUPPORT. What the operations of Machine/Pump.lean keep. -/

namespace Sys2Proof.Machine

variable {P : State → Prop}

theorem State.lineEvent_pres (C : Quiet P) {s : State} (a1 : LineNo) (h : P s) : OnSome P (State.lineEvent s a1) := by
  unfold State.lineEvent
  try dsimp only
  repeat' first
    | with_reducible assumption
    | with_reducible apply State.endWindow_pres C
    | with_reducible apply State.openQueued_pres C
    | with_reducible apply State.serveRead_pres C
    | with_reducible apply State.deliver_pres C
    | with_reducible apply pres_ite
    | with_reducible apply OnSome.map
    | with_reducible exact OnSome.get (by with_reducible assumption)
    | with_reducible apply OnSome.mk
    | with_reducible exact OnSome.none
    | with_reducible intro _
    | with_reducible refine OnSome.eq ?_ (by with_reducible assumption)
    | fail_if_no_progress with_reducible apply C.update
    | split

theorem State.pumpStep_pres (C : Quiet P) {s : State} (a1 : LineNo) (h : P s) : OnSome P (State.pumpStep s a1) := by
  unfold State.pumpStep
  split
  · exact OnSome.mk ((State.lineEvent_pres C _ h).eq ‹_›)
  · intro u e
    obtain ⟨r, -, k⟩ := List.exists_of_findSome?_eq_some e
    exact State.lineEvent_pres C r h u k

theorem State.pump_pres (C : Quiet P) {s : State} (a1 : LineNo) (a2 : ℕ) (h : P s) : P (State.pump s a1 a2) := by
  induction a2 generalizing s with
  | zero => exact h
  | succ k ih =>
    unfold State.pump
    split
    · exact ih ((State.pumpStep_pres C _ h).eq ‹_›)
    · exact h

theorem State.rest_pres (C : Quiet P) {s : State} (a1 : LineNo) (h : P s) : P (State.rest s a1) := by
  unfold State.rest
  try dsimp only
  repeat' first
    | with_reducible assumption
    | with_reducible apply State.pump_pres C

theorem State.uncached_pres (C : Quiet P) {s : State} (a1 : Msg) (h : P s) : OnFst P (State.uncached s a1) := by
  unfold State.uncached
  try dsimp only
  repeat' first
    | with_reducible assumption
    | with_reducible apply State.rest_pres C
    | with_reducible apply State.resend_pres C
    | with_reducible apply State.send_pres C
    | fail_if_no_progress with_reducible apply C.update
    | split
    | with_reducible apply OnFst.mk

theorem State.evictNow_pres (C : Quiet P) {s : State} (a1 : ℕ) (a2 : ℕ) (h : P s) : P (State.evictNow s a1 a2) := by
  unfold State.evictNow
  try dsimp only
  repeat' first
    | with_reducible assumption
    | with_reducible apply State.endWindow_pres C
    | with_reducible apply State.rest_pres C
    | with_reducible apply State.evictLine_pres C

theorem State.emptyIsle_pres (C : Quiet P) {s : State} (a1 : ℕ) (h : P s) : P (State.emptyIsle s a1) := by
  unfold State.emptyIsle
  try dsimp only
  repeat' first
    | with_reducible assumption
    | with_reducible apply State.modCore_pres C
    | with_reducible apply State.modIsle_pres C
    | with_reducible apply State.evictNow_pres C
    | with_reducible apply pres_fold
    | with_reducible intro _
    | fail_if_no_progress with_reducible apply C.update

theorem State.flushCore_pres (C : Quiet P) {s : State} (a1 : ℕ) (a2 : ℕ) (h : P s) : P (State.flushCore s a1 a2) := by
  unfold State.flushCore
  try dsimp only
  repeat' first
    | with_reducible assumption
    | with_reducible apply State.modCore_pres C
    | with_reducible apply State.rest_pres C
    | with_reducible apply State.leaveL2_pres C
    | with_reducible apply State.endWindow_pres C
    | with_reducible apply pres_ite
    | with_reducible apply pres_fold
    | with_reducible intro _
    | fail_if_no_progress with_reducible apply C.update

theorem State.arrayFlight_pres (C : Quiet P) {s : State} (a1 : ℕ) (a2 : Fin 8) (h : P s) : P (State.arrayFlight s a1 a2) := by
  unfold State.arrayFlight
  try dsimp only
  repeat' first
    | with_reducible assumption
    | with_reducible apply State.rest_pres C
    | with_reducible apply State.modSlot_pres C
    | with_reducible apply pres_ite
    | with_reducible apply pres_fold
    | with_reducible intro _

theorem State.arrayWalk_pres (C : Quiet P) {s : State} (a1 : ℕ) (a2 : Fin 8) (a3 : ℕ) (h : P s) : P (State.arrayWalk s a1 a2 a3) := by
  induction a3 generalizing s with
  | zero => exact h
  | succ k ih =>
    unfold State.arrayWalk
    exact pres_ite (fun _ => ih (State.arrayFlight_pres C _ _ (State.arrayStep_pres C _ _ h))) fun _ => h

theorem execArrayInvalDone_pres (C : Quiet P) (a1 : Fin 12) {s : State} (h : P s) : OnNext P (execArrayInvalDone a1 s) := by
  unfold execArrayInvalDone
  try dsimp only
  repeat' first
    | with_reducible assumption
    | with_reducible apply State.arrayWalk_pres C
    | with_reducible apply pres_ite
    | with_reducible apply OnNext.mk
    | with_reducible intro _
    | fail_if_no_progress with_reducible apply C.update
    | split

end Sys2Proof.Machine
end

