-- ==== Sys2Proof/Laws/KeepStraits.lean ====
section
/-! SUPPORT. What the operations of Machine/Straits.lean keep. -/

namespace Sys2Proof.Machine

variable {P : State → Prop}

theorem State.relane_pres (C : Quiet P) {s : State} (a1 : ℕ) (a2 : Strait → Strait) (h : P s) : P (State.relane s a1 a2) := by
  unfold State.relane
  try dsimp only
  repeat' first
    | with_reducible assumption
    | with_reducible apply State.modStrait_pres C
    | (with_reducible apply OnFst.fst; with_reducible apply State.claim_pres C)
    | with_reducible apply State.release_pres C
    | with_reducible apply pres_ite
    | with_reducible intro _

theorem State.relaneDir_pres (C : Quiet P) {s : State} (a1 : ℕ) (a2 : Bool) (a3 : Dir → Dir) (h : P s) : P (State.relaneDir s a1 a2 a3) := by
  unfold State.relaneDir
  try dsimp only
  repeat' first
    | with_reducible assumption
    | with_reducible apply State.relane_pres C

theorem State.recStrait_pres (C : Quiet P) {s : State} (a1 : ℕ) (a2 : BitVec 16) (a3 : List ℕ) (h : P s) : P (State.recStrait s a1 a2 a3) := by
  unfold State.recStrait
  try dsimp only
  repeat' first
    | with_reducible assumption
    | with_reducible apply State.recKey_pres C

theorem State.detect_pres (C : Quiet P) {s : State} (a1 : ℕ) (a2 : Report) (h : P s) : P (State.detect s a1 a2) := by
  unfold State.detect
  try dsimp only
  repeat' first
    | with_reducible assumption
    | with_reducible apply State.modStrait_pres C
    | with_reducible apply pres_ite
    | with_reducible intro _
    | fail_if_no_progress with_reducible apply C.update

theorem State.coreScope_pres (C : Loud P) {s : State} (a1 : ℕ) (h : P s) : P (State.coreScope s a1) := by
  unfold State.coreScope
  try dsimp only
  repeat' first
    | with_reducible assumption
    | with_reducible apply State.modCore_pres C.toQuiet
    | (refine State.modThread_pres C _ _ ?_ ?_)
    | (with_reducible intro x k; first | exact Thread.legal_scopeReset _ | exact Thread.legal_congr k rfl rfl rfl rfl rfl rfl rfl rfl | exact Thread.legal_trap k _ _ _ | exact Thread.legal_launchEnd k _ | exact Thread.legal_setWreg k _ (WReg.legal_congr (Thread.legal_wreg k _) rfl rfl rfl))
    | with_reducible intro _
    | fail_if_no_progress with_reducible apply C.toQuiet.update

theorem State.coreGone_pres (C : Loud P) {s : State} (a1 : ℕ) (h : P s) : P (State.coreGone s a1) := by
  unfold State.coreGone
  try dsimp only
  repeat' first
    | with_reducible assumption
    | with_reducible apply State.modCore_pres C.toQuiet
    | with_reducible apply State.coreScope_pres C

theorem State.isleScope_pres (C : Loud P) {s : State} (a1 : ℕ) (h : P s) : P (State.isleScope s a1) := by
  unfold State.isleScope
  try dsimp only
  repeat' first
    | with_reducible assumption
    | with_reducible apply State.modIsle_pres C.toQuiet
    | with_reducible apply State.coreGone_pres C
    | with_reducible apply pres_fold
    | with_reducible intro _
    | fail_if_no_progress with_reducible apply C.toQuiet.update

theorem State.isleReset_pres (C : Loud P) {s : State} (a1 : ℕ) (h : P s) : P (State.isleReset s a1) := by
  unfold State.isleReset
  try dsimp only
  repeat' first
    | with_reducible assumption
    | with_reducible apply State.modIsle_pres C.toQuiet
    | with_reducible apply State.isleScope_pres C
    | with_reducible intro _
    | fail_if_no_progress with_reducible apply C.toQuiet.update

theorem State.trained_pres (C : Quiet P) {s : State} (a1 : ℕ) (a2 : BitVec 104) (a3 : BitVec 104) (h : P s) : OnFst P (State.trained s a1 a2 a3) := by
  unfold State.trained
  try dsimp only
  repeat' first
    | with_reducible assumption
    | with_reducible apply State.release_pres C
    | with_reducible apply State.relane_pres C
    | with_reducible apply State.modIsle_pres C
    | split
    | with_reducible apply OnFst.mk

theorem State.trainStart_pres (C : Quiet P) {s : State} (a1 : ℕ) (h : P s) : OnFst P (State.trainStart s a1) := by
  unfold State.trainStart
  try dsimp only
  repeat' first
    | with_reducible assumption
    | with_reducible apply State.claim_pres C
    | with_reducible apply State.modStrait_pres C
    | with_reducible apply State.recKey_pres C
    | with_reducible refine OnFst.eq ?_ (by with_reducible assumption)
    | split
    | with_reducible apply OnFst.mk

theorem execFullTraining_pres (C : Loud P) (a1 : Fin 12) {s : State} (h : P s) : OnNext P (execFullTraining a1 s) := by
  unfold execFullTraining
  try dsimp only
  repeat' first
    | with_reducible assumption
    | with_reducible apply State.trainStart_pres C.toQuiet
    | (with_reducible apply OnFst.fst; with_reducible apply State.trainStart_pres C.toQuiet)
    | with_reducible apply State.isleReset_pres C
    | with_reducible apply pres_ite
    | with_reducible apply OnNext.mk
    | with_reducible exact OnFst.get (by with_reducible assumption)
    | with_reducible intro _
    | with_reducible refine OnFst.eq ?_ (by with_reducible assumption)
    | fail_if_no_progress with_reducible apply C.toQuiet.update
    | split
    | with_reducible apply OnFst.mk

theorem execFullTrainingDone_pres (C : Quiet P) (a1 : Fin 12) (a2 : BitVec 104) (a3 : BitVec 104) {s : State} (h : P s) : OnNext P (execFullTrainingDone a1 a2 a3 s) := by
  unfold execFullTrainingDone
  try dsimp only
  repeat' first
    | with_reducible assumption
    | with_reducible apply State.endIsle_pres C
    | with_reducible apply State.trained_pres C
    | (with_reducible apply OnFst.fst; with_reducible apply State.trained_pres C)
    | with_reducible apply pres_ite
    | with_reducible apply OnNext.mk
    | with_reducible exact OnFst.get (by with_reducible assumption)
    | with_reducible intro _
    | with_reducible refine OnFst.eq ?_ (by with_reducible assumption)
    | fail_if_no_progress with_reducible apply C.update
    | split
    | with_reducible apply OnFst.mk

theorem State.lhResync_pres (C : Quiet P) {s : State} (a1 : ℕ) (h : P s) : P (State.lhResync s a1) := by
  unfold State.lhResync
  try dsimp only
  repeat' first
    | with_reducible assumption
    | with_reducible apply State.modIsle_pres C
    | with_reducible apply pres_ite
    | with_reducible intro _
    | fail_if_no_progress with_reducible apply C.update

theorem State.quarantine_pres (C : Quiet P) {s : State} (a1 : ℕ) (a2 : Bool) (a3 : Bool) (a4 : Bool) (h : P s) : P (State.quarantine s a1 a2 a3 a4) := by
  unfold State.quarantine
  try dsimp only
  repeat' first
    | with_reducible assumption
    | with_reducible apply State.modStrait_pres C
    | with_reducible apply State.modIsle_pres C
    | with_reducible apply State.recKey_pres C
    | fail_if_no_progress with_reducible apply C.update

theorem State.admitIsle_pres (C : Quiet P) {s : State} (a1 : ℕ) (a2 : BitVec 16) (h : P s) : OnFst P (State.admitIsle s a1 a2) := by
  unfold State.admitIsle
  try dsimp only
  repeat' first
    | with_reducible assumption
    | with_reducible apply State.lhResync_pres C
    | with_reducible apply State.modStrait_pres C
    | with_reducible apply State.quarantine_pres C
    | with_reducible apply State.modIsle_pres C
    | with_reducible apply State.recKey_pres C
    | with_reducible apply pres_ite
    | with_reducible intro _
    | fail_if_no_progress with_reducible apply C.update
    | split
    | with_reducible apply OnFst.mk

theorem execAdmission_pres (C : Quiet P) (a1 : Fin 12) (a2 : BitVec 16) {s : State} (h : P s) : OnNext P (execAdmission a1 a2 s) := by
  unfold execAdmission
  try dsimp only
  repeat' first
    | with_reducible assumption
    | with_reducible apply State.endIsle_pres C
    | with_reducible apply State.modIsle_pres C
    | with_reducible apply State.admitIsle_pres C
    | (with_reducible apply OnFst.fst; with_reducible apply State.admitIsle_pres C)
    | with_reducible apply pres_ite
    | with_reducible apply OnNext.mk
    | with_reducible intro _
    | with_reducible refine OnFst.eq ?_ (by with_reducible assumption)
    | fail_if_no_progress with_reducible apply C.update
    | with_reducible apply OnFst.mk

theorem State.stopRecal_pres (C : Quiet P) {s : State} (a1 : ℕ) (h : P s) : P (State.stopRecal s a1) := by
  unfold State.stopRecal
  try dsimp only
  repeat' first
    | with_reducible assumption
    | with_reducible apply State.release_pres C
    | with_reducible apply State.relaneDir_pres C
    | with_reducible apply State.modStrait_pres C
    | split

theorem State.laneFail_pres (C : Quiet P) {s : State} (a1 : ℕ) (a2 : Bool) (a3 : ℕ) (a4 : ℕ) (h : P s) : P (State.laneFail s a1 a2 a3 a4) := by
  unfold State.laneFail
  try dsimp only
  repeat' first
    | with_reducible assumption
    | with_reducible apply State.recStrait_pres C
    | with_reducible apply State.modStrait_pres C
    | with_reducible apply State.relaneDir_pres C
    | with_reducible apply State.release_pres C
    | with_reducible apply State.stopRecal_pres C
    | split

theorem State.afterFail_pres (C : Quiet P) {s : State} (a1 : ℕ) (a2 : Bool) (h : P s) : P (State.afterFail s a1 a2) := by
  unfold State.afterFail
  try dsimp only
  repeat' first
    | with_reducible assumption
    | with_reducible apply State.modStrait_pres C
    | with_reducible apply State.detect_pres C
    | with_reducible apply pres_ite
    | with_reducible intro _

theorem execLaneFailed_pres (C : Quiet P) (a1 : Fin 12) (a2 : Bool) (a3 : BitVec 104) (a4 : Fin 3) {s : State} (h : P s) : OnNext P (execLaneFailed a1 a2 a3 a4 s) := by
  unfold execLaneFailed
  try dsimp only
  repeat' first
    | with_reducible assumption
    | with_reducible apply State.afterFail_pres C
    | with_reducible apply State.laneFail_pres C
    | with_reducible apply pres_ite
    | with_reducible apply pres_fold
    | with_reducible apply OnNext.mk
    | with_reducible intro _

theorem State.doSubst_pres (C : Quiet P) {s : State} (a1 : ℕ) (a2 : Bool) (a3 : ℕ) (h : P s) : P (State.doSubst s a1 a2 a3) := by
  unfold State.doSubst
  try dsimp only
  repeat' first
    | with_reducible assumption
    | with_reducible apply State.relane_pres C
    | with_reducible apply State.recStrait_pres C
    | with_reducible apply pres_fold
    | with_reducible intro _

theorem State.endStall_pres (C : Quiet P) {s : State} (a1 : ℕ) (h : P s) : P (State.endStall s a1) := by
  unfold State.endStall
  try dsimp only
  repeat' first
    | with_reducible assumption
    | with_reducible apply State.modStrait_pres C
    | with_reducible apply pres_ite
    | with_reducible intro _
    | fail_if_no_progress with_reducible apply C.update

theorem execSubstituted_pres (C : Quiet P) (a1 : Fin 12) (a2 : Bool) (a3 : BitVec 32) {s : State} (h : P s) : OnNext P (execSubstituted a1 a2 a3 s) := by
  unfold execSubstituted
  try dsimp only
  repeat' first
    | with_reducible assumption
    | with_reducible apply State.endStall_pres C
    | with_reducible apply State.doSubst_pres C
    | with_reducible apply pres_ite
    | with_reducible apply OnNext.mk
    | with_reducible intro _

theorem State.doNarrow_pres (C : Quiet P) {s : State} (a1 : ℕ) (a2 : Bool) (a3 : ℕ) (a4 : ℕ) (h : P s) : P (State.doNarrow s a1 a2 a3 a4) := by
  induction a4 generalizing s with
  | zero =>
    unfold State.doNarrow
    try dsimp only
    repeat' first
      | with_reducible assumption
      | with_reducible apply ih
      | with_reducible apply State.recStrait_pres C
      | with_reducible apply State.relane_pres C
      | with_reducible apply State.detect_pres C
      | with_reducible apply State.stopRecal_pres C
      | with_reducible apply pres_ite
      | with_reducible intro _
      | fail_if_no_progress with_reducible apply C.update
      | split
  | succ k ih =>
    unfold State.doNarrow
    try dsimp only
    repeat' first
      | with_reducible assumption
      | with_reducible apply ih
      | with_reducible apply State.recStrait_pres C
      | with_reducible apply State.relane_pres C
      | with_reducible apply State.detect_pres C
      | with_reducible apply State.stopRecal_pres C
      | with_reducible apply pres_ite
      | with_reducible intro _
      | fail_if_no_progress with_reducible apply C.update
      | split

theorem execNarrowed_pres (C : Quiet P) (a1 : Fin 12) (a2 : Bool) (a3 : BitVec 32) {s : State} (h : P s) : OnNext P (execNarrowed a1 a2 a3 s) := by
  unfold execNarrowed
  try dsimp only
  repeat' first
    | with_reducible assumption
    | with_reducible apply State.endStall_pres C
    | with_reducible apply State.doNarrow_pres C
    | with_reducible apply State.doSubst_pres C
    | with_reducible apply pres_ite
    | with_reducible apply OnNext.mk
    | with_reducible intro _

theorem execLaneRestored_pres (C : Quiet P) (a1 : Fin 12) (a2 : Bool) (a3 : Bool) {s : State} (h : P s) : OnNext P (execLaneRestored a1 a2 a3 s) := by
  unfold execLaneRestored
  try dsimp only
  repeat' first
    | with_reducible assumption
    | with_reducible apply State.recStrait_pres C
    | with_reducible apply State.relaneDir_pres C
    | with_reducible apply State.release_pres C
    | with_reducible apply State.recKey_pres C
    | with_reducible apply State.claim_pres C
    | (with_reducible apply OnFst.fst; with_reducible apply State.claim_pres C)
    | with_reducible apply pres_ite
    | with_reducible apply OnNext.mk
    | with_reducible exact OnFst.get (by with_reducible assumption)
    | with_reducible intro _
    | with_reducible refine OnFst.eq ?_ (by with_reducible assumption)
    | fail_if_no_progress with_reducible apply C.update
    | split
    | with_reducible apply OnFst.mk

theorem execFlitCrcReplay_pres (C : Quiet P) (a1 : Fin 12) (a2 : Bool) (a3 : BitVec 12) (a4 : BitVec 104) {s : State} (h : P s) : OnNext P (execFlitCrcReplay a1 a2 a3 a4 s) := by
  unfold execFlitCrcReplay
  try dsimp only
  repeat' first
    | with_reducible assumption
    | with_reducible apply State.modStrait_pres C
    | with_reducible apply pres_ite
    | with_reducible apply OnNext.mk
    | with_reducible intro _

theorem execSidebandFailover_pres (C : Quiet P) (a1 : Fin 12) (a2 : Bool) {s : State} (h : P s) : OnNext P (execSidebandFailover a1 a2 s) := by
  unfold execSidebandFailover
  try dsimp only
  repeat' first
    | with_reducible assumption
    | with_reducible apply State.detect_pres C
    | with_reducible apply State.recStrait_pres C
    | with_reducible apply State.relaneDir_pres C
    | with_reducible apply pres_ite
    | with_reducible apply OnNext.mk
    | with_reducible intro _
    | fail_if_no_progress with_reducible apply C.update
    | split

theorem execBackupSidebandLaneFailed_pres (C : Quiet P) (a1 : Fin 12) (a2 : Bool) {s : State} (h : P s) : OnNext P (execBackupSidebandLaneFailed a1 a2 s) := by
  unfold execBackupSidebandLaneFailed
  try dsimp only
  repeat' first
    | with_reducible assumption
    | with_reducible apply State.detect_pres C
    | with_reducible apply State.relaneDir_pres C
    | with_reducible apply pres_ite
    | with_reducible apply OnNext.mk
    | with_reducible intro _
    | fail_if_no_progress with_reducible apply C.update

theorem State.recalLane_pres (C : Quiet P) {s : State} (a1 : ℕ) (a2 : ℕ) (h : P s) : OnFst P (State.recalLane s a1 a2) := by
  unfold State.recalLane
  try dsimp only
  repeat' first
    | with_reducible assumption
    | with_reducible apply State.modStrait_pres C
    | with_reducible apply State.claim_pres C
    | with_reducible apply State.relaneDir_pres C
    | with_reducible refine OnFst.eq ?_ (by with_reducible assumption)
    | split
    | with_reducible apply OnFst.mk

theorem State.recalNext_pres (C : Quiet P) {s : State} (a1 : ℕ) (a2 : List ℕ) (h : P s) : P (State.recalNext s a1 a2) := by
  induction a2 generalizing s with
  | nil =>
    unfold State.recalNext
    try dsimp only
    repeat' first
      | with_reducible assumption
      | with_reducible apply State.modStrait_pres C
  | cons x l ih =>
    unfold State.recalNext
    try dsimp only
    repeat' first
      | with_reducible assumption
      | with_reducible apply ih
      | with_reducible apply State.modStrait_pres C
      | with_reducible apply State.recalLane_pres C
      | with_reducible refine OnFst.eq ?_ (by with_reducible assumption)
      | split

theorem State.recalStart_pres (C : Quiet P) {s : State} (a1 : ℕ) (h : P s) : P (State.recalStart s a1) := by
  unfold State.recalStart
  try dsimp only
  repeat' first
    | with_reducible assumption
    | with_reducible apply State.recalNext_pres C
    | with_reducible apply State.modStrait_pres C
    | with_reducible apply pres_ite
    | with_reducible intro _

theorem execRecalPassStart_pres (C : Quiet P) (a1 : Fin 12) {s : State} (h : P s) : OnNext P (execRecalPassStart a1 s) := by
  unfold execRecalPassStart
  try dsimp only
  repeat' first
    | with_reducible assumption
    | with_reducible apply State.recalStart_pres C
    | with_reducible apply pres_ite
    | with_reducible apply OnNext.mk
    | with_reducible intro _
    | split

theorem State.recalctl_pres (C : Quiet P) {s : State} (a1 : ℕ) (a2 : W36) (h : P s) : OnFst P (State.recalctl s a1 a2) := by
  unfold State.recalctl
  try dsimp only
  repeat' first
    | with_reducible assumption
    | with_reducible apply State.modStrait_pres C
    | with_reducible apply State.recalStart_pres C
    | with_reducible apply pres_ite
    | with_reducible intro _
    | split
    | with_reducible apply OnFst.mk

theorem execRun_pres (C : Quiet P) {s : State} (a1 : Who) (a2 : Fin 12) (a3 : W36) (h : P s) : OnNext P (execRun a1 a2 a3 s) := by
  unfold execRun
  try dsimp only
  repeat' first
    | with_reducible assumption
    | (with_reducible apply OnFst.fst; with_reducible apply State.recalctl_pres C)
    | with_reducible apply OnNext.mk

theorem execRecalLaneDone_pres (C : Quiet P) (a1 : Fin 12) {s : State} (h : P s) : OnNext P (execRecalLaneDone a1 s) := by
  unfold execRecalLaneDone
  try dsimp only
  repeat' first
    | with_reducible assumption
    | with_reducible apply State.recalNext_pres C
    | with_reducible apply State.stopRecal_pres C
    | with_reducible apply pres_ite
    | with_reducible apply OnNext.mk
    | with_reducible intro _
    | split

theorem execHeartbeat_pres (C : Quiet P) (a1 : Fin 12) (a2 : Bool) (a3 : Bool) (a4 : BitVec 8) {s : State} (h : P s) : OnNext P (execHeartbeat a1 a2 a3 a4 s) := by
  unfold execHeartbeat
  try dsimp only
  repeat' first
    | with_reducible assumption
    | with_reducible apply State.detect_pres C
    | with_reducible apply State.modIsle_pres C
    | with_reducible apply State.modStrait_pres C
    | with_reducible apply pres_ite
    | with_reducible apply OnNext.mk
    | with_reducible intro _
    | fail_if_no_progress with_reducible apply C.update
    | split

theorem execHeartbeatTimeout_pres (C : Quiet P) (a1 : Fin 12) {s : State} (h : P s) : OnNext P (execHeartbeatTimeout a1 s) := by
  unfold execHeartbeatTimeout
  try dsimp only
  repeat' first
    | with_reducible assumption
    | with_reducible apply State.detect_pres C
    | with_reducible apply pres_ite
    | with_reducible apply OnNext.mk
    | with_reducible intro _

theorem State.forgetThreads_pres (C : Quiet P) {s : State} (a1 : ℕ) (h : P s) : P (State.forgetThreads s a1) := by
  unfold State.forgetThreads
  try dsimp only
  repeat' first
    | with_reducible assumption
    | fail_if_no_progress with_reducible apply C.update

theorem State.abortIsleHandles_pres (C : Quiet P) {s : State} (a1 : ℕ) (h : P s) : P (State.abortIsleHandles s a1) := by
  unfold State.abortIsleHandles
  try dsimp only
  repeat' first
    | with_reducible assumption
    | with_reducible apply State.endHandle_pres C
    | with_reducible apply pres_ite
    | with_reducible intro _
    | fail_if_no_progress with_reducible apply C.update
    | split

theorem State.hoEnd_pres (C : Quiet P) {s : State} (a1 : HoClass) (a2 : Bool) (a3 : Bool) (a4 : ℕ) (h : P s) : P (State.hoEnd s a1 a2 a3 a4) := by
  unfold State.hoEnd
  try dsimp only
  repeat' first
    | with_reducible assumption
    | with_reducible apply State.endHandle_pres C
    | with_reducible apply State.recKey_pres C
    | fail_if_no_progress with_reducible apply C.update

theorem State.isleLost_pres (C : Loud P) {s : State} (a1 : Fin 12) (a2 : Report) (h : P s) : P (State.isleLost s a1 a2) := by
  unfold State.isleLost
  try dsimp only
  repeat' first
    | with_reducible assumption
    | with_reducible apply State.purge_pres C.toQuiet
    | with_reducible apply State.hoEnd_pres C.toQuiet
    | with_reducible apply State.abortIsleHandles_pres C.toQuiet
    | with_reducible apply State.modStrait_pres C.toQuiet
    | with_reducible apply State.release_pres C.toQuiet
    | with_reducible apply State.modCore_pres C.toQuiet
    | with_reducible apply State.modIsle_pres C.toQuiet
    | with_reducible apply State.forgetThreads_pres C.toQuiet
    | with_reducible apply State.isleScope_pres C
    | with_reducible apply State.stopRecal_pres C.toQuiet
    | with_reducible apply State.trwAbort_pres C.toQuiet
    | with_reducible apply State.recStrait_pres C.toQuiet
    | with_reducible apply pres_ite
    | with_reducible apply pres_fold
    | with_reducible intro _
    | fail_if_no_progress with_reducible apply C.toQuiet.update
    | split

theorem execWatchdogReport_pres (C : Loud P) (a1 : Fin 12) (a2 : Report) {s : State} (h : P s) : OnNext P (execWatchdogReport a1 a2 s) := by
  unfold execWatchdogReport
  try dsimp only
  repeat' first
    | with_reducible assumption
    | with_reducible apply State.isleLost_pres C
    | with_reducible apply pres_ite
    | with_reducible apply OnNext.mk
    | with_reducible intro _

theorem State.vcoreOff_pres (C : Quiet P) {s : State} (a1 : ℕ) (h : P s) : P (State.vcoreOff s a1) := by
  unfold State.vcoreOff
  try dsimp only
  repeat' first
    | with_reducible assumption
    | with_reducible apply State.modIsle_pres C
    | with_reducible apply State.release_pres C
    | with_reducible apply State.modStrait_pres C
    | with_reducible intro _
    | fail_if_no_progress with_reducible apply C.update

theorem execVcoreRemove_pres (C : Quiet P) (a1 : Fin 12) {s : State} (h : P s) : OnNext P (execVcoreRemove a1 s) := by
  unfold execVcoreRemove
  try dsimp only
  repeat' first
    | with_reducible assumption
    | with_reducible apply State.vcoreOff_pres C
    | with_reducible apply pres_ite
    | with_reducible apply OnNext.mk
    | with_reducible intro _

end Sys2Proof.Machine
end

