-- ==== Sys2Proof/Laws/KeepPower.lean ====
section
/-! SUPPORT. What the operations of Machine/Power.lean keep. -/

namespace Sys2Proof.Machine

variable {P : State → Prop}

theorem State.modStream_pres (C : Quiet P) {s : State} (a1 : PUnit) (a2 : Stream → Stream) (h : P s) : P (State.modStream s a1 a2) := by
  unfold State.modStream
  try dsimp only
  repeat' first
    | with_reducible assumption
    | with_reducible apply State.modCore_pres C
    | with_reducible apply State.modIsle_pres C
    | with_reducible apply State.modBlock_pres C
    | with_reducible apply pres_ite
    | with_reducible intro _
    | fail_if_no_progress with_reducible apply C.update
    | split

theorem State.slackAsked_pres (C : Quiet P) {s : State} (a1 : PUnit) (a2 : PReq) (h : P s) : P (State.slackAsked s a1 a2) := by
  unfold State.slackAsked
  repeat' first
    | with_reducible assumption
    | with_reducible apply State.modCore_pres C
    | split

theorem State.activate_pres (C : Quiet P) {s : State} (a1 : PUnit) (a2 : PReq) (h : P s) : P (State.activate s a1 a2) := by
  unfold State.activate
  try dsimp only
  repeat' first
    | with_reducible assumption
    | with_reducible apply State.slackAsked_pres C
    | with_reducible apply State.modStream_pres C
    | (with_reducible apply OnFst.fst; with_reducible apply State.claim_pres C)
    | with_reducible apply pres_ite
    | with_reducible intro _
    | split

theorem State.nextHeld_pres (C : Quiet P) {s : State} (a1 : PUnit) (h : P s) : P (State.nextHeld s a1) := by
  unfold State.nextHeld
  try dsimp only
  repeat' first
    | with_reducible assumption
    | with_reducible apply State.activate_pres C
    | with_reducible apply State.modStream_pres C
    | split

theorem State.request_pres (C : Quiet P) {s : State} (a1 : PUnit) (a2 : PReq) (h : P s) : P (State.request s a1 a2) := by
  unfold State.request
  try dsimp only
  repeat' first
    | with_reducible assumption
    | with_reducible apply State.activate_pres C
    | with_reducible apply State.modStream_pres C
    | split

theorem State.refuseAct_pres (C : Quiet P) {s : State} (a1 : PUnit) (a2 : BitVec 4) (h : P s) : P (State.refuseAct s a1 a2) := by
  unfold State.refuseAct
  try dsimp only
  repeat' first
    | with_reducible assumption
    | with_reducible apply State.nextHeld_pres C
    | with_reducible apply State.modStream_pres C

theorem execCoreAutoslackEnter_pres (C : Quiet P) (a1 : Fin 288) {s : State} (h : P s) : OnNext P (execCoreAutoslackEnter a1 s) := by
  unfold execCoreAutoslackEnter
  try dsimp only
  repeat' first
    | with_reducible assumption
    | with_reducible apply State.modCore_pres C
    | with_reducible apply pres_ite
    | with_reducible apply OnNext.mk
    | with_reducible intro _
    | fail_if_no_progress with_reducible apply C.update

theorem execIsleSlackEnter_pres (C : Quiet P) (a1 : Fin 12) {s : State} (h : P s) : OnNext P (execIsleSlackEnter a1 s) := by
  unfold execIsleSlackEnter
  try dsimp only
  repeat' first
    | with_reducible assumption
    | with_reducible apply State.modIsle_pres C
    | with_reducible apply pres_ite
    | with_reducible apply OnNext.mk
    | with_reducible intro _
    | fail_if_no_progress with_reducible apply C.update

theorem execIsleSlackExit_pres (C : Quiet P) (a1 : Fin 12) {s : State} (h : P s) : OnNext P (execIsleSlackExit a1 s) := by
  unfold execIsleSlackExit
  try dsimp only
  repeat' first
    | with_reducible assumption
    | with_reducible apply State.modIsle_pres C
    | with_reducible apply pres_ite
    | with_reducible apply OnNext.mk
    | with_reducible intro _
    | fail_if_no_progress with_reducible apply C.update

theorem State.coreNeap_pres (C : Loud P) {s : State} (a1 : ℕ) (h : P s) : P (State.coreNeap s a1) := by
  unfold State.coreNeap
  try dsimp only
  repeat' first
    | with_reducible assumption
    | (refine State.modThread_pres C _ _ ?_ ?_)
    | with_reducible apply State.modCore_pres C.toQuiet
    | with_reducible apply State.release_pres C.toQuiet
    | (with_reducible intro x k; first | exact Thread.legal_scopeReset _ | exact Thread.legal_congr k rfl rfl rfl rfl rfl rfl rfl rfl | exact Thread.legal_trap k _ _ _ | exact Thread.legal_launchEnd k _ | exact Thread.legal_setWreg k _ (WReg.legal_congr (Thread.legal_wreg k _) rfl rfl rfl))
    | with_reducible intro _
    | fail_if_no_progress with_reducible apply C.toQuiet.update

theorem State.coreRestore_pres (C : Quiet P) {s : State} (a1 : ℕ) (h : P s) : P (State.coreRestore s a1) := by
  unfold State.coreRestore
  try dsimp only
  repeat' first
    | with_reducible assumption
    | with_reducible apply State.modCore_pres C

theorem State.coreDry_pres (C : Loud P) {s : State} (a1 : ℕ) (h : P s) : P (State.coreDry s a1) := by
  unfold State.coreDry
  try dsimp only
  repeat' first
    | with_reducible assumption
    | with_reducible apply State.release_pres C.toQuiet
    | with_reducible apply State.coreGone_pres C
    | with_reducible apply State.flushCore_pres C.toQuiet

theorem State.coreUp_pres (C : Loud P) {s : State} (a1 : ℕ) (h : P s) : P (State.coreUp s a1) := by
  unfold State.coreUp
  try dsimp only
  repeat' first
    | with_reducible assumption
    | with_reducible apply State.modCore_pres C.toQuiet
    | with_reducible apply State.coreScope_pres C
    | with_reducible intro _
    | fail_if_no_progress with_reducible apply C.toQuiet.update

theorem State.coreRow_pres (C : Quiet P) {s : State} (a1 : Fin 288) (a2 : PReq → State) (h2 : ∀ x0, P (a2 x0)) (h : P s) : OnNext P (State.coreRow s a1 a2) := by
  unfold State.coreRow
  try dsimp only
  repeat' first
    | with_reducible assumption
    | with_reducible apply h2
    | with_reducible apply pres_ite
    | with_reducible apply OnNext.mk
    | with_reducible intro _
    | fail_if_no_progress with_reducible apply C.update
    | split

theorem execCoreToNeap_pres (C : Loud P) (a1 : Fin 288) {s : State} (h : P s) : OnNext P (execCoreToNeap a1 s) := by
  unfold execCoreToNeap
  try dsimp only
  repeat' first
    | with_reducible assumption
    | with_reducible apply State.modStream_pres C.toQuiet
    | with_reducible apply State.coreNeap_pres C
    | with_reducible apply State.refuseAct_pres C.toQuiet
    | with_reducible apply State.coreRow_pres C.toQuiet
    | with_reducible apply pres_ite
    | with_reducible apply OnNext.mk
    | with_reducible intro _
    | fail_if_no_progress with_reducible apply C.toQuiet.update

theorem State.isleRaise_pres (C : Quiet P) {s : State} (a1 : ℕ) (h : P s) : OnSome P (State.isleRaise s a1) := by
  unfold State.isleRaise
  try dsimp only
  repeat' first
    | with_reducible assumption
    | with_reducible apply State.claim_pres C
    | with_reducible apply State.coreRestore_pres C
    | with_reducible apply State.modIsle_pres C
    | with_reducible apply pres_ite
    | with_reducible apply pres_fold
    | with_reducible apply OnSome.mk
    | with_reducible exact OnSome.none
    | with_reducible intro _
    | with_reducible refine OnFst.eq ?_ (by with_reducible assumption)
    | split

theorem execCoreNeapToRun_pres (C : Quiet P) {s : State} (a1 : Fin 288) (h : P s) : OnNext P (execCoreNeapToRun a1 s) := by
  unfold execCoreNeapToRun
  try dsimp only
  repeat' first
    | with_reducible assumption
    | with_reducible apply State.coreRow_pres C
    | with_reducible apply State.isleRaise_pres C
    | with_reducible apply State.refuseAct_pres C
    | with_reducible apply State.claim_pres C
    | (with_reducible apply OnFst.fst; with_reducible apply State.claim_pres C)
    | with_reducible apply State.coreRestore_pres C
    | with_reducible apply pres_ite
    | with_reducible intro _
    | with_reducible refine OnFst.eq ?_ (by with_reducible assumption)
    | with_reducible refine OnSome.eq ?_ (by with_reducible assumption)
    | split

theorem execCoreToDry_pres (C : Loud P) (a1 : Fin 288) {s : State} (h : P s) : OnNext P (execCoreToDry a1 s) := by
  unfold execCoreToDry
  try dsimp only
  repeat' first
    | with_reducible assumption
    | with_reducible apply State.modStream_pres C.toQuiet
    | with_reducible apply State.coreDry_pres C
    | with_reducible apply State.refuseAct_pres C.toQuiet
    | with_reducible apply State.coreRow_pres C.toQuiet
    | with_reducible apply pres_ite
    | with_reducible apply OnNext.mk
    | with_reducible intro _
    | fail_if_no_progress with_reducible apply C.toQuiet.update

theorem execCoreDryToRun_pres (C : Loud P) {s : State} (a1 : Fin 288) (h : P s) : OnNext P (execCoreDryToRun a1 s) := by
  unfold execCoreDryToRun
  try dsimp only
  repeat' first
    | with_reducible assumption
    | with_reducible apply State.coreRow_pres C.toQuiet
    | with_reducible apply State.claim_pres C.toQuiet
    | with_reducible apply State.coreUp_pres C
    | with_reducible apply State.refuseAct_pres C.toQuiet
    | with_reducible apply pres_ite
    | with_reducible intro _
    | with_reducible refine OnFst.eq ?_ (by with_reducible assumption)
    | split

theorem State.endWindows_pres (C : Quiet P) {s : State} (a1 : ℕ) (h : P s) : P (State.endWindows s a1) := by
  unfold State.endWindows
  try dsimp only
  repeat' first
    | with_reducible assumption
    | with_reducible apply State.endWindow_pres C
    | with_reducible apply pres_fold
    | with_reducible intro _

theorem State.isleNeap_pres (C : Loud P) {s : State} (a1 : ℕ) (h : P s) : P (State.isleNeap s a1) := by
  unfold State.isleNeap
  try dsimp only
  repeat' first
    | with_reducible assumption
    | with_reducible apply State.endWindows_pres C.toQuiet
    | with_reducible apply State.coreNeap_pres C
    | with_reducible apply State.modIsle_pres C.toQuiet
    | with_reducible apply State.release_pres C.toQuiet
    | with_reducible apply pres_fold
    | with_reducible intro _

theorem State.unlist_pres (C : Quiet P) {s : State} (a1 : ℕ) (h : P s) : P (State.unlist s a1) := by
  unfold State.unlist
  try dsimp only
  repeat' first
    | with_reducible assumption
    | with_reducible apply pres_ite
    | with_reducible intro _
    | fail_if_no_progress with_reducible apply C.update

theorem State.isleDry_pres (C : Loud P) {s : State} (a1 : ℕ) (h : P s) : P (State.isleDry s a1) := by
  unfold State.isleDry
  try dsimp only
  repeat' first
    | with_reducible assumption
    | with_reducible apply State.modIsle_pres C.toQuiet
    | with_reducible apply State.modStrait_pres C.toQuiet
    | with_reducible apply State.vcoreOff_pres C.toQuiet
    | with_reducible apply State.isleScope_pres C
    | with_reducible apply State.unlist_pres C.toQuiet
    | with_reducible apply State.emptyIsle_pres C.toQuiet
    | with_reducible apply State.endWindows_pres C.toQuiet
    | with_reducible apply State.coreDry_pres C
    | with_reducible apply pres_ite
    | with_reducible apply pres_fold
    | with_reducible intro _
    | fail_if_no_progress with_reducible apply C.toQuiet.update

theorem State.isleRow_pres (C : Quiet P) {s : State} (a1 : Fin 12) (a2 : PReq → State) (h2 : ∀ x0, P (a2 x0)) (h : P s) : OnNext P (State.isleRow s a1 a2) := by
  unfold State.isleRow
  try dsimp only
  repeat' first
    | with_reducible assumption
    | with_reducible apply h2
    | with_reducible apply pres_ite
    | with_reducible apply OnNext.mk
    | with_reducible intro _
    | fail_if_no_progress with_reducible apply C.update
    | split

theorem execIsleToNeap_pres (C : Loud P) (a1 : Fin 12) {s : State} (h : P s) : OnNext P (execIsleToNeap a1 s) := by
  unfold execIsleToNeap
  try dsimp only
  repeat' first
    | with_reducible assumption
    | with_reducible apply State.modStream_pres C.toQuiet
    | with_reducible apply State.isleNeap_pres C
    | with_reducible apply State.refuseAct_pres C.toQuiet
    | with_reducible apply State.isleRow_pres C.toQuiet
    | with_reducible apply pres_ite
    | with_reducible apply OnNext.mk
    | with_reducible intro _
    | fail_if_no_progress with_reducible apply C.toQuiet.update

theorem execIsleNeapToRun_pres (C : Quiet P) {s : State} (a1 : Fin 12) (h : P s) : OnNext P (execIsleNeapToRun a1 s) := by
  unfold execIsleNeapToRun
  try dsimp only
  repeat' first
    | with_reducible assumption
    | with_reducible apply State.isleRow_pres C
    | with_reducible apply State.isleRaise_pres C
    | with_reducible apply State.refuseAct_pres C
    | (with_reducible apply OnFst.fst; with_reducible apply State.claim_pres C)
    | with_reducible apply pres_ite
    | with_reducible intro _
    | with_reducible refine OnSome.eq ?_ (by with_reducible assumption)
    | split

theorem execIsleToDry_pres (C : Loud P) (a1 : Fin 12) {s : State} (h : P s) : OnNext P (execIsleToDry a1 s) := by
  unfold execIsleToDry
  try dsimp only
  repeat' first
    | with_reducible assumption
    | with_reducible apply State.modStream_pres C.toQuiet
    | with_reducible apply State.isleDry_pres C
    | with_reducible apply State.refuseAct_pres C.toQuiet
    | with_reducible apply State.isleRow_pres C.toQuiet
    | with_reducible apply pres_ite
    | with_reducible apply OnNext.mk
    | with_reducible intro _
    | fail_if_no_progress with_reducible apply C.toQuiet.update

theorem State.islePower_pres (C : Loud P) {s : State} (a1 : ℕ) (a2 : TrainIn) (h : P s) : OnFst P (State.islePower s a1 a2) := by
  unfold State.islePower
  try dsimp only
  repeat' first
    | with_reducible assumption
    | with_reducible apply State.modIsle_pres C.toQuiet
    | with_reducible apply State.admitIsle_pres C.toQuiet
    | (with_reducible apply OnFst.fst; with_reducible apply State.admitIsle_pres C.toQuiet)
    | with_reducible apply State.isleLost_pres C
    | with_reducible apply State.vcoreOff_pres C.toQuiet
    | with_reducible apply State.trained_pres C.toQuiet
    | (with_reducible apply OnFst.fst; with_reducible apply State.trained_pres C.toQuiet)
    | with_reducible apply State.trainStart_pres C.toQuiet
    | (with_reducible apply OnFst.fst; with_reducible apply State.trainStart_pres C.toQuiet)
    | with_reducible apply State.isleReset_pres C
    | with_reducible apply pres_ite
    | with_reducible exact OnFst.get (by with_reducible assumption)
    | with_reducible intro _
    | with_reducible refine OnFst.eq ?_ (by with_reducible assumption)
    | fail_if_no_progress with_reducible apply C.toQuiet.update
    | split
    | with_reducible apply OnFst.mk

theorem execIsleDryToRun_pres (C : Loud P) {s : State} (a1 : Fin 12) (a2 : TrainIn) (h : P s) : OnNext P (execIsleDryToRun a1 a2 s) := by
  unfold execIsleDryToRun
  try dsimp only
  repeat' first
    | with_reducible assumption
    | with_reducible apply State.isleRow_pres C.toQuiet
    | with_reducible apply State.claim_pres C.toQuiet
    | with_reducible apply State.refuseAct_pres C.toQuiet
    | with_reducible apply State.islePower_pres C
    | with_reducible apply State.nextHeld_pres C.toQuiet
    | with_reducible apply State.modStream_pres C.toQuiet
    | with_reducible apply pres_ite
    | with_reducible intro _
    | with_reducible refine OnFst.eq ?_ (by with_reducible assumption)
    | split
    | with_reducible apply OnFst.mk

theorem State.setBlockSt_pres (C : Quiet P) {s : State} (a1 : Fin 13) (a2 : PState) (h : P s) : P (State.setBlockSt s a1 a2) := by
  unfold State.setBlockSt
  try dsimp only
  repeat' first
    | with_reducible assumption
    | with_reducible apply State.modBlock_pres C
    | with_reducible apply pres_ite
    | with_reducible intro _
    | fail_if_no_progress with_reducible apply C.update

theorem execHarbourToDry_pres (C : Quiet P) {s : State}  (h : P s) : OnNext P (execHarbourToDry s) := by
  unfold execHarbourToDry
  try dsimp only
  repeat' first
    | with_reducible assumption
    | with_reducible apply State.refuseAct_pres C
    | with_reducible apply State.setBlockSt_pres C
    | with_reducible apply State.release_pres C
    | with_reducible apply pres_ite
    | with_reducible apply OnNext.mk
    | with_reducible intro _
    | split

theorem execPortBlockToDry_pres (C : Quiet P) (a1 : Fin 12) {s : State} (h : P s) : OnNext P (execPortBlockToDry a1 s) := by
  unfold execPortBlockToDry
  try dsimp only
  repeat' first
    | with_reducible assumption
    | with_reducible apply State.setBlockSt_pres C
    | with_reducible apply State.modBlock_pres C
    | with_reducible apply State.release_pres C
    | with_reducible apply State.refuseAct_pres C
    | with_reducible apply pres_ite
    | with_reducible apply OnNext.mk
    | with_reducible intro _
    | fail_if_no_progress with_reducible apply C.update
    | split

theorem State.blockClaim_pres (C : Quiet P) {s : State} (a1 : ℕ) (a2 : ℕ) (h : P s) : OnFst P (State.blockClaim s a1 a2) := by
  unfold State.blockClaim
  try dsimp only
  repeat' first
    | with_reducible assumption
    | with_reducible apply State.recKey_pres C
    | with_reducible apply State.modBlock_pres C
    | with_reducible apply State.claim_pres C
    | (with_reducible apply OnFst.fst; with_reducible apply State.claim_pres C)
    | with_reducible exact OnFst.get (by with_reducible assumption)
    | with_reducible intro _
    | with_reducible refine OnFst.eq ?_ (by with_reducible assumption)
    | fail_if_no_progress with_reducible apply C.update
    | split
    | with_reducible apply OnFst.mk

theorem State.blockUp_pres (C : Quiet P) {s : State} (a1 : Fin 13) (h : P s) : OnFst P (State.blockUp s a1) := by
  unfold State.blockUp
  try dsimp only
  repeat' first
    | with_reducible assumption
    | with_reducible apply State.setBlockSt_pres C
    | with_reducible apply State.blockClaim_pres C
    | (with_reducible apply OnFst.fst; with_reducible apply State.blockClaim_pres C)
    | with_reducible apply State.claim_pres C
    | (with_reducible apply OnFst.fst; with_reducible apply State.claim_pres C)
    | with_reducible apply pres_ite
    | with_reducible exact OnFst.get (by with_reducible assumption)
    | with_reducible intro _
    | with_reducible refine OnFst.eq ?_ (by with_reducible assumption)
    | fail_if_no_progress with_reducible apply C.update
    | split
    | with_reducible apply OnFst.mk

theorem execKeystoneBlockToRun_pres (C : Quiet P) {s : State} (a1 : Fin 13) (h : P s) : OnNext P (execKeystoneBlockToRun a1 s) := by
  unfold execKeystoneBlockToRun
  try dsimp only
  repeat' first
    | with_reducible assumption
    | with_reducible apply State.blockUp_pres C
    | with_reducible apply State.refuseAct_pres C
    | with_reducible apply pres_ite
    | with_reducible apply OnNext.mk
    | with_reducible intro _
    | with_reducible refine OnFst.eq ?_ (by with_reducible assumption)
    | split

theorem State.requestIf_pres (C : Quiet P) {s : State} (a1 : PUnit) (a2 : Option PReq) (h : P s) : P (State.requestIf s a1 a2) := by
  unfold State.requestIf
  try dsimp only
  repeat' first
    | with_reducible assumption
    | with_reducible apply State.request_pres C
    | split

theorem State.corectl_pres (C : Quiet P) {s : State} (a1 : Who) (a2 : Fin 288) (a3 : W36) (h : P s) : OnFst P (State.corectl s a1 a2 a3) := by
  unfold State.corectl
  try dsimp only
  repeat' first
    | with_reducible assumption
    | with_reducible apply State.modCore_pres C
    | with_reducible apply State.requestIf_pres C
    | with_reducible apply State.answered_pres C
    | with_reducible apply pres_ite
    | with_reducible intro _
    | with_reducible apply OnFst.mk

theorem State.islectl_pres (C : Quiet P) {s : State} (a1 : Who) (a2 : Fin 12) (a3 : W36) (h : P s) : OnFst P (State.islectl s a1 a2 a3) := by
  unfold State.islectl
  try dsimp only
  repeat' first
    | with_reducible assumption
    | with_reducible apply State.requestIf_pres C
    | with_reducible apply pres_ite
    | with_reducible intro _
    | with_reducible apply OnFst.mk

theorem execPwrIslectlWrite_pres (C : Quiet P) {s : State} (a1 : Who) (a2 : Fin 12) (a3 : W36) (h : P s) : OnNext P (execPwrIslectlWrite a1 a2 a3 s) := by
  unfold execPwrIslectlWrite
  try dsimp only
  repeat' first
    | with_reducible assumption
    | (with_reducible apply OnFst.fst; with_reducible apply State.islectl_pres C)
    | with_reducible apply OnNext.mk

theorem State.blkctl_pres (C : Quiet P) {s : State} (a1 : Who) (a2 : Fin 13) (a3 : W36) (h : P s) : OnFst P (State.blkctl s a1 a2 a3) := by
  unfold State.blkctl
  try dsimp only
  repeat' first
    | with_reducible assumption
    | with_reducible apply State.requestIf_pres C
    | with_reducible apply pres_ite
    | with_reducible intro _
    | with_reducible apply OnFst.mk

theorem execPwrBlkctlWrite_pres (C : Quiet P) {s : State} (a1 : Who) (a2 : Fin 13) (a3 : W36) (h : P s) : OnNext P (execPwrBlkctlWrite a1 a2 a3 s) := by
  unfold execPwrBlkctlWrite
  try dsimp only
  repeat' first
    | with_reducible assumption
    | (with_reducible apply OnFst.fst; with_reducible apply State.blkctl_pres C)
    | with_reducible apply OnNext.mk

theorem State.pkgctl_pres (C : Quiet P) {s : State} (a1 : Who) (a2 : W36) (h : P s) : OnFst P (State.pkgctl s a1 a2) := by
  unfold State.pkgctl
  try dsimp only
  repeat' first
    | with_reducible assumption
    | with_reducible apply State.requestIf_pres C
    | with_reducible apply pres_ite
    | with_reducible intro _
    | with_reducible apply OnFst.mk

theorem execPwrPkgctlWrite_pres (C : Quiet P) {s : State} (a1 : Who) (a2 : W36) (h : P s) : OnNext P (execPwrPkgctlWrite a1 a2 s) := by
  unfold execPwrPkgctlWrite
  try dsimp only
  repeat' first
    | with_reducible assumption
    | (with_reducible apply OnFst.fst; with_reducible apply State.pkgctl_pres C)
    | with_reducible apply OnNext.mk

theorem State.fireTimed_pres (C : Quiet P) {s : State} (a1 : PUnit) (h : P s) : P (State.fireTimed s a1) := by
  unfold State.fireTimed
  try dsimp only
  repeat' first
    | with_reducible assumption
    | with_reducible apply State.nextHeld_pres C
    | with_reducible apply State.activate_pres C
    | with_reducible apply State.modStream_pres C
    | with_reducible apply pres_ite
    | with_reducible intro _
    | fail_if_no_progress with_reducible apply C.update
    | split

theorem execTimedRequestFire_pres (C : Quiet P) (a1 : PUnit) {s : State} (h : P s) : OnNext P (execTimedRequestFire a1 s) := by
  unfold execTimedRequestFire
  try dsimp only
  repeat' first
    | with_reducible assumption
    | with_reducible apply State.fireTimed_pres C
    | with_reducible apply pres_ite
    | with_reducible apply OnNext.mk
    | with_reducible intro _

theorem State.slackPart_pres (C : Quiet P) {s : State} (a1 : PUnit) (a2 : PReq) (h : P s) : P (State.slackPart s a1 a2) := by
  unfold State.slackPart
  try dsimp only
  repeat' first
    | with_reducible assumption
    | with_reducible apply State.modCore_pres C
    | with_reducible apply pres_ite
    | with_reducible intro _
    | split

theorem execPowerRequestComplete_pres (C : Quiet P) (a1 : PUnit) {s : State} (h : P s) : OnNext P (execPowerRequestComplete a1 s) := by
  unfold execPowerRequestComplete
  try dsimp only
  repeat' first
    | with_reducible assumption
    | with_reducible apply State.nextHeld_pres C
    | with_reducible apply State.modStream_pres C
    | with_reducible apply State.modCore_pres C
    | with_reducible apply State.slackPart_pres C
    | with_reducible apply pres_ite
    | with_reducible apply OnNext.mk
    | with_reducible intro _
    | fail_if_no_progress with_reducible apply C.update
    | split

end Sys2Proof.Machine
end

