-- ==== Sys2Proof/Laws/KeepWaking.lean ====
section
/-! SUPPORT. What the operations of Machine/Waking.lean keep. -/

namespace Sys2Proof.Machine

variable {P : State → Prop}

theorem State.countStep_pres (C : Quiet P) {s : State} (a1 : ℕ) (a2 : BitVec 4) (h : P s) : P (State.countStep s a1 a2) := by
  unfold State.countStep
  try dsimp only
  repeat' first
    | with_reducible assumption
    | with_reducible apply State.modCore_pres C

theorem State.stepStart_pres (C : Quiet P) {s : State} (a1 : ℕ) (a2 : BitVec 6) (h : P s) : P (State.stepStart s a1 a2) := by
  unfold State.stepStart
  try dsimp only
  repeat' first
    | with_reducible assumption
    | with_reducible apply State.modCore_pres C
    | with_reducible apply State.countStep_pres C
    | with_reducible apply pres_ite
    | with_reducible intro _

theorem State.stepEnd_pres (C : Quiet P) {s : State} (a1 : ℕ) (h : P s) : P (State.stepEnd s a1) := by
  unfold State.stepEnd
  try dsimp only
  repeat' first
    | with_reducible assumption
    | with_reducible apply State.modCore_pres C
    | with_reducible apply State.stepStart_pres C
    | split

theorem State.stepRequest_pres (C : Quiet P) {s : State} (a1 : ℕ) (a2 : BitVec 6) (h : P s) : P (State.stepRequest s a1 a2) := by
  unfold State.stepRequest
  try dsimp only
  repeat' first
    | with_reducible assumption
    | with_reducible apply State.stepStart_pres C
    | with_reducible apply State.modCore_pres C
    | with_reducible apply State.countStep_pres C
    | with_reducible apply pres_ite
    | with_reducible intro _
    | split

theorem execStepRaise_pres (C : Quiet P) (a1 : Fin 288) {s : State} (h : P s) : OnNext P (execStepRaise a1 s) := by
  unfold execStepRaise
  try dsimp only
  repeat' first
    | with_reducible assumption
    | with_reducible apply State.stepEnd_pres C
    | with_reducible apply State.countStep_pres C
    | with_reducible apply State.modCore_pres C
    | with_reducible apply State.claim_pres C
    | (with_reducible apply OnFst.fst; with_reducible apply State.claim_pres C)
    | with_reducible apply pres_ite
    | with_reducible apply OnNext.mk
    | with_reducible exact OnFst.get (by with_reducible assumption)
    | with_reducible intro _
    | with_reducible refine OnFst.eq ?_ (by with_reducible assumption)
    | fail_if_no_progress with_reducible apply C.update
    | split
    | with_reducible apply OnFst.mk

theorem State.stepTo_pres (C : Quiet P) {s : State} (a1 : ℕ) (a2 : ℕ) (h : P s) : P (State.stepTo s a1 a2) := by
  unfold State.stepTo
  try dsimp only
  repeat' first
    | with_reducible assumption
    | with_reducible apply State.modCore_pres C
    | with_reducible apply State.release_pres C
    | with_reducible apply pres_ite
    | with_reducible intro _

theorem execStepLower_pres (C : Quiet P) (a1 : Fin 288) {s : State} (h : P s) : OnNext P (execStepLower a1 s) := by
  unfold execStepLower
  try dsimp only
  repeat' first
    | with_reducible assumption
    | with_reducible apply State.stepEnd_pres C
    | with_reducible apply State.stepTo_pres C
    | with_reducible apply pres_ite
    | with_reducible apply OnNext.mk
    | with_reducible intro _

theorem State.followCap_pres (C : Quiet P) {s : State} (a1 : ℕ) (a2 : BitVec 4) (h : P s) : P (State.followCap s a1 a2) := by
  unfold State.followCap
  try dsimp only
  repeat' first
    | with_reducible assumption
    | with_reducible apply State.countStep_pres C
    | with_reducible apply State.stepTo_pres C
    | with_reducible apply State.modCore_pres C
    | with_reducible apply pres_ite
    | with_reducible intro _

theorem State.followAll_pres (C : Quiet P) {s : State} (a1 : List ℕ) (a2 : BitVec 4) (h : P s) : P (State.followAll s a1 a2) := by
  unfold State.followAll
  try dsimp only
  repeat' first
    | with_reducible assumption
    | with_reducible apply State.followCap_pres C
    | with_reducible apply pres_fold
    | with_reducible intro _

theorem State.lowerAll_pres (C : Quiet P) {s : State} (a1 : List ℕ) (a2 : BitVec 4) (a3 : ℕ) (a4 : ℕ → ℕ) (h : P s) : P (State.lowerAll s a1 a2 a3 a4) := by
  unfold State.lowerAll
  repeat' first
    | with_reducible assumption
    | with_reducible apply State.followCap_pres C
    | with_reducible apply State.modCore_pres C
    | with_reducible apply pres_ite
    | with_reducible apply pres_fold
    | with_reducible intro _

theorem execCurrentCapCheck_pres (C : Quiet P) {s : State} (a1 : BitVec 16) (a2 : BitVec 16) (h : P s) : OnNext P (execCurrentCapCheck a1 a2 s) := by
  unfold execCurrentCapCheck
  try dsimp only
  repeat' first
    | with_reducible assumption
    | with_reducible apply State.lowerAll_pres C
    | with_reducible apply State.recKey_pres C
    | with_reducible apply State.followAll_pres C
    | with_reducible apply pres_ite
    | with_reducible apply OnNext.mk
    | with_reducible intro _
    | fail_if_no_progress with_reducible apply C.update

theorem execThermalCap_pres (C : Quiet P) (a1 : Fin 12) (a2 : List (BitVec 16)) {s : State} (h : P s) : OnNext P (execThermalCap a1 a2 s) := by
  unfold execThermalCap
  try dsimp only
  repeat' first
    | with_reducible assumption
    | with_reducible apply State.modIsle_pres C
    | with_reducible apply State.followAll_pres C
    | with_reducible apply State.lowerAll_pres C
    | with_reducible apply State.recKey_pres C
    | with_reducible apply pres_ite
    | with_reducible apply OnNext.mk
    | with_reducible intro _
    | fail_if_no_progress with_reducible apply C.update
    | split

theorem State.selfRefresh_pres (C : Quiet P) {s : State} (h : P s) : P (State.selfRefresh s) := by
  unfold State.selfRefresh
  try dsimp only
  repeat' first
    | with_reducible assumption
    | with_reducible apply State.modChan_pres C
    | with_reducible apply State.release_pres C
    | with_reducible apply State.drainAll_pres C
    | with_reducible apply pres_ite
    | with_reducible apply pres_fold
    | with_reducible intro _
    | fail_if_no_progress with_reducible apply C.update

theorem State.leaveRefresh_pres (C : Quiet P) {s : State}  (h : P s) : P (State.leaveRefresh s) := by
  unfold State.leaveRefresh
  try dsimp only
  repeat' first
    | with_reducible assumption
    | (with_reducible apply OnFst.fst; with_reducible apply State.claim_pres C)
    | with_reducible apply State.fillEighths_pres C
    | with_reducible apply State.modChan_pres C
    | with_reducible apply pres_ite
    | with_reducible apply pres_fold
    | with_reducible intro _

theorem State.rootsDown_pres (C : Quiet P) {s : State} (h : P s) : P (State.rootsDown s) := by
  unfold State.rootsDown
  try dsimp only
  repeat' first
    | with_reducible assumption
    | with_reducible apply State.modBlock_pres C
    | with_reducible apply State.release_pres C
    | with_reducible apply pres_ite
    | with_reducible apply pres_fold
    | with_reducible intro _
    | fail_if_no_progress with_reducible apply C.update

theorem execLagoonEnter_pres (C : Loud P) {s : State} (h : P s) : OnNext P (execLagoonEnter s) := by
  unfold execLagoonEnter
  try dsimp only
  repeat' first
    | with_reducible assumption
    | with_reducible apply State.recKey_pres C.toQuiet
    | with_reducible apply State.modStream_pres C.toQuiet
    | with_reducible apply State.release_pres C.toQuiet
    | with_reducible apply State.selfRefresh_pres C.toQuiet
    | with_reducible apply State.rootsDown_pres C.toQuiet
    | with_reducible apply State.isleNeap_pres C
    | with_reducible apply State.refuseAct_pres C.toQuiet
    | with_reducible apply pres_ite
    | with_reducible apply pres_fold
    | with_reducible apply OnNext.mk
    | with_reducible intro _
    | fail_if_no_progress with_reducible apply C.toQuiet.update
    | split

theorem State.wakeIsle_pres (C : Quiet P) {s : State} (a1 : ℕ) (h : P s) : P (State.wakeIsle s a1) := by
  unfold State.wakeIsle
  try dsimp only
  repeat' first
    | with_reducible assumption
    | with_reducible apply State.isleRaise_pres C
    | with_reducible apply State.modIsle_pres C
    | (with_reducible apply OnFst.fst; with_reducible apply State.claim_pres C)
    | with_reducible refine OnSome.eq ?_ (by with_reducible assumption)
    | split

theorem State.lagoonWake_pres (C : Quiet P) {s : State} (a1 : Fin 12) (a2 : BitVec 6) (h : P s) : P (State.lagoonWake s a1 a2) := by
  unfold State.lagoonWake
  try dsimp only
  repeat' first
    | with_reducible assumption
    | with_reducible apply pres_ite
    | with_reducible intro _
    | fail_if_no_progress with_reducible apply C.update

theorem execLagoonExit_pres (C : Quiet P) {s : State} (h : P s) : OnNext P (execLagoonExit s) := by
  unfold execLagoonExit
  try dsimp only
  repeat' first
    | with_reducible assumption
    | with_reducible apply State.nextHeld_pres C
    | with_reducible apply State.wakeIsle_pres C
    | with_reducible apply State.recKey_pres C
    | with_reducible apply State.modStream_pres C
    | with_reducible apply State.leaveRefresh_pres C
    | with_reducible apply State.claim_pres C
    | (with_reducible apply OnFst.fst; with_reducible apply State.claim_pres C)
    | with_reducible apply pres_ite
    | with_reducible apply OnNext.mk
    | with_reducible exact OnFst.get (by with_reducible assumption)
    | with_reducible intro _
    | with_reducible refine OnFst.eq ?_ (by with_reducible assumption)
    | fail_if_no_progress with_reducible apply C.update
    | split
    | with_reducible apply OnFst.mk

theorem State.abortEntry_pres (C : Quiet P) {s : State} (a1 : PUnit) (h : P s) : P (State.abortEntry s a1) := by
  unfold State.abortEntry
  try dsimp only
  repeat' first
    | with_reducible assumption
    | with_reducible apply State.nextHeld_pres C
    | with_reducible apply State.modStream_pres C
    | with_reducible apply pres_ite
    | with_reducible intro _
    | split

theorem State.wakeCore_pres (C : Quiet P) {s : State} (a1 : ℕ) (h : P s) : P (State.wakeCore s a1) := by
  unfold State.wakeCore
  try dsimp only
  repeat' first
    | with_reducible assumption
    | with_reducible apply State.claim_pres C
    | with_reducible apply State.coreRestore_pres C
    | with_reducible apply pres_ite
    | with_reducible intro _
    | with_reducible refine OnFst.eq ?_ (by with_reducible assumption)
    | split

theorem execWake_pres (C : Quiet P) (a1 : PUnit) {s : State} (h : P s) : OnNext P (execWake a1 s) := by
  unfold execWake
  try dsimp only
  repeat' first
    | with_reducible assumption
    | with_reducible apply State.lagoonWake_pres C
    | with_reducible apply State.blockUp_pres C
    | (with_reducible apply OnFst.fst; with_reducible apply State.blockUp_pres C)
    | with_reducible apply State.wakeCore_pres C
    | with_reducible apply State.wakeIsle_pres C
    | with_reducible apply State.abortEntry_pres C
    | with_reducible apply State.modCore_pres C
    | with_reducible apply pres_ite
    | with_reducible apply pres_fold
    | (with_reducible apply OnFst.fst; with_reducible apply pres_fold)
    | with_reducible exact OnFst.fst (by with_reducible assumption)
    | with_reducible apply OnNext.mk
    | with_reducible exact OnFst.get (by with_reducible assumption)
    | with_reducible intro _
    | with_reducible refine OnFst.eq ?_ (by with_reducible assumption)
    | fail_if_no_progress with_reducible apply C.update
    | split
    | with_reducible apply OnFst.mk

theorem execPortWake_pres (C : Quiet P) {s : State} (a1 : Fin 12) (h : P s) : OnNext P (execPortWake a1 s) := by
  unfold execPortWake
  try dsimp only
  repeat' first
    | with_reducible assumption
    | with_reducible apply State.lagoonWake_pres C
    | with_reducible apply pres_ite
    | with_reducible apply OnNext.mk
    | with_reducible intro _

theorem execSmbusAddressMatch_pres (C : Quiet P) (a1 : BitVec 7) {s : State} (h : P s) : OnNext P (execSmbusAddressMatch a1 s) := by
  unfold execSmbusAddressMatch
  try dsimp only
  repeat' first
    | with_reducible assumption
    | with_reducible apply State.lagoonWake_pres C
    | with_reducible apply pres_ite
    | with_reducible apply OnNext.mk
    | with_reducible intro _
    | fail_if_no_progress with_reducible apply C.update

end Sys2Proof.Machine
end

