-- ==== Sys2Proof/Laws/KeepSoundings.lean ====
section
/-! SUPPORT. What the operations of Machine/Soundings.lean keep. -/

namespace Sys2Proof.Machine

variable {P : State → Prop}

theorem State.countEvents_pres (C : Loud P) {s : State} (a1 : ℕ) (a2 : Bool) (a3 : BitVec 2) (a4 : List (ℕ × ℕ)) (h : P s) : P (State.countEvents s a1 a2 a3 a4) := by
  unfold State.countEvents
  try dsimp only
  repeat' first
    | with_reducible assumption
    | with_reducible apply Thread.legal_setWreg
    | with_reducible apply WReg.legal_countEvents
    | with_reducible apply Thread.legal_wreg
    | with_reducible apply State.modThread_pres C
    | with_reducible intro _

theorem State.countFix1_pres (C : Loud P) {s : State} (a1 : ℕ) (a2 : Bool) (h : P s) : P (State.countFix1 s a1 a2) := by
  unfold State.countFix1
  try dsimp only
  repeat' first
    | with_reducible assumption
    | with_reducible apply Thread.legal_setWreg
    | (have := Thread.legal_wreg ‹Thread.legal _ = true› ‹Bool›; exact WReg.legal_congr this rfl rfl rfl)
    | with_reducible apply State.modCore_pres C.toQuiet
    | with_reducible apply State.modThread_pres C
    | with_reducible apply pres_ite
    | with_reducible intro _

theorem State.retired_pres (C : Loud P) {s : State} (a1 : ℕ) (a2 : Bool) (a3 : BitVec 2) (a4 : List (ℕ × ℕ)) (h : P s) : P (State.retired s a1 a2 a3 a4) := by
  unfold State.retired
  try dsimp only
  repeat' first
    | with_reducible assumption
    | with_reducible apply State.countFix1_pres C
    | with_reducible apply State.countEvents_pres C

end Sys2Proof.Machine
end

