-- ==== Sys2Proof/Laws/KeepTick.lean ====
section
/-! SUPPORT. What the operations of Machine/Tick.lean keep. -/

namespace Sys2Proof.Machine

variable {P : State → Prop}

theorem lhAdvance_pres (C : Quiet P) {s : State} (a1 : ℕ) (h : P s) : P (lhAdvance s a1) := by
  unfold lhAdvance
  try dsimp only
  repeat' first
    | with_reducible assumption
    | fail_if_no_progress with_reducible apply C.update

end Sys2Proof.Machine
end

