-- ==== Sys2Proof/Laws/KeepLighthouseOps.lean ====
section
/-! SUPPORT. What the operations of Machine/LighthouseOps.lean keep. -/

namespace Sys2Proof.Machine

variable {P : State → Prop}

theorem State.launchEnd_pres (C : Loud P) {s : State} (a1 : ℕ) (a2 : ℕ) (h : P s) : P (State.launchEnd s a1 a2) := by
  unfold State.launchEnd
  dsimp only
  split
  · exact State.modThread_pres C _ _ (State.retired_pres C _ _ _ _ h) fun x k => Thread.legal_launchEnd k _
  · exact h

theorem State.dropTimed_pres (C : Quiet P) {s : State} (a1 : PUnit) (a2 : PReq → Bool) (a3 : BitVec 3) (h : P s) : P (State.dropTimed s a1 a2 a3) := by
  unfold State.dropTimed
  try dsimp only
  repeat' first
    | with_reducible assumption
    | with_reducible apply State.nextHeld_pres C
    | with_reducible apply State.modStream_pres C

theorem State.setStart_pres (C : Quiet P) {s : State} (a1 : BitVec 64) (h : P s) : OnFst P (State.setStart s a1) := by
  unfold State.setStart
  try dsimp only
  repeat' first
    | with_reducible assumption
    | with_reducible apply pres_ite
    | with_reducible intro _
    | fail_if_no_progress with_reducible apply C.update
    | with_reducible apply OnFst.mk

theorem State.lhCmd_pres (C : Quiet P) {s : State} (a1 : Who) (a2 : W36) (h : P s) : OnFst P (State.lhCmd s a1 a2) := by
  unfold State.lhCmd
  try dsimp only
  repeat' first
    | with_reducible assumption
    | (with_reducible apply OnFst.fst; with_reducible apply State.setStart_pres C)
    | with_reducible apply pres_ite
    | with_reducible intro _
    | fail_if_no_progress with_reducible apply C.update
    | split
    | with_reducible apply OnFst.mk

theorem execSet_pres (C : Quiet P) {s : State} (a1 : Who) (a2 : W36) (h : P s) : OnNext P (execSet a1 a2 s) := by
  unfold execSet
  try dsimp only
  repeat' first
    | with_reducible assumption
    | (with_reducible apply OnFst.fst; with_reducible apply State.lhCmd_pres C)
    | with_reducible apply OnNext.mk

theorem execCancelSlew_pres (C : Quiet P) {s : State} (a1 : Who) (a2 : W36) (h : P s) : OnNext P (execCancelSlew a1 a2 s) := by
  unfold execCancelSlew
  try dsimp only
  repeat' first
    | with_reducible assumption
    | (with_reducible apply OnFst.fst; with_reducible apply State.lhCmd_pres C)
    | with_reducible apply OnNext.mk

theorem State.lhSlewWrite_pres (C : Quiet P) {s : State} (a1 : Who) (a2 : W36) (h : P s) : OnFst P (State.lhSlewWrite s a1 a2) := by
  unfold State.lhSlewWrite
  try dsimp only
  repeat' first
    | with_reducible assumption
    | with_reducible apply pres_ite
    | with_reducible intro _
    | fail_if_no_progress with_reducible apply C.update
    | with_reducible apply OnFst.mk

theorem execLhSlewWrite_pres (C : Quiet P) {s : State} (a1 : Who) (a2 : W36) (h : P s) : OnNext P (execLhSlewWrite a1 a2 s) := by
  unfold execLhSlewWrite
  try dsimp only
  repeat' first
    | with_reducible assumption
    | (with_reducible apply OnFst.fst; with_reducible apply State.lhSlewWrite_pres C)
    | with_reducible apply OnNext.mk

theorem State.lhCtlWrite_pres (C : Quiet P) {s : State} (a1 : Who) (a2 : W36) (h : P s) : OnFst P (State.lhCtlWrite s a1 a2) := by
  unfold State.lhCtlWrite
  try dsimp only
  repeat' first
    | with_reducible assumption
    | with_reducible apply pres_ite
    | with_reducible intro _
    | fail_if_no_progress with_reducible apply C.update
    | split
    | with_reducible apply OnFst.mk

theorem execLhCtlWrite_pres (C : Quiet P) {s : State} (a1 : Who) (a2 : W36) (h : P s) : OnNext P (execLhCtlWrite a1 a2 s) := by
  unfold execLhCtlWrite
  try dsimp only
  repeat' first
    | with_reducible assumption
    | (with_reducible apply OnFst.fst; with_reducible apply State.lhCtlWrite_pres C)
    | with_reducible apply OnNext.mk

theorem execLhPpsEdge_pres (C : Quiet P) {s : State}  (h : P s) : OnNext P (execLhPpsEdge s) := by
  unfold execLhPpsEdge
  try dsimp only
  repeat' first
    | with_reducible assumption
    | with_reducible apply pres_ite
    | with_reducible apply OnNext.mk
    | with_reducible intro _
    | fail_if_no_progress with_reducible apply C.update

theorem execPpsTimeout_pres (C : Quiet P) {s : State}  (h : P s) : OnNext P (execPpsTimeout s) := by
  unfold execPpsTimeout
  try dsimp only
  repeat' first
    | with_reducible assumption
    | with_reducible apply OnNext.mk
    | fail_if_no_progress with_reducible apply C.update

theorem execRefLost_pres (C : Quiet P) {s : State}  (h : P s) : OnNext P (execRefLost s) := by
  unfold execRefLost
  try dsimp only
  repeat' first
    | with_reducible assumption
    | with_reducible apply State.recKey_pres C
    | with_reducible apply pres_ite
    | with_reducible apply OnNext.mk
    | with_reducible intro _
    | fail_if_no_progress with_reducible apply C.update

theorem execRefLocked_pres (C : Quiet P) {s : State}  (h : P s) : OnNext P (execRefLocked s) := by
  unfold execRefLocked
  try dsimp only
  repeat' first
    | with_reducible assumption
    | with_reducible apply State.recKey_pres C
    | with_reducible apply pres_ite
    | with_reducible apply OnNext.mk
    | with_reducible intro _
    | fail_if_no_progress with_reducible apply C.update

theorem State.setLaunches_pres (C : Loud P) {s : State} (a1 : Reg) (h : P s) : P (State.setLaunches s a1) := by
  unfold State.setLaunches
  try dsimp only
  repeat' first
    | with_reducible assumption
    | with_reducible apply State.launchEnd_pres C
    | with_reducible apply State.activate_pres C.toQuiet
    | with_reducible apply State.modStream_pres C.toQuiet
    | with_reducible apply State.dropTimed_pres C.toQuiet
    | with_reducible apply pres_ite
    | with_reducible apply pres_fold
    | with_reducible intro _
    | split

theorem State.copySet_pres (C : Quiet P) {s : State} (a1 : ℕ) (a2 : ℤ) (h : P s) : P (State.copySet s a1 a2) := by
  unfold State.copySet
  try dsimp only
  repeat' first
    | with_reducible assumption
    | with_reducible apply State.modIsle_pres C
    | with_reducible intro _
    | fail_if_no_progress with_reducible apply C.update

theorem State.driftLaunches_pres (C : Loud P) {s : State} (a1 : ℕ) (h : P s) : P (State.driftLaunches s a1) := by
  unfold State.driftLaunches
  try dsimp only
  repeat' first
    | with_reducible assumption
    | with_reducible apply State.launchEnd_pres C
    | with_reducible apply State.dropTimed_pres C.toQuiet
    | with_reducible apply pres_ite
    | with_reducible apply pres_fold
    | with_reducible intro _

theorem execCopyCorrection_pres (C : Loud P) (a1 : Fin 12) (a2 : BitVec 16) {s : State} (h : P s) : OnNext P (execCopyCorrection a1 a2 s) := by
  unfold execCopyCorrection
  try dsimp only
  repeat' first
    | with_reducible assumption
    | with_reducible apply State.copySet_pres C.toQuiet
    | with_reducible apply State.driftLaunches_pres C
    | with_reducible apply State.recKey_pres C.toQuiet
    | with_reducible apply State.modIsle_pres C.toQuiet
    | with_reducible apply pres_ite
    | with_reducible apply OnNext.mk
    | with_reducible intro _
    | fail_if_no_progress with_reducible apply C.toQuiet.update

theorem execDriftCleared_pres (C : Quiet P) (a1 : Fin 12) (a2 : BitVec 16) {s : State} (h : P s) : OnNext P (execDriftCleared a1 a2 s) := by
  unfold execDriftCleared
  try dsimp only
  repeat' first
    | with_reducible assumption
    | with_reducible apply State.recKey_pres C
    | with_reducible apply State.modStrait_pres C
    | with_reducible apply State.modIsle_pres C
    | with_reducible apply State.copySet_pres C
    | with_reducible apply pres_ite
    | with_reducible apply OnNext.mk
    | with_reducible intro _
    | fail_if_no_progress with_reducible apply C.update

theorem execAlarmFire_pres (C : Loud P) (a1 : Fin 576) (a2 : Bool) {s : State} (h : P s) : OnNext P (execAlarmFire a1 a2 s) := by
  unfold execAlarmFire
  refine pres_ite (fun _ => OnNext.mk h) fun _ => ?_
  refine pres_ite (fun _ => OnNext.mk ?_) fun _ => OnNext.mk h
  refine C.thread _ _ _ h fun k => Thread.legal_setWreg k _ ?_
  exact WReg.legal_congr (Thread.legal_wreg k _) rfl rfl rfl

theorem State.fireLaunch_pres (C : Loud P) {s : State} (a1 : ℕ) (h : P s) : P (State.fireLaunch s a1) := by
  unfold State.fireLaunch
  try dsimp only
  repeat' first
    | with_reducible assumption
    | with_reducible apply State.launchEnd_pres C
    | with_reducible apply pres_ite
    | with_reducible intro _
    | fail_if_no_progress with_reducible apply C.toQuiet.update
    | split

theorem execLaunchFire_pres (C : Loud P) (a1 : Fin 576) {s : State} (h : P s) : OnNext P (execLaunchFire a1 s) := by
  unfold execLaunchFire
  try dsimp only
  repeat' first
    | with_reducible assumption
    | with_reducible apply State.fireLaunch_pres C
    | with_reducible apply pres_ite
    | with_reducible apply OnNext.mk
    | with_reducible intro _

end Sys2Proof.Machine
end

