-- ==== Sys2Proof/Laws/KeepAccess.lean ====
section
/-! SUPPORT. What the operations of Machine/Access.lean keep. -/

namespace Sys2Proof.Machine

variable {P : State → Prop}

theorem State.umfRun_pres (C : Quiet P) {s : State} (a1 : Fin 12) (h : P s) : P (State.umfRun s a1) := by
  unfold State.umfRun
  try dsimp only
  repeat' first
    | with_reducible assumption
    | with_reducible apply State.request_pres C
    | with_reducible apply pres_ite
    | with_reducible intro _

theorem State.isleGate_pres (C : Quiet P) {s : State} (a1 : Who) (a2 : Fin 12) (h : P s) : OnFst P (State.isleGate s a1 a2) := by
  unfold State.isleGate
  try dsimp only
  repeat' first
    | with_reducible assumption
    | with_reducible apply State.umfRun_pres C
    | with_reducible apply State.wakeIsle_pres C
    | with_reducible apply pres_ite
    | with_reducible exact OnFst.get (by with_reducible assumption)
    | with_reducible intro _
    | with_reducible refine OnFst.eq ?_ (by with_reducible assumption)
    | split
    | with_reducible apply OnFst.mk

theorem State.blockGate_pres (C : Quiet P) {s : State} (a1 : Who) (a2 : Fin 13) (h : P s) : OnFst P (State.blockGate s a1 a2) := by
  unfold State.blockGate
  try dsimp only
  repeat' first
    | with_reducible assumption
    | with_reducible apply State.blockUp_pres C
    | with_reducible apply pres_ite
    | with_reducible intro _
    | with_reducible refine OnFst.eq ?_ (by with_reducible assumption)
    | split
    | with_reducible apply OnFst.mk

theorem State.cisternGate_pres (C : Quiet P) {s : State} (a1 : ℕ) (a2 : ℕ) (a3 : Bool) (a4 : Bool) (h : P s) : OnFst P (State.cisternGate s a1 a2 a3 a4) := by
  unfold State.cisternGate
  try dsimp only
  repeat' first
    | with_reducible assumption
    | with_reducible apply State.isleGate_pres C
    | (with_reducible apply OnFst.fst; with_reducible apply State.isleGate_pres C)
    | with_reducible apply pres_ite
    | with_reducible intro _
    | with_reducible refine OnFst.eq ?_ (by with_reducible assumption)
    | with_reducible apply OnFst.mk

theorem State.askLine_pres (C : Quiet P) {s : State} (a1 : Msg) (a2 : Bool) (h : P s) : OnFst P (State.askLine s a1 a2) := by
  unfold State.askLine
  try dsimp only
  repeat' first
    | with_reducible assumption
    | with_reducible apply State.keepAsk_pres C
    | with_reducible apply State.uncached_pres C
    | (with_reducible apply OnFst.fst; with_reducible apply State.uncached_pres C)
    | with_reducible apply State.cisternServe_pres C
    | with_reducible apply State.cisternGate_pres C
    | (with_reducible apply OnFst.fst; with_reducible apply State.cisternGate_pres C)
    | with_reducible apply pres_ite
    | with_reducible exact OnFst.get (by with_reducible assumption)
    | with_reducible intro _
    | with_reducible refine OnFst.eq ?_ (by with_reducible assumption)
    | fail_if_no_progress with_reducible apply C.update
    | split
    | with_reducible apply OnFst.mk

theorem State.lineRead_pres (C : Quiet P) {s : State} (a1 : Asker) (a2 : LineNo) (a3 : BitVec 64) (h : P s) : OnFst P (State.lineRead s a1 a2 a3) := by
  unfold State.lineRead
  try dsimp only
  repeat' first
    | with_reducible assumption
    | with_reducible apply State.askLine_pres C
    | (with_reducible apply OnFst.fst; with_reducible apply State.askLine_pres C)
    | with_reducible apply pres_ite
    | with_reducible exact OnFst.get (by with_reducible assumption)
    | with_reducible intro _
    | with_reducible refine OnFst.eq ?_ (by with_reducible assumption)
    | fail_if_no_progress with_reducible apply C.update
    | split
    | with_reducible apply OnFst.mk

theorem State.lineWrite_pres (C : Quiet P) {s : State} (a1 : Asker) (a2 : LineNo) (a3 : BitVec 64) (a4 : LineBits) (a5 : Bool) (h : P s) : OnFst P (State.lineWrite s a1 a2 a3 a4 a5) := by
  unfold State.lineWrite
  try dsimp only
  repeat' first
    | with_reducible assumption
    | with_reducible apply State.askLine_pres C
    | with_reducible apply pres_ite
    | with_reducible intro _

theorem State.epEvent_pres (C : Quiet P) {s : State} (a1 : ℕ) (a2 : ℕ) (h : P s) : P (State.epEvent s a1 a2) := by
  unfold State.epEvent
  try dsimp only
  repeat' first
    | with_reducible assumption
    | with_reducible apply State.modPort_pres C
    | split

theorem State.boxEvent_pres (C : Quiet P) {s : State} (a1 : ℕ) (a2 : Bool) (h : P s) : P (State.boxEvent s a1 a2) := by
  unfold State.boxEvent
  try dsimp only
  repeat' first
    | with_reducible assumption
    | with_reducible apply State.modBox_pres C
    | with_reducible apply State.epEvent_pres C
    | with_reducible apply pres_ite
    | with_reducible intro _

end Sys2Proof.Machine
end

