-- ==== Sys2Proof/Laws/KeepRings.lean ====
section
/-! SUPPORT. What the operations of Machine/Rings.lean keep. -/

namespace Sys2Proof.Machine

variable {P : State → Prop}

theorem State.dropTable_pres (C : Quiet P) {s : State} (a1 : ℕ) (h : P s) : P (State.dropTable s a1) := by
  unfold State.dropTable
  try dsimp only
  repeat' first
    | with_reducible assumption
    | fail_if_no_progress with_reducible apply C.update

theorem State.ringOff_pres (C : Quiet P) {s : State} (a1 : ℕ) (h : P s) : P (State.ringOff s a1) := by
  unfold State.ringOff
  try dsimp only
  repeat' first
    | with_reducible assumption
    | with_reducible apply State.modRing_pres C
    | with_reducible apply State.dropTable_pres C

theorem State.rctlWrite_pres (C : Quiet P) {s : State} (a1 : Who) (a2 : ℕ) (a3 : W36) (h : P s) : OnFst P (State.rctlWrite s a1 a2 a3) := by
  unfold State.rctlWrite
  try dsimp only
  repeat' first
    | with_reducible assumption
    | with_reducible apply State.ringOff_pres C
    | with_reducible apply State.setRing_pres C
    | with_reducible apply pres_ite
    | with_reducible exact OnFst.get (by with_reducible assumption)
    | with_reducible intro _
    | with_reducible refine OnFst.eq ?_ (by with_reducible assumption)
    | fail_if_no_progress with_reducible apply C.update
    | split
    | with_reducible apply OnFst.mk

theorem State.doorbell_pres (C : Quiet P) {s : State} (a1 : Who) (a2 : ℕ) (a3 : W36) (h : P s) : OnFst P (State.doorbell s a1 a2 a3) := by
  unfold State.doorbell
  try dsimp only
  repeat' first
    | with_reducible assumption
    | with_reducible apply State.recKey_pres C
    | with_reducible apply State.setRing_pres C
    | with_reducible apply pres_ite
    | with_reducible intro _
    | fail_if_no_progress with_reducible apply C.update
    | split
    | with_reducible apply OnFst.mk

theorem State.countDone_pres (C : Quiet P) {s : State} (a1 : RingR) (a2 : ℕ) (a3 : BitVec 8) (h : P s) : P (State.countDone s a1 a2 a3) := by
  unfold State.countDone
  try dsimp only
  repeat' first
    | with_reducible assumption
    | with_reducible apply State.sndKey_pres C
    | with_reducible apply pres_ite
    | with_reducible intro _
    | fail_if_no_progress with_reducible apply C.update

theorem State.engineForget_pres (C : Quiet P) {s : State} (a1 : ℕ) (a2 : RingR) (h : P s) : P (State.engineForget s a1 a2) := by
  unfold State.engineForget
  try dsimp only
  repeat' first
    | with_reducible assumption
    | with_reducible apply State.modPort_pres C
    | with_reducible apply pres_ite
    | with_reducible intro _
    | fail_if_no_progress with_reducible apply C.update
    | split

theorem State.dropJobs_pres (C : Quiet P) {s : State} (a1 : ℕ) (h : P s) : P (State.dropJobs s a1) := by
  unfold State.dropJobs
  try dsimp only
  repeat' first
    | with_reducible assumption
    | with_reducible apply State.modEngine_pres C
    | with_reducible apply State.engineForget_pres C
    | with_reducible apply pres_ite
    | with_reducible apply pres_fold
    | with_reducible intro _
    | fail_if_no_progress with_reducible apply C.update
    | split

theorem State.recordFirst_pres (C : Quiet P) {s : State} (a1 : ℕ) (a2 : ℕ) (h : P s) : OnFst P (State.recordFirst s a1 a2) := by
  unfold State.recordFirst
  try dsimp only
  repeat' first
    | with_reducible assumption
    | with_reducible apply State.recKey_pres C
    | with_reducible apply State.modRing_pres C
    | with_reducible apply State.dropJobs_pres C
    | with_reducible apply State.dropTable_pres C
    | with_reducible apply State.epEvent_pres C
    | with_reducible apply State.countDone_pres C
    | with_reducible apply State.lineWrite_pres C
    | (with_reducible apply OnFst.fst; with_reducible apply State.lineWrite_pres C)
    | with_reducible apply pres_ite
    | with_reducible exact OnFst.get (by with_reducible assumption)
    | with_reducible intro _
    | with_reducible refine OnFst.eq ?_ (by with_reducible assumption)
    | fail_if_no_progress with_reducible apply C.update
    | split
    | with_reducible apply OnFst.mk

theorem State.recordAll_pres (C : Quiet P) {s : State} (a1 : ℕ) (a2 : ℕ) (a3 : ℕ) (h : P s) : P (State.recordAll s a1 a2 a3) := by
  induction a3 generalizing s with
  | zero =>
    unfold State.recordAll
    try dsimp only
    repeat' first
      | with_reducible assumption
  | succ k ih =>
    unfold State.recordAll
    try dsimp only
    repeat' first
      | with_reducible assumption
      | with_reducible apply ih
      | with_reducible apply State.recordFirst_pres C
      | with_reducible refine OnFst.eq ?_ (by with_reducible assumption)
      | split

theorem execDescriptorDone_pres (C : Quiet P) {s : State} (a1 : Fin 524288) (h : P s) : OnNext P (execDescriptorDone a1 s) := by
  unfold execDescriptorDone
  try dsimp only
  repeat' first
    | with_reducible assumption
    | with_reducible apply State.recordAll_pres C
    | with_reducible apply OnNext.mk

theorem State.jobEnd_pres (C : Quiet P) {s : State} (a1 : ℕ) (a2 : BitVec 8) (a3 : BitVec 64) (h : P s) : P (State.jobEnd s a1 a2 a3) := by
  unfold State.jobEnd
  try dsimp only
  repeat' first
    | with_reducible assumption
    | with_reducible apply State.modEngine_pres C
    | with_reducible apply State.modRing_pres C
    | with_reducible apply State.engineForget_pres C
    | with_reducible intro _
    | fail_if_no_progress with_reducible apply C.update
    | split

theorem State.abortRings_pres (C : Quiet P) {s : State} (a1 : ℕ) (a2 : BitVec 8) (a3 : Desc → Bool) (h : P s) : P (State.abortRings s a1 a2 a3) := by
  unfold State.abortRings
  try dsimp only
  repeat' first
    | with_reducible assumption
    | with_reducible apply State.modRing_pres C
    | with_reducible apply pres_ite
    | with_reducible apply pres_fold
    | with_reducible intro _
    | fail_if_no_progress with_reducible apply C.update
    | split

theorem State.disableRings_pres (C : Quiet P) {s : State} (a1 : ℕ) (h : P s) : P (State.disableRings s a1) := by
  unfold State.disableRings
  try dsimp only
  repeat' first
    | with_reducible assumption
    | with_reducible apply State.recordAll_pres C
    | with_reducible apply State.modRing_pres C
    | with_reducible apply pres_fold
    | with_reducible intro _
    | fail_if_no_progress with_reducible apply C.update

theorem State.enableRings_pres (C : Quiet P) {s : State} (a1 : ℕ) (h : P s) : P (State.enableRings s a1) := by
  unfold State.enableRings
  try dsimp only
  repeat' first
    | with_reducible assumption
    | with_reducible apply State.modRing_pres C
    | with_reducible apply pres_ite
    | with_reducible apply pres_fold
    | with_reducible intro _
    | fail_if_no_progress with_reducible apply C.update

theorem State.resetRings_pres (C : Quiet P) {s : State} (a1 : ℕ) (h : P s) : P (State.resetRings s a1) := by
  unfold State.resetRings
  try dsimp only
  repeat' first
    | with_reducible assumption
    | with_reducible apply State.recordAll_pres C
    | with_reducible apply State.modRing_pres C
    | with_reducible apply pres_ite
    | with_reducible apply pres_fold
    | with_reducible intro _
    | fail_if_no_progress with_reducible apply C.update

end Sys2Proof.Machine
end

