-- ==== Sys2Proof/Laws/KeepPorts.lean ====
section
/-! SUPPORT. What the operations of Machine/Ports.lean keep. -/

namespace Sys2Proof.Machine

variable {P : State → Prop}

theorem State.linkDown_pres (C : Quiet P) {s : State} (a1 : ℕ) (a2 : BitVec 3) (h : P s) : P (State.linkDown s a1 a2) := by
  unfold State.linkDown
  try dsimp only
  repeat' first
    | with_reducible assumption
    | with_reducible apply State.modPort_pres C
    | with_reducible apply State.release_pres C

theorem State.aer_pres (C : Quiet P) {s : State} (a1 : ℕ) (a2 : ℕ) (h : P s) : P (State.aer s a1 a2) := by
  unfold State.aer
  try dsimp only
  repeat' first
    | with_reducible assumption
    | with_reducible apply State.modPort_pres C
    | with_reducible intro _
    | fail_if_no_progress with_reducible apply C.update
    | split

theorem State.rootConfig_pres (C : Quiet P) {s : State} (a1 : ℕ) (a2 : ℕ) (a3 : ℕ) (a4 : Option (List Octet)) (h : P s) : OnFst P (State.rootConfig s a1 a2 a3 a4) := by
  unfold State.rootConfig
  try dsimp only
  repeat' first
    | with_reducible assumption
    | with_reducible apply State.takeFree_pres C
    | (with_reducible apply OnSnd.snd; with_reducible apply State.takeFree_pres C)
    | with_reducible apply State.modPort_pres C
    | with_reducible apply pres_ite
    | with_reducible exact OnFst.get (by with_reducible assumption)
    | with_reducible intro _
    | with_reducible refine OnFst.eq ?_ (by with_reducible assumption)
    | with_reducible refine OnSnd.eq ?_ (by with_reducible assumption)
    | fail_if_no_progress with_reducible apply C.update
    | split
    | with_reducible apply OnFst.mk
    | with_reducible apply OnSnd.mk

theorem State.outbound_pres (C : Quiet P) {s : State} (a1 : Who) (a2 : ℕ) (a3 : MUnit5) (a4 : Option LineBits) (h : P s) : OnFst P (State.outbound s a1 a2 a3 a4) := by
  unfold State.outbound
  try dsimp only
  repeat' first
    | with_reducible assumption
    | with_reducible apply State.nonPosted_pres C
    | with_reducible apply State.modPort_pres C
    | with_reducible apply State.portSend_pres C
    | with_reducible apply State.looseSend_pres C
    | (with_reducible apply OnFst.fst; with_reducible apply State.looseSend_pres C)
    | with_reducible apply State.rootConfig_pres C
    | (with_reducible apply OnFst.fst; with_reducible apply State.rootConfig_pres C)
    | with_reducible apply pres_ite
    | with_reducible exact OnFst.get (by with_reducible assumption)
    | with_reducible intro _
    | with_reducible refine OnFst.eq ?_ (by with_reducible assumption)
    | fail_if_no_progress with_reducible apply C.update
    | split
    | with_reducible apply OnFst.mk

theorem State.outOne_pres (C : Quiet P) {s : State} (a1 : OutReq) (h : P s) : P (State.outOne s a1) := by
  unfold State.outOne
  try dsimp only
  repeat' first
    | with_reducible assumption
    | with_reducible apply State.outbound_pres C
    | (with_reducible apply OnFst.fst; with_reducible apply State.outbound_pres C)
    | with_reducible apply State.lineRead_pres C
    | (with_reducible apply OnFst.fst; with_reducible apply State.lineRead_pres C)
    | with_reducible apply State.lineWrite_pres C
    | (with_reducible apply OnFst.fst; with_reducible apply State.lineWrite_pres C)
    | with_reducible apply pres_ite
    | with_reducible exact OnFst.get (by with_reducible assumption)
    | with_reducible intro _
    | with_reducible refine OnFst.eq ?_ (by with_reducible assumption)
    | fail_if_no_progress with_reducible apply C.update
    | split
    | with_reducible apply OnFst.mk

theorem State.outAll_pres (C : Quiet P) {s : State} (a1 : List OutReq) (a2 : ℕ) (h : P s) : P (State.outAll s a1 a2) := by
  induction a2 generalizing s a1 with
  | zero =>
    unfold State.outAll
    try dsimp only
    repeat' first
      | with_reducible assumption
      | with_reducible apply ih
      | with_reducible apply State.outOne_pres C
      | with_reducible apply State.modPort_pres C
      | with_reducible intro _
      | fail_if_no_progress with_reducible apply C.update
      | split
  | succ k ih =>
    unfold State.outAll
    try dsimp only
    repeat' first
      | with_reducible assumption
      | with_reducible apply ih
      | with_reducible apply State.outOne_pres C
      | with_reducible apply State.modPort_pres C
      | with_reducible intro _
      | fail_if_no_progress with_reducible apply C.update
      | split

theorem execOutboundRequest_pres (C : Quiet P) (a1 : List OutReq) {s : State} (h : P s) : OnNext P (execOutboundRequest a1 s) := by
  unfold execOutboundRequest
  try dsimp only
  repeat' first
    | with_reducible assumption
    | with_reducible apply State.outAll_pres C
    | with_reducible apply OnNext.mk

theorem State.cplHome_pres (C : Quiet P) {s : State} (a1 : PortSrc) (h : P s) : P (State.cplHome s a1) := by
  unfold State.cplHome
  try dsimp only
  repeat' first
    | with_reducible assumption
    | with_reducible apply State.cxlAnswer_pres C
    | split

theorem State.cplEnd_pres (C : Quiet P) {s : State} (a1 : ℕ) (a2 : PortReq) (a3 : Resp) (a4 : List Octet) (h : P s) : P (State.cplEnd s a1 a2 a3 a4) := by
  unfold State.cplEnd
  try dsimp only
  repeat' first
    | with_reducible assumption
    | with_reducible apply State.cplHome_pres C
    | with_reducible apply State.modPort_pres C
    | with_reducible apply pres_ite
    | with_reducible intro _
    | fail_if_no_progress with_reducible apply C.update

theorem execPortCompletion_pres (C : Quiet P) (a1 : Fin 96) (a2 : BitVec 14) (a3 : CplStatus) (a4 : List Octet) {s : State} (h : P s) : OnNext P (execPortCompletion a1 a2 a3 a4 s) := by
  unfold execPortCompletion
  try dsimp only
  repeat' first
    | with_reducible assumption
    | with_reducible apply State.modPort_pres C
    | with_reducible apply State.recKey_pres C
    | with_reducible apply State.cplEnd_pres C
    | with_reducible apply State.sndKey_pres C
    | with_reducible apply pres_ite
    | with_reducible apply OnNext.mk
    | with_reducible intro _
    | fail_if_no_progress with_reducible apply C.update
    | split

theorem execCplTimeout_pres (C : Quiet P) (a1 : Fin 96) (a2 : BitVec 14) {s : State} (h : P s) : OnNext P (execCplTimeout a1 a2 s) := by
  unfold execCplTimeout
  try dsimp only
  repeat' first
    | with_reducible assumption
    | with_reducible apply State.cplEnd_pres C
    | with_reducible apply State.recKey_pres C
    | with_reducible apply State.aer_pres C
    | with_reducible apply State.modPort_pres C
    | with_reducible apply OnNext.mk
    | with_reducible intro _
    | fail_if_no_progress with_reducible apply C.update
    | split

theorem execTagReuseAllowed_pres (C : Quiet P) {s : State} (a1 : Fin 96) (a2 : BitVec 14) (h : P s) : OnNext P (execTagReuseAllowed a1 a2 s) := by
  unfold execTagReuseAllowed
  try dsimp only
  repeat' first
    | with_reducible assumption
    | with_reducible apply State.modPort_pres C
    | with_reducible apply OnNext.mk

theorem State.portGiveUp_pres (C : Quiet P) {s : State} (a1 : ℕ) (h : P s) : P (State.portGiveUp s a1) := by
  unfold State.portGiveUp
  try dsimp only
  repeat' first
    | with_reducible assumption
    | with_reducible apply State.cplHome_pres C
    | with_reducible apply State.modPort_pres C
    | with_reducible apply pres_fold
    | with_reducible intro _
    | fail_if_no_progress with_reducible apply C.update
    | split

theorem State.readLines_pres (C : Quiet P) {s : State} (a1 : Asker) (a2 : List (ℕ × ℕ × ℕ × ℕ)) (a3 : ℕ → ℕ) (a4 : State → LineBits → ℕ → ℕ → State × List Octet) (h4 : ∀ x0 x1 x2 x3, P x0 → OnFst P (a4 x0 x1 x2 x3)) (h : P s) : OnFst P (State.readLines s a1 a2 a3 a4) := by
  unfold State.readLines
  try dsimp only
  repeat' first
    | with_reducible assumption
    | with_reducible apply h4
    | (with_reducible apply OnFst.fst; with_reducible apply h4)
    | with_reducible apply State.keepAsk_pres C
    | with_reducible apply State.lineRead_pres C
    | (with_reducible apply OnFst.fst; with_reducible apply State.lineRead_pres C)
    | with_reducible apply pres_fold
    | (with_reducible apply OnFst.fst; with_reducible apply pres_fold)
    | with_reducible exact OnFst.fst (by with_reducible assumption)
    | with_reducible exact OnFst.get (by with_reducible assumption)
    | with_reducible intro _
    | with_reducible refine OnFst.eq ?_ (by with_reducible assumption)
    | fail_if_no_progress with_reducible apply C.update
    | split
    | with_reducible apply OnFst.mk

theorem State.readLoose_pres (C : Quiet P) {s : State} (a1 : Asker) (a2 : ℕ) (a3 : ℕ) (a4 : ℕ) (h : P s) : OnFst P (State.readLoose s a1 a2 a3 a4) := by
  unfold State.readLoose
  try dsimp only
  repeat' first
    | with_reducible assumption
    | with_reducible apply State.looseSend_pres C
    | (with_reducible apply OnFst.fst; with_reducible apply State.looseSend_pres C)
    | with_reducible apply State.readLines_pres C
    | (with_reducible apply OnFst.fst; with_reducible apply State.readLines_pres C)
    | with_reducible intro _
    | with_reducible refine OnFst.eq ?_ (by with_reducible assumption)
    | with_reducible apply OnFst.mk

theorem State.readDense_pres (C : Quiet P) {s : State} (a1 : Asker) (a2 : ℕ) (a3 : ℕ) (h : P s) : OnFst P (State.readDense s a1 a2 a3) := by
  unfold State.readDense
  try dsimp only
  repeat' first
    | with_reducible assumption
    | with_reducible apply State.readLines_pres C
    | (with_reducible apply OnFst.fst; with_reducible apply State.readLines_pres C)
    | with_reducible intro _
    | with_reducible refine OnFst.eq ?_ (by with_reducible assumption)
    | with_reducible apply OnFst.mk

theorem State.writeLines_pres (C : Quiet P) {s : State} (a1 : Asker) (a2 : List (ℕ × ℕ × ℕ × ℕ)) (a3 : Bool) (a4 : ℕ × ℕ × ℕ × ℕ → LineBits) (h : P s) : OnFst P (State.writeLines s a1 a2 a3 a4) := by
  unfold State.writeLines
  try dsimp only
  repeat' first
    | with_reducible assumption
    | with_reducible apply State.keepAsk_pres C
    | with_reducible apply State.lineWrite_pres C
    | (with_reducible apply OnFst.fst; with_reducible apply State.lineWrite_pres C)
    | with_reducible apply pres_fold
    | (with_reducible apply OnFst.fst; with_reducible apply pres_fold)
    | with_reducible exact OnFst.fst (by with_reducible assumption)
    | with_reducible exact OnFst.get (by with_reducible assumption)
    | with_reducible intro _
    | with_reducible refine OnFst.eq ?_ (by with_reducible assumption)
    | fail_if_no_progress with_reducible apply C.update
    | split
    | with_reducible apply OnFst.mk

theorem State.writeLoose_pres (C : Quiet P) {s : State} (a1 : Asker) (a2 : ℕ) (a3 : List Octet) (a4 : Bool) (h : P s) : OnFst P (State.writeLoose s a1 a2 a3 a4) := by
  unfold State.writeLoose
  try dsimp only
  repeat' first
    | with_reducible assumption
    | with_reducible apply State.writeLines_pres C
    | (with_reducible apply OnFst.fst; with_reducible apply State.writeLines_pres C)
    | with_reducible intro _
    | with_reducible refine OnFst.eq ?_ (by with_reducible assumption)
    | with_reducible apply OnFst.mk

theorem State.writeDense_pres (C : Quiet P) {s : State} (a1 : Asker) (a2 : ℕ) (a3 : List Octet) (h : P s) : OnFst P (State.writeDense s a1 a2 a3) := by
  unfold State.writeDense
  try dsimp only
  repeat' first
    | with_reducible assumption
    | with_reducible apply State.writeLines_pres C
    | (with_reducible apply OnFst.fst; with_reducible apply State.writeLines_pres C)
    | with_reducible intro _
    | with_reducible refine OnFst.eq ?_ (by with_reducible assumption)
    | with_reducible apply OnFst.mk

theorem State.sendCpl_pres (C : Quiet P) {s : State} (a1 : ℕ) (a2 : ℕ) (a3 : List Octet) (a4 : CplStatus) (h : P s) : P (State.sendCpl s a1 a2 a3 a4) := by
  unfold State.sendCpl
  try dsimp only
  repeat' first
    | with_reducible assumption
    | with_reducible apply State.portSend_pres C
    | with_reducible apply pres_ite
    | with_reducible apply pres_fold
    | (with_reducible apply OnFst.fst; with_reducible apply pres_fold)
    | with_reducible exact OnFst.fst (by with_reducible assumption)
    | with_reducible intro _
    | with_reducible refine OnFst.eq ?_ (by with_reducible assumption)
    | with_reducible apply OnFst.mk

theorem State.refuseTlp_pres (C : Quiet P) {s : State} (a1 : ℕ) (a2 : Bool) (a3 : CplStatus) (h : P s) : P (State.refuseTlp s a1 a2 a3) := by
  unfold State.refuseTlp
  try dsimp only
  repeat' first
    | with_reducible assumption
    | with_reducible apply State.portSend_pres C
    | with_reducible apply State.aer_pres C
    | with_reducible apply pres_ite
    | with_reducible intro _

theorem State.endRead_pres (C : Quiet P) (a1 : ℕ) (a2 : ℕ) (a3 : Multi) (h3 : OnFst P a3) : OnFst P (State.endRead a1 a2 a3) := by
  unfold State.endRead
  try dsimp only
  repeat' first
    | with_reducible assumption
    | with_reducible apply State.refuseTlp_pres C
    | with_reducible apply State.sendCpl_pres C
    | with_reducible apply pres_ite
    | with_reducible exact OnFst.get (by with_reducible assumption)
    | with_reducible intro _
    | with_reducible refine OnFst.eq ?_ (by with_reducible assumption)
    | split
    | with_reducible apply OnFst.mk

theorem State.endWrite_pres (C : Quiet P) (a1 : ℕ) (a2 : ℕ) (a3 : State × Option Resp) (h3 : OnFst P a3) : OnFst P (State.endWrite a1 a2 a3) := by
  unfold State.endWrite
  try dsimp only
  repeat' first
    | with_reducible assumption
    | with_reducible apply State.refuseTlp_pres C
    | with_reducible apply State.sndKey_pres C
    | with_reducible exact OnFst.get (by with_reducible assumption)
    | with_reducible refine OnFst.eq ?_ (by with_reducible assumption)
    | split
    | with_reducible apply OnFst.mk

theorem State.atWindows_pres (C : Quiet P) {s : State} (a1 : ℕ) (a2 : Bool) (a3 : ℕ) (a4 : ℕ) (a5 : List Octet) (h : P s) : OnFst P (State.atWindows s a1 a2 a3 a4 a5) := by
  unfold State.atWindows
  try dsimp only
  repeat' first
    | with_reducible assumption
    | with_reducible apply State.readLoose_pres C
    | (with_reducible apply OnFst.fst; with_reducible apply State.readLoose_pres C)
    | with_reducible apply State.endRead_pres C
    | (with_reducible apply OnFst.fst; with_reducible apply State.endRead_pres C)
    | with_reducible apply State.writeLoose_pres C
    | (with_reducible apply OnFst.fst; with_reducible apply State.writeLoose_pres C)
    | with_reducible apply State.endWrite_pres C
    | (with_reducible apply OnFst.fst; with_reducible apply State.endWrite_pres C)
    | with_reducible apply State.readDense_pres C
    | (with_reducible apply OnFst.fst; with_reducible apply State.readDense_pres C)
    | with_reducible apply State.writeDense_pres C
    | (with_reducible apply OnFst.fst; with_reducible apply State.writeDense_pres C)
    | with_reducible apply State.refuseTlp_pres C
    | with_reducible apply State.modPort_pres C
    | with_reducible apply pres_ite
    | with_reducible exact OnFst.get (by with_reducible assumption)
    | with_reducible intro _
    | with_reducible refine OnFst.eq ?_ (by with_reducible assumption)
    | fail_if_no_progress with_reducible apply C.update
    | split
    | with_reducible apply OnFst.mk

theorem State.intMessage_pres (C : Loud P) {s : State} (a1 : ℕ) (a2 : ℕ) (a3 : BitVec 32) (h : P s) : P (State.intMessage s a1 a2 a3) := by
  unfold State.intMessage
  try dsimp only
  repeat' first
    | with_reducible assumption
    | (refine State.modThread_pres C _ _ ?_ ?_)
    | with_reducible apply State.aer_pres C.toQuiet
    | (with_reducible intro x k; first | exact Thread.legal_scopeReset _ | exact Thread.legal_congr k rfl rfl rfl rfl rfl rfl rfl rfl | exact Thread.legal_trap k _ _ _ | exact Thread.legal_launchEnd k _ | exact Thread.legal_setWreg k _ (WReg.legal_congr (Thread.legal_wreg k _) rfl rfl rfl))
    | with_reducible apply pres_ite
    | with_reducible intro _
    | fail_if_no_progress with_reducible apply C.toQuiet.update
    | split

theorem State.serveMem_pres (C : Loud P) {s : State} (a1 : ℕ) (a2 : TlpKind) (a3 : ℕ) (a4 : ℕ) (a5 : List Octet) (h : P s) : OnFst P (State.serveMem s a1 a2 a3 a4 a5) := by
  unfold State.serveMem
  try dsimp only
  repeat' first
    | with_reducible assumption
    | with_reducible apply State.atWindows_pres C.toQuiet
    | (with_reducible apply OnFst.fst; with_reducible apply State.atWindows_pres C.toQuiet)
    | with_reducible apply State.intMessage_pres C
    | with_reducible apply State.sndKey_pres C.toQuiet
    | with_reducible apply State.aer_pres C.toQuiet
    | with_reducible apply State.refuseTlp_pres C.toQuiet
    | with_reducible apply pres_ite
    | with_reducible exact OnFst.get (by with_reducible assumption)
    | with_reducible intro _
    | with_reducible refine OnFst.eq ?_ (by with_reducible assumption)
    | fail_if_no_progress with_reducible apply C.toQuiet.update
    | split
    | with_reducible apply OnFst.mk

theorem execIntxMessage_pres (C : Quiet P) {s : State} (a1 : Fin 96) (a2 : Fin 4) (a3 : Bool) (h : P s) : OnNext P (execIntxMessage a1 a2 a3 s) := by
  unfold execIntxMessage
  try dsimp only
  repeat' first
    | with_reducible assumption
    | with_reducible apply State.modPort_pres C
    | with_reducible apply pres_ite
    | with_reducible apply OnNext.mk
    | with_reducible intro _

end Sys2Proof.Machine
end

