-- ==== Sys2Proof/Laws/KeepEndpoint.lean ====
section
/-! SUPPORT. What the operations of Machine/Endpoint.lean keep. -/

namespace Sys2Proof.Machine

variable {P : State → Prop}

theorem State.rebuildQuay_pres (C : Quiet P) {s : State} (a1 : ℕ) (a2 : ℕ) (h : P s) : P (State.rebuildQuay s a1 a2) := by
  unfold State.rebuildQuay
  try dsimp only
  repeat' first
    | with_reducible assumption
    | with_reducible apply State.modPort_pres C
    | with_reducible intro _
    | fail_if_no_progress with_reducible apply C.update

theorem State.hostStop_pres (C : Quiet P) {s : State} (a1 : ℕ) (a2 : ℕ) (h : P s) : P (State.hostStop s a1 a2) := by
  unfold State.hostStop
  try dsimp only
  repeat' first
    | with_reducible assumption
    | with_reducible apply State.modPort_pres C
    | with_reducible apply State.abortRings_pres C

theorem State.epReset_pres (C : Quiet P) {s : State} (a1 : ℕ) (a2 : Bool) (h : P s) : P (State.epReset s a1 a2) := by
  unfold State.epReset
  try dsimp only
  repeat' first
    | with_reducible assumption
    | with_reducible apply State.rebuildQuay_pres C
    | with_reducible apply State.modBox_pres C
    | with_reducible apply State.modPort_pres C
    | with_reducible apply State.resetRings_pres C
    | with_reducible apply State.abortRings_pres C
    | with_reducible apply pres_ite
    | with_reducible intro _
    | fail_if_no_progress with_reducible apply C.update
    | split

theorem execBusMasterEnableClear_pres (C : Quiet P) (a1 : Fin 12) {s : State} (h : P s) : OnNext P (execBusMasterEnableClear a1 s) := by
  unfold execBusMasterEnableClear
  try dsimp only
  repeat' first
    | with_reducible assumption
    | with_reducible apply State.modPort_pres C
    | with_reducible apply State.hostStop_pres C
    | with_reducible apply OnNext.mk
    | with_reducible intro _
    | fail_if_no_progress with_reducible apply C.update
    | split

theorem State.toD3hot_pres (C : Quiet P) {s : State} (a1 : ℕ) (a2 : ℕ) (h : P s) : P (State.toD3hot s a1 a2) := by
  unfold State.toD3hot
  try dsimp only
  repeat' first
    | with_reducible assumption
    | with_reducible apply State.modRing_pres C
    | with_reducible apply State.modPort_pres C
    | with_reducible apply State.hostStop_pres C
    | with_reducible apply pres_ite
    | with_reducible apply pres_fold
    | with_reducible intro _
    | fail_if_no_progress with_reducible apply C.update

theorem execD3hotEntry_pres (C : Quiet P) (a1 : Fin 12) {s : State} (h : P s) : OnNext P (execD3hotEntry a1 s) := by
  unfold execD3hotEntry
  try dsimp only
  repeat' first
    | with_reducible assumption
    | with_reducible apply State.toD3hot_pres C
    | with_reducible apply pres_ite
    | with_reducible apply OnNext.mk
    | with_reducible intro _
    | fail_if_no_progress with_reducible apply C.update
    | split

theorem State.toD0_pres (C : Quiet P) {s : State} (a1 : ℕ) (a2 : ℕ) (h : P s) : P (State.toD0 s a1 a2) := by
  unfold State.toD0
  try dsimp only
  repeat' first
    | with_reducible assumption
    | with_reducible apply State.modBlock_pres C
    | with_reducible apply State.modPort_pres C
    | with_reducible intro _
    | fail_if_no_progress with_reducible apply C.update

theorem execD0Return_pres (C : Quiet P) (a1 : Fin 12) {s : State} (h : P s) : OnNext P (execD0Return a1 s) := by
  unfold execD0Return
  try dsimp only
  repeat' first
    | with_reducible assumption
    | with_reducible apply State.toD0_pres C
    | with_reducible apply OnNext.mk
    | with_reducible intro _
    | fail_if_no_progress with_reducible apply C.update
    | split

theorem execFlr_pres (C : Quiet P) {s : State} (a1 : Fin 12) (h : P s) : OnNext P (execFlr a1 s) := by
  unfold execFlr
  try dsimp only
  repeat' first
    | with_reducible assumption
    | with_reducible apply State.epReset_pres C
    | with_reducible apply pres_ite
    | with_reducible apply OnNext.mk
    | with_reducible intro _
    | split

theorem execD3coldEntry_pres (C : Quiet P) {s : State} (a1 : Fin 12) (h : P s) : OnNext P (execD3coldEntry a1 s) := by
  unfold execD3coldEntry
  try dsimp only
  repeat' first
    | with_reducible assumption
    | with_reducible apply State.modPort_pres C
    | with_reducible apply State.epReset_pres C
    | with_reducible apply State.linkDown_pres C
    | with_reducible apply State.modBlock_pres C
    | with_reducible apply pres_ite
    | with_reducible apply OnNext.mk
    | with_reducible intro _
    | split

theorem execPrtPerstAssert_pres (C : Quiet P) {s : State} (a1 : Fin 12) (h : P s) : OnNext P (execPrtPerstAssert a1 s) := by
  unfold execPrtPerstAssert
  try dsimp only
  repeat' first
    | with_reducible assumption
    | with_reducible apply State.modBlock_pres C
    | with_reducible apply State.epReset_pres C
    | with_reducible apply State.linkDown_pres C
    | with_reducible apply OnNext.mk
    | split

theorem execPme_pres (C : Quiet P) {s : State} (a1 : Fin 12) (h : P s) : OnNext P (execPme a1 s) := by
  unfold execPme
  try dsimp only
  repeat' first
    | with_reducible assumption
    | with_reducible apply State.modPort_pres C
    | with_reducible apply State.portSend_pres C
    | with_reducible apply State.modBlock_pres C
    | with_reducible apply pres_ite
    | with_reducible apply OnNext.mk
    | with_reducible intro _
    | split

theorem execSurpriseRemoval_pres (C : Quiet P) {s : State} (a1 : Fin 96) (a2 : Bool) (h : P s) : OnNext P (execSurpriseRemoval a1 a2 s) := by
  unfold execSurpriseRemoval
  try dsimp only
  repeat' first
    | with_reducible assumption
    | with_reducible apply State.epReset_pres C
    | with_reducible apply State.linkDown_pres C
    | with_reducible apply pres_ite
    | with_reducible apply OnNext.mk
    | with_reducible intro _

theorem State.epStatWrite_pres (C : Quiet P) {s : State} (a1 : ℕ) (a2 : BitVec 32) (h : P s) : P (State.epStatWrite s a1 a2) := by
  unfold State.epStatWrite
  try dsimp only
  repeat' first
    | with_reducible assumption
    | with_reducible apply State.modPort_pres C

theorem execPrtEpintstatWrite_pres (C : Quiet P) (a1 : Fin 12) (a2 : BitVec 32) {s : State} (h : P s) : OnNext P (execPrtEpintstatWrite a1 a2 s) := by
  unfold execPrtEpintstatWrite
  try dsimp only
  repeat' first
    | with_reducible assumption
    | with_reducible apply State.epStatWrite_pres C
    | with_reducible apply pres_ite
    | with_reducible apply OnNext.mk
    | with_reducible intro _
    | fail_if_no_progress with_reducible apply C.update
    | split

theorem execInterruptDisableWrite_pres (C : Quiet P) {s : State} (a1 : Fin 12) (a2 : Bool) (h : P s) : OnNext P (execInterruptDisableWrite a1 a2 s) := by
  unfold execInterruptDisableWrite
  try dsimp only
  repeat' first
    | with_reducible assumption
    | with_reducible apply State.modPort_pres C
    | with_reducible apply OnNext.mk
    | split

theorem State.cfgWrite_pres (C : Quiet P) {s : State} (a1 : Fin 12) (a2 : ℕ) (a3 : ℕ) (a4 : BitVec 32) (a5 : BitVec 32) (h : P s) : P (State.cfgWrite s a1 a2 a3 a4 a5) := by
  unfold State.cfgWrite
  try dsimp only
  repeat' first
    | with_reducible assumption
    | with_reducible apply State.epReset_pres C
    | with_reducible apply State.toD0_pres C
    | with_reducible apply State.toD3hot_pres C
    | with_reducible apply State.modPort_pres C
    | with_reducible apply State.hostStop_pres C
    | with_reducible apply pres_ite
    | with_reducible intro _
    | fail_if_no_progress with_reducible apply C.update
    | split

theorem State.cxlWriteRegs_pres (C : Quiet P) {s : State} (a1 : ℕ) (a2 : ℕ) (a3 : ℕ) (a4 : List Octet) (h : P s) : P (State.cxlWriteRegs s a1 a2 a3 a4) := by
  unfold State.cxlWriteRegs
  try dsimp only
  repeat' first
    | with_reducible assumption
    | with_reducible apply State.epEvent_pres C
    | with_reducible apply State.modPort_pres C
    | with_reducible apply pres_ite
    | with_reducible apply pres_fold
    | (with_reducible apply OnFst.fst; with_reducible apply pres_fold)
    | with_reducible exact OnFst.fst (by with_reducible assumption)
    | with_reducible intro _
    | with_reducible refine OnFst.eq ?_ (by with_reducible assumption)
    | fail_if_no_progress with_reducible apply C.update
    | with_reducible apply OnFst.mk

theorem State.bar0Write_pres (C : Quiet P) {s : State} (a1 : Fin 12) (a2 : ℕ) (a3 : ℕ) (a4 : List Octet) (h : P s) : P (State.bar0Write s a1 a2 a3 a4) := by
  unfold State.bar0Write
  try dsimp only
  repeat' first
    | with_reducible assumption
    | with_reducible apply State.doorbell_pres C
    | (with_reducible apply OnFst.fst; with_reducible apply State.doorbell_pres C)
    | with_reducible apply State.modPort_pres C
    | with_reducible apply State.epStatWrite_pres C
    | with_reducible apply State.modBox_pres C
    | with_reducible apply State.cxlWriteRegs_pres C
    | with_reducible apply pres_ite
    | with_reducible exact OnFst.get (by with_reducible assumption)
    | with_reducible intro _
    | with_reducible refine OnFst.eq ?_ (by with_reducible assumption)
    | fail_if_no_progress with_reducible apply C.update
    | split
    | with_reducible apply OnFst.mk

theorem State.lendRefused_pres (C : Quiet P) {s : State} (a1 : ℕ) (a2 : ℕ) (a3 : Bool) (h : P s) : P (State.lendRefused s a1 a2 a3) := by
  unfold State.lendRefused
  try dsimp only
  repeat' first
    | with_reducible assumption
    | with_reducible apply State.recKey_pres C

theorem State.bar2Serve_pres (C : Quiet P) {s : State} (a1 : ℕ) (a2 : ℕ) (a3 : Option (List Octet)) (a4 : ℕ) (a5 : Bool) (h : P s) : OnFst P (State.bar2Serve s a1 a2 a3 a4 a5) := by
  unfold State.bar2Serve
  try dsimp only
  repeat' first
    | with_reducible assumption
    | with_reducible apply State.endRead_pres C
    | (with_reducible apply OnFst.fst; with_reducible apply State.endRead_pres C)
    | with_reducible apply State.portSend_pres C
    | with_reducible apply State.lendRefused_pres C
    | with_reducible apply State.readLoose_pres C
    | (with_reducible apply OnFst.fst; with_reducible apply State.readLoose_pres C)
    | with_reducible apply State.refuseTlp_pres C
    | with_reducible apply State.endWrite_pres C
    | (with_reducible apply OnFst.fst; with_reducible apply State.endWrite_pres C)
    | with_reducible apply State.writeLoose_pres C
    | (with_reducible apply OnFst.fst; with_reducible apply State.writeLoose_pres C)
    | with_reducible apply pres_ite
    | with_reducible exact OnFst.get (by with_reducible assumption)
    | with_reducible intro _
    | with_reducible refine OnFst.eq ?_ (by with_reducible assumption)
    | fail_if_no_progress with_reducible apply C.update
    | split
    | with_reducible apply OnFst.mk

theorem State.lendServe_pres (C : Quiet P) {s : State} (a1 : ℕ) (a2 : ℕ) (a3 : Option LineBits) (a4 : BitVec 64) (a5 : Bool) (h : P s) : OnFst P (State.lendServe s a1 a2 a3 a4 a5) := by
  unfold State.lendServe
  try dsimp only
  repeat' first
    | with_reducible assumption
    | with_reducible apply State.lendRefused_pres C
    | with_reducible apply State.modPort_pres C
    | with_reducible apply State.lineRead_pres C
    | (with_reducible apply OnFst.fst; with_reducible apply State.lineRead_pres C)
    | with_reducible apply State.sndKey_pres C
    | with_reducible apply State.lineWrite_pres C
    | (with_reducible apply OnFst.fst; with_reducible apply State.lineWrite_pres C)
    | with_reducible apply pres_ite
    | with_reducible exact OnFst.get (by with_reducible assumption)
    | with_reducible intro _
    | with_reducible refine OnFst.eq ?_ (by with_reducible assumption)
    | fail_if_no_progress with_reducible apply C.update
    | split
    | with_reducible apply OnFst.mk

theorem State.barServe_pres (C : Quiet P) {s : State} (a1 : Fin 12) (a2 : ℕ) (a3 : HostSpace) (a4 : ℕ) (a5 : Option (List Octet)) (a6 : ℕ) (a7 : Bool) (h : P s) : OnFst P (State.barServe s a1 a2 a3 a4 a5 a6 a7) := by
  unfold State.barServe
  try dsimp only
  repeat' first
    | with_reducible assumption
    | with_reducible apply State.modPort_pres C
    | with_reducible apply State.bar2Serve_pres C
    | (with_reducible apply OnFst.fst; with_reducible apply State.bar2Serve_pres C)
    | with_reducible apply State.bar0Write_pres C
    | with_reducible apply State.sndKey_pres C
    | with_reducible apply State.portSend_pres C
    | with_reducible apply State.cfgWrite_pres C
    | with_reducible apply State.refuseTlp_pres C
    | with_reducible apply State.sendCpl_pres C
    | with_reducible apply pres_ite
    | with_reducible exact OnFst.get (by with_reducible assumption)
    | with_reducible intro _
    | with_reducible refine OnFst.eq ?_ (by with_reducible assumption)
    | fail_if_no_progress with_reducible apply C.update
    | split
    | with_reducible apply OnFst.mk

theorem State.serveIn_pres (C : Loud P) {s : State} (a1 : ℕ) (a2 : InReq) (h : P s) : OnFst P (State.serveIn s a1 a2) := by
  unfold State.serveIn
  try dsimp only
  repeat' first
    | with_reducible assumption
    | with_reducible apply State.lendServe_pres C.toQuiet
    | (with_reducible apply OnFst.fst; with_reducible apply State.lendServe_pres C.toQuiet)
    | with_reducible apply State.barServe_pres C.toQuiet
    | (with_reducible apply OnFst.fst; with_reducible apply State.barServe_pres C.toQuiet)
    | with_reducible apply State.serveMem_pres C
    | (with_reducible apply OnFst.fst; with_reducible apply State.serveMem_pres C)
    | with_reducible apply pres_ite
    | with_reducible exact OnFst.get (by with_reducible assumption)
    | with_reducible intro _
    | with_reducible refine OnFst.eq ?_ (by with_reducible assumption)
    | fail_if_no_progress with_reducible apply C.toQuiet.update
    | split
    | with_reducible apply OnFst.mk

theorem State.drainIn_pres (C : Loud P) {s : State} (a1 : ℕ) (a2 : ℕ) (h : P s) : P (State.drainIn s a1 a2) := by
  induction a2 generalizing s with
  | zero =>
    unfold State.drainIn
    try dsimp only
    repeat' first
      | with_reducible assumption
      | with_reducible apply ih
      | with_reducible apply State.modPort_pres C.toQuiet
      | with_reducible apply State.serveIn_pres C
      | (with_reducible apply OnFst.fst; with_reducible apply State.serveIn_pres C)
      | with_reducible exact OnFst.get (by with_reducible assumption)
      | with_reducible intro _
      | with_reducible refine OnFst.eq ?_ (by with_reducible assumption)
      | fail_if_no_progress with_reducible apply C.toQuiet.update
      | split
      | with_reducible apply OnFst.mk
  | succ k ih =>
    unfold State.drainIn
    try dsimp only
    repeat' first
      | with_reducible assumption
      | with_reducible apply ih
      | with_reducible apply State.modPort_pres C.toQuiet
      | with_reducible apply State.serveIn_pres C
      | (with_reducible apply OnFst.fst; with_reducible apply State.serveIn_pres C)
      | with_reducible exact OnFst.get (by with_reducible assumption)
      | with_reducible intro _
      | with_reducible refine OnFst.eq ?_ (by with_reducible assumption)
      | fail_if_no_progress with_reducible apply C.toQuiet.update
      | split
      | with_reducible apply OnFst.mk

theorem State.inbound_pres (C : Loud P) {s : State} (a1 : ℕ) (a2 : InReq) (h : P s) : P (State.inbound s a1 a2) := by
  unfold State.inbound
  try dsimp only
  repeat' first
    | with_reducible assumption
    | with_reducible apply State.drainIn_pres C
    | with_reducible apply State.modPort_pres C.toQuiet
    | with_reducible intro _
    | fail_if_no_progress with_reducible apply C.toQuiet.update

theorem State.drainPorts_pres (C : Loud P) {s : State} (h : P s) : P (State.drainPorts s) := by
  unfold State.drainPorts
  try dsimp only
  repeat' first
    | with_reducible assumption
    | with_reducible apply State.drainIn_pres C
    | with_reducible apply pres_fold
    | with_reducible intro _

theorem execInboundRequest_pres (C : Loud P) (a1 : Fin 96) (a2 : TlpKind) (a3 : BitVec 64) (a4 : BitVec 13) (a5 : List Octet) {s : State} (h : P s) : OnNext P (execInboundRequest a1 a2 a3 a4 a5 s) := by
  unfold execInboundRequest
  try dsimp only
  repeat' first
    | with_reducible assumption
    | with_reducible apply State.inbound_pres C
    | with_reducible apply pres_ite
    | with_reducible apply OnNext.mk
    | with_reducible intro _

theorem execInterruptMessage_pres (C : Loud P) (a1 : Fin 96) (a2 : BitVec 64) (a3 : BitVec 32) {s : State} (h : P s) : OnNext P (execInterruptMessage a1 a2 a3 s) := by
  unfold execInterruptMessage
  try dsimp only
  repeat' first
    | with_reducible assumption
    | with_reducible apply State.inbound_pres C
    | with_reducible apply pres_ite
    | with_reducible apply OnNext.mk
    | with_reducible intro _

theorem execHostBarRequest_pres (C : Loud P) (a1 : Fin 12) (a2 : HostSpace) (a3 : BitVec 40) (a4 : Option (List Octet)) (a5 : BitVec 13) (a6 : Bool) {s : State} (h : P s) : OnNext P (execHostBarRequest a1 a2 a3 a4 a5 a6 s) := by
  unfold execHostBarRequest
  try dsimp only
  repeat' first
    | with_reducible assumption
    | with_reducible apply State.inbound_pres C
    | with_reducible apply pres_ite
    | with_reducible apply OnNext.mk
    | with_reducible intro _
    | fail_if_no_progress with_reducible apply C.toQuiet.update
    | split

theorem execLendingRequest_pres (C : Loud P) (a1 : Fin 12) (a2 : BitVec 52) (a3 : Option LineBits) (a4 : BitVec 64) (a5 : Bool) {s : State} (h : P s) : OnNext P (execLendingRequest a1 a2 a3 a4 a5 s) := by
  unfold execLendingRequest
  try dsimp only
  repeat' first
    | with_reducible assumption
    | with_reducible apply State.inbound_pres C
    | with_reducible apply pres_ite
    | with_reducible apply OnNext.mk
    | with_reducible intro _
    | fail_if_no_progress with_reducible apply C.toQuiet.update
    | split

theorem execPortLinkTraining_pres (C : Quiet P) (a1 : Fin 96) (a2 : LinkRes) {s : State} (h : P s) : OnNext P (execPortLinkTraining a1 a2 s) := by
  unfold execPortLinkTraining
  try dsimp only
  repeat' first
    | with_reducible assumption
    | with_reducible apply State.epReset_pres C
    | with_reducible apply State.modPort_pres C
    | with_reducible apply State.rebuildQuay_pres C
    | with_reducible apply State.modBlock_pres C
    | with_reducible apply State.release_pres C
    | with_reducible apply State.blockClaim_pres C
    | (with_reducible apply OnFst.fst; with_reducible apply State.blockClaim_pres C)
    | with_reducible apply pres_ite
    | with_reducible apply OnNext.mk
    | with_reducible exact OnFst.get (by with_reducible assumption)
    | with_reducible intro _
    | with_reducible refine OnFst.eq ?_ (by with_reducible assumption)
    | fail_if_no_progress with_reducible apply C.update
    | split
    | with_reducible apply OnFst.mk

end Sys2Proof.Machine
end

