-- ==== Sys2Proof/Laws/KeepHarbourRun.lean ====
section
/-! SUPPORT. What the operations of Machine/HarbourRun.lean keep. -/

namespace Sys2Proof.Machine

variable {P : State → Prop}

theorem State.engRead_pres (C : Quiet P) {s : State} (a1 : RingR) (a2 : ℕ) (a3 : ℕ) (a4 : ℕ) (h : P s) : OnFst P (State.engRead s a1 a2 a3 a4) := by
  unfold State.engRead
  try dsimp only
  repeat' first
    | with_reducible assumption
    | with_reducible apply State.outbound_pres C
    | (with_reducible apply OnFst.fst; with_reducible apply State.outbound_pres C)
    | with_reducible apply State.lineRead_pres C
    | (with_reducible apply OnFst.fst; with_reducible apply State.lineRead_pres C)
    | with_reducible apply pres_ite
    | with_reducible exact OnFst.get (by with_reducible assumption)
    | with_reducible intro _
    | with_reducible refine OnFst.eq ?_ (by with_reducible assumption)
    | fail_if_no_progress with_reducible apply C.update
    | split
    | with_reducible apply OnFst.mk

theorem State.engWrite_pres (C : Quiet P) {s : State} (a1 : RingR) (a2 : ℕ) (a3 : ℕ) (a4 : List Nonet) (h : P s) : OnFst P (State.engWrite s a1 a2 a3 a4) := by
  unfold State.engWrite
  try dsimp only
  repeat' first
    | with_reducible assumption
    | with_reducible apply State.outbound_pres C
    | (with_reducible apply OnFst.fst; with_reducible apply State.outbound_pres C)
    | with_reducible apply State.lineWrite_pres C
    | (with_reducible apply OnFst.fst; with_reducible apply State.lineWrite_pres C)
    | with_reducible apply pres_ite
    | with_reducible apply pres_fold
    | (with_reducible apply OnFst.fst; with_reducible apply pres_fold)
    | with_reducible exact OnFst.fst (by with_reducible assumption)
    | with_reducible exact OnFst.get (by with_reducible assumption)
    | with_reducible intro _
    | with_reducible refine OnFst.eq ?_ (by with_reducible assumption)
    | fail_if_no_progress with_reducible apply C.update
    | split
    | with_reducible apply OnFst.mk

theorem State.engReads_pres (C : Quiet P) {s : State} (a1 : RingR) (a2 : ℕ) (a3 : ℕ) (a4 : ℕ) (h : P s) : OnFst P (State.engReads s a1 a2 a3 a4) := by
  unfold State.engReads
  try dsimp only
  repeat' first
    | with_reducible assumption
    | with_reducible apply State.engRead_pres C
    | with_reducible apply pres_fold
    | with_reducible exact OnFst.fst (by with_reducible assumption)
    | with_reducible intro _
    | with_reducible refine OnFst.eq ?_ (by with_reducible assumption)
    | split
    | with_reducible apply OnFst.mk

theorem State.engWrites_pres (C : Quiet P) {s : State} (a1 : RingR) (a2 : ℕ) (a3 : ℕ) (a4 : List Nonet) (h : P s) : OnFst P (State.engWrites s a1 a2 a3 a4) := by
  unfold State.engWrites
  try dsimp only
  repeat' first
    | with_reducible assumption
    | with_reducible apply State.engWrite_pres C
    | with_reducible apply pres_fold
    | with_reducible exact OnFst.fst (by with_reducible assumption)
    | with_reducible intro _
    | with_reducible refine OnFst.eq ?_ (by with_reducible assumption)
    | split
    | with_reducible apply OnFst.mk

theorem State.hostRead_pres (C : Quiet P) {s : State} (a1 : ℕ) (a2 : ℕ) (a3 : BitVec 64) (a4 : ℕ) (h : P s) : OnFst P (State.hostRead s a1 a2 a3 a4) := by
  unfold State.hostRead
  try dsimp only
  repeat' first
    | with_reducible assumption
    | with_reducible apply State.nonPosted_pres C
    | with_reducible apply State.modPort_pres C
    | with_reducible apply pres_ite
    | with_reducible exact OnFst.get (by with_reducible assumption)
    | with_reducible intro _
    | with_reducible refine OnFst.eq ?_ (by with_reducible assumption)
    | fail_if_no_progress with_reducible apply C.update
    | split
    | with_reducible apply OnFst.mk

theorem State.copyStep_pres (C : Quiet P) {s : State} (a1 : RingR) (a2 : ℕ) (a3 : Desc) (a4 : ℕ) (h : P s) : OnGo P (State.copyStep s a1 a2 a3 a4) := by
  unfold State.copyStep
  try dsimp only
  repeat' first
    | with_reducible assumption
    | with_reducible apply State.engReads_pres C
    | with_reducible apply State.engWrite_pres C
    | with_reducible apply OnGo.more
    | with_reducible apply OnGo.done
    | with_reducible apply OnGo.wait
    | with_reducible refine OnFst.eq ?_ (by with_reducible assumption)
    | split

theorem State.copyIn_pres (C : Quiet P) {s : State} (a1 : RingR) (a2 : ℕ) (a3 : ℕ) (a4 : Desc) (a5 : ℕ) (h : P s) : OnGo P (State.copyIn s a1 a2 a3 a4 a5) := by
  unfold State.copyIn
  try dsimp only
  repeat' first
    | with_reducible assumption
    | with_reducible apply State.keepAsk_pres C
    | with_reducible apply State.engWrite_pres C
    | (with_reducible apply OnFst.fst; with_reducible apply State.engWrite_pres C)
    | with_reducible apply State.hostRead_pres C
    | (with_reducible apply OnFst.fst; with_reducible apply State.hostRead_pres C)
    | with_reducible apply pres_ite
    | with_reducible exact OnFst.get (by with_reducible assumption)
    | with_reducible apply OnGo.more
    | with_reducible apply OnGo.done
    | with_reducible apply OnGo.wait
    | with_reducible refine OnGo.moreEq ?_ (by with_reducible assumption)
    | with_reducible refine OnGo.doneEq ?_ (by with_reducible assumption)
    | with_reducible refine OnGo.waitEq ?_ (by with_reducible assumption)
    | with_reducible intro _
    | with_reducible refine OnFst.eq ?_ (by with_reducible assumption)
    | fail_if_no_progress with_reducible apply C.update
    | split
    | with_reducible apply OnFst.mk

theorem State.copyOut_pres (C : Quiet P) {s : State} (a1 : RingR) (a2 : ℕ) (a3 : ℕ) (a4 : Desc) (a5 : ℕ) (h : P s) : OnGo P (State.copyOut s a1 a2 a3 a4 a5) := by
  unfold State.copyOut
  try dsimp only
  repeat' first
    | with_reducible assumption
    | with_reducible apply State.engRead_pres C
    | with_reducible apply State.portSend_pres C
    | (with_reducible apply OnFst.fst; with_reducible apply State.looseSend_pres C)
    | with_reducible apply pres_ite
    | with_reducible apply OnGo.more
    | with_reducible apply OnGo.done
    | with_reducible apply OnGo.wait
    | with_reducible intro _
    | with_reducible refine OnFst.eq ?_ (by with_reducible assumption)
    | split

theorem State.fillStep_pres (C : Quiet P) {s : State} (a1 : RingR) (a2 : ℕ) (a3 : Desc) (a4 : ℕ) (h : P s) : OnGo P (State.fillStep s a1 a2 a3 a4) := by
  unfold State.fillStep
  try dsimp only
  repeat' first
    | with_reducible assumption
    | with_reducible apply State.engWrite_pres C
    | with_reducible apply OnGo.more
    | with_reducible apply OnGo.done
    | with_reducible apply OnGo.wait
    | with_reducible refine OnFst.eq ?_ (by with_reducible assumption)
    | split

theorem State.compareStep_pres (C : Quiet P) {s : State} (a1 : RingR) (a2 : ℕ) (a3 : Desc) (a4 : ℕ) (h : P s) : OnGo P (State.compareStep s a1 a2 a3 a4) := by
  unfold State.compareStep
  try dsimp only
  repeat' first
    | with_reducible assumption
    | with_reducible apply State.engRead_pres C
    | with_reducible apply State.engReads_pres C
    | with_reducible apply OnGo.more
    | with_reducible apply OnGo.done
    | with_reducible apply OnGo.wait
    | with_reducible refine OnFst.eq ?_ (by with_reducible assumption)
    | split

theorem State.crcStep_pres (C : Quiet P) {s : State} (a1 : RingR) (a2 : ℕ) (a3 : ℕ) (a4 : Desc) (a5 : ℕ) (a6 : BitVec 64) (h : P s) : OnGo P (State.crcStep s a1 a2 a3 a4 a5 a6) := by
  unfold State.crcStep
  try dsimp only
  repeat' first
    | with_reducible assumption
    | with_reducible apply State.engRead_pres C
    | (with_reducible apply OnFst.fst; with_reducible apply State.engRead_pres C)
    | with_reducible apply State.hostRead_pres C
    | (with_reducible apply OnFst.fst; with_reducible apply State.hostRead_pres C)
    | with_reducible apply pres_ite
    | with_reducible apply pres_fold
    | (with_reducible apply OnFst.fst; with_reducible apply pres_fold)
    | with_reducible exact OnFst.fst (by with_reducible assumption)
    | with_reducible exact OnFst.get (by with_reducible assumption)
    | with_reducible apply OnGo.more
    | with_reducible apply OnGo.done
    | with_reducible apply OnGo.wait
    | with_reducible refine OnGo.moreEq ?_ (by with_reducible assumption)
    | with_reducible refine OnGo.doneEq ?_ (by with_reducible assumption)
    | with_reducible refine OnGo.waitEq ?_ (by with_reducible assumption)
    | with_reducible intro _
    | with_reducible refine OnFst.eq ?_ (by with_reducible assumption)
    | fail_if_no_progress with_reducible apply C.update
    | split
    | with_reducible apply OnFst.mk

theorem State.repackDStep_pres (C : Quiet P) {s : State} (a1 : RingR) (a2 : ℕ) (a3 : Desc) (a4 : ℕ) (h : P s) : OnGo P (State.repackDStep s a1 a2 a3 a4) := by
  unfold State.repackDStep
  try dsimp only
  repeat' first
    | with_reducible assumption
    | with_reducible apply State.engReads_pres C
    | with_reducible apply State.engWrite_pres C
    | with_reducible apply OnGo.more
    | with_reducible apply OnGo.done
    | with_reducible apply OnGo.wait
    | with_reducible refine OnFst.eq ?_ (by with_reducible assumption)
    | split

theorem State.repackLStep_pres (C : Quiet P) {s : State} (a1 : RingR) (a2 : ℕ) (a3 : Desc) (a4 : ℕ) (h : P s) : OnGo P (State.repackLStep s a1 a2 a3 a4) := by
  unfold State.repackLStep
  try dsimp only
  repeat' first
    | with_reducible assumption
    | with_reducible apply State.engRead_pres C
    | with_reducible apply State.engWrites_pres C
    | with_reducible apply OnGo.more
    | with_reducible apply OnGo.done
    | with_reducible apply OnGo.wait
    | with_reducible refine OnFst.eq ?_ (by with_reducible assumption)
    | split

theorem State.prefetchStep_pres (C : Quiet P) {s : State} (a1 : RingR) (a2 : ℕ) (a3 : Desc) (a4 : ℕ) (h : P s) : OnGo P (State.prefetchStep s a1 a2 a3 a4) := by
  unfold State.prefetchStep
  try dsimp only
  repeat' first
    | with_reducible assumption
    | with_reducible apply State.send_pres C
    | with_reducible apply pres_ite
    | with_reducible apply OnGo.more
    | with_reducible apply OnGo.done
    | with_reducible intro _

theorem State.opStep_pres (C : Quiet P) {s : State} (a1 : RingR) (a2 : ℕ) (a3 : Desc) (a4 : ℕ) (a5 : BitVec 64) (h : P s) : OnGo P (State.opStep s a1 a2 a3 a4 a5) := by
  unfold State.opStep
  try dsimp only
  repeat' first
    | with_reducible assumption
    | with_reducible apply State.prefetchStep_pres C
    | with_reducible apply State.repackLStep_pres C
    | with_reducible apply State.repackDStep_pres C
    | with_reducible apply State.crcStep_pres C
    | with_reducible apply State.compareStep_pres C
    | with_reducible apply State.fillStep_pres C
    | with_reducible apply State.copyStep_pres C
    | with_reducible apply State.copyOut_pres C
    | with_reducible apply State.copyIn_pres C
    | with_reducible apply pres_ite
    | with_reducible apply OnGo.more
    | with_reducible apply OnGo.done
    | with_reducible apply OnGo.wait
    | with_reducible refine OnGo.moreEq ?_ (by with_reducible assumption)
    | with_reducible refine OnGo.doneEq ?_ (by with_reducible assumption)
    | with_reducible refine OnGo.waitEq ?_ (by with_reducible assumption)
    | with_reducible intro _
    | fail_if_no_progress with_reducible apply C.update
    | split

theorem State.opRun_pres (C : Quiet P) {s : State} (a1 : RingR) (a2 : ℕ) (a3 : Desc) (a4 : ℕ) (a5 : ℕ) (a6 : BitVec 64) (h : P s) : P (State.opRun s a1 a2 a3 a4 a5 a6) := by
  induction a4 generalizing s a5 a6 with
  | zero =>
    unfold State.opRun
    try dsimp only
    repeat' first
      | with_reducible assumption
      | with_reducible apply ih
      | with_reducible apply State.jobEnd_pres C
      | with_reducible apply State.modEngine_pres C
      | with_reducible apply State.opStep_pres C
      | with_reducible apply pres_ite
      | with_reducible refine OnGo.moreEq ?_ (by with_reducible assumption)
      | with_reducible refine OnGo.doneEq ?_ (by with_reducible assumption)
      | with_reducible refine OnGo.waitEq ?_ (by with_reducible assumption)
      | with_reducible intro _
      | fail_if_no_progress with_reducible apply C.update
      | split
  | succ k ih =>
    unfold State.opRun
    try dsimp only
    repeat' first
      | with_reducible assumption
      | with_reducible apply ih
      | with_reducible apply State.jobEnd_pres C
      | with_reducible apply State.modEngine_pres C
      | with_reducible apply State.opStep_pres C
      | with_reducible apply pres_ite
      | with_reducible refine OnGo.moreEq ?_ (by with_reducible assumption)
      | with_reducible refine OnGo.doneEq ?_ (by with_reducible assumption)
      | with_reducible refine OnGo.waitEq ?_ (by with_reducible assumption)
      | with_reducible intro _
      | fail_if_no_progress with_reducible apply C.update
      | split

theorem State.runOp_pres (C : Quiet P) {s : State} (a1 : Fin 32) (a2 : ℕ) (h : P s) : OnNext P (State.runOp s a1 a2) := by
  unfold State.runOp
  try dsimp only
  repeat' first
    | with_reducible assumption
    | with_reducible apply State.opRun_pres C
    | with_reducible apply pres_ite
    | with_reducible apply OnNext.mk
    | with_reducible intro _
    | fail_if_no_progress with_reducible apply C.update
    | split

theorem execCopy_pres (C : Quiet P) (a1 : Fin 32) {s : State} (h : P s) : OnNext P (execCopy a1 s) := by
  unfold execCopy
  try dsimp only
  repeat' first
    | with_reducible assumption
    | with_reducible apply State.runOp_pres C
    | with_reducible apply OnNext.mk

theorem execFill_pres (C : Quiet P) (a1 : Fin 32) {s : State} (h : P s) : OnNext P (execFill a1 s) := by
  unfold execFill
  try dsimp only
  repeat' first
    | with_reducible assumption
    | with_reducible apply State.runOp_pres C
    | with_reducible apply OnNext.mk

theorem execCompare_pres (C : Quiet P) (a1 : Fin 32) {s : State} (h : P s) : OnNext P (execCompare a1 s) := by
  unfold execCompare
  try dsimp only
  repeat' first
    | with_reducible assumption
    | with_reducible apply State.runOp_pres C
    | with_reducible apply OnNext.mk

theorem execCrc64_pres (C : Quiet P) (a1 : Fin 32) {s : State} (h : P s) : OnNext P (execCrc64 a1 s) := by
  unfold execCrc64
  try dsimp only
  repeat' first
    | with_reducible assumption
    | with_reducible apply State.runOp_pres C
    | with_reducible apply OnNext.mk

theorem execRepackD_pres (C : Quiet P) (a1 : Fin 32) {s : State} (h : P s) : OnNext P (execRepackD a1 s) := by
  unfold execRepackD
  try dsimp only
  repeat' first
    | with_reducible assumption
    | with_reducible apply State.runOp_pres C
    | with_reducible apply OnNext.mk

theorem execRepackL_pres (C : Quiet P) (a1 : Fin 32) {s : State} (h : P s) : OnNext P (execRepackL a1 s) := by
  unfold execRepackL
  try dsimp only
  repeat' first
    | with_reducible assumption
    | with_reducible apply State.runOp_pres C
    | with_reducible apply OnNext.mk

theorem execPrefetch_pres (C : Quiet P) (a1 : Fin 32) {s : State} (h : P s) : OnNext P (execPrefetch a1 s) := by
  unfold execPrefetch
  try dsimp only
  repeat' first
    | with_reducible assumption
    | with_reducible apply State.runOp_pres C
    | with_reducible apply OnNext.mk

theorem State.readDesc_pres (C : Quiet P) {s : State} (a1 : ℕ) (a2 : ℕ) (h : P s) : OnFst P (State.readDesc s a1 a2) := by
  unfold State.readDesc
  try dsimp only
  repeat' first
    | with_reducible assumption
    | with_reducible apply State.engRead_pres C
    | with_reducible refine OnFst.eq ?_ (by with_reducible assumption)
    | split
    | with_reducible apply OnFst.mk

theorem State.ringGranted_pres (C : Quiet P) {s : State} (a1 : ℕ) (a2 : Bool) (h : P s) : P (State.ringGranted s a1 a2) := by
  unfold State.ringGranted
  try dsimp only
  repeat' first
    | with_reducible assumption
    | with_reducible apply pres_ite
    | with_reducible intro _
    | fail_if_no_progress with_reducible apply C.update

theorem State.engineTakes_pres (C : Quiet P) {s : State} (a1 : ℕ) (a2 : Bool) (a3 : List ℕ) (h : P s) : P (State.engineTakes s a1 a2 a3) := by
  induction a3 generalizing s with
  | nil =>
    unfold State.engineTakes
    try dsimp only
    repeat' first
      | with_reducible assumption
      | with_reducible apply ih
      | with_reducible apply State.ringGranted_pres C
      | with_reducible apply State.modRing_pres C
      | with_reducible apply State.modEngine_pres C
      | with_reducible apply State.readDesc_pres C
      | (with_reducible apply OnFst.fst; with_reducible apply State.readDesc_pres C)
      | with_reducible apply pres_ite
      | with_reducible exact OnFst.get (by with_reducible assumption)
      | with_reducible intro _
      | with_reducible refine OnFst.eq ?_ (by with_reducible assumption)
      | fail_if_no_progress with_reducible apply C.update
      | split
      | with_reducible apply OnFst.mk
  | cons x l ih =>
    unfold State.engineTakes
    try dsimp only
    repeat' first
      | with_reducible assumption
      | with_reducible apply ih
      | with_reducible apply State.ringGranted_pres C
      | with_reducible apply State.modRing_pres C
      | with_reducible apply State.modEngine_pres C
      | with_reducible apply State.readDesc_pres C
      | (with_reducible apply OnFst.fst; with_reducible apply State.readDesc_pres C)
      | with_reducible apply pres_ite
      | with_reducible exact OnFst.get (by with_reducible assumption)
      | with_reducible intro _
      | with_reducible refine OnFst.eq ?_ (by with_reducible assumption)
      | fail_if_no_progress with_reducible apply C.update
      | split
      | with_reducible apply OnFst.mk

theorem execHarbourSchedule_pres (C : Quiet P) {s : State} (h : P s) : OnNext P (execHarbourSchedule s) := by
  unfold execHarbourSchedule
  try dsimp only
  repeat' first
    | with_reducible assumption
    | with_reducible apply State.engineTakes_pres C
    | with_reducible apply pres_ite
    | with_reducible apply pres_fold
    | with_reducible apply OnNext.mk
    | with_reducible intro _

theorem execTimedAccept_pres (C : Quiet P) {s : State} (a1 : Fin 524288) (h : P s) : OnNext P (execTimedAccept a1 s) := by
  unfold execTimedAccept
  try dsimp only
  repeat' first
    | with_reducible assumption
    | with_reducible apply State.readDesc_pres C
    | with_reducible apply State.modRing_pres C
    | with_reducible apply pres_ite
    | with_reducible apply OnNext.mk
    | with_reducible intro _
    | with_reducible refine OnFst.eq ?_ (by with_reducible assumption)
    | fail_if_no_progress with_reducible apply C.update
    | split

theorem execTimedLeadExpired_pres (C : Quiet P) {s : State} (a1 : Fin 524288) (h : P s) : OnNext P (execTimedLeadExpired a1 s) := by
  unfold execTimedLeadExpired
  try dsimp only
  repeat' first
    | with_reducible assumption
    | with_reducible apply State.readDesc_pres C
    | with_reducible apply State.modRing_pres C
    | with_reducible apply pres_ite
    | with_reducible apply OnNext.mk
    | with_reducible intro _
    | with_reducible refine OnFst.eq ?_ (by with_reducible assumption)
    | split

theorem State.startDue_pres (C : Quiet P) {s : State} (a1 : Bool) (a2 : Job) (h : P s) : P (State.startDue s a1 a2) := by
  unfold State.startDue
  try dsimp only
  repeat' first
    | with_reducible assumption
    | with_reducible apply State.modRing_pres C
    | with_reducible apply State.modEngine_pres C
    | with_reducible apply pres_ite
    | with_reducible intro _
    | fail_if_no_progress with_reducible apply C.update
    | split

theorem State.startTable_pres (C : Quiet P) {s : State} (a1 : Bool) (a2 : Job → Bool) (h : P s) : P (State.startTable s a1 a2) := by
  unfold State.startTable
  try dsimp only
  repeat' first
    | with_reducible assumption
    | with_reducible apply State.startDue_pres C
    | with_reducible apply pres_ite
    | with_reducible apply pres_fold
    | with_reducible intro _

theorem execTimedDescriptorDue_pres (C : Quiet P) (a1 : Bool) {s : State} (h : P s) : OnNext P (execTimedDescriptorDue a1 s) := by
  unfold execTimedDescriptorDue
  try dsimp only
  repeat' first
    | with_reducible assumption
    | with_reducible apply State.startTable_pres C
    | with_reducible apply OnNext.mk
    | with_reducible intro _

end Sys2Proof.Machine
end

