-- ==== Sys2Proof/Laws/KeepClock.lean ====
section
/-! SUPPORT. What the operations of Machine/Clock.lean keep. -/

namespace Sys2Proof.Machine

variable {P : State → Prop}

theorem State.setTable_pres (C : Quiet P) {s : State} (a1 : Reg) (h : P s) : P (State.setTable s a1) := by
  unfold State.setTable
  try dsimp only
  repeat' first
    | with_reducible assumption
    | with_reducible apply State.modRing_pres C
    | with_reducible apply State.startTable_pres C
    | with_reducible apply pres_fold
    | with_reducible intro _
    | fail_if_no_progress with_reducible apply C.update

theorem State.setApply_pres (C : Loud P) {s : State} (h : P s) : P (State.setApply s) := by
  unfold State.setApply
  try dsimp only
  repeat' first
    | with_reducible assumption
    | with_reducible apply State.endHandle_pres C.toQuiet
    | with_reducible apply State.recKey_pres C.toQuiet
    | with_reducible apply State.setTable_pres C.toQuiet
    | with_reducible apply State.setLaunches_pres C
    | with_reducible apply pres_ite
    | with_reducible intro _
    | fail_if_no_progress with_reducible apply C.toQuiet.update

theorem execSetApply_pres (C : Loud P) {s : State} (h : P s) : OnNext P (execSetApply s) := by
  unfold execSetApply
  try dsimp only
  repeat' first
    | with_reducible assumption
    | with_reducible apply State.setApply_pres C
    | with_reducible apply pres_ite
    | with_reducible apply OnNext.mk
    | with_reducible intro _

theorem State.fireDue_pres (C : Loud P) {s : State} (h : P s) : P (State.fireDue s) := by
  unfold State.fireDue
  try dsimp only
  repeat' first
    | with_reducible assumption
    | with_reducible apply State.startTable_pres C.toQuiet
    | with_reducible apply State.fireTimed_pres C.toQuiet
    | with_reducible apply State.fireLaunch_pres C
    | with_reducible apply pres_fold
    | with_reducible intro _

theorem lighthouseCycle_pres (C : Loud P) {s : State} (h : P s) : P (lighthouseCycle s) := by
  unfold lighthouseCycle
  try dsimp only
  repeat' first
    | with_reducible assumption
    | with_reducible apply State.fireDue_pres C
    | with_reducible apply State.setApply_pres C
    | with_reducible apply lhAdvance_pres C.toQuiet
    | with_reducible apply pres_ite
    | with_reducible intro _
    | fail_if_no_progress with_reducible apply C.toQuiet.update

theorem clockRun_pres (C : Loud P) (a1 : ℕ) {s : State} (h : P s) : P (clockRun a1 s) := by
  induction a1 generalizing s with
  | zero =>
    unfold clockRun
    try dsimp only
    repeat' first
      | with_reducible assumption
      | with_reducible apply ih
      | with_reducible apply lighthouseCycle_pres C
      | split
  | succ k ih =>
    unfold clockRun
    try dsimp only
    repeat' first
      | with_reducible assumption
      | with_reducible apply ih
      | with_reducible apply lighthouseCycle_pres C
      | split

theorem execSlewTick_pres (C : Loud P) {s : State} (h : P s) : OnNext P (execSlewTick s) := by
  unfold execSlewTick
  try dsimp only
  repeat' first
    | with_reducible assumption
    | with_reducible apply clockRun_pres C
    | with_reducible apply OnNext.mk

theorem idle_pres (C : Loud P) {s : State} (h : P s) : P (idle s) := by
  unfold idle
  try dsimp only
  repeat' first
    | with_reducible assumption
    | with_reducible apply State.drainPorts_pres C
    | with_reducible apply lighthouseCycle_pres C

end Sys2Proof.Machine
end

