-- ==== Sys2Proof/Laws/KeepGuest.lean ====
section
/-! SUPPORT. What the operations of Machine/Guest.lean keep. -/

namespace Sys2Proof.Machine

variable {P : State → Prop}

theorem State.guestServe_pres (C : Quiet P) {s : State} (a1 : ℕ) (a2 : GReq) (h : P s) : OnFst P (State.guestServe s a1 a2) := by
  unfold State.guestServe
  try dsimp only
  repeat' first
    | with_reducible assumption
    | with_reducible apply State.lineWrite_pres C
    | with_reducible apply State.lineRead_pres C
    | with_reducible apply State.modSite_pres C
    | with_reducible apply pres_ite
    | with_reducible intro _
    | with_reducible refine OnFst.eq ?_ (by with_reducible assumption)
    | split
    | with_reducible apply OnFst.mk

theorem State.guestTake_pres (C : Quiet P) {s : State} (a1 : ℕ) (a2 : GReq) (h : P s) : P (State.guestTake s a1 a2) := by
  unfold State.guestTake
  try dsimp only
  repeat' first
    | with_reducible assumption
    | with_reducible apply State.modSite_pres C
    | with_reducible apply State.guestServe_pres C
    | (with_reducible apply OnFst.fst; with_reducible apply State.guestServe_pres C)
    | with_reducible apply pres_ite
    | with_reducible exact OnFst.get (by with_reducible assumption)
    | with_reducible intro _
    | with_reducible refine OnFst.eq ?_ (by with_reducible assumption)
    | fail_if_no_progress with_reducible apply C.update
    | split
    | with_reducible apply OnFst.mk

theorem State.guestRefuse_pres (C : Quiet P) {s : State} (a1 : ℕ) (a2 : GReq) (a3 : BitVec 8) (h : P s) : P (State.guestRefuse s a1 a2 a3) := by
  unfold State.guestRefuse
  try dsimp only
  repeat' first
    | with_reducible assumption
    | with_reducible apply State.modSite_pres C

theorem State.guestOne_pres (C : Quiet P) {s : State} (a1 : ℕ) (a2 : GHead) (h : P s) : P (State.guestOne s a1 a2) := by
  unfold State.guestOne
  try dsimp only
  repeat' first
    | with_reducible assumption
    | with_reducible apply State.guestTake_pres C
    | with_reducible apply State.guestRefuse_pres C
    | with_reducible apply pres_ite
    | with_reducible intro _
    | fail_if_no_progress with_reducible apply C.update
    | split

theorem State.gatehouse_pres (C : Quiet P) {s : State} (a1 : ℕ) (h : P s) : P (State.gatehouse s a1) := by
  induction a1 generalizing s with
  | zero =>
    unfold State.gatehouse
    try dsimp only
    repeat' first
      | with_reducible assumption
      | with_reducible apply ih
      | with_reducible apply State.modSite_pres C
      | with_reducible apply State.guestOne_pres C
      | with_reducible intro _
      | fail_if_no_progress with_reducible apply C.update
      | split
  | succ k ih =>
    unfold State.gatehouse
    try dsimp only
    repeat' first
      | with_reducible assumption
      | with_reducible apply ih
      | with_reducible apply State.modSite_pres C
      | with_reducible apply State.guestOne_pres C
      | with_reducible intro _
      | fail_if_no_progress with_reducible apply C.update
      | split

theorem State.gatehouseAll_pres (C : Quiet P) {s : State} (h : P s) : P (State.gatehouseAll s) := by
  unfold State.gatehouseAll
  try dsimp only
  repeat' first
    | with_reducible assumption
    | with_reducible apply State.gatehouse_pres C

theorem State.guestOctetsIn_pres (C : Quiet P) {s : State} (a1 : ℕ) (a2 : List Octet) (h : P s) : P (State.guestOctetsIn s a1 a2) := by
  unfold State.guestOctetsIn
  try dsimp only
  repeat' first
    | with_reducible assumption
    | with_reducible apply State.modSite_pres C
    | with_reducible apply pres_ite
    | with_reducible intro _
    | fail_if_no_progress with_reducible apply C.update
    | split

theorem execGuestRequest_pres (C : Quiet P) (a1 : Fin 2) (a2 : List Octet) (a3 : List Octet) (a4 : Bool) {s : State} (h : P s) : OnNext P (execGuestRequest a1 a2 a3 a4 s) := by
  unfold execGuestRequest
  try dsimp only
  repeat' first
    | with_reducible assumption
    | with_reducible apply State.modSite_pres C
    | with_reducible apply State.gatehouseAll_pres C
    | with_reducible apply State.guestOctetsIn_pres C
    | with_reducible apply pres_ite
    | with_reducible apply OnNext.mk
    | with_reducible intro _
    | fail_if_no_progress with_reducible apply C.update

theorem execGuestCompletion_pres (C : Quiet P) (a1 : Fin 2) (a2 : BitVec 16) {s : State} (h : P s) : OnNext P (execGuestCompletion a1 a2 s) := by
  unfold execGuestCompletion
  try dsimp only
  repeat' first
    | with_reducible assumption
    | with_reducible apply State.gatehouseAll_pres C
    | with_reducible apply State.modSite_pres C
    | with_reducible apply State.guestServe_pres C
    | (with_reducible apply OnFst.fst; with_reducible apply State.guestServe_pres C)
    | with_reducible apply pres_ite
    | with_reducible apply OnNext.mk
    | with_reducible exact OnFst.get (by with_reducible assumption)
    | with_reducible intro _
    | with_reducible refine OnFst.eq ?_ (by with_reducible assumption)
    | fail_if_no_progress with_reducible apply C.update
    | split
    | with_reducible apply OnFst.mk

theorem State.guestDrain_pres (C : Quiet P) {s : State} (a1 : ℕ) (a2 : ℕ) (h : P s) : P (State.guestDrain s a1 a2) := by
  induction a2 generalizing s with
  | zero =>
    unfold State.guestDrain
    try dsimp only
    repeat' first
      | with_reducible assumption
      | with_reducible apply ih
      | with_reducible apply State.modSite_pres C
      | with_reducible apply State.guestServe_pres C
      | (with_reducible apply OnFst.fst; with_reducible apply State.guestServe_pres C)
      | with_reducible apply pres_ite
      | with_reducible exact OnFst.get (by with_reducible assumption)
      | with_reducible intro _
      | with_reducible refine OnFst.eq ?_ (by with_reducible assumption)
      | fail_if_no_progress with_reducible apply C.update
      | split
      | with_reducible apply OnFst.mk
  | succ k ih =>
    unfold State.guestDrain
    try dsimp only
    repeat' first
      | with_reducible assumption
      | with_reducible apply ih
      | with_reducible apply State.modSite_pres C
      | with_reducible apply State.guestServe_pres C
      | (with_reducible apply OnFst.fst; with_reducible apply State.guestServe_pres C)
      | with_reducible apply pres_ite
      | with_reducible exact OnFst.get (by with_reducible assumption)
      | with_reducible intro _
      | with_reducible refine OnFst.eq ?_ (by with_reducible assumption)
      | fail_if_no_progress with_reducible apply C.update
      | split
      | with_reducible apply OnFst.mk

theorem execGatehouseTokenRefill_pres (C : Quiet P) (a1 : Fin 2) {s : State} (h : P s) : OnNext P (execGatehouseTokenRefill a1 s) := by
  unfold execGatehouseTokenRefill
  try dsimp only
  repeat' first
    | with_reducible assumption
    | with_reducible apply State.guestDrain_pres C
    | with_reducible apply State.modSite_pres C
    | with_reducible apply pres_ite
    | with_reducible apply OnNext.mk
    | with_reducible intro _
    | fail_if_no_progress with_reducible apply C.update

theorem State.siteAccess_pres (C : Quiet P) {s : State} (a1 : Who) (a2 : ℕ) (a3 : ℕ) (a4 : Option W36) (h : P s) : OnFst P (State.siteAccess s a1 a2 a3 a4) := by
  unfold State.siteAccess
  try dsimp only
  repeat' first
    | with_reducible assumption
    | with_reducible apply State.modSite_pres C
    | with_reducible exact OnFst.get (by with_reducible assumption)
    | with_reducible intro _
    | with_reducible refine OnFst.eq ?_ (by with_reducible assumption)
    | fail_if_no_progress with_reducible apply C.update
    | split
    | with_reducible apply OnFst.mk

theorem execGuestRegisterAccess_pres (C : Quiet P) (a1 : Who) (a2 : Fin 2) (a3 : BitVec 32) (a4 : Option W36) (a5 : BitVec 32) {s : State} (h : P s) : OnNext P (execGuestRegisterAccess a1 a2 a3 a4 a5 s) := by
  unfold execGuestRegisterAccess
  try dsimp only
  repeat' first
    | with_reducible assumption
    | with_reducible apply State.modSite_pres C
    | with_reducible apply pres_ite
    | with_reducible apply OnNext.mk
    | with_reducible intro _
    | fail_if_no_progress with_reducible apply C.update
    | split

theorem execGuestAccessFailed_pres (C : Quiet P) (a1 : Who) (a2 : Fin 2) (a3 : BitVec 32) (a4 : Option W36) (a5 : Bool) {s : State} (h : P s) : OnNext P (execGuestAccessFailed a1 a2 a3 a4 a5 s) := by
  unfold execGuestAccessFailed
  try dsimp only
  repeat' first
    | with_reducible assumption
    | with_reducible apply State.modSite_pres C
    | with_reducible apply State.recKey_pres C
    | with_reducible apply pres_ite
    | with_reducible apply OnNext.mk
    | with_reducible intro _
    | fail_if_no_progress with_reducible apply C.update
    | split

theorem State.siteLinkOff_pres (C : Quiet P) {s : State} (a1 : ℕ) (a2 : BitVec 3) (h : P s) : P (State.siteLinkOff s a1 a2) := by
  unfold State.siteLinkOff
  try dsimp only
  repeat' first
    | with_reducible assumption
    | with_reducible apply State.modSite_pres C
    | with_reducible apply State.release_pres C
    | with_reducible apply pres_ite
    | with_reducible intro _
    | fail_if_no_progress with_reducible apply C.update

theorem execGuestLinkLost_pres (C : Quiet P) (a1 : Fin 2) {s : State} (h : P s) : OnNext P (execGuestLinkLost a1 s) := by
  unfold execGuestLinkLost
  try dsimp only
  repeat' first
    | with_reducible assumption
    | with_reducible apply State.recKey_pres C
    | with_reducible apply State.siteLinkOff_pres C
    | with_reducible apply pres_ite
    | with_reducible apply OnNext.mk
    | with_reducible intro _

theorem execGuestLinkTrained_pres (C : Quiet P) (a1 : Fin 2) (a2 : Bool) {s : State} (h : P s) : OnNext P (execGuestLinkTrained a1 a2 s) := by
  unfold execGuestLinkTrained
  try dsimp only
  repeat' first
    | with_reducible assumption
    | with_reducible apply State.modSite_pres C
    | with_reducible apply State.claim_pres C
    | (with_reducible apply OnFst.fst; with_reducible apply State.claim_pres C)
    | with_reducible apply pres_ite
    | with_reducible apply OnNext.mk
    | with_reducible exact OnFst.get (by with_reducible assumption)
    | with_reducible intro _
    | with_reducible refine OnFst.eq ?_ (by with_reducible assumption)
    | fail_if_no_progress with_reducible apply C.update
    | split
    | with_reducible apply OnFst.mk

theorem execUcieLaneRepair_pres (C : Quiet P) (a1 : Fin 2) {s : State} (h : P s) : OnNext P (execUcieLaneRepair a1 s) := by
  unfold execUcieLaneRepair
  try dsimp only
  repeat' first
    | with_reducible assumption
    | with_reducible apply State.modSite_pres C
    | with_reducible apply pres_ite
    | with_reducible apply OnNext.mk
    | with_reducible intro _
    | fail_if_no_progress with_reducible apply C.update

end Sys2Proof.Machine
end

