-- ==== Sys2Proof/Laws/KeepWorldsOps.lean ====
section
/-! SUPPORT. What the operations of Machine/WorldsOps.lean keep. -/

namespace Sys2Proof.Machine

variable {P : State → Prop}

theorem State.setRegion_pres (C : Quiet P) {s : State} (a1 : Region) (h : P s) : P (State.setRegion s a1) := by
  unfold State.setRegion
  try dsimp only
  repeat' first
    | with_reducible assumption
    | fail_if_no_progress with_reducible apply C.update

theorem State.rgnctl_pres (C : Quiet P) {s : State} (a1 : Who) (a2 : W36) (h : P s) : OnFst P (State.rgnctl s a1 a2) := by
  unfold State.rgnctl
  try dsimp only
  repeat' first
    | with_reducible assumption
    | with_reducible apply State.setRegion_pres C
    | with_reducible apply pres_ite
    | with_reducible intro _
    | fail_if_no_progress with_reducible apply C.update
    | split
    | with_reducible apply OnFst.mk

theorem execWldRgnctlWrite_pres (C : Quiet P) {s : State} (a1 : Who) (a2 : W36) (h : P s) : OnNext P (execWldRgnctlWrite a1 a2 s) := by
  unfold execWldRgnctlWrite
  try dsimp only
  repeat' first
    | with_reducible assumption
    | (with_reducible apply OnFst.fst; with_reducible apply State.rgnctl_pres C)
    | with_reducible apply OnNext.mk

theorem execRegionTableArrives_pres (C : Quiet P) (a1 : Fin 12) {s : State} (h : P s) : OnNext P (execRegionTableArrives a1 s) := by
  unfold execRegionTableArrives
  try dsimp only
  repeat' first
    | with_reducible assumption
    | with_reducible apply State.modIsle_pres C
    | with_reducible apply pres_ite
    | with_reducible apply OnNext.mk
    | with_reducible intro _
    | fail_if_no_progress with_reducible apply C.update

theorem State.hoWake_pres (C : Quiet P) {s : State} (a1 : HoClass) (h : P s) : OnFst P (State.hoWake s a1) := by
  unfold State.hoWake
  try dsimp only
  repeat' first
    | with_reducible assumption
    | with_reducible apply State.wakeIsle_pres C
    | with_reducible apply State.blockUp_pres C
    | (with_reducible apply OnFst.fst; with_reducible apply State.blockUp_pres C)
    | with_reducible apply pres_ite
    | with_reducible exact OnFst.get (by with_reducible assumption)
    | with_reducible intro _
    | with_reducible refine OnFst.eq ?_ (by with_reducible assumption)
    | split
    | with_reducible apply OnFst.mk

theorem State.hoLock_pres (C : Quiet P) {s : State} (a1 : Handing) (h : P s) : P (State.hoLock s a1) := by
  unfold State.hoLock
  try dsimp only
  repeat' first
    | with_reducible assumption
    | with_reducible apply State.modSite_pres C
    | with_reducible apply State.portGiveUp_pres C
    | with_reducible apply State.disableRings_pres C
    | with_reducible apply State.abortRings_pres C
    | with_reducible apply State.modPort_pres C
    | with_reducible apply State.linkDown_pres C
    | with_reducible apply State.modEngine_pres C
    | with_reducible apply State.jobEnd_pres C
    | with_reducible apply pres_ite
    | with_reducible intro _
    | fail_if_no_progress with_reducible apply C.update
    | split

theorem State.hoStep1_pres (C : Quiet P) {s : State} (a1 : Handing) (h : P s) : P (State.hoStep1 s a1) := by
  unfold State.hoStep1
  try dsimp only
  repeat' first
    | with_reducible assumption
    | with_reducible apply State.hoLock_pres C
    | with_reducible apply State.hoWake_pres C
    | (with_reducible apply OnFst.fst; with_reducible apply State.hoWake_pres C)
    | with_reducible apply State.hoEnd_pres C
    | with_reducible exact OnFst.get (by with_reducible assumption)
    | with_reducible intro _
    | with_reducible refine OnFst.eq ?_ (by with_reducible assumption)
    | fail_if_no_progress with_reducible apply C.update
    | split
    | with_reducible apply OnFst.mk

theorem State.hoStart_pres (C : Quiet P) {s : State} (a1 : HoClass) (a2 : Bool) (a3 : Option (Fin 16)) (a4 : ℕ) (h : P s) : P (State.hoStart s a1 a2 a3 a4) := by
  unfold State.hoStart
  try dsimp only
  repeat' first
    | with_reducible assumption
    | with_reducible apply State.hoStep1_pres C
    | fail_if_no_progress with_reducible apply C.update

theorem State.hoAssign_pres (C : Quiet P) {s : State} (a1 : HoClass) (a2 : Bool) (h : P s) : P (State.hoAssign s a1 a2) := by
  unfold State.hoAssign
  try dsimp only
  repeat' first
    | with_reducible assumption
    | with_reducible apply State.modEngine_pres C
    | with_reducible apply State.modIsle_pres C
    | fail_if_no_progress with_reducible apply C.update
    | split

theorem State.hoReset_pres (C : Quiet P) {s : State} (a1 : HoClass) (h : P s) : P (State.hoReset s a1) := by
  unfold State.hoReset
  try dsimp only
  repeat' first
    | with_reducible assumption
    | with_reducible apply State.modSite_pres C
    | with_reducible apply State.siteLinkOff_pres C
    | with_reducible apply State.modIsle_pres C
    | with_reducible apply State.modPort_pres C
    | with_reducible apply State.modEngine_pres C
    | with_reducible apply pres_ite
    | with_reducible intro _
    | fail_if_no_progress with_reducible apply C.update
    | split

theorem execHandoverQuiesced_pres (C : Quiet P) {s : State} (h : P s) : OnNext P (execHandoverQuiesced s) := by
  unfold execHandoverQuiesced
  try dsimp only
  repeat' first
    | with_reducible assumption
    | with_reducible apply State.hoEnd_pres C
    | with_reducible apply State.enableRings_pres C
    | with_reducible apply State.epReset_pres C
    | with_reducible apply State.hoAssign_pres C
    | with_reducible apply State.hoReset_pres C
    | with_reducible apply pres_ite
    | with_reducible apply OnNext.mk
    | with_reducible intro _
    | fail_if_no_progress with_reducible apply C.update
    | split

theorem State.bootCore_pres (C : Loud P) {s : State} (a1 : ℕ) (h : P s) : P (State.bootCore s a1) := by
  unfold State.bootCore
  try dsimp only
  repeat' first
    | with_reducible assumption
    | with_reducible apply Thread.legal_release
    | with_reducible apply State.claim_pres C.toQuiet
    | with_reducible apply State.coreUp_pres C
    | with_reducible apply State.modThread_pres C
    | with_reducible apply State.modCore_pres C.toQuiet
    | with_reducible apply pres_ite
    | with_reducible intro _
    | with_reducible refine OnFst.eq ?_ (by with_reducible assumption)
    | split

theorem State.bootRetry_pres (C : Loud P) {s : State} (a1 : ℕ) (h : P s) : P (State.bootRetry s a1) := by
  unfold State.bootRetry
  try dsimp only
  repeat' first
    | with_reducible assumption
    | with_reducible apply State.bootCore_pres C
    | with_reducible apply pres_ite
    | with_reducible apply pres_fold
    | with_reducible intro _

theorem execBearingRetry_pres (C : Loud P) (a1 : WaitUnit) {s : State} (h : P s) : OnNext P (execBearingRetry a1 s) := by
  unfold execBearingRetry
  try dsimp only
  repeat' first
    | with_reducible assumption
    | with_reducible apply State.hoStep1_pres C.toQuiet
    | with_reducible apply State.bootRetry_pres C
    | with_reducible apply State.wakeIsle_pres C.toQuiet
    | with_reducible apply State.blockClaim_pres C.toQuiet
    | (with_reducible apply OnFst.fst; with_reducible apply State.blockClaim_pres C.toQuiet)
    | with_reducible apply State.blockUp_pres C.toQuiet
    | (with_reducible apply OnFst.fst; with_reducible apply State.blockUp_pres C.toQuiet)
    | with_reducible apply State.memAnswers_pres C.toQuiet
    | with_reducible apply State.retryTraining_pres C.toQuiet
    | (with_reducible apply OnFst.fst; with_reducible apply State.retryTraining_pres C.toQuiet)
    | with_reducible apply State.trainStart_pres C.toQuiet
    | (with_reducible apply OnFst.fst; with_reducible apply State.trainStart_pres C.toQuiet)
    | with_reducible apply pres_ite
    | with_reducible apply OnNext.mk
    | with_reducible exact OnFst.get (by with_reducible assumption)
    | with_reducible intro _
    | with_reducible refine OnFst.eq ?_ (by with_reducible assumption)
    | fail_if_no_progress with_reducible apply C.toQuiet.update
    | split
    | with_reducible apply OnFst.mk

end Sys2Proof.Machine
end

