-- ==== Sys2Proof/Laws/KeepUmfoent.lean ====
section
/-! SUPPORT. What the operations of Machine/Umfoent.lean keep. -/

namespace Sys2Proof.Machine

variable {P : State → Prop}

theorem State.respond_pres (C : Quiet P) {s : State} (a1 : Fin 16) (a2 : BitVec 8) (a3 : List (BitVec 32)) (h : P s) : P (State.respond s a1 a2 a3) := by
  unfold State.respond
  try dsimp only
  repeat' first
    | with_reducible assumption
    | with_reducible apply State.boxEvent_pres C
    | with_reducible apply State.modBox_pres C
    | fail_if_no_progress with_reducible apply C.update

theorem execMailboxServe_pres (C : Quiet P) {s : State}  (h : P s) : OnNext P (execMailboxServe s) := by
  unfold execMailboxServe
  try dsimp only
  repeat' first
    | with_reducible assumption
    | with_reducible apply State.respond_pres C
    | with_reducible apply pres_ite
    | with_reducible apply OnNext.mk
    | with_reducible intro _
    | fail_if_no_progress with_reducible apply C.update
    | split

theorem State.commanded_pres (C : Quiet P) {s : State} (a1 : Fin 16) (a2 : ℕ) (a3 : Mailbox → State) (h3 : ∀ x0, P (a3 x0)) (h : P s) : P (State.commanded s a1 a2 a3) := by
  unfold State.commanded
  try dsimp only
  repeat' first
    | with_reducible assumption
    | with_reducible apply h3
    | with_reducible apply pres_ite
    | with_reducible intro _

theorem State.command_pres (C : Quiet P) {s : State} (a1 : Fin 16) (a2 : ℕ) (a3 : Mailbox → State) (h3 : ∀ x0, P (a3 x0)) (h : P s) : OnNext P (State.command s a1 a2 a3) := by
  unfold State.command
  try dsimp only
  repeat' first
    | with_reducible assumption
    | with_reducible apply h3
    | with_reducible apply State.commanded_pres C
    | with_reducible apply OnNext.mk

theorem State.accepted_pres (C : Quiet P) {s : State} (a1 : Fin 16) (a2 : HUnit) (a3 : State → State) (h3 : ∀ x0, P x0 → P (a3 x0)) (h : P s) : P (State.accepted s a1 a2 a3) := by
  unfold State.accepted
  try dsimp only
  repeat' first
    | with_reducible assumption
    | with_reducible apply h3
    | with_reducible apply State.respond_pres C
    | with_reducible apply State.modBox_pres C
    | with_reducible apply pres_ite
    | with_reducible intro _

theorem execHandleCompletion_pres (C : Quiet P) {s : State} (a1 : Fin 16) (h : P s) : OnNext P (execHandleCompletion a1 s) := by
  unfold execHandleCompletion
  try dsimp only
  repeat' first
    | with_reducible assumption
    | with_reducible apply State.modBox_pres C
    | with_reducible apply State.boxEvent_pres C
    | with_reducible apply pres_ite
    | with_reducible apply OnNext.mk
    | with_reducible intro _
    | split

theorem execInfo_pres (C : Quiet P) {s : State} (a1 : Fin 16) (h : P s) : OnNext P (execInfo a1 s) := by
  unfold execInfo
  try dsimp only
  repeat' first
    | with_reducible assumption
    | with_reducible apply State.command_pres C
    | with_reducible apply State.respond_pres C
    | with_reducible intro _

theorem execCplRead_pres (C : Quiet P) {s : State} (a1 : Fin 16) (h : P s) : OnNext P (execCplRead a1 s) := by
  unfold execCplRead
  try dsimp only
  repeat' first
    | with_reducible assumption
    | with_reducible apply State.command_pres C
    | with_reducible apply State.modBox_pres C
    | with_reducible apply State.respond_pres C
    | with_reducible intro _

theorem execHandleStatus_pres (C : Quiet P) {s : State} (a1 : Fin 16) (h : P s) : OnNext P (execHandleStatus a1 s) := by
  unfold execHandleStatus
  try dsimp only
  repeat' first
    | with_reducible assumption
    | with_reducible apply State.command_pres C
    | with_reducible apply State.respond_pres C
    | with_reducible intro _
    | split

theorem State.railRead_pres (C : Quiet P) {s : State} (a1 : ℕ) (a2 : ℕ) (a3 : ℕ) (a4 : BitVec 32) (h : P s) : OnFst P (State.railRead s a1 a2 a3 a4) := by
  unfold State.railRead
  try dsimp only
  repeat' first
    | with_reducible assumption
    | (with_reducible apply OnSnd.snd; with_reducible apply State.takeFree_pres C)
    | split
    | with_reducible apply OnFst.mk

theorem execSensorRead_pres (C : Quiet P) {s : State} (a1 : Fin 16) (h : P s) : OnNext P (execSensorRead a1 s) := by
  unfold execSensorRead
  try dsimp only
  repeat' first
    | with_reducible assumption
    | with_reducible apply State.command_pres C
    | with_reducible apply State.respond_pres C
    | (with_reducible apply OnFst.fst; with_reducible apply State.railRead_pres C)
    | with_reducible apply State.modIsle_pres C
    | with_reducible apply pres_ite
    | with_reducible intro _
    | fail_if_no_progress with_reducible apply C.update

theorem execLhSet_pres (C : Quiet P) {s : State} (a1 : Fin 16) (h : P s) : OnNext P (execLhSet a1 s) := by
  unfold execLhSet
  try dsimp only
  repeat' first
    | with_reducible assumption
    | with_reducible apply State.command_pres C
    | with_reducible apply State.respond_pres C
    | with_reducible apply State.accepted_pres C
    | with_reducible apply State.setStart_pres C
    | with_reducible apply State.endHandle_pres C
    | with_reducible apply pres_ite
    | with_reducible intro _
    | with_reducible refine OnFst.eq ?_ (by with_reducible assumption)
    | split

theorem execLhSlew_pres (C : Quiet P) {s : State} (a1 : Fin 16) (h : P s) : OnNext P (execLhSlew a1 s) := by
  unfold execLhSlew
  try dsimp only
  repeat' first
    | with_reducible assumption
    | with_reducible apply State.command_pres C
    | with_reducible apply State.respond_pres C
    | with_reducible apply pres_ite
    | with_reducible intro _
    | fail_if_no_progress with_reducible apply C.update

theorem execLhPolicy_pres (C : Quiet P) {s : State} (a1 : Fin 16) (h : P s) : OnNext P (execLhPolicy a1 s) := by
  unfold execLhPolicy
  try dsimp only
  repeat' first
    | with_reducible assumption
    | with_reducible apply State.command_pres C
    | with_reducible apply State.respond_pres C
    | with_reducible apply pres_ite
    | with_reducible intro _
    | fail_if_no_progress with_reducible apply C.update

theorem execBrgSetlimit_pres (C : Quiet P) {s : State} (a1 : Fin 16) (h : P s) : OnNext P (execBrgSetlimit a1 s) := by
  unfold execBrgSetlimit
  try dsimp only
  repeat' first
    | with_reducible assumption
    | with_reducible apply State.command_pres C
    | with_reducible apply State.respond_pres C
    | with_reducible apply pres_ite
    | with_reducible intro _
    | fail_if_no_progress with_reducible apply C.update

theorem execIslePolicy_pres (C : Quiet P) {s : State} (a1 : Fin 16) (h : P s) : OnNext P (execIslePolicy a1 s) := by
  unfold execIslePolicy
  try dsimp only
  repeat' first
    | with_reducible assumption
    | with_reducible apply State.command_pres C
    | with_reducible apply State.respond_pres C
    | with_reducible apply pres_ite
    | with_reducible intro _
    | fail_if_no_progress with_reducible apply C.update

theorem execIdCert_pres (C : Quiet P) (a1 : Fin 16) {s : State} (h : P s) : OnNext P (execIdCert a1 s) := by
  unfold execIdCert
  try dsimp only
  repeat' first
    | with_reducible assumption
    | with_reducible apply State.respond_pres C
    | with_reducible apply State.command_pres C
    | with_reducible apply pres_ite
    | with_reducible apply OnNext.mk
    | with_reducible intro _

theorem State.measureVer_pres (C : Quiet P) {s : State} (a1 : ℕ) (h : P s) : OnFst P (State.measureVer s a1) := by
  unfold State.measureVer
  try dsimp only
  repeat' first
    | with_reducible assumption
    | (with_reducible apply OnSnd.snd; with_reducible apply State.takeFree_pres C)
    | split
    | with_reducible apply OnFst.mk

theorem execIdMeasure_pres (C : Quiet P) {s : State} (a1 : Fin 16) (h : P s) : OnNext P (execIdMeasure a1 s) := by
  unfold execIdMeasure
  try dsimp only
  repeat' first
    | with_reducible assumption
    | with_reducible apply State.command_pres C
    | with_reducible apply State.respond_pres C
    | (with_reducible apply OnFst.fst; with_reducible apply State.measureVer_pres C)
    | with_reducible apply pres_ite
    | with_reducible intro _

theorem execUnlockChallenge_pres (C : Quiet P) {s : State} (a1 : Fin 16) (a2 : BitVec 256) (h : P s) : OnNext P (execUnlockChallenge a1 a2 s) := by
  unfold execUnlockChallenge
  try dsimp only
  repeat' first
    | with_reducible assumption
    | with_reducible apply State.command_pres C
    | with_reducible apply State.respond_pres C
    | with_reducible apply pres_ite
    | with_reducible intro _
    | fail_if_no_progress with_reducible apply C.update

theorem execNonceExpire_pres (C : Quiet P) {s : State}  (h : P s) : OnNext P (execNonceExpire s) := by
  unfold execNonceExpire
  try dsimp only
  repeat' first
    | with_reducible assumption
    | with_reducible apply OnNext.mk
    | fail_if_no_progress with_reducible apply C.update

theorem execUnlockResponse_pres (C : Quiet P) {s : State} (a1 : Fin 16) (h : P s) : OnNext P (execUnlockResponse a1 s) := by
  unfold execUnlockResponse
  try dsimp only
  repeat' first
    | with_reducible assumption
    | with_reducible apply State.command_pres C
    | with_reducible apply State.respond_pres C
    | with_reducible apply State.recKey_pres C
    | with_reducible apply pres_ite
    | with_reducible intro _
    | fail_if_no_progress with_reducible apply C.update
    | split

theorem execLock_pres (C : Quiet P) {s : State} (a1 : Fin 16) (h : P s) : OnNext P (execLock a1 s) := by
  unfold execLock
  try dsimp only
  repeat' first
    | with_reducible assumption
    | with_reducible apply State.command_pres C
    | with_reducible apply State.respond_pres C
    | with_reducible intro _
    | fail_if_no_progress with_reducible apply C.update

theorem execOwnerEnroll_pres (C : Quiet P) {s : State} (a1 : Fin 16) (h : P s) : OnNext P (execOwnerEnroll a1 s) := by
  unfold execOwnerEnroll
  try dsimp only
  repeat' first
    | with_reducible assumption
    | with_reducible apply State.command_pres C
    | with_reducible apply State.respond_pres C
    | with_reducible apply State.recKey_pres C
    | with_reducible apply pres_ite
    | with_reducible intro _
    | fail_if_no_progress with_reducible apply C.update
    | split

theorem State.mbint_pres (C : Quiet P) {s : State} (a1 : Who) (a2 : ℕ) (a3 : W36) (h : P s) : OnFst P (State.mbint s a1 a2 a3) := by
  unfold State.mbint
  try dsimp only
  repeat' first
    | with_reducible assumption
    | with_reducible apply State.modBox_pres C
    | with_reducible apply pres_ite
    | with_reducible intro _
    | with_reducible apply OnFst.mk

theorem execUmfMbintWrite_pres (C : Quiet P) {s : State} (a1 : Who) (a2 : Fin 16) (a3 : W36) (h : P s) : OnNext P (execUmfMbintWrite a1 a2 a3 s) := by
  unfold execUmfMbintWrite
  try dsimp only
  repeat' first
    | with_reducible assumption
    | (with_reducible apply OnFst.fst; with_reducible apply State.mbint_pres C)
    | with_reducible apply OnNext.mk

theorem State.mbbuf_pres (C : Quiet P) {s : State} (a1 : Who) (a2 : ℕ) (a3 : ℕ) (a4 : W36) (h : P s) : OnFst P (State.mbbuf s a1 a2 a3 a4) := by
  unfold State.mbbuf
  try dsimp only
  repeat' first
    | with_reducible assumption
    | with_reducible apply State.modBox_pres C
    | with_reducible apply pres_ite
    | with_reducible intro _
    | with_reducible apply OnFst.mk

theorem execMailboxReqWrite_pres (C : Quiet P) {s : State} (a1 : Who) (a2 : Fin 16) (a3 : W36) (h : P s) : OnNext P (execMailboxReqWrite a1 a2 a3 s) := by
  unfold execMailboxReqWrite
  try dsimp only
  repeat' first
    | with_reducible assumption
    | (with_reducible apply OnFst.fst; with_reducible apply State.mbbuf_pres C)
    | with_reducible apply OnNext.mk

theorem State.smbTake_pres (C : Quiet P) {s : State}  (h : P s) : P (State.smbTake s) := by
  unfold State.smbTake
  try dsimp only
  repeat' first
    | with_reducible assumption
    | fail_if_no_progress with_reducible apply C.update

theorem execSmbusMctpWrite_pres (C : Quiet P) {s : State} (a1 : List Octet) (a2 : Bool) (h : P s) : OnNext P (execSmbusMctpWrite a1 a2 s) := by
  unfold execSmbusMctpWrite
  try dsimp only
  repeat' first
    | with_reducible assumption
    | with_reducible apply State.smbTake_pres C
    | with_reducible apply pres_ite
    | with_reducible apply OnNext.mk
    | with_reducible intro _
    | fail_if_no_progress with_reducible apply C.update

theorem execSmbusMailboxWrite_pres (C : Quiet P) {s : State} (a1 : Fin 2) (a2 : List Octet) (a3 : Bool) (h : P s) : OnNext P (execSmbusMailboxWrite a1 a2 a3 s) := by
  unfold execSmbusMailboxWrite
  try dsimp only
  repeat' first
    | with_reducible assumption
    | with_reducible apply State.smbTake_pres C
    | with_reducible apply State.modBox_pres C
    | with_reducible apply pres_ite
    | with_reducible apply OnNext.mk
    | with_reducible intro _
    | split

theorem execSmbusMailboxRead_pres (C : Quiet P) {s : State} (a1 : Fin 2) (h : P s) : OnNext P (execSmbusMailboxRead a1 s) := by
  unfold execSmbusMailboxRead
  try dsimp only
  repeat' first
    | with_reducible assumption
    | with_reducible apply State.smbTake_pres C
    | with_reducible apply pres_ite
    | with_reducible apply OnNext.mk
    | with_reducible intro _
    | fail_if_no_progress with_reducible apply C.update
    | split

theorem State.spdmSend_pres (C : Quiet P) {s : State} (a1 : Transport) (a2 : List Octet) (h : P s) : OnNext P (State.spdmSend s a1 a2) := by
  unfold State.spdmSend
  try dsimp only
  repeat' first
    | with_reducible assumption
    | with_reducible apply State.portSend_pres C
    | with_reducible apply pres_ite
    | with_reducible apply OnNext.mk
    | with_reducible intro _
    | fail_if_no_progress with_reducible apply C.update
    | split

theorem execGetVersion_pres (C : Quiet P) {s : State} (a1 : Transport) (h : P s) : OnNext P (execGetVersion a1 s) := by
  unfold execGetVersion
  try dsimp only
  repeat' first
    | with_reducible assumption
    | with_reducible apply State.spdmSend_pres C

theorem execGetCapabilities_pres (C : Quiet P) {s : State} (a1 : Transport) (h : P s) : OnNext P (execGetCapabilities a1 s) := by
  unfold execGetCapabilities
  try dsimp only
  repeat' first
    | with_reducible assumption
    | with_reducible apply State.spdmSend_pres C

theorem execNegotiateAlgorithms_pres (C : Quiet P) {s : State} (a1 : Transport) (a2 : BitVec 32) (a3 : BitVec 32) (h : P s) : OnNext P (execNegotiateAlgorithms a1 a2 a3 s) := by
  unfold execNegotiateAlgorithms
  try dsimp only
  repeat' first
    | with_reducible assumption
    | with_reducible apply State.spdmSend_pres C

theorem execGetDigests_pres (C : Quiet P) {s : State} (a1 : Transport) (h : P s) : OnNext P (execGetDigests a1 s) := by
  unfold execGetDigests
  try dsimp only
  repeat' first
    | with_reducible assumption
    | with_reducible apply State.spdmSend_pres C

theorem execGetCertificate_pres (C : Quiet P) (a1 : Transport) (a2 : BitVec 8) (a3 : BitVec 16) (a4 : BitVec 16) {s : State} (h : P s) : OnNext P (execGetCertificate a1 a2 a3 a4 s) := by
  unfold execGetCertificate
  try dsimp only
  repeat' first
    | with_reducible assumption
    | with_reducible apply State.spdmSend_pres C
    | with_reducible apply pres_ite
    | with_reducible apply OnNext.mk
    | with_reducible intro _

theorem execChallenge_pres (C : Quiet P) {s : State} (a1 : Transport) (a2 : BitVec 8) (a3 : BitVec 256) (h : P s) : OnNext P (execChallenge a1 a2 a3 s) := by
  unfold execChallenge
  try dsimp only
  repeat' first
    | with_reducible assumption
    | with_reducible apply State.spdmSend_pres C

theorem execGetMeasurements_pres (C : Quiet P) {s : State} (a1 : Transport) (a2 : BitVec 8) (h : P s) : OnNext P (execGetMeasurements a1 a2 s) := by
  unfold execGetMeasurements
  try dsimp only
  repeat' first
    | with_reducible assumption
    | with_reducible apply State.spdmSend_pres C

end Sys2Proof.Machine
end

