-- ==== Sys2Proof/Laws/KeepService.lean ====
section
/-! SUPPORT. What the operations of Machine/Service.lean keep. -/

namespace Sys2Proof.Machine

variable {P : State → Prop}

theorem State.withChan_pres (C : Quiet P) {s : State} (a1 : Fin 16) (a2 : Mailbox) (a3 : Fin 24 → State) (h3 : ∀ x0, P (a3 x0)) (h : P s) : P (State.withChan s a1 a2 a3) := by
  unfold State.withChan
  try dsimp only
  repeat' first
    | with_reducible assumption
    | with_reducible apply h3
    | with_reducible apply State.respond_pres C
    | with_reducible apply pres_ite
    | with_reducible intro _
    | split

theorem State.thawCmd_pres (C : Quiet P) {s : State} (a1 : Fin 16) (a2 : ℕ) (a3 : State → Fin 24 → State) (h3 : ∀ x0 x1, P x0 → P (a3 x0 x1)) (h : P s) : OnNext P (State.thawCmd s a1 a2 a3) := by
  unfold State.thawCmd
  try dsimp only
  repeat' first
    | with_reducible assumption
    | with_reducible apply h3
    | with_reducible apply State.command_pres C
    | with_reducible apply State.withChan_pres C
    | with_reducible apply State.respond_pres C
    | with_reducible apply State.accepted_pres C
    | with_reducible apply pres_ite
    | with_reducible intro _

theorem State.poisonLost_pres (C : Quiet P) {s : State} (a1 : ℕ) (h : P s) : P (State.poisonLost s a1) := by
  unfold State.poisonLost
  try dsimp only
  repeat' first
    | with_reducible assumption
    | with_reducible apply State.memPut_pres C
    | with_reducible apply pres_fold
    | with_reducible intro _

theorem State.replayAll_pres (C : Quiet P) {s : State} (a1 : ℕ) (h : P s) : P (State.replayAll s a1) := by
  unfold State.replayAll
  try dsimp only
  repeat' first
    | with_reducible assumption
    | with_reducible apply State.modChan_pres C
    | with_reducible apply State.dramTouch_pres C
    | with_reducible apply pres_fold
    | with_reducible intro _
    | fail_if_no_progress with_reducible apply C.update
    | split

theorem execResume_pres (C : Quiet P) (a1 : Fin 16) (a2 : Bool) {s : State} (h : P s) : OnNext P (execResume a1 a2 s) := by
  unfold execResume
  try dsimp only
  repeat' first
    | with_reducible assumption
    | with_reducible apply State.thawed_pres C
    | with_reducible apply State.modChan_pres C
    | with_reducible apply State.poisonLost_pres C
    | with_reducible apply State.drainAll_pres C
    | with_reducible apply State.replayAll_pres C
    | with_reducible apply State.memAnswers_pres C
    | with_reducible apply State.chanFail_pres C
    | (with_reducible apply OnFst.fst; with_reducible apply State.chanFail_pres C)
    | with_reducible apply State.release_pres C
    | with_reducible apply State.claim_pres C
    | (with_reducible apply OnFst.fst; with_reducible apply State.claim_pres C)
    | with_reducible apply State.thawCmd_pres C
    | with_reducible apply pres_ite
    | with_reducible apply OnNext.mk
    | with_reducible exact OnFst.get (by with_reducible assumption)
    | with_reducible intro _
    | with_reducible refine OnFst.eq ?_ (by with_reducible assumption)
    | fail_if_no_progress with_reducible apply C.update
    | split
    | with_reducible apply OnFst.mk

theorem execRetrain_pres (C : Quiet P) {s : State} (a1 : Fin 16) (h : P s) : OnNext P (execRetrain a1 s) := by
  unfold execRetrain
  try dsimp only
  repeat' first
    | with_reducible assumption
    | with_reducible apply State.thawCmd_pres C
    | (with_reducible apply OnFst.fst; with_reducible apply State.claimTraining_pres C)
    | with_reducible apply State.modChan_pres C
    | with_reducible apply State.memAnswers_pres C
    | with_reducible intro _

theorem execFail_pres (C : Quiet P) {s : State} (a1 : Fin 16) (h : P s) : OnNext P (execFail a1 s) := by
  unfold execFail
  try dsimp only
  repeat' first
    | with_reducible assumption
    | with_reducible apply State.thawCmd_pres C
    | (with_reducible apply OnFst.fst; with_reducible apply State.chanFail_pres C)
    | with_reducible apply State.thawed_pres C
    | with_reducible apply State.memAnswers_pres C
    | with_reducible intro _

theorem execMemRetrain_pres (C : Quiet P) {s : State} (a1 : Fin 16) (h : P s) : OnNext P (execMemRetrain a1 s) := by
  unfold execMemRetrain
  try dsimp only
  repeat' first
    | with_reducible assumption
    | with_reducible apply State.command_pres C
    | with_reducible apply State.withChan_pres C
    | with_reducible apply State.respond_pres C
    | with_reducible apply State.accepted_pres C
    | (with_reducible apply OnFst.fst; with_reducible apply State.claimTraining_pres C)
    | with_reducible apply State.memAnswers_pres C
    | with_reducible apply pres_ite
    | with_reducible intro _

theorem execMemInclude_pres (C : Quiet P) {s : State} (a1 : Fin 16) (h : P s) : OnNext P (execMemInclude a1 s) := by
  unfold execMemInclude
  try dsimp only
  repeat' first
    | with_reducible assumption
    | with_reducible apply State.command_pres C
    | with_reducible apply State.withChan_pres C
    | with_reducible apply State.respond_pres C
    | with_reducible apply pres_ite
    | with_reducible intro _
    | fail_if_no_progress with_reducible apply C.update

theorem execMemMark_pres (C : Quiet P) {s : State} (a1 : Fin 16) (h : P s) : OnNext P (execMemMark a1 s) := by
  unfold execMemMark
  try dsimp only
  repeat' first
    | with_reducible assumption
    | with_reducible apply State.command_pres C
    | with_reducible apply State.withChan_pres C
    | with_reducible apply State.respond_pres C
    | with_reducible apply State.recKey_pres C
    | with_reducible apply State.modChan_pres C
    | with_reducible apply pres_ite
    | with_reducible intro _

theorem execMemPprEnroll_pres (C : Quiet P) {s : State} (a1 : Fin 16) (h : P s) : OnNext P (execMemPprEnroll a1 s) := by
  unfold execMemPprEnroll
  try dsimp only
  repeat' first
    | with_reducible assumption
    | with_reducible apply State.command_pres C
    | with_reducible apply State.withChan_pres C
    | with_reducible apply State.respond_pres C
    | with_reducible apply pres_ite
    | with_reducible intro _
    | fail_if_no_progress with_reducible apply C.update

theorem State.withIsle_pres (C : Quiet P) {s : State} (a1 : Fin 16) (a2 : Mailbox) (a3 : Fin 12 → State) (h3 : ∀ x0, P (a3 x0)) (h : P s) : P (State.withIsle s a1 a2 a3) := by
  unfold State.withIsle
  try dsimp only
  repeat' first
    | with_reducible assumption
    | with_reducible apply h3
    | with_reducible apply State.respond_pres C
    | with_reducible apply pres_ite
    | with_reducible intro _
    | split

theorem State.releaseCore_pres (C : Loud P) {s : State} (a1 : ℕ) (a2 : Addr) (h : P s) : P (State.releaseCore s a1 a2) := by
  unfold State.releaseCore
  try dsimp only
  repeat' first
    | with_reducible assumption
    | with_reducible apply Thread.legal_release
    | with_reducible apply State.modThread_pres C
    | with_reducible apply State.modCore_pres C.toQuiet
    | with_reducible apply pres_ite
    | with_reducible intro _

theorem execIsleRelease_pres (C : Loud P) {s : State} (a1 : Fin 16) (h : P s) : OnNext P (execIsleRelease a1 s) := by
  unfold execIsleRelease
  try dsimp only
  repeat' first
    | with_reducible assumption
    | with_reducible apply State.command_pres C.toQuiet
    | with_reducible apply State.withIsle_pres C.toQuiet
    | with_reducible apply State.respond_pres C.toQuiet
    | with_reducible apply State.wakeIsle_pres C.toQuiet
    | with_reducible apply State.releaseCore_pres C
    | with_reducible apply pres_ite
    | with_reducible apply pres_fold
    | with_reducible intro _

theorem State.readmit_pres (C : Loud P) {s : State} (a1 : ℕ) (a2 : TrainIn) (h : P s) : OnFst P (State.readmit s a1 a2) := by
  unfold State.readmit
  try dsimp only
  repeat' first
    | with_reducible assumption
    | with_reducible apply State.modIsle_pres C.toQuiet
    | with_reducible apply State.admitIsle_pres C.toQuiet
    | (with_reducible apply OnFst.fst; with_reducible apply State.admitIsle_pres C.toQuiet)
    | with_reducible apply State.isleLost_pres C
    | with_reducible apply State.vcoreOff_pres C.toQuiet
    | with_reducible apply State.trained_pres C.toQuiet
    | (with_reducible apply OnFst.fst; with_reducible apply State.trained_pres C.toQuiet)
    | with_reducible apply State.trainStart_pres C.toQuiet
    | (with_reducible apply OnFst.fst; with_reducible apply State.trainStart_pres C.toQuiet)
    | with_reducible apply State.isleReset_pres C
    | with_reducible apply pres_ite
    | with_reducible exact OnFst.get (by with_reducible assumption)
    | with_reducible intro _
    | with_reducible refine OnFst.eq ?_ (by with_reducible assumption)
    | fail_if_no_progress with_reducible apply C.toQuiet.update
    | split
    | with_reducible apply OnFst.mk

theorem State.powerAdmit_pres (C : Loud P) {s : State} (a1 : ℕ) (a2 : TrainIn) (h : P s) : OnFst P (State.powerAdmit s a1 a2) := by
  unfold State.powerAdmit
  try dsimp only
  repeat' first
    | with_reducible assumption
    | with_reducible apply State.islePower_pres C
    | with_reducible refine OnFst.eq ?_ (by with_reducible assumption)
    | split
    | with_reducible apply OnFst.mk

theorem State.endAdmit_pres (C : Quiet P) (a1 : State × Nat) (a2 : Nat) (h : OnFst P a1) : P (State.endAdmit a1 a2) := by
  unfold State.endAdmit
  exact pres_ite (fun _ => h) fun _ => State.endIsle_pres C _ _ h

theorem execIsleAdmit_pres (C : Loud P) (a1 : Fin 16) (a2 : TrainIn) {s : State} (h : P s) : OnNext P (execIsleAdmit a1 a2 s) := by
  unfold execIsleAdmit
  try dsimp only
  repeat' first
    | with_reducible assumption
    | with_reducible apply State.endHandle_pres C.toQuiet
    | with_reducible apply State.powerAdmit_pres C
    | (with_reducible apply OnFst.fst; with_reducible apply State.powerAdmit_pres C)
    | with_reducible apply State.endAdmit_pres C.toQuiet
    | with_reducible apply State.claim_pres C.toQuiet
    | (with_reducible apply OnFst.fst; with_reducible apply State.claim_pres C.toQuiet)
    | with_reducible apply State.readmit_pres C
    | (with_reducible apply OnFst.fst; with_reducible apply State.readmit_pres C)
    | with_reducible apply State.vcoreOff_pres C.toQuiet
    | with_reducible apply State.accepted_pres C.toQuiet
    | with_reducible apply State.respond_pres C.toQuiet
    | with_reducible apply State.withIsle_pres C.toQuiet
    | with_reducible apply State.command_pres C.toQuiet
    | with_reducible apply pres_ite
    | with_reducible apply OnNext.mk
    | with_reducible exact OnFst.get (by with_reducible assumption)
    | with_reducible intro _
    | with_reducible refine OnFst.eq ?_ (by with_reducible assumption)
    | fail_if_no_progress with_reducible apply C.toQuiet.update
    | split
    | with_reducible apply OnFst.mk

theorem State.dropRequests_pres (C : Quiet P) {s : State} (a1 : Fin 12) (h : P s) : P (State.dropRequests s a1) := by
  unfold State.dropRequests
  try dsimp only
  repeat' first
    | with_reducible assumption
    | with_reducible apply State.modStream_pres C
    | with_reducible apply State.modCore_pres C
    | with_reducible apply pres_fold
    | with_reducible intro _

theorem execIsleOffline_pres (C : Loud P) (a1 : Fin 16) {s : State} (h : P s) : OnNext P (execIsleOffline a1 s) := by
  unfold execIsleOffline
  try dsimp only
  repeat' first
    | with_reducible assumption
    | with_reducible apply State.endHandle_pres C.toQuiet
    | with_reducible apply State.isleDry_pres C
    | with_reducible apply State.modIsle_pres C.toQuiet
    | with_reducible apply State.trwAbort_pres C.toQuiet
    | with_reducible apply State.dropRequests_pres C.toQuiet
    | with_reducible apply State.accepted_pres C.toQuiet
    | with_reducible apply State.respond_pres C.toQuiet
    | with_reducible apply State.modStream_pres C.toQuiet
    | with_reducible apply State.withIsle_pres C.toQuiet
    | with_reducible apply State.command_pres C.toQuiet
    | with_reducible apply pres_ite
    | with_reducible apply OnNext.mk
    | with_reducible intro _
    | fail_if_no_progress with_reducible apply C.toQuiet.update

theorem execIsleOnline_pres (C : Loud P) {s : State} (a1 : Fin 16) (a2 : TrainIn) (h : P s) : OnNext P (execIsleOnline a1 a2 s) := by
  unfold execIsleOnline
  try dsimp only
  repeat' first
    | with_reducible assumption
    | with_reducible apply State.command_pres C.toQuiet
    | with_reducible apply State.withIsle_pres C.toQuiet
    | with_reducible apply State.respond_pres C.toQuiet
    | with_reducible apply State.accepted_pres C.toQuiet
    | with_reducible apply State.claim_pres C.toQuiet
    | with_reducible apply State.endHandle_pres C.toQuiet
    | with_reducible apply State.endAdmit_pres C.toQuiet
    | with_reducible apply State.powerAdmit_pres C
    | with_reducible apply State.modIsle_pres C.toQuiet
    | with_reducible apply pres_ite
    | with_reducible intro _
    | with_reducible refine OnFst.eq ?_ (by with_reducible assumption)
    | split

theorem State.readImage_pres (C : Quiet P) {s : State} (a1 : ℕ) (a2 : ℕ) (h : P s) : OnFst P (State.readImage s a1 a2) := by
  unfold State.readImage
  try dsimp only
  repeat' first
    | with_reducible assumption
    | with_reducible apply State.lineRead_pres C
    | (with_reducible apply OnFst.fst; with_reducible apply State.lineRead_pres C)
    | with_reducible apply pres_fold
    | (with_reducible apply OnFst.fst; with_reducible apply pres_fold)
    | with_reducible exact OnFst.fst (by with_reducible assumption)
    | with_reducible exact OnFst.get (by with_reducible assumption)
    | with_reducible intro _
    | with_reducible refine OnFst.eq ?_ (by with_reducible assumption)
    | fail_if_no_progress with_reducible apply C.update
    | split
    | with_reducible apply OnFst.mk

theorem State.parkNext_pres (C : Quiet P) {s : State}  (h : P s) : P (State.parkNext s) := by
  unfold State.parkNext
  try dsimp only
  repeat' first
    | with_reducible assumption
    | with_reducible apply State.wakeIsle_pres C
    | with_reducible apply State.modIsle_pres C
    | with_reducible apply pres_ite
    | with_reducible intro _
    | split

theorem State.ucodeEnds_pres (C : Quiet P) {s : State} (a1 : UcodeRun) (h : P s) : P (State.ucodeEnds s a1) := by
  unfold State.ucodeEnds
  try dsimp only
  repeat' first
    | with_reducible assumption
    | with_reducible apply State.endHandle_pres C
    | fail_if_no_progress with_reducible apply C.update
    | split

theorem execUcodeLoad_pres (C : Quiet P) (a1 : Fin 16) (a2 : ImageIn) {s : State} (h : P s) : OnNext P (execUcodeLoad a1 a2 s) := by
  unfold execUcodeLoad
  try dsimp only
  repeat' first
    | with_reducible assumption
    | with_reducible apply State.parkNext_pres C
    | with_reducible apply State.ucodeEnds_pres C
    | with_reducible apply State.endHandle_pres C
    | with_reducible apply State.accepted_pres C
    | with_reducible apply State.readImage_pres C
    | (with_reducible apply OnFst.fst; with_reducible apply State.readImage_pres C)
    | with_reducible apply State.respond_pres C
    | with_reducible apply State.command_pres C
    | with_reducible apply pres_ite
    | with_reducible apply OnNext.mk
    | with_reducible exact OnFst.get (by with_reducible assumption)
    | with_reducible intro _
    | with_reducible refine OnFst.eq ?_ (by with_reducible assumption)
    | fail_if_no_progress with_reducible apply C.update
    | split
    | with_reducible apply OnFst.mk

theorem State.ucodeFailed_pres (C : Loud P) {s : State} (a1 : ℕ) (h : P s) : P (State.ucodeFailed s a1) := by
  unfold State.ucodeFailed
  try dsimp only
  repeat' first
    | with_reducible assumption
    | with_reducible apply State.quarantine_pres C.toQuiet
    | with_reducible apply State.release_pres C.toQuiet
    | with_reducible apply State.coreGone_pres C
    | with_reducible apply State.unlist_pres C.toQuiet
    | with_reducible apply State.emptyIsle_pres C.toQuiet
    | with_reducible apply State.endWindows_pres C.toQuiet
    | with_reducible apply State.forgetThreads_pres C.toQuiet
    | with_reducible apply State.trwAbort_pres C.toQuiet
    | with_reducible apply pres_fold
    | with_reducible intro _

theorem execUcodeIsleParked_pres (C : Loud P) (a1 : Bool) {s : State} (h : P s) : OnNext P (execUcodeIsleParked a1 s) := by
  unfold execUcodeIsleParked
  try dsimp only
  repeat' first
    | with_reducible assumption
    | with_reducible apply State.parkNext_pres C.toQuiet
    | with_reducible apply State.ucodeEnds_pres C.toQuiet
    | with_reducible apply State.modIsle_pres C.toQuiet
    | with_reducible apply State.recKey_pres C.toQuiet
    | with_reducible apply State.ucodeFailed_pres C
    | with_reducible apply pres_ite
    | with_reducible apply OnNext.mk
    | with_reducible intro _
    | fail_if_no_progress with_reducible apply C.toQuiet.update
    | split

theorem execFwStage_pres (C : Quiet P) (a1 : Fin 16) (a2 : ImageIn) (a3 : Bool) {s : State} (h : P s) : OnNext P (execFwStage a1 a2 a3 s) := by
  unfold execFwStage
  try dsimp only
  repeat' first
    | with_reducible assumption
    | with_reducible apply State.endHandle_pres C
    | with_reducible apply State.accepted_pres C
    | with_reducible apply State.readImage_pres C
    | (with_reducible apply OnFst.fst; with_reducible apply State.readImage_pres C)
    | with_reducible apply State.command_pres C
    | with_reducible apply pres_ite
    | with_reducible apply OnNext.mk
    | with_reducible exact OnFst.get (by with_reducible assumption)
    | with_reducible intro _
    | with_reducible refine OnFst.eq ?_ (by with_reducible assumption)
    | fail_if_no_progress with_reducible apply C.update
    | split
    | with_reducible apply OnFst.mk

theorem execFwSwap_pres (C : Quiet P) (a1 : Fin 16) (a2 : Bool) {s : State} (h : P s) : OnNext P (execFwSwap a1 a2 s) := by
  unfold execFwSwap
  try dsimp only
  repeat' first
    | with_reducible assumption
    | with_reducible apply State.endHandle_pres C
    | with_reducible apply State.recKey_pres C
    | with_reducible apply State.accepted_pres C
    | with_reducible apply State.respond_pres C
    | with_reducible apply State.command_pres C
    | with_reducible apply pres_ite
    | with_reducible apply OnNext.mk
    | with_reducible intro _
    | fail_if_no_progress with_reducible apply C.update

theorem State.assignBoxes_pres (C : Quiet P) {s : State}  (h : P s) : P (State.assignBoxes s) := by
  unfold State.assignBoxes
  try dsimp only
  repeat' first
    | with_reducible assumption
    | with_reducible apply State.modBox_pres C
    | with_reducible apply pres_fold
    | with_reducible intro _

theorem State.assignRings_pres (C : Quiet P) {s : State} (a1 : ℕ) (h : P s) : P (State.assignRings s a1) := by
  unfold State.assignRings
  try dsimp only
  repeat' first
    | with_reducible assumption
    | with_reducible apply State.modRing_pres C
    | with_reducible apply pres_ite
    | with_reducible apply pres_fold
    | (with_reducible apply OnFst.fst; with_reducible apply pres_fold)
    | with_reducible exact OnFst.fst (by with_reducible assumption)
    | with_reducible exact OnFst.get (by with_reducible assumption)
    | with_reducible intro _
    | with_reducible refine OnFst.eq ?_ (by with_reducible assumption)
    | fail_if_no_progress with_reducible apply C.update
    | split
    | with_reducible apply OnFst.mk

theorem State.setRoles_pres (C : Quiet P) {s : State} (a1 : ℕ) (a2 : BitVec 7) (a3 : BitVec 32) (a4 : BitVec 32) (h : P s) : P (State.setRoles s a1 a2 a3 a4) := by
  unfold State.setRoles
  try dsimp only
  repeat' first
    | with_reducible assumption
    | with_reducible apply State.modPort_pres C
    | with_reducible apply pres_fold
    | with_reducible intro _

theorem execPortConfig_pres (C : Quiet P) (a1 : Fin 16) {s : State} (h : P s) : OnNext P (execPortConfig a1 s) := by
  unfold execPortConfig
  try dsimp only
  repeat' first
    | with_reducible assumption
    | with_reducible apply State.respond_pres C
    | with_reducible apply State.endHandle_pres C
    | with_reducible apply State.assignRings_pres C
    | with_reducible apply State.assignBoxes_pres C
    | with_reducible apply State.setRoles_pres C
    | with_reducible apply State.modBlock_pres C
    | with_reducible apply State.portGiveUp_pres C
    | with_reducible apply State.linkDown_pres C
    | with_reducible apply State.epReset_pres C
    | with_reducible apply State.accepted_pres C
    | with_reducible apply State.command_pres C
    | with_reducible apply pres_ite
    | with_reducible apply pres_fold
    | (with_reducible apply OnFst.fst; with_reducible apply pres_fold)
    | with_reducible exact OnFst.fst (by with_reducible assumption)
    | with_reducible apply OnNext.mk
    | with_reducible exact OnFst.get (by with_reducible assumption)
    | with_reducible intro _
    | with_reducible refine OnFst.eq ?_ (by with_reducible assumption)
    | fail_if_no_progress with_reducible apply C.update
    | split
    | with_reducible apply OnFst.mk

theorem State.handoverOne_pres (C : Quiet P) {s : State} (a1 : HoAsk) (h : P s) : P (State.handoverOne s a1) := by
  unfold State.handoverOne
  try dsimp only
  repeat' first
    | with_reducible assumption
    | with_reducible apply State.hoStart_pres C
    | with_reducible apply State.accepted_pres C
    | with_reducible apply State.respond_pres C
    | with_reducible apply State.commanded_pres C
    | with_reducible apply pres_ite
    | with_reducible intro _
    | fail_if_no_progress with_reducible apply C.update
    | split

theorem State.handover_pres (C : Quiet P) {s : State} (a1 : HoAsk) (a2 : List HoAsk) (h : P s) : OnNext P (State.handover s a1 a2) := by
  unfold State.handover
  try dsimp only
  repeat' first
    | with_reducible assumption
    | with_reducible apply State.handoverOne_pres C
    | with_reducible apply pres_fold
    | (with_reducible apply OnFst.fst; with_reducible apply pres_fold)
    | with_reducible exact OnFst.fst (by with_reducible assumption)
    | with_reducible apply OnNext.mk
    | with_reducible intro _
    | with_reducible refine OnFst.eq ?_ (by with_reducible assumption)
    | with_reducible apply OnFst.mk

theorem execHandoverEngine_pres (C : Quiet P) (a1 : HoSrc) (a2 : Fin 32) (a3 : Bool) (a4 : List HoAsk) {s : State} (h : P s) : OnNext P (execHandoverEngine a1 a2 a3 a4 s) := by
  unfold execHandoverEngine
  try dsimp only
  repeat' first
    | with_reducible assumption
    | with_reducible apply State.handover_pres C
    | with_reducible apply OnNext.mk

theorem execHandoverPort_pres (C : Quiet P) (a1 : HoSrc) (a2 : Fin 96) (a3 : Bool) (a4 : List HoAsk) {s : State} (h : P s) : OnNext P (execHandoverPort a1 a2 a3 a4 s) := by
  unfold execHandoverPort
  try dsimp only
  repeat' first
    | with_reducible assumption
    | with_reducible apply State.handover_pres C
    | with_reducible apply OnNext.mk

theorem execHandoverPartition_pres (C : Quiet P) (a1 : HoSrc) (a2 : Fin 12) (a3 : Fin 8) (a4 : Bool) (a5 : List HoAsk) {s : State} (h : P s) : OnNext P (execHandoverPartition a1 a2 a3 a4 a5 s) := by
  unfold execHandoverPartition
  try dsimp only
  repeat' first
    | with_reducible assumption
    | with_reducible apply State.handover_pres C
    | with_reducible apply OnNext.mk

theorem execHandoverGuestSite_pres (C : Quiet P) (a1 : HoSrc) (a2 : Fin 2) (a3 : Bool) (a4 : List HoAsk) {s : State} (h : P s) : OnNext P (execHandoverGuestSite a1 a2 a3 a4 s) := by
  unfold execHandoverGuestSite
  try dsimp only
  repeat' first
    | with_reducible assumption
    | with_reducible apply State.handover_pres C
    | with_reducible apply OnNext.mk

theorem execEvrClear_pres (C : Quiet P) {s : State} (a1 : Fin 16) (h : P s) : OnNext P (execEvrClear a1 s) := by
  unfold execEvrClear
  try dsimp only
  repeat' first
    | with_reducible assumption
    | with_reducible apply State.command_pres C
    | with_reducible apply State.respond_pres C
    | with_reducible apply State.accepted_pres C
    | with_reducible apply pres_ite
    | with_reducible intro _
    | fail_if_no_progress with_reducible apply C.update

end Sys2Proof.Machine
end

