-- ==== Sys2Proof/Laws/KeepRecorder.lean ====
section
/-! SUPPORT. What the operations of Machine/Recorder.lean keep. -/

namespace Sys2Proof.Machine

variable {P : State → Prop}

theorem execRecordArrives_pres (C : Quiet P) {s : State} (a1 : ℕ) (h : P s) : OnNext P (execRecordArrives a1 s) := by
  unfold execRecordArrives
  try dsimp only
  repeat' first
    | with_reducible assumption
    | with_reducible apply OnNext.mk
    | fail_if_no_progress with_reducible apply C.update

theorem execRecordStore_pres (C : Quiet P) {s : State}  (h : P s) : OnNext P (execRecordStore s) := by
  unfold execRecordStore
  try dsimp only
  repeat' first
    | with_reducible assumption
    | with_reducible apply pres_ite
    | with_reducible apply OnNext.mk
    | with_reducible intro _
    | fail_if_no_progress with_reducible apply C.update
    | split

theorem execEvrClearDone_pres (C : Quiet P) {s : State}  (h : P s) : OnNext P (execEvrClearDone s) := by
  unfold execEvrClearDone
  try dsimp only
  repeat' first
    | with_reducible assumption
    | with_reducible apply State.endHandle_pres C
    | with_reducible apply pres_ite
    | with_reducible apply OnNext.mk
    | with_reducible intro _
    | fail_if_no_progress with_reducible apply C.update

theorem State.windowRead_pres (C : Quiet P) {s : State} (a1 : Who) (a2 : ℕ) (h : P s) : OnFst P (State.windowRead s a1 a2) := by
  unfold State.windowRead
  try dsimp only
  repeat' first
    | with_reducible assumption
    | fail_if_no_progress with_reducible apply C.update
    | split
    | with_reducible apply OnFst.mk

theorem execEvrWindowRead_pres (C : Quiet P) {s : State} (a1 : Who) (a2 : Fin 16) (h : P s) : OnNext P (execEvrWindowRead a1 a2 s) := by
  unfold execEvrWindowRead
  try dsimp only
  repeat' first
    | with_reducible assumption
    | (with_reducible apply OnFst.fst; with_reducible apply State.windowRead_pres C)
    | with_reducible apply OnNext.mk

theorem State.setSnd_pres (C : Quiet P) {s : State} (a1 : SndUnit) (a2 : ℕ) (a3 : SndCnt) (h : P s) : P (State.setSnd s a1 a2 a3) := by
  unfold State.setSnd
  try dsimp only
  repeat' first
    | with_reducible assumption
    | with_reducible apply State.modIsle_pres C
    | fail_if_no_progress with_reducible apply C.update
    | split

theorem State.uloRead_pres (C : Quiet P) {s : State} (a1 : Who) (a2 : SndUnit) (a3 : ℕ) (h : P s) : OnFst P (State.uloRead s a1 a2 a3) := by
  unfold State.uloRead
  try dsimp only
  repeat' first
    | with_reducible assumption
    | with_reducible apply State.setSnd_pres C
    | split
    | with_reducible apply OnFst.mk

theorem State.uloWrite_pres (C : Quiet P) {s : State} (a1 : Who) (a2 : SndUnit) (a3 : ℕ) (a4 : W36) (h : P s) : OnFst P (State.uloWrite s a1 a2 a3 a4) := by
  unfold State.uloWrite
  try dsimp only
  repeat' first
    | with_reducible assumption
    | with_reducible apply State.setSnd_pres C
    | with_reducible apply pres_ite
    | with_reducible intro _
    | split
    | with_reducible apply OnFst.mk

theorem State.uselWrite_pres (C : Quiet P) {s : State} (a1 : Who) (a2 : SndUnit) (a3 : ℕ) (a4 : W36) (h : P s) : OnFst P (State.uselWrite s a1 a2 a3 a4) := by
  unfold State.uselWrite
  try dsimp only
  repeat' first
    | with_reducible assumption
    | with_reducible apply State.setSnd_pres C
    | with_reducible apply pres_ite
    | with_reducible intro _
    | split
    | with_reducible apply OnFst.mk

end Sys2Proof.Machine
end

