-- ==== Sys2Proof/Laws/KeepStartup.lean ====
section
/-! SUPPORT. What the operations of Machine/Startup.lean keep. -/

namespace Sys2Proof.Machine

variable {P : State → Prop}

theorem State.stepDone_pres (C : Quiet P) {s : State} (a1 : ℕ) (a2 : BitVec 64) (h : P s) : P (State.stepDone s a1 a2) := by
  unfold State.stepDone
  try dsimp only
  repeat' first
    | with_reducible assumption
    | with_reducible apply State.recKey_pres C
    | fail_if_no_progress with_reducible apply C.update

theorem State.startFail_pres (C : Quiet P) {s : State} (a1 : ℕ) (a2 : ℕ) (h : P s) : P (State.startFail s a1 a2) := by
  unfold State.startFail
  try dsimp only
  repeat' first
    | with_reducible assumption
    | with_reducible apply State.recKey_pres C

theorem State.startStop_pres (C : Quiet P) {s : State} (a1 : ℕ) (a2 : ℕ) (h : P s) : P (State.startStop s a1 a2) := by
  unfold State.startStop
  try dsimp only
  repeat' first
    | with_reducible assumption
    | with_reducible apply State.startFail_pres C
    | fail_if_no_progress with_reducible apply C.update

theorem State.checkSlots_pres (C : Quiet P) {s : State}  (h : P s) : P (State.checkSlots s) := by
  unfold State.checkSlots
  try dsimp only
  repeat' first
    | with_reducible assumption
    | with_reducible apply pres_ite
    | with_reducible intro _
    | fail_if_no_progress with_reducible apply C.update

theorem State.startup1_pres (C : Quiet P) {s : State} (a1 : BitVec 64) (h : P s) : P (State.startup1 s a1) := by
  unfold State.startup1
  try dsimp only
  repeat' first
    | with_reducible assumption
    | with_reducible apply State.stepDone_pres C
    | with_reducible apply State.checkSlots_pres C

theorem State.loadConfig_pres (C : Quiet P) {s : State} (h : P s) : P (State.loadConfig s) := by
  unfold State.loadConfig
  try dsimp only
  repeat' first
    | with_reducible assumption
    | with_reducible apply State.modBlock_pres C
    | with_reducible apply State.modPort_pres C
    | with_reducible apply State.modBox_pres C
    | with_reducible apply pres_ite
    | with_reducible apply pres_fold
    | (with_reducible apply OnFst.fst; with_reducible apply pres_fold)
    | with_reducible exact OnFst.fst (by with_reducible assumption)
    | with_reducible intro _
    | with_reducible refine OnFst.eq ?_ (by with_reducible assumption)
    | fail_if_no_progress with_reducible apply C.update
    | with_reducible apply OnFst.mk

theorem State.loadImages_pres (C : Quiet P) {s : State} (a1 : Bool) (h : P s) : P (State.loadImages s a1) := by
  unfold State.loadImages
  try dsimp only
  repeat' first
    | with_reducible assumption
    | with_reducible apply pres_ite
    | with_reducible intro _
    | fail_if_no_progress with_reducible apply C.update

theorem State.startup2_pres (C : Quiet P) {s : State} (a1 : BitVec 64) (a2 : Bool) (a3 : Bool) (a4 : Bool) (a5 : Bool) (h : P s) : P (State.startup2 s a1 a2 a3 a4 a5) := by
  unfold State.startup2
  try dsimp only
  repeat' first
    | with_reducible assumption
    | with_reducible apply State.startStop_pres C
    | with_reducible apply State.startFail_pres C
    | with_reducible apply State.loadConfig_pres C
    | with_reducible apply State.loadImages_pres C
    | with_reducible apply State.stepDone_pres C
    | with_reducible apply pres_ite
    | with_reducible intro _
    | fail_if_no_progress with_reducible apply C.update

theorem State.startup3_pres (C : Quiet P) {s : State} (a1 : BitVec 64) (a2 : Bool) (a3 : List (BitVec 32)) (h : P s) : P (State.startup3 s a1 a2 a3) := by
  unfold State.startup3
  try dsimp only
  repeat' first
    | with_reducible assumption
    | with_reducible apply State.stepDone_pres C
    | with_reducible apply State.modIsle_pres C
    | with_reducible apply State.modStrait_pres C
    | with_reducible apply State.claim_pres C
    | (with_reducible apply OnFst.fst; with_reducible apply State.claim_pres C)
    | with_reducible apply State.startStop_pres C
    | with_reducible apply pres_ite
    | with_reducible apply pres_fold
    | (with_reducible apply OnFst.fst; with_reducible apply pres_fold)
    | with_reducible exact OnFst.fst (by with_reducible assumption)
    | with_reducible exact OnFst.get (by with_reducible assumption)
    | with_reducible intro _
    | with_reducible refine OnFst.eq ?_ (by with_reducible assumption)
    | fail_if_no_progress with_reducible apply C.update
    | split
    | with_reducible apply OnFst.mk

theorem State.rampsEnd_pres (C : Quiet P) {s : State}  (h : P s) : P (State.rampsEnd s) := by
  unfold State.rampsEnd
  try dsimp only
  repeat' first
    | with_reducible assumption
    | fail_if_no_progress with_reducible apply C.update

theorem State.startOff_pres (C : Loud P) {s : State} (a1 : ℕ) (h : P s) : P (State.startOff s a1) := by
  unfold State.startOff
  try dsimp only
  repeat' first
    | with_reducible assumption
    | with_reducible apply State.modIsle_pres C.toQuiet
    | with_reducible apply State.modStrait_pres C.toQuiet
    | with_reducible apply State.vcoreOff_pres C.toQuiet

theorem State.startIsle_pres (C : Loud P) {s : State} (a1 : Fin 12) (a2 : TrainIn) (h : P s) : P (State.startIsle s a1 a2) := by
  unfold State.startIsle
  try dsimp only
  repeat' first
    | with_reducible assumption
    | with_reducible apply State.startOff_pres C
    | with_reducible apply State.islePower_pres C
    | (with_reducible apply OnFst.fst; with_reducible apply State.islePower_pres C)
    | with_reducible apply State.claim_pres C.toQuiet
    | (with_reducible apply OnFst.fst; with_reducible apply State.claim_pres C.toQuiet)
    | with_reducible apply State.rampsEnd_pres C.toQuiet
    | with_reducible apply pres_ite
    | with_reducible exact OnFst.get (by with_reducible assumption)
    | with_reducible intro _
    | with_reducible refine OnFst.eq ?_ (by with_reducible assumption)
    | fail_if_no_progress with_reducible apply C.toQuiet.update
    | split
    | with_reducible apply OnFst.mk

theorem State.startup4_pres (C : Loud P) {s : State} (a1 : BitVec 64) (a2 : List (Fin 12 × TrainIn)) (h : P s) : P (State.startup4 s a1 a2) := by
  unfold State.startup4
  try dsimp only
  repeat' first
    | with_reducible assumption
    | with_reducible apply State.stepDone_pres C.toQuiet
    | with_reducible apply State.startStop_pres C.toQuiet
    | with_reducible apply State.startIsle_pres C
    | with_reducible apply pres_ite
    | with_reducible apply pres_fold
    | (with_reducible apply OnFst.fst; with_reducible apply pres_fold)
    | with_reducible exact OnFst.fst (by with_reducible assumption)
    | with_reducible intro _
    | with_reducible refine OnFst.eq ?_ (by with_reducible assumption)
    | fail_if_no_progress with_reducible apply C.toQuiet.update
    | with_reducible apply OnFst.mk

theorem State.applyPpr_pres (C : Quiet P) {s : State} (a1 : List ℕ) (a2 : List Bool) (h : P s) : P (State.applyPpr s a1 a2) := by
  unfold State.applyPpr
  try dsimp only
  repeat' first
    | with_reducible assumption
    | with_reducible apply State.recKey_pres C
    | with_reducible apply pres_ite
    | with_reducible apply pres_fold
    | with_reducible intro _
    | fail_if_no_progress with_reducible apply C.update

theorem State.startClaim_pres (C : Quiet P) {s : State} (a1 : ℕ) (a2 : DimmIn) (h : P s) : P (State.startClaim s a1 a2) := by
  unfold State.startClaim
  try dsimp only
  repeat' first
    | with_reducible assumption
    | with_reducible apply State.modChan_pres C
    | with_reducible apply State.claim_pres C
    | (with_reducible apply OnFst.fst; with_reducible apply State.claim_pres C)
    | with_reducible apply pres_ite
    | with_reducible intro _
    | with_reducible refine OnFst.eq ?_ (by with_reducible assumption)
    | fail_if_no_progress with_reducible apply C.update
    | with_reducible apply OnFst.mk

theorem State.startTrained_pres (C : Quiet P) {s : State} (a1 : DimmIn) (h : P s) : P (State.startTrained s a1) := by
  unfold State.startTrained
  try dsimp only
  repeat' first
    | with_reducible assumption
    | with_reducible apply State.modChan_pres C
    | with_reducible apply State.release_pres C
    | with_reducible apply State.chanFail_pres C
    | (with_reducible apply OnFst.fst; with_reducible apply State.chanFail_pres C)
    | with_reducible apply pres_ite
    | with_reducible intro _
    | with_reducible refine OnFst.eq ?_ (by with_reducible assumption)
    | fail_if_no_progress with_reducible apply C.update
    | with_reducible apply OnFst.mk

theorem State.startRounds_pres (C : Quiet P) {s : State} (a1 : ℕ) (a2 : ℕ) (a3 : List DimmIn) (h : P s) : P (State.startRounds s a1 a2 a3) := by
  induction a2 generalizing s a3 with
  | zero => unfold State.startRounds; exact h
  | succ k ih =>
    cases a3 with
    | nil => unfold State.startRounds; exact h
    | cons x l =>
      unfold State.startRounds
      try dsimp only
      repeat' first
        | with_reducible assumption
        | with_reducible apply ih
        | with_reducible apply State.startTrained_pres C
        | with_reducible apply State.startClaim_pres C
        | with_reducible apply pres_ite
        | with_reducible apply pres_fold
        | with_reducible intro _

theorem State.startModules_pres (C : Quiet P) {s : State} (a1 : List DimmIn) (a2 : List Bool) (h : P s) : P (State.startModules s a1 a2) := by
  unfold State.startModules
  try dsimp only
  repeat' first
    | with_reducible assumption
    | with_reducible apply State.recKey_pres C
    | with_reducible apply State.applyPpr_pres C
    | with_reducible apply State.modChan_pres C
    | with_reducible apply pres_ite
    | with_reducible apply pres_fold
    | with_reducible intro _
    | fail_if_no_progress with_reducible apply C.update
    | split

theorem State.startup5_pres (C : Quiet P) {s : State} (a1 : BitVec 64) (a2 : List DimmIn) (a3 : List Bool) (h : P s) : P (State.startup5 s a1 a2 a3) := by
  unfold State.startup5
  try dsimp only
  repeat' first
    | with_reducible assumption
    | with_reducible apply State.stepDone_pres C
    | with_reducible apply State.startRounds_pres C
    | with_reducible apply State.startModules_pres C
    | with_reducible apply pres_ite
    | with_reducible intro _

theorem State.buildMap_pres (C : Quiet P) {s : State}  (h : P s) : P (State.buildMap s) := by
  unfold State.buildMap
  try dsimp only
  repeat' first
    | with_reducible assumption
    | fail_if_no_progress with_reducible apply C.update

theorem State.copyImage_pres (C : Quiet P) {s : State} (a1 : BootImage) (h : P s) : P (State.copyImage s a1) := by
  unfold State.copyImage
  try dsimp only
  repeat' first
    | with_reducible assumption
    | with_reducible apply State.memPut_pres C
    | with_reducible apply pres_ite
    | with_reducible apply pres_fold
    | with_reducible intro _

theorem State.startup6_pres (C : Quiet P) {s : State} (a1 : BitVec 64) (a2 : List (Fin 24)) (h : P s) : P (State.startup6 s a1 a2) := by
  unfold State.startup6
  try dsimp only
  repeat' first
    | with_reducible assumption
    | (with_reducible apply OnFst.fst; with_reducible apply State.chanFail_pres C)
    | with_reducible apply State.modChan_pres C
    | with_reducible apply State.buildMap_pres C
    | with_reducible apply State.startStop_pres C
    | with_reducible apply State.copyImage_pres C
    | with_reducible apply State.stepDone_pres C
    | with_reducible refine C.mem _ [] ?_ (fun _ => rfl)
    | with_reducible apply pres_ite
    | with_reducible apply pres_fold
    | with_reducible intro _
    | split

theorem State.startCopies_pres (C : Quiet P) {s : State} (a1 : List (BitVec 16)) (h : P s) : P (State.startCopies s a1) := by
  unfold State.startCopies
  try dsimp only
  repeat' first
    | with_reducible assumption
    | with_reducible apply State.modStrait_pres C
    | with_reducible apply State.lhResync_pres C
    | with_reducible apply State.quarantine_pres C
    | with_reducible apply pres_ite
    | with_reducible apply pres_fold
    | with_reducible intro _
    | fail_if_no_progress with_reducible apply C.update

theorem State.installVault_pres (C : Loud P) {s : State}  (h : P s) : P (State.installVault s) := by
  unfold State.installVault
  try dsimp only
  repeat' first
    | with_reducible assumption
    | (have := ‹Thread.legal _ = true›; exact Thread.legal_congr this rfl rfl rfl rfl rfl rfl rfl rfl)
    | with_reducible apply State.modThread_pres C
    | with_reducible apply pres_fold
    | with_reducible intro _
    | fail_if_no_progress with_reducible apply C.toQuiet.update
    | split

theorem State.sendTable_pres (C : Quiet P) {s : State}  (h : P s) : P (State.sendTable s) := by
  unfold State.sendTable
  try dsimp only
  repeat' first
    | with_reducible assumption
    | fail_if_no_progress with_reducible apply C.update

theorem State.drawKeys_pres (C : Quiet P) {s : State} (a1 : List (BitVec 64)) (a2 : BitVec 64) (h : P s) : P (State.drawKeys s a1 a2) := by
  unfold State.drawKeys
  try dsimp only
  repeat' first
    | with_reducible assumption
    | fail_if_no_progress with_reducible apply C.update

theorem State.startup7_pres (C : Loud P) {s : State} (a1 : BitVec 64) (a2 : ℕ) (a3 : List (BitVec 64)) (a4 : BitVec 64) (a5 : List (BitVec 16)) (h : P s) : P (State.startup7 s a1 a2 a3 a4 a5) := by
  unfold State.startup7
  try dsimp only
  repeat' first
    | with_reducible assumption
    | with_reducible apply State.stepDone_pres C.toQuiet
    | with_reducible apply State.assignRings_pres C.toQuiet
    | with_reducible apply State.claim_pres C.toQuiet
    | (with_reducible apply OnFst.fst; with_reducible apply State.claim_pres C.toQuiet)
    | with_reducible apply State.sendTable_pres C.toQuiet
    | with_reducible apply State.installVault_pres C
    | with_reducible apply State.drawKeys_pres C.toQuiet
    | with_reducible apply State.startStop_pres C.toQuiet
    | with_reducible apply State.startCopies_pres C.toQuiet
    | with_reducible apply pres_ite
    | with_reducible apply pres_fold
    | (with_reducible apply OnFst.fst; with_reducible apply pres_fold)
    | with_reducible exact OnFst.fst (by with_reducible assumption)
    | with_reducible intro _
    | with_reducible refine OnFst.eq ?_ (by with_reducible assumption)
    | fail_if_no_progress with_reducible apply C.toQuiet.update
    | with_reducible apply OnFst.mk

theorem State.startup8_pres (C : Loud P) {s : State} (a1 : BitVec 64) (h : P s) : P (State.startup8 s a1) := by
  unfold State.startup8
  try dsimp only
  repeat' first
    | with_reducible assumption
    | with_reducible apply State.bootCore_pres C
    | with_reducible apply State.rampsEnd_pres C.toQuiet
    | with_reducible apply State.stepDone_pres C.toQuiet
    | with_reducible apply pres_fold
    | with_reducible intro _

theorem execStartupStep_pres (C : Loud P) {s : State} (a1 : StartIn) (h : P s) : OnNext P (execStartupStep a1 s) := by
  unfold execStartupStep
  try dsimp only
  repeat' first
    | with_reducible assumption
    | with_reducible apply State.startup1_pres C.toQuiet
    | with_reducible apply State.startup2_pres C.toQuiet
    | with_reducible apply State.startup3_pres C.toQuiet
    | with_reducible apply State.startup4_pres C
    | with_reducible apply State.startup5_pres C.toQuiet
    | with_reducible apply State.startup6_pres C.toQuiet
    | with_reducible apply State.startup7_pres C
    | with_reducible apply State.startup8_pres C
    | with_reducible apply pres_ite
    | with_reducible apply OnNext.mk
    | with_reducible intro _
    | split

theorem State.fresh_pres (C : Loud P) {s : State} (a1 : BitVec 3) (h : P s) : P (State.fresh s a1) :=
  C.of _ _ (C.mem _ [] (C.threads s h) fun _ => rfl) rfl rfl rfl rfl

theorem execPowerOn_pres (C : Loud P) {s : State} (a1 : BitVec 3) (a2 : Bool) (h : P s) : OnNext P (execPowerOn a1 a2 s) := by
  unfold execPowerOn
  try dsimp only
  repeat' first
    | with_reducible assumption
    | with_reducible apply State.fresh_pres C
    | with_reducible apply OnNext.mk
    | fail_if_no_progress with_reducible apply C.toQuiet.update

theorem execPkgResetAssert_pres (C : Quiet P) {s : State}  (h : P s) : OnNext P (execPkgResetAssert s) := by
  unfold execPkgResetAssert
  try dsimp only
  repeat' first
    | with_reducible assumption
    | with_reducible apply OnNext.mk
    | fail_if_no_progress with_reducible apply C.update

theorem State.packageReset_pres (C : Loud P) {s : State} (a1 : BitVec 3) (h : P s) : P (State.packageReset s a1) := by
  unfold State.packageReset
  try dsimp only
  repeat' first
    | with_reducible assumption
    | with_reducible apply State.fresh_pres C
    | with_reducible apply State.stepDone_pres C.toQuiet
    | with_reducible apply State.checkSlots_pres C.toQuiet
    | fail_if_no_progress with_reducible apply C.toQuiet.update

theorem execPkgResetRelease_pres (C : Loud P) {s : State} (a1 : BitVec 32) (a2 : BitVec 3) (h : P s) : OnNext P (execPkgResetRelease a1 a2 s) := by
  unfold execPkgResetRelease
  try dsimp only
  repeat' first
    | with_reducible assumption
    | with_reducible apply State.packageReset_pres C
    | with_reducible apply pres_ite
    | with_reducible apply OnNext.mk
    | with_reducible intro _
    | fail_if_no_progress with_reducible apply C.toQuiet.update

theorem State.unitsStop_pres (C : Loud P) {s : State}  (h : P s) : P (State.unitsStop s) :=
  C.of _ _ (C.mem _ [] (C.threads s h) fun _ => rfl) rfl rfl rfl rfl

theorem State.fatal_pres (C : Loud P) {s : State} (a1 : BitVec 8) (h : P s) : P (State.fatal s a1) := by
  unfold State.fatal
  try dsimp only
  repeat' first
    | with_reducible assumption
    | with_reducible apply State.unitsStop_pres C
    | fail_if_no_progress with_reducible apply C.toQuiet.update

theorem execRailOutOfRange_pres (C : Loud P) (a1 : Rail) {s : State} (h : P s) : OnNext P (execRailOutOfRange a1 s) := by
  unfold execRailOutOfRange
  try dsimp only
  repeat' first
    | with_reducible assumption
    | with_reducible apply State.fatal_pres C
    | with_reducible apply State.unitsStop_pres C
    | with_reducible apply State.detect_pres C.toQuiet
    | with_reducible apply State.modIsle_pres C.toQuiet
    | with_reducible apply pres_ite
    | with_reducible apply OnNext.mk
    | with_reducible intro _
    | fail_if_no_progress with_reducible apply C.toQuiet.update
    | split

theorem execRefclkLoss_pres (C : Loud P) {s : State}  (h : P s) : OnNext P (execRefclkLoss s) := by
  unfold execRefclkLoss
  try dsimp only
  repeat' first
    | with_reducible assumption
    | with_reducible apply State.fatal_pres C
    | with_reducible apply pres_ite
    | with_reducible apply OnNext.mk
    | with_reducible intro _

theorem execThermalTrip_pres (C : Loud P) (a1 : Fin 96) {s : State} (h : P s) : OnNext P (execThermalTrip a1 s) := by
  unfold execThermalTrip
  try dsimp only
  repeat' first
    | with_reducible assumption
    | with_reducible apply State.fatal_pres C
    | with_reducible apply pres_ite
    | with_reducible apply OnNext.mk
    | with_reducible intro _
    | fail_if_no_progress with_reducible apply C.toQuiet.update

theorem execPmbAlert_pres (C : Quiet P) {s : State} (a1 : Bool) (h : P s) : OnNext P (execPmbAlert a1 s) := by
  unfold execPmbAlert
  try dsimp only
  repeat' first
    | with_reducible assumption
    | with_reducible apply OnNext.mk
    | fail_if_no_progress with_reducible apply C.update

end Sys2Proof.Machine
end

