-- ==== Sys2Proof/Laws/KeepRegisters.lean ====
section
/-! SUPPORT. What the operations of Machine/Registers.lean keep. -/

namespace Sys2Proof.Machine

variable {P : State → Prop}

theorem View.refuse_pres (C : Quiet P) {s : State} (a1 : Resp) (h : P s) : OnView P (View.refuse s a1) := ⟨h, fun _ => h⟩

theorem View.reg_pres (C : Quiet P) {s : State} (a1 : W36) (a2 : ℕ) (a3 : W36 → Bool) (a4 : W36 → State) (h4 : ∀ x0, P (a4 x0)) (h : P s) : OnView P (View.reg s a1 a2 a3 a4) := by
  refine ⟨h, fun x => ?_⟩
  unfold View.reg
  exact pres_ite (fun _ => h) fun _ => h4 x

theorem View.op_pres (C : Quiet P) {s : State} (a1 : W36) (a2 : W36 → State × Resp) (h2 : ∀ x0, OnFst P (a2 x0)) (h : P s) : OnView P (View.op s a1 a2) := ⟨h, h2⟩

theorem View.ro_pres (C : Quiet P) {s : State} (a1 : W36) (a2 : ℕ) (h : P s) : OnView P (View.ro s a1 a2) := by
  unfold View.ro
  try dsimp only
  repeat' first
    | with_reducible assumption
    | with_reducible apply View.reg_pres C
    | with_reducible intro _
    | (fail_if_no_progress with_reducible apply OnView.mk)

theorem View.hole_pres (C : Quiet P) {s : State}  (h : P s) : OnView P (View.hole s) := by
  unfold View.hole
  try dsimp only
  repeat' first
    | with_reducible assumption
    | with_reducible apply View.ro_pres C
    | (fail_if_no_progress with_reducible apply OnView.mk)

theorem View.noWrite_pres (C : Quiet P) {s : State} (a1 : View) (a2 : Bool) (h1 : OnView P a1) (h : P s) : OnView P (View.noWrite a1 s a2) := by
  unfold View.noWrite
  refine pres_ite (fun _ => ⟨h1.1, fun v => ?_⟩) fun _ => h1
  exact pres_ite (fun _ => h1.2 v) fun _ => h

theorem View.gate_pres (C : Quiet P) {s : State} (a1 : View) (a2 : Resp) (h1 : OnView P a1) (h : P s) : OnView P (View.gate a1 s a2) := by
  unfold View.gate
  split
  · exact h1
  · refine ⟨?_, fun v => State.answered_pres C _ _ (h1.2 v) h⟩
    split
    · exact h1.1
    · exact h1.1
    · exact h

theorem State.statView_pres (C : Quiet P) {s : State} (a1 : PUnit) (h : P s) : OnView P (State.statView s a1) := by
  unfold State.statView
  try dsimp only
  repeat' first
    | with_reducible assumption
    | with_reducible apply View.ro_pres C
    | (fail_if_no_progress with_reducible apply OnView.mk)

theorem State.isleStr_pres (C : Quiet P) {s : State} (a1 : ℕ) (a2 : ℕ) (h : P s) : OnView P (State.isleStr s a1 a2) := by
  unfold State.isleStr
  try dsimp only
  repeat' first
    | with_reducible assumption
    | with_reducible apply View.ro_pres C
    | with_reducible apply View.hole_pres C
    | split
    | (fail_if_no_progress with_reducible apply OnView.mk)

theorem State.trwSlotView_pres (C : Quiet P) {s : State} (a1 : Who) (a2 : ℕ) (a3 : Fin 8) (a4 : ℕ) (h : P s) : OnView P (State.trwSlotView s a1 a2 a3 a4) := by
  unfold State.trwSlotView
  try dsimp only
  repeat' first
    | with_reducible assumption
    | with_reducible apply View.op_pres C
    | with_reducible apply State.trwField_pres C
    | with_reducible apply State.trwCmd_pres C
    | with_reducible apply View.ro_pres C
    | with_reducible apply View.hole_pres C
    | with_reducible intro _
    | split
    | (fail_if_no_progress with_reducible apply OnView.mk)

theorem State.isleTrw_pres (C : Quiet P) {s : State} (a1 : Who) (a2 : ℕ) (a3 : ℕ) (h : P s) : OnView P (State.isleTrw s a1 a2 a3) := by
  unfold State.isleTrw
  try dsimp only
  repeat' first
    | with_reducible assumption
    | with_reducible apply View.ro_pres C
    | (with_reducible apply OnFst.fst; with_reducible apply State.trwClaim_pres C)
    | with_reducible apply State.trwSlotView_pres C
    | with_reducible apply View.hole_pres C
    | with_reducible apply pres_ite
    | with_reducible intro _
    | with_reducible apply OnView.wr
    | (fail_if_no_progress with_reducible apply OnView.mk)
    | with_reducible apply OnFst.mk

theorem State.isleCis_pres (C : Quiet P) {s : State} (a1 : Who) (a2 : ℕ) (a3 : ℕ) (h : P s) : OnView P (State.isleCis s a1 a2 a3) := by
  unfold State.isleCis
  try dsimp only
  repeat' first
    | with_reducible assumption
    | with_reducible apply View.op_pres C
    | with_reducible apply State.wayctl_pres C
    | with_reducible apply State.cachectl_pres C
    | with_reducible apply View.reg_pres C
    | with_reducible apply State.modIsle_pres C
    | with_reducible apply View.ro_pres C
    | with_reducible apply View.hole_pres C
    | with_reducible intro _
    | split
    | (fail_if_no_progress with_reducible apply OnView.mk)

theorem State.corePwr_pres (C : Quiet P) {s : State} (a1 : Who) (a2 : ℕ) (a3 : ℕ) (a4 : ℕ) (h : P s) : OnView P (State.corePwr s a1 a2 a3 a4) := by
  unfold State.corePwr
  try dsimp only
  repeat' first
    | with_reducible assumption
    | with_reducible apply View.op_pres C
    | with_reducible apply State.corectl_pres C
    | with_reducible apply State.statView_pres C
    | with_reducible apply View.hole_pres C
    | with_reducible intro _
    | split
    | (fail_if_no_progress with_reducible apply OnView.mk)

theorem State.islePwr_pres (C : Quiet P) {s : State} (a1 : Who) (a2 : ℕ) (a3 : ℕ) (h : P s) : OnView P (State.islePwr s a1 a2 a3) := by
  unfold State.islePwr
  try dsimp only
  repeat' first
    | with_reducible assumption
    | with_reducible apply View.reg_pres C
    | with_reducible apply State.modIsle_pres C
    | with_reducible apply View.ro_pres C
    | with_reducible apply State.corePwr_pres C
    | with_reducible apply View.hole_pres C
    | with_reducible apply pres_ite
    | with_reducible intro _
    | (fail_if_no_progress with_reducible apply OnView.mk)

theorem State.sndView_pres (C : Quiet P) {s : State} (a1 : Who) (a2 : SndUnit) (a3 : ℕ) (a4 : ℕ) (h : P s) : OnView P (State.sndView s a1 a2 a3 a4) := by
  unfold State.sndView
  try dsimp only
  repeat' first
    | with_reducible assumption
    | with_reducible apply View.op_pres C
    | with_reducible apply State.uselWrite_pres C
    | with_reducible apply State.uloRead_pres C
    | with_reducible apply State.uloWrite_pres C
    | with_reducible apply View.ro_pres C
    | with_reducible apply View.hole_pres C
    | with_reducible apply View.refuse_pres C
    | with_reducible apply pres_ite
    | with_reducible intro _
    | split
    | (fail_if_no_progress with_reducible apply OnView.mk)

theorem State.sndBlock_pres (C : Quiet P) {s : State} (a1 : Who) (a2 : SndUnit) (a3 : ℕ) (h : P s) : OnView P (State.sndBlock s a1 a2 a3) := by
  unfold State.sndBlock
  try dsimp only
  repeat' first
    | with_reducible assumption
    | with_reducible apply State.sndView_pres C
    | with_reducible apply View.hole_pres C
    | with_reducible apply pres_ite
    | with_reducible intro _
    | (fail_if_no_progress with_reducible apply OnView.mk)

theorem State.isleWld_pres (C : Quiet P) {s : State} (a1 : Who) (a2 : ℕ) (a3 : ℕ) (h : P s) : OnView P (State.isleWld s a1 a2 a3) := by
  unfold State.isleWld
  try dsimp only
  repeat' first
    | with_reducible assumption
    | with_reducible apply View.noWrite_pres C
    | with_reducible apply View.ro_pres C
    | with_reducible apply View.hole_pres C
    | split
    | (fail_if_no_progress with_reducible apply OnView.mk)

theorem State.isleView_pres (C : Quiet P) {s : State} (a1 : Who) (a2 : ℕ) (a3 : ℕ) (h : P s) : OnView P (State.isleView s a1 a2 a3) := by
  unfold State.isleView
  try dsimp only
  repeat' first
    | with_reducible assumption
    | with_reducible apply State.isleStr_pres C
    | with_reducible apply State.isleTrw_pres C
    | with_reducible apply State.isleCis_pres C
    | with_reducible apply State.islePwr_pres C
    | with_reducible apply State.sndBlock_pres C
    | with_reducible apply State.isleWld_pres C
    | with_reducible apply View.hole_pres C
    | split
    | (fail_if_no_progress with_reducible apply OnView.mk)

end Sys2Proof.Machine
end

