-- ==== Sys2Proof/Laws/KeepKeystone.lean ====
section
/-! SUPPORT. What the operations of Machine/Keystone.lean keep. -/

namespace Sys2Proof.Machine

variable {P : State → Prop}

theorem State.boxView_pres (C : Quiet P) {s : State} (a1 : Who) (a2 : ℕ) (a3 : ℕ) (h : P s) : OnView P (State.boxView s a1 a2 a3) := by
  unfold State.boxView
  try dsimp only
  repeat' first
    | with_reducible assumption
    | with_reducible apply View.refuse_pres C
    | with_reducible apply View.op_pres C
    | with_reducible apply State.mbbuf_pres C
    | with_reducible apply View.reg_pres C
    | with_reducible apply State.modBox_pres C
    | with_reducible apply State.mbint_pres C
    | with_reducible apply View.hole_pres C
    | with_reducible apply pres_ite
    | with_reducible intro _
    | (fail_if_no_progress with_reducible apply OnView.mk)

theorem State.umfView_pres (C : Quiet P) {s : State} (a1 : Who) (a2 : ℕ) (h : P s) : OnView P (State.umfView s a1 a2) := by
  unfold State.umfView
  try dsimp only
  repeat' first
    | with_reducible assumption
    | with_reducible apply View.ro_pres C
    | with_reducible apply State.boxView_pres C
    | with_reducible apply View.hole_pres C
    | with_reducible apply pres_ite
    | with_reducible intro _
    | (fail_if_no_progress with_reducible apply OnView.mk)

theorem State.evrView_pres (C : Quiet P) {s : State} (a1 : Who) (a2 : ℕ) (h : P s) : OnView P (State.evrView s a1 a2) := by
  unfold State.evrView
  try dsimp only
  repeat' first
    | with_reducible assumption
    | with_reducible apply View.ro_pres C
    | with_reducible apply View.reg_pres C
    | (with_reducible apply OnFst.fst; with_reducible apply State.windowRead_pres C)
    | with_reducible apply View.hole_pres C
    | with_reducible apply pres_ite
    | with_reducible intro _
    | fail_if_no_progress with_reducible apply C.update
    | with_reducible apply OnView.wr
    | (fail_if_no_progress with_reducible apply OnView.mk)
    | with_reducible apply OnFst.mk

theorem State.sliceView_pres (C : Quiet P) {s : State} (a1 : ℕ) (a2 : ℕ) (h : P s) : OnView P (State.sliceView s a1 a2) := by
  unfold State.sliceView
  try dsimp only
  repeat' first
    | with_reducible assumption
    | with_reducible apply View.refuse_pres C
    | with_reducible apply View.ro_pres C
    | with_reducible apply View.hole_pres C
    | with_reducible apply pres_ite
    | with_reducible intro _
    | split
    | (fail_if_no_progress with_reducible apply OnView.mk)

theorem State.dirView_pres (C : Quiet P) {s : State} (a1 : ℕ) (h : P s) : OnView P (State.dirView s a1) := by
  unfold State.dirView
  try dsimp only
  repeat' first
    | with_reducible assumption
    | with_reducible apply View.ro_pres C
    | with_reducible apply State.sliceView_pres C
    | with_reducible apply View.hole_pres C
    | with_reducible apply pres_ite
    | with_reducible intro _
    | (fail_if_no_progress with_reducible apply OnView.mk)

theorem State.memSetView_pres (C : Quiet P) {s : State} (a1 : ℕ) (a2 : ℕ) (h : P s) : OnView P (State.memSetView s a1 a2) := by
  unfold State.memSetView
  try dsimp only
  repeat' first
    | with_reducible assumption
    | with_reducible apply View.ro_pres C
    | with_reducible apply View.hole_pres C
    | split
    | (fail_if_no_progress with_reducible apply OnView.mk)

theorem State.chanErrView_pres (C : Quiet P) {s : State} (a1 : ℕ) (a2 : ℕ) (h : P s) : OnView P (State.chanErrView s a1 a2) := by
  unfold State.chanErrView
  try dsimp only
  repeat' first
    | with_reducible assumption
    | with_reducible apply View.ro_pres C
    | with_reducible apply View.reg_pres C
    | with_reducible apply State.modChan_pres C
    | with_reducible apply View.hole_pres C
    | with_reducible intro _
    | split
    | (fail_if_no_progress with_reducible apply OnView.mk)

theorem State.chanView_pres (C : Quiet P) {s : State} (a1 : ℕ) (a2 : ℕ) (h : P s) : OnView P (State.chanView s a1 a2) := by
  unfold State.chanView
  try dsimp only
  repeat' first
    | with_reducible assumption
    | with_reducible apply View.refuse_pres C
    | with_reducible apply State.chanErrView_pres C
    | with_reducible apply View.ro_pres C
    | with_reducible apply View.reg_pres C
    | with_reducible apply State.modChan_pres C
    | with_reducible apply View.hole_pres C
    | with_reducible apply pres_ite
    | with_reducible intro _
    | split
    | (fail_if_no_progress with_reducible apply OnView.mk)

theorem State.mcView_pres (C : Quiet P) {s : State} (a1 : ℕ) (h : P s) : OnView P (State.mcView s a1) := by
  unfold State.mcView
  try dsimp only
  repeat' first
    | with_reducible assumption
    | with_reducible apply View.ro_pres C
    | with_reducible apply State.memSetView_pres C
    | with_reducible apply State.chanView_pres C
    | with_reducible apply View.hole_pres C
    | with_reducible apply pres_ite
    | with_reducible intro _
    | (fail_if_no_progress with_reducible apply OnView.mk)

theorem State.setOwin_pres (C : Quiet P) {s : State} (a1 : OWin) (h : P s) : P (State.setOwin s a1) := by
  unfold State.setOwin
  try dsimp only
  repeat' first
    | with_reducible assumption
    | fail_if_no_progress with_reducible apply C.update

theorem State.owinCtl_pres (C : Quiet P) {s : State} (a1 : Who) (a2 : OWin) (a3 : W36) (h : P s) : OnFst P (State.owinCtl s a1 a2 a3) := by
  unfold State.owinCtl
  try dsimp only
  repeat' first
    | with_reducible assumption
    | with_reducible apply State.setOwin_pres C
    | with_reducible apply pres_ite
    | with_reducible exact OnFst.get (by with_reducible assumption)
    | with_reducible intro _
    | with_reducible refine OnFst.eq ?_ (by with_reducible assumption)
    | fail_if_no_progress with_reducible apply C.update
    | split
    | with_reducible apply OnFst.mk

theorem State.owinField_pres (C : Quiet P) {s : State} (a1 : Who) (a2 : OWin) (a3 : W36) (a4 : ℕ) (a5 : W36 → OWin) (h : P s) : OnView P (State.owinField s a1 a2 a3 a4 a5) := by
  unfold State.owinField
  try dsimp only
  repeat' first
    | with_reducible assumption
    | with_reducible apply View.noWrite_pres C
    | with_reducible apply View.reg_pres C
    | with_reducible apply State.setOwin_pres C
    | with_reducible apply pres_ite
    | with_reducible intro _
    | (fail_if_no_progress with_reducible apply OnView.mk)

theorem State.owinView_pres (C : Quiet P) {s : State} (a1 : Who) (a2 : ℕ) (h : P s) : OnView P (State.owinView s a1 a2) := by
  unfold State.owinView
  try dsimp only
  repeat' first
    | with_reducible assumption
    | with_reducible apply View.reg_pres C
    | with_reducible apply View.op_pres C
    | with_reducible apply State.owinCtl_pres C
    | with_reducible apply State.owinField_pres C
    | with_reducible apply View.hole_pres C
    | with_reducible intro _
    | fail_if_no_progress with_reducible apply C.update
    | split
    | (fail_if_no_progress with_reducible apply OnView.mk)

theorem State.blkcfgView_pres (C : Quiet P) {s : State} (a1 : ℕ) (a2 : ℕ) (h : P s) : OnView P (State.blkcfgView s a1 a2) := by
  unfold State.blkcfgView
  try dsimp only
  repeat' first
    | with_reducible assumption
    | with_reducible apply View.hole_pres C
    | with_reducible apply View.ro_pres C
    | with_reducible apply pres_ite
    | with_reducible apply OnSomeView.mk
    | with_reducible exact OnSomeView.none
    | with_reducible intro _
    | split
    | with_reducible apply OnView.mk

theorem State.setWin_pres (C : Quiet P) {s : State} (a1 : ℕ) (a2 : Win → Win) (h : P s) : P (State.setWin s a1 a2) := by
  unfold State.setWin
  try dsimp only
  repeat' first
    | with_reducible assumption
    | with_reducible apply State.modPort_pres C

theorem State.winCtl_pres (C : Quiet P) {s : State} (a1 : Who) (a2 : ℕ) (a3 : Win) (h : P s) : OnView P (State.winCtl s a1 a2 a3) := by
  unfold State.winCtl
  try dsimp only
  repeat' first
    | with_reducible assumption
    | with_reducible apply View.reg_pres C
    | with_reducible apply State.setWin_pres C
    | with_reducible apply pres_ite
    | with_reducible intro _
    | (fail_if_no_progress with_reducible apply OnView.mk)

theorem State.winField_pres (C : Quiet P) {s : State} (a1 : Who) (a2 : ℕ) (a3 : Win) (a4 : W36) (a5 : ℕ) (a6 : W36 → Win) (h : P s) : OnView P (State.winField s a1 a2 a3 a4 a5 a6) := by
  unfold State.winField
  try dsimp only
  repeat' first
    | with_reducible assumption
    | with_reducible apply State.setWin_pres C
    | with_reducible apply View.reg_pres C
    | with_reducible apply pres_ite
    | with_reducible apply OnSomeView.mk
    | with_reducible exact OnSomeView.none
    | with_reducible intro _
    | split
    | with_reducible apply OnView.mk

theorem State.winView_pres (C : Quiet P) {s : State} (a1 : Who) (a2 : ℕ) (a3 : ℕ) (h : P s) : OnView P (State.winView s a1 a2 a3) := by
  unfold State.winView
  try dsimp only
  repeat' first
    | with_reducible assumption
    | with_reducible apply View.reg_pres C
    | with_reducible apply State.modPort_pres C
    | with_reducible apply State.winCtl_pres C
    | with_reducible apply State.winField_pres C
    | with_reducible apply View.hole_pres C
    | with_reducible intro _
    | split
    | (fail_if_no_progress with_reducible apply OnView.mk)

theorem State.setRole_pres (C : Quiet P) {s : State} (a1 : ℕ) (a2 : BitVec 2) (a3 : Bool) (h : P s) : P (State.setRole s a1 a2 a3) := by
  unfold State.setRole
  try dsimp only
  repeat' first
    | with_reducible assumption
    | with_reducible apply State.modPort_pres C
    | with_reducible apply pres_ite
    | with_reducible intro _
    | fail_if_no_progress with_reducible apply C.update

theorem State.portCtl_pres (C : Quiet P) {s : State} (a1 : Who) (a2 : ℕ) (h : P s) : OnView P (State.portCtl s a1 a2) := by
  unfold State.portCtl
  try dsimp only
  repeat' first
    | with_reducible assumption
    | with_reducible apply State.modPort_pres C
    | with_reducible apply State.setRole_pres C
    | with_reducible apply View.reg_pres C
    | with_reducible apply pres_ite
    | with_reducible apply OnSomeView.mk
    | with_reducible exact OnSomeView.none
    | with_reducible intro _
    | fail_if_no_progress with_reducible apply C.update
    | split
    | with_reducible apply OnView.mk

theorem State.portView_pres (C : Quiet P) {s : State} (a1 : Who) (a2 : ℕ) (a3 : ℕ) (h : P s) : OnView P (State.portView s a1 a2 a3) := by
  unfold State.portView
  try dsimp only
  repeat' first
    | with_reducible assumption
    | with_reducible apply View.noWrite_pres C
    | with_reducible apply View.refuse_pres C
    | with_reducible apply View.hole_pres C
    | with_reducible apply State.winView_pres C
    | with_reducible apply View.ro_pres C
    | with_reducible apply State.modPort_pres C
    | with_reducible apply View.reg_pres C
    | with_reducible apply State.portCtl_pres C
    | with_reducible apply pres_ite
    | with_reducible apply OnSomeView.mk
    | with_reducible exact OnSomeView.none
    | with_reducible intro _
    | fail_if_no_progress with_reducible apply C.update
    | split
    | with_reducible apply OnView.mk

theorem State.prtView_pres (C : Quiet P) {s : State} (a1 : Who) (a2 : ℕ) (h : P s) : OnView P (State.prtView s a1 a2) := by
  unfold State.prtView
  try dsimp only
  repeat' first
    | with_reducible assumption
    | with_reducible apply View.hole_pres C
    | with_reducible apply State.portView_pres C
    | with_reducible apply State.blkcfgView_pres C
    | with_reducible apply State.owinView_pres C
    | with_reducible apply pres_ite
    | with_reducible apply OnView.mk
    | with_reducible apply OnSomeView.mk
    | with_reducible exact OnSomeView.none
    | with_reducible intro _

theorem State.engView_pres (C : Quiet P) {s : State} (a1 : Who) (a2 : ℕ) (h : P s) : OnView P (State.engView s a1 a2) := by
  unfold State.engView
  try dsimp only
  repeat' first
    | with_reducible assumption
    | with_reducible apply View.refuse_pres C
    | with_reducible apply View.noWrite_pres C
    | with_reducible apply View.reg_pres C
    | with_reducible apply State.modEngine_pres C
    | with_reducible apply pres_ite
    | with_reducible intro _
    | (fail_if_no_progress with_reducible apply OnView.mk)

theorem State.ringField_pres (C : Quiet P) {s : State} (a1 : ℕ) (a2 : RingR) (a3 : W36) (a4 : ℕ) (a5 : W36 → Bool) (a6 : W36 → RingR) (h : P s) : OnView P (State.ringField s a1 a2 a3 a4 a5 a6) := by
  unfold State.ringField
  try dsimp only
  repeat' first
    | with_reducible assumption
    | with_reducible apply State.setRing_pres C
    | with_reducible apply View.reg_pres C
    | with_reducible apply pres_ite
    | with_reducible apply OnView.mk
    | with_reducible apply OnSomeView.mk
    | with_reducible exact OnSomeView.none
    | with_reducible intro _

theorem State.ringView_pres (C : Quiet P) {s : State} (a1 : Who) (a2 : ℕ) (a3 : ℕ) (h : P s) : OnView P (State.ringView s a1 a2 a3) := by
  unfold State.ringView
  try dsimp only
  repeat' first
    | with_reducible assumption
    | with_reducible apply View.op_pres C
    | with_reducible apply State.rctlWrite_pres C
    | with_reducible apply State.ringField_pres C
    | with_reducible apply View.ro_pres C
    | with_reducible apply View.hole_pres C
    | with_reducible apply View.refuse_pres C
    | with_reducible apply pres_ite
    | with_reducible intro _
    | split
    | (fail_if_no_progress with_reducible apply OnView.mk)

theorem State.hbrView_pres (C : Quiet P) {s : State} (a1 : Who) (a2 : ℕ) (h : P s) : OnView P (State.hbrView s a1 a2) := by
  unfold State.hbrView
  try dsimp only
  repeat' first
    | with_reducible assumption
    | with_reducible apply View.ro_pres C
    | with_reducible apply State.engView_pres C
    | with_reducible apply State.ringView_pres C
    | with_reducible apply View.op_pres C
    | with_reducible apply State.doorbell_pres C
    | with_reducible apply View.hole_pres C
    | with_reducible apply pres_ite
    | with_reducible intro _
    | (fail_if_no_progress with_reducible apply OnView.mk)

theorem State.lhView_pres (C : Quiet P) {s : State} (a1 : Who) (a2 : ℕ) (h : P s) : OnView P (State.lhView s a1 a2) := by
  unfold State.lhView
  try dsimp only
  repeat' first
    | with_reducible assumption
    | with_reducible apply View.noWrite_pres C
    | with_reducible apply View.reg_pres C
    | with_reducible apply View.op_pres C
    | with_reducible apply State.lhCtlWrite_pres C
    | with_reducible apply View.ro_pres C
    | with_reducible apply State.lhCmd_pres C
    | with_reducible apply State.lhSlewWrite_pres C
    | with_reducible apply View.hole_pres C
    | with_reducible intro _
    | fail_if_no_progress with_reducible apply C.update
    | split
    | (fail_if_no_progress with_reducible apply OnView.mk)

theorem State.brgView_pres (C : Quiet P) {s : State} (a1 : Who) (a2 : ℕ) (h : P s) : OnView P (State.brgView s a1 a2) := by
  unfold State.brgView
  try dsimp only
  repeat' first
    | with_reducible assumption
    | with_reducible apply View.reg_pres C
    | with_reducible apply View.ro_pres C
    | with_reducible apply View.hole_pres C
    | with_reducible apply pres_ite
    | with_reducible intro _
    | fail_if_no_progress with_reducible apply C.update
    | split
    | (fail_if_no_progress with_reducible apply OnView.mk)

theorem State.pwrUnit_pres (C : Quiet P) {s : State} (a1 : Who) (a2 : ℕ) (h : P s) : OnView P (State.pwrUnit s a1 a2) := by
  unfold State.pwrUnit
  try dsimp only
  repeat' first
    | with_reducible assumption
    | with_reducible apply View.refuse_pres C
    | with_reducible apply View.op_pres C
    | with_reducible apply State.islectl_pres C
    | with_reducible apply State.statView_pres C
    | with_reducible apply View.hole_pres C
    | with_reducible apply State.blkctl_pres C
    | with_reducible apply pres_ite
    | with_reducible intro _
    | split
    | (fail_if_no_progress with_reducible apply OnView.mk)

theorem State.pwrView_pres (C : Quiet P) {s : State} (a1 : Who) (a2 : ℕ) (h : P s) : OnView P (State.pwrView s a1 a2) := by
  unfold State.pwrView
  try dsimp only
  repeat' first
    | with_reducible assumption
    | with_reducible apply View.op_pres C
    | with_reducible apply State.pkgctl_pres C
    | with_reducible apply State.statView_pres C
    | with_reducible apply View.reg_pres C
    | with_reducible apply View.ro_pres C
    | with_reducible apply State.pwrUnit_pres C
    | with_reducible intro _
    | fail_if_no_progress with_reducible apply C.update
    | split
    | (fail_if_no_progress with_reducible apply OnView.mk)

theorem State.hoctl_pres (C : Quiet P) {s : State} (a1 : Who) (a2 : W36) (h : P s) : OnFst P (State.hoctl s a1 a2) := by
  unfold State.hoctl
  try dsimp only
  repeat' first
    | with_reducible assumption
    | with_reducible apply State.hoStart_pres C
    | with_reducible apply pres_ite
    | with_reducible exact OnFst.get (by with_reducible assumption)
    | with_reducible intro _
    | with_reducible refine OnFst.eq ?_ (by with_reducible assumption)
    | fail_if_no_progress with_reducible apply C.update
    | split
    | with_reducible apply OnFst.mk

theorem State.rgnField_pres (C : Quiet P) {s : State} (a1 : W36) (a2 : ℕ) (a3 : Region → W36 → Region) (h : P s) : OnView P (State.rgnField s a1 a2 a3) := by
  unfold State.rgnField
  try dsimp only
  repeat' first
    | with_reducible assumption
    | with_reducible apply View.reg_pres C
    | with_reducible apply State.setRegion_pres C
    | with_reducible apply pres_ite
    | with_reducible intro _
    | (fail_if_no_progress with_reducible apply OnView.mk)

theorem State.portownView_pres (C : Quiet P) {s : State} (a1 : ℕ) (h : P s) : OnView P (State.portownView s a1) := by
  unfold State.portownView
  try dsimp only
  repeat' first
    | with_reducible assumption
    | with_reducible apply View.ro_pres C
    | (fail_if_no_progress with_reducible apply OnView.mk)

theorem State.wldReg_pres (C : Quiet P) {s : State} (a1 : Who) (a2 : ℕ) (h : P s) : OnSomeView P (State.wldReg s a1 a2) := by
  unfold State.wldReg
  try dsimp only
  repeat' first
    | with_reducible assumption
    | with_reducible apply View.reg_pres C
    | with_reducible apply View.op_pres C
    | with_reducible apply State.rgnctl_pres C
    | with_reducible apply State.rgnField_pres C
    | with_reducible apply State.portownView_pres C
    | with_reducible apply View.ro_pres C
    | with_reducible apply State.hoctl_pres C
    | with_reducible apply pres_ite
    | with_reducible apply OnSomeView.mk
    | with_reducible exact OnSomeView.none
    | with_reducible intro _
    | fail_if_no_progress with_reducible apply C.update
    | split
    | (fail_if_no_progress with_reducible apply OnView.mk)

theorem State.wldView_pres (C : Quiet P) {s : State} (a1 : Who) (a2 : ℕ) (h : P s) : OnView P (State.wldView s a1 a2) := by
  unfold State.wldView
  try dsimp only
  repeat' first
    | with_reducible assumption
    | with_reducible apply State.wldReg_pres C
    | with_reducible apply View.noWrite_pres C
    | with_reducible apply View.hole_pres C
    | with_reducible refine OnSomeView.eq ?_ (by with_reducible assumption)
    | split
    | (fail_if_no_progress with_reducible apply OnView.mk)

theorem State.setGWin_pres (C : Quiet P) {s : State} (a1 : ℕ) (a2 : ℕ) (a3 : GWin → GWin) (h : P s) : P (State.setGWin s a1 a2 a3) := by
  unfold State.setGWin
  try dsimp only
  repeat' first
    | with_reducible assumption
    | with_reducible apply State.modSite_pres C

theorem State.gwinView_pres (C : Quiet P) {s : State} (a1 : ℕ) (a2 : ℕ) (a3 : ℕ) (h : P s) : OnView P (State.gwinView s a1 a2 a3) := by
  unfold State.gwinView
  try dsimp only
  repeat' first
    | with_reducible assumption
    | with_reducible apply View.reg_pres C
    | with_reducible apply State.setGWin_pres C
    | with_reducible apply View.hole_pres C
    | with_reducible apply pres_ite
    | with_reducible intro _
    | split
    | (fail_if_no_progress with_reducible apply OnView.mk)

theorem State.siteView_pres (C : Quiet P) {s : State} (a1 : Who) (a2 : ℕ) (a3 : ℕ) (h : P s) : OnView P (State.siteView s a1 a2 a3) := by
  unfold State.siteView
  try dsimp only
  repeat' first
    | with_reducible assumption
    | with_reducible apply View.noWrite_pres C
    | with_reducible apply View.refuse_pres C
    | with_reducible apply View.hole_pres C
    | with_reducible apply State.gwinView_pres C
    | with_reducible apply View.ro_pres C
    | with_reducible apply State.modSite_pres C
    | with_reducible apply View.reg_pres C
    | with_reducible apply pres_ite
    | with_reducible apply OnSomeView.mk
    | with_reducible exact OnSomeView.none
    | with_reducible intro _
    | fail_if_no_progress with_reducible apply C.update
    | split
    | with_reducible apply OnView.mk

theorem State.gthView_pres (C : Quiet P) {s : State} (a1 : Who) (a2 : ℕ) (h : P s) : OnView P (State.gthView s a1 a2) := by
  unfold State.gthView
  try dsimp only
  repeat' first
    | with_reducible assumption
    | with_reducible apply State.siteView_pres C
    | with_reducible apply View.hole_pres C
    | with_reducible apply pres_ite
    | with_reducible intro _
    | (fail_if_no_progress with_reducible apply OnView.mk)

theorem State.straitView_pres (C : Quiet P) {s : State} (a1 : ℕ) (a2 : ℕ) (h : P s) : OnView P (State.straitView s a1 a2) := by
  unfold State.straitView
  try dsimp only
  repeat' first
    | with_reducible assumption
    | with_reducible apply View.refuse_pres C
    | with_reducible apply View.ro_pres C
    | with_reducible apply View.reg_pres C
    | with_reducible apply State.modStrait_pres C
    | with_reducible apply View.op_pres C
    | with_reducible apply State.recalctl_pres C
    | with_reducible apply View.hole_pres C
    | with_reducible apply pres_ite
    | with_reducible intro _
    | split
    | (fail_if_no_progress with_reducible apply OnView.mk)

theorem State.strView_pres (C : Quiet P) {s : State} (a1 : Who) (a2 : ℕ) (h : P s) : OnView P (State.strView s a1 a2) := by
  unfold State.strView
  try dsimp only
  repeat' first
    | with_reducible assumption
    | with_reducible apply View.reg_pres C
    | with_reducible apply State.straitView_pres C
    | with_reducible apply View.hole_pres C
    | with_reducible apply pres_ite
    | with_reducible intro _
    | fail_if_no_progress with_reducible apply C.update
    | (fail_if_no_progress with_reducible apply OnView.mk)

theorem State.keyView_pres (C : Quiet P) {s : State} (a1 : Who) (a2 : ℕ) (h : P s) : OnView P (State.keyView s a1 a2) := by
  unfold State.keyView
  try dsimp only
  repeat' first
    | with_reducible assumption
    | with_reducible apply State.umfView_pres C
    | with_reducible apply State.evrView_pres C
    | with_reducible apply State.dirView_pres C
    | with_reducible apply State.mcView_pres C
    | with_reducible apply State.prtView_pres C
    | with_reducible apply State.hbrView_pres C
    | with_reducible apply State.lhView_pres C
    | with_reducible apply State.brgView_pres C
    | with_reducible apply State.pwrView_pres C
    | with_reducible apply State.wldView_pres C
    | with_reducible apply State.gthView_pres C
    | with_reducible apply State.strView_pres C
    | with_reducible apply State.sndBlock_pres C
    | with_reducible apply View.hole_pres C
    | split
    | (fail_if_no_progress with_reducible apply OnView.mk)

theorem State.keyGate_pres (C : Quiet P) {s : State} (a1 : Who) (a2 : ℕ) (h : P s) : OnFst P (State.keyGate s a1 a2) := by
  unfold State.keyGate
  try dsimp only
  repeat' first
    | with_reducible assumption
    | with_reducible apply State.blockGate_pres C
    | with_reducible apply pres_ite
    | with_reducible intro _
    | split
    | with_reducible apply OnFst.mk

theorem State.csView_pres (C : Quiet P) {s : State} (a1 : Who) (a2 : ℕ) (h : P s) : OnCs P (State.csView s a1 a2) := by
  unfold State.csView
  dsimp only
  refine pres_ite (fun _ => ⟨h, fun v e => by cases e⟩) fun _ => ?_
  split
  · exact ⟨h, fun v e => by cases e; exact View.refuse_pres C _ h⟩
  · exact ⟨h, fun v e => by cases e; exact View.refuse_pres C _ h⟩
  · refine pres_ite (fun _ => ⟨h, fun v e => by cases e; exact View.refuse_pres C _ h⟩) fun _ => ?_
    rename_i n _ _
    have k : P (State.isleGate s a1 n).1 := State.isleGate_pres C a1 n h
    split
    · have ku := State.trwTook_pres C n.val a1 k
      refine ⟨ku, fun v e => ?_⟩
      obtain ⟨r, -, rfl⟩ := Option.map_eq_some_iff.mp e
      exact View.gate_pres C _ _ (State.isleView_pres C _ _ _ ku) ku
    · refine ⟨k, fun v e => ?_⟩
      obtain ⟨r, -, rfl⟩ := Option.map_eq_some_iff.mp e
      exact View.gate_pres C _ _ (State.isleView_pres C _ _ _ k) k
  · refine ⟨State.keyGate_pres C a1 _ h, fun v e => ?_⟩
    obtain ⟨r, -, rfl⟩ := Option.map_eq_some_iff.mp e
    exact View.gate_pres C _ _ (State.keyView_pres C _ _ (State.keyGate_pres C a1 _ h)) (State.keyGate_pres C a1 _ h)

theorem State.csSite_pres (C : Quiet P) {s : State} (a1 : Who) (a2 : ℕ) (a3 : Option W36) (h : P s) : OnSomeFst P (State.csSite s a1 a2 a3) := by
  unfold State.csSite
  try dsimp only
  repeat' first
    | with_reducible assumption
    | with_reducible apply State.siteAccess_pres C
    | (with_reducible apply OnFst.fst; with_reducible apply State.siteAccess_pres C)
    | with_reducible apply pres_ite
    | with_reducible exact OnSomeFst.get (by with_reducible assumption)
    | with_reducible exact OnFst.get (by with_reducible assumption)
    | with_reducible apply OnSomeFst.mk
    | with_reducible exact OnSomeFst.none
    | with_reducible intro _
    | with_reducible refine OnFst.eq ?_ (by with_reducible assumption)
    | with_reducible refine OnSomeFst.eq ?_ (by with_reducible assumption)
    | fail_if_no_progress with_reducible apply C.update
    | split
    | with_reducible apply OnFst.mk

theorem State.csRead_pres (C : Quiet P) {s : State} (a1 : Who) (a2 : ℕ) (h : P s) : OnFst P (State.csRead s a1 a2) := by
  unfold State.csRead
  have g := State.csView_pres C a1 a2 h
  split
  · exact (State.csSite_pres C a1 a2 none h) _ ‹_›
  · split
    · rename_i e
      rw [e] at g
      exact (g.2 _ rfl).1
    · rename_i e
      rw [e] at g
      exact g.1

theorem State.csWrite_pres (C : Quiet P) {s : State} (a1 : Who) (a2 : ℕ) (a3 : W36) (h : P s) : OnFst P (State.csWrite s a1 a2 a3) := by
  unfold State.csWrite
  have g := State.csView_pres C a1 a2 h
  split
  · exact (State.csSite_pres C a1 a2 (some a3) h) _ ‹_›
  · split
    · rename_i e
      rw [e] at g
      exact (g.2 _ rfl).2 _
    · rename_i e
      rw [e] at g
      exact g.1

theorem execRegisterWrite_pres (C : Quiet P) {s : State} (a1 : Who) (a2 : BitVec 52) (a3 : W36) (h : P s) : OnNext P (execRegisterWrite a1 a2 a3 s) := by
  unfold execRegisterWrite
  try dsimp only
  repeat' first
    | with_reducible assumption
    | (with_reducible apply OnFst.fst; with_reducible apply State.csWrite_pres C)
    | with_reducible apply OnNext.mk

theorem execCisCachectlWrite_pres (C : Quiet P) {s : State} (a1 : Who) (a2 : Fin 12) (a3 : W36) (h : P s) : OnNext P (execCisCachectlWrite a1 a2 a3 s) := by
  unfold execCisCachectlWrite
  try dsimp only
  repeat' first
    | with_reducible assumption
    | (with_reducible apply OnFst.fst; with_reducible apply State.csWrite_pres C)
    | with_reducible apply OnNext.mk

theorem execCisWayctlWrite_pres (C : Quiet P) {s : State} (a1 : Who) (a2 : Fin 12) (a3 : W36) (h : P s) : OnNext P (execCisWayctlWrite a1 a2 a3 s) := by
  unfold execCisWayctlWrite
  try dsimp only
  repeat' first
    | with_reducible assumption
    | (with_reducible apply OnFst.fst; with_reducible apply State.csWrite_pres C)
    | with_reducible apply OnNext.mk

theorem execTrwClaim_pres (C : Quiet P) (a1 : Who) (a2 : List Who) (a3 : Fin 12) {s : State} (h : P s) : OnNext P (execTrwClaim a1 a2 a3 s) := by
  unfold execTrwClaim
  try dsimp only
  repeat' first
    | with_reducible assumption
    | with_reducible apply State.csRead_pres C
    | (with_reducible apply OnFst.fst; with_reducible apply State.csRead_pres C)
    | with_reducible apply pres_fold
    | (with_reducible apply OnFst.fst; with_reducible apply pres_fold)
    | with_reducible exact OnFst.fst (by with_reducible assumption)
    | with_reducible apply OnNext.mk
    | with_reducible intro _
    | with_reducible refine OnFst.eq ?_ (by with_reducible assumption)
    | with_reducible apply OnFst.mk

theorem execGo_pres (C : Quiet P) {s : State} (a1 : Who) (a2 : Fin 12) (a3 : Fin 8) (a4 : W36) (h : P s) : OnNext P (execGo a1 a2 a3 a4 s) := by
  unfold execGo
  try dsimp only
  repeat' first
    | with_reducible assumption
    | (with_reducible apply OnFst.fst; with_reducible apply State.csWrite_pres C)
    | with_reducible apply OnNext.mk

theorem execCancel_pres (C : Quiet P) {s : State} (a1 : Who) (a2 : Fin 12) (a3 : Fin 8) (a4 : W36) (h : P s) : OnNext P (execCancel a1 a2 a3 a4 s) := by
  unfold execCancel
  try dsimp only
  repeat' first
    | with_reducible assumption
    | (with_reducible apply OnFst.fst; with_reducible apply State.csWrite_pres C)
    | with_reducible apply OnNext.mk

theorem execRelease_pres (C : Quiet P) {s : State} (a1 : Who) (a2 : Fin 12) (a3 : Fin 8) (a4 : W36) (h : P s) : OnNext P (execRelease a1 a2 a3 a4 s) := by
  unfold execRelease
  try dsimp only
  repeat' first
    | with_reducible assumption
    | (with_reducible apply OnFst.fst; with_reducible apply State.csWrite_pres C)
    | with_reducible apply OnNext.mk

theorem execPwrCorectlWrite_pres (C : Quiet P) {s : State} (a1 : Who) (a2 : Fin 288) (a3 : W36) (h : P s) : OnNext P (execPwrCorectlWrite a1 a2 a3 s) := by
  unfold execPwrCorectlWrite
  try dsimp only
  repeat' first
    | with_reducible assumption
    | (with_reducible apply OnFst.fst; with_reducible apply State.csWrite_pres C)
    | with_reducible apply OnNext.mk

theorem execHbrRctlWrite_pres (C : Quiet P) {s : State} (a1 : Who) (a2 : Fin 524288) (a3 : W36) (h : P s) : OnNext P (execHbrRctlWrite a1 a2 a3 s) := by
  unfold execHbrRctlWrite
  try dsimp only
  repeat' first
    | with_reducible assumption
    | (with_reducible apply OnFst.fst; with_reducible apply State.csWrite_pres C)
    | with_reducible apply OnNext.mk

theorem State.doorbells_pres (C : Quiet P) {s : State} (a1 : ℕ) (a2 : List (Who × W36)) (h : P s) : P (State.doorbells s a1 a2) := by
  unfold State.doorbells
  try dsimp only
  repeat' first
    | with_reducible assumption
    | with_reducible apply State.modRing_pres C
    | with_reducible apply State.csWrite_pres C
    | (with_reducible apply OnFst.fst; with_reducible apply State.csWrite_pres C)
    | with_reducible apply pres_fold
    | (with_reducible apply OnFst.fst; with_reducible apply pres_fold)
    | with_reducible exact OnFst.fst (by with_reducible assumption)
    | with_reducible intro _
    | with_reducible refine OnFst.eq ?_ (by with_reducible assumption)
    | fail_if_no_progress with_reducible apply C.update
    | with_reducible apply OnFst.mk

theorem execDoorbellTail_pres (C : Quiet P) (a1 : Who) (a2 : Fin 524288) (a3 : W36) (a4 : List (Who × W36)) {s : State} (h : P s) : OnNext P (execDoorbellTail a1 a2 a3 a4 s) := by
  unfold execDoorbellTail
  try dsimp only
  repeat' first
    | with_reducible assumption
    | with_reducible apply State.doorbells_pres C
    | with_reducible apply OnNext.mk
    | fail_if_no_progress with_reducible apply C.update

theorem execDoorbellHead_pres (C : Quiet P) (a1 : Who) (a2 : Fin 524288) (a3 : W36) (a4 : List (Who × W36)) {s : State} (h : P s) : OnNext P (execDoorbellHead a1 a2 a3 a4 s) := by
  unfold execDoorbellHead
  try dsimp only
  repeat' first
    | with_reducible assumption
    | with_reducible apply State.doorbells_pres C
    | with_reducible apply OnNext.mk
    | fail_if_no_progress with_reducible apply C.update

theorem execDoorbellResume_pres (C : Quiet P) (a1 : Who) (a2 : Fin 524288) (a3 : W36) (a4 : List (Who × W36)) {s : State} (h : P s) : OnNext P (execDoorbellResume a1 a2 a3 a4 s) := by
  unfold execDoorbellResume
  try dsimp only
  repeat' first
    | with_reducible assumption
    | with_reducible apply State.doorbells_pres C
    | with_reducible apply OnNext.mk
    | fail_if_no_progress with_reducible apply C.update

theorem execSndUloRead_pres (C : Quiet P) {s : State} (a1 : Who) (a2 : SndUnit) (a3 : Fin 8) (h : P s) : OnNext P (execSndUloRead a1 a2 a3 s) := by
  unfold execSndUloRead
  try dsimp only
  repeat' first
    | with_reducible assumption
    | (with_reducible apply OnFst.fst; with_reducible apply State.csRead_pres C)
    | with_reducible apply OnNext.mk

theorem execSndUloWrite_pres (C : Quiet P) {s : State} (a1 : Who) (a2 : SndUnit) (a3 : Fin 8) (a4 : W36) (h : P s) : OnNext P (execSndUloWrite a1 a2 a3 a4 s) := by
  unfold execSndUloWrite
  try dsimp only
  repeat' first
    | with_reducible assumption
    | (with_reducible apply OnFst.fst; with_reducible apply State.csWrite_pres C)
    | with_reducible apply OnNext.mk

end Sys2Proof.Machine
end

