-- ==== Sys2Proof/Laws/KeepThreadMem.lean ====
section
/-! SUPPORT. What the operations of Machine/ThreadMem.lean keep. -/

namespace Sys2Proof.Machine

variable {P : State → Prop}

theorem State.winFor_pres (C : Quiet P) {s : State} (a1 : Acr) (a2 : LineNo) (a3 : Bool) (h : P s) : OnFst P (State.winFor s a1 a2 a3) := by
  unfold State.winFor
  try dsimp only
  repeat' first
    | with_reducible assumption
    | with_reducible apply State.rest_pres C
    | with_reducible apply State.sendFill_pres C
    | with_reducible apply State.resend_pres C
    | with_reducible apply pres_ite
    | with_reducible intro _
    | fail_if_no_progress with_reducible apply C.update
    | split
    | with_reducible apply OnFst.mk

theorem State.lookups_pres (C : Quiet P) {s : State} (a1 : Acr) (a2 : ℕ) (a3 : Via) (h : P s) : OnFst P (State.lookups s a1 a2 a3) := by
  unfold State.lookups
  try dsimp only
  repeat' first
    | with_reducible assumption
    | with_reducible apply State.sndIsle_pres C
    | with_reducible apply State.tagRead_pres C
    | with_reducible apply pres_ite
    | with_reducible exact OnFst.get (by with_reducible assumption)
    | with_reducible intro _
    | with_reducible refine OnFst.eq ?_ (by with_reducible assumption)
    | fail_if_no_progress with_reducible apply C.update
    | split
    | with_reducible apply OnFst.mk

theorem State.useLine_pres (C : Quiet P) {s : State} (a1 : ℕ) (a2 : ℕ) (a3 : ℕ) (a4 : ℕ) (a5 : Arr) (a6 : MemOp) (h : P s) : P (State.useLine s a1 a2 a3 a4 a5 a6) := by
  unfold State.useLine
  try dsimp only
  repeat' first
    | with_reducible assumption
    | with_reducible apply State.modArrErr_pres C
    | with_reducible apply State.modIsle_pres C
    | with_reducible apply pres_ite
    | with_reducible intro _
    | fail_if_no_progress with_reducible apply C.update

theorem State.cached_pres (C : Quiet P) {s : State} (a1 : Acr) (a2 : LineNo) (a3 : ℕ) (a4 : ℕ) (a5 : Via) (a6 : MemOp) (h : P s) : OnGot P (State.cached s a1 a2 a3 a4 a5 a6) := by
  unfold State.cached
  try dsimp only
  repeat' first
    | with_reducible assumption
    | with_reducible apply State.keepAsk_pres C
    | with_reducible apply State.cacheTouch_pres C
    | (with_reducible apply OnSome.getD; with_reducible apply State.cacheTouch_pres C)
    | with_reducible apply State.useLine_pres C
    | with_reducible apply State.winFor_pres C
    | (with_reducible apply OnFst.fst; with_reducible apply State.winFor_pres C)
    | with_reducible apply State.dataRead_pres C
    | with_reducible apply State.lookups_pres C
    | (with_reducible apply OnFst.fst; with_reducible apply State.lookups_pres C)
    | with_reducible apply pres_ite
    | with_reducible exact OnSome.get (by with_reducible assumption)
    | with_reducible exact OnFst.get (by with_reducible assumption)
    | with_reducible apply OnSome.mk
    | with_reducible exact OnSome.none
    | with_reducible apply OnGot.mk
    | with_reducible refine OnGot.eq ?_ (by with_reducible assumption)
    | with_reducible intro _
    | with_reducible refine OnFst.eq ?_ (by with_reducible assumption)
    | with_reducible refine OnSome.eq ?_ (by with_reducible assumption)
    | fail_if_no_progress with_reducible apply C.update
    | split
    | dsimp only
    | with_reducible apply OnFst.mk

theorem State.atHome_pres (C : Quiet P) {s : State} (a1 : Acr) (a2 : LineNo) (a3 : ℕ) (a4 : ℕ) (a5 : MemOp) (h : P s) : OnGot P (State.atHome s a1 a2 a3 a4 a5) := by
  unfold State.atHome
  try dsimp only
  repeat' first
    | with_reducible assumption
    | with_reducible apply State.keepAsk_pres C
    | with_reducible apply State.uncached_pres C
    | (with_reducible apply OnFst.fst; with_reducible apply State.uncached_pres C)
    | with_reducible apply State.rest_pres C
    | with_reducible apply pres_ite
    | with_reducible exact OnFst.get (by with_reducible assumption)
    | with_reducible apply OnGot.mk
    | with_reducible refine OnGot.eq ?_ (by with_reducible assumption)
    | with_reducible intro _
    | with_reducible refine OnFst.eq ?_ (by with_reducible assumption)
    | fail_if_no_progress with_reducible apply C.update
    | split
    | dsimp only
    | with_reducible apply OnFst.mk

theorem State.atIsleCache_pres (C : Quiet P) {s : State} (a1 : Acr) (a2 : LineNo) (a3 : ℕ) (a4 : ℕ) (a5 : Via) (a6 : MemOp) (h : P s) : OnGot P (State.atIsleCache s a1 a2 a3 a4 a5 a6) := by
  unfold State.atIsleCache
  try dsimp only
  repeat' first
    | with_reducible assumption
    | with_reducible apply State.touchIc_pres C
    | (with_reducible apply OnSome.getD; with_reducible apply State.touchIc_pres C)
    | with_reducible apply State.modIsle_pres C
    | with_reducible apply State.useLine_pres C
    | with_reducible apply State.keepAsk_pres C
    | with_reducible apply State.atHome_pres C
    | (with_reducible apply OnGot.s; with_reducible apply State.atHome_pres C)
    | with_reducible apply State.arrRead_pres C
    | with_reducible apply State.lookups_pres C
    | (with_reducible apply OnFst.fst; with_reducible apply State.lookups_pres C)
    | with_reducible apply pres_ite
    | with_reducible exact OnSome.get (by with_reducible assumption)
    | with_reducible exact OnFst.get (by with_reducible assumption)
    | with_reducible apply OnSome.mk
    | with_reducible exact OnSome.none
    | with_reducible apply OnGot.mk
    | with_reducible refine OnGot.eq ?_ (by with_reducible assumption)
    | with_reducible intro _
    | with_reducible refine OnFst.eq ?_ (by with_reducible assumption)
    | with_reducible refine OnSome.eq ?_ (by with_reducible assumption)
    | fail_if_no_progress with_reducible apply C.update
    | split
    | dsimp only
    | with_reducible apply OnFst.mk

theorem State.atCistern_pres (C : Quiet P) {s : State} (a1 : Acr) (a2 : LineNo) (a3 : ℕ) (a4 : ℕ) (a5 : MemOp) (h : P s) : OnGot P (State.atCistern s a1 a2 a3 a4 a5) := by
  unfold State.atCistern
  try dsimp only
  repeat' first
    | with_reducible assumption
    | with_reducible apply State.cisternServe_pres C
    | with_reducible apply pres_ite
    | with_reducible apply OnGot.mk
    | with_reducible refine OnGot.eq ?_ (by with_reducible assumption)
    | with_reducible intro _
    | fail_if_no_progress with_reducible apply C.update
    | split
    | dsimp only

theorem State.atWindow_pres (C : Quiet P) {s : State} (a1 : Acr) (a2 : ℕ) (a3 : MUnit5) (a4 : MemOp) (h : P s) : OnGot P (State.atWindow s a1 a2 a3 a4) := by
  unfold State.atWindow
  try dsimp only
  repeat' first
    | with_reducible assumption
    | with_reducible apply State.outbound_pres C
    | (with_reducible apply OnFst.fst; with_reducible apply State.outbound_pres C)
    | with_reducible apply pres_ite
    | with_reducible exact OnFst.get (by with_reducible assumption)
    | with_reducible apply OnGot.mk
    | with_reducible refine OnGot.eq ?_ (by with_reducible assumption)
    | with_reducible intro _
    | with_reducible refine OnFst.eq ?_ (by with_reducible assumption)
    | fail_if_no_progress with_reducible apply C.update
    | split
    | dsimp only
    | with_reducible apply OnFst.mk

theorem State.access_pres (C : Quiet P) {s : State} (a1 : Acr) (a2 : ℕ) (a3 : MUnit5) (a4 : Bool) (a5 : Via) (a6 : MemOp) (h : P s) : OnGot P (State.access s a1 a2 a3 a4 a5 a6) := by
  unfold State.access
  try dsimp only
  repeat' first
    | with_reducible assumption
    | with_reducible apply State.cached_pres C
    | (with_reducible apply OnGot.s; with_reducible apply State.cached_pres C)
    | with_reducible apply State.atIsleCache_pres C
    | (with_reducible apply OnGot.s; with_reducible apply State.atIsleCache_pres C)
    | with_reducible apply State.atHome_pres C
    | (with_reducible apply OnGot.s; with_reducible apply State.atHome_pres C)
    | with_reducible apply State.atWindow_pres C
    | (with_reducible apply OnGot.s; with_reducible apply State.atWindow_pres C)
    | with_reducible apply State.atCistern_pres C
    | (with_reducible apply OnGot.s; with_reducible apply State.atCistern_pres C)
    | with_reducible apply pres_ite
    | with_reducible apply OnGot.mk
    | with_reducible refine OnGot.eq ?_ (by with_reducible assumption)
    | with_reducible intro _
    | fail_if_no_progress with_reducible apply C.update
    | split
    | dsimp only

end Sys2Proof.Machine
end

