-- ==== Sys2Proof/Laws/KeepTranslate.lean ====
section
/-! SUPPORT. What the operations of Machine/Translate.lean keep. -/

namespace Sys2Proof.Machine

variable {P : State → Prop}

theorem State.walk_pres (C : Quiet P) {s : State} (a1 : Acr) (a2 : TKind) (a3 : Addr) (a4 : ℕ) (a5 : ℕ) (h : P s) : OnFst P (State.walk s a1 a2 a3 a4 a5) := by
  induction a4 generalizing s a5 with
  | zero =>
    unfold State.walk
    have g := (State.access_pres C a1 (a5 + 8 * (a3.toNat / 2 ^ levelShift 0 % 2048)) .double false .walk .read h).s
    dsimp only
    split
    · exact g
    · exact g
    · exact pres_ite (fun _ => g) fun _ => pres_ite (fun _ => g) fun _ => g
  | succ l ih =>
    unfold State.walk
    have g := (State.access_pres C a1 (a5 + 8 * (a3.toNat / 2 ^ levelShift (l + 1) % 2048)) .double false .walk .read h).s
    dsimp only
    split
    · exact g
    · exact g
    · exact pres_ite (fun _ => g) fun _ => pres_ite (fun _ => g) fun _ => pres_ite (fun _ => ih _ g) fun _ => g

theorem State.translate_pres (C : Quiet P) {s : State} (a1 : ℕ) (a2 : TKind) (a3 : Addr) (h : P s) : OnFst P (State.translate s a1 a2 a3) := by
  unfold State.translate
  try dsimp only
  repeat' first
    | with_reducible assumption
    | with_reducible apply State.modCore_pres C
    | with_reducible apply State.walk_pres C
    | (with_reducible apply OnFst.fst; with_reducible apply State.walk_pres C)
    | with_reducible apply pres_ite
    | with_reducible exact OnFst.get (by with_reducible assumption)
    | with_reducible intro _
    | with_reducible refine OnFst.eq ?_ (by with_reducible assumption)
    | fail_if_no_progress with_reducible apply C.update
    | split
    | with_reducible apply OnFst.mk

theorem State.tlbInvAll_pres (C : Quiet P) {s : State} (a1 : Reg) (a2 : Bool) (h : P s) : P (State.tlbInvAll s a1 a2) := by
  unfold State.tlbInvAll
  try dsimp only
  repeat' first
    | with_reducible assumption
    | fail_if_no_progress with_reducible apply C.update

end Sys2Proof.Machine
end

