-- ==== Sys2Proof/Laws/KeepPredict.lean ====
section
/-! SUPPORT. What the operations of Machine/Predict.lean keep. -/

namespace Sys2Proof.Machine

variable {P : State → Prop}

theorem State.useKey_pres (C : Quiet P) {s : State} (a1 : ℕ) (a2 : ℕ) (h : P s) : P (State.useKey s a1 a2) := by
  unfold State.useKey
  try dsimp only
  repeat' first
    | with_reducible assumption
    | with_reducible apply State.modCore_pres C

theorem State.needKey_pres (C : Quiet P) {s : State} (a1 : ℕ) (a2 : ℕ) (h : P s) : P (State.needKey s a1 a2) := by
  unfold State.needKey
  try dsimp only
  repeat' first
    | with_reducible assumption
    | with_reducible apply State.useKey_pres C
    | with_reducible apply pres_ite
    | with_reducible intro _

theorem State.train_pres (C : Quiet P) {s : State} (a1 : ℕ) (a2 : Bool) (h : P s) : OnFst P (State.train s a1 a2) := by
  unfold State.train
  try dsimp only
  repeat' first
    | with_reducible assumption
    | with_reducible apply State.needKey_pres C
    | with_reducible apply State.modCore_pres C
    | with_reducible apply OnFst.mk

theorem State.quietTranslate_pres (C : Quiet P) {s : State} (a1 : ℕ) (a2 : Bool) (a3 : Addr) (h : P s) : OnFst P (State.quietTranslate s a1 a2 a3) := by
  unfold State.quietTranslate
  try dsimp only
  repeat' first
    | with_reducible assumption
    | with_reducible apply State.modCore_pres C
    | with_reducible apply pres_ite
    | with_reducible exact OnFst.get (by with_reducible assumption)
    | with_reducible intro _
    | with_reducible refine OnFst.eq ?_ (by with_reducible assumption)
    | fail_if_no_progress with_reducible apply C.update
    | split
    | with_reducible apply OnFst.mk

theorem State.wrongAccess_pres (C : Quiet P) {s : State} (a1 : ℕ) (a2 : Bool) (a3 : Addr) (h : P s) : P (State.wrongAccess s a1 a2 a3) := by
  unfold State.wrongAccess
  try dsimp only
  repeat' first
    | with_reducible assumption
    | with_reducible apply State.fillL1_pres C
    | (with_reducible apply OnSome.getD; with_reducible apply State.fillL1_pres C)
    | with_reducible apply State.quietTranslate_pres C
    | (with_reducible apply OnFst.fst; with_reducible apply State.quietTranslate_pres C)
    | with_reducible apply pres_ite
    | with_reducible exact OnSome.get (by with_reducible assumption)
    | with_reducible exact OnFst.get (by with_reducible assumption)
    | with_reducible apply OnSome.mk
    | with_reducible exact OnSome.none
    | with_reducible intro _
    | with_reducible refine OnFst.eq ?_ (by with_reducible assumption)
    | with_reducible refine OnSome.eq ?_ (by with_reducible assumption)
    | fail_if_no_progress with_reducible apply C.update
    | split
    | with_reducible apply OnFst.mk

theorem State.wrongPath_pres (C : Quiet P) {s : State} (a1 : ℕ) (h : P s) : P (State.wrongPath s a1) := by
  unfold State.wrongPath
  try dsimp only
  repeat' first
    | with_reducible assumption
    | with_reducible apply State.wrongAccess_pres C
    | with_reducible apply State.modCore_pres C
    | with_reducible apply pres_ite
    | with_reducible apply pres_fold
    | (with_reducible apply OnFst.fst; with_reducible apply pres_fold)
    | with_reducible exact OnFst.fst (by with_reducible assumption)
    | with_reducible intro _
    | with_reducible refine OnFst.eq ?_ (by with_reducible assumption)
    | fail_if_no_progress with_reducible apply C.update
    | with_reducible apply OnFst.mk

end Sys2Proof.Machine
end

