-- ==== Sys2Proof/Laws/KeepIssue.lean ====
section
/-! SUPPORT. What the operations of Machine/Issue.lean keep. -/

namespace Sys2Proof.Machine

variable {P : State → Prop}

theorem Done.ord_pres (C : Quiet P) {s : State}  (h : P s) : OnDone P (Done.ord s) := by
  unfold Done.ord
  try dsimp only
  repeat' first
    | with_reducible assumption
    | exact .inl trivial
    | with_reducible apply OnDone.mk

theorem State.fetch_pres (C : Quiet P) {s : State} (a1 : ℕ) (h : P s) : OnFst P (State.fetch s a1) := by
  unfold State.fetch
  try dsimp only
  repeat' first
    | with_reducible assumption
    | with_reducible apply State.access_pres C
    | (with_reducible apply OnGot.s; with_reducible apply State.access_pres C)
    | with_reducible apply State.translate_pres C
    | (with_reducible apply OnFst.fst; with_reducible apply State.translate_pres C)
    | with_reducible apply State.wrongPath_pres C
    | with_reducible exact OnFst.get (by with_reducible assumption)
    | with_reducible refine OnGot.eq ?_ (by with_reducible assumption)
    | with_reducible intro _
    | with_reducible refine OnFst.eq ?_ (by with_reducible assumption)
    | fail_if_no_progress with_reducible apply C.update
    | split
    | dsimp only
    | with_reducible apply OnFst.mk

theorem State.complete_pres (C : Loud P) {s : State} (a1 : ℕ) (a2 : Flow) (a3 : Bool) (a4 : List (ℕ × ℕ)) (h2 : Flow.ok P a2) (h : P s) : P (State.complete s a1 a2 a3 a4) := by
  have k : ∀ b p : Bool, P (if p then s.train a1 b else (s, false)).1 := by
    intro b p
    cases p
    · exact h
    · exact State.train_pres C.toQuiet _ _ h
  have m : ∀ b p q : Bool, P (if q then (if p then s.train a1 b else (s, false)).1.markWrong a1 else (if p then s.train a1 b else (s, false)).1) := by
    intro b p q
    cases q
    · exact k b p
    · exact State.markWrong_pres C.toQuiet _ (k b p)
  unfold State.complete
  dsimp only
  rcases h2 with g | g
  · exact State.modThread_pres C _ _ (State.retired_pres C _ _ _ _ (m _ _ _)) fun x k => Thread.legal_advance k g
  · exact g _ _ _ (State.retired_pres C _ _ _ _ (m _ _ _))

theorem State.trapped_pres (C : Loud P) {s : State} (a1 : ℕ) (a2 : BitVec 8) (a3 : BitVec 8) (a4 : Reg) (h : P s) : P (State.trapped s a1 a2 a3 a4) := by
  unfold State.trapped
  try dsimp only
  repeat' first
    | with_reducible assumption
    | with_reducible apply State.trap_pres C
    | with_reducible apply State.countEvents_pres C

theorem State.called_pres (C : Loud P) {s : State} (a1 : ℕ) (a2 : BitVec 8) (a3 : List (ℕ × ℕ)) (h : P s) : P (State.called s a1 a2 a3) := by
  unfold State.called
  try dsimp only
  repeat' first
    | with_reducible assumption
    | with_reducible apply Thread.legal_call
    | with_reducible apply State.countFix1_pres C
    | with_reducible apply State.countEvents_pres C
    | with_reducible apply State.modThread_pres C
    | with_reducible intro _

theorem State.finish_pres (C : Loud P) (a1 : Nat) (a2 : Thread) (a3 : List (Nat × Nat)) (a4 : Done) (h : OnDone P a4) :
    P (State.finish a1 a2 a3 a4) := by
  cases a4 with
  | done s f p more => exact State.complete_pres C _ _ _ _ h.2 h.1
  | moved s => exact State.retired_pres C _ _ _ _ h
  | wrote s f =>
    exact State.modThread_pres C _ _ (h.2 _ (State.retired_pres C _ _ _ _ h.1)) fun x k => Thread.legal_advance (f := .ordinary) k trivial
  | call s c => exact State.called_pres C _ _ _ h
  | trap s c d v => exact State.trapped_pres C _ _ _ _ h
  | wait s =>
    unfold State.finish
    dsimp only
    split
    · exact h
    · exact State.countEvents_pres C _ _ _ _ h

theorem State.runWord_pres (C : Loud P) {s : State} (a1 : Fin 576) (a2 : W36) (a3 : State → Done) (h3 : ∀ x0, P x0 → OnDone P (a3 x0)) (h : P s) : P (State.runWord s a1 a2 a3) := by
  unfold State.runWord
  try dsimp only
  repeat' first
    | with_reducible assumption
    | with_reducible apply h3
    | with_reducible apply State.takeInt_pres C
    | with_reducible apply State.fetch_pres C.toQuiet
    | with_reducible apply State.trap_pres C
    | with_reducible apply State.trapped_pres C
    | with_reducible apply State.finish_pres C
    | with_reducible refine OnFst.eq ?_ (by with_reducible assumption)
    | split

theorem State.run_pres (C : Loud P) {s : State} (a1 : Fin 576) (a2 : Instr) (a3 : State → Done) (h3 : ∀ u, P u → OnDone P (a3 u)) (h : P s) : OnNext P (State.run s a1 a2 a3) := by
  unfold State.run
  try dsimp only
  repeat' first
    | with_reducible assumption
    | with_reducible apply h3
    | with_reducible apply State.runWord_pres C
    | with_reducible apply pres_ite
    | with_reducible apply OnNext.mk
    | with_reducible intro _
    | split

theorem State.setG_pres (C : Loud P) {s : State} (a1 : Fin 576) (a2 : BitVec 6) (a3 : Reg) (h : P s) : P (State.setG s a1 a2 a3) := by
  unfold State.setG
  try dsimp only
  repeat' first
    | with_reducible assumption
    | with_reducible apply Thread.legal_setGr
    | with_reducible apply State.modThread_pres C
    | with_reducible intro _

theorem writeG_pres (C : Loud P) {s : State} (a1 : Fin 576) (a2 : BitVec 6) (a3 : State → Reg) (h : P s) : OnDone P (writeG a1 a2 a3 s) := by
  unfold writeG
  try dsimp only
  repeat' first
    | with_reducible assumption
    | with_reducible apply Done.ord_pres C.toQuiet
    | with_reducible apply State.setG_pres C

theorem needPriv_pres (C : Quiet P) {s : State} (a1 : Fin 576) (a2 : BitVec 2) (a3 : W36) (a4 : State → Done) (h4 : ∀ x0, P x0 → OnDone P (a4 x0)) (h : P s) : OnDone P (needPriv a1 a2 a3 a4 s) := by
  unfold needPriv
  try dsimp only
  repeat' first
    | with_reducible assumption
    | with_reducible apply h4
    | with_reducible apply pres_ite
    | with_reducible apply OnDone.trap
    | with_reducible intro _

end Sys2Proof.Machine
end

