-- ==== Sys2Proof/Laws/Issue.lean ====
section
/-! SUPPORT. How an instruction that is ready runs, and what its completion leaves: the lemmas that the statements
about instructions rest on. -/

namespace Sys2Proof.Machine

/-! ### Counters and predictors are no part of what is compared -/

theorem WReg.quietly_addCount (w : WReg) (i k : Nat) : (w.addCount i k).quietly = w.quietly := rfl

theorem WReg.quietly_countEvent (w : WReg) (p : BitVec 2) (e k : Nat) : (w.countEvent p e k).quietly = w.quietly := by
  unfold WReg.countEvent
  exact pres_forN (Q := fun v : WReg => v.quietly = w.quietly) _ _ rfl fun i v g =>
    pres_ite (Q := fun v : WReg => v.quietly = w.quietly) (fun _ => g) fun _ => g

theorem WReg.quietly_countEvents (w : WReg) (p : BitVec 2) (l : List (Nat × Nat)) :
    (l.foldl (fun (w : WReg) (e : Nat × Nat) => w.countEvent p e.1 e.2) w).quietly = w.quietly :=
  pres_fold (Q := fun v : WReg => v.quietly = w.quietly) _ _ rfl fun v _ g => (WReg.quietly_countEvent v _ _ _).trans g

theorem Thread.arch_setWreg (x : Thread) (v : Bool) {w : WReg} (h : w.quietly = (x.wreg v).quietly) :
    (x.setWreg v w).arch = x.arch := by
  cases v
  · show Thread.mk _ _ _ _ _ _ _ _ _ _ _ w.quietly _ _ _ _ _ [] = _
    rw [h]
    rfl
  · show Thread.mk _ _ _ _ _ _ _ _ _ _ _ _ w.quietly _ _ _ _ [] = _
    rw [h]
    rfl

theorem Thread.arch_advance (x : Thread) (f : Flow) : (x.advance f).arch = x.arch.advance f := by
  unfold Thread.advance
  split <;> rfl

theorem State.thread_setThread_at (s : State) (t k : Nat) (x : Thread) :
    (s.setThread t x).thread k = if k = t then x else s.thread k := by
  unfold State.setThread State.thread
  exact sget_sset _ _ _ _ _

theorem State.core_modCore (s : State) (q k : Nat) (f : Core → Core) :
    (s.modCore q f).core k = if k = q then f (s.core q) else s.core k := by
  unfold State.modCore State.setCore State.core
  exact sget_sset _ _ _ _ _

/-- u differs from s in counters and predictors only. -/
def Same (s u : State) : Prop :=
  (∀ k, (u.thread k).arch = (s.thread k).arch) ∧ (∀ q, (u.core q).arch = (s.core q).arch)
    ∧ u = { s with threads := u.threads, cores := u.cores }

theorem Same.refl (s : State) : Same s s := ⟨fun _ => rfl, fun _ => rfl, rfl⟩

theorem Same.trans {s u v : State} (h : Same s u) (k : Same u v) : Same s v := by
  refine ⟨fun t => (k.1 t).trans (h.1 t), fun q => (k.2.1 q).trans (h.2.1 q), ?_⟩
  have a := h.2.2
  have b := k.2.2
  rw [b, a]

theorem Same.modThread (s : State) (t : Nat) (f : Thread → Thread) (h : ∀ x, (f x).arch = x.arch) : Same s (s.modThread t f) := by
  refine ⟨fun k => ?_, fun q => rfl, rfl⟩
  unfold State.modThread
  rw [State.thread_setThread_at]
  split
  · rename_i e
    rw [h, e]
  · rfl

theorem Same.modCore (s : State) (q : Nat) (f : Core → Core) (h : ∀ x, (f x).arch = x.arch) : Same s (s.modCore q f) := by
  refine ⟨fun k => rfl, fun k => ?_, rfl⟩
  rw [State.core_modCore]
  split
  · rename_i e
    rw [h, e]
  · rfl

theorem State.countEvents_same (s : State) (t : Nat) (v : Bool) (p : BitVec 2) (l : List (Nat × Nat)) :
    Same s (s.countEvents t v p l) :=
  Same.modThread _ _ _ fun x => Thread.arch_setWreg x v (WReg.quietly_countEvents _ _ _)

theorem State.countFix1_same (s : State) (t : Nat) (v : Bool) : Same s (s.countFix1 t v) := by
  have k (u : State) (t : Nat) : Same u (u.modThread t fun x =>
      let w := x.wreg v; x.setWreg v { w with sndovf := w.sndovf ||| 0x80 }) :=
    Same.modThread _ _ _ fun x => Thread.arch_setWreg x v rfl
  have c : Same s (s.modCore (t / 2) fun x => x.setFix v (sset 0 ((s.core (t / 2)).fix v) 1
      (BitVec.ofNat 72 (((sget 0 ((s.core (t / 2)).fix v) 1).toNat + 1) % 2 ^ 48)))) :=
    Same.modCore _ _ _ fun x => by cases v <;> rfl
  unfold State.countFix1
  dsimp only
  exact pres_ite (Q := Same s) (fun _ => (c.trans (k _ _)).trans (k _ _)) fun _ => c

theorem State.retired_same (s : State) (t : Nat) (v : Bool) (p : BitVec 2) (l : List (Nat × Nat)) : Same s (s.retired t v p l) :=
  (State.countEvents_same _ _ _ _ _).trans (State.countFix1_same _ _ _)

theorem State.useKey_same (s : State) (q c : Nat) : Same s (s.useKey q c) := Same.modCore _ _ _ fun _ => rfl

theorem State.needKey_same (s : State) (q c : Nat) : Same s (s.needKey q c) := by
  unfold State.needKey
  exact pres_ite (Q := Same s) (fun _ => Same.refl s) fun _ => State.useKey_same s q c

theorem State.train_same (s : State) (t : Nat) (up : Bool) : Same s (s.train t up).1 :=
  (State.needKey_same s (t / 2) _).trans (Same.modCore _ _ _ fun _ => rfl)

theorem State.markWrong_same (s : State) (t : Nat) : Same s (s.markWrong t) := Same.modCore _ _ _ fun _ => rfl

/-! ### After a completion -/

/-- What counters and predictors do after an instruction is no part of what it leaves. -/
theorem After.same {s f u v : State} {t : Fin 576} {x : Thread} (h : After s f t x u) (k : Same u v) : After s f t x v := by
  refine ⟨fun i => (k.1 i).trans (h.1 i), fun q => (k.2.1 q).trans (h.2.1 q), ?_⟩
  have a := h.2.2
  have b := k.2.2
  rw [b, a]

/-- A state that differs from f in counters only, then thread t moved by f. -/
theorem After.of_same {s f v : State} {t : Fin 576} {x : Thread} {fl : Flow} (h : Same f v)
    (o : ∀ k, (f.thread k).arch = if k = t.val then x.arch else (s.thread k).arch) :
    After s f t (x.advance fl) (v.modThread t.val fun y => y.advance fl) := by
  refine ⟨fun k => ?_, fun q => h.2.1 q, ?_⟩
  · unfold State.modThread
    rw [State.thread_setThread_at]
    have e := h.1 t.val
    rw [o, if_pos rfl] at e
    split
    · rw [Thread.arch_advance, Thread.arch_advance, e]
    · rename_i n
      rw [h.1, o, if_neg n]
  · have e := h.2.2
    unfold State.modThread State.setThread
    rw [e]

/-- What completion leaves, when the instruction's own part made x of thread t and left the others. -/
theorem State.complete_after {s f : State} {t : Fin 576} {x : Thread} (fl : Flow) (p : Bool) (evs : List (Nat × Nat))
    (o : ∀ k, (f.thread k).arch = if k = t.val then x.arch else (s.thread k).arch) :
    After s f t (x.advance fl) (f.complete t.val fl p evs) := by
  have k : ∀ p b : Bool, Same f (if p then f.train t.val b else (f, false)).1 := by
    intro p b
    cases p
    · exact Same.refl f
    · exact State.train_same f _ _
  have m : ∀ p b q : Bool, Same f (if q then (if p then f.train t.val b else (f, false)).1.markWrong t.val
      else (if p then f.train t.val b else (f, false)).1) := by
    intro p b q
    cases q
    · exact k p b
    · exact (k p b).trans (State.markWrong_same _ _)
  unfold State.complete
  dsimp only
  exact After.of_same ((m _ _ _).trans (State.retired_same _ _ _ _ _)) o

/-! ### What a fetch leaves (R93, R112) -/

theorem State.fetch_threads (s : State) (t : Nat) : (s.fetch t).1.threads = s.threads :=
  State.fetch_pres (P := fun u => u.threads = s.threads)
    ⟨fun _ _ h _ _ k _ => k.trans h, fun _ _ h _ => h⟩ t rfl

theorem State.fetched_thread (s : State) (t : Fin 576) (k : Nat) : (s.fetched t).thread k = s.thread k := by
  unfold State.fetched State.thread
  rw [State.fetch_threads]

/-! ### An instruction that is ready -/

/-- An instruction that is ready ends as its own part says, on the state after its fetch. -/
theorem State.run_ready {s : State} {t : Fin 576} {i : Instr} (h : s.ready t i = true) (body : State → Done) :
    s.run t i body = .next (State.finish t.val (s.thread t.val) (s.fetchEvents t) (body (s.fetched t))) := by
  unfold State.ready at h
  simp only [Bool.and_eq_true, Option.isNone_iff_eq_none] at h
  obtain ⟨⟨⟨⟨a, b⟩, c⟩, d⟩, e⟩ := h
  have x := State.fetched_thread s t t.val
  unfold State.run State.runWord
  simp only [a, b, c, Bool.not_true, Bool.or_self, Bool.false_eq_true, if_false]
  unfold State.fetched at x
  unfold State.fetched State.fetchEvents
  generalize s.fetch t.val = g at *
  obtain ⟨s1, evs, r⟩ := g
  cases r with
  | ok pa uc =>
    dsimp only at *
    rw [x, e]
  | trap c d v => cases d
  | wait => cases d

/-- An instruction whose own part changes thread t alone and ends by an outcome of R73. -/
theorem State.run_done {s f1 : State} {t : Fin 576} {i : Instr} {x : Thread} (h : s.ready t i = true) {body : State → Done}
    {fl : Flow} {p : Bool} {evs : List (Nat × Nat)} (b : body (s.fetched t) = .done f1 fl p evs)
    (o : ∀ k, (f1.thread k).arch = if k = t.val then x.arch else (s.thread k).arch) :
    ∃ u, s.run t i body = .next u ∧ After s f1 t (x.advance fl) u := by
  rw [State.run_ready h, b]
  exact ⟨_, rfl, State.complete_after fl p _ o⟩

/-! ### Results, traps and the thread they leave -/

theorem State.setG_arch (s f : State) (t : Fin 576) (h : ∀ k, f.thread k = s.thread k) (g : Thread → Thread) :
  ∀ k, ((f.modThread t.val g).thread k).arch = if k = t.val then (g (s.thread t.val)).arch else (s.thread k).arch := by
  intro k; unfold State.modThread; rw [State.thread_setThread_at]; split <;> simp [h]

theorem State.writes_after {s : State} {t : Fin 576} {i : Instr} {rd : BitVec 6} {v : State → Reg} {w : Reg} (h : s.ready t i = true) (e : v (s.fetched t) = w) :
  ∃ u, s.run t i (writeG t rd v) = .next u ∧ After s (s.fetched t) t (((s.thread t.val).setGr rd w).advance .ordinary) u := by
  obtain ⟨u, hu, a, b, c⟩ := State.run_done (x := (s.thread t.val).setGr rd w) (f1 := (s.fetched t).setG t rd (v (s.fetched t))) (fl := .ordinary) (p := false) (evs := []) (body := writeG t rd v) h rfl (by
    rw [e]; exact State.setG_arch s _ t (State.fetched_thread s t) fun x => x.setGr rd w)
  exact ⟨u, hu, a, b, c⟩

theorem State.g_fetched (s : State) (t : Fin 576) (r : BitVec 6) : (s.fetched t).g t r = (s.thread t.val).gr r := by
  unfold State.g; rw [State.fetched_thread]

theorem State.fetched_arch {s : State} {t : Fin 576} : ∀ k, ((s.fetched t).thread k).arch = if k = t.val then (s.thread t.val).arch else (s.thread k).arch := by
  intro k; rw [State.fetched_thread]; split <;> simp [*]

theorem After.of_modThread {s f v : State} {t : Fin 576} {y : Thread} {g : Thread → Thread} (h : Same f v)
    (o : ∀ k, f.thread k = s.thread k) (e : ∀ x : Thread, x.arch = (s.thread t.val).arch → (g x).arch = y.arch) :
    After s f t y (v.modThread t.val g) := by
  refine ⟨fun k => ?_, fun q => h.2.1 q, ?_⟩
  · unfold State.modThread
    rw [State.thread_setThread_at]
    split
    · exact e _ (by rw [h.1, o])
    · rw [h.1, o]
  · have e := h.2.2
    unfold State.modThread State.setThread
    rw [e]

/-- A trap entered at level l. -/
def Thread.trapAt (x : Thread) (l : BitVec 2) (code detail : BitVec 8) (val : Reg) (pc npc : Addr) (ds : Bool) : Thread :=
  let w := x.cur
  let b := w.bank l
  let stat : Reg := (0 : BitVec 68) ++ x.priv ++ BitVec.ofBool (b.stat.getLsbD 0) ++ (0 : BitVec 1)
  let nb : Bank := { b with
    cause := causeWord ds (decide (32 ≤ code.toNat)) detail code
    pc := pc.setWidth 72, npc := npc.setWidth 72, val, stat }
  let v : Addr := b.vec.extractLsb' 0 64
  { x.setCur (w.setBank l nb) with priv := l, pc := v, npc := v + 4, ds := false, sb := [] }

theorem Thread.arch_takeTrap (x : Thread) (c d : BitVec 8) (v : Reg) (pc npc : Addr) (ds : Bool) :
    (x.takeTrap c d v pc npc ds).arch = x.arch.takeTrap c d v pc npc ds := by
  have e : trapLevel x.arch.cur x.arch.priv c = trapLevel x.cur x.priv c := by
    obtain ⟨g, v, pc, npc, ds, mode, ctx, priv, vault, rm, flags, wc, wv, ventry, vrpc, vrsave, ret, sb⟩ := x
    cases vault <;> rfl
  show (Thread.trapAt x (trapLevel x.cur x.priv c) c d v pc npc ds).arch = Thread.trapAt x.arch (trapLevel x.arch.cur x.arch.priv c) c d v pc npc ds
  rw [e]
  generalize trapLevel x.cur x.priv c = l
  obtain ⟨g, v, pc, npc, ds, mode, ctx, priv, vault, rm, flags, wc, wv, ventry, vrpc, vrsave, ret, sb⟩ := x
  by_cases h : l = 2
  · subst h
    cases vault <;> rfl
  · unfold Thread.trapAt WReg.bank WReg.setBank
    simp only [if_neg h]
    cases vault <;> rfl

theorem Thread.arch_fields {x y : Thread} (h : x.arch = y.arch) : x.pc = y.pc ∧ x.npc = y.npc ∧ x.ds = y.ds := by
  have a := congrArg Thread.pc h
  have b := congrArg Thread.npc h
  have c := congrArg Thread.ds h
  exact ⟨a, b, c⟩

theorem State.trapped_after {s f : State} {t : Fin 576} (o : ∀ k, f.thread k = s.thread k) (c d : BitVec 8) (v : Reg) :
    After s f t ((s.thread t.val).takeTrap c d v (s.thread t.val).pc (s.thread t.val).npc (s.thread t.val).ds) (f.trapped t.val c d v) := by
  unfold State.trapped State.trap
  refine After.same (After.of_modThread (State.countEvents_same _ _ _ _ _) o fun x h => ?_) (State.markWrong_same _ _)
  obtain ⟨a, b, e⟩ := Thread.arch_fields h
  rw [Thread.arch_takeTrap, Thread.arch_takeTrap, h, a, b, e]

theorem State.run_trap {s f : State} {t : Fin 576} {i : Instr} {body : State → Done} {c d : BitVec 8} {v : Reg} (h : s.ready t i = true)
   (b : body (s.fetched t) = .trap f c d v) (o : ∀ k, f.thread k = s.thread k) :
   ∃ u, s.run t i body = .next u ∧ After s f t ((s.thread t.val).takeTrap c d v (s.thread t.val).pc (s.thread t.val).npc (s.thread t.val).ds) u := by
  rw [State.run_ready h, b]
  exact ⟨_, rfl, State.trapped_after o c d v⟩

end Sys2Proof.Machine
end

