-- ==== Sys2Proof/Laws/KeepSystem.lean ====
section
/-! SUPPORT. What the operations of Machine/System.lean keep. -/

namespace Sys2Proof.Machine

variable {P : State → Prop}

theorem execSyscall_pres (C : Loud P) {s : State} (a1 : Fin 576) (h : P s) : OnNext P (execSyscall a1 s) := by
  unfold execSyscall
  try dsimp only
  repeat' first
    | with_reducible assumption
    | with_reducible apply State.run_pres C
    | with_reducible apply OnDone.call
    | with_reducible intro _

theorem execHvcall_pres (C : Loud P) {s : State} (a1 : Fin 576) (h : P s) : OnNext P (execHvcall a1 s) := by
  unfold execHvcall
  try dsimp only
  repeat' first
    | with_reducible assumption
    | with_reducible apply State.run_pres C
    | with_reducible apply needPriv_pres C.toQuiet
    | with_reducible apply OnDone.call
    | with_reducible intro _

theorem execTret_pres (C : Loud P) {s : State} (a1 : Fin 576) (h : P s) : OnNext P (execTret a1 s) := by
  unfold execTret
  refine State.run_pres C _ _ _ (fun x0 hx => ?_) h
  refine needPriv_pres C.toQuiet _ _ _ _ (fun x0 hx => ?_) hx
  exact State.modThread_pres C _ _ hx fun x k => Thread.legal_trapReturn k

theorem execWait_pres (C : Loud P) {s : State} (a1 : Fin 576) (h : P s) : OnNext P (execWait a1 s) := by
  unfold execWait
  try dsimp only
  repeat' first
    | with_reducible assumption
    | (have := ‹Thread.legal _ = true›; exact Thread.legal_congr this rfl rfl rfl rfl rfl rfl rfl rfl)
    | with_reducible apply State.run_pres C
    | with_reducible apply Done.ord_pres C.toQuiet
    | with_reducible apply State.modThread_pres C
    | with_reducible apply pres_ite
    | with_reducible apply OnDone.wait
    | with_reducible intro _

theorem State.endWait_pres (C : Loud P) {s : State} (a1 : ℕ) (h : P s) : P (State.endWait s a1) := by
  unfold State.endWait
  try dsimp only
  repeat' first
    | with_reducible assumption
    | (have := ‹Thread.legal _ = true›; exact Thread.legal_congr this rfl rfl rfl rfl rfl rfl rfl rfl)
    | with_reducible apply State.modThread_pres C
    | with_reducible apply State.modCore_pres C.toQuiet
    | with_reducible apply State.complete_pres C
    | exact .inl trivial
    | with_reducible intro _

theorem execWaitComplete_pres (C : Loud P) (a1 : Fin 576) {s : State} (h : P s) : OnNext P (execWaitComplete a1 s) := by
  unfold execWaitComplete
  try dsimp only
  repeat' first
    | with_reducible assumption
    | with_reducible apply State.endWait_pres C
    | with_reducible apply pres_ite
    | with_reducible apply OnNext.mk
    | with_reducible intro _

theorem execLaunch_pres (C : Loud P) {s : State} (a1 : Fin 576) (a2 : BitVec 6) (a3 : BitVec 6) (h : P s) : OnNext P (execLaunch a1 a2 a3 s) := by
  unfold execLaunch
  try dsimp only
  repeat' first
    | with_reducible assumption
    | (have := ‹Thread.legal _ = true›; exact Thread.legal_congr this rfl rfl rfl rfl rfl rfl rfl rfl)
    | with_reducible apply State.run_pres C
    | with_reducible apply Done.ord_pres C.toQuiet
    | with_reducible apply State.setG_pres C
    | with_reducible apply State.modThread_pres C
    | with_reducible apply OnDone.wait
    | with_reducible intro _
    | split

theorem execInterrupt_pres (C : Loud P) (a1 : Fin 576) {s : State} (h : P s) : OnNext P (execInterrupt a1 s) := by
  unfold execInterrupt
  try dsimp only
  repeat' first
    | with_reducible assumption
    | with_reducible apply State.takeInt_pres C
    | with_reducible apply State.launchEnd_pres C
    | with_reducible apply State.endWait_pres C
    | with_reducible apply pres_ite
    | with_reducible apply OnNext.mk
    | with_reducible intro _
    | fail_if_no_progress with_reducible apply C.toQuiet.update
    | split

theorem execVcall_pres (C : Loud P) {s : State} (a1 : Fin 576) (h : P s) : OnNext P (execVcall a1 s) := by
  unfold execVcall
  refine State.run_pres C _ _ _ (fun x0 hx => ?_) h
  refine needPriv_pres C.toQuiet _ _ _ _ (fun x0 hx => ?_) hx
  dsimp only
  refine pres_ite (fun _ => hx) fun _ => pres_ite (fun _ => hx) fun _ => ?_
  refine State.modThread_pres C _ _ hx fun x k => Thread.legal_vcall k _ ?_
  rw [aligned_iff, BitVec.getLsbD_append, BitVec.getLsbD_append]
  exact ⟨rfl, rfl⟩

theorem execVret_pres (C : Loud P) {s : State} (a1 : Fin 576) (h : P s) : OnNext P (execVret a1 s) := by
  unfold execVret
  refine State.run_pres C _ _ _ (fun x0 hx => ?_) h
  refine needPriv_pres C.toQuiet _ _ _ _ (fun x0 hx => ?_) hx
  dsimp only
  refine pres_ite (fun _ => hx) fun _ => ?_
  refine OnDone.moved (State.useKey_pres C.toQuiet _ _ ?_)
  exact C.thread _ _ _ hx fun k => Thread.legal_vret k

end Sys2Proof.Machine
end

