-- ==== Sys2Proof/Laws/KeepControlRegs.lean ====
section
/-! SUPPORT. What the operations of Machine/ControlRegs.lean keep. -/

namespace Sys2Proof.Machine

variable {P : State → Prop}

theorem State.freeCount_pres (C : Quiet P) {s : State}  (h : P s) : OnFst P (State.freeCount s) := by
  unfold State.freeCount
  try dsimp only
  repeat' first
    | with_reducible assumption
    | (with_reducible apply OnSnd.snd; with_reducible apply State.takeFree_pres C)
    | with_reducible apply OnFst.mk

theorem State.crGet_pres (C : Quiet P) {s : State} (a1 : Fin 576) (a2 : ℕ) (h : P s) : OnFst P (State.crGet s a1 a2) := by
  unfold State.crGet
  try dsimp only
  repeat' first
    | with_reducible assumption
    | with_reducible apply State.freeCount_pres C
    | (with_reducible apply OnFst.fst; with_reducible apply State.freeCount_pres C)
    | with_reducible apply pres_ite
    | with_reducible exact OnFst.get (by with_reducible assumption)
    | with_reducible intro _
    | with_reducible refine OnFst.eq ?_ (by with_reducible assumption)
    | fail_if_no_progress with_reducible apply C.update
    | split
    | with_reducible apply OnFst.mk

theorem State.modCur_pres (C : Loud P) {s : State} (a1 : Nat) (a2 : WReg → WReg) (h2 : ∀ w : WReg, w.legal = true → (a2 w).legal = true)
    (h : P s) : P (State.modCur s a1 a2) :=
  State.modThread_pres C _ _ h fun _ k => Thread.legal_setCur k (h2 _ (Thread.legal_cur k))

theorem State.crSet_pres (C : Loud P) {s : State} (a1 : Fin 576) (a2 : Nat) (a3 : Reg) (p : BitVec 2)
    (k : crBad a2 p a3 = false) (h : P s) : P (State.crSet s a1 a2 a3) := by
  unfold State.crSet
  dsimp only
  split
  · refine State.useKey_pres C.toQuiet _ _ (State.modThread_pres C _ _ h fun x k => ?_)
    exact Thread.legal_congr k rfl rfl rfl rfl rfl rfl rfl rfl
  · exact State.modThread_pres C _ _ h fun x g => Thread.legal_rm g p a3 k
  · exact State.modThread_pres C _ _ h fun x k => Thread.legal_congr k rfl rfl rfl rfl rfl rfl rfl rfl
  · refine State.modCur_pres C _ _ (fun w g => ?_) h
    rw [WReg.legal_iff] at *
    rw [crBad_troute] at k
    exact ⟨g.1, g.2.1, troute_bit k⟩
  · exact State.modCur_pres C _ _ (fun w g => WReg.legal_congr g rfl rfl rfl) h
  · exact State.modCur_pres C _ _ (fun w g => WReg.legal_congr g rfl rfl rfl) h
  · exact State.modCore_pres C.toQuiet _ _ h
  · exact State.stepRequest_pres C.toQuiet _ _ h
  · exact State.modCur_pres C _ _ (fun w g => WReg.legal_congr g rfl rfl rfl) h
  · exact State.modCur_pres C _ _ (fun w g => WReg.legal_congr g rfl rfl rfl) h
  · exact State.modCur_pres C _ _ (fun w g => WReg.legal_congr g rfl rfl rfl) h
  · exact State.modCur_pres C _ _ (fun w g => WReg.legal_congr g rfl rfl rfl) h
  · refine pres_ite (fun c => ?_) fun _ => pres_ite (fun c => ?_) fun _ => pres_ite (fun _ => ?_) fun _ => pres_ite (fun _ => ?_) fun _ => ?_
    · have b : bankBad false (a2 - 0o0010) a3 = false := by
        unfold crBad at k
        split at k <;> first | omega | (rw [if_pos c] at k; exact k)
      refine State.modCur_pres C _ _ (fun w g => ?_) h
      rw [WReg.legal_iff] at *
      exact ⟨bankBad_any _ _ _ g.1 b, g.2⟩
    · have b : bankBad true (a2 - 0o0020) a3 = false := by
        unfold crBad at k
        split at k <;> first | omega | (rw [if_neg (by omega), if_pos c] at k; exact k)
      refine State.modCur_pres C _ _ (fun w g => ?_) h
      rw [WReg.legal_iff] at *
      exact ⟨g.1, bankBad_any _ _ _ g.2.1 b, g.2.2⟩
    · exact State.modCur_pres C _ _ (fun w g => WReg.legal_congr g rfl rfl rfl) h
    · exact State.modCur_pres C _ _ (fun w g => WReg.legal_congr g rfl rfl rfl) h
    · exact State.modCore_pres C.toQuiet _ _ h

theorem crrPart_pres (C : Loud P) {s : State} (a1 : Fin 576) (a2 : BitVec 6) (a3 : ℕ) (a4 : W36) (h : P s) : OnDone P (crrPart a1 a2 a3 a4 s) := by
  unfold crrPart
  try dsimp only
  repeat' first
    | with_reducible assumption
    | (with_reducible apply OnFst.fst; with_reducible apply State.crGet_pres C.toQuiet)
    | with_reducible apply Done.ord_pres C.toQuiet
    | with_reducible apply State.setG_pres C
    | with_reducible apply pres_ite
    | with_reducible apply OnDone.trap
    | with_reducible intro _
    | split

theorem crwPart_pres (C : Loud P) {s : State} (a1 : Fin 576) (a2 : BitVec 6) (a3 : ℕ) (a4 : W36) (h : P s) : OnDone P (crwPart a1 a2 a3 a4 s) := by
  unfold crwPart
  dsimp only
  split
  · exact h
  · split
    · exact h
    · refine pres_ite (fun _ => h) fun k => pres_ite (fun _ => h) fun _ => pres_ite (fun _ => ?_) fun _ => pres_ite (fun _ => ?_) fun _ => ?_
      · refine OnDone.wait (State.modThread_pres C _ _ ?_ fun x k => Thread.legal_congr k rfl rfl rfl rfl rfl rfl rfl rfl)
        exact C.of s _ h rfl rfl rfl rfl
      · refine OnDone.wait (State.modThread_pres C _ _ ?_ fun x k => Thread.legal_congr k rfl rfl rfl rfl rfl rfl rfl rfl)
        exact C.of _ _ h rfl rfl rfl rfl
      · exact OnDone.wrote h fun u g => State.crSet_pres C _ _ _ _ (Bool.eq_false_iff.mpr k) g

theorem execCrr_pres (C : Loud P) {s : State} (a1 : Fin 576) (a2 : BitVec 6) (a3 : BitVec 10) (h : P s) : OnNext P (execCrr a1 a2 a3 s) := by
  unfold execCrr
  try dsimp only
  repeat' first
    | with_reducible assumption
    | with_reducible apply State.run_pres C
    | with_reducible apply crrPart_pres C
    | with_reducible intro _

theorem execCrw_pres (C : Loud P) {s : State} (a1 : Fin 576) (a2 : BitVec 6) (a3 : BitVec 10) (h : P s) : OnNext P (execCrw a1 a2 a3 s) := by
  unfold execCrw
  try dsimp only
  repeat' first
    | with_reducible assumption
    | with_reducible apply State.run_pres C
    | with_reducible apply crwPart_pres C
    | with_reducible intro _

theorem execCrwCtxid_pres (C : Loud P) {s : State} (a1 : Fin 576) (a2 : BitVec 6) (h : P s) : OnNext P (execCrwCtxid a1 a2 s) := by
  unfold execCrwCtxid
  try dsimp only
  repeat' first
    | with_reducible assumption
    | with_reducible apply State.run_pres C
    | with_reducible apply crwPart_pres C
    | with_reducible intro _

theorem execTlbinvPage_pres (C : Loud P) {s : State} (a1 : Fin 576) (a2 : BitVec 6) (h : P s) : OnNext P (execTlbinvPage a1 a2 s) := by
  unfold execTlbinvPage
  try dsimp only
  repeat' first
    | with_reducible assumption
    | with_reducible apply State.run_pres C
    | with_reducible apply crwPart_pres C
    | with_reducible intro _

theorem execTlbinvContext_pres (C : Loud P) {s : State} (a1 : Fin 576) (a2 : BitVec 6) (h : P s) : OnNext P (execTlbinvContext a1 a2 s) := by
  unfold execTlbinvContext
  try dsimp only
  repeat' first
    | with_reducible assumption
    | with_reducible apply State.run_pres C
    | with_reducible apply crwPart_pres C
    | with_reducible intro _

theorem execTlbinvTable_pres (C : Loud P) {s : State} (a1 : Fin 576) (a2 : BitVec 6) (h : P s) : OnNext P (execTlbinvTable a1 a2 s) := by
  unfold execTlbinvTable
  try dsimp only
  repeat' first
    | with_reducible assumption
    | with_reducible apply State.run_pres C
    | with_reducible apply crwPart_pres C
    | with_reducible intro _

theorem execTlbinvPageAll_pres (C : Loud P) {s : State} (a1 : Fin 576) (a2 : BitVec 6) (h : P s) : OnNext P (execTlbinvPageAll a1 a2 s) := by
  unfold execTlbinvPageAll
  try dsimp only
  repeat' first
    | with_reducible assumption
    | with_reducible apply State.run_pres C
    | with_reducible apply crwPart_pres C
    | with_reducible intro _

theorem execCtxreseed_pres (C : Loud P) {s : State} (a1 : Fin 576) (a2 : BitVec 6) (h : P s) : OnNext P (execCtxreseed a1 a2 s) := by
  unfold execCtxreseed
  try dsimp only
  repeat' first
    | with_reducible assumption
    | with_reducible apply State.run_pres C
    | with_reducible apply crwPart_pres C
    | with_reducible intro _

theorem execFstepWrite_pres (C : Loud P) {s : State} (a1 : Fin 576) (a2 : BitVec 6) (h : P s) : OnNext P (execFstepWrite a1 a2 s) := by
  unfold execFstepWrite
  try dsimp only
  repeat' first
    | with_reducible assumption
    | with_reducible apply State.run_pres C
    | with_reducible apply crwPart_pres C
    | with_reducible intro _

theorem State.endCrw_pres (C : Loud P) {s : State} (a1 : ℕ) (h : P s) : P (State.endCrw s a1) := by
  unfold State.endCrw
  try dsimp only
  repeat' first
    | with_reducible assumption
    | (have := ‹Thread.legal _ = true›; exact Thread.legal_congr this rfl rfl rfl rfl rfl rfl rfl rfl)
    | with_reducible apply State.complete_pres C
    | with_reducible apply State.modThread_pres C
    | exact .inl trivial
    | with_reducible intro _

theorem execTlbinvBroadcastApplied_pres (C : Loud P) (a1 : Fin 576) {s : State} (h : P s) : OnNext P (execTlbinvBroadcastApplied a1 s) := by
  unfold execTlbinvBroadcastApplied
  try dsimp only
  repeat' first
    | with_reducible assumption
    | with_reducible apply State.endCrw_pres C
    | with_reducible apply State.tlbInvAll_pres C.toQuiet
    | with_reducible apply pres_ite
    | with_reducible apply OnNext.mk
    | with_reducible intro _
    | fail_if_no_progress with_reducible apply C.toQuiet.update
    | split

theorem execReseedStart_pres (C : Quiet P) (a1 : ℕ) {s : State} (h : P s) : OnNext P (execReseedStart a1 s) := by
  unfold execReseedStart
  try dsimp only
  repeat' first
    | with_reducible assumption
    | with_reducible apply OnNext.mk
    | with_reducible intro _
    | fail_if_no_progress with_reducible apply C.update
    | split

theorem execReseedDone_pres (C : Loud P) {s : State} (a1 : Bool) (a2 : BitVec 64) (h : P s) : OnNext P (execReseedDone a1 a2 s) := by
  unfold execReseedDone
  try dsimp only
  repeat' first
    | with_reducible assumption
    | with_reducible apply State.recKey_pres C.toQuiet
    | with_reducible apply State.modCore_pres C.toQuiet
    | with_reducible apply State.endCrw_pres C
    | with_reducible apply pres_ite
    | with_reducible apply OnNext.mk
    | with_reducible intro _
    | fail_if_no_progress with_reducible apply C.toQuiet.update
    | split

end Sys2Proof.Machine
end

