-- ==== Sys2Proof/Laws/KeepFloat.lean ====
section
/-! SUPPORT. What the operations of Machine/Float.lean keep. -/

namespace Sys2Proof.Machine

variable {P : State → Prop}

theorem State.raise_pres (C : Loud P) {s : State} (a1 : Fin 576) (a2 : FFlags) (h : P s) : P (State.raise s a1 a2) := by
  unfold State.raise
  try dsimp only
  repeat' first
    | with_reducible assumption
    | (have := ‹Thread.legal _ = true›; exact Thread.legal_congr this rfl rfl rfl rfl rfl rfl rfl rfl)
    | with_reducible apply State.modThread_pres C
    | with_reducible intro _

theorem writeF_pres (C : Loud P) {s : State} (a1 : Fin 576) (a2 : BitVec 6) (a3 : State → Reg × FFlags) (h : P s) : OnDone P (writeF a1 a2 a3 s) := by
  unfold writeF
  try dsimp only
  repeat' first
    | with_reducible assumption
    | with_reducible apply Done.ord_pres C.toQuiet
    | with_reducible apply State.raise_pres C
    | with_reducible apply State.setG_pres C

theorem execFop64_pres (C : Loud P) {s : State} (a1 : Fin 576) (a2 : BitVec 6) (a3 : BitVec 6) (a4 : BitVec 6) (a5 : FOp) (a6 : Rm) (h : P s) : OnNext P (execFop64 a1 a2 a3 a4 a5 a6 s) := by
  unfold execFop64
  try dsimp only
  repeat' first
    | with_reducible assumption
    | with_reducible apply State.run_pres C
    | with_reducible apply writeF_pres C
    | with_reducible intro _

theorem execFop32_pres (C : Loud P) {s : State} (a1 : Fin 576) (a2 : BitVec 6) (a3 : BitVec 6) (a4 : BitVec 6) (a5 : FOp) (a6 : Rm) (h : P s) : OnNext P (execFop32 a1 a2 a3 a4 a5 a6 s) := by
  unfold execFop32
  try dsimp only
  repeat' first
    | with_reducible assumption
    | with_reducible apply State.run_pres C
    | with_reducible apply writeF_pres C
    | with_reducible intro _

theorem execFma64_pres (C : Loud P) {s : State} (a1 : Fin 576) (a2 : BitVec 6) (a3 : BitVec 6) (a4 : BitVec 6) (a5 : FmaOp) (a6 : Rm) (h : P s) : OnNext P (execFma64 a1 a2 a3 a4 a5 a6 s) := by
  unfold execFma64
  try dsimp only
  repeat' first
    | with_reducible assumption
    | with_reducible apply State.run_pres C
    | with_reducible apply writeF_pres C
    | with_reducible intro _

theorem execFma32_pres (C : Loud P) {s : State} (a1 : Fin 576) (a2 : BitVec 6) (a3 : BitVec 6) (a4 : BitVec 6) (a5 : FmaOp) (a6 : Rm) (h : P s) : OnNext P (execFma32 a1 a2 a3 a4 a5 a6 s) := by
  unfold execFma32
  try dsimp only
  repeat' first
    | with_reducible assumption
    | with_reducible apply State.run_pres C
    | with_reducible apply writeF_pres C
    | with_reducible intro _

theorem execFcvt_pres (C : Loud P) {s : State} (a1 : Fin 576) (a2 : BitVec 6) (a3 : BitVec 6) (a4 : CvtOp) (a5 : Rm) (h : P s) : OnNext P (execFcvt a1 a2 a3 a4 a5 s) := by
  unfold execFcvt
  try dsimp only
  repeat' first
    | with_reducible assumption
    | with_reducible apply State.run_pres C
    | with_reducible apply writeF_pres C
    | with_reducible intro _

theorem execFcmp_pres (C : Loud P) {s : State} (a1 : Fin 576) (a2 : BitVec 6) (a3 : BitVec 6) (a4 : BitVec 6) (a5 : Bool) (a6 : Bool) (a7 : FRel) (h : P s) : OnNext P (execFcmp a1 a2 a3 a4 a5 a6 a7 s) := by
  unfold execFcmp
  try dsimp only
  repeat' first
    | with_reducible assumption
    | with_reducible apply State.run_pres C
    | with_reducible apply writeF_pres C
    | with_reducible intro _

theorem State.setV_pres (C : Loud P) {s : State} (a1 : Fin 576) (a2 : BitVec 5) (a3 : LineBits) (h : P s) : P (State.setV s a1 a2 a3) := by
  unfold State.setV
  try dsimp only
  repeat' first
    | with_reducible assumption
    | (have := ‹Thread.legal _ = true›; exact Thread.legal_congr this rfl rfl rfl rfl rfl rfl rfl rfl)
    | with_reducible apply State.modThread_pres C
    | with_reducible intro _

theorem execVop_pres (C : Loud P) {s : State} (a1 : Fin 576) (a2 : BitVec 5) (a3 : BitVec 5) (a4 : BitVec 5) (a5 : VElt) (a6 : VOp) (h : P s) : OnNext P (execVop a1 a2 a3 a4 a5 a6 s) := by
  unfold execVop
  try dsimp only
  repeat' first
    | with_reducible assumption
    | with_reducible apply State.run_pres C
    | with_reducible apply Done.ord_pres C.toQuiet
    | with_reducible apply State.setV_pres C
    | with_reducible intro _

theorem execVfop_pres (C : Loud P) {s : State} (a1 : Fin 576) (a2 : BitVec 5) (a3 : BitVec 5) (a4 : BitVec 5) (a5 : Bool) (a6 : FOp) (a7 : Rm) (h : P s) : OnNext P (execVfop a1 a2 a3 a4 a5 a6 a7 s) := by
  unfold execVfop
  try dsimp only
  repeat' first
    | with_reducible assumption
    | with_reducible apply State.run_pres C
    | with_reducible apply Done.ord_pres C.toQuiet
    | with_reducible apply State.raise_pres C
    | with_reducible apply State.setV_pres C
    | with_reducible intro _

theorem execVmov_pres (C : Loud P) {s : State} (a1 : Fin 576) (a2 : VmovKind) (a3 : BitVec 5) (a4 : BitVec 6) (a5 : BitVec 6) (a6 : VElt) (h : P s) : OnNext P (execVmov a1 a2 a3 a4 a5 a6 s) := by
  unfold execVmov
  try dsimp only
  repeat' first
    | with_reducible assumption
    | with_reducible apply State.run_pres C
    | with_reducible apply Done.ord_pres C.toQuiet
    | with_reducible apply State.setV_pres C
    | with_reducible apply State.setG_pres C
    | with_reducible intro _
    | split

end Sys2Proof.Machine
end

