-- ==== Sys2Proof/Laws/KeepFlow.lean ====
section
/-! SUPPORT. What the operations of Machine/Flow.lean keep. -/

namespace Sys2Proof.Machine

variable {P : State → Prop}

theorem skipDone_pres (C : Quiet P) {s : State} (a1 : Fin 576) (a2 : Cond) (a3 : BitVec 6) (a4 : State → Reg) (h : P s) : OnDone P (skipDone a1 a2 a3 a4 s) := by
  unfold skipDone
  try dsimp only
  repeat' first
    | with_reducible assumption
    | with_reducible apply pres_ite
    | exact .inl trivial
    | with_reducible apply OnDone.mk
    | with_reducible intro _

theorem execSkipr_pres (C : Loud P) {s : State} (a1 : Fin 576) (a2 : BitVec 6) (a3 : BitVec 6) (a4 : Cond) (h : P s) : OnNext P (execSkipr a1 a2 a3 a4 s) := by
  unfold execSkipr
  try dsimp only
  repeat' first
    | with_reducible assumption
    | with_reducible apply State.run_pres C
    | with_reducible apply skipDone_pres C.toQuiet
    | with_reducible intro _

theorem execSkipi_pres (C : Loud P) {s : State} (a1 : Fin 576) (a2 : BitVec 6) (a3 : Cond) (a4 : BitVec 18) (h : P s) : OnNext P (execSkipi a1 a2 a3 a4 s) := by
  unfold execSkipi
  try dsimp only
  repeat' first
    | with_reducible assumption
    | with_reducible apply State.run_pres C
    | with_reducible apply skipDone_pres C.toQuiet
    | with_reducible intro _

theorem execBr_pres (C : Loud P) {s : State} (a1 : Fin 576) (a2 : Bool) (a3 : BitVec 27) (h : P s) : OnNext P (execBr a1 a2 a3 s) := by
  unfold execBr
  exact State.run_pres C _ _ _ (fun x0 hx => ⟨hx, branchTo_ok C _ _ hx⟩) h

theorem execBl_pres (C : Loud P) {s : State} (a1 : Fin 576) (a2 : Bool) (a3 : BitVec 27) (h : P s) : OnNext P (execBl a1 a2 a3 s) := by
  unfold execBl
  refine State.run_pres C _ _ _ (fun x0 hx => ⟨?_, branchTo_ok C _ _ hx⟩) h
  refine State.modThread_pres C _ _ hx fun x k => ?_
  exact Thread.legal_congr (Thread.legal_setGr k _ _) rfl rfl rfl rfl rfl rfl rfl rfl

theorem execJr_pres (C : Loud P) (a1 : Fin 576) (a2 : Bool) (a3 : BitVec 6) (a4 : BitVec 6) {s : State} (h : P s) : OnNext P (execJr a1 a2 a3 a4 s) := by
  unfold execJr
  refine State.run_pres C _ _ _ (fun x0 hx => ?_) h
  dsimp only
  refine pres_ite (fun _ => hx) fun k => ⟨?_, .inl (Classical.not_not.mp k)⟩
  have m : P (x0.modThread a1.val fun y => { y.setGr a3 (linkOf (x0.thread a1.val)) with ret := (jrStack (x0.thread a1.val) a3 a4 (low64 ((x0.thread a1.val).gr a4))).1 }) := by
    refine State.modThread_pres C _ _ hx fun x k => ?_
    exact Thread.legal_congr (Thread.legal_setGr k _ _) rfl rfl rfl rfl rfl rfl rfl rfl
  exact pres_ite (fun _ => State.markWrong_pres C.toQuiet _ m) fun _ => m

theorem execDbnz_pres (C : Loud P) {s : State} (a1 : Fin 576) (a2 : Bool) (a3 : BitVec 6) (a4 : BitVec 21) (h : P s) : OnNext P (execDbnz a1 a2 a3 a4 s) := by
  unfold execDbnz
  refine State.run_pres C _ _ _ (fun x0 hx => ?_) h
  refine ⟨State.setG_pres C _ _ _ hx, ?_⟩
  exact pres_ite (Q := Flow.ok P) (fun _ => branchTo_ok C _ _ hx) fun _ => .inl trivial

end Sys2Proof.Machine
end

