-- ==== Sys2Proof/Laws/KeepInteger.lean ====
section
/-! SUPPORT. What the operations of Machine/Integer.lean keep. -/

namespace Sys2Proof.Machine

variable {P : State → Prop}

theorem execNop_pres (C : Loud P) {s : State} (a1 : Fin 576) (h : P s) : OnNext P (execNop a1 s) := by
  unfold execNop
  try dsimp only
  repeat' first
    | with_reducible assumption
    | with_reducible apply State.run_pres C
    | with_reducible apply Done.ord_pres C.toQuiet
    | with_reducible intro _

theorem execIllegalInstruction_pres (C : Loud P) (a1 : Fin 576) (a2 : W36) {s : State} (h : P s) : OnNext P (execIllegalInstruction a1 a2 s) := by
  unfold execIllegalInstruction
  try dsimp only
  repeat' first
    | with_reducible assumption
    | with_reducible apply Done.ord_pres C.toQuiet
    | with_reducible apply State.run_pres C
    | with_reducible apply pres_ite
    | with_reducible apply OnNext.mk
    | with_reducible intro _

theorem execFence_pres (C : Loud P) {s : State} (a1 : Fin 576) (a2 : FenceKind) (h : P s) : OnNext P (execFence a1 a2 s) := by
  unfold execFence
  try dsimp only
  repeat' first
    | with_reducible assumption
    | with_reducible apply State.run_pres C
    | with_reducible apply Done.ord_pres C.toQuiet
    | with_reducible intro _

theorem execAlu72_pres (C : Loud P) {s : State} (a1 : Fin 576) (a2 : BitVec 6) (a3 : BitVec 6) (a4 : BitVec 6) (a5 : AluOp) (h : P s) : OnNext P (execAlu72 a1 a2 a3 a4 a5 s) := by
  unfold execAlu72
  try dsimp only
  repeat' first
    | with_reducible assumption
    | with_reducible apply State.run_pres C
    | with_reducible apply writeG_pres C
    | with_reducible intro _

theorem execAlu36_pres (C : Loud P) {s : State} (a1 : Fin 576) (a2 : BitVec 6) (a3 : BitVec 6) (a4 : BitVec 6) (a5 : AluOp) (h : P s) : OnNext P (execAlu36 a1 a2 a3 a4 a5 s) := by
  unfold execAlu36
  try dsimp only
  repeat' first
    | with_reducible assumption
    | with_reducible apply State.run_pres C
    | with_reducible apply writeG_pres C
    | with_reducible intro _

theorem execAddi_pres (C : Loud P) {s : State} (a1 : Fin 576) (a2 : BitVec 6) (a3 : BitVec 6) (a4 : BitVec 16) (h : P s) : OnNext P (execAddi a1 a2 a3 a4 s) := by
  unfold execAddi
  try dsimp only
  repeat' first
    | with_reducible assumption
    | with_reducible apply State.run_pres C
    | with_reducible apply writeG_pres C
    | with_reducible intro _

theorem execAddi36_pres (C : Loud P) {s : State} (a1 : Fin 576) (a2 : BitVec 6) (a3 : BitVec 6) (a4 : BitVec 16) (h : P s) : OnNext P (execAddi36 a1 a2 a3 a4 s) := by
  unfold execAddi36
  try dsimp only
  repeat' first
    | with_reducible assumption
    | with_reducible apply State.run_pres C
    | with_reducible apply writeG_pres C
    | with_reducible intro _

theorem execAndi_pres (C : Loud P) {s : State} (a1 : Fin 576) (a2 : BitVec 6) (a3 : BitVec 6) (a4 : BitVec 16) (h : P s) : OnNext P (execAndi a1 a2 a3 a4 s) := by
  unfold execAndi
  try dsimp only
  repeat' first
    | with_reducible assumption
    | with_reducible apply State.run_pres C
    | with_reducible apply writeG_pres C
    | with_reducible intro _

theorem execOri_pres (C : Loud P) {s : State} (a1 : Fin 576) (a2 : BitVec 6) (a3 : BitVec 6) (a4 : BitVec 16) (h : P s) : OnNext P (execOri a1 a2 a3 a4 s) := by
  unfold execOri
  try dsimp only
  repeat' first
    | with_reducible assumption
    | with_reducible apply State.run_pres C
    | with_reducible apply writeG_pres C
    | with_reducible intro _

theorem execXori_pres (C : Loud P) {s : State} (a1 : Fin 576) (a2 : BitVec 6) (a3 : BitVec 6) (a4 : BitVec 16) (h : P s) : OnNext P (execXori a1 a2 a3 a4 s) := by
  unfold execXori
  try dsimp only
  repeat' first
    | with_reducible assumption
    | with_reducible apply State.run_pres C
    | with_reducible apply writeG_pres C
    | with_reducible intro _

theorem execShi_pres (C : Loud P) {s : State} (a1 : Fin 576) (a2 : BitVec 6) (a3 : BitVec 6) (a4 : ShKind) (a5 : Bool) (a6 : BitVec 7) (h : P s) : OnNext P (execShi a1 a2 a3 a4 a5 a6 s) := by
  unfold execShi
  try dsimp only
  repeat' first
    | with_reducible assumption
    | with_reducible apply State.run_pres C
    | with_reducible apply writeG_pres C
    | with_reducible intro _

theorem execLi_pres (C : Loud P) {s : State} (a1 : Fin 576) (a2 : BitVec 6) (a3 : BitVec 22) (h : P s) : OnNext P (execLi a1 a2 a3 s) := by
  unfold execLi
  try dsimp only
  repeat' first
    | with_reducible assumption
    | with_reducible apply State.run_pres C
    | with_reducible apply writeG_pres C
    | with_reducible intro _

theorem execInsh_pres (C : Loud P) {s : State} (a1 : Fin 576) (a2 : BitVec 6) (a3 : BitVec 2) (a4 : BitVec 18) (h : P s) : OnNext P (execInsh a1 a2 a3 a4 s) := by
  unfold execInsh
  try dsimp only
  repeat' first
    | with_reducible assumption
    | with_reducible apply State.run_pres C
    | with_reducible apply writeG_pres C
    | with_reducible intro _

end Sys2Proof.Machine
end

