-- ==== Sys2Proof/Laws/KeepMarked.lean ====
section
/-! SUPPORT. What the operations of Machine/Marked.lean keep. -/

namespace Sys2Proof.Machine

variable {P : State → Prop}

theorem markFails_pres (C : Quiet P) {s : State} (a1 : Bool) (a2 : BitVec 8) (a3 : BitVec 8) (a4 : List (ℕ × ℕ)) (h : P s) : OnDone P (markFails a1 a2 a3 s a4) := by
  unfold markFails
  try dsimp only
  repeat' first
    | with_reducible assumption
    | with_reducible apply pres_ite
    | exact .inl trivial
    | with_reducible apply OnDone.mk
    | with_reducible apply OnDone.trap
    | with_reducible intro _

theorem markPasses_pres (C : Quiet P) {s : State} (a1 : Bool) (a2 : List (ℕ × ℕ)) (h : P s) : OnDone P (markPasses a1 s a2) := by
  unfold markPasses
  try dsimp only
  repeat' first
    | with_reducible assumption
    | exact .inl trivial
    | with_reducible apply OnDone.mk

theorem markedOp_pres (C : Loud P) {s : State} (a1 : Fin 576) (a2 : MarkOp) (a3 : BitVec 6) (a4 : BitVec 6) (a5 : BitVec 6) (a6 : BitVec 8) (a7 : Bool) (a8 : Bool) (h : P s) : OnDone P (markedOp a1 a2 a3 a4 a5 a6 a7 a8 s) := by
  unfold markedOp
  try dsimp only
  repeat' first
    | with_reducible assumption
    | with_reducible apply markFails_pres C.toQuiet
    | with_reducible apply markPasses_pres C.toQuiet
    | with_reducible apply State.setG_pres C
    | with_reducible apply pres_ite
    | with_reducible intro _
    | split

theorem execAddM_pres (C : Loud P) {s : State} (a1 : Fin 576) (a2 : BitVec 6) (a3 : BitVec 6) (a4 : BitVec 6) (a5 : BitVec 8) (a6 : Bool) (a7 : Bool) (h : P s) : OnNext P (execAddM a1 a2 a3 a4 a5 a6 a7 s) := by
  unfold execAddM
  try dsimp only
  repeat' first
    | with_reducible assumption
    | with_reducible apply State.run_pres C
    | with_reducible apply markedOp_pres C
    | with_reducible intro _

theorem execSubM_pres (C : Loud P) {s : State} (a1 : Fin 576) (a2 : BitVec 6) (a3 : BitVec 6) (a4 : BitVec 6) (a5 : BitVec 8) (a6 : Bool) (a7 : Bool) (h : P s) : OnNext P (execSubM a1 a2 a3 a4 a5 a6 a7 s) := by
  unfold execSubM
  try dsimp only
  repeat' first
    | with_reducible assumption
    | with_reducible apply State.run_pres C
    | with_reducible apply markedOp_pres C
    | with_reducible intro _

theorem execMulM_pres (C : Loud P) {s : State} (a1 : Fin 576) (a2 : BitVec 6) (a3 : BitVec 6) (a4 : BitVec 6) (a5 : BitVec 8) (a6 : Bool) (a7 : Bool) (h : P s) : OnNext P (execMulM a1 a2 a3 a4 a5 a6 a7 s) := by
  unfold execMulM
  try dsimp only
  repeat' first
    | with_reducible assumption
    | with_reducible apply State.run_pres C
    | with_reducible apply markedOp_pres C
    | with_reducible intro _

theorem execAndM_pres (C : Loud P) {s : State} (a1 : Fin 576) (a2 : BitVec 6) (a3 : BitVec 6) (a4 : BitVec 6) (a5 : BitVec 8) (a6 : Bool) (a7 : Bool) (h : P s) : OnNext P (execAndM a1 a2 a3 a4 a5 a6 a7 s) := by
  unfold execAndM
  try dsimp only
  repeat' first
    | with_reducible assumption
    | with_reducible apply State.run_pres C
    | with_reducible apply markedOp_pres C
    | with_reducible intro _

theorem execOrM_pres (C : Loud P) {s : State} (a1 : Fin 576) (a2 : BitVec 6) (a3 : BitVec 6) (a4 : BitVec 6) (a5 : BitVec 8) (a6 : Bool) (a7 : Bool) (h : P s) : OnNext P (execOrM a1 a2 a3 a4 a5 a6 a7 s) := by
  unfold execOrM
  try dsimp only
  repeat' first
    | with_reducible assumption
    | with_reducible apply State.run_pres C
    | with_reducible apply markedOp_pres C
    | with_reducible intro _

theorem execXorM_pres (C : Loud P) {s : State} (a1 : Fin 576) (a2 : BitVec 6) (a3 : BitVec 6) (a4 : BitVec 6) (a5 : BitVec 8) (a6 : Bool) (a7 : Bool) (h : P s) : OnNext P (execXorM a1 a2 a3 a4 a5 a6 a7 s) := by
  unfold execXorM
  try dsimp only
  repeat' first
    | with_reducible assumption
    | with_reducible apply State.run_pres C
    | with_reducible apply markedOp_pres C
    | with_reducible intro _

theorem execMtest_pres (C : Loud P) {s : State} (a1 : Fin 576) (a2 : BitVec 6) (a3 : BitVec 8) (a4 : Bool) (a5 : Bool) (h : P s) : OnNext P (execMtest a1 a2 a3 a4 a5 s) := by
  unfold execMtest
  try dsimp only
  repeat' first
    | with_reducible assumption
    | with_reducible apply State.run_pres C
    | with_reducible apply markFails_pres C.toQuiet
    | with_reducible apply markPasses_pres C.toQuiet
    | with_reducible apply pres_ite
    | with_reducible intro _

theorem execMset_pres (C : Loud P) {s : State} (a1 : Fin 576) (a2 : BitVec 6) (a3 : BitVec 6) (a4 : BitVec 8) (a5 : Bool) (h : P s) : OnNext P (execMset a1 a2 a3 a4 a5 s) := by
  unfold execMset
  try dsimp only
  repeat' first
    | with_reducible assumption
    | with_reducible apply State.run_pres C
    | with_reducible apply writeG_pres C
    | with_reducible intro _

theorem execMget_pres (C : Loud P) {s : State} (a1 : Fin 576) (a2 : BitVec 6) (a3 : BitVec 6) (a4 : Bool) (h : P s) : OnNext P (execMget a1 a2 a3 a4 s) := by
  unfold execMget
  try dsimp only
  repeat' first
    | with_reducible assumption
    | with_reducible apply State.run_pres C
    | with_reducible apply writeG_pres C
    | with_reducible intro _

end Sys2Proof.Machine
end

