-- ==== Sys2Proof/Laws/KeepMemory.lean ====
section
/-! SUPPORT. What the operations of Machine/Memory.lean keep. -/

namespace Sys2Proof.Machine

variable {P : State → Prop}

theorem State.prep_pres (C : Quiet P) {s : State} (a1 : Fin 576) (a2 : Addr) (a3 : MUnit5) (a4 : TKind) (a5 : Reach) (h : P s) : OnPrep P (State.prep s a1 a2 a3 a4 a5) := by
  unfold State.prep
  try dsimp only
  repeat' first
    | with_reducible assumption
    | with_reducible apply State.translate_pres C
    | with_reducible apply pres_ite
    | with_reducible apply OnPrep.go
    | with_reducible apply OnPrep.stop
    | with_reducible apply OnDone.trap
    | with_reducible apply OnDone.wait
    | with_reducible intro _
    | with_reducible refine OnFst.eq ?_ (by with_reducible assumption)
    | split

theorem dataTrap_pres (C : Quiet P) {s : State} (a1 : Addr) (a2 : Resp) (h : P s) : OnDone P (dataTrap s a1 a2) := by
  unfold dataTrap
  try dsimp only
  repeat' first
    | with_reducible assumption
    | with_reducible apply OnDone.trap

theorem State.touch_pres (C : Quiet P) {s : State} (a1 : Fin 576) (a2 : ℕ) (a3 : MUnit5) (a4 : Bool) (a5 : MemOp) (h : P s) : OnGot P (State.touch s a1 a2 a3 a4 a5) := by
  unfold State.touch
  try dsimp only
  repeat' first
    | with_reducible assumption
    | with_reducible apply State.csWrite_pres C
    | with_reducible apply State.csRead_pres C
    | with_reducible apply State.access_pres C
    | with_reducible refine OnFst.eq ?_ (by with_reducible assumption)
    | split
    | with_reducible apply OnGot.mk

theorem State.loads_pres (C : Quiet P) {s : State} (a1 : Fin 576) (a2 : Addr) (a3 : MUnit5) (a4 : Reach) (a5 : State → List (ℕ × ℕ) → LineBits → Done) (h5 : ∀ x0 x1 x2, P x0 → OnDone P (a5 x0 x1 x2)) (h : P s) : OnDone P (State.loads s a1 a2 a3 a4 a5) := by
  unfold State.loads
  try dsimp only
  repeat' first
    | with_reducible assumption
    | with_reducible apply h5
    | with_reducible apply State.prep_pres C
    | (with_reducible apply OnGot.s; with_reducible apply State.touch_pres C)
    | with_reducible apply dataTrap_pres C
    | with_reducible apply OnDone.wait
    | with_reducible refine OnPrep.goEq ?_ (by with_reducible assumption)
    | with_reducible refine OnPrep.stopEq ?_ (by with_reducible assumption)
    | split

theorem State.setSb_pres (C : Loud P) {s : State} (a1 : Fin 576) (a2 : List SbStore) (h : P s) : P (State.setSb s a1 a2) := by
  unfold State.setSb
  try dsimp only
  repeat' first
    | with_reducible assumption
    | (refine State.modThread_pres C _ _ ?_ ?_)
    | (with_reducible intro x k; first | exact Thread.legal_scopeReset _ | exact Thread.legal_congr k rfl rfl rfl rfl rfl rfl rfl rfl | exact Thread.legal_trap k _ _ _ | exact Thread.legal_launchEnd k _ | exact Thread.legal_setWreg k _ (WReg.legal_congr (Thread.legal_wreg k _) rfl rfl rfl))
    | with_reducible intro _
    | fail_if_no_progress with_reducible apply C.toQuiet.update

theorem State.stores_pres (C : Loud P) {s : State} (a1 : Fin 576) (a2 : Addr) (a3 : MUnit5) (a4 : Reach) (a5 : MemOp) (a6 : State → List (ℕ × ℕ) → Option Done) (a7 : State → List (ℕ × ℕ) → LineBits → Done) (h6 : ∀ x0 x1, P x0 → OnSomeDone P (a6 x0 x1)) (h7 : ∀ x0 x1 x2, P x0 → OnDone P (a7 x0 x1 x2)) (h : P s) : OnDone P (State.stores s a1 a2 a3 a4 a5 a6 a7) := by
  unfold State.stores
  try dsimp only
  repeat' first
    | with_reducible assumption
    | with_reducible apply h6
    | with_reducible apply h7
    | with_reducible apply State.prep_pres C.toQuiet
    | (with_reducible apply OnGot.s; with_reducible apply State.touch_pres C.toQuiet)
    | with_reducible apply State.setSb_pres C
    | with_reducible apply dataTrap_pres C.toQuiet
    | with_reducible refine OnSomeDone.eq ?_ (by with_reducible assumption)
    | with_reducible apply OnDone.wait
    | with_reducible refine OnPrep.goEq ?_ (by with_reducible assumption)
    | with_reducible refine OnPrep.stopEq ?_ (by with_reducible assumption)
    | split

theorem noCheck_pres (C : Quiet P) {s : State} (a1 : List (ℕ × ℕ)) (h : P s) : OnSomeDone P (noCheck s a1) := by
  unfold noCheck
  try dsimp only
  repeat' first
    | with_reducible exact OnSomeDone.none

theorem plainEnd_pres (C : Quiet P) {s : State} (a1 : List (ℕ × ℕ)) (a2 : LineBits) (h : P s) : OnDone P (plainEnd s a1 a2) := by
  unfold plainEnd
  try dsimp only
  repeat' first
    | with_reducible assumption
    | exact .inl trivial
    | with_reducible apply OnDone.mk

theorem loadG_pres (C : Loud P) {s : State} (a1 : Fin 576) (a2 : BitVec 6) (a3 : LdSize) (a4 : Reach) (a5 : State → Addr) (h : P s) : OnDone P (loadG a1 a2 a3 a4 a5 s) := by
  unfold loadG
  try dsimp only
  repeat' first
    | with_reducible assumption
    | with_reducible apply State.loads_pres C.toQuiet
    | with_reducible apply State.setG_pres C
    | exact .inl trivial
    | with_reducible apply OnDone.mk
    | with_reducible intro _

theorem execLn_pres (C : Loud P) {s : State} (a1 : Fin 576) (a2 : BitVec 6) (a3 : BitVec 6) (a4 : BitVec 16) (h : P s) : OnNext P (execLn a1 a2 a3 a4 s) := by
  unfold execLn
  try dsimp only
  repeat' first
    | with_reducible assumption
    | with_reducible apply State.run_pres C
    | with_reducible apply loadG_pres C
    | with_reducible intro _

theorem execLns_pres (C : Loud P) {s : State} (a1 : Fin 576) (a2 : BitVec 6) (a3 : BitVec 6) (a4 : BitVec 16) (h : P s) : OnNext P (execLns a1 a2 a3 a4 s) := by
  unfold execLns
  try dsimp only
  repeat' first
    | with_reducible assumption
    | with_reducible apply State.run_pres C
    | with_reducible apply loadG_pres C
    | with_reducible intro _

theorem execLh_pres (C : Loud P) {s : State} (a1 : Fin 576) (a2 : BitVec 6) (a3 : BitVec 6) (a4 : BitVec 16) (h : P s) : OnNext P (execLh a1 a2 a3 a4 s) := by
  unfold execLh
  try dsimp only
  repeat' first
    | with_reducible assumption
    | with_reducible apply State.run_pres C
    | with_reducible apply loadG_pres C
    | with_reducible intro _

theorem execLhs_pres (C : Loud P) {s : State} (a1 : Fin 576) (a2 : BitVec 6) (a3 : BitVec 6) (a4 : BitVec 16) (h : P s) : OnNext P (execLhs a1 a2 a3 a4 s) := by
  unfold execLhs
  try dsimp only
  repeat' first
    | with_reducible assumption
    | with_reducible apply State.run_pres C
    | with_reducible apply loadG_pres C
    | with_reducible intro _

theorem execLw_pres (C : Loud P) {s : State} (a1 : Fin 576) (a2 : BitVec 6) (a3 : BitVec 6) (a4 : BitVec 16) (h : P s) : OnNext P (execLw a1 a2 a3 a4 s) := by
  unfold execLw
  try dsimp only
  repeat' first
    | with_reducible assumption
    | with_reducible apply State.run_pres C
    | with_reducible apply loadG_pres C
    | with_reducible intro _

theorem execLws_pres (C : Loud P) {s : State} (a1 : Fin 576) (a2 : BitVec 6) (a3 : BitVec 6) (a4 : BitVec 16) (h : P s) : OnNext P (execLws a1 a2 a3 a4 s) := by
  unfold execLws
  try dsimp only
  repeat' first
    | with_reducible assumption
    | with_reducible apply State.run_pres C
    | with_reducible apply loadG_pres C
    | with_reducible intro _

theorem execLd_pres (C : Loud P) {s : State} (a1 : Fin 576) (a2 : BitVec 6) (a3 : BitVec 6) (a4 : BitVec 16) (h : P s) : OnNext P (execLd a1 a2 a3 a4 s) := by
  unfold execLd
  try dsimp only
  repeat' first
    | with_reducible assumption
    | with_reducible apply State.run_pres C
    | with_reducible apply loadG_pres C
    | with_reducible intro _

theorem execLx_pres (C : Loud P) {s : State} (a1 : Fin 576) (a2 : BitVec 6) (a3 : BitVec 6) (a4 : BitVec 6) (a5 : LdSize) (a6 : BitVec 2) (h : P s) : OnNext P (execLx a1 a2 a3 a4 a5 a6 s) := by
  unfold execLx
  try dsimp only
  repeat' first
    | with_reducible assumption
    | with_reducible apply State.run_pres C
    | with_reducible apply loadG_pres C
    | with_reducible intro _

theorem storeG_pres (C : Loud P) {s : State} (a1 : Fin 576) (a2 : BitVec 6) (a3 : MUnit) (a4 : Reach) (a5 : State → Addr) (h : P s) : OnDone P (storeG a1 a2 a3 a4 a5 s) := by
  unfold storeG
  try dsimp only
  repeat' first
    | with_reducible assumption
    | with_reducible apply State.stores_pres C
    | with_reducible apply noCheck_pres C.toQuiet
    | with_reducible apply plainEnd_pres C.toQuiet
    | with_reducible intro _

theorem execSn_pres (C : Loud P) {s : State} (a1 : Fin 576) (a2 : BitVec 6) (a3 : BitVec 6) (a4 : BitVec 16) (h : P s) : OnNext P (execSn a1 a2 a3 a4 s) := by
  unfold execSn
  try dsimp only
  repeat' first
    | with_reducible assumption
    | with_reducible apply State.run_pres C
    | with_reducible apply storeG_pres C
    | with_reducible intro _

theorem execSh_pres (C : Loud P) {s : State} (a1 : Fin 576) (a2 : BitVec 6) (a3 : BitVec 6) (a4 : BitVec 16) (h : P s) : OnNext P (execSh a1 a2 a3 a4 s) := by
  unfold execSh
  try dsimp only
  repeat' first
    | with_reducible assumption
    | with_reducible apply State.run_pres C
    | with_reducible apply storeG_pres C
    | with_reducible intro _

theorem execSw_pres (C : Loud P) {s : State} (a1 : Fin 576) (a2 : BitVec 6) (a3 : BitVec 6) (a4 : BitVec 16) (h : P s) : OnNext P (execSw a1 a2 a3 a4 s) := by
  unfold execSw
  try dsimp only
  repeat' first
    | with_reducible assumption
    | with_reducible apply State.run_pres C
    | with_reducible apply storeG_pres C
    | with_reducible intro _

theorem execSd_pres (C : Loud P) {s : State} (a1 : Fin 576) (a2 : BitVec 6) (a3 : BitVec 6) (a4 : BitVec 16) (h : P s) : OnNext P (execSd a1 a2 a3 a4 s) := by
  unfold execSd
  try dsimp only
  repeat' first
    | with_reducible assumption
    | with_reducible apply State.run_pres C
    | with_reducible apply storeG_pres C
    | with_reducible intro _

theorem execSx_pres (C : Loud P) {s : State} (a1 : Fin 576) (a2 : BitVec 6) (a3 : BitVec 6) (a4 : BitVec 6) (a5 : MUnit) (a6 : BitVec 2) (h : P s) : OnNext P (execSx a1 a2 a3 a4 a5 a6 s) := by
  unfold execSx
  try dsimp only
  repeat' first
    | with_reducible assumption
    | with_reducible apply State.run_pres C
    | with_reducible apply storeG_pres C
    | with_reducible intro _

theorem execAmo_pres (C : Loud P) {s : State} (a1 : Fin 576) (a2 : BitVec 6) (a3 : BitVec 6) (a4 : BitVec 6) (a5 : AmoOp) (a6 : Bool) (h : P s) : OnNext P (execAmo a1 a2 a3 a4 a5 a6 s) := by
  unfold execAmo
  try dsimp only
  repeat' first
    | with_reducible assumption
    | with_reducible apply State.run_pres C
    | with_reducible apply State.stores_pres C
    | with_reducible apply noCheck_pres C.toQuiet
    | with_reducible apply State.setG_pres C
    | with_reducible apply OnDone.mk
    | exact .inl trivial
    | with_reducible intro _

theorem markedLoad_pres (C : Loud P) {s : State} (a1 : Fin 576) (a2 : Bool) (a3 : BitVec 6) (a4 : BitVec 6) (a5 : BitVec 8) (a6 : Bool) (a7 : BitVec 7) (h : P s) : OnDone P (markedLoad a1 a2 a3 a4 a5 a6 a7 s) := by
  unfold markedLoad
  try dsimp only
  repeat' first
    | with_reducible assumption
    | with_reducible apply State.loads_pres C.toQuiet
    | with_reducible apply markFails_pres C.toQuiet
    | with_reducible apply markPasses_pres C.toQuiet
    | with_reducible apply State.setG_pres C
    | with_reducible apply pres_ite
    | with_reducible intro _

theorem markedStore_pres (C : Loud P) {s : State} (a1 : Fin 576) (a2 : Bool) (a3 : BitVec 6) (a4 : BitVec 6) (a5 : BitVec 8) (a6 : Bool) (a7 : BitVec 7) (h : P s) : OnDone P (markedStore a1 a2 a3 a4 a5 a6 a7 s) := by
  unfold markedStore
  try dsimp only
  repeat' first
    | with_reducible assumption
    | with_reducible apply State.stores_pres C
    | with_reducible apply markFails_pres C.toQuiet
    | with_reducible apply markPasses_pres C.toQuiet
    | with_reducible apply pres_ite
    | with_reducible apply OnSomeDone.mk
    | with_reducible exact OnSomeDone.none
    | with_reducible intro _

theorem execLwm_pres (C : Loud P) {s : State} (a1 : Fin 576) (a2 : BitVec 6) (a3 : BitVec 6) (a4 : BitVec 8) (a5 : Bool) (a6 : BitVec 7) (h : P s) : OnNext P (execLwm a1 a2 a3 a4 a5 a6 s) := by
  unfold execLwm
  try dsimp only
  repeat' first
    | with_reducible assumption
    | with_reducible apply State.run_pres C
    | with_reducible apply markedLoad_pres C
    | with_reducible intro _

theorem execLdm_pres (C : Loud P) {s : State} (a1 : Fin 576) (a2 : BitVec 6) (a3 : BitVec 6) (a4 : BitVec 8) (a5 : Bool) (a6 : BitVec 7) (h : P s) : OnNext P (execLdm a1 a2 a3 a4 a5 a6 s) := by
  unfold execLdm
  try dsimp only
  repeat' first
    | with_reducible assumption
    | with_reducible apply State.run_pres C
    | with_reducible apply markedLoad_pres C
    | with_reducible intro _

theorem execSwm_pres (C : Loud P) {s : State} (a1 : Fin 576) (a2 : BitVec 6) (a3 : BitVec 6) (a4 : BitVec 8) (a5 : Bool) (a6 : BitVec 7) (h : P s) : OnNext P (execSwm a1 a2 a3 a4 a5 a6 s) := by
  unfold execSwm
  try dsimp only
  repeat' first
    | with_reducible assumption
    | with_reducible apply State.run_pres C
    | with_reducible apply markedStore_pres C
    | with_reducible intro _

theorem execSdm_pres (C : Loud P) {s : State} (a1 : Fin 576) (a2 : BitVec 6) (a3 : BitVec 6) (a4 : BitVec 8) (a5 : Bool) (a6 : BitVec 7) (h : P s) : OnNext P (execSdm a1 a2 a3 a4 a5 a6 s) := by
  unfold execSdm
  try dsimp only
  repeat' first
    | with_reducible assumption
    | with_reducible apply State.run_pres C
    | with_reducible apply markedStore_pres C
    | with_reducible intro _

theorem execVld_pres (C : Loud P) {s : State} (a1 : Fin 576) (a2 : BitVec 5) (a3 : BitVec 6) (a4 : BitVec 16) (h : P s) : OnNext P (execVld a1 a2 a3 a4 s) := by
  unfold execVld
  try dsimp only
  repeat' first
    | with_reducible assumption
    | with_reducible apply State.run_pres C
    | with_reducible apply State.loads_pres C.toQuiet
    | with_reducible apply State.setV_pres C
    | with_reducible apply OnDone.mk
    | exact .inl trivial
    | with_reducible intro _

theorem execVst_pres (C : Loud P) {s : State} (a1 : Fin 576) (a2 : BitVec 5) (a3 : BitVec 6) (a4 : BitVec 16) (h : P s) : OnNext P (execVst a1 a2 a3 a4 s) := by
  unfold execVst
  try dsimp only
  repeat' first
    | with_reducible assumption
    | with_reducible apply State.run_pres C
    | with_reducible apply State.stores_pres C
    | with_reducible apply noCheck_pres C.toQuiet
    | with_reducible apply plainEnd_pres C.toQuiet
    | with_reducible intro _

theorem State.prefetch_pres (C : Quiet P) {s : State} (a1 : Acr) (a2 : LineNo) (a3 : ℕ) (h : P s) : P (State.prefetch s a1 a2 a3) := by
  unfold State.prefetch
  try dsimp only
  repeat' first
    | with_reducible assumption
    | with_reducible apply State.rest_pres C
    | with_reducible apply State.resend_pres C
    | with_reducible apply State.sendFill_pres C
    | with_reducible apply State.prefWon_pres C
    | with_reducible apply pres_ite
    | with_reducible intro _
    | fail_if_no_progress with_reducible apply C.update

theorem execPref_pres (C : Loud P) {s : State} (a1 : Fin 576) (a2 : PrefHint) (a3 : BitVec 6) (a4 : BitVec 16) (h : P s) : OnNext P (execPref a1 a2 a3 a4 s) := by
  unfold execPref
  try dsimp only
  repeat' first
    | with_reducible assumption
    | with_reducible apply State.run_pres C
    | with_reducible apply State.translate_pres C.toQuiet
    | with_reducible apply State.prefetch_pres C.toQuiet
    | with_reducible apply Done.ord_pres C.toQuiet
    | with_reducible apply pres_ite
    | with_reducible apply OnDone.mk
    | exact .inl trivial
    | with_reducible intro _
    | with_reducible refine OnFst.eq ?_ (by with_reducible assumption)
    | split

end Sys2Proof.Machine
end

