-- ==== Sys2Proof/Laws/KeepExec.lean ====
section
/-! SUPPORT. What every command keeps: the lemmas of the Keep files put together over the commands. -/

namespace Sys2Proof.Machine

variable {P : State → Prop}

/-- What P must survive to hold after every command. -/
theorem exec_pres (C : Loud P) (i : Instr) {s : State} (h : P s) : OnNext P (exec i s) := by
  cases i with
  | nop t => exact execNop_pres C t h
  | illegalInstruction t w => exact execIllegalInstruction_pres C t w h
  | fence t k => exact execFence_pres C t k h
  | crr t rd num => exact execCrr_pres C t rd num h
  | crw t rs1 num => exact execCrw_pres C t rs1 num h
  | crwCtxid t rs1 => exact execCrwCtxid_pres C t rs1 h
  | tlbinvPage t rs1 => exact execTlbinvPage_pres C t rs1 h
  | tlbinvContext t rs1 => exact execTlbinvContext_pres C t rs1 h
  | tlbinvTable t rs1 => exact execTlbinvTable_pres C t rs1 h
  | tlbinvPageAll t rs1 => exact execTlbinvPageAll_pres C t rs1 h
  | tlbinvBroadcastApplied t => exact execTlbinvBroadcastApplied_pres C t h
  | ctxreseed t rs1 => exact execCtxreseed_pres C t rs1 h
  | reseedStart more => exact execReseedStart_pres C.toQuiet more h
  | reseedDone healthy key => exact execReseedDone_pres C healthy key h
  | fstepWrite t rs1 => exact execFstepWrite_pres C t rs1 h
  | stepRaise c => exact execStepRaise_pres C.toQuiet c h
  | stepLower c => exact execStepLower_pres C.toQuiet c h
  | syscall t => exact execSyscall_pres C t h
  | hvcall t => exact execHvcall_pres C t h
  | tret t => exact execTret_pres C t h
  | wait t => exact execWait_pres C t h
  | waitComplete t => exact execWaitComplete_pres C t h
  | launch t rd rs1 => exact execLaunch_pres C t rd rs1 h
  | launchFire t => exact execLaunchFire_pres C t h
  | vcall t => exact execVcall_pres C t h
  | vret t => exact execVret_pres C t h
  | br t a off => exact execBr_pres C t a off h
  | bl t a off => exact execBl_pres C t a off h
  | jr t a rd rs1 => exact execJr_pres C t a rd rs1 h
  | dbnz t a rc off => exact execDbnz_pres C t a rc off h
  | skipr t ra rb cond => exact execSkipr_pres C t ra rb cond h
  | skipi t ra cond imm => exact execSkipi_pres C t ra cond imm h
  | alu72 t rd rs1 rs2 op => exact execAlu72_pres C t rd rs1 rs2 op h
  | alu36 t rd rs1 rs2 op => exact execAlu36_pres C t rd rs1 rs2 op h
  | addi t rd rs1 imm => exact execAddi_pres C t rd rs1 imm h
  | addi36 t rd rs1 imm => exact execAddi36_pres C t rd rs1 imm h
  | andi t rd rs1 imm => exact execAndi_pres C t rd rs1 imm h
  | ori t rd rs1 imm => exact execOri_pres C t rd rs1 imm h
  | xori t rd rs1 imm => exact execXori_pres C t rd rs1 imm h
  | shi t rd rs1 kind w36 amt => exact execShi_pres C t rd rs1 kind w36 amt h
  | li t rd imm => exact execLi_pres C t rd imm h
  | insh t rd pos imm => exact execInsh_pres C t rd pos imm h
  | ln t rd rs1 imm => exact execLn_pres C t rd rs1 imm h
  | lns t rd rs1 imm => exact execLns_pres C t rd rs1 imm h
  | lh t rd rs1 imm => exact execLh_pres C t rd rs1 imm h
  | lhs t rd rs1 imm => exact execLhs_pres C t rd rs1 imm h
  | lw t rd rs1 imm => exact execLw_pres C t rd rs1 imm h
  | lws t rd rs1 imm => exact execLws_pres C t rd rs1 imm h
  | ld t rd rs1 imm => exact execLd_pres C t rd rs1 imm h
  | lx t rd rs1 rs2 size scale => exact execLx_pres C t rd rs1 rs2 size scale h
  | sn t rd rs1 imm => exact execSn_pres C t rd rs1 imm h
  | sh t rd rs1 imm => exact execSh_pres C t rd rs1 imm h
  | sw t rd rs1 imm => exact execSw_pres C t rd rs1 imm h
  | sd t rd rs1 imm => exact execSd_pres C t rd rs1 imm h
  | sx t rd rs1 rs2 size scale => exact execSx_pres C t rd rs1 rs2 size scale h
  | amo t rd rs1 rs2 op word => exact execAmo_pres C t rd rs1 rs2 op word h
  | pref t hint rs1 imm => exact execPref_pres C t hint rs1 imm h
  | lwm t rd rs1 emark act disp => exact execLwm_pres C t rd rs1 emark act disp h
  | ldm t rd rs1 emark act disp => exact execLdm_pres C t rd rs1 emark act disp h
  | swm t rd rs1 emark act disp => exact execSwm_pres C t rd rs1 emark act disp h
  | sdm t rd rs1 emark act disp => exact execSdm_pres C t rd rs1 emark act disp h
  | addM t rd rs1 rs2 emark act w => exact execAddM_pres C t rd rs1 rs2 emark act w h
  | subM t rd rs1 rs2 emark act w => exact execSubM_pres C t rd rs1 rs2 emark act w h
  | mulM t rd rs1 rs2 emark act w => exact execMulM_pres C t rd rs1 rs2 emark act w h
  | andM t rd rs1 rs2 emark act w => exact execAndM_pres C t rd rs1 rs2 emark act w h
  | orM t rd rs1 rs2 emark act w => exact execOrM_pres C t rd rs1 rs2 emark act w h
  | xorM t rd rs1 rs2 emark act w => exact execXorM_pres C t rd rs1 rs2 emark act w h
  | mtest t rs1 emark act w => exact execMtest_pres C t rs1 emark act w h
  | mset t rd rs1 emark w => exact execMset_pres C t rd rs1 emark w h
  | mget t rd rs1 w => exact execMget_pres C t rd rs1 w h
  | fop64 t rd rs1 rs2 op rm => exact execFop64_pres C t rd rs1 rs2 op rm h
  | fop32 t rd rs1 rs2 op rm => exact execFop32_pres C t rd rs1 rs2 op rm h
  | fma64 t rd rs1 rs2 op rm => exact execFma64_pres C t rd rs1 rs2 op rm h
  | fma32 t rd rs1 rs2 op rm => exact execFma32_pres C t rd rs1 rs2 op rm h
  | fcvt t rd rs1 op rm => exact execFcvt_pres C t rd rs1 op rm h
  | fcmp t rd rs1 rs2 w sig rel => exact execFcmp_pres C t rd rs1 rs2 w sig rel h
  | vld t vd rs1 imm => exact execVld_pres C t vd rs1 imm h
  | vst t vs rs1 imm => exact execVst_pres C t vs rs1 imm h
  | vop t vd v1 v2 elt op => exact execVop_pres C t vd v1 v2 elt op h
  | vfop t vd v1 v2 w op rm => exact execVfop_pres C t vd v1 v2 w op rm h
  | vmov t k v g lane elt => exact execVmov_pres C t k v g lane elt h
  | interrupt t => exact execInterrupt_pres C t h
  | coreAutoslackEnter c => exact execCoreAutoslackEnter_pres C.toQuiet c h
  | isleSlackEnter n => exact execIsleSlackEnter_pres C.toQuiet n h
  | isleSlackExit n => exact execIsleSlackExit_pres C.toQuiet n h
  | sramPatrol n line => exact execSramPatrol_pres C.toQuiet n line h
  | cisCachectlWrite w n v => exact execCisCachectlWrite_pres C.toQuiet w n v h
  | cacheDisableComplete n k => exact execCacheDisableComplete_pres C.toQuiet n k h
  | dropWalkDone n => exact execDropWalkDone_pres C.toQuiet n h
  | cisWayctlWrite w n v => exact execCisWayctlWrite_pres C.toQuiet w n v h
  | wayConverted n => exact execWayConverted_pres C.toQuiet n h
  | cisternAccess m => exact execCisternAccess_pres C.toQuiet m h
  | trwClaim w others n => exact execTrwClaim_pres C.toQuiet w others n h
  | go w n k v => exact execGo_pres C.toQuiet w n k v h
  | cancel w n k v => exact execCancel_pres C.toQuiet w n k v h
  | release w n k v => exact execRelease_pres C.toQuiet w n k v h
  | clean n => exact execClean_pres C.toQuiet n h
  | inval n => exact execInval_pres C.toQuiet n h
  | cleanInval n => exact execCleanInval_pres C.toQuiet n h
  | zero n => exact execZero_pres C.toQuiet n h
  | arrayInval n => exact execArrayInval_pres C.toQuiet n h
  | trowelLineIssue n => exact execTrowelLineIssue_pres C.toQuiet n h
  | trowelLineDone n => exact execTrowelLineDone_pres C.toQuiet n h
  | cancelledDone n => exact execCancelledDone_pres C.toQuiet n h
  | rds m => exact execRds_pres C.toQuiet m h
  | rdu m => exact execRdu_pres C.toQuiet m h
  | upg m => exact execUpg_pres C.toQuiet m h
  | rdn m => exact execRdn_pres C.toQuiet m h
  | wrn m => exact execWrn_pres C.toQuiet m h
  | wrl m => exact execWrl_pres C.toQuiet m h
  | atm m => exact execAtm_pres C.toQuiet m h
  | trw m => exact execTrw_pres C.toQuiet m h
  | wbd m => exact execWbd_pres C.toQuiet m h
  | evc m => exact execEvc_pres C.toQuiet m h
  | queuedRequestOpen line => exact execQueuedRequestOpen_pres C.toQuiet line h
  | fws m => exact execFws_pres C.toQuiet m h
  | fwu m => exact execFwu_pres C.toQuiet m h
  | sng m => exact execSng_pres C.toQuiet m h
  | snc m => exact execSnc_pres C.toQuiet m h
  | sni m => exact execSni_pres C.toQuiet m h
  | inv m => exact execInv_pres C.toQuiet m h
  | pfh m => exact execPfh_pres C.toQuiet m h
  | ack m => exact execAck_pres C.toQuiet m h
  | ackd m => exact execAckd_pres C.toQuiet m h
  | gone m => exact execGone_pres C.toQuiet m h
  | gnt m => exact execGnt_pres C.toQuiet m h
  | cmp m => exact execCmp_pres C.toQuiet m h
  | busyReceived m => exact execBusyReceived_pres C.toQuiet m h
  | dat m => exact execDat_pres C.toQuiet m h
  | tokenResend m => exact execTokenResend_pres C.toQuiet m h
  | reservationExpire sl r => exact execReservationExpire_pres C.toQuiet sl r h
  | holdWindowEnd n line => exact execHoldWindowEnd_pres C.toQuiet n line h
  | purgeEnd dur => exact execPurgeEnd_pres C.toQuiet dur h
  | flitCrcReplay n toK seq bad => exact execFlitCrcReplay_pres C.toQuiet n toK seq bad h
  | sidebandFailover n toK => exact execSidebandFailover_pres C.toQuiet n toK h
  | laneFailed n toK lanes cond => exact execLaneFailed_pres C.toQuiet n toK lanes cond h
  | substituted n toK stall => exact execSubstituted_pres C.toQuiet n toK stall h
  | narrowed n toK stall => exact execNarrowed_pres C.toQuiet n toK stall h
  | laneRestored n toK ok => exact execLaneRestored_pres C.toQuiet n toK ok h
  | recalPassStart n => exact execRecalPassStart_pres C.toQuiet n h
  | run w n v => exact execRun_pres C.toQuiet w n v h
  | recalLaneDone n => exact execRecalLaneDone_pres C.toQuiet n h
  | fullTraining n => exact execFullTraining_pres C n h
  | fullTrainingDone n okI okK => exact execFullTrainingDone_pres C.toQuiet n okI okK h
  | admission n ofs => exact execAdmission_pres C.toQuiet n ofs h
  | bearingRetry u => exact execBearingRetry_pres C u h
  | heartbeat n rst clk seq => exact execHeartbeat_pres C.toQuiet n rst clk seq h
  | heartbeatTimeout n => exact execHeartbeatTimeout_pres C.toQuiet n h
  | watchdogReport n k => exact execWatchdogReport_pres C n k h
  | vcoreRemove n => exact execVcoreRemove_pres C.toQuiet n h
  | guestRequest g octets other l1 => exact execGuestRequest_pres C.toQuiet g octets other l1 h
  | guestCompletion g tag => exact execGuestCompletion_pres C.toQuiet g tag h
  | gatehouseTokenRefill g => exact execGatehouseTokenRefill_pres C.toQuiet g h
  | guestRegisterAccess w g off wr ans => exact execGuestRegisterAccess_pres C.toQuiet w g off wr ans h
  | guestAccessFailed w g off wr err => exact execGuestAccessFailed_pres C.toQuiet w g off wr err h
  | guestLinkLost g => exact execGuestLinkLost_pres C.toQuiet g h
  | ucieLaneRepair g => exact execUcieLaneRepair_pres C.toQuiet g h
  | dramRead c line err => exact execDramRead_pres C.toQuiet c line err h
  | dramWrite c => exact execDramWrite_pres C.toQuiet c h
  | correctedReread c err => exact execCorrectedReread_pres C.toQuiet c err h
  | patrolRead c err => exact execPatrolRead_pres C.toQuiet c err h
  | refsb c hot => exact execRefsb_pres C.toQuiet c hot h
  | memThrottled c temp => exact execMemThrottled_pres C.toQuiet c temp h
  | sampledRowRefresh c bank row => exact execSampledRowRefresh_pres C.toQuiet c bank row h
  | tallyClear c => exact execTallyClear_pres C.toQuiet c h
  | trackingRetrain c => exact execTrackingRetrain_pres C.toQuiet c h
  | channelFullTraining c works => exact execChannelFullTraining_pres C.toQuiet c works h
  | poisonFillDone c => exact execPoisonFillDone_pres C.toQuiet c h
  | caParityAlert c line => exact execCaParityAlert_pres C.toQuiet c line h
  | resume m works => exact execResume_pres C.toQuiet m works h
  | retrain m => exact execRetrain_pres C.toQuiet m h
  | fail m => exact execFail_pres C.toQuiet m h
  | memRetrain m => exact execMemRetrain_pres C.toQuiet m h
  | memInclude m => exact execMemInclude_pres C.toQuiet m h
  | memMark m => exact execMemMark_pres C.toQuiet m h
  | memPprEnroll m => exact execMemPprEnroll_pres C.toQuiet m h
  | portLinkTraining p res => exact execPortLinkTraining_pres C.toQuiet p res h
  | outboundRequest rs => exact execOutboundRequest_pres C.toQuiet rs h
  | portCompletion p tag st data => exact execPortCompletion_pres C.toQuiet p tag st data h
  | cplTimeout p tag => exact execCplTimeout_pres C.toQuiet p tag h
  | inboundRequest p write addr len data => exact execInboundRequest_pres C p write addr len data h
  | interruptMessage p addr data => exact execInterruptMessage_pres C p addr data h
  | intxMessage p pin lvl => exact execIntxMessage_pres C.toQuiet p pin lvl h
  | hostBarRequest b bar2 off wr len poison => exact execHostBarRequest_pres C b bar2 off wr len poison h
  | lendingRequest b addr wr mask poison => exact execLendingRequest_pres C b addr wr mask poison h
  | busMasterEnableClear b => exact execBusMasterEnableClear_pres C.toQuiet b h
  | d3hotEntry b => exact execD3hotEntry_pres C.toQuiet b h
  | d3coldEntry b => exact execD3coldEntry_pres C.toQuiet b h
  | d0Return b => exact execD0Return_pres C.toQuiet b h
  | flr b => exact execFlr_pres C.toQuiet b h
  | prtPerstAssert b => exact execPrtPerstAssert_pres C.toQuiet b h
  | pme b => exact execPme_pres C.toQuiet b h
  | prtEpintstatWrite b v => exact execPrtEpintstatWrite_pres C.toQuiet b v h
  | doorbellTail w r v others => exact execDoorbellTail_pres C.toQuiet w r v others h
  | doorbellHead w r v others => exact execDoorbellHead_pres C.toQuiet w r v others h
  | doorbellResume w r v others => exact execDoorbellResume_pres C.toQuiet w r v others h
  | hbrRctlWrite w r v => exact execHbrRctlWrite_pres C.toQuiet w r v h
  | harbourSchedule => exact execHarbourSchedule_pres C.toQuiet h
  | copy e => exact execCopy_pres C.toQuiet e h
  | fill e => exact execFill_pres C.toQuiet e h
  | compare e => exact execCompare_pres C.toQuiet e h
  | crc64 e => exact execCrc64_pres C.toQuiet e h
  | repackD e => exact execRepackD_pres C.toQuiet e h
  | repackL e => exact execRepackL_pres C.toQuiet e h
  | prefetch e => exact execPrefetch_pres C.toQuiet e h
  | timedAccept r => exact execTimedAccept_pres C.toQuiet r h
  | timedDescriptorDue vault => exact execTimedDescriptorDue_pres C.toQuiet vault h
  | timedLeadExpired r => exact execTimedLeadExpired_pres C.toQuiet r h
  | descriptorDone r => exact execDescriptorDone_pres C.toQuiet r h
  | set w v => exact execSet_pres C.toQuiet w v h
  | setApply => exact execSetApply_pres C h
  | cancelSlew w v => exact execCancelSlew_pres C.toQuiet w v h
  | lhSlewWrite w v => exact execLhSlewWrite_pres C.toQuiet w v h
  | slewTick => exact execSlewTick_pres C h
  | lhCtlWrite w v => exact execLhCtlWrite_pres C.toQuiet w v h
  | lhPpsEdge => exact execLhPpsEdge_pres C.toQuiet h
  | ppsTimeout => exact execPpsTimeout_pres C.toQuiet h
  | refLost => exact execRefLost_pres C.toQuiet h
  | refLocked => exact execRefLocked_pres C.toQuiet h
  | copyCorrection n ofs => exact execCopyCorrection_pres C n ofs h
  | driftCleared n ofs => exact execDriftCleared_pres C.toQuiet n ofs h
  | alarmFire t vault => exact execAlarmFire_pres C t vault h
  | pwrCorectlWrite w c v => exact execPwrCorectlWrite_pres C.toQuiet w c v h
  | pwrIslectlWrite w n v => exact execPwrIslectlWrite_pres C.toQuiet w n v h
  | pwrBlkctlWrite w k v => exact execPwrBlkctlWrite_pres C.toQuiet w k v h
  | pwrPkgctlWrite w v => exact execPwrPkgctlWrite_pres C.toQuiet w v h
  | timedRequestFire u => exact execTimedRequestFire_pres C.toQuiet u h
  | powerRequestComplete u => exact execPowerRequestComplete_pres C.toQuiet u h
  | coreToNeap c => exact execCoreToNeap_pres C c h
  | coreNeapToRun c => exact execCoreNeapToRun_pres C.toQuiet c h
  | coreToDry c => exact execCoreToDry_pres C c h
  | coreDryToRun c => exact execCoreDryToRun_pres C c h
  | isleToNeap n => exact execIsleToNeap_pres C n h
  | isleNeapToRun n => exact execIsleNeapToRun_pres C.toQuiet n h
  | isleToDry n => exact execIsleToDry_pres C n h
  | isleDryToRun n tr => exact execIsleDryToRun_pres C n tr h
  | harbourToDry => exact execHarbourToDry_pres C.toQuiet h
  | portBlockToDry b => exact execPortBlockToDry_pres C.toQuiet b h
  | keystoneBlockToRun k => exact execKeystoneBlockToRun_pres C.toQuiet k h
  | lagoonEnter => exact execLagoonEnter_pres C h
  | lagoonExit => exact execLagoonExit_pres C.toQuiet h
  | wake u => exact execWake_pres C.toQuiet u h
  | portWake b => exact execPortWake_pres C.toQuiet b h
  | smbusAddressMatch addr => exact execSmbusAddressMatch_pres C.toQuiet addr h
  | bearingClaim c others => exact execBearingClaim_pres C.toQuiet c others h
  | bearingRelease q core hub => exact execBearingRelease_pres C.toQuiet q core hub h
  | currentCapCheck core hub => exact execCurrentCapCheck_pres C.toQuiet core hub h
  | thermalCap n pts => exact execThermalCap_pres C.toQuiet n pts h
  | wldRgnctlWrite w v => exact execWldRgnctlWrite_pres C.toQuiet w v h
  | regionTableArrives n => exact execRegionTableArrives_pres C.toQuiet n h
  | handoverEngine f k toV others => exact execHandoverEngine_pres C.toQuiet f k toV others h
  | handoverPort f p toV others => exact execHandoverPort_pres C.toQuiet f p toV others h
  | handoverPartition f n p toV others => exact execHandoverPartition_pres C.toQuiet f n p toV others h
  | handoverGuestSite f g toV others => exact execHandoverGuestSite_pres C.toQuiet f g toV others h
  | handoverQuiesced => exact execHandoverQuiesced_pres C.toQuiet h
  | mailboxServe => exact execMailboxServe_pres C.toQuiet h
  | info m => exact execInfo_pres C.toQuiet m h
  | cplRead m => exact execCplRead_pres C.toQuiet m h
  | handleStatus m => exact execHandleStatus_pres C.toQuiet m h
  | sensorRead m => exact execSensorRead_pres C.toQuiet m h
  | lhSet m => exact execLhSet_pres C.toQuiet m h
  | lhSlew m => exact execLhSlew_pres C.toQuiet m h
  | lhPolicy m => exact execLhPolicy_pres C.toQuiet m h
  | brgSetlimit m => exact execBrgSetlimit_pres C.toQuiet m h
  | islePolicy m => exact execIslePolicy_pres C.toQuiet m h
  | idCert m => exact execIdCert_pres C.toQuiet m h
  | idMeasure m => exact execIdMeasure_pres C.toQuiet m h
  | unlockChallenge m nonce => exact execUnlockChallenge_pres C.toQuiet m nonce h
  | nonceExpire => exact execNonceExpire_pres C.toQuiet h
  | unlockResponse m => exact execUnlockResponse_pres C.toQuiet m h
  | lock m => exact execLock_pres C.toQuiet m h
  | ownerEnroll m => exact execOwnerEnroll_pres C.toQuiet m h
  | isleRelease m => exact execIsleRelease_pres C m h
  | isleAdmit m tr => exact execIsleAdmit_pres C m tr h
  | isleOffline m => exact execIsleOffline_pres C m h
  | isleOnline m tr => exact execIsleOnline_pres C m tr h
  | ucodeLoad m img => exact execUcodeLoad_pres C.toQuiet m img h
  | ucodeIsleParked ok => exact execUcodeIsleParked_pres C ok h
  | portConfig m => exact execPortConfig_pres C.toQuiet m h
  | evrClear m => exact execEvrClear_pres C.toQuiet m h
  | evrClearDone => exact execEvrClearDone_pres C.toQuiet h
  | fwStage m img flashOk => exact execFwStage_pres C.toQuiet m img flashOk h
  | fwSwap m selfTest => exact execFwSwap_pres C.toQuiet m selfTest h
  | handleCompletion m => exact execHandleCompletion_pres C.toQuiet m h
  | umfMbintWrite w m v => exact execUmfMbintWrite_pres C.toQuiet w m v h
  | smbusMctpWrite data pecOk => exact execSmbusMctpWrite_pres C.toQuiet data pecOk h
  | smbusMailboxWrite b data pecOk => exact execSmbusMailboxWrite_pres C.toQuiet b data pecOk h
  | smbusMailboxRead b => exact execSmbusMailboxRead_pres C.toQuiet b h
  | getVersion p => exact execGetVersion_pres C.toQuiet p h
  | getCapabilities p => exact execGetCapabilities_pres C.toQuiet p h
  | negotiateAlgorithms p asym hash => exact execNegotiateAlgorithms_pres C.toQuiet p asym hash h
  | getDigests p => exact execGetDigests_pres C.toQuiet p h
  | getCertificate p slot off len => exact execGetCertificate_pres C.toQuiet p slot off len h
  | challenge p slot nonce => exact execChallenge_pres C.toQuiet p slot nonce h
  | getMeasurements p idx => exact execGetMeasurements_pres C.toQuiet p idx h
  | recordArrives k => exact execRecordArrives_pres C.toQuiet k h
  | recordStore => exact execRecordStore_pres C.toQuiet h
  | evrWindowRead w k => exact execEvrWindowRead_pres C.toQuiet w k h
  | sndUloRead w u k => exact execSndUloRead_pres C.toQuiet w u k h
  | sndUloWrite w u k v => exact execSndUloWrite_pres C.toQuiet w u k v h
  | registerWrite w a v => exact execRegisterWrite_pres C.toQuiet w a v h
  | powerOn straps slotsOk => exact execPowerOn_pres C straps slotsOk h
  | pkgResetAssert => exact execPkgResetAssert_pres C.toQuiet h
  | pkgResetRelease held straps => exact execPkgResetRelease_pres C held straps h
  | startupStep x => exact execStartupStep_pres C x h
  | railOutOfRange r => exact execRailOutOfRange_pres C r h
  | refclkLoss => exact execRefclkLoss_pres C h
  | thermalTrip pt => exact execThermalTrip_pres C pt h
  | pmbAlert asserted => exact execPmbAlert_pres C.toQuiet asserted h
  | arrayInvalDone n => exact execArrayInvalDone_pres C.toQuiet n h
  | mailboxReqWrite w m v => exact execMailboxReqWrite_pres C.toQuiet w m v h
  | guestLinkTrained g ok => exact execGuestLinkTrained_pres C.toQuiet g ok h
  | surpriseRemoval p dpc => exact execSurpriseRemoval_pres C.toQuiet p dpc h
  | interruptDisableWrite b v => exact execInterruptDisableWrite_pres C.toQuiet b v h
  | tagReuseAllowed p tag => exact execTagReuseAllowed_pres C.toQuiet p tag h
  | backupSidebandLaneFailed n toK => exact execBackupSidebandLaneFailed_pres C.toQuiet n toK h

end Sys2Proof.Machine
end

