-- ==== Sys2Proof/Laws/PerInstr.lean ====
section
/-! SUPPORT. The per-instruction family Threaded: a row that has an instruction word is an instruction of a thread (R67), one
lemma a row. -/

namespace Sys2Proof.Laws.Threaded

/-- A row with a word names the thread whose instruction it is. -/
def Statement (i : Instr) : Prop := (encodeWord i).isSome = true → (instrThread i).isSome = true

theorem nop : ∀ a0, Statement (.nop a0) := fun _ h => h
theorem illegalInstruction : ∀ a0 a1, Statement (.illegalInstruction a0 a1) := fun _ _ h => h
theorem fence : ∀ a0 a1, Statement (.fence a0 a1) := fun _ _ h => h
theorem crr : ∀ a0 a1 a2, Statement (.crr a0 a1 a2) := fun _ _ _ h => h
theorem crw : ∀ a0 a1 a2, Statement (.crw a0 a1 a2) := fun _ _ _ h => h
theorem crwCtxid : ∀ a0 a1, Statement (.crwCtxid a0 a1) := fun _ _ h => h
theorem tlbinvPage : ∀ a0 a1, Statement (.tlbinvPage a0 a1) := fun _ _ h => h
theorem tlbinvContext : ∀ a0 a1, Statement (.tlbinvContext a0 a1) := fun _ _ h => h
theorem tlbinvTable : ∀ a0 a1, Statement (.tlbinvTable a0 a1) := fun _ _ h => h
theorem tlbinvPageAll : ∀ a0 a1, Statement (.tlbinvPageAll a0 a1) := fun _ _ h => h
theorem tlbinvBroadcastApplied : ∀ a0, Statement (.tlbinvBroadcastApplied a0) := fun _ h => h
theorem ctxreseed : ∀ a0 a1, Statement (.ctxreseed a0 a1) := fun _ _ h => h
theorem reseedStart : ∀ a0, Statement (.reseedStart a0) := fun _ h => h
theorem reseedDone : ∀ a0 a1, Statement (.reseedDone a0 a1) := fun _ _ h => h
theorem fstepWrite : ∀ a0 a1, Statement (.fstepWrite a0 a1) := fun _ _ h => h
theorem stepRaise : ∀ a0, Statement (.stepRaise a0) := fun _ h => h
theorem stepLower : ∀ a0, Statement (.stepLower a0) := fun _ h => h
theorem syscall : ∀ a0, Statement (.syscall a0) := fun _ h => h
theorem hvcall : ∀ a0, Statement (.hvcall a0) := fun _ h => h
theorem tret : ∀ a0, Statement (.tret a0) := fun _ h => h
theorem wait : ∀ a0, Statement (.wait a0) := fun _ h => h
theorem waitComplete : ∀ a0, Statement (.waitComplete a0) := fun _ h => h
theorem launch : ∀ a0 a1 a2, Statement (.launch a0 a1 a2) := fun _ _ _ h => h
theorem launchFire : ∀ a0, Statement (.launchFire a0) := fun _ h => h
theorem vcall : ∀ a0, Statement (.vcall a0) := fun _ h => h
theorem vret : ∀ a0, Statement (.vret a0) := fun _ h => h
theorem br : ∀ a0 a1 a2, Statement (.br a0 a1 a2) := fun _ _ _ h => h
theorem bl : ∀ a0 a1 a2, Statement (.bl a0 a1 a2) := fun _ _ _ h => h
theorem jr : ∀ a0 a1 a2 a3, Statement (.jr a0 a1 a2 a3) := fun _ _ _ _ h => h
theorem dbnz : ∀ a0 a1 a2 a3, Statement (.dbnz a0 a1 a2 a3) := fun _ _ _ _ h => h
theorem skipr : ∀ a0 a1 a2 a3, Statement (.skipr a0 a1 a2 a3) := fun _ _ _ _ h => h
theorem skipi : ∀ a0 a1 a2 a3, Statement (.skipi a0 a1 a2 a3) := fun _ _ _ _ h => h
theorem alu72 : ∀ a0 a1 a2 a3 a4, Statement (.alu72 a0 a1 a2 a3 a4) := fun _ _ _ _ _ h => h
theorem alu36 : ∀ a0 a1 a2 a3 a4, Statement (.alu36 a0 a1 a2 a3 a4) := fun _ _ _ _ _ h => h
theorem addi : ∀ a0 a1 a2 a3, Statement (.addi a0 a1 a2 a3) := fun _ _ _ _ h => h
theorem addi36 : ∀ a0 a1 a2 a3, Statement (.addi36 a0 a1 a2 a3) := fun _ _ _ _ h => h
theorem andi : ∀ a0 a1 a2 a3, Statement (.andi a0 a1 a2 a3) := fun _ _ _ _ h => h
theorem ori : ∀ a0 a1 a2 a3, Statement (.ori a0 a1 a2 a3) := fun _ _ _ _ h => h
theorem xori : ∀ a0 a1 a2 a3, Statement (.xori a0 a1 a2 a3) := fun _ _ _ _ h => h
theorem shi : ∀ a0 a1 a2 a3 a4 a5, Statement (.shi a0 a1 a2 a3 a4 a5) := fun _ _ _ _ _ _ h => h
theorem li : ∀ a0 a1 a2, Statement (.li a0 a1 a2) := fun _ _ _ h => h
theorem insh : ∀ a0 a1 a2 a3, Statement (.insh a0 a1 a2 a3) := fun _ _ _ _ h => h
theorem ln : ∀ a0 a1 a2 a3, Statement (.ln a0 a1 a2 a3) := fun _ _ _ _ h => h
theorem lns : ∀ a0 a1 a2 a3, Statement (.lns a0 a1 a2 a3) := fun _ _ _ _ h => h
theorem lh : ∀ a0 a1 a2 a3, Statement (.lh a0 a1 a2 a3) := fun _ _ _ _ h => h
theorem lhs : ∀ a0 a1 a2 a3, Statement (.lhs a0 a1 a2 a3) := fun _ _ _ _ h => h
theorem lw : ∀ a0 a1 a2 a3, Statement (.lw a0 a1 a2 a3) := fun _ _ _ _ h => h
theorem lws : ∀ a0 a1 a2 a3, Statement (.lws a0 a1 a2 a3) := fun _ _ _ _ h => h
theorem ld : ∀ a0 a1 a2 a3, Statement (.ld a0 a1 a2 a3) := fun _ _ _ _ h => h
theorem lx : ∀ a0 a1 a2 a3 a4 a5, Statement (.lx a0 a1 a2 a3 a4 a5) := fun _ _ _ _ _ _ h => h
theorem sn : ∀ a0 a1 a2 a3, Statement (.sn a0 a1 a2 a3) := fun _ _ _ _ h => h
theorem sh : ∀ a0 a1 a2 a3, Statement (.sh a0 a1 a2 a3) := fun _ _ _ _ h => h
theorem sw : ∀ a0 a1 a2 a3, Statement (.sw a0 a1 a2 a3) := fun _ _ _ _ h => h
theorem sd : ∀ a0 a1 a2 a3, Statement (.sd a0 a1 a2 a3) := fun _ _ _ _ h => h
theorem sx : ∀ a0 a1 a2 a3 a4 a5, Statement (.sx a0 a1 a2 a3 a4 a5) := fun _ _ _ _ _ _ h => h
theorem amo : ∀ a0 a1 a2 a3 a4 a5, Statement (.amo a0 a1 a2 a3 a4 a5) := fun _ _ _ _ _ _ h => h
theorem pref : ∀ a0 a1 a2 a3, Statement (.pref a0 a1 a2 a3) := fun _ _ _ _ h => h
theorem lwm : ∀ a0 a1 a2 a3 a4 a5, Statement (.lwm a0 a1 a2 a3 a4 a5) := fun _ _ _ _ _ _ h => h
theorem ldm : ∀ a0 a1 a2 a3 a4 a5, Statement (.ldm a0 a1 a2 a3 a4 a5) := fun _ _ _ _ _ _ h => h
theorem swm : ∀ a0 a1 a2 a3 a4 a5, Statement (.swm a0 a1 a2 a3 a4 a5) := fun _ _ _ _ _ _ h => h
theorem sdm : ∀ a0 a1 a2 a3 a4 a5, Statement (.sdm a0 a1 a2 a3 a4 a5) := fun _ _ _ _ _ _ h => h
theorem addM : ∀ a0 a1 a2 a3 a4 a5 a6, Statement (.addM a0 a1 a2 a3 a4 a5 a6) := fun _ _ _ _ _ _ _ h => h
theorem subM : ∀ a0 a1 a2 a3 a4 a5 a6, Statement (.subM a0 a1 a2 a3 a4 a5 a6) := fun _ _ _ _ _ _ _ h => h
theorem mulM : ∀ a0 a1 a2 a3 a4 a5 a6, Statement (.mulM a0 a1 a2 a3 a4 a5 a6) := fun _ _ _ _ _ _ _ h => h
theorem andM : ∀ a0 a1 a2 a3 a4 a5 a6, Statement (.andM a0 a1 a2 a3 a4 a5 a6) := fun _ _ _ _ _ _ _ h => h
theorem orM : ∀ a0 a1 a2 a3 a4 a5 a6, Statement (.orM a0 a1 a2 a3 a4 a5 a6) := fun _ _ _ _ _ _ _ h => h
theorem xorM : ∀ a0 a1 a2 a3 a4 a5 a6, Statement (.xorM a0 a1 a2 a3 a4 a5 a6) := fun _ _ _ _ _ _ _ h => h
theorem mtest : ∀ a0 a1 a2 a3 a4, Statement (.mtest a0 a1 a2 a3 a4) := fun _ _ _ _ _ h => h
theorem mset : ∀ a0 a1 a2 a3 a4, Statement (.mset a0 a1 a2 a3 a4) := fun _ _ _ _ _ h => h
theorem mget : ∀ a0 a1 a2 a3, Statement (.mget a0 a1 a2 a3) := fun _ _ _ _ h => h
theorem fop64 : ∀ a0 a1 a2 a3 a4 a5, Statement (.fop64 a0 a1 a2 a3 a4 a5) := fun _ _ _ _ _ _ h => h
theorem fop32 : ∀ a0 a1 a2 a3 a4 a5, Statement (.fop32 a0 a1 a2 a3 a4 a5) := fun _ _ _ _ _ _ h => h
theorem fma64 : ∀ a0 a1 a2 a3 a4 a5, Statement (.fma64 a0 a1 a2 a3 a4 a5) := fun _ _ _ _ _ _ h => h
theorem fma32 : ∀ a0 a1 a2 a3 a4 a5, Statement (.fma32 a0 a1 a2 a3 a4 a5) := fun _ _ _ _ _ _ h => h
theorem fcvt : ∀ a0 a1 a2 a3 a4, Statement (.fcvt a0 a1 a2 a3 a4) := fun _ _ _ _ _ h => h
theorem fcmp : ∀ a0 a1 a2 a3 a4 a5 a6, Statement (.fcmp a0 a1 a2 a3 a4 a5 a6) := fun _ _ _ _ _ _ _ h => h
theorem vld : ∀ a0 a1 a2 a3, Statement (.vld a0 a1 a2 a3) := fun _ _ _ _ h => h
theorem vst : ∀ a0 a1 a2 a3, Statement (.vst a0 a1 a2 a3) := fun _ _ _ _ h => h
theorem vop : ∀ a0 a1 a2 a3 a4 a5, Statement (.vop a0 a1 a2 a3 a4 a5) := fun _ _ _ _ _ _ h => h
theorem vfop : ∀ a0 a1 a2 a3 a4 a5 a6, Statement (.vfop a0 a1 a2 a3 a4 a5 a6) := fun _ _ _ _ _ _ _ h => h
theorem vmov : ∀ a0 a1 a2 a3 a4 a5, Statement (.vmov a0 a1 a2 a3 a4 a5) := fun _ _ _ _ _ _ _ => rfl
theorem interrupt : ∀ a0, Statement (.interrupt a0) := fun _ h => h
theorem coreAutoslackEnter : ∀ a0, Statement (.coreAutoslackEnter a0) := fun _ h => h
theorem isleSlackEnter : ∀ a0, Statement (.isleSlackEnter a0) := fun _ h => h
theorem isleSlackExit : ∀ a0, Statement (.isleSlackExit a0) := fun _ h => h
theorem sramPatrol : ∀ a0 a1, Statement (.sramPatrol a0 a1) := fun _ _ h => h
theorem cisCachectlWrite : ∀ a0 a1 a2, Statement (.cisCachectlWrite a0 a1 a2) := fun _ _ _ h => h
theorem cacheDisableComplete : ∀ a0 a1, Statement (.cacheDisableComplete a0 a1) := fun _ _ h => h
theorem dropWalkDone : ∀ a0, Statement (.dropWalkDone a0) := fun _ h => h
theorem cisWayctlWrite : ∀ a0 a1 a2, Statement (.cisWayctlWrite a0 a1 a2) := fun _ _ _ h => h
theorem wayConverted : ∀ a0, Statement (.wayConverted a0) := fun _ h => h
theorem cisternAccess : ∀ a0, Statement (.cisternAccess a0) := fun _ h => h
theorem trwClaim : ∀ a0 a1 a2, Statement (.trwClaim a0 a1 a2) := fun _ _ _ h => h
theorem go : ∀ a0 a1 a2 a3, Statement (.go a0 a1 a2 a3) := fun _ _ _ _ h => h
theorem cancel : ∀ a0 a1 a2 a3, Statement (.cancel a0 a1 a2 a3) := fun _ _ _ _ h => h
theorem release : ∀ a0 a1 a2 a3, Statement (.release a0 a1 a2 a3) := fun _ _ _ _ h => h
theorem clean : ∀ a0, Statement (.clean a0) := fun _ h => h
theorem inval : ∀ a0, Statement (.inval a0) := fun _ h => h
theorem cleanInval : ∀ a0, Statement (.cleanInval a0) := fun _ h => h
theorem zero : ∀ a0, Statement (.zero a0) := fun _ h => h
theorem arrayInval : ∀ a0, Statement (.arrayInval a0) := fun _ h => h
theorem trowelLineIssue : ∀ a0, Statement (.trowelLineIssue a0) := fun _ h => h
theorem trowelLineDone : ∀ a0, Statement (.trowelLineDone a0) := fun _ h => h
theorem cancelledDone : ∀ a0, Statement (.cancelledDone a0) := fun _ h => h
theorem rds : ∀ a0, Statement (.rds a0) := fun _ h => h
theorem rdu : ∀ a0, Statement (.rdu a0) := fun _ h => h
theorem upg : ∀ a0, Statement (.upg a0) := fun _ h => h
theorem rdn : ∀ a0, Statement (.rdn a0) := fun _ h => h
theorem wrn : ∀ a0, Statement (.wrn a0) := fun _ h => h
theorem wrl : ∀ a0, Statement (.wrl a0) := fun _ h => h
theorem atm : ∀ a0, Statement (.atm a0) := fun _ h => h
theorem trw : ∀ a0, Statement (.trw a0) := fun _ h => h
theorem wbd : ∀ a0, Statement (.wbd a0) := fun _ h => h
theorem evc : ∀ a0, Statement (.evc a0) := fun _ h => h
theorem queuedRequestOpen : ∀ a0, Statement (.queuedRequestOpen a0) := fun _ h => h
theorem fws : ∀ a0, Statement (.fws a0) := fun _ h => h
theorem fwu : ∀ a0, Statement (.fwu a0) := fun _ h => h
theorem sng : ∀ a0, Statement (.sng a0) := fun _ h => h
theorem snc : ∀ a0, Statement (.snc a0) := fun _ h => h
theorem sni : ∀ a0, Statement (.sni a0) := fun _ h => h
theorem inv : ∀ a0, Statement (.inv a0) := fun _ h => h
theorem pfh : ∀ a0, Statement (.pfh a0) := fun _ h => h
theorem ack : ∀ a0, Statement (.ack a0) := fun _ h => h
theorem ackd : ∀ a0, Statement (.ackd a0) := fun _ h => h
theorem gone : ∀ a0, Statement (.gone a0) := fun _ h => h
theorem gnt : ∀ a0, Statement (.gnt a0) := fun _ h => h
theorem cmp : ∀ a0, Statement (.cmp a0) := fun _ h => h
theorem busyReceived : ∀ a0, Statement (.busyReceived a0) := fun _ h => h
theorem dat : ∀ a0, Statement (.dat a0) := fun _ h => h
theorem tokenResend : ∀ a0, Statement (.tokenResend a0) := fun _ h => h
theorem reservationExpire : ∀ a0 a1, Statement (.reservationExpire a0 a1) := fun _ _ h => h
theorem holdWindowEnd : ∀ a0 a1, Statement (.holdWindowEnd a0 a1) := fun _ _ h => h
theorem purgeEnd : ∀ a0, Statement (.purgeEnd a0) := fun _ h => h
theorem flitCrcReplay : ∀ a0 a1 a2 a3, Statement (.flitCrcReplay a0 a1 a2 a3) := fun _ _ _ _ h => h
theorem sidebandFailover : ∀ a0 a1, Statement (.sidebandFailover a0 a1) := fun _ _ h => h
theorem laneFailed : ∀ a0 a1 a2 a3, Statement (.laneFailed a0 a1 a2 a3) := fun _ _ _ _ h => h
theorem substituted : ∀ a0 a1 a2, Statement (.substituted a0 a1 a2) := fun _ _ _ h => h
theorem narrowed : ∀ a0 a1 a2, Statement (.narrowed a0 a1 a2) := fun _ _ _ h => h
theorem laneRestored : ∀ a0 a1 a2, Statement (.laneRestored a0 a1 a2) := fun _ _ _ h => h
theorem recalPassStart : ∀ a0, Statement (.recalPassStart a0) := fun _ h => h
theorem run : ∀ a0 a1 a2, Statement (.run a0 a1 a2) := fun _ _ _ h => h
theorem recalLaneDone : ∀ a0, Statement (.recalLaneDone a0) := fun _ h => h
theorem fullTraining : ∀ a0, Statement (.fullTraining a0) := fun _ h => h
theorem fullTrainingDone : ∀ a0 a1 a2, Statement (.fullTrainingDone a0 a1 a2) := fun _ _ _ h => h
theorem admission : ∀ a0 a1, Statement (.admission a0 a1) := fun _ _ h => h
theorem bearingRetry : ∀ a0, Statement (.bearingRetry a0) := fun _ h => h
theorem heartbeat : ∀ a0 a1 a2 a3, Statement (.heartbeat a0 a1 a2 a3) := fun _ _ _ _ h => h
theorem heartbeatTimeout : ∀ a0, Statement (.heartbeatTimeout a0) := fun _ h => h
theorem watchdogReport : ∀ a0 a1, Statement (.watchdogReport a0 a1) := fun _ _ h => h
theorem vcoreRemove : ∀ a0, Statement (.vcoreRemove a0) := fun _ h => h
theorem guestRequest : ∀ a0 a1 a2 a3, Statement (.guestRequest a0 a1 a2 a3) := fun _ _ _ _ h => h
theorem guestCompletion : ∀ a0 a1, Statement (.guestCompletion a0 a1) := fun _ _ h => h
theorem gatehouseTokenRefill : ∀ a0, Statement (.gatehouseTokenRefill a0) := fun _ h => h
theorem guestRegisterAccess : ∀ a0 a1 a2 a3 a4, Statement (.guestRegisterAccess a0 a1 a2 a3 a4) := fun _ _ _ _ _ h => h
theorem guestAccessFailed : ∀ a0 a1 a2 a3 a4, Statement (.guestAccessFailed a0 a1 a2 a3 a4) := fun _ _ _ _ _ h => h
theorem guestLinkLost : ∀ a0, Statement (.guestLinkLost a0) := fun _ h => h
theorem ucieLaneRepair : ∀ a0, Statement (.ucieLaneRepair a0) := fun _ h => h
theorem dramRead : ∀ a0 a1 a2, Statement (.dramRead a0 a1 a2) := fun _ _ _ h => h
theorem dramWrite : ∀ a0, Statement (.dramWrite a0) := fun _ h => h
theorem correctedReread : ∀ a0 a1, Statement (.correctedReread a0 a1) := fun _ _ h => h
theorem patrolRead : ∀ a0 a1, Statement (.patrolRead a0 a1) := fun _ _ h => h
theorem refsb : ∀ a0 a1, Statement (.refsb a0 a1) := fun _ _ h => h
theorem memThrottled : ∀ a0 a1, Statement (.memThrottled a0 a1) := fun _ _ h => h
theorem sampledRowRefresh : ∀ a0 a1 a2, Statement (.sampledRowRefresh a0 a1 a2) := fun _ _ _ h => h
theorem tallyClear : ∀ a0, Statement (.tallyClear a0) := fun _ h => h
theorem trackingRetrain : ∀ a0, Statement (.trackingRetrain a0) := fun _ h => h
theorem channelFullTraining : ∀ a0 a1, Statement (.channelFullTraining a0 a1) := fun _ _ h => h
theorem poisonFillDone : ∀ a0, Statement (.poisonFillDone a0) := fun _ h => h
theorem caParityAlert : ∀ a0 a1, Statement (.caParityAlert a0 a1) := fun _ _ h => h
theorem resume : ∀ a0 a1, Statement (.resume a0 a1) := fun _ _ h => h
theorem retrain : ∀ a0, Statement (.retrain a0) := fun _ h => h
theorem fail : ∀ a0, Statement (.fail a0) := fun _ h => h
theorem memRetrain : ∀ a0, Statement (.memRetrain a0) := fun _ h => h
theorem memInclude : ∀ a0, Statement (.memInclude a0) := fun _ h => h
theorem memMark : ∀ a0, Statement (.memMark a0) := fun _ h => h
theorem memPprEnroll : ∀ a0, Statement (.memPprEnroll a0) := fun _ h => h
theorem portLinkTraining : ∀ a0 a1, Statement (.portLinkTraining a0 a1) := fun _ _ h => h
theorem outboundRequest : ∀ a0, Statement (.outboundRequest a0) := fun _ h => h
theorem portCompletion : ∀ a0 a1 a2 a3, Statement (.portCompletion a0 a1 a2 a3) := fun _ _ _ _ h => h
theorem cplTimeout : ∀ a0 a1, Statement (.cplTimeout a0 a1) := fun _ _ h => h
theorem inboundRequest : ∀ a0 a1 a2 a3 a4, Statement (.inboundRequest a0 a1 a2 a3 a4) := fun _ _ _ _ _ h => h
theorem interruptMessage : ∀ a0 a1 a2, Statement (.interruptMessage a0 a1 a2) := fun _ _ _ h => h
theorem intxMessage : ∀ a0 a1 a2, Statement (.intxMessage a0 a1 a2) := fun _ _ _ h => h
theorem hostBarRequest : ∀ a0 a1 a2 a3 a4 a5, Statement (.hostBarRequest a0 a1 a2 a3 a4 a5) := fun _ _ _ _ _ _ h => h
theorem lendingRequest : ∀ a0 a1 a2 a3 a4, Statement (.lendingRequest a0 a1 a2 a3 a4) := fun _ _ _ _ _ h => h
theorem busMasterEnableClear : ∀ a0, Statement (.busMasterEnableClear a0) := fun _ h => h
theorem d3hotEntry : ∀ a0, Statement (.d3hotEntry a0) := fun _ h => h
theorem d3coldEntry : ∀ a0, Statement (.d3coldEntry a0) := fun _ h => h
theorem d0Return : ∀ a0, Statement (.d0Return a0) := fun _ h => h
theorem flr : ∀ a0, Statement (.flr a0) := fun _ h => h
theorem prtPerstAssert : ∀ a0, Statement (.prtPerstAssert a0) := fun _ h => h
theorem pme : ∀ a0, Statement (.pme a0) := fun _ h => h
theorem prtEpintstatWrite : ∀ a0 a1, Statement (.prtEpintstatWrite a0 a1) := fun _ _ h => h
theorem doorbellTail : ∀ a0 a1 a2 a3, Statement (.doorbellTail a0 a1 a2 a3) := fun _ _ _ _ h => h
theorem doorbellHead : ∀ a0 a1 a2 a3, Statement (.doorbellHead a0 a1 a2 a3) := fun _ _ _ _ h => h
theorem doorbellResume : ∀ a0 a1 a2 a3, Statement (.doorbellResume a0 a1 a2 a3) := fun _ _ _ _ h => h
theorem hbrRctlWrite : ∀ a0 a1 a2, Statement (.hbrRctlWrite a0 a1 a2) := fun _ _ _ h => h
theorem harbourSchedule : Statement .harbourSchedule := fun h => h
theorem copy : ∀ a0, Statement (.copy a0) := fun _ h => h
theorem fill : ∀ a0, Statement (.fill a0) := fun _ h => h
theorem compare : ∀ a0, Statement (.compare a0) := fun _ h => h
theorem crc64 : ∀ a0, Statement (.crc64 a0) := fun _ h => h
theorem repackD : ∀ a0, Statement (.repackD a0) := fun _ h => h
theorem repackL : ∀ a0, Statement (.repackL a0) := fun _ h => h
theorem prefetch : ∀ a0, Statement (.prefetch a0) := fun _ h => h
theorem timedAccept : ∀ a0, Statement (.timedAccept a0) := fun _ h => h
theorem timedDescriptorDue : ∀ a0, Statement (.timedDescriptorDue a0) := fun _ h => h
theorem timedLeadExpired : ∀ a0, Statement (.timedLeadExpired a0) := fun _ h => h
theorem descriptorDone : ∀ a0, Statement (.descriptorDone a0) := fun _ h => h
theorem set : ∀ a0 a1, Statement (.set a0 a1) := fun _ _ h => h
theorem setApply : Statement .setApply := fun h => h
theorem cancelSlew : ∀ a0 a1, Statement (.cancelSlew a0 a1) := fun _ _ h => h
theorem lhSlewWrite : ∀ a0 a1, Statement (.lhSlewWrite a0 a1) := fun _ _ h => h
theorem slewTick : Statement .slewTick := fun h => h
theorem lhCtlWrite : ∀ a0 a1, Statement (.lhCtlWrite a0 a1) := fun _ _ h => h
theorem lhPpsEdge : Statement .lhPpsEdge := fun h => h
theorem ppsTimeout : Statement .ppsTimeout := fun h => h
theorem refLost : Statement .refLost := fun h => h
theorem refLocked : Statement .refLocked := fun h => h
theorem copyCorrection : ∀ a0 a1, Statement (.copyCorrection a0 a1) := fun _ _ h => h
theorem driftCleared : ∀ a0 a1, Statement (.driftCleared a0 a1) := fun _ _ h => h
theorem alarmFire : ∀ a0 a1, Statement (.alarmFire a0 a1) := fun _ _ h => h
theorem pwrCorectlWrite : ∀ a0 a1 a2, Statement (.pwrCorectlWrite a0 a1 a2) := fun _ _ _ h => h
theorem pwrIslectlWrite : ∀ a0 a1 a2, Statement (.pwrIslectlWrite a0 a1 a2) := fun _ _ _ h => h
theorem pwrBlkctlWrite : ∀ a0 a1 a2, Statement (.pwrBlkctlWrite a0 a1 a2) := fun _ _ _ h => h
theorem pwrPkgctlWrite : ∀ a0 a1, Statement (.pwrPkgctlWrite a0 a1) := fun _ _ h => h
theorem timedRequestFire : ∀ a0, Statement (.timedRequestFire a0) := fun _ h => h
theorem powerRequestComplete : ∀ a0, Statement (.powerRequestComplete a0) := fun _ h => h
theorem coreToNeap : ∀ a0, Statement (.coreToNeap a0) := fun _ h => h
theorem coreNeapToRun : ∀ a0, Statement (.coreNeapToRun a0) := fun _ h => h
theorem coreToDry : ∀ a0, Statement (.coreToDry a0) := fun _ h => h
theorem coreDryToRun : ∀ a0, Statement (.coreDryToRun a0) := fun _ h => h
theorem isleToNeap : ∀ a0, Statement (.isleToNeap a0) := fun _ h => h
theorem isleNeapToRun : ∀ a0, Statement (.isleNeapToRun a0) := fun _ h => h
theorem isleToDry : ∀ a0, Statement (.isleToDry a0) := fun _ h => h
theorem isleDryToRun : ∀ a0 a1, Statement (.isleDryToRun a0 a1) := fun _ _ h => h
theorem harbourToDry : Statement .harbourToDry := fun h => h
theorem portBlockToDry : ∀ a0, Statement (.portBlockToDry a0) := fun _ h => h
theorem keystoneBlockToRun : ∀ a0, Statement (.keystoneBlockToRun a0) := fun _ h => h
theorem lagoonEnter : Statement .lagoonEnter := fun h => h
theorem lagoonExit : Statement .lagoonExit := fun h => h
theorem wake : ∀ a0, Statement (.wake a0) := fun _ h => h
theorem portWake : ∀ a0, Statement (.portWake a0) := fun _ h => h
theorem smbusAddressMatch : ∀ a0, Statement (.smbusAddressMatch a0) := fun _ h => h
theorem bearingClaim : ∀ a0 a1, Statement (.bearingClaim a0 a1) := fun _ _ h => h
theorem bearingRelease : ∀ a0 a1 a2, Statement (.bearingRelease a0 a1 a2) := fun _ _ _ h => h
theorem currentCapCheck : ∀ a0 a1, Statement (.currentCapCheck a0 a1) := fun _ _ h => h
theorem thermalCap : ∀ a0 a1, Statement (.thermalCap a0 a1) := fun _ _ h => h
theorem wldRgnctlWrite : ∀ a0 a1, Statement (.wldRgnctlWrite a0 a1) := fun _ _ h => h
theorem regionTableArrives : ∀ a0, Statement (.regionTableArrives a0) := fun _ h => h
theorem handoverEngine : ∀ a0 a1 a2 a3, Statement (.handoverEngine a0 a1 a2 a3) := fun _ _ _ _ h => h
theorem handoverPort : ∀ a0 a1 a2 a3, Statement (.handoverPort a0 a1 a2 a3) := fun _ _ _ _ h => h
theorem handoverPartition : ∀ a0 a1 a2 a3 a4, Statement (.handoverPartition a0 a1 a2 a3 a4) := fun _ _ _ _ _ h => h
theorem handoverGuestSite : ∀ a0 a1 a2 a3, Statement (.handoverGuestSite a0 a1 a2 a3) := fun _ _ _ _ h => h
theorem handoverQuiesced : Statement .handoverQuiesced := fun h => h
theorem mailboxServe : Statement .mailboxServe := fun h => h
theorem info : ∀ a0, Statement (.info a0) := fun _ h => h
theorem cplRead : ∀ a0, Statement (.cplRead a0) := fun _ h => h
theorem handleStatus : ∀ a0, Statement (.handleStatus a0) := fun _ h => h
theorem sensorRead : ∀ a0, Statement (.sensorRead a0) := fun _ h => h
theorem lhSet : ∀ a0, Statement (.lhSet a0) := fun _ h => h
theorem lhSlew : ∀ a0, Statement (.lhSlew a0) := fun _ h => h
theorem lhPolicy : ∀ a0, Statement (.lhPolicy a0) := fun _ h => h
theorem brgSetlimit : ∀ a0, Statement (.brgSetlimit a0) := fun _ h => h
theorem islePolicy : ∀ a0, Statement (.islePolicy a0) := fun _ h => h
theorem idCert : ∀ a0, Statement (.idCert a0) := fun _ h => h
theorem idMeasure : ∀ a0, Statement (.idMeasure a0) := fun _ h => h
theorem unlockChallenge : ∀ a0 a1, Statement (.unlockChallenge a0 a1) := fun _ _ h => h
theorem nonceExpire : Statement .nonceExpire := fun h => h
theorem unlockResponse : ∀ a0, Statement (.unlockResponse a0) := fun _ h => h
theorem lock : ∀ a0, Statement (.lock a0) := fun _ h => h
theorem ownerEnroll : ∀ a0, Statement (.ownerEnroll a0) := fun _ h => h
theorem isleRelease : ∀ a0, Statement (.isleRelease a0) := fun _ h => h
theorem isleAdmit : ∀ a0 a1, Statement (.isleAdmit a0 a1) := fun _ _ h => h
theorem isleOffline : ∀ a0, Statement (.isleOffline a0) := fun _ h => h
theorem isleOnline : ∀ a0 a1, Statement (.isleOnline a0 a1) := fun _ _ h => h
theorem ucodeLoad : ∀ a0 a1, Statement (.ucodeLoad a0 a1) := fun _ _ h => h
theorem ucodeIsleParked : ∀ a0, Statement (.ucodeIsleParked a0) := fun _ h => h
theorem portConfig : ∀ a0, Statement (.portConfig a0) := fun _ h => h
theorem evrClear : ∀ a0, Statement (.evrClear a0) := fun _ h => h
theorem evrClearDone : Statement .evrClearDone := fun h => h
theorem fwStage : ∀ a0 a1 a2, Statement (.fwStage a0 a1 a2) := fun _ _ _ h => h
theorem fwSwap : ∀ a0 a1, Statement (.fwSwap a0 a1) := fun _ _ h => h
theorem handleCompletion : ∀ a0, Statement (.handleCompletion a0) := fun _ h => h
theorem umfMbintWrite : ∀ a0 a1 a2, Statement (.umfMbintWrite a0 a1 a2) := fun _ _ _ h => h
theorem smbusMctpWrite : ∀ a0 a1, Statement (.smbusMctpWrite a0 a1) := fun _ _ h => h
theorem smbusMailboxWrite : ∀ a0 a1 a2, Statement (.smbusMailboxWrite a0 a1 a2) := fun _ _ _ h => h
theorem smbusMailboxRead : ∀ a0, Statement (.smbusMailboxRead a0) := fun _ h => h
theorem getVersion : ∀ a0, Statement (.getVersion a0) := fun _ h => h
theorem getCapabilities : ∀ a0, Statement (.getCapabilities a0) := fun _ h => h
theorem negotiateAlgorithms : ∀ a0 a1 a2, Statement (.negotiateAlgorithms a0 a1 a2) := fun _ _ _ h => h
theorem getDigests : ∀ a0, Statement (.getDigests a0) := fun _ h => h
theorem getCertificate : ∀ a0 a1 a2 a3, Statement (.getCertificate a0 a1 a2 a3) := fun _ _ _ _ h => h
theorem challenge : ∀ a0 a1 a2, Statement (.challenge a0 a1 a2) := fun _ _ _ h => h
theorem getMeasurements : ∀ a0 a1, Statement (.getMeasurements a0 a1) := fun _ _ h => h
theorem recordArrives : ∀ a0, Statement (.recordArrives a0) := fun _ h => h
theorem recordStore : Statement .recordStore := fun h => h
theorem evrWindowRead : ∀ a0 a1, Statement (.evrWindowRead a0 a1) := fun _ _ h => h
theorem sndUloRead : ∀ a0 a1 a2, Statement (.sndUloRead a0 a1 a2) := fun _ _ _ h => h
theorem sndUloWrite : ∀ a0 a1 a2 a3, Statement (.sndUloWrite a0 a1 a2 a3) := fun _ _ _ _ h => h
theorem registerWrite : ∀ a0 a1 a2, Statement (.registerWrite a0 a1 a2) := fun _ _ _ h => h
theorem powerOn : ∀ a0 a1, Statement (.powerOn a0 a1) := fun _ _ h => h
theorem pkgResetAssert : Statement .pkgResetAssert := fun h => h
theorem pkgResetRelease : ∀ a0 a1, Statement (.pkgResetRelease a0 a1) := fun _ _ h => h
theorem startupStep : ∀ a0, Statement (.startupStep a0) := fun _ h => h
theorem railOutOfRange : ∀ a0, Statement (.railOutOfRange a0) := fun _ h => h
theorem refclkLoss : Statement .refclkLoss := fun h => h
theorem thermalTrip : ∀ a0, Statement (.thermalTrip a0) := fun _ h => h
theorem pmbAlert : ∀ a0, Statement (.pmbAlert a0) := fun _ h => h
theorem arrayInvalDone : ∀ a0, Statement (.arrayInvalDone a0) := fun _ h => h
theorem mailboxReqWrite : ∀ a0 a1 a2, Statement (.mailboxReqWrite a0 a1 a2) := fun _ _ _ h => h
theorem guestLinkTrained : ∀ a0 a1, Statement (.guestLinkTrained a0 a1) := fun _ _ h => h
theorem surpriseRemoval : ∀ a0 a1, Statement (.surpriseRemoval a0 a1) := fun _ _ h => h
theorem interruptDisableWrite : ∀ a0 a1, Statement (.interruptDisableWrite a0 a1) := fun _ _ h => h
theorem tagReuseAllowed : ∀ a0 a1, Statement (.tagReuseAllowed a0 a1) := fun _ _ h => h
theorem backupSidebandLaneFailed : ∀ a0 a1, Statement (.backupSidebandLaneFailed a0 a1) := fun _ _ h => h

end Sys2Proof.Laws.Threaded
end

