-- ==== Sys2Proof/Laws/Regs.lean ====
section
/-! SUPPORT. What an access of an open register is: the register's own view, in the state as it stands. -/

namespace Sys2Proof.Machine

theorem csUnit_isleReg (n : Fin 12) {sub o : Nat} (hs : sub < 16) (ho : o < 0x10000000) : csUnit (isleReg n.val sub o) = .isle n := by
  have h : (isleReg n.val sub o - 0xFF00000000000) / 0x100000000 = n.val := by unfold isleReg; omega
  have g : ¬ isleReg n.val sub o < 0xFF00000000000 := by unfold isleReg; omega
  unfold csUnit
  simp only [h]
  rw [if_neg g, dif_pos n.isLt]

theorem csUnit_keyReg {sub o : Nat} (hs : sub < 16) (ho : o < 0x10000000) : csUnit (keyReg sub o) = .keystone := by
  have h : (keyReg sub o - 0xFF00000000000) / 0x100000000 = 16 := by unfold keyReg; omega
  have g : ¬ keyReg sub o < 0xFF00000000000 := by unfold keyReg; omega
  unfold csUnit
  simp only [h]
  rw [if_neg g, dif_neg (by decide), if_neg (by decide), if_neg (by decide), if_pos trivial]

/-- A register's access goes to no guest site. -/
theorem State.csSite_isle (s : State) (w : Who) (n : Fin 12) {sub o : Nat} (hs : sub < 16) (ho : o < 0x10000000) (x : Option W36) :
    s.csSite w (isleReg n.val sub o) x = none := by
  unfold State.csSite
  rw [csUnit_isleReg n hs ho]

theorem State.csSite_key (s : State) (w : Who) {sub o : Nat} (hs : sub < 16) (ho : o < 0x10000000) (x : Option W36) :
    s.csSite w (keyReg sub o) x = none := by
  unfold State.csSite
  rw [csUnit_keyReg hs ho]

/-- A register of an open Isle: as it stands, but the Trowel's pointer moves at an access of its own (R165). -/
theorem State.csView_isle {s : State} {w : Who} {n : Fin 12} (h : s.isleOpen w n) {sub o : Nat} (hs : sub < 16)
    (ho : o < 0x10000000) (h4 : o % 4 = 0) (k : sub ≠ 1) :
    s.csView w (isleReg n.val sub o) = (s, some (s.isleView w n.val (0x10000000 * sub + o))) := by
  have e : isleReg n.val sub o % 0x100000000 / 4 * 4 = 0x10000000 * sub + o := by unfold isleReg; omega
  have d : (0x10000000 * sub + o) / 0x10000000 = sub := by omega
  unfold State.csView
  rw [csUnit_isleReg n hs ho, e]
  simp only [h.1, h.2.1, h.2.2, d, k, false_and, Bool.not_true, Bool.false_eq_true, if_false, Option.map_some, View.gate]

theorem State.csView_trw {s : State} {w : Who} {n : Fin 12} (h : s.isleOpen w n) {sub o : Nat} (k : sub = 1)
    (ho : o < 0x10000000) (h4 : o % 4 = 0) :
    s.csView w (isleReg n.val sub o) = (s.trwTook n.val w, some ((s.trwTook n.val w).isleView w n.val (0x10000000 * sub + o))) := by
  have e : isleReg n.val sub o % 0x100000000 / 4 * 4 = 0x10000000 * sub + o := by unfold isleReg; omega
  have d : ((0x10000000 * sub + o) / 0x10000000 = 1) = True := eq_true (by omega)
  unfold State.csView
  rw [csUnit_isleReg n (by omega) ho, e]
  simp only [h.1, h.2.1, h.2.2, d, true_and, Bool.not_true, Bool.false_eq_true, if_false, if_true, Option.map_some, View.gate]

theorem State.csWrite_isle {s : State} {w : Who} {n : Fin 12} (h : s.isleOpen w n) {sub o : Nat} (hs : sub < 16)
    (ho : o < 0x10000000) (h4 : o % 4 = 0) (k : sub ≠ 1) (v : W36) :
    (s.csWrite w (isleReg n.val sub o) v).1 = ((s.isleView w n.val (0x10000000 * sub + o)).wr v).1 := by
  unfold State.csWrite
  rw [State.csSite_isle s w n hs ho, State.csView_isle h hs ho h4 k]

theorem State.csWrite_trw {s : State} {w : Who} {n : Fin 12} (h : s.isleOpen w n) {sub o : Nat} (k : sub = 1)
    (ho : o < 0x10000000) (h4 : o % 4 = 0) (v : W36) :
    (s.csWrite w (isleReg n.val sub o) v).1 = (((s.trwTook n.val w).isleView w n.val (0x10000000 * sub + o)).wr v).1 := by
  unfold State.csWrite
  rw [State.csSite_isle s w n (by omega) ho, State.csView_trw h k ho h4]

theorem State.csRead_isle {s : State} {w : Who} {n : Fin 12} (h : s.isleOpen w n) {sub o : Nat} (hs : sub < 16)
    (ho : o < 0x10000000) (h4 : o % 4 = 0) (k : sub ≠ 1) :
    s.csRead w (isleReg n.val sub o) = ((s.isleView w n.val (0x10000000 * sub + o)).rd.1, some (s.isleView w n.val (0x10000000 * sub + o)).rd.2) := by
  unfold State.csRead
  rw [State.csSite_isle s w n hs ho, State.csView_isle h hs ho h4 k]

theorem State.csRead_trw {s : State} {w : Who} {n : Fin 12} (h : s.isleOpen w n) {sub o : Nat} (k : sub = 1)
    (ho : o < 0x10000000) (h4 : o % 4 = 0) :
    s.csRead w (isleReg n.val sub o) = (((s.trwTook n.val w).isleView w n.val (0x10000000 * sub + o)).rd.1,
      some ((s.trwTook n.val w).isleView w n.val (0x10000000 * sub + o)).rd.2) := by
  unfold State.csRead
  rw [State.csSite_isle s w n (by omega) ho, State.csView_trw h k ho h4]

theorem State.csView_key {s : State} {w : Who} {sub o : Nat} (h : s.keyOpen w sub o) (hs : sub < 16)
    (ho : o < 0x10000000) (h4 : o % 4 = 0) :
    s.csView w (keyReg sub o) = (s, some (s.keyView w (0x10000000 * sub + o))) := by
  have e : keyReg sub o % 0x100000000 / 4 * 4 = 0x10000000 * sub + o := by unfold keyReg; omega
  unfold State.csView
  rw [csUnit_keyReg hs ho, e]
  simp only [h.1, h.2, Bool.false_eq_true, if_false, Option.map_some, View.gate]

theorem State.csWrite_key {s : State} {w : Who} {sub o : Nat} (h : s.keyOpen w sub o) (hs : sub < 16)
    (ho : o < 0x10000000) (h4 : o % 4 = 0) (v : W36) :
    (s.csWrite w (keyReg sub o) v).1 = ((s.keyView w (0x10000000 * sub + o)).wr v).1 := by
  unfold State.csWrite
  rw [State.csSite_key s w hs ho, State.csView_key h hs ho h4]

theorem State.csRead_key {s : State} {w : Who} {sub o : Nat} (h : s.keyOpen w sub o) (hs : sub < 16)
    (ho : o < 0x10000000) (h4 : o % 4 = 0) :
    s.csRead w (keyReg sub o) = ((s.keyView w (0x10000000 * sub + o)).rd.1, some (s.keyView w (0x10000000 * sub + o)).rd.2) := by
  unfold State.csRead
  rw [State.csSite_key s w hs ho, State.csView_key h hs ho h4]

/-- What an Isle that is open answers an access of a requester. -/
theorem State.isleAnswer_open {s : State} {w : Who} {n : Fin 12} (h : s.isleOpen w n) : s.isleAnswer n.val (whoUmf w) = .ok := by
  have h := h.2.1
  unfold State.isleGate at h
  dsimp only at h
  split at h
  · rename_i c
    have u : whoUmf w = true := by revert c; cases whoUmf w <;> simp
    have v : (s.isle n.val).cond = .admitted ∨ (s.isle n.val).cond = .out := by
      revert c; cases (s.isle n.val).cond <;> simp [u]
    unfold State.isleAnswer
    rw [u]
    rcases v with v | v <;> simp [v]
  · simpa using h

end Sys2Proof.Machine
end

