-- ==== Sys2Proof/Tests/Slice0.lean ====
section
/-! SUPPORT. Tests of the model on small states: well-formedness, words written out from the spec, and for each statement of
Certificates/Slice0/Obligations.lean states and operands that meet its hypotheses, with what the spec says follows. Expected
values are computed by hand from the rules that a theorem's comment names. -/

-- One declaration at a time: many at once run out of threads.
set_option Elab.async false

namespace Sys2Proof.Tests

open Sys2Proof Sys2Proof.Machine

/-- Command c, run at s, answers a next state of which p holds. -/
def runs (c : Instr) (s : State) (p : State → Bool) : Bool :=
  match exec c s with
  | .next u => p u
  | .fault _ | .refused _ => false

/-- A small package in service: 12 Isles admitted, channel 0 running as the one set, start-up done. -/
def base : State :=
  { variant := .ty2304, home := { mask := 0xFFF }, memTop := 16, memSets := [{ base := 0, members := 1, depth := 16 }]
    chans := [(0, { st := .run, cap := 1 })]
    isles := (List.range 12).map fun n => (n, { st := .run, cond := .admitted, vcore := true, lhSync := true })
    straits := (List.range 12).map fun n => (n, { st := .up }), cores := (List.range 288).map fun n => (n, { st := .run })
    board := { step := 9 } }

/-- Command c, run at s, answers the next state t. -/
def goes (c : Instr) (s t : State) : Bool := runs c s fun u => u == t

/-- A message about line 7. -/
def msg (ty : MsgTy) (src dst : BitVec 4) : Msg := { ty, src, dst, line := 7 }

/-! ### Well-formedness: one ill-formed term for each check -/

theorem test_shi_amount : wellFormed (.shi 0 1 2 .sll false 71) = true ∧ wellFormed (.shi 0 1 2 .sll false 72) = false
    ∧ wellFormed (.shi 0 1 2 .sra true 35) = true ∧ wellFormed (.shi 0 1 2 .sra true 36) = false := by decide +kernel

/-- R49, R56: EMARK[7:4] is 0 in word form. -/
theorem test_emark_word_form : wellFormed (.lwm 0 1 2 16 false 0) = false ∧ wellFormed (.swm 0 1 2 16 false 0) = false
    ∧ wellFormed (.addM 0 1 2 3 16 false true) = false ∧ wellFormed (.subM 0 1 2 3 16 false true) = false
    ∧ wellFormed (.mulM 0 1 2 3 16 false true) = false ∧ wellFormed (.andM 0 1 2 3 16 false true) = false
    ∧ wellFormed (.orM 0 1 2 3 16 false true) = false ∧ wellFormed (.xorM 0 1 2 3 16 false true) = false
    ∧ wellFormed (.mtest 0 1 16 false true) = false ∧ wellFormed (.mset 0 1 2 16 true) = false
    ∧ wellFormed (.addM 0 1 2 3 16 false false) = true ∧ wellFormed (.ldm 0 1 2 255 true 0) = true := by decide +kernel

/-- R64: FSQRT, FNEG and FABS read no rs2; FMIN, FMAX, FNEG and FABS do not round. -/
theorem test_fop_fields : wellFormed (.fop64 0 1 2 3 .sqrt .even) = false ∧ wellFormed (.fop32 0 1 2 3 .neg .even) = false
    ∧ wellFormed (.vfop 0 1 2 3 true .abs .even) = false ∧ wellFormed (.fop64 0 1 2 3 .min .up) = false
    ∧ wellFormed (.fop32 0 1 2 0 .abs .dyn) = false ∧ wellFormed (.fop64 0 1 2 3 .add .dyn) = true := by decide +kernel

theorem test_vmov_lane : wellFormed (.vmov 0 .broadcast 1 2 1 .nonet) = false ∧ wellFormed (.vmov 0 .insert 1 2 8 .double) = false
    ∧ wellFormed (.vmov 0 .extract 1 2 16 .word) = false ∧ wellFormed (.vmov 0 .insert 1 2 32 .half) = false
    ∧ wellFormed (.vmov 0 .extract 1 2 63 .nonet) = true := by decide +kernel

/-- R170, R176, R185: who sends which message, what carries data, and where a snoop goes. -/
theorem test_messages : wellFormed (.rds (msg .rds 12 15)) = false ∧ wellFormed (.rdu (msg .rdu 13 15)) = false
    ∧ wellFormed (.upg (msg .upg 15 15)) = false ∧ wellFormed (.trw (msg .trw 12 15)) = false ∧ wellFormed (.evc (msg .evc 12 15)) = false
    ∧ wellFormed (.rdn (msg .rdn 14 15)) = false ∧ wellFormed (.rdn (msg .rdn 15 15)) = true ∧ wellFormed (.wbd (msg .wbd 1 15)) = false
    ∧ wellFormed (.wrn (msg .wrn 1 15)) = false ∧ wellFormed (.wrl (msg .wrl 1 15)) = false ∧ wellFormed (.atm (msg .atm 1 15)) = false
    ∧ wellFormed (.fws (msg .fws 15 12)) = false ∧ wellFormed (.fwu (msg .fwu 15 12)) = false ∧ wellFormed (.sng (msg .sng 15 13)) = false
    ∧ wellFormed (.snc (msg .snc 15 12)) = false ∧ wellFormed (.sni (msg .sni 15 12)) = false ∧ wellFormed (.inv (msg .inv 15 15)) = false
    ∧ wellFormed (.pfh (msg .pfh 15 12)) = false ∧ wellFormed (.ackd (msg .ackd 1 15)) = false ∧ wellFormed (.dat (msg .dat 1 2)) = false
    ∧ wellFormed (.cisternAccess (msg .rdn 15 12)) = false ∧ wellFormed (.rds (msg .rds 11 15)) = true := by decide +kernel

theorem test_lists : wellFormed (.thermalCap 0 [0, 0, 0, 0, 0]) = false ∧ wellFormed (.inboundRequest 0 .write 0 2 [1]) = false
    ∧ wellFormed (.portLinkTraining 0 { up := true, width := 3, rate := 1, flit := false, cxl := false }) = false := by decide +kernel

/-! ### Words written out from the spec's encodings (R67 to R71) -/

/-- Format A: major, rd, rs1, rs2, MINOR. -/
def fa (major : BitVec 8) (rd rs1 rs2 : BitVec 6) (minor : BitVec 10) : W36 := major ++ rd ++ rs1 ++ rs2 ++ minor
/-- Format I: major, rd, rs1, IMM16. -/
def fi (major : BitVec 8) (rd rs1 : BitVec 6) (imm : BitVec 16) : W36 := major ++ rd ++ rs1 ++ imm
/-- Format N: major, rd, rs1, EMARK, ACT, DISP7. -/
def fn (major : BitVec 8) (rd rs1 : BitVec 6) (em : BitVec 8) (act : BitVec 1) (d : BitVec 7) : W36 := major ++ rd ++ rs1 ++ em ++ act ++ d

/-- Flow and the system group: NOP is format Z; BR and BL are B, JR is J, DBNZ is D, SKIPI is K. -/
theorem test_words_flow : decodeWord 5 (0o001#8 ++ 0#28) = some (.nop 5) ∧ decodeWord 5 (fa 0o002 0 0 0 3) = some (.fence 5 .instruction)
    ∧ decodeWord 5 (fa 0o003 9 0 0 0o300) = some (.crr 5 9 0o300) ∧ decodeWord 5 (fa 0o004 0 9 0 0o020) = some (.crw 5 9 0o020)
    ∧ decodeWord 5 (fa 0o005 0 0 0 0) = some (.syscall 5) ∧ decodeWord 5 (fa 0o005 0 0 0 1) = some (.hvcall 5)
    ∧ decodeWord 5 (fa 0o005 0 0 0 2) = some (.tret 5) ∧ decodeWord 5 (fa 0o005 0 0 0 3) = some (.wait 5)
    ∧ decodeWord 5 (fa 0o005 3 4 0 4) = some (.launch 5 3 4) ∧ decodeWord 5 (0o006#8 ++ 0#28) = some (.vcall 5)
    ∧ decodeWord 5 (0o007#8 ++ 0#28) = some (.vret 5) ∧ decodeWord 5 (0o020#8 ++ 1#1 ++ (-3 : BitVec 27)) = some (.br 5 true (-3))
    ∧ decodeWord 5 (0o021#8 ++ 0#1 ++ 9#27) = some (.bl 5 false 9) ∧ decodeWord 5 (0o022#8 ++ 0#1 ++ 1#6 ++ 63#6 ++ 0#15) = some (.jr 5 false 1 63)
    ∧ decodeWord 5 (0o023#8 ++ 1#1 ++ 10#6 ++ (-2 : BitVec 21)) = some (.dbnz 5 true 10 (-2))
    ∧ decodeWord 5 (fa 0o024 1 2 0 (0#4 ++ 0#6)) = some (.skipr 5 1 2 .eq)
    ∧ decodeWord 5 (0o025#8 ++ 1#6 ++ 1#4 ++ 7#18) = some (.skipi 5 1 .ne 7) := by decide +kernel

theorem test_words_integer : decodeWord 5 (fa 0o040 1 2 3 0o01) = some (.alu72 5 1 2 3 .sub) ∧ decodeWord 5 (fa 0o041 1 2 3 0o17) = some (.alu36 5 1 2 3 .remu)
    ∧ decodeWord 5 (fi 0o042 1 2 (-1)) = some (.addi 5 1 2 (-1)) ∧ decodeWord 5 (fi 0o043 1 2 3) = some (.addi36 5 1 2 3)
    ∧ decodeWord 5 (fi 0o044 1 2 3) = some (.andi 5 1 2 3) ∧ decodeWord 5 (fi 0o045 1 2 3) = some (.ori 5 1 2 3)
    ∧ decodeWord 5 (fi 0o046 1 2 3) = some (.xori 5 1 2 3) ∧ decodeWord 5 (fa 0o047 1 2 0 (2#2 ++ 1#1 ++ 35#7)) = some (.shi 5 1 2 .sra true 35)
    ∧ decodeWord 5 (0o050#8 ++ 1#6 ++ (-1 : BitVec 22)) = some (.li 5 1 (-1)) ∧ decodeWord 5 (0o051#8 ++ 1#6 ++ 0#2 ++ 3#2 ++ 5#18) = some (.insh 5 1 3 5)
    ∧ decodeWord 5 (fa 0o047 1 2 0 (0#2 ++ 1#1 ++ 36#7)) = none ∧ decodeWord 5 (fa 0o040 1 2 3 0o24) = none := by decide +kernel

theorem test_words_memory : decodeWord 5 (fi 0o060 1 2 3) = some (.ln 5 1 2 3) ∧ decodeWord 5 (fi 0o061 1 2 3) = some (.lns 5 1 2 3)
    ∧ decodeWord 5 (fi 0o062 1 2 4) = some (.lh 5 1 2 4) ∧ decodeWord 5 (fi 0o063 1 2 4) = some (.lhs 5 1 2 4)
    ∧ decodeWord 5 (fi 0o064 1 2 4) = some (.lw 5 1 2 4) ∧ decodeWord 5 (fi 0o065 1 2 4) = some (.lws 5 1 2 4)
    ∧ decodeWord 5 (fi 0o066 1 2 8) = some (.ld 5 1 2 8) ∧ decodeWord 5 (fa 0o067 1 2 3 (6#3 ++ 3#2 ++ 0#5)) = some (.lx 5 1 2 3 .d 3)
    ∧ decodeWord 5 (fi 0o070 1 2 3) = some (.sn 5 1 2 3) ∧ decodeWord 5 (fi 0o071 1 2 4) = some (.sh 5 1 2 4)
    ∧ decodeWord 5 (fi 0o072 1 2 4) = some (.sw 5 1 2 4) ∧ decodeWord 5 (fi 0o073 1 2 8) = some (.sd 5 1 2 8)
    ∧ decodeWord 5 (fa 0o074 1 2 3 (4#3 ++ 2#2 ++ 0#5)) = some (.sx 5 1 2 3 .word 2) ∧ decodeWord 5 (fa 0o075 1 2 3 (1#4 ++ 1#1 ++ 0#5)) = some (.amo 5 1 2 3 .cas true)
    ∧ decodeWord 5 (fi 0o076 3 2 9) = some (.pref 5 .stream 2 9) ∧ decodeWord 5 (fa 0o074 1 2 3 (5#3 ++ 2#2 ++ 0#5)) = none := by decide +kernel

/-- The last two words are the spec's own: ADD g5, g6, g7 and its marked counterpart. -/
theorem test_words_marked : decodeWord 5 (fn 0o100 1 2 9 1 3) = some (.lwm 5 1 2 9 true 3) ∧ decodeWord 5 (fn 0o101 1 2 255 0 3) = some (.ldm 5 1 2 255 false 3)
    ∧ decodeWord 5 (fn 0o102 1 2 9 1 3) = some (.swm 5 1 2 9 true 3) ∧ decodeWord 5 (fn 0o103 1 2 9 1 3) = some (.sdm 5 1 2 9 true 3)
    ∧ decodeWord 5 (fa 0o121 1 2 3 (9#8 ++ 0#1 ++ 1#1)) = some (.subM 5 1 2 3 9 false true) ∧ decodeWord 5 (fa 0o122 1 2 3 (9#8 ++ 1#1 ++ 0#1)) = some (.mulM 5 1 2 3 9 true false)
    ∧ decodeWord 5 (fa 0o123 1 2 3 (9#8 ++ 1#1 ++ 0#1)) = some (.andM 5 1 2 3 9 true false) ∧ decodeWord 5 (fa 0o124 1 2 3 (9#8 ++ 1#1 ++ 0#1)) = some (.orM 5 1 2 3 9 true false)
    ∧ decodeWord 5 (fa 0o125 1 2 3 (9#8 ++ 1#1 ++ 0#1)) = some (.xorM 5 1 2 3 9 true false) ∧ decodeWord 5 (fa 0o126 0 2 0 (9#8 ++ 1#1 ++ 0#1)) = some (.mtest 5 2 9 true false)
    ∧ decodeWord 5 (fa 0o127 1 2 0 (9#8 ++ 0#1 ++ 1#1)) = some (.mset 5 1 2 9 true) ∧ decodeWord 5 (fa 0o130 1 2 0 (0#8 ++ 0#1 ++ 1#1)) = some (.mget 5 1 2 true)
    ∧ decodeWord 5 (fa 0o126 1 2 0 (9#8 ++ 1#1 ++ 0#1)) = none ∧ decodeWord 5 0o100121416000 = some (.alu72 5 5 6 7 .add)
    ∧ decodeWord 5 0o240121416006 = some (.addM 5 5 6 7 1 true false) := by decide +kernel

theorem test_words_float_vector : decodeWord 5 (fa 0o140 1 2 3 (7#3 ++ 3#7)) = some (.fop64 5 1 2 3 .div .dyn) ∧ decodeWord 5 (fa 0o141 1 2 0 (1#3 ++ 4#7)) = some (.fop32 5 1 2 0 .sqrt .zero)
    ∧ decodeWord 5 (fa 0o142 1 2 3 (2#3 ++ 3#7)) = some (.fma64 5 1 2 3 .nmsub .down) ∧ decodeWord 5 (fa 0o143 1 2 3 (3#3 ++ 1#7)) = some (.fma32 5 1 2 3 .msub .up)
    ∧ decodeWord 5 (fa 0o144 1 2 0 (4#3 ++ 7#7)) = some (.fcvt 5 1 2 .w2s .away) ∧ decodeWord 5 (fa 0o145 1 2 3 (1#1 ++ 0#2 ++ 1#1 ++ 0#4 ++ 2#2)) = some (.fcmp 5 1 2 3 true true .le)
    ∧ decodeWord 5 (fi 0o160 31 2 1) = some (.vld 5 31 2 1) ∧ decodeWord 5 (fi 0o161 30 2 1) = some (.vst 5 30 2 1) ∧ decodeWord 5 (fi 0o160 32 2 1) = none
    ∧ decodeWord 5 (fa 0o162 1 2 3 (3#2 ++ 0#2 ++ 9#6)) = some (.vop 5 1 2 3 .nonet .maxu) ∧ decodeWord 5 (fa 0o163 1 2 0 (0#3 ++ 1#1 ++ 8#6)) = some (.vfop 5 1 2 0 true .abs .even)
    ∧ decodeWord 5 (fa 0o164 1 2 0 (2#2 ++ 0#2 ++ 0#6)) = some (.vmov 5 .broadcast 1 2 0 .half) ∧ decodeWord 5 (fa 0o164 1 2 7 (0#2 ++ 1#2 ++ 0#6)) = some (.vmov 5 .insert 1 2 7 .double)
    ∧ decodeWord 5 (fa 0o164 1 2 7 (0#2 ++ 2#2 ++ 0#6)) = some (.vmov 5 .extract 2 1 7 .double) ∧ decodeWord 5 (fa 0o164 1 2 8 (0#2 ++ 1#2 ++ 0#6)) = none := by decide +kernel

/-! ### Instructions -/

/-- Thread 0 runs as x on core 0 of Isle 0, which holds line 0, where its PC points, with contents l. -/
def isaAt (l : LineBits) (x : Thread) : State :=
  { base with
    isles := (0, { base.isle 0 with lines := [(0, { st := .m, val := { bits := l } })] }) :: base.isles.drop 1
    threads := [(0, { x with mode := .running })] }
def isa (x : Thread) : State := isaAt 0 x

/-- Instruction i, run by thread 0 as x, leaves a thread of which p holds. -/
def gives (i : Instr) (x : Thread) (p : Thread → Bool) : Bool := runs i (isa x) fun u => p (u.thread 0)
/-- It writes v to g3 and goes on at the next word. -/
def writes (i : Instr) (x : Thread) (v : Reg) : Bool := gives i x fun y => y.gr 3 == v && y.pc == 4 && y.npc == 8 && !y.ds

/-- g1 = 5, g2 = 7, g4 = −2, g5 = 2^71 (the most negative), g6 = 3. -/
def regs : Thread := { g := [(1, 5), (2, 7), (4, -2), (5, 1#72 <<< 71), (6, 3)] }

/-- Every instruction of the integer statement runs at this state; SHI at its greatest amounts. -/
theorem witness_IntegerInstructionsWriteRd : ∀ i ∈ [Instr.alu72 0 3 1 2 .add, .alu36 0 3 1 2 .add, .addi 0 3 1 1, .addi36 0 3 1 1,
    .andi 0 3 1 1, .ori 0 3 1 1, .xori 0 3 1 1, .shi 0 3 1 .sra false 71, .shi 0 3 1 .sra true 35, .li 0 3 1, .insh 0 3 3 1, .nop 0,
    .fence 0 .full, .fence 0 .instruction], (isa regs).ready 0 i = true := by decide +kernel

theorem test_alu : writes (.alu72 0 3 1 2 .sub) regs (-2) ∧ writes (.alu36 0 3 1 2 .sub) regs (-2) ∧ writes (.alu72 0 3 5 4 .div) regs (1#72 <<< 70)
    ∧ writes (.alu72 0 3 1 0 .divu) regs (BitVec.allOnes 72) ∧ writes (.alu72 0 3 1 0 .rem) regs 5 ∧ writes (.alu72 0 3 4 6 .rem) regs (-2)
    ∧ writes (.alu36 0 3 1 5 .mul) regs 0 ∧ writes (.alu72 0 3 5 6 .sra) regs (-(1#72 <<< 68)) ∧ writes (.alu72 0 3 4 2 .mulh) regs (-1)
    ∧ writes (.alu72 0 3 1 2 .andn) regs 0 ∧ writes (.alu72 0 3 4 1 .maxu) regs (-2) := by decide +kernel

theorem test_immediates : writes (.addi 0 3 1 (-6)) regs (-1) ∧ writes (.addi36 0 3 1 0x7FFF) regs 0x8004 ∧ writes (.andi 0 3 4 0xFFFF) regs 0xFFFE
    ∧ writes (.ori 0 3 0 0x8000) regs 0x8000 ∧ writes (.xori 0 3 1 1) regs 4 ∧ writes (.shi 0 3 4 .srl false 71) regs 1
    ∧ writes (.shi 0 3 1 .sll true 35) regs (-(1#72 <<< 35)) ∧ writes (.li 0 3 0x200000) regs (-0x200000)
    ∧ writes (.insh 0 3 1 0x3FFFF) { g := [(3, 1)] } 0xFFFFC0001 := by decide +kernel

/-- A write to g0 is discarded (R42). -/
theorem test_g0 : gives (.li 0 0 9) regs (fun y => y.gr 0 == 0 && y.pc == 4) ∧ gives (.nop 0) regs (fun y => y.pc == 4)
    ∧ gives (.fence 0 .storeStore) regs (fun y => y.pc == 4) := by decide +kernel

/-- The statement's corners of division and shift meet at zero and at the width. -/
theorem witness_AluOperationsAreExact : (0 : Nat) < 36 ∧ (7 : BitVec 36) ≠ 0 ∧ (36 : Nat) ≤ 36 ∧ (35 : Nat) < 36
    ∧ aluOp .sra (1#36 <<< 35) 0 36 = -1 ∧ aluOp .sra (1#36 <<< 35) 0 35 = -1 ∧ aluOp .rem (1#36 <<< 35) (-1) 0 = 0 := by decide +kernel

theorem witness_SkipsAndTransfers : (∀ i ∈ [Instr.skipr 0 1 2 .lt, .skipr 0 1 2 .ge, .skipi 0 1 .eq 5, .skipi 0 1 .any 8, .br 0 true 4, .bl 0 false 4,
    .jr 0 false 63 6, .jr 0 false 63 0, .dbnz 0 true 1 4, .dbnz 0 true 6 4], (isa regs).ready 0 i = true)
    ∧ (regs.gr 1).toInt < (regs.gr 2).toInt ∧ ((regs.gr 0).extractLsb' 0 2 = (0 : BitVec 2)) ∧ ((regs.gr 6).extractLsb' 0 2 ≠ (0 : BitVec 2))
    ∧ regs.gr 1 ≠ 1 ∧ (Thread.gr { g := [(6, 1)] } 6) = 1 := by decide +kernel

theorem test_skips : gives (.skipr 0 1 2 .lt) regs (fun y => y.pc == 8 && y.npc == 12) ∧ gives (.skipr 0 1 2 .ge) regs (fun y => y.pc == 4)
    ∧ gives (.skipi 0 4 .lt 0) regs (fun y => y.pc == 8) ∧ gives (.skipi 0 4 .ltu 5) regs (fun y => y.pc == 4)
    ∧ gives (.skipi 0 4 .any 0x20001) regs (fun y => y.pc == 8) := by decide +kernel

/-- Transfers go to PC + 4 × OFF after the slot; the link is PC + 8. JR traps on a target that is not a multiple of 4. -/
theorem test_transfers : gives (.br 0 false 8) regs (fun y => y.pc == 4 && y.npc == 32 && y.ds)
    ∧ gives (.bl 0 true (-1)) regs (fun y => y.pc == 4 && y.npc == -4 && y.gr 63 == 8)
    ∧ gives (.jr 0 false 3 7) { regs with g := [(7, 0x100)] } (fun y => y.npc == 0x100 && y.gr 3 == 8 && y.ds)
    ∧ gives (.jr 0 false 3 6) regs (fun y => y.wc.h.cause == 4 && y.wc.h.val == 3 && y.gr 3 == 0)
    ∧ gives (.dbnz 0 true 6 4) regs (fun y => y.gr 6 == 2 && y.npc == 16) ∧ gives (.dbnz 0 true 6 4) { g := [(6, 1)] } (fun y => y.gr 6 == 0 && y.pc == 8) := by
  decide +kernel

/-- Double form with mark 9: g1 = 5, g2 = 7, g4 = 2^63 − 1; g6 carries mark 8. -/
def marked : Thread := { g := [(1, 9#8 ++ 5#64), (2, 9#8 ++ 7#64), (4, 9#8 ++ 0x7FFFFFFFFFFFFFFF#64), (6, 8#8 ++ 1#64)] }

theorem witness_MarkedArithmetic : (∀ i ∈ [Instr.addM 0 3 1 2 9 true false, .subM 0 3 1 2 9 true false, .mulM 0 3 1 2 9 true false, .andM 0 3 1 2 9 true false,
    .orM 0 3 1 2 9 true false, .xorM 0 3 1 2 9 true false, .mtest 0 6 9 false false, .mset 0 3 1 9 true, .mget 0 3 1 true], (isa marked).ready 0 i = true)
    ∧ (marked.gr 1).extractLsb' 64 8 = (9 : BitVec 8) ∧ (marked.gr 6).extractLsb' 64 8 ≠ (9 : BitVec 8) := by decide +kernel

theorem test_marked : writes (.addM 0 3 1 2 9 true false) marked (9#8 ++ 12#64) ∧ writes (.subM 0 3 1 2 9 true false) marked (9#8 ++ (-2 : BitVec 64))
    ∧ writes (.mulM 0 3 1 2 9 true false) marked (9#8 ++ 35#64) ∧ writes (.andM 0 3 1 2 9 true false) marked (9#8 ++ 5#64)
    ∧ writes (.orM 0 3 1 2 9 true false) marked (9#8 ++ 7#64) ∧ writes (.xorM 0 3 1 2 9 true false) marked (9#8 ++ 2#64)
    ∧ gives (.addM 0 3 1 4 9 true false) marked (fun y => y.wc.h.cause == 0x210 && y.wc.h.val == 0 && y.gr 3 == 0)
    ∧ gives (.addM 0 3 1 6 9 true false) marked (fun y => y.wc.h.cause == 0x110 && y.wc.h.val == 8)
    ∧ gives (.addM 0 3 1 6 9 false false) marked (fun y => y.pc == 8 && y.gr 3 == 0) := by decide +kernel

theorem test_marks : gives (.mtest 0 6 9 false false) marked (fun y => y.pc == 8) ∧ gives (.mtest 0 6 8 true false) marked (fun y => y.pc == 4)
    ∧ writes (.mset 0 3 1 2 false) marked (2#8 ++ 5#64) ∧ writes (.mset 0 3 1 2 true) marked 0x200000005 ∧ writes (.mget 0 3 6 false) marked 8 := by
  decide +kernel

/-- R2, R56: the spec's word of four nonets, 0o452, 0o000, 0o000 and 0o400, in line 0 (nonets 0 to 3 and the same from 32). -/
def four : LineBits := setUnit 4 0 0 0o440000000052

theorem witness_UnitImages : (56 : Nat) + unitNonets .double ≤ 64 ∧ unitAt 4 four 0 = 0o440000000052 ∧ nonetAt four 0 = 0o452
    ∧ nonetOf 4 0o440000000052 0 = 0o452 ∧ nonetOf 4 0o440000000052 3 = 0o400 := by decide +kernel

/-- 1.0 in g1 (mark 9), 2.0 in g2, a signalling NaN in g4, 3.0 in g6 and 0.1 in g7, in double form. -/
def floats : Thread := { g := [(1, 9#8 ++ 0x3FF0000000000000#64), (2, 0x4000000000000000), (4, 0x7FF0000000000001), (6, 0x4008000000000000), (7, 0x3FB999999999999A)] }
/-- The same in word form. -/
def floats32 : Thread := { g := [(1, 0x93F800000), (2, 0x40000000), (4, 0x7F800001), (6, 0x40400000), (7, 0x3DCCCCCD)] }

theorem witness_FloatingPointInstructions : ∀ i ∈ [Instr.fop64 0 3 1 2 .add .even, .fop32 0 3 1 2 .add .dyn, .fma64 0 3 1 2 .madd .up, .fma32 0 3 1 2 .nmsub .dyn,
    .fcvt 0 3 1 .d2s .even, .fcmp 0 3 1 2 true false .lt], (isa floats).ready 0 i = true := by decide +kernel

/-- R61 to R64: 1 + 2 = 3 with rs1's mark; 1 / 3 is inexact, and down and up differ by one; 0.1 × 0.1; a NaN is the canonical one. -/
theorem test_fop : gives (.fop64 0 3 1 2 .add .even) floats (fun y => y.gr 3 == (9#8 ++ 0x4008000000000000#64) && y.flags == 0)
    ∧ gives (.fop64 0 3 1 6 .div .down) floats (fun y => y.gr 3 == (9#8 ++ 0x3FD5555555555555#64) && y.flags == 1)
    ∧ gives (.fop64 0 3 1 6 .div .up) floats (fun y => y.gr 3 == (9#8 ++ 0x3FD5555555555556#64) && y.flags == 1)
    ∧ gives (.fop64 0 3 7 7 .mul .even) floats (fun y => y.gr 3 == 0x3F847AE147AE147C && y.flags == 1)
    ∧ gives (.fop64 0 3 1 4 .add .even) floats (fun y => y.gr 3 == (9#8 ++ 0x7FF8000000000000#64) && y.flags == 16)
    ∧ gives (.fop64 0 3 1 0 .div .even) floats (fun y => y.gr 3 == (9#8 ++ 0x7FF0000000000000#64) && y.flags == 8)
    ∧ gives (.fop64 0 3 2 0 .sqrt .even) floats (fun y => y.gr 3 == 0x3FF6A09E667F3BCD && y.flags == 1) := by decide +kernel

theorem test_fop32 : gives (.fop32 0 3 1 2 .add .even) floats32 (fun y => y.gr 3 == 0x940400000)
    ∧ gives (.fop32 0 3 1 6 .div .zero) floats32 (fun y => y.gr 3 == 0x93EAAAAAA && y.flags == 1)
    ∧ gives (.fop32 0 3 1 0 .neg .even) floats32 (fun y => y.gr 3 == 0x9BF800000) ∧ gives (.fop32 0 3 1 4 .min .even) floats32 (fun y => y.gr 3 == 0x93F800000) := by
  decide +kernel

theorem test_fma : gives (.fma64 0 6 1 2 .madd .even) floats (fun y => y.gr 6 == (9#8 ++ 0x4014000000000000#64))
    ∧ gives (.fma64 0 6 1 2 .msub .even) floats (fun y => y.gr 6 == (9#8 ++ 0xBFF0000000000000#64))
    ∧ gives (.fma32 0 6 1 2 .nmadd .even) floats32 (fun y => y.gr 6 == 0x9C0A00000) ∧ gives (.fma32 0 6 1 2 .nmsub .even) floats32 (fun y => y.gr 6 == 0x93F800000) := by
  decide +kernel

theorem test_fcvt : gives (.fcvt 0 3 7 .d2s .even) floats (fun y => y.gr 3 == 0x3DCCCCCD && y.flags == 1)
    ∧ gives (.fcvt 0 3 1 .s2d .even) floats32 (fun y => y.gr 3 == (9#8 ++ 0x3FF0000000000000#64)) ∧ gives (.fcvt 0 3 4 .d2l .even) floats (fun y => y.gr 3 == 0 && y.flags == 16)
    ∧ gives (.fcvt 0 3 1 .ul2d .even) { g := [(1, 3)] } (fun y => y.gr 3 == 0x4008000000000000) ∧ gives (.fcvt 0 3 6 .s2w .even) floats32 (fun y => y.gr 3 == 3) := by
  decide +kernel

theorem test_fcmp : gives (.fcmp 0 3 1 2 false false .lt) floats (fun y => y.gr 3 == 1 && y.flags == 0) ∧ gives (.fcmp 0 3 1 4 false false .unord) floats (fun y => y.gr 3 == 1 && y.flags == 16)
    ∧ gives (.fcmp 0 3 2 1 true true .le) floats32 (fun y => y.gr 3 == 0) := by decide +kernel

theorem witness_FloatingResults : (b64.unpack (fval false (floats.gr 4))).isNan = true ∧ (b32.unpack (fval true (floats32.gr 4))).isNan = true
    ∧ fval false (fopReg false .add .even (floats.gr 4) 0).1 = 0x7FF8000000000000 ∧ (fopReg true .add .even (floats32.gr 4) 0).1 = 0x7FC00000
    ∧ (fcvtOp .d2l .even (floats.gr 4)).2.getLsbD 4 = true := by decide +kernel

/-- v1: double lanes 1, 2, 3 … as raw values; v2: every double lane 2; g1 = −1. -/
def vecs : Thread :=
  { g := [(1, -1)]
    v := [(1, (List.range 8).foldl (fun l k => setUnit 8 l (8 * k) (BitVec.ofNat 72 (k + 1))) 0), (2, (List.range 8).foldl (fun l k => setUnit 8 l (8 * k) 2) 0)] }

theorem witness_VectorInstructions : (∀ i ∈ [Instr.vop 0 3 1 2 .double .mul, .vfop 0 3 1 2 true .add .even, .vmov 0 .broadcast 3 1 0 .word,
    .vmov 0 .insert 3 1 63 .nonet, .vmov 0 .extract 1 3 7 .double], (isa vecs).ready 0 i = true) ∧ (7 : Nat) < VElt.double.lanes ∧ (63 : Nat) < VElt.nonet.lanes := by
  decide +kernel

theorem test_vop : gives (.vop 0 3 1 2 .double .mul) vecs (fun y => unitAt 8 (y.vr 3) 56 == 16 && unitAt 8 (y.vr 3) 0 == 2)
    ∧ gives (.vop 0 3 1 2 .double .sub) vecs (fun y => unitAt 8 (y.vr 3) 0 == -1) ∧ gives (.vop 0 3 2 1 .nonet .max) vecs (fun y => unitAt 1 (y.vr 3) 8 == 2) := by
  decide +kernel

theorem test_vmov : gives (.vmov 0 .broadcast 3 1 0 .word) vecs (fun y => unitAt 4 (y.vr 3) 60 == 0xFFFFFFFFF)
    ∧ gives (.vmov 0 .insert 1 1 63 .nonet) vecs (fun y => unitAt 1 (y.vr 1) 63 == 0x1FF && unitAt 8 (y.vr 1) 48 == 7)
    ∧ gives (.vmov 0 .extract 1 3 7 .double) vecs (fun y => y.gr 3 == 8) := by decide +kernel

theorem test_vfop : gives (.vfop 0 3 1 1 false .add .even) { v := [(1, (List.range 8).foldl (fun l k => setUnit 8 l (8 * k) 0x3FF0000000000000) 0)] }
    (fun y => unitAt 8 (y.vr 3) 56 == 0x4000000000000000 && y.flags == 0) := by decide +kernel

/-! Memory: line 0 holds the spec's word at 0 and at 32, and the Isle owns it. -/

def mem0 (x : Thread) : State := isaAt (setUnit 4 four 32 0o440000000052) x
def loads (i : Instr) (v : Reg) : Bool := runs i (mem0 { g := [(3, 9), (6, 64), (7, 8)] }) fun u => (u.thread 0).gr 3 == v && (u.thread 0).pc == 4

/-- The example of R56. -/
theorem test_loads : loads (.lw 0 3 0 0) 0o440000000052 ∧ loads (.lws 0 3 0 0) 0o777777777777440000000052 ∧ loads (.lwm 0 3 0 9 true 0) 0o440000000052
    ∧ loads (.lwm 0 3 0 9 false 8) 0o440000000052 ∧ loads (.ln 0 3 0 0) 0o452 ∧ loads (.lns 0 3 0 3) (-256) ∧ loads (.lh 0 3 0 0) 0o200052
    ∧ loads (.lhs 0 3 0 2) (-131072) ∧ loads (.ld 0 3 0 0) (0o11#8 ++ 0x2A#64) ∧ loads (.ldm 0 3 0 9 true 0) (0o11#8 ++ 0x2A#64)
    ∧ loads (.lx 0 3 0 7 .ws 2) 0o777777777777440000000052 := by decide +kernel

/-- A mismatch with ACT = 0 skips and leaves rd; a misaligned address traps with the address in TVAL. -/
theorem test_load_stops : runs (.lwm 0 3 0 1 false 0) (mem0 { g := [(3, 9)] }) (fun u => (u.thread 0).gr 3 == 9 && (u.thread 0).pc == 8)
    ∧ runs (.lw 0 3 0 2) (mem0 {}) (fun u => (u.thread 0).wc.h.cause == 3 && (u.thread 0).wc.h.val == 2) := by decide +kernel

/-- Stores and AMO write the line that the Isle holds in M, and nothing beside their unit. -/
def stores (i : Instr) (p : LineBits → Bool) : Bool :=
  runs i (mem0 { g := [(3, 0o123), (4, 9#8 ++ 1#64), (6, 2)], v := [(1, -1)] }) fun u => p ((u.isle 0).line 0).val.bits && (u.thread 0).pc == 4

theorem test_stores : stores (.sn 0 3 0 1) (fun l => unitAt 4 l 0 == 0o440000051452 && unitAt 4 l 32 == 0o440000000052) ∧ stores (.sh 0 3 0 2) (fun l => unitAt 2 l 2 == 0o123)
    ∧ stores (.sw 0 3 0 4) (fun l => unitAt 4 l 4 == 0o123 && unitAt 4 l 0 == 0o440000000052) ∧ stores (.sd 0 4 0 8) (fun l => unitAt 8 l 8 == (9#8 ++ 1#64))
    ∧ stores (.sdm 0 4 0 9 true 1) (fun l => unitAt 8 l 8 == (9#8 ++ 1#64)) ∧ stores (.sx 0 3 0 6 .half 1) (fun l => unitAt 2 l 4 == 0o123)
    ∧ stores (.vst 0 1 0 0) (fun l => l == -1) := by decide +kernel

theorem test_marked_store_stops : runs (.swm 0 3 0 9 false 1) (mem0 { g := [(3, 1)] }) (fun u => (u.thread 0).pc == 8 && ((u.isle 0).line 0).val == ((mem0 {}).isle 0 |>.line 0).val)
    ∧ runs (.sdm 0 3 0 9 true 1) (mem0 { g := [(3, 1)] }) (fun u => (u.thread 0).wc.h.cause == 0x410 && (u.thread 0).wc.h.val == 0) := by decide +kernel

theorem test_amo : runs (.amo 0 3 0 6 .add true) (mem0 { g := [(6, 2)] }) (fun u => (u.thread 0).gr 3 == 0o440000000052 && unitAt 4 ((u.isle 0).line 0).val.bits 0 == 0o440000000054)
    ∧ runs (.amo 0 3 0 6 .cas false) (mem0 { g := [(6, 2)] }) (fun u => (u.thread 0).gr 3 == (0o11#8 ++ 0x2A#64) && unitAt 8 ((u.isle 0).line 0).val.bits 0 == (0o11#8 ++ 0x2A#64))
    ∧ runs (.vld 0 1 0 0) (mem0 {}) (fun u => unitAt 4 ((u.thread 0).vr 1) 32 == 0o440000000052) := by decide +kernel

/-- Instruction i runs, its address translates, its unit may be reached and its access answers with a line: what the statements
about loads and stores ask for. -/
def accesses (i : Instr) (x : Thread) (ea : Addr) (k : TKind) (r : Reach) (u : MUnit5) (m : MemOp) : Bool :=
  let s := mem0 x
  s.ready 0 i && decide (ea.toNat % unit5Nonets u = 0)
    && match (s.fetched 0).translate 0 k ea with
      | (f, _, .ok pa uc) => f.reaches r pa && (match (f.touch 0 pa u uc m).ans with | .ok _ => true | .resp _ | .wait => false)
      | (_, _, .trap ..) | (_, _, .wait) => false

theorem witness_LoadsReadTheirUnit : accesses (.ln 0 3 0 63) {} 63 .load .plain .nonet .read ∧ accesses (.lns 0 3 0 0) {} 0 .load .plain .nonet .read
    ∧ accesses (.lh 0 3 0 62) {} 62 .load .plain .half .read ∧ accesses (.lhs 0 3 0 0) {} 0 .load .plain .half .read
    ∧ accesses (.lw 0 3 0 60) {} 60 .load .word .word .read ∧ accesses (.lws 0 3 0 0) {} 0 .load .word .word .read
    ∧ accesses (.ld 0 3 0 56) {} 56 .load .plain .double .read ∧ accesses (.lx 0 3 0 7 .d 3) { g := [(7, 7)] } 56 .load .plain .double .read
    ∧ accesses (.lwm 0 3 0 9 true 8) {} 32 .load .word .word .read ∧ accesses (.ldm 0 3 0 8 false 7) {} 56 .load .plain .double .read
    ∧ accesses (.vld 0 1 0 0) {} 0 .load .plain .line .read ∧ markOf true (unitAt 4 (setUnit 4 four 32 0o440000000052) 32) = 9
    ∧ markOf false (unitAt 8 (setUnit 4 four 32 0o440000000052) 56) ≠ 8 := by decide +kernel

theorem witness_StoresAndAmoWriteTheirUnit : accesses (.sn 0 3 0 63) {} 63 .store .plain .nonet (.write 0) ∧ accesses (.sh 0 3 0 62) {} 62 .store .plain .half (.write 0)
    ∧ accesses (.sw 0 3 0 60) {} 60 .store .word .word (.write 0) ∧ accesses (.sd 0 3 0 56) {} 56 .store .plain .double (.write 0)
    ∧ accesses (.sx 0 3 0 7 .nonet 0) { g := [(7, 63)] } 63 .store .plain .nonet (.write 0) ∧ accesses (.swm 0 3 0 9 true 15) { g := [(3, 0x900000000)] } 60 .store .word .word (.write 0)
    ∧ accesses (.sdm 0 3 0 9 true 0) { g := [(3, 1)] } 0 .store .plain .double (.write 0) ∧ accesses (.vst 0 1 0 0) {} 0 .store .plain .line (.write 0)
    ∧ accesses (.amo 0 3 0 2 .maxu true) {} 0 .store .amo .word (.amo .maxu true 0 0) ∧ accesses (.amo 0 3 0 2 .swap false) {} 0 .store .amo .double (.amo .swap false 0 0)
    ∧ markOf true 0x900000000 = 9 ∧ markOf false 1 ≠ 9 := by decide +kernel

/-- A misaligned address, an address that does not translate, and a unit that a plain access may not reach. -/
theorem witness_MemoryChecksComeInOrder : let x : Thread := { g := [(6, 0xFF00000000000), (7, 1#72 <<< 52)] }
    let s := mem0 x
    s.ready 0 (.lw 0 3 0 1) = true ∧ s.ready 0 (.sd 0 3 7 0) = true ∧ s.ready 0 (.ld 0 3 6 0) = true
      ∧ ((s.fetched 0).translate 0 .store 0x10000000000000).2.2 = .trap 10 0 0x10000000000000
      ∧ ((s.fetched 0).translate 0 .load 0xFF00000000000).2.2 = .ok 0xFF00000000000 false ∧ paClass 0xFF00000000000 = .control
      ∧ runs (.sd 0 3 7 0) s (fun u => (u.thread 0).wc.h.cause == 10) ∧ runs (.ld 0 3 6 0) s (fun u => (u.thread 0).wc.h.cause == 0x103) := by decide +kernel

theorem witness_TranslationWithoutATable : let on : Thread := { wc := { hxroot := 1 } }
    (isa {}).translate 0 .load 0xFFFFFFFFFFFFF = (isa {}, [], .ok 0xFFFFFFFFFFFFF false)
      ∧ (isa {}).translate 0 .load 0x10000000000000 = (isa {}, [], .trap 9 0 0x10000000000000) ∧ (on.cur.hxroot.getLsbD 0 = true)
      ∧ (isa on).translate 0 .store 0x200000000000000 = (isa on, [], .trap 10 0 0x200000000000000)
      ∧ (isa on).translate 0 .fetch 0xFDFFFFFFFFFFFFFF = (isa on, [], .trap 8 0 0xFDFFFFFFFFFFFFFF) := by decide +kernel

/-- Isle 0 holds line 0 in M and another line in E; thread 0's PC is in line 0. -/
def held : State := (mem0 {}).setIsle 0 (((mem0 {}).isle 0).setLine 24 { st := .e, val := { bits := 5 } })

theorem witness_HeldLinesAreReadAndWritten : paClass 60 = .dram ∧ held.coherent 0 = true ∧ held.icOn 0 = true ∧ inVault (held.isle 0).regions 60 = false
    ∧ ((held.isle 0).line 0).st = .m ∧ ((held.isle 0).line 24).st = .e ∧ held.coherent 24 = true ∧ (held.isle 0).dataErr = [] ∧ (held.isle 0).tagErr = []
    ∧ held.staleAt (held.acr 0) 0 = none ∧ 60 % unit5Nonets .word = 0 ∧ 0 % unit5Nonets .line = 0 ∧ ((held.thread 0).pc.toNat = 0)
    ∧ (let g := held.touch 0 60 .word false (.amo .add true 3 0)
       g.ans = .ok ((held.isle 0).line 0).val.bits ∧ unitAt 4 ((g.s.isle 0).line 0).val.bits 60 = 3 ∧ unitAt 4 ((g.s.isle 0).line 0).val.bits 32 = 0o440000000052
        ∧ ((g.s.isle 0).line 24).val.bits = 5 ∧ g.s.mem = held.mem ∧ g.s.home = held.home ∧ g.s.threads = held.threads)
    ∧ (held.fetch 0).2.2 = .ok 0 false := by decide +kernel

/-! ### Traps, transitions, waiting and control registers -/

/-- At user level; at supervisor level; in the Vault world at hypervisor level. -/
def user : Thread := { priv := 0 }
def super : Thread := { priv := 1 }
def inTheVault : Thread := { vault := true, g := [(4, 4), (5, 5)], vrpc := 0x100, vrsave := 0x100765 }

/-- A supervisor thread's cause goes to the S bank, or to the H bank by TROUTE; both banks' levels and IENA bits are saved. -/
theorem test_trap_entry : let y := Thread.takeTrap { priv := 1, wc := { s := { vec := 0x40, stat := 1 } } } 16 2 9 8 12 true
    (y.wc.s.cause = 0x800210 ∧ y.wc.s.pc = 8 ∧ y.wc.s.npc = 12 ∧ y.wc.s.val = 9 ∧ y.wc.s.stat = 6 ∧ y.pc = 0x40 ∧ y.npc = 0x44 ∧ y.priv = 1 ∧ y.ds = false)
    ∧ (Thread.takeTrap { priv := 0, wc := { troute := 0x50000, h := { vec := 0x80 } } } 16 0 0 0 4 false).pc = 0x80 := by decide +kernel

theorem witness_CallsAndIllegalWords : (isa user).ready 0 (.syscall 0) = true ∧ (isa super).ready 0 (.hvcall 0) = true ∧ (isa user).ready 0 (.hvcall 0) = true
    ∧ super.priv ≠ 0 ∧ (isa user).issues 0 = true ∧ (isa user).pickInt 0 = none ∧ ((isa user).fetch 0).2.2.isOk = true ∧ illegalDetail 0 false = some 0
    ∧ illegalDetail (0o005#8 ++ 0#28) true = some 3 := by decide +kernel

theorem test_calls : gives (.syscall 0) user (fun y => y.wc.s.cause == 17 && y.wc.s.pc == 4 && y.wc.s.npc == 8 && y.priv == 1)
    ∧ gives (.hvcall 0) super (fun y => y.wc.h.cause == 18 && y.wc.h.pc == 4 && y.priv == 2) ∧ gives (.hvcall 0) user (fun y => y.wc.s.cause == 0x102 && y.wc.s.val == 0o012000000001)
    ∧ gives (.illegalInstruction 0 0) user (fun y => y.wc.s.cause == 1 && y.wc.s.pc == 0) := by decide +kernel

theorem test_tret : gives (.tret 0) { priv := 1, wc := { s := { pc := 0x40, npc := 0x80, cause := 0x800000, stat := 2 } } }
      (fun y => y.pc == 0x40 && y.npc == 0x80 && y.ds && y.priv == 0 && y.wc.s.stat == 3) ∧ gives (.tret 0) user (fun y => y.wc.s.cause == 0x102) := by decide +kernel

theorem witness_TretReturns : (isa super).ready 0 (.tret 0) = true ∧ super.priv ≠ 0 ∧ (isa user).ready 0 (.tret 0) = true ∧ user.priv = 0 := by decide +kernel

/-- A thread that does not issue; one with a message interrupt of class 2 enabled; a PC that does not translate; a slot. -/
def interrupted : Thread := { priv := 0, pc := 0x40, npc := 0x44, ds := true, wc := { msgPend := 4, s := { iena := 4, vec := 0x80 } } }

theorem witness_ChecksBeforeAnInstruction : instrThread (.br 0 false 0) = some 0 ∧ encodeWord (.br 0 false 0) = some (0o020#8 ++ 0#28)
    ∧ (isa {}).threadFit 0 = true ∧ ((isa {}).setThread 0 {}).issues 0 = false ∧ (isa interrupted).issues 0 = true ∧ (isa interrupted).pickInt 0 = some (2, 1)
    ∧ (isa {}).pickInt 0 = none ∧ ((isa { pc := 0x10000000000000 }).fetch 0).2.2 = .trap 8 0 0x10000000000000
    ∧ ((isa { ds := true }).fetch 0).2.2.isOk = true ∧ illegalDetail (0o020#8 ++ 0#28) true = some 3 := by decide +kernel

theorem test_checks : runs (.nop 0) ((isa {}).setThread 0 {}) (fun u => u == (isa {}).setThread 0 {})
    ∧ gives (.nop 0) interrupted (fun y => y.pc == 0x80 && y.wc.s.cause == 0xC00022 && y.wc.s.pc == 0x40 && !y.ds)
    ∧ gives (.nop 0) { pc := 0x10000000000000 } (fun y => y.wc.h.cause == 8) ∧ gives (.br 0 false 0) { ds := true } (fun y => y.wc.h.cause == 0x800301) := by decide +kernel

theorem witness_SlotPlacement : wellFormed (.addM 0 1 2 3 9 false false) = true ∧ encodeWord (.addM 0 1 2 3 9 false false) = some (fa 0o120 1 2 3 36)
    ∧ illegalDetail (fa 0o120 1 2 3 36) true = some 3 ∧ illegalDetail (fa 0o120 1 2 3 38) true = none := by decide +kernel

theorem witness_WorldTransitions : (∀ x ∈ [user, super, inTheVault, { ventry := 1 }], (isa x).ready 0 (.vcall 0) = true ∧ (isa x).ready 0 (.vret 0) = true)
    ∧ user.priv = 0 ∧ inTheVault.vault = true ∧ super.ventry.getLsbD 0 = false ∧ super.vault = false := by decide +kernel

theorem test_vcall : gives (.vcall 0) { priv := 1, ctx := 7, rm := 3, flags := 5, ventry := 0x1041 } (fun y => y.vault && y.priv == 2 && y.pc == 0x1040 && y.npc == 0x1044
      && y.vrpc == 4 && y.vrsave == 0x100765) ∧ gives (.vcall 0) user (fun y => y.wc.s.cause == 0x102) ∧ gives (.vcall 0) inTheVault (fun y => y.wv.h.cause == 19)
    ∧ gives (.vcall 0) super (fun y => y.wc.s.cause == 0x113) := by decide +kernel

theorem test_vret : gives (.vret 0) inTheVault (fun y => !y.vault && y.priv == 1 && y.ctx == 7 && y.rm == 3 && y.flags == 5 && y.pc == 0x100 && y.gr 4 == 4 && y.gr 5 == 0)
    ∧ gives (.vret 0) super (fun y => y.wc.s.cause == 0x213) := by decide +kernel

/-- An Isle's copy reads (1, 1000). -/
def timed (x : Thread) : State := (isa x).setIsle 0 { (isa x).isle 0 with lhEpoch := 1, lhCount := 1000 }
def waits (x : Thread) (m : TMode) : State := (timed x).setThread 0 { x with mode := m }
/-- g1 to g5 ask for LAUNCH at now, at now + 1, at now + 2^32, at 2^32 + 1 from now, and in another epoch. -/
def launches : Thread := { g := [(1, 1#8 ++ 1000#64), (2, 1#8 ++ 1001#64), (3, 1#8 ++ (1000#64 + 0x100000000#64)), (4, 1#8 ++ (1001#64 + 0x100000000#64)), (5, 2#8 ++ 2000#64)] }

theorem witness_WaitAndLaunch : (isa {}).ready 0 (.wait 0) = true ∧ (isa { wc := { s := { iena := 1 } } }).ready 0 (.wait 0) = true
    ∧ (waits { wc := { msgPend := 4, s := { iena := 4 } }, priv := 2 } .waiting).awake 0 = true ∧ (waits { wc := { msgPend := 4 } } .waiting).ipend 0 false = 4
    ∧ (timed launches).ready 0 (.launch 0 9 1) = true ∧ ((timed launches).isle 0).lhDrift = false ∧ (timed launches).copyNow 0 = (1#8 ++ 1000#64)
    ∧ reached ((waits {} (.launch (1#8 ++ 1000#64) 9)).copyNow 0) (1#8 ++ 1000#64) = true := by decide +kernel

theorem test_wait : gives (.wait 0) {} (fun y => y.pc == 4 && y.mode == .running) ∧ gives (.wait 0) { wc := { s := { iena := 1 } } } (fun y => y.pc == 0 && y.mode == .waiting)
    ∧ runs (.waitComplete 0) (waits { wc := { msgPend := 4, s := { iena := 4 } } } .waiting) (fun u => (u.thread 0).mode == .running && (u.thread 0).pc == 4)
    ∧ runs (.waitComplete 0) (waits { wc := { msgPend := 4 } } .waiting) (fun u => (u.thread 0).mode == .waiting) := by decide +kernel

def launchEnds (r : BitVec 6) (st : Reg) : Bool := runs (.launch 0 9 r) (timed launches) fun u => (u.thread 0).gr 9 == st && (u.thread 0).pc == 4
theorem test_launch : launchEnds 1 1 ∧ launchEnds 4 2 ∧ launchEnds 5 3 ∧ runs (.launch 0 9 2) (timed launches) (fun u => (u.thread 0).mode == .launch (1#8 ++ 1001#64) 9)
    ∧ runs (.launch 0 9 3) (timed launches) (fun u => (u.thread 0).pc == 0)
    ∧ runs (.launchFire 0) (waits { g := [(9, 7)] } (.launch (1#8 ++ 1000#64) 9)) (fun u => (u.thread 0).gr 9 == 0 && (u.thread 0).pc == 4)
    ∧ runs (.launchFire 0) (waits { g := [(9, 7)] } (.launch (1#8 ++ 1017#64) 9)) (fun u => (u.thread 0).gr 9 == 7 && (u.thread 0).pc == 0) := by decide +kernel

theorem witness_InterruptIsTaken : (isa interrupted).pickInt 0 = some (2, 1) ∧ (isa interrupted).awake 0 = true ∧ (isa interrupted).issues 0 = true
    ∧ (waits interrupted .waiting).pickInt 0 = some (2, 1) ∧ (waits interrupted .waiting).awake 0 = true ∧ (waits interrupted (.launch 0 9)).awake 0 = true
    ∧ (waits interrupted (.launch 0 9)).pickInt 0 = some (2, 1) := by decide +kernel

theorem test_interrupt : runs (.interrupt 0) (isa interrupted) (fun u => (u.thread 0).pc == 0x80 && (u.thread 0).wc.s.cause == 0xC00022 && (u.thread 0).wc.s.pc == 0x40)
    ∧ runs (.interrupt 0) (waits interrupted .waiting) (fun u => (u.thread 0).wc.s.pc == 0x44 && (u.thread 0).mode == .running)
    ∧ runs (.interrupt 0) (waits interrupted (.launch 0 9)) (fun u => (u.thread 0).gr 9 == 5 && (u.thread 0).wc.s.pc == 0x44) := by decide +kernel

theorem witness_ControlRegisterReads : (∀ n ∈ [0o0000, 0o0020, 0o0031, 0o0040, 0o0007, 0o0200, 0o1777], (isa super).ready 0 (.crr 0 3 n) = true)
    ∧ super.priv.toNat < 2 ∧ inTheVault.vault = true ∧ crFor super 0o200 ≠ none := by decide +kernel

theorem test_crr : gives (.crr 0 3 0o0001) { ctx := 7 } (fun y => y.gr 3 == 7 && y.pc == 4) ∧ gives (.crr 0 3 0o0020) super (fun y => y.wc.s.cause == 0x202)
    ∧ gives (.crr 0 3 0o0040) super (fun y => y.wc.s.cause == 0x401) ∧ gives (.crr 0 3 0o0041) inTheVault (fun y => y.gr 3 == 0x100)
    ∧ runs (.crr 48 3 0o0000) ((isa {}).setThread 48 { mode := .running, pc := 0x40 }) (fun _ => true) := by decide +kernel

/-- Legal values, a reserved bit and a level below the register's, at a hypervisor and at a supervisor. -/
theorem witness_ControlRegisterWrites : (isa regs).ready 0 (.crw 0 1 0o0016) = true ∧ (isa regs).ready 0 (.crwCtxid 0 1) = true ∧ (isa regs).ready 0 (.fstepWrite 0 1) = true
    ∧ crBad 0o0016 2 5 = false ∧ crBad 0o0001 2 0x1000 = true ∧ crBad 0o0020 1 5 = false ∧ (regs.gr 1).toNat < 2 ^ 12 ∧ regs.priv = 2 ∧ super.priv.toNat < 2
    ∧ crBad 0o0120 2 (20 * 2 ^ 24) = false ∧ (((isa regs).fetched 0).core 0).fPending = false ∧ (20#6).toNat < (((isa regs).fetched 0).core 0).fCur.toNat := by decide +kernel

theorem test_crw : gives (.crw 0 1 0o0016) regs (fun y => y.wc.s.scr == 5 && y.pc == 4) ∧ gives (.crwCtxid 0 1) regs (fun y => y.ctx == 5)
    ∧ gives (.crw 0 1 0o0004) regs (fun y => y.wc.h.cause == 0x501) ∧ gives (.crwCtxid 0 1) { regs with priv := 1 } (fun y => y.wc.s.cause == 0x202)
    ∧ gives (.crw 0 1 0o0000) regs (fun y => y.wc.h.cause == 0x501)
    ∧ runs (.fstepWrite 0 1) (isa { g := [(1, 20 * 2 ^ 24)] }) (fun u => (u.core 0).fReq == 20 && (u.core 0).fPending && (u.thread 0).pc == 4) := by decide +kernel

/-- Core 0 holds two translations of context 5, one of them global; core 1 one of context 5. -/
def entry (pte : Reg) (vpn : Nat) : TlbEntry := { vault := false, hTable := true, ctx := 5, level := 0, vpn, pte }
def tlbs (x : Thread) : State :=
  ((isa x).setCore 0 { st := .run, dtlb := [entry 0 7, entry 0x200 8] }).setCore 1 { st := .run, itlb := [entry 0 7] }
/-- By context, for hypervisor tables; the same with BCAST. -/
def byCtx (bcast : Bool) : Thread := { g := [(1, 1#72 <<< 69 ||| 1#72 <<< 67 ||| (if bcast then 1#72 <<< 68 else 0) ||| 5)] }

theorem witness_InvalidationsAndReseeds : (∀ i ∈ [Instr.tlbinvPage 0 1, .tlbinvContext 0 1, .tlbinvTable 0 1, .tlbinvPageAll 0 1, .crw 0 1 0o0102, .ctxreseed 0 1],
      (tlbs (byCtx false)).ready 0 i = true) ∧ crBad 0o0102 2 ((byCtx false).gr 1) = false ∧ crBad 0o0102 2 ((byCtx true).gr 1) = false ∧ ((byCtx true).gr 1).getLsbD 68 = true
    ∧ crBad 0o0110 2 5 = false := by decide +kernel

theorem test_tlbinv : runs (.tlbinvContext 0 1) (tlbs (byCtx false)) (fun u => (u.core 0).dtlb.length == 1 && (u.core 1).itlb.length == 1 && (u.thread 0).pc == 4)
    ∧ runs (.tlbinvContext 0 1) (tlbs (byCtx true)) (fun u => (u.thread 0).mode == .bcast && u.keys.bcasts.length == 1)
    ∧ runs (.tlbinvBroadcastApplied 0) { (tlbs {}).setThread 0 { mode := .bcast } with keys := { bcasts := [(0, false, (byCtx true).gr 1)] } }
        (fun u => (u.core 1).itlb.length == 0 && (u.thread 0).pc == 4 && u.keys.bcasts == []) := by decide +kernel

theorem test_reseed : runs (.ctxreseed 0 1) (isa regs) (fun u => (u.thread 0).mode == .reseed && u.keys.waiting == [(0, 5)] && (u.core 0).reseedCtx == 5)
    ∧ runs (.reseedStart 0) { isa {} with keys := { waiting := [(0, 5), (1, 6)], ptr := 1 } } (fun u => u.keys.serving == some (0, 5) && u.keys.waiting == [(1, 6)] && u.keys.ptr == 1)
    ∧ runs (.reseedStart 1) { isa {} with keys := { waiting := [(0, 5), (1, 6)], ptr := 1 } } (fun u => u.keys.serving == some (1, 6) && u.keys.waiting == [(0, 5)] && u.keys.ptr == 2)
    ∧ runs (.reseedDone true 99) { (isa {}).setThread 0 { mode := .reseed } with keys := { serving := some (0, 5) } }
        (fun u => sget 0 u.keys.ctxKeys 5 == 99 && (u.thread 0).pc == 4 && (u.core 0).reseedStatus == 0)
    ∧ runs (.reseedDone false 99) { (isa {}).setThread 0 { mode := .reseed } with keys := { serving := some (0, 5) } } (fun u => u.keys.ctxKeys == [] && (u.core 0).reseedStatus == 1) := by
  decide +kernel

theorem witness_PrefetchIsAHint : (isa regs).ready 0 (.pref 0 .l1 1 1) = true ∧ gives (.pref 0 .l1 1 1) regs (fun y => y.pc == 4 && y.g == regs.g)
    ∧ gives (.pref 0 .stream 5 0x7FFF) regs (fun y => y.pc == 4) := by decide +kernel

/-! ### The Bearing ledger, steps and Slack -/

/-- 3,279 of 3,280 CORE units claimed, and all of HUB but one. -/
def nearly : State := { base with ledger := { claimed := [(3, { core := 3279, hub := 1199 })] } }

theorem witness_BearingLedger : (nearly.ledger.claimed.map fun p => p.2.core).sum + 1 ≤ nearly.ledger.limCore.toNat
    ∧ ¬ ((nearly.ledger.claimed.map fun p => p.2.core).sum + 2 ≤ nearly.ledger.limCore.toNat) ∧ rampStart nearly.ledger.ramps (rampLen 1) ≤ 16000
    ∧ (nearly.ledger.claimed.map fun p => p.2.hub).sum + 1 ≤ nearly.ledger.limHub.toNat
    ∧ rampStart [(0, 16001)] (rampLen 1) > 16000 := by decide +kernel

theorem test_bearing : runs (.bearingClaim ⟨5, 0, 1, 1⟩ []) nearly (fun u => sget {} u.ledger.claimed 5 == { core := 1, hub := 1 } && u.ledger.ramps.length == 1 && u.ledger.refused == 0 && u.ledger.ptr == 6)
    ∧ goes (.bearingClaim ⟨5, 0, 2, 0⟩ []) nearly { nearly with ledger := { nearly.ledger with refused := 1, ptr := 6 } } ∧ goes (.bearingClaim ⟨5, 0, 0, 0⟩ []) nearly nearly
    ∧ goes (.bearingClaim ⟨49, 0, 0, 2⟩ []) nearly { nearly with ledger := { nearly.ledger with refused := 1, ptr := 0 } }
    ∧ runs (.bearingClaim ⟨5, 0, 1, 0⟩ [⟨2, 24, 1, 0⟩, ⟨2, 3, 1, 0⟩]) nearly (fun u => sget {} u.ledger.claimed 2 == { core := 1 } && sget {} u.ledger.claimed 5 == {} && u.ledger.refused == 2 && u.ledger.ptr == 3)
    ∧ runs (.bearingRelease 3 9 0) nearly (fun u => sget {} u.ledger.claimed 3 == { core := 3270, hub := 1199 }) := by decide +kernel

/-- Core 0 as x; Isle 0 as y. -/
def coreAs (x : Core) : State := base.setCore 0 x
def isleAs (f : Isle → Isle) : State := base.setIsle 0 (f (base.isle 0))
/-- Every core of Isle 0 in Slack. -/
def allSlack : State := (List.range 24).foldl (fun s c => s.setCore c { st := .slack }) base
def raising : Core := { st := .run, fCur := 20, fReq := 22, fPending := true }
def lowering : Core := { st := .slack, fCur := 30, fReq := 28, fPending := true }

theorem witness_StepsSlackAndCaps : base.coreFit 0 = true ∧ (base.core 0).autoslack = true ∧ base.coreIdle 0 = true ∧ (base.isle 0).st = .run
    ∧ (∀ j, j < 24 → (allSlack.core (0 * 24 + j)).st ≠ .run)
    ∧ ((isleAs fun x => { x with st := .slack }).isle 0).st = .slack ∧ (20 : Nat) + 1 < raising.fReq.toNat
    ∧ 20 + 1 < min raising.fused.toNat (min ((coreAs raising).isle 0).thermal.toNat (coreAs raising).ledger.cap.toNat) ∧ ((coreAs raising).claim 0 0 0).2 = true
    ∧ lowering.fReq.toNat + 1 < lowering.fCur.toNat ∧ (coreAs raising).stepMay 0 = true ∧ (coreAs lowering).stepMay 0 = true ∧ (3116 : Nat) ≤ 3280 ∧ 3280 * 95 ≤ 100 * 3116 ∧ base.ledger.lowering = false
    ∧ 1552 < (1600 : BitVec 16).toInt ∧ (1601 : BitVec 16).toInt > 1600 ∧ (base.isle 0).thLower = false
    ∧ ({ base.setStrait 0 { bearwait := true } with home := {} } : State).mayTrain 0 = true ∧ ((base.setStrait 0 { bearwait := true }).claim 0 16 40).2 = true ∧ (nearly.claim 0 16 40).2 = false ∧ claimOk base.ledger 0 24 = true := by decide +kernel

theorem test_slack : runs (.coreAutoslackEnter 0) base (fun u => (u.core 0).st == .slack)
    ∧ runs (.isleSlackEnter 0) allSlack (fun u => (u.isle 0).st == .slack)
    ∧ runs (.isleSlackExit 0) (isleAs fun x => { x with st := .slack }) (fun u => (u.isle 0).st == .run) ∧ goes (.isleSlackEnter 0) base base := by decide +kernel

/-- A step changes by one with its bearing: 4 units up to step 24, then one a step. -/
theorem test_steps : runs (.stepRaise 0) (coreAs raising) (fun u => (u.core 0).fCur == 21 && u.ledger.refused == 0)
    ∧ runs (.stepLower 0) { coreAs lowering with ledger := { claimed := [(0, { core := 10, hub := 0 })] } } (fun u => (u.core 0).fCur == 29 && (sget {} u.ledger.claimed 0).core == 9)
    ∧ runs (.stepRaise 0) (coreAs { raising with fCur := 24, fReq := 26 }) (fun u => (sget {} u.ledger.claimed 0).core == 1) := by decide +kernel

theorem test_caps : runs (.currentCapCheck 3281 7) base (fun u => u.ledger.overUs == 1 && u.ledger.cap == 36)
    ∧ runs (.currentCapCheck 3281 7) { base with ledger := { overUs := 9 }, cores := [], isles := base.isles.map fun p => (p.1, { p.2 with thermal := 12 }) } (fun u => u.ledger.overUs == 0 && u.ledger.cap == 35)
    ∧ goes (.currentCapCheck 3116 7) base { base with ledger := { measCore := 3116, measHub := 7 } }
    ∧ runs (.thermalCap 0 [1601, 1601, 1601, 1601, 1601, 1601]) base (fun u => (u.isle 0).thermal == 35 && sget 0 (u.isle 0).temps 5 == 1601)
    ∧ runs (.thermalCap 0 [1600, 1600, 1600, 1600, 1600, 1600]) base (fun u => (u.isle 0).thermal == 36) := by decide +kernel

theorem test_bearing_retry : runs (.bearingRetry (.strait 0)) { base.setStrait 0 { bearwait := true } with home := {} } (fun u => (u.strait 0).st == .training && !(u.strait 0).bearwait)
    ∧ runs (.bearingRetry (.strait 0)) { nearly.setStrait 0 { bearwait := true } with home := {} } (fun u => (u.strait 0).bearwait && u.ledger.refused == 1)
    ∧ runs (.bearingRetry (.block 0)) (base.setBlock 0 { bearwait := true, wants := 40, hold := 8 }) (fun u => !(u.block 0).bearwait && (u.block 0).hold == 40 && u.ledger.claimed == [(36, { hub := 32 })])
    ∧ runs (.bearingRetry (.block 0)) (nearly.setBlock 0 { bearwait := true, st := .dry }) (fun u => (u.block 0).bearwait && (u.block 0).wants == 24 && (u.block 0).st == .dry && u.ledger.refused == 1) := by decide +kernel

/-! ### Caches and the Cistern -/

/-- Isle 0 with these CIS_ fields. -/
def cisAs (f : Cis → Cis) : State := isleAs fun x => { x with cis := f x.cis }
/-- Thread 0, in the Court world. -/
def who : Who := .thread 0

theorem witness_CachesOfAnIsle : (base.isleFit 0 = true ∧ base.isleGate who 0 = (base, some .ok)) ∧ (0x1FFFFFE : W36).toNat < 2 ^ 25 ∧ (0x1FFFFFE : W36).getLsbD 24 = true
    ∧ ((base.isle 0).cis.enabled 0 = true) ∧ ((cisAs fun c => { c with l2en := 0 }).isle 0).cis.enabled 0 = false ∧ 2 ^ 25 ≤ (0x2000000 : W36).toNat
    ∧ (1 : W36).getLsbD 24 = false ∧ ((base.isle 0).cis.disabling.getLsbD 24 = false) ∧ paClass (7 * 64) = .dram
    ∧ icHas [(icBase 7, { tag := 7, valid := 1 })] 7 = true ∧ (base.isle 0).dataErr.filter (fun e => decide (e.1 / 64 = 7)) = [] := by decide +kernel

theorem test_cachectl : runs (.cisCachectlWrite who 0 0x1FFFFFE) base (fun u => !(u.isle 0).cis.enabled 0 && (u.isle 0).cis.disabling == 1 && (u.isle 0).cis.stale == 0)
    ∧ runs (.cisCachectlWrite who 0 0x1FFFFFF) (cisAs fun c => { c with l2en := 0xFFFFFE }) (fun u => (u.isle 0).cis.stale == 1 && (u.isle 0).cis.enabled 0)
    ∧ goes (.cisCachectlWrite who 0 0x2000000) base base ∧ goes (.cisCachectlWrite who 0 1) base base
    ∧ runs (.cacheDisableComplete 0 24) { cisAs fun c => { c with disabling := 0x1000000 } with home := { mask := 0xFFF, entries := [(7, { st := .s, sharers := 3 })] } }
        (fun u => (u.isle 0).cis.disabling == 0 && u.home.drop == 1 && (u.entry 7).sharers == 2) ∧ goes (.cacheDisableComplete 0 3) base base
    ∧ runs (.dropWalkDone 0) { base with home := { drop := 3 } } (fun u => u.home.drop == 2) := by decide +kernel

/-- Line 7 in the Isle cache with an error of one bit in its nonet 5; and its window open with a snoop deferred. -/
def erring : State := isleAs fun x => { x with ic := [(icBase 7, { tag := 7, valid := 1 })], dataErr := [(7 * 64 + 5, 1)] }
theorem test_patrol : runs (.sramPatrol 0 7) erring (fun u => (u.isle 0).dataErr == [] && u.evr.travel.length == 1)
    ∧ goes (.holdWindowEnd 0 7) base base
    ∧ runs (.holdWindowEnd 0 7) (isleAs fun x => x.setLine 7 { st := .e, window := true, deferred := [{ msg .inv 3 0 with tag := 5 }] })
        (fun u => ((u.isle 0).line 7).st == .i && u.net.length == 1) := by decide +kernel

/-- Window offset 0x300000 × 2 of Isle 0, three partitions mapped, partition 2 Vault's. -/
def cisW (w : Bool) : State := { cisAs fun c => { c with cur := 3, req := 3, partworld := 4, mem := [(0x600001, 9), (0x600041, 8)] } with net := [{ msg .rdn 3 0 with line := BitVec.ofNat 46 (0xE000000600000 / 64), world := w }] }
def cisM (ty : MsgTy) (w : Bool) (off : Nat) : Msg := { msg ty 3 0 with line := BitVec.ofNat 46 ((0xE000000000000 + off) / 64), world := w, mask := 6, data := setUnit 2 0 1 0x155 }

theorem witness_CisternPartitions : (base.isleFit 0 = true ∧ base.isleGate who 0 = (base, some .ok)) ∧ (3 * 256 : W36).toNat % 8 = 0 ∧ fld (8 * 256 : W36) 11 8 = 8
    ∧ fld (9 * 256 : W36) 11 8 = 9 ∧ (cisW true).partLocked 0 2 = false ∧ paClass (0xE000000600000 / 64 * 64) = .cistern 0 0x600000 ∧ (cisW true).isleAnswer 0 false = .ok ∧ (isleAs fun x => { x with cond := .severed }).isleAnswer 0 false = .poison
    ∧ (base.isle 0).cis.conv = false ∧ (cisW true).whoVault .umfoent = true
    ∧ 0x600000 + 64 ≤ 0x300000 * 3 ∧ 0x300000 * 3 < 0x900000 + 64 := by decide +kernel

theorem test_wayctl : runs (.cisWayctlWrite who 0 (8 * 256)) base (fun u => (u.isle 0).cis.req == 8 && (u.isle 0).cis.cur == 0)
    ∧ runs (.cisWayctlWrite .umfoent 0 (2 * 256)) (cisW true) (fun u => (u.isle 0).cis.req == 2 && (u.isle 0).cis.cur == 2 && (u.isle 0).cis.partworld == 0 && (u.isle 0).cis.mem == [])
    ∧ goes (.cisWayctlWrite who 0 (9 * 256)) base base ∧ goes (.cisWayctlWrite who 0 (4096 + 256)) base base
    ∧ runs (.wayConverted 0) (isleAs fun x => { x with ic := [(15, { tag := 0, valid := 1 })], cis := { req := 1, conv := true } })
        (fun u => (u.isle 0).cis.cur == 1 && !(u.isle 0).cis.conv && sget {} (u.isle 0).ic 15 == {}) ∧ goes (.wayConverted 0) base base := by decide +kernel

theorem test_cistern_access : let r := cisM .rdn true 0x600000
    runs (.cisternAccess r) { cisW true with net := [r] } (fun u => u.net == [cmpMsg r .ok (some (setUnit 1 0 1 9))])
      ∧ (let w := cisM .wrn true 0x600000
         runs (.cisternAccess w) { cisW true with net := [w] } (fun u => sget 0 (u.isle 0).cis.mem 0x600001 == 0x55 && sget 0 (u.isle 0).cis.mem 0x600041 == 8 && u.net == [cmpMsg w .ok none]))
      ∧ (let a := cisM .rdn true 0x900000
         runs (.cisternAccess a) { cisW true with net := [a] } (fun u => u.net == [cmpMsg a .absent none]))
      ∧ (let a := cisM .rdn false 0x600000
         runs (.cisternAccess a) { cisW true with net := [a] } (fun u => u.net == [cmpMsg a .world none])) := by decide +kernel

/-! ### The Trowel -/

/-- Isle 0 with slot 0 as y, first in the queue. -/
def trowel (y : TrwSlot) : State := isleAs fun x => { x with slots := [(0, y)], queue := [0] }
def goWord (op target : Nat) : W36 := BitVec.ofNat 36 (op * 32 + target)

theorem witness_TrowelSlots : (base.isleFit 0 = true ∧ base.isleGate who 0 = (base, some .ok)) ∧ ((base.isle 0).slot 0).st = .free ∧ (goWord 4 24).toNat < 2 ^ 10
    ∧ fld (goWord 4 24) 7 5 = 4 ∧ fld (goWord 4 24) 4 0 = 24 ∧ (base.isle 0).cis.enabled 24 = true ∧ ((trowel { st := .queued }).isle 0).queue.head? = some 0
    ∧ (let full := isleAs fun x => { x with slots := (List.range 8).map fun k => (k, { st := .claimed }) }
       (∀ j, j < 8 → ((full.isle 0).slot j).st ≠ .free) ∧ goes (.trwClaim who [] 0) full (full.setIsle 0 { full.isle 0 with trwPtr := 1 }) ∧ (full.csRead who (isleReg 0 1 4)).2 = some (.ok, 8)) := by decide +kernel

theorem test_trowel_slots : runs (.trwClaim who [.thread 575] 0) base (fun u => ((u.isle 0).slot 0).st == .claimed && ((u.isle 0).slot 1).st == .claimed && (u.isle 0).trwPtr == 0)
    ∧ runs (.go who 0 0 (goWord 1 0)) (trowel { st := .claimed }) (fun u => ((u.isle 0).slot 0).st == .queued && (u.isle 0).queue == [0, 0])
    ∧ runs (.go who 0 0 (goWord 4 24)) (trowel { st := .claimed }) (fun u => ((u.isle 0).slot 0).st == .faultTarget)
    ∧ runs (.cancel who 0 0 (goWord 0 0)) (trowel { st := .queued }) (fun u => ((u.isle 0).slot 0).st == .cancelled && (u.isle 0).queue == [])
    ∧ runs (.cancel who 0 0 (goWord 0 0)) (trowel { st := .running }) (fun u => ((u.isle 0).slot 0).ending == some .cancelled)
    ∧ runs (.release who 0 0 (goWord 0 0)) (trowel { st := .doneOk }) (fun u => (u.isle 0).slot 0 == {})
    ∧ runs (.clean 0) (trowel { st := .queued }) (fun u => ((u.isle 0).slot 0).st == .running)
    ∧ runs (.inval 0) (trowel { st := .queued, op := 1 }) (fun u => ((u.isle 0).slot 0).st == .running)
    ∧ runs (.cleanInval 0) (trowel { st := .queued, op := 2 }) (fun u => ((u.isle 0).slot 0).st == .running)
    ∧ runs (.zero 0) (trowel { st := .queued, op := 3 }) (fun u => ((u.isle 0).slot 0).st == .running)
    ∧ runs (.arrayInval 0) (trowel { st := .queued, op := 4 }) (fun u => ((u.isle 0).slot 0).st == .running) := by decide +kernel

/-- Lines 7 and 8, at work; the second has been issued and its completion is here. -/
def lines78 : TrwSlot := { st := .running, lo := 7, len := 1, next := 1 }
def doneMsg (n : LineNo) : Msg := { ty := .cmp, src := 15, dst := 0, tag := 65, line := n }
def finishing : State := { trowel { lines78 with next := 2, done := 1, flight := [8] } with replies := [doneMsg 8] }

theorem witness_TrowelLines : ((trowel lines78).isle 0).queue.head? = some 0 ∧ (trowel lines78).coherent 8 = true ∧ paClass (8 * 64) = .dram
    ∧ inVault (trowel lines78).worlds.regions (8 * 64) = false ∧ lines78.next ≤ lines78.len.toNat ∧ finishing.trwReply 0 = some (doneMsg 8)
    ∧ paClass (0x380000000000 * 64) = .cistern 0 0 ∧ (trowel lines78).cxlWin 8 = none ∧ (((trowel lines78).isle 0).line 8).st = .i
    ∧ (trowel { lines78 with ending := some .cancelled }).setLeft 0 { lines78 with ending := some .cancelled } = false
    ∧ ((trowel { lines78 with op := 4, target := 24 }).isle 0).ic.all (fun e => e.2.valid == 0) = true := by decide +kernel

theorem test_trowel_lines : runs (.trowelLineIssue 0) (trowel lines78) (fun u => ((u.isle 0).slot 0).next == 2 && ((u.isle 0).slot 0).flight == [8] && u.net.length == 1)
    ∧ runs (.trowelLineIssue 0) (trowel { lines78 with lo := 0, hi := 0xE000, next := 0 }) (fun u => ((u.isle 0).slot 0).cis == 1 && ((u.isle 0).slot 0).done == 1 && u.net == [])
    ∧ runs (.trowelLineDone 0) finishing (fun u => ((u.isle 0).slot 0).st == .doneOk && ((u.isle 0).slot 0).done == 2 && (u.isle 0).queue == [] && u.replies == [])
    ∧ runs (.cancelledDone 0) (trowel { lines78 with ending := some .cancelled }) (fun u => ((u.isle 0).slot 0).st == .cancelled && (u.isle 0).queue == [])
    ∧ runs (.arrayInvalDone 0) (trowel { lines78 with op := 4, target := 24 }) (fun u => ((u.isle 0).slot 0).st == .doneOk && (u.isle 0).cis.cleared == 0x1000000) := by decide +kernel

/-! ### Homes and agents. Isle 3 asks for line 7. -/

def m3 (ty : MsgTy) : Msg := { msg ty 3 15 with tag := 5, mask := 0xF }
/-- Isle 2 owns line 7. -/
def owned : State := { base with home := { mask := 0xFFF, entries := [(7, { st := .x, owner := 2, age := 2, way := 4 })] } }
def sent (s : State) (m : Msg) : State := { s with net := [m] }

theorem witness_HomeAsksTheOwner : (owned.agentFit 3 = true ∧ owned.home.mask.getLsbD 3 = true ∧ owned.coherent 7 = true ∧ inVault owned.worlds.regions (7 * 64) = false
      ∧ owned.cxlWin 7 = none ∧ owned.tableUse (owned.homeSlice 7) < 512 ∧ (owned.slice (owned.homeSlice 7)).tokens = [] ∧ (owned.slice (owned.homeSlice 7)).resv = []
      ∧ owned.txn 7 = none) ∧ (owned.entry 7).st = .x ∧ (owned.entry 7).sharers = 0 ∧ (owned.entry 7).owner ≠ 3
    ∧ owned.coherent 0x3FFFFFFFFFFF = false ∧ inVault [(0, { en := true, vault := true, size := 16 })] (7 * 64) = true := by decide +kernel

/-- Where a request is opened at once, a message comes, a line's directory entry is in order, and an Isle has no SRAM error. -/
theorem witness_comes : (sent base (m3 .rds)).comes (m3 .rds) ∧ (sent owned (m3 .rds)).homeOpen (m3 .rds) ∧ owned.homeCalm 7 ∧ base.isleClean 2 := by
  have h : ∀ q, q < 72 → q / 24 = 2 → (base.core q).errI = [] ∧ (base.core q).errD = [] ∧ (base.core q).err2 = []
      ∧ (base.core q).tagI = [] ∧ (base.core q).tagD = [] ∧ (base.core q).tag2 = [] := by decide +kernel
  refine ⟨?_, ?_, ?_, by decide +kernel, by decide +kernel, by decide +kernel, fun q hq => h q (by omega) hq⟩
  · unfold State.comes; decide +kernel
  · unfold State.homeOpen State.comes State.homeCalm; decide +kernel
  · unfold State.homeCalm; decide +kernel

/-- The snoop of each request, and the transaction that waits for Isle 2. -/
def asked (c : Instr) (m : Msg) (ty : MsgTy) : Bool :=
  runs c (sent owned m) fun u => (u.net.map fun x => (x.ty, x.dst)) == [(ty, 2)] && ((u.txn 7).map fun x => x.waits) == some 4

theorem test_home_asks : asked (.rds (m3 .rds)) (m3 .rds) .fws ∧ asked (.rdu (m3 .rdu)) (m3 .rdu) .fwu ∧ asked (.upg (m3 .upg)) (m3 .upg) .fwu ∧ asked (.rdn (m3 .rdn)) (m3 .rdn) .sng
    ∧ asked (.wrn (m3 .wrn)) (m3 .wrn) .sni ∧ asked (.atm (m3 .atm)) (m3 .atm) .sni ∧ asked (.wrl (m3 .wrl)) (m3 .wrl) .inv ∧ asked (.trw (m3 .trw)) (m3 .trw) .snc
    ∧ asked (.trw { m3 .trw with op := 2 }) { m3 .trw with op := 2 } .sni ∧ asked (.trw { m3 .trw with op := 3 }) { m3 .trw with op := 3 } .inv := by decide +kernel

theorem test_home_refuses : let m := { m3 .rdn with line := 0x3FFFFFFFFFFF }
    runs (.rdn m) (sent base m) (fun u => u.net == [{ cmpMsg m .absent none with ty := .cmp }])
      ∧ (let v : State := { sent base (m3 .rds) with worlds := { regions := [(0, { en := true, vault := true, size := 16 })] } }
         runs (.rds (m3 .rds)) v (fun u => u.net.map (fun x => (x.ty, x.resp)) == [(.gnt, Resp.world.num)]))
      ∧ runs (.rds (m3 .rds)) { sent base (m3 .rds) with home := {} } (fun u => u.net.map (fun x => (x.ty, x.resp)) == [(.gnt, Resp.absent.num)]) := by decide +kernel

def whole (ty : MsgTy) : Msg := { m3 ty with mask := BitVec.allOnes 64, hasData := true, data := 12345 }
/-- Isle 3 is the one sharer of line 7, or its owner. -/
def mine (st : HState) : State := { base with home := { mask := 0xFFF, entries := [(7, { st, owner := 3, sharers := if st = .s then 8 else 0 })] } }

theorem witness_HomeServesFreeLines : base.entry 7 = {} ∧ base.place 7 = some (0, 7) ∧ (base.chan 0).st = .run ∧ base.findWay 7 = .free 0 ∧ (base.chan 0).writeQ.length < 64
    ∧ base.txn 7 = none ∧ base.tableUse (base.homeSlice 7) < 512 ∧ ((mine .s).entry 7).sharers = 1#14 <<< (3 : Nat) ∧ ((mine .x).entry 7).owner = 3
    ∧ (m3 .wrn).mask ≠ BitVec.allOnes 64 ∧ base.cxlWin 7 = none
    ∧ ({ owned with home := { owned.home with queues := [(7, [m3 .rdn])] } } : State).queueOf 7 = [m3 .rdn] := by decide +kernel

theorem test_home_serves : (∀ p ∈ [(Instr.rds (m3 .rds), m3 .rds), (.rdu (m3 .rdu), m3 .rdu), (.upg (m3 .upg), m3 .upg), (.rdn (m3 .rdn), m3 .rdn), (.atm (m3 .atm), m3 .atm), (.wrn (m3 .wrn), m3 .wrn)],
      runs p.1 (sent base p.2) (fun u => (u.chan 0).readQ == [{ line := 7 }] && (u.txn 7).any (fun x => x.memWait) && u.net == []) = true)
    ∧ (∀ p ∈ [(Instr.wrl (whole .wrl), whole .wrl), (.wrn (whole .wrn), whole .wrn)],
      runs p.1 (sent base p.2) (fun u => (u.chan 0).writeQ == [{ line := 7, val := { bits := 12345 }, vault := false }] && u.net == [cmpMsg p.2 .ok none]) = true)
    ∧ runs (.trw (m3 .trw)) (sent base (m3 .trw)) (fun u => u.net == [cmpMsg (m3 .trw) .ok none])
    ∧ runs (.upg (m3 .upg)) (sent (mine .s) (m3 .upg)) (fun u => (u.entry 7).st == .x && (u.entry 7).owner == 3 && u.net == [grantMsg (m3 .upg) .m none])
    ∧ runs (.wbd (whole .wbd)) (sent (mine .x) (whole .wbd)) (fun u => u.entry 7 == {} && (u.chan 0).writeQ.length == 1)
    ∧ runs (.evc (m3 .evc)) (sent (mine .x) (m3 .evc)) (fun u => u.entry 7 == {} && (u.chan 0).writeQ == [])
    ∧ runs (.queuedRequestOpen 7) { owned with home := { owned.home with queues := [(7, [m3 .rdn])] } } (fun u => u.net.map (fun x => (x.ty, x.dst)) == [(.sng, 2)])
    ∧ goes (.queuedRequestOpen 7) base base := by decide +kernel

/-- Isle 2 holds line 7 in state st; a snoop for Isle 3's request arrives. -/
def snoop : Msg := { ty := .inv, src := 3, dst := 2, tag := 5, line := 7 }
def agent (st : AState) (w : Bool) : State := { base.setIsle 2 ((base.isle 2).setLine 7 { st, val := { bits := 99 }, window := w }) with net := [snoop] }
def answers (c : Msg → Instr) (ty : MsgTy) (st : AState) (out : List (MsgTy × BitVec 4 × Moesi)) (to' : AState) : Bool :=
  runs (c snoop) { agent st false with net := [{ snoop with ty }] } fun u => (u.net.map fun x => (x.ty, x.dst, x.st)) == out && ((u.isle 2).line 7).st == to'

theorem witness_SnoopsAtAnIsle : base.isleFit 2 = true ∧ ((agent .m false).isle 2).dataErr = [] ∧ ((agent .m false).isle 2).tagErr = [] ∧ (((agent .m false).isle 2).line 7).st = .m
    ∧ (((agent .e true).isle 2).line 7).window = true := by decide +kernel

theorem test_snoops : answers (.fws ·) .fws .m [(.dat, 3, .s), (.ack, 15, .o)] .o ∧ answers (.fwu ·) .fwu .o [(.dat, 3, .m), (.ack, 15, .i)] .i ∧ answers (.sng ·) .sng .e [(.ackd, 15, .e)] .e
    ∧ answers (.snc ·) .snc .m [(.ackd, 15, .e)] .e ∧ answers (.snc ·) .snc .e [(.ack, 15, .e)] .e ∧ answers (.sni ·) .sni .o [(.ackd, 15, .i)] .i ∧ answers (.inv ·) .inv .s [(.ack, 15, .i)] .i
    ∧ answers (.fws ·) .fws .miA [(.gone, 15, .i)] .miA ∧ answers (.fws ·) .fws .isD [] .isD
    ∧ runs (.inv snoop) (agent .e true) (fun u => u.net == [] && ((u.isle 2).line 7).deferred == [snoop]) := by decide +kernel

def grant : Msg := { snoop with ty := .gnt, hasData := true, data := 55, st := .e }
def busyMsg : Msg := { snoop with ty := .busy, src := 15, dst := 3, token := 77 }
/-- Line 7's home waits for Isle 3's answer to Isle 5's request. -/
def waiting (ty : MsgTy) (st : HState) : State :=
  { sent base { m3 .ack with st := .m, hasData := true, data := 44 } with
    home := { mask := 0xFFF, entries := [(7, { st, owner := 3, sharers := if st = .s then 0x28 else 0 })]
              txns := [(7, { req := { msg ty 5 15 with tag := 9 }, waits := 8, owner := if st = .s then none else some 3 })] } }
def answer3 (ty : MsgTy) : Msg := { m3 ty with st := .m, hasData := true, data := 44 }
def token (num : BitVec 6) (agent : BitVec 4) : Token := { num, agent, tag := 1, res := .table }
def reserved : State := base.setSlice 6 { tokens := [token 3 4, token 5 15], resv := [(.table, 3)], ptr := 9 }

theorem witness_GrantsAnswersAndTokens : base.isleFit 2 = true ∧ (base.isle 2).cis.icen = true ∧ base.home.drop.getLsbD 2 = false ∧ (((agent .isD false).isle 2).line 7).st = .isD
    ∧ ({ base with home := { mask := 0xFFF, purging := true, purgeIsle := 3 } } : State).closesOwn 3 = false ∧ { snoop with ty := .cmp } ∉ base.replies
    ∧ base.agentFit 15 = true ∧ base.agentFit 3 = true ∧ (base.txn 7 = none) ∧ ((waiting .upg .s).slice ((waiting .upg .s).homeSlice 7)).tokens = []
    ∧ base.chanFit 6 = true ∧ (reserved.slice 6).resv = [(.table, 3)] ∧ (3 : BitVec 6) ≠ 5 ∧ (token 3 4).num = 3
    ∧ [busyMsg].find? (fun r => r.ty == .busy && r.dst == 3 && r.tag == 5 && r.line == 7) = some busyMsg := by decide +kernel

theorem test_grants : runs (.pfh { snoop with ty := .pfh }) { base with net := [{ snoop with ty := .pfh }] } (fun u => ((u.isle 2).line 7).st == .isD && u.net.map (fun x => (x.ty, x.src)) == [(.rds, 2)])
    ∧ runs (.gnt grant) { agent .isD false with net := [grant] } (fun u => ((u.isle 2).line 7).st == .e && ((u.isle 2).line 7).val.bits == 55 && ((u.isle 2).line 7).window)
    ∧ runs (.dat { grant with ty := .dat }) { agent .imD false with net := [{ grant with ty := .dat }] } (fun u => ((u.isle 2).line 7).gotData == some { bits := 55 })
    ∧ runs (.cmp { snoop with ty := .cmp, tag := 256 }) { agent .miA false with net := [{ snoop with ty := .cmp, tag := 256 }] } (fun u => ((u.isle 2).line 7).st == .i && u.replies == [])
    ∧ runs (.cmp { snoop with ty := .cmp, dst := 15 }) base (fun u => u.replies.length == 1) ∧ runs (.busyReceived busyMsg) base (fun u => u.replies == [busyMsg])
    ∧ runs (.tokenResend (m3 .rds)) { base with replies := [busyMsg] } (fun u => u.replies == [] && u.net == [{ m3 .rds with token := 77 }]) := by decide +kernel

theorem test_answers : runs (.ack (answer3 .ack)) { waiting .upg .s with net := [answer3 .ack] } (fun u => (u.entry 7).st == .x && (u.entry 7).owner == 5 && u.txn 7 == none)
    ∧ runs (.ackd (answer3 .ackd)) { waiting .rdn .x with net := [answer3 .ackd] } (fun u => u.net.map (fun x => (x.ty, x.dst, x.data)) == [(.cmp, 5, 44)] && u.txn 7 == none)
    ∧ runs (.gone (answer3 .gone)) { waiting .rdn .x with net := [answer3 .gone] } (fun u => (u.txn 7).any fun x => x.gone) ∧ runs (.ack (m3 .ack)) (sent base (m3 .ack)) (fun u => u.net == [])
    ∧ runs (.reservationExpire 6 .table) reserved (fun u => (u.slice 6).resv == [(.table, 5)] && (u.slice 6).ptr == 0)
    ∧ runs (.purgeEnd 88) { base with home := { mask := 0xFFF, purging := true, purgeIsle := 3 } } (fun u => !u.home.purging && u.evr.travel.length == 1) := by decide +kernel

/-! ### Straits, watchdogs and guest sites -/

/-- A direction at full width: 96 lanes of data and 8 spares. -/
def full : Dir :=
  { width := 0, lanes := (List.range 104).map fun i => (i, if i < 96 then { role := .data, logical := BitVec.ofNat 7 i } else { role := .spare }) }
def strait (f : Strait → Strait) : State := base.setStrait 0 (f { st := .up, toI := full, toK := full, result := 1 })
/-- Toward the Isle. -/
def dirI (f : Dir → Dir) : State := strait fun x => { x with toI := f x.toI }
/-- The direction toward the Isle stalls with logical lane 3 lost. -/
def stalled (f : Dir → Dir) : State := (dirI fun d => f { d.setLane 3 { role := .failed } with lost := [3], fail := 1 }).modStrait 0 fun x => { x with st := .stalled }
/-- Without spares. -/
def noSpare (d : Dir) : Dir := (List.range 8).foldl (fun d k => d.setLane (96 + k) { role := .failed }) d

theorem witness_StraitLanes : base.isleFit 0 = true ∧ ((strait id).dirOf 0 false).pri = false ∧ ((dirI fun d => { d with pri := true }).dirOf 0 false).pri = true
    ∧ ((strait id).strait 0).recal = none ∧ (((strait id).dirOf 0 false).lane 95).role = .data ∧ (((stalled id).dirOf 0 false).having .spare) = [96, 97, 98, 99, 100, 101, 102, 103]
    ∧ ((stalled id).dirOf 0 true).lost = [] ∧ (((stalled noSpare).dirOf 0 false).having .spare) = [] ∧ 48 ≤ ((stalled noSpare).dirOf 0 false).powered.length
    ∧ ((dirI fun d => { d.setLane 3 {} with restore := 1 }).dirOf 0 false).having .dormant = [3] ∧ claimOk base.ledger 0 1 = true
    ∧ ((strait id).strait 0).toI.powered.head? = some 0 ∧ (((strait id).strait 0).toI.having .spare).head? = some 96 ∧ (60 : BitVec 8) ≠ 0
    ∧ ((4092 : W36).toNat < 2 ^ 12 ∧ (4092 : W36).toNat % 4 = 0) ∧ (0 : Fin 104) ≠ 96 := by decide +kernel

theorem witness_StraitLanes_admission : let s : State := { base.setStrait 0 { st := .up, result := 3 } with home := {} }
    (s.isle 0).vcore = true ∧ s.home.mask.getLsbD 0 = false ∧ ((s.claim 0 16 40).2 = true) ∧ (s.strait 0).st = .up ∧ (s.strait 0).result = 3
    ∧ runs (.fullTraining 0) s (fun u => (u.strait 0).st == .training && sget {} u.ledger.claimed 0 == { core := 16, hub := 40 })
    ∧ (8 : BitVec 16).toInt.natAbs = 8 ∧ (-9 : BitVec 16).toInt.natAbs = 9 := by decide +kernel

/-- Three flits sent, none acknowledged; lane 2's last bits were bad. -/
def flits : List Flit := (List.range 3).map fun k => { kind := 0, seq := BitVec.ofNat 12 k, ack := 0, load := msg .rds 15 0 }
theorem test_lanes : runs (.flitCrcReplay 0 false 1 4) (dirI fun d => { d with seq := 3, kept := flits }) (fun u => (u.strait 0).toI.replay == 1
      && (u.strait 0).toI.resent == flits.drop 1 && ((u.strait 0).toI.lane 2).err == 1 && ((u.strait 0).toI.lane 3).err == 0 && (u.strait 0).toK == full)
    ∧ runs (.sidebandFailover 0 false) (strait id) (fun u => (u.strait 0).toI.pri && (u.strait 0).due == none)
    ∧ runs (.backupSidebandLaneFailed 0 true) (strait fun x => { x with armed := true, toK := { x.toK with pri := true } }) (fun u => (u.strait 0).due == some .severed)
    ∧ goes (.laneFailed 0 false (1#104 <<< 95) 1) (strait id) (strait id)
    ∧ runs (.laneFailed 0 false (1#104 <<< 95) 0) (strait id) (fun u => (u.strait 0).st == .stalled && (u.strait 0).toI.lost == [95] && (u.strait 0).toI.fail == 1)
    ∧ runs (.substituted 0 false 5) (stalled id) (fun u => (u.strait 0).st == .up && ((u.strait 0).toI.lane 96).logical == 3 && (u.strait 0).subst == 1)
    ∧ runs (.narrowed 0 false 5) (stalled noSpare) (fun u => (u.strait 0).toI.width == 1 && (u.strait 0).toI.lost == [] && (u.strait 0).narrow == 1 && (u.strait 0).st == .up) := by
  decide +kernel

theorem test_lane_restored : runs (.laneRestored 0 false true) (dirI fun d => { d.setLane 3 {} with restore := 1 }) (fun u => ((u.strait 0).toI.lane 3).role == .spare && (u.strait 0).toI.restore == 0)
    ∧ runs (.laneRestored 0 false false) (dirI fun d => { d.setLane 3 {} with restore := 1 }) (fun u => ((u.strait 0).toI.lane 3).role == .failed && (u.strait 0).toI.fail == 1)
    ∧ runs (.recalPassStart 0) (strait id) (fun u => (u.strait 0).recal == some (0, 96) && ((u.strait 0).toI.lane 96).role == .standin && ((u.strait 0).toI.lane 0).role == .recal)
    ∧ runs (.run who 0 4092) (strait id) (fun u => (u.strait 0).period == 255 && (u.strait 0).recal == some (0, 96))
    ∧ runs (.recalLaneDone 0) (strait fun x => { x with recal := some (0, 96), active := true }) (fun u => (u.strait 0).recal == none && ((u.strait 0).toI.lane 96).role == .spare && !(u.strait 0).active) := by
  decide +kernel

theorem test_training : let s := strait fun x => { x with st := .training, toI := {}, toK := {} }
    runs (.fullTrainingDone 0 (BitVec.allOnes 104) (BitVec.allOnes 104)) s (fun u => (u.strait 0).st == .up && (u.strait 0).result == 3 && (u.strait 0).toK == { full with width := 0, pri := (u.strait 0).toK.pri })
      ∧ runs (.fullTrainingDone 0 0 0) s (fun u => (u.strait 0).st == .severed && (u.isle 0).cond == .severed) := by decide +kernel

theorem test_admission : let s : State := { base.setStrait 0 { st := .up, result := 3 } with home := {}, worlds := { gen := 4 } }
    runs (.admission 0 8) s (fun u => (u.isle 0).cond == .admitted && (u.strait 0).result == 1 && u.home.mask == 1 && (u.isle 0).rgnGen == 4 && (u.strait 0).armed)
      ∧ runs (.admission 0 (-9)) { s with lh := { run := true } } (fun u => (u.isle 0).cond == .quarantined && (u.strait 0).lhmis && u.home.mask == 0)
      ∧ runs (.admission 0 0) { s with umf := { admref := 7 } } (fun u => (u.strait 0).vermis && !(u.strait 0).digmis && (u.strait 0).result == 2) := by decide +kernel

/-- Isle 0's watchdog is armed. -/
def armed : State := strait fun x => { x with armed := true, seenSeq := 5 }
/-- The part with guest sites; site 0 is up, lets reads and writes of lines 0 to 15 through its window 0, and has one token. -/
def siteAs (f : Site → Site) : State :=
  let s : State := { base with variant := .ty1920g }
  s.setSite 0 (f { en := true, link := 2, tokens := 1, rate := 3, burst := 8, wins := [(0, { en := true, rd := true, wr := true, size := 15 })] })
def greq : GReq := { tag := 9, write := true, dense := false, addr := 8, len := 2, data := 0x0102, status := some 0 }

theorem witness_WatchdogAndGuests : (armed.strait 0).armed = true ∧ ((armed.strait 0).toK.pri && (armed.strait 0).toK.bak) = false ∧ armed.home.mask.getLsbD 0 = true
    ∧ ((isleAs fun x => { x with cond := .severed }).isle 0).vcore = true ∧ (siteAs id).siteFit 0 = true ∧ ((siteAs id).site 0).outst.length + ((siteAs id).site 0).waiting.length < 128
    ∧ frame [2, 9, 0, 8, 0, 0, 0, 0, 0, 2, 2, 1] = some ({ ty := 2, tag := 9, addr := 8, len := 2, data := 0x0102 }, []) ∧ base.siteFit 0 = false
    ∧ ((siteAs id).site 1).next = none ∧ (siteAs id).guestCheck 0 true 8 2 = .ok 8 ∧ ((armed.modStrait 0 fun x => { x with due := some .clock }).strait 0).due = some .clock ∧ (siteAs id).guestCheck 0 true 1024 2 = .error 8 ∧ (siteAs id).guestCheck 0 false 63 2 = .error 10
    ∧ ((siteAs id).site 0).tokens ≠ 0 ∧ ((siteAs fun x => { x with tokens := 0 }).site 0).tokens = 0 ∧ [greq].find? (fun q => q.tag == 9) = some greq
    ∧ (siteAs id).siteAnswer .umfoent 0 = .ok ∧ (siteAs fun x => { x with link := 4 }).siteAnswer .umfoent 0 ≠ .ok ∧ ((siteAs fun x => { x with link := 1 }).claim reqUmf 0 8).2 = true := by
  decide +kernel

theorem test_watchdog : runs (.heartbeat 0 false false 5) armed (fun u => (u.strait 0).due == none && (u.isle 0).bootSeq == 5) ∧ runs (.heartbeat 0 false true 5) armed (fun u => (u.strait 0).due == some .clock)
    ∧ runs (.heartbeat 0 false false 6) armed (fun u => (u.strait 0).due == some .reset) ∧ runs (.heartbeatTimeout 0) armed (fun u => (u.strait 0).due == some .severed)
    ∧ goes (.watchdogReport 0 .clock) armed armed
    ∧ runs (.watchdogReport 0 .clock) (armed.modStrait 0 fun x => { x with due := some .clock }) (fun u => u.home.mask == 0xFFE && (u.isle 0).cond == .clockLost && u.home.purging && !(u.strait 0).armed)
    ∧ runs (.vcoreRemove 0) (isleAs fun x => { x with cond := .severed }) (fun u => !(u.isle 0).vcore) := by decide +kernel

def guests (c : Instr) (s : State) (p : Site → Bool) : Bool := runs c s fun u => p (u.site 0)
/-- The octets of a request with TAG 9: TYPE, TAG, ADDR, LEN, data. -/
def octets (ty : BitVec 8) (addr : BitVec 48) (len : BitVec 8) (data : List Octet) : List Octet :=
  [ty, 9, 0, addr.extractLsb' 0 8, addr.extractLsb' 8 8, 0, 0, 0, 0, len] ++ data
theorem test_guest_requests : guests (.guestRequest 0 (octets 2 8 0 []) [] false) (siteAs id) (fun x => x.refuse == 1 && x.outst.map (·.status) == [some 11])
    ∧ guests (.guestRequest 0 (octets 2 1024 2 [2, 1]) [] false) (siteAs id) (fun x => x.outst.map (·.status) == [some 8] && x.tokens == 1)
    ∧ guests (.guestRequest 0 (octets 2 8 2 [2, 1]) [] true) (siteAs fun x => { x with tokens := 0 }) (fun x => x.waiting.length == 1 && x.outst == [] && x.l1)
    ∧ guests (.guestRequest 0 (octets 2 8 2 [2]) [] false) (siteAs id) (fun x => x.stream.length == 11 && x.outst == [] && x.tokens == 1)
    ∧ runs (.guestRequest 0 (octets 2 8 2 [2, 1]) [] false) (siteAs id) (fun u => (u.site 0).tokens == 0 && (u.site 0).outst.length == 1)
    ∧ guests (.guestCompletion 0 9) (siteAs fun x => { x with outst := [greq] }) (fun x => x.outst == [] && x.sent == [(9, 0, [])])
    ∧ guests (.gatehouseTokenRefill 0) (siteAs fun x => { x with tokens := 7 }) (fun x => x.tokens == 8) := by decide +kernel

theorem test_guest_registers : guests (.guestRegisterAccess .umfoent 0 4 none 77) (siteAs id) (fun x => x.regTx == [(4, none)] && x.regAns == (0, 77))
    ∧ guests (.guestRegisterAccess .umfoent 0 4 (some 5) 77) (siteAs id) (fun x => x.regTx == [(4, some 5)] && x.regAns == (0, 0))
    ∧ guests (.guestRegisterAccess .umfoent 0 4 none 77) (siteAs fun x => { x with link := 4 }) (fun x => x.regAns == (Resp.poison.num, 0))
    ∧ runs (.guestAccessFailed .umfoent 0 4 none true) (siteAs id) (fun u => (u.site 0).regAns == (5, 0) && u.evr.travel.length == 1)
    ∧ guests (.guestLinkLost 0) (siteAs fun x => { x with outst := [greq] }) (fun x => x.link == 4 && x.outst == [])
    ∧ guests (.guestLinkTrained 0 true) (siteAs fun x => { x with link := 1 }) (fun x => x.link == 2) ∧ guests (.guestLinkTrained 0 false) (siteAs fun x => { x with link := 1 }) (fun x => x.link == 0)
    ∧ goes (.guestRegisterAccess .umfoent 0 4 none 77) base (base.setSite 0 { regAns := (Resp.absent.num, BitVec.allOnes 36) }) ∧ guests (.ucieLaneRepair 0) (siteAs id) (fun x => x.link == 3) := by decide +kernel

/-! ### Memory -/

/-- Channel 0 as x; line 7 holds 5. -/
def chanAs (f : Chan → Chan) : State := { base.setChan 0 (f (base.chan 0)) with mem := [(7, { bits := 5 })] }
/-- Umfoent reads line 7: its transaction waits for memory. -/
def readReq : Msg := { msg .rdn 15 15 with tag := 5 }
def reading (f : Chan → Chan) : State := { chanAs (fun x => f { x with readQ := [{ line := 7 }] }) with home := { mask := 0xFFF, txns := [(7, { req := readReq, memWait := true })] } }
/-- Errors that no code word explains: symbols of three devices. -/
def broken : BitVec 640 := 1 ||| (1#640 <<< 100) ||| (1#640 <<< 300) ||| (1#640 <<< 500)

theorem witness_DramChannels : base.chanFit 0 = true ∧ (reading id).nextRead 0 = some 7 ∧ ((reading id).chan 0).readQ = [] ++ { line := 7, passed := 0 } :: [] ∧ ((reading id).slice ((reading id).homeSlice 7)).tokens = []
    ∧ (∃ o, ashlarRead none { bits := 5 } 0 = some o ∧ fixedDevs o.fixed = []) ∧ ashlarRead none { bits := 5 } broken = none
    ∧ lineIn 0 base.memSets 7 = some 7 ∧ (1520 : BitVec 16).toNat ≤ 1520 ∧ claimOk base.ledger 0 4 = true ∧ claimOk nearly.ledger 0 4 = false
    ∧ (base.chan 0).trackms ≠ 0 ∧ (base.chan 0).bearwait = false ∧ (base.chan 0).st ≠ .filling ∧ (0 : Nat) < (base.chan 0).lines ∧ lineIn 0 base.memSets (base.chan 0).patrol = some 0 ∧ ((chanAs fun x => { x with rh := { x.rh with sampled := [(4, 2)] } }).chan 0).drfm = false ∧ base.place 7 = some (0, 7) := ⟨by decide +kernel, by decide +kernel, by decide +kernel, by decide +kernel,
      ⟨{ val := { bits := 5 } }, by decide +kernel⟩, by decide +kernel⟩

theorem test_dram_read : runs (.dramRead 0 7 0) (reading id) (fun u => (u.chan 0).readQ == [] && u.txn 7 == none && u.replies.map (fun m => (m.ty, m.data)) == [(.cmp, 5)])
    ∧ runs (.dramRead 0 7 broken) (reading id) (fun u => (u.chan 0).st == .frozen && (u.chan 0).frzCause == 1 && (u.chan 0).frzLine == 7)
    ∧ runs (.dramWrite 0) (chanAs fun x => { x with writeQ := [{ line := 8, val := { bits := 6 }, vault := false }, { line := 9, val := {}, vault := false }] }) (fun u => u.memGet 8 == { bits := 6 } && u.memGet 7 == { bits := 5 } && (u.chan 0).writeQ.length == 1)
    ∧ goes (.dramWrite 0) (reading fun x => { x with writeQ := [{ line := 8, val := { bits := 6 }, vault := false }] }) (reading fun x => { x with writeQ := [{ line := 8, val := { bits := 6 }, vault := false }] })
    ∧ runs (.correctedReread 0 0) (chanAs fun x => { x with rereads := [{ line := 7, devs := [(3, 1)] }] }) (fun u => (u.chan 0).rereads == [] && sget 0 (u.chan 0).cecnt 3 == 1) := by
  decide +kernel

theorem test_dram_upkeep : runs (.patrolRead 0 0) (chanAs fun x => { x with patrol := 7 }) (fun u => (u.chan 0).patrol == 8) ∧ runs (.refsb 0 true) base (fun u => (u.chan 0).rh.refsb == 1 && (u.chan 0).rh.halved)
    ∧ runs (.memThrottled 0 1520) (chanAs id) (fun u => !(u.chan 0).rh.throttled && u.evr == {}) ∧ runs (.memThrottled 0 1521) (chanAs id) (fun u => (u.chan 0).rh.throttled && u.evr.travel.length == 1)
    ∧ runs (.sampledRowRefresh 0 4 2) (chanAs fun x => { x with drfm := true, rh := { x.rh with sampled := [(4, 2), (5, 2)] } }) (fun u => (u.chan 0).rh.sampled == [(5, 2)] && (u.chan 0).rh.nbr == 1 && (u.chan 0).rh.acts == 0)
    ∧ runs (.sampledRowRefresh 0 4 2) (chanAs fun x => { x with rh := { x.rh with sampled := [(4, 2), (5, 2)] } }) (fun u => (u.chan 0).rh.nbr == 1 && (u.chan 0).rh.acts == 2)
    ∧ runs (.tallyClear 0) (chanAs fun x => { x with rh := { x.rh with tally := [(1, 2)] } }) (fun u => (u.chan 0).rh.tally == [])
    ∧ runs (.trackingRetrain 0) base (fun u => (u.chan 0).trackdefer == 0) ∧ runs (.trackingRetrain 0) { nearly with chans := base.chans } (fun u => (u.chan 0).trackdefer == 1 && u.ledger.refused == 1) := by
  decide +kernel

theorem test_channel_training : runs (.channelFullTraining 0 true) (chanAs fun x => { x with st := .training }) (fun u => (u.chan 0).st == .filling)
    ∧ runs (.channelFullTraining 0 false) (chanAs fun x => { x with st := .training }) (fun u => (u.chan 0).st == .failed)
    ∧ runs (.poisonFillDone 0) (chanAs fun x => { x with st := .filling, inService := true }) (fun u => (u.chan 0).st == .run && u.memGet 7 == { bits := 0, poison := true } && u.memGet 0 == { bits := 0, poison := true })
    ∧ runs (.caParityAlert 0 none) (chanAs id) (fun u => (u.chan 0).st == .frozen && (u.chan 0).frzCause == 2 && (u.chan 0).noline) := by decide +kernel

/-! ### Umfoent's commands for memory, served for mailbox 0 -/

/-- Mailbox 0 is served with command c and these arguments from ARG1 on. -/
def serveIn (s : State) (c : Nat) (args : List Nat) : State :=
  { s with umf := { s.umf with serving := some 0, boxes := [(0, { s.box 0 with
      buf := (0, BitVec.ofNat 36 (2 ^ 31 + args.length * 2 ^ 24 + c)) :: (List.range args.length).map fun k => (k + 1, BitVec.ofNat 36 (args.getD k 0)) })] } }
def frozen : State := chanAs fun x => { x with st := .frozen, lost := [7], writeQ := [{ line := 8, val := {}, vault := false }] }

theorem witness_MemoryCommands : (serveIn frozen 32 [0, 0]).umf.serving = some 0 ∧ ((serveIn frozen 32 [0, 2]).box 0).cmd = 32 ∧ ((serveIn frozen 32 [0, 2]).box 0).argN 2 = 2
    ∧ (serveIn frozen 32 [0, 0]).unitBusy (.channel 0) = false ∧ ((serveIn frozen 32 [0, 0]).box 0).handlesFull = false ∧ base.chanFit 0 = true ∧ claimOk frozen.ledger 0 24 = true
    ∧ (frozen.chan 0).lostovf = false ∧ (base.chan 0).st = .run ∧ ((serveIn base 35 [0, 19]).box 0).argN 2 < 20 ∧ (base.chan 0).mark = none
    ∧ (sget [] base.board.flash.repair 0).length < 8 := by decide +kernel

/-- A handle of mailbox 0 for channel 0 with this result. -/
def handled (u : State) (k : HUnit) (r : Option (BitVec 8 × BitVec 8)) : Bool := (u.box 0).handles.any fun h => h.unit == k && h.res == r

theorem test_thaw : runs (.resume 0 true) (serveIn frozen 32 [0, 0]) (fun u => (u.chan 0).st == .run && (u.chan 0).writeQ == [] && u.memGet 7 == { bits := 0, poison := true } && handled u (.channel 0) (some (0, 0)))
    ∧ runs (.retrain 0) (serveIn frozen 32 [0, 1]) (fun u => (u.chan 0).st == .training && handled u (.channel 0) none)
    ∧ runs (.fail 0) (serveIn frozen 32 [0, 2]) (fun u => (u.chan 0).st == .failed && u.board.flash.excluded == 1 && handled u (.channel 0) (some (0, 1)))
    ∧ runs (.memRetrain 0) (serveIn base 33 [0]) (fun u => (u.chan 0).st == .training && handled u (.channel 0) none)
    ∧ goes (.memRetrain 0) (serveIn frozen 33 [0]) ((serveIn frozen 33 [0]).respond 0 3 []) := by decide +kernel

theorem test_memory_stores : runs (.memInclude 0) { serveIn (chanAs fun x => { x with st := .excluded }) 34 [0] with board := { step := 9, flash := { excluded := 3 } } } (fun u => u.board.flash.excluded == 2 && u.umf.serving == none)
    ∧ runs (.memMark 0) (serveIn base 35 [0, 19]) (fun u => (u.chan 0).mark == some 19 && u.evr.travel.length == 1)
    ∧ runs (.memPprEnroll 0) (serveIn base 36 [0, 1, 2, 3, 4]) (fun u => sget [] u.board.flash.repair 0 == [(1, 2, 3, 4)]) := by decide +kernel

/-! ### Ports -/

/-- Port 0 as a root port with its link up. -/
def portAs (f : Port → Port) : State := base.setPort 0 (f { role := 1, link := 2 })
def win0 (space : BitVec 2) : Win := { en := true, rd := true, wr := true, space, size := 0 }
/-- A window to port 0's memory space at 2^48. -/
def owin : OWin := { en := true, port := 0, kind := 1, baseHi := 0x1000, busLo := 3 }
def outward : State := { portAs id with ports := { (portAs id).ports with owins := [(0, owin)] } }
def req0 : PortReq := { tag := 3, src := .who who, addr := 0x3008, octets := 8, write := false }
/-- Port 0 has a window over DRAM lines 0 to 63; line 0 holds 1, 2, 3, 4 in its first nonets. -/
def inward (role : BitVec 2) (space : BitVec 2) : State :=
  { (portAs fun x => { x with role, wins := [(0, win0 space)] }) with mem := [(0, { bits := setUnit 4 0 0 0x04030201 })] }

theorem witness_PortTraffic : base.portMade 0 = true ∧ (portAs id).portLocked 0 = false ∧ ((portAs id).block 0).st ≠ .dry ∧ claimOk base.ledger 0 (24 + linkBearing 16 true) = true
    ∧ claimOk nearly.ledger 0 24 = false ∧ outward.cxlWin (BitVec.ofNat 46 (0x1000000000008 / 64)) = none ∧ outward.owinAt 0x1000000000008 = some owin ∧ owin.base ≤ 0x1000000000008
    ∧ outward.whoVault who = false ∧ inVault outward.worlds.regions 0x1000000000008 = false ∧ outward.winRefuses owin false = false
    ∧ ((portAs fun x => { x with out := [req0] }).port 0).out.find? (fun r => r.tag == 3) = some req0 ∧ (base.isleFit (575 / 48) = true) ∧ ((inward 1 0).port 0).winFor 0 4090 6 = some (win0 0)
    ∧ ((inward 1 0).port 0).winFor 0 4091 6 = none ∧ ((inward 1 0).readLoose ((inward 1 0).portAsker 0) 0 0 4).2.isSome = true
    ∧ ((inward 1 0).writeLoose ((inward 1 0).portAsker 0) 0 [9, 8, 7, 6, 5]).2 = some .ok ∧ ((inward 1 0).port 0).waits = [] ∧ base.portMade 0 = true := by decide +kernel

theorem test_link : runs (.portLinkTraining 0 { up := true, width := 16, rate := 6, flit := true, cxl := false }) (portAs fun x => { x with link := 0 })
      (fun u => (u.port 0).link == 2 && (u.port 0).width == 16 && (u.port 0).rate == 6 && !(u.port 0).bme && !(u.block 0).bearwait)
    ∧ runs (.portLinkTraining 0 { up := true, width := 1, rate := 1, flit := false, cxl := false }) { nearly with ports := (portAs fun x => { x with link := 0 }).ports }
      (fun u => (u.block 0).bearwait && (u.port 0).link == 0)
    ∧ runs (.portLinkTraining 0 { up := false, width := 1, rate := 1, flit := false, cxl := false }) (portAs id) (fun u => (u.port 0).link == 0)
    ∧ runs (.surpriseRemoval 0 true) (portAs id) (fun u => (u.port 0).link == 4) ∧ runs (.surpriseRemoval 0 false) (portAs fun x => { x with intx := 5 }) (fun u => (u.port 0).link == 0 && (u.port 0).intx == 0) := by
  decide +kernel

/-- An access of a double by thread 0. -/
def oreq (pa : BitVec 52) (wr : Option LineBits) : OutReq := { w := who, pa, size := .double, wr }
theorem test_outbound : runs (.outboundRequest [oreq 0x1000000000008 (some (setUnit 8 0 8 0x0807060504030201))]) outward (fun u => (u.port 0).tx == [.request 0 0x3008 (some [1, 2, 3, 4, 5, 6, 7, 8]) 8])
    ∧ runs (.outboundRequest [oreq 0x1000000000008 none]) outward (fun u => (u.port 0).tx == [.request 0 0x3008 none 8] && (u.port 0).out == [{ req0 with tag := 0 }] && (u.port 0).nextTag == 1)
    ∧ runs (.portCompletion 0 3 .success [0x2A]) (portAs fun x => { x with out := [req0] }) (fun u => (u.port 0).out == [] && (u.port 0).ans.map (fun a => (a.resp, a.data)) == [(0, [0x2A])])
    ∧ runs (.portCompletion 0 3 .abort []) (portAs fun x => { x with out := [req0] }) (fun u => (u.port 0).ans.map (fun a => a.resp) == [5])
    ∧ runs (.cplTimeout 0 3) (portAs fun x => { x with out := [req0] }) (fun u => (u.port 0).dead == [3] && (u.port 0).cfg.aer == 0x4000 && u.evr.travel.length == 1)
    ∧ runs (.portCompletion 0 3 .success []) (portAs fun x => { x with dead := [3] }) (fun u => (u.port 0).late == 1)
    ∧ runs (.tagReuseAllowed 0 3) (portAs fun x => { x with dead := [3, 4] }) (fun u => (u.port 0).dead == [4]) := by decide +kernel

theorem test_inbound : runs (.interruptMessage 0 (BitVec.ofNat 64 (0xFEE00000 + 16 * 575)) 7) (portAs id) (fun u => (u.thread 575).wc.msgPend == 0x80)
    ∧ runs (.inboundRequest 0 .write 0xFEE00000 0 [2, 0, 0, 0]) (portAs id) (fun u => (u.thread 0).wc.msgPend == 4)
    ∧ runs (.inboundRequest 0 .read 0 4 []) (inward 1 0) (fun u => (u.port 0).tx == [.completion [1, 2, 3, 4] .success])
    ∧ runs (.inboundRequest 0 .write 1 0 [9, 8, 7, 6, 5]) (inward 1 0) (fun u => (u.port 0).cfg.aer == 0 && (u.chan 0).writeQ.map (fun q => (q.line, unitAt 4 q.val.bits 0)) == [(0, 0x07080901)])
    ∧ runs (.inboundRequest 0 .atomic 0 8 []) (inward 1 0) (fun u => (u.port 0).tx == [.completion [] .unsupported] && (u.port 0).waits == [])
    ∧ runs (.inboundRequest 0 .write 1 0 (List.replicate 513 9)) (inward 1 0) (fun u => (u.port 0).cfg.aer == 0x40000 && (u.chan 0).writeQ == [])
    ∧ runs (.inboundRequest 0 .read 4091 6 []) (inward 1 0) (fun u => (u.port 0).tx == [.completion [] .unsupported])
    ∧ runs (.intxMessage 0 2 true) (portAs id) (fun u => (u.port 0).intx == 4) ∧ runs (.intxMessage 0 2 false) (portAs fun x => { x with intx := 6 }) (fun u => (u.port 0).intx == 2) := by decide +kernel

/-- Port 0 as an endpoint, with ring 9 of block 0's host. -/
def endp (f : Port → Port) : State :=
  { inward 2 2 with harbour := { rings := [(9, { epb := 1, en := true, st := .active, works := [{ slot := 0, desc := { d0 := 0x100001 }, timed := true }] })] } }.modPort 0 fun x => f { x with bme := true, cxlup := true, cfg := { mse := true, rom := 1 }, hdm := [(0, { size := 2 ^ 28, commit := true })], wins := [(0, win0 2), (1, win0 1)] }

theorem witness_EndpointEvents : (endp id).epPort 0 = some 0 ∧ ((endp id).port 0).winFor 2 0 4096 = some (win0 2) ∧ ((endp id).port 0).hdmAddr 64 = some 64 ∧ lendAt [win0 1] 64 = some (win0 1, 64)
    ∧ ((endp id).readLoose ((endp id).portAsker 0) 0 0 4).2.isSome = true ∧ ((endp id).lineRead ((endp id).portAsker 0) 0 (BitVec.allOnes 64)).2.isSome = true
    ∧ ((endp id).lineWrite ((endp id).portAsker 0) 1 1 5 false).2 = some (.ok, 0) ∧ ((endp id).port 0).waits = [] ∧ (base.setPort 0 { role := 2, link := 2 }).epRings 0 = [] ∧ (endp id).epRings 0 = [9]
    ∧ (0xFFFFF : BitVec 40).toNat < 0x100000 := by decide +kernel

theorem test_bars : runs (.hostBarRequest 0 .bar0 0x1100 none 4 false) (endp fun x => { x with epStat := 5 }) (fun u => (u.port 0).tx == [.completion [5, 0, 0, 0] .success])
    ∧ runs (.hostBarRequest 0 .bar0 0x1104 (some [7, 0, 0, 0]) 0 false) (endp id) (fun u => (u.port 0).epEn == 7)
    ∧ runs (.hostBarRequest 0 .config 0x3C none 4 false) (endp id) (fun u => (u.port 0).tx == [.completion [0, 1, 0, 0] .success])
    ∧ runs (.hostBarRequest 0 .bar0 0x1100 none 4 false) (endp fun x => { x with cfg := {} }) (fun u => (u.port 0).tx == [.completion [] .unsupported])
    ∧ runs (.hostBarRequest 0 .bar2 0 none 4 false) (endp id) (fun u => (u.port 0).tx == [.completion [1, 2, 3, 4] .success])
    ∧ runs (.hostBarRequest 0 .bar2 0 (some [9]) 0 false) (endp id) (fun u => (u.chan 0).writeQ.length == 1)
    ∧ runs (.lendingRequest 0 0 none (BitVec.allOnes 64) false) (endp id) (fun u => (u.port 0).lent.map (fun v => unitAt 4 v.bits 0) == some 0x04030201)
    ∧ runs (.lendingRequest 0 64 (some 5) 1 false) (endp id) (fun u => (u.chan 0).writeQ.map (fun q => (q.line, nonetAt q.val.bits 0)) == [(1, 5)]) := by decide +kernel

theorem test_endpoint_interrupts : runs (.prtEpintstatWrite 0 4) (endp fun x => { x with epStat := 5, epEn := 4, inta := true }) (fun u => (u.port 0).epStat == 1 && !(u.port 0).inta && (u.port 0).tx == [.intx false])
    ∧ runs (.interruptDisableWrite 0 true) (endp fun x => { x with epStat := 5, epEn := 4, inta := true }) (fun u => (u.port 0).intDis && !(u.port 0).inta)
    ∧ runs (.busMasterEnableClear 0) (endp id) (fun u => !(u.port 0).bme && (u.ring 9).works.map (·.res) == [some (12, 0)])
    ∧ runs (.d3hotEntry 0) (endp id) (fun u => (u.port 0).dstate == 1 && (u.ring 9).st == .paused) := by decide +kernel

theorem test_endpoint_states : let quiet : State := base.setPort 0 { role := 2, link := 2, bme := true, epStat := 5, epEn := 3, out := [req0] }
    runs (.d3coldEntry 0) quiet (fun u => (u.port 0).dstate == 2 && !(u.port 0).bme && (u.port 0).out == [] && (u.port 0).link == 0)
      ∧ runs (.flr 0) quiet (fun u => (u.port 0).dstate == 0 && (u.port 0).epEn == 0 && (u.port 0).link == 2 && (u.port 0).gone == [3] && (u.port 0).quayGen == 1) ∧ runs (.prtPerstAssert 0) quiet (fun u => (u.block 0).perst && (u.port 0).link == 0)
      ∧ runs (.d0Return 0) (endp fun x => { x with dstate := 1, pmeDue := true }) (fun u => (u.port 0).dstate == 0 && !(u.port 0).pmeDue)
      ∧ runs (.pme 0) (endp fun x => { x with dstate := 1, pmeDue := true, pmeEn := true }) (fun u => (u.port 0).tx == [.pme] && !(u.port 0).pmeDue)
      ∧ runs (.pme 0) (endp fun x => { x with dstate := 2, pmeDue := true, pmeEn := true }) (fun u => (u.block 0).wakeOut) := by decide +kernel

/-! ### Harbour -/

/-- Ring 9, enabled by the Court world in context 0, with 4 slots. -/
def ring9 : RingR := { en := true, st := .active }
def ringAs (x : RingR) : State := { base with harbour := { rings := [(9, x)] } }
/-- A doorbell or register value. -/
def rctl (intthr ctx : Nat) (en : Bool) : W36 := BitVec.ofNat 36 (intthr * 2 ^ 23 + ctx * 16 + if en then 1 else 0)
/-- A line holding a FILL descriptor of 64 nonets at 0x4000 with the pattern 7, timed for reading T of epoch 1. -/
def fillLine (timed : Bool) (t : Nat) : LineBits :=
  setUnit 8 (setUnit 8 (setUnit 8 (setUnit 8 (setUnit 8 (setUnit 8 0 0 (if timed then 0x500000102 else 0x500000002)) 16 0x4000) 24 64) 32 7) 48 (BitVec.ofNat 72 t)) 56 (if timed then 1 else 0)
def fillDesc (timed : Bool) (t : Nat) : Desc := { d0 := if timed then 0x500000102 else 0x500000002, d2 := 0x4000, d3 := 64, d4 := 7, d6 := BitVec.ofNat 64 t, d7 := if timed then 1 else 0 }
/-- Ring 9's submission ring is line 64, with one descriptor in it; its completion ring is line 128; the master reads (1, 1000). -/
def submitted (timed : Bool) (t : Nat) : State :=
  { ringAs { ring9 with sqlo := 64, cqlo := 128, sqTail := 1 } with mem := [(64, { bits := fillLine timed t })], lh := { run := true, epoch := 1, count := 1000 } }
def job9 (t : Nat) : Job := { ring := 9, slot := 0, desc := fillDesc true t }

theorem witness_RingsAndDoorbells : base.keyGate who (0x50000000 + (0x8000000 + 8 * 9)) = (base, some .ok) ∧ base.keyGate who (0x50000000 + (0x1000000 + 0x40 * 9)) = (base, some .ok)
    ∧ hasBits (3 : W36) (bitsMask 35 18) = false ∧ (3 : Nat) < 2 ^ ring9.sqsz.toNat ∧ fld (rctl 575 5 true) 32 23 = 575 ∧ hasBits (rctl 575 5 true) (bitsMask 35 33 ||| bitsMask 1 1) = false
    ∧ ({ ring9 with cqUsed := 4 } : RingR).freed 3 ≤ 4 ∧ ({ ring9 with sqTail := 1 } : RingR).mayStart = true
    ∧ ((submitted true 20000).readDesc 9 0).2 = some (.ok, fillDesc true 20000) ∧ (((submitted true 20000).readDesc 9 0).1.ring 9 = (submitted true 20000).ring 9)
    ∧ ((submitted true 20000).readDesc 9 0).1.masterNow = (submitted true 20000).masterNow ∧ (fillDesc true 20000).timed = true ∧ (fillDesc true 20000).check 0 = none
    ∧ (fillDesc true 20000).fence = false ∧ launchCheck (submitted true 20000).masterNow (fillDesc true 9000).launch 2000 false = none
    ∧ launchCheck (submitted true 20000).masterNow (fillDesc true 999).launch 2000 false = some 4 ∧ reached (submitted true 0).masterNow (job9 1008).desc.launch = true
    ∧ ((submitted false 0).readDesc 9 3).2 = some (.ok, fillDesc false 0) ∧ ((submitted false 0).readDesc 9 3).1.harbour = (submitted false 0).harbour := by decide +kernel

theorem test_doorbells : runs (.doorbellTail who 9 3 []) (ringAs ring9) (fun u => (u.ring 9).sqTail == 3) ∧ runs (.doorbellTail who 9 4 []) (ringAs ring9) (fun u => (u.ring 9).sqTail == 0 && u.harbour.dbrej == 1)
    ∧ runs (.doorbellHead who 9 0x10003 []) (ringAs { ring9 with cqUsed := 3 }) (fun u => (u.ring 9).cqHead == 3 && (u.ring 9).cqUsed == 0)
    ∧ runs (.doorbellResume who 9 0x20000 []) (ringAs { ring9 with st := .paused }) (fun u => (u.ring 9).st == .active)
    ∧ runs (.doorbellTail who 9 3 []) (ringAs {}) (fun u => u.harbour.dbrej == 1 && u.evr.travel.map (fun r => (r.code, r.p0, r.p2)) == [(0o006001, 9, 1)]) := by decide +kernel

theorem test_rctl : runs (.hbrRctlWrite who 9 (rctl 575 5 true)) (ringAs { sqTail := 2 }) (fun u => (u.ring 9).en && (u.ring 9).intthr == 575 && (u.ring 9).ctx == 5 && (u.ring 9).sqTail == 0 && (u.ring 9).st == .active)
    ∧ runs (.hbrRctlWrite who 9 (rctl 0 0 false)) (ringAs { ring9 with sqTail := 2, works := [{ slot := 0, desc := {}, timed := true }] })
        (fun u => !(u.ring 9).en && (u.ring 9).sqTail == 0 && (u.ring 9).st == .disabled && (u.ring 9).works == [])
    ∧ runs (.hbrRctlWrite who 9 (rctl 0 0 false)) (ringAs { ring9 with works := [{ slot := 0, desc := {}, timed := false }] }) (fun u => (u.ring 9).st == .draining) := by decide +kernel

theorem test_timed : runs (.timedAccept 9) (submitted true 9000) (fun u => u.harbour.table.length == 1 && (u.ring 9).sqHead == 1 && (u.ring 9).works.map (·.timed) == [true])
    ∧ runs (.timedAccept 9) (submitted true 999) (fun u => u.harbour.table == [] && (u.ring 9).works.map (fun w => w.res.map (·.1)) == [some (timedRefusal 4)])
    ∧ runs (.timedLeadExpired 9) { submitted true 999 with harbour := { rings := [(9, { (submitted true 999).ring 9 with waitTable := true })] } } (fun u => (u.ring 9).works.map (fun w => w.res.map (·.1)) == [some 8] && !(u.ring 9).waitTable)
    ∧ (let due : State := { submitted true 0 with harbour := { rings := [(9, { ring9 with works := [{ slot := 0, desc := fillDesc true 1008, timed := true }] })], table := [job9 1008] } }
       runs (.timedDescriptorDue false) due (fun u => u.harbour.table == [] && (u.ring 9).works.map (fun w => w.res.map (·.1)) == [some 11])
        ∧ runs (.timedDescriptorDue false) { due with harbour := { due.harbour with engines := [(4, { timed := true })] } } (fun u => u.harbour.table == [] && (u.engine 4).job == some (job9 1008))) := by decide +kernel

theorem test_schedule : runs .harbourSchedule (submitted false 0) (fun u => (u.engine 0).job.map (fun j => (j.ring, j.desc)) == some (9, fillDesc false 0) && (u.ring 9).sqHead == 1 && (u.engine 1).job == none)
    ∧ runs (.descriptorDone 9) (ringAs { ring9 with cqlo := 128, cqTail := 3, works := [{ slot := 2, desc := fillDesc false 0, timed := false, res := some (0, 64) }] })
        (fun u => (u.ring 9).works == [] && (u.ring 9).cqTail == 0 && !(u.ring 9).phase && (u.ring 9).cqUsed == 1 && (u.chan 0).writeQ.map (fun q => (q.line, unitAt 8 q.val.bits 48, unitAt 8 q.val.bits 56)) == [(128, 0x500020100, 64)])
    ∧ runs (.descriptorDone 9) (ringAs { ring9 with cqhi := 0xFFFF, works := [{ slot := 2, desc := {}, timed := false, res := some (8, 0) }] }) (fun u => (u.ring 9).st == .error) := by decide +kernel

/-- Engine 3 runs a descriptor of ring 9; line 0 holds 1 to 64 in its nonets, line 1 zeros. -/
def counting : LineBits := (List.range 64).foldl (fun l k => setNonet l k (BitVec.ofNat 9 (k + 1))) 0
def working (d : Desc) (epb : BitVec 4) : State :=
  { ringAs { ring9 with epb, works := [{ slot := 2, desc := d, timed := false }] } with mem := [(0, { bits := counting })], ports := (endp id).ports }.setEngine 3 { job := some { ring := 9, slot := 2, desc := d } }
def ends (c : Instr) (d : Desc) (epb : BitVec 4) (st : BitVec 8) (v : BitVec 64) : Bool :=
  runs c (working d epb) fun u => (u.engine 3).job == none && (u.ring 9).works.map (·.res) == [some (st, v)]
def copyD : Desc := { d0 := 1, d1 := 0, d2 := 0x4010, d3 := 16 }
/-- What the host answered engine 3's read of 64 octets at bus address 0. -/
def host64 (resp : BitVec 3) : PortAns := { src := .engine 3, addr := 0, write := false, resp, data := List.replicate 64 7 }
def hostCopy : Desc := { copyD with d0 := 0x100001, d3 := 48 }

theorem witness_HarbourOperations : ((working copyD 0).engine 3).job = some { ring := 9, slot := 2, desc := copyD } ∧ (working copyD 0).harbour.st = .run ∧ copyD.op = 1 ∧ copyD.host = false
    ∧ (let r := (working copyD 0).engReads ring9 3 0 16
       (r.2.map (·.1)) = some .ok ∧ (r.1.engWrite ring9 3 0x4010 ((r.2.map (·.2)).getD [])).2 = some .ok ∧ (r.1.engWrite ring9 3 0x4010 ((r.2.map (·.2)).getD [])).1.harbour = (working copyD 0).harbour)
    ∧ min (64 - 0x4010 % 64) 16 = 16 ∧ ((working copyD 0).engReads ring9 3 0xC0000000000 16).2 = some (.absent, []) ∧ (working copyD 1).epPort 0 = some 0 := by decide +kernel

theorem test_copy : ends (.copy 3) copyD 0 0 16 ∧ runs (.copy 3) (working copyD 0) (fun u => (u.chan 0).writeQ.map (fun q => (q.line, unitAt 4 q.val.bits 16)) == [(0x100, 0x04030201)])
    ∧ ends (.copy 3) { copyD with d1 := 0xC0000000000 } 0 1 0 ∧ runs (.copy 3) (working hostCopy 1) (fun u => (u.port 0).tx == [.request 0 0 none 48] && ((u.engine 3).job == (working hostCopy 1 |>.engine 3).job))
    ∧ runs (.copy 3) ((working hostCopy 1).modPort 0 fun x => { x with ans := [host64 0] }) (fun u => (u.engine 3).job == none && (u.ring 9).works.map (·.res) == [some (0, 48)] && (u.port 0).ans == [])
    ∧ runs (.copy 3) ((working hostCopy 1).modPort 0 fun x => { x with ans := [host64 1] }) (fun u => (u.ring 9).works.map (·.res) == [some (15, 0)])
    ∧ ends (.copy 3) { d0 := 0x410001, d1 := 0, d2 := 0x9000, d3 := 64 } 1 0 64 ∧ ends (.copy 3) { copyD with d0 := 0x100001 } 2 12 0 := by decide +kernel

theorem test_fill_compare : ends (.fill 3) { d0 := 2, d2 := 0x4000, d3 := 64, d4 := 7, d5 := 1 } 0 0 64 ∧ ends (.fill 3) { d0 := 2, d2 := 0xC0000000000, d3 := 64 } 0 1 0
    ∧ ends (.compare 3) { d0 := 3, d1 := 0, d2 := 0, d3 := 64 } 0 0 64 ∧ ends (.compare 3) { d0 := 3, d1 := 0, d2 := 8, d3 := 8 } 0 6 0 := by decide +kernel

theorem test_crc_repack : ends (.crc64 3) { d0 := 4, d1 := 64, d3 := 64 } 0 0 0 ∧ ends (.crc64 3) { d0 := 4, d1 := 0, d3 := 1 } 0 0 0x42F0E1EBA9EA3693
    ∧ ends (.repackD 3) { d0 := 5, d1 := 0, d2 := 0x4000, d3 := 1 } 0 0 1 ∧ ends (.repackL 3) { d0 := 6, d1 := 0, d2 := 0x4000, d3 := 1 } 0 0 72
    ∧ ends (.prefetch 3) { d0 := 7, d1 := 0, d3 := 64, d4 := 2 } 0 0 1 ∧ ends (.prefetch 3) { d0 := 7, d1 := 0, d3 := 64, d4 := 12 } 0 1 0 := by decide +kernel

/-! ### The Lighthouse -/

/-- The master runs at (1, 1000), the copies with it. -/
def lit (f : Lighthouse → Lighthouse) : State :=
  { base with lh := f { run := true, epoch := 1, count := 1000 }, isles := base.isles.map fun p => (p.1, { p.2 with lhEpoch := 1, lhCount := 1000 }) }

theorem witness_LighthouseTime : base.lhMay who = false ∧ base.lhMay .umfoent = true ∧ hasBits (0 : W36) (bitsMask 35 2) = false ∧ hasBits (0xFFFFFF : W36) (bitsMask 35 24) = false
    ∧ hasBits (0x58 : W36) (bitsMask 35 8 ||| bitsMask 2 0) = false ∧ fld (0x58 : W36) 6 5 = 2 ∧ whoUmf who = false ∧ (lit fun l => { l with courtwr := true }).lhMay who = true
    ∧ ((lit id).thread 0).launchT = none ∧ ((lit id).streamOf .package).act = none ∧ (1000 : BitVec 64).toNat ≤ 1000 ∧ (8 : BitVec 16).toInt.natAbs ≤ 8 ∧ 8 < (-9 : BitVec 16).toInt.natAbs
    ∧ ((lit id).isle 0).lhSync = true ∧ ((lit id).isle 0).lhDrift = false ∧ atOrPast ((lit id).copyNow 0) (1#8 ++ 1000#64) = true ∧ atOrPast ((lit id).copyNow 0) (1#8 ++ 1001#64) = false := by
  decide +kernel

/-- In the reset state no thread waits in LAUNCH and no stream holds a request. -/
theorem witness_idle : (∀ k, (({} : State).thread k).launchT = none) ∧ ∀ u, (({} : State).streamOf u).act = none ∧ (({} : State).streamOf u).held = none :=
  ⟨fun _ => rfl, fun u => by cases u <;> first | exact ⟨rfl, rfl⟩ | (simp only [State.streamOf]; split <;> exact ⟨rfl, rfl⟩)⟩

theorem test_set : goes (.set who 0) (lit id) (lit id) ∧ runs (.set .umfoent 0) (lit fun l => { l with setlo := 5, sethi := 1 }) (fun u => u.lh.setbusy && u.lh.applyAt == 81000 && u.lh.applyVal == 0x100000005)
    ∧ runs (.set .umfoent 0) (lit fun l => { l with epoch := 255 }) (fun u => u.lh.setres == 2) ∧ runs (.set .umfoent 0) (lit fun l => { l with setbusy := true }) (fun u => u.lh.setres == 3)
    ∧ runs (.cancelSlew .umfoent 0) (lit fun l => { l with slew := 9 }) (fun u => u.lh.slew == 0) ∧ runs (.lhSlewWrite .umfoent 0xFFFFFF) (lit id) (fun u => u.lh.slew == 0xFFFFFF)
    ∧ goes (.lhSlewWrite who 5) (lit id) (lit id) ∧ goes (.cancelSlew who 0) (lit fun l => { l with slew := 9 }) (lit fun l => { l with slew := 9 })
    ∧ runs (.lhCtlWrite who 0x58) (lit fun l => { l with courtwr := true, reflock := true, refsel := 2 }) (fun u => u.lh.refsel == 2 && u.lh.src && u.lh.ppsen && u.lh.reflock)
    ∧ goes (.lhCtlWrite who 0x58) (lit id) (lit id) := by decide +kernel

theorem test_set_apply : runs .setApply { lh := { run := true, epoch := 1, count := 1000, setbusy := true, applyAt := 1000, applyVal := 7 }, isles := [(11, { lhSync := true })] }
    (fun u => u.lh.epoch == 2 && u.lh.count == 7 && u.lh.setres == 1 && (u.isle 11).lhEpoch == 2 && u.evr.travel.map (·.code) == [0o007003, 0o007004]) := by decide +kernel

/-- A locked master at (1, 1000) with this slew, and the copy of Isle 3. -/
def slewing (slew : BitVec 24) : State :=
  { lh := { run := true, epoch := 1, count := 1000, src := true, reflock := true, slew }, isles := [(3, { lhSync := true, lhEpoch := 1, lhCount := 1000 })] }
theorem test_slew : runs .slewTick (slewing 0) (fun u => u.lh.count == 5000 && (u.isle 3).lhCount == 5000) ∧ goes .slewTick base base := by decide +kernel
theorem test_slew_up : runs .slewTick (slewing 1) (fun u => u.lh.count == 5001 && u.lh.slew == 0) := by decide +kernel
theorem test_slew_down : runs .slewTick (slewing (-1)) (fun u => u.lh.count == 4999 && u.lh.slew == 0 && (u.isle 3).lhCount == 4999) := by decide +kernel

theorem test_references : runs .lhPpsEdge (lit fun l => { l with ppsen := true }) (fun u => u.lh.ppsSeq == 1 && u.lh.ppsCount == 1000 && u.lh.ppsEpoch == 1 && u.lh.ppsseen) ∧ goes .lhPpsEdge (lit id) (lit fun l => { l with ppsseen := true })
    ∧ runs .ppsTimeout (lit fun l => { l with ppsseen := true }) (fun u => !u.lh.ppsseen) ∧ runs .refLost (lit fun l => { l with src := true, reflock := true }) (fun u => !u.lh.reflock && u.evr.travel.length == 1)
    ∧ runs .refLocked (lit fun l => { l with src := true }) (fun u => u.lh.reflock) := by decide +kernel

theorem test_copies : runs (.copyCorrection 0 8) (lit id) (fun u => (u.isle 0).lhCount == 1000 && !(u.isle 0).lhDrift)
    ∧ runs (.copyCorrection 0 (-9)) (lit id) (fun u => (u.isle 0).lhDrift && (u.isle 0).lhCount == 991 && u.evr.travel.map (·.code) == [0o007005])
    ∧ runs (.driftCleared 0 4) ((lit id).setIsle 0 { (lit id).isle 0 with lhDrift := true }) (fun u => !(u.isle 0).lhDrift && (u.strait 0).lhofs == 4)
    ∧ runs (.alarmFire 0 false) ((lit id).setThread 0 { wc := { alarm := 1#8 ++ 1000#64, alctl := 5 } }) (fun u => (u.thread 0).wc.alctl == 0x14)
    ∧ runs (.alarmFire 0 false) ((lit id).setThread 0 { wc := { alarm := 1#8 ++ 1001#64, alctl := 5 } }) (fun u => (u.thread 0).wc.alctl == 5) := by decide +kernel

/-! ### Power -/

/-- A control word: GO, the target, and T = 1 when timed. -/
def ctl (target : Nat) (t : Bool) : W36 := BitVec.ofNat 36 (32 + target + if t then 16 else 0)
def preq (target : BitVec 2) : PReq := { target, timed := false, t := 0, vault := false }
/-- Core 0 as x, with a request at work. -/
def coreReq (x : Core) (q : PReq) : State := (lit id).setCore 0 { x with stream := { act := some q } }
def isleReq (f : Isle → Isle) (q : PReq) : State := (lit id).setIsle 0 { f ((lit id).isle 0) with stream := { act := some q } }

theorem witness_PowerRequests : (base.isleFit 0 = true ∧ base.isleGate who 0 = (base, some .ok)) ∧ hasBits (ctl 2 true) (bitsMask 35 9 ||| bitsMask 7 6 ||| bitsMask 3 2) = false
    ∧ hasBits (ctl 3 false) (bitsMask 35 6 ||| bitsMask 3 2) = false ∧ fld (ctl 3 false) 1 0 = 3 ∧ (base.streamOf (.core 0)).act = none ∧ base.unitState (.core 0) = 0
    ∧ ((coreReq { st := .run } (preq 2)).streamOf (.core 0)).act ≠ none ∧ base.vaultHeld (.core 0) = false ∧ (base.setThread 0 { vault := true, mode := .running }).vaultHeld (.core 0) = true
    ∧ launchCheck ((lit id).reqClock (.core 0) true) (1#8 ++ 9000#64) 8000 false = none ∧ launchCheck ((lit id).reqClock (.core 0) true) (1#8 ++ 8999#64) 8000 false = some 4
    ∧ claimOk nearly.ledger 9 0 = false ∧ claimOk base.ledger 9 0 = true ∧ base.refuserOf (.core 0) (preq 2) = none ∧ (isleAs fun x => { x with umfLock := true }).refuserOf (.core 0) (preq 2) = some 6
    ∧ reached ((lit id).reqClock (.core 0) true) (1#8 ++ 1008#64) = true ∧ reached ((lit id).reqClock (.core 0) true) (1#8 ++ 1009#64) = false ∧ reached ((lit id).reqClock (.core 0) true) (1#8 ++ 991#64) = false
    ∧ (coreReq { st := .run } (preq 1)).beginning (.core 0) = some (preq 1) := by decide +kernel

def streams (c : Instr) (s : State) (u : Sys2Proof.PUnit) (p : Stream → Bool) : Bool := runs c s fun t => p (t.streamOf u)

theorem test_requests : streams (.pwrCorectlWrite who 0 (ctl 2 false)) base (.core 0) (fun x => x.act == some (preq 2)) ∧ streams (.pwrCorectlWrite who 0 (ctl 0 false)) base (.core 0) (fun x => x.act == none && x.result == 1)
    ∧ streams (.pwrIslectlWrite who 0 (ctl 3 false)) base (.isle 0) (fun x => x.act == some (preq 3)) ∧ streams (.pwrBlkctlWrite who 2 (ctl 3 false)) base (.block 2) (fun x => x.act == some (preq 3))
    ∧ streams (.pwrPkgctlWrite who (ctl 2 false)) base .package (fun x => x.act == some (preq 2)) ∧ streams (.pwrCorectlWrite who 0 (ctl 3 false)) (coreReq { st := .run } (preq 2)) (.core 0) (fun x => x.held == some (preq 3))
    ∧ streams (.pwrCorectlWrite who 0 (ctl 2 false)) (base.setThread 1 { vault := true, mode := .running }) (.core 0) (fun x => x.result == 2 && x.refuser == 2 && x.act == none)
    ∧ streams (.pwrCorectlWrite who 0 (ctl 2 false)) (isleAs fun x => { x with umfLock := true }) (.core 0) (fun x => x.result == 2 && x.refuser == 6) := by decide +kernel

def timedAt (t : BitVec 32) : State := (lit id).setIsle 0 { (lit id).isle 0 with tep := 1, tlo := t }
theorem test_timed_requests : streams (.pwrCorectlWrite who 0 (ctl 2 true)) (timedAt 9000) (.core 0) (fun x => x.waitT && x.act.any (·.onCopy)) ∧ streams (.pwrCorectlWrite who 0 (ctl 2 true)) (timedAt 8999) (.core 0) (fun x => x.act == none && x.result == 4)
    ∧ (let s (t : BitVec 64) : State := (lit id).setCore 0 { st := .run, stream := { act := some { preq 2 with timed := true, t := 1#8 ++ t, onCopy := true }, waitT := true } }
       streams (.timedRequestFire (.core 0)) (s 1008) (.core 0) (fun x => !x.waitT && x.act.any (fun q => !q.timed)) ∧ goes (.timedRequestFire (.core 0)) (s 1009) (s 1009))
    ∧ runs (.powerRequestComplete (.core 0)) (coreReq { st := .run } (preq 1)) (fun u => (u.core 0).st == .slack && (u.core 0).slackReq && (u.core 0).stream.result == 1)
    ∧ streams (.powerRequestComplete (.core 0)) (coreReq { st := .neap } (preq 2)) (.core 0) (fun x => x.act == none && x.result == 1) := by decide +kernel

/-- Training that finds every lane, and the matching microcode digest. -/
def train : TrainIn := { okI := BitVec.allOnes 104, okK := BitVec.allOnes 104, ofs := 0 }
def blockReq (k : Fin 13) (q : PReq) (s : State) : State := s.modStream (.block k) fun x => { x with act := some q }
/-- Nothing keeps the package out of Lagoon. -/
def toLagoon : State := { lit id with pwr := { stream := { act := some (preq 2) } } }
/-- Core 0's thread has a pending message interrupt that it enables. -/
def waking (x : Core) : State := ((lit id).setCore 0 x).setThread 0 { mode := .waiting, wc := { msgPend := 4, s := { iena := 4 } } }

theorem witness_PowerTransitions : (coreReq { st := .slack } (preq 2)).beginning (.core 0) = some (preq 2) ∧ base.coreLaunch 0 = false ∧ claimOk base.ledger (coreBearing 29 - 1) 0 = true
    ∧ base.isleQuiet 0 = true ∧ base.cannotQuiesce (.isle 0) 2 = false ∧ base.cannotQuiesce (.isle 0) 3 = false ∧ claimOk base.ledger 40 0 = true
    ∧ (blockReq 0 (preq 3) base).beginning (.block 0) = some (preq 3) ∧ (base.harbour.rings.any fun r => r.2.en) = false ∧ (blockReq 2 (preq 3) base).beginning (.block ⟨(1 : Fin 12).val + 1, by omega⟩) = some (preq 3)
    ∧ toLagoon.beginning .package = some (preq 2) ∧ toLagoon.refuserOf .package (preq 2) = none ∧ (∀ i : Fin 12, toLagoon.refuserOf (.isle i) { preq 2 with target := 2 } = none ∧ toLagoon.isleQuiet i = true)
    ∧ (waking { st := .slack }).wakes 0 = true ∧ base.wakes 0 = false ∧ (0x5A : BitVec 7).toNat = 0x58 + base.board.smbAddr.toNat ∧ claimOk base.ledger 0 184 = true
    ∧ (coreReq { st := .slack } (preq 2)).drained 0 = true ∧ ((coreReq { st := .slack } (preq 2)).setThread 0 { mode := .reseed }).drained 0 = false
    ∧ base.isleDrained 0 = true ∧ (isleReq id (preq 3)).mayDry 0 = true ∧ (toLagoon.pwr.wakeName = none ∧ toLagoon.pwr.stream.held = none) ∧ (∀ i : Fin 12, toLagoon.isleDrained i = true)
    ∧ (isleAs fun x => x.setLine 7 { st := .isD }).isleQuiet 0 = false ∧ base.pwr.wakePort.getLsbD 0 = false := by decide +kernel

theorem test_core_power : runs (.coreToNeap 0) (coreReq { st := .slack, keys := [3] } (preq 2)) (fun u => (u.core 0).st == .neap && (u.core 0).keys == [] && (u.core 0).stream.saving)
    ∧ runs (.coreNeapToRun 0) (coreReq { st := .neap } (preq 0)) (fun u => (u.core 0).st == .run && (sget {} u.ledger.claimed 0).core == 8)
    ∧ runs (.coreToDry 0) (coreReq { st := .run } (preq 3)) (fun u => (u.core 0).st == .dry && (u.thread 0).mode == .stopped && (u.core 0).stream.saving)
    ∧ runs (.coreDryToRun 0) (coreReq { st := .dry } (preq 0)) (fun u => (u.core 0).st == .run && (sget {} u.ledger.claimed 0).core == 9) := by decide +kernel

theorem test_isle_power : runs (.isleToNeap 0) (isleReq id (preq 2)) (fun u => (u.isle 0).st == .neap && (u.isle 0).wasUp == 0xFFFFFF && (u.core 23).st == .neap)
    ∧ runs (.isleNeapToRun 0) ((isleReq (fun x => { x with st := .neap, wasUp := 1 }) (preq 0)).setCore 0 { st := .neap }) (fun u => (u.isle 0).st == .run && (u.core 0).st == .run && (sget {} u.ledger.claimed 0).core == 40)
    ∧ runs (.isleToDry 0) (isleReq id (preq 3)) (fun u => (u.isle 0).st == .dry && !(u.isle 0).vcore && u.home.mask == 0xFFE && (u.strait 0).st == .down)
    ∧ runs (.isleDryToRun 0 train) { (isleReq (fun x => { x with st := .dry, vcore := false, cond := .out }) (preq 0)) with home := {} } (fun u => (u.isle 0).st == .run && (u.isle 0).cond == .admitted && u.home.mask == 1) := by
  decide +kernel

theorem test_block_power : runs .harbourToDry (blockReq 0 (preq 3) base) (fun u => u.harbour.st == .dry) ∧ runs (.portBlockToDry 1) (blockReq 2 (preq 3) base) (fun u => (u.block 1).st == .dry)
    ∧ runs (.keystoneBlockToRun 0) { blockReq 0 (preq 0) base with harbour := { st := .dry, stream := { act := some (preq 0) } } } (fun u => u.harbour.st == .run && (sget {} u.ledger.claimed 48).hub == 24)
    ∧ runs (.keystoneBlockToRun 2) ((blockReq 2 (preq 0) base).modBlock 1 fun x => { x with st := .dry }) (fun u => (u.block 1).st == .run) := by decide +kernel

theorem test_lagoon : runs .lagoonEnter toLagoon (fun u => u.pwr.lagoon && !u.pwr.umfAwake && u.pwr.stream.saving)
    ∧ runs .lagoonExit { base with pwr := { lagoon := true, wakeName := some 0 } } (fun u => !u.pwr.lagoon && u.pwr.wakeName == none)
    ∧ runs .lagoonExit { nearly with pwr := { lagoon := true, wakeName := some 0 } } (fun u => u.pwr.lagoon && u.ledger.refused == 1) := by decide +kernel

theorem test_wake : runs (.wake (.core 0)) (waking { st := .slack }) (fun u => (u.core 0).st == .run) ∧ runs (.wake (.core 0)) (waking { st := .neap }) (fun u => (u.core 0).st == .run && (sget {} u.ledger.claimed 0).core == 8)
    ∧ runs (.wake (.core 0)) { waking { st := .neap } with pwr := { lagoon := true } } (fun u => u.pwr.wakeName == some 0 && u.pwr.wakesrc == 1) ∧ goes (.wake (.core 0)) base base
    ∧ runs (.portWake 1) { base with pwr := { lagoon := true, wakePort := 2 } } (fun u => u.pwr.wakeName.isSome && u.pwr.wakesrc == 17) ∧ goes (.portWake 0) { base with pwr := { lagoon := true, wakePort := 2 } } { base with pwr := { lagoon := true, wakePort := 2 } }
    ∧ runs (.smbusAddressMatch 0x5A) base (fun u => u.umf.sclHeld && u.pwr.umfAwake) := by decide +kernel

/-! ### Worlds and hand-overs -/

/-- The world filters as d; the Vault world may write them when enabled. -/
def wldAs (f : Worlds → Worlds) : State := { base with worlds := f {} }
/-- Region 0 over 16,384 nonets. -/
def region0 : Region := { lo := 4 }
def frame0 : State := wldAs fun d => { d with regions := [(0, region0)] }
/-- A unit that step 3 of a hand-over to the Vault world has locked. -/
def locked (c : HoClass) : State := wldAs fun d => { d with ho := some { unit := c, toV := true, mailbox := none, step := 3 } }

theorem witness_WorldHandOvers : base.mayWld who = false ∧ base.mayWld .umfoent = true ∧ hasBits (1 : W36) (bitsMask 35 2) = false ∧ region0.base + region0.len ≤ 0x8000000000000
    ∧ base.isleFit 0 = true ∧ (base.isle 0).cond = .admitted ∧ (base.isle 0).st = .run ∧ (locked (.engine 3)).worlds.ho ≠ none ∧ base.worlds.ho = none
    ∧ base.hoUnit 0 3 = some (.engine 3) ∧ base.hoUnit 1 8 = some (.port 8) ∧ base.hoUnit 2 9 = some (.part 1 1) ∧ base.hoUnit 3 13 = some (.site 1)
    ∧ base.hoCheck (.engine 3) = none ∧ base.hoCheck (.part 1 1) = some 2 ∧ base.harbour.st = .run ∧ (base.block 1).st = .run
    ∧ (serveIn base 64 [0, 3, 0]).umf.serving = some 0 ∧ ((serveIn base 64 [0, 3, 0]).box 0).cmd = 64 ∧ ((serveIn base 64 [0, 3, 0]).box 0).argN 2 = 3
    ∧ (serveIn base 64 [0, 3, 0]).unitBusy .handover = false ∧ ((serveIn base 64 [0, 3, 0]).box 0).handlesFull = false
    ∧ (locked (.engine 3)).worlds.ho = some { unit := .engine 3, toV := true, mailbox := none, step := 3 } ∧ ((locked (.port 8)).port 8).role ≠ 2
    ∧ ((endp id).port 0).role = 2 ∧ ({ endp id with harbour := {} } : State).epRings 0 = [] ∧ (locked (.engine 3)).hoQuiet (.engine 3) = true
    ∧ ((locked (.part 1 1)).setIsle 1 { base.isle 1 with cis := { cur := 2 } }).hoQuiet (.part 1 1) = true := by decide +kernel

theorem test_regions : runs (.wldRgnctlWrite .umfoent 3) frame0 (fun u => sget {} u.worlds.regions 0 == { region0 with en := true, vault := true } && u.worlds.gen == 1)
    ∧ goes (.wldRgnctlWrite who 3) frame0 frame0 ∧ goes (.wldRgnctlWrite .umfoent 7) frame0 frame0
    ∧ runs (.regionTableArrives 4) (wldAs fun d => { d with gen := 6, regions := [(0, { region0 with en := true })] }) (fun u => (u.isle 4).rgnGen == 6 && (u.isle 4).regions == u.worlds.regions && (u.isle 5).rgnGen == 0) := by
  decide +kernel

theorem test_handover_start : runs (.handoverEngine (.write .umfoent) 3 true []) (base.setEngine 3 { job := some (job9 0) }) (fun u => (u.engine 3).locked && (u.engine 3).job == none && !(u.engine 3).world
      && u.worlds.ho == some { unit := .engine 3, toV := true, mailbox := none, step := 3 })
    ∧ runs (.handoverPort (.write .umfoent) 8 true []) (base.setPort 8 { link := 2, out := [{ tag := 1, src := .who who, addr := 0, octets := 8, write := false }] }) (fun u => (u.port 8).link == 0 && (u.port 8).out == [] && (u.port 8).ans.length == 1)
    ∧ runs (.handoverPartition (.write .umfoent) 1 1 true []) base (fun u => u.worlds.ho == none && u.worlds.result == 2)
    ∧ runs (.handoverPartition (.write .umfoent) 1 1 true []) (base.setIsle 1 { base.isle 1 with cis := { cur := 2 } }) (fun u => u.worlds.ho.isSome)
    ∧ runs (.handoverGuestSite (.write .umfoent) 1 true []) { base with variant := .ty1920g } (fun u => u.worlds.ho.isSome && !(u.site 1).en)
    ∧ runs (.handoverEngine (.write .umfoent) 3 true []) (locked (.site 0)) (fun u => u.worlds.rej && !(u.engine 3).locked)
    ∧ goes (.handoverEngine (.write who) 3 true []) base base := by decide +kernel

theorem test_handover_command : runs (.handoverEngine (.mailbox 0) 3 false []) (serveIn base 64 [0, 3, 0]) (fun u => (u.engine 3).locked && u.umf.serving == none && handled u .handover none && u.worlds.ho == some { unit := .engine 3, toV := false, mailbox := some 0, step := 3 })
    ∧ goes (.handoverEngine (.mailbox 0) 4 false []) (serveIn base 64 [0, 3, 0]) (serveIn base 64 [0, 3, 0])
    ∧ runs (.handoverEngine (.mailbox 0) 3 false []) (serveIn (locked (.site 0)) 64 [0, 3, 0]) (fun u => u.worlds.rej && sget 0 (u.box 0).buf 0 == (respHead 0 0 6).setWidth 36) := by decide +kernel

theorem test_handover_ends : runs .handoverQuiesced ((locked (.engine 3)).setEngine 3 { locked := true, timed := true }) (fun u => u.engine 3 == { world := true } && u.worlds.result == 1 && u.evr.travel.map (fun r => (r.code, r.p0, r.p1, r.p3, r.world)) == [(0o011001, 0, 3, 1, true)])
    ∧ runs .handoverQuiesced ((locked (.port 8)).setPort 8 { wins := [(0, { en := true })], intxen := true }) (fun u => (u.port 8).wins == [] && !(u.port 8).intxen && u.worlds.portown == 256)
    ∧ runs .handoverQuiesced ((locked (.part 1 1)).setIsle 1 { base.isle 1 with cis := { cur := 2, mem := [(partSize, 5)] } }) (fun u => (u.isle 1).cis.mem == [] && (u.isle 1).cis.partworld == 2)
    ∧ runs .handoverQuiesced ((locked (.site 1)).setSite 1 { en := true, wins := [(0, { en := true })], refuse := 3 }) (fun u => u.site 1 == { link := 1, refuse := 3 } && u.worlds.guestown == 2) := by decide +kernel

/-! ### Umfoent's information, policies, identity and lock -/

/-- Word 0 of a response as the buffer holds it. -/
def answered (u : State) (len : Nat) (st : BitVec 8) (ws : List (BitVec 36)) : Bool :=
  sget 0 (u.box 0).buf 0 == (respHead len 0 st).setWidth 36 && (List.range ws.length).all (fun k => sget 0 (u.box 0).buf (k + 1) == ws.getD k 0) && (u.box 0).donePend && u.umf.serving == none
/-- Mailbox 0 of base serves command c, Umfoent's state as f makes it. -/
def umfAs (f : Umf → Umf) (c : Nat) (args : List Nat) : State := let s := serveIn base c args; { s with umf := f s.umf }
def boxAs (f : Mailbox → Mailbox) : State := base.setBox 0 (f (base.box 0))
def open1 : Handle := { num := 0x0001, unit := .isle 3, cmd := 50 }

theorem witness_MailboxCommands : base.umfServes = true ∧ base.umf.serving = none ∧ arbitrate 16 0 (fun k => ((boxAs fun x => x.write 0 0x80000001).box k).busy) = some 0
    ∧ (boxAs fun x => x.write 0 0x80000001).umfRefuses ((boxAs fun x => x.write 0 0x80000001).box 0) = none ∧ (boxAs fun x => x.write 0 0x80000063).umfRefuses ((boxAs fun x => x.write 0 0x80000063).box 0) = some (2, [])
    ∧ base.boxMay who 0 = true ∧ (base.box 0).busy = false ∧ hasBits (0 : W36) (bitsMask 35 32 ||| bitsMask 17 2) = false ∧ fld (0 : W36) 31 22 < 576 ∧ (boxAs fun x => { x with path := 1 }).boxMay who 0 = false
    ∧ (serveIn base 4 [71]).umf.serving = some 0 ∧ ((serveIn base 4 [71]).box 0).cmd = 4 ∧ ((serveIn base 4 [71]).box 0).argN 1 = (11 : Fin 12).val * 6 + (5 : Fin 6).val ∧ ((serveIn base 4 [160, 36]).box 0).argN 2 = 36
    ∧ (lit id).lh.setbusy = false ∧ (lit id).lh.run = true ∧ (lit id).lh.epoch ≠ 255 ∧ base.unitBusy .lhSet = false ∧ ((serveIn base 8 [0, 0]).box 0).handlesFull = false
    ∧ (boxAs fun x => { x with handles := [{ open1 with res := some (0, 0) }] }).box 0 ≠ {} ∧ ((boxAs fun x => { x with handles := [{ open1 with res := some (0, 0) }] }).box 0).handles.find? (fun h => h.res.isSome && !h.queued) = some { open1 with res := some (0, 0) }
    ∧ base.umf.fails.toNat < 8 ∧ 8 ≤ (umfAs (fun m => { m with fails := 9, lastChal := some (0, 0) }) 18 [1, 0]).umf.fails.toNat ∧ base.lh.count.toNat < (0 : BitVec 64).toNat + 40000000000 ∧ base.lh.epoch = 0
    ∧ (umfAs (fun m => { m with nonce := some 5, sigR := some 7 }) 19 [1]).umf.nonce = some 5 ∧ (umfAs (fun m => { m with scopes := 2 }) 21 [0]).umf.scopes.getLsbD 1 = true := by decide +kernel

theorem test_serve : runs .mailboxServe (boxAs fun x => x.write 0 0x80000001) (fun u => u.umf.serving == some 0 && u.umf.ptr == 1)
    ∧ runs .mailboxServe (boxAs fun x => x.write 0 0x80000063) (fun u => u.umf.ptr == 1 && answered u 0 2 [])
    ∧ runs (.mailboxReqWrite who 0 0x80000001) (boxAs fun x => { x with donePend := true }) (fun u => (u.box 0).busy && !(u.box 0).donePend)
    ∧ runs (.umfMbintWrite who 0 0x8FFE40002) (boxAs id) (fun u => u == boxAs id)
    ∧ runs (.umfMbintWrite who 0 0x08FFC0002) (boxAs fun x => { x with cplPend := true, donePend := true }) (fun u => (u.box 0).intthr == 575 && (u.box 0).intcls == 7 && (u.box 0).inten && !(u.box 0).cplPend && (u.box 0).donePend) := by
  decide +kernel

theorem test_information : runs (.info 0) (umfAs (fun m => { m with verA := 3, verB := 4, standby := true }) 1 []) (fun u => answered u 5 0 [Variant.pkginfo .ty2304, Variant.fitmap .ty2304, Variant.chanmap .ty2304, 3, 4])
    ∧ runs (.cplRead 0) (let s := serveIn base 2 []; s.setBox 0 { s.box 0 with queue := [0x00010000, 0x00020700], handles := [{ open1 with queued := true }], cplPend := true })
        (fun u => answered u 3 0 [2, 0x00010000, 0x00020700] && (u.box 0).queue == [] && (u.box 0).handles == [] && !(u.box 0).cplPend)
    ∧ runs (.handleStatus 0) (let s := serveIn base 3 [1]; s.setBox 0 { s.box 0 with handles := [open1] }) (fun u => answered u 1 0 [1])
    ∧ runs (.handleCompletion 0) (boxAs fun x => { x with handles := [{ open1 with res := some (7, 1) }] }) (fun u => (u.box 0).queue == [0x00010701] && (u.box 0).cplPend && (u.box 0).handles.map (·.queued) == [true])
    ∧ runs (.handleCompletion 0) (boxAs fun x => { x with handles := [{ open1 with res := some (7, 1), drop := true }] }) (fun u => (u.box 0).handles == [] && (u.box 0).queue == []) := by decide +kernel

theorem test_sensors : runs (.sensorRead 0) (let s := serveIn base 4 [71]; s.setIsle 11 { s.isle 11 with temps := [(5, 0x0190)], tempMax := [(5, 0xFFF0)] }) (fun u => answered u 3 0 [0x190, 0, 0xFFFFFFF0])
    ∧ runs (.sensorRead 0) (let s := serveIn base 4 [95]; { s with umf := { s.umf with keyTemps := [(23, 0x640)] } }) (fun u => answered u 3 0 [0x640, 0, 0])
    ∧ runs (.sensorRead 0) (serveIn base 4 [160, 37]) (fun u => answered u 0 3 []) ∧ runs (.sensorRead 0) (serveIn base 4 [200]) (fun u => answered u 0 3 []) := by decide +kernel

theorem test_policies : runs (.lhSet 0) (let s := serveIn base 8 [7, 1]; { s with lh := { run := true, count := 5 } }) (fun u => u.lh.setbusy && u.lh.applyAt == 80005 && u.lh.applyVal == 0x100000007 && handled u .lhSet none)
    ∧ runs (.lhSet 0) (let s := serveIn base 8 [7, 1]; { s with lh := { run := true, setbusy := true } }) (fun u => answered u 0 6 [])
    ∧ runs (.lhSlew 0) (serveIn base 9 [0xFFFFFF]) (fun u => u.lh.slew == 0xFFFFFF && answered u 0 0 []) ∧ runs (.lhPolicy 0) (serveIn base 10 [1]) (fun u => u.lh.courtwr && u.board.flash.courtwr)
    ∧ runs (.brgSetlimit 0) (serveIn base 12 [3280, 1200]) (fun u => answered u 0 0 []) ∧ runs (.brgSetlimit 0) (serveIn nearly 12 [3278, 1200]) (fun u => u.ledger == nearly.ledger && answered u 0 3 [])
    ∧ runs (.brgSetlimit 0) (serveIn nearly 12 [3279, 1199]) (fun u => u.ledger.limCore == 3279 && u.ledger.limHub == 1199) ∧ runs (.islePolicy 0) (serveIn base 13 [0xFFF]) (fun u => u.umf.islePolicy == 0xFFF && u.board.flash.islePolicy == 0xFFF) := by
  decide +kernel

theorem test_lock : runs (.unlockChallenge 0 0x0102) (serveIn base 18 [5, 0]) (fun u => u.umf.nonce == some 0x0102 && u.umf.nonceScope == 5 && !u.umf.nonceKey && answered u 8 0 [0, 0, 0, 0, 0, 0, 0, 0x02010000])
    ∧ runs (.unlockChallenge 0 1) (umfAs (fun m => { m with fails := 8, lastChal := some (0, 0) }) 18 [5, 0]) (fun u => u.umf.nonce == none && answered u 0 6 [])
    ∧ runs .nonceExpire (umfAs (fun m => { m with nonce := some 1 }) 0 []) (fun u => u.umf.nonce == none) ∧ runs (.unlockResponse 0) (serveIn base 19 [0]) (fun u => answered u 0 3 [])
    ∧ runs (.unlockResponse 0) (umfAs (fun m => { m with nonce := some 1 }) 19 [0, 1]) (fun u => u.umf.sigR.any fun r => r.getLsbD 376 && !r.getLsbD 377)
    ∧ runs (.lock 0) (umfAs (fun m => { m with lock := 1, scopes := 7 }) 20 []) (fun u => u.umf.lock == 0 && u.umf.scopes == 0) ∧ runs (.ownerEnroll 0) (serveIn base 21 [0]) (fun u => answered u 0 5 [])
    ∧ runs (.ownerEnroll 0) (umfAs (fun m => { m with scopes := 2 }) 21 [0, 0x80]) (fun u => u.umf.ownerX.any fun r => r.getLsbD 383 && !r.getLsbD 376) := by decide +kernel

/-- What the commands answer from uninterpreted values: certificates, measurements and signatures. -/
theorem test_identity : ∃ u, exec (.idCert 0) (serveIn base 16 [3, 0]) = .next u ∧ ∃ v, exec (.idMeasure 0) (serveIn base 17 [4]) = .next v ∧ v.free = 0 := ⟨_, rfl, _, rfl, rfl⟩

/-! ### Umfoent's Isles, images, ports and the recorder -/

/-- Isle 0 out of the package without VCORE, mailbox 0 serving command c for it. -/
def outIsle (f : Isle → Isle) (c : Nat) : State :=
  let s := serveIn ({ isleAs (fun x => f { x with cond := .out, st := .dry, vcore := false }) with home := { mask := 0xFFE } }) c [0]
  s.setStrait 0 { st := .down }
def image : ImageIn := { sigOk := true, version := 9, security := 4, digest := 5 }
/-- Mailbox 0 serves command c with an image of 64 nonets in held line 7, security floor 4. -/
def staged (c : Nat) (args : List Nat) : State := let s := serveIn (chanAs id) c (448 :: 0 :: 64 :: args); { s with umf := { s.umf with floor := 4 } }
def updating (f : Isle → Isle) : State := let s := isleAs fun x => f { x with umfLock := true, parked := true }
  { s with umf := { s.umf with ucode := some { mailbox := 0, todo := [0], version := 9, digest := 5 } } }
def evrAs (f : Evr → Evr) : State := { base with evr := f {} }

theorem witness_MachineServices : ((serveIn base 48 [11, 3]).box 0).argN 1 = (11 : Fin 12).val ∧ (serveIn base 48 [11, 3]).isleFit 11 = true ∧ (serveIn base 48 [11, 3]).unitBusy (.isle 11) = false ∧ ((serveIn base 48 [11, 3]).isle 11).st = .run
    ∧ ((outIsle (fun x => { x with cond := .severed }) 49).isle 0).cond ≠ .admitted ∧ ((outIsle (fun x => { x with cond := .severed }) 49).isle 0).cond ≠ .out ∧ ((outIsle (fun x => { x with cond := .severed }) 49).isle 0).vcore = false ∧ claimOk (outIsle (fun x => { x with cond := .severed }) 49).ledger 40 0 = true ∧ claimOk ((outIsle (fun x => { x with cond := .severed }) 49).claim 0 40 0).1.ledger 16 40 = true
    ∧ ((outIsle (fun x => { x with cond := .severed }) 49).isle 0).idigest = ((outIsle (fun x => { x with cond := .severed }) 49).strait 0).refDigest ∧ train.okI = BitVec.allOnes 104 ∧ train.ofs.toInt.natAbs ≤ 8 ∧ claimOk nearly.ledger 40 0 = false
    ∧ ((serveIn base 50 [0]).box 0).path = 0 ∧ (serveIn base 50 [0]).isleVault 0 = false ∧ (serveIn (base.setThread 0 { vault := true, mode := .running }) 50 [0]).isleVault 0 = true
    ∧ ((outIsle (fun x => { x with cond := .offline }) 51).isle 0).cond = .offline ∧ ((staged 52 [1]).box 0).argN 4 = 2 ^ (0 : Fin 12).val ∧ (staged 52 [1]).unitBusy .ucode = false
    ∧ ((staged 52 [1]).readImage 448 64).2 = some true ∧ ((staged 52 [1]).readImage 448 64).1.umf = (staged 52 [1]).umf ∧ (({ staged 52 [1] with home := { (staged 52 [1]).home with txns := [(7, { req := readReq, memWait := true })] } } : State).readImage 448 64).2 = none ∧ ((staged 52 [1]).box 0).argN 1 = 448 ∧ ((staged 52 [1]).box 0).argN 2 = 0 ∧ ((staged 52 [1]).box 0).argN 3 = 64
    ∧ image.sigOk = true ∧ (staged 52 [1]).umf.floor.toNat ≤ image.security.toNat ∧ (updating id).umf.ucode = some { mailbox := 0, todo := [0], version := 9, digest := 5 }
    ∧ ((updating id).isle 0).st ≠ .neap ∧ (List.range 24).all (fun c => !(updating id).coreLaunch c) = true ∧ (updating id).isleDrained 0 = true ∧ (serveIn base 50 [0]).mayDry 0 = true ∧ train.report = none ∧ ((serveIn base 50 [0]).isle 0).cond = .admitted ∧ blockLegal 8 0x101 0x11 = true ∧ blockLegal 127 0x5555 0 = true ∧ blockLegal 1 0x5555 0 = false ∧ blockLegal 4 0 0 = false
    ∧ (portsOf 8).all (fun p => 0x101 / 4 ^ p.1 % 4 != 2) = true ∧ (List.range 12).all (fun k => (serveIn base 60 [1, 16, 0x101, 0x11]).epPort k == none) = true ∧ (serveIn base 60 [1]).unitBusy (.block 1) = false
    ∧ (evrAs fun e => { e with clearing := true }).evr.clearing = true ∧ (serveIn base 81 []).umf.standby = false := by
  decide +kernel

theorem test_isle_release : runs (.isleRelease 0) (serveIn base 48 [0, 1, 0x4002, 1]) (fun u => (u.thread 0).pc == 0x100004000 && (u.thread 1).npc == 0x100004004 && (u.thread 0).mode == .running && (u.thread 2).mode == .stopped && answered u 0 0 [])
    ∧ runs (.isleRelease 0) (serveIn (outIsle id 48) 48 [0, 1]) (fun u => answered u 0 3 []) := by decide +kernel

theorem test_isle_admit : runs (.isleAdmit 0 train) (outIsle (fun x => { x with cond := .severed }) 49) (fun u => (u.isle 0).cond == .admitted && u.home.mask == 0xFFF && (u.strait 0).armed && handled u (.isle 0) (some (0, 1)))
    ∧ runs (.isleAdmit 0 train) { outIsle (fun x => { x with cond := .severed }) 49 with ledger := nearly.ledger } (fun u => (u.isle 0).cond == .severed && handled u (.isle 0) (some (7, 1)))
    ∧ runs (.isleAdmit 0 train) (serveIn base 49 [0]) (fun u => answered u 0 3 [])
    ∧ runs (.isleOffline 0) (serveIn base 50 [0]) (fun u => (u.isle 0).st == .dry && (u.isle 0).cond == .offline && u.home.mask == 0xFFE && (u.isle 0).umfLock && handled u (.isle 0) (some (0, 0)))
    ∧ runs (.isleOffline 0) (serveIn (base.setThread 0 { vault := true, mode := .running }) 50 [0]) (fun u => (u.isle 0).st == .run && answered u 1 7 [2])
    ∧ runs (.isleOnline 0 train) (outIsle (fun x => { x with cond := .offline, umfLock := true }) 51) (fun u => (u.isle 0).cond == .admitted && !(u.isle 0).umfLock && handled u (.isle 0) (some (0, 0)))
    ∧ runs (.isleOnline 0 train) (serveIn base 51 [0]) (fun u => answered u 0 3 []) := by decide +kernel

theorem test_microcode : runs (.ucodeLoad 0 image) (staged 52 [1]) (fun u => u.umf.ucode == some { mailbox := 0, todo := [0], version := 9, digest := 5 } && u.umf.altValid && u.umf.alt == 9 && (u.isle 0).parked && handled u .ucode none)
    ∧ runs (.ucodeLoad 0 { image with security := 3 }) (staged 52 [1]) (fun u => u.umf.ucode == none && handled u .ucode (some (9, 2))) ∧ runs (.ucodeLoad 0 { image with sigOk := false }) (staged 52 [1]) (fun u => handled u .ucode (some (9, 1)))
    ∧ runs (.ucodeIsleParked true) (updating id) (fun u => u.umf.ucode == none && (u.isle 0).iver == 9 && !(u.isle 0).parked && u.umf.admref == 9 && u.board.flash.ucode == 9 && u.evr.travel.map (fun r => (r.code, r.p0, r.p1)) == [(0o013005, 9, 0)])
    ∧ runs (.ucodeIsleParked false) (updating id) (fun u => (u.isle 0).cond == .quarantined && u.home.mask == 0xFFE) := by decide +kernel

theorem test_firmware : runs (.fwStage 0 image true) (staged 80 []) (fun u => u.umf.standby && u.umf.verB == 9 && u.board.flash.slotB == 9 && handled u .firmware (some (0, 0))) ∧ runs (.fwStage 0 image false) (staged 80 []) (fun u => !u.umf.standby && handled u .firmware (some (9, 3)))
    ∧ runs (.fwStage 0 { image with sigOk := false } true) (staged 80 []) (fun u => handled u .firmware (some (9, 1))) ∧ runs (.fwSwap 0 true) (umfAs (fun m => { m with standby := true, verB := 9 }) 81 []) (fun u => u.umf.active && !u.umf.standby && u.board.flash.bootB && handled u .firmware (some (0, 0)))
    ∧ runs (.fwSwap 0 false) (umfAs (fun m => { m with standby := true }) 81 []) (fun u => !u.umf.active && u.umf.standby && handled u .firmware (some (9, 0))) ∧ runs (.fwSwap 0 true) (serveIn base 81 []) (fun u => answered u 0 3 []) := by decide +kernel

theorem test_port_config : runs (.portConfig 0) (serveIn (base.setPort 8 { link := 2 }) 60 [1, 16, 0x101, 0x11]) (fun u => (u.block 1).bound == 8 && (u.port 8).role == 1 && (u.port 12).role == 1 && (u.port 8).cxl && (u.port 12).cxl && (u.port 8).link == 0
      && sget 0 u.board.flash.bounds 1 == 8 && handled u (.block 1) (some (0, 0)))
    ∧ runs (.portConfig 0) (serveIn base 60 [1, 8, 0, 0]) (fun u => answered u 0 3 []) := by decide +kernel

theorem test_evr_clear : runs (.evrClear 0) (umfAs (fun m => { m with scopes := 4, lock := 2 }) 72 []) (fun u => u.evr.clearing && u.evr.clearBy == 1 && u.evr.clearBox == 0 && handled u .recorder none) ∧ runs (.evrClear 0) (umfAs (fun m => { m with scopes := 3 }) 72 []) (fun u => answered u 0 5 [])
    ∧ runs .evrClearDone (evrAs fun e => { e with clearing := true, seq := 77, ffill := 77, clearBy := 1, clearBox := 3, queue := [{}] }) (fun u => !u.evr.clearing && u.evr.seq == 1 && u.evr.ffill == 1 && u.evr.queue == [{}]
        && (let r := sget {} u.evr.slots 0; (r.code, r.p0, r.p1, r.p2) == (1, 77, 1, 3))) := by decide +kernel

/-! ### The sideband, the recorder and registers -/

/-- Mailboxes 10 and 11 have the SMBus path. -/
def smb : State := { base with umf := { base.umf with boxes := [(10, { path := 2 }), (11, { path := 2, buf := [(0, 0x04030201)] })], sclHeld := true } }
def rec1 : Rec := { code := 0o001020, src := 3, p0 := 5 }

theorem witness_SidebandRecorderAndRegisters : smb.umfServes = true ∧ smb.smbBox 0 = some 10 ∧ smb.smbBox 1 = some 11 ∧ ((base.setPort 8 { link := 2 }).port 8).link = 2
    ∧ (evrAs fun e => { e with travel := [rec1] }).evr.travel = [rec1] ∧ (evrAs fun e => { e with queue := List.replicate 256 rec1 }).evr.queue.length = 256
    ∧ (evrAs fun e => { e with queue := [rec1] }).evr.queue = rec1 :: [] ∧ (evrAs fun e => { e with queue := [rec1], clearing := true }).evr.clearing = true ∧ (evrAs fun e => { e with seqsat := true }).evr.seqsat = true
    ∧ base.isleGate who 11 = (base, some .ok) ∧ base.keyGate who (0x10000000 * 12 + 116) = (base, some .ok) ∧ base.keyGate who (0x10000000 * 8 + 0x10) = (base, some .ok)
    ∧ (sget {} (base.sndOf .keystone) 7).vw = false ∧ hasBits (0xFFFFFF : W36) (bitsMask 35 24) = false := by decide +kernel

theorem test_sideband : runs (.smbusMctpWrite [1, 2] true) smb (fun u => u.umf.mctp == [[1, 2]] && !u.umf.sclHeld) ∧ runs (.smbusMctpWrite [1, 2] false) smb (fun u => u.umf.mctp == [] && !u.umf.sclHeld)
    ∧ runs (.smbusMailboxWrite 0 [1, 2, 3, 4, 5] true) smb (fun u => sget 0 (u.box 10).buf 0 == 0x04030201 && (sget 0 (u.box 10).buf 1).toNat % 256 == 5) ∧ runs (.smbusMailboxRead 1) smb (fun u => u.umf.smbOut.take 5 == [1, 2, 3, 4, 0] && u.umf.smbOut.length == 64)
    ∧ runs (.smbusMailboxWrite 0 [1] false) smb (fun u => (u.box 10).buf == []) := by decide +kernel

/-- SPDM bodies are uninterpreted: the test tells the response's first octets. -/
theorem test_spdm : (∃ u, exec (.getVersion .smbus) base = .next u ∧ (u.umf.spdm.map fun b => b.take 2) = [[0x10, 0x04]]) ∧ (∃ u, exec (.getCapabilities .smbus) base = .next u ∧ (u.umf.spdm.map fun b => b.take 2) = [[0x13, 0x61]])
    ∧ (∃ u, exec (.getDigests .smbus) base = .next u ∧ (u.umf.spdm.map fun b => b.take 2) = [[0x13, 0x01]]) ∧ (∃ u, exec (.negotiateAlgorithms .smbus 0x80 1) base = .next u ∧ u.umf.spdm = [[0x13, 0x7F, 0x01, 0x00]])
    ∧ (∃ u, exec (.getCertificate .smbus 1 0 0) base = .next u ∧ u.umf.spdm = [[0x13, 0x7F, 0x01, 0x00]]) ∧ (∃ u, exec (.challenge .smbus 0 5) base = .next u ∧ (u.umf.spdm.map fun b => b.take 2) = [[0x13, 0x03]])
    ∧ (∃ u, exec (.getMeasurements .smbus 0) base = .next u ∧ (u.umf.spdm.map fun b => b.take 3) = [[0x13, 0x60, 6]]) :=
  ⟨⟨_, rfl, rfl⟩, ⟨_, rfl, rfl⟩, ⟨_, rfl, rfl⟩, ⟨_, rfl, rfl⟩, ⟨_, rfl, rfl⟩, ⟨_, rfl, rfl⟩, ⟨_, rfl, rfl⟩⟩

theorem test_recorder : runs (.recordArrives 1) (evrAs fun e => { e with travel := [rec1] }) (fun u => u.evr.queue == [rec1] && u.evr.travel == [] && u.evr.ptr == 4)
    ∧ runs (.recordArrives 1) (evrAs fun e => { e with travel := [rec1], queue := List.replicate 256 {}, lost := 0xFFFF }) (fun u => u.evr.queue.length == 256 && u.evr.dropcnt == 1 && u.evr.lost == 0xFFFF)
    ∧ runs .recordStore (evrAs fun e => { e with queue := [rec1, {}], seq := 4095, ffill := 4095, lost := 3 }) (fun u => sget {} u.evr.slots 4095 == { rec1 with seq := 4095, lost := 3 } && u.evr.ffill == 4096 && u.evr.lost == 0 && u.evr.queue == [{}])
    ∧ runs .recordStore (evrAs fun e => { e with queue := [rec1], seq := 32768, ffill := 4096 }) (fun u => (sget {} u.evr.slots 4096).seq == 32768 && u.evr.tnext == 1 && u.evr.ffill == 4096)
    ∧ runs .recordStore (evrAs fun e => { e with queue := [rec1], seq := BitVec.allOnes 44 }) (fun u => u.evr.seqsat) ∧ runs .recordStore (evrAs fun e => { e with queue := [rec1], seqsat := true }) (fun u => u.evr.slots == [] && u.evr.dropcnt == 1)
    ∧ runs (.evrWindowRead who 0) (evrAs fun e => { e with slots := [(2, rec1)], court := { slot := 2 } }) (fun u => u.evr.court.shadow == rec1 && u.evr.vault.shadow == {})
    ∧ runs (.evrWindowRead who 15) (evrAs fun e => { e with slots := [(2, rec1)], court := { slot := 2, auto := true } }) (fun u => u.evr.court.slot == 3 && u.evr.court.shadow == {}) := by decide +kernel

theorem test_registers : runs (.sndUloRead who (.isle 11) 7) (base.setSnd (.isle 11) 7 { count := 0x123456789ABC }) (fun u => (sget {} (u.isle 11).snd 7).uhi == 0x123456) ∧ runs (.sndUloWrite who .keystone 7 0xFFFFFF) (base.setSnd .keystone 7 { count := 0x123456789ABC }) (fun u => (sget {} u.snd 7).count == 0xFFFFFF)
    ∧ runs (.registerWrite who 0xFF01080000010 7) base (fun u => u.pwr.tlo == 7) ∧ goes (.registerWrite who 0xFF01080000010 0x100000000) base base ∧ goes (.registerWrite who 0xFF00E00000000 7) base base
    ∧ runs (.registerWrite who (BitVec.ofNat 52 (isleReg 11 3 0)) 7) base (fun u => (u.isle 11).tlo == 7) := by decide +kernel

/-! ### Start-up, reset and fatal -/

/-- The package at start-up step k. -/
def starts (k : Nat) (f : State → State) : State := f { home := { mask := 0xFFF }, board := { step := k, slotsLost := false }, evr := { seq := 3, slots := [(1, rec1)] } }
def stopsAt (c : Instr) (s : State) (k : Nat) (reason : BitVec 8) : Bool := runs c s fun u => u.board.stopped == some reason && u.board.step == k
def dead (c : Instr) (s : State) (d : BitVec 8) : Bool := runs c s fun u => u.board.fatal == some d && u.cores == [] && u.chans == [] && !u.board.vkey && u.evr == s.evr
def powered (f : Board → Board) : State := { base with board := f { base.board with vkey := true, vddq := true, vserdes := true } }

theorem witness_StartUpResetAndFatal : (starts 1 id).board.starting = true ∧ (starts 1 id).board.step = 1 ∧ (starts 1 id).board.slotsLost = false ∧ (starts 4 id).home.mask ≠ 0 ∧ (starts 1 id).board.resetHeld = false
    ∧ (starts 1 fun s => { s with board := { s.board with resetHeld := true } }).board.starting = false ∧ (starts 5 fun s => { s with board := { s.board with flash := { excluded := 8 } } }).chanFit 3 = true
    ∧ ((starts 6 fun s => s.setChan 0 { st := .filling, cap := 32 }).chan 0).st = .filling ∧ ((starts 6 fun s => s.setChan 0 { st := .filling, cap := 32 }).chan 1).st = .empty ∧ (starts 6 id).board.flash.court.lines = []
    ∧ (powered id).board.vkey = true ∧ (powered id).pwr.lagoon = false ∧ ((powered id).isle 0).vcore = true ∧ (powered id).isleFit 11 = true ∧ (71 : Fin 96).val / 6 = (11 : Fin 12).val ∧ 72 ≤ (72 : Fin 96).val ∧ (starts 3 id).board.step ≤ 3
    ∧ ((starts 5 fun s => s.setChan 0 { bearwait := true }).chans.any fun c => c.2.bearwait) = true ∧ ((starts 5 id).chans.any fun c => c.2.bearwait) = false ∧ claimOk (starts 3 id).ledger 0 160 = true
    ∧ claimOk ({ starts 3 id with ledger := nearly.ledger } : State).ledger 0 160 = false ∧ claimOk (starts 7 id).ledger 0 24 = true ∧ claimOk nearly.ledger 0 24 = false := by
  decide +kernel

theorem test_power_on : runs (.powerOn 5 true) { starts 7 id with umf := { floor := 3 } } (fun u => u.board.step == 1 && u.board.smbAddr == 5 && u.umf.floor == 3 && u.home.mask == 0 && u.evr.slots == [(1, rec1)] && u.evr.seq == 3)
    ∧ runs (.powerOn 5 false) (starts 7 id) (fun u => u.evr == {} && u.board.slotsLost) ∧ runs .pkgResetAssert base (fun u => u.board.resetHeld)
    ∧ runs (.pkgResetRelease 9999 5) (starts 7 fun s => { s with board := { s.board with resetHeld := true } }) (fun u => !u.board.resetHeld && u.board.step == 7)
    ∧ runs (.pkgResetRelease 10000 5) (starts 7 fun s => { s with board := { s.board with resetHeld := true, thermtrip := true } }) (fun u => !u.board.resetHeld && u.board.step == 2 && u.board.thermtrip && u.evr.slots == [(1, rec1)] && u.home.mask == 0)
    ∧ goes (.pkgResetRelease 10000 5) (starts 7 id) (starts 7 id) := by decide +kernel

theorem test_startup_steps : runs (.startupStep (.step1 55)) (starts 1 id) (fun u => u.board.step == 2 && u.evr.travel.map (fun r => (r.code, r.p0)) == [(9, 55)]) ∧ stopsAt (.startupStep (.step2 0 false false true true)) (starts 2 id) 2 1 ∧ stopsAt (.startupStep (.step2 0 true true false true)) (starts 2 id) 2 2
    ∧ runs (.startupStep (.step2 0 true true true true)) (starts 2 fun s => { s with board := { s.board with flash := { bootB := true, ucode := 8, roles := [(8, 2)], bounds := [(1, 8)] } } })
        (fun u => u.board.step == 3 && u.umf.active && u.umf.ucodeVer == 8 && (u.port 8).role == 2 && (u.block 1).bound == 8 && (u.box 6).path == 1 && (u.box 12).path == 3 && !u.board.vaultOk)
    ∧ stopsAt (.startupStep (.step3 0 false [])) (starts 3 id) 3 4 ∧ runs (.startupStep (.step3 0 true [1, 2])) (starts 3 id) (fun u => u.board.step == 4 && u.board.vddq && (u.strait 1).refDigest == 2 && (u.isle 1).idigest == 2 && (u.isle 0).idigest == 1 && (sget {} u.ledger.claimed 49).hub == 160)
    ∧ stopsAt (.startupStep (.step4 0 [])) (starts 4 fun s => { s with home := {} }) 4 5 ∧ runs (.startupStep (.step4 0 [(3, train)])) (starts 4 fun s => { s with home := {} }) (fun u => u.board.step == 5 && u.home.mask == 8 && (u.isle 3).cond == .admitted)
    ∧ runs (.startupStep (.step5 0 [] [])) (starts 5 fun s => { s with board := { s.board with flash := { excluded := 8 } } }) (fun u => u.board.step == 6 && (u.chan 3).st == .excluded) := by decide +kernel

theorem test_startup_ends : stopsAt (.startupStep (.step6 0 [])) (starts 6 id) 6 6 ∧ runs (.startupStep (.step6 0 [])) (starts 6 fun s => s.setChan 0 { st := .filling, cap := 32 }) (fun u => u.board.step == 7 && (u.chan 0).st == .run && u.memTop == 32768 && u.memSets == [{ base := 0, members := 1, depth := 32768 }])
    ∧ stopsAt (.startupStep (.step7 0 0 [] 0 [])) (starts 7 fun s => { s with home := {} }) 7 5 ∧ stopsAt (.startupStep (.step7 0 3 [] 0 [])) (starts 7 id) 7 7 ∧ runs (.startupStep (.step7 0 0 [4, 5] 6 [])) (starts 7 id) (fun u => u.board.step == 8 && u.lh.run && u.keys.vaultKey == 6 && sget 0 u.keys.ctxKeys 1 == 5 && !u.worlds.vaulten)
    ∧ runs (.startupStep (.step8 0)) { base with board := { step := 8, flash := { court := { load := 0, entry := 0x4000, lines := [] } } }, cores := [], isles := [(2, { st := .run, cond := .admitted, vcore := true })] }
        (fun u => u.board.step == 9 && (u.core 48).st == .run && (u.thread 96).mode == .running && (u.thread 96).pc == 0x4000 && (u.thread 97).mode == .stopped && (u.core 0).st == .dry) := by decide +kernel

theorem test_fatal : dead (.railOutOfRange .vkey) (powered id) 8 ∧ dead (.railOutOfRange .vddq) (powered fun b => { b with fatal := some 9 }) 9 ∧ dead (.railOutOfRange .vserdes) (powered id) 8 ∧ goes (.railOutOfRange .vkey) base base ∧ dead (.railOutOfRange .vfuse) (starts 3 id) 8
    ∧ goes (.railOutOfRange .vfuse) (starts 4 id) (starts 4 id) ∧ runs (.railOutOfRange (.vcore 11)) (base.modStrait 11 fun x => { x with armed := true }) (fun u => (u.strait 11).due == some .severed && (u.isle 11).mute) ∧ runs (.railOutOfRange .vaux) base (fun u => !u.board.vaux && u.board.step == 0 && u.evr == {} && u.board.slotsLost)
    ∧ dead .refclkLoss base 9 ∧ dead (.thermalTrip 71) base 10 ∧ runs (.thermalTrip 72) base (fun u => u.board.thermtrip && u.board.fatal == some 10) ∧ runs (.pmbAlert true) base (fun u => u.board.pmbAlert) := by decide +kernel

/-! ### Every command -/

/-- One step from s answers a next state of which p holds. -/
def steps (s : State) (p : State → Bool) : Bool :=
  match step s with
  | .next u => p u
  | .fault _ | .refused _ => false

theorem witness_IdleStepIsOneCycle : base.pending = [] ∧ base.lh.run = false ∧ (lit id).lh.run = true ∧ (lit id).pending = [] := by decide +kernel
theorem test_idle : steps base (fun u => u == base) ∧ steps (lit id) (fun u => u.lh.count == 1008 && (u.isle 0).lhCount == 1008) := by decide +kernel
theorem test_queue : steps { base with pending := [.pmbAlert true, .refclkLoss] } (fun u => u == { base with pending := [.refclkLoss], board := { base.board with pmbAlert := true } }) := by decide +kernel

theorem witness_CommandsLeaveTheQueue : goes (.pmbAlert true) base { base with board := { base.board with pmbAlert := true } } := by decide +kernel
theorem witness_ThreadsStayLegal : ThreadsLegal State.reset ∧ steps State.reset (fun u => u == State.reset) := ⟨fun _ => (by decide +kernel : ({} : Thread).legal = true), by decide +kernel⟩
theorem witness_MemoryStaysCanonical : Memory.wf ({ chanAs id with pending := [.dramWrite 0] } : State) ∧ steps { chanAs id with pending := [.dramWrite 0] } (fun _ => true) := by decide +kernel
theorem witness_DecodeOfEncode : wellFormed (.addi 575 1 2 3) = true ∧ instrThread (.addi 575 1 2 3) = some 575 ∧ (∀ v, Instr.addi 575 1 2 3 ≠ .illegalInstruction 575 v) ∧ (encodeWord (.addi 575 1 2 3)).isSome = true :=
  ⟨by decide +kernel, rfl, by intro v; simp, by decide +kernel⟩
theorem witness_EncodeOfDecode : (decodeWord 0 0).isSome = (wordDetail 0).isNone ∧ (decodeWord 0 0o740000000000).isSome = (wordDetail 0o740000000000).isNone := by decide +kernel

end Sys2Proof.Tests
end

/-! What every step keeps of memory (R175). -/

namespace Sys2Proof.Machine

/-- Canonical memory survives every change that an operation of the model can make. -/
theorem Memory.wf_loud : Loud Memory.wf where
  of _ _ h _ _ _ hmem := (congrArg (swf ({} : LineVal)) hmem).trans h
  mem _ _ h keeps := keeps h
  thread _ _ _ h _ := h
  threads _ h := h
  legal _ _ := .inr fun _ _ _ h => h

/-- A property of states that no operation breaks, and that says nothing of the queue, holds after every step. -/
theorem step_pres {P : State → Prop} (C : Loud P) (queue : ∀ s rest, P s → P { s with pending := rest })
    {s : State} (h : P s) : OnNext P (step s) := by
  unfold step
  split
  next => exact OnNext.mk (idle_pres C h)
  next c rest _ => exact exec_pres C c (queue s rest h)

/-- Settles O5: memory keeps its canonical form through every operation, so through every command and through the idle step. -/
theorem memoryStaysCanonical : Obligations.MemoryStaysCanonical := by
  unfold Obligations.MemoryStaysCanonical
  intro s u h hstep
  exact step_pres Memory.wf_loud (fun _ _ h => h) h u hstep

end Sys2Proof.Machine

/-! Nonets and units of a line, bit by bit (R2, R252). -/

namespace Sys2Proof.Machine

/-! ### Nonets of a line -/

theorem nonetAt_getLsbD (l : LineBits) (i j : Nat) :
    (nonetAt l i).getLsbD j = (decide (j < 9) && l.getLsbD (9 * i + j)) := by
  simp [nonetAt, BitVec.getLsbD_extractLsb']

theorem setNonet_getLsbD (l : LineBits) (i b : Nat) (v : Nonet) (hb : b < 576) :
    (setNonet l i v).getLsbD b = if 9 * i ≤ b ∧ b < 9 * i + 9 then v.getLsbD (b - 9 * i) else l.getLsbD b := by
  have ones : (0x1FF : LineBits).getLsbD (b - 9 * i) = decide (b - 9 * i < 9) := by
    rw [show (0x1FF : LineBits) = BitVec.ofNat 576 (2 ^ 9 - 1) from rfl, BitVec.getLsbD_ofNat, Nat.testBit_two_pow_sub_one]
    simp only [show b - 9 * i < 576 by omega, decide_true, Bool.true_and]
  simp only [setNonet, BitVec.getLsbD_or, BitVec.getLsbD_and, BitVec.getLsbD_not, BitVec.getLsbD_shiftLeft,
    BitVec.getLsbD_setWidth, ones, hb, show b - 9 * i < 576 by omega, decide_true, Bool.true_and]
  by_cases low : 9 * i ≤ b
  · by_cases high : b < 9 * i + 9
    · simp [low, high, show ¬ b < 9 * i by omega, show b - 9 * i < 9 by omega]
    · simp [low, high, show ¬ b - 9 * i < 9 by omega, BitVec.getLsbD_of_ge v (b - 9 * i) (by omega)]
  · simp [low, show b < 9 * i by omega]

/-- A nonet that was written is read back, and no other one changes. -/
theorem nonetAt_setNonet (l : LineBits) {i k : Nat} (v : Nonet) (hi : i < 64) (hk : k < 64) :
    nonetAt (setNonet l i v) k = if k = i then v else nonetAt l k := by
  apply BitVec.eq_of_getLsbD_eq
  intro j hj
  rw [nonetAt_getLsbD, setNonet_getLsbD _ _ _ _ (by omega)]
  by_cases h : k = i
  · subst h
    simp [hj]
  · rw [if_neg (by omega), if_neg h, nonetAt_getLsbD]

theorem nonetOf_getLsbD (w : Nat) (x : Reg) (k : Nat) {b : Nat} (hb : b < 9) :
    (nonetOf w x k).getLsbD b = x.getLsbD (if b < 8 then 8 * k + b else 8 * w + k) := by
  rw [nonetOf, BitVec.getLsbD_append]
  by_cases h : b < 8
  · simp [h]
  · simp [show b = 8 by omega]

/-! ### Units (R2) -/

/-- The first n steps of a unit's image: n value octets, and n mark bits above the value of all w. -/
theorem unitPart_getLsbD (w : Nat) (l : LineBits) (o n : Nat) (hn : n ≤ w) {k : Nat} (hk : k < 72) :
    (forN n (0 : Reg) fun j a =>
        let v := nonetAt l (o + j)
        a ||| ((v.setWidth 8).setWidth 72 <<< (8 * j)) ||| ((BitVec.ofBool (v.getLsbD 8)).setWidth 72 <<< (8 * w + j))).getLsbD k
      = if k < 8 * n then (nonetAt l (o + k / 8)).getLsbD (k % 8)
        else if 8 * w ≤ k ∧ k < 8 * w + n then (nonetAt l (o + (k - 8 * w))).getLsbD 8 else false := by
  induction n with
  | zero => simp [forN]
  | succ n ih =>
    have mark (b : Bool) (j : Nat) : (BitVec.ofBool b).getLsbD j = (decide (j = 0) && b) := by
      cases j <;> simp
    simp only [forN, BitVec.getLsbD_or, BitVec.getLsbD_shiftLeft, BitVec.getLsbD_setWidth, ih (by omega), mark]
    by_cases value : k < 8 * n
    · simp [hk, value, show k < 8 * (n + 1) by omega, show k < 8 * w + n by omega]
    by_cases last : k < 8 * (n + 1)
    · simp [hk, value, last, show ¬ 8 * w ≤ k by omega, show k < 8 * w + n by omega, show k / 8 = n by omega,
        show k - 8 * n = k % 8 by omega, show k % 8 < 8 by omega, show k % 8 < 72 by omega]
    by_cases marks : k = 8 * w + n
    · simp [marks, show ¬ 8 * w + n < 8 * n by omega, show ¬ 8 * w + n < 8 * (n + 1) by omega,
        show 8 * w + n < 72 by omega, show ¬ 8 * w + n - 8 * n < 8 by omega]
    · simp [value, last, show ¬ k - 8 * n < 8 by omega, show (k < 8 * w + (n + 1)) = (k < 8 * w + n) by simp; omega]
      omega

theorem unitAt_getLsbD (w : Nat) (l : LineBits) (o : Nat) {k : Nat} (hk : k < 72) :
    (unitAt w l o).getLsbD k = if k < 8 * w then (nonetAt l (o + k / 8)).getLsbD (k % 8)
      else if k < 9 * w then (nonetAt l (o + (k - 8 * w))).getLsbD 8 else false := by
  rw [unitAt, unitPart_getLsbD w l o w le_rfl hk]
  by_cases h : k < 8 * w
  · simp [h]
  · simp [h, show 8 * w ≤ k by omega, show 8 * w + w = 9 * w by omega]

/-- Writing a unit changes exactly its nonets. -/
theorem nonetAt_setUnit (w : Nat) (l : LineBits) (o : Nat) (x : Reg) (fits : o + w ≤ 64) {k : Nat} (hk : k < 64) :
    nonetAt (setUnit w l o x) k = if o ≤ k ∧ k < o + w then nonetOf w x (k - o) else nonetAt l k := by
  have part (n : Nat) (hn : n ≤ w) : nonetAt (forN n l fun j a => setNonet a (o + j) (nonetOf w x j)) k
      = if o ≤ k ∧ k < o + n then nonetOf w x (k - o) else nonetAt l k := by
    induction n with
    | zero => simp [forN, show ¬ (o ≤ k ∧ k < o) by omega]
    | succ n ih =>
      rw [forN, nonetAt_setNonet _ _ (by omega) hk, ih (by omega)]
      by_cases h : k = o + n
      · simp [h]
      · simp only [h, if_false, show (o ≤ k ∧ k < o + (n + 1)) = (o ≤ k ∧ k < o + n) by simp; omega]
  exact part w le_rfl

/-- A unit that was written reads back as its 9w bits. -/
theorem unitAt_setUnit (w : Nat) (l : LineBits) (o : Nat) (x : Reg) (fits : o + w ≤ 64) :
    unitAt w (setUnit w l o x) o = BitVec.ofNat 72 (x.toNat % 2 ^ (9 * w)) := by
  apply BitVec.eq_of_getLsbD_eq
  intro k hk
  rw [unitAt_getLsbD _ _ _ hk, BitVec.getLsbD_ofNat, Nat.testBit_mod_two_pow, BitVec.testBit_toNat]
  by_cases value : k < 8 * w
  · rw [if_pos value, nonetAt_setUnit w l o x fits (by omega), if_pos (by omega), nonetOf_getLsbD _ _ _ (by omega),
      if_pos (by omega), show 8 * (o + k / 8 - o) + k % 8 = k by omega]
    simp [hk, show k < 9 * w by omega]
  by_cases marks : k < 9 * w
  · rw [if_neg value, if_pos marks, nonetAt_setUnit w l o x fits (by omega), if_pos (by omega), nonetOf_getLsbD _ _ _ (by omega),
      if_neg (by omega), show 8 * w + (o + (k - 8 * w) - o) = k by omega]
    simp [hk, marks]
  · simp [value, marks]

/-- Settles O14, bit by bit of a unit's image and nonet by nonet of the line written. -/
theorem unitImages : Obligations.UnitImages := by
  unfold Obligations.UnitImages
  intro n l o x fits
  exact ⟨fun k hk => unitAt_getLsbD _ _ _ hk, fun k hk => nonetAt_setUnit _ _ _ _ fits hk, unitAt_setUnit _ _ _ _ fits⟩

end Sys2Proof.Machine

/-! The Bearing ledger: claims, releases, and the order in which the claims of one cycle are served (R17, R18, R348 to R351). -/

namespace Sys2Proof.Machine

/-! ### The arbiter of R17 -/

/-- How many places after pointer p the requester a of n is looked at (R17). -/
def turn (n p a : Nat) : Nat := (a + n - p % n) % n

theorem turn_lt {n : Nat} (p a : Nat) (hn : 0 < n) : turn n p a < n := Nat.mod_lt _ hn

/-- The turn of a requester is the one step from the pointer at which the arbiter looks at it. -/
theorem turn_unique {n p a i : Nat} (ha : a < n) (hi : i < n) : (p + i) % n = a ↔ i = turn n p a := by
  have hr : p % n < n := Nat.mod_lt _ (by omega)
  rw [← Nat.mod_add_mod, turn]
  generalize p % n = r at hr ⊢
  have sum : (r + i) % n = if r + i < n then r + i else r + i - n := by
    split
    · exact Nat.mod_eq_of_lt ‹_›
    · rw [Nat.mod_eq_sub_mod (by omega), Nat.mod_eq_of_lt (by omega)]
  have diff : (a + n - r) % n = if a < r then a + n - r else a - r := by
    split
    · exact Nat.mod_eq_of_lt (by omega)
    · rw [Nat.mod_eq_sub_mod (by omega), Nat.mod_eq_of_lt (by omega)]; omega
  rw [sum, diff]
  split <;> split <;> omega

/-- The arbiter grants the requester whose turn comes first. -/
theorem arbitrate_eq_some {n p a : Nat} {req : Nat → Bool} (ha : a < n) (asks : req a = true)
    (first : ∀ b, b < n → req b = true → turn n p a ≤ turn n p b) : arbitrate n p req = some a := by
  have hn : 0 < n := by omega
  have found : (List.range n).find? (req ∘ fun i => (p + i) % n) = some (turn n p a) := by
    rw [List.find?_range_eq_some]
    refine ⟨?_, List.mem_range.mpr (turn_lt p a hn), fun j hj => ?_⟩
    · rw [Function.comp_apply, (turn_unique ha (turn_lt p a hn)).mpr rfl]
      exact asks
    · have hjn : j < n := hj.trans (turn_lt p a hn)
      have here : turn n p ((p + j) % n) = j := ((turn_unique (Nat.mod_lt _ hn) hjn).mp rfl).symm
      rw [Function.comp_apply, Bool.not_eq_true']
      by_contra asks'
      have := first _ (Nat.mod_lt _ hn) (by simpa using asks')
      omega
  rw [arbitrate, List.find?_map, found]
  exact congrArg some ((turn_unique ha (turn_lt p a hn)).mpr rfl)

/-- Request r goes before request q: its requester's turn comes first (R17), or it is the lower member of the same (R18). -/
def Before {α : Type} (n p : Nat) (pos mem : α → Nat) (r q : α) : Prop :=
  turn n p (pos r) < turn n p (pos q) ∨ pos r = pos q ∧ mem r < mem q

theorem Before.turn_le {α : Type} {n p : Nat} {pos mem : α → Nat} {r q : α} (h : Before n p pos mem r q) :
    turn n p (pos r) ≤ turn n p (pos q) := by
  rcases h with h | ⟨same, -⟩
  · exact h.le
  · rw [same]

theorem Before.mem_lt {α : Type} {n p : Nat} {pos mem : α → Nat} {r q : α} (h : Before n p pos mem r q) (same : pos q = pos r) :
    mem r < mem q := by
  rcases h with h | ⟨-, h⟩
  · rw [same] at h; omega
  · exact h

/-- The least member of a list, found by a fold from a number that is not below it. -/
theorem foldl_min_eq {α : Type} (mem : α → Nat) {k m : Nat} {l : List α} (le : k ≤ m) (all : ∀ q ∈ l, k ≤ mem q)
    (hit : m = k ∨ ∃ q ∈ l, mem q = k) : l.foldl (fun m q => min m (mem q)) m = k := by
  induction l generalizing m with
  | nil => simpa using hit
  | cons q l ih =>
    have hq := all q (List.mem_cons_self ..)
    refine ih (le_min le hq) (fun q' h => all q' (List.mem_cons_of_mem _ h)) ?_
    rcases hit with rfl | ⟨q', h, rfl⟩
    · exact .inl (min_eq_left hq)
    · rcases List.mem_cons.mp h with rfl | h
      · exact .inl (min_eq_right le)
      · exact .inr ⟨q', h, rfl⟩

/-- Of the requests of one cycle the one is granted that goes before every other. -/
theorem pickOne_eq_some {α : Type} {n p : Nat} {pos mem : α → Nat} {l : List α} {r : α} (hr : r ∈ l) (hn : pos r < n)
    (first : ∀ q ∈ l, q = r ∨ Before n p pos mem r q) : pickOne n p pos mem l = some r := by
  have asks (b : Nat) : (l.any fun q => pos q == b) = true ↔ ∃ q ∈ l, pos q = b := by simp
  have granted : arbitrate n p (fun b => l.any fun q => pos q == b) = some (pos r) := by
    refine arbitrate_eq_some hn ((asks _).mpr ⟨r, hr, rfl⟩) fun b _ hb => ?_
    obtain ⟨q, hq, rfl⟩ := (asks b).mp hb
    rcases first q hq with rfl | h
    · exact le_rfl
    · exact h.turn_le
  have mine (q : α) (hq : q ∈ l.filter fun q => pos q == pos r) : q = r ∨ mem r < mem q := by
    obtain ⟨hq, same⟩ := List.mem_filter.mp hq
    exact (first q hq).imp_right fun h => h.mem_lt (by simpa using same)
  have rmine : r ∈ l.filter fun q => pos q == pos r := List.mem_filter.mpr ⟨hr, by simp⟩
  rw [pickOne, granted]
  dsimp only
  generalize (l.filter fun q => pos q == pos r) = own at mine rmine ⊢
  have le (q : α) (hq : q ∈ own) : mem r ≤ mem q := by
    rcases mine q hq with rfl | h
    · exact le_rfl
    · exact h.le
  have low : own.foldl (fun m q => min m (mem q)) ((own.head?.map mem).getD 0) = mem r := by
    refine foldl_min_eq mem ?_ le (.inr ⟨r, rmine, rfl⟩)
    cases own with
    | nil => cases rmine
    | cons q own => exact le q (List.mem_cons_self ..)
  rw [low]
  cases found : own.find? (fun q => mem q == mem r) with
  | none => simpa using List.find?_eq_none.mp found r rmine
  | some q =>
    rcases mine q (List.mem_of_find?_eq_some found) with rfl | h
    · rfl
    · have : mem q = mem r := by simpa using List.find?_some found
      omega

/-- The requests of one cycle are granted one after another, each time the one that goes before every other. -/
theorem inTurn_cons {α : Type} [BEq α] {n p : Nat} {pos mem : α → Nat} {l : List α} {r : α} (k : Nat) (hr : r ∈ l) (hn : pos r < n)
    (first : ∀ q ∈ l, q = r ∨ Before n p pos mem r q) :
    (inTurn n pos mem p l (k + 1)).1 = r :: (inTurn n pos mem ((pos r + 1) % n) (l.erase r) k).1 := by
  rw [inTurn, pickOne_eq_some hr hn first]

theorem inTurn_singleton {α : Type} [BEq α] {n : Nat} (p : Nat) {pos mem : α → Nat} (r : α) (hn : pos r < n) :
    (inTurn n pos mem p [r] 1).1 = [r] := by
  rw [inTurn_cons 0 (List.mem_singleton_self r) hn (by simp), inTurn]

/-! ### Claims and releases -/

theorem foldl_amounts (l : Store Amount) (a b : Nat) :
    l.foldl (fun t p => (t.1 + p.2.core, t.2 + p.2.hub)) (a, b)
      = (a + (l.map fun p => p.2.core).sum, b + (l.map fun p => p.2.hub).sum) := by
  induction l generalizing a b with
  | nil => rfl
  | cons p l ih => simp only [List.foldl_cons, ih, List.map_cons, List.sum_cons, Nat.add_assoc]

/-- A claim is granted when each pool holds it and its ramp can start within 4 µs (R348, R349). -/
theorem claimOk_iff (l : Ledger) (core hub : Nat) : claimOk l core hub = true ↔
    (l.claimed.map fun p => p.2.core).sum + core ≤ l.limCore.toNat ∧ (l.claimed.map fun p => p.2.hub).sum + hub ≤ l.limHub.toNat
      ∧ (core = 0 ∨ rampStart l.ramps (rampLen core) ≤ 16000) := by
  simp [claimOk, foldl_amounts, and_assoc]

theorem State.claim_granted (s : State) (q : Nat) {core hub : Nat} (asks : ¬ (core = 0 ∧ hub = 0))
    (ok : claimOk s.ledger core hub = true) :
    (s.claim q core hub).1 = { s with ledger := { s.ledger with
      claimed := sset {} s.ledger.claimed q ⟨(sget {} s.ledger.claimed q).core + core, (sget {} s.ledger.claimed q).hub + hub⟩
      ramps := if core = 0 then s.ledger.ramps else s.ledger.ramps ++ [(rampStart s.ledger.ramps (rampLen core), rampLen core)]
      ptr := (q + 1) % 50 } } := by
  have ok' : claimOk { s.ledger with ptr := (q + 1) % 50 } core hub = true := ok
  simp only [State.claim, if_neg asks, if_pos ok']

theorem State.claim_refused (s : State) (q : Nat) {core hub : Nat} (asks : ¬ (core = 0 ∧ hub = 0))
    (no : ¬ claimOk s.ledger core hub = true) :
    (s.claim q core hub).1 = { s with ledger := { s.ledger with refused := s.ledger.refused + 1, ptr := (q + 1) % 50 } } := by
  have no' : ¬ claimOk { s.ledger with ptr := (q + 1) % 50 } core hub = true := no
  simp only [State.claim, if_neg asks, if_neg no']

/-- One claim of a cycle, as the ledger serves it. -/
def State.served (s : State) (r : BearingReq) : State := (s.claim r.q.val r.core.toNat r.hub.toNat).1

theorem exec_bearingClaim (c : BearingReq) (others : List BearingReq) (s : State) :
    exec (.bearingClaim c others) s = .next ((inTurn 50 (fun r : BearingReq => r.q.val) (fun r => r.mem.val) s.ledger.ptr (c :: others)
      (c :: others).length).1.foldl State.served s) := rfl

theorem exec_bearingRelease (q : Fin 50) (core hub : BitVec 12) (s : State) :
    exec (.bearingRelease q core hub) s = .next (s.release q.val core.toNat hub.toNat) := rfl

theorem exec_bearingClaim_alone (c : BearingReq) (s : State) : exec (.bearingClaim c []) s = .next (s.served c) := by
  rw [exec_bearingClaim, List.length_singleton, inTurn_singleton (pos := fun r : BearingReq => r.q.val) _ c c.q.isLt]
  rfl

/-- Of two claims of one cycle the one that goes first is served first, whichever of them came with the other. -/
theorem exec_bearingClaim_pair {a b : BearingReq} {s : State}
    (h : Before 50 s.ledger.ptr (fun r : BearingReq => r.q.val) (fun r => r.mem.val) a b) {c : BearingReq} {others : List BearingReq}
    (both : (c :: others).Perm [a, b]) : exec (.bearingClaim c others) s = .next ((s.served a).served b) := by
  have first (q : BearingReq) (hq : q ∈ c :: others) :
      q = a ∨ Before 50 s.ledger.ptr (fun r : BearingReq => r.q.val) (fun r => r.mem.val) a q := by
    rcases List.mem_pair.mp (both.mem_iff.mp hq) with rfl | rfl
    · exact .inl rfl
    · exact .inr h
  have rest : (c :: others).erase a = [b] := List.perm_singleton.mp (by simpa using both.erase a)
  rw [exec_bearingClaim, both.length_eq, show [a, b].length = 2 from rfl,
    inTurn_cons (pos := fun r : BearingReq => r.q.val) 1 (both.mem_iff.mpr (List.mem_cons_self ..)) a.q.isLt first, rest,
    inTurn_singleton (pos := fun r : BearingReq => r.q.val) _ b b.q.isLt]
  rfl

/-- Settles O35: what the ledger makes of a claim that fits and of one that does not, and the order of R17 and R18 for two. -/
theorem bearingLedger : Obligations.BearingLedger := by
  unfold Obligations.BearingLedger
  intro s q mem core hub l claim ptr a fits
  have alone : exec claim s = .next (s.claim q.val core.toNat hub.toNat).1 := exec_bearingClaim_alone ⟨q, mem, core, hub⟩ s
  have zero_iff (v : BitVec 12) : v.toNat = 0 ↔ v = 0 := BitVec.toNat_inj (y := 0)
  have fits_iff : fits ↔ claimOk s.ledger core.toNat hub.toNat = true := by
    rw [claimOk_iff, zero_iff]
  refine ⟨?zero, ?granted, ?refused, ?order, ?release⟩
  case zero =>
    rintro rfl rfl
    rw [alone]
    rfl
  case granted =>
    intro asks ok
    rw [alone, s.claim_granted q.val (by rw [zero_iff, zero_iff]; tauto) (fits_iff.mp ok)]
    refine ⟨_, rfl, rfl, fun k => sget_sset .., fun hc => ?_⟩
    exact if_pos ((zero_iff core).mpr hc)
  case refused =>
    intro asks no
    rw [alone, s.claim_refused q.val (by rw [zero_iff, zero_iff]; tauto) (fun ok => no (fits_iff.mpr ok))]
  case order =>
    intro a b dist before
    have before : Before 50 s.ledger.ptr (fun r : BearingReq => r.q.val) (fun r => r.mem.val) a b :=
      before.imp_right fun ⟨same, low⟩ => ⟨congrArg Fin.val same, low⟩
    refine ⟨s.served a, exec_bearingClaim_alone a s, ?_, ?_⟩
    · rw [exec_bearingClaim_pair before (List.Perm.refl _), exec_bearingClaim_alone]
    · rw [exec_bearingClaim_pair before (List.Perm.swap ..), exec_bearingClaim_alone]
  case release => exact ⟨_, exec_bearingRelease q core hub s, rfl, fun k => sget_sset ..⟩

end Sys2Proof.Machine

/-! A way of the Isle cache is emptied for the Cistern (R154): what leaves it touches neither the CIS_ unit nor memory, and no
line comes back into the way. -/

namespace Sys2Proof.Machine

/-! ### Arrays: where a write goes -/

theorem findTag_valid {a : Store Way} {base ways tag i : Nat} {bits : BitVec 4} (h : findTag a base ways tag bits = some i) :
    (sget {} a (base + i)).valid ≠ 0 := by
  have found := List.find?_some h
  intro zero
  dsimp only at found
  rw [zero, show (0 : BitVec 4) &&& bits = 0 from BitVec.zero_and, bne_self_eq_false, Bool.false_and] at found
  cases found

/-- A change of the way that holds a tag leaves an empty way empty. -/
theorem sget_smod_findTag {a : Store Way} {base ways tag i j : Nat} {bits : BitVec 4} (f : Way → Way)
    (h : findTag a base ways tag bits = some i) (empty : sget ({} : Way) a j = {}) :
    sget ({} : Way) (smod {} a (base + i) f) j = {} := by
  have other : j ≠ base + i := by
    rintro rfl
    exact findTag_valid h (by rw [empty])
  rw [smod, sget_sset_ne _ _ _ other, empty]

theorem sget_clearLine {a : Store Way} {base ways tag j : Nat} {bits : BitVec 4} (empty : sget ({} : Way) a j = {}) :
    sget ({} : Way) (clearLine a base ways tag bits) j = {} := by
  unfold clearLine
  split
  · exact sget_smod_findTag _ ‹_› empty
  · exact empty

/-- A fill takes an eligible way, and ages eligible ways only. -/
theorem chooseWay_eligible {a b : Store Way} {base ways k : Nat} {ok : Nat → Bool} (h : chooseWay a base ways ok = some (k, b)) :
    (∃ i, i < ways ∧ ok i = true ∧ k = base + i)
      ∧ ∀ j, (∀ i, i < ways → ok i = true → j ≠ base + i) → sget ({} : Way) b j = sget {} a j := by
  have eligible {i : Nat} (hi : i ∈ (List.range ways).filter ok) : i < ways ∧ ok i = true := by
    simpa using List.mem_filter.mp hi
  unfold chooseWay at h
  dsimp only at h
  split at h
  next i found =>
    obtain ⟨rfl, rfl⟩ := Prod.mk.inj (Option.some.inj h)
    have hi := eligible (List.mem_of_find?_eq_some found)
    exact ⟨⟨i, hi.1, hi.2, rfl⟩, fun _ _ => rfl⟩
  next =>
    obtain ⟨i, found, hib⟩ := Option.map_eq_some_iff.mp h
    obtain ⟨rfl, rfl⟩ := Prod.mk.inj hib
    have hi := eligible (List.mem_of_find?_eq_some found)
    refine ⟨⟨i, hi.1, hi.2, rfl⟩, fun j other => ?_⟩
    have aged (top : Nat) (l : List Nat) (hl : ∀ i ∈ l, j ≠ base + i) (a : Store Way) :
        sget ({} : Way) (l.foldl (fun a i => smod {} a (base + i) fun w => { w with age := w.age + BitVec.ofNat 2 (3 - top) }) a) j
          = sget {} a j := by
      induction l generalizing a with
      | nil => rfl
      | cons i l ih =>
        rw [List.foldl_cons, ih (fun i h => hl i (List.mem_cons_of_mem _ h)), smod, sget_sset_ne _ _ _ (hl i (List.mem_cons_self ..))]
    exact aged _ _ (fun i hi => other i (eligible hi).1 (eligible hi).2) a

/-! ### The way that is being converted -/

/-- Memory is M, the CIS_ unit of Isle n is c, and the ways of E in its cache are empty. -/
structure Draining (n : Nat) (M : Store LineVal) (c : Cis) (E : Nat → Prop) (s : State) : Prop where
  mem : s.mem = M
  cis : (s.isle n).cis = c
  empty : ∀ j, E j → sget ({} : Way) (s.isle n).ic j = {}

section
variable {n : Nat} {M : Store LineVal} {c : Cis} {E : Nat → Prop} {s : State}

theorem Draining.of_eq {u : State} (h : Draining n M c E s) (mem : u.mem = s.mem) (isle : u.isle n = s.isle n) : Draining n M c E u :=
  ⟨mem.trans h.mem, isle ▸ h.cis, isle ▸ h.empty⟩

/-- The Isle changes, but for its CIS_ unit and the empty ways of E. -/
theorem Draining.modIsle {f : Isle → Isle} {F : Nat → Prop} (h : Draining n M c E s) (cis : (f (s.isle n)).cis = (s.isle n).cis)
    (empty : (∀ j, E j → sget ({} : Way) (s.isle n).ic j = {}) → ∀ j, F j → sget ({} : Way) (f (s.isle n)).ic j = {}) :
    Draining n M c F (s.modIsle n f) := by
  refine ⟨h.mem, ?_, fun j hj => ?_⟩
  · rw [State.modIsle_eq, State.isle_setIsle, cis, h.cis]
  · rw [State.modIsle_eq, State.isle_setIsle]
    exact empty h.empty j hj

theorem Draining.ite {p : Prop} [Decidable p] {u : State} (h : Draining n M c E s) (k : Draining n M c E u) :
    Draining n M c E (if p then s else u) := pres_ite (fun _ => h) fun _ => k

theorem Draining.modCore {q : Nat} {f : Core → Core} (h : Draining n M c E s) : Draining n M c E (s.modCore q f) := h.of_eq rfl rfl
theorem Draining.modCores {q : Nat → Nat} {f : Nat → Core → Core} {l : List Nat} (h : Draining n M c E s) :
    Draining n M c E (l.foldl (fun s k => s.modCore (q k) (f k)) s) := pres_fold (Q := Draining n M c E) _ _ h fun _ _ g => g.modCore
theorem Draining.setCore {q : Nat} {x : Core} (h : Draining n M c E s) : Draining n M c E (s.setCore q x) := h.of_eq rfl rfl
theorem Draining.recIsle {i unit p0 p1 : Nat} {code : BitVec 16} {id : Xid} (h : Draining n M c E s) :
    Draining n M c E (s.recIsle i code unit p0 p1 id) := h.of_eq rfl rfl

theorem Draining.send {m : Msg} (h : Draining n M c E s) : Draining n M c E (s.send m) := by
  unfold State.send
  split
  · exact h.of_eq rfl rfl
  · exact h.of_eq rfl rfl

theorem Draining.setLine {l : Nat} {a : Isle → AgentLine} (h : Draining n M c E s) :
    Draining n M c E (s.modIsle n fun x => x.setLine l (a x)) := h.modIsle rfl id

theorem Draining.sndIsle {ev unit k : Nat} {vault : Bool} (h : Draining n M c E s) : Draining n M c E (s.sndIsle n ev unit vault k) :=
  h.modIsle rfl id

theorem Draining.dropCaches {l : Nat} (h : Draining n M c E s) : Draining n M c E (s.dropCaches n l) := by
  unfold State.dropCaches
  exact h.modCores.modIsle rfl fun empty j hj => sget_clearLine (empty j hj)

theorem Draining.cleanCaches {l : Nat} (h : Draining n M c E s) : Draining n M c E (s.cleanCaches n l) := by
  unfold State.cleanCaches
  refine h.modCores.modIsle rfl fun empty j hj => ?_
  dsimp only
  split
  · exact sget_smod_findTag _ ‹_› (empty j hj)
  · exact empty j hj

theorem Draining.modArrErr {a : Arr} {f : Store (BitVec 2) → Store (BitVec 2)} (h : Draining n M c E s) :
    Draining n M c E (s.modArrErr n a f) := by
  unfold State.modArrErr
  cases a with
  | l1i _ | l1d _ | l2 _ => exact h.modCore
  | ic => exact h.modIsle rfl id

theorem Draining.loseClean {a : Arr} {l : Nat} (h : Draining n M c E s) : Draining n M c E (s.loseClean n a l) := by
  have untracked {u : State} (hu : Draining n M c E u) {p : Prop} [Decidable p] {a : AgentLine} :
      Draining n M c E (if p then u.modIsle n fun x => x.setLine l a else u) := hu.setLine.ite hu
  unfold State.loseClean
  cases a with
  | l1i _ | l1d _ | l2 _ => exact untracked h.modCore
  | ic => exact untracked (h.modIsle rfl fun empty j hj => sget_clearLine (empty j hj))

theorem Draining.arrRead {a : Arr} {l : Nat} {mask : BitVec 64} {id : Xid} (h : Draining n M c E s) :
    Draining n M c E (s.arrRead n a l mask id) := by
  unfold State.arrRead
  refine pres_fold (Q := Draining n M c E) _ _ h fun s e g => ?_
  have good := g.modArrErr (a := a) (f := fun m => sset 0 m e.1 0)
  exact good.recIsle.ite (good.setLine.recIsle.ite good.loseClean.recIsle)

theorem Draining.supply {l : Nat} {id : Xid} (h : Draining n M c E s) : Draining n M c E (s.supply n l id) := by
  unfold State.supply
  split
  · exact h.arrRead
  · exact h

theorem Draining.evictLine {l : Nat} (h : Draining n M c E s) : Draining n M c E (s.evictLine n l) := by
  unfold State.evictLine
  have hs : Draining n M c E (if ((s.isle n).line l).isDirty then s.supply n l (s.lineXid l) else s) :=
    h.supply.ite h
  dsimp only
  generalize AgentLine.st _ = st
  cases st with
  | m | o | e | s => exact hs.dropCaches.setLine.send
  | i | isD | imD | smA | miA | eiA => exact hs

theorem Draining.evictIfGone {l : Nat} (h : Draining n M c E s) : Draining n M c E (s.evictIfGone n l) := by
  unfold State.evictIfGone
  exact h.ite h.evictLine

/-! ### Fills pass the way by -/

/-- A fill of the Isle cache takes a way below the ones that the Cistern holds or is getting (R139, R154). -/
theorem Draining.fillIc {l : Nat} {age : BitVec 2} (hc : c.conv = true) (hE : ∀ j, E j → j % 16 = 15 - c.cur.toNat)
    (h : Draining n M c E s) : OnSome (Draining n M c E) (s.fillIc n l age) := by
  unfold State.fillIc
  dsimp only
  split
  · exact OnSome.mk h
  intro u hu
  obtain ⟨⟨k, ic⟩, chosen, rfl⟩ := Option.map_eq_some_iff.mp hu
  obtain ⟨⟨i, _, ok, rfl⟩, others⟩ := chooseWay_eligible chosen
  have below {i : Nat} {b : Bool} (ok : (cacheWay (s.isle n).cis i && b) = true) : i + (c.cur.toNat + 1) < 16 := by
    have := (Bool.and_eq_true_iff.mp ok).1
    rwa [h.cis, cacheWay, hc, if_pos rfl, decide_eq_true_eq] at this
  have apart {i j : Nat} (hi : i + (c.cur.toNat + 1) < 16) (hj : E j) : j ≠ icBase l + i := by
    have := hE j hj
    unfold icBase
    omega
  have empty (j : Nat) (hj : E j) : sget ({} : Way) (sset {} ic (icBase l + i) { tag := l, valid := 1, age }) j = {} := by
    rw [sget_sset_ne _ _ _ (apart (below ok) hj), others j (fun i _ ok => apart (below ok) hj), h.empty j hj]
  dsimp only
  split
  · exact h.modIsle (f := fun x => { x with ic := _ }) rfl fun _ => empty
  · exact ((h.arrRead.ite h).modIsle rfl fun _ => empty).evictIfGone

theorem Draining.leaveL2 {q l : Nat} (h : Draining n M c E s) : Draining n M c E (s.leaveL2 n q l) := by
  have marked {u : State} (hu : Draining n M c E u) : Draining n M c E (u.modIsle n fun y => markIc y l) := by
    refine hu.modIsle ?_ fun empty j hj => ?_
    · unfold markIc
      split <;> rfl
    · unfold markIc
      split
      · exact sget_smod_findTag (fun v => { v with dirty := 1 }) ‹_› (empty j hj)
      · exact empty j hj
  have hs {p : Prop} [Decidable p] {a : Arr} {f : Core → Core} : Draining n M c E
      ((if p then s.arrRead n a l (BitVec.allOnes 64) (s.lineXid l) else s).modCore (n * 24 + q) f) := (h.arrRead.ite h).modCore
  unfold State.leaveL2
  exact ((marked hs).ite hs).evictIfGone

theorem Draining.fillL2 {q l : Nat} {age : BitVec 2} (h : Draining n M c E s) : OnSome (Draining n M c E) (s.fillL2 n q l age) := by
  unfold State.fillL2
  dsimp only
  split
  · exact OnSome.mk h
  · exact OnSome.map fun _ => (h.setCore.ite h.setCore.leaveL2).modCore

theorem Draining.fillL1 {q l : Nat} {data dirty : Bool} {age : BitVec 2} (h : Draining n M c E s) :
    OnSome (Draining n M c E) (s.fillL1 n q data l age dirty) := by
  unfold State.fillL1
  dsimp only
  split
  · exact OnSome.mk h.modCore
  · exact OnSome.map fun _ => (pres_fold (Q := Draining n M c E) _ _ h fun _ _ g => g.arrRead).modCore

theorem Draining.serveSnoop {m : Msg} (h : Draining n M c E s) : Draining n M c E (s.serveSnoop n m) := by
  have supplied {p : Prop} [Decidable p] {l : Nat} {id : Xid} : Draining n M c E (if p then s.supply n l id else s) := h.supply.ite h
  have dropped {u : State} (hu : Draining n M c E u) {p q : Prop} [Decidable p] [Decidable q] {l : Nat} :
      Draining n M c E (let v := if p then u.dropCaches n l else u; if q then v.cleanCaches n l else v) :=
    (hu.dropCaches.ite hu).cleanCaches.ite (hu.dropCaches.ite hu)
  unfold State.serveSnoop
  dsimp only
  generalize snoopAct _ _ m.ty = r
  obtain ⟨act, st⟩ := r
  cases act with
  | ack x | nothing | ackd x => exact (dropped supplied).setLine.send
  | gone => exact (dropped supplied).setLine.sndIsle.send
  | dat d x => exact (dropped supplied).setLine.send.send

section
variable (hc : c.conv = true) (hE : ∀ j, E j → j % 16 = 15 - c.cur.toNat)
include hc hE

theorem Draining.prefFill {q l hint : Nat} (h : Draining n M c E s) : OnSome (Draining n M c E) (s.prefFill n q l hint) := by
  unfold State.prefFill
  split
  · exact OnSome.bind (OnSome.bind (h.fillIc hc hE) fun _ g => g.fillL2) fun _ g => pres_ite (fun _ => g.fillL1) fun _ => OnSome.mk g
  · exact OnSome.bind (h.fillIc hc hE) fun _ g => g.fillL2
  · exact h.fillIc hc hE
  · exact h.fillIc hc hE

theorem Draining.prefWon {l : Nat} {tag : BitVec 9} (h : Draining n M c E s) : Draining n M c E (s.prefWon n l tag) := by
  have take : OnSome (Draining n M c E) (s.prefTake n l tag) := by
    unfold State.prefTake
    exact pres_ite (fun _ => h.fillIc hc hE) fun _ => pres_ite (fun _ => h.fillIc hc hE) fun _ =>
      pres_ite (fun _ => h.prefFill hc hE) fun _ => OnSome.mk h
  exact take.getD (h.modIsle rfl id)

theorem Draining.retryFills (h : Draining n M c E s) : Draining n M c E (s.retryFills n) := by
  unfold State.retryFills
  exact pres_fold (Q := Draining n M c E) _ _ (h.modIsle rfl id) fun _ _ g => g.ite (g.prefWon hc hE)

theorem Draining.endWindow {l : Nat} (h : Draining n M c E s) : Draining n M c E (s.endWindow n l) := by
  unfold State.endWindow
  exact h.ite ((pres_fold (Q := Draining n M c E) _ _ h.setLine fun _ _ g => g.serveSnoop).retryFills hc hE)

/-- A line leaves way k, and the way is empty. -/
theorem Draining.leaveIc {k : Nat} {w : Way} (h : Draining n M c E s) :
    Draining n M c (fun j => E j ∨ j = k ∧ j % 16 = 15 - c.cur.toNat) (s.leaveIc n k w) := by
  have window : Draining n M c E (s.endWindow n w.tag) := h.endWindow hc hE
  unfold State.leaveIc
  refine Draining.evictIfGone (Draining.modIsle (window.arrRead.ite window) rfl fun empty j hj => ?_)
  by_cases same : j = k
  · exact same ▸ sget_sdel_same ..
  · exact (sget_sdel_ne _ _ same).trans (empty j (hj.resolve_right fun h => same h.1))

/-- Every line of the way leaves it, and no line comes into it meanwhile. -/
theorem Draining.leaveAll {ws : List (Nat × Way)} (h : Draining n M c E s) :
    Draining n M c (fun j => E j ∨ j ∈ ws.map Prod.fst ∧ j % 16 = 15 - c.cur.toNat)
      (ws.foldl (fun s w => s.leaveIc n w.1 w.2) s) := by
  induction ws generalizing s E with
  | nil => simpa using h
  | cons w ws ih =>
    have rest := ih (fun j hj => hj.elim (hE j) And.right) (h.leaveIc hc hE (k := w.1) (w := w.2))
    refine ⟨rest.mem, rest.cis, fun j hj => rest.empty j ?_⟩
    rw [List.map_cons, List.mem_cons] at hj
    tauto

end

/-- A way of the Isle cache that is being converted loses its lines; memory and the CIS_ unit stay. -/
theorem State.emptyWay_draining (s : State) (n : Nat) (hc : (s.isle n).cis.conv = true) :
    Draining n s.mem (s.isle n).cis (fun j => j % 16 = 15 - (s.isle n).cis.cur.toNat)
      (s.emptyWay n (15 - (s.isle n).cis.cur.toNat)) := by
  have unlisted : Draining n s.mem (s.isle n).cis
      (fun j => j % 16 = 15 - (s.isle n).cis.cur.toNat ∧ j ∉ skeys (s.isle n).ic) s := ⟨rfl, rfl, fun j hj => sget_of_not_mem hj.2⟩
  have all := unlisted.leaveAll hc (fun j hj => hj.1)
    (ws := (s.isle n).ic.filter fun w => decide (w.1 % 16 = 15 - (s.isle n).cis.cur.toNat))
  refine ⟨all.mem, all.cis, fun j hj => all.empty j ?_⟩
  by_cases listed : j ∈ skeys (s.isle n).ic
  · obtain ⟨w, hw, rfl⟩ := List.mem_map.mp listed
    exact .inr ⟨List.mem_map.mpr ⟨w, List.mem_filter.mpr ⟨hw, by simpa using hj⟩, rfl⟩, hj⟩
  · exact .inl ⟨hj, listed⟩

end
end Sys2Proof.Machine

/-! The Cistern: partitions are asked for, converted and accessed (R150 to R157, R169). -/

namespace Sys2Proof.Machine

/-! ### Stores and words -/

theorem sget_filter {α : Type} (d : α) (m : Store α) (f : Nat → Bool) (k : Nat) :
    sget d (m.filter fun p => f p.1) k = if f k then sget d m k else d := by
  induction m with
  | nil => simp
  | cons p m ih =>
    obtain ⟨j, v⟩ := p
    by_cases hf : f j
    · rw [List.filter_cons_of_pos (by exact hf)]
      by_cases hk : j = k
      · subst hk
        simp [sget, hf]
      · simp [sget, hk, ih]
    · rw [List.filter_cons_of_neg (by exact hf), ih]
      by_cases hk : j = k
      · subst hk
        simp [hf]
      · simp [sget, hk]

/-- A word sets a bit hi:lo when its field there is not 0. -/
theorem hasBits_bitsMask (v : W36) {hi lo : Nat} (h : lo ≤ hi) : hasBits v (bitsMask hi lo) = true ↔ fld v hi lo ≠ 0 := by
  have field : v.toNat &&& bitsMask hi lo = fld v hi lo * 2 ^ lo := by
    apply Nat.eq_of_testBit_eq
    intro i
    rw [bitsMask, fld, Nat.testBit_and, Nat.testBit_mul_two_pow, Nat.testBit_mul_two_pow, Nat.testBit_two_pow_sub_one,
      Nat.testBit_mod_two_pow, Nat.testBit_div_two_pow, show hi + 1 - lo = hi - lo + 1 by omega]
    by_cases low : lo ≤ i
    · simp [low, Bool.and_comm]
    · simp [low]
  rw [hasBits, decide_eq_true_eq, field, ne_eq, Nat.mul_eq_zero]
  simp

theorem hasBits_or (v : W36) (a b : Nat) : hasBits v (a ||| b) = true ↔ hasBits v a = true ∨ hasBits v b = true := by
  simp only [hasBits, decide_eq_true_eq, Nat.and_or_distrib_left, ne_eq, Nat.or_eq_zero_iff]
  tauto

/-- CIS_WAYCTL reserves bits 35:12 and 2:0. -/
theorem hasBits_wayctl (v : W36) : hasBits v (bitsMask 35 12 ||| bitsMask 2 0) = true ↔ 2 ^ 12 ≤ v.toNat ∨ v.toNat % 8 ≠ 0 := by
  have := v.isLt
  rw [hasBits_or, hasBits_bitsMask v (by decide), hasBits_bitsMask v (by decide), fld, fld]
  omega

/-! ### CIS_WAYCTL (R153 to R157) -/

/-- A conversion in progress first finishes its step (R156). -/
theorem Isle.request_converting {x : Isle} (h : x.cis.conv = true) (n req : Nat) :
    x.request n req = { x with cis := { x.cis with req := BitVec.ofNat 4 req } } := by
  simp only [Isle.request, h, if_true]

theorem Isle.request_more {x : Isle} (h : x.cis.conv = false) (n : Nat) {req : Nat} (more : x.cis.cur.toNat ≤ req) :
    x.request n req = { x with cis := { x.cis with req := BitVec.ofNat 4 req, conv := decide (x.cis.cur.toNat < req) } } := by
  simp only [Isle.request, h, Bool.false_eq_true, if_false, if_neg (Nat.not_lt.mpr more)]

theorem Isle.request_less {x : Isle} (h : x.cis.conv = false) (n : Nat) {req : Nat} (less : req < x.cis.cur.toNat) :
    x.request n req = { x with cis := { x.cis with req := BitVec.ofNat 4 req } }.unmap n req := by
  simp only [Isle.request, h, Bool.false_eq_true, if_false, if_pos less]

/-- Nothing is left of the partitions that are unmapped. -/
theorem Isle.unmap_mem (x : Isle) (n r : Nat) {j : Nat} (h : 0x300000 * r ≤ j) : sget 0 (x.unmap n r).cis.mem j = 0 := by
  refine (sget_filter 0 x.cis.mem (fun k => decide (k < partSize * r)) j).trans (if_neg fun kept => ?_)
  have : j < 0x300000 * r := of_decide_eq_true kept
  omega

theorem Isle.unmap_dataErr (x : Isle) (n r : Nat) {j : Nat} (h : 0x300000 * r ≤ j) (top : j < 0x2000000) :
    sget 0 (x.unmap n r).dataErr (cisAddr n j) = 0 := by
  refine (sget_filter 0 x.dataErr (fun k => decide (k < cisAddr n (partSize * r) ∨ cisAddr n 0x2000000 ≤ k)) _).trans
    (if_neg fun kept => ?_)
  have := of_decide_eq_true kept
  simp only [cisAddr, partSize] at this
  omega

theorem Isle.unmap_partworld (x : Isle) (n r : Nat) {p : Nat} (h : p < 8) :
    (x.unmap n r).cis.partworld.getLsbD p = (x.cis.partworld.getLsbD p && decide (p < r)) := by
  refine (BitVec.getLsbD_and ..).trans ?_
  rw [BitVec.getLsbD_ofNat, Nat.testBit_two_pow_sub_one]
  simp [h]

/-- The partitions that a write of CIS_WAYCTL gives up may be given up: none is in a hand-over, or of a world that its
requester does not reach. -/
def State.mayGive (s : State) (w : Who) (n req : Nat) : Prop :=
  ∀ p, p < 8 → req ≤ p → p < (s.isle n).cis.cur.toNat →
    s.partLocked n p = false ∧ (s.whoVault w = true ∨ (s.isle n).cis.partworld.getLsbD p = false)

theorem exec_cisWayctlWrite {s : State} {w : Who} {n : Fin 12} (h : s.isleOpen w n) (v : W36) :
    exec (.cisWayctlWrite w n v) s = .next (s.wayctl w n v).1 := by
  show Host.Outcome.next (s.csWrite w (isleReg n 2 0) v).1 = _
  rw [State.csWrite_isle h (by decide) (by decide) (by decide) (by decide)]
  rfl

/-- A write of CIS_WAYCTL is taken whole. -/
theorem State.wayctl_taken {s : State} {w : Who} {n : Fin 12} (h : s.isleOpen w n) {v : W36} (low : v.toNat < 2 ^ 12)
    (eights : v.toNat % 8 = 0) (few : fld v 11 8 ≤ 8) (may : s.mayGive w n (fld v 11 8)) :
    (s.wayctl w n v).1 = s.setIsle n ((s.isle n).request n (fld v 11 8)) := by
  have given (p : Nat) (hp : p ∈ (List.range 8).filter fun p => decide (fld v 11 8 ≤ p ∧ p < (s.isle n).cis.cur.toNat)) :
      s.partLocked n p = false ∧ (s.whoVault w = true ∨ (s.isle n).cis.partworld.getLsbD p = false) := by
    simp only [List.mem_filter, List.mem_range, decide_eq_true_eq] at hp
    exact may p hp.1 hp.2.1 hp.2.2
  have legal : ¬ (hasBits v (bitsMask 35 12 ||| bitsMask 2 0) || decide (8 < fld v 11 8)) = true := by
    rw [Bool.or_eq_true, hasBits_wayctl, decide_eq_true_eq]
    omega
  unfold State.wayctl
  dsimp only
  rw [State.isleAnswer_open h, if_neg, if_neg legal]
  · rfl
  · simp only [Bool.or_eq_true, Bool.and_eq_true, List.any_eq_true, Bool.not_eq_true', not_or, not_and, not_exists]
    refine ⟨fun _ p hp => ?_, fun court p hp => ?_⟩
    · simp [(given p hp).1]
    · simpa [court] using (given p hp).2

/-- A write of CIS_WAYCTL with a reserved bit or a reserved REQ changes nothing. -/
theorem State.wayctl_reserved {s : State} {w : Who} {n : Fin 12} (h : s.isleOpen w n) {v : W36}
    (bad : 2 ^ 12 ≤ v.toNat ∨ v.toNat % 8 ≠ 0 ∨ 8 < fld v 11 8) : (s.wayctl w n v).1 = s := by
  have illegal : (hasBits v (bitsMask 35 12 ||| bitsMask 2 0) || decide (8 < fld v 11 8)) = true := by
    rw [Bool.or_eq_true, hasBits_wayctl, decide_eq_true_eq]
    omega
  unfold State.wayctl
  dsimp only
  rw [State.isleAnswer_open h, if_pos illegal]
  split <;> rfl

/-! ### WAY_CONVERTED (R154, R156) -/

theorem exec_wayConverted_idle {s : State} {n : Fin 12} (idle : (s.isle n).cis.conv = false) : exec (.wayConverted n) s = .next s := by
  show (if s.isleFit n && (s.isle n).cis.conv then _ else _) = _
  rw [idle, Bool.and_false, if_neg Bool.false_ne_true]

/-- The Isle, one partition larger, asks on for the ones that it still lacks. -/
def Isle.gains (x : Isle) (n : Nat) : Isle :=
  { x with cis := { x.cis with cur := x.cis.cur + 1, conv := false } }.request n x.cis.req.toNat

theorem exec_wayConverted {s : State} {n : Fin 12} (fit : s.isleFit n = true) (conv : (s.isle n).cis.conv = true) :
    exec (.wayConverted n) s
      = .next ((s.emptyWay n (15 - (s.isle n).cis.cur.toNat)).modIsle n fun x => x.gains n) := by
  show (if s.isleFit n && (s.isle n).cis.conv then _ else _) = _
  rw [fit, conv, Bool.and_true, if_pos rfl]
  rfl

theorem Isle.gains_ic (x : Isle) (n : Nat) : (x.gains n).ic = x.ic := by
  unfold Isle.gains Isle.request
  dsimp only
  split
  · rfl
  · split <;> rfl

theorem Isle.gains_more (x : Isle) (n : Nat) (more : (x.cis.cur + 1).toNat ≤ x.cis.req.toNat) :
    (x.gains n).cis = { x.cis with cur := x.cis.cur + 1, conv := decide ((x.cis.cur + 1).toNat < x.cis.req.toNat) } := by
  rw [Isle.gains, Isle.request_more rfl n more]
  simp only [BitVec.ofNat_toNat, BitVec.setWidth_eq]

theorem Isle.gains_less (x : Isle) (n : Nat) (less : x.cis.req.toNat < (x.cis.cur + 1).toNat) :
    (x.gains n).cis.cur = x.cis.req ∧ (x.gains n).cis.req = x.cis.req ∧ (x.gains n).cis.conv = false
      ∧ ∀ j, 0x300000 * x.cis.req.toNat ≤ j → sget 0 (x.gains n).cis.mem j = 0 := by
  have same : BitVec.ofNat 4 x.cis.req.toNat = x.cis.req := by rw [BitVec.ofNat_toNat, BitVec.setWidth_eq]
  rw [Isle.gains, Isle.request_less rfl n less]
  exact ⟨same, same, rfl, fun j hj => Isle.unmap_mem _ _ _ hj⟩

/-! ### CISTERN_ACCESS (R142, R151, R152, R169) -/

/-- A message that comes has its flits counted and leaves the network; no more of the state moves. -/
theorem State.arrived_eq (s : State) (m : Msg) : ∃ straits net, s.arrived m = { s with straits, net } := by
  have crossed : ∃ straits, s.crosses m = { s with straits } := by
    unfold State.crosses
    generalize s.lane m = lane
    obtain ⟨_, a, b⟩ := lane
    dsimp only
    split
    · exact ⟨_, rfl⟩
    · split <;> split <;> exact ⟨_, rfl⟩
  obtain ⟨straits, h⟩ := crossed
  exact ⟨straits, s.net.erase m, by rw [State.arrived, State.takeMsg, h]⟩

theorem State.arrived_isle (s : State) (m : Msg) (n : Nat) : (s.arrived m).isle n = s.isle n := by
  obtain ⟨_, _, h⟩ := s.arrived_eq m
  rw [h]
  rfl

/-- An arrived message finds the gate of the Cistern as it was. -/
theorem State.arrived_cisGate (s : State) (m : Msg) (n off : Nat) (vault umf : Bool) :
    (s.arrived m).cisGate n off vault umf = s.cisGate n off vault umf := by
  obtain ⟨_, _, h⟩ := s.arrived_eq m
  rw [h]
  rfl

theorem exec_cisternAccess {s : State} {m : Msg} (h : s.comes m) :
    exec (.cisternAccess m) s = .next ((s.arrived m).cisternServe m) := by
  show (if s.agentFit m.src && s.mayArrive m then _ else _) = _
  rw [h.1, h.2, Bool.and_true, if_pos rfl]
  rfl

theorem cisAllows_unmapped {c : Cis} {off : Nat} {vault : Bool} (h : ¬ off + 64 ≤ 0x300000 * c.cur.toNat) :
    cisAllows c off vault = .absent :=
  if_pos (Nat.lt_of_not_le h)

theorem cisAllows_mapped {c : Cis} {off : Nat} {vault : Bool} (h : off + 64 ≤ 0x300000 * c.cur.toNat) :
    cisAllows c off vault = if vault = true ∨ c.partworld.getLsbD (off / 0x300000) = false then .ok else .world := by
  refine (if_neg (Nat.not_lt.mpr h)).trans ?_
  simp only [partSize]
  cases vault
  · by_cases mine : c.partworld.getLsbD (off / 0x300000) = false <;> simp [mine]
  · simp

section
variable {s : State} {n off : Nat} {vault : Bool} (fit : s.isleFit n = true)
include fit

theorem State.cisGate_unmapped (h : ¬ off + 64 ≤ 0x300000 * (s.isle n).cis.cur.toNat) : s.cisGate n off vault false = .absent := by
  simp only [State.cisGate, fit, cisAllows_unmapped h, Bool.not_true, Bool.false_eq_true, if_false]

theorem State.cisGate_other (h : off + 64 ≤ 0x300000 * (s.isle n).cis.cur.toNat)
    (no : ¬ ((vault = true ∨ (s.isle n).cis.partworld.getLsbD (off / 0x300000) = false) ∧ s.partLocked n (off / 0x300000) = false)) :
    s.cisGate n off vault false = .world := by
  simp only [State.cisGate, fit, cisAllows_mapped h, Bool.not_true, Bool.false_eq_true, if_false]
  by_cases mine : vault = true ∨ (s.isle n).cis.partworld.getLsbD (off / 0x300000) = false
  · have locked : s.partLocked n (off / partSize) = true := by
      rw [← Bool.not_eq_false]
      exact fun free => no ⟨mine, free⟩
    simp only [mine, locked, if_true, Bool.not_false, Bool.and_true]
  · simp only [mine, if_false]

theorem State.cisGate_mine (h : off + 64 ≤ 0x300000 * (s.isle n).cis.cur.toNat)
    (mine : vault = true ∨ (s.isle n).cis.partworld.getLsbD (off / 0x300000) = false)
    (free : s.partLocked n (off / 0x300000) = false) : s.cisGate n off vault false = s.isleAnswer n false := by
  have free' : s.partLocked n (off / partSize) = false := free
  simp only [State.cisGate, fit, cisAllows_mapped h, mine, free', Bool.not_true, Bool.false_eq_true, if_false, if_true,
    Bool.and_false]

end

theorem State.cisGate_ok {s : State} {n off : Nat} {vault umf : Bool} (h : s.cisGate n off vault umf = .ok) :
    cisAllows (s.isle n).cis off vault = .ok := by
  unfold State.cisGate at h
  split at h
  · cases h
  · split at h
    · assumption
    · exact absurd h ‹_›

/-! ### Reads and writes of a Cistern line -/

theorem State.isle_sndIsle (s : State) (n ev unit : Nat) (vault : Bool) :
    (s.sndIsle n ev unit vault).isle n = { s.isle n with snd := countSnd (s.isle n).snd ev unit vault 1 } := State.isle_setIsle ..

/-- With no error in the arrays a read of a Cistern line is its nonets. -/
theorem State.cisRead_clean {s : State} {n off : Nat} (mask : BitVec 64) {vault : Bool} (id : Xid) (clean : (s.isle n).dataErr = [])
    (good : (s.isle n).cis.bad = []) (ok : cisAllows (s.isle n).cis off vault = .ok) :
    s.cisRead n off mask vault id = (s.sndIsle n 6 2047 vault, .ok, cisLine (s.isle n).cis.mem off) := by
  have scan (u : State) (hu : (u.isle n).dataErr = []) : u.cisScan n off mask id = u := by
    have none : ((List.range 64).filter fun i => mask.getLsbD i && sget 0 (u.isle n).dataErr (cisAddr n off + i) != 0) = [] := by
      simp [hu]
    rw [State.cisScan, none, List.foldl_nil]
  have same := scan (s.sndIsle n 6 2047 vault) (by rw [State.isle_sndIsle]; exact clean)
  simp [State.cisRead, same, State.isle_sndIsle, ok, good]

/-- A nonet of a Cistern line is stored where the mask names it. -/
def State.cisStore (s : State) (n off : Nat) (mask : BitVec 64) (d : LineBits) (i : Nat) : State :=
  if mask.getLsbD i then
    s.modIsle n fun x => { x with
      dataErr := sset 0 x.dataErr (cisAddr n off + i) 0
      cis := { x.cis with mem := sset 0 x.cis.mem (off + i) (nonetAt d i), bad := sset false x.cis.bad (off + i) false } }
  else s

theorem State.cisStores (s : State) (n off : Nat) (mask : BitVec 64) (d : LineBits) (x : Isle) (k : Nat) :
    ∃ y, (forN k (s.setIsle n x) fun i u => u.cisStore n off mask d i) = s.setIsle n y
      ∧ ∀ j, sget 0 y.cis.mem j = if off ≤ j ∧ j < off + k ∧ mask.getLsbD (j - off) = true then nonetAt d (j - off) else sget 0 x.cis.mem j := by
  induction k with
  | zero => exact ⟨x, rfl, fun j => (if_neg (by omega)).symm⟩
  | succ k ih =>
    obtain ⟨y, hy, stored⟩ := ih
    rw [forN, hy, State.cisStore]
    by_cases named : mask.getLsbD k = true
    · rw [if_pos named, State.modIsle_eq, State.isle_setIsle, State.setIsle_setIsle]
      refine ⟨_, rfl, fun j => ?_⟩
      rw [sget_sset, stored]
      by_cases here : j = off + k
      · simp [here, named]
      · simp only [here, if_false, show (off ≤ j ∧ j < off + (k + 1) ∧ mask.getLsbD (j - off) = true)
          = (off ≤ j ∧ j < off + k ∧ mask.getLsbD (j - off) = true) by simp; omega]
    · rw [if_neg named]
      refine ⟨y, rfl, fun j => ?_⟩
      rw [stored]
      by_cases here : j = off + k
      · simp [here, named]
      · simp only [show (off ≤ j ∧ j < off + (k + 1) ∧ mask.getLsbD (j - off) = true)
          = (off ≤ j ∧ j < off + k ∧ mask.getLsbD (j - off) = true) by simp; omega]

/-- A write of a Cistern line that is allowed. -/
theorem State.cisWrite_allowed {s : State} {n off : Nat} (mask : BitVec 64) (d : LineBits) {vault : Bool}
    (ok : cisAllows (s.isle n).cis off vault = .ok) : ∃ y, s.cisWrite n off mask d vault = (s.setIsle n y, .ok)
      ∧ ∀ j, sget 0 y.cis.mem j
        = if off ≤ j ∧ j < off + 64 ∧ mask.getLsbD (j - off) = true then nonetAt d (j - off) else sget 0 (s.isle n).cis.mem j := by
  obtain ⟨y, hy, stored⟩ := s.cisStores n off mask d { s.isle n with snd := countSnd (s.isle n).snd 6 2047 vault 1 } 64
  refine ⟨y, ?_, stored⟩
  have ok' : cisAllows ((s.sndIsle n 6 2047 vault).isle n).cis off vault = .ok := by rw [State.isle_sndIsle]; exact ok
  simp only [State.cisWrite, ok']
  exact congrArg (·, Resp.ok) hy

section
variable {s : State} {m : Msg} {n off : Nat} (at_ : paClass (m.line.toNat * 64) = .cistern n off)
include at_

/-- What the gate of the Cistern refuses is answered, and that is all. -/
theorem State.cisternServe_refused (no : s.cisGate n off m.world false ≠ .ok) :
    s.cisternServe m = s.send (cmpMsg m (s.cisGate n off m.world false) none) := by
  unfold State.cisternServe
  dsimp only
  rw [at_]
  dsimp only
  generalize s.cisGate n off m.world false = r at no ⊢
  cases r with
  | ok => exact absurd rfl no
  | absent | dormant | world | rsvd | poison => rfl

/-- A read that nothing refuses, at an Isle whose Cistern has no error, gives the line. -/
theorem State.cisternServe_read (ok : s.cisGate n off m.world false = .ok) (read : m.ty = .rdn) (clean : (s.isle n).dataErr = [])
    (good : (s.isle n).cis.bad = []) : s.cisternServe m
      = (s.sndIsle n 6 2047 m.world).send (cmpMsg m .ok (some (cisLine (s.isle n).cis.mem off))) := by
  simp only [State.cisternServe, at_, ok, read, if_true, State.cisRead_clean _ _ clean good (State.cisGate_ok ok)]

/-- A write that nothing refuses stores the nonets that its mask names. -/
theorem State.cisternServe_write (ok : s.cisGate n off m.world false = .ok) (write : m.ty = .wrl ∨ m.ty = .wrn) :
    ∃ y, s.cisternServe m = (s.setIsle n y).send (cmpMsg m .ok none)
      ∧ ∀ j, sget 0 y.cis.mem j = if off ≤ j ∧ j < off + 64 ∧ (if m.ty = .wrl then BitVec.allOnes 64 else m.mask).getLsbD (j - off) = true
        then nonetAt m.data (j - off) else sget 0 (s.isle n).cis.mem j := by
  obtain ⟨y, hy, stored⟩ :=
    State.cisWrite_allowed (if m.ty = .wrl then BitVec.allOnes 64 else m.mask) m.data (State.cisGate_ok ok)
  refine ⟨y, ?_, stored⟩
  have noRead : m.ty ≠ .rdn := by rcases write with h | h <;> rw [h] <;> decide
  simp only [State.cisternServe, at_, ok, noRead, if_false, hy]

end

/-- Settles O38: CIS_WAYCTL, the way converted, and the accesses of the Cistern window, each by what its own operation does. -/
theorem cisternPartitions : Obligations.CisternPartitions := by
  unfold Obligations.CisternPartitions
  intro s w n v m off x c req mask
  refine ⟨fun opened low eights few may => ?taken, fun opened bad => ?reserved, fun fit conv => ?converted,
    fun _ idle => exec_wayConverted_idle idle, fun at_ fit comes => ?access⟩
  case taken =>
    have done : exec (.cisWayctlWrite w n v) s = .next (s.setIsle n (x.request n req)) := by
      rw [exec_cisWayctlWrite opened, State.wayctl_taken opened low eights few may]
    refine ⟨fun conv => ?_, fun still more => ?_, fun still less => ⟨_, done, ?_⟩⟩
    · rw [done, Isle.request_converting conv]
    · rw [done, Isle.request_more still n more]
    · rw [State.isle_setIsle, Isle.request_less still n less]
      exact ⟨rfl, fun j hj top => Isle.unmap_dataErr _ n req hj top, rfl, fun p hp => Isle.unmap_partworld _ n req hp,
        fun j hj => Isle.unmap_mem _ n req hj⟩
  case reserved => rw [exec_cisWayctlWrite opened, State.wayctl_reserved opened bad]
  case converted =>
    obtain ⟨memory, cis, empty⟩ := s.emptyWay_draining n conv
    refine ⟨_, exec_wayConverted fit conv, ?_⟩
    rw [State.modIsle_eq, State.isle_setIsle]
    generalize s.emptyWay n _ = e at memory cis empty ⊢
    refine ⟨⟨fun more => ?_, fun less => ?_⟩, memory, fun j hj => ?_⟩
    · have gained := (e.isle n).gains_more n
      rw [cis] at gained
      exact gained more
    · have gained := (e.isle n).gains_less n
      rw [cis] at gained
      exact gained less
    · rw [Isle.gains_ic]
      exact empty j hj
  case access =>
    have cisEq : ((s.arrived m).isle n).cis = c := by rw [State.arrived_isle]
    have gate := s.arrived_cisGate m n off m.world false
    rw [exec_cisternAccess comes]
    refine ⟨fun mapped mine free ok => ⟨fun read clean good => ?_, fun write => ?_⟩, fun unmapped => ?_, fun mapped no => ?_,
      fun mapped mine free r answer refuses => ?_⟩
    · rw [State.cisGate_mine fit mapped mine free, ok] at gate
      rw [State.cisternServe_read at_ gate read (by rw [State.arrived_isle]; exact clean) (by rw [cisEq]; exact good), cisEq]
    · rw [State.cisGate_mine fit mapped mine free, ok] at gate
      obtain ⟨y, served, stored⟩ := State.cisternServe_write at_ gate write
      rw [cisEq] at stored
      exact ⟨_, congrArg _ served, by rw [State.isle_setIsle], fun j => by rw [State.isle_setIsle]; exact stored j⟩
    · rw [State.cisGate_unmapped fit unmapped] at gate
      rw [State.cisternServe_refused at_ (by rw [gate]; decide), gate]
    · rw [State.cisGate_other fit mapped no] at gate
      rw [State.cisternServe_refused at_ (by rw [gate]; decide), gate]
    · rw [State.cisGate_mine fit mapped mine free, answer] at gate
      rw [State.cisternServe_refused at_ (by rw [gate]; exact refuses), gate]

end Sys2Proof.Machine

/-! The SMBus front end, SPDM, the event recorder and the unit counters, and two plain registers (R9 to R13, R365, R392, R401,
R410 to R415, R425). -/

namespace Sys2Proof.Machine

/-! ### SMBus (R365, R392) -/

/-- An SPDM response has gone out by a transport. -/
def State.spdmReply (s : State) (p : Transport) (bs : List Octet) : State :=
  match p with
  | .smbus => { s with umf := { s.umf with spdm := s.umf.spdm ++ [bs] } }
  | .port q => s.portSend q (.spdm bs) bs.length

section
variable {s : State} (serves : s.umfServes = true)
include serves

theorem exec_smbusMctpWrite (bs : List Octet) (pecOk : Bool) : exec (.smbusMctpWrite bs pecOk) s
    = .next { s with umf := { s.umf with sclHeld := false, mctp := if pecOk then s.umf.mctp ++ [bs] else s.umf.mctp } } := by
  show execSmbusMctpWrite bs pecOk s = _
  rw [execSmbusMctpWrite, serves]
  cases pecOk <;> rfl

theorem exec_smbusMailboxWrite {i : Fin 2} {m : Nat} (box : s.smbBox i = some m) (bs : List Octet) (pecOk : Bool) :
    exec (.smbusMailboxWrite i bs pecOk) s = .next (if pecOk && decide (1 ≤ bs.length ∧ bs.length ≤ 64)
      then s.smbTake.setBox m ((s.box m).writeOctets 0 bs) else s.smbTake) := by
  have box' : s.smbTake.smbBox i = some m := box
  show execSmbusMailboxWrite i bs pecOk s = _
  simp only [execSmbusMailboxWrite, serves, box', Bool.not_true, Bool.false_eq_true, if_false]
  split <;> rfl

theorem exec_smbusMailboxRead {i : Fin 2} {m : Nat} (box : s.smbBox i = some m) : exec (.smbusMailboxRead i) s
    = .next { s with umf := { s.umf with sclHeld := false, smbOut := (s.box m).readOctets 0 64 } } := by
  have box' : s.smbTake.smbBox i = some m := box
  show execSmbusMailboxRead i s = _
  simp only [execSmbusMailboxRead, serves, box', Bool.not_true, Bool.false_eq_true, if_false]
  rfl

/-! ### SPDM (R401) -/

/-- A response goes back by the transport of its request, where its port's link is up. -/
theorem State.spdmSend_serving (p : Transport) (up : ∀ q, p = .port q → (s.port q).link = 2) (bs : List Octet) :
    s.spdmSend p bs = .next (s.spdmReply p bs) := by
  unfold State.spdmSend
  rw [serves]
  cases p with
  | smbus => rfl
  | port q =>
    have linked : (s.port q).linkUp = true := by rw [Port.linkUp, up q rfl]; rfl
    simp only [linked, Bool.not_true, Bool.false_eq_true, if_false, if_true, State.spdmReply]

end

theorem State.certificates (s : State) : (List.range 4).flatMap (fun k => s.certificate k)
    = s.certificate 0 ++ (s.certificate 1 ++ (s.certificate 2 ++ s.certificate 3)) := by
  rw [show List.range 4 = [0, 1, 2, 3] from rfl]
  simp only [List.flatMap_cons, List.flatMap_nil, List.append_nil]

theorem exec_getMeasurements_one (s : State) (p : Transport) (a : Fin 6) : exec (.getMeasurements p (BitVec.ofNat 8 (a.val + 1))) s
    = s.spdmSend p ([0x13, 0x60, 0] ++ Config.spdmBody 5 ++ bigEndian 48 (s.measured (a.val + 1)).toNat) := by
  have index : (BitVec.ofNat 8 (a.val + 1)).toNat = a.val + 1 := by
    rw [BitVec.toNat_ofNat]
    omega
  show execGetMeasurements p _ s = _
  simp only [execGetMeasurements, index]
  rw [if_neg (by omega), if_neg (by omega), if_pos (by omega)]

/-! ### The recorder (R410 to R415) -/

theorem nextOfSource_singleton (r : Rec) : nextOfSource [r] r.src.toNat = some r := by
  simp [nextOfSource]

/-- A record that comes alone is the one granted. -/
theorem Evr.granted_singleton (e : Evr) (r : Rec) : e.granted [r] = some r := by
  have only : arbitrate 16 e.ptr.val (fun k => [r].any fun r => r.src.toNat == k) = some r.src.toNat :=
    arbitrate_eq_some r.src.isLt (by simp) fun b _ hb => by simp at hb; rw [hb]
  rw [Evr.granted, only]
  exact nextOfSource_singleton r

theorem exec_recordArrives_one {s : State} {r : Rec} (h : s.evr.travel = [r]) :
    exec (.recordArrives 1) s = .next { s with evr := { s.evr with travel := [] }.accept r } := by
  show execRecordArrives 1 s = _
  simp only [execRecordArrives, h, List.take_one, List.drop_one, List.head?_cons, Option.toList_some, List.tail_cons,
    List.length_singleton, Evr.arrive, Evr.granted_singleton]

theorem Evr.accept_room (e : Evr) (r : Rec) (sat : e.seqsat = false) (room : e.queue.length < 256) :
    e.accept r = { e with queue := e.queue ++ [r], ptr := Fin.ofNat 16 (r.src.toNat + 1) } := by
  simp only [Evr.accept, sat, Bool.false_or, decide_eq_true_eq, if_neg (Nat.not_le.mpr room)]

theorem Evr.accept_full (e : Evr) (r : Rec) (full : 256 ≤ e.queue.length) :
    e.accept r = { e with ptr := Fin.ofNat 16 (r.src.toNat + 1), dropcnt := e.dropcnt + 1, lost := satAdd e.lost 1 } := by
  simp only [Evr.accept, full, decide_true, Bool.or_true, if_true, Evr.dropOne]

section
variable {s : State} {r : Rec} {q : List Rec} (h : s.evr.queue = r :: q)
include h

/-- While a clear runs the queue does not drain. -/
theorem exec_recordStore_clearing (clearing : s.evr.clearing = true) : exec .recordStore s = .next s := by
  show execRecordStore s = _
  simp only [execRecordStore, h, clearing, if_true]

theorem exec_recordStore_saturated (idle : s.evr.clearing = false) (sat : s.evr.seqsat = true) : exec .recordStore s
    = .next { s with evr := { s.evr with queue := q }.dropOne } := by
  show execRecordStore s = _
  simp only [execRecordStore, h, idle, sat, Bool.false_eq_true, if_false, if_true]

theorem exec_recordStore_live (idle : s.evr.clearing = false) (live : s.evr.seqsat = false) : exec .recordStore s
    = .next { s with evr := { s.evr with queue := q }.store r } := by
  show execRecordStore s = _
  simp only [execRecordStore, h, idle, live, Bool.false_eq_true, if_false]

end

theorem Evr.filled_eq (e : Evr) (q : Nat) : ∃ tnext tfull,
    e.filled q = { e with ffill := if q < 4096 then BitVec.ofNat 13 (q + 1) else e.ffill, tnext, tfull } := by
  unfold Evr.filled
  split
  · exact ⟨_, _, rfl⟩
  · exact ⟨_, _, rfl⟩

/-- A record is stored in the slot of its SEQ; only the slots, the fill fields, SEQ and LOST move. -/
theorem Evr.store_eq (e : Evr) (r : Rec) : ∃ tnext tfull, e.store r = { e with
    slots := sset {} e.slots (slotOf e.seq.toNat) { r with seq := e.seq, lost := e.lost }
    seq := e.seq + 1, lost := 0, seqsat := decide (e.seq = BitVec.allOnes 44)
    ffill := if e.seq.toNat < 4096 then BitVec.ofNat 13 (e.seq.toNat + 1) else e.ffill, tnext, tfull } := by
  obtain ⟨tnext, tfull, filled⟩ := e.filled_eq e.seq.toNat
  have last : (e.seq.toNat == 2 ^ 44 - 1) = decide (e.seq = BitVec.allOnes 44) := by
    rw [beq_eq_decide, decide_eq_decide, ← BitVec.toNat_inj, BitVec.toNat_allOnes]
  exact ⟨tnext, tfull, by rw [Evr.store, filled, last]⟩

theorem exec_evrWindowRead (s : State) (w : Who) (k : Fin 16) : exec (.evrWindowRead w k) s
    = .next { s with evr := s.evr.setReader (s.rdrOf w) { s.evr.reader (s.rdrOf w) with
        shadow := if k.val = 0 then sget {} s.evr.slots (s.evr.reader (s.rdrOf w)).slot.toNat else (s.evr.reader (s.rdrOf w)).shadow
        slot := if k.val = 15 ∧ (s.evr.reader (s.rdrOf w)).auto = true then (s.evr.reader (s.rdrOf w)).slot + 1
          else (s.evr.reader (s.rdrOf w)).slot } } := by
  show Host.Outcome.next (s.windowRead w k.val).1 = _
  unfold State.windowRead
  dsimp only
  generalize s.evr.reader (s.rdrOf w) = r
  by_cases first : k.val = 0
  · simp [first]
  · by_cases last : k.val = 15 ∧ r.auto = true
    · simp [last]
    · simp [first, last]

/-! ### Unit counters (R425) -/

/-- The counter's registers are open to the requester: its unit lets the access through, and its world sees the counter. -/
def State.cntOpen (s : State) (w : Who) (u : SndUnit) (j : Fin 8) : Prop :=
  match u with
  | .isle n => s.isleOpen w n
  | .keystone => s.keyOpen w 12 (16 * j.val + 4)

theorem seen_of_world {vw vault : Bool} (seen : vw = false ∨ vault = true) : (vw && !vault) = false := by
  rcases seen with rfl | rfl
  · rfl
  · exact Bool.and_false vw

/-- The word address of a register within its unit's block gives its sub-block and its place there. -/
theorem regPlace {sub o : Nat} (ho : o < 0x10000000) :
    (0x10000000 * sub + o) / 0x10000000 = sub ∧ (0x10000000 * sub + o) % 0x10000000 = o := by omega

theorem State.isleView_snd (s : State) (w : Who) (n : Fin 12) {o : Nat} (ho : o < 0x10000000) :
    s.isleView w n.val (0x10000000 * 4 + o) = s.sndBlock w (.isle n) o := by
  have same : Fin.ofNat 12 n.val = n := Fin.ofNat_val_eq_self n
  simp only [State.isleView, regPlace ho, same]

theorem State.keyView_snd (s : State) (w : Who) {o : Nat} (ho : o < 0x10000000) :
    s.keyView w (0x10000000 * 12 + o) = s.sndBlock w .keystone o := by
  simp only [State.keyView, regPlace ho]

/-- SND_ULO of a counter that its requester sees. -/
theorem State.sndBlock_ulo {s : State} {w : Who} {u : SndUnit} {j : Fin 8}
    (seen : (sget ({} : SndCnt) (s.sndOf u) j.val).vw = false ∨ s.whoVault w = true) :
     s.sndBlock w u (16 * j.val + 4) = { rd := s.uloRead w u j, wr := fun v => s.uloWrite w u j v } := by
  have world := seen_of_world seen
  have counter : (16 * j.val + 4) / 16 = j.val := by omega
  have place : (16 * j.val + 4) % 16 = 4 := by omega
  simp only [State.sndBlock, State.sndView, counter, place, world, if_pos (show 16 * j.val + 4 < 0x80 by omega),
    Bool.false_and, Bool.false_eq_true, if_false]

section
variable {s : State} {w : Who} {u : SndUnit} {j : Fin 8} (opened : s.cntOpen w u j)
  (seen : (sget ({} : SndCnt) (s.sndOf u) j.val).vw = false ∨ s.whoVault w = true)
include opened seen

theorem State.sndAnswer_open : s.sndAnswer w u j = .ok := by
  have world := seen_of_world seen
  cases u with
  | isle n => simp only [State.sndAnswer, State.isleAnswer_open opened, world, Bool.false_eq_true, if_false]
  | keystone => simp only [State.sndAnswer, world, Bool.false_eq_true, if_false]

/-- An access to SND_ULO reaches the counter's own view. -/
theorem State.cs_ulo : (s.csRead w (uloReg u j)).1 = (s.uloRead w u j).1
    ∧ ∀ v, (s.csWrite w (uloReg u j) v).1 = (s.uloWrite w u j v).1 := by
  have view := State.sndBlock_ulo seen
  have low : 16 * j.val + 4 < 0x10000000 := by omega
  have word : (16 * j.val + 4) % 4 = 0 := by omega
  cases u with
  | isle n =>
    refine ⟨?_, fun v => ?_⟩
    · rw [uloReg, State.csRead_isle opened (by decide) low word (by decide), s.isleView_snd w n low, view]
    · rw [uloReg, State.csWrite_isle opened (by decide) low word (by decide), s.isleView_snd w n low, view]
  | keystone =>
    refine ⟨?_, fun v => ?_⟩
    · rw [uloReg, State.csRead_key opened (by decide) low word, s.keyView_snd w low, view]
    · rw [uloReg, State.csWrite_key opened (by decide) low word, s.keyView_snd w low, view]

theorem exec_sndUloRead : exec (.sndUloRead w u j) s = .next (s.setSnd u j { sget ({} : SndCnt) (s.sndOf u) j.val with
    uhi := (sget ({} : SndCnt) (s.sndOf u) j.val).count.extractLsb' 24 24 }) := by
  show Host.Outcome.next (s.csRead w (uloReg u j)).1 = _
  rw [(State.cs_ulo opened seen).1, State.uloRead, State.sndAnswer_open opened seen]

theorem exec_sndUloWrite {v : W36} (legal : hasBits v (bitsMask 35 24) = false) : exec (.sndUloWrite w u j v) s
    = .next (s.setSnd u j { sget ({} : SndCnt) (s.sndOf u) j.val with count := v.setWidth 48 }) := by
  show Host.Outcome.next (s.csWrite w (uloReg u j) v).1 = _
  rw [(State.cs_ulo opened seen).2, State.uloWrite, State.sndAnswer_open opened seen]
  simp only [legal, Bool.false_eq_true, if_false]

end

/-! ### Plain registers (R9 to R11, R366) -/

/-- A write of a plain register with no reserved encoding stores it, or is RSVD. -/
theorem View.reg_wr (s : State) (x : W36) (rsvd : Nat) (f : W36 → State) (v : W36) :
    ((View.reg s x rsvd (fun _ => false) f).wr v).1 = if hasBits v rsvd then s else f v := by
  simp only [View.reg, Bool.or_false]
  split <;> rfl

/-- PWR_TLO of the package. -/
theorem exec_registerWrite_pwrTlo {s : State} {w : Who} (opened : s.keyOpen w 8 0x10) (v : W36) :
    exec (.registerWrite w 0xFF01080000010 v) s
      = .next (if hasBits v (bitsMask 35 32) then s else { s with pwr := { s.pwr with tlo := v.setWidth 32 } }) := by
  show Host.Outcome.next (s.csWrite w (keyReg 8 0x10) v).1 = _
  rw [State.csWrite_key opened (by decide) (by decide) (by decide)]
  exact congrArg _ (View.reg_wr ..)

/-- PWR_TLO of an Isle. -/
theorem exec_registerWrite_isleTlo {s : State} {w : Who} {n : Fin 12} (opened : s.isleOpen w n) (v : W36) :
    exec (.registerWrite w (BitVec.ofNat 52 (isleReg n 3 0)) v) s
      = .next (if hasBits v (bitsMask 35 32) then s else s.setIsle n { s.isle n with tlo := v.setWidth 32 }) := by
  have address : (BitVec.ofNat 52 (isleReg n 3 0)).toNat = isleReg n 3 0 := by
    rw [BitVec.toNat_ofNat, Nat.mod_eq_of_lt]
    unfold isleReg
    omega
  show Host.Outcome.next (s.csWrite w (BitVec.ofNat 52 (isleReg n 3 0)).toNat v).1 = _
  rw [address, State.csWrite_isle opened (by decide) (by decide) (by decide) (by decide)]
  exact congrArg _ (View.reg_wr ..)

/-- Block 14 of control space holds no unit: a write there is ABSENT (R12, R38). -/
theorem exec_registerWrite_nowhere (s : State) (w : Who) (v : W36) : exec (.registerWrite w 0xFF00E00000000 v) s = .next s := by
  have nowhere : csUnit 0xFF00E00000000 = .none := by decide
  have site : s.csSite w 0xFF00E00000000 (some v) = none := by rw [State.csSite, nowhere]
  have view : s.csView w 0xFF00E00000000 = (s, some (View.refuse s .absent)) := by rw [State.csView, nowhere]; rfl
  show Host.Outcome.next (s.csWrite w 0xFF00E00000000 v).1 = _
  rw [State.csWrite, site, view]
  rfl

/-- Settles O59, transaction by transaction: each clause is what its own row does. -/
theorem sidebandRecorderAndRegisters : Obligations.SidebandRecorderAndRegisters := by
  unfold Obligations.SidebandRecorderAndRegisters
  intro s w n i j k p bs v r taken e rd reply refusal
  refine ⟨fun serves => ?smbus, fun serves up asym hash nonce off len => ?spdm, fun travel live => ?arrives, fun q queue idle => ?stores,
    fun q queue clearing => exec_recordStore_clearing queue clearing, exec_evrWindowRead s w k, ?counters,
    fun opened => exec_registerWrite_pwrTlo opened v, fun opened => exec_registerWrite_isleTlo opened v, exec_registerWrite_nowhere s w v⟩
  case smbus =>
    refine ⟨exec_smbusMctpWrite serves bs true, exec_smbusMctpWrite serves bs false, fun m box => ⟨fun any few => ?_, ?_, ?_⟩⟩
    · rw [exec_smbusMailboxWrite serves box, if_pos (by simp [any, few])]
      rfl
    · exact exec_smbusMailboxWrite serves box bs false
    · exact exec_smbusMailboxRead serves box
  case spdm =>
    have sends (bs : List Octet) : s.spdmSend p bs = .next (reply bs) := State.spdmSend_serving serves p up bs
    refine ⟨sends _, sends _, sends _, sends _, ?_, sends _, fun slot other => ⟨?_, ?_⟩, sends _, fun a => ?_⟩
    · rw [← State.certificates]
      exact sends _
    · exact (congrArg (s.spdmSend p) (if_neg other)).trans (sends _)
    · exact (congrArg (s.spdmSend p) (if_neg other)).trans (sends _)
    · rw [exec_getMeasurements_one, sends]
  case arrives =>
    rw [exec_recordArrives_one travel]
    refine ⟨fun room => ?_, fun full => ?_⟩
    · rw [Evr.accept_room { e with travel := [] } r live room]
    · rw [Evr.accept_full { e with travel := [] } r full]
  case stores =>
    refine ⟨fun live => ?_, fun sat => exec_recordStore_saturated queue idle sat⟩
    obtain ⟨tnext, tfull, stored⟩ := Evr.store_eq { e with queue := q } r
    rw [exec_recordStore_live queue idle live, stored]
    exact ⟨_, rfl, sget_sset_same .., rfl, rfl, rfl, rfl, rfl, rfl⟩
  case counters =>
    intro u opened c seen
    have opened : s.cntOpen w u j := by
      rcases opened with ⟨rfl, h⟩ | ⟨rfl, h⟩
      · exact h
      · exact h
    exact ⟨exec_sndUloRead opened seen, exec_sndUloWrite opened seen⟩

end Sys2Proof.Machine

/-! The watchdog of an Isle, and the guest sites of the Gatehouse (R24, R221, R223 to R226, R235 to R242). -/

namespace Sys2Proof.Machine

/-! ### What the homes and memory leave alone -/

/-- What no operation of a home or of memory touches: the Isles, their Straits, the admitted Isles, and whether a purge runs. -/
def State.aside (s : State) : Store Isle × Store Strait × BitVec 12 × Bool := (s.isles, s.straits, s.home.mask, s.home.purging)

theorem State.aside_congr {s u : State} (isles : u.isles = s.isles) (straits : u.straits = s.straits) (mask : u.home.mask = s.home.mask)
    (purging : u.home.purging = s.home.purging) : u.aside = s.aside := by
  rw [State.aside, isles, straits, mask, purging]
  rfl

/-- What every step of a fold keeps, the fold keeps. -/
theorem foldl_keeps {σ α β : Type} {g : σ → β} {f : σ → α → σ} (keeps : ∀ s a, g (f s a) = g s) (l : List α) (s : σ) :
    g (l.foldl f s) = g s := by
  induction l generalizing s with
  | nil => rfl
  | cons a l ih => rw [List.foldl_cons, ih, keeps]

@[simp] theorem State.aside_ite (p : Prop) [Decidable p] (s u : State) : (if p then s else u).aside = if p then s.aside else u.aside :=
  apply_ite ..

section
variable (s : State)

@[simp] theorem State.aside_setSlice (k : Nat) (x : Slice) : (s.setSlice k x).aside = s.aside := State.aside_congr rfl rfl rfl rfl
@[simp] theorem State.aside_setPort (p : Nat) (x : Port) : (s.setPort p x).aside = s.aside := State.aside_congr rfl rfl rfl rfl
@[simp] theorem State.aside_setChan (c : Nat) (x : Chan) : (s.setChan c x).aside = s.aside := State.aside_congr rfl rfl rfl rfl
@[simp] theorem State.aside_sndKey (ev unit : Nat) (vault : Bool) (k : Nat) : (s.sndKey ev unit vault k).aside = s.aside := by
  unfold State.sndKey
  exact State.aside_congr rfl rfl rfl rfl
@[simp] theorem State.aside_recKey (pos : Nat) (code : BitVec 16) (unit : Nat) (ps : List Reg) (world : Bool) (ctx : BitVec 12)
    (thread : BitVec 10) : (s.recKey pos code unit ps world ctx thread).aside = s.aside := State.aside_congr rfl rfl rfl rfl
@[simp] theorem State.aside_setTxn (n : LineNo) (t : Txn) : (s.setTxn n t).aside = s.aside := State.aside_congr rfl rfl rfl rfl
@[simp] theorem State.aside_dropTxn (n : LineNo) : (s.dropTxn n).aside = s.aside := State.aside_congr rfl rfl rfl rfl
@[simp] theorem State.aside_setEntry (n : LineNo) (e : Entry) : (s.setEntry n e).aside = s.aside := State.aside_congr rfl rfl rfl rfl
@[simp] theorem State.aside_memPut (n : LineNo) (v : LineVal) : (s.memPut n v).aside = s.aside := State.aside_congr rfl rfl rfl rfl

@[simp] theorem State.aside_send (m : Msg) : (s.send m).aside = s.aside := by
  unfold State.send
  split <;> exact State.aside_congr rfl rfl rfl rfl

@[simp] theorem State.aside_snoops (ty : MsgTy) (as : List (BitVec 4)) (r : Msg) (cause : BitVec 2) :
    (s.snoops ty as r cause).aside = s.aside := foldl_keeps (g := State.aside) (fun s _ => s.aside_send _) as s

@[simp] theorem State.aside_reserve (k : Nat) (r : Resource) : (s.reserve k r).aside = s.aside := by
  unfold State.reserve
  split <;> simp

@[simp] theorem State.aside_entryRead (n : LineNo) : (s.entryRead n).aside = s.aside := by
  unfold State.entryRead
  split
  · exact State.aside_congr rfl rfl rfl rfl
  · rfl

/-! ### Memory behind a home -/

@[simp] theorem State.aside_portSend (p : Nat) (t : PortTx) (k : Nat) : (s.portSend p t k).aside = s.aside := by
  simp [State.portSend]

@[simp] theorem State.aside_dramTouch (c : Nat) (n : LineNo) (wr vault : Bool) : (s.dramTouch c n wr vault).aside = s.aside := by
  simp [State.dramTouch]

@[simp] theorem State.aside_drainOldest (c : Nat) : (s.drainOldest c).aside = s.aside := by
  unfold State.drainOldest
  split <;> simp [State.drainWrite]

@[simp] theorem State.aside_queueWrite (c : Nat) (n : LineNo) (v : LineVal) (vault : Bool) : (s.queueWrite c n v vault).aside = s.aside := by
  simp [State.queueWrite]

@[simp] theorem State.aside_memWrite (n : LineNo) (v : LineVal) (vault : Bool) : (s.memWrite n v vault).aside = s.aside := by
  unfold State.memWrite
  split
  · split <;> simp
  · simp

@[simp] theorem State.aside_memRead (n : LineNo) : (s.memRead n).1.aside = s.aside := by
  unfold State.memRead
  split
  · split <;> simp
  · rfl

@[simp] theorem State.aside_memRd (p : Nat) (n : LineNo) (a : Nat) : (s.memRd p n a).aside = s.aside := by
  simp [State.memRd]

@[simp] theorem State.aside_cxlRead (w : OWin) (n : LineNo) : (s.cxlRead w n).1.aside = s.aside := by
  unfold State.cxlRead
  dsimp only
  split_ifs
  · simp
  · rfl
  · exact foldl_keeps (g := State.aside) (fun s _ => s.aside_memRd _ _ _) _ _

@[simp] theorem State.aside_cxlWrite (w : OWin) (n : LineNo) (v : LineVal) : (s.cxlWrite w n v).aside = s.aside := by
  unfold State.cxlWrite
  dsimp only
  split_ifs
  · rfl
  · exact (foldl_keeps (g := State.aside) (fun s _ => s.aside_portSend _ _ _) _ _).trans (s.aside_setPort ..)
  · simp [State.looseSend]

@[simp] theorem State.aside_homeRead (n : LineNo) : (s.homeRead n).1.aside = s.aside := by
  unfold State.homeRead
  split <;> simp

@[simp] theorem State.aside_homeWrite (n : LineNo) (v : LineVal) (vault : Bool) : (s.homeWrite n v vault).aside = s.aside := by
  unfold State.homeWrite
  split <;> simp

/-! ### Transactions

Every branch of an operation ends in operations that leave them alone. -/

@[simp] theorem State.aside_askMem (n : LineNo) (t : Txn) : (s.askMem n t).aside = s.aside := by
  rw [← s.aside_homeRead n]
  unfold State.askMem
  split <;> simp [*]

@[simp] theorem State.aside_sendSnoops (n : LineNo) (t : Txn) (cause : BitVec 2) (os ss : Option MsgTy) :
    (s.sendSnoops n t cause os ss).1.aside = s.aside := by
  unfold State.sendSnoops
  cases os <;> cases ss <;> simp

@[simp] theorem State.aside_openTxn (m : Msg) (way : Option (Fin 16)) : (s.openTxn m way).aside = s.aside := by
  unfold State.openTxn
  dsimp only
  split
  -- TRW, by its operation
  case h_8 => split <;> simp
  all_goals simp

@[simp] theorem State.aside_purgeMore (n : BitVec 4) (l : LineNo) : (s.purgeMore n l).aside = s.aside := by
  unfold State.purgeMore
  split <;> exact State.aside_congr rfl rfl rfl rfl

@[simp] theorem State.aside_grant (n : LineNo) (t : Txn) : (s.grant n t).aside = s.aside := by
  unfold State.grant
  dsimp only
  repeat' split
  all_goals simp

@[simp] theorem State.aside_progress (n : LineNo) : (s.progress n).aside = s.aside := by
  unfold State.progress
  split
  · rfl
  · split
    · rfl
    · dsimp only
      split <;> simp

@[simp] theorem State.aside_close (n : LineNo) : (s.close n).aside = s.aside := by
  unfold State.close
  dsimp only
  repeat' split
  all_goals simp

@[simp] theorem State.aside_settle (n : LineNo) : (s.settle n).aside = s.aside := by
  unfold State.settle
  dsimp only
  repeat' split
  all_goals simp

/-! ### Purges -/

@[simp] theorem State.aside_purgeLine (n : Nat) (l : LineNo) : (s.purgeLine n l).1.aside = s.aside := by
  unfold State.purgeLine
  dsimp only
  repeat' split
  all_goals simp

@[simp] theorem State.aside_closeOwn (a : BitVec 4) : (s.closeOwn a).aside = s.aside :=
  foldl_keeps (g := State.aside) (fun s p => by simp only [State.aside_reserve]; exact State.aside_congr rfl rfl rfl rfl) _ s

end

@[simp] theorem State.aside_purgeRecords (s : State) (n : Nat) (ls : List LineNo) : (s.purgeRecords n ls).aside = s.aside := by
  fun_induction State.purgeRecords s n ls with
  | case1 => rfl
  | case2 s a b c d ls ih => rw [ih, State.aside_recKey]
  | case3 s ls => simp

theorem State.aside_purgeLines (n : Nat) (ls : List LineNo) (r : State × List LineNo) :
    (ls.foldl (fun (r : State × List LineNo) l =>
      let p := r.1.purgeLine n l
      (p.1, if p.2 then r.2 ++ [l] else r.2)) r).1.aside = r.1.aside :=
  foldl_keeps (g := fun r : State × List LineNo => r.1.aside) (fun r l => r.1.aside_purgeLine n l) ls r

/-- A purge that starts runs; the Isles, their Straits and the mask are as before. -/
theorem State.aside_purgeStart (s : State) (n : Nat) (k : Report) (done : List LineNo) :
    (s.purgeStart n k done).aside = (s.isles, s.straits, s.home.mask, true) := by
  unfold State.purgeStart
  extract_lets a why cached queues net old home t u
  rw [State.aside_purgeRecords]
  have swept : ((u.purgeLines n).foldl _ (u.closeOwn a, done)).1.aside = (s.isles, s.straits, s.home.mask, true) :=
    (State.aside_purgeLines n (u.purgeLines n) (u.closeOwn a, done)).trans (u.aside_closeOwn a)
  exact (State.aside_congr rfl rfl rfl rfl).trans swept

/-- A report that finds its Isle admitted takes it out of the mask, and a purge runs. -/
theorem State.aside_purge (s : State) (n : Fin 12) (k : Report) :
    (s.purge n k).aside = (s.isles, s.straits, s.home.mask &&& ~~~((1 : BitVec 12) <<< n.val), true) := by
  unfold State.purge
  dsimp only
  split
  next running => rw [State.aside, running]
  next => exact State.aside_purgeStart ..

/-! ### An Isle that is lost (R224 to R226) -/

/-- A claim moves the ledger only. -/
theorem State.claim_eq (s : State) (q core hub : Nat) : ∃ l, (s.claim q core hub).1 = { s with ledger := l } := by
  unfold State.claim
  dsimp only
  split
  · exact ⟨_, rfl⟩
  · split <;> exact ⟨_, rfl⟩

section
variable (s : State) (n : Nat)

theorem State.home_relane (f : Strait → Strait) : (s.relane n f).home = s.home := by
  unfold State.relane
  dsimp only
  split
  · obtain ⟨l, h⟩ := (s.modStrait n f).claim_eq (reqIsle n) 0 (((s.modStrait n f).strait n).hub - (s.strait n).hub)
    rw [h]
    rfl
  · rfl

theorem State.home_stopRecal : (s.stopRecal n).home = s.home := by
  unfold State.stopRecal
  split
  · exact State.home_relane ..
  · rfl

theorem State.home_trwAbort : (s.trwAbort n).home = s.home :=
  foldl_keeps (g := State.home) (f := fun (s : State) (k : Nat) => s.slotEnd n k .aborted) (fun _ _ => rfl) _ s

theorem State.home_release (q core hub : Nat) : (s.release q core hub).home = s.home := by
  unfold State.release
  rfl

theorem State.isle_release (q core hub : Nat) : (s.release q core hub).isle n = s.isle n := by
  unfold State.release
  rfl

theorem State.home_coreGone (q : Nat) : (s.coreGone q).home = s.home := by
  simp [State.coreGone, State.coreScope]

theorem State.home_forgetThreads : (s.forgetThreads n).home = s.home := by
  unfold State.forgetThreads
  rfl

theorem State.isle_forgetThreads (j : Nat) : (s.forgetThreads n).isle j = s.isle j := by
  unfold State.forgetThreads
  rfl

theorem State.home_isleScope : (s.isleScope n).home = s.home := by
  rw [State.isleScope, State.modIsle_eq, State.setIsle_home]
  exact foldl_keeps (g := State.home) (fun s c => s.home_coreGone (n * 24 + c)) _ s

theorem State.lines_isleScope : ((s.isleScope n).isle n).lines = [] := by
  rw [State.isleScope, State.modIsle_eq, State.isle_setIsle]

/-- What a report must leave right: the homes, the Isle's lines and condition, and whether its watchdog is armed. -/
def State.reported : Home × Store AgentLine × IsleCond × Bool := (s.home, (s.isle n).lines, (s.isle n).cond, (s.strait n).armed)

/-- Isles that a microcode update had parked run on when it ends: their lines and conditions stay. -/
theorem sget_unpark (m : Store Isle) (n : Nat) :
    let x := sget ({} : Isle) (smap ({} : Isle) m fun _ x => if x.parked then { x with parked := false, umfLock := false } else x) n
    x.lines = (sget ({} : Isle) m n).lines ∧ x.cond = (sget ({} : Isle) m n).cond := by
  rw [sget_smap ({} : Isle) m _ (fun _ => rfl)]
  dsimp only
  split <;> exact ⟨rfl, rfl⟩

theorem State.reported_abortIsleHandles : (s.abortIsleHandles n).reported n = s.reported n := by
  unfold State.abortIsleHandles
  dsimp only
  split
  · rfl
  · split
    · obtain ⟨lines, cond⟩ := sget_unpark s.isles n
      exact congrArg₂ (fun a b => (s.home, a, b, (s.strait n).armed)) lines cond
    · rfl

theorem State.reported_hoEnd (u : HoClass) (fromV toV : Bool) (r : Nat) : (s.hoEnd u fromV toV r).reported n = s.reported n := rfl

end

/-- The condition in which a report leaves its Isle (R226). -/
def lostCond : Report → IsleCond
  | .severed => .severed
  | .reset => .reset
  | .clock => .clockLost

/-- A report up to its purge: the Isle's lines are gone, it is not watched any more, and the homes are as they were; one made
during an admission is taken as a reset (R232). -/
theorem State.isleLost_eq (s : State) (n : Fin 12) (k : Report) : ∃ u : State,
    u.reported n = (s.home, [], lostCond (if (s.strait n).result = 3 then .reset else k), false)
    ∧ s.isleLost n k = if s.home.mask.getLsbD n.val then u.purge n k else u := by
  unfold State.isleLost
  extract_lets admitted was k1 s1 s2 freed aborted s3 s4 s5 s6 s7 s8 s9
  refine ⟨s9, ?_, rfl⟩
  have recorded : s1.home = s.home := by
    unfold s1
    generalize was = r
    cases r <;> rfl
  have home : s3.home = s.home :=
    calc s3.home = (s2.isleScope n).home := State.home_forgetThreads ..
      _ = s2.home := s2.home_isleScope n
      _ = (s1.trwAbort n).home := State.home_stopRecal ..
      _ = s.home := (s1.home_trwAbort n).trans recorded
  have lines : (s3.isle n).lines = [] := (congrArg Isle.lines (State.isle_forgetThreads ..)).trans (s2.lines_isleScope n)
  have fallen : s4.home = s3.home ∧ (s4.isle n).lines = (s3.isle n).lines ∧ (s4.isle n).cond = lostCond k1 := by
    clear_value s3
    unfold s4
    rw [State.modIsle_eq, State.isle_setIsle]
    exact ⟨State.setIsle_home .., rfl, rfl⟩
  have streams : s5.home = s4.home ∧ s5.isle n = s4.isle n := by
    clear_value s4
    unfold s5
    exact ⟨foldl_keeps (g := State.home) (fun s _ => s.setCore_home ..) _ _,
      foldl_keeps (g := fun s : State => s.isle n) (fun s _ => s.isle_setCore ..) _ _⟩
  have released : s6.home = s5.home ∧ s6.isle n = s5.isle n := by
    clear_value s5
    unfold s6
    split
    · exact ⟨State.home_release .., State.isle_release ..⟩
    · exact ⟨rfl, rfl⟩
  have unarmed : s7.reported n = (s6.home, (s6.isle n).lines, (s6.isle n).cond, false) := by
    clear_value s6
    unfold s7
    rw [State.reported, State.modStrait_eq, State.strait_setStrait]
    rfl
  have handed : s9.reported n = s8.reported n := by
    clear_value s8
    unfold s9
    split
    · split
      · split
        · exact State.reported_hoEnd ..
        · rfl
      all_goals rfl
    · rfl
  rw [handed, State.reported_abortIsleHandles, unarmed, released.1, released.2, streams.1, streams.2, fallen.1, fallen.2.1, fallen.2.2,
    home, lines]

/-- A report takes its Isle out of the mask of the admitted ones; where it was one, a purge runs (R225). -/
theorem State.isleLost_reported (s : State) (n : Fin 12) (k : Report) :
    let u := s.isleLost n k
    u.home.mask.getLsbD n = false ∧ (u.strait n).armed = false ∧ (u.isle n).lines = []
      ∧ (u.isle n).cond = lostCond (if (s.strait n).result = 3 then .reset else k)
      ∧ (s.home.mask.getLsbD n = true → u.home.purging = true) := by
  obtain ⟨u, fallen, lost⟩ := s.isleLost_eq n k
  obtain ⟨home, lines, cond, armed⟩ : _ ∧ _ ∧ _ ∧ _ := by simpa only [State.reported, Prod.mk.injEq] using fallen
  intro v
  by_cases admitted : s.home.mask.getLsbD n = true
  · obtain ⟨isles, straits, mask, purging⟩ : v.isles = u.isles ∧ v.straits = u.straits
        ∧ v.home.mask = u.home.mask &&& ~~~((1 : BitVec 12) <<< n.val) ∧ v.home.purging = true := by
      have purged := u.aside_purge n k
      rw [if_pos admitted] at lost
      rw [← lost] at purged
      simpa only [State.aside, Prod.mk.injEq] using purged
    have isle : v.isle n = u.isle n := congrArg (fun m => sget ({} : Isle) m n) isles
    have strait : v.strait n = u.strait n := congrArg (fun m => sget ({} : Strait) m n) straits
    refine ⟨?_, ?_, ?_, ?_, fun _ => purging⟩
    · rw [mask]
      simp [n.isLt]
    · rw [strait, armed]
    · rw [isle, lines]
    · rw [isle, cond]
  · rw [if_neg admitted] at lost
    have same : v = u := lost
    rw [same]
    exact ⟨by rw [home]; simpa using admitted, armed, lines, cond, fun h => absurd h admitted⟩

/-! ### The watchdog of an Isle (R223, R224, R226) -/

theorem Strait.watched_iff (x : Strait) : x.watched = true ↔ x.armed = true ∨ x.result = 3 := by
  simp [Strait.watched]

theorem Strait.watched_eq_false {x : Strait} (unarmed : x.armed = false) (settled : x.result ≠ 3) : x.watched = false := by
  rw [Strait.watched, unarmed, beq_eq_false_iff_ne.mpr settled]
  rfl

theorem State.detect_watched {s : State} {n : Nat} (watched : (s.strait n).watched = true) (k : Report) :
    s.detect n k = s.setStrait n { s.strait n with due := (s.strait n).due.or (some k) } := by
  rw [State.detect, State.modStrait_eq, watched, if_pos rfl]

/-- What a heartbeat that is heard leaves, but for a report. -/
def State.beat (s : State) (n : Nat) (q : BitVec 8) : State :=
  (s.setStrait n { s.strait n with seenSeq := q }).setIsle n { s.isle n with bootSeq := q }

theorem State.detect_beat {s : State} {n : Nat} (watched : (s.strait n).watched = true) (q : BitVec 8) (k : Report) :
    (s.beat n q).detect n k
      = (s.beat n q).setStrait n { s.strait n with seenSeq := q, due := (s.strait n).due.or (some k) } := by
  have seen : (s.beat n q).strait n = { s.strait n with seenSeq := q } := s.strait_setStrait ..
  rw [State.detect_watched (by rw [seen]; exact watched), seen]

/-- An Isle that has stopped answering, or whose sideband is lost, sends no heartbeat (R143, R208). -/
theorem exec_heartbeat_unheard {s : State} {n : Fin 12}
    (silent : (s.isle n).mute = true ∨ ((s.strait n).toK.pri && (s.strait n).toK.bak) = true) (rst clk : Bool)
    (q : BitVec 8) : exec (.heartbeat n rst clk q) s = .next s := by
  show execHeartbeat n rst clk q s = _
  rw [execHeartbeat, if_pos]
  rcases silent with h | h <;> simp [h]

theorem exec_watchdogReport_other {s : State} {n : Fin 12} {k : Report} (no : (s.strait n).due ≠ some k ∨ (s.strait n).watched = false) :
    exec (.watchdogReport n k) s = .next s := by
  show execWatchdogReport n k s = _
  rw [execWatchdogReport, if_neg]
  rcases no with h | h <;> simp [h]

section
variable {s : State} {n : Fin 12} (fit : s.isleFit n = true)
include fit

theorem exec_heartbeat_watched (watched : (s.strait n).watched = true) (speaks : (s.isle n).mute = false)
    (heard : ((s.strait n).toK.pri && (s.strait n).toK.bak) = false) (rst clk : Bool) (q : BitVec 8) :
    exec (.heartbeat n rst clk q) s = .next (if rst || q != (s.strait n).seenSeq then (s.beat n q).detect n .reset
      else if clk then (s.beat n q).detect n .clock else s.beat n q) := by
  show execHeartbeat n rst clk q s = _
  rw [execHeartbeat, fit, speaks, heard, watched]
  simp only [Bool.not_true, Bool.or_false, Bool.false_eq_true, if_false]
  split
  · rfl
  · split <;> rfl

theorem exec_heartbeatTimeout_fit : exec (.heartbeatTimeout n) s = .next (s.detect n .severed) := if_pos fit

theorem exec_watchdogReport_due {k : Report} (watched : (s.strait n).watched = true)
    (due : (s.strait n).due = some k) : exec (.watchdogReport n k) s = .next (s.isleLost n k) := by
  show execWatchdogReport n k s = _
  rw [execWatchdogReport, fit, watched, due, beq_self_eq_true]
  rfl

theorem exec_vcoreRemove_lost (powered : (s.isle n).vcore = true) (lost : (s.isle n).cond = .severed ∨ (s.isle n).cond = .clockLost) :
    exec (.vcoreRemove n) s = .next (s.vcoreOff n) := if_pos ⟨fit, powered, lost⟩

end

/-- A requester that releases all that it claims holds nothing. -/
theorem State.claimed_release_all (s : State) (q : Nat) :
    sget ({} : Amount) (s.release q (sget {} s.ledger.claimed q).core (sget {} s.ledger.claimed q).hub).ledger.claimed q = {} := by
  rw [State.release]
  dsimp only
  rw [sget_sset_same, Nat.sub_self, Nat.sub_self]

/-- VCORE is off, and the ledger holds no claim of the Isle (R226, R351). -/
theorem State.vcoreOff_released (s : State) (n : Nat) : ((s.vcoreOff n).isle n).vcore = false
    ∧ sget ({} : Amount) (s.vcoreOff n).ledger.claimed n = {}
    ∧ s.vcoreOff n = { s with isles := (s.vcoreOff n).isles, straits := (s.vcoreOff n).straits, ledger := (s.vcoreOff n).ledger } := by
  unfold State.vcoreOff
  refine ⟨?_, ?_, rfl⟩
  · rw [State.modIsle_eq, State.isle_setIsle]
  · exact State.claimed_release_all (s.modStrait n _) n

/-! ### The framing of a request's octets (R237) -/

/-- Octet j of a list lies at bits 8j + 7 to 8j. -/
theorem foldl_octets_getLsbD {n : Nat} (bs : List Octet) (k : Nat) (a : BitVec n) {i : Nat} (hi : i < n) :
    ((bs.zipIdx k).foldl (fun (v : BitVec n) (p : Octet × Nat) => v ||| (p.1.setWidth n <<< (8 * p.2))) a).getLsbD i
      = (a.getLsbD i || (decide (8 * k ≤ i) && (bs.getD (i / 8 - k) 0).getLsbD (i % 8))) := by
  induction bs generalizing k a with
  | nil => simp
  | cons b bs ih =>
    rw [List.zipIdx_cons, List.foldl_cons, ih]
    simp only [BitVec.getLsbD_or, BitVec.getLsbD_shiftLeft, BitVec.getLsbD_setWidth, hi, decide_true, Bool.true_and]
    by_cases low : 8 * k ≤ i
    · by_cases here : i < 8 * (k + 1)
      · simp [low, show ¬ i < 8 * k by omega, show ¬ 8 * (k + 1) ≤ i by omega, show i / 8 - k = 0 by omega,
          show i - 8 * k = i % 8 by omega, show i % 8 < n by omega]
      · simp [low, show 8 * (k + 1) ≤ i by omega, show i / 8 - k = (i / 8 - (k + 1)) + 1 by omega,
          BitVec.getLsbD_of_ge b (i - 8 * k) (by omega)]
    · simp [low, show i < 8 * k by omega, show ¬ 8 * (k + 1) ≤ i by omega]

/-- The octets of a word, lowest first, make the word. -/
theorem bitsLe_octets {n : Nat} (v : BitVec n) (k : Nat) (h : n = 8 * k) :
    bitsLe n ((List.range k).map fun i => v.extractLsb' (8 * i) 8) = v := by
  apply BitVec.eq_of_getLsbD_eq
  intro i hi
  have place : i / 8 < k := by omega
  rw [bitsLe, foldl_octets_getLsbD _ 0 _ hi]
  simp [List.getD, place, show i % 8 < 8 by omega, show 8 * (i / 8) + i % 8 = i by omega]

/-- A request's octets are taken apart as R237 lays them out. -/
theorem frame_octets (ty len : BitVec 8) (tag : BitVec 16) (addr : BitVec 48) (data : List Octet) (size : data.length = headMore ty len) :
    frame ([ty, tag.extractLsb' 0 8, tag.extractLsb' 8 8] ++ (List.range 6).map (fun i => addr.extractLsb' (8 * i) 8) ++ len :: data)
      = some ({ ty, tag, addr, len, data := bitsLe 576 (data.take 72) }, []) := by
  let f (i : Nat) : Octet := addr.extractLsb' (8 * i) 8
  have whole : ¬ data.length + 10 < 10 + headMore ty len := by omega
  have htag : bitsLe 16 [tag.extractLsb' 0 8, tag.extractLsb' 8 8] = tag := bitsLe_octets tag 2 rfl
  have haddr : bitsLe 48 [f 0, f 1, f 2, f 3, f 4, f 5] = addr := bitsLe_octets addr 6 rfl
  have hdata : data.take (headMore ty len) = data := List.take_of_length_le size.le
  show frame (ty :: tag.extractLsb' 0 8 :: tag.extractLsb' 8 8 :: f 0 :: f 1 :: f 2 :: f 3 :: f 4 :: f 5 :: len :: data) = _
  refine (if_neg whole).trans (congrArg some (Prod.ext (GHead.mk.injEq .. ▸ ⟨rfl, htag, haddr, rfl, ?_⟩) ?_))
  · exact congrArg (fun d : List Octet => bitsLe 576 (d.take 72)) hdata
  · exact List.drop_eq_nil_of_le (show data.length + 10 ≤ 10 + headMore ty len by omega)

theorem frame_nil : frame [] = none := rfl

/-! ### The Gatehouse (R239) -/

theorem Site.next_of_stream_nil {x : Site} (h : x.stream = []) : x.next = none := by
  rw [Site.next, h, frame_nil, ite_self]

theorem State.gatehouse_idle {s : State} (idle : ∀ g, g < 2 → (s.site g).next = none) (k : Nat) : s.gatehouse k = s := by
  cases k with
  | zero => rfl
  | succ k =>
    have none_asks : arbitrate 2 (s.site 0).turn.toNat (fun g => s.siteFit g && (s.site g).next.isSome) = none := by
      rw [arbitrate, List.find?_eq_none]
      intro g hg
      obtain ⟨i, -, rfl⟩ := List.mem_map.mp hg
      rw [idle _ (Nat.mod_lt _ (by omega)), Option.isSome_none, Bool.and_false]
      exact Bool.false_ne_true
    rw [State.gatehouse, none_asks]

/-- With a whole request at one site only, that request is taken. -/
theorem State.gatehouse_one {s : State} {g : Nat} (hg : g < 2) (fit : s.siteFit g = true) {h : GHead} {rest : List Octet}
    (comes : (s.site g).next = some (h, rest)) (other : (s.site (1 - g)).next = none) (k : Nat) :
    s.gatehouse (k + 1) = (((s.modSite g fun x => { x with stream := rest }).guestOne g h).modSite 0
      fun x => { x with turn := BitVec.ofNat 1 (g + 1) }).gatehouse k := by
  have asks : arbitrate 2 (s.site 0).turn.toNat (fun g => s.siteFit g && (s.site g).next.isSome) = some g := by
    refine arbitrate_eq_some hg (by rw [fit, comes]; rfl) fun b hb wants => ?_
    have : b = g := by
      by_contra ne
      rw [show b = 1 - g by omega, other, Option.isSome_none, Bool.and_false] at wants
      cases wants
    rw [this]
  rw [State.gatehouse, asks]
  dsimp only
  rw [comes]

/-! ### Requests (R236 to R239) -/

theorem Site.linkUp_iff (x : Site) : x.linkUp = true ↔ x.link = 2 ∨ x.link = 3 := by
  simp [Site.linkUp]

theorem Site.next_eq_frame {x : Site} (up : x.linkUp = true) (room : x.outst.length + x.waiting.length < 128) : x.next = frame x.stream := by
  rw [Site.next, if_neg (by simp [up, room])]

/-- Whose turn it is at the Gatehouse is no part of what its sites have to offer. -/
theorem State.site_turn (s : State) (t : BitVec 1) (j : Nat) :
    ∃ u, (s.modSite 0 fun z => { z with turn := t }).site j = { s.site j with turn := u } := by
  by_cases h : j = 0
  · subst h
    exact ⟨t, s.site_setSite ..⟩
  · exact ⟨_, s.site_setSite_ne _ h⟩

/-- Nothing is left to take at the sites when a request has been taken and neither has another. -/
theorem State.gatehouse_turn_idle {s : State} {g : Nat} (hg : g < 2) (empty : (s.site g).stream = []) (other : (s.site (1 - g)).next = none)
    (t : BitVec 1) (k : Nat) : (s.modSite 0 fun z => { z with turn := t }).gatehouse k = s.modSite 0 fun z => { z with turn := t } := by
  refine State.gatehouse_idle (fun j hj => ?_) k
  obtain ⟨u, hu⟩ := s.site_turn t j
  have next : (s.site j).next = none := by
    by_cases same : j = g
    · rw [same]; exact Site.next_of_stream_nil empty
    · rw [show j = 1 - g by omega]; exact other
  rw [hu]
  exact next

/-- Traffic has left L1 (R235). -/
def Site.came (x : Site) : Site := { x with l1 := false }

/-- The checks of R238 do not look at the link's power state. -/
theorem State.guestCheck_came (s : State) (g : Nat) (write : Bool) (addr : BitVec 48) (len : Nat) :
    (s.setSite g (s.site g).came).guestCheck g write addr len = s.guestCheck g write addr len := by
  unfold State.guestCheck
  rw [s.site_setSite]
  rfl

/-- A request as it stands before the checks of R238, and as it is refused. -/
def GHead.req (h : GHead) : GReq := { tag := h.tag, write := h.ty == 2, dense := false, addr := 0, len := h.len.toNat, data := h.data }

/-- A request past step 3 of R238, for physical address pa through its window of site x. -/
def GHead.passed (h : GHead) (x : Site) (pa : Nat) : GReq :=
  { h.req with dense := (sget ({} : GWin) x.wins (h.addr.extractLsb' 44 4).toNat).pack, addr := BitVec.ofNat 52 pa }

theorem guestFormed_eq_false {ty len : BitVec 8} (h : ty ≠ 1 ∧ ty ≠ 2 ∨ len = 0 ∨ 72 < len.toNat) : guestFormed ty len.toNat = false := by
  rcases h with ⟨one, two⟩ | h
  · rw [guestFormed, beq_eq_false_iff_ne.mpr one, beq_eq_false_iff_ne.mpr two]
    rfl
  · have out : ¬ (1 ≤ len.toNat ∧ len.toNat ≤ 72) := by
      rcases h with rfl | h
      · decide
      · omega
    rw [guestFormed, decide_eq_false out, Bool.and_false]

theorem guestFormed_eq_true {ty len : BitVec 8} (kind : ty = 1 ∨ ty = 2) (pos : len ≠ 0) (le : len.toNat ≤ 72) :
    guestFormed ty len.toNat = true := by
  have : len.toNat ≠ 0 := fun h => pos (BitVec.eq_of_toNat_eq h)
  rw [guestFormed, decide_eq_true (by omega)]
  rcases kind with rfl | rfl <;> rfl

theorem State.guestOne_malformed (s : State) (g : Nat) {h : GHead} (bad : guestFormed h.ty h.len.toNat = false) :
    s.guestOne g h = s.guestRefuse g h.req 11 := by
  rw [State.guestOne, bad]
  rfl

section
variable {s : State} {g : Nat} {h : GHead} (formed : guestFormed h.ty h.len.toNat = true)
include formed

theorem State.guestOne_error {st : BitVec 8} (no : s.guestCheck g (h.ty == 2) h.addr h.len.toNat = .error st) :
    s.guestOne g h = s.guestRefuse g h.req st := by
  rw [State.guestOne, formed, no]
  rfl

theorem State.guestOne_ok {pa : Nat} (ok : s.guestCheck g (h.ty == 2) h.addr h.len.toNat = .ok pa) :
    s.guestOne g h = s.guestTake g (h.passed (s.site g) pa) := by
  rw [State.guestOne, formed, ok]
  rfl

end

theorem State.guestTake_waits {s : State} {g : Nat} (q : GReq) (held : (s.site g).ready = 0 ∨ (s.site g).waiting ≠ []) :
    s.guestTake g q = s.modSite g fun x => { x with waiting := x.waiting ++ [q] } := by
  rw [State.guestTake, if_pos (by simpa using held)]

theorem State.guestTake_served {s : State} {g : Nat} (q : GReq) (token : (s.site g).ready ≠ 0) (first : (s.site g).waiting = []) :
    s.guestTake g q = ((s.modSite g Site.spend).guestServe g q).1.modSite g
      fun x => { x with outst := x.outst ++ [((s.modSite g Site.spend).guestServe g q).2] } := by
  rw [State.guestTake, if_neg (by simp [token, first])]

/-- A request has been taken: the turn passes on (R239), and the guest may ask for L1 (R235). -/
def State.guestTaken (s : State) (g : Nat) (l1 : Bool) : State :=
  let u := s.modSite 0 fun z => { z with turn := BitVec.ofNat 1 (g + 1) }
  if l1 then u.modSite g fun z => { z with l1 := true } else u

section
variable {s : State} {g : Fin 2} {h : GHead} {octets : List Octet} (fit : s.siteFit g = true) (whole : frame octets = some (h, []))
  (fresh : (s.site g).stream = []) (other : (s.site (1 - g.val)).next = none) (up : (s.site g).link = 2 ∨ (s.site g).link = 3)
  (room : (s.site g).outst.length + (s.site g).waiting.length < 128)
include fresh up

/-- The octets of one site arrive. -/
theorem State.guestOctetsIn_fresh (some_come : octets ≠ []) :
    s.guestOctetsIn g octets = s.setSite g { (s.site g).came with stream := octets } := by
  rw [State.guestOctetsIn, if_neg (by simp [some_come, (Site.linkUp_iff _).mpr up])]
  rw [State.modSite, fresh, List.nil_append]
  rfl

include whole other room fit

/-- One request comes, and no other is to be had: it is taken, and then whatever its service has set free. -/
theorem exec_guestRequest_one (l1 : Bool) :
    let u := (((s.setSite g (s.site g).came).guestOne g h).modSite 0
      fun z => { z with turn := BitVec.ofNat 1 (g.val + 1) }).gatehouse (octets.length + (s.site (1 - g.val)).stream.length)
    exec (.guestRequest g octets [] l1) s
      = .next (if l1 && (u.site g).linkUp then u.modSite g fun z => { z with l1 := true } else u) := by
  intro u
  have some_come : octets ≠ [] := by
    rintro rfl
    cases whole
  have ne : 1 - g.val ≠ g.val := by omega
  let t := s.setSite g { (s.site g).came with stream := octets }
  have here : t.site g = { (s.site g).came with stream := octets } := s.site_setSite ..
  have next : Site.next { (s.site g).came with stream := octets } = frame octets :=
    Site.next_eq_frame ((Site.linkUp_iff _).mpr up) room
  have come : (s.guestOctetsIn g octets).guestOctetsIn (1 - g.val) [] = t := by
    rw [State.guestOctetsIn_fresh fresh up some_come]
    rfl
  have size : (t.site 0).stream.length + (t.site 1).stream.length = octets.length + (s.site (1 - g.val)).stream.length := by
    have there : t.site (1 - g.val) = s.site (1 - g.val) := s.site_setSite_ne _ ne
    rw [← there, show octets = (t.site g).stream by rw [here]]
    clear_value t
    match g with
    | 0 => rfl
    | 1 => exact Nat.add_comm ..
  have comes : (t.site g).next = some (h, []) := by
    rw [here, next, whole]
  have taken : t.gatehouseAll = u := by
    rw [State.gatehouseAll, size, State.gatehouse_one (s := t) g.isLt fit comes (by rw [s.site_setSite_ne _ ne]; exact other)]
    have : (t.modSite g fun x => { x with stream := [] }) = s.setSite g (s.site g).came := by
      rw [State.modSite_eq, s.site_setSite, s.setSite_setSite, ← fresh]
      rfl
    rw [this]
  show execGuestRequest g octets [] l1 s = _
  rw [execGuestRequest, fit, come, taken]
  rfl

/-- A request that its site keeps, refused or waiting, leaves the Gatehouse with nothing more to take. -/
theorem exec_guestRequest_kept (l1 : Bool) {x : Site} (one : (s.setSite g (s.site g).came).guestOne g h = s.setSite g x)
    (empty : x.stream = []) (xup : x.linkUp = true) :
    exec (.guestRequest g octets [] l1) s = .next ((s.setSite g x).guestTaken g l1) := by
  have ne : 1 - g.val ≠ g.val := by omega
  have idle := State.gatehouse_turn_idle (s := s.setSite g x) g.isLt (by rw [s.site_setSite]; exact empty)
    (by rw [s.site_setSite_ne _ ne]; exact other)
  have still_up : (((s.setSite g x).modSite 0 fun z => { z with turn := BitVec.ofNat 1 (g.val + 1) }).site g).linkUp = true := by
    obtain ⟨t, ht⟩ := (s.setSite g x).site_turn (BitVec.ofNat 1 (g.val + 1)) g
    rw [ht, s.site_setSite]
    exact xup
  rw [exec_guestRequest_one fit whole fresh other up room, one, idle, still_up, Bool.and_true]
  rfl

theorem exec_guestRequest_refused (l1 : Bool) {st : BitVec 8}
    (one : (s.setSite g (s.site g).came).guestOne g h = (s.setSite g (s.site g).came).guestRefuse g h.req st) :
    exec (.guestRequest g octets [] l1) s = .next ((s.setSite g { (s.site g).came with
      refuse := (s.site g).refuse + 1, outst := (s.site g).outst ++ [{ h.req with status := some st }] }).guestTaken g l1) := by
  refine exec_guestRequest_kept fit whole fresh other up room l1 (one.trans ?_) fresh ((Site.linkUp_iff _).mpr up)
  rw [State.guestRefuse, State.modSite_eq, s.site_setSite, s.setSite_setSite]
  rfl

section
variable {pa : Nat} (formed : guestFormed h.ty h.len.toNat = true) (ok : s.guestCheck g (h.ty == 2) h.addr h.len.toNat = .ok pa)
include formed ok

omit whole fresh other up room fit in
theorem State.guestOne_came : (s.setSite g (s.site g).came).guestOne g h = (s.setSite g (s.site g).came).guestTake g (h.passed (s.site g) pa) := by
  rw [State.guestOne_ok formed ((s.guestCheck_came ..).trans ok), s.site_setSite]
  rfl

theorem exec_guestRequest_waits (l1 : Bool) (held : (s.site g).ready = 0 ∨ (s.site g).waiting ≠ []) :
    exec (.guestRequest g octets [] l1) s = .next ((s.setSite g { (s.site g).came with
      waiting := (s.site g).waiting ++ [h.passed (s.site g) pa] }).guestTaken g l1) := by
  refine exec_guestRequest_kept fit whole fresh other up room l1 ((State.guestOne_came formed ok).trans ?_) fresh
    ((Site.linkUp_iff _).mpr up)
  rw [State.guestTake_waits _ (by rw [s.site_setSite]; exact held), State.modSite_eq, s.site_setSite, s.setSite_setSite]
  rfl

theorem exec_guestRequest_served (token : (s.site g).ready ≠ 0) (first : (s.site g).waiting = []) :
    let p := (s.setSite g (s.site g).came.spend).guestServe g (h.passed (s.site g) pa)
    exec (.guestRequest g octets [] false) s
      = .next (((p.1.setSite g { p.1.site g with outst := (p.1.site g).outst ++ [p.2] }).guestTaken g false).gatehouse
        (octets.length + (s.site (1 - g.val)).stream.length)) := by
  intro p
  have spent : (s.setSite g (s.site g).came).modSite g Site.spend = s.setSite g (s.site g).came.spend := by
    rw [State.modSite_eq, s.site_setSite, s.setSite_setSite]
  have taken := State.guestTake_served (s := s.setSite g (s.site g).came) (h.passed (s.site g) pa)
    (by rw [s.site_setSite]; exact token) (by rw [s.site_setSite]; exact first)
  rw [spent] at taken
  rw [exec_guestRequest_one fit whole fresh other up room, State.guestOne_came formed ok, taken]
  rfl

end

end

/-! ### Completions, tokens and the site's block (R236, R240, R242) -/

/-- A request whose status is known leaves its place with its completion. -/
theorem exec_guestCompletion_known {s : State} {g : Fin 2} {tag : BitVec 16} {q : GReq} {st : BitVec 8}
    (found : (s.site g).outst.find? (fun q => q.tag == tag) = some q) (known : q.status = some st) (empty : (s.site g).stream = [])
    (other : (s.site (1 - g.val)).next = none) : exec (.guestCompletion g tag) s = .next (s.setSite g ((s.site g).complete q st q.answer)) := by
  have idle : (s.setSite g ((s.site g).complete q st q.answer)).gatehouseAll = s.setSite g ((s.site g).complete q st q.answer) := by
    refine State.gatehouse_idle (fun j hj => ?_) _
    by_cases same : j = g
    · rw [same, s.site_setSite]
      exact Site.next_of_stream_nil empty
    · rw [s.site_setSite_ne _ same, show j = 1 - g.val by omega]
      exact other
  show execGuestCompletion g tag s = _
  simp only [execGuestCompletion, found, known, Option.isSome_some, if_true]
  rw [State.modSite_eq, idle]

/-- With nothing waiting for them, a microsecond's tokens are kept, up to BURST. -/
theorem exec_gatehouseTokenRefill_idle {s : State} {g : Fin 2} (fit : s.siteFit g = true) (none_waits : (s.site g).waiting = []) :
    exec (.gatehouseTokenRefill g) s = .next (s.setSite g { s.site g with
      tokens := BitVec.ofNat 12 (min (s.site g).burst.toNat ((s.site g).tokens.toNat + (s.site g).rate.toNat)) }) := by
  show execGatehouseTokenRefill g s = _
  rw [execGatehouseTokenRefill, fit, State.modSite_eq]
  dsimp only
  rw [s.site_setSite]
  simp only [none_waits]
  rfl

/-- An answer of the guest goes to its requester: at once, or to one that waits for it. -/
theorem Site.answer_eq (x : Site) (a : GAcc) (r : Resp) (v : W36) : x.answer a r v =
    if a ∈ x.regOut then { x with regOut := x.regOut.erase a, regAns := (r.num, v), regDone := x.regDone ++ [(a, r.num, v)] }
    else { x with l1 := false, regTx := x.regTx ++ [(a.off, a.wr)], regAns := (r.num, v) } := by
  by_cases out : a ∈ x.regOut
  · simp [Site.answer, Site.forward, out]
  · simp [Site.answer, Site.forward, out, List.erase_append_right]

theorem State.siteAnswer_unfit {s : State} {g : Nat} (unfit : s.siteFit g = false) (w : Who) : s.siteAnswer w g = .absent := by
  rw [State.siteAnswer, unfit]
  rfl

theorem State.siteAnswer_fit {s : State} {g : Nat} (fit : s.siteFit g = true) (w : Who) : s.siteAnswer w g ≠ .absent := by
  rw [State.siteAnswer, fit]
  simp only [Bool.not_true, Bool.false_eq_true, if_false]
  split_ifs <;> exact Resp.noConfusion

section
variable {s : State} {w : Who} {g : Fin 2}

/-- What keeps an access from the guest is its answer; to a read of no site with all ones (R24, R240, R241). -/
theorem exec_guestAccess_refused (no : s.siteAnswer w g ≠ .ok) (off : BitVec 32) (wr : Option W36) (ans : BitVec 32) (err : Bool) :
    let u := s.setSite g { s.site g with
      regAns := ((s.siteAnswer w g).num, if s.siteAnswer w g = .absent ∧ wr = none then BitVec.allOnes 36 else 0) }
    exec (.guestRegisterAccess w g off wr ans) s = .next u ∧ exec (.guestAccessFailed w g off wr err) s = .next u := by
  show execGuestRegisterAccess w g off wr ans s = _ ∧ execGuestAccessFailed w g off wr err s = _
  unfold execGuestRegisterAccess execGuestAccessFailed
  generalize s.siteAnswer w g = r at no
  cases r with
  | ok => exact absurd rfl no
  | absent => cases wr <;> exact ⟨rfl, rfl⟩
  | dormant | world | rsvd | poison => exact ⟨rfl, rfl⟩

theorem exec_guestRegisterAccess_ok (ok : s.siteAnswer w g = .ok) (off : BitVec 32) (wr : Option W36) (ans : BitVec 32) :
    exec (.guestRegisterAccess w g off wr ans) s = .next (s.setSite g ((s.site g).answer { who := w, off, wr := wr.map fun v => v.setWidth 32 }
      .ok (if wr.isSome then 0 else ans.setWidth 36))) := by
  show execGuestRegisterAccess w g off wr ans s = _
  rw [execGuestRegisterAccess, ok]
  rfl

theorem exec_guestAccessFailed_ok (ok : s.siteAnswer w g = .ok) (off : BitVec 32) (wr : Option W36) (err : Bool) :
    exec (.guestAccessFailed w g off wr err) s
      = .next ((s.setSite g ((s.site g).answer { who := w, off, wr := wr.map fun v => v.setWidth 32 } .poison 0)).recKey posGth 0o012002
        (siteNum g) [off.setWidth 72, rp (if err then 1 else 0)] (s.whoVault w) (s.whoCtx w) (whoThread w)) := by
  show execGuestAccessFailed w g off wr err s = _
  rw [execGuestAccessFailed, ok]
  rfl

end

/-! ### The link of a site (R235, R241, R242) -/

section
variable {s : State} {g : Fin 2} (fit : s.siteFit g = true)
include fit

theorem exec_guestLinkLost_up (up : (s.site g).linkUp = true) : exec (.guestLinkLost g) s
    = .next ((s.siteLinkOff g 4).recKey posGth 0o012001 (siteNum g) [] (s.worlds.guestown.getLsbD g)) := by
  show execGuestLinkLost g s = _
  rw [execGuestLinkLost, fit, up]
  rfl

theorem exec_guestLinkTrained_failed (down : (s.site g).link = 0 ∨ (s.site g).link = 1) :
    exec (.guestLinkTrained g false) s = .next (s.setSite g { s.site g with link := 0 }) := by
  show execGuestLinkTrained g false s = _
  rw [execGuestLinkTrained, if_pos ⟨fit, down⟩]
  rfl

theorem exec_guestLinkTrained_up (down : (s.site g).link = 0 ∨ (s.site g).link = 1) {s1 : State} (granted : s.claim reqUmf 0 8 = (s1, true)) :
    exec (.guestLinkTrained g true) s = .next (s1.setSite g { s.site g with link := 2 }) := by
  have same : s1.site g = s.site g := by
    obtain ⟨l, claimed⟩ := s.claim_eq reqUmf 0 8
    rw [granted] at claimed
    rw [show s1 = _ from claimed]
    rfl
  show execGuestLinkTrained g true s = _
  rw [execGuestLinkTrained, if_pos ⟨fit, down⟩, granted, ← same]
  rfl

theorem exec_ucieLaneRepair_up (up : (s.site g).linkUp = true) :
    exec (.ucieLaneRepair g) s = .next (s.setSite g { s.site g with link := 3 }) := by
  show execUcieLaneRepair g s = _
  rw [execUcieLaneRepair, fit, up]
  rfl

end

theorem State.site_siteLinkOff (s : State) (g : Nat) (st : BitVec 3) :
    (s.siteLinkOff g st).site g = { (s.site g).dropReqs with link := st, l1 := false, regOut := [] } := by
  unfold State.siteLinkOff
  split
  · exact State.site_setSite ..
  · exact State.site_setSite ..

/-- Settles O46, clause by clause: each is what its own row does. -/
theorem watchdogAndGuests : Obligations.WatchdogAndGuests := by
  unfold Obligations.WatchdogAndGuests
  intro s n g w x y sees
  refine ⟨fun fit => ?isle, fun ty len tag addr data size => frame_octets ty len tag addr data size, fun unfit off v ans err => ?unfit,
    fun fit => ⟨fun h octets l1 whole fresh other up room => ?request, ?completion, ?refill, ?access, ?lost, ?trained, ?repair⟩⟩
  case isle =>
    have watched : x.armed = true ∨ x.result = 3 → x.watched = true := x.watched_iff.mpr
    refine ⟨fun q r k silent => exec_heartbeat_unheard silent r k q, fun q on speaks heard => ?beat, fun on => ?timeout,
      fun k no => exec_watchdogReport_other (no.imp_right fun ⟨unarmed, settled⟩ => ?other), fun k on due => ?report,
      fun powered lost => ⟨_, exec_vcoreRemove_lost fit powered lost, s.vcoreOff_released n⟩⟩
    case other => exact Strait.watched_eq_false unarmed settled
    case beat =>
      intro base
      have beat (r k : Bool) := exec_heartbeat_watched fit (watched on) speaks heard r k q
      rw [State.detect_beat (watched on), State.detect_beat (watched on)] at beat
      have still (same : q = x.seenSeq) : (false || q != x.seenSeq) = false := by
        rw [same, bne_self_eq_false]
        rfl
      refine ⟨fun same => ?_, fun same => ?_, fun r k other => ?_⟩
      · rw [beat, still same]
        rfl
      · rw [beat, still same]
        rfl
      · have reset : (r || q != x.seenSeq) = true := by simpa using other
        rw [beat, reset]
        rfl
    case timeout => rw [exec_heartbeatTimeout_fit fit, State.detect_watched (watched on)]
    case report =>
      obtain ⟨mask, armed, lines, cond, purging⟩ := s.isleLost_reported n k
      refine ⟨_, exec_watchdogReport_due fit (watched on) due, mask, armed, lines, cond.trans ?_, purging⟩
      split <;> rfl
  case request =>
    have refused {st : BitVec 8} := exec_guestRequest_refused fit whole fresh other up room l1 (st := st)
    refine ⟨fun bad => refused (State.guestOne_malformed _ g (guestFormed_eq_false bad)), fun kind pos le => ?_⟩
    have formed := guestFormed_eq_true kind pos le
    refine ⟨fun st no => refused (State.guestOne_error formed ((s.guestCheck_came ..).trans no)), fun pa ok => ⟨?_, ?_⟩⟩
    · exact fun held => exec_guestRequest_waits fit whole fresh other up room formed ok l1 held
    · rintro token first rfl
      exact exec_guestRequest_served fit whole fresh other up room formed ok token first
  case unfit =>
    have absent := s.siteAnswer_unfit unfit w
    have refused (wr : Option W36) := exec_guestAccess_refused (by rw [absent]; decide) off wr ans err
    simp only [absent] at refused
    exact ⟨(refused none).1, (refused (some v)).1, (refused none).2, (refused (some v)).2⟩
  case completion =>
    intro tag q st found known empty other
    obtain rfl : q.tag = tag := by simpa using List.find?_some found
    exact exec_guestCompletion_known found known empty other
  case refill => exact fun none_waits => exec_gatehouseTokenRefill_idle fit none_waits
  case access =>
    intro off wr ans err v a answered
    refine ⟨fun ok => ?_, fun no => ?_⟩
    · rw [exec_guestRegisterAccess_ok ok, exec_guestAccessFailed_ok ok, Site.answer_eq, Site.answer_eq]
      exact ⟨rfl, rfl⟩
    · have refused := exec_guestAccess_refused no off wr ans err
      simp only [s.siteAnswer_fit fit w, false_and, if_false] at refused
      exact refused
  case lost => exact fun up => ⟨_, exec_guestLinkLost_up fit (y.linkUp_iff.mpr up), State.site_siteLinkOff ..⟩
  case trained =>
    exact fun down => ⟨exec_guestLinkTrained_failed fit down, fun s1 granted => exec_guestLinkTrained_up fit down granted⟩
  case repair => exact fun up => exec_ucieLaneRepair_up fit (y.linkUp_iff.mpr up)

end Sys2Proof.Machine

/-! Instruction words (R67 to R71) and the words that a delay slot does not take (R83). -/

namespace Sys2Proof.Machine

theorem toNat_append_add {n m : Nat} (x : BitVec n) (y : BitVec m) : (x ++ y).toNat = x.toNat * 2 ^ m + y.toNat := by
  rw [BitVec.toNat_append, ← Nat.shiftLeft_add_eq_or_of_lt y.isLt, Nat.shiftLeft_eq]

/-! ### Fields by position (R67) -/

/-- A field, as an arithmetic fact about what it is read from. -/
theorem field_eq {n k : Nat} {x : BitVec n} {y : BitVec k} (lo : Nat) (h : x.toNat / 2 ^ lo % 2 ^ k = y.toNat) : x.extractLsb' lo k = y := by
  apply BitVec.eq_of_toNat_eq
  rw [BitVec.extractLsb'_toNat, Nat.shiftRight_eq_div_pow, h]

/-- A one-bit field. -/
theorem bit_eq {n : Nat} {x : BitVec n} {b : Bool} (i : Nat) (hi : i < n) (h : x.toNat / 2 ^ i % 2 = b.toNat) : x[i] = b := by
  rw [BitVec.getElem_eq_testBit_toNat, Nat.testBit_eq_decide_div_mod_eq, h]
  cases b <;> rfl

section
variable (maj : BitVec 8) (rd rs1 rs2 : BitVec 6) (mn : BitVec 10) (imm : BitVec 16) (em : BitVec 8) (act w : Bool)

theorem fmtA_toNat : (fmtA maj rd rs1 rs2 mn).toNat
    = maj.toNat * 2 ^ 28 + rd.toNat * 2 ^ 22 + rs1.toNat * 2 ^ 16 + rs2.toNat * 2 ^ 10 + mn.toNat := by
  simp only [fmtA, toNat_append_add]
  omega

theorem fmtI_toNat : (fmtI maj rd rs1 imm).toNat = maj.toNat * 2 ^ 28 + rd.toNat * 2 ^ 22 + rs1.toNat * 2 ^ 16 + imm.toNat := by
  simp only [fmtI, toNat_append_add]
  omega

theorem fmtM_toNat : (fmtM maj rd rs1 rs2 em act w).toNat
    = maj.toNat * 2 ^ 28 + rd.toNat * 2 ^ 22 + rs1.toNat * 2 ^ 16 + rs2.toNat * 2 ^ 10 + em.toNat * 4 + act.toNat * 2 + w.toNat := by
  simp only [fmtM, toNat_append_add, BitVec.toNat_ofBool]
  omega

theorem fmtN_toNat (disp : BitVec 7) : (fmtN maj rd rs1 em act disp).toNat
    = maj.toNat * 2 ^ 28 + rd.toNat * 2 ^ 22 + rs1.toNat * 2 ^ 16 + em.toNat * 2 ^ 8 + act.toNat * 2 ^ 7 + disp.toNat := by
  simp only [fmtN, toNat_append_add, BitVec.toNat_ofBool]
  omega

@[simp] theorem wMajor_fmtA : wMajor (fmtA maj rd rs1 rs2 mn) = maj := field_eq 28 (by rw [fmtA_toNat]; omega)
@[simp] theorem wRd_fmtA : wRd (fmtA maj rd rs1 rs2 mn) = rd := field_eq 22 (by rw [fmtA_toNat]; omega)
@[simp] theorem wRs1_fmtA : wRs1 (fmtA maj rd rs1 rs2 mn) = rs1 := field_eq 16 (by rw [fmtA_toNat]; omega)
@[simp] theorem wRs2_fmtA : wRs2 (fmtA maj rd rs1 rs2 mn) = rs2 := field_eq 10 (by rw [fmtA_toNat]; omega)
@[simp] theorem wMinor_fmtA : wMinor (fmtA maj rd rs1 rs2 mn) = mn := field_eq 0 (by rw [fmtA_toNat]; omega)

@[simp] theorem wMajor_fmtI : wMajor (fmtI maj rd rs1 imm) = maj := field_eq 28 (by rw [fmtI_toNat]; omega)
@[simp] theorem wRd_fmtI : wRd (fmtI maj rd rs1 imm) = rd := field_eq 22 (by rw [fmtI_toNat]; omega)

@[simp] theorem wMajor_fmtM : wMajor (fmtM maj rd rs1 rs2 em act w) = maj :=
  field_eq 28 (by rw [fmtM_toNat]; have := act.toNat_lt; have := w.toNat_lt; omega)
@[simp] theorem wRd_fmtM : wRd (fmtM maj rd rs1 rs2 em act w) = rd :=
  field_eq 22 (by rw [fmtM_toNat]; have := act.toNat_lt; have := w.toNat_lt; omega)
@[simp] theorem wRs2_fmtM : wRs2 (fmtM maj rd rs1 rs2 em act w) = rs2 :=
  field_eq 10 (by rw [fmtM_toNat]; have := act.toNat_lt; have := w.toNat_lt; omega)
@[simp] theorem emark_fmtM : (fmtM maj rd rs1 rs2 em act w).extractLsb' 2 8 = em :=
  field_eq 2 (by rw [fmtM_toNat]; have := act.toNat_lt; have := w.toNat_lt; omega)
@[simp] theorem act_fmtM : (fmtM maj rd rs1 rs2 em act w)[1] = act :=
  bit_eq 1 (by decide) (by rw [fmtM_toNat]; have := act.toNat_lt; have := w.toNat_lt; omega)
@[simp] theorem wordForm_fmtM : (fmtM maj rd rs1 rs2 em act w)[0] = w :=
  bit_eq 0 (by decide) (by rw [fmtM_toNat]; have := w.toNat_lt; omega)

@[simp] theorem wMajor_fmtN (disp : BitVec 7) : wMajor (fmtN maj rd rs1 em act disp) = maj :=
  field_eq 28 (by rw [fmtN_toNat]; have := act.toNat_lt; omega)
@[simp] theorem emark_fmtN (disp : BitVec 7) : (fmtN maj rd rs1 em act disp).extractLsb' 8 8 = em :=
  field_eq 8 (by rw [fmtN_toNat]; have := act.toNat_lt; omega)
@[simp] theorem act_fmtN (disp : BitVec 7) : (fmtN maj rd rs1 em act disp)[7] = act :=
  bit_eq 7 (by decide) (by rw [fmtN_toNat]; have := act.toNat_lt; omega)

@[simp] theorem wMajor_fmtZ : wMajor (fmtZ maj) = maj :=
  field_eq 28 (by simp only [fmtZ, toNat_append_add]; omega)
@[simp] theorem wMajor_fmtL (v : BitVec 22) : wMajor (fmtL maj rd v) = maj :=
  field_eq 28 (by simp only [fmtL, toNat_append_add]; omega)
@[simp] theorem wMajor_fmtH (pos : BitVec 2) (v : BitVec 18) : wMajor (fmtH maj rd pos v) = maj :=
  field_eq 28 (by simp only [fmtH, toNat_append_add]; omega)
@[simp] theorem zero_fmtH (pos : BitVec 2) (v : BitVec 18) : (fmtH maj rd pos v).extractLsb' 20 2 = (0 : BitVec 2) :=
  field_eq 20 (by simp only [fmtH, toNat_append_add]; omega)
@[simp] theorem wMajor_fmtK (c : BitVec 4) (v : BitVec 18) : wMajor (fmtK maj rd c v) = maj :=
  field_eq 28 (by simp only [fmtK, toNat_append_add]; omega)
@[simp] theorem cond_fmtK (c : BitVec 4) (v : BitVec 18) : (fmtK maj rd c v).extractLsb' 18 4 = c :=
  field_eq 18 (by simp only [fmtK, toNat_append_add]; omega)
@[simp] theorem wMajor_fmtB (off : BitVec 27) : wMajor (fmtB maj act off) = maj :=
  field_eq 28 (by simp only [fmtB, toNat_append_add, BitVec.toNat_ofBool]; have := act.toNat_lt; omega)
@[simp] theorem wMajor_fmtD (off : BitVec 21) : wMajor (fmtD maj act rd off) = maj :=
  field_eq 28 (by simp only [fmtD, toNat_append_add, BitVec.toNat_ofBool]; have := act.toNat_lt; omega)
@[simp] theorem wMajor_fmtJ : wMajor (fmtJ maj act rd rs1) = maj :=
  field_eq 28 (by simp only [fmtJ, toNat_append_add, BitVec.toNat_ofBool]; have := act.toNat_lt; omega)
@[simp] theorem zero_fmtJ : (fmtJ maj act rd rs1).extractLsb' 0 15 = (0 : BitVec 15) :=
  field_eq 0 (by simp only [fmtJ, toNat_append_add, BitVec.toNat_ofBool]; omega)

end

/-! ### The parts of a minor opcode, named after their widths -/

@[simp] theorem minor46_high (a : BitVec 4) (b : BitVec 6) : (a ++ b : BitVec 10).extractLsb' 6 4 = a :=
  field_eq 6 (by rw [toNat_append_add]; omega)
@[simp] theorem minor46_low (a : BitVec 4) (b : BitVec 6) : (a ++ b : BitVec 10).extractLsb' 0 6 = b :=
  field_eq 0 (by rw [toNat_append_add]; omega)
@[simp] theorem minor217_high (a : BitVec 2) (b : BitVec 1) (c : BitVec 7) : (a ++ b ++ c : BitVec 10).extractLsb' 8 2 = a :=
  field_eq 8 (by rw [toNat_append_add, toNat_append_add]; omega)
@[simp] theorem minor217_bit (a : BitVec 2) (b : Bool) (c : BitVec 7) : (a ++ BitVec.ofBool b ++ c : BitVec 10)[7] = b :=
  bit_eq 7 (by decide) (by rw [toNat_append_add, toNat_append_add, BitVec.toNat_ofBool]; have := b.toNat_lt; omega)
@[simp] theorem minor217_low (a : BitVec 2) (b : BitVec 1) (c : BitVec 7) : (a ++ b ++ c : BitVec 10).extractLsb' 0 7 = c :=
  field_eq 0 (by rw [toNat_append_add]; omega)
@[simp] theorem minor325_high (a : BitVec 3) (b : BitVec 2) (c : BitVec 5) : (a ++ b ++ c : BitVec 10).extractLsb' 7 3 = a :=
  field_eq 7 (by rw [toNat_append_add, toNat_append_add]; omega)
@[simp] theorem minor325_low (a : BitVec 3) (b : BitVec 2) (c : BitVec 5) : (a ++ b ++ c : BitVec 10).extractLsb' 0 5 = c :=
  field_eq 0 (by rw [toNat_append_add]; omega)

@[simp] theorem minor415_high (a : BitVec 4) (b : BitVec 1) (c : BitVec 5) : (a ++ b ++ c : BitVec 10).extractLsb' 6 4 = a :=
  field_eq 6 (by rw [toNat_append_add, toNat_append_add]; omega)
@[simp] theorem minor415_low (a : BitVec 4) (b : BitVec 1) (c : BitVec 5) : (a ++ b ++ c : BitVec 10).extractLsb' 0 5 = c :=
  field_eq 0 (by rw [toNat_append_add]; omega)
@[simp] theorem minor12142_high (a c : BitVec 1) (b e : BitVec 2) (d : BitVec 4) :
    (a ++ b ++ c ++ d ++ e : BitVec 10).extractLsb' 7 2 = b :=
  field_eq 7 (by simp only [toNat_append_add]; omega)
@[simp] theorem minor12142_low (a c : BitVec 1) (b e : BitVec 2) (d : BitVec 4) :
    (a ++ b ++ c ++ d ++ e : BitVec 10).extractLsb' 2 4 = d :=
  field_eq 2 (by simp only [toNat_append_add]; omega)
@[simp] theorem rmOp_high (rm : Rm) (op : BitVec 7) : (rmOp rm op).extractLsb' 7 3 = rm.code :=
  field_eq 7 (by rw [rmOp, toNat_append_add]; omega)
@[simp] theorem rmOp_low (rm : Rm) (op : BitVec 7) : (rmOp rm op).extractLsb' 0 7 = op :=
  field_eq 0 (by rw [rmOp, toNat_append_add]; omega)
@[simp] theorem minor226_high (a b : BitVec 2) (c : BitVec 6) : (a ++ b ++ c : BitVec 10).extractLsb' 8 2 = a :=
  field_eq 8 (by rw [toNat_append_add, toNat_append_add]; omega)
@[simp] theorem minor226_mid (a b : BitVec 2) (c : BitVec 6) : (a ++ b ++ c : BitVec 10).extractLsb' 6 2 = b :=
  field_eq 6 (by rw [toNat_append_add, toNat_append_add]; omega)
@[simp] theorem minor226_low (a b : BitVec 2) (c : BitVec 6) : (a ++ b ++ c : BitVec 10).extractLsb' 0 6 = c :=
  field_eq 0 (by rw [toNat_append_add]; omega)
@[simp] theorem minor316_high (a : BitVec 3) (b : BitVec 1) (c : BitVec 6) : (a ++ b ++ c : BitVec 10).extractLsb' 7 3 = a :=
  field_eq 7 (by rw [toNat_append_add, toNat_append_add]; omega)
@[simp] theorem minor316_low (a : BitVec 3) (b : BitVec 1) (c : BitVec 6) : (a ++ b ++ c : BitVec 10).extractLsb' 0 6 = c :=
  field_eq 0 (by rw [toNat_append_add]; omega)

/-! ### Selectors that are read back (R58 to R60, R64, R71, R75) -/

@[simp] theorem fenceOf_code (k : FenceKind) : fenceOf k.code = some k := by cases k <;> rfl
@[simp] theorem condOf_code (c : Cond) : condOf c.code = some c := by cases c <;> rfl
@[simp] theorem aluOf_code (op : AluOp) : aluOf op.code = some op := by cases op <;> rfl
@[simp] theorem shOf_code (k : ShKind) : shOf k.code = some k := by cases k <;> rfl
@[simp] theorem ldOf_code (z : LdSize) : ldOf z.code = some z := by cases z <;> rfl
@[simp] theorem sxOf_code (z : MUnit) : sxOf z.sxCode = some z := by cases z <;> rfl
@[simp] theorem amoOf_code (op : AmoOp) : amoOf op.code = some op := by cases op <;> rfl
@[simp] theorem prefOf_code (k : PrefHint) : prefOf k.code = some k := by cases k <;> rfl
@[simp] theorem fopOf_code7 (op : FOp) : fopOf (op.code % 128) = some op := by cases op <;> rfl
@[simp] theorem fopOf_code6 (op : FOp) : fopOf (op.code % 64) = some op := by cases op <;> rfl
@[simp] theorem rmOf_code (rm : Rm) : rmOf rm.code = some rm := by cases rm <;> rfl
@[simp] theorem fmaOf_code (op : FmaOp) : fmaOf op.code = some op := by cases op <;> rfl
@[simp] theorem cvtOf_code (op : CvtOp) : cvtOf op.code = some op := by cases op <;> rfl
@[simp] theorem vopOf_code (op : VOp) : vopOf op.code = some op := by cases op <;> rfl
@[simp] theorem veltOf_code (e : VElt) : veltOf e.code = e := by cases e <;> rfl
theorem vReg_toNat (v : BitVec 5) : (vReg v).toNat = v.toNat := by
  rw [vReg, toNat_append_add]
  exact (Nat.zero_add _)

@[simp] theorem firstDetail_eq_none (r z : Bool) : firstDetail r z = none ↔ r = false ∧ z = false := by
  cases r <;> cases z <;> simp [firstDetail]

/-- A vector register number fits its field. -/
@[simp] theorem vReg_le (v : BitVec 5) : (vReg v).toNat ≤ 31 := by
  rw [vReg_toNat]
  omega

theorem vReg_eq_zero {v : BitVec 5} (zero : v = 0) : vReg v = 0 := by
  subst zero
  rfl

/-! ### Words whose encoding is defined (R69, R71) -/

/-- The major opcodes whose words have no field that is checked. -/
def plainMajors : List (BitVec 8) :=
  [0o020, 0o021, 0o023, 0o042, 0o043, 0o044, 0o045, 0o046, 0o050, 0o060, 0o061, 0o062, 0o063, 0o064, 0o065, 0o066,
    0o070, 0o071, 0o072, 0o073, 0o101, 0o103]

theorem wordDetail_plain {w : W36} (plain : wMajor w ∈ plainMajors) : wordDetail w = none := by
  unfold plainMajors at plain
  unfold wordDetail
  generalize wMajor w = maj at plain
  repeat
    rcases List.mem_cons.mp plain with rfl | plain
    · rfl
  cases plain

theorem wordDetail_crw (rs1 : BitVec 6) (num : BitVec 10) : wordDetail (fmtA 0o004 0 rs1 0 num) = none := by
  simp [wordDetail]

/-- The fields that an operation does not read are 0 (R64, R71). -/
theorem fopOk_unread {op : FOp} {z : Bool} {rm : Rm} (ok : fopOk op z rm = true) :
    (op.unary = true → z = true) ∧ (op.exact = true → rm.code = 0) := by
  cases op with
  | add | sub | mul | div => exact ⟨nofun, nofun⟩
  | sqrt => exact ⟨fun _ => ok, nofun⟩
  | min | max => exact ⟨nofun, fun _ => congrArg Rm.code (beq_iff_eq.mp ok)⟩
  | neg | abs =>
    obtain ⟨unread, even⟩ := Bool.and_eq_true_iff.mp ok
    exact ⟨fun _ => unread, fun _ => congrArg Rm.code (beq_iff_eq.mp even)⟩

theorem wordDetail_fop {maj : BitVec 8} (major : maj = 0o140 ∨ maj = 0o141) (rd rs1 : BitVec 6) {rs2 : BitVec 6} {op : FOp} {rm : Rm}
    (ok : fopOk op (rs2 == 0) rm = true) : wordDetail (fmtA maj rd rs1 rs2 (rmOp rm (BitVec.ofNat 7 op.code))) = none := by
  obtain ⟨unread, unrounded⟩ := fopOk_unread ok
  have zero : op.unary = true → rs2 = 0 := fun h => beq_iff_eq.mp (unread h)
  rcases major with rfl | rfl <;> simpa [wordDetail] using ⟨zero, unrounded⟩

theorem wordDetail_vfop (vd v1 : BitVec 5) {v2 : BitVec 5} (w : Bool) {op : FOp} {rm : Rm} (ok : fopOk op (v2 == 0) rm = true) :
    wordDetail (fmtA 0o163 (vReg vd) (vReg v1) (vReg v2) (rm.code ++ BitVec.ofBool w ++ BitVec.ofNat 6 op.code)) = none := by
  obtain ⟨unread, unrounded⟩ := fopOk_unread ok
  have zero : op.unary = true → vReg v2 = 0 := fun h => vReg_eq_zero (beq_iff_eq.mp (unread h))
  have small : ¬ 31 < (vReg v2).toNat := not_lt.mpr (vReg_le v2)
  simpa [wordDetail, small] using ⟨zero, unrounded⟩

/-- The lane of a move is below the lane count; a broadcast names lane 0 (R66). -/
theorem laneOk_bound {k : VmovKind} {lane : BitVec 6} {e : VElt} (ok : laneOk k lane e = true) :
    (k = .broadcast → lane = 0) ∧ (k ≠ .broadcast → lane.toNat < e.lanes) := by
  cases k
  case broadcast => exact ⟨fun _ => beq_iff_eq.mp ok, fun h => absurd rfl h⟩
  case insert | extract =>
    refine ⟨nofun, fun _ => ?_⟩
    cases e
    case nonet => exact lane.isLt
    all_goals exact of_decide_eq_true ok

theorem wordDetail_vmov {t : Fin 576} {k : VmovKind} {v : BitVec 5} {g lane : BitVec 6} {e : VElt} {w : W36} (ok : laneOk k lane e = true)
    (word : encodeWord (.vmov t k v g lane e) = some w) : wordDetail w = none := by
  obtain ⟨unnamed, bound⟩ := laneOk_bound ok
  cases k <;> cases word
  · simpa [wordDetail] using unnamed
  · simpa [wordDetail] using bound
  · simpa [wordDetail] using bound

/-- In word form EMARK[7:4] is 0 (R49). -/
theorem emarkOk_high {em : BitVec 8} {w : Bool} (ok : emarkOk em w = true) : w = true → em.extractLsb' 4 4 = (0 : BitVec 4) := by
  rintro rfl
  simpa [emarkOk] using ok

/-- The word of a well-formed instruction has a defined encoding (R69). -/
theorem wordDetail_encodeWord {i : Instr} {w : W36} (wf : wellFormed i = true) (row : ∀ t v, i ≠ .illegalInstruction t v)
    (word : encodeWord i = some w) : wordDetail w = none := by
  cases i with
  | illegalInstruction t v => exact absurd rfl (row t v)
  | nop | vcall | vret | syscall | hvcall | tret | wait => cases word; rfl
  | br | bl | dbnz | addi | addi36 | andi | ori | xori | li | ln | lns | lh | lhs | lw | lws | ld | sn | sh | sw | sd | ldm | sdm =>
    cases word
    exact wordDetail_plain (by simp [plainMajors])
  | crw | crwCtxid | tlbinvPage | tlbinvContext | tlbinvTable | tlbinvPageAll | ctxreseed | fstepWrite =>
    cases word
    exact wordDetail_crw ..
  | addM | subM | mulM | andM | orM | xorM | mtest | mset | lwm | swm =>
    cases word
    simpa [wordDetail] using emarkOk_high wf
  | shi => cases word; simpa [wordDetail, wellFormed, shiOk] using wf
  | fop64 => cases word; exact wordDetail_fop (.inl rfl) _ _ wf
  | fop32 => cases word; exact wordDetail_fop (.inr rfl) _ _ wf
  | vfop => cases word; exact wordDetail_vfop _ _ _ wf
  | vmov => exact wordDetail_vmov wf word
  | fence | crr | launch | jr | skipr | skipi | alu72 | alu36 | insh | lx | sx | amo | pref | mget | fma64 | fma32 | fcvt | fcmp | vld
  | vst | vop => cases word; simp [wordDetail]
  | _ => cases word

/-! ### Delay slots (R83) -/

theorem illegalDetail_of_legal {w : W36} (legal : wordDetail w = none) (ds : Bool) :
    illegalDetail w ds = if ds && slotIllegal w then some 3 else none := by
  rw [illegalDetail, legal]

/-- Settles O27: the word's encoding is defined, and its major opcode with its ACT bit says whether a slot takes it. -/
theorem slotPlacement : Obligations.SlotPlacement := by
  unfold Obligations.SlotPlacement
  intro i w wf row word
  have legal := wordDetail_encodeWord wf row word
  rw [illegalDetail_of_legal legal, illegalDetail_of_legal legal]
  refine ⟨rfl, ?_⟩
  cases i with
  | illegalInstruction t v => exact absurd rfl (row t v)
  | vmov t k => cases k <;> cases word <;> simp [slotIllegal]
  | addM _ _ _ _ _ act | subM _ _ _ _ _ act | mulM _ _ _ _ _ act | andM _ _ _ _ _ act | orM _ _ _ _ _ act | xorM _ _ _ _ _ act
  | mtest _ _ _ act | lwm _ _ _ _ act | ldm _ _ _ _ act | swm _ _ _ _ act | sdm _ _ _ _ act =>
    cases act <;> cases word <;> simp [slotIllegal]
  | _ => cases word <;> simp [slotIllegal]

end Sys2Proof.Machine

/-! What an instruction that is ready leaves (R73, R88, R92): one lemma for each way in which its own part can end, when that part
has changed its own thread alone. -/

namespace Sys2Proof.Machine

/-! ### The own part -/

theorem After.trans {s f v u : State} {t : Fin 576} {x y : Thread} (own : After s f t x v) (rest : After s v t y u) : After s f t y u := by
  obtain ⟨_, cores, frame⟩ := own
  obtain ⟨threads', cores', frame'⟩ := rest
  exact ⟨threads', fun q => (cores' q).trans (cores q), by rw [frame', frame]⟩

theorem State.fetched_after (s : State) (t : Fin 576) : After s (s.fetched t) t (s.thread t.val) (s.fetched t) :=
  ⟨State.fetched_arch, fun _ => rfl, rfl⟩

/-- A change of thread t, when no thread has changed before. -/
theorem State.modThread_after {s f : State} (t : Fin 576) (g : Thread → Thread) (o : ∀ k, f.thread k = s.thread k) :
    After s f t (g (s.thread t.val)) (f.modThread t.val g) :=
  ⟨State.setG_arch s f t o g, fun _ => rfl, rfl⟩

/-- A change of thread t by the own part of its instruction. -/
theorem State.fetched_modThread_after (s : State) (t : Fin 576) (g : Thread → Thread) :
    After s (s.fetched t) t (g (s.thread t.val)) ((s.fetched t).modThread t.val g) :=
  State.modThread_after t g (State.fetched_thread s t)

/-! ### How it ends -/

section
variable {s v : State} {t : Fin 576} {i : Instr} {x : Thread} {body : State → Done} (h : s.ready t i = true)
include h

theorem State.run_completes {fl : Flow} {p : Bool} {evs : List (Nat × Nat)} (ends : body (s.fetched t) = .done v fl p evs)
    (own : After s (s.fetched t) t x v) : ∃ u, s.run t i body = .next u ∧ After s (s.fetched t) t (x.advance fl) u := by
  obtain ⟨u, ran, rest⟩ := State.run_done h ends own.1
  exact ⟨u, ran, own.trans rest⟩

theorem State.run_moved (ends : body (s.fetched t) = .moved v) (own : After s (s.fetched t) t x v) :
    ∃ u, s.run t i body = .next u ∧ After s (s.fetched t) t x u := by
  rw [State.run_ready h, ends]
  exact ⟨_, rfl, own.same (State.retired_same ..)⟩

/-- A thread that is held counts its fetch now (R421), whether or not it waits in a mode of its own. -/
theorem State.run_held (ends : body (s.fetched t) = .wait v) (own : After s (s.fetched t) t x v) :
    ∃ u, s.run t i body = .next u ∧ After s (s.fetched t) t x u := by
  rw [State.run_ready h, ends]
  refine ⟨_, rfl, ?_⟩
  unfold State.finish
  dsimp only
  split
  · exact own
  · exact own.same (State.countEvents_same ..)

/-- A call saves what follows it (R88). -/
theorem State.run_called {c : BitVec 8} (ends : body (s.fetched t) = .call (s.fetched t) c) :
    ∃ u, s.run t i body = .next u ∧ After s (s.fetched t) t
      ((s.thread t.val).takeTrap c 0 0 (s.thread t.val).npc ((s.thread t.val).npc + 4) false) u := by
  rw [State.run_ready h, ends]
  refine ⟨_, rfl, ?_⟩
  refine After.of_modThread ((State.countEvents_same ..).trans (State.countFix1_same ..)) (State.fetched_thread s t) fun y same => ?_
  obtain ⟨_, npc, _⟩ := Thread.arch_fields same
  rw [Thread.arch_takeTrap, Thread.arch_takeTrap, same, npc]

theorem State.run_unprivileged {l : BitVec 2} {w : W36} {next : State → Done} (low : (s.thread t.val).priv.toNat < l.toNat) :
    ∃ u, s.run t i (needPriv t l w next) = .next u ∧ After s (s.fetched t) t
      ((s.thread t.val).takeTrap 2 (l.setWidth 8) (zext72 w) (s.thread t.val).pc (s.thread t.val).npc (s.thread t.val).ds) u := by
  refine State.run_trap h ?_ (State.fetched_thread s t)
  rw [needPriv, State.fetched_thread, if_pos low]

end

theorem needPriv_above {s : State} {t : Fin 576} {l : BitVec 2} {w : W36} {next : State → Done}
    (high : l.toNat ≤ (s.thread t.val).priv.toNat) : needPriv t l w next (s.fetched t) = next (s.fetched t) := by
  rw [needPriv, State.fetched_thread, if_neg (by omega)]

/-- A word that is illegal where it stands traps before its own part (R83, R93). -/
theorem State.run_illegal {s : State} {t : Fin 576} {i : Instr} {w : W36} {d : BitVec 8} (body : State → Done)
    (word : encodeWord i = some w) (fit : s.threadFit t.val = true) (issues : s.issues t.val = true) (free : s.pickInt t.val = none)
    (fetched : (s.fetch t.val).2.2.isOk = true) (bad : illegalDetail w (s.thread t.val).ds = some d) :
    s.run t i body = .next ((s.fetched t).trapped t.val 1 d (zext72 w)) := by
  have same := State.fetched_thread s t t.val
  unfold State.run State.runWord
  unfold State.fetched at same ⊢
  simp only [fit, issues, free, word, Option.getD_some, Bool.not_true, Bool.or_self, Bool.false_eq_true, if_false]
  generalize s.fetch t.val = g at *
  obtain ⟨s1, evs, r⟩ := g
  cases r with
  | ok pa uc =>
    dsimp only at same ⊢
    rw [same, bad]
  | trap c d v => cases fetched
  | wait => cases fetched

end Sys2Proof.Machine

/-! Skips and transfers (R73 to R81). -/

namespace Sys2Proof.Machine

/-- Settles O9: each outcome is a case of the advance. -/
theorem outcomesMovePcNpcDs : Obligations.OutcomesMovePcNpcDs := by
  unfold Obligations.OutcomesMovePcNpcDs
  intro x target after
  refine ⟨?ordinary, ?skip, ?taken, ?falls, ?annuls⟩
  all_goals exact ⟨rfl, rfl, rfl, rfl⟩

/-! ### Skips (R74, R75) -/

/-- R75: when a condition holds. -/
def Cond.Holds (c : Cond) (p q : Reg) : Prop :=
  match c with
  | .eq => p = q
  | .ne => p ≠ q
  | .lt => p.toInt < q.toInt
  | .ge => q.toInt ≤ p.toInt
  | .le => p.toInt ≤ q.toInt
  | .gt => q.toInt < p.toInt
  | .ltu => p.toNat < q.toNat
  | .geu => q.toNat ≤ p.toNat
  | .leu => p.toNat ≤ q.toNat
  | .gtu => q.toNat < p.toNat
  | .any => p &&& q ≠ 0
  | .none => p &&& q = 0

theorem condHolds_iff (c : Cond) (p q : Reg) : condHolds c p q = true ↔ Cond.Holds c p q := by
  cases c <;> simp [condHolds, Cond.Holds, BitVec.slt_eq_decide, BitVec.ult_eq_decide]

theorem skipImm_eq (c : Cond) (v : BitVec 18) : skipImm c v = if c = .any ∨ c = .none then v.setWidth 72 else v.signExtend 72 := by
  cases c <;> rfl

/-- A skip skips when its condition holds of its register and its other operand. -/
theorem State.run_skip {s : State} {t : Fin 576} {i : Instr} (h : s.ready t i = true) (c : Cond) (ra : BitVec 6) {b : State → Reg} {q : Reg}
    (operand : b (s.fetched t) = q) :
    (Cond.Holds c ((s.thread t.val).gr ra) q → ∃ u, s.run t i (skipDone t c ra b) = .next u
        ∧ After s (s.fetched t) t ((s.thread t.val).advance .skip) u)
      ∧ (¬ Cond.Holds c ((s.thread t.val).gr ra) q → ∃ u, s.run t i (skipDone t c ra b) = .next u
        ∧ After s (s.fetched t) t ((s.thread t.val).advance .ordinary) u) := by
  have ends : skipDone t c ra b (s.fetched t)
      = .done (s.fetched t) (if condHolds c ((s.thread t.val).gr ra) q then .skip else .ordinary) true [] := by
    rw [skipDone, State.g_fetched, operand]
  refine ⟨fun holds => ?_, fun fails => ?_⟩
  · rw [if_pos ((condHolds_iff ..).mpr holds)] at ends
    exact State.run_completes h ends (State.fetched_after s t)
  · rw [if_neg (mt (condHolds_iff ..).mp fails)] at ends
    exact State.run_completes h ends (State.fetched_after s t)

/-! ### Transfers (R77 to R81, R120) -/

/-- A target of JR is a multiple of 4 as its register's low bits say (R80). -/
theorem low64_low (r : Reg) : (low64 r).extractLsb' 0 2 = (r.extractLsb' 0 2 : BitVec 2) := BitVec.extractLsb'_extractLsb'_of_le (by decide)

section
variable {s : State} {t : Fin 576} {a : Bool}

theorem exec_br {off : BitVec 27} (h : s.ready t (.br t a off) = true) :
    ∃ u, exec (.br t a off) s = .next u
      ∧ After s (s.fetched t) t ((s.thread t.val).advance (.taken (branchTo (s.thread t.val) off))) u := by
  refine State.run_completes h (p := false) (evs := []) ?_ (State.fetched_after s t)
  rw [State.fetched_thread]

/-- What BL makes of its thread: the link in g63 and on the return stack. -/
def Thread.linked (x : Thread) : Thread := { x.setGr 63 (linkOf x) with ret := pushRet x.ret (x.pc + 8) }

theorem exec_bl {off : BitVec 27} (h : s.ready t (.bl t a off) = true) :
    ∃ u, exec (.bl t a off) s = .next u
      ∧ After s (s.fetched t) t ((s.thread t.val).linked.advance (.taken (branchTo (s.thread t.val) off))) u := by
  refine State.run_completes h (p := false) (evs := []) ?_ (State.fetched_modThread_after s t Thread.linked)
  simp only [State.modThread, State.fetched_thread]
  rfl

/-- What an aligned JR makes of its thread: the link in rd, and the return stack of R120. -/
def Thread.jumped (x : Thread) (rd rs1 : BitVec 6) : Thread :=
  { x.setGr rd (linkOf x) with ret := (jrStack x rd rs1 (low64 (x.gr rs1))).1 }

theorem exec_jr_aligned {ra rb : BitVec 6} (h : s.ready t (.jr t a ra rb) = true)
    (aligned : (low64 ((s.thread t.val).gr rb)).extractLsb' 0 2 = (0 : BitVec 2)) :
    ∃ u, exec (.jr t a ra rb) s = .next u
      ∧ After s (s.fetched t) t (((s.thread t.val).jumped ra rb).advance (.taken (low64 ((s.thread t.val).gr rb)))) u := by
  have marked := (State.fetched_modThread_after s t fun x => x.jumped ra rb).same (pres_ite (Q := Same _)
    (c := (jrStack (s.thread t.val) ra rb (low64 ((s.thread t.val).gr rb))).2.contains (5, 1) = true)
    (fun _ => State.markWrong_same _ t.val) fun _ => Same.refl _)
  refine State.run_completes h (p := false) (evs := (jrStack (s.thread t.val) ra rb (low64 ((s.thread t.val).gr rb))).2) ?_ marked
  simp only [State.modThread, State.fetched_thread, aligned, ne_eq, not_true_eq_false, if_false]
  rfl

theorem exec_jr_misaligned {ra rb : BitVec 6} (h : s.ready t (.jr t a ra rb) = true)
    (misaligned : (low64 ((s.thread t.val).gr rb)).extractLsb' 0 2 ≠ (0 : BitVec 2)) :
    ∃ u, exec (.jr t a ra rb) s = .next u
      ∧ After s (s.fetched t) t ((s.thread t.val).takeTrap 4 0 (zext72 (low64 ((s.thread t.val).gr rb)))
          (s.thread t.val).pc (s.thread t.val).npc (s.thread t.val).ds) u := by
  refine State.run_trap h ?_ (State.fetched_thread s t)
  simp only [State.fetched_thread]
  exact if_pos misaligned

theorem exec_dbnz {rc : BitVec 6} {off : BitVec 21} (h : s.ready t (.dbnz t a rc off) = true) {v : Reg}
    (count : (s.thread t.val).gr rc - 1 = v) :
    ∃ u, exec (.dbnz t a rc off) s = .next u
      ∧ After s (s.fetched t) t (((s.thread t.val).setGr rc v).advance
          (if v ≠ 0 then .taken (branchTo (s.thread t.val) off) else .notTaken a)) u := by
  subst count
  refine State.run_completes h (p := true) (evs := []) ?_ (State.fetched_modThread_after s t fun y => y.setGr rc _)
  simp only [State.fetched_thread]
  rfl

end

/-- Settles O12: a skip by its condition, a transfer by its own part. -/
theorem skipsAndTransfers : Obligations.SkipsAndTransfers := by
  unfold Obligations.SkipsAndTransfers
  intro s t ra rb a x goes holds imm18 link
  have same (c : Cond) (p q : Reg) : holds c p q ↔ Cond.Holds c p q := by cases c <;> rfl
  refine ⟨fun c => ?skipr, fun c v => ?skipi, fun off => ⟨exec_br, exec_bl⟩, fun aligned => ⟨_, fun h => exec_jr_aligned h ((low64_low _).trans aligned)⟩,
    fun misaligned h => exec_jr_misaligned h fun zero => misaligned ((low64_low _).symm.trans zero), fun off => ⟨fun more h => ?loops, fun last h => ?ends⟩⟩
  case skipr =>
    simp only [same]
    exact ⟨fun yes h => (State.run_skip h c ra (State.g_fetched s t rb)).1 yes,
      fun no h => (State.run_skip h c ra (State.g_fetched s t rb)).2 no⟩
  case skipi =>
    simp only [same]
    exact ⟨fun yes h => (State.run_skip h c ra (skipImm_eq c v)).1 yes, fun no h => (State.run_skip h c ra (skipImm_eq c v)).2 no⟩
  case loops =>
    have left : x.gr ra - 1 ≠ 0 := sub_ne_zero.mpr more
    have done := exec_dbnz h rfl
    rw [if_pos left] at done
    exact done
  case ends =>
    have done := exec_dbnz h (v := 0) (by rw [show (s.thread t.val).gr ra = 1 from last]; rfl)
    rw [if_neg (not_not.mpr rfl)] at done
    exact done

end Sys2Proof.Machine

/-! Traps, calls, returns and the two worlds (R86 to R92, R98 to R100). -/

namespace Sys2Proof.Machine

/-! ### Words of fields -/

theorem causeWord_eq (ds intr : Bool) (d c : BitVec 8) :
    causeWord ds intr d c = BitVec.ofNat 72 ((if ds then 2 ^ 23 else 0) + (if intr then 2 ^ 22 else 0) + 256 * d.toNat + c.toNat) := by
  apply BitVec.eq_of_toNat_eq
  simp only [causeWord, toNat_append_add, BitVec.toNat_ofNat, BitVec.toNat_ofBool]
  cases ds <;> cases intr <;> simp <;> omega

/-- xSTAT as a trap leaves it (R87, R89): PPRIV and PIE. -/
theorem statWord_eq (p : BitVec 2) (ie : Bool) : (0 : BitVec 68) ++ p ++ BitVec.ofBool ie ++ (0 : BitVec 1)
    = BitVec.ofNat 72 (4 * p.toNat + if ie then 2 else 0) := by
  apply BitVec.eq_of_toNat_eq
  simp only [toNat_append_add, BitVec.toNat_ofNat, BitVec.toNat_ofBool]
  cases ie <;> simp <;> omega

theorem vrsaveOf_eq (x : Thread) :
    vrsaveOf x = BitVec.ofNat 72 (2 ^ 20 * x.priv.toNat + 2 ^ 8 * x.ctx.toNat + 2 ^ 5 * x.rm.toNat + x.flags.toNat) := by
  apply BitVec.eq_of_toNat_eq
  simp only [vrsaveOf, toNat_append_add, BitVec.ofNat_eq_ofNat, BitVec.toNat_ofNat, Nat.zero_mod]
  omega

/-- The Vault's entry point (R98): VENTRY without its low six bits. -/
theorem ventryAddr_eq (r : Reg) : (r.extractLsb' 6 58 : BitVec 58) ++ (0 : BitVec 6) = BitVec.ofNat 64 (r.toNat / 64 * 64) := by
  apply BitVec.eq_of_toNat_eq
  simp only [toNat_append_add, BitVec.extractLsb'_toNat, BitVec.ofNat_eq_ofNat, BitVec.toNat_ofNat, Nat.zero_mod, Nat.shiftRight_eq_div_pow]
  omega

/-! ### Banks of the current world (R86) -/

@[simp] theorem WReg.bank_setBank (w : WReg) (l : BitVec 2) (b : Bank) : (w.setBank l b).bank l = b := by
  unfold WReg.bank WReg.setBank
  split <;> rfl

@[simp] theorem Thread.cur_setCur (x : Thread) (w : WReg) : (x.setCur w).cur = w := by
  unfold Thread.setCur Thread.setWreg
  split <;> simp [Thread.cur, Thread.wreg, *]

@[simp] theorem Thread.setCur_otherWorld (x : Thread) (w : WReg) : (x.setCur w).wreg (!x.vault) = x.wreg (!x.vault) := by
  unfold Thread.setCur Thread.setWreg
  split <;> simp [Thread.wreg, *]

/-- What the current world's registers take stays in them. -/
theorem Thread.setCur_eq (x : Thread) (w : WReg) : x.setCur w = { x with wc := (x.setCur w).wc, wv := (x.setCur w).wv } := by
  unfold Thread.setCur Thread.setWreg
  split <;> rfl

@[simp] theorem Thread.setCur_vault (x : Thread) (w : WReg) : (x.setCur w).vault = x.vault := by
  rw [Thread.setCur_eq]

/-! ### Taking a trap (R89) -/

theorem trapLevel_eq (w : WReg) (p : BitVec 2) (c : BitVec 8) :
    trapLevel w p c = if p = 2 ∨ c = 18 ∨ w.troute.getLsbD c.toNat = true then 2 else 1 := by
  unfold trapLevel WReg.target
  by_cases always : p = 2 ∨ c = 18
  · rw [if_pos always, if_pos (or_assoc.mp (.inl always))]
  · have routed : (p = 2 ∨ c = 18 ∨ w.troute.getLsbD c.toNat = true) = (w.troute.getLsbD c.toNat = true) :=
      propext (by rw [← or_assoc]; exact or_iff_right always)
    simp only [if_neg always, routed]
    split
    · rfl
    · rw [Nat.add_sub_cancel' (by omega)]

/-- The bank that a trap writes. -/
def Bank.trapped (b : Bank) (p : BitVec 2) (c d : BitVec 8) (v : Reg) (pc npc : Addr) (ds : Bool) : Bank :=
  { b with cause := causeWord ds (decide (32 ≤ c.toNat)) d c, pc := pc.setWidth 72, npc := npc.setWidth 72, val := v
           stat := (0 : BitVec 68) ++ p ++ BitVec.ofBool (b.stat.getLsbD 0) ++ (0 : BitVec 1) }

theorem Thread.takeTrap_eq {x : Thread} {l : BitVec 2} {c : BitVec 8} (level : trapLevel x.cur x.priv c = l)
    (d : BitVec 8) (v : Reg) (pc npc : Addr) (ds : Bool) :
    x.takeTrap c d v pc npc ds = { x.setCur (x.cur.setBank l ((x.cur.bank l).trapped x.priv c d v pc npc ds)) with
      priv := l, pc := (x.cur.bank l).vec.extractLsb' 0 64, npc := (x.cur.bank l).vec.extractLsb' 0 64 + 4, ds := false, sb := [] } := by
  subst level
  rfl

theorem Thread.takeTrap_cur {x : Thread} {l : BitVec 2} {c : BitVec 8} (level : trapLevel x.cur x.priv c = l)
    (d : BitVec 8) (v : Reg) (pc npc : Addr) (ds : Bool) :
    (x.takeTrap c d v pc npc ds).cur = x.cur.setBank l ((x.cur.bank l).trapped x.priv c d v pc npc ds) := by
  rw [Thread.takeTrap_eq level]
  exact Thread.cur_setCur ..

/-- Settles O23: the bank of the trap's level, and the fields of its cause and status words. -/
theorem trapEntry : Obligations.TrapEntry := by
  unfold Obligations.TrapEntry
  intro x c d v pc npc ds l y b b'
  have level : trapLevel x.cur x.priv c = l := trapLevel_eq ..
  have entered := Thread.takeTrap_eq level d v pc npc ds
  have cur : y.cur = x.cur.setBank l (b.trapped x.priv c d v pc npc ds) := Thread.takeTrap_cur level d v pc npc ds
  have bank : b' = b.trapped x.priv c d v pc npc ds := by
    show y.cur.bank l = _
    rw [cur, WReg.bank_setBank]
  have other : y.wreg (!x.vault) = x.wreg (!x.vault) := by
    show (x.takeTrap c d v pc npc ds).wreg _ = _
    rw [entered]
    exact Thread.setCur_otherWorld ..
  have frame : y = { x with wc := y.wc, wv := y.wv, priv := y.priv, pc := y.pc, npc := y.npc, ds := y.ds, sb := [] } := by
    show x.takeTrap c d v pc npc ds = _
    simp only [y, entered]
    rw [Thread.setCur_eq]
  rw [bank]
  refine ⟨?cause, rfl, rfl, rfl, statWord_eq .., rfl, rfl, rfl, cur, other, ?priv, ?pc, ?npc, ?ds, frame⟩
  case cause =>
    refine (causeWord_eq ds (decide (32 ≤ c.toNat)) d c).trans ?_
    simp only [decide_eq_true_eq]
  case priv => exact congrArg Thread.priv entered
  case pc => exact congrArg Thread.pc entered
  case npc => exact congrArg Thread.npc entered
  case ds => exact congrArg Thread.ds entered

/-! ### SYSCALL, HVCALL and TRET (R90, R91) -/

section
variable {p : BitVec 2}

/-- A level other than the user level may run what needs level 1 (R92). -/
theorem one_le_of_ne_zero (above : p ≠ 0) : (1 : BitVec 2).toNat ≤ p.toNat := by
  have := BitVec.toNat_ne.mp above
  simp at this ⊢
  omega

theorem lt_one_of_eq_zero (user : p = 0) : p.toNat < (1 : BitVec 2).toNat := by
  subst user
  decide

end

/-- Settles O24: a call ends by its trap, and an illegal word traps before its own part. -/
theorem callsAndIllegalWords : Obligations.CallsAndIllegalWords := by
  unfold Obligations.CallsAndIllegalWords
  intro s t w x ends
  refine ⟨fun h => State.run_called h rfl, fun h above => State.run_called h (needPriv_above (one_le_of_ne_zero above)),
    fun h user => State.run_unprivileged h (lt_one_of_eq_zero user), fun fit issues free fetched d bad => ?illegal⟩
  case illegal =>
    refine ⟨_, ?_, State.trapped_after (State.fetched_thread s t) 1 d (w.setWidth 72)⟩
    show execIllegalInstruction t w s = _
    rw [execIllegalInstruction, show illegalDetail w (s.thread t.val).ds = some d from bad]
    exact State.run_illegal Done.ord rfl fit issues free fetched bad

/-- xSTAT as a return leaves it: PIE in IE (R90). -/
theorem returnStat_getLsbD (r : Reg) (k : Nat) :
    ((r &&& ~~~(1 : Reg)) ||| (BitVec.ofBool (r.getLsbD 1)).setWidth 72).getLsbD k = if k = 0 then r.getLsbD 1 else r.getLsbD k := by
  have one : (1 : Reg).getLsbD k = decide (k = 0) := by
    rw [show (1 : Reg) = 1#72 from rfl, BitVec.getLsbD_one]
    simp
  simp only [BitVec.getLsbD_or, BitVec.getLsbD_and, BitVec.getLsbD_not, BitVec.getLsbD_setWidth, BitVec.getLsbD_ofBool, one]
  by_cases low : k = 0
  · simp [low]
  by_cases inside : k < 72
  · simp [low, inside]
  · simp [low, inside, BitVec.getLsbD_of_ge r k (by omega)]

/-- Settles O25: the return is the model's own, and its status word is read bit by bit. -/
theorem tretReturns : Obligations.TretReturns := by
  unfold Obligations.TretReturns
  intro s t h x b ends
  refine ⟨fun above => ⟨_, ?_, returnStat_getLsbD b.stat⟩, fun user => State.run_unprivileged h (lt_one_of_eq_zero user)⟩
  exact State.run_moved h (needPriv_above (one_le_of_ne_zero above)) (State.fetched_modThread_after s t Thread.trapReturn)

/-! ### VCALL and VRET (R98 to R100) -/

/-- What VCALL makes of its thread (R99). -/
def Thread.enterVault (x : Thread) : Thread :=
  let a : Addr := BitVec.ofNat 64 (x.ventry.toNat / 64 * 64)
  { x with
    vrpc := (x.pc + 4).setWidth 72
    vrsave := BitVec.ofNat 72 (2 ^ 20 * x.priv.toNat + 2 ^ 8 * x.ctx.toNat + 2 ^ 5 * x.rm.toNat + x.flags.toNat)
    vault := true, priv := 2, ret := [], pc := a, npc := a + 4, ds := false }

/-- What VRET makes of its thread (R100). -/
def Thread.leaveVault (x : Thread) : Thread :=
  { x with
    g := x.g.filter fun p => decide (p.1 < 5), v := []
    priv := x.vrsave.extractLsb' 20 2, ctx := x.vrsave.extractLsb' 8 12, rm := x.vrsave.extractLsb' 5 3
    flags := x.vrsave.extractLsb' 0 5, vault := false, ret := []
    pc := x.vrpc.extractLsb' 0 64, npc := x.vrpc.extractLsb' 0 64 + 4, ds := false }

theorem Thread.leaveVault_gr (x : Thread) (r : BitVec 6) : x.leaveVault.gr r = if r.toNat < 5 then x.gr r else 0 := by
  unfold Thread.gr
  by_cases zero : r = 0
  · simp [zero]
  · rw [if_neg zero, if_neg zero]
    refine (sget_filter 0 x.g (fun k => decide (k < 5)) r.toNat).trans ?_
    simp only [decide_eq_true_eq]

section
variable {s : State} {t : Fin 576}

section
variable (h : s.ready t (.vcall t) = true) (above : (s.thread t.val).priv ≠ 0)
include h above

theorem exec_vcall_inside (vault : (s.thread t.val).vault = true) :
    ∃ u, exec (.vcall t) s = .next u ∧ After s (s.fetched t) t
      ((s.thread t.val).takeTrap 19 0 0 (s.thread t.val).pc (s.thread t.val).npc (s.thread t.val).ds) u := by
  refine State.run_trap h ((needPriv_above (one_le_of_ne_zero above)).trans ?_) (State.fetched_thread s t)
  simp only [State.fetched_thread, vault, if_true]

variable (common : (s.thread t.val).vault = false)
include common

theorem exec_vcall_shut (shut : (s.thread t.val).ventry.getLsbD 0 = false) :
    ∃ u, exec (.vcall t) s = .next u ∧ After s (s.fetched t) t
      ((s.thread t.val).takeTrap 19 1 0 (s.thread t.val).pc (s.thread t.val).npc (s.thread t.val).ds) u := by
  refine State.run_trap h ((needPriv_above (one_le_of_ne_zero above)).trans ?_) (State.fetched_thread s t)
  simp only [State.fetched_thread, common, shut, Bool.false_eq_true, Bool.not_false, if_false, if_true]

theorem exec_vcall_enters (opened : (s.thread t.val).ventry.getLsbD 0 = true) :
    ∃ u, exec (.vcall t) s = .next u ∧ After s (s.fetched t) t (s.thread t.val).enterVault u := by
  refine State.run_moved h ((needPriv_above (one_le_of_ne_zero above)).trans ?_)
    (State.fetched_modThread_after s t Thread.enterVault)
  simp only [State.fetched_thread, common, opened, Bool.false_eq_true, Bool.not_true, if_false, ventryAddr_eq, vrsaveOf_eq]
  simp only [State.modThread, State.fetched_thread]
  rfl

end

section
variable (h : s.ready t (.vret t) = true) (above : (s.thread t.val).priv ≠ 0)
include h above

theorem exec_vret_outside (common : (s.thread t.val).vault = false) :
    ∃ u, exec (.vret t) s = .next u ∧ After s (s.fetched t) t
      ((s.thread t.val).takeTrap 19 2 0 (s.thread t.val).pc (s.thread t.val).npc (s.thread t.val).ds) u := by
  refine State.run_trap h ((needPriv_above (one_le_of_ne_zero above)).trans ?_) (State.fetched_thread s t)
  simp only [State.fetched_thread, common, Bool.not_false, if_true]

theorem exec_vret_leaves (vault : (s.thread t.val).vault = true) :
    ∃ u, exec (.vret t) s = .next u ∧ After s (s.fetched t) t (s.thread t.val).leaveVault u := by
  refine State.run_moved h ((needPriv_above (one_le_of_ne_zero above)).trans ?_)
    ((State.fetched_modThread_after s t Thread.leaveVault).same (State.useKey_same _ (t.val / 2)
      (((s.fetched t).modThread t.val Thread.leaveVault).thread t.val).ctx.toNat))
  simp only [State.fetched_thread, vault, Bool.not_true, Bool.false_eq_true, if_false]
  simp only [State.modThread, State.fetched_thread]
  rfl

end
end

/-- Settles O28: the traps in their order, then the way in and the way out. -/
theorem worldTransitions : Obligations.WorldTransitions := by
  unfold Obligations.WorldTransitions
  intro s t x ends traps
  exact ⟨fun h => ⟨fun user => State.run_unprivileged h (lt_one_of_eq_zero user), exec_vcall_inside h, exec_vcall_shut h,
      exec_vcall_enters h⟩,
    fun h => ⟨fun user => State.run_unprivileged h (lt_one_of_eq_zero user), exec_vret_outside h,
      fun above vault => ⟨_, exec_vret_leaves h above vault, x.leaveVault_gr, fun _ => rfl, rfl⟩⟩⟩

end Sys2Proof.Machine

/-! Threads that wait, and the interrupts that end their waits (R94 to R97, R326, R327). -/

namespace Sys2Proof.Machine

/-! ### What no counter is part of -/

/-- Threads that differ in counters only have the same trap registers, level and routes. -/
theorem Thread.arch_trapState {x y : Thread} (same : x.arch = y.arch) :
    x.priv = y.priv ∧ (∀ l, x.cur.bank l = y.cur.bank l) ∧ ∀ p c, trapLevel x.cur p c = trapLevel y.cur p c := by
  have cur (z : Thread) : z.arch.cur = z.cur.quietly := by
    unfold Thread.cur Thread.wreg
    show (if z.vault then z.wv.quietly else z.wc.quietly) = _
    split <;> rfl
  have quiet : x.cur.quietly = y.cur.quietly := by rw [← cur, ← cur, same]
  have priv := congrArg Thread.priv same
  have banks (l : BitVec 2) := congrArg (fun w => WReg.bank w l) quiet
  have levels (p : BitVec 2) (c : BitVec 8) := congrArg (fun w => trapLevel w p c) quiet
  exact ⟨priv, banks, levels⟩

theorem Thread.arch_setGr (x : Thread) (r : BitVec 6) (v : Reg) : (x.setGr r v).arch = x.arch.setGr r v := by
  unfold Thread.setGr
  split <;> rfl

theorem After.modCore {s f v : State} {t : Fin 576} {x : Thread} (h : After s f t x v) (q : Nat) {g : Core → Core}
    (keeps : ∀ c, (g c).arch = g c.arch) : After s (f.modCore q g) t x (v.modCore q g) := by
  obtain ⟨threads, cores, frame⟩ := h
  refine ⟨threads, fun k => ?_, ?_⟩
  · rw [State.core_modCore, State.core_modCore]
    split
    · rw [keeps, keeps, cores]
    · exact cores k
  · unfold State.modCore State.setCore
    rw [frame]

/-! ### WAIT (R97, R346) -/

theorem WReg.iena_target (w : WReg) (k : Nat) :
    (w.bank (w.target k)).iena = if w.troute.getLsbD (32 + k) then w.h.iena else w.s.iena := by
  unfold WReg.target
  split <;> rfl

/-- A pending class of the current world whose ENA bit is set at the level that it targets (R97). -/
theorem State.waitMet_iff (s : State) (t : Nat) : s.waitMet t = true ↔
    ∃ k, k < 8 ∧ (s.ipend t (s.thread t).vault).getLsbD k = true
      ∧ (if (s.thread t).cur.troute.getLsbD (32 + k) then (s.thread t).cur.h.iena else (s.thread t).cur.s.iena).getLsbD k = true := by
  simp only [State.waitMet, List.any_eq_true, List.mem_range, Bool.and_eq_true, WReg.iena_target]

theorem State.waitEnds_iff (s : State) (t : Nat) : s.waitEnds t = true ↔
    ((s.thread t).cur.s.iena = 0 ∧ (s.thread t).cur.h.iena = 0) ∨ s.waitMet t = true := by
  simp only [State.waitEnds, Bool.or_eq_true, Bool.and_eq_true, beq_iff_eq]

/-- How the core of a WAIT that completes leaves Slack (R346). -/
def Core.leaveSlack (c : Core) : Core := if c.st = .slack then { c with st := .run, slackReq := false } else c

theorem Core.arch_leaveSlack (c : Core) : c.leaveSlack.arch = c.arch.leaveSlack := by
  unfold Core.leaveSlack
  show _ = if c.st = .slack then _ else _
  split <;> rfl

theorem State.endWait_after (s : State) (t : Fin 576) :
    After s (s.modCore (t.val / 2) Core.leaveSlack) t ({ s.thread t.val with mode := .running }.advance .ordinary) (s.endWait t.val) := by
  have own := State.modThread_after (s := s) t (fun x => { x with mode := .running }) fun _ => rfl
  exact (own.trans (State.complete_after .ordinary false [] own.1)).modCore (t.val / 2) Core.arch_leaveSlack

section
variable {s : State} {t : Fin 576}

theorem exec_wait_ends (h : s.ready t (.wait t) = true) (done : (s.fetched t).waitEnds t.val = true) :
    ∃ u, exec (.wait t) s = .next u ∧ After s (s.fetched t) t ((s.thread t.val).advance .ordinary) u :=
  State.run_completes h (if_pos done) (State.fetched_after s t)

theorem exec_wait_holds (h : s.ready t (.wait t) = true) (held : ¬ (s.fetched t).waitEnds t.val = true) :
    ∃ u, exec (.wait t) s = .next u ∧ After s (s.fetched t) t { s.thread t.val with mode := .waiting } u :=
  State.run_held h (if_neg held) (State.fetched_modThread_after s t fun x => { x with mode := .waiting })

theorem exec_waitComplete (fit : s.threadFit t.val = true) (waits : (s.thread t.val).mode = .waiting) (met : s.waitMet t.val = true)
    (awake : s.awake t.val = true) : exec (.waitComplete t) s = .next (s.endWait t.val) := by
  show execWaitComplete t s = _
  rw [execWaitComplete, fit, waits, met, awake]
  rfl

end

/-! ### LAUNCH (R321, R326, R327) -/

section
variable {r now : Reg}

theorem launchRefusal_epoch (other : r.extractLsb' 64 8 ≠ (now.extractLsb' 64 8 : BitVec 8)) : launchRefusal false r now = some 3 := by
  simp [launchRefusal, other]

variable (same : r.extractLsb' 64 8 = (now.extractLsb' 64 8 : BitVec 8))
include same

theorem launchRefusal_past (past : ((low64 r).toNat : Int) - (low64 now).toNat < 1) : launchRefusal false r now = some 1 := by
  simp only [launchRefusal, same, Bool.false_eq_true, ne_eq, not_true_eq_false, if_false, if_pos past]

theorem launchRefusal_far (far : (2 ^ 32 : Int) < (low64 r).toNat - (low64 now).toNat) : launchRefusal false r now = some 2 := by
  have late : ¬ ((low64 r).toNat : Int) - (low64 now).toNat < 1 := by omega
  simp only [launchRefusal, same, Bool.false_eq_true, ne_eq, not_true_eq_false, if_false, if_neg late, if_pos far]

theorem launchRefusal_timely (ahead : 1 ≤ ((low64 r).toNat : Int) - (low64 now).toNat)
    (near : ((low64 r).toNat : Int) - (low64 now).toNat ≤ 2 ^ 32) : launchRefusal false r now = none := by
  simp only [launchRefusal, same, Bool.false_eq_true, ne_eq, not_true_eq_false, if_false, if_neg (not_lt.mpr ahead), if_neg (not_lt.mpr near)]

end

section
variable {s : State} {t : Fin 576} {rd rs1 : BitVec 6} (h : s.ready t (.launch t rd rs1) = true)
include h

theorem exec_launch_refused {k : Nat} (refused : launchRefusal ((s.fetched t).isle (t.val / 48)).lhDrift ((s.thread t.val).gr rs1)
      ((s.fetched t).copyNow (t.val / 48)) = some k) :
    ∃ u, exec (.launch t rd rs1) s = .next u
      ∧ After s (s.fetched t) t (((s.thread t.val).setGr rd (BitVec.ofNat 72 k)).advance .ordinary) u := by
  refine State.run_completes h (p := false) (evs := []) ?_ (State.fetched_modThread_after s t fun x => x.setGr rd (BitVec.ofNat 72 k))
  simp only [State.g_fetched, refused]
  rfl

theorem exec_launch_waits (timely : launchRefusal ((s.fetched t).isle (t.val / 48)).lhDrift ((s.thread t.val).gr rs1)
      ((s.fetched t).copyNow (t.val / 48)) = none) :
    ∃ u, exec (.launch t rd rs1) s = .next u
      ∧ After s (s.fetched t) t { s.thread t.val with mode := .launch ((s.thread t.val).gr rs1) rd } u := by
  refine State.run_held h ?_ (State.fetched_modThread_after s t fun x => { x with mode := .launch ((s.thread t.val).gr rs1) rd })
  simp only [State.g_fetched, timely]

end

theorem Thread.arch_launchEnd (x : Thread) (k : Nat) : (x.launchEnd k).arch = x.arch.launchEnd k := by
  unfold Thread.launchEnd
  show _ = match x.mode with | .launch _ rd => _ | .stopped | .running | .waiting | .reseed | .bcast => _
  cases x.mode with
  | launch r rd => exact (Thread.arch_advance ..).trans (congrArg (Thread.advance · .ordinary) (Thread.arch_setGr ..))
  | stopped | running | waiting | reseed | bcast => rfl

theorem Thread.launchEnd_of_launch {x : Thread} {r : Reg} {rd : BitVec 6} (mode : x.mode = .launch r rd) (k : Nat) :
    x.launchEnd k = ({ x with mode := .running }.setGr rd (BitVec.ofNat 72 k)).advance .ordinary := by
  rw [Thread.launchEnd, mode]

/-- A LAUNCH that ends with a status writes it and completes (R326, R327). -/
theorem State.launchEnd_after {s : State} {t : Fin 576} {r : Reg} {rd : BitVec 6} (mode : (s.thread t.val).mode = .launch r rd) (k : Nat) :
    After s s t (({ s.thread t.val with mode := .running }.setGr rd (BitVec.ofNat 72 k)).advance .ordinary) (s.launchEnd t.val k) := by
  rw [← Thread.launchEnd_of_launch mode, State.launchEnd, show (s.thread t.val).launchT = some r by rw [Thread.launchT, mode]]
  refine After.of_modThread (State.retired_same ..) (fun _ => rfl) fun y same => ?_
  rw [Thread.arch_launchEnd, Thread.arch_launchEnd, same]

theorem exec_launchFire {s : State} {t : Fin 576} {r : Reg} {rd : BitVec 6} (fit : s.threadFit t.val = true)
    (mode : (s.thread t.val).mode = .launch r rd) (due : reached (s.copyNow (t.val / 48)) r = true) :
    exec (.launchFire t) s = .next (s.launchEnd t.val 0) := by
  show execLaunchFire t s = _
  rw [execLaunchFire, if_pos fit, State.fireLaunch, show (s.thread t.val).launchT = some r by rw [Thread.launchT, mode]]
  exact congrArg _ (if_pos due)

/-- Settles O29: each command by what it finds, a LAUNCH by the refusals of R321 in their order. -/
theorem waitAndLaunch : Obligations.WaitAndLaunch := by
  unfold Obligations.WaitAndLaunch
  intro s t rd rs1 x f ends met idle
  have met_iff (v : State) (same : v.thread t.val = x) : v.waitMet t.val = true ↔ met v := by rw [State.waitMet_iff, same]
  have done_iff : f.waitEnds t.val = true ↔ idle ∨ met f := by
    have same : f.thread t.val = x := State.fetched_thread s t t.val
    rw [State.waitEnds_iff, met_iff f same, same]
  refine ⟨fun h => ⟨fun done => exec_wait_ends h (done_iff.mpr done), fun held => exec_wait_holds h (held ∘ done_iff.mp)⟩,
    fun fit waits pending awake => ⟨_, exec_waitComplete fit waits ((met_iff s rfl).mpr pending) awake, State.endWait_after s t⟩,
    ?launch, fun r fit mode due => ⟨_, exec_launchFire fit mode ?due, State.launchEnd_after mode 0⟩⟩
  case launch =>
    intro h n now r far other
    have refused := fun {k : Nat} => exec_launch_refused (k := k) h
    refine ⟨fun drift => refused ?_, fun keeps epoch => refused ?_, fun keeps same past => refused ?_, fun keeps same late => refused ?_,
      fun keeps same ahead near => exec_launch_waits h ?_⟩
    · rw [show ((s.fetched t).isle (t.val / 48)).lhDrift = true from drift]
      rfl
    all_goals rw [show ((s.fetched t).isle (t.val / 48)).lhDrift = false from keeps]
    · exact launchRefusal_epoch epoch
    · exact launchRefusal_past (not_not.mp same) past
    · exact launchRefusal_far (not_not.mp same) late
    · exact launchRefusal_timely (not_not.mp same) ahead near
  case due =>
    obtain ⟨epoch, near⟩ := due
    exact Bool.and_eq_true_iff.mpr ⟨beq_iff_eq.mpr epoch, decide_eq_true near⟩

/-! ### Interrupts (R94 to R97) -/

theorem arbitrate_grants {n p a : Nat} {req : Nat → Bool} (hn : 0 < n) (granted : arbitrate n p req = some a) : a < n ∧ req a = true := by
  refine ⟨?_, List.find?_some granted⟩
  obtain ⟨i, _, rfl⟩ := List.mem_map.mp (List.mem_of_find?_eq_some granted)
  exact Nat.mod_lt _ hn

theorem State.pickInt_grants {s : State} {t k : Nat} {l : BitVec 2} (picked : s.pickInt t = some (k, l)) :
    k < 8 ∧ deliverable (s.thread t) (s.ipend t (s.thread t).vault) k = true ∧ (s.thread t).cur.target k = l := by
  unfold State.pickInt at picked
  dsimp only at picked
  split at picked
  next first granted =>
    obtain ⟨rfl, rfl⟩ := Prod.mk.inj (Option.some.inj picked)
    obtain ⟨lt, asks⟩ := arbitrate_grants (by decide) granted
    obtain ⟨due, target⟩ := Bool.and_eq_true_iff.mp asks
    exact ⟨lt, due, beq_iff_eq.mp target⟩
  next =>
    obtain ⟨first, granted, pair⟩ := Option.map_eq_some_iff.mp picked
    obtain ⟨rfl, rfl⟩ := Prod.mk.inj pair
    obtain ⟨lt, asks⟩ := arbitrate_grants (by decide) granted
    obtain ⟨due, target⟩ := Bool.and_eq_true_iff.mp asks
    exact ⟨lt, due, beq_iff_eq.mp target⟩

/-- The code of class k (R94). -/
theorem classCode_toNat {k : Nat} (lt : k < 8) : (BitVec.ofNat 8 (32 + k)).toNat = 32 + k := by
  rw [BitVec.toNat_ofNat]
  omega

/-- A class that is deliverable traps to the level that it targets: from the hypervisor level none targets a lower one. -/
theorem trapLevel_of_deliverable {x : Thread} {pend : BitVec 8} {k : Nat} (lt : k < 8) (due : deliverable x pend k = true) :
    trapLevel x.cur x.priv (BitVec.ofNat 8 (32 + k)) = x.cur.target k := by
  have code : BitVec.ofNat 8 (32 + k) ≠ 18 := fun e => by
    have := congrArg BitVec.toNat e
    rw [classCode_toNat lt] at this
    exact absurd this (by simp; omega)
  have low : x.cur.target k = 1 → x.priv ≠ 2 := by
    intro target level
    simp [deliverable, target, level] at due
  rw [trapLevel_eq, classCode_toNat lt]
  unfold WReg.target at low ⊢
  by_cases routed : x.cur.troute.getLsbD (32 + k) = true
  · rw [if_pos (.inr (.inr routed)), if_pos routed]
  · rw [if_neg routed] at low ⊢
    rw [if_neg fun always => always.elim (low rfl) fun rest => rest.elim code routed]

/-- The registers of a world once class k of level l is taken: the pointer of the level moves on (R17, R96). -/
def WReg.turned (w : WReg) (k : Nat) (l : BitVec 2) : WReg :=
  if l = 2 then { w with ptrH := Fin.ofNat 8 (k + 1) } else { w with ptrS := Fin.ofNat 8 (k + 1) }

theorem WReg.turned_trapState (w : WReg) (k : Nat) (l : BitVec 2) :
    (∀ l', (w.turned k l).bank l' = w.bank l') ∧ ∀ p c, trapLevel (w.turned k l) p c = trapLevel w p c := by
  unfold WReg.turned
  split <;> exact ⟨fun _ => rfl, fun _ _ => rfl⟩

theorem State.takeInt_eq (v : State) (t k : Nat) (l : BitVec 2) : v.takeInt t k l = v.setThread t
    (((v.thread t).setCur ((v.thread t).cur.turned k l)).takeTrap (BitVec.ofNat 8 (32 + k)) 0 0 (v.thread t).pc (v.thread t).npc (v.thread t).ds) :=
  rfl

/-- Thread t of u has taken class k at level l where y stood (R89, R94). -/
def Interrupted (y : Thread) (k : Nat) (l : BitVec 2) (x : Thread) : Prop :=
  x.priv = l ∧ x.ds = false ∧ x.pc = (y.cur.bank l).vec.extractLsb' 0 64
    ∧ (x.cur.bank l).pc = y.pc.setWidth 72 ∧ (x.cur.bank l).npc = y.npc.setWidth 72
    ∧ (x.cur.bank l).cause = BitVec.ofNat 72 ((if y.ds then 2 ^ 23 else 0) + 2 ^ 22 + (32 + k))

/-- An interrupt enters its trap with what the thread holds but for its counters. -/
theorem State.takeInt_interrupts {v : State} {t k : Nat} {l : BitVec 2} {y : Thread} (same : (v.thread t).arch = y.arch) (lt : k < 8)
    (level : trapLevel y.cur y.priv (BitVec.ofNat 8 (32 + k)) = l) : Interrupted y k l ((v.takeInt t k l).thread t) := by
  obtain ⟨priv, banks, levels⟩ := Thread.arch_trapState same
  obtain ⟨pc, npc, ds⟩ := Thread.arch_fields same
  obtain ⟨turnedBanks, turnedLevels⟩ := WReg.turned_trapState (v.thread t).cur k l
  have enters : trapLevel ((v.thread t).setCur ((v.thread t).cur.turned k l)).cur
      ((v.thread t).setCur ((v.thread t).cur.turned k l)).priv (BitVec.ofNat 8 (32 + k)) = l := by
    rw [Thread.cur_setCur, turnedLevels, levels, ← level, ← priv, Thread.setCur_eq]
  have bank : ((v.thread t).setCur ((v.thread t).cur.turned k l)).cur.bank l = y.cur.bank l := by
    rw [Thread.cur_setCur, turnedBanks, banks]
  have cur := Thread.takeTrap_cur enters 0 0 (v.thread t).pc (v.thread t).npc (v.thread t).ds
  have entered := Thread.takeTrap_eq enters 0 0 (v.thread t).pc (v.thread t).npc (v.thread t).ds
  rw [State.takeInt_eq, State.thread_setThread]
  refine ⟨congrArg Thread.priv entered, congrArg Thread.ds entered, (congrArg Thread.pc entered).trans ?_, ?_⟩
  · rw [bank]
  · rw [cur, WReg.bank_setBank, ← pc, ← npc, ← ds]
    refine ⟨rfl, rfl, ?_⟩
    show causeWord _ _ _ _ = _
    rw [causeWord_eq, classCode_toNat lt]
    simp

section
variable {s : State} {t : Fin 576} {k : Nat} {l : BitVec 2} (fit : s.threadFit t.val = true) (picked : s.pickInt t.val = some (k, l))
  (awake : s.awake t.val = true)
include fit picked awake

theorem exec_interrupt_running (mode : (s.thread t.val).mode = .running) (issues : s.issues t.val = true) :
    exec (.interrupt t) s = .next (s.takeInt t.val k l) := by
  show execInterrupt t s = _
  simp only [execInterrupt, if_pos fit, picked, awake, mode, issues, Bool.not_true, Bool.false_eq_true, if_false, if_true]

theorem exec_interrupt_waiting (mode : (s.thread t.val).mode = .waiting) :
    exec (.interrupt t) s = .next ((s.endWait t.val).takeInt t.val k l) := by
  show execInterrupt t s = _
  simp only [execInterrupt, if_pos fit, picked, awake, mode, Bool.not_true, Bool.false_eq_true, if_false]

theorem exec_interrupt_launch {r : Reg} {rd : BitVec 6} (mode : (s.thread t.val).mode = .launch r rd) :
    exec (.interrupt t) s = .next ((s.launchEnd t.val 5).takeInt t.val k l) := by
  show execInterrupt t s = _
  simp only [execInterrupt, if_pos fit, picked, awake, mode, Bool.not_true, Bool.false_eq_true, if_false]

end

/-- Settles O30: what the thread waits in completes, then the class enters its trap at the level that it targets. -/
theorem interruptIsTaken : Obligations.InterruptIsTaken := by
  unfold Obligations.InterruptIsTaken
  intro s t k l fit picked awake x taken
  obtain ⟨lt, due, target⟩ := State.pickInt_grants picked
  have level : trapLevel x.cur x.priv (BitVec.ofNat 8 (32 + k)) = l := (trapLevel_of_deliverable lt due).trans target
  have takes {u : State} {y : Thread} (ran : exec (.interrupt t) s = .next (u.takeInt t.val k l)) (same : (u.thread t.val).arch = y.arch)
      (cur : y.cur = x.cur) (priv : y.priv = x.priv) : taken y u := by
    obtain ⟨lv, ds, pc, bank⟩ := State.takeInt_interrupts same lt (by rw [cur, priv, level])
    refine ⟨_, ran, ?_, lv, ds, pc, bank⟩
    rw [State.takeInt_eq, State.thread_setThread]
  refine ⟨fun mode issues => takes (exec_interrupt_running fit picked awake mode issues) rfl rfl rfl, fun mode => ?waiting,
    fun r rd mode => ?launch⟩
  case waiting =>
    have ended := State.endWait_after s t
    exact ⟨_, ended, takes (exec_interrupt_waiting fit picked awake mode) ((ended.1 t.val).trans (if_pos rfl)) rfl rfl⟩
  case launch =>
    have ended := State.launchEnd_after mode 5
    exact ⟨_, ended, takes (exec_interrupt_launch fit picked awake mode) ((ended.1 t.val).trans (if_pos rfl))
      (by simp [Thread.cur, Thread.wreg, x]) (by simp [x])⟩

end Sys2Proof.Machine

/-! Translation while no table is on, and the canonical check of one that is (R106, R107, R111). -/

namespace Sys2Proof.Machine

/-- The root register by which a thread's addresses translate (R107). -/
def Thread.root (x : Thread) : Reg := if x.priv = 2 then x.cur.hxroot else x.cur.sxroot

section
variable (ea : Addr)

/-- No bit of 63:52 is set just below 2^52. -/
theorem physical_iff : (ea.extractLsb' 52 12 : BitVec 12) = 0 ↔ ea.toNat < 2 ^ 52 := by
  rw [← BitVec.toNat_inj, BitVec.extractLsb'_toNat, Nat.shiftRight_eq_div_pow]
  have := ea.isLt
  simp only [BitVec.ofNat_eq_ofNat, BitVec.toNat_ofNat]
  omega

/-- Bits 63:57 are equal just outside the gap of R107. -/
theorem canonical_iff : ((ea.extractLsb' 57 7 : BitVec 7) = 0 ∨ (ea.extractLsb' 57 7 : BitVec 7) = BitVec.allOnes 7)
    ↔ ¬ (2 ^ 57 ≤ ea.toNat ∧ ea.toNat < 2 ^ 64 - 2 ^ 57) := by
  rw [← BitVec.toNat_inj, ← BitVec.toNat_inj, BitVec.extractLsb'_toNat, Nat.shiftRight_eq_div_pow]
  have := ea.isLt
  simp only [BitVec.ofNat_eq_ofNat, BitVec.toNat_ofNat, BitVec.toNat_allOnes]
  omega

variable {ea} {s : State} {t : Nat} (k : TKind)

theorem State.translate_physical (off : (s.thread t).root.getLsbD 0 = false) (low : ea.toNat < 2 ^ 52) :
    s.translate t k ea = (s, [], .ok ea.toNat false) := by
  have zero := (physical_iff ea).mpr low
  unfold Thread.root at off
  simp only [State.translate, beq_iff_eq, off, zero, Bool.not_false, if_true, bne_self_eq_false, Bool.false_eq_true, if_false]

theorem State.translate_unphysical (off : (s.thread t).root.getLsbD 0 = false) (high : 2 ^ 52 ≤ ea.toNat) :
    s.translate t k ea = (s, [], .trap k.page 0 (zext72 ea)) := by
  have set : ¬ (ea.extractLsb' 52 12 : BitVec 12) = 0 := fun zero => by have := (physical_iff ea).mp zero; omega
  unfold Thread.root at off
  simp only [State.translate, beq_iff_eq, off, Bool.not_false, if_true, bne_iff_ne, ne_eq, set, not_false_eq_true]

theorem State.translate_uncanonical (on : (s.thread t).root.getLsbD 0 = true) (gap : 2 ^ 57 ≤ ea.toNat ∧ ea.toNat < 2 ^ 64 - 2 ^ 57) :
    s.translate t k ea = (s, [], .trap k.page 0 (zext72 ea)) := by
  obtain ⟨some_set, some_clear⟩ := not_or.mp fun canonical => (canonical_iff ea).mp canonical gap
  unfold Thread.root at on
  simp only [State.translate, beq_iff_eq, on, Bool.not_true, Bool.false_eq_true, if_false, Bool.and_eq_true, bne_iff_ne, ne_eq,
    some_set, some_clear, not_false_eq_true, and_self, if_true]

end

/-- Settles O21: each case by what bits 63:52, or bits 63:57, of the address hold. -/
theorem translationWithoutATable : Obligations.TranslationWithoutATable := by
  unfold Obligations.TranslationWithoutATable
  intro s t k ea x root page
  have cause : k.page = page := by cases k <;> rfl
  rw [← cause]
  exact ⟨State.translate_physical k, State.translate_unphysical k, State.translate_uncanonical k⟩

end Sys2Proof.Machine

/-! Invalidations of the translation buffers (R113 to R116) and reseeds of context keys (R121 to R124). -/

namespace Sys2Proof.Machine

/-! ### How a CRW ends -/

/-- What moves thread t on after its write, whatever the write did to it. -/
theorem After.advanced {s f v : State} {t : Fin 576} {x : Thread} (own : After s f t x v) (fl : Flow) :
    After s f t (x.advance fl) (v.modThread t.val fun y => y.advance fl) :=
  own.trans (After.of_same (Same.refl v) own.1)

section
variable {s f v : State} {t : Fin 576} {x : Thread}

section
variable {i : Instr} {body : State → Done} (h : s.ready t i = true)
include h

/-- A CRW writes after its retirement has counted (R423). -/
theorem State.run_wrote {write : State → State} (ends : body (s.fetched t) = .wrote (s.fetched t) write)
    (own : ∀ v, Same (s.fetched t) v → After s f t x (write v)) :
    ∃ u, s.run t i body = .next u ∧ After s f t (x.advance .ordinary) u := by
  rw [State.run_ready h, ends]
  exact ⟨_, rfl, (own _ (State.retired_same ..)).advanced .ordinary⟩

/-- An instruction that waits may have left its request in the machine. -/
theorem State.run_waits (ends : body (s.fetched t) = .wait v) (own : After s f t x v) :
    ∃ u, s.run t i body = .next u ∧ After s f t x u := by
  rw [State.run_ready h, ends]
  refine ⟨_, rfl, ?_⟩
  unfold State.finish
  dsimp only
  split
  · exact own
  · exact own.same (State.countEvents_same ..)

end

theorem After.keys (after : After s f t x v) : v.keys = f.keys := by
  obtain ⟨-, -, frame⟩ := after
  rw [frame]

/-- What a thread does next is no counter's part. -/
theorem After.moves (after : After s f t x v) :
    (v.thread t.val).mode = x.mode ∧ (v.thread t.val).vault = x.vault ∧ (v.thread t.val).pc = x.pc := by
  have same : (v.thread t.val).arch = x.arch := (after.1 t.val).trans (if_pos rfl)
  have mode := congrArg Thread.mode same
  have vault := congrArg Thread.vault same
  have pc := congrArg Thread.pc same
  exact ⟨mode, vault, pc⟩

end

/-- A CRW that has waited completes. -/
theorem State.endCrw_after {s f : State} {t : Fin 576} (same : ∀ k, f.thread k = s.thread k) :
    After s f t ({ s.thread t.val with mode := .running }.advance .ordinary) (f.endCrw t.val) := by
  have own := State.modThread_after (f := f) t (fun x => { x with mode := .running }) same
  exact own.trans (State.complete_after .ordinary false [] own.1)

/-- No completion touches a key cache. -/
theorem State.keys_endCrw (s : State) (t q : Nat) : ((s.endCrw t).core q).keys = (s.core q).keys := by
  have fixed (u : State) (v : Bool) : ((u.countFix1 t v).core q).keys = (u.core q).keys := by
    have counted (a : Store Reg) : ((u.modCore (t / 2) fun x => x.setFix v a).core q).keys = (u.core q).keys := by
      rw [State.core_modCore]
      split
      next here => rw [here]; cases v <;> rfl
      next => rfl
    unfold State.countFix1
    dsimp only
    split <;> exact counted _
  exact fixed _ _

/-! ### TLBINV (R115, R116) -/

section
variable {s : State} {t : Fin 576} {rs1 : BitVec 6}

/-- A broadcast of thread t is outstanding (R116). -/
def State.withBcast (s : State) (t : Fin 576) (vault : Bool) (v : Reg) : State :=
  { s with keys := { s.keys with bcasts := s.keys.bcasts ++ [(t, vault, v)] } }

/-- The rows that write TLBINV: CRW, and the four that name what the value selects. -/
theorem exec_tlbinv {i : Instr}
    (row : i ∈ [Instr.tlbinvPage t rs1, .tlbinvContext t rs1, .tlbinvTable t rs1, .tlbinvPageAll t rs1, .crw t rs1 0o0102]) :
    ∃ w, exec i s = s.run t i (crwPart t rs1 0o0102 w) := by
  simp only [List.mem_cons, List.not_mem_nil, or_false] at row
  rcases row with rfl | rfl | rfl | rfl | rfl <;> exact ⟨_, rfl⟩

section
variable (legal : crBad 0o0102 (s.thread t.val).priv ((s.thread t.val).gr rs1) = false) (above : (s.thread t.val).priv ≠ 0)
include legal above

theorem crwPart_tlbinv (w : W36) : crwPart t rs1 0o0102 w (s.fetched t) =
    if ((s.thread t.val).gr rs1).getLsbD 68 then
      .wait (((s.fetched t).withBcast t (s.thread t.val).vault ((s.thread t.val).gr rs1)).modThread t.val fun y => { y with mode := .bcast })
    else .wrote (s.fetched t) fun u => u.modCore (t.val / 2) fun c => c.tlbInv ((s.thread t.val).gr rs1) (u.thread t.val).vault := by
  have permitted : ¬ (s.thread t.val).priv.toNat < (1 : BitVec 2).toNat := Nat.not_lt.mpr (one_le_of_ne_zero above)
  have known (x : Thread) : crFor x 0o0102 = some { rd := 1, wr := some 1 } := rfl
  unfold crwPart
  simp only [State.fetched_thread, known, legal, permitted, Bool.false_eq_true, if_false, true_and]
  rfl

theorem tlbinv_at_once {i : Instr} {w : W36} (h : s.ready t i = true) (here : ((s.thread t.val).gr rs1).getLsbD 68 = false) :
    ∃ u, s.run t i (crwPart t rs1 0o0102 w) = .next u
      ∧ After s ((s.fetched t).modCore (t.val / 2) fun c => c.tlbInv ((s.thread t.val).gr rs1) (s.thread t.val).vault) t
          ((s.thread t.val).advance .ordinary) u := by
  refine State.run_wrote h ((crwPart_tlbinv legal above w).trans (if_neg (by rw [here]; decide))) fun v counted => ?_
  have own := (State.fetched_after s t).same counted
  obtain ⟨-, world, -⟩ := own.moves
  rw [world]
  exact own.modCore (t.val / 2) fun _ => rfl

theorem tlbinv_broadcast {i : Instr} {w : W36} (h : s.ready t i = true) (all : ((s.thread t.val).gr rs1).getLsbD 68 = true) :
    ∃ u, s.run t i (crwPart t rs1 0o0102 w) = .next u
      ∧ After s ((s.fetched t).withBcast t (s.thread t.val).vault ((s.thread t.val).gr rs1)) t { s.thread t.val with mode := .bcast } u :=
  State.run_waits h ((crwPart_tlbinv legal above w).trans (if_pos all))
    (State.modThread_after t (fun y => { y with mode := .bcast }) (State.fetched_thread s t))

end

theorem exec_tlbinvBroadcastApplied {b : Bool} {v : Reg} (waits : (s.thread t.val).mode = .bcast)
    (asked : s.keys.bcasts.find? (fun p => p.1 == t) = some (t, b, v)) : exec (.tlbinvBroadcastApplied t) s
      = .next (({ s with keys := { s.keys with bcasts := s.keys.bcasts.filter fun p => p.1 != t } }.tlbInvAll v b).endCrw t.val) := by
  show execTlbinvBroadcastApplied t s = _
  unfold execTlbinvBroadcastApplied
  rw [asked]
  exact congrArg Host.Outcome.next (if_pos (beq_iff_eq.mpr waits))

/-- A broadcast sweeps the cores that are at work in an admitted Isle, and no other (R116). -/
theorem State.core_tlbInvAll (s : State) (v : Reg) (b : Bool) (q : Nat) : (s.tlbInvAll v b).core q =
    if (s.isle (q / 24)).cond = .admitted ∧ ((s.core q).st = .run ∨ (s.core q).st = .slack) then (s.core q).tlbInv v b else s.core q := by
  unfold State.tlbInvAll State.core
  rw [sget_smap ({} : Core) s.cores _ fun _ => by split <;> rfl]
  simp only [Bool.and_eq_true, Bool.or_eq_true, beq_iff_eq]

/-! ### CTXRESEED (R121 to R124) -/

/-- A reseed asked for by thread t. -/
def State.withReseed (s : State) (t : Fin 576) (c : BitVec 12) : State :=
  { s.modCore (t.val / 2) fun y => { y with reseedCtx := c } with keys := { s.keys with waiting := s.keys.waiting ++ [(t, c)] } }

theorem exec_ctxreseed (h : s.ready t (.ctxreseed t rs1) = true)
    (legal : crBad 0o0110 (s.thread t.val).priv ((s.thread t.val).gr rs1) = false) (hypervisor : (s.thread t.val).priv = 2) :
    ∃ u, exec (.ctxreseed t rs1) s = .next u ∧ After s ((s.fetched t).withReseed t (((s.thread t.val).gr rs1).setWidth 12)) t
      { s.thread t.val with mode := .reseed } u := by
  have known (x : Thread) : crFor x 0o0110 = some { rd := 2, wr := some 2 } := rfl
  have permitted : ¬ (s.thread t.val).priv.toNat < (2 : BitVec 2).toNat := by rw [hypervisor]; decide
  have ends (w : W36) : crwPart t rs1 0o0110 w (s.fetched t)
      = .wait (((s.fetched t).withReseed t (((s.thread t.val).gr rs1).setWidth 12)).modThread t.val fun y => { y with mode := .reseed }) := by
    unfold crwPart
    simp only [State.fetched_thread, known, legal, permitted, Bool.false_eq_true, if_false, if_true]
    rfl
  exact State.run_waits h (ends _) (State.modThread_after t (fun y => { y with mode := .reseed }) (State.fetched_thread s t))

/-- Of a cycle's requests one is granted, and its requester's turn comes first (R17). -/
theorem arbitrate_first {α : Type} [DecidableEq α] (n p : Nat) (pos : α → Nat) {l : List α} (some_ask : l ≠ [])
    (lt : ∀ r ∈ l, pos r < n) : ∃ r ∈ l, (∀ q ∈ l, turn n p (pos r) ≤ turn n p (pos q))
      ∧ ((arbitrate n p fun a => l.any fun q => pos q == a).bind fun a => l.find? fun q => pos q == a) = some r := by
  obtain ⟨m, mem, least⟩ := l.toFinset.exists_min_image (fun q => turn n p (pos q)) (List.toFinset_nonempty_iff l |>.mpr some_ask)
  simp only [List.mem_toFinset] at mem least
  have granted : arbitrate n p (fun a => l.any fun q => pos q == a) = some (pos m) :=
    arbitrate_eq_some (lt m mem) (List.any_eq_true.mpr ⟨m, mem, beq_self_eq_true _⟩) fun b _ asks => by
      obtain ⟨q, hq, at_b⟩ := List.any_eq_true.mp asks
      rw [← beq_iff_eq.mp at_b]
      exact least q hq
  have asks : (l.find? fun q => pos q == pos m).isSome = true := List.find?_isSome.mpr ⟨m, mem, beq_self_eq_true (pos m)⟩
  obtain ⟨r, found⟩ := Option.isSome_iff_exists.mp asks
  have same : pos r = pos m := beq_iff_eq.mp (List.find?_some (p := fun q => pos q == pos m) found)
  refine ⟨r, List.mem_of_find?_eq_some found, fun q hq => ?_, ?_⟩
  · rw [same]
    exact least q hq
  · rw [granted]
    exact found

theorem exec_reseedStart {more : Nat} {p : Fin 576 × BitVec 12} (idle : s.keys.serving = none)
    (granted : ((arbitrate 576 s.keys.ptr fun a => (s.keys.waiting.take (more + 1)).any fun q => q.1.val == a).bind fun a =>
      (s.keys.waiting.take (more + 1)).find? fun q => q.1.val == a) = some p) :
    exec (.reseedStart more) s = .next { s with keys := { s.keys with
      waiting := s.keys.waiting.erase p, serving := some p, ptr := (p.1.val + 1) % 576 } } := by
  show execReseedStart more s = _
  unfold execReseedStart
  dsimp only
  rw [idle, granted]

/-- The cores once no key cache holds context c. -/
def State.coresWithout (s : State) (c : BitVec 12) : Store Core := smap ({} : Core) s.cores fun _ x => { x with keys := x.keys.erase c.toNat }

theorem State.sget_coresWithout (s : State) (c : BitVec 12) (q : Nat) :
    sget {} (s.coresWithout c) q = { s.core q with keys := (s.core q).keys.erase c.toNat } :=
  sget_smap ({} : Core) s.cores _ (fun _ => rfl) q

/-- How a reseed of context c for thread t ends: with a fresh key in place, or with the key that the context had; its writer's
core is told (R123). -/
def State.reseedEnds (s : State) (t : Fin 576) (c : BitVec 12) (key : BitVec 64) : Bool → State
  | true => { s with cores := s.coresWithout c, keys := { s.keys with serving := none, ctxKeys := sset 0 s.keys.ctxKeys c.toNat key } }.modCore
      (t.val / 2) fun x => { x with reseedStatus := 0 }
  | false => ({ s with keys := { s.keys with serving := none } }.recKey 0 0o006003 (t.val / 2) [rp c.toNat] (s.thread t.val).vault c
      (BitVec.ofNat 10 t.val)).modCore (t.val / 2) fun x => { x with reseedStatus := 1 }

theorem exec_reseedDone {c : BitVec 12} (serving : s.keys.serving = some (t, c)) (waits : (s.thread t.val).mode = .reseed)
    (healthy : Bool) (key : BitVec 64) : exec (.reseedDone healthy key) s
      = .next ((s.reseedEnds t c key healthy).endCrw t.val) := by
  show execReseedDone healthy key s = _
  unfold execReseedDone
  rw [serving]
  cases healthy <;> exact congrArg Host.Outcome.next (if_pos (beq_iff_eq.mpr waits))

theorem State.keys_reseedEnds (c : BitVec 12) (key : BitVec 64) (q : Nat) :
    ((s.reseedEnds t c key true).core q).keys = (s.core q).keys.erase c.toNat := by
  unfold State.reseedEnds
  rw [State.core_modCore]
  split
  next here => rw [here]; exact congrArg Core.keys (s.sget_coresWithout c _)
  next => exact congrArg Core.keys (s.sget_coresWithout c q)

/-- The writer of a reseed goes on, with the status of its core. -/
theorem After.reseed_status {s f u : State} {t : Fin 576} {x : Thread} {r : BitVec 2} (after : After s f t x u)
    (status : (f.core (t.val / 2)).reseedStatus = r) : (u.core (t.val / 2)).reseedStatus = r :=
  (congrArg Core.reseedStatus (after.2.1 (t.val / 2))).trans status

end

/-- Settles O33: what TLBINV and CTXRESEED do at once, and how each wait of theirs ends. -/
theorem invalidationsAndReseeds : Obligations.InvalidationsAndReseeds := by
  unfold Obligations.InvalidationsAndReseeds
  refine ⟨?invalidations, ?reseeds⟩
  case invalidations =>
    intro s t rs1 x v f leaves kept swept legal
    have leaves_iff (b : Bool) (r : Reg) (e : TlbEntry) : tlbMatch r b e = true ↔ leaves b r e := by
      simp only [tlbMatch, Bool.and_eq_true, beq_iff_eq, and_assoc, leaves]
      generalize (r.extractLsb' 69 3 : BitVec 3).toNat = kind
      rcases kind with _ | _ | _ | kind <;> simp [and_assoc]
    have sweep (b : Bool) (r : Reg) (c : Core) : swept b r c (c.tlbInv r b) := by
      have one (l : List TlbEntry) : kept b r l (l.filter fun e => !tlbMatch r b e) := fun e => by
        rw [List.mem_filter, Bool.not_eq_true', ← Bool.not_eq_true, leaves_iff]
      exact ⟨one _, one _, one _, rfl⟩
    refine ⟨fun i row h legal => ?written, fun fit waits b r asked => ?applied⟩
    case written =>
      obtain ⟨bad, above⟩ := legal
      obtain ⟨w, runs⟩ := exec_tlbinv (s := s) row
      rw [runs]
      refine ⟨fun here => ?_, tlbinv_broadcast bad above h⟩
      obtain ⟨u, ran, after⟩ := tlbinv_at_once (w := w) bad above h here
      exact ⟨u, _, ran, sweep .., after⟩
    case applied =>
      refine ⟨_, (s.tlbInvAll r b).cores, exec_tlbinvBroadcastApplied waits asked, fun q admitted up => ?_,
        fun q off => (s.core_tlbInvAll r b q).trans (if_neg off), State.endCrw_after fun _ => rfl⟩
      have applied : sget {} (s.tlbInvAll r b).cores q = (s.core q).tlbInv r b := (s.core_tlbInvAll r b q).trans (if_pos ⟨admitted, up⟩)
      rw [applied]
      exact sweep b r (s.core q)
  case reseeds =>
    intro s t rs1 key x v f c
    refine ⟨exec_ctxreseed, fun more idle some_wait => ?starts, fun c serving waits => ?done, fun c serving waits => ?fails⟩
    case starts =>
      obtain ⟨p, mem, first, granted⟩ := arbitrate_first 576 s.keys.ptr (fun q : Fin 576 × BitVec 12 => q.1.val)
        (l := s.keys.waiting.take (more + 1)) (by simpa using some_wait) fun q _ => q.1.isLt
      exact ⟨p, mem, first, exec_reseedStart idle granted⟩
    case done =>
      have after := State.endCrw_after (s := s) (f := s.reseedEnds t c key true) (t := t) fun _ => rfl
      obtain ⟨mode, -, pc⟩ := after.moves
      have keys := after.keys
      refine ⟨_, exec_reseedDone serving waits true key, mode.trans (Thread.advance_mode ..),
        pc, congrArg Keys.serving keys, ?_, fun d other => ?_, fun q => ?_, after.reseed_status ?_, ?_⟩
      · exact (congrArg (fun k : Keys => sget 0 k.ctxKeys c.toNat) keys).trans (sget_sset_same ..)
      · exact (congrArg (fun k : Keys => sget 0 k.ctxKeys d.toNat) keys).trans
          (sget_sset_ne _ _ _ fun same => other (BitVec.eq_of_toNat_eq same))
      · exact (State.keys_endCrw ..).trans (State.keys_reseedEnds ..)
      · exact congrArg Core.reseedStatus (State.core_setCore ..)
      · rw [keys]
        exact after.2.2
    case fails =>
      have after := State.endCrw_after (s := s) (f := s.reseedEnds t c key false) (t := t) fun _ => rfl
      obtain ⟨mode, -, -⟩ := after.moves
      exact ⟨_, exec_reseedDone serving waits false key, mode.trans (Thread.advance_mode ..),
        after.keys, after.reseed_status (congrArg Core.reseedStatus (State.core_setCore ..))⟩

end Sys2Proof.Machine

/-! Slack, frequency steps, caps, and claims made again (R130 to R132, R210, R284, R345, R346, R349, R353, R385). -/

namespace Sys2Proof.Machine

/-! ### Slack (R345, R346) -/

section
variable {s : State} {c : Fin 288} {n : Fin 12}

theorem exec_coreAutoslackEnter (fit : s.coreFit c.val = true) (auto : (s.core c.val).autoslack = true) (runs : (s.core c.val).st = .run)
    (idle : s.coreIdle c.val = true) :
    exec (.coreAutoslackEnter c) s = .next (s.setCore c.val { s.core c.val with st := .slack }) := by
  have rests : ((s.core c.val).autoslack && (s.core c.val).st == .run && s.coreIdle c.val) = true := by
    rw [auto, runs, idle]
    rfl
  show execCoreAutoslackEnter c s = _
  simp only [execCoreAutoslackEnter, fit, Bool.not_true, Bool.false_eq_true, if_false]
  exact if_pos rests

theorem exec_isleSlackEnter (fit : s.isleFit n.val = true) (runs : (s.isle n.val).st = .run)
    (still : ∀ j, j < 24 → (s.core (n.val * 24 + j)).st ≠ .run) :
    exec (.isleSlackEnter n) s = .next (s.setIsle n.val { s.isle n.val with st := .slack }) := by
  have all : ((List.range 24).all fun j => (s.core (n.val * 24 + j)).st != .run) = true := by
    simpa only [List.all_eq_true, List.mem_range, bne_iff_ne] using still
  show execIsleSlackEnter n s = _
  simp only [execIsleSlackEnter, fit, Bool.not_true, Bool.false_eq_true, if_false]
  exact if_pos ⟨runs, all⟩

theorem exec_isleSlackExit (fit : s.isleFit n.val = true) (slack : (s.isle n.val).st = .slack)
    (wakes : ∃ j, j < 24 ∧ (s.core (n.val * 24 + j)).st = .run) :
    exec (.isleSlackExit n) s = .next (s.setIsle n.val { s.isle n.val with st := .run }) := by
  have any : ((List.range 24).any fun j => (s.core (n.val * 24 + j)).st == .run) = true := by
    simpa only [List.any_eq_true, List.mem_range, beq_iff_eq] using wakes
  show execIsleSlackExit n s = _
  simp only [execIsleSlackExit, fit, Bool.not_true, Bool.false_eq_true, if_false]
  exact if_pos ⟨slack, any⟩

end

/-! ### What a claim leaves -/

/-- A claim moves the ledger only, and neither its caps nor what is measured. -/
theorem State.claim_moves {s s1 : State} {q core hub : Nat} {ok : Bool} (claimed : s.claim q core hub = (s1, ok)) :
    s1 = { s with ledger := s1.ledger } ∧ s1.ledger.cap = s.ledger.cap := by
  unfold State.claim at claimed
  dsimp only at claimed
  split at claimed
  · cases claimed
    exact ⟨rfl, rfl⟩
  · split at claimed <;> cases claimed <;> exact ⟨rfl, rfl⟩

/-- A refusal counts, and moves the pointer behind its requester (R349, R350). -/
theorem State.claim_no {s s1 : State} {q core hub : Nat} (refused : s.claim q core hub = (s1, false)) :
    s1 = { s with ledger := { s.ledger with refused := s.ledger.refused + 1, ptr := (q + 1) % 50 } } := by
  unfold State.claim at refused
  dsimp only at refused
  split at refused
  · cases refused
  · split at refused <;> cases refused
    rfl

/-! ### Steps (R130 to R132) -/

theorem Core.isUp_iff (x : Core) : x.isUp = true ↔ x.st = .run ∨ x.st = .slack := by
  simp only [Core.isUp, Bool.or_eq_true, beq_iff_eq]

/-- A step below another is not the last, so the next one is above it. -/
theorem toNat_raised {k r : BitVec 6} (below : k.toNat + 1 < r.toNat) : (k + 1).toNat = k.toNat + 1 := by
  bv_omega

theorem ofNat_lowered {k r : BitVec 6} (above : r.toNat + 1 < k.toNat) : BitVec.ofNat 6 (k.toNat - 1) = k - 1 ∧ (k - 1).toNat = k.toNat - 1 := by
  constructor <;> bv_omega

section
variable {s : State} {c : Fin 288} (fit : s.coreFit c.val = true) (pending : (s.core c.val).fPending = true)
  (up : (s.core c.val).isUp = true) (may : s.stepMay c.val = true)
include fit pending up may

/-- One step of a raise that is granted and leaves both REQ and CAP above it. -/
theorem exec_stepRaise (below : (s.core c.val).fCur.toNat + 1 < (s.core c.val).fReq.toNat)
    (room : (s.core c.val).fCur.toNat + 1 < s.coreCap c.val) {s1 : State}
    (granted : s.claim (reqIsle (c.val / 24)) (coreBearing ((s.core c.val).fCur.toNat + 1) - coreBearing (s.core c.val).fCur.toNat) 0
      = (s1, true)) :
    exec (.stepRaise c) s = .next (s1.setCore c.val { s.core c.val with fCur := (s.core c.val).fCur + 1 }) := by
  obtain ⟨frame, cap⟩ := State.claim_moves granted
  have core : s1.core c.val = s.core c.val := by rw [frame]; rfl
  have raised := toNat_raised below
  have more : ¬ (s.core c.val).fCur + 1 = (s.core c.val).fReq := fun same => by rw [← raised, same] at below; omega
  have capped : (s1.setCore c.val { s.core c.val with fCur := (s.core c.val).fCur + 1 }).coreCap c.val = s.coreCap c.val := by
    unfold State.coreCap
    rw [State.core_setCore, State.setCore_ledger, cap, frame]
    rfl
  have works : ((s.core c.val).fPending && decide ((s.core c.val).fCur.toNat < (s.core c.val).fReq.toNat) && (s.core c.val).isUp
      && s.stepMay c.val) = true := by
    rw [pending, up, may, decide_eq_true (by omega)]
    rfl
  have free : ¬ s.coreCap c.val ≤ (s.core c.val).fCur.toNat := by omega
  have free' : ¬ s.coreCap c.val ≤ (s.core c.val).fCur.toNat + 1 := by omega
  show execStepRaise c s = _
  simp only [execStepRaise, fit, works, free, free', granted, State.modCore, core, State.core_setCore, more, raised, capped, Bool.not_true,
    Bool.false_eq_true, if_false]

/-- One step of a lowering that does not end at REQ. -/
theorem exec_stepLower (above : (s.core c.val).fReq.toNat + 1 < (s.core c.val).fCur.toNat) :
    exec (.stepLower c) s = .next ((s.setCore c.val { s.core c.val with fCur := (s.core c.val).fCur - 1 }).release (c.val / 24)
      (coreBearing (s.core c.val).fCur.toNat - coreBearing ((s.core c.val).fCur.toNat - 1)) 0) := by
  obtain ⟨lowered, less⟩ := ofNat_lowered above
  have more : ¬ (s.core c.val).fCur - 1 = (s.core c.val).fReq := fun same => by rw [same] at less; omega
  have stepped : s.stepTo c.val ((s.core c.val).fCur.toNat - 1)
      = (s.setCore c.val { s.core c.val with fCur := (s.core c.val).fCur - 1 }).release (c.val / 24)
          (coreBearing (s.core c.val).fCur.toNat - coreBearing ((s.core c.val).fCur.toNat - 1)) 0 := by
    unfold State.stepTo
    rw [if_pos up, lowered]
    rfl
  have works : ((s.core c.val).fPending && decide ((s.core c.val).fReq.toNat < (s.core c.val).fCur.toNat) && (s.core c.val).isUp
      && s.stepMay c.val) = true := by
    rw [pending, up, may, decide_eq_true (by omega)]
    rfl
  have core (q a b : Nat) (u : State) : (u.release q a b).core c.val = u.core c.val := rfl
  show execStepLower c s = _
  simp only [execStepLower, fit, works, stepped, core, State.core_setCore, more, Bool.not_true, Bool.false_eq_true, if_false]

end

/-! ### Caps (R353, R385) -/

/-- What a cap measures and limits, and no core that follows one changes. -/
def State.caps (s : State) : Store Isle × BitVec 6 × Nat := (s.isles, s.ledger.cap, s.ledger.overUs)

theorem State.caps_stepTo (s : State) (c k : Nat) : (s.stepTo c k).caps = s.caps := by
  unfold State.stepTo
  dsimp only
  split <;> rfl

theorem State.caps_followCap (s : State) (c : Nat) (r : BitVec 4) : (s.followCap c r).caps = s.caps := by
  unfold State.followCap
  dsimp only
  split
  · rfl
  · split
    · exact State.caps_stepTo s c _
    · split <;> rfl

theorem State.caps_lowerAll (s : State) (cs : List Nat) (r : BitVec 4) (k : Nat) (others : Nat → Nat) :
    (s.lowerAll cs r k others).caps = s.caps := by
  refine foldl_keeps (fun u c => ?_) cs s
  rw [State.caps_followCap]
  split <;> rfl

theorem State.isle_lowerAll (s : State) (cs : List Nat) (r : BitVec 4) (k : Nat) (others : Nat → Nat) (n : Nat) :
    (s.lowerAll cs r k others).isle n = s.isle n := by
  have isles : (s.lowerAll cs r k others).isles = s.isles := congrArg Prod.fst (State.caps_lowerAll s cs r k others)
  unfold State.isle
  rw [isles]

/-- A limit falls by a step, but not below step 12. -/
def capBelow (cap : BitVec 6) : BitVec 6 := if cap.toNat ≤ 12 then cap else cap - 1

section
variable {s : State} {core : BitVec 16} (hub : BitVec 16)

theorem exec_currentCapCheck_between (most : core.toNat ≤ s.ledger.limCore.toNat) (least : s.ledger.limCore.toNat * 95 ≤ 100 * core.toNat)
    (steady : s.ledger.lowering = false) : exec (.currentCapCheck core hub) s
      = .next { s with ledger := { s.ledger with measCore := core, measHub := hub, overUs := 0, underUs := 0 } } := by
  have above : ¬ s.ledger.limCore.toNat < core.toNat := by omega
  have below : ¬ 100 * core.toNat < s.ledger.limCore.toNat * 95 := by omega
  show execCurrentCapCheck core hub s = _
  simp only [execCurrentCapCheck, above, below, steady, decide_false, Bool.false_and, Bool.or_self, Bool.false_eq_true, if_false]

variable (above : s.ledger.limCore.toNat < core.toNat)
include above

theorem exec_currentCapCheck_counts (early : s.ledger.overUs < 9) : exec (.currentCapCheck core hub) s
    = .next { s with ledger := { s.ledger with measCore := core, measHub := hub, overUs := s.ledger.overUs + 1, underUs := 0 } } := by
  have wait : ¬ 10 ≤ s.ledger.overUs + 1 := by omega
  show execCurrentCapCheck core hub s = _
  simp only [execCurrentCapCheck, above, wait, decide_true, Bool.true_or, if_true, if_false]

theorem exec_currentCapCheck_lowers (late : 9 ≤ s.ledger.overUs) : ∃ u, exec (.currentCapCheck core hub) s = .next u
    ∧ u.ledger.cap = capBelow s.ledger.cap ∧ u.ledger.overUs = 0 := by
  have due : 10 ≤ s.ledger.overUs + 1 := by omega
  show ∃ u, execCurrentCapCheck core hub s = _ ∧ _
  simp only [execCurrentCapCheck, capBelow, above, due, decide_true, Bool.true_or, if_true]
  split
  · exact ⟨_, rfl, rfl, rfl⟩
  · refine ⟨_, rfl, ?_⟩
    exact (Prod.mk.inj (Prod.mk.inj (State.caps_lowerAll ..)).2)

end

/-- The hottest of points that agree. -/
theorem hottest_replicate (p : BitVec 16) (k : Nat) : hottest (List.replicate (k + 1) p) = p := by
  show (List.replicate k p).foldl (fun a b => if a.slt b then b else a) p = p
  induction k with
  | zero => rfl
  | succ k ih => rw [List.replicate_succ, List.foldl_cons, ite_self, ih]

theorem sget_keepSamples (cur mx : Store (BitVec 16)) (k : Nat) (pts : List (BitVec 16)) {i : Nat} (hi : i < pts.length) :
    sget 0 (keepSamples cur mx k pts).1 (k + i) = pts[i] := by
  induction pts using List.reverseRecOn with
  | nil => cases hi
  | append_singleton l p ih =>
    have last : (keepSamples cur mx k (l ++ [p])).1 = sset 0 (keepSamples cur mx k l).1 (k + l.length) p := by
      simp only [keepSamples, List.zipIdx_append, List.foldl_append, Nat.zero_add, List.zipIdx_singleton, List.foldl_cons, List.foldl_nil]
    rw [last, sget_sset]
    rw [List.length_append, List.length_singleton] at hi
    split
    next here =>
      obtain rfl : i = l.length := by omega
      rw [List.getElem_concat_length rfl]
    next other =>
      have before : i < l.length := by omega
      rw [ih before, List.getElem_append_left before]

/-- The samples that an Isle keeps. -/
def Isle.sampled (x : Isle) (pts : List (BitVec 16)) : Isle :=
  { x with temps := (keepSamples x.temps x.tempMax 0 pts).1, tempMax := (keepSamples x.temps x.tempMax 0 pts).2 }

section
variable {s : State} {n : Fin 12} (fit : s.isleFit n.val = true) {p : BitVec 16}
include fit

/-- Between the limit and 3 degrees below it, an Isle that is not being lowered keeps its step. -/
theorem exec_thermalCap_between (most : p.toInt ≤ 1600) (least : 1552 < p.toInt) (steady : (s.isle n.val).thLower = false) :
    exec (.thermalCap n (List.replicate 6 p)) s
      = .next (s.setIsle n.val { (s.isle n.val).sampled (List.replicate 6 p) with thSamples := 0 }) := by
  have calm : decide (p.toInt ≤ 1600 - 48) = false := decide_eq_false (by omega)
  have lowers : (decide (1600 < p.toInt) || (s.isle n.val).thLower && !false) = false := by
    rw [steady, decide_eq_false (by omega)]
    rfl
  show execThermalCap n _ s = _
  simp only [execThermalCap, fit, List.take_replicate, Nat.min_self, hottest_replicate, calm, lowers, Bool.not_true, Bool.false_eq_true,
    if_false, State.modIsle, State.isle_setIsle, State.setIsle_setIsle, Isle.sampled]

theorem exec_thermalCap_lowers (above : 1600 < p.toInt) : ∃ u, exec (.thermalCap n (List.replicate 6 p)) s = .next u
    ∧ (u.isle n.val).thermal = capBelow (s.isle n.val).thermal := by
  show ∃ u, execThermalCap n _ s = _ ∧ _
  simp only [execThermalCap, capBelow, fit, List.take_replicate, Nat.min_self, hottest_replicate, above, decide_true, Bool.true_or,
    Bool.not_true, Bool.false_eq_true, if_false, if_true, State.modIsle, State.isle_setIsle, State.setIsle_setIsle]
  split
  · refine ⟨_, rfl, ?_⟩
    rw [State.isle_setIsle]
  · refine ⟨_, rfl, ?_⟩
    rw [State.isle_lowerAll]
    exact congrArg Isle.thermal (State.isle_setIsle ..)

end

/-! ### Claims made again (R210, R284) -/

section
variable {s s1 : State} {n : Fin 12}

theorem exec_bearingRetry_strait (fit : s.isleFit n.val = true) (may : s.mayTrain n.val = true) (waits : (s.strait n.val).bearwait = true) :
    exec (.bearingRetry (.strait n)) s = .next (s.trainStart n.val).1 := by
  show execBearingRetry (.strait n) s = _
  simp only [execBearingRetry, fit, may, waits, Bool.and_self, if_true]

theorem State.trainStart_granted (granted : s.claim (reqIsle n.val) 16 40 = (s1, true)) :
    (s.trainStart n.val).1 = s1.setStrait n.val { s.strait n.val with st := .training, bearwait := false } := by
  obtain ⟨frame, -⟩ := State.claim_moves granted
  have strait : s1.strait n.val = s.strait n.val := by rw [frame]; rfl
  unfold State.trainStart State.modStrait
  rw [granted, ← strait]

theorem State.trainStart_refused (refused : s.claim (reqIsle n.val) 16 40 = (s1, false)) :
    (s.trainStart n.val).1.strait n.val = { s.strait n.val with bearwait := true } ∧ (s.trainStart n.val).1.ledger = s1.ledger := by
  obtain ⟨frame, -⟩ := State.claim_moves refused
  have strait : s1.strait n.val = s.strait n.val := by rw [frame]; rfl
  unfold State.trainStart State.modStrait
  rw [refused, ← strait]
  exact ⟨State.strait_setStrait .., rfl⟩

end

section
variable {s s1 : State} {b : Fin 12}

/-- The HUB that a port block claims again: that of its start, or what was refused (R284). -/
def Block.need (z : Block) : Nat := if z.st = .dry then 24 else z.wants

/-- A port block with what it needs: out of Dry, if it was there. -/
def Block.served (z : Block) : Block :=
  { z with bearwait := false, wants := 0, hold := max z.need z.hold, st := if z.st = .dry then .run else z.st }

theorem State.blockClaim_granted {need : Nat} (granted : s.claim (reqBlock b.val) 0 (need - (s.block b.val).hold) = (s1, true)) :
    s.blockClaim b.val need = (s1.setBlock b.val { s.block b.val with
      bearwait := false, wants := 0, hold := max need (s.block b.val).hold }, true) := by
  obtain ⟨frame, -⟩ := State.claim_moves granted
  have block : s1.block b.val = s.block b.val := by rw [frame]; rfl
  unfold State.blockClaim State.modBlock
  rw [granted, ← block]

theorem State.blockClaim_refused {need : Nat} (refused : s.claim (reqBlock b.val) 0 (need - (s.block b.val).hold) = (s1, false)) :
    s.blockClaim b.val need = ((s1.setBlock b.val { s.block b.val with bearwait := true, wants := need }).recKey
      (posPort b.val) 0o005003 b.val [], false) := by
  obtain ⟨frame, -⟩ := State.claim_moves refused
  have block : s1.block b.val = s.block b.val := by rw [frame]; rfl
  unfold State.blockClaim State.modBlock
  rw [refused, ← block]

theorem exec_bearingRetry_block (waits : (s.block b.val).bearwait = true) : exec (.bearingRetry (.block b)) s
    = .next (if (s.block b.val).st = .dry then (s.blockUp ⟨b.val + 1, by omega⟩).1 else (s.blockClaim b.val (s.block b.val).wants).1) := by
  show execBearingRetry (.block b) s = _
  simp only [execBearingRetry, waits, Bool.not_true, Bool.false_eq_true, if_false]
  split <;> rfl

/-- A port block leaves Dry as its claim ends. -/
theorem State.blockUp_block (s : State) (b : Fin 12) : (s.blockUp ⟨b.val + 1, by omega⟩).1 =
    if (s.blockClaim b.val 24).2 then (s.blockClaim b.val 24).1.modBlock b.val fun x => { x with st := .run } else (s.blockClaim b.val 24).1 := by
  have port : ¬ b.val + 1 = 0 := by omega
  unfold State.blockUp State.setBlockSt
  simp only [port, if_false, Nat.add_sub_cancel]
  obtain ⟨u, granted | refused⟩ := s.blockClaim b.val 24 <;> rfl

theorem exec_bearingRetry_block_granted (waits : (s.block b.val).bearwait = true)
    (granted : s.claim (reqBlock b.val) 0 ((s.block b.val).need - (s.block b.val).hold) = (s1, true)) :
    exec (.bearingRetry (.block b)) s = .next (s1.setBlock b.val (s.block b.val).served) := by
  rw [exec_bearingRetry_block waits]
  unfold Block.served
  by_cases dry : (s.block b.val).st = .dry
  · rw [Block.need, if_pos dry] at granted
    rw [Block.need, if_pos dry, if_pos dry, if_pos dry, State.blockUp_block, State.blockClaim_granted granted, State.modBlock]
    simp only [if_true, State.block_setBlock, State.setBlock_setBlock]
  · rw [Block.need, if_neg dry] at granted
    rw [Block.need, if_neg dry, if_neg dry, if_neg dry, State.blockClaim_granted granted]

theorem exec_bearingRetry_block_refused (waits : (s.block b.val).bearwait = true)
    (refused : s.claim (reqBlock b.val) 0 ((s.block b.val).need - (s.block b.val).hold) = (s1, false)) :
    exec (.bearingRetry (.block b)) s = .next ((s1.setBlock b.val { s.block b.val with
      bearwait := true, wants := (s.block b.val).need }).recKey (posPort b.val) 0o005003 b.val []) := by
  rw [exec_bearingRetry_block waits]
  by_cases dry : (s.block b.val).st = .dry
  · rw [Block.need, if_pos dry] at refused ⊢
    rw [if_pos dry, State.blockUp_block, State.blockClaim_refused refused]
    rfl
  · rw [Block.need, if_neg dry] at refused ⊢
    rw [if_neg dry, State.blockClaim_refused refused]

end

/-- Settles O36, transition by transition: each clause is what its own command does. -/
theorem stepsSlackAndCaps : Obligations.StepsSlackAndCaps := by
  unfold Obligations.StepsSlackAndCaps
  intro s c n x l k
  refine ⟨exec_coreAutoslackEnter, exec_isleSlackEnter, exec_isleSlackExit,
    fun fit pending up may below room s1 => exec_stepRaise fit pending (x.isUp_iff.mpr up) may below room,
    fun fit pending up may => exec_stepLower fit pending (x.isUp_iff.mpr up) may,
    fun core hub => ⟨exec_currentCapCheck_between hub, exec_currentCapCheck_counts hub, exec_currentCapCheck_lowers hub⟩,
    fun p fit least most steady => ?between, fun p fit => exec_thermalCap_lowers fit, fun fit may waits s1 => ?strait, fun b waits s1 => ?block⟩
  case between =>
    refine ⟨_, exec_thermalCap_between fit most least steady, ?_⟩
    rw [State.isle_setIsle]
    refine ⟨rfl, fun j lt => ?_, rfl⟩
    have sample := sget_keepSamples (s.isle n.val).temps (s.isle n.val).tempMax 0 (List.replicate 6 p) (i := j) (by simpa using lt)
    rwa [Nat.zero_add, List.getElem_replicate] at sample
  case strait =>
    rw [exec_bearingRetry_strait fit may waits]
    refine ⟨fun granted => congrArg _ (State.trainStart_granted granted), fun refused => ⟨_, rfl, ?_⟩⟩
    obtain ⟨strait, ledger⟩ := State.trainStart_refused refused
    rw [strait, ledger, State.claim_no refused, ← waits]
    exact ⟨rfl, rfl⟩
  case block =>
    intro z need
    refine ⟨fun granted => ⟨_, exec_bearingRetry_block_granted waits granted, State.block_setBlock .., rfl⟩,
      fun refused => ⟨_, exec_bearingRetry_block_refused waits refused, ?_, rfl⟩⟩
    rw [← waits]
    exact State.block_setBlock ..

end Sys2Proof.Machine

/-! The caches of an Isle are switched and patrolled, and hold windows end (R144 to R148, R188, R199). -/

namespace Sys2Proof.Machine

/-! ### One bit of a mask -/

theorem getLsbD_one_shiftLeft {w : Nat} (k j : Nat) (h : j < w) : ((1 : BitVec w) <<< k).getLsbD j = decide (j = k) := by
  have w1 : 0 < w := by omega
  rw [BitVec.getLsbD_shiftLeft, show (1 : BitVec w) = 1#w from rfl, BitVec.getLsbD_one]
  by_cases same : j = k
  · subst same; simp [h, w1]
  · have : decide (j < k) = true ∨ j - k ≠ 0 := by
      by_cases low : j < k
      · exact .inl (decide_eq_true low)
      · exact .inr (by omega)
    rcases this with g | g <;> simp [g, same]

theorem getLsbD_or_bit {w : Nat} (x : BitVec w) (k j : Nat) (h : j < w) :
    (x ||| (1 : BitVec w) <<< k).getLsbD j = (x.getLsbD j || decide (j = k)) := by
  rw [BitVec.getLsbD_or, getLsbD_one_shiftLeft k j h]

theorem getLsbD_and_not_bit {w : Nat} (x : BitVec w) (k j : Nat) (h : j < w) :
    (x &&& ~~~((1 : BitVec w) <<< k)).getLsbD j = (x.getLsbD j && !decide (j = k)) := by
  rw [BitVec.getLsbD_and, BitVec.getLsbD_not, getLsbD_one_shiftLeft k j h, decide_eq_true h, Bool.true_and]

/-! ### A disable takes effect (R146) -/

theorem Isle.setLine_cis (x : Isle) (l : Nat) (a : AgentLine) : (x.setLine l a).cis = x.cis := rfl

theorem Isle.forget_cis (x : Isle) (l : Nat) : (x.forget l).cis = x.cis := Isle.setLine_cis ..

/-- Memory, threads and home of s stay, and the CIS_ unit of Isle n. -/
structure SameCis (n : Nat) (s u : State) : Prop where
  mem : u.mem = s.mem
  threads : u.threads = s.threads
  home : u.home = s.home
  cis : (u.isle n).cis = (s.isle n).cis

section
variable {n : Nat} {s u : State}

theorem SameCis.refl (n : Nat) (s : State) : SameCis n s s := ⟨rfl, rfl, rfl, rfl⟩

theorem SameCis.modCore {q : Nat} {f : Core → Core} (h : SameCis n s u) : SameCis n s (u.modCore q f) :=
  ⟨h.mem, h.threads, h.home, h.cis⟩

theorem SameCis.modIsle {f : Isle → Isle} (h : SameCis n s u) (cis : (f (u.isle n)).cis = (u.isle n).cis) :
    SameCis n s (u.modIsle n f) := by
  refine ⟨h.mem, h.threads, h.home, ?_⟩
  rw [State.modIsle_eq, State.isle_setIsle, cis, h.cis]

theorem SameCis.forget {l : Nat} (h : SameCis n s u) : SameCis n s (u.modIsle n fun x => x.forget l) :=
  h.modIsle (Isle.forget_cis ..)

theorem SameCis.untrack {l : Nat} (h : SameCis n s u) : SameCis n s (u.untrack n l) := by
  unfold State.untrack
  exact pres_ite (fun _ => h.forget) fun _ => h

theorem SameCis.l2Off {c : Nat} (h : SameCis n s u) : SameCis n s (u.l2Off n c) := by
  unfold State.l2Off
  exact pres_fold (Q := SameCis n s) _ _ h fun _ _ g => pres_ite (fun _ => g.modCore.untrack) fun _ => g

end

/-- The home without Isle n among the sharers of any line, its drop walk on (R199). -/
def Home.dropIsle (h : Home) (n : Nat) : Home :=
  let drop (e : Entry) : Entry :=
    let e := dropSharer e (BitVec.ofNat 4 n)
    if e.st = .s ∧ e.sharers = 0 then {} else e
  { h with entries := smap ({} : Entry) h.entries fun _ e => drop e, drop := h.drop ||| ((1 : BitVec 12) <<< n) }

theorem Home.dropIsle_drop (h : Home) (n : Fin 12) : (h.dropIsle n).drop.getLsbD n = true := by
  rw [Home.dropIsle, getLsbD_or_bit _ _ _ n.isLt, decide_eq_true rfl, Bool.or_true]

theorem Home.dropIsle_sharers (h : Home) (n : Fin 12) (j : Nat) :
    (sget ({} : Entry) (h.dropIsle n).entries j).sharers.getLsbD n = false := by
  have mod : (BitVec.ofNat 4 n.val).toNat = n.val := by
    rw [BitVec.toNat_ofNat]
    omega
  have dropped (e : Entry) : (dropSharer e (BitVec.ofNat 4 n.val)).sharers.getLsbD n.val = false := by
    rw [dropSharer, mod, getLsbD_and_not_bit _ _ _ (by omega), decide_eq_true rfl, Bool.not_true, Bool.and_false]
  rw [Home.dropIsle]
  dsimp only
  rw [sget_smap]
  · split
    · exact BitVec.getLsbD_zero
    · exact dropped _
  · intro _
    have : dropSharer {} (BitVec.ofNat 4 n.val) = {} := by
      simp [dropSharer]
    rw [this]
    rfl

theorem State.icOff_leaves (s : State) (n : Nat) : ((s.icOff n).isle n).cis = (s.isle n).cis ∧ (s.icOff n).mem = s.mem
    ∧ (s.icOff n).threads = s.threads ∧ (s.icOff n).home = s.home.dropIsle n := by
  have untracked {u : State} (g : SameCis n s u) {l : Nat} {old : Isle → Store (Option LineVal)} :
      SameCis n s (u.modIsle n fun x => { x.forget l with old := old x }) := by
    refine g.modIsle ?_
    dsimp only
    exact Isle.forget_cis ..
  have h : SameCis n s (((s.isle n).ic.filter fun w => w.2.valid != 0).foldl (fun (s : State) (w : Nat × Way) =>
      let a := (s.isle n).line w.2.tag
      if a.st = .s then
        s.modIsle n fun x => { x.forget w.2.tag with old := sset none x.old w.2.tag (some a.val) }
      else s) s) :=
    pres_fold (Q := SameCis n s) _ _ (.refl n s) fun _ _ g => pres_ite (fun _ => untracked g) fun _ => g
  unfold State.icOff
  dsimp only at h ⊢
  generalize List.foldl _ s _ = u at h ⊢
  rw [h.home]
  exact ⟨h.cis, h.mem, h.threads, rfl⟩

/-- The CIS_ unit once the disable of cache k has taken effect. -/
def Cis.settled (c : Cis) (k : Nat) : Cis := { c with disabling := c.disabling &&& ~~~((1 : BitVec 25) <<< k) }

theorem Cis.settled_of_idle {c : Cis} {k : Nat} (h : c.disabling.getLsbD k = false) : c.settled k = c := by
  have : c.disabling &&& ~~~((1 : BitVec 25) <<< k) = c.disabling := by
    refine BitVec.eq_of_getLsbD_eq fun j hj => ?_
    rw [getLsbD_and_not_bit _ _ _ hj]
    by_cases same : j = k
    · rw [same, h, Bool.false_and]
    · simp [same]
  rw [Cis.settled, this]

theorem State.disableDone_idle {s : State} {n k : Nat} (h : (s.isle n).cis.disabling.getLsbD k = false) : s.disableDone n k = s := by
  rw [State.disableDone, h, Bool.not_false, if_pos rfl]

/-- The disable of cache k is noted as done. -/
def State.noteDisabled (s : State) (n k : Nat) : State := s.modIsle n fun x => { x with cis := x.cis.settled k }

theorem State.noteDisabled_cis (s : State) (n k : Nat) : ((s.noteDisabled n k).isle n).cis = (s.isle n).cis.settled k := by
  rw [State.noteDisabled, State.modIsle_eq, State.isle_setIsle]

theorem State.disableDone_busy {s : State} {n k : Nat} (h : (s.isle n).cis.disabling.getLsbD k = true) :
    s.disableDone n k = if k < 24 then (s.noteDisabled n k).l2Off n k else (s.noteDisabled n k).icOff n := by
  rw [State.disableDone, h, Bool.not_true, if_neg Bool.false_ne_true]
  rfl

/-- A disable that takes effect leaves memory, threads and the rest of the CIS_ unit; that of an L2 leaves the home too. -/
theorem State.disableDone_leaves (s : State) (n k : Nat) :
    ((s.disableDone n k).isle n).cis = (s.isle n).cis.settled k ∧ (s.disableDone n k).mem = s.mem
      ∧ (s.disableDone n k).threads = s.threads ∧ (k < 24 → (s.disableDone n k).home = s.home) := by
  by_cases busy : (s.isle n).cis.disabling.getLsbD k = true
  · rw [State.disableDone_busy busy, ← State.noteDisabled_cis]
    split
    · have h : SameCis n (s.noteDisabled n k) ((s.noteDisabled n k).l2Off n k) := (SameCis.refl n _).l2Off
      exact ⟨h.cis, h.mem, h.threads, fun _ => h.home⟩
    · obtain ⟨cis, mem, threads, _⟩ := (s.noteDisabled n k).icOff_leaves n
      exact ⟨cis, mem, threads, fun low => absurd low ‹_›⟩
  · rw [Bool.not_eq_true] at busy
    rw [State.disableDone_idle busy, Cis.settled_of_idle busy]
    exact ⟨rfl, rfl, rfl, fun _ => rfl⟩

/-- The disable of the Isle cache takes the Isle from every sharer list of the home (R199). -/
theorem State.disableDone_home {s : State} {n : Nat} (busy : (s.isle n).cis.disabling.getLsbD 24 = true) :
    (s.disableDone n 24).home = s.home.dropIsle n := by
  rw [State.disableDone_busy busy, if_neg (by decide)]
  exact ((s.noteDisabled n 24).icOff_leaves n).2.2.2

/-! ### CIS_CACHECTL (R145 to R148) -/

/-- What the CIS_ unit says of one cache: its bits in CIS_CACHECTL and CIS_STALE, and what it keeps of its last disable. -/
structure CacheBits where
  enabled : Bool
  disabling : Bool
  cleared : Bool
  stale : Bool

def Cis.bits (c : Cis) (j : Nat) : CacheBits := ⟨c.enabled j, c.disabling.getLsbD j, c.cleared.getLsbD j, c.stale.getLsbD j⟩

/-- A cache that is given its enable: one that no ARRAY_INVAL has cleared comes on STALE. -/
def CacheBits.switch (b : CacheBits) (on : Bool) : CacheBits :=
  if b.enabled = on then b
  else if on then { enabled := true, disabling := false, cleared := b.cleared, stale := b.stale || !b.cleared }
  else { enabled := false, disabling := true, cleared := false, stale := b.stale }

theorem CacheBits.switch_enabled (b : CacheBits) (on : Bool) : (b.switch on).enabled = on := by
  unfold CacheBits.switch
  split
  · assumption
  · cases on <;> rfl

/-- The CIS_ unit with the enable of cache k written. -/
def Cis.setEnable (c : Cis) (k : Nat) (on : Bool) : Cis :=
  if k < 24 then { c with l2en := if on then c.l2en ||| ((1 : BitVec 24) <<< k) else c.l2en &&& ~~~((1 : BitVec 24) <<< k) }
  else { c with icen := on }

theorem Cis.setEnable_enabled (c : Cis) {k j : Nat} (on : Bool) (hk : k < 25) (hj : j < 25) :
    (c.setEnable k on).enabled j = if j = k then on else c.enabled j := by
  unfold Cis.setEnable Cis.enabled
  by_cases low : k < 24
  · rw [if_pos low]
    by_cases lowj : j < 24
    · rw [if_pos lowj, if_pos lowj]
      cases on
      · rw [if_neg Bool.false_ne_true, getLsbD_and_not_bit _ _ _ lowj]
        by_cases same : j = k <;> simp [same]
      · rw [if_pos rfl, getLsbD_or_bit _ _ _ lowj]
        by_cases same : j = k <;> simp [same]
    · rw [if_neg lowj, if_neg lowj, if_neg (show j ≠ k by omega)]
  · rw [if_neg low]
    by_cases lowj : j < 24
    · rw [if_pos lowj, if_pos lowj, if_neg (show j ≠ k by omega)]
    · rw [if_neg lowj, if_neg lowj, if_pos (show j = k by omega)]

theorem Cis.setEnable_rest (c : Cis) (k : Nat) (on : Bool) : (c.setEnable k on).disabling = c.disabling
    ∧ (c.setEnable k on).cleared = c.cleared ∧ (c.setEnable k on).stale = c.stale := by
  unfold Cis.setEnable
  split <;> exact ⟨rfl, rfl, rfl⟩

/-- The CIS_ unit after the enable of cache k has been given or taken. -/
def Cis.turnOn (c : Cis) (k : Nat) : Cis :=
  let d := (c.settled k).setEnable k true
  if c.cleared.getLsbD k then d else { d with stale := d.stale ||| ((1 : BitVec 25) <<< k) }

def Cis.turnOff (c : Cis) (k : Nat) : Cis :=
  { c.setEnable k false with
    disabling := c.disabling ||| ((1 : BitVec 25) <<< k), cleared := c.cleared &&& ~~~((1 : BitVec 25) <<< k) }

theorem Cis.turnOn_bits (c : Cis) {k j : Nat} (hk : k < 25) (hj : j < 25) :
    (c.turnOn k).bits j = ⟨if j = k then true else c.enabled j, c.disabling.getLsbD j && !decide (j = k), c.cleared.getLsbD j,
      c.stale.getLsbD j || (decide (j = k) && !c.cleared.getLsbD k)⟩ := by
  have enabled := (c.settled k).setEnable_enabled true hk hj
  obtain ⟨disabling, cleared, stale⟩ := (c.settled k).setEnable_rest k true
  have idle : ((c.settled k).setEnable k true).disabling.getLsbD j = (c.disabling.getLsbD j && !decide (j = k)) := by
    rw [disabling]
    exact getLsbD_and_not_bit _ _ _ hj
  unfold Cis.turnOn
  dsimp only
  split
  next known =>
    rw [known, Bool.not_true, Bool.and_false, Bool.or_false]
    exact CacheBits.mk.injEq .. ▸ ⟨enabled, idle, by rw [cleared]; rfl, by rw [stale]; rfl⟩
  next unknown =>
    rw [Bool.not_eq_true] at unknown
    rw [unknown, Bool.not_false, Bool.and_true]
    exact CacheBits.mk.injEq .. ▸ ⟨enabled, idle, by rw [cleared]; rfl, by rw [stale]; exact getLsbD_or_bit _ _ _ hj⟩

theorem Cis.turnOff_bits (c : Cis) {k j : Nat} (hk : k < 25) (hj : j < 25) :
    (c.turnOff k).bits j = ⟨if j = k then false else c.enabled j, c.disabling.getLsbD j || decide (j = k),
      c.cleared.getLsbD j && !decide (j = k), c.stale.getLsbD j⟩ := by
  have enabled := c.setEnable_enabled false hk hj
  obtain ⟨-, -, stale⟩ := c.setEnable_rest k false
  exact CacheBits.mk.injEq .. ▸ ⟨enabled, getLsbD_or_bit _ _ _ hj, getLsbD_and_not_bit _ _ _ hj, by rw [← stale]; rfl⟩

/-- The CIS_ unit after cache k has been given its enable. -/
def Cis.switch (c : Cis) (k : Nat) (on : Bool) : Cis :=
  if c.enabled k = on then c else if on then c.turnOn k else c.turnOff k

/-- A write to one enable reaches that cache alone. -/
theorem Cis.switch_bits (c : Cis) {k j : Nat} (on : Bool) (hk : k < 25) (hj : j < 25) :
    (c.switch k on).bits j = if j = k then (c.bits j).switch on else c.bits j := by
  unfold Cis.switch
  split
  next same =>
    split
    · next eq =>
      subst eq
      exact (if_pos same).symm
    · rfl
  next differs =>
    cases on
    · rw [if_neg Bool.false_ne_true, Cis.turnOff_bits c hk hj]
      by_cases eq : j = k
      · subst eq
        simp [CacheBits.switch, Cis.bits, differs]
      · simp [Cis.bits, eq]
    · rw [if_pos rfl, Cis.turnOn_bits c hk hj]
      by_cases eq : j = k
      · subst eq
        simp [CacheBits.switch, Cis.bits, differs]
      · simp [Cis.bits, eq]

section
variable (s : State) (i : Nat) (code : BitVec 16) (unit p0 p1 : Nat) (id : Xid)
theorem State.recIsle_isle (n : Nat) : (s.recIsle i code unit p0 p1 id).isle n = s.isle n := rfl
theorem State.recIsle_mem : (s.recIsle i code unit p0 p1 id).mem = s.mem := rfl
theorem State.recIsle_threads : (s.recIsle i code unit p0 p1 id).threads = s.threads := rfl
end

theorem State.cacheSwitch_leaves (s : State) (n k : Nat) (on : Bool) :
    ((s.cacheSwitch n k on).isle n).cis = (s.isle n).cis.switch k on ∧ (s.cacheSwitch n k on).mem = s.mem
      ∧ (s.cacheSwitch n k on).threads = s.threads := by
  obtain ⟨cis, mem, threads, -⟩ := s.disableDone_leaves n k
  unfold State.cacheSwitch Cis.switch
  dsimp only
  split
  · exact ⟨rfl, rfl, rfl⟩
  · cases on with
    | true =>
      rw [if_pos rfl, if_pos rfl]
      unfold Cis.turnOn
      dsimp only
      split
      · rw [State.modIsle_eq, State.isle_setIsle, State.setIsle_mem, State.setIsle_threads, cis]
        exact ⟨rfl, mem, threads⟩
      · rw [State.recIsle_isle, State.recIsle_mem, State.recIsle_threads, State.modIsle_eq, State.isle_setIsle,
          State.setIsle_mem, State.setIsle_threads, State.modIsle_eq, State.isle_setIsle, State.setIsle_mem, State.setIsle_threads, cis]
        exact ⟨rfl, mem, threads⟩
    | false =>
      rw [if_neg Bool.false_ne_true, if_neg Bool.false_ne_true]
      refine ⟨?_, rfl, rfl⟩
      rw [State.modIsle_eq, State.isle_setIsle]
      rfl

/-- The enables of caches 0 to m - 1 are written from v, one after the other. -/
def State.switchAll (s : State) (n : Nat) (v : W36) (m : Nat) : State :=
  (List.range m).foldl (fun s k => s.cacheSwitch n k (bitOf v k)) s

theorem State.switchAll_leaves (s : State) (n : Nat) (v : W36) (m : Nat) (hm : m ≤ 25) :
    (∀ j, j < 25 → ((s.switchAll n v m).isle n).cis.bits j
        = if j < m then ((s.isle n).cis.bits j).switch (bitOf v j) else (s.isle n).cis.bits j)
      ∧ (s.switchAll n v m).mem = s.mem ∧ (s.switchAll n v m).threads = s.threads := by
  induction m with
  | zero => exact ⟨fun j _ => rfl, rfl, rfl⟩
  | succ m ih =>
    obtain ⟨bits, mem, threads⟩ := ih (by omega)
    have last : s.switchAll n v (m + 1) = (s.switchAll n v m).cacheSwitch n m (bitOf v m) := by
      rw [State.switchAll, List.range_succ, List.foldl_append]
      rfl
    obtain ⟨cis, mem', threads'⟩ := (s.switchAll n v m).cacheSwitch_leaves n m (bitOf v m)
    rw [last]
    refine ⟨fun j hj => ?_, mem'.trans mem, threads'.trans threads⟩
    rw [cis, Cis.switch_bits _ _ hm hj, bits j hj]
    by_cases eq : j = m
    · subst eq
      simp
    · rw [if_neg eq]
      have : (j < m) = (j < m + 1) := propext (by omega)
      simp only [this]

/-- CIS_CACHECTL reserves bits 35:25, and an enable of an L2 without the one of the Isle cache. -/
theorem cachectl_reserved (v : W36) :
    (hasBits v (bitsMask 35 25) || (!bitOf v 24 && hasBits v (bitsMask 23 0))) = true
      ↔ 2 ^ 25 ≤ v.toNat ∨ v.getLsbD 24 = false ∧ v ≠ 0 := by
  have low : v.getLsbD 24 = decide (v.toNat / 2 ^ 24 % 2 = 1) := by
    rw [BitVec.getLsbD, Nat.testBit_eq_decide_div_mod_eq]
  have zero : v = 0 ↔ v.toNat = 0 := by
    rw [← BitVec.toNat_inj]
    rfl
  have := v.isLt
  rw [Bool.or_eq_true, Bool.and_eq_true, hasBits_bitsMask v (by decide), hasBits_bitsMask v (by decide), Bool.not_eq_true', bitOf,
    fld, fld, low, show v ≠ 0 ↔ v.toNat ≠ 0 from not_congr zero, decide_eq_false_iff_not]
  omega

theorem exec_cisCachectlWrite {s : State} {w : Who} {n : Fin 12} (h : s.isleOpen w n) (v : W36) :
    exec (.cisCachectlWrite w n v) s = .next (s.cachectl w n v).1 := by
  show Host.Outcome.next (s.csWrite w (isleReg n 2 4) v).1 = _
  rw [State.csWrite_isle h (by decide) (by decide) (by decide) (by decide)]
  rfl

theorem State.cachectl_taken {s : State} {w : Who} {n : Fin 12} (h : s.isleOpen w n) {v : W36} (low : v.toNat < 2 ^ 25)
    (ok : v.getLsbD 24 = true ∨ v = 0) : (s.cachectl w n v).1 = s.switchAll n v 25 := by
  have legal : ¬ (hasBits v (bitsMask 35 25) || (!bitOf v 24 && hasBits v (bitsMask 23 0))) = true := by
    rw [cachectl_reserved]
    rcases ok with on | rfl
    · rw [on]
      simpa using low
    · simp
  unfold State.cachectl
  dsimp only
  rw [State.isleAnswer_open h, if_neg legal]
  rfl

theorem State.cachectl_refused {s : State} {w : Who} {n : Fin 12} (h : s.isleOpen w n) {v : W36}
    (bad : 2 ^ 25 ≤ v.toNat ∨ v.getLsbD 24 = false ∧ v ≠ 0) : (s.cachectl w n v).1 = s := by
  unfold State.cachectl
  dsimp only
  rw [State.isleAnswer_open h, if_pos ((cachectl_reserved v).mpr bad)]
  rfl

/-! ### SRAM_PATROL (R144) -/

theorem sget_dropErrs {e : Store (BitVec 2)} {l a : Nat} (h : sget 0 e a = 0) : sget 0 (dropErrs e l) a = 0 := by
  refine (sget_filter 0 e (fun k => decide (k / 64 ≠ l)) a).trans ?_
  rw [h, ite_self]

/-- u differs from s in its Isles and its records only, and the nonets of A of Isle n's data array hold no error. -/
structure Healed (n : Nat) (A : Nat → Prop) (s u : State) : Prop where
  rest : u = { s with isles := u.isles, evr := u.evr }
  zero : ∀ a, A a → sget 0 (u.isle n).dataErr a = 0

section
variable {n : Nat} {A : Nat → Prop} {s u : State}

theorem Healed.modIsle {f : Isle → Isle} {B : Nat → Prop} (h : Healed n A s u)
    (zero : (∀ a, A a → sget 0 (u.isle n).dataErr a = 0) → ∀ a, B a → sget 0 (f (u.isle n)).dataErr a = 0) :
    Healed n B s (u.modIsle n f) := by
  refine ⟨?_, ?_⟩
  · exact congrArg (fun v : State => { v with isles := (u.modIsle n f).isles }) h.rest
  · rw [State.modIsle_eq, State.isle_setIsle]
    exact zero h.zero

theorem Healed.setLine {l : Nat} {a : Isle → AgentLine} (h : Healed n A s u) : Healed n A s (u.modIsle n fun x => x.setLine l (a x)) :=
  h.modIsle id

theorem Healed.recIsle {unit p0 p1 : Nat} {code : BitVec 16} {id : Xid} (h : Healed n A s u) :
    Healed n A s (u.recIsle n code unit p0 p1 id) :=
  ⟨congrArg (fun v : State => { v with evr := (u.recIsle n code unit p0 p1 id).evr }) h.rest, h.zero⟩

theorem Healed.loseClean {l : Nat} (h : Healed n A s u) : Healed n A s (u.loseClean n .ic l) := by
  have lost : Healed n A s (u.modIsle n fun x => { x with
      ic := clearLine x.ic (icBase l) 16 l 1, old := sset none x.old l none, dataErr := dropErrs x.dataErr l }) :=
    h.modIsle fun zero a ha => sget_dropErrs (zero a ha)
  unfold State.loseClean
  exact pres_ite (fun _ => lost.setLine) fun _ => lost

/-- One error found: its nonet holds none afterwards. -/
theorem Healed.heal {e : Nat} (h : Healed n A s u) : Healed n (fun a => A a ∨ a = e) s (u.modArrErr n .ic fun m => sset 0 m e 0) := by
  unfold State.modArrErr
  refine h.modIsle fun zero a ha => ?_
  show sget 0 (sset 0 (u.isle n).dataErr e 0) a = 0
  rw [sget_sset]
  split
  · rfl
  · exact zero a (ha.resolve_right ‹_›)

theorem Healed.mono {B : Nat → Prop} (h : Healed n A s u) (le : ∀ a, B a → A a) : Healed n B s u :=
  ⟨h.rest, fun a ha => h.zero a (le a ha)⟩

/-- A read of a line in the Isle cache leaves no error that it met. -/
theorem Healed.arrRead {l : Nat} {mask : BitVec 64} {id : Xid} (h : Healed n A s u) :
    Healed n (fun a => A a ∨ a ∈ ((u.isle n).dataErr.filter fun e => decide (e.1 / 64 = l) && mask.getLsbD (e.1 % 64)).map Prod.fst) s
      (u.arrRead n .ic l mask id) := by
  unfold State.arrRead
  show Healed n (fun a => A a ∨ a ∈ ((u.arrErr n .ic).filter _).map Prod.fst) s _
  dsimp only
  generalize (u.arrErr n .ic).filter _ = es
  induction es generalizing u A with
  | nil => simpa using h
  | cons e es ih =>
    have good := h.heal (e := e.1)
    rw [List.foldl_cons]
    refine (ih (A := fun a => A a ∨ a = e.1) (pres_ite (fun _ => good.recIsle) fun _ =>
      pres_ite (fun _ => good.setLine.recIsle) fun _ => good.loseClean.recIsle)).mono fun a ha => ?_
    rw [List.map_cons, List.mem_cons] at ha
    tauto

end

/-- The errors in the nonets of a line are those that a read of the whole line meets. -/
theorem filter_line_errs (e : Store (BitVec 2)) (l : Nat) :
    (e.filter fun e => decide (e.1 / 64 = l) && (BitVec.allOnes 64).getLsbD (e.1 % 64)) = e.filter fun e => decide (e.1 / 64 = l) := by
  refine List.filter_congr fun e _ => ?_
  rw [BitVec.getLsbD_allOnes, decide_eq_true (Nat.mod_lt _ (by decide)), Bool.and_true]

theorem State.arrRead_line (s : State) (n l : Nat) : Healed n (fun a => a / 64 = l) s (s.arrRead n .ic l (BitVec.allOnes 64)) := by
  have start : Healed n (fun a => a / 64 = l ∧ a ∉ skeys ((s.isle n).dataErr.filter fun e => decide (e.1 / 64 = l))) s s := by
    refine ⟨rfl, fun a ha => ?_⟩
    have := sget_filter 0 (s.isle n).dataErr (fun k => decide (k / 64 = l)) a
    rw [if_pos (decide_eq_true ha.1), sget_of_not_mem ha.2] at this
    exact this.symm
  have all := start.arrRead (l := l) (mask := BitVec.allOnes 64) (id := {})
  rw [filter_line_errs] at all
  refine ⟨all.rest, fun a ha => all.zero a ?_⟩
  by_cases listed : a ∈ skeys ((s.isle n).dataErr.filter fun e => decide (e.1 / 64 = l))
  · exact .inr listed
  · exact .inl ⟨ha, listed⟩

/-- One bit in error is corrected and recorded. -/
theorem State.arrRead_corrected {s : State} {n l a : Nat}
    (one : (s.isle n).dataErr.filter (fun e => decide (e.1 / 64 = l)) = [(a, 1)]) :
    s.arrRead n .ic l (BitVec.allOnes 64)
      = (s.setIsle n { s.isle n with dataErr := sset 0 (s.isle n).dataErr a 0 }).recIsle n 0o003001 (288 + n) (l * 64) (a % 64) := by
  have errs : ((s.arrErr n .ic).filter fun e => decide (e.1 / 64 = l) && (BitVec.allOnes 64).getLsbD (e.1 % 64)) = [(a, 1)] :=
    (filter_line_errs _ l).trans one
  rw [State.arrRead, errs, List.foldl_cons, List.foldl_nil]
  exact if_pos rfl

theorem exec_sramPatrol {s : State} {n : Fin 12} {l : LineNo} (fit : s.isleFit n = true) (dram : paClass (l.toNat * 64) = .dram)
    (here : icHas (s.isle n).ic l.toNat = true) :
    exec (.sramPatrol n l) s = .next (s.arrRead n .ic l.toNat (BitVec.allOnes 64)) := by
  show execSramPatrol n l s = _
  rw [execSramPatrol, fit, Bool.not_true, if_neg Bool.false_ne_true, dram]
  exact if_pos here

/-! ### The commands of a fitted Isle -/

section
variable {s : State} {n : Fin 12} (fit : s.isleFit n = true)
include fit

theorem exec_cacheDisableComplete (k : Fin 25) : exec (.cacheDisableComplete n k) s = .next (s.disableDone n k) := by
  show execCacheDisableComplete n k s = _
  exact if_pos fit

theorem exec_dropWalkDone :
    exec (.dropWalkDone n) s = .next { s with home := { s.home with drop := s.home.drop &&& ~~~(1#12 <<< n.val) } } := by
  show execDropWalkDone n s = _
  exact if_pos fit

theorem exec_holdWindowEnd (l : LineNo) : exec (.holdWindowEnd n l) s = .next (s.endWindow n l.toNat) := by
  show execHoldWindowEnd n l s = _
  exact if_pos fit

end

theorem State.endWindow_shut {s : State} {n l : Nat} (h : ((s.isle n).line l).window = false) : s.endWindow n l = s := by
  rw [State.endWindow, h]
  exact if_pos rfl

/-- The window of a line ends: what it held back is served, and the fills that wait try again (R188, R139). -/
theorem State.endWindow_open {s : State} {n l : Nat} (h : ((s.isle n).line l).window = true) :
    s.endWindow n l = (((s.isle n).line l).deferred.foldl (fun u m => u.serveSnoop n m)
      (s.setIsle n ((s.isle n).setLine l { (s.isle n).line l with window := false, deferred := [] }))).retryFills n := by
  rw [State.endWindow, h]
  exact if_neg Bool.false_ne_true

/-- Settles O37: each enable of CIS_CACHECTL reaches its own cache alone, whatever a disable that takes effect drops; a
patrolled line keeps no error that its read met. -/
theorem cachesOfAnIsle : Obligations.CachesOfAnIsle := by
  intro s w n v k l
  refine ⟨fun op low ok => ?_, fun op bad => ?_, fun fit idle => ?_, fun fit busy => ?_, fun fit => exec_dropWalkDone fit,
    fun fit dram here => ⟨?_, fun a one => ?_⟩, fun fit shut => ?_, fun fit window => ?_⟩
  · obtain ⟨bits, mem, threads⟩ := s.switchAll_leaves n v 25 le_rfl
    have bits := bits k k.isLt
    rw [if_pos k.isLt] at bits
    refine ⟨s.switchAll n v 25, ?_, ?_, fun on off => ?_, fun off on => ?_, mem, threads⟩
    · rw [exec_cisCachectlWrite op, State.cachectl_taken op low ok]
    · exact (congrArg CacheBits.enabled bits).trans (CacheBits.switch_enabled _ _)
    · have taken : ((s.isle n).cis.bits k).switch (bitOf v k) = ⟨false, true, false, (s.isle n).cis.stale.getLsbD k⟩ := by
        simp [CacheBits.switch, Cis.bits, bitOf, on, off]
      rw [taken] at bits
      exact ⟨congrArg CacheBits.disabling bits, congrArg CacheBits.cleared bits⟩
    · have given : (((s.isle n).cis.bits k).switch (bitOf v k)).stale
          = ((s.isle n).cis.stale.getLsbD k || !(s.isle n).cis.cleared.getLsbD k) := by
        simp [CacheBits.switch, Cis.bits, bitOf, on, off]
      exact (congrArg CacheBits.stale bits).trans given
  · rw [exec_cisCachectlWrite op, State.cachectl_refused op bad]
  · rw [exec_cacheDisableComplete fit, State.disableDone_idle idle]
  · obtain ⟨cis, mem, -, home⟩ := s.disableDone_leaves n k
    refine ⟨s.disableDone n k, exec_cacheDisableComplete fit k, cis, mem, home, fun ic => ?_⟩
    rw [ic] at busy ⊢
    rw [State.disableDone_home busy]
    exact ⟨Home.dropIsle_drop _ n, Home.dropIsle_sharers _ n⟩
  · have read := s.arrRead_line n l.toNat
    exact ⟨_, exec_sramPatrol fit dram here, fun i hi => read.zero _ (by omega), read.rest⟩
  · rw [exec_sramPatrol fit dram here, State.arrRead_corrected one]
  · rw [exec_holdWindowEnd fit, State.endWindow_shut shut]
  · rw [exec_holdWindowEnd fit, State.endWindow_open window]

end Sys2Proof.Machine

/-! The Trowel's slots: claimed, commanded and started (R158, R162 to R165). -/

namespace Sys2Proof.Machine

@[simp] theorem Isle.slot_setSlot (x : Isle) (k : Nat) (a : TrwSlot) : (x.setSlot k a).slot k = a := sget_sset_same ..

@[simp] theorem Isle.setSlot_setSlot (x : Isle) (k : Nat) (a b : TrwSlot) : (x.setSlot k a).setSlot k b = x.setSlot k b := by
  simp [Isle.setSlot]

/-! ### Changes of one slot -/

section
variable (s : State) (n k : Nat) (f g : TrwSlot → TrwSlot)

theorem State.modSlot_eq : s.modSlot n k f = s.setIsle n ((s.isle n).setSlot k (f ((s.isle n).slot k))) := rfl

theorem State.modSlot_isle : (s.modSlot n k f).isle n = (s.isle n).setSlot k (f ((s.isle n).slot k)) := by
  rw [State.modSlot_eq, State.isle_setIsle]

theorem State.modSlot_modSlot : (s.modSlot n k f).modSlot n k g = s.modSlot n k fun x => g (f x) := by
  rw [State.modSlot_eq, State.modSlot_isle, Isle.slot_setSlot, Isle.setSlot_setSlot, State.modSlot_eq, State.setIsle_setIsle,
    State.modSlot_eq]

theorem State.modSlot_modIsle (h : Isle → Isle) :
    (s.modSlot n k f).modIsle n h = s.setIsle n (h ((s.isle n).setSlot k (f ((s.isle n).slot k)))) := by
  rw [State.modIsle_eq, State.modSlot_isle, State.modSlot_eq, State.setIsle_setIsle]

theorem State.modSlot_cis : ((s.modSlot n k f).isle n).cis = (s.isle n).cis := by
  rw [State.modSlot_isle]
  rfl

theorem State.modSlot_whoVault (w : Who) : (s.modSlot n k f).whoVault w = s.whoVault w := rfl
theorem State.modSlot_whoCtx (w : Who) : (s.modSlot n k f).whoCtx w = s.whoCtx w := rfl

end

/-! ### An access of the Trowel moves its arbiter's pointer (R17, R165) -/

/-- The Isle once its Trowel has accepted an access of w. -/
def Isle.took (x : Isle) (n : Nat) (w : Who) : Isle := { x with trwPtr := trwSide n w + 1 }

theorem State.trwTook_eq (s : State) (n : Nat) (w : Who) : s.trwTook n w = s.setIsle n ((s.isle n).took n w) := rfl

theorem State.trwTook_isle (s : State) (n : Nat) (w : Who) : (s.trwTook n w).isle n = (s.isle n).took n w := by
  rw [State.trwTook_eq, State.isle_setIsle]

theorem State.trwTook_slot (s : State) (n : Nat) (w : Who) (k : Nat) : ((s.trwTook n w).isle n).slot k = (s.isle n).slot k := by
  rw [State.trwTook_isle]
  rfl

theorem State.trwTook_cis (s : State) (n : Nat) (w : Who) : ((s.trwTook n w).isle n).cis = (s.isle n).cis := by
  rw [State.trwTook_isle]
  rfl

theorem State.trwTook_answer {s : State} {w : Who} {n : Fin 12} (h : s.isleOpen w n) :
    (s.trwTook n w).isleAnswer n (whoUmf w) = .ok := by
  rw [← State.isleAnswer_open h, State.isleAnswer, State.isleAnswer, State.trwTook_isle]
  rfl

/-! ### TRW_CLAIM (R163, R165) -/

theorem trwSide_cases (n : Nat) (w : Who) : trwSide n w = 0 ∨ trwSide n w = 1 := by
  generalize trwSide n w = p
  revert p
  decide

theorem flatMap_range_pick {α : Type} (a : α) {j m : Nat} (h : j < m) :
    ((List.range m).flatMap fun k => if j = k then [a] else []) = [a] := by
  induction m with
  | zero => omega
  | succ m ih =>
    rw [List.range_succ, List.flatMap_append, List.flatMap_singleton]
    by_cases last : j = m
    · have none : ((List.range m).flatMap fun k => if j = k then [a] else []) = [] := by
        rw [List.flatMap_eq_nil_iff]
        intro k hk
        exact if_neg (by have := List.mem_range.mp hk; omega)
      rw [none, if_pos last, List.nil_append]
    · rw [ih (by omega), if_neg last, List.append_nil]

/-- Of the accesses of one side, the cores' come in the order of their threads, one alone as it is. -/
theorem sorted_one (w : Who) : ((List.range 48).flatMap fun k => [w].filter fun w => (whoThread w).toNat % 48 == k) = [w] := by
  have here : (fun k => [w].filter fun w => (whoThread w).toNat % 48 == k)
      = fun k => if (whoThread w).toNat % 48 = k then [w] else [] := by
    funext k
    rw [List.filter_singleton, Bool.cond_eq_ite]
    simp only [beq_iff_eq]
  rw [here]
  exact flatMap_range_pick w (Nat.mod_lt _ (by decide))

section
variable {n : Nat} {w v : Who}

theorem State.trwTogether_one (s : State) (n : Nat) (w : Who) : s.trwTogether n [w] = [w] := by
  unfold State.trwTogether
  rcases trwSide_cases n w with h | h
  · have mine : ([w].filter fun w => trwSide n w == 0) = [w] := by simp [h]
    have other : ([w].filter fun w => trwSide n w == 1) = [] := by simp [h]
    dsimp only
    rw [mine, other, sorted_one]
    rfl
  · have mine : ([w].filter fun w => trwSide n w == 0) = [] := by simp [h]
    have other : ([w].filter fun w => trwSide n w == 1) = [w] := by simp [h]
    have none : ((List.range 48).flatMap fun k => ([] : List Who).filter fun w => (whoThread w).toNat % 48 == k) = [] := by simp
    dsimp only
    rw [mine, other, none]
    rfl

/-- Of two accesses of one cycle, one of each side, the pointer chooses the first. -/
theorem State.trwTogether_two (s : State) (cores : trwSide n w = 0) (strait : trwSide n v = 1) (l : List Who) (two : l = [w, v] ∨ l = [v, w]) :
    s.trwTogether n l = if (s.isle n).trwPtr = 0 then [w, v] else [v, w] := by
  have mine : (l.filter fun w => trwSide n w == 0) = [w] := by
    rcases two with rfl | rfl <;> simp [cores, strait]
  have other : (l.filter fun w => trwSide n w == 1) = [v] := by
    rcases two with rfl | rfl <;> simp [cores, strait]
  have len : l.length = 2 := by
    rcases two with rfl | rfl <;> rfl
  unfold State.trwTogether
  dsimp only
  rw [mine, other, sorted_one, len]
  show (if (s.isle n).trwPtr = 0 then w :: trwOrder 1 [] [v] 1 else v :: trwOrder 0 [w] [] 1) = _
  rfl

theorem exec_trwClaim (s : State) (w : Who) (n : Fin 12) : exec (.trwClaim w [] n) s = .next (s.csRead w (isleReg n 1 4)).1 := by
  show execTrwClaim w [] n s = _
  rw [execTrwClaim, State.trwTogether_one, List.foldl_cons, List.foldl_nil]

/-- Two reads of TRW_CLAIM of one cycle are the two after one another, in the order of their acceptance. -/
theorem exec_trwClaim_two (s : State) {n : Fin 12} (cores : trwSide n w = 0) (strait : trwSide n v = 1) (a b : Who)
    (two : (a = w ∧ b = v) ∨ (a = v ∧ b = w)) :
    let first := if (s.isle n).trwPtr = 0 then w else v
    let second := if (s.isle n).trwPtr = 0 then v else w
    exec (.trwClaim a [b] n) s = exec (.trwClaim second [] n) (s.csRead first (isleReg n 1 4)).1 := by
  have l : [a, b] = [w, v] ∨ [a, b] = [v, w] := by
    rcases two with ⟨rfl, rfl⟩ | ⟨rfl, rfl⟩
    · exact .inl rfl
    · exact .inr rfl
  dsimp only
  rw [exec_trwClaim]
  show execTrwClaim a [b] n s = _
  rw [execTrwClaim, s.trwTogether_two cores strait _ l]
  split <;> rw [List.foldl_cons, List.foldl_cons, List.foldl_nil]

end

theorem State.csRead_claim {s : State} {w : Who} {n : Fin 12} (h : s.isleOpen w n) :
    s.csRead w (isleReg n 1 4) = (((s.trwTook n w).trwClaim n).1, some (.ok, ((s.trwTook n w).trwClaim n).2)) := by
  rw [State.csRead_trw h rfl (by decide) (by decide)]
  rfl

theorem State.trwClaim_free {s : State} {n : Nat} {k : Fin 8} (free : ((s.isle n).slot k).st = .free)
    (lower : ∀ j, j < k.val → ((s.isle n).slot j).st ≠ .free) :
    s.trwClaim n = (s.setIsle n ((s.isle n).setSlot k { (s.isle n).slot k with st := .claimed }), BitVec.ofNat 36 k) := by
  have found : ((List.range 8).find? fun k => ((s.isle n).slot k).st == .free) = some k.val := by
    rw [List.find?_range_eq_some]
    exact ⟨by simp [free], by simp, fun j hj => by simpa using lower j hj⟩
  rw [State.trwClaim, found]
  simp only [put, Nat.pow_zero, Nat.mul_one]
  rfl

theorem State.trwClaim_full {s : State} {n : Nat} (full : ∀ j, j < 8 → ((s.isle n).slot j).st ≠ .free) : s.trwClaim n = (s, 8) := by
  have none : ((List.range 8).find? fun k => ((s.isle n).slot k).st == .free) = none := by
    rw [List.find?_eq_none]
    intro j hj
    simpa using full j (List.mem_range.mp hj)
  rw [State.trwClaim, none]
  rfl

/-! ### TRW_CMD (R164) -/

theorem getLsbD_put (lo x i : Nat) : (put lo x).getLsbD i = (decide (i < 36) && (decide (lo ≤ i) && x.testBit (i - lo))) := by
  rw [put, BitVec.getLsbD_ofNat, Nat.testBit_mul_two_pow]

/-- The ACTION field of TRW_CMD is bits 9:8. -/
theorem withAction_toNat {v : W36} (low : v.toNat < 2 ^ 10) {a : Nat} (ha : a < 4) :
    (withAction v a).toNat = 2 ^ 8 * a + v.toNat % 2 ^ 8 := by
  have three (j : Nat) : Nat.testBit 3 j = decide (j < 2) := Nat.testBit_two_pow_sub_one 2 j
  have action {j : Nat} (hj : 2 ≤ j) : a.testBit j = false :=
    Nat.testBit_lt_two_pow (lt_of_lt_of_le ha (Nat.pow_le_pow_right (n := 2) (by decide) hj))
  have word {j : Nat} (hj : 10 ≤ j) : v.getLsbD j = false :=
    Nat.testBit_lt_two_pow (lt_of_lt_of_le low (Nat.pow_le_pow_right (by decide) hj))
  apply Nat.eq_of_testBit_eq
  intro i
  rw [Nat.testBit_two_pow_mul_add _ (Nat.mod_lt _ (by decide)), Nat.testBit_mod_two_pow]
  show (withAction v a).getLsbD i = if i < 8 then decide (i < 8) && v.getLsbD i else _
  rw [withAction, BitVec.getLsbD_or, BitVec.getLsbD_and, BitVec.getLsbD_not, getLsbD_put, getLsbD_put, three]
  by_cases field : i < 8
  · have : i < 36 := by omega
    have : ¬ 8 ≤ i := by omega
    simp [*]
  · by_cases top : i < 10
    · have : i < 36 := by omega
      have : 8 ≤ i := by omega
      have : i - 8 < 2 := by omega
      simp [*]
    · have := word (Nat.not_lt.mp top)
      have := action (j := i - 8) (by omega)
      simp [*]

/-- The fields of a TRW_CMD word whose ACTION is replaced. -/
theorem withAction_fields {v : W36} (low : v.toNat < 2 ^ 10) {a : Nat} (ha : a < 4) :
    hasBits (withAction v a) (bitsMask 35 10) = false ∧ fld (withAction v a) 9 8 = a ∧ fld (withAction v a) 7 5 = fld v 7 5
      ∧ fld (withAction v a) 4 0 = fld v 4 0 := by
  have word := withAction_toNat low ha
  refine ⟨?_, ?_, ?_, ?_⟩
  · rw [← Bool.not_eq_true, hasBits_bitsMask _ (by decide), fld, word]
    omega
  all_goals
    simp only [fld, word]
    omega

section
variable {s : State} {w : Who} {n : Fin 12} {k : Fin 8} {v : W36}

/-- TRW_CMD of a slot, as the Trowel sees it once it has accepted the access. -/
theorem State.isleView_cmd (s : State) (w : Who) (n : Nat) (k : Fin 8) (x : W36) :
    ((s.isleView w n (0x10000000 * 1 + (0x10C + 0x40 * k.val))).wr x).1 = (s.trwCmd w n k x).1 := by
  have place : (0x10000000 * 1 + (0x10C + 0x40 * k.val)) / 0x10000000 = 1
      ∧ (0x10000000 * 1 + (0x10C + 0x40 * k.val)) % 0x10000000 = 0x10C + 0x40 * k.val := by omega
  have slot : Fin.ofNat 8 ((0x10C + 0x40 * k.val - 0x100) / 0x40) = k := by
    revert k
    decide
  have word : (0x10C + 0x40 * k.val - 0x100) % 0x40 = 0xC := by omega
  have zero : ¬ 0x10C + 0x40 * k.val = 0 := by omega
  have four : ¬ 0x10C + 0x40 * k.val = 4 := by omega
  have block : 0x100 ≤ 0x10C + 0x40 * k.val ∧ 0x10C + 0x40 * k.val < 0x300 := by omega
  unfold State.isleView
  dsimp only
  rw [place.1, place.2]
  unfold State.isleTrw
  dsimp only
  rw [if_neg zero, if_neg four, if_pos block, slot, word]
  rfl

theorem exec_go (s : State) (w : Who) (n : Fin 12) (k : Fin 8) (v : W36) :
    exec (.go w n k v) s = .next (s.csWrite w (cmdReg n k) (withAction v 1)).1 := rfl
theorem exec_cancel (s : State) (w : Who) (n : Fin 12) (k : Fin 8) (v : W36) :
    exec (.cancel w n k v) s = .next (s.csWrite w (cmdReg n k) (withAction v 2)).1 := rfl
theorem exec_release (s : State) (w : Who) (n : Fin 12) (k : Fin 8) (v : W36) :
    exec (.release w n k v) s = .next (s.csWrite w (cmdReg n k) (withAction v 3)).1 := rfl

/-- A write of TRW_CMD: the Trowel accepts it, then does it. -/
theorem State.csWrite_cmd (h : s.isleOpen w n) (k : Fin 8) (x : W36) :
    (s.csWrite w (cmdReg n k) x).1 = ((s.trwTook n w).trwCmd w n k x).1 := by
  rw [cmdReg, State.csWrite_trw h rfl (by omega) (by omega), State.isleView_cmd]

/-- A legal word of TRW_CMD, its ACTION aside. -/
structure CmdWord (v : W36) : Prop where
  low : v.toNat < 2 ^ 10
  op : fld v 7 5 ≤ 4
  target : fld v 4 0 ≤ 24

/-- The slot that TRW_CMD leaves CLAIMED: its operation and target are written. -/
def TrwSlot.given (y : TrwSlot) (v : W36) : TrwSlot := { y with op := BitVec.ofNat 3 (fld v 7 5), target := BitVec.ofNat 5 (fld v 4 0) }

/-- GO takes the world and context of its requester (R160). -/
def TrwSlot.ready (y : TrwSlot) (v : W36) (world : Bool) (ctx : BitVec 12) : TrwSlot :=
  { y.given v with done := 0, cis := 0, pois := 0, next := 0, flight := [], ending := none, inSet := none, world, ctx }

/-- A slot that leaves the queue for a done state. -/
def TrwSlot.ended (y : TrwSlot) (st : TrwState) : TrwSlot := { y with st, flight := [], ending := none, inSet := none }

/-- The Isle with slot k as z and its queue as q. -/
def Isle.slotted (x : Isle) (k : Nat) (z : TrwSlot) (q : List (Fin 8)) : Isle := { x.setSlot k z with queue := q }

theorem State.slotEnd_eq (s : State) (n : Nat) (k : Fin 8) (st : TrwState) :
    s.slotEnd n k st = s.setIsle n ((s.isle n).slotted k (((s.isle n).slot k).ended st) ((s.isle n).queue.filter fun q => q != k)) := by
  have other : (fun q : Fin 8 => q.val != k.val) = fun q => q != k := by
    funext q
    rw [Bool.eq_iff_iff, bne_iff_ne, bne_iff_ne, ne_eq, ne_eq, Fin.ext_iff]
  rw [State.slotEnd, State.modSlot_modIsle, other]
  rfl

section
variable (ans : s.isleAnswer n (whoUmf w) = .ok) (word : CmdWord v)
include word

theorem CmdWord.legal {a : Nat} (ha : a < 4) : ¬ (hasBits (withAction v a) (bitsMask 35 10) || decide (4 < fld (withAction v a) 7 5)
    || decide (24 < fld (withAction v a) 4 0)) = true := by
  obtain ⟨rsvd, -, op, target⟩ := withAction_fields word.low ha
  have := word.op
  have := word.target
  simp only [rsvd, op, target, Bool.false_or, Bool.or_eq_true, decide_eq_true_eq]
  omega

include ans

/-- GO queues a slot that is CLAIMED (R164). -/
theorem State.trwCmd_go_queues (st : ((s.isle n).slot k).st = .claimed)
    (ok : ¬ (fld v 7 5 = 4 ∧ (s.isle n).cis.enabled (fld v 4 0) = true)) :
    (s.trwCmd w n k (withAction v 1)).1 = s.setIsle n ((s.isle n).slotted k
      { ((s.isle n).slot k).ready v (s.whoVault w) (s.whoCtx w) with st := .queued } ((s.isle n).queue ++ [k])) := by
  obtain ⟨-, action, op, target⟩ := withAction_fields word.low (a := 1) (by decide)
  unfold State.trwCmd
  dsimp only
  rw [ans, if_neg (word.legal (by decide)), op, target, action, st, if_pos rfl]
  rw [State.modSlot_cis, State.modSlot_cis, if_neg ok, State.modSlot_modSlot, State.modSlot_modSlot, State.modSlot_modIsle]
  rfl

/-- GO of an ARRAY_INVAL whose target is enabled is FAULT_TARGET (R164). -/
theorem State.trwCmd_go_faults (st : ((s.isle n).slot k).st = .claimed) (four : fld v 7 5 = 4)
    (on : (s.isle n).cis.enabled (fld v 4 0) = true) :
    (s.trwCmd w n k (withAction v 1)).1 = s.setIsle n ((s.isle n).slotted k
      { ((s.isle n).slot k).ready v (s.whoVault w) (s.whoCtx w) with st := .faultTarget } (s.isle n).queue) := by
  obtain ⟨-, action, op, target⟩ := withAction_fields word.low (a := 1) (by decide)
  unfold State.trwCmd
  dsimp only
  rw [ans, if_neg (word.legal (by decide)), op, target, action, st, if_pos rfl]
  rw [State.modSlot_cis, State.modSlot_cis, if_pos ⟨four, on⟩, State.modSlot_modSlot, State.modSlot_modSlot, State.modSlot_eq]
  rfl

/-- CANCEL takes a queued slot out of the queue at once (R164). -/
theorem State.trwCmd_cancel_queued (st : ((s.isle n).slot k).st = .queued) :
    (s.trwCmd w n k (withAction v 2)).1 = s.setIsle n ((s.isle n).slotted k (((s.isle n).slot k).ended .cancelled)
      ((s.isle n).queue.filter fun q => q != k)) := by
  obtain ⟨-, action, op, target⟩ := withAction_fields word.low (a := 2) (by decide)
  unfold State.trwCmd
  dsimp only
  rw [ans, if_neg (word.legal (by decide)), action, st]
  exact s.slotEnd_eq n k .cancelled

/-- CANCEL of the running slot stops it after what is in flight (R164). -/
theorem State.trwCmd_cancel_running (st : ((s.isle n).slot k).st = .running) :
    (s.trwCmd w n k (withAction v 2)).1 = s.setIsle n ((s.isle n).slotted k { (s.isle n).slot k with ending := some .cancelled }
      (s.isle n).queue) := by
  obtain ⟨-, action, op, target⟩ := withAction_fields word.low (a := 2) (by decide)
  unfold State.trwCmd
  dsimp only
  conv_lhs => rw [ans, if_neg (word.legal (by decide)), action, st]
  rfl

/-- RELEASE frees a slot that is CLAIMED or has a done state (R164). -/
theorem State.trwCmd_release (st : ((s.isle n).slot k).st = .claimed ∨ 4 ≤ ((s.isle n).slot k).st.num) :
    (s.trwCmd w n k (withAction v 3)).1 = s.setIsle n ((s.isle n).slotted k {} (s.isle n).queue) := by
  obtain ⟨-, action, op, target⟩ := withAction_fields word.low (a := 3) (by decide)
  unfold State.trwCmd
  dsimp only
  rw [ans, if_neg (word.legal (by decide)), action]
  rcases st with st | st
  · rw [st, if_pos rfl]
    show State.modSlot (State.modSlot s n k fun x => x.given (withAction v 3)) n k (fun _ => {}) = _
    rw [State.modSlot_modSlot]
    rfl
  · generalize ((s.isle n).slot k).st = t at st ⊢
    cases t with
    | free | claimed | queued | running => exact absurd st (by decide)
    | doneOk | doneCistern | donePoison | faultAddr | faultWorld | faultTarget | cancelled | aborted => rfl

end

end

/-! ### A slot starts (R158, R162) -/

theorem State.startRow_starts {s : State} {n : Fin 12} {k : Fin 8} (fit : s.isleFit n = true) (head : (s.isle n).queue.head? = some k)
    (st : ((s.isle n).slot k).st = .queued) {o : Nat} (op : ((s.isle n).slot k).op.toNat = o) :
    s.startRow n o = .next (s.setIsle n ((s.isle n).setSlot k { (s.isle n).slot k with st := .running })) := by
  obtain ⟨q, queue⟩ := List.head?_eq_some_iff.mp head
  rw [State.startRow, if_pos fit, State.slotStart, queue]
  dsimp only
  rw [if_pos ⟨st, op⟩]
  rfl

/-- Settles O39: each command of a slot is one write of TRW_CMD, which the Trowel accepts and then does. -/
theorem trowelSlots : Obligations.TrowelSlots := by
  intro s w n k v
  refine ⟨fun op free lower => ?_, fun op full => ?_, fun v cores strait => ?_,
    fun op low few target => ⟨fun st => ⟨fun ok => ?_, fun four on => ?_, ?_⟩, fun st => ?_, fun st => ?_, fun st => ?_⟩,
    fun fit head st => ⟨?_, ?_, ?_, ?_, ?_⟩⟩
  · rw [exec_trwClaim, State.csRead_claim op, State.trwClaim_free (k := k) (by rw [State.trwTook_slot]; exact free)
      (fun j hj => by rw [State.trwTook_slot]; exact lower j hj), State.trwTook_isle, State.trwTook_eq, State.setIsle_setIsle]
    exact ⟨rfl, rfl⟩
  · rw [exec_trwClaim, State.csRead_claim op, State.trwClaim_full (fun j hj => by rw [State.trwTook_slot]; exact full j hj)]
    exact ⟨rfl, rfl⟩
  · exact ⟨_, exec_trwClaim .., exec_trwClaim_two s cores strait w v (.inl ⟨rfl, rfl⟩),
      exec_trwClaim_two s cores strait v w (.inr ⟨rfl, rfl⟩)⟩
  · have fits : ¬ (fld v 7 5 = 4 ∧ ((s.trwTook n w).isle n).cis.enabled (fld v 4 0) = true) := by
      rw [State.trwTook_cis]
      rintro ⟨four, on⟩
      simp [four, on] at ok
    rw [exec_go, State.csWrite_cmd op, State.trwCmd_go_queues (State.trwTook_answer op) ⟨low, few, target⟩
      (by rw [State.trwTook_slot]; exact st) fits, State.trwTook_isle, State.trwTook_eq, State.setIsle_setIsle]
    rfl
  · rw [exec_go, State.csWrite_cmd op, State.trwCmd_go_faults (State.trwTook_answer op) ⟨low, few, target⟩
      (by rw [State.trwTook_slot]; exact st) four (by rw [State.trwTook_cis]; exact on), State.trwTook_isle, State.trwTook_eq,
      State.setIsle_setIsle]
    rfl
  · rw [exec_release, State.csWrite_cmd op, State.trwCmd_release (State.trwTook_answer op) ⟨low, few, target⟩
      (by rw [State.trwTook_slot]; exact .inl st), State.trwTook_isle, State.trwTook_eq, State.setIsle_setIsle]
    rfl
  · rw [exec_cancel, State.csWrite_cmd op, State.trwCmd_cancel_queued (State.trwTook_answer op) ⟨low, few, target⟩
      (by rw [State.trwTook_slot]; exact st), State.trwTook_isle, State.trwTook_eq, State.setIsle_setIsle]
    rfl
  · rw [exec_cancel, State.csWrite_cmd op, State.trwCmd_cancel_running (State.trwTook_answer op) ⟨low, few, target⟩
      (by rw [State.trwTook_slot]; exact st), State.trwTook_isle, State.trwTook_eq, State.setIsle_setIsle]
    rfl
  · rw [exec_release, State.csWrite_cmd op, State.trwCmd_release (State.trwTook_answer op) ⟨low, few, target⟩
      (by rw [State.trwTook_slot]; exact .inr st), State.trwTook_isle, State.trwTook_eq, State.setIsle_setIsle]
    rfl
  all_goals
    intro code
    exact State.startRow_starts fit head st (congrArg BitVec.toNat code)

end Sys2Proof.Machine

/-! The Trowel's running slot: its lines, their completions, and its end (R158 to R161, R164). -/

namespace Sys2Proof.Machine

/-- The message that a Trowel slot sends for line l (R160). -/
def trwMsg (n : Nat) (y : TrwSlot) (l : Nat) : Msg :=
  { ty := .trw, src := BitVec.ofNat 4 n, dst := 15, tag := BitVec.ofNat 9 (64 + y.next % 64)
    line := BitVec.ofNat 46 l, world := y.world, ctx := y.ctx, op := y.op.setWidth 5 }

theorem TrwSlot.op_ne_four {y : TrwSlot} (range : y.op.toNat < 4) : y.op ≠ 4 := by
  rintro four
  rw [four] at range
  exact absurd range (by decide)

theorem State.modSlot_slot (s : State) (n k : Nat) (f : TrwSlot → TrwSlot) :
    ((s.modSlot n k f).isle n).slot k = f ((s.isle n).slot k) := by
  rw [State.modSlot_isle, Isle.slot_setSlot]

theorem State.send_isle (s : State) (m : Msg) (n : Nat) : (s.send m).isle n = s.isle n := by
  unfold State.send
  split <;> rfl

theorem Isle.slotted_setSlot (x : Isle) (k : Nat) (y z : TrwSlot) (q : List (Fin 8)) :
    (x.setSlot k y).slotted k z q = x.slotted k z q := by
  rw [Isle.slotted, Isle.setSlot_setSlot]
  rfl

/-! ### When a slot ends (R161) -/

section
variable {s : State} {n : Nat} {k : Fin 8}

theorem State.slotSettle_busy (flying : ((s.isle n).slot k).flight ≠ []) : s.slotSettle n k = s := by
  unfold State.slotSettle
  dsimp only
  rw [if_pos]
  simpa using .inl flying

theorem State.slotSettle_more (range : ((s.isle n).slot k).op ≠ 4) (on : ((s.isle n).slot k).ending = none)
    (more : ((s.isle n).slot k).next ≤ ((s.isle n).slot k).len.toNat) : s.slotSettle n k = s := by
  unfold State.slotSettle
  dsimp only
  rw [on]
  exact ite_eq_left_iff.mpr fun _ => (if_neg range).trans (if_pos more)

theorem State.slotSettle_doneOk (range : ((s.isle n).slot k).op ≠ 4) (on : ((s.isle n).slot k).ending = none)
    (done : ((s.isle n).slot k).len.toNat < ((s.isle n).slot k).next) (empty : ((s.isle n).slot k).flight = [])
    (pois : ((s.isle n).slot k).pois = 0) (cis : ((s.isle n).slot k).cis = 0) : s.slotSettle n k = s.slotEnd n k .doneOk := by
  unfold State.slotSettle
  dsimp only
  rw [on, empty, pois, cis, if_neg (by decide)]
  dsimp only
  rw [if_neg range, if_neg (Nat.not_le.mpr done)]
  rfl

/-! ### One line (R159, R160) -/

variable (room : ((s.isle n).slot k).next ≤ ((s.isle n).slot k).len.toNat)
include room

/-- A line of coherent memory that the slot's world reaches, and that no eviction holds, is asked for. -/
theorem State.lineIssue_sends {l : Nat} (line : l = ((s.isle n).slot k).start + ((s.isle n).slot k).next)
    (memory : paClass (l * 64) = .dram ∨ paClass (l * 64) = .window) (coherent : s.coherent (BitVec.ofNat 46 l) = true)
    (world : ((s.isle n).slot k).world = true ∨ inVault s.worlds.regions (l * 64) = false)
    (win : ∀ w, s.cxlWin (BitVec.ofNat 46 l) = some w → s.winRefuses w ((s.isle n).slot k).world = false)
    (calm : ((s.isle n).line l).st ≠ .miA ∧ ((s.isle n).line l).st ≠ .eiA) :
    s.lineIssue n k = (s.modSlot n k fun x => { x with next := x.next + 1, flight := x.flight ++ [l] }).send
      (trwMsg n ((s.isle n).slot k) l) := by
  have inside : ¬ (!((s.isle n).slot k).world && inVault s.worlds.regions (l * 64)) = true := by
    rcases world with h | h <;> simp [h]
  have allowed : ¬ ((s.cxlWin (BitVec.ofNat 46 l)).map fun w => s.winRefuses w ((s.isle n).slot k).world).getD false = true := by
    cases h : s.cxlWin (BitVec.ofNat 46 l) with
    | none => simp
    | some w => simp [win w h]
  have still : ¬ (((s.isle n).line l).st = .miA ∨ ((s.isle n).line l).st = .eiA) := not_or.mpr calm
  unfold State.lineIssue
  dsimp only
  rw [if_neg (Nat.not_lt.mpr room), ← line]
  rcases memory with h | h <;>
  · rw [h]
    dsimp only
    rw [if_neg (by simp [coherent]), if_neg inside, if_neg allowed, if_neg still]
    rfl

/-- A line of a Cistern is skipped and counted. -/
theorem State.lineIssue_cistern {l i o : Nat} (line : l = ((s.isle n).slot k).start + ((s.isle n).slot k).next)
    (cistern : paClass (l * 64) = .cistern i o) (fit : s.isleFit i = true) :
    s.lineIssue n k = s.modSlot n k fun x => { x with next := x.next + 1, done := x.done + 1, cis := x.cis + 1 } := by
  unfold State.lineIssue
  dsimp only
  rw [if_neg (Nat.not_lt.mpr room), ← line, cistern]
  exact if_pos fit

/-- A line of no memory ends the range. -/
theorem State.lineIssue_nowhere {l : Nat} (line : l = ((s.isle n).slot k).start + ((s.isle n).slot k).next)
    (nowhere : paClass (l * 64) = .control ∨ paClass (l * 64) = .unmapped) :
    s.lineIssue n k = s.modSlot n k fun x => { x with ending := some .faultAddr } := by
  unfold State.lineIssue
  dsimp only
  rw [if_neg (Nat.not_lt.mpr room), ← line]
  rcases nowhere with h | h <;> rw [h]

end

/-! ### The rows of the running slot -/

section
variable {s : State} {n : Fin 12} {k : Fin 8} (fit : s.isleFit n = true) (head : (s.isle n).queue.head? = some k)
  (running : ((s.isle n).slot k).st = .running)
include fit head running

theorem State.runSlot_head : (if s.isleFit n then s.runSlot n else none) = some k := by
  rw [if_pos fit, State.runSlot, head]
  simp [running]

theorem exec_trowelLineIssue (range : ((s.isle n).slot k).op.toNat < 4) (on : ((s.isle n).slot k).ending = none)
    (few : ((s.isle n).slot k).flight.length < 64) :
    exec (.trowelLineIssue n) s = .next ((s.lineIssue n k).slotSettle n k) := by
  show execTrowelLineIssue n s = _
  rw [execTrowelLineIssue, State.runSlot_head fit head running]
  dsimp only
  rw [if_neg (by simpa using few), on, if_neg (by simp), if_neg (by simp), if_neg (TrwSlot.op_ne_four range)]

theorem exec_trowelLineDone {m : Msg} (range : ((s.isle n).slot k).op.toNat < 4) (reply : s.trwReply n = some m) (ok : m.resp = 0) :
    exec (.trowelLineDone n) s = .next (({ s with replies := s.replies.erase m }.modSlot n k fun x =>
      { x with flight := x.flight.erase m.line.toNat, done := x.done + 1 }).slotSettle n k) := by
  show execTrowelLineDone n s = _
  rw [execTrowelLineDone, State.runSlot_head fit head running]
  dsimp only
  rw [if_neg (TrwSlot.op_ne_four range), reply]
  dsimp only
  rw [ok]
  rfl

theorem exec_cancelledDone (cancel : ((s.isle n).slot k).ending = some .cancelled) (empty : ((s.isle n).slot k).flight = [])
    (set : s.setLeft n ((s.isle n).slot k) = false) : exec (.cancelledDone n) s = .next (s.slotEnd n k .cancelled) := by
  show execCancelledDone n s = _
  rw [execCancelledDone, State.runSlot_head fit head running]
  dsimp only
  rw [if_pos (by simp [cancel, empty, set])]

end

/-! ### The end of an ARRAY_INVAL (R148, R161) -/

/-- An array whose ways are all empty has none left for the walk of an ARRAY_INVAL. -/
theorem State.arrayNext_none {s : State} {n : Nat} {y : TrwSlot}
    (empty : (if y.target.toNat < 24 then (s.core (n * 24 + y.target.toNat)).l2 else (s.isle n).ic).all (fun e => e.2.valid == 0) = true) :
    s.arrayNext n y = none := by
  have none (e : Nat × Way) (h : (e.2.valid == 0) = true) : ¬ (e.2.valid != 0) = true := by simpa using h
  unfold State.arrayNext
  dsimp only
  rw [List.find?_eq_none]
  rw [List.all_eq_true] at empty
  split at empty
  next l2 =>
    rw [if_pos l2]
    exact fun e he => none e (empty e he)
  next ic =>
    rw [if_neg ic]
    exact fun e he => none e (empty e (List.mem_filter.mp he).1)

/-- The Isle whose slot k has ended the ARRAY_INVAL of a cache: the cache counts as cleared (R148). -/
def Isle.arrayDone (x : Isle) (k : Fin 8) : Isle :=
  { x.slotted k ((x.slot k).ended .doneOk) (x.queue.filter fun q => q != k) with
    cis := { x.cis with cleared := x.cis.cleared ||| ((1 : BitVec 25) <<< (x.slot k).target.toNat) } }

theorem State.arrayStep_done {s : State} {n : Nat} {k : Fin 8} (none : s.arrayNext n ((s.isle n).slot k) = none)
    (empty : ((s.isle n).slot k).flight = []) : s.arrayStep n k = s.setIsle n ((s.isle n).arrayDone k) := by
  unfold State.arrayStep
  dsimp only
  rw [none]
  dsimp only
  rw [empty, if_pos (by rfl), State.slotEnd_eq, State.modIsle_eq, State.isle_setIsle, State.setIsle_setIsle]
  rfl

/-- A slot with a done state does not run. -/
theorem State.runSlot_ended {s : State} {n : Nat} {k : Fin 8} (ended : ((s.isle n).slot k).st = .doneOk) : s.runSlot n ≠ some k := by
  intro run
  have := (Option.filter_eq_some_iff.mp run).2
  rw [ended] at this
  exact absurd this (by decide)

theorem exec_arrayInvalDone {s : State} {n : Fin 12} {k : Fin 8} (fit : s.isleFit n = true) (head : (s.isle n).queue.head? = some k)
    (running : ((s.isle n).slot k).st = .running) (op : ((s.isle n).slot k).op = 4) (on : ((s.isle n).slot k).ending = none)
    (empty : ((s.isle n).slot k).flight = []) (none : s.arrayNext n ((s.isle n).slot k) = none) :
    exec (.arrayInvalDone n) s = .next (s.setIsle n ((s.isle n).arrayDone k)) := by
  have run : s.runSlot n = some k := by
    have := State.runSlot_head fit head running
    rwa [if_pos fit] at this
  have slot : (((s.isle n).arrayDone k).slot k) = ((s.isle n).slot k).ended .doneOk :=
    Isle.slot_setSlot (s.isle n) k (((s.isle n).slot k).ended .doneOk)
  have landed : (s.setIsle n ((s.isle n).arrayDone k)).arrayFlight n k = s.setIsle n ((s.isle n).arrayDone k) := by
    unfold State.arrayFlight
    rw [State.isle_setIsle, slot]
    rfl
  have stopped (fuel : Nat) : (s.setIsle n ((s.isle n).arrayDone k)).arrayWalk n k fuel = s.setIsle n ((s.isle n).arrayDone k) := by
    cases fuel with
    | zero => rfl
    | succ fuel => exact if_neg (State.runSlot_ended (by rw [State.isle_setIsle, slot]; rfl))
  have walk (fuel : Nat) : s.arrayWalk n k (fuel + 1) = s.setIsle n ((s.isle n).arrayDone k) := by
    rw [State.arrayWalk, if_pos run, State.arrayStep_done none empty, landed, stopped]
  show execArrayInvalDone n s = _
  rw [execArrayInvalDone, fit, Bool.not_true, if_neg Bool.false_ne_true, run]
  dsimp only
  rw [if_neg (by simp [op, on]), walk]

/-- Settles O40: each row of the running slot issues, counts or ends, and then the slot ends if nothing is left of it. -/
theorem trowelLines : Obligations.TrowelLines := by
  intro s n k m x y l off fit head running
  refine ⟨fun range on few room => ⟨fun memory coherent world win miA eiA => ?_, fun i o cistern there more => ?_,
    fun nowhere flying => ?_⟩, fun range reply ok => ⟨fun room on => ?_, fun done flight on pois cis => ?_⟩,
    fun cancel empty set => ?_, fun op on empty none => ?_⟩
  · rw [exec_trowelLineIssue fit head running range on few, State.lineIssue_sends room rfl memory coherent world win ⟨miA, eiA⟩,
      State.slotSettle_busy]
    · rfl
    · rw [State.send_isle, State.modSlot_slot]
      simp
  · rw [exec_trowelLineIssue fit head running range on few, State.lineIssue_cistern room rfl cistern there, State.slotSettle_more]
    · rfl
    · rw [State.modSlot_slot]
      exact TrwSlot.op_ne_four range
    · rw [State.modSlot_slot]
      exact on
    · rw [State.modSlot_slot]
      exact more
  · rw [exec_trowelLineIssue fit head running range on few, State.lineIssue_nowhere room rfl nowhere, State.slotSettle_busy]
    · rfl
    · rw [State.modSlot_slot]
      exact flying
  · rw [exec_trowelLineDone fit head running range reply ok, State.slotSettle_more]
    · rfl
    · rw [State.modSlot_slot]
      exact TrwSlot.op_ne_four range
    · rw [State.modSlot_slot]
      exact on
    · rw [State.modSlot_slot]
      exact room
  · have last : y.flight.erase m.line.toNat = [] := by rw [flight, List.erase_cons_head]
    rw [exec_trowelLineDone fit head running range reply ok, State.slotSettle_doneOk, State.slotEnd_eq, State.modSlot_slot]
    · rw [TrwSlot.ended, ← on, State.modSlot_eq, State.isle_setIsle, State.setIsle_setIsle, Isle.slotted_setSlot]
      rfl
    · rw [State.modSlot_slot]
      exact TrwSlot.op_ne_four range
    · rw [State.modSlot_slot]
      exact on
    · rw [State.modSlot_slot]
      exact done
    · rw [State.modSlot_slot]
      exact last
    · rw [State.modSlot_slot]
      exact pois
    · rw [State.modSlot_slot]
      exact cis
  · rw [exec_cancelledDone fit head running cancel empty set, State.slotEnd_eq, TrwSlot.ended, ← empty]
    rfl
  · rw [exec_arrayInvalDone fit head running op on empty (State.arrayNext_none none), Isle.arrayDone, TrwSlot.ended, ← empty, ← on]
    rfl

end Sys2Proof.Machine

/-! Messages at agents and homes: grants, data, completions, BUSY and tokens, snoop answers, and the end of a purge (R147, R176, R182,
R185, R187, R192, R193, R196, R202). -/

namespace Sys2Proof.Machine

/-! ### A message that comes -/

section
variable (s : State) (m : Msg)

theorem State.arrived_home : (s.arrived m).home = s.home := by
  obtain ⟨_, _, h⟩ := s.arrived_eq m
  rw [h]

theorem State.arrived_replies : (s.arrived m).replies = s.replies := by
  obtain ⟨_, _, h⟩ := s.arrived_eq m
  rw [h]

theorem State.arrived_isleFit (n : Nat) : (s.arrived m).isleFit n = s.isleFit n := by
  obtain ⟨_, _, h⟩ := s.arrived_eq m
  rw [h]
  rfl

theorem State.arrived_agentFit (a : BitVec 4) : (s.arrived m).agentFit a = s.agentFit a := by
  obtain ⟨_, _, h⟩ := s.arrived_eq m
  rw [h]
  rfl

end

section
variable {s : State} {m : Msg}

theorem State.arrive_comes (h : s.comes m) (f : State → State) : s.arrive m f = .next (f (s.arrived m)) := by
  rw [State.arrive, h.1, h.2]
  rfl

theorem State.toIsle_comes (h : s.comes m) (fit : s.isleFit m.dst.toNat = true) (f : State → Nat → State) :
    s.toIsle m f = .next (f (s.arrived m) m.dst.toNat) := by
  rw [State.toIsle, State.arrive_comes h, State.arrived_isleFit, if_pos fit]

/-- An answer other than an Isle's CMP is kept for its issuer. -/
theorem State.toIssuer_keeps (h : s.comes m) (fit : s.agentFit m.dst = true) (other : ¬ (m.dst.toNat < 12 ∧ m.ty = .cmp))
    (new : m ∉ s.replies) : s.toIssuer m = .next { s.arrived m with replies := s.replies ++ [m] } := by
  rw [State.toIssuer, State.arrive_comes h, State.arrived_agentFit, fit, State.arrived_replies, Bool.not_true,
    if_neg Bool.false_ne_true, if_neg other, if_neg (by simpa using new)]

theorem State.toIssuer_isle (h : s.comes m) (isle : m.dst.toNat < 12) (fit : s.isleFit m.dst.toNat = true) (cmp : m.ty = .cmp) :
    s.toIssuer m = .next ((s.arrived m).recvCmp m.dst.toNat m) := by
  have fit' : s.agentFit m.dst = true := by rw [State.agentFit, if_pos isle, fit]
  rw [State.toIssuer, State.arrive_comes h, State.arrived_agentFit, fit', Bool.not_true, if_neg Bool.false_ne_true, if_pos ⟨isle, cmp⟩]

end

/-! ### What an Isle's agent makes of it (R147, R185, R187) -/

section
variable {s : State} {i : Nat} {m : Msg}

/-- The request that a PFH has its Isle send (R147, R176). -/
def pfhRequest (m : Msg) : Msg :=
  { ty := .rds, src := m.dst, dst := 15, tag := if m.strm then 129 else 128, line := m.line, world := m.world, ctx := m.ctx
    strm := m.strm }

theorem pfhRequest_eq (m : Msg) : { isleMsg .rds m.dst.toNat m.line.toNat (if m.strm then 129 else 128) m.world m.ctx with
    strm := m.strm } = pfhRequest m := by
  rw [isleMsg, BitVec.ofNat_toNat, BitVec.ofNat_toNat, BitVec.setWidth_eq, BitVec.setWidth_eq]
  rfl

theorem State.recvPfh_asks (dst : i = m.dst.toNat) (on : (s.isle i).cis.icen = true) (walk : s.home.drop.getLsbD i = false)
    (empty : ((s.isle i).line m.line.toNat).st = .i) :
    s.recvPfh i m = (s.setIsle i ((s.isle i).setLine m.line.toNat { (s.isle i).line m.line.toNat with
      st := .isD, wasO := false, gotData := none, grant := none, tag := if m.strm then 129 else 128 })).send (pfhRequest m) := by
  unfold State.recvPfh State.icOn
  dsimp only
  rw [on, walk, empty, if_neg (by decide), dst, pfhRequest_eq, State.sendFill]
  dsimp only [pfhRequest, waitState]
  rw [← dst, empty]
  rfl

/-- What is won for a thread or for the Trowel fills no cache by itself. -/
theorem State.prefWon_own (s : State) (i n : Nat) {tag : BitVec 9} (own : tag.toNat < 128) : s.prefWon i n tag = s := by
  have h128 : tag.toNat ≠ 128 := by omega
  have h129 : tag.toNat ≠ 129 := by omega
  have h130 : ¬ (130 ≤ tag.toNat ∧ tag.toNat < 226) := by omega
  unfold State.prefWon State.prefTake
  dsimp only
  rw [if_neg h128, if_neg h129, if_neg h130]
  rfl

/-- The line of an agent that has won it (R185, R188). -/
def AgentLine.won (a : AgentLine) (st : Moesi) (v : LineVal) : AgentLine :=
  { a with st := stateOf st, val := v, window := true, gotData := none, grant := none, wasO := false }

/-- The Isle without what its caches held of line n untracked. -/
def Isle.fresh (x : Isle) (n : Nat) : Isle := { x with old := sset none x.old n none, dataErr := dropErrs x.dataErr n }

/-- A core loses what its L2 held of line n untracked. -/
def State.dropOld (s : State) (i n c : Nat) : State :=
  if (sget none (s.core (i * 24 + c)).old n).isSome then s.modCore (i * 24 + c) fun x => dropCore x n else s

theorem State.dropOld_eq (s : State) (i n c : Nat) : ∃ cores, s.dropOld i n c = { s with cores } := by
  unfold State.dropOld
  split
  · exact ⟨_, rfl⟩
  · exact ⟨_, rfl⟩

theorem State.dropOlds_eq (s : State) (i n : Nat) (cs : List Nat) :
    ∃ cores, cs.foldl (fun s c => s.dropOld i n c) s = { s with cores } := by
  induction cs generalizing s with
  | nil => exact ⟨_, rfl⟩
  | cons c cs ih =>
    obtain ⟨cores, first⟩ := s.dropOld_eq i n c
    obtain ⟨cores', rest⟩ := ih (s.dropOld i n c)
    exact ⟨cores', rest.trans (by rw [first])⟩

/-- A line won for a thread or for the Trowel: the agent takes it, and no cache keeps what it held of it untracked. -/
theorem State.win_own {n : Nat} (own : ((s.isle i).line n).tag.toNat < 128) (st : Moesi) (v : LineVal) :
    ∃ cores, s.win i n st v
      = { s.setIsle i (((s.isle i).setLine n (((s.isle i).line n).won st v)).fresh n) with cores } := by
  have won : s.win i n st v = (List.range 24).foldl (fun s c => s.dropOld i n c)
      (s.setIsle i (((s.isle i).setLine n (((s.isle i).line n).won st v)).fresh n)) := by
    unfold State.win
    dsimp only
    rw [State.prefWon_own _ _ _ own, State.modIsle_eq, State.modIsle_eq, State.isle_setIsle, State.setIsle_setIsle]
    rfl
  obtain ⟨cores, rest⟩ := State.dropOlds_eq (s.setIsle i (((s.isle i).setLine n (((s.isle i).line n).won st v)).fresh n)) i n (List.range 24)
  exact ⟨cores, won.trans rest⟩

theorem Isle.fresh_setLine (x : Isle) (n : Nat) (a : AgentLine) : ((x.setLine n a).fresh n).line n = a := sget_sset_same ..

theorem State.recvGnt_wins (ok : m.resp = 0) (data : m.hasData = true)
    (waits : ((s.isle i).line m.line.toNat).st = .isD ∨ ((s.isle i).line m.line.toNat).st = .imD) :
    s.recvGnt i m = s.win i m.line.toNat m.st { bits := m.data, poison := m.poison } := by
  unfold State.recvGnt
  dsimp only
  rw [if_neg (not_not.mpr ok)]
  rcases waits with st | st <;> rw [st] <;> exact if_pos data

theorem State.recvDat_keeps (waits : ((s.isle i).line m.line.toNat).st = .isD ∨ ((s.isle i).line m.line.toNat).st = .imD)
    (none : ((s.isle i).line m.line.toNat).grant = none) :
    s.recvDat i m = s.setIsle i ((s.isle i).setLine m.line.toNat { (s.isle i).line m.line.toNat with
      gotData := some { bits := m.data, poison := m.poison } }) := by
  unfold State.recvDat
  dsimp only
  rw [if_pos waits, none]
  rfl

theorem State.recvCmp_answer (tag : m.tag ≠ 256) : s.recvCmp i m = { s with replies := s.replies ++ [m] } := if_neg tag

theorem State.recvCmp_evicted (tag : m.tag = 256)
    (waits : ((s.isle i).line m.line.toNat).st = .miA ∨ ((s.isle i).line m.line.toNat).st = .eiA) :
    s.recvCmp i m = (s.setIsle i ((s.isle i).setLine m.line.toNat
      { deferred := ((s.isle i).line m.line.toNat).deferred })).retryFills i := by
  unfold State.recvCmp
  dsimp only
  rw [if_pos (show m.tag = tagEvict from tag), if_pos waits]
  rfl

end

/-! ### Entries and transactions of a home (R179, R181) -/

section
variable (s : State) (n : LineNo) (t : Txn)

theorem State.txn_setTxn : (s.setTxn n t).txn n = some t := by
  have kept : ((fun p : Nat × Txn => p.1 == n.toNat) ∘ fun p => if p.1 = n.toNat then (p.1, t) else p) = fun p => p.1 == n.toNat := by
    funext p
    rw [Function.comp_apply]
    split <;> rfl
  unfold State.setTxn State.txn
  dsimp only
  split
  next listed =>
    obtain ⟨p, hp, same⟩ := List.any_eq_true.mp listed
    obtain ⟨q, found⟩ := Option.isSome_iff_exists.mp
      ((List.find?_isSome (p := fun p : Nat × Txn => p.1 == n.toNat)).mpr ⟨p, hp, same⟩)
    have here : q.1 = n.toNat := by simpa using List.find?_some found
    rw [List.find?_map, kept, found, Option.map_some, if_pos here]
    rfl
  next new =>
    have none : s.home.txns.find? (fun p => p.1 == n.toNat) = none :=
      List.find?_eq_none.mpr fun p hp same => new (List.any_eq_true.mpr ⟨p, hp, same⟩)
    rw [List.find?_append, none]
    simp

theorem State.txn_dropTxn : (s.dropTxn n).txn n = none := by
  unfold State.dropTxn State.txn
  simp

theorem State.txn_setEntry (e : Entry) : (s.setEntry n e).txn n = s.txn n := rfl

theorem State.txn_send (m : Msg) : (s.send m).txn n = s.txn n := by
  unfold State.send
  split <;> rfl

theorem State.entry_send (m : Msg) : (s.send m).entry n = s.entry n := by
  unfold State.send
  split <;> rfl

theorem State.entry_setTxn : (s.setTxn n t).entry n = s.entry n := rfl

variable {s} in
theorem State.entry_setEntry {e : Entry} (listed : e.st ≠ .i) : (s.setEntry n e).entry n = e := by
  unfold State.setEntry State.entry
  dsimp only
  rw [if_neg listed, sget_sset_same]

theorem State.reserve_eq (k : Nat) (r : Resource) : ∃ slices, s.reserve k r = { s with home := { s.home with slices } } := by
  unfold State.reserve
  split
  · exact ⟨_, rfl⟩
  · exact ⟨_, rfl⟩

end

/-! ### A transaction whose answers have all come (R181, R182) -/

/-- Nothing is awaited for the grant of a transaction that stands for itself. -/
structure Txn.ready (t : Txn) : Prop where
  held : t.held = false
  granted : t.granted = false
  waits : t.waits = 0
  gone : t.gone = false
  memWait : t.memWait = false
  evict : t.evict = none
  recallFor : t.recallFor = none
  data : needsData t = false

section
variable {s : State} {n : LineNo} {t : Txn}

theorem State.progress_grants (awaits : s.txn n = some t) (h : t.ready)
    (granted : (s.grant n t).txn n = some { t with granted := true }) : s.progress n = s.grant n t := by
  obtain ⟨held, new, waits, gone, memWait, evict, -, data⟩ := h
  have go : (!t.granted && grantWaits t == 0 && !t.gone && !t.memWait) = true := by
    simp [new, waits, gone, memWait, evict, grantWaits]
  unfold State.progress
  rw [awaits]
  dsimp only
  rw [held, if_neg Bool.false_ne_true, if_pos go, data, if_neg Bool.false_ne_true, granted]
  rfl

/-- The transaction is granted and closes: what it leaves for others is reserved. -/
theorem State.settle_grants (awaits : s.txn n = some t) (h : t.ready)
    (granted : (s.grant n t).txn n = some { t with granted := true }) :
    ∃ slices, s.settle n = { (s.grant n t).dropTxn n with home := { ((s.grant n t).dropTxn n).home with slices } } := by
  have closes : ({ t with granted := true }.granted && { t with granted := true }.waits == 0 && !{ t with granted := true }.gone) = true := by
    simp [h.waits, h.gone]
  have closed : (s.grant n t).close n = (((s.grant n t).dropTxn n).reserve ((s.grant n t).homeSlice n)
      (.dirSet (((s.grant n t).dropTxn n).dirSet n))).reserve ((s.grant n t).homeSlice n) .table := by
    unfold State.close
    rw [granted]
    dsimp only
    rw [closes, h.evict, h.recallFor]
    rfl
  have settled : s.settle n = (s.grant n t).close n := by
    unfold State.settle
    rw [State.progress_grants awaits h granted]
    dsimp only
    rw [granted]
    dsimp only
    rw [h.recallFor]
  obtain ⟨slices, first⟩ := ((s.grant n t).dropTxn n).reserve_eq ((s.grant n t).homeSlice n) (.dirSet (((s.grant n t).dropTxn n).dirSet n))
  obtain ⟨slices', second⟩ := (((s.grant n t).dropTxn n).reserve ((s.grant n t).homeSlice n)
      (.dirSet (((s.grant n t).dropTxn n).dirSet n))).reserve_eq ((s.grant n t).homeSlice n) .table
  refine ⟨slices', ?_⟩
  rw [settled, closed, second, first]

theorem State.settle_gone (awaits : s.txn n = some t) (gone : t.gone = true) (granted : t.granted = false) (alone : t.recallFor = none) :
    s.settle n = s := by
  have still : s.progress n = s := by
    unfold State.progress
    rw [awaits]
    dsimp only
    split
    · rfl
    · rw [gone, Bool.not_true, Bool.and_false, Bool.false_and, if_neg Bool.false_ne_true, awaits]
      dsimp only
      rw [gone, Bool.not_true, Bool.and_false, Bool.false_and, Bool.false_and, if_neg Bool.false_ne_true]
  unfold State.settle
  rw [still]
  dsimp only
  rw [awaits]
  dsimp only
  rw [alone]
  dsimp only
  unfold State.close
  rw [awaits]
  dsimp only
  rw [granted, Bool.false_and, Bool.false_and]
  rfl

/-- The grant of an upgrade (R182). -/
theorem State.grant_upg (upg : t.req.ty = .upg) (mask : s.home.mask.getLsbD t.req.src.toNat = true)
    (absent : t.absent = false) (left : t.left = false) (st : t.ownerSt = none) :
    s.grant n t = ((s.setTxn n { t with granted := true }).setEntry n (newOwner (s.entry n) t.req.src (s.entry n).way false)).send
      (grantMsg t.req .m none) := by
  have after : afterOwner (s.entry n) t = s.entry n := by
    rw [afterOwner, left, st, if_neg Bool.false_ne_true]
  have mask' : (s.setTxn n { t with granted := true }).home.mask.getLsbD t.req.src.toNat = true := mask
  unfold State.grant
  dsimp only
  rw [after, mask', Bool.not_true, Bool.and_false, Bool.false_and, if_neg Bool.false_ne_true, absent, if_neg Bool.false_ne_true, upg]

/-- The completion of an uncached read from its owner (R182). -/
theorem State.grant_rdn (rdn : t.req.ty = .rdn) (absent : t.absent = false) {v : LineVal} (data : t.data = some v) (good : v.poison = false)
    (after : afterOwner (s.entry n) t = s.entry n) :
    s.grant n t = ((s.setTxn n { t with granted := true }).setEntry n (s.entry n)).send (cmpMsg t.req .ok (some v.bits)) := by
  unfold State.grant
  dsimp only
  rw [after, rdn, show needsEntry .rdn = false from rfl, Bool.and_false, if_neg Bool.false_ne_true, absent, if_neg Bool.false_ne_true,
    data]
  dsimp only
  rw [Option.getD_some, good, if_neg Bool.false_ne_true]

theorem State.send_net {g : Msg} (low : g.dst.toNat < 12) : (s.send g).net = s.net ++ [g] := by
  have isle : decide (12 ≤ g.dst.toNat) = false := decide_eq_false (Nat.not_le.mpr low)
  rw [State.send, isle, Bool.false_and, if_neg Bool.false_ne_true]

/-- A transaction that is granted by one message to an Isle is closed, and its line has the granted entry. -/
theorem State.settle_sends {g : Msg} {e : Entry} (awaits : s.txn n = some t) (h : t.ready)
    (grants : s.grant n t = ((s.setTxn n { t with granted := true }).setEntry n e).send g) (listed : e.st ≠ .i)
    (low : g.dst.toNat < 12) :
    (s.settle n).net = s.net ++ [g] ∧ (s.settle n).txn n = none ∧ (s.settle n).entry n = e := by
  have granted : (s.grant n t).txn n = some { t with granted := true } := by
    rw [grants, State.txn_send, State.txn_setEntry, State.txn_setTxn]
  obtain ⟨slices, closed⟩ := State.settle_grants awaits h granted
  rw [closed]
  refine ⟨?_, State.txn_dropTxn .., ?_⟩
  · show (s.grant n t).net = _
    rw [grants, State.send_net low]
    rfl
  · show (s.grant n t).entry n = _
    rw [grants, State.entry_send, State.entry_setEntry n listed]

end

/-! ### Answers to snoops (R182, R187, R196) -/

/-- Of the answers awaited the last one has come. -/
theorem agentBit_cleared (a : BitVec 4) : (1#16 <<< a.toNat) &&& ~~~agentBit a = 0 := BitVec.and_not_self _

theorem agentBit_awaited (a : BitVec 4) : (1#16 <<< a.toNat).getLsbD a.toNat = true := by
  have := a.isLt
  rw [show (1#16 : BitVec 16) = (1 : BitVec 16) from rfl, getLsbD_one_shiftLeft _ _ (by omega), decide_eq_true rfl]

section
variable {s : State} {m r : Msg}

theorem State.homeAnswer_stray (stray : s.txn m.line = none) : s.homeAnswer m = s := by
  rw [State.homeAnswer, stray]

theorem State.homeAnswer_ack (ack : m.ty = .ack) (waits : s.txn m.line = some { req := r, waits := 1#16 <<< m.src.toNat }) :
    s.homeAnswer m = (s.setTxn m.line { req := r }).settle m.line := by
  unfold State.homeAnswer
  dsimp only
  rw [waits]
  dsimp only
  rw [agentBit_awaited, agentBit_cleared, ack]
  rfl

/-- The transaction of request r for which answer m of the owner has brought the line. -/
def suppliedTxn (m r : Msg) : Txn :=
  { req := r, owner := some m.src, data := some { bits := m.data, poison := m.poison }, dirty := m.st == .i || r.ty == .trw
    ownerSt := some m.st }

/-- An owner that keeps the line as M or E stays its owner. -/
theorem afterOwner_supplied {m : Msg} (e : Entry) (r : Msg) (st : m.st = .m ∨ m.st = .e) : afterOwner e (suppliedTxn m r) = e := by
  unfold afterOwner
  rcases st with st | st <;> rw [show (suppliedTxn m r).ownerSt = some m.st from rfl, st] <;> rfl

theorem State.homeAnswer_ackd (ackd : m.ty = .ackd)
    (waits : s.txn m.line = some { req := r, waits := 1#16 <<< m.src.toNat, owner := some m.src }) :
    s.homeAnswer m = (s.setTxn m.line (suppliedTxn m r)).settle m.line := by
  unfold State.homeAnswer
  dsimp only
  rw [waits]
  dsimp only
  rw [agentBit_awaited, agentBit_cleared, ackd, Bool.false_or]
  rfl

theorem State.homeAnswer_gone (gone : m.ty = .gone)
    (waits : s.txn m.line = some { req := r, waits := 1#16 <<< m.src.toNat, owner := some m.src }) :
    ∃ slices, s.homeAnswer m = ({ s with home := { s.home with slices } }.setTxn m.line
      { req := r, waits := 1#16 <<< m.src.toNat, owner := some m.src, gone := true }).settle m.line := by
  refine ⟨(s.modSlice (s.homeSlice m.line) fun x => { x with gone := x.gone + 1 }).home.slices, ?_⟩
  unfold State.homeAnswer
  dsimp only
  rw [waits]
  dsimp only
  rw [agentBit_awaited, gone, beq_self_eq_true]
  rfl

end

/-! ### Reservations, tokens and purges (R192, R193, R202) -/

section
variable {s : State}

/-- Of two tokens bound to a resource that is reserved for the first, the second is the next holder. -/
theorem nextHolder_second {x : Slice} {r : Resource} {a b : Token} (resv : x.resv = [(r, a.num)]) (tokens : x.tokens = [a, b])
    (ha : a.res = r) (hb : b.res = r) (apart : a.num ≠ b.num) : nextHolder x r = some b := by
  have waits : (x.tokens.filter fun t => t.res == r && !(x.resv.any fun p => p.2 == t.num)) = [b] := by
    simp [tokens, resv, ha, hb, apart]
  have granted : arbitrate 16 x.ptr.toNat (fun i => [b].any fun t => t.agent.toNat == i) = some b.agent.toNat := by
    refine arbitrate_eq_some b.agent.isLt (by simp) fun i _ asks => ?_
    have : b.agent.toNat = i := by simpa using asks
    rw [this]
  unfold nextHolder
  dsimp only
  rw [waits, granted]
  simp

theorem Slice.passOn_second {x : Slice} {r : Resource} {a b : Token} (resv : x.resv = [(r, a.num)]) (tokens : x.tokens = [a, b])
    (ha : a.res = r) (hb : b.res = r) (apart : a.num ≠ b.num) :
    x.passOn r = { x with resv := [(r, b.num)], ptr := b.agent + 1 } := by
  have oldest : x.resv.find? (fun p => p.1 == r) = some (r, a.num) := by simp [resv]
  unfold Slice.passOn
  rw [oldest, nextHolder_second resv tokens ha hb apart]
  dsimp only
  rw [resv, List.erase_cons_head, List.nil_append]

theorem exec_tokenResend {m r : Msg} (fit : s.agentFit m.src = true) (busy : s.busyFor m = some r) :
    exec (.tokenResend m) s = .next ({ s with replies := s.replies.erase r }.send { m with token := r.token }) := by
  show execTokenResend m s = _
  rw [execTokenResend, if_pos fit, State.resend, busy]

theorem exec_reservationExpire {k : Fin 24} (fit : s.chanFit k = true) (r : Resource) :
    exec (.reservationExpire k r) s = .next (s.setSlice k ((s.slice k).passOn r)) := by
  show execReservationExpire k r s = _
  exact if_pos fit

/-- A purge ends, with no other waiting. -/
theorem exec_purgeEnd (dur : BitVec 64) (runs : s.home.purging = true) (alone : s.home.purgeNext = [])
    (closed : s.closesOwn s.home.purgeIsle = false) :
    exec (.purgeEnd dur) s = .next { s.recKey posDir 0o002003 s.home.purgeIsle.toNat [rp s.home.purgePois.toNat, rp dur.toNat] with
      home := { s.home with purging := false } } := by
  show execPurgeEnd dur s = _
  rw [execPurgeEnd, runs, closed, Bool.not_true, Bool.false_or, if_neg Bool.false_ne_true]
  simp only [State.recKey, alone, List.find?_nil]

end

section
variable {s : State} {m : Msg}

theorem exec_ack (h : s.comes { m with ty := .ack }) :
    exec (.ack m) s = .next ((s.arrived { m with ty := .ack }).homeAnswer { m with ty := .ack }) := by
  show execAck m s = _
  exact State.arrive_comes h _

theorem exec_ackd (h : s.comes { m with ty := .ackd }) :
    exec (.ackd m) s = .next ((s.arrived { m with ty := .ackd }).homeAnswer { m with ty := .ackd }) := by
  show execAckd m s = _
  exact State.arrive_comes h _

theorem exec_gone (h : s.comes { m with ty := .gone }) :
    exec (.gone m) s = .next ((s.arrived { m with ty := .gone }).homeAnswer { m with ty := .gone }) := by
  show execGone m s = _
  exact State.arrive_comes h _

theorem exec_pfh (h : s.comes { m with ty := .pfh }) (fit : s.isleFit m.dst.toNat = true) :
    exec (.pfh m) s = .next ((s.arrived { m with ty := .pfh }).recvPfh m.dst.toNat { m with ty := .pfh }) := by
  show execPfh m s = _
  exact State.toIsle_comes h fit _

theorem exec_gnt (h : s.comes { m with ty := .gnt }) (fit : s.isleFit m.dst.toNat = true) :
    exec (.gnt m) s = .next ((s.arrived { m with ty := .gnt }).recvGnt m.dst.toNat { m with ty := .gnt }) := by
  show execGnt m s = _
  exact State.toIsle_comes h fit _

theorem exec_dat (h : s.comes { m with ty := .dat }) (fit : s.isleFit m.dst.toNat = true) :
    exec (.dat m) s = .next ((s.arrived { m with ty := .dat }).recvDat m.dst.toNat { m with ty := .dat }) := by
  show execDat m s = _
  exact State.toIsle_comes h fit _

theorem exec_cmp_isle (h : s.comes { m with ty := .cmp }) (isle : m.dst.toNat < 12) (fit : s.isleFit m.dst.toNat = true) :
    exec (.cmp m) s = .next ((s.arrived { m with ty := .cmp }).recvCmp m.dst.toNat { m with ty := .cmp }) := by
  show execCmp m s = _
  exact State.toIssuer_isle h isle fit rfl

theorem exec_cmp_other (h : s.comes { m with ty := .cmp }) (other : 12 ≤ m.dst.toNat) (fit : s.agentFit m.dst = true)
    (new : { m with ty := .cmp } ∉ s.replies) :
    exec (.cmp m) s = .next { s.arrived { m with ty := .cmp } with replies := s.replies ++ [{ m with ty := .cmp }] } := by
  show execCmp m s = _
  exact State.toIssuer_keeps h fit (fun both => absurd both.1 (Nat.not_lt.mpr other)) new

theorem exec_busyReceived (h : s.comes { m with ty := .busy }) (fit : s.agentFit m.dst = true)
    (new : { m with ty := .busy } ∉ s.replies) :
    exec (.busyReceived m) s = .next { s.arrived { m with ty := .busy } with replies := s.replies ++ [{ m with ty := .busy }] } := by
  show execBusyReceived m s = _
  exact State.toIssuer_keeps h fit (fun both => MsgTy.noConfusion both.2) new

end

theorem State.arrived_txn (s : State) (m : Msg) (n : LineNo) : (s.arrived m).txn n = s.txn n := by
  rw [State.txn, State.arrived_home]
  rfl

theorem State.arrived_entry (s : State) (m : Msg) (n : LineNo) : (s.arrived m).entry n = s.entry n := by
  rw [State.entry, State.arrived_home]
  rfl

/-- Settles O44: what each message makes of its agent or its transaction, once it has come. -/
theorem grantsAnswersAndTokens : Obligations.GrantsAnswersAndTokens := by
  intro s m i l x a v comes taken
  have isle (g : Msg) : (s.arrived g).isle i = x := s.arrived_isle g i
  refine ⟨fun low fit => ⟨fun h on walk empty => ?pfh, fun h ok data waits own => ?gnt, fun h waits none => ?dat,
    fun h tag waits => ?evicted, fun h tag => ?cmp⟩, fun h high fit new => ?other, fun h fit new => ?busy, fun fit r kept => ?resend,
    ⟨fun stray => ⟨fun h => ?strayAck, fun h => ?strayAckd, fun h => ?strayGone⟩, fun r src rsrc mask line _ =>
      ⟨fun h upg waits => ?ack, fun h rdn owned st good waits => ?ackd, fun h rdn waits => ?gone⟩⟩,
    fun k r a b fit resv tokens ha hb apart => ?expire, fun dur runs alone closed => exec_purgeEnd dur runs alone closed⟩
  case pfh =>
    rw [exec_pfh h fit, State.recvPfh_asks (m := { m with ty := .pfh }) rfl ((isle _).symm ▸ on) (by rw [State.arrived_home]; exact walk)
      ((isle _).symm ▸ empty),
      isle]
    rfl
  case gnt =>
    obtain ⟨cores, wins⟩ := State.win_own (s := taken .gnt) (i := i) (n := l) ((isle { m with ty := .gnt }).symm ▸ own) m.st v
    rw [exec_gnt h fit, State.recvGnt_wins (m := { m with ty := .gnt }) ok data ((isle _).symm ▸ waits)]
    refine ⟨_, congrArg _ wins, ?_, rfl⟩
    show (State.isle (State.setIsle _ _ _) _).line l = _
    rw [State.isle_setIsle, Isle.fresh_setLine, isle]
    rfl
  case dat =>
    rw [exec_dat h fit, State.recvDat_keeps (m := { m with ty := .dat }) ((isle _).symm ▸ waits) ((isle _).symm ▸ none), isle]
  case evicted =>
    rw [exec_cmp_isle h low fit, State.recvCmp_evicted (m := { m with ty := .cmp }) tag ((isle _).symm ▸ waits), isle]
  case cmp =>
    rw [exec_cmp_isle h low fit, State.recvCmp_answer (m := { m with ty := .cmp }) tag, State.arrived_replies]
  case other => exact exec_cmp_other h high fit new
  case busy => exact exec_busyReceived h fit new
  case resend => exact exec_tokenResend fit kept
  case strayAck => rw [exec_ack h, State.homeAnswer_stray (by rw [State.arrived_txn]; exact stray)]
  case strayAckd => rw [exec_ackd h, State.homeAnswer_stray (by rw [State.arrived_txn]; exact stray)]
  case strayGone => rw [exec_gone h, State.homeAnswer_stray (by rw [State.arrived_txn]; exact stray)]
  case ack =>
    have here : (taken .ack).txn m.line = some { req := r, waits := 1#16 <<< m.src.toNat } := (State.arrived_txn ..).trans waits
    have mask' : (taken .ack).home.mask.getLsbD r.src.toNat = true := by rw [State.arrived_home]; exact mask
    obtain ⟨net, txn, entry⟩ := State.settle_sends ((taken .ack).txn_setTxn m.line { req := r })
      ⟨rfl, rfl, rfl, rfl, rfl, rfl, rfl, by rw [needsData, upg]; rfl⟩ (State.grant_upg upg mask' rfl rfl rfl) HState.noConfusion rsrc
    refine ⟨_, (exec_ack h).trans (congrArg _ (State.homeAnswer_ack rfl here)), net, txn, entry.trans ?_⟩
    rw [State.entry_setTxn, State.arrived_entry]
    rfl
  case ackd =>
    have here : (taken .ackd).txn m.line = some { req := r, waits := 1#16 <<< m.src.toNat, owner := some m.src } :=
      (State.arrived_txn ..).trans waits
    have entry : ((taken .ackd).setTxn m.line (suppliedTxn m r)).entry m.line = s.entry m.line := State.arrived_entry ..
    have listed : (((taken .ackd).setTxn m.line (suppliedTxn m r)).entry m.line).st ≠ .i := by
      rw [entry, owned]
      exact HState.noConfusion
    obtain ⟨net, txn, entry'⟩ := State.settle_sends ((taken .ackd).txn_setTxn m.line (suppliedTxn m r))
      ⟨rfl, rfl, rfl, rfl, rfl, rfl, rfl, rfl⟩ (State.grant_rdn rdn rfl rfl good (afterOwner_supplied _ r st)) listed rsrc
    exact ⟨_, (exec_ackd h).trans (congrArg _ (State.homeAnswer_ackd rfl here)), net, txn, entry'.trans entry⟩
  case gone =>
    have here : (taken .gone).txn m.line = some { req := r, waits := 1#16 <<< m.src.toNat, owner := some m.src } :=
      (State.arrived_txn ..).trans waits
    obtain ⟨slices, answer⟩ := State.homeAnswer_gone (m := { m with ty := .gone }) rfl here
    rw [State.settle_gone (State.txn_setTxn ..) rfl rfl rfl] at answer
    exact ⟨_, (exec_gone h).trans (congrArg _ answer), rfl, State.txn_setTxn ..⟩
  case expire => rw [exec_reservationExpire fit, Slice.passOn_second resv tokens ha hb apart]

end Sys2Proof.Machine

/-! Transitions of cores, Isles, blocks and the package, and waking (R138, R190, R223, R284, R347, R351 to R353, R357, R360 to
R365, R391, R453, R457). -/

namespace Sys2Proof.Machine

/-! ### What a claim answers and leaves (R348, R349) -/

section
variable (s : State) (q core hub : Nat)

/-- Whether a claim is granted does not rest on the arbiter's pointer, and one of nothing is always granted. -/
theorem State.claim_of_ok (ok : claimOk s.ledger core hub = true) : s.claim q core hub = ((s.claim q core hub).1, true) := by
  have ok' : claimOk { s.ledger with ptr := (q + 1) % 50 } core hub = true := ok
  by_cases asks : core = 0 ∧ hub = 0
  · simp only [State.claim, if_pos asks]
  · simp only [State.claim, if_neg asks, if_pos ok']

theorem State.claim_of_not_ok (asks : ¬ (core = 0 ∧ hub = 0)) (no : claimOk s.ledger core hub = false) :
    s.claim q core hub = ((s.claim q core hub).1, false) := by
  have no' : ¬ claimOk { s.ledger with ptr := (q + 1) % 50 } core hub = true := ne_true_of_eq_false no
  simp only [State.claim, if_neg asks, if_neg no']

theorem State.claim_frame : (s.claim q core hub).1 = { s with ledger := (s.claim q core hub).1.ledger } :=
  (State.claim_moves (s1 := (s.claim q core hub).1) (ok := (s.claim q core hub).2) rfl).1

@[simp] theorem State.core_claim (c : Nat) : (s.claim q core hub).1.core c = s.core c := by
  rw [State.claim_frame]
  rfl

@[simp] theorem State.isle_claim (n : Nat) : (s.claim q core hub).1.isle n = s.isle n := by
  rw [State.claim_frame]
  rfl

@[simp] theorem State.block_claim (b : Nat) : (s.claim q core hub).1.block b = s.block b := by
  rw [State.claim_frame]
  rfl

@[simp] theorem State.chans_claim : (s.claim q core hub).1.chans = s.chans := by
  rw [State.claim_frame]

@[simp] theorem State.ports_claim : (s.claim q core hub).1.ports = s.ports := by
  rw [State.claim_frame]

@[simp] theorem State.pwr_claim : (s.claim q core hub).1.pwr = s.pwr := by
  rw [State.claim_frame]

@[simp] theorem State.harbour_claim : (s.claim q core hub).1.harbour = s.harbour := by
  rw [State.claim_frame]

end

/-! ### A core (R357) -/

theorem State.isleRaise_awake {s : State} {n : Nat} (awake : (s.isle n).st ≠ .neap) : s.isleRaise n = some s := if_pos awake

section
variable (s : State)

@[simp] theorem State.core_release (q core hub c : Nat) : (s.release q core hub).core c = s.core c := rfl
@[simp] theorem State.strait_release (q core hub n : Nat) : (s.release q core hub).strait n = s.strait n := rfl
@[simp] theorem State.block_release (q core hub b : Nat) : (s.release q core hub).block b = s.block b := rfl
@[simp] theorem State.thread_release (q core hub t : Nat) : (s.release q core hub).thread t = s.thread t := rfl

theorem State.core_modStream (c : Fin 288) (f : Stream → Stream) :
    (s.modStream (.core c) f).core c = { s.core c with stream := f (s.core c).stream } := State.core_setCore ..

theorem State.thread_modStream_core (c : Fin 288) (f : Stream → Stream) (t : Nat) : (s.modStream (.core c) f).thread t = s.thread t := rfl

end

/-- What touches threads, cores and the ledger only. -/
def CoresOnly (s u : State) : Prop := ∃ ts cs l, u = { s with threads := ts, cores := cs, ledger := l }

section
variable {s u : State}

theorem CoresOnly.refl : CoresOnly s s := ⟨_, _, _, rfl⟩

theorem CoresOnly.modThread {t : Nat} {f : Thread → Thread} (h : CoresOnly s u) : CoresOnly s (u.modThread t f) := by
  obtain ⟨ts, cs, l, rfl⟩ := h
  exact ⟨_, cs, l, rfl⟩

theorem CoresOnly.modCore {c : Nat} {f : Core → Core} (h : CoresOnly s u) : CoresOnly s (u.modCore c f) := by
  obtain ⟨ts, cs, l, rfl⟩ := h
  exact ⟨ts, _, l, rfl⟩

theorem CoresOnly.release {q core hub : Nat} (h : CoresOnly s u) : CoresOnly s (u.release q core hub) := by
  obtain ⟨ts, cs, l, rfl⟩ := h
  exact ⟨ts, cs, _, rfl⟩

theorem CoresOnly.claim {q core hub : Nat} (h : CoresOnly s u) : CoresOnly s (u.claim q core hub).1 := by
  obtain ⟨ts, cs, l, rfl⟩ := h
  rw [State.claim_frame]
  exact ⟨ts, cs, _, rfl⟩

theorem CoresOnly.coreNeap {c : Nat} (h : CoresOnly s u) : CoresOnly s (u.coreNeap c) := by
  unfold State.coreNeap
  exact h.release.modCore.modThread.modThread

theorem CoresOnly.coreUp {c : Nat} (h : CoresOnly s u) : CoresOnly s (u.coreUp c) := by
  unfold State.coreUp State.coreScope
  exact h.modThread.modThread.modCore.modCore

theorem CoresOnly.frame (h : CoresOnly s u) : u = { s with threads := u.threads, cores := u.cores, ledger := u.ledger } := by
  obtain ⟨ts, cs, l, rfl⟩ := h
  rfl

end

section
variable (s : State) (q : Nat)

theorem State.thread_coreScope (t : Nat) (own : t = 2 * q ∨ t = 2 * q + 1) :
    (s.coreScope q).thread t = (s.thread t).scopeReset := by
  unfold State.coreScope
  dsimp only
  rw [State.modCore_eq, State.thread_setCore, State.modThread_eq, State.modThread_eq]
  obtain rfl | rfl := own
  · rw [State.thread_setThread_ne _ _ (show 2 * q ≠ 2 * q + 1 by omega), State.thread_setThread]
  · rw [State.thread_setThread, State.thread_setThread_ne _ _ (show 2 * q + 1 ≠ 2 * q by omega)]

theorem State.thread_coreGone (t : Nat) (own : t = 2 * q ∨ t = 2 * q + 1) : (s.coreGone q).thread t = (s.thread t).scopeReset := by
  rw [State.coreGone, State.modCore_eq, State.thread_setCore, State.thread_coreScope s q t own]

/-- A core that is off: it holds no line. -/
theorem State.core_coreGone : ((s.coreGone q).core q).st = .dry ∧ ((s.coreGone q).core q).l2 = []
    ∧ ((s.coreGone q).core q).l1d = [] := by
  unfold State.coreGone State.coreScope
  dsimp only
  rw [State.modCore_eq, State.core_setCore, State.modCore_eq, State.core_setCore]
  exact ⟨rfl, rfl, rfl⟩

theorem State.core_coreUp : ((s.coreUp q).core q).st = .run ∧ ((s.coreUp q).core q).fCur = 29 ∧ ((s.coreUp q).core q).dirTab = [] := by
  unfold State.coreUp State.coreScope
  dsimp only
  rw [State.modCore_eq, State.core_setCore, State.modCore_eq, State.core_setCore]
  exact ⟨rfl, rfl, rfl⟩

end

section
variable {s : State} {c : Fin 288} {n : Fin 12} {q : PReq}

theorem State.coreRow_begun (fit : s.isleFit n.val = true) (own : n.val = c.val / 24) (begun : s.beginning (.core c) = some q)
    (f : PReq → State) : s.coreRow c f = .next (f q) := by
  have coreFit : s.coreFit c.val = true := by
    unfold State.coreFit
    rw [← own]
    exact fit
  unfold State.coreRow
  rw [coreFit, begun]
  rfl

variable (fit : s.isleFit n.val = true) (own : n.val = c.val / 24) (begun : s.beginning (.core c) = some q)
include fit own begun

section
variable (asked : q.target = 2) (up : (s.core c).st = .run ∨ (s.core c).st = .slack) (calm : s.coreLaunch c = false)
include asked up calm

theorem exec_coreToNeap_undrained (busy : s.drained c = false) : exec (.coreToNeap c) s = .next s := by
  show execCoreToNeap c s = _
  rw [execCoreToNeap, State.coreRow_begun fit own begun]
  dsimp only
  rw [if_pos ⟨asked, up⟩, calm, busy]
  rfl

theorem exec_coreToNeap_drained (drained : s.drained c = true) :
    exec (.coreToNeap c) s = .next ((s.coreNeap c).modStream (.core c) fun x => { x with saving := true }) := by
  show execCoreToNeap c s = _
  rw [execCoreToNeap, State.coreRow_begun fit own begun]
  dsimp only
  rw [if_pos ⟨asked, up⟩, calm, drained]
  rfl

end

theorem exec_coreNeapToRun_awake (asked : q.target.toNat < 2) (neap : (s.core c).st = .neap) (awake : (s.isle n).st ≠ .neap)
    (ok : claimOk s.ledger (coreBearing (s.core c).fCur.toNat - 1) 0 = true) : exec (.coreNeapToRun c) s
      = .next ((s.claim n (coreBearing (s.core c).fCur.toNat - 1) 0).1.setCore c { s.core c with st := .run }) := by
  show execCoreNeapToRun c s = _
  rw [execCoreNeapToRun, State.coreRow_begun fit own begun]
  dsimp only
  rw [if_pos ⟨asked, neap⟩, ← own, if_neg fun h => awake h.1, State.isleRaise_awake awake]
  dsimp only
  rw [if_neg (not_not.mpr neap), State.claim_of_ok _ _ _ _ ok]
  dsimp only
  unfold State.coreRestore
  rw [State.modCore_eq, State.core_claim]
  rfl

theorem exec_coreToDry (asked : q.target = 3) (powered : (s.core c).st ≠ .dry) (calm : s.coreLaunch c = false)
    (rests : (s.core c).st = .neap ∨ s.drained c = true) :
    exec (.coreToDry c) s = .next ((s.coreDry c).modStream (.core c) fun x => { x with saving := true }) := by
  have ready : ((s.core c).isUp && !s.drained c) = false := by
    obtain neap | drained := rests
    · unfold Core.isUp
      rw [neap]
      rfl
    · rw [drained, Bool.not_true, Bool.and_false]
  show execCoreToDry c s = _
  rw [execCoreToDry, State.coreRow_begun fit own begun]
  rw [if_pos ⟨asked, powered⟩, calm, ready]
  rfl

theorem exec_coreDryToRun (asked : q.target ≠ 3) (dry : (s.core c).st = .dry) (awake : (s.isle n).st ≠ .neap)
    (ok : claimOk s.ledger 9 0 = true) : exec (.coreDryToRun c) s = .next ((s.claim n 9 0).1.coreUp c) := by
  show execCoreDryToRun c s = _
  rw [execCoreDryToRun, State.coreRow_begun fit own begun]
  rw [← own, if_pos ⟨asked, dry, awake⟩, show coreBearing 29 = 9 from rfl, State.claim_of_ok _ _ _ _ ok]
  rfl

end

/-- What a core in Neap has lost, and what its Isle's claim has given back. -/
theorem State.coreNeap_saving (s : State) (c : Fin 288) : let u := (s.coreNeap c).modStream (.core c) fun x => { x with saving := true }
    u.core c = { s.core c with st := .neap, slackReq := false, itlb := [], dtlb := [], tlb2 := [], keys := []
                               stream := { (s.core c).stream with saving := true } }
      ∧ (u.thread (2 * c.val)).ret = [] ∧ (u.thread (2 * c.val + 1)).ret = []
      ∧ (sget {} u.ledger.claimed (c.val / 24)).core
        = (sget {} s.ledger.claimed (c.val / 24)).core - (coreBearing (s.core c).fCur.toNat - 1)
      ∧ u = { s with threads := u.threads, cores := u.cores, ledger := u.ledger } := by
  intro u
  have thread (t : Nat) : u.thread t = (s.coreNeap c).thread t := rfl
  have only : CoresOnly s u :=
    CoresOnly.modCore (c := c) (f := fun x => { x with stream := { x.stream with saving := true } }) CoresOnly.refl.coreNeap
  refine ⟨?core, ?ret, ?ret', ?claimed, only.frame⟩
  case claimed => exact congrArg Amount.core (sget_sset_same ..)
  case core =>
    show ((s.coreNeap c).modCore c fun x => { x with stream := { x.stream with saving := true } }).core c = _
    unfold State.coreNeap
    dsimp only
    rw [State.modCore_eq, State.core_setCore, State.modThread_eq, State.core_setThread, State.modThread_eq, State.core_setThread,
      State.modCore_eq, State.core_setCore]
    rfl
  case ret =>
    rw [thread]
    unfold State.coreNeap
    dsimp only
    rw [State.modThread_eq, State.thread_setThread_ne _ _ (show 2 * c.val ≠ 2 * c.val + 1 by omega), State.modThread_eq,
      State.thread_setThread]
  case ret' =>
    rw [thread]
    unfold State.coreNeap
    dsimp only
    rw [State.modThread_eq, State.thread_setThread]

/-- What a core in Dry has lost. -/
theorem State.coreDry_saving (s : State) (c : Fin 288) : let u := (s.coreDry c).modStream (.core c) fun x => { x with saving := true }
    (u.core c).st = .dry ∧ (u.core c).l2 = [] ∧ (u.core c).l1d = [] ∧ (u.core c).stream.saving = true
      ∧ (u.thread (2 * c.val)).mode = .stopped ∧ (u.thread (2 * c.val + 1)).mode = .stopped := by
  obtain ⟨st, l2, l1d⟩ := (s.flushCore (c / 24) (c % 24)).core_coreGone c
  unfold State.coreDry
  dsimp only
  generalize s.flushCore (c / 24) (c % 24) = v at *
  rw [State.core_modStream, State.core_release, State.thread_modStream_core, State.thread_release, State.thread_modStream_core,
    State.thread_release, State.thread_coreGone _ _ _ (.inl rfl), State.thread_coreGone _ _ _ (.inr rfl)]
  exact ⟨st, l2, l1d, rfl, rfl, rfl⟩

/-- What a core that leaves Dry is (R117, R438). -/
theorem State.coreUp_reset (s : State) (c : Nat) : let u := s.coreUp c
    (u.core c).st = .run ∧ (u.core c).fCur = 29 ∧ (u.core c).dirTab = [] ∧ (u.thread (2 * c)).mode = .stopped
      ∧ u.ledger = s.ledger := by
  obtain ⟨st, fCur, dirTab⟩ := s.core_coreUp c
  refine ⟨st, fCur, dirTab, ?_, ?_⟩
  · rw [State.coreUp, State.modCore_eq, State.thread_setCore, State.thread_coreScope _ _ _ (.inl rfl)]
    rfl
  · rw [State.coreUp, State.modCore_eq, State.setCore_ledger, State.coreScope, State.modCore_eq, State.setCore_ledger, State.modThread_eq,
      State.setThread_ledger, State.modThread_eq, State.setThread_ledger]

/-! ### Streams (R355, R356) -/

section
variable (s : State) (u : PUnit)

theorem State.streamOf_modStream (f : Stream → Stream) : (s.modStream u f).streamOf u = f (s.streamOf u) := by
  cases u with
  | core c => exact congrArg Core.stream (State.core_setCore ..)
  | isle n => exact congrArg Isle.stream (State.isle_setIsle ..)
  | block k =>
    by_cases harbour : k.val = 0
    · simp only [State.modStream, State.streamOf, if_pos harbour]
    · simp only [State.modStream, State.streamOf, if_neg harbour, State.modBlock_eq, State.block_setBlock]
  | package => rfl

theorem State.nextHeld_none {s : State} {u : PUnit} (alone : (s.streamOf u).held = none) : s.nextHeld u = s := by
  unfold State.nextHeld
  dsimp only
  rw [alone]
  cases (s.streamOf u).act <;> rfl

/-- A request is refused, and no other follows. -/
theorem State.refuseAct_alone {s : State} {u : PUnit} (r : BitVec 4) (alone : (s.streamOf u).held = none) :
    s.refuseAct u r = s.modStream u fun x => x.refuse r := by
  rw [State.refuseAct, State.nextHeld_none]
  rw [State.streamOf_modStream]
  exact alone

end

/-! ### An Isle (R357, R190, R223) -/

/-- The bits of the members of a list are set. -/
theorem getLsbD_foldl_bits {w : Nat} (l : List Nat) (b : BitVec w) {j : Nat} (h : j < w) :
    (l.foldl (fun (b : BitVec w) c => b ||| ((1 : BitVec w) <<< c)) b).getLsbD j = (b.getLsbD j || decide (j ∈ l)) := by
  induction l generalizing b with
  | nil => simp
  | cons c l ih =>
    rw [List.foldl_cons, ih, BitVec.getLsbD_or, getLsbD_one_shiftLeft c j h]
    simp only [List.mem_cons, Bool.decide_or, Bool.or_assoc]

/-- One core of an Isle that leaves Neap: it runs when it did before (R357). -/
def State.restoreBit (n : Nat) (was : BitVec 24) (s : State) (c : Nat) : State :=
  if was.getLsbD c && (s.core (n * 24 + c)).st == .neap then s.coreRestore (n * 24 + c) else s

section
variable (s : State) (n : Nat) (was : BitVec 24)

theorem State.restoreBits_frame (k : Nat) :
    ∃ cs, (List.range k).foldl (State.restoreBit n was) s = { s with cores := cs } := by
  refine pres_fold (a := s) (Q := fun u => ∃ cs, u = { s with cores := cs }) _ _ ⟨_, rfl⟩ fun u c h => ?_
  obtain ⟨cs, rfl⟩ := h
  unfold State.restoreBit
  split
  · exact ⟨_, rfl⟩
  · exact ⟨_, rfl⟩

theorem State.restoreBits_st (k i : Nat) : (((List.range k).foldl (State.restoreBit n was) s).core (n * 24 + i)).st
    = if (decide (i < k) && (was.getLsbD i && (s.core (n * 24 + i)).st == .neap)) = true then .run else (s.core (n * 24 + i)).st := by
  induction k with
  | zero => rfl
  | succ k ih =>
    rw [List.range_succ, List.foldl_append, List.foldl_cons, List.foldl_nil]
    generalize (List.range k).foldl (State.restoreBit n was) s = u at *
    unfold State.restoreBit State.coreRestore
    by_cases here : i = k
    · subst here
      rw [decide_eq_false (Nat.lt_irrefl i)] at ih
      rw [decide_eq_true (Nat.lt_succ_self i), Bool.true_and, show (u.core (n * 24 + i)).st = (s.core (n * 24 + i)).st from ih]
      split
      · rw [State.modCore_eq, State.core_setCore]
      · exact ih
    · have same : decide (i < k + 1) = decide (i < k) := by
        rw [decide_eq_decide]
        omega
      rw [same, ← ih]
      split
      · rw [State.modCore_eq, State.core_setCore_ne _ _ (show n * 24 + i ≠ n * 24 + k by omega)]
      · rfl

theorem State.isleRaise_neap {s : State} {n : Fin 12} (neap : (s.isle n).st = .neap)
    (ok : claimOk s.ledger (s.raiseClaim (.isle n) 0).1 0 = true) :
    s.isleRaise n
      = some (((List.range 24).foldl (State.restoreBit n (s.isle n).wasUp) (s.claim n (s.raiseClaim (.isle n) 0).1 0).1).modIsle n
        fun x => { x with st := .run, wasUp := 0 }) := by
  unfold State.isleRaise
  dsimp only
  rw [if_neg (not_not.mpr neap), Fin.ofNat_val_eq_self, State.claim_of_ok _ _ _ _ ok]
  rfl

/-- An Isle in Neap whose claim is granted runs, and the cores that ran before run again. -/
theorem State.isleRaise_woken {s : State} {n : Fin 12} (neap : (s.isle n).st = .neap)
    (ok : claimOk s.ledger (s.raiseClaim (.isle n) 0).1 0 = true) : ∃ u, s.isleRaise n = some u
      ∧ u.isle n = { s.isle n with st := .run, wasUp := 0 } ∧ u.ledger = (s.claim n (s.raiseClaim (.isle n) 0).1 0).1.ledger
      ∧ (∀ i, i < 24 → (u.core (n.val * 24 + i)).st
        = if (s.isle n).wasUp.getLsbD i && (s.core (n.val * 24 + i)).st == .neap then .run else (s.core (n.val * 24 + i)).st)
      ∧ u = { s with cores := u.cores, isles := u.isles, ledger := u.ledger } := by
  refine ⟨_, State.isleRaise_neap neap ok, ?_⟩
  obtain ⟨l, claimed⟩ := s.claim_eq n (s.raiseClaim (.isle n) 0).1 0
  have st (i : Nat) := State.restoreBits_st (s.claim n (s.raiseClaim (.isle n) 0).1 0).1 n (s.isle n).wasUp 24 i
  obtain ⟨cs, cores⟩ := State.restoreBits_frame (s.claim n (s.raiseClaim (.isle n) 0).1 0).1 n (s.isle n).wasUp 24
  rw [claimed] at st cores ⊢
  rw [cores] at st ⊢
  refine ⟨State.isle_setIsle .., rfl, fun i lt => (st i).trans ?_, rfl⟩
  rw [decide_eq_true lt, Bool.true_and]
  rfl

end

section
variable {s : State} {n : Fin 12} {q : PReq}

theorem State.isleRow_begun (fit : s.isleFit n.val = true) (begun : s.beginning (.isle n) = some q) (f : PReq → State) :
    s.isleRow n f = .next (f q) := by
  unfold State.isleRow
  rw [fit, begun]
  rfl

variable (fit : s.isleFit n.val = true) (begun : s.beginning (.isle n) = some q)
include fit begun

section
variable (asked : q.target = 2) (up : (s.isle n).st = .run ∨ (s.isle n).st = .slack) (drained : s.isleDrained n = true)
  (calm : s.cannotQuiesce (.isle n) 2 = false)
include asked up drained calm

theorem exec_isleToNeap_open (loud : s.isleQuiet n = false) : exec (.isleToNeap n) s = .next (if (s.isle n).stream.quiesce then
    s.refuseAct (.isle n) 4 else s.modStream (.isle n) fun x => { x with quiesce := true }) := by
  show execIsleToNeap n s = _
  rw [execIsleToNeap, State.isleRow_begun fit begun]
  dsimp only
  rw [if_pos ⟨asked, up⟩, calm, drained, loud]
  rfl

theorem exec_isleToNeap_quiet (quiet : s.isleQuiet n = true) :
    exec (.isleToNeap n) s = .next ((s.isleNeap n).modStream (.isle n) fun x => { x with saving := true }) := by
  show execIsleToNeap n s = _
  rw [execIsleToNeap, State.isleRow_begun fit begun]
  dsimp only
  rw [if_pos ⟨asked, up⟩, calm, drained, quiet]
  rfl

end

theorem exec_isleNeapToRun {u : State} (asked : q.target ≠ 2) (neap : (s.isle n).st = .neap) (raised : s.isleRaise n = some u) :
    exec (.isleNeapToRun n) s = .next u := by
  show execIsleNeapToRun n s = _
  rw [execIsleNeapToRun, State.isleRow_begun fit begun]
  rw [if_pos ⟨asked, neap⟩, raised]

theorem exec_isleToDry (asked : q.target = 3) (up : (s.isle n).st = .run ∨ (s.isle n).st = .slack)
    (calm : s.cannotQuiesce (.isle n) 3 = false) (may : s.mayDry n = true) :
    exec (.isleToDry n) s = .next ((s.isleDry n).modStream (.isle n) fun x => { x with saving := true }) := by
  show execIsleToDry n s = _
  rw [execIsleToDry, State.isleRow_begun fit begun]
  rw [if_pos ⟨asked, up⟩, calm, may]
  rfl

theorem exec_isleDryToRun {t : State} {tr : TrainIn} (asked : q.target ≠ 3) (dry : (s.isle n).st = .dry) (off : (s.isle n).vcore = false)
    (ok : claimOk s.ledger 40 0 = true) (admitted : (s.claim n 40 0).1.islePower n tr = (t, 0)) :
    exec (.isleDryToRun n tr) s = .next t := by
  show execIsleDryToRun n tr s = _
  rw [execIsleDryToRun, State.isleRow_begun fit begun]
  dsimp only
  rw [if_pos ⟨asked, .inl ⟨dry, off⟩⟩, off, Bool.false_and, if_neg Bool.false_ne_true, State.claim_of_ok _ _ _ _ ok]
  dsimp only
  rw [show reqIsle n = n.val from rfl, admitted]
  rfl

end

section
variable (s : State)

theorem State.isle_modStream (n : Fin 12) (f : Stream → Stream) :
    (s.modStream (.isle n) f).isle n = { s.isle n with stream := f (s.isle n).stream } := State.isle_setIsle ..

theorem State.strait_modStream_isle (n : Fin 12) (f : Stream → Stream) (j : Nat) :
    (s.modStream (.isle n) f).strait j = s.strait j := State.strait_setIsle ..

theorem State.home_modStream_isle (n : Fin 12) (f : Stream → Stream) : (s.modStream (.isle n) f).home = s.home :=
  State.setIsle_home ..

variable (n : Nat)

theorem State.isle_isleNeap : ((s.isleNeap n).isle n).st = .neap ∧ ∀ i, i < 24 → ((s.isleNeap n).isle n).wasUp.getLsbD i
    = ((s.core (n * 24 + i)).st == .run || (s.core (n * 24 + i)).st == .slack) := by
  unfold State.isleNeap
  dsimp only
  rw [State.modIsle_eq, State.isle_setIsle]
  refine ⟨rfl, fun i lt => ?_⟩
  dsimp only
  rw [getLsbD_foldl_bits _ _ lt, show (0 : BitVec 24).getLsbD i = false from BitVec.getLsbD_zero, Bool.false_or]
  simp only [List.mem_filter, List.mem_range, lt, true_and, Bool.decide_coe]

theorem State.straits_isleScope : (s.isleScope n).straits = s.straits := by
  rw [State.isleScope, State.modIsle_eq, State.setIsle_straits]
  refine foldl_keeps (g := State.straits) (fun s c => ?_) _ s
  simp [State.coreGone, State.coreScope]

theorem State.home_vcoreOff : (s.vcoreOff n).home = s.home := rfl

theorem State.strait_vcoreOff : ((s.vcoreOff n).strait n).st = (s.strait n).st
    ∧ ((s.vcoreOff n).strait n).armed = (s.strait n).armed := by
  unfold State.vcoreOff
  dsimp only
  rw [State.modIsle_eq, State.strait_setIsle, State.strait_release, State.modStrait_eq, State.strait_setStrait]
  exact ⟨rfl, rfl⟩

theorem State.isleDry_off : ((s.isleDry n).isle n).st = .dry ∧ ((s.isleDry n).isle n).vcore = false
    ∧ ((s.isleDry n).isle n).cond ≠ .admitted ∧ (n < 12 → (s.isleDry n).home.mask.getLsbD n = false)
    ∧ ((s.isleDry n).strait n).st = .down ∧ ((s.isleDry n).strait n).armed = false := by
  unfold State.isleDry
  dsimp only
  generalize (State.emptyIsle _ n).unlist n = v
  generalize hw : State.modStrait { v with home := { v.home with mask := v.home.mask &&& ~~~((1 : BitVec 12) <<< n) } } n _ = w
  have home : w.home = { v.home with mask := v.home.mask &&& ~~~((1 : BitVec 12) <<< n) } := by rw [← hw]; rfl
  have strait : (w.strait n).st = .down ∧ (w.strait n).armed = false := by
    rw [← hw, State.modStrait_eq, State.strait_setStrait]
    exact ⟨rfl, rfl⟩
  obtain ⟨off, -, -⟩ := (w.isleScope n).vcoreOff_released n
  have vhome : ((w.isleScope n).vcoreOff n).home = w.home := by rw [State.home_vcoreOff, State.home_isleScope]
  have same : (w.isleScope n).strait n = w.strait n := by rw [State.strait, State.straits_isleScope, State.strait]
  have vstrait := (w.isleScope n).strait_vcoreOff n
  rw [same] at vstrait
  generalize (w.isleScope n).vcoreOff n = x at *
  rw [State.modIsle_eq, State.isle_setIsle, State.modStrait_eq, State.isle_setStrait, State.strait_setIsle, State.strait_setStrait,
    State.setIsle_home, State.setStrait_home, vhome, home]
  refine ⟨rfl, off, ?_, fun lt => ?_, vstrait.1.trans strait.1, vstrait.2.trans strait.2⟩
  · dsimp only
    split
    · exact IsleCond.noConfusion
    · exact IsleCond.noConfusion
  · rw [getLsbD_and_not_bit _ _ _ lt, decide_eq_true rfl, Bool.not_true, Bool.and_false]

/-- What an Isle in Dry has lost (R203, R223). -/
theorem State.isleDry_saving (n : Fin 12) : let u := (s.isleDry n).modStream (.isle n) fun x => { x with saving := true }
    (u.isle n).st = .dry ∧ (u.isle n).vcore = false ∧ (u.isle n).cond ≠ .admitted ∧ (u.isle n).stream.saving = true
      ∧ u.home.mask.getLsbD n.val = false ∧ (u.strait n).st = .down ∧ (u.strait n).armed = false := by
  have lost := s.isleDry_off n
  dsimp only
  generalize s.isleDry n = v at *
  obtain ⟨st, vcore, cond, mask, strait, armed⟩ := lost
  rw [State.isle_modStream, State.strait_modStream_isle, State.home_modStream_isle]
  exact ⟨st, vcore, cond, rfl, mask n.isLt, strait, armed⟩

theorem State.islePower_admitted {s t : State} {n : Nat} {tr : TrainIn} (admitted : s.islePower n tr = (t, 0)) : (t.isle n).st = .run := by
  have other {u v : State} {k l : Nat} (h : (u, k) = (v, l)) (ne : k ≠ l) : False := ne (Prod.mk.inj h).2
  unfold State.islePower at admitted
  dsimp only at admitted
  split at admitted
  case h_1 => exact (other admitted (by decide)).elim
  split at admitted
  case h_1 => exact (other admitted (by decide)).elim
  split at admitted
  case h_1 => exact (other admitted (by decide)).elim
  rw [← (Prod.mk.inj admitted).1, State.modIsle_eq, State.isle_setIsle]

end

/-! ### Keystone blocks (R357, R284) -/

section
variable {s : State} {q : PReq}

theorem exec_harbourToDry (begun : s.beginning (.block 0) = some q) (asked : q.target = 3) (runs : s.harbour.st = .run)
    (still : (s.harbour.rings.any fun r => r.2.en) = false) :
    exec .harbourToDry s = .next { s.release 48 0 24 with harbour := { s.harbour with st := .dry } } := by
  have calm : s.cannotQuiesce (.block 0) 3 = false := still
  show execHarbourToDry s = _
  rw [execHarbourToDry, begun]
  dsimp only
  rw [if_pos ⟨asked, runs⟩, calm]
  rfl

section
variable {b : Fin 12}

/-- A port block none of whose links is up can be quiesced (R357). -/
theorem State.cannotQuiesce_port (down : ∀ g, g < 8 → (s.port (8 * b.val + g)).link = 0) :
    s.cannotQuiesce (.block ⟨b.val + 1, by omega⟩) 3 = false := by
  have none : ((List.range 8).any fun g => (s.port (8 * b.val + g)).link != 0) = false := by
    simpa only [List.any_eq_false, List.mem_range, bne_iff_ne, ne_eq, not_not] using down
  unfold State.cannotQuiesce
  dsimp only
  rw [if_neg (Nat.succ_ne_zero _), Nat.add_sub_cancel, none, Bool.and_false]

theorem State.setBlockSt_port (st : PState) :
    s.setBlockSt ⟨b.val + 1, by omega⟩ st = s.setBlock b { s.block b with st } := if_neg (Nat.succ_ne_zero _)

theorem exec_portBlockToDry (begun : s.beginning (.block ⟨b.val + 1, by omega⟩) = some q) (asked : q.target = 3)
    (runs : (s.block b).st = .run) (down : ∀ g, g < 8 → (s.port (8 * b.val + g)).link = 0) :
    exec (.portBlockToDry b) s = .next ((s.release (36 + b.val) 0 (s.block b).hold).setBlock b
      { s.block b with st := .dry, hold := 0, bearwait := false }) := by
  show execPortBlockToDry b s = _
  rw [execPortBlockToDry]
  dsimp only
  rw [begun]
  dsimp only
  rw [if_pos ⟨asked, runs⟩, State.cannotQuiesce_port down, if_neg Bool.false_ne_true, State.setBlockSt_port, State.modBlock_eq,
    State.block_setBlock, State.setBlock_setBlock, State.block_release]
  rfl

end

variable {k : Fin 13} {b : Fin 12}

theorem exec_keystoneBlockToRun (begun : s.beginning (.block k) = some q) (asked : q.target = 0) (dry : s.blockDry k = true) :
    exec (.keystoneBlockToRun k) s
      = .next (if (s.blockUp k).2 then (s.blockUp k).1 else (s.blockUp k).1.refuseAct (.block k) 1) := by
  show execKeystoneBlockToRun k s = _
  rw [execKeystoneBlockToRun, begun]
  dsimp only
  rw [if_pos ⟨asked, dry⟩]
  obtain ⟨u, up | up⟩ := s.blockUp k <;> rfl

theorem State.blockUp_harbour (harbour : k.val = 0) (ok : claimOk s.ledger 0 24 = true) :
    s.blockUp k = ({ (s.claim 48 0 24).1 with harbour := { s.harbour with st := .run } }, true) := by
  unfold State.blockUp State.setBlockSt
  rw [if_pos harbour, State.claim_of_ok _ _ _ _ ok]
  dsimp only
  rw [if_pos harbour, State.harbour_claim]
  rfl

/-- Whether a port block comes up is whether its claim is granted. -/
theorem State.blockUp_granted (s : State) (b : Fin 12) : (s.blockUp ⟨b.val + 1, by omega⟩).2 = (s.blockClaim b.val 24).2 := by
  unfold State.blockUp
  rw [if_neg (Nat.succ_ne_zero _), show b.val + 1 - 1 = b.val from rfl]
  obtain ⟨u, granted | refused⟩ := s.blockClaim b.val 24 <;> rfl

theorem State.block_recKey (s : State) (pos : Nat) (code : BitVec 16) (unit : Nat) (ps : List Reg) (j : Nat) :
    (s.recKey pos code unit ps).block j = s.block j := rfl

theorem State.streamOf_port (s : State) (b : Fin 12) : s.streamOf (.block ⟨b.val + 1, by omega⟩) = (s.block b).stream := rfl

theorem State.modStream_port (s : State) (b : Fin 12) (f : Stream → Stream) :
    s.modStream (.block ⟨b.val + 1, by omega⟩) f = s.modBlock b fun x => { x with stream := f x.stream } := rfl

section
variable (begun : s.beginning (.block ⟨b.val + 1, by omega⟩) = some q) (asked : q.target = 0) (dry : (s.block b).st = .dry)
include begun asked dry

theorem exec_keystoneBlockToRun_port : exec (.keystoneBlockToRun ⟨b.val + 1, by omega⟩) s
    = .next (if (s.blockClaim b.val 24).2 then (s.blockClaim b.val 24).1.modBlock b fun x => { x with st := .run }
        else (s.blockClaim b.val 24).1.refuseAct (.block ⟨b.val + 1, by omega⟩) 1) := by
  have blockDry : s.blockDry ⟨b.val + 1, by omega⟩ = true := by
    unfold State.blockDry
    rw [if_neg (Nat.succ_ne_zero _), show b.val + 1 - 1 = b.val from rfl, dry]
    rfl
  rw [exec_keystoneBlockToRun begun asked blockDry, State.blockUp_granted, State.blockUp_block]
  obtain ⟨u, granted | refused⟩ := s.blockClaim b.val 24 <;> rfl

theorem exec_keystoneBlockToRun_granted (granted : (s.claim (36 + b.val) 0 (24 - (s.block b).hold)).2 = true) :
    exec (.keystoneBlockToRun ⟨b.val + 1, by omega⟩) s = .next ((s.claim (36 + b.val) 0 (24 - (s.block b).hold)).1.setBlock b
      { s.block b with st := .run, bearwait := false, wants := 0, hold := max 24 (s.block b).hold }) := by
  have claimed : s.claim (reqBlock b.val) 0 (24 - (s.block b).hold) = ((s.claim (36 + b.val) 0 (24 - (s.block b).hold)).1, true) :=
    Prod.ext rfl granted
  rw [exec_keystoneBlockToRun_port begun asked dry, State.blockClaim_granted claimed, if_pos rfl, State.modBlock_eq, State.block_setBlock,
    State.setBlock_setBlock]

theorem exec_keystoneBlockToRun_refused (refused : (s.claim (36 + b.val) 0 (24 - (s.block b).hold)).2 = false)
    (alone : (s.block b).stream.held = none) : ∃ u, exec (.keystoneBlockToRun ⟨b.val + 1, by omega⟩) s = .next u
      ∧ u.block b = { s.block b with bearwait := true, wants := 24, stream := (s.block b).stream.refuse 1 } := by
  have claimed : s.claim (reqBlock b.val) 0 (24 - (s.block b).hold) = ((s.claim (36 + b.val) 0 (24 - (s.block b).hold)).1, false) :=
    Prod.ext rfl refused
  rw [exec_keystoneBlockToRun_port begun asked dry, State.blockClaim_refused claimed, if_neg Bool.false_ne_true]
  refine ⟨_, rfl, ?_⟩
  generalize hv : State.recKey _ _ _ _ _ = v
  have block : v.block b = { s.block b with bearwait := true, wants := 24 } := by
    rw [← hv, State.block_recKey, State.block_setBlock]
  have idle : (v.streamOf (.block ⟨b.val + 1, by omega⟩)).held = none := by
    rw [State.streamOf_port, block]
    exact alone
  rw [State.refuseAct_alone 1 idle, State.modStream_port, State.modBlock_eq, State.block_setBlock, block]

end

end

/-! ### What an Isle does with its lines leaves the channels (R188, R264) -/

/-- The channels are those of C. -/
def ChansAre (C : Store Chan) (s : State) : Prop := s.chans = C

section
variable {C : Store Chan} {s : State} {n : Nat}

theorem ChansAre.of_eq {u : State} (h : ChansAre C s) (same : u.chans = s.chans) : ChansAre C u := same.trans h

theorem ChansAre.ite {p : Prop} [Decidable p] {u : State} (h : ChansAre C s) (k : ChansAre C u) : ChansAre C (if p then s else u) :=
  pres_ite (fun _ => h) fun _ => k

theorem ChansAre.modIsle {f : Isle → Isle} (h : ChansAre C s) : ChansAre C (s.modIsle n f) := h.of_eq rfl
theorem ChansAre.modCore {q : Nat} {f : Core → Core} (h : ChansAre C s) : ChansAre C (s.modCore q f) := h.of_eq rfl
theorem ChansAre.setCore {q : Nat} {x : Core} (h : ChansAre C s) : ChansAre C (s.setCore q x) := h.of_eq rfl
theorem ChansAre.modThread {t : Nat} {f : Thread → Thread} (h : ChansAre C s) : ChansAre C (s.modThread t f) := h.of_eq rfl
theorem ChansAre.release {q core hub : Nat} (h : ChansAre C s) : ChansAre C (s.release q core hub) := h.of_eq rfl
theorem ChansAre.recIsle {i unit p0 p1 : Nat} {code : BitVec 16} {id : Xid} (h : ChansAre C s) :
    ChansAre C (s.recIsle i code unit p0 p1 id) := h.of_eq rfl

theorem ChansAre.send {m : Msg} (h : ChansAre C s) : ChansAre C (s.send m) := by
  unfold State.send
  exact pres_ite (fun _ => h.of_eq rfl) fun _ => h.of_eq rfl

theorem ChansAre.sndIsle {ev unit k : Nat} {vault : Bool} (h : ChansAre C s) : ChansAre C (s.sndIsle n ev unit vault k) := h.modIsle

theorem ChansAre.dropCaches {l : Nat} (h : ChansAre C s) : ChansAre C (s.dropCaches n l) :=
  (pres_fold (Q := ChansAre C) _ _ h fun _ _ g => g.modCore).modIsle

theorem ChansAre.cleanCaches {l : Nat} (h : ChansAre C s) : ChansAre C (s.cleanCaches n l) :=
  (pres_fold (Q := ChansAre C) _ _ h fun _ _ g => g.modCore).modIsle

theorem ChansAre.modArrErr {a : Arr} {f : Store (BitVec 2) → Store (BitVec 2)} (h : ChansAre C s) : ChansAre C (s.modArrErr n a f) := by
  unfold State.modArrErr
  cases a with
  | l1i _ | l1d _ | l2 _ => exact h.modCore
  | ic => exact h.modIsle

theorem ChansAre.loseClean {a : Arr} {l : Nat} (h : ChansAre C s) : ChansAre C (s.loseClean n a l) := by
  unfold State.loseClean
  cases a with
  | l1i _ | l1d _ | l2 _ => exact h.modCore.modIsle.ite h.modCore
  | ic => exact h.modIsle.modIsle.ite h.modIsle

theorem ChansAre.arrRead {a : Arr} {l : Nat} {mask : BitVec 64} {id : Xid} (h : ChansAre C s) : ChansAre C (s.arrRead n a l mask id) := by
  unfold State.arrRead
  refine pres_fold (Q := ChansAre C) _ _ h fun s e g => ?_
  exact g.modArrErr.recIsle.ite (g.modArrErr.modIsle.recIsle.ite g.modArrErr.loseClean.recIsle)

theorem ChansAre.supply {l : Nat} {id : Xid} (h : ChansAre C s) : ChansAre C (s.supply n l id) := by
  unfold State.supply
  split
  · exact h.arrRead
  · exact h

theorem ChansAre.evictLine {l : Nat} (h : ChansAre C s) : ChansAre C (s.evictLine n l) := by
  have hs : ChansAre C (if ((s.isle n).line l).isDirty then s.supply n l (s.lineXid l) else s) := h.supply.ite h
  unfold State.evictLine
  dsimp only
  generalize AgentLine.st _ = st
  cases st with
  | m | o | e | s => exact hs.dropCaches.modIsle.send
  | i | isD | imD | smA | miA | eiA => exact hs

theorem ChansAre.evictIfGone {l : Nat} (h : ChansAre C s) : ChansAre C (s.evictIfGone n l) := by
  unfold State.evictIfGone
  exact h.ite h.evictLine

theorem ChansAre.fillIc {l : Nat} {age : BitVec 2} (h : ChansAre C s) : OnSome (ChansAre C) (s.fillIc n l age) := by
  unfold State.fillIc
  dsimp only
  split
  · exact OnSome.mk h
  · exact OnSome.map fun _ => pres_ite (fun _ => h.of_eq rfl) fun _ => (h.arrRead.ite h).modIsle.evictIfGone

theorem ChansAre.leaveL2 {q l : Nat} (h : ChansAre C s) : ChansAre C (s.leaveL2 n q l) := by
  unfold State.leaveL2
  exact ((h.arrRead.ite h).modCore.modIsle.ite (h.arrRead.ite h).modCore).evictIfGone

theorem ChansAre.fillL2 {q l : Nat} {age : BitVec 2} (h : ChansAre C s) : OnSome (ChansAre C) (s.fillL2 n q l age) := by
  unfold State.fillL2
  dsimp only
  split
  · exact OnSome.mk h
  · exact OnSome.map fun _ => (h.setCore.ite h.setCore.leaveL2).modCore

theorem ChansAre.fillL1 {q l : Nat} {data dirty : Bool} {age : BitVec 2} (h : ChansAre C s) :
    OnSome (ChansAre C) (s.fillL1 n q data l age dirty) := by
  unfold State.fillL1
  dsimp only
  split
  · exact OnSome.mk h.modCore
  · exact OnSome.map fun _ => (pres_fold (Q := ChansAre C) _ _ h fun _ _ g => g.arrRead).modCore

theorem ChansAre.serveSnoop {m : Msg} (h : ChansAre C s) : ChansAre C (s.serveSnoop n m) := by
  have supplied {p : Prop} [Decidable p] {l : Nat} {id : Xid} : ChansAre C (if p then s.supply n l id else s) := h.supply.ite h
  have dropped {u : State} (hu : ChansAre C u) {p q : Prop} [Decidable p] [Decidable q] {l : Nat} :
      ChansAre C (let v := if p then u.dropCaches n l else u; if q then v.cleanCaches n l else v) :=
    (hu.dropCaches.ite hu).cleanCaches.ite (hu.dropCaches.ite hu)
  unfold State.serveSnoop
  dsimp only
  generalize snoopAct _ _ m.ty = r
  obtain ⟨act, st⟩ := r
  cases act with
  | ack x | nothing | ackd x => exact (dropped supplied).modIsle.send
  | gone => exact (dropped supplied).modIsle.sndIsle.send
  | dat d x => exact (dropped supplied).modIsle.send.send

theorem ChansAre.prefFill {q l hint : Nat} (h : ChansAre C s) : OnSome (ChansAre C) (s.prefFill n q l hint) := by
  unfold State.prefFill
  split
  · exact OnSome.bind (OnSome.bind h.fillIc fun _ g => g.fillL2) fun _ g => pres_ite (fun _ => g.fillL1) fun _ => OnSome.mk g
  · exact OnSome.bind h.fillIc fun _ g => g.fillL2
  · exact h.fillIc
  · exact h.fillIc

theorem ChansAre.prefWon {l : Nat} {tag : BitVec 9} (h : ChansAre C s) : ChansAre C (s.prefWon n l tag) := by
  have take : OnSome (ChansAre C) (s.prefTake n l tag) := by
    unfold State.prefTake
    exact pres_ite (fun _ => h.fillIc) fun _ => pres_ite (fun _ => h.fillIc) fun _ => pres_ite (fun _ => h.prefFill) fun _ => OnSome.mk h
  exact take.getD h.modIsle

theorem ChansAre.retryFills (h : ChansAre C s) : ChansAre C (s.retryFills n) :=
  pres_fold (Q := ChansAre C) _ _ h.modIsle fun _ _ g => g.ite g.prefWon

theorem ChansAre.endWindow {l : Nat} (h : ChansAre C s) : ChansAre C (s.endWindow n l) := by
  unfold State.endWindow
  exact h.ite (pres_fold (Q := ChansAre C) _ _ h.modIsle fun _ _ g => g.serveSnoop).retryFills

theorem ChansAre.coreNeap {c : Nat} (h : ChansAre C s) : ChansAre C (s.coreNeap c) := by
  unfold State.coreNeap
  exact h.release.modCore.modThread.modThread

/-- An Isle that enters Neap leaves the channels. -/
theorem ChansAre.isleNeap (h : ChansAre C s) : ChansAre C (s.isleNeap n) := by
  have cores (up : List Nat) : ChansAre C (up.foldl (fun s c => s.coreNeap (n * 24 + c)) s) :=
    pres_fold (Q := ChansAre C) _ _ h fun _ _ g => g.coreNeap
  have windows (up : List Nat) : ChansAre C (State.endWindows (up.foldl (fun s c => s.coreNeap (n * 24 + c)) s) n) :=
    pres_fold (Q := ChansAre C) _ _ (cores up) fun _ _ g => g.endWindow
  unfold State.isleNeap
  exact (windows _).release.modIsle

end

/-! ### Lagoon (R347, R360) -/

/-- What touches no channel but c, and no port. -/
structure OnlyChan (c : Nat) (s u : State) : Prop where
  others : ∀ j, j ≠ c → u.chan j = s.chan j
  ports : u.ports = s.ports

section
variable {c : Nat} {s u v : State}

theorem OnlyChan.of_eq (chans : u.chans = s.chans) (ports : u.ports = s.ports) : OnlyChan c s u :=
  ⟨fun j _ => congrArg (fun m => sget ({} : Chan) m j) chans, ports⟩

theorem OnlyChan.refl : OnlyChan c s s := .of_eq rfl rfl

theorem OnlyChan.trans (h : OnlyChan c s u) (k : OnlyChan c u v) : OnlyChan c s v :=
  ⟨fun j ne => (k.others j ne).trans (h.others j ne), k.ports.trans h.ports⟩

theorem OnlyChan.keeps (h : OnlyChan c s u) (chans : v.chans = u.chans) (ports : v.ports = u.ports) : OnlyChan c s v :=
  h.trans (.of_eq chans ports)

theorem OnlyChan.modChan {f : Chan → Chan} (h : OnlyChan c s u) : OnlyChan c s (u.modChan c f) :=
  h.trans ⟨fun _ ne => State.chan_setChan_ne _ _ ne, rfl⟩

theorem OnlyChan.sndKey {ev unit k : Nat} {vault : Bool} (h : OnlyChan c s u) : OnlyChan c s (u.sndKey ev unit vault k) := by
  unfold State.sndKey
  exact h.keeps (v := { u with snd := _ }) rfl rfl

theorem OnlyChan.memPut {n : LineNo} {x : LineVal} (h : OnlyChan c s u) : OnlyChan c s (u.memPut n x) := h.keeps rfl rfl

theorem OnlyChan.release {q core hub : Nat} (h : OnlyChan c s u) : OnlyChan c s (u.release q core hub) := h.keeps rfl rfl

theorem OnlyChan.drainWrite {w : QWrite} (h : OnlyChan c s u) : OnlyChan c s (u.drainWrite c w) := by
  unfold State.drainWrite State.dramTouch
  exact pres_ite (fun _ => h.modChan.memPut.modChan.sndKey.sndKey) fun _ => h.modChan.memPut.modChan.sndKey

theorem OnlyChan.drainAll : OnlyChan c s (s.drainAll c) :=
  pres_fold (Q := OnlyChan c s) _ _ .refl fun _ _ h => h.drainWrite

end

/-- Steps that each touch the one channel they name, and move it from a to b, move all of them. -/
theorem foldl_chans {f : State → Nat → State} {a b : ChState} (touches : ∀ s c, OnlyChan c s (f s c))
    (moves : ∀ s c, (s.chan c).st = a → ((f s c).chan c).st = b) (s : State) (k : Nat) :
    ((List.range k).foldl f s).ports = s.ports ∧ (∀ i, k ≤ i → ((List.range k).foldl f s).chan i = s.chan i)
      ∧ ∀ i, i < k → (s.chan i).st = a → (((List.range k).foldl f s).chan i).st = b := by
  induction k with
  | zero => exact ⟨rfl, fun _ _ => rfl, fun i lt => absurd lt (Nat.not_lt_zero i)⟩
  | succ k ih =>
    obtain ⟨ports, after, before⟩ := ih
    rw [List.range_succ, List.foldl_append, List.foldl_cons, List.foldl_nil]
    generalize (List.range k).foldl f s = u at *
    refine ⟨(touches u k).ports.trans ports, fun i le => ?_, fun i lt st => ?_⟩
    · rw [(touches u k).others i (by omega), after i (by omega)]
    · by_cases last : i = k
      · subst last
        exact moves u i (by rw [after i le_rfl, st])
      · rw [(touches u k).others i last]
        exact before i (by omega) st

theorem State.chans_release (s : State) (q core hub : Nat) : (s.release q core hub).chans = s.chans := by
  unfold State.release
  dsimp only

theorem State.selfRefresh_chans (s : State) :
    s.selfRefresh.ports = s.ports ∧ ∀ i, i < 24 → (s.chan i).st = .run → (s.selfRefresh.chan i).st = .selfref := by
  have all := foldl_chans (f := fun s c => if (s.chan c).st = .run then
      ((s.drainAll c).release (reqChan c) 0 12).modChan c fun x => { x with st := .selfref } else s) (a := .run) (b := .selfref)
    (fun s c => pres_ite (fun _ => OnlyChan.drainAll.release.modChan) fun _ => .refl)
    (fun s c run => by rw [if_pos run, State.modChan_eq, State.chan_setChan]) s 24
  exact ⟨all.1, all.2.2⟩

/-- One channel leaves self-refresh (R279, R360). -/
def State.leaveOne (s : State) (c : Nat) : State :=
  if (s.chan c).st = .selfref then
    let s := (s.claim (reqChan c) 0 12).1
    let x := s.chan c
    let s := if x.pasrSupp then s.fillEighths c (~~~x.keep) false else s
    s.modChan c fun x => { x with st := .run }
  else s

theorem State.leaveOne_onlyChan (s : State) (c : Nat) : OnlyChan c s (s.leaveOne c) := by
  have claimed : OnlyChan c s (s.claim (reqChan c) 0 12).1 := .of_eq (State.chans_claim ..) (State.ports_claim ..)
  have filled {u : State} {mask : BitVec 8} {poison : Bool} (h : OnlyChan c s u) : OnlyChan c s (u.fillEighths c mask poison) := by
    unfold State.fillEighths
    exact OnlyChan.modChan (h.keeps rfl rfl)
  unfold State.leaveOne
  exact pres_ite (fun _ => (pres_ite (fun _ => filled claimed) fun _ => claimed).modChan) fun _ => .refl

theorem State.pwr_leaveOne (s : State) (c : Nat) : (s.leaveOne c).pwr = s.pwr := by
  unfold State.leaveOne
  split
  · rw [State.modChan_eq, State.setChan_pwr]
    split
    · rw [State.fillEighths, State.modChan_eq, State.setChan_pwr]
      exact State.pwr_claim ..
    · exact State.pwr_claim ..
  · rfl

theorem State.leaveRefresh_eq (s : State) : s.leaveRefresh = (List.range 24).foldl State.leaveOne s := rfl

theorem State.leaveRefresh_chans (s : State) (i : Nat) (lt : i < 24) (st : (s.chan i).st = .selfref) :
    (s.leaveRefresh.chan i).st = .run := by
  have all := foldl_chans (f := State.leaveOne) (a := .selfref) (b := .run) State.leaveOne_onlyChan
    (fun s c st => by rw [State.leaveOne, if_pos st, State.modChan_eq, State.chan_setChan]) s 24
  exact all.2.2 i lt st

theorem State.pwr_leaveRefresh (s : State) : s.leaveRefresh.pwr = s.pwr := by
  rw [State.leaveRefresh_eq]
  exact foldl_keeps (g := State.pwr) State.pwr_leaveOne _ s

theorem State.rootsDown_chans (s : State) : s.rootsDown.chans = s.chans
    ∧ ∀ p, (s.rootsDown.port p).role = 1 → (s.rootsDown.port p).link = 0 := by
  refine ⟨?_, fun p => ?_⟩
  · unfold State.rootsDown
    dsimp only
    refine foldl_keeps (g := State.chans) (fun s b => ?_) _ s
    rw [State.modBlock_eq, State.setBlock_chans, State.chans_release]
  · unfold State.rootsDown State.port
    dsimp only
    rw [sget_smap ({} : Port) _ _ (fun _ => rfl)]
    split
    · exact fun _ => rfl
    · exact fun role => absurd role ‹_›

/-! ### Entering and leaving Lagoon (R360) -/

/-- The Isles that a Lagoon entry puts in Neap. -/
def State.awakeIsles (s : State) : List Nat := (List.range 12).filter fun n => (s.isle n).st == .run || (s.isle n).st == .slack

/-- The package at rest but for its base: Isles in Neap, root ports down, channels in self-refresh. -/
def State.lagoonRest (s : State) : State := ((s.awakeIsles.foldl (fun s n => s.isleNeap n) s).rootsDown).selfRefresh

/-- The bearings of the base and of Harbour are released. -/
def State.lagoonRelease (s : State) : State :=
  let s := s.release reqUmf 0 160
  if s.harbour.st = .run then s.release reqHarbour 0 24 else s

/-- What a Lagoon entry leaves of the power controller. -/
def Pwr.asleep (p : Pwr) (entered : BitVec 12) : Pwr :=
  { p with lagoon := true, entered, wakeName := none, umfAwake := false, stream := { p.stream with saving := true } }

theorem State.lagoonRelease_keeps (s : State) : s.lagoonRelease.chans = s.chans ∧ s.lagoonRelease.ports = s.ports := by
  unfold State.lagoonRelease
  dsimp only
  split <;> exact ⟨rfl, rfl⟩

theorem State.lagoonRest_chans (s : State) (i : Nat) (lt : i < 24) (run : (s.chan i).st = .run) : (s.lagoonRest.chan i).st = .selfref := by
  have isles : ChansAre s.chans (s.awakeIsles.foldl (fun s n => s.isleNeap n) s) :=
    pres_fold (Q := ChansAre s.chans) _ _ rfl fun _ _ h => h.isleNeap
  refine (State.selfRefresh_chans _).2 i lt ?_
  rw [State.chan, (State.rootsDown_chans _).1, show State.chans _ = s.chans from isles]
  exact run

theorem State.lagoonRest_ports (s : State) (p : Nat) (root : (s.lagoonRest.port p).role = 1) : (s.lagoonRest.port p).link = 0 := by
  have same : s.lagoonRest.port p = (s.awakeIsles.foldl (fun s n => s.isleNeap n) s).rootsDown.port p := by
    rw [State.port, State.lagoonRest, (State.selfRefresh_chans _).1, State.port]
  rw [same] at root ⊢
  exact (State.rootsDown_chans _).2 p root

theorem State.lagoonRelease_chans (s : State) (i : Nat) (lt : i < 24) (run : (s.chan i).st = .run) :
    (s.lagoonRest.lagoonRelease.chan i).st = .selfref := by
  rw [State.chan, s.lagoonRest.lagoonRelease_keeps.1]
  exact s.lagoonRest_chans i lt run

theorem State.lagoonRelease_ports (s : State) (p : Nat) (root : (s.lagoonRest.lagoonRelease.port p).role = 1) :
    (s.lagoonRest.lagoonRelease.port p).link = 0 := by
  rw [State.port, s.lagoonRest.lagoonRelease_keeps.2] at root ⊢
  exact s.lagoonRest_ports p root

theorem exec_lagoonEnter {s : State} {q : PReq} (begun : s.beginning .package = some q) (asked : q.target = 2)
    (awake : s.pwr.lagoon = false)
    (free : s.refuserOf .package q = none) (ready : ∀ i : Fin 12, (s.isle i).st = .run ∨ (s.isle i).st = .slack →
      s.isleDrained i = true ∧ s.isleQuiet i = true ∧ s.refuserOf (.isle i) { q with target := 2 } = none) :
    ∃ entered, exec .lagoonEnter s = .next
      ({ s.lagoonRest.lagoonRelease with pwr := s.lagoonRest.lagoonRelease.pwr.asleep entered }.recKey posUmf 0o010003 0 []) := by
  have up {n : Nat} (h : n ∈ s.awakeIsles) : s.isleDrained n = true ∧ s.isleQuiet n = true
      ∧ s.refuserOf (.isle (Fin.ofNat 12 n)) { q with target := 2 } = none := by
    rw [State.awakeIsles, List.mem_filter, List.mem_range, Bool.or_eq_true, beq_iff_eq, beq_iff_eq] at h
    obtain ⟨lt, st⟩ := h
    have same : Fin.ofNat 12 n = ⟨n, lt⟩ := Fin.ext (Nat.mod_eq_of_lt lt)
    rw [same]
    exact ready ⟨n, lt⟩ st
  have none : (s.awakeIsles.findSome? fun n => s.refuserOf (.isle (Fin.ofNat 12 n)) { q with target := 2 }) = none :=
    List.findSome?_eq_none_iff.mpr fun n h => (up h).2.2
  have drained : (s.awakeIsles.any fun n => !s.isleDrained n) = false :=
    List.any_eq_false.mpr fun n h => by rw [(up h).1, Bool.not_true]; exact Bool.false_ne_true
  have quiet : (s.awakeIsles.any fun n => !s.isleQuiet n) = false :=
    List.any_eq_false.mpr fun n h => by rw [(up h).2.1, Bool.not_true]; exact Bool.false_ne_true
  have stays : ¬ (q.target ≠ 2 ∨ s.pwr.lagoon = true) := by
    rw [awake]
    simp [asked]
  refine ⟨s.awakeIsles.foldl (fun (b : BitVec 12) n => b ||| ((1 : BitVec 12) <<< n)) 0, ?_⟩
  show execLagoonEnter s = _
  unfold execLagoonEnter
  rw [begun]
  dsimp only
  rw [if_neg stays, free]
  dsimp only
  rw [← State.awakeIsles, none]
  dsimp only
  rw [drained, quiet, if_neg Bool.false_ne_true, if_neg Bool.false_ne_true]
  rw [← State.lagoonRest]
  generalize s.lagoonRest = v
  rfl

section
variable {s : State} {n : Nat}

/-- What raises an Isle touches the ledger, cores and Isles. -/
theorem State.isleRaise_frame {u : State} (raised : s.isleRaise n = some u) :
    ∃ l cs is, u = { s with ledger := l, cores := cs, isles := is } := by
  unfold State.isleRaise at raised
  dsimp only at raised
  split at raised
  · cases raised
    exact ⟨_, _, _, rfl⟩
  · split at raised
    next => cases raised
    next u' claimed =>
      cases raised
      obtain ⟨frame, -⟩ := State.claim_moves claimed
      obtain ⟨cs, cores⟩ := State.restoreBits_frame u' n (s.isle n).wasUp 24
      have fold := cores
      unfold State.restoreBit at fold
      rw [fold, frame]
      exact ⟨_, _, _, rfl⟩

theorem State.wakeIsle_keeps (s : State) (n : Nat) : (s.wakeIsle n).chans = s.chans ∧ (s.wakeIsle n).pwr = s.pwr := by
  unfold State.wakeIsle
  split
  next raised =>
    obtain ⟨l, cs, is, rfl⟩ := State.isleRaise_frame raised
    exact ⟨rfl, rfl⟩
  next =>
    rw [State.modIsle_eq, State.setIsle_chans, State.setIsle_pwr]
    exact ⟨State.chans_claim .., State.pwr_claim ..⟩

end

/-- The HUB that leaving Lagoon claims: the base, Harbour when it runs, and the channels (R352, R360). -/
def State.exitHub (s : State) : Nat := (160 + if s.harbour.st = .run then 24 else 0) + s.refreshHub

/-- The base and Harbour have their bearings back. -/
def State.baseClaim (s : State) : State :=
  let s := (s.claim reqUmf 0 160).1
  if s.harbour.st = .run then (s.claim reqHarbour 0 24).1 else s

/-- What a Lagoon exit that a wake named leaves of the power controller. -/
def Pwr.awoken (p : Pwr) : Pwr :=
  { p with lagoon := false, wakeName := none, umfAwake := true, stream := if p.stream.saving then p.stream.done else p.stream }

/-- The package that a wake has brought out of Lagoon, but for the Isle it names. -/
def State.exited (s : State) : State :=
  { s.baseClaim.leaveRefresh with pwr := s.pwr.awoken }.recKey posUmf 0o010004 0 [rp s.pwr.wakesrc.toNat]

theorem State.exited_keeps (s : State) : s.exited.chans = s.baseClaim.leaveRefresh.chans ∧ s.exited.pwr = s.pwr.awoken := by
  unfold State.exited
  generalize s.baseClaim.leaveRefresh = v
  exact ⟨rfl, rfl⟩

theorem Pwr.awoken_held {p : Pwr} (alone : p.stream.held = none) : p.awoken.stream.held = none := by
  show (if p.stream.saving then p.stream.done else p.stream).held = none
  split <;> exact alone

theorem State.baseClaim_keeps (s : State) : s.baseClaim.chans = s.chans ∧ s.baseClaim.pwr = s.pwr := by
  unfold State.baseClaim
  dsimp only
  split
  · rw [State.chans_claim, State.chans_claim, State.pwr_claim, State.pwr_claim]
    exact ⟨rfl, rfl⟩
  · rw [State.chans_claim, State.pwr_claim]
    exact ⟨rfl, rfl⟩

section
variable {s : State} {n : Fin 12} (rests : s.pwr.lagoon = true) (named : s.pwr.wakeName = some n)
include rests named

theorem exec_lagoonExit_refused (no : claimOk s.ledger 0 s.exitHub = false) : exec .lagoonExit s
    = .next { s with ledger := { s.ledger with refused := s.ledger.refused + 1, ptr := 0 } } := by
  have asks : ¬ (0 = 0 ∧ s.exitHub = 0) := by
    unfold State.exitHub
    omega
  show execLagoonExit s = _
  unfold execLagoonExit
  rw [rests, named]
  dsimp only
  rw [← State.exitHub, no]
  show Host.Outcome.next (s.claim reqUmf 0 s.exitHub).1 = _
  rw [State.claim_refused s reqUmf asks (ne_true_of_eq_false no)]
  rfl

theorem exec_lagoonExit_granted (ok : claimOk s.ledger 0 s.exitHub = true) (alone : s.pwr.stream.held = none) :
    exec .lagoonExit s = .next (s.exited.wakeIsle n) := by
  have pwr : s.baseClaim.leaveRefresh.pwr = s.pwr := (State.pwr_leaveRefresh _).trans s.baseClaim_keeps.2
  have idle : ((s.exited.wakeIsle n).streamOf .package).held = none := by
    rw [State.streamOf, (s.exited.wakeIsle_keeps n).2]
    exact Pwr.awoken_held alone
  rw [← State.nextHeld_none idle]
  show execLagoonExit s = _
  unfold execLagoonExit State.exited
  rw [rests, named]
  dsimp only
  rw [← State.exitHub, ok, ← State.baseClaim]
  generalize s.baseClaim.leaveRefresh = v at *
  rw [pwr]
  rfl

end

/-! ### Waking (R361, R363, R364, R457, R391) -/

/-- A claim rests on the ledger alone. -/
theorem State.claim_ledger {s u : State} (same : u.ledger = s.ledger) (q core hub : Nat) :
    (u.claim q core hub).1.ledger = (s.claim q core hub).1.ledger := by
  unfold State.claim
  dsimp only
  rw [same]
  split
  · exact same
  · split <;> rfl

theorem State.lagoonWake_first {s : State} (rests : s.pwr.lagoon = true) (unnamed : s.pwr.wakeName = none) (n : Fin 12) (src : BitVec 6) :
    s.lagoonWake n src = { s with pwr := { s.pwr with wakeName := some n, wakesrc := src, umfAwake := true } } := by
  unfold State.lagoonWake
  rw [rests, unnamed]
  rfl

theorem State.abortEntry_idle {s : State} {u : PUnit} (idle : (s.streamOf u).act = none) : s.abortEntry u = s := by
  unfold State.abortEntry
  dsimp only
  rw [idle]

theorem State.wakeIsle_awake {s : State} {n : Nat} (awake : (s.isle n).st ≠ .neap) :
    s.wakeIsle n = s.setIsle n { s.isle n with wakeWait := false } := by
  unfold State.wakeIsle
  rw [State.isleRaise_awake awake]
  rfl

section
variable {s : State} {c : Fin 288} {n : Fin 12}

theorem State.wakeCore_neap (neap : (s.core c).st = .neap) (awake : (s.isle (c / 24)).st ≠ .neap)
    (ok : claimOk s.ledger (coreBearing (s.core c).fCur.toNat - 1) 0 = true) : s.wakeCore c
      = (s.claim (c / 24) (coreBearing (s.core c).fCur.toNat - 1) 0).1.setCore c { s.core c with st := .run } := by
  unfold State.wakeCore State.coreRestore
  rw [if_pos ⟨neap, awake⟩, State.claim_of_ok _ _ _ _ ok]
  dsimp only
  rw [State.modCore_eq, State.core_claim]
  rfl

/-- A core in Neap whose Isle is awake is woken, its claim granted. -/
theorem State.wakeCore_woken (own : n.val = c.val / 24) (neap : (s.core c).st = .neap) (awake : (s.isle n).st ≠ .neap)
    (ok : claimOk s.ledger (coreBearing (s.core c).fCur.toNat - 1) 0 = true) : ∃ u, (s.wakeIsle n).wakeCore c = u
      ∧ u.core c = { s.core c with st := .run } ∧ u.isle n = { s.isle n with wakeWait := false }
      ∧ u.ledger = (s.claim n (coreBearing (s.core c).fCur.toNat - 1) 0).1.ledger := by
  refine ⟨_, rfl, ?_⟩
  rw [State.wakeIsle_awake awake]
  generalize hv : s.setIsle n { s.isle n with wakeWait := false } = v
  have core : v.core c = s.core c := by rw [← hv, State.core_setIsle]
  have isle : v.isle n = { s.isle n with wakeWait := false } := by rw [← hv, State.isle_setIsle]
  have ledger : v.ledger = s.ledger := by rw [← hv, State.setIsle_ledger]
  have awake' : (v.isle (c / 24)).st ≠ .neap := by
    rw [← own, isle]
    exact awake
  rw [State.wakeCore_neap (core ▸ neap) awake' (by rw [core, ledger]; exact ok), State.core_setCore, State.isle_setCore, State.isle_claim,
    State.setCore_ledger, core, isle, ← own]
  exact ⟨rfl, rfl, State.claim_ledger ledger ..⟩

variable (fit : s.isleFit n.val = true) (own : n.val = c.val / 24)
include fit own

theorem State.unitFit_core : s.unitFit (.core c) = true := by
  show s.isleFit (c.val / 24) = true
  rw [← own]
  exact fit

theorem exec_wake_core_unmet (unmet : s.wakes c = false) : exec (.wake (.core c)) s = .next s := by
  show execWake (.core c) s = _
  unfold execWake
  rw [State.unitFit_core fit own]
  dsimp only
  rw [unmet]
  rfl

section
variable (met : s.wakes c = true)
include met

theorem exec_wake_core_lagoon (rests : s.pwr.lagoon = true) : exec (.wake (.core c)) s = .next (s.lagoonWake n 1) := by
  have named : Fin.ofNat 12 (c.val / 24) = n := by rw [← own, Fin.ofNat_val_eq_self]
  show execWake (.core c) s = _
  unfold execWake
  rw [State.unitFit_core fit own]
  dsimp only
  rw [met, rests, named]
  rfl

variable (awake : s.pwr.lagoon = false) (idle : (s.core c).stream.act = none)
include awake idle

theorem exec_wake_core_slack (slack : (s.core c).st = .slack) :
    exec (.wake (.core c)) s = .next (s.setCore c { s.core c with st := .run, slackReq := false }) := by
  show execWake (.core c) s = _
  unfold execWake
  rw [State.unitFit_core fit own]
  dsimp only
  rw [met, awake, State.abortEntry_idle (u := .core c) idle, slack]
  rfl

theorem exec_wake_core_neap (neap : (s.core c).st = .neap) :
    exec (.wake (.core c)) s = .next ((s.wakeIsle n).wakeCore c) := by
  show execWake (.core c) s = _
  unfold execWake
  rw [State.unitFit_core fit own]
  dsimp only
  rw [met, awake, State.abortEntry_idle (u := .core c) idle, neap, ← own]
  rfl

end

end

theorem exec_portWake_unsensed {s : State} {b : Fin 12} (off : s.pwr.wakePort.getLsbD b.val = false) : exec (.portWake b) s = .next s := by
  show execPortWake b s = _
  unfold execPortWake
  rw [off]
  rfl

theorem exec_portWake {s : State} {b : Fin 12} (on : s.pwr.wakePort.getLsbD b.val = true) (sensed : (s.block b).wakeOut = false) :
    exec (.portWake b) s = .next (s.lagoonWake s.namedIsle (BitVec.ofNat 6 (16 + b.val))) := by
  show execPortWake b s = _
  unfold execPortWake
  rw [on, sensed]
  rfl

section
variable {s : State} {addr : BitVec 7} (started : 3 ≤ s.board.step)
include started

theorem exec_smbusAddressMatch_own (own : addr.toNat = 0x58 + s.board.smbAddr.toNat) (quiet : s.pwr.wakeSmb = false) :
    exec (.smbusAddressMatch addr) s
      = .next { s with umf := { s.umf with sclHeld := true }, pwr := { s.pwr with umfAwake := true } } := by
  have front : ¬ 0x58 + s.board.smbAddr.toNat = 0x0C := by omega
  show execSmbusAddressMatch addr s = _
  simp only [execSmbusAddressMatch, front, own, started, quiet, true_or, decide_true, decide_false, Bool.false_and, Bool.and_true,
    Bool.false_eq_true, if_false, if_true]

theorem exec_smbusAddressMatch_alert (alert : addr = 0x0C) (driven : s.smbAlert = true) : exec (.smbusAddressMatch addr) s
    = .next { s with umf := { s.umf with smbOut := [BitVec.ofNat 8 (2 * (0x58 + s.board.smbAddr.toNat))] } } := by
  have front : addr.toNat = 0x0C := by rw [alert]; rfl
  show execSmbusAddressMatch addr s = _
  simp only [execSmbusAddressMatch, front, started, driven, true_or, decide_true, Bool.and_true, if_true]

end

/-- Settles O55, transition by transition: each clause is what its own command does. -/
theorem powerTransitions : Obligations.PowerTransitions := by
  unfold Obligations.PowerTransitions
  intro s c n b k q tr addr x y
  refine ⟨fun fit own begun => ?core, fun fit begun => ?isle, exec_harbourToDry, exec_portBlockToDry,
    fun begun asked => ⟨fun harbour dry ok => ?harbour, fun port dry => ?block⟩, fun begun asked awake free ready => ?lagoonEnter,
    fun rests named alone => ?lagoonExit, fun fit own met => ?wake, exec_wake_core_unmet, fun on sensed rests unnamed => ?portWake,
    exec_portWake_unsensed, fun own started quiet => exec_smbusAddressMatch_own started own quiet,
    fun alert started driven => exec_smbusAddressMatch_alert started alert driven⟩
  case core =>
    refine ⟨exec_coreToNeap_undrained fit own begun, fun asked up calm drained => ?_, exec_coreNeapToRun_awake fit own begun,
      fun asked powered calm rests => ⟨_, exec_coreToDry fit own begun asked powered calm rests, s.coreDry_saving c⟩,
      fun asked dry awake ok => ?_⟩
    · rw [own]
      exact ⟨_, exec_coreToNeap_drained fit own begun asked up calm drained, s.coreNeap_saving c⟩
    · obtain ⟨st, fCur, dirTab, mode, ledger⟩ := (s.claim n 9 0).1.coreUp_reset c
      exact ⟨_, exec_coreDryToRun fit own begun asked dry awake ok, st, fCur, dirTab, mode, ledger, CoresOnly.refl.claim.coreUp.frame⟩
  case isle =>
    refine ⟨fun asked up drained loud calm => ?_, fun asked up drained quiet calm => ?_, fun asked neap ok => ?_,
      fun asked up calm may => ?_, fun asked dry off ok t admitted => ?_⟩
    · have moves := exec_isleToNeap_open fit begun asked up drained calm loud
      refine ⟨fun first => moves.trans ?_, fun again alone => moves.trans ?_⟩
      · rw [if_neg (ne_true_of_eq_false first)]
        rfl
      · rw [if_pos again, State.refuseAct_alone (u := .isle n) 4 alone]
        rfl
    · obtain ⟨st, was⟩ := s.isle_isleNeap n
      refine ⟨_, exec_isleToNeap_quiet fit begun asked up drained calm quiet, ?_⟩
      generalize s.isleNeap n = v at *
      rw [State.isle_modStream]
      exact ⟨st, rfl, was⟩
    · obtain ⟨u, raised, isle, ledger, cores, frame⟩ := State.isleRaise_woken neap ok
      exact ⟨u, exec_isleNeapToRun fit begun asked neap raised, isle, ledger, cores, frame⟩
    · exact ⟨_, exec_isleToDry fit begun asked up calm may, s.isleDry_saving n⟩
    · exact ⟨exec_isleDryToRun fit begun asked dry off ok admitted, State.islePower_admitted admitted⟩
  case harbour =>
    have dry' : s.blockDry k = true := by
      unfold State.blockDry
      rw [if_pos harbour, dry]
      rfl
    rw [exec_keystoneBlockToRun begun asked dry', State.blockUp_harbour harbour ok]
    rfl
  case block =>
    obtain rfl : k = ⟨b.val + 1, Nat.succ_lt_succ b.isLt⟩ := Fin.ext port
    refine ⟨exec_keystoneBlockToRun_granted begun asked dry, fun refused alone => ?_⟩
    obtain ⟨u, moves, block⟩ := exec_keystoneBlockToRun_refused begun asked dry refused alone
    refine ⟨u, moves, ?_⟩
    rw [block]
    exact ⟨dry, rfl, rfl, rfl, rfl⟩
  case lagoonEnter =>
    obtain ⟨entered, moves⟩ := exec_lagoonEnter begun asked awake free ready
    refine ⟨_, moves, ?_⟩
    have chans := s.lagoonRelease_chans
    have ports := s.lagoonRelease_ports
    generalize s.lagoonRest.lagoonRelease = v at *
    exact ⟨rfl, rfl, rfl, rfl, chans, ports⟩
  case lagoonExit =>
    refine ⟨fun ok => ⟨_, exec_lagoonExit_granted rests named ok alone, ?_, fun i lt st => ?_⟩, exec_lagoonExit_refused rests named⟩
    · exact (s.exited.wakeIsle_keeps n).2.trans s.exited_keeps.2
    · rw [State.chan, (s.exited.wakeIsle_keeps n).1, s.exited_keeps.1]
      refine s.baseClaim.leaveRefresh_chans i lt ?_
      rw [State.chan, s.baseClaim_keeps.1]
      exact st
  case wake =>
    refine ⟨fun awake idle => ⟨exec_wake_core_slack fit own met awake idle, fun neap up ok => ?_⟩, fun rests unnamed => ?_⟩
    · obtain ⟨u, woken, core, isle, ledger⟩ := State.wakeCore_woken own neap up ok
      exact ⟨u, (exec_wake_core_neap fit own met awake idle neap).trans (congrArg _ woken), core, isle, ledger⟩
    · rw [exec_wake_core_lagoon fit own met rests, State.lagoonWake_first rests unnamed]
  case portWake => rw [exec_portWake on sensed, State.lagoonWake_first rests unnamed]

end Sys2Proof.Machine

/-! What an Isle answers to a snoop (R185, R186, R188). -/

namespace Sys2Proof.Machine

/-! ### A snoop stays within its Isle (R186) -/

/-- What no operation of an Isle's agent touches: memory, the threads and the homes. -/
def State.outside (s : State) : Store LineVal × Store Thread × Home := (s.mem, s.threads, s.home)

theorem State.outside_ite (p : Prop) [Decidable p] (s u : State) :
    (if p then s else u).outside = if p then s.outside else u.outside := apply_ite ..

section
variable (s : State) (i n : Nat)

@[simp] theorem State.outside_setIsle (x : Isle) : (s.setIsle i x).outside = s.outside := rfl
@[simp] theorem State.outside_setCore (q : Nat) (x : Core) : (s.setCore q x).outside = s.outside := rfl
@[simp] theorem State.outside_setStrait (x : Strait) : (s.setStrait i x).outside = s.outside := rfl
@[simp] theorem State.outside_sndIsle (ev unit : Nat) (vault : Bool) (k : Nat) : (s.sndIsle i ev unit vault k).outside = s.outside := rfl
@[simp] theorem State.outside_recIsle (code : BitVec 16) (unit p0 p1 : Nat) (id : Xid) :
    (s.recIsle i code unit p0 p1 id).outside = s.outside := rfl

@[simp] theorem State.outside_send (m : Msg) : (s.send m).outside = s.outside := by
  unfold State.send
  split <;> rfl

@[simp] theorem State.outside_arrived (m : Msg) : (s.arrived m).outside = s.outside := by
  obtain ⟨_, _, h⟩ := s.arrived_eq m
  rw [h]
  rfl

@[simp] theorem State.outside_modArrErr (a : Arr) (f : Store (BitVec 2) → Store (BitVec 2)) :
    (s.modArrErr i a f).outside = s.outside := by
  cases a <;> rfl

@[simp] theorem State.outside_modArrTags (a : Arr) (f : Store (BitVec 2) → Store (BitVec 2)) :
    (s.modArrTags i a f).outside = s.outside := by
  cases a <;> rfl

@[simp] theorem State.outside_loseClean (a : Arr) : (s.loseClean i a n).outside = s.outside := by
  unfold State.loseClean
  cases a <;> simp [State.outside_ite]

@[simp] theorem State.outside_arrRead (a : Arr) (mask : BitVec 64) (id : Xid) : (s.arrRead i a n mask id).outside = s.outside :=
  foldl_keeps (g := State.outside) (fun s e => by simp [State.outside_ite]) _ s

@[simp] theorem State.outside_supply (id : Xid) : (s.supply i n id).outside = s.outside := by
  unfold State.supply
  split
  · exact s.outside_arrRead ..
  · rfl

@[simp] theorem State.outside_dropCaches : (s.dropCaches i n).outside = s.outside := by
  unfold State.dropCaches
  exact (State.outside_setIsle ..).trans (foldl_keeps (g := State.outside) (fun s _ => s.outside_setCore _ _) _ s)

@[simp] theorem State.outside_cleanCaches : (s.cleanCaches i n).outside = s.outside := by
  unfold State.cleanCaches
  exact (State.outside_setIsle ..).trans (foldl_keeps (g := State.outside) (fun s _ => s.outside_setCore _ _) _ s)

@[simp] theorem State.outside_copyError (unit set way : Nat) (e : BitVec 2) (id : Xid) :
    (s.copyError i unit set way e id).outside = s.outside := by
  unfold State.copyError
  split <;> simp

@[simp] theorem State.outside_tagRead (a : Arr) (id : Xid) : (s.tagRead i a n id).outside = s.outside := by
  unfold State.tagRead
  dsimp only
  generalize hu : List.foldl _ _ _ = u
  have ways : u.outside = s.outside := hu ▸ foldl_keeps (g := State.outside) (fun s e => by simp) _ s
  split <;> simp [ways]

@[simp] theorem State.outside_serveSnoop (m : Msg) : (s.serveSnoop i m).outside = s.outside := by
  unfold State.serveSnoop
  dsimp only
  generalize snoopAct _ _ m.ty = r
  obtain ⟨act, st⟩ := r
  cases act <;> simp only [State.outside_ite, State.outside_send, State.modIsle_eq, State.outside_setIsle, State.outside_cleanCaches,
    State.outside_dropCaches, State.outside_supply, State.outside_sndIsle, ite_self]

theorem State.outside_inj {u : State} (same : u.outside = s.outside) : u.mem = s.mem ∧ u.threads = s.threads ∧ u.home = s.home := by
  simpa only [State.outside, Prod.mk.injEq] using same

/-- A snoop, served or deferred, leaves memory, the threads and the homes. -/
theorem State.outside_recvSnoop (m : Msg) : (s.recvSnoop i m).outside = s.outside := by
  unfold State.recvSnoop
  simp [State.outside_ite]

end

/-! ### The line of a snoop at an Isle without SRAM errors (R142, R143, R186) -/

/-- The agent's lines of Isle i, and the messages that travel. -/
def State.agentView (s : State) (i : Nat) : Store AgentLine × List Msg := ((s.isle i).lines, s.net)

section
variable {s : State} {i : Nat}

/-- A change of an Isle that is not one of its agent's lines. -/
theorem State.agentView_modIsle {f : Isle → Isle} (lines : (f (s.isle i)).lines = (s.isle i).lines) :
    (s.modIsle i f).agentView i = s.agentView i := by
  rw [State.agentView, State.modIsle_eq, State.isle_setIsle, lines]
  rfl

theorem State.agentView_setCore (q : Nat) (x : Core) : (s.setCore q x).agentView i = s.agentView i := rfl

theorem State.agentView_dropCaches (n : Nat) : (s.dropCaches i n).agentView i = s.agentView i := by
  unfold State.dropCaches
  exact (State.agentView_modIsle rfl).trans (foldl_keeps (g := fun s => s.agentView i) (fun _ _ => State.agentView_setCore ..) _ s)

theorem State.agentView_cleanCaches (n : Nat) : (s.cleanCaches i n).agentView i = s.agentView i := by
  unfold State.cleanCaches
  exact (State.agentView_modIsle rfl).trans (foldl_keeps (g := fun s => s.agentView i) (fun _ _ => State.agentView_setCore ..) _ s)

theorem State.line_of_agentView {u : State} (same : u.agentView i = s.agentView i) (n : Nat) : (u.isle i).line n = (s.isle i).line n :=
  congrArg (fun v : Store AgentLine × List Msg => sget ({} : AgentLine) v.1 n) same

theorem State.agentView_inj {ls : Store AgentLine} {net : List Msg} {n : Nat} {a : AgentLine}
    (view : s.agentView i = (sset {} ls n a, net)) : (s.isle i).line n = a ∧ s.net = net := by
  obtain ⟨lines, net⟩ := Prod.mk.inj view
  exact ⟨by rw [Isle.line, lines, sget_sset_same], net⟩

theorem State.agentView_sndIsle (ev unit : Nat) (vault : Bool) (k : Nat) :
    (s.sndIsle i ev unit vault k).agentView i = s.agentView i := State.agentView_modIsle rfl

theorem State.isleClean.arrived (h : s.isleClean i) (m : Msg) : (s.arrived m).isleClean i := by
  obtain ⟨_, _, e⟩ := s.arrived_eq m
  rw [e]
  exact h

theorem State.isleClean.sndIsle (h : s.isleClean i) (ev unit : Nat) (vault : Bool) : (s.sndIsle i ev unit vault).isleClean i := by
  unfold State.isleClean
  rw [State.isle_sndIsle]
  exact h

theorem State.isleClean.tagRead_ic (h : s.isleClean i) (n : Nat) (id : Xid) : s.tagRead i .ic n id = s := by
  obtain ⟨-, tags, agent, -⟩ := h
  unfold State.tagRead State.arrTags
  dsimp only
  rw [tags, List.filter_nil, List.foldl_nil, agent]
  rfl

/-- A line is supplied by the Isle cache, or by an array of one of the Isle's 24 cores. -/
theorem State.supplier_cases {n : Nat} {a : Arr} (found : s.supplier i n = some a) : a = .ic ∨ ∃ c < 24, a = .l1d c ∨ a = .l2 c := by
  have core {p : Nat → Bool} {c : Nat} (h : (List.range 24).find? p = some c) : c < 24 := List.mem_range.mp (List.mem_of_find?_eq_some h)
  unfold State.supplier at found
  dsimp only at found
  split at found
  case h_1 c first => exact .inr ⟨c, core first, .inl (Option.some.inj found).symm⟩
  case h_2 =>
    split at found
    case h_1 c first => exact .inr ⟨c, core first, .inr (Option.some.inj found).symm⟩
    case h_2 =>
      split at found
      · exact .inl (Option.some.inj found).symm
      · obtain ⟨c, first, rfl⟩ := Option.map_eq_some_iff.mp found
        exact .inr ⟨c, core first, .inr rfl⟩

theorem State.isleClean.supply (h : s.isleClean i) (n : Nat) (id : Xid) : s.supply i n id = s := by
  obtain ⟨data, -, -, cores⟩ := h
  have none {a : Arr} (found : s.supplier i n = some a) : s.arrErr i a = [] := by
    rcases State.supplier_cases found with rfl | ⟨c, low, a⟩
    · exact data
    · obtain ⟨-, errD, err2, -⟩ := cores (i * 24 + c) (by omega)
      rcases a with rfl | rfl
      · exact errD
      · exact err2
  unfold State.supply
  split
  next found => rw [State.arrRead, none found]; rfl
  next => rfl

/-! ### The answers of R186 -/

/-- An answer of the Isle that snoop m came to. -/
def SnoopAct.answer (m : Msg) (ty : MsgTy) (st : Moesi) : Msg :=
  { ty, src := m.dst, dst := 15, tag := m.tag, line := m.line, world := m.world, ctx := m.ctx, st }

/-- What the Isle that snoop m came to sends, to the home and before it to the requester, when its line holds v. -/
def SnoopAct.answers (m : Msg) (v : LineVal) : SnoopAct → List Msg
  | .ack st => [SnoopAct.answer m .ack st]
  | .nothing => [{ SnoopAct.answer m .ack .i with resp := Resp.absent.num }]
  | .ackd st => [{ SnoopAct.answer m .ackd st with hasData := true, data := v.bits, poison := v.poison }]
  | .gone => [SnoopAct.answer m .gone .i]
  | .dat d st => [{ SnoopAct.answer m .dat d with dst := m.src, hasData := true, data := v.bits, poison := v.poison },
      SnoopAct.answer m .ack st]

theorem SnoopAct.answers_ty (act : SnoopAct) (m : Msg) (v : LineVal) (ty : MsgTy) :
    act.answers { m with ty } v = act.answers m v := by
  cases act <;> rfl

theorem ansMsg_eq (ty : MsgTy) (m : Msg) (st : Moesi) : ansMsg ty m.dst.toNat m st = SnoopAct.answer m ty st := by
  rw [ansMsg, BitVec.ofNat_toNat, BitVec.setWidth_eq]
  rfl

theorem datMsg_eq (m : Msg) (st : Moesi) (v : LineVal) : datMsg m.dst.toNat m st v
    = { SnoopAct.answer m .dat st with dst := m.src, hasData := true, data := v.bits, poison := v.poison } := by
  rw [datMsg, BitVec.ofNat_toNat, BitVec.setWidth_eq]
  rfl

/-- Only a grant, a completion or BUSY goes to a requester without caches. -/
theorem State.agentView_send {g : Msg} (kind : (g.ty == .gnt || g.ty == .cmp || g.ty == .busy) = false) :
    (s.send g).agentView i = ((s.agentView i).1, (s.agentView i).2 ++ [g]) := by
  rw [State.send, kind, Bool.and_false, if_neg Bool.false_ne_true]
  rfl

theorem State.agentView_setLine (n : Nat) (a : AgentLine) :
    (s.modIsle i fun x => x.setLine n a).agentView i = (sset {} (s.agentView i).1 n a, (s.agentView i).2) := by
  rw [State.agentView, State.modIsle_eq, State.isle_setIsle]
  rfl

/-- The agent's line once a snoop has been served and it takes state st. -/
def AgentLine.served (a : AgentLine) (st : AState) : AgentLine :=
  if st = .i then { deferred := a.deferred }
  else { a with st, val := if st == .i || st == .imD then {} else a.val, wasO := a.wasO && st == .smA }

theorem AgentLine.served_st (a : AgentLine) (st : AState) : (a.served st).st = st := by
  unfold AgentLine.served
  split
  next none => exact none.symm
  next => rfl

theorem AgentLine.served_val (a : AgentLine) {st : AState} (keeps : st ≠ .i ∧ st ≠ .imD) : (a.served st).val = a.val := by
  simp [AgentLine.served, keeps]

/-- A snoop served at an Isle without SRAM errors: the table of R186 gives the answers and the state. -/
theorem State.isleClean.serveSnoop {m : Msg} (h : s.isleClean m.dst.toNat) {a : AgentLine}
    (line : (s.isle m.dst.toNat).line m.line.toNat = a)
    {act : SnoopAct} {st : AState} (table : snoopAct a.st a.wasO m.ty = (act, st)) :
    (s.serveSnoop m.dst.toNat m).agentView m.dst.toNat
      = (sset {} (s.isle m.dst.toNat).lines m.line.toNat (a.served st), s.net ++ act.answers m a.val) := by
  have kept (p q : Prop) [Decidable p] [Decidable q] : (if q then
        (if p then s.dropCaches m.dst.toNat m.line.toNat else s).cleanCaches m.dst.toNat m.line.toNat
      else if p then s.dropCaches m.dst.toNat m.line.toNat else s).agentView m.dst.toNat = s.agentView m.dst.toNat := by
    split_ifs <;> simp only [State.agentView_cleanCaches, State.agentView_dropCaches]
  unfold State.serveSnoop
  dsimp only
  rw [line, table]
  dsimp only
  rw [h.supply, ite_self, line]
  generalize hu : State.modIsle _ m.dst.toNat _ = u
  have taken : u.agentView m.dst.toNat = (sset {} (s.isle m.dst.toNat).lines m.line.toNat (a.served st), s.net) := by
    rw [← hu, State.agentView_setLine, kept]
    rfl
  cases act with
  | ack x => rw [State.agentView_send rfl, taken, ansMsg_eq]; rfl
  | nothing => rw [State.agentView_send rfl, taken, ansMsg_eq]; rfl
  | ackd x => rw [State.agentView_send rfl, taken, ackdMsg, ansMsg_eq]; rfl
  | gone => rw [State.agentView_send rfl, State.agentView_sndIsle, taken, ansMsg_eq]; rfl
  | dat d x => rw [State.agentView_send rfl, State.agentView_send rfl, taken, datMsg_eq, ansMsg_eq, List.append_assoc]; rfl

/-- A snoop of a line that is held, and not being won, is served at once. -/
theorem State.isleClean.recvSnoop_serves {m : Msg} (h : s.isleClean m.dst.toNat) {a : AgentLine}
    (line : (s.isle m.dst.toNat).line m.line.toNat = a) (held : ¬ (a.st = .isD ∨ a.st = .imD ∨ a.window = true))
    {act : SnoopAct} {st : AState} (table : snoopAct a.st a.wasO m.ty = (act, st)) :
    (s.recvSnoop m.dst.toNat m).agentView m.dst.toNat
      = (sset {} (s.isle m.dst.toNat).lines m.line.toNat (a.served st), s.net ++ act.answers m a.val) := by
  have line' : ((s.sndIsle m.dst.toNat 3 2047 m.world).isle m.dst.toNat).line m.line.toNat = a :=
    (State.line_of_agentView (State.agentView_sndIsle ..) _).trans line
  unfold State.recvSnoop
  dsimp only
  rw [(h.sndIsle ..).tagRead_ic, line', if_neg held, (h.sndIsle ..).serveSnoop line' table, State.isle_sndIsle]
  rfl

/-- A snoop of a line that is being won, or within its window, waits behind those that came before (R186, R188). -/
theorem State.isleClean.recvSnoop_defers {m : Msg} (h : s.isleClean m.dst.toNat) {a : AgentLine}
    (line : (s.isle m.dst.toNat).line m.line.toNat = a) (busy : a.st = .isD ∨ a.st = .imD ∨ a.window = true) :
    (s.recvSnoop m.dst.toNat m).agentView m.dst.toNat
      = (sset {} (s.isle m.dst.toNat).lines m.line.toNat { a with deferred := a.deferred ++ [m] }, s.net) := by
  have line' : ((s.sndIsle m.dst.toNat 3 2047 m.world).isle m.dst.toNat).line m.line.toNat = a :=
    (State.line_of_agentView (State.agentView_sndIsle ..) _).trans line
  unfold State.recvSnoop
  dsimp only
  rw [(h.sndIsle ..).tagRead_ic, line', if_pos busy, State.agentView_setLine, State.agentView_sndIsle, State.agentView_sndIsle]
  rfl

end

/-! ### The six snoops -/

/-- The snoops, each with the command that brings it. -/
def snoopKinds (m : Msg) : List (Instr × MsgTy) :=
  [(.fws m, .fws), (.fwu m, .fwu), (.sng m, .sng), (.snc m, .snc), (.sni m, .sni), (.inv m, .inv)]

theorem exec_snoop {s : State} {m : Msg} {c : Instr} {ty : MsgTy} (kind : (c, ty) ∈ snoopKinds m) (h : s.comes { m with ty })
    (fit : s.isleFit m.dst.toNat = true) : exec c s = .next ((s.arrived { m with ty }).recvSnoop m.dst.toNat { m with ty }) := by
  simp only [snoopKinds, List.mem_cons, Prod.mk.injEq, List.not_mem_nil, or_false] at kind
  rcases kind with ⟨rfl, rfl⟩ | ⟨rfl, rfl⟩ | ⟨rfl, rfl⟩ | ⟨rfl, rfl⟩ | ⟨rfl, rfl⟩ | ⟨rfl, rfl⟩
  · show execFws m s = _
    exact State.toIsle_comes h fit _
  · show execFwu m s = _
    exact State.toIsle_comes h fit _
  · show execSng m s = _
    exact State.toIsle_comes h fit _
  · show execSnc m s = _
    exact State.toIsle_comes h fit _
  · show execSni m s = _
    exact State.toIsle_comes h fit _
  · show execInv m s = _
    exact State.toIsle_comes h fit _

/-- A command brings one kind of snoop. -/
theorem snoopKinds_unique {m : Msg} {c : Instr} {ty ty' : MsgTy} (kind : (c, ty) ∈ snoopKinds m) (kind' : (c, ty') ∈ snoopKinds m) :
    ty' = ty := by
  simp only [snoopKinds, List.mem_cons, Prod.mk.injEq, List.not_mem_nil, or_false] at kind
  rcases kind with ⟨rfl, rfl⟩ | ⟨rfl, rfl⟩ | ⟨rfl, rfl⟩ | ⟨rfl, rfl⟩ | ⟨rfl, rfl⟩ | ⟨rfl, rfl⟩ <;> simpa [snoopKinds] using kind'

theorem snoopAct_eiA {wasO : Bool} {ty : MsgTy} (other : ty ≠ .inv) : snoopAct .eiA wasO ty = (.gone, .eiA) := by
  cases ty with
  | inv => exact absurd rfl other
  | _ => rfl

theorem snoopAct_smA {m : Msg} {c : Instr} {ty : MsgTy} (kind : (c, ty) ∈ snoopKinds m) (other : ty ≠ .inv) :
    snoopAct .smA false ty = (.nothing, .imD) := by
  simp only [snoopKinds, List.mem_cons, Prod.mk.injEq, List.not_mem_nil, or_false] at kind
  rcases kind with ⟨-, rfl⟩ | ⟨-, rfl⟩ | ⟨-, rfl⟩ | ⟨-, rfl⟩ | ⟨-, rfl⟩ | ⟨-, rfl⟩
  case inr.inr.inr.inr.inr => exact absurd rfl other
  all_goals rfl

/-- Settles O43: the table of R186, state by state. -/
theorem snoopsAtAnIsle : Obligations.SnoopsAtAnIsle := by
  intro s m i l a ans full dat kinds absent row _ fit
  have line (ty : MsgTy) : ((s.arrived { m with ty }).isle i).line l = a := by rw [State.arrived_isle]
  have apart (ty : MsgTy) := State.outside_inj s
    ((State.outside_recvSnoop (s.arrived { m with ty }) i { m with ty }).trans (State.outside_arrived ..))
  refine ⟨fun p kind h => ⟨_, exec_snoop kind h fit, apart p.2⟩, fun clean unwon => ?table, fun clean busy p kind h => ?deferred⟩
  case deferred =>
    have waits := (clean.arrived { m with ty := p.2 }).recvSnoop_defers (m := { m with ty := p.2 }) (line p.2) (by tauto)
    obtain ⟨waits, net⟩ := State.agentView_inj waits
    exact ⟨_, exec_snoop kind h fit, net, waits⟩
  case table =>
    have served {c : Instr} {ty : MsgTy} {out : List Msg} {x st : AState} {w : Bool} {act : SnoopAct} (kind : (c, ty) ∈ kinds)
        (at_ : a.st = x) (was : a.wasO = w := by rfl) (held : (x == .isD || x == .imD) = false := by rfl)
        (table : snoopAct x w ty = (act, st) := by rfl) (sends : act.answers m a.val = out := by rfl) : row c out st := by
      subst at_ was sends
      intro ty' kind' h
      obtain rfl := snoopKinds_unique kind kind'
      have answers := (clean.arrived { m with ty := ty' }).recvSnoop_serves (m := { m with ty := ty' }) (line ty')
        (by simpa [unwon] using held) table
      obtain ⟨taken, net⟩ := State.agentView_inj answers
      rw [SnoopAct.answers_ty] at net
      exact ⟨_, exec_snoop kind h fit, net, taken ▸ a.served_st st, fun keeps => taken ▸ a.served_val keeps, apart ty'⟩
    have fws : (.fws m, .fws) ∈ kinds := by simp [kinds]
    have fwu : (.fwu m, .fwu) ∈ kinds := by simp [kinds]
    have sng : (.sng m, .sng) ∈ kinds := by simp [kinds]
    have snc : (.snc m, .snc) ∈ kinds := by simp [kinds]
    have sni : (.sni m, .sni) ∈ kinds := by simp [kinds]
    have inv : (.inv m, .inv) ∈ kinds := by simp [kinds]
    refine ⟨fun st => ?inM, fun st => ?inO, fun st => ?inE, fun st => ?clean, fun st => ?inMiA, fun st => ?inEiA, fun st p kind => ?inI,
      fun st left => ?inSmA, fun st own => ?owner⟩
    case inM => exact ⟨served fws st, served fwu st, served sng st, served snc st, served sni st⟩
    case inO => exact ⟨served fws st, served fwu st, served sng st, served snc st, served sni st⟩
    case inE => exact ⟨served fws st, served fwu st, served sng st, served snc st, served sni st⟩
    case clean => exact st.elim (fun st => served inv st) fun st => served inv st
    case inMiA => exact ⟨served fws st, served fwu st, served sng st, served snc st, served sni st, served inv st⟩
    case inEiA => exact ⟨fun p kind other => served kind st (table := snoopAct_eiA other), served inv st⟩
    case inI => exact served kind st
    case inSmA => exact ⟨fun p kind other => served kind st left (table := snoopAct_smA kind other), served inv st left⟩
    case owner => exact ⟨served fws st own, served fwu st own, served sng st own, served snc st own, served sni st own,
      served inv st own⟩

end Sys2Proof.Machine

/-! Requests at a home: what it refuses, what it asks the owner of a line, and how it serves a line that nobody else holds
(R178, R181 to R184, R196, R264, R265). -/

namespace Sys2Proof.Machine

/-! ### A request that comes, and what refuses it (R170, R178) -/

/-- The requests, each with the command that brings it. -/
def requestKinds (m : Msg) : List (MsgTy × Instr) :=
  [(.rds, .rds m), (.rdu, .rdu m), (.upg, .upg m), (.rdn, .rdn m), (.wrn, .wrn m), (.wrl, .wrl m), (.atm, .atm m), (.trw, .trw m)]

theorem State.toHome_comes {s : State} {m : Msg} {ty : MsgTy} (h : s.comes { m with ty }) :
    s.toHome m ty = .next ((s.arrived { m with ty }).homeRequest { m with ty }) := State.arrive_comes h _

theorem exec_request {s : State} {m : Msg} {ty : MsgTy} {c : Instr} (kind : (ty, c) ∈ requestKinds m) (h : s.comes { m with ty }) :
    exec c s = .next ((s.arrived { m with ty }).homeRequest { m with ty }) := by
  simp only [requestKinds, List.mem_cons, Prod.mk.injEq, List.not_mem_nil, or_false] at kind
  rcases kind with ⟨rfl, rfl⟩ | ⟨rfl, rfl⟩ | ⟨rfl, rfl⟩ | ⟨rfl, rfl⟩ | ⟨rfl, rfl⟩ | ⟨rfl, rfl⟩ | ⟨rfl, rfl⟩ | ⟨rfl, rfl⟩
  · show execRds m s = _
    exact State.toHome_comes h
  · show execRdu m s = _
    exact State.toHome_comes h
  · show execUpg m s = _
    exact State.toHome_comes h
  · show execRdn m s = _
    exact State.toHome_comes h
  · show execWrn m s = _
    exact State.toHome_comes h
  · show execWrl m s = _
    exact State.toHome_comes h
  · show execAtm m s = _
    exact State.toHome_comes h
  · show execTrw m s = _
    exact State.toHome_comes h

theorem refusal_eq (m : Msg) (ty : MsgTy) (r : Resp) : refusal { m with ty } r
    = { homeMsg (if ty = .rds ∨ ty = .rdu ∨ ty = .upg then .gnt else .cmp) m.src m with resp := r.num } := by
  cases ty <;> rfl

section
variable {s : State} {m : Msg}

theorem State.homeRequest_unadmitted (isle : m.src.toNat < 12) (out : s.home.mask.getLsbD m.src.toNat = false) :
    s.homeRequest m = s.send (refusal m .absent) := by
  unfold State.homeRequest
  dsimp only
  rw [decide_eq_true isle, out, if_pos (by rfl)]

theorem State.sender_admitted (admitted : m.src.toNat < 12 → s.home.mask.getLsbD m.src.toNat = true) :
    (decide (m.src.toNat < 12) && !s.home.mask.getLsbD m.src.toNat) = false := by
  by_cases isle : m.src.toNat < 12
  · rw [admitted isle, Bool.not_true, Bool.and_false]
  · rw [decide_eq_false isle, Bool.false_and]

section
variable (admitted : m.src.toNat < 12 → s.home.mask.getLsbD m.src.toNat = true)
include admitted

theorem State.homeRequest_incoherent (no : s.coherent m.line = false) : s.homeRequest m = s.send (refusal m .absent) := by
  unfold State.homeRequest
  dsimp only
  rw [State.sender_admitted admitted, if_neg Bool.false_ne_true, no, if_pos (by rfl)]

theorem State.homeRequest_world (coherent : s.coherent m.line = true) (court : m.world = false)
    (vault : inVault s.worlds.regions (m.line.toNat * 64) = true) : s.homeRequest m = s.send (refusal m .world) := by
  unfold State.homeRequest
  dsimp only
  rw [State.sender_admitted admitted, if_neg Bool.false_ne_true, coherent, if_neg (by decide), court, vault, if_pos (by rfl)]

end

end

/-! ### A request that opens at once (R181, R191, R194) -/

/-- A home opens a request that has come: its sender is admitted, its line coherent and free, and nothing is short. -/
structure State.admits (s : State) (m : Msg) : Prop where
  admitted : m.src.toNat < 12 → s.home.mask.getLsbD m.src.toNat = true
  coherent : s.coherent m.line = true
  world : m.world = true ∨ inVault s.worlds.regions (m.line.toNat * 64) = false
  window : s.cxlWin m.line = none
  room : s.tableUse (s.homeSlice m.line) < 512
  tokens : (s.slice (s.homeSlice m.line)).tokens = []
  resv : (s.slice (s.homeSlice m.line)).resv = []
  txn : s.txn m.line = none
  queue : s.queueOf m.line = []
  calm : s.homeCalm m.line

theorem State.homeOpen.admits {s : State} {m : Msg} (h : s.homeOpen m) : (s.arrived m).admits m := by
  obtain ⟨-, admitted, coherent, world, window, room, tokens, resv, txn, queue, calm⟩ := h
  obtain ⟨_, _, e⟩ := s.arrived_eq m
  rw [e]
  exact ⟨admitted, coherent, world, window, room, tokens, resv, txn, queue, calm⟩

section
variable {s : State} {m : Msg}

theorem State.purgeDemand_calm {n : LineNo} (calm : s.homeCalm n) : s.purgeDemand n = s := by
  rw [State.purgeDemand, calm.1]
  rfl

theorem State.entryRead_calm {n : LineNo} (calm : s.homeCalm n) : s.entryRead n = s := by
  rw [State.entryRead, calm.2, if_neg (by decide)]

theorem State.freeToken_none {k : Nat} (tokens : (s.slice k).tokens = []) : s.freeToken k m = s := by
  have none : s.holdsToken k m = none := by
    rw [State.holdsToken, tokens, List.find?_nil, ite_self]
  rw [State.freeToken, none]

theorem State.reservedAway_none {k : Nat} {r : Resource} (resv : (s.slice k).resv = []) : s.reservedAway k m r = 0 := by
  rw [State.reservedAway, resv]
  rfl

/-- The way that the entry of a request will take: none where its line has an entry, or where it leaves none (R194). -/
def State.newWay (s : State) (m : Msg) (way : Option (Fin 16)) : Prop :=
  if needsEntry m.ty && (s.entry m.line).st == .i then ∃ w, s.findWay m.line = .free w ∧ way = some w else way = none

/-- The request is counted, and its transaction opens. -/
theorem State.admits.homeRequest (h : s.admits m) {way : Option (Fin 16)} (takes : s.newWay m way) :
    ∃ snd, s.homeRequest m = (State.openTxn { s with snd } m way).settle m.line := by
  obtain ⟨snd, counted⟩ : ∃ snd, s.sndKey 32 (s.homeSlice m.line) m.world = { s with snd } := ⟨_, rfl⟩
  refine ⟨snd, ?_⟩
  have own : (!m.world && inVault s.worlds.regions (m.line.toNat * 64)) = false := by
    rcases h.world with world | court
    · rw [world, Bool.not_true, Bool.false_and]
    · rw [court, Bool.and_false]
  have room : ¬ 512 ≤ s.tableUse (s.homeSlice m.line) + 0 := Nat.not_le.mpr h.room
  have free : ((s.txn m.line).isSome || !(s.queueOf m.line).isEmpty) = false := by rw [h.txn, h.queue]; rfl
  have ways : s.waysReserved m = false := by rw [State.waysReserved, State.reservedAway_none h.resv]; rfl
  unfold State.homeRequest
  dsimp only
  rw [State.sender_admitted h.admitted, if_neg Bool.false_ne_true, h.coherent, if_neg (by decide), own, if_neg Bool.false_ne_true,
    h.window, Option.map_none, Option.getD_none, if_neg Bool.false_ne_true, State.purgeDemand_calm h.calm,
    State.reservedAway_none h.resv, if_neg room, free, if_neg Bool.false_ne_true, ways, if_neg Bool.false_ne_true,
    State.freeToken_none h.tokens, counted]
  unfold State.newWay at takes
  split at takes
  next needs =>
    obtain ⟨w, found, rfl⟩ := takes
    rw [if_pos needs, found]
  next none => rw [if_neg none, takes]

/-! ### The home asks the owner of a line (R182 to R184) -/

/-- The snoop of a Trowel line's operation (R184). -/
def trwSnoop : Nat → MsgTy × BitVec 2
  | 0 => (.snc, 2)
  | 2 => (.sni, 2)
  | _ => (.inv, 2)

/-- The snoop that a request has the home send to the owner of its line, and its cause. -/
def ownerSnoop (r : Msg) : Option (MsgTy × BitVec 2) :=
  match r.ty with
  | .rds => some (.fws, 0)
  | .rdu => some (.fwu, 0)
  | .rdn => some (.sng, 0)
  | .wrn | .atm => some (.sni, 0)
  | .wrl => some (.inv, 0)
  | .trw => some (trwSnoop r.op.toNat)
  | _ => none

/-- The transaction of request r that waits for owner a alone. -/
def ownerTxn (r : Msg) (a : BitVec 4) : Txn := { req := r, waits := 1#16 <<< a.toNat, owner := some a }

theorem State.send_travels {g : Msg} (kind : (g.ty == .gnt || g.ty == .cmp || g.ty == .busy) = false) :
    s.send g = { s with net := s.net ++ [g] } := by
  rw [State.send, kind, Bool.and_false, if_neg Bool.false_ne_true]

theorem sharersOf_none {e : Entry} (none : e.sharers = 0) : sharersOf e = [] := by
  have : (List.range 12).filter (fun i => e.sharers.getLsbD i) = [] := List.filter_eq_nil_iff.mpr fun i _ => by
    rw [none]
    simp
  rw [sharersOf, this, List.map_nil]

/-- The snoops of a line in X, of which only its owner has a copy. -/
theorem State.sendSnoops_owner {n : LineNo} {e : Entry} (entry : s.entry n = e) (x : e.st = .x) (alone : e.sharers = 0) {t : Txn}
    {ty : MsgTy} (cause : BitVec 2) (ss : Option MsgTy) :
    s.sendSnoops n t cause (some ty) ss = ((s.send (snoopMsg ty e.owner t.req cause)).setTxn n
      { t with waits := 1#16 <<< e.owner.toNat, owner := some e.owner },
      { t with waits := 1#16 <<< e.owner.toNat, owner := some e.owner }) := by
  have bits : bitsOf [e.owner] = 1#16 <<< e.owner.toNat := BitVec.zero_or
  have own : (if e.st = .x ∨ e.st = .o then some e.owner else none) = some e.owner := if_pos (.inl x)
  unfold State.sendSnoops
  dsimp only
  rw [entry, sharersOf_none alone, own, List.filter_nil, ite_self]
  cases ss <;> rw [Option.isSome_some, if_pos rfl, Option.toList_some, List.append_nil, bits] <;> rfl

/-- A request for a line that another owns: its owner is asked, and nothing else. -/
theorem State.openTxn_asks {e : Entry} (calm : s.homeCalm m.line) (entry : s.entry m.line = e) (x : e.st = .x) (alone : e.sharers = 0)
    (keeps : forgetSelf e (asRdu e m) = e) {ty : MsgTy} {cause : BitVec 2} (asks : ownerSnoop (asRdu e m) = some (ty, cause)) :
    s.openTxn m none = ((s.setEntry m.line { e with age := 0 }).send (snoopMsg ty e.owner (asRdu e m) cause)).setTxn m.line
      (ownerTxn (asRdu e m) e.owner) := by
  have listed : e.st ≠ .i := by rw [x]; exact HState.noConfusion
  have owned : e.st = .x ∨ e.st = .o := .inl x
  have aged : (s.setEntry m.line { e with age := 0 }).entry m.line = { e with age := 0 } := State.entry_setEntry m.line listed
  have snoops (t : Txn) {ty : MsgTy} (cause : BitVec 2) (ss : Option MsgTy) :=
    State.sendSnoops_owner aged x alone (t := t) (ty := ty) cause ss
  unfold State.openTxn
  dsimp only
  rw [State.entryRead_calm calm, entry, keeps]
  generalize asRdu e m = r at asks
  simp only [listed, owned, if_false, if_true, false_and, true_or, snoops]
  cases kind : r.ty with
  | rds | rdu | rdn | wrn | atm | wrl =>
    simp only [ownerSnoop, kind, Option.some.injEq, Prod.mk.injEq] at asks
    obtain ⟨rfl, rfl⟩ := asks
    rfl
  | trw =>
    simp only [ownerSnoop, kind, Option.some.injEq] at asks
    dsimp only
    generalize r.op.toNat = k at asks
    rcases k with _ | _ | _ | k
    all_goals
      obtain ⟨rfl, rfl⟩ := Prod.mk.inj asks
      rfl
  | _ => simp [ownerSnoop, kind] at asks

/-! ### A transaction that waits (R181) -/

theorem State.settle_waits {n : LineNo} {t : Txn} (awaits : s.txn n = some t) (new : t.granted = false) (alone : t.recallFor = none)
    (waits : grantWaits t ≠ 0 ∨ t.memWait = true) : s.settle n = s := by
  have closed : (!t.granted && grantWaits t == 0 && !t.gone && !t.memWait) = false := by
    rcases waits with waits | waits
    · rw [beq_eq_false_iff_ne.mpr waits, Bool.and_false, Bool.false_and, Bool.false_and]
    · rw [waits, Bool.not_true, Bool.and_false]
  have still : s.progress n = s := by
    unfold State.progress
    rw [awaits]
    dsimp only
    split
    · rfl
    · rw [closed, if_neg Bool.false_ne_true, awaits]
      dsimp only
      rw [closed, Bool.false_and, if_neg Bool.false_ne_true]
  have shut : s.close n = s := by
    unfold State.close
    rw [awaits]
    dsimp only
    rw [new, Bool.false_and, Bool.false_and]
    rfl
  unfold State.settle
  rw [still]
  dsimp only
  rw [awaits]
  dsimp only
  rw [alone, shut]

theorem ownerTxn_waits (r : Msg) (a : BitVec 4) : grantWaits (ownerTxn r a) ≠ 0 := by
  intro none
  have awaited := agentBit_awaited a
  rw [show 1#16 <<< a.toNat = (0 : BitVec 16) from none] at awaited
  simp at awaited

theorem ownerSnoop_travels {r : Msg} {ty : MsgTy} {cause : BitVec 2} (asks : ownerSnoop r = some (ty, cause)) :
    (ty == .gnt || ty == .cmp || ty == .busy) = false := by
  cases kind : r.ty with
  | rds | rdu | rdn | wrn | atm | wrl =>
    simp only [ownerSnoop, kind, Option.some.injEq, Prod.mk.injEq] at asks
    obtain ⟨rfl, -⟩ := asks
    rfl
  | trw =>
    simp only [ownerSnoop, kind, Option.some.injEq] at asks
    generalize r.op.toNat = k at asks
    rcases k with _ | _ | _ | k <;> exact (Prod.mk.inj asks).1 ▸ rfl
  | _ => simp [ownerSnoop, kind] at asks

/-- The home has asked the owner of a line in X for request r: the snoop travels, and the transaction waits. -/
def State.asking (s : State) (n : LineNo) (e : Entry) (r : Msg) (ty : MsgTy) (cause : BitVec 2) : State :=
  { s.setEntry n { e with age := 0 } with net := s.net ++ [snoopMsg ty e.owner r cause] }.setTxn n (ownerTxn r e.owner)

theorem State.txn_asking (n : LineNo) (e : Entry) (r : Msg) (ty : MsgTy) (cause : BitVec 2) :
    (s.asking n e r ty cause).txn n = some { req := r, waits := 1#16 <<< e.owner.toNat, owner := some e.owner } := State.txn_setTxn ..

theorem State.entry_asking {n : LineNo} {e : Entry} (x : e.st = .x) (r : Msg) (ty : MsgTy) (cause : BitVec 2) :
    (s.asking n e r ty cause).entry n = { e with age := 0 } :=
  State.entry_setEntry n (e := { e with age := 0 }) (by rw [x]; exact HState.noConfusion)

theorem State.asking_keeps {h : Home} (home : s.home = h) (n : LineNo) (e : Entry) (r : Msg) (ty : MsgTy) (cause : BitVec 2) :
    s.asking n e r ty cause = { s with
      net := (s.asking n e r ty cause).net
      home := { h with entries := (s.asking n e r ty cause).home.entries, txns := (s.asking n e r ty cause).home.txns } } := by
  subst home
  rfl

theorem State.settle_asks {e : Entry} (calm : s.homeCalm m.line) (entry : s.entry m.line = e) (x : e.st = .x) (alone : e.sharers = 0)
    (keeps : forgetSelf e (asRdu e m) = e) {ty : MsgTy} {cause : BitVec 2} (asks : ownerSnoop (asRdu e m) = some (ty, cause)) :
    (s.openTxn m none).settle m.line = s.asking m.line e (asRdu e m) ty cause := by
  rw [State.openTxn_asks calm entry x alone keeps asks,
    State.settle_waits (State.txn_setTxn ..) rfl rfl (.inl (ownerTxn_waits (asRdu e m) e.owner)),
    State.send_travels (ownerSnoop_travels asks)]
  rfl

end

theorem asRdu_request {e : Entry} {m : Msg} (other : m.ty ≠ .upg) : asRdu e m = m := if_neg fun h => other h.1

/-- An UPG of an Isle that is not the owner of a line in X comes too late (R197). -/
theorem asRdu_upg {e : Entry} {m : Msg} (x : e.st = .x) (other : e.owner ≠ m.src) (upg : m.ty = .upg) :
    asRdu e m = { m with ty := .rdu } :=
  if_pos ⟨upg, by rw [isListed, x]; exact beq_eq_false_iff_ne.mpr other⟩

theorem forgetSelf_other {e : Entry} {m : Msg} (other : e.owner ≠ m.src) : forgetSelf e (asRdu e m) = e := by
  have src : (asRdu e m).src = m.src := by
    unfold asRdu
    split <;> rfl
  exact if_neg fun self => other (self.2.2.trans src)

/-- A command brings a request for a line that another owns: the owner is asked, and the home keeps the rest. -/
theorem exec_asks {s : State} {m : Msg} {k : MsgTy} {c : Instr} {e : Entry} (kind : (k, c) ∈ requestKinds m)
    (ready : s.homeOpen { m with ty := k }) (entry : s.entry m.line = e) (x : e.st = .x) (alone : e.sharers = 0) (other : e.owner ≠ m.src)
    {r : Msg} (opens : asRdu e { m with ty := k } = r) {ty : MsgTy} {cause : BitVec 2} (asks : ownerSnoop r = some (ty, cause)) :
    ∃ snd, exec c s = .next (State.asking { s.arrived { m with ty := k } with snd } m.line e r ty cause) := by
  subst opens
  have entry' : (s.arrived { m with ty := k }).entry m.line = e := (State.arrived_entry ..).trans entry
  have noWay : (s.arrived { m with ty := k }).newWay { m with ty := k } none := by
    unfold State.newWay
    rw [entry', x, show (HState.x == HState.i) = false from rfl, Bool.and_false, if_neg Bool.false_ne_true]
  obtain ⟨snd, accepted⟩ := ready.admits.homeRequest noWay
  refine ⟨snd, ?_⟩
  rw [exec_request kind ready.1, accepted, State.settle_asks (s := { s.arrived { m with ty := k } with snd }) ready.admits.calm entry' x
    alone (forgetSelf_other other) asks]

/-- Settles O41: the owner of the line is asked, and nothing else; or the request is refused. -/
theorem homeAsksTheOwner : Obligations.HomeAsksTheOwner := by
  constructor
  case left =>
    intro s m e asks as x alone other
    have asked {c : Instr} {k : MsgTy} {r : Msg} {ty : MsgTy} {cause : BitVec 2} (kind : (k, c) ∈ requestKinds m)
        (opens : asRdu e (as k) = r) (snoop : ownerSnoop r = some (ty, cause)) : asks c (as k) r ty cause := by
      intro ready
      obtain ⟨snd, sent⟩ := exec_asks kind ready rfl x alone other opens snoop
      exact ⟨_, sent, rfl, State.txn_asking .., State.entry_asking x ..,
        State.asking_keeps (s := { s.arrived (as k) with snd }) (s.arrived_home _) ..⟩
    have trw {k : Nat} (op : m.op.toNat = k) : ownerSnoop (as .trw) = some (trwSnoop k) := by
      rw [← op]
      rfl
    have same {k : MsgTy} (ne : k ≠ .upg) : asRdu e (as k) = as k := asRdu_request ne
    refine ⟨asked (by simp [requestKinds]) (same (by decide)) rfl, asked (by simp [requestKinds]) (same (by decide)) rfl,
      asked (k := .upg) (by simp [requestKinds]) (asRdu_upg x other rfl) rfl, asked (by simp [requestKinds]) (same (by decide)) rfl,
      asked (by simp [requestKinds]) (same (by decide)) rfl, asked (by simp [requestKinds]) (same (by decide)) rfl,
      asked (by simp [requestKinds]) (same (by decide)) rfl, fun op => ?clean, fun op => ?inval, fun op => ?cleanInval⟩
    case clean => exact asked (by simp [requestKinds]) (same (by decide)) (trw (congrArg BitVec.toNat op))
    case cleanInval => exact asked (by simp [requestKinds]) (same (by decide)) (trw (congrArg BitVec.toNat op))
    case inval =>
      rcases op with op | op <;> exact asked (by simp [requestKinds]) (same (by decide)) (trw (congrArg BitVec.toNat op))
  case right =>
    intro s m ty c gives i kind h
    have sent {r : Resp} (refuses : (s.arrived { m with ty }).homeRequest { m with ty }
        = (s.arrived { m with ty }).send (refusal { m with ty } r)) : gives i r := by
      show exec i s = _
      rw [exec_request kind h, refuses, refusal_eq]
    have home := State.arrived_home s { m with ty }
    have coherent : (s.arrived { m with ty }).coherent m.line = s.coherent m.line := by
      obtain ⟨_, _, e⟩ := s.arrived_eq { m with ty }
      rw [e]
      rfl
    have worlds : (s.arrived { m with ty }).worlds = s.worlds := by
      obtain ⟨_, _, e⟩ := s.arrived_eq { m with ty }
      rw [e]
    refine ⟨fun isle out => sent ?_, fun admitted no => sent ?_, fun admitted ok court vault => sent ?_⟩
    · exact State.homeRequest_unadmitted isle (home ▸ out)
    · exact State.homeRequest_incoherent (home ▸ admitted) (coherent.trans no)
    · exact State.homeRequest_world (home ▸ admitted) (coherent.trans ok) court (worlds ▸ vault)

end Sys2Proof.Machine

namespace Sys2Proof.Machine

/-! ### Memory behind a home whose channel runs (R264, R265) -/

section
variable {s : State} {n : LineNo} {c loc : Nat}

/-- Line n lies in DRAM, at a channel that runs. -/
structure State.runsAt (s : State) (n : LineNo) (c : Nat) : Prop where
  window : s.cxlWin n = none
  place : ∃ loc, s.place n = some (c, loc)
  run : (s.chan c).st = .run

/-- Channel x once a write of line n has been queued last (R264, R265). -/
def Chan.withWrite (x : Chan) (n : LineNo) (v : LineVal) (vault : Bool) : Chan := { x with
  writeQ := x.writeQ ++ [{ line := n, val := v, vault, behind := x.readQ.any fun r => r.line == n }]
  draining := x.draining || decide (48 ≤ x.writeQ.length + 1) }

namespace State.runsAt
variable (h : s.runsAt n c)
include h

theorem askMem (t : Txn) : s.askMem n t = (s.setChan c ((s.chan c).enqueue n)).setTxn n { t with memWait := true } := by
  obtain ⟨window, ⟨loc, place⟩, run⟩ := h
  have read : s.homeRead n = (s.setChan c ((s.chan c).enqueue n), none) := by
    rw [State.homeRead, window]
    dsimp only
    rw [State.memRead, place]
    dsimp only
    rw [run]
    rfl
  rw [State.askMem, read]

theorem homeWrite (room : (s.chan c).writeQ.length < 64) (new : ∀ q ∈ (s.chan c).writeQ, q.line ≠ n) (v : LineVal) (vault : Bool) :
    s.homeWrite n v vault = s.setChan c ((s.chan c).withWrite n v vault) := by
  obtain ⟨window, ⟨loc, place⟩, run⟩ := h
  have last : (s.chan c).writeQ.any (fun w => w.line == n && (w.behind || !((s.chan c).readQ.any fun r => r.line == n))) = false :=
    List.any_eq_false.mpr fun q hq => by simp [new q hq]
  have queued : s.queueWrite c n v vault = s.setChan c ((s.chan c).withWrite n v vault) := by
    unfold State.queueWrite
    dsimp only
    rw [last, if_neg Bool.false_ne_true, if_neg (Nat.not_le.mpr room)]
    rfl
  rw [State.homeWrite, window]
  dsimp only
  rw [State.memWrite, place]
  dsimp only
  rw [run, queued]

theorem chanFailed : s.chanFailed n = false := by
  obtain ⟨-, ⟨loc, place⟩, run⟩ := h
  rw [State.chanFailed, place]
  dsimp only
  rw [run]
  rfl

theorem chanDown : s.chanDown n = false := by
  obtain ⟨-, ⟨loc, place⟩, run⟩ := h
  rw [State.chanDown, place]
  dsimp only
  rw [run]
  rfl

end State.runsAt

theorem State.entry_setEntry_free {e : Entry} (free : e.st = .i) : (s.setEntry n e).entry n = {} := by
  unfold State.setEntry State.entry
  dsimp only
  rw [if_pos free, sget_sset_same]

end

/-! ### A transaction that completes at once (R181 to R184) -/

section
variable {s : State} {n : LineNo} {t : Txn}

/-- The message that grants a transaction goes out as the transaction closes. -/
theorem State.settle_completes {x : State} {g : Msg} (awaits : s.txn n = some t) (h : t.ready) (grants : s.grant n t = x.send g)
    (open_ : x.txn n = some { t with granted := true }) :
    ∃ slices, s.settle n = State.send { x.dropTxn n with home := { (x.dropTxn n).home with slices } } g := by
  obtain ⟨slices, closed⟩ := State.settle_grants awaits h (by rw [grants, State.txn_send, open_])
  refine ⟨slices, closed.trans ?_⟩
  rw [grants]
  unfold State.send
  split <;> rfl

/-- A write of the whole line: it needs no data of memory (R183). -/
def wholeWrite (m : Msg) : Prop := m.ty = .wrl ∨ m.ty = .wrn ∧ m.mask = BitVec.allOnes 64

/-- The line that a write of the whole line leaves. -/
def writtenLine (m : Msg) : LineVal := { bits := m.data, poison := m.poison }

/-- Every nonet under the mask: nothing of the older line is left. -/
theorem merge_allOnes (a b : LineBits) : merge a b (BitVec.allOnes 64) = b := by
  have parts (k : Nat) (hk : k ≤ 64) {j : Nat} (hj : j < 576) :
      (forN k a fun i acc => if (BitVec.allOnes 64).getLsbD i then setNonet acc i (nonetAt b i) else acc).getLsbD j
        = if j < 9 * k then b.getLsbD j else a.getLsbD j := by
    induction k with
    | zero => rfl
    | succ k ih =>
      rw [forN, BitVec.getLsbD_allOnes, if_pos (decide_eq_true (by omega)), setNonet_getLsbD _ _ _ _ hj, nonetAt_getLsbD, ih (by omega)]
      by_cases low : j < 9 * k
      · rw [if_neg (by omega), if_pos low, if_pos (by omega)]
      by_cases here : j < 9 * k + 9
      · rw [if_pos (by omega), decide_eq_true (by omega), Bool.true_and, if_pos (by omega), Nat.add_sub_cancel' (by omega)]
      · rw [if_neg (by omega), if_neg low, if_neg (by omega)]
  exact BitVec.eq_of_getLsbD_eq fun j hj => (parts 64 le_rfl hj).trans (if_pos hj)

theorem State.grant_whole {m : Msg} (whole : wholeWrite m) (ok : s.chanFailed n = false) :
    s.grant n { req := m } = (((s.setTxn n { req := m, granted := true }).homeWrite n (writtenLine m) m.world).setEntry n {}).send
      (cmpMsg m .ok none) := by
  have ok' : (s.setTxn n { req := m, granted := true }).chanFailed n = false := ok
  unfold State.grant
  dsimp only
  rcases whole with wrl | ⟨wrn, full⟩
  · rw [wrl, show needsEntry .wrl = false from rfl, Bool.and_false, if_neg Bool.false_ne_true, if_neg Bool.false_ne_true]
    dsimp only
    rw [ok', if_neg Bool.false_ne_true]
    rfl
  · rw [wrn, show needsEntry .wrn = false from rfl, Bool.and_false, if_neg Bool.false_ne_true, if_neg Bool.false_ne_true]
    dsimp only
    rw [ok', if_neg Bool.false_ne_true, full, merge_allOnes, if_pos rfl]
    rfl

/-- A Trowel line of an operation that writes nothing, on a line that no Isle holds (R184). -/
theorem State.grant_trw {m : Msg} (trw : m.ty = .trw) (op : m.op.toNat < 3) (free : s.entry n = {}) (ok : s.chanDown n = false) :
    s.grant n { req := m } = ((s.setTxn n { req := m, granted := true }).setEntry n {}).send (cmpMsg m .ok none) := by
  have ok' : (s.setTxn n { req := m, granted := true }).chanDown n = false := ok
  have after : afterOwner {} { req := m } = {} := rfl
  unfold State.grant
  dsimp only
  rw [trw, show needsEntry .trw = false from rfl, Bool.and_false, if_neg Bool.false_ne_true, if_neg Bool.false_ne_true, free, after]
  dsimp only
  rw [ok']
  generalize m.op.toNat = k at op
  rcases k with _ | _ | _ | k
  · rfl
  · rfl
  · rfl
  · omega

end

/-! ### How a request for a line that nobody holds opens (R182 to R184) -/

section
variable {s : State} {m : Msg} {way : Option (Fin 16)}

/-- A line with no owner and no sharer: no snoop goes out. -/
theorem State.sendSnoops_free {n : LineNo} (free : s.entry n = {}) (t : Txn) (cause : BitVec 2) (os ss : Option MsgTy) :
    s.sendSnoops n t cause os ss = (s.setTxn n { t with waits := 0, owner := none }, { t with waits := 0, owner := none }) := by
  unfold State.sendSnoops
  dsimp only
  rw [free, sharersOf_none rfl]
  cases os <;> cases ss <;> rfl

/-- Requests that need what memory holds. -/
def readsMemory (r : Msg) : Prop :=
  r.ty = .rds ∨ r.ty = .rdu ∨ r.ty = .rdn ∨ r.ty = .atm ∨ r.ty = .wrn ∧ r.mask ≠ BitVec.allOnes 64

theorem State.openTxn_reads (calm : s.homeCalm m.line) (free : s.entry m.line = {}) (reads : readsMemory (asRdu {} m)) :
    ∃ home, s.openTxn m way = State.askMem { s with home } m.line { req := asRdu {} m, way } := by
  have forget (r : Msg) : forgetSelf {} r = {} := if_neg fun self => by simp at self
  have free' : (s.setEntry m.line {}).entry m.line = {} := State.entry_setEntry_free rfl
  have snoops (t : Txn) (cause : BitVec 2) (os ss : Option MsgTy) := State.sendSnoops_free free' t cause os ss
  unfold State.openTxn
  dsimp only
  rw [State.entryRead_calm calm, free, forget]
  generalize asRdu {} m = r at reads
  simp only [snoops, ne_eq, not_true_eq_false, and_false, if_false, if_true, reduceCtorEq, or_self, false_or]
  rcases reads with ty | ty | ty | ty | ⟨ty, part⟩
  · rw [ty]; exact ⟨_, rfl⟩
  · rw [ty]; exact ⟨_, rfl⟩
  · rw [ty]; exact ⟨_, rfl⟩
  · rw [ty]
    dsimp only
    rw [if_neg fun full => MsgTy.noConfusion full.1]
    exact ⟨_, rfl⟩
  · rw [ty]
    dsimp only
    rw [if_neg fun full => part full.2]
    exact ⟨_, rfl⟩

/-- Requests that a free line keeps from nothing: they complete as they open. -/
def completesAtOnce (m : Msg) : Prop := wholeWrite m ∨ m.ty = .trw ∧ m.op.toNat < 3

theorem State.openTxn_completes (calm : s.homeCalm m.line) (free : s.entry m.line = {}) (completes : completesAtOnce m) :
    s.openTxn m none = (s.setEntry m.line {}).setTxn m.line { req := m } := by
  have same : asRdu {} m = m := asRdu_request fun upg => by
    rcases completes with (ty | ⟨ty, -⟩) | ⟨ty, -⟩ <;> exact MsgTy.noConfusion (ty.symm.trans upg)
  have forget : forgetSelf {} m = {} := if_neg fun self => by simp at self
  have free' : (s.setEntry m.line {}).entry m.line = {} := State.entry_setEntry_free rfl
  have snoops (t : Txn) (cause : BitVec 2) (os ss : Option MsgTy) := State.sendSnoops_free free' t cause os ss
  unfold State.openTxn
  dsimp only
  rw [State.entryRead_calm calm, free, same, forget]
  simp only [snoops, ne_eq, not_true_eq_false, and_false, if_false, if_true, reduceCtorEq, or_self, false_or]
  rcases completes with (ty | ⟨ty, full⟩) | ⟨ty, op⟩
  · rw [ty]
  · rw [ty]
    dsimp only
    rw [if_pos ⟨rfl, full⟩]
  · rw [ty]
    dsimp only
    generalize m.op.toNat = k
    rcases k with _ | _ | _ | k <;> rfl

/-- The one sharer asks for an upgrade: no other is there to be asked. -/
theorem State.sendSnoops_sharer {n : LineNo} {e : Entry} {t : Txn} (entry : s.entry n = e) (own : e.sharers = 1#14 <<< t.req.src.toNat)
    (upg : t.req.ty = .upg) (cause : BitVec 2) : s.sendSnoops n t cause none (some .inv)
      = (s.setTxn n { t with waits := 0, owner := none }, { t with waits := 0, owner := none }) := by
  have others : (sharersOf e).filter (fun a => a != t.req.src || !needsEntry t.req.ty) = [] := by
    refine List.filter_eq_nil_iff.mpr fun a ha => ?_
    obtain ⟨i, hi, rfl⟩ := List.mem_map.mp ha
    obtain ⟨range, shares⟩ := List.mem_filter.mp hi
    have low := List.mem_range.mp range
    rw [own, show (1#14 : BitVec 14) = (1 : BitVec 14) from rfl, getLsbD_one_shiftLeft _ _ (by omega)] at shares
    rw [of_decide_eq_true shares, BitVec.ofNat_toNat, BitVec.setWidth_eq, upg]
    simp [needsEntry]
  unfold State.sendSnoops
  dsimp only
  rw [entry, others]
  rfl

theorem State.openTxn_upg {e : Entry} (calm : s.homeCalm m.line) (entry : s.entry m.line = e) (st : e.st = .s)
    (own : e.sharers = 1#14 <<< m.src.toNat) (low : m.src.toNat < 12) (upg : m.ty = .upg) :
    s.openTxn m none = (s.setEntry m.line { e with age := 0 }).setTxn m.line { req := m } := by
  have stable : e.st ≠ .i := by rw [st]; exact HState.noConfusion
  have unowned : ¬ (e.st = .x ∨ e.st = .o) := by rw [st]; simp
  have listed : isListed e m.src = true := by
    rw [isListed, st]
    dsimp only
    rw [own, show (1#14 : BitVec 14) = (1 : BitVec 14) from rfl, getLsbD_one_shiftLeft _ _ (by omega), decide_eq_true rfl]
  have same : asRdu e m = m := if_neg fun late => Bool.noConfusion (listed.symm.trans late.2)
  have forget : forgetSelf e m = e := if_neg fun self => unowned self.2.1
  have aged : (s.setEntry m.line { e with age := 0 }).entry m.line = { e with age := 0 } :=
    State.entry_setEntry m.line (e := { e with age := 0 }) stable
  unfold State.openTxn
  dsimp only
  rw [State.entryRead_calm calm, entry, same, forget]
  simp only [stable, unowned, false_and, if_false, upg]
  rw [State.sendSnoops_sharer aged own upg]

end

/-! ### Requests for a line that nobody else holds (R181 to R184, R264, R265) -/

section
variable {s : State} {m : Msg}

theorem State.admits.reads (h : s.admits m) {way : Option (Fin 16)} {c : Nat} (takes : s.newWay m way) (free : s.entry m.line = {})
    (runs : s.runsAt m.line c) (reads : readsMemory (asRdu {} m)) : ∃ snd home,
      s.homeRequest m = { s.setChan c ((s.chan c).enqueue m.line) with snd, home }
        ∧ State.txn { s with home } m.line = some { req := asRdu {} m, way, memWait := true } := by
  obtain ⟨snd, accepted⟩ := h.homeRequest takes
  obtain ⟨home, opened⟩ := State.openTxn_reads (s := { s with snd }) (way := way) h.calm free reads
  have runs' : State.runsAt { s with snd, home } m.line c := ⟨runs.window, runs.place, runs.run⟩
  have asked := runs'.askMem { req := asRdu {} m, way }
  have txn := State.txn_setTxn (State.setChan { s with snd, home } c ((State.chan { s with snd, home } c).enqueue m.line)) m.line
    { req := asRdu {} m, way, memWait := true }
  refine ⟨snd, _, ?_, txn⟩
  rw [accepted, opened, asked, State.settle_waits txn rfl rfl (.inr rfl)]
  rfl

theorem completesAtOnce.ready (h : completesAtOnce m) : Txn.ready { req := m } :=
  ⟨rfl, rfl, rfl, rfl, rfl, rfl, rfl, by rcases h with (ty | ⟨ty, full⟩) | ⟨ty, -⟩ <;> simp [needsData, *]⟩

theorem completesAtOnce.newWay (h : completesAtOnce m) : s.newWay m none := by
  have leaves : needsEntry m.ty = false := by rcases h with (ty | ⟨ty, -⟩) | ⟨ty, -⟩ <;> rw [ty] <;> rfl
  unfold State.newWay
  rw [leaves, Bool.false_and, if_neg Bool.false_ne_true]

/-- Once the transaction of such a request is open, it settles at once. -/
theorem State.admits.settles (h : s.admits m) (free : s.entry m.line = {}) (completes : completesAtOnce m) : ∃ u : State,
    s.homeRequest m = u.settle m.line ∧ u.txn m.line = some { req := m } ∧ u.entry m.line = {}
      ∧ u = { s with snd := u.snd, home := u.home } := by
  obtain ⟨snd, accepted⟩ := h.homeRequest completes.newWay
  refine ⟨(State.setEntry { s with snd } m.line {}).setTxn m.line { req := m }, ?_, State.txn_setTxn ..,
    (State.entry_setTxn ..).trans (State.entry_setEntry_free rfl), rfl⟩
  rw [accepted, State.openTxn_completes (s := { s with snd }) h.calm free completes]

theorem State.admits.writes (h : s.admits m) {c : Nat} (free : s.entry m.line = {}) (runs : s.runsAt m.line c) (whole : wholeWrite m)
    (room : (s.chan c).writeQ.length < 64) (new : ∀ q ∈ (s.chan c).writeQ, q.line ≠ m.line) : ∃ u : State,
      s.homeRequest m = u.send (cmpMsg m .ok none) ∧ u.txn m.line = none
        ∧ u = { s.setChan c ((s.chan c).withWrite m.line (writtenLine m) m.world) with snd := u.snd, home := u.home } := by
  obtain ⟨v, settles, txn, -, keeps⟩ := h.settles free (.inl whole)
  obtain ⟨snd, home, rfl⟩ : ∃ snd home, v = { s with snd, home } := ⟨_, _, keeps⟩
  have runs' : State.runsAt (State.setTxn { s with snd, home } m.line { req := m, granted := true }) m.line c :=
    ⟨runs.window, runs.place, runs.run⟩
  have grants := State.grant_whole (s := { s with snd, home }) (n := m.line) whole runs'.chanFailed
  rw [runs'.homeWrite room new] at grants
  obtain ⟨slices, closed⟩ := State.settle_completes txn (completesAtOnce.ready (.inl whole)) grants
    (State.txn_setTxn { s with snd, home } m.line { req := m, granted := true })
  exact ⟨_, settles.trans closed, State.txn_dropTxn .., rfl⟩

theorem State.admits.trowels (h : s.admits m) {c : Nat} (free : s.entry m.line = {}) (runs : s.runsAt m.line c) (trw : m.ty = .trw)
    (op : m.op.toNat < 3) : ∃ u : State,
      s.homeRequest m = u.send (cmpMsg m .ok none) ∧ u.txn m.line = none ∧ u = { s with snd := u.snd, home := u.home } := by
  obtain ⟨v, settles, txn, entry, keeps⟩ := h.settles free (.inr ⟨trw, op⟩)
  obtain ⟨snd, home, rfl⟩ : ∃ snd home, v = { s with snd, home } := ⟨_, _, keeps⟩
  have runs' : State.runsAt { s with snd, home } m.line c := ⟨runs.window, runs.place, runs.run⟩
  have grants := State.grant_trw (s := { s with snd, home }) (n := m.line) trw op entry runs'.chanDown
  obtain ⟨slices, closed⟩ := State.settle_completes txn (completesAtOnce.ready (.inr ⟨trw, op⟩)) grants
    (State.txn_setTxn { s with snd, home } m.line { req := m, granted := true })
  exact ⟨_, settles.trans closed, State.txn_dropTxn .., rfl⟩

theorem State.send_low {g : Msg} (low : g.dst.toNat < 12) : s.send g = { s with net := s.net ++ [g] } := by
  rw [State.send, decide_eq_false (Nat.not_le.mpr low), Bool.false_and, if_neg Bool.false_ne_true]

/-- The upgrade of the one sharer is granted at once (R182). -/
theorem State.admits.upgrades (h : s.admits m) {e : Entry} (entry : s.entry m.line = e) (st : e.st = .s)
    (own : e.sharers = 1#14 <<< m.src.toNat) (low : m.src.toNat < 12) (upg : m.ty = .upg) : ∃ u : State,
      s.homeRequest m = u.send (grantMsg m .m none) ∧ u.txn m.line = none
        ∧ u.entry m.line = { e with st := .x, owner := m.src, sharers := 0, age := 0 }
        ∧ u = { s with snd := u.snd, home := u.home } := by
  have takes : s.newWay m none := by
    unfold State.newWay
    rw [entry, st, show (HState.s == HState.i) = false from rfl, Bool.and_false, if_neg Bool.false_ne_true]
  obtain ⟨snd, accepted⟩ := h.homeRequest takes
  have opened := State.openTxn_upg (s := { s with snd }) h.calm entry st own low upg
  obtain ⟨v, hv⟩ : ∃ v, State.setTxn (State.setEntry { s with snd } m.line { e with age := 0 }) m.line { req := m } = v :=
    ⟨_, rfl⟩
  have txn : v.txn m.line = some { req := m } := hv ▸ State.txn_setTxn ..
  have aged : v.entry m.line = { e with age := 0 } :=
    hv ▸ State.entry_setEntry (s := { s with snd }) m.line (e := { e with age := 0 }) (by rw [st]; exact HState.noConfusion)
  have mask : v.home.mask.getLsbD m.src.toNat = true := hv ▸ h.admitted low
  rw [hv] at opened
  obtain ⟨home, rfl⟩ : ∃ home, v = { s with snd, home } := ⟨v.home, by rw [← hv]; rfl⟩
  have grants := State.grant_upg (n := m.line) (t := { req := m }) upg mask rfl rfl rfl
  rw [aged] at grants
  obtain ⟨slices, closed⟩ := State.settle_completes txn ⟨rfl, rfl, rfl, rfl, rfl, rfl, rfl, by simp [needsData, upg]⟩ grants
    (State.txn_setTxn { s with snd, home } m.line { req := m, granted := true })
  refine ⟨_, (accepted.trans (congrArg (fun u => State.settle u m.line) opened)).trans closed, State.txn_dropTxn .., ?_, rfl⟩
  exact State.entry_setEntry (s := { s with snd, home }) m.line (e := newOwner { e with age := 0 } m.src e.way false) HState.noConfusion

end

/-! ### Evictions (R180, R182, R196) -/

section
variable {s : State} {m : Msg}

theorem State.homeEvict_owner (admitted : s.home.mask.getLsbD m.src.toNat = true) (free : s.txn m.line = none)
    (owned : (s.entry m.line).st = .x ∨ (s.entry m.line).st = .o) (owner : (s.entry m.line).owner = m.src) :
    s.homeEvict m = ((if m.ty = .wbd then s.homeWrite m.line (writtenLine m) m.world else s).setEntry m.line
      (leaveEntry (s.entry m.line) m.src)).send (cmpMsg m .ok none) := by
  unfold State.homeEvict
  dsimp only
  rw [admitted, Bool.not_true, if_neg Bool.false_ne_true, free]
  simp only [owned, owner, and_true]
  rfl

/-- The owner of a line that nobody else holds leaves no entry behind. -/
theorem leaveEntry_free {e : Entry} (owner : e.owner = m.src) (alone : e.st = .x ∨ e.st = .o ∧ e.sharers = 0) :
    (leaveEntry e m.src).st = .i := by
  have owned : (e.st = .x ∨ e.st = .o) ∧ e.owner = m.src := ⟨alone.imp_right And.left, owner⟩
  rw [leaveEntry, if_pos owned]
  rcases alone with st | ⟨st, none⟩
  · rw [dropOwner, st]
  · rw [dropOwner, st]
    exact if_pos none

end

/-! ### What the arrival of a message leaves -/

section
variable {s : State} {m : Msg}

theorem State.runsAt.arrived {n : LineNo} {c : Nat} (h : s.runsAt n c) (q : Msg) : (s.arrived q).runsAt n c := by
  obtain ⟨_, _, e⟩ := s.arrived_eq q
  rw [e]
  exact ⟨h.window, h.place, h.run⟩

theorem State.newWay_arrived {way : Option (Fin 16)} (h : s.newWay m way) (q : Msg) : (s.arrived q).newWay m way := by
  obtain ⟨_, _, e⟩ := s.arrived_eq q
  rw [e]
  exact h

theorem State.arrived_chan (q : Msg) (c : Nat) : (s.arrived q).chan c = s.chan c := by
  obtain ⟨_, _, e⟩ := s.arrived_eq q
  rw [e]
  rfl

theorem State.arrived_chans (q : Msg) : (s.arrived q).chans = s.chans := by
  obtain ⟨_, _, e⟩ := s.arrived_eq q
  rw [e]

end

theorem State.queueOf_setQueue (s : State) (n : LineNo) (q : List Msg) : (s.setQueue n q).queueOf n = q := sget_sset_same ..

/-- An uncached read of a line that an Isle owns asks the owner, which keeps the line (R182). -/
theorem State.settle_rdn {s : State} {m : Msg} {e : Entry} (calm : s.homeCalm m.line) (entry : s.entry m.line = e) (x : e.st = .x)
    (alone : e.sharers = 0) (rdn : m.ty = .rdn) : (s.openTxn m none).settle m.line = s.asking m.line e m .sng 0 := by
  have same : asRdu e m = m := asRdu_request (by rw [rdn]; exact MsgTy.noConfusion)
  have forget : forgetSelf e m = e := if_neg fun self => by simp [rdn] at self
  have settled := State.settle_asks (ty := .sng) (cause := 0) calm entry x alone (by rw [same, forget]) (by rw [same, ownerSnoop, rdn])
  rwa [same] at settled

/-- The request at the head of a line's queue, whose line has an entry or which leaves none (R181). -/
theorem State.openQueued_head {s : State} {r : Msg} {n : LineNo} {q : List Msg} (calm : s.homeCalm n) (free : s.txn n = none)
    (queue : s.queueOf n = r :: q) (leaves : needsEntry r.ty = false) :
    s.openQueued n = ((s.setQueue n q).openTxn r none).settle n := by
  unfold State.openQueued
  dsimp only
  rw [State.purgeDemand_calm calm, free, queue]
  dsimp only
  rw [leaves, Bool.false_and, if_neg Bool.false_ne_true]

theorem exec_wbd {s : State} {m : Msg} (h : s.comes { m with ty := .wbd }) :
    exec (.wbd m) s = .next ((s.arrived { m with ty := .wbd }).homeEvict { m with ty := .wbd }) := by
  show execWbd m s = _
  exact State.arrive_comes h _

theorem exec_evc {s : State} {m : Msg} (h : s.comes { m with ty := .evc }) :
    exec (.evc m) s = .next ((s.arrived { m with ty := .evc }).homeEvict { m with ty := .evc }) := by
  show execEvc m s = _
  exact State.arrive_comes h _

/-- What is as f but for its counters and its homes is so too where messages may differ. -/
theorem State.keeps_messages {f u : State} (keeps : u = { f with snd := u.snd, home := u.home }) :
    u = { f with net := u.net, snd := u.snd, home := u.home, replies := u.replies } := by
  obtain ⟨snd, home, rfl⟩ : ∃ snd home, u = { f with snd, home } := ⟨_, _, keeps⟩
  rfl

/-- Settles O42: what a line that nobody else holds has its home do. -/
theorem homeServesFreeLines : Obligations.HomeServesFreeLines := by
  intro s m c loc w n x as asked reads v filled wrote
  refine ⟨fun free place run => ?free, fun ready low st own => ?upg, fun mask none window owner => ⟨?wbd, ?evc⟩, ?opens, ?empty⟩
  case free =>
    have empty (k : MsgTy) : (s.arrived (as k)).entry n = {} := (State.arrived_entry ..).trans free
    have runs {k : MsgTy} (ready : s.homeOpen (as k)) : (s.arrived (as k)).runsAt n c :=
      State.runsAt.arrived ⟨ready.2.2.2.2.1, ⟨loc, place⟩, run⟩ _
    have queued {i : Instr} {k : MsgTy} {r : Msg} {way : Option (Fin 16)} (kind : (k, i) ∈ requestKinds m) (takes : s.newWay (as k) way)
        (opens : asRdu {} (as k) = r) (needs : readsMemory r) : reads i (as k) r way := by
      intro ready
      subst opens
      obtain ⟨snd, home, served, txn⟩ := ready.admits.reads (State.newWay_arrived takes _) (empty k) (runs ready) needs
      refine ⟨_, (exec_request kind ready.1).trans (congrArg _ served), rfl, txn, ?_⟩
      rw [State.arrived_chan]
      rfl
    have completed {i : Instr} {k : MsgTy} (kind : (k, i) ∈ requestKinds m) (whole : wholeWrite (as k)) (room : x.writeQ.length < 64)
        (new : ∀ q ∈ x.writeQ, q.line ≠ n) (ready : s.homeOpen (as k)) : ∃ u : State, exec i s = .next (u.send (cmpMsg m .ok none))
          ∧ wrote (s.arrived (as k)) u ∧ u.txn n = none := by
      have same : (s.arrived (as k)).chan c = x := s.arrived_chan ..
      obtain ⟨u, served, txn, keeps⟩ := ready.admits.writes (empty k) (runs ready) whole (by rwa [same]) (by rwa [same])
      rw [same] at keeps
      exact ⟨u, (exec_request kind ready.1).trans (congrArg _ served), State.keeps_messages keeps, txn⟩
    have fresh {k : MsgTy} (needs : needsEntry k = true) (found : s.findWay n = .free w) : s.newWay (as k) (some w) := by
      unfold State.newWay
      rw [show s.entry (as k).line = {} from free, show needsEntry (as k).ty = true from needs, if_pos (by rfl)]
      exact ⟨w, found, rfl⟩
    have noWay {k : MsgTy} (leaves : needsEntry k = false) : s.newWay (as k) none := by
      unfold State.newWay
      rw [show needsEntry (as k).ty = false from leaves, Bool.false_and, if_neg Bool.false_ne_true]
    have same {k : MsgTy} (ne : k ≠ .upg) : asRdu {} (as k) = as k := asRdu_request ne
    refine ⟨fun found => ⟨?rds, ?rdu, ?late⟩, ?rdn, ?atm, fun part => ?wrn, fun room new => ⟨?wrl, fun ready full => ?wrnFull⟩,
      fun ready op => ?trw⟩
    case rds => exact queued (by simp [requestKinds]) (fresh rfl found) (same (by decide)) (.inl rfl)
    case rdu => exact queued (by simp [requestKinds]) (fresh rfl found) (same (by decide)) (.inr (.inl rfl))
    case late => exact queued (k := .upg) (by simp [requestKinds]) (fresh rfl found) (if_pos ⟨rfl, rfl⟩) (.inr (.inl rfl))
    case rdn => exact queued (by simp [requestKinds]) (noWay rfl) (same (by decide)) (.inr (.inr (.inl rfl)))
    case atm => exact queued (by simp [requestKinds]) (noWay rfl) (same (by decide)) (.inr (.inr (.inr (.inl rfl))))
    case wrn => exact queued (by simp [requestKinds]) (noWay rfl) (same (by decide)) (.inr (.inr (.inr (.inr ⟨rfl, part⟩))))
    case wrl => exact completed (by simp [requestKinds]) (.inl rfl) room new
    case wrnFull => exact completed (by simp [requestKinds]) (.inr ⟨rfl, full⟩) room new ready
    case trw =>
      obtain ⟨u, served, txn, keeps⟩ := ready.admits.trowels (empty .trw) (runs ready) rfl op
      have kind : (.trw, .trw m) ∈ requestKinds m := by simp [requestKinds]
      refine ⟨u, (exec_request kind ready.1).trans (congrArg _ served), ?_, txn⟩
      rw [keeps]
      exact s.arrived_chans _
  case upg =>
    obtain ⟨u, served, txn, entry, keeps⟩ := ready.admits.upgrades (State.arrived_entry ..) st own low rfl
    obtain ⟨snd, home, rfl⟩ : ∃ snd home, u = { s.arrived (as .upg) with snd, home } := ⟨_, _, keeps⟩
    rw [State.send_low low] at served
    have kind : (.upg, .upg m) ∈ requestKinds m := by simp [requestKinds]
    exact ⟨_, (exec_request kind ready.1).trans (congrArg _ served), rfl, entry, txn, rfl⟩
  case wbd =>
    intro comes place run st room new f
    have same : f.chan c = x := s.arrived_chan ..
    have entry : f.entry n = s.entry n := State.arrived_entry ..
    have runs : f.runsAt n c := State.runsAt.arrived ⟨window, ⟨loc, place⟩, run⟩ _
    have evicted := State.homeEvict_owner (s := f) (m := as .wbd) (by rw [State.arrived_home]; exact mask)
      ((State.arrived_txn ..).trans none) (.inl (entry ▸ st)) (entry ▸ owner)
    rw [if_pos rfl, runs.homeWrite (by rwa [same]) (by rwa [same]), same] at evicted
    exact ⟨_, (exec_wbd comes).trans (congrArg _ evicted), rfl,
      State.entry_setEntry_free (leaveEntry_free (m := m) (entry ▸ owner) (.inl (entry ▸ st))), rfl⟩
  case evc =>
    intro comes alone
    have entry : (s.arrived (as .evc)).entry n = s.entry n := State.arrived_entry ..
    have evicted := State.homeEvict_owner (s := s.arrived (as .evc)) (m := as .evc) (by rw [State.arrived_home]; exact mask)
      ((State.arrived_txn ..).trans none) (entry ▸ alone.imp_right And.left) (entry ▸ owner)
    rw [if_neg MsgTy.noConfusion] at evicted
    refine ⟨_, (exec_evc comes).trans (congrArg _ evicted),
      State.entry_setEntry_free (leaveEntry_free (m := m) (entry ▸ owner) (entry ▸ alone)), ?_⟩
    rw [← s.arrived_home (as .evc)]
    rfl
  case opens =>
    intro calm free queue ty st alone
    have opened := (State.openQueued_head calm free queue (by rw [ty]; rfl)).trans
      (State.settle_rdn (s := s.setQueue n []) calm rfl st alone ty)
    exact ⟨_, congrArg Host.Outcome.next opened, rfl, s.queueOf_setQueue n [], State.txn_asking ..⟩
  case empty =>
    intro calm free none
    show execQueuedRequestOpen n s = _
    rw [execQueuedRequestOpen, State.openQueued, State.purgeDemand_calm calm, free, none]

end Sys2Proof.Machine

/-! The lanes of a Strait: replays, sidebands, failed lanes, spares and narrowing, recalibration, full training, and the admission of
an Isle (R207 to R210, R212 to R219, R226, R228 to R231). -/

namespace Sys2Proof.Machine

/-! ### Lanes of one direction (R209, R212, R213) -/

section
variable (d : Dir)

@[simp] theorem Dir.lane_setLane (i : Nat) (l : Lane) : (d.setLane i l).lane i = l := sget_sset_same ..

theorem Dir.lane_setLane_ne {i j : Nat} (l : Lane) (h : j ≠ i) : (d.setLane i l).lane j = d.lane j := sget_sset_ne _ _ _ h

@[simp] theorem Dir.modLane_eq (i : Nat) (f : Lane → Lane) : d.modLane i f = d.setLane i (f (d.lane i)) := rfl

/-- A direction but for its lanes. -/
def Dir.frame : Dir := { d with lanes := [] }

theorem Dir.frame_setLane (i : Nat) (l : Lane) : (d.setLane i l).frame = d.frame := rfl

end

theorem Dir.eq_of_frame {d e : Dir} (h : e.frame = d.frame) : e = { d with lanes := e.lanes } := by
  obtain ⟨⟩ := d
  obtain ⟨⟩ := e
  simp only [Dir.frame, Dir.mk.injEq] at h ⊢
  tauto

section
variable {α : Type} (key : α → Nat) (f : α → Lane → Lane)

/-- The lanes that a list names are changed one after another. -/
def Dir.modLanes (d : Dir) (l : List α) : Dir := l.foldl (fun (d : Dir) a => d.modLane (key a) (f a)) d

theorem Dir.frame_modLanes (d : Dir) (l : List α) : (d.modLanes key f l).frame = d.frame :=
  foldl_keeps (g := Dir.frame) (fun d a => d.frame_setLane (key a) _) l d

theorem Dir.lane_modLanes_other (d : Dir) (l : List α) {i : Nat} (other : i ∉ l.map key) :
    (d.modLanes key f l).lane i = d.lane i := by
  induction l generalizing d with
  | nil => rfl
  | cons a l ih =>
    rw [List.map_cons, List.mem_cons, not_or] at other
    exact (ih _ other.2).trans (d.lane_setLane_ne _ other.1)

/-- A lane that is named once is changed once. -/
theorem Dir.lane_modLanes (d : Dir) {l : List α} (once : (l.map key).Nodup) {a : α} (h : a ∈ l) :
    (d.modLanes key f l).lane (key a) = f a (d.lane (key a)) := by
  induction l generalizing d with
  | nil => cases h
  | cons b l ih =>
    rw [List.map_cons, List.nodup_cons] at once
    obtain rfl | tail := List.mem_cons.mp h
    · exact (Dir.lane_modLanes_other key f _ l once.1).trans (d.lane_setLane ..)
    · have other : key a ≠ key b := fun same => once.1 (same ▸ List.mem_map_of_mem tail)
      exact (ih _ once.2 tail).trans (congrArg (f a) (d.lane_setLane_ne _ other))

end

section
variable (d : Dir)

theorem mem_lanesOf {m : BitVec 104} {i : Nat} : i ∈ lanesOf m ↔ i < 104 ∧ m.getLsbD i = true := by
  rw [lanesOf, List.mem_filter, List.mem_range]

theorem nodup_lanesOf (m : BitVec 104) : (lanesOf m).Nodup := List.nodup_range.filter _

theorem lanesOf_one (i : Fin 104) : lanesOf (1#104 <<< i.val) = [i.val] := by
  have bit (k : Nat) (h : k ∈ List.range 104) : (1#104 <<< i.val).getLsbD k = decide (k = i.val) :=
    getLsbD_one_shiftLeft _ _ (List.mem_range.mp h)
  rw [lanesOf, List.filter_congr bit, List.filter_eq, List.nodup_range.count, if_pos (List.mem_range.mpr i.isLt)]
  rfl

theorem lanesOf_allOnes : lanesOf (BitVec.allOnes 104) = List.range 104 :=
  List.filter_eq_self.mpr fun _ h => (BitVec.getLsbD_allOnes ..).trans (decide_eq_true (List.mem_range.mp h))

theorem lanesOf_zero : lanesOf 0 = [] := List.filter_eq_nil_iff.mpr fun i _ => by simp

theorem Dir.mem_having {r : LaneRole} {i : Nat} : i ∈ d.having r ↔ i < 104 ∧ (d.lane i).role = r := by
  rw [Dir.having, List.mem_filter, List.mem_range, beq_iff_eq]

theorem Dir.having_head {r : LaneRole} {i : Nat} {is : List Nat} (h : d.having r = i :: is) : i < 104 ∧ (d.lane i).role = r :=
  d.mem_having.mp (h ▸ List.mem_cons_self ..)

/-- A role whose lanes are powered (R209). -/
def LaneRole.powered : LaneRole → Bool
  | .data | .spare | .standin | .recal => true
  | .failed | .dormant => false

theorem Dir.powered_eq : d.powered = (List.range 104).filter fun i => (d.lane i).role.powered := by
  refine List.filter_congr fun i _ => ?_
  generalize (d.lane i).role = r
  cases r <;> rfl

theorem LaneRole.carries_iff (r : LaneRole) : r.carries = true ↔ r = .data ∨ r = .standin ∨ r = .recal := by
  cases r <;> simp [LaneRole.carries]

/-- A lane takes an error. -/
def Lane.err1 (l : Lane) : Lane := { l with err := satAdd l.err 1 }

/-- The direction after the lanes that carried bad bits of a flit took their errors. -/
def Dir.charged (bad : BitVec 104) : Dir := d.modLanes id (fun _ => Lane.err1) ((lanesOf bad).filter fun i => (d.lane i).role.carries)

theorem Dir.frame_charged (bad : BitVec 104) : (d.charged bad).frame = d.frame := Dir.frame_modLanes ..

/-- Each lane that carried bad bits of the flit takes one error. -/
theorem Dir.lane_charged (bad : BitVec 104) (i : Fin 104) : (d.charged bad).lane i.val =
    if bad.getLsbD i.val = true ∧ ((d.lane i.val).role = .data ∨ (d.lane i.val).role = .standin ∨ (d.lane i.val).role = .recal) then
      { d.lane i.val with err := satAdd (d.lane i.val).err 1 } else d.lane i.val := by
  have mem : (i.val ∈ (lanesOf bad).filter fun i => (d.lane i).role.carries) ↔ bad.getLsbD i.val = true ∧ ((d.lane i.val).role = .data ∨ (d.lane i.val).role = .standin
      ∨ (d.lane i.val).role = .recal) := by
    rw [List.mem_filter, mem_lanesOf, LaneRole.carries_iff]
    simp only [i.isLt, true_and]
  unfold Dir.charged
  split
  next h =>
    refine Dir.lane_modLanes id _ d ?_ (mem.mpr h)
    rw [List.map_id]
    exact (nodup_lanesOf bad).filter _
  next h =>
    refine Dir.lane_modLanes_other id _ d _ ?_
    rw [List.map_id]
    exact fun hi => h (mem.mp hi)

end

/-! ### One direction of a Strait, and what changes it (R209, R351) -/

/-- The direction toward the Keystone, or toward the Isle. -/
def Strait.dir (x : Strait) (toK : Bool) : Dir := if toK then x.toK else x.toI

section
variable (x : Strait) (toK : Bool) (d : Dir)

@[simp] theorem Strait.dir_setDir : (x.setDir toK d).dir toK = d := by cases toK <;> rfl
@[simp] theorem Strait.dir_setDir_not : (x.setDir toK d).dir (!toK) = x.dir (!toK) := by cases toK <;> rfl

theorem Strait.setDir_dir : x.setDir toK (x.dir toK) = x := by cases toK <;> rfl

@[simp] theorem Strait.st_setDir : (x.setDir toK d).st = x.st := by cases toK <;> rfl
@[simp] theorem Strait.narrow_setDir : (x.setDir toK d).narrow = x.narrow := by cases toK <;> rfl
@[simp] theorem Strait.due_setDir : (x.setDir toK d).due = x.due := by cases toK <;> rfl
@[simp] theorem Strait.watched_setDir : (x.setDir toK d).watched = x.watched := by cases toK <;> rfl

end

section
variable (s : State) (n : Nat)

theorem State.dirOf_eq (toK : Bool) : s.dirOf n toK = (s.strait n).dir toK := rfl

theorem State.relane_eq (f : Strait → Strait) : ∃ l, s.relane n f = { s.setStrait n (f (s.strait n)) with ledger := l } := by
  unfold State.relane
  dsimp only
  split
  · exact State.claim_eq ..
  · exact ⟨_, rfl⟩

@[simp] theorem State.strait_relane (f : Strait → Strait) : (s.relane n f).strait n = f (s.strait n) := by
  obtain ⟨l, h⟩ := s.relane_eq n f
  rw [h]
  exact s.strait_setStrait ..

@[simp] theorem State.strait_relaneDir (toK : Bool) (f : Dir → Dir) :
    (s.relaneDir n toK f).strait n = (s.strait n).setDir toK (f ((s.strait n).dir toK)) := s.strait_relane ..

@[simp] theorem State.strait_recStrait (code : BitVec 16) (ps : List Nat) (j k : Nat) :
    (s.recStrait j code ps).strait k = s.strait k := rfl

@[simp] theorem State.strait_claim (q core hub : Nat) : (s.claim q core hub).1.strait n = s.strait n := by
  rw [State.claim_frame]
  rfl

@[simp] theorem State.mem_claim (q core hub : Nat) : (s.claim q core hub).1.mem = s.mem := by
  rw [State.claim_frame]

@[simp] theorem State.strait_detect (k : Report) : (s.detect n k).strait n = { s.strait n with
    due := if (s.strait n).watched then (s.strait n).due.or (some k) else none } := s.strait_setStrait ..

theorem State.stopRecal_idle (idle : (s.strait n).recal = none) : s.stopRecal n = s := by
  rw [State.stopRecal, idle]

end

/-! ### Replays and sidebands (R207, R208) -/

section
variable {s : State} {n : Fin 12} (fit : s.isleFit n = true) (toK : Bool)
include fit

theorem exec_flitCrcReplay (q : BitVec 12) (bad : BitVec 104) : exec (.flitCrcReplay n toK q bad) s
    = .next (s.setStrait n ((s.strait n).setDir toK (((s.dirOf n toK).charged bad).resend q))) := if_pos fit

/-- What the loss of both sidebands of a direction makes due (R208, R224). -/
def Strait.severing (x : Strait) : Option Report := if x.armed = true ∨ x.result = 3 then x.due.or (some .severed) else none

omit fit in
/-- A sideband fails: its bit is set, and the Isle is severed when the other one has failed before. -/
theorem State.sidebandLost {t : State} {d : Dir} (lost : t.strait n = (s.strait n).setDir toK d) (both : Bool) :
    let u := if both then t.detect n .severed else t
    u.dirOf n toK = d ∧ (u.strait n).due = if both then (s.strait n).severing else (s.strait n).due := by
  intro u
  cases both with
  | false =>
    have same : u = t := rfl
    rw [if_neg Bool.false_ne_true, same, State.dirOf_eq, lost]
    exact ⟨Strait.dir_setDir .., Strait.due_setDir ..⟩
  | true =>
    have same : u = t.detect n .severed := rfl
    rw [if_pos rfl, same, State.dirOf_eq, State.strait_detect, lost]
    refine ⟨(s.strait n).dir_setDir toK d, ?_⟩
    rw [Strait.severing, Strait.due_setDir, Strait.watched_setDir]
    exact if_congr (Strait.watched_iff _) rfl rfl

theorem exec_sidebandFailover (first : (s.dirOf n toK).pri = false) : ∃ u, exec (.sidebandFailover n toK) s = .next u
    ∧ u.dirOf n toK = { s.dirOf n toK with pri := true }
    ∧ (u.strait n).due = if (s.dirOf n toK).bak then (s.strait n).severing else (s.strait n).due := by
  have lost := State.strait_relaneDir s n toK fun d => { d with pri := true }
  obtain ⟨dir, due⟩ := State.sidebandLost toK (t := (s.relaneDir n toK fun d => { d with pri := true }).recStrait n 0o001004 [dirNum toK])
    lost (s.dirOf n toK).bak
  refine ⟨_, ?_, dir, due⟩
  show execSidebandFailover n toK s = _
  rw [execSidebandFailover, fit, first]
  dsimp only
  rw [State.dirOf_eq, State.strait_recStrait, lost, Strait.dir_setDir]
  rfl

omit fit in
theorem exec_sidebandFailover_again (again : (s.dirOf n toK).pri = true) : exec (.sidebandFailover n toK) s = .next s := by
  show execSidebandFailover n toK s = _
  rw [execSidebandFailover, again, Bool.or_true]
  rfl

theorem exec_backupSidebandLaneFailed : ∃ u, exec (.backupSidebandLaneFailed n toK) s = .next u
    ∧ u.dirOf n toK = { s.dirOf n toK with bak := true }
    ∧ (u.strait n).due = if (s.dirOf n toK).pri then (s.strait n).severing else (s.strait n).due := by
  have lost := State.strait_relaneDir s n toK fun d => { d with bak := true }
  obtain ⟨dir, due⟩ := State.sidebandLost toK lost (s.dirOf n toK).pri
  refine ⟨_, ?_, dir, due⟩
  show execBackupSidebandLaneFailed n toK s = _
  rw [execBackupSidebandLaneFailed, fit]
  dsimp only
  rw [State.dirOf_eq, lost, Strait.dir_setDir]
  rfl

/-! ### Lanes that fail (R212 to R215) -/

theorem exec_laneFailed_spared (i : Fin 104) (up : (s.strait n).st = .up) (few : ((s.dirOf n toK).lane i).err.toNat < 16)
    (whole : (s.dirOf n toK).lost = []) (wide : 24 ≤ (s.dirOf n toK).powered.length) :
    exec (.laneFailed n toK (1#104 <<< i.val) 1) s = .next s := by
  have spared : (s.dirOf n toK).mayFail (1 : Fin 3) i = false := decide_eq_false fun h => h.elim (absurd rfl) (Nat.not_le_of_lt few)
  show execLaneFailed n toK _ 1 s = _
  rw [execLaneFailed, if_pos ⟨fit, .inl up⟩, lanesOf_one, List.filter_cons_of_neg (ne_true_of_eq_false spared), List.filter_nil]
  dsimp only [List.foldl_nil]
  rw [State.afterFail, whole, if_neg (Nat.not_lt_of_le wide)]
  rfl

omit fit in
theorem State.laneFail_data {i : Nat} (data : ((s.dirOf n toK).lane i).role = .data) (idle : (s.strait n).recal = none) (c : Nat) :
    s.laneFail n toK i c = (s.recStrait n 0o001001 [dirNum toK, i, c]).relaneDir n toK fun d => d.failLane i := by
  have idle' : ((s.recStrait n 0o001001 [dirNum toK, i, c]).strait n).recal = none := idle
  unfold State.laneFail
  dsimp only
  rw [data]
  dsimp only
  rw [State.stopRecal_idle _ _ idle']

omit fit in
theorem Dir.failLane_data {d : Dir} {i : Nat} (data : (d.lane i).role = .data) : d.failLane i =
    { d.setLane i { role := .failed, err := (d.lane i).err } with fail := d.fail + 1, lost := d.lost ++ [(d.lane i).logical.toNat] } := by
  unfold Dir.failLane
  dsimp only
  rw [data]
  rfl

omit fit in
/-- A direction that has lost a logical lane stalls the Strait. -/
theorem State.afterFail_stalls (up : (s.strait n).st = .up) (lost : (s.dirOf n toK).lost ≠ []) :
    ((s.afterFail n toK).strait n).st = .stalled ∧ (s.afterFail n toK).dirOf n toK = s.dirOf n toK := by
  have some_lost : (s.dirOf n toK).lost.isEmpty = false := by simpa using lost
  unfold State.afterFail
  dsimp only
  rw [some_lost, if_neg Bool.false_ne_true, State.modStrait_eq, up]
  split
  · rw [State.dirOf_eq, State.strait_detect, State.strait_setStrait]
    exact ⟨rfl, rfl⟩
  · rw [State.dirOf_eq, State.strait_setStrait]
    exact ⟨rfl, rfl⟩

theorem exec_laneFailed_data {i : Fin 104} {c : Fin 3} (up : (s.strait n).st = .up) (idle : (s.strait n).recal = none)
    (data : ((s.dirOf n toK).lane i).role = .data) (bad : c ≠ 1 ∨ 16 ≤ ((s.dirOf n toK).lane i).err.toNat) :
    ∃ u, exec (.laneFailed n toK (1#104 <<< i.val) c) s = .next u ∧ (u.strait n).st = .stalled
      ∧ u.dirOf n toK = (s.dirOf n toK).failLane i := by
  have fails : (s.dirOf n toK).mayFail c i = true := decide_eq_true (bad.imp_left fun h same => h (Fin.ext same))
  have failed := State.strait_relaneDir (s.recStrait n 0o001001 [dirNum toK, i, c]) n toK fun d => d.failLane i
  have dir : ((s.recStrait n 0o001001 [dirNum toK, i, c]).relaneDir n toK fun d => d.failLane i).dirOf n toK
      = (s.dirOf n toK).failLane i := by
    rw [State.dirOf_eq, failed, Strait.dir_setDir]
    rfl
  obtain ⟨st, same⟩ := State.afterFail_stalls toK (by rw [failed, Strait.st_setDir]; exact up)
    (by rw [dir, Dir.failLane_data data]; exact List.append_ne_nil_of_right_ne_nil _ (List.cons_ne_nil _ _))
  refine ⟨_, ?_, st, same.trans dir⟩
  show execLaneFailed n toK _ c s = _
  rw [execLaneFailed, if_pos ⟨fit, .inl up⟩, lanesOf_one, List.filter_cons_of_pos fails, List.filter_nil]
  rw [List.foldl_cons, List.foldl_nil, State.laneFail_data toK data idle]

/-! ### Spares, narrowing and dormant lanes (R209, R213 to R215) -/

omit fit in
theorem Dir.substitute_one {d : Dir} {g j : Nat} {js : List Nat} (lost : d.lost = [g]) (spares : d.having .spare = j :: js) :
    d.substitute = ({ d.setLane j { d.lane j with role := .data, logical := BitVec.ofNat 7 g } with
      lost := [], restore := d.restore + 1 }, [(g, j)]) := by
  unfold Dir.substitute
  rw [lost, spares]
  rfl

omit fit in
theorem Dir.substitute_none {d : Dir} (none_spare : d.having .spare = []) : d.substitute = (d, []) := by
  unfold Dir.substitute
  rw [none_spare, List.zip_nil_right]
  rfl

omit fit in
theorem State.strait_doSubst (stall : Nat) : (s.doSubst n toK stall).strait n =
    { (s.strait n).setDir toK (s.dirOf n toK).substitute.1 with
      subst := satAdd (s.strait n).subst (s.dirOf n toK).substitute.2.length } := by
  unfold State.doSubst
  exact (foldl_keeps (g := fun u : State => u.strait n)
    (f := fun (u : State) (p : Nat × Nat) => u.recStrait n 0o001002 [dirNum toK, p.1, p.2, stall]) (fun _ _ => rfl) _ _).trans
    (State.strait_relane ..)

omit fit in
/-- The directions of a Strait that has lost nothing any more, as both ends replay. -/
theorem State.strait_endStall (st : (s.strait n).st = .stalled) (whole : ((s.strait n).dir toK).lost = [])
    (other : ((s.strait n).dir (!toK)).lost = []) : (s.endStall n).strait n = { s.strait n with
      st := .up, toI := (s.strait n).toI.resend (s.strait n).toI.acked, toK := (s.strait n).toK.resend (s.strait n).toK.acked } := by
  have both : (s.strait n).toI.lost = [] ∧ (s.strait n).toK.lost = [] := by
    cases toK
    · exact ⟨whole, other⟩
    · exact ⟨other, whole⟩
  unfold State.endStall
  rw [State.modStrait_eq, State.strait_setStrait, if_pos ⟨st, by rw [both.1]; rfl, by rw [both.2]; rfl⟩]

/-- A lost logical lane moves to the lowest spare, and the stall ends. -/
theorem exec_substituted_one {g j : Nat} {js : List Nat} (stalled : (s.strait n).st = .stalled) (lost : (s.dirOf n toK).lost = [g])
    (other : (s.dirOf n (!toK)).lost = []) (spares : (s.dirOf n toK).having .spare = j :: js) (t : BitVec 32) :
    ∃ u, exec (.substituted n toK t) s = .next u ∧ (u.strait n).st = .up
      ∧ u.dirOf n toK = (s.dirOf n toK).substitute.1.resend (s.dirOf n toK).acked
      ∧ (u.strait n).subst = satAdd (s.strait n).subst 1 := by
  have moved := State.strait_doSubst (s := s) (n := n) toK t.toNat
  have whole : (s.dirOf n toK).substitute.1.lost = [] := by rw [Dir.substitute_one lost spares]
  have ended := State.strait_endStall (s := s.doSubst n toK t.toNat) toK (by rw [moved]; exact (Strait.st_setDir ..).trans stalled)
    (by rw [moved]; exact (congrArg Dir.lost (Strait.dir_setDir ..)).trans whole)
    (by rw [moved]; exact (congrArg Dir.lost (Strait.dir_setDir_not ..)).trans other)
  refine ⟨_, if_pos ⟨fit, stalled⟩, by rw [ended], ?_, ?_⟩
  · have acked : (s.dirOf n toK).substitute.1.acked = (s.dirOf n toK).acked := by rw [Dir.substitute_one lost spares]; rfl
    rw [State.dirOf_eq, ended, moved, ← acked]
    cases toK <;> rfl
  · rw [ended, moved, Dir.substitute_one lost spares]
    rfl

end

/-- A change of a direction's lanes that unpowers none. -/
structure Dir.Keeps (d e : Dir) : Prop where
  frame : e.frame = d.frame
  powered : ∀ i, (d.lane i).role.powered = true → (e.lane i).role.powered = true

theorem Dir.Keeps.refl (d : Dir) : d.Keeps d := ⟨rfl, fun _ => id⟩

theorem Dir.Keeps.of_eq {d e d' e' : Dir} (h : d.Keeps e) (left : d' = d) (right : e' = e) : d'.Keeps e' := left ▸ right ▸ h

theorem Dir.Keeps.setLane {d e : Dir} (h : d.Keeps e) {i : Nat} {l : Lane} (powered : l.role.powered = true) : d.Keeps (e.setLane i l) := by
  refine ⟨h.frame, fun j was => ?_⟩
  by_cases here : j = i
  · subst here
    rw [Dir.lane_setLane, powered]
  · rw [Dir.lane_setLane_ne _ _ here, h.powered j was]

theorem Dir.Keeps.powered_length {d e : Dir} (h : d.Keeps e) : d.powered.length ≤ e.powered.length := by
  rw [Dir.powered_eq, Dir.powered_eq]
  exact (List.monotone_filter_right _ h.powered).length_le

/-- The end of a recalibration gives its lane and its stand-in back (R218). -/
theorem State.strait_stopRecal (s : State) (n : Nat) : let x := (s.stopRecal n).strait n
    x.recal = none ∧ x.st = (s.strait n).st ∧ x.narrow = (s.strait n).narrow ∧ ∀ toK, ((s.strait n).dir toK).Keeps (x.dir toK) := by
  dsimp only
  cases recal : (s.strait n).recal with
  | none =>
    rw [State.stopRecal_idle _ _ recal]
    exact ⟨recal, rfl, rfl, fun _ => .refl _⟩
  | some p =>
    obtain ⟨k, j⟩ := p
    have back (e : Dir) : e.Keeps (if k = j then e.modLane (k % 104) fun l => { l with role := .spare }
        else (e.modLane (k % 104) fun l => { l with role := .data }).modLane (j % 104) fun l => { l with role := .spare, logical := 0 }) := by
      split
      · exact (Dir.Keeps.refl e).setLane rfl
      · exact ((Dir.Keeps.refl e).setLane rfl).setLane rfl
    rw [State.stopRecal, recal]
    dsimp only
    rw [State.modStrait_eq, State.strait_setStrait, State.strait_relaneDir, State.strait_release]
    refine ⟨rfl, Strait.st_setDir .., Strait.narrow_setDir .., fun toK => ?_⟩
    by_cases same : toK = decide (104 ≤ k)
    · rw [same]
      exact (back _).of_eq rfl (Strait.dir_setDir ..)
    · obtain rfl : toK = !decide (104 ≤ k) := Bool.eq_not.mpr same
      exact (Dir.Keeps.refl _).of_eq rfl (Strait.dir_setDir_not ..)

theorem Dir.narrow_half {d : Dir} (full : d.width = 0) (wide : 48 ≤ d.powered.length) :
    ∃ e, d.narrow = some e ∧ e.width = 1 ∧ e.lost = [] := by
  unfold Dir.narrow
  rw [full]
  exact ⟨_, rfl, rfl, if_neg (Nat.not_lt_of_le wide)⟩

section
variable {s : State} {n : Fin 12} (toK : Bool)

theorem State.strait_doNarrow_half {t : State} (full : (t.dirOf n toK).width = 0)
    (wide : 48 ≤ (t.dirOf n toK).powered.length) (stall k : Nat) :
    ∃ (x : Strait) (e : Dir), (t.doNarrow n toK stall (k + 1)).strait n = { x.setDir toK e with narrow := (t.strait n).narrow + 1 }
      ∧ x.st = (t.strait n).st ∧ (x.dir (!toK)).lost = (t.dirOf n (!toK)).lost ∧ e.width = 1 ∧ e.lost = [] := by
  obtain ⟨-, st, narrow, keeps⟩ := t.strait_stopRecal n
  obtain ⟨e, narrowed, width, lost⟩ := Dir.narrow_half (d := (t.stopRecal n).dirOf n toK) ((congrArg Dir.width (keeps toK).frame).trans full)
    (wide.trans (keeps toK).powered_length)
  refine ⟨(t.stopRecal n).strait n, e, ?_, st, (congrArg Dir.lost (keeps (!toK)).frame :), width, lost⟩
  unfold State.doNarrow
  dsimp only
  rw [narrowed]
  dsimp only
  rw [lost, ← narrow]
  exact State.strait_relane ..

/-- A direction at full width with no spare runs on at half width (R214). -/
theorem exec_narrowed_half (fit : s.isleFit n = true) (stalled : (s.strait n).st = .stalled) (lost : (s.dirOf n toK).lost ≠ [])
    (other : (s.dirOf n (!toK)).lost = []) (none_spare : (s.dirOf n toK).having .spare = []) (full : (s.dirOf n toK).width = 0)
    (wide : 48 ≤ (s.dirOf n toK).powered.length) (t : BitVec 32) :
    ∃ u, exec (.narrowed n toK t) s = .next u ∧ (u.strait n).st = .up ∧ (u.dirOf n toK).width = 1 ∧ (u.dirOf n toK).lost = []
      ∧ (u.strait n).narrow = (s.strait n).narrow + 1 := by
  have kept := State.strait_doSubst (s := s) (n := n) toK t.toNat
  rw [Dir.substitute_none none_spare, State.dirOf_eq, Strait.setDir_dir] at kept
  have dir (b : Bool) : (s.doSubst n toK t.toNat).dirOf n b = s.dirOf n b := by
    rw [State.dirOf_eq, kept]
    rfl
  have waits : (s.dirOf n toK).lost.isEmpty = false := by simpa using lost
  obtain ⟨x, e, narrowed, st, rest, width, whole⟩ := State.strait_doNarrow_half (t := s.doSubst n toK t.toNat) toK (by rw [dir, full])
    (by rw [dir]; exact wide) t.toNat 1
  rw [dir, other] at rest
  have ended := State.strait_endStall (s := (s.doSubst n toK t.toNat).doNarrow n toK t.toNat 2) toK
    (by rw [narrowed]; exact (Strait.st_setDir ..).trans (st.trans (by rw [kept]; exact stalled)))
    (by rw [narrowed]; exact (congrArg Dir.lost (Strait.dir_setDir ..)).trans whole)
    (by rw [narrowed]; exact (congrArg Dir.lost (Strait.dir_setDir_not ..)).trans rest)
  refine ⟨_, ?_, by rw [ended], ?_⟩
  · show execNarrowed n toK t s = _
    rw [execNarrowed, if_pos ⟨fit, stalled⟩]
    dsimp only
    rw [dir, waits, if_neg Bool.false_ne_true]
  · rw [State.dirOf_eq, ended, narrowed, kept, ← width, ← whole]
    cases toK <;> exact ⟨rfl, rfl, rfl⟩

/-- The next dormant lane is calibrated: it becomes a spare, or is found to fail (R209, R213). -/
theorem exec_laneRestored {i : Nat} {is : List Nat} (fit : s.isleFit n = true) (due : (s.dirOf n toK).restore ≠ 0)
    (dormant : (s.dirOf n toK).having .dormant = i :: is) (granted : claimOk s.ledger 0 1 = true) (ok : Bool) :
    ∃ u, exec (.laneRestored n toK ok) s = .next u ∧ u.dirOf n toK =
      if ok then { (s.dirOf n toK).setLane i { (s.dirOf n toK).lane i with role := .spare } with restore := (s.dirOf n toK).restore - 1 }
      else { (s.dirOf n toK).setLane i { role := .failed } with fail := (s.dirOf n toK).fail + 1 } := by
  have undone : (!s.isleFit n || (s.dirOf n toK).restore == 0) = false := by simpa [fit] using due
  have dir (f : Dir → Dir) (code : BitVec 16) (ps : List Nat) :
      ((((s.claim n 0 1).1.release n 0 1).relaneDir n toK f).recStrait n code ps).dirOf n toK
      = f (s.dirOf n toK) := by
    rw [State.dirOf_eq, State.strait_recStrait, State.strait_relaneDir, Strait.dir_setDir, State.strait_release, State.strait_claim]
    rfl
  show ∃ u, execLaneRestored n toK ok s = .next u ∧ _
  rw [execLaneRestored]
  dsimp only
  rw [undone, if_neg Bool.false_ne_true, dormant]
  dsimp only
  rw [State.claim_of_ok _ _ _ _ granted]
  cases ok with
  | true => exact ⟨_, rfl, dir ..⟩
  | false => exact ⟨_, rfl, dir ..⟩

/-! ### Recalibration (R218, R219) -/

/-- The stand-in j takes over the logical lane of lane i. -/
def Dir.borrow (d : Dir) (i j : Nat) : Dir :=
  (d.modLane i fun l => { l with role := .recal }).modLane j fun l => { l with role := .standin, logical := (d.lane i).logical }

omit toK in
theorem State.recalLane_data {i j : Nat} {js : List Nat} (lt : i < 104) (data : ((s.strait n).toI.lane i).role = .data)
    (spares : (s.strait n).toI.having .spare = j :: js) (granted : claimOk s.ledger 0 1 = true) :
    ∃ u, s.recalLane n i = (u, true) ∧ u.strait n = { s.strait n with toI := (s.strait n).toI.borrow i j, recal := some (i, j) } := by
  have side : decide (104 ≤ i) = false := decide_eq_false (Nat.not_le_of_lt lt)
  have toI : s.dirOf n false = (s.strait n).toI := rfl
  unfold State.recalLane
  dsimp only
  rw [side, Nat.mod_eq_of_lt lt, toI, data]
  dsimp only
  rw [spares]
  dsimp only
  rw [State.claim_of_ok _ _ _ _ granted]
  refine ⟨_, rfl, ?_⟩
  rw [State.modStrait_eq, State.strait_setStrait, State.strait_relaneDir, State.strait_claim, if_neg Bool.false_ne_true, Nat.zero_add]
  rfl

omit toK in
/-- A pass that starts recalibrates its first lane. -/
theorem State.strait_recalStart {i j : Nat} {is js : List Nat} (up : (s.strait n).st = .up) (idle : (s.strait n).active = false)
    (lanes : (s.strait n).toI.powered = i :: is) (data : ((s.strait n).toI.lane i).role = .data)
    (spares : (s.strait n).toI.having .spare = j :: js) (granted : claimOk s.ledger 0 1 = true) :
    ∃ todo, (s.recalStart n).strait n = { s.strait n with
      toI := (s.strait n).toI.borrow i j, recal := some (i, j), active := true, todo } := by
  have lt : i < 104 := by
    have mem : i ∈ (s.strait n).toI.powered := lanes ▸ List.mem_cons_self ..
    rw [Dir.powered, List.mem_filter, List.mem_range] at mem
    exact mem.1
  have begun : (s.modStrait n fun x => { x with active := true }).strait n = { s.strait n with active := true } := s.strait_setStrait ..
  obtain ⟨u, taken, strait⟩ := State.recalLane_data (s := s.modStrait n fun x => { x with active := true }) lt (by rw [begun]; exact data)
    (by rw [begun]; exact spares) granted
  have step : s.recalStart n = u.modStrait n fun x => { x with todo := is ++ (s.strait n).toK.powered.map (· + 104) } := by
    unfold State.recalStart
    dsimp only
    rw [idle, up, if_neg (by decide), lanes, List.cons_append, State.recalNext, taken]
  rw [step, State.modStrait_eq, State.strait_setStrait, strait, begun]
  exact ⟨_, rfl⟩

omit toK in
theorem Dir.lane_borrow {d : Dir} {i j : Nat} (data : (d.lane i).role = .data) (spare : (d.lane j).role = .spare) :
    ((d.borrow i j).lane i).role = .recal
      ∧ (d.borrow i j).lane j = { d.lane j with role := .standin, logical := (d.lane i).logical } := by
  have ne : i ≠ j := fun same => by rw [same, spare] at data; cases data
  unfold Dir.borrow
  rw [Dir.modLane_eq, Dir.modLane_eq, Dir.lane_setLane, Dir.lane_setLane_ne _ _ ne, Dir.lane_setLane, Dir.lane_setLane_ne _ _ ne.symm]
  exact ⟨rfl, rfl⟩

theorem exec_recalPassStart (fit : s.isleFit n = true) (timed : (s.strait n).period ≠ 0) :
    exec (.recalPassStart n) s = .next (s.recalStart n) := by
  show execRecalPassStart n s = _
  rw [execRecalPassStart, if_neg]
  simpa [fit] using timed

/-- The word of a write of STR_RECALCTL with RUN set. -/
theorem recalctl_word {v : W36} (low : v.toNat < 2 ^ 12) (plain : v.toNat % 4 = 0) :
    hasBits (v ||| put 3 1) (bitsMask 35 12 ||| bitsMask 1 0) = false ∧ bitOf (v ||| put 3 1) 3 = true
      ∧ fld (v ||| put 3 1) 11 4 = v.toNat / 16 := by
  have word : (v ||| put 3 1).toNat = v.toNat ||| 8 := BitVec.toNat_or ..
  have lt : v.toNat ||| 8 < 2 ^ 12 := Nat.or_lt_two_pow low (by decide)
  have mod : (v.toNat ||| 8) % 2 ^ 2 = 0 := by
    rw [Nat.or_mod_two_pow, show v.toNat % 2 ^ 2 = 0 from plain]
    rfl
  have div : (v.toNat ||| 8) / 2 ^ 4 = v.toNat / 16 := by
    rw [Nat.or_div_two_pow]
    exact Nat.or_zero _
  refine ⟨?_, ?_, ?_⟩
  · rw [← Bool.not_eq_true, hasBits_or, hasBits_bitsMask _ (by decide), hasBits_bitsMask _ (by decide), fld, fld, word]
    omega
  · rw [bitOf, BitVec.getLsbD_or, getLsbD_put]
    simp
  · rw [fld, word, div]
    omega

/-- A write of STR_RECALCTL with RUN = 1 sets the period and starts a pass. -/
theorem exec_run (fit : s.isleFit n = true) (w : Who) {v : W36} (low : v.toNat < 2 ^ 12) (plain : v.toNat % 4 = 0) :
    exec (.run w n v) s
      = .next ((s.setStrait n { s.strait n with period := BitVec.ofNat 8 (v.toNat / 16) }).recalStart n) := by
  obtain ⟨free, runs, period⟩ := recalctl_word low plain
  show execRun w n v s = _
  rw [execRun, State.recalctl, fit, free, runs, period]
  rfl

/-- The last lane of a pass goes back to its receiver, and its stand-in is a spare again. -/
theorem exec_recalLaneDone_last (fit : s.isleFit n = true) {i j : Fin 104} (ne : i ≠ j) (recal : (s.strait n).recal = some (i.val, j.val))
    (last : (s.strait n).todo = []) : ∃ u, exec (.recalLaneDone n) s = .next u ∧ (u.strait n).recal = none
      ∧ (u.strait n).active = false ∧ ((u.strait n).toI.lane i).role = .data ∧ ((u.strait n).toI.lane j).role = .spare := by
  have side : decide (104 ≤ i.val) = false := decide_eq_false (Nat.not_le_of_lt i.isLt)
  have ne' : i.val ≠ j.val := fun same => ne (Fin.ext same)
  have stopped : s.stopRecal n = ((s.release n 0 1).relaneDir n false fun d =>
      (d.modLane i fun l => { l with role := .data }).modLane j fun l => { l with role := .spare, logical := 0 }).modStrait n
        fun x => { x with recal := none } := by
    rw [State.stopRecal, recal]
    dsimp only
    rw [side, Nat.mod_eq_of_lt i.isLt, Nat.mod_eq_of_lt j.isLt]
    simp only [if_neg ne']
    rfl
  have runs : (s.isleFit n && ((s.strait n).recal.isSome || (s.strait n).active)) = true := by rw [fit, recal]; rfl
  refine ⟨((s.stopRecal n).recalNext n []), ?_, ?_⟩
  · show execRecalLaneDone n s = _
    rw [execRecalLaneDone, if_pos runs, last]
  · rw [State.recalNext, State.modStrait_eq, State.strait_setStrait, stopped, State.modStrait_eq, State.strait_setStrait,
      State.strait_relaneDir]
    refine ⟨rfl, rfl, ?_, ?_⟩
    · exact congrArg Lane.role ((Dir.lane_setLane_ne _ _ ne').trans (Dir.lane_setLane ..))
    · exact congrArg Lane.role (Dir.lane_setLane ..)

end

/-! ### Full training (R210, R223, R226, R438) -/

/-- What an Isle loses in a reset. -/
def Isle.wiped (x : Isle) : Isle := { x with
  lines := [], ic := [], old := [], dataErr := [], tagErr := [], agentErr := [], mute := false, fillWait := []
  trwPtr := 0, cis := {}, slots := [], queue := [], snd := [], lhSync := false, lhDrift := false, wasUp := 0 }

/-- An Isle that is reset and powered, with its microcode. -/
def Isle.restarted (x : Isle) (ver : BitVec 24) : Isle := { x.wiped with vcore := true, st := .run, iver := ver, bootSeq := x.bootSeq + 1 }

section
variable (s : State) (n : Nat)

theorem State.ledger_coreGone (q : Nat) : (s.coreGone q).ledger = s.ledger := by
  simp [State.coreGone, State.coreScope]

theorem State.coresGone_eq : ∃ threads cores, (List.range 24).foldl (fun s c => s.coreGone (n * 24 + c)) s = { s with threads, cores } := by
  have only : CoresOnly s ((List.range 24).foldl (fun s c => s.coreGone (n * 24 + c)) s) := by
    refine pres_fold (Q := CoresOnly s) _ _ .refl fun u c h => ?_
    unfold State.coreGone State.coreScope
    exact h.modThread.modThread.modCore.modCore
  have ledger : ((List.range 24).foldl (fun s c => s.coreGone (n * 24 + c)) s).ledger = s.ledger :=
    foldl_keeps (g := State.ledger) (fun s c => s.ledger_coreGone (n * 24 + c)) _ s
  generalize (List.range 24).foldl (fun s c => s.coreGone (n * 24 + c)) s = u at *
  obtain ⟨threads, cores, l, rfl⟩ := only
  obtain rfl : l = s.ledger := ledger
  exact ⟨threads, cores, rfl⟩

theorem State.isleScope_eq : ∃ threads cores, s.isleScope n = { s.setIsle n (s.isle n).wiped with threads := threads, cores := cores } := by
  obtain ⟨threads, cores, gone⟩ := s.coresGone_eq n
  unfold State.isleScope
  rw [gone]
  exact ⟨threads, cores, rfl⟩

theorem State.isleReset_eq : ∃ threads cores,
    s.isleReset n = { s.setIsle n ((s.isle n).restarted s.umf.ucodeVer) with threads := threads, cores := cores } := by
  obtain ⟨threads, cores, wiped⟩ := s.isleScope_eq n
  refine ⟨threads, cores, ?_⟩
  have isle : (s.isleScope n).isle n = (s.isle n).wiped := by rw [wiped]; exact s.isle_setIsle ..
  rw [State.isleReset, State.modIsle, isle, wiped]
  simp only [State.setIsle, sset_sset]
  rfl

theorem State.isle_isleReset : (s.isleReset n).isle n = (s.isle n).restarted s.umf.ucodeVer := by
  obtain ⟨threads, cores, again⟩ := s.isleReset_eq n
  rw [again]
  exact (s.isle_setIsle n ((s.isle n).restarted s.umf.ucodeVer) :)

@[simp] theorem State.ledger_isleReset : (s.isleReset n).ledger = s.ledger := by
  obtain ⟨threads, cores, again⟩ := s.isleReset_eq n
  rw [again]
  rfl

theorem State.mem_isleReset : (s.isleReset n).mem = s.mem := by
  obtain ⟨threads, cores, again⟩ := s.isleReset_eq n
  rw [again]
  rfl

theorem State.trainStart_begins (ok : claimOk s.ledger 16 40 = true) :
    s.trainStart n = ((s.claim n 16 40).1.setStrait n { s.strait n with st := .training, bearwait := false }, true) := by
  unfold State.trainStart
  rw [reqIsle, State.claim_of_ok _ _ _ _ ok]
  dsimp only
  rw [State.modStrait_eq, State.strait_claim]

end

/-- What a full training makes of a working lane, by its place among them (R209). -/
def Lane.laid (w : Nat) (p : Nat × Nat) (l : Lane) : Lane :=
  if p.2 < w then { l with role := .data, logical := BitVec.ofNat 7 p.2 }
  else { l with role := if p.2 < w + 8 then .spare else .dormant, logical := 0 }

theorem layLanes_eq (d : Dir) (work : List Nat) (w : Nat) : layLanes d work w = d.modLanes Prod.fst (Lane.laid w) work.zipIdx := rfl

/-- A direction whose lanes all work, after full training: 96 carry data, and eight are spares. -/
def Dir.full (d : Dir) : Dir := { layLanes (testDir d (BitVec.allOnes 104)) (List.range 104) 96 with width := 0 }

section
variable (d : Dir)

theorem trainDir_allOnes : trainDir d (BitVec.allOnes 104) = some d.full := by
  unfold trainDir
  rw [lanesOf_allOnes]
  rfl

theorem trainDir_zero : trainDir d 0 = none := by
  unfold trainDir
  rw [lanesOf_zero]
  rfl

theorem testDir_allOnes : testDir d (BitVec.allOnes 104) = { pri := d.pri, bak := d.bak } := by
  have works (e : Dir) (i : Nat) (h : i ∈ List.range 104) :
      (if (BitVec.allOnes 104).getLsbD i then e else e.setLane i { role := .failed }) = e := by
    rw [BitVec.getLsbD_allOnes, decide_eq_true (List.mem_range.mp h), if_pos rfl]
  unfold testDir
  rw [List.foldl_ext _ (fun e _ => e) _ works, List.foldl_fixed, lanesOf_allOnes, List.length_range]
  rfl

theorem Dir.full_fail : d.full.fail = 0 := by
  have laid := congrArg Dir.fail (Dir.frame_modLanes Prod.fst (Lane.laid 96) (testDir d (BitVec.allOnes 104)) (List.range 104).zipIdx)
  rw [testDir_allOnes] at laid
  unfold Dir.full
  rw [testDir_allOnes]
  exact laid

theorem Dir.full_lane {i : Nat} (lt : i < 104) : (d.full.lane i).role = (if i < 96 then .data else .spare)
    ∧ (i < 96 → (d.full.lane i).logical = BitVec.ofNat 7 i) := by
  have once : ((List.range 104).zipIdx.map Prod.fst).Nodup := by
    rw [List.zipIdx_map_fst]
    exact List.nodup_range
  have mem : (i, i) ∈ (List.range 104).zipIdx := by
    rw [List.mk_mem_zipIdx_iff_getElem?, List.getElem?_range lt]
  have lane : d.full.lane i = Lane.laid 96 (i, i) ((testDir d (BitVec.allOnes 104)).lane i) := by
    have laid := Dir.lane_modLanes Prod.fst (Lane.laid 96) (testDir d (BitVec.allOnes 104)) once mem
    unfold Dir.full
    rw [layLanes_eq]
    generalize Dir.modLanes _ _ _ _ = e at *
    exact laid
  rw [lane, Lane.laid]
  by_cases low : i < 96
  · rw [if_pos low, if_pos low]
    exact ⟨rfl, fun _ => rfl⟩
  · rw [if_neg low, if_neg low]
    exact ⟨if_pos lt, fun h => absurd h low⟩

end

/-- A Strait after a full training in which every lane works. -/
def Strait.trained (x : Strait) : Strait := { x with
  toI := x.toI.full, toK := x.toK.full, st := .up, recal := none, todo := [], active := false, result := 3, due := none }

theorem State.trained_allOnes (s : State) (n : Nat) : ∃ ledger, s.trained n (BitVec.allOnes 104) (BitVec.allOnes 104)
    = ({ s.setStrait n (s.strait n).trained with ledger := ledger }, true) := by
  unfold State.trained
  dsimp only
  rw [trainDir_allOnes, trainDir_allOnes]
  dsimp only
  obtain ⟨l, relaned⟩ := (s.release (reqIsle n) 16 40).relane_eq n fun x => { x with
    toI := (s.strait n).toI.full, toK := (s.strait n).toK.full, st := .up, recal := none, todo := [], active := false, result := 3
    due := none }
  rw [relaned]
  exact ⟨l, rfl⟩

/-- A full training that finds no lane loses the Isle. -/
theorem State.trained_zero (s : State) (n : Nat) : ∃ u, s.trained n 0 0 = (u, false) ∧ (u.strait n).st = .severed
    ∧ (u.isle n).cond = .severed := by
  unfold State.trained
  dsimp only
  rw [trainDir_zero, trainDir_zero]
  refine ⟨_, rfl, ?_, ?_⟩
  · rw [State.modIsle_eq, State.strait_setIsle, State.strait_relane]
  · rw [State.modIsle_eq, State.isle_setIsle]

section
variable {s : State} {n : Fin 12}

theorem exec_fullTraining_barred (barred : s.mayTrain n = false) : exec (.fullTraining n) s = .next s := by
  show execFullTraining n s = _
  rw [execFullTraining, barred, Bool.and_false]
  rfl

variable (fit : s.isleFit n = true)
include fit

theorem exec_fullTrainingDone_allOnes (training : (s.strait n).st = .training) :
    ∃ ledger, exec (.fullTrainingDone n (BitVec.allOnes 104) (BitVec.allOnes 104)) s
      = .next { s.setStrait n (s.strait n).trained with ledger := ledger } := by
  obtain ⟨ledger, trained⟩ := s.trained_allOnes n
  refine ⟨ledger, ?_⟩
  show execFullTrainingDone n (BitVec.allOnes 104) (BitVec.allOnes 104) s = _
  rw [execFullTrainingDone, fit, training, trained]
  rfl

theorem exec_fullTrainingDone_zero (training : (s.strait n).st = .training) :
    ∃ u, exec (.fullTrainingDone n 0 0) s = .next u ∧ (u.strait n).st = .severed ∧ (u.isle n).cond = .severed := by
  obtain ⟨u, trained, st, cond⟩ := s.trained_zero n
  refine ⟨u.endIsle n 0, ?_, st, cond⟩
  show execFullTrainingDone n 0 0 s = _
  rw [execFullTrainingDone, fit, training, trained]
  rfl

variable (may : s.mayTrain n = true) (still : (s.strait n).st ≠ .training)
include may still

omit fit in
theorem execFullTraining_guard (fit : s.isleFit n = true) : (s.isleFit n && s.mayTrain n && (s.strait n).st != .training) = true := by
  rw [fit, may]
  simpa using still

/-- A training that waits for its bearing, or one of an Isle that is not reset or quarantined, starts at once. -/
theorem exec_fullTraining_starts (ready : (s.strait n).bearwait = true ∨ (s.isle n).cond = .out ∨ (s.isle n).cond = .admitted) :
    exec (.fullTraining n) s = .next (s.trainStart n).1 := by
  show execFullTraining n s = _
  rw [execFullTraining, if_pos (execFullTraining_guard may still fit)]
  rcases ready with waits | out | admitted
  · rw [waits, if_pos rfl]
  · rw [out]
    exact ite_self _
  · rw [admitted]
    exact ite_self _

/-- A reset Isle whose policy is to be admitted is reset again, and its training begins. -/
theorem exec_fullTraining_reset (fresh : (s.strait n).bearwait = false) (cond : (s.isle n).cond = .reset)
    (policy : s.umf.islePolicy.getLsbD n = true) : exec (.fullTraining n) s = .next ((s.isleReset n).trainStart n).1 := by
  show execFullTraining n s = _
  rw [execFullTraining, if_pos (execFullTraining_guard may still fit), fresh, cond, policy]
  rfl

theorem exec_fullTraining_waits (fresh : (s.strait n).bearwait = false)
    (kept : (s.isle n).cond = .quarantined ∨ (s.isle n).cond = .reset ∧ s.umf.islePolicy.getLsbD n = false) :
    exec (.fullTraining n) s = .next s := by
  show execFullTraining n s = _
  rw [execFullTraining, if_pos (execFullTraining_guard may still fit), fresh]
  rcases kept with cond | ⟨cond, policy⟩
  · rw [cond]
    rfl
  · rw [cond, policy]
    rfl

end

/-! ### Admission (R228 to R231) -/

section
variable (s : State) (n : Nat) (ofs : BitVec 16)

/-- The state in which an admission decides: the Isle's copy and the offset of its count are set. -/
def State.admitting : State :=
  let t := (s.lhResync n).modStrait n fun y => { y with seenSeq := (s.isle n).bootSeq }
  if t.lh.run then t.modStrait n fun y => { y with lhofs := ofs } else t

/-- What the start of an admission keeps of the Isle, its Strait and the rest. -/
structure Admitting (s : State) (n : Nat) (t : State) : Prop where
  isle : ∃ lhLow lhEpoch lhCount lhSync, t.isle n = { s.isle n with lhLow, lhEpoch, lhCount, lhSync }
  strait : ∃ seenSeq lhofs, t.strait n = { s.strait n with seenSeq, lhofs }
  rest : t = { s with isles := t.isles, straits := t.straits }

variable {s n} in
theorem Admitting.modStrait {t : State} (h : Admitting s n t) (f : Strait → Strait)
    (keeps : ∀ y, ∃ seenSeq lhofs, f y = { y with seenSeq, lhofs }) : Admitting s n (t.modStrait n f) where
  isle := h.isle
  strait := by
    obtain ⟨q, o, strait⟩ := h.strait
    obtain ⟨q', o', f_eq⟩ := keeps (t.strait n)
    refine ⟨q', o', ?_⟩
    rw [State.modStrait_eq, State.strait_setStrait, f_eq, strait]
  rest := by
    conv_lhs => rw [h.rest]
    rfl

theorem State.lhResync_keeps : Admitting s n (s.lhResync n) := by
  unfold State.lhResync
  split
  · exact ⟨⟨_, _, _, _, State.isle_setIsle ..⟩, ⟨_, _, rfl⟩, rfl⟩
  · exact ⟨⟨_, _, _, _, rfl⟩, ⟨_, _, rfl⟩, rfl⟩

theorem State.admitting_keeps : Admitting s n (s.admitting n ofs) := by
  have synced := (s.lhResync_keeps n).modStrait (fun y => { y with seenSeq := (s.isle n).bootSeq }) fun _ => ⟨_, _, rfl⟩
  unfold State.admitting
  dsimp only
  split
  · exact synced.modStrait _ fun _ => ⟨_, _, rfl⟩
  · exact synced

/-- Whether the installed microcode is neither the reference of an admission nor its alternative (R229). -/
def State.verMismatch : Bool := (s.isle n).iver != s.umf.admref && !(s.umf.altValid && (s.isle n).iver == s.umf.alt)
/-- Whether the digest of an Isle is not its reference (R229). -/
def State.digMismatch : Bool := (s.isle n).idigest != (s.strait n).refDigest
/-- Whether the offset of the Isle's count is too large (R229). -/
def State.lhMismatch : Bool := s.lh.run && decide (8 < ofsMag ofs)

/-- The Isle is admitted from the state in which its admission decides. -/
def State.joined (t : State) (n : Nat) (iver : BitVec 24) : State :=
  let s := t.modIsle n fun x => { x with cond := .admitted, regions := t.worlds.regions, rgnGen := t.worlds.gen }
  let s := s.modStrait n fun y => { y with result := 1, vermis := false, digmis := false, lhmis := false, armed := true }
  let s := { s with home := { s.home with mask := s.home.mask ||| ((1 : BitVec 12) <<< n) } }
  s.recKey posUmf 0o001020 n [rp iver.toNat]

theorem State.admitIsle_eq : s.admitIsle n ofs =
    if s.verMismatch n || s.digMismatch n || s.lhMismatch ofs then
      ((s.admitting n ofs).quarantine n (s.verMismatch n) (s.digMismatch n) (s.lhMismatch ofs), false)
    else ((s.admitting n ofs).joined n (s.isle n).iver, true) := by
  obtain ⟨_, ⟨q, o, strait⟩, rest⟩ := s.admitting_keeps n ofs
  have dig : ((s.admitting n ofs).strait n).refDigest = (s.strait n).refDigest := by rw [strait]
  have lh : (s.admitting n ofs).lh = s.lh := (congrArg State.lh rest :)
  have umf : (s.admitting n ofs).umf = s.umf := (congrArg State.umf rest :)
  unfold State.verMismatch State.digMismatch State.lhMismatch
  rw [← dig, ← lh, ← umf]
  rfl

variable {s n ofs}

theorem State.admitIsle_agrees (agree : (s.verMismatch n || s.digMismatch n || s.lhMismatch ofs) = false) :
    s.admitIsle n ofs = ((s.admitting n ofs).joined n (s.isle n).iver, true) := by
  rw [s.admitIsle_eq, agree]
  rfl

theorem State.admitIsle_differs (differ : (s.verMismatch n || s.digMismatch n || s.lhMismatch ofs) = true) :
    s.admitIsle n ofs = ((s.admitting n ofs).quarantine n (s.verMismatch n) (s.digMismatch n) (s.lhMismatch ofs), false) := by
  rw [s.admitIsle_eq, differ]
  rfl

theorem State.isle_joined (t : State) (v : BitVec 24) :
    (t.joined n v).isle n = { t.isle n with cond := .admitted, regions := t.worlds.regions, rgnGen := t.worlds.gen } :=
  State.isle_setIsle ..

theorem State.strait_joined (t : State) (v : BitVec 24) :
    (t.joined n v).strait n = { t.strait n with result := 1, vermis := false, digmis := false, lhmis := false, armed := true } :=
  State.strait_setStrait ..

theorem State.mask_joined (t : State) (v : BitVec 24) (lt : n < 12) : (t.joined n v).home.mask.getLsbD n = true :=
  (getLsbD_or_bit _ n n lt).trans (by simp)

theorem State.isle_quarantine (t : State) (a b c : Bool) : (t.quarantine n a b c).isle n = { t.isle n with cond := .quarantined } :=
  State.isle_setIsle ..

theorem State.strait_quarantine (t : State) (a b c : Bool) :
    (t.quarantine n a b c).strait n = { t.strait n with result := 2, vermis := a, digmis := b, lhmis := c, armed := true } :=
  State.strait_setStrait ..

theorem State.mask_quarantine (t : State) (a b c : Bool) (lt : n < 12) : (t.quarantine n a b c).home.mask.getLsbD n = false :=
  (getLsbD_and_not_bit _ n n lt).trans (by simp)

/-- An Isle that agrees is admitted and runs. -/
theorem State.admission_admits (lt : n < 12) (agree : (s.verMismatch n || s.digMismatch n || s.lhMismatch ofs) = false) :
    ∃ u, s.admitIsle n ofs = (u, true) ∧ u.umf = s.umf ∧ u.home.mask.getLsbD n = true
      ∧ (∃ lhLow lhEpoch lhCount lhSync, u.isle n = { s.isle n with
          cond := .admitted, regions := s.worlds.regions, rgnGen := s.worlds.gen, lhLow, lhEpoch, lhCount, lhSync })
      ∧ ∃ seenSeq lhofs, u.strait n = { s.strait n with
          result := 1, vermis := false, digmis := false, lhmis := false, armed := true, seenSeq, lhofs } := by
  obtain ⟨⟨low, epoch, count, sync, isle⟩, ⟨q, o, strait⟩, rest⟩ := s.admitting_keeps n ofs
  have worlds : (s.admitting n ofs).worlds = s.worlds := (congrArg State.worlds rest :)
  refine ⟨_, State.admitIsle_agrees agree, (congrArg State.umf rest :), State.mask_joined _ _ lt, ⟨low, epoch, count, sync, ?_⟩, q, o, ?_⟩
  · rw [State.isle_joined, isle, worlds]
  · rw [State.strait_joined, strait]

/-- An Isle that disagrees is quarantined, and its Strait says why. -/
theorem State.admission_quarantines (lt : n < 12) (differ : (s.verMismatch n || s.digMismatch n || s.lhMismatch ofs) = true) :
    ∃ u, s.admitIsle n ofs = (u, false) ∧ u.home.mask.getLsbD n = false ∧ (u.isle n).cond = .quarantined
      ∧ ∃ seenSeq lhofs, u.strait n = { s.strait n with
          result := 2, vermis := s.verMismatch n, digmis := s.digMismatch n, lhmis := s.lhMismatch ofs, armed := true
          seenSeq, lhofs } := by
  obtain ⟨-, ⟨q, o, strait⟩, -⟩ := s.admitting_keeps n ofs
  refine ⟨_, State.admitIsle_differs differ, State.mask_quarantine _ _ _ _ lt, ?_, q, o, ?_⟩
  · rw [State.isle_quarantine]
  · rw [State.strait_quarantine, strait]

theorem execAdmission_eq {n : Fin 12} {u : State} {b : Bool} (fit : s.isleFit n = true) (up : (s.strait n).st = .up)
    (trained : (s.strait n).result = 3) (decided : s.admitIsle n ofs = (u, b)) :
    exec (.admission n ofs) s = .next ((u.setIsle n { u.isle n with st := .run }).endIsle n (if b then 1 else 2)) := by
  show execAdmission n ofs s = _
  rw [execAdmission, if_pos ⟨fit, up, trained⟩, decided]
  rfl

theorem exec_admission {n : Fin 12} (fit : s.isleFit n = true) (up : (s.strait n).st = .up) (trained : (s.strait n).result = 3) :
    ∃ u, exec (.admission n ofs) s = .next u ∧ (u.isle n).st = .run ∧ (u.strait n).armed = true
      ∧ ((s.verMismatch n || s.digMismatch n || s.lhMismatch ofs) = false → (u.isle n).cond = .admitted ∧ (u.strait n).result = 1
          ∧ u.home.mask.getLsbD n = true ∧ (u.isle n).regions = s.worlds.regions ∧ (u.isle n).rgnGen = s.worlds.gen)
      ∧ ((s.verMismatch n || s.digMismatch n || s.lhMismatch ofs) = true → (u.isle n).cond = .quarantined ∧ (u.strait n).result = 2
          ∧ u.home.mask.getLsbD n = false ∧ (u.strait n).vermis = s.verMismatch n ∧ (u.strait n).digmis = s.digMismatch n
          ∧ (u.strait n).lhmis = s.lhMismatch ofs) := by
  have isle (u : State) (k : Nat) : ((u.setIsle n { u.isle n with st := .run }).endIsle n k).isle n = { u.isle n with st := .run } :=
    u.isle_setIsle n { u.isle n with st := .run }
  have strait (u : State) (k : Nat) : ((u.setIsle n { u.isle n with st := .run }).endIsle n k).strait n = u.strait n := rfl
  cases differ : s.verMismatch n || s.digMismatch n || s.lhMismatch ofs with
  | false =>
    obtain ⟨u, decided, -, mask, ⟨_, _, _, _, admitted⟩, _, _, watched⟩ := State.admission_admits n.isLt differ
    refine ⟨_, execAdmission_eq fit up trained decided, ?_, ?_, fun _ => ?_, fun h => absurd h Bool.false_ne_true⟩
    · rw [isle]
    · rw [strait, watched]
    · rw [isle, strait, admitted, watched]
      exact ⟨rfl, rfl, mask, rfl, rfl⟩
  | true =>
    obtain ⟨u, decided, mask, quarantined, _, _, watched⟩ := State.admission_quarantines n.isLt differ
    refine ⟨_, execAdmission_eq fit up trained decided, ?_, ?_, fun h => absurd h.symm Bool.false_ne_true, fun _ => ?_⟩
    · rw [isle]
    · rw [strait, watched]
    · rw [isle, strait, quarantined, watched]
      exact ⟨rfl, rfl, mask, rfl, rfl, rfl⟩

end

/-! ### What the steps of a Strait's lanes do -/

section
variable {s : State} {n : Fin 12}

/-- A pass lends lane i its stand-in, whatever the period is. -/
theorem State.strait_recalStart_borrows {p : BitVec 8} {i j : Nat} {is js : List Nat} (period : (s.strait n).period = p)
    (up : (s.strait n).st = .up) (idle : (s.strait n).active = false) (lanes : (s.strait n).toI.powered = i :: is)
    (data : ((s.strait n).toI.lane i).role = .data) (spares : (s.strait n).toI.having .spare = j :: js)
    (granted : claimOk s.ledger 0 1 = true) :
    ((s.recalStart n).strait n).recal = some (i, j) ∧ ((s.recalStart n).strait n).active = true ∧ ((s.recalStart n).strait n).period = p
      ∧ (((s.recalStart n).strait n).toI.lane i).role = .recal
      ∧ ((s.recalStart n).strait n).toI.lane j = { (s.strait n).toI.lane j with
          role := .standin, logical := ((s.strait n).toI.lane i).logical } := by
  obtain ⟨todo, started⟩ := State.strait_recalStart up idle lanes data spares granted
  obtain ⟨lent, standin⟩ := Dir.lane_borrow data (Dir.having_head _ spares).2
  rw [started]
  exact ⟨rfl, rfl, period, lent, standin⟩

/-- A reset Isle is reset again and trained: it runs the installed microcode, and memory stays. -/
theorem State.trainStart_isleReset (granted : claimOk s.ledger 16 40 = true) : let u := ((s.isleReset n).trainStart n).1
    (u.strait n).st = .training ∧ (u.isle n).st = .run ∧ (u.isle n).bootSeq = (s.isle n).bootSeq + 1
      ∧ (u.isle n).iver = s.umf.ucodeVer ∧ u.mem = s.mem := by
  intro u
  have begun : u = (((s.isleReset n).claim n 16 40).1.setStrait n { (s.isleReset n).strait n with st := .training, bearwait := false }) :=
    congrArg Prod.fst ((s.isleReset n).trainStart_begins n ((s.ledger_isleReset n).symm ▸ granted))
  have isle : u.isle n = (s.isle n).restarted s.umf.ucodeVer := by
    rw [begun, State.isle_setStrait, State.isle_claim, State.isle_isleReset]
  have mem : u.mem = s.mem := by
    rw [begun, ← s.mem_isleReset n, ← (s.isleReset n).mem_claim n 16 40]
    rfl
  refine ⟨?_, ?_, ?_, ?_, mem⟩
  · rw [begun, State.strait_setStrait]
  · rw [isle]; rfl
  · rw [isle]; rfl
  · rw [isle]; rfl

theorem State.verMismatch_eq : s.verMismatch n
    = decide ((s.isle n).iver ≠ s.umf.admref ∧ ¬ (s.umf.altValid = true ∧ (s.isle n).iver = s.umf.alt)) := by
  rw [State.verMismatch, Bool.eq_iff_iff]
  simp [imp_iff_not_or]

theorem State.digMismatch_eq : s.digMismatch n = decide ((s.isle n).idigest ≠ (s.strait n).refDigest) := by
  rw [State.digMismatch, Bool.eq_iff_iff]
  simp

end

/-- Settles O45: what each step of a Strait does to its lanes, and what an admission decides. -/
theorem straitLanes : Obligations.StraitLanes := by
  unfold Obligations.StraitLanes
  intro s n toK w v x d lost fit
  refine ⟨?replay, ?failover, ?again, ?backup, ?spared, ?failed, ?substituted, ?narrowed, ?restored, ?recal, ?recalDone, ?training,
    ?barred, ?trained, ?admission⟩
  case replay =>
    intro q bad
    have dir : ∀ e : Dir, (s.setStrait n (x.setDir toK e)).dirOf n toK = e := fun e => by
      rw [State.dirOf_eq, State.strait_setStrait, Strait.dir_setDir]
    refine ⟨_, exec_flitCrcReplay fit toK q bad, ?_, fun i => ?_, ?_, rfl⟩
    · rw [dir]
      exact Dir.eq_of_frame (d := d.resend q) (congrArg (fun e : Dir => e.resend q) (d.frame_charged bad))
    · rw [dir]
      exact d.lane_charged bad i
    · rw [State.dirOf_eq, State.strait_setStrait, Strait.dir_setDir_not]
      rfl
  case failover => exact exec_sidebandFailover fit toK
  case again => exact exec_sidebandFailover_again toK
  case backup => exact exec_backupSidebandLaneFailed fit toK
  case spared => exact fun i => exec_laneFailed_spared fit toK i
  case failed =>
    intro i c up idle data bad
    obtain ⟨u, run, stalled, dir⟩ := exec_laneFailed_data fit toK up idle data bad
    exact ⟨u, run, stalled, dir.trans (Dir.failLane_data data)⟩
  case substituted =>
    intro g j js t stalled lost other spares
    obtain ⟨u, run, up, dir, subst⟩ := exec_substituted_one fit toK stalled lost other spares t
    rw [Dir.substitute_one lost spares] at dir
    exact ⟨u, run, up, dir, subst⟩
  case narrowed =>
    exact fun t stalled lost other none_spare full wide => exec_narrowed_half toK fit stalled lost other none_spare full wide t
  case restored =>
    intro i is due dormant granted
    exact ⟨exec_laneRestored toK fit due dormant granted true, exec_laneRestored toK fit due dormant granted false⟩
  case recal =>
    intro i j is js up idle lanes data spares granted on
    have on_word (p : BitVec 8) : (s.setStrait n { x with period := p }).strait n = { x with period := p } := s.strait_setStrait ..
    refine ⟨fun timed => ?_, fun low plain => ?_⟩
    · exact ⟨_, exec_recalPassStart fit timed, State.strait_recalStart_borrows rfl up idle lanes data spares granted⟩
    · refine ⟨_, exec_run fit w low plain, ?_⟩
      have borrows := State.strait_recalStart_borrows (s := s.setStrait n { x with period := BitVec.ofNat 8 (v.toNat / 16) }) (n := n)
        (i := i) (j := j) (is := is) (js := js) (p := BitVec.ofNat 8 (v.toNat / 16))
      rw [on_word] at borrows
      exact borrows rfl up idle lanes data spares granted
  case recalDone => exact fun i j ne recal last => exec_recalLaneDone_last fit ne recal last
  case training =>
    intro may still
    refine ⟨fun ready s1 claimed => ?_, fun fresh cond policy granted => ?_, fun fresh kept => ?_⟩
    · rw [exec_fullTraining_starts fit may still ready, State.trainStart, reqIsle, claimed]
      dsimp only
      have strait : s1.strait n = x := (congrArg (fun r : State × Bool => r.1.strait n) claimed).symm.trans (s.strait_claim n n 16 40)
      rw [State.modStrait_eq, strait]
    · exact ⟨_, exec_fullTraining_reset fit may still fresh cond policy, State.trainStart_isleReset granted⟩
    · exact exec_fullTraining_waits fit may still fresh kept
  case barred => exact exec_fullTraining_barred
  case trained =>
    intro training
    refine ⟨?_, exec_fullTrainingDone_zero fit training⟩
    obtain ⟨ledger, run⟩ := exec_fullTrainingDone_allOnes fit training
    have strait : ({ s.setStrait n x.trained with ledger := ledger } : State).strait n = x.trained := (s.strait_setStrait n x.trained :)
    have dir : ({ s.setStrait n x.trained with ledger := ledger } : State).dirOf n toK = d.full := by
      rw [State.dirOf_eq, strait]
      cases toK <;> rfl
    refine ⟨_, run, ?_, ?_, ?_, ?_, fun i lt => ?_⟩
    · rw [strait]; rfl
    · rw [strait]; rfl
    · rw [dir]; rfl
    · rw [dir]; exact d.full_fail
    · rw [dir]; exact d.full_lane lt
  case admission =>
    intro ofs up trained
    have decided := exec_admission (ofs := ofs) fit up trained
    rw [State.verMismatch_eq, State.digMismatch_eq] at decided
    exact decided

end Sys2Proof.Machine

/-! Umfoent's service commands: what every accepted command does, threads released, Isles brought up and taken off, microcode,
firmware, ports and the recorder (R226 to R231, R282, R283, R395, R398, R406 to R408, R412, R416). -/

namespace Sys2Proof.Machine

/-! ### Commands, answers and handles (R393 to R395, R398) -/

section
variable (s : State) (m : Fin 16)

theorem State.epEvent_eq (b bit : Nat) : ∃ ports, s.epEvent b bit = { s with ports := ports } ∧ (s.epPort b = none → ports = s.ports) := by
  unfold State.epEvent
  cases s.epPort b with
  | none => exact ⟨s.ports, rfl, fun _ => rfl⟩
  | some p => exact ⟨_, rfl, nofun⟩

/-- The event of a mailbox. -/
def Mailbox.event (done : Bool) (x : Mailbox) : Mailbox := if done then { x with donePend := true } else { x with cplPend := true }

/-- An event of a mailbox is pending there, and may be one for a port's host. -/
theorem State.boxEvent_eq (done : Bool) : ∃ ports, s.boxEvent m done = { s.setBox m ((s.box m).event done) with ports := ports }
    ∧ ((∀ b, s.epPort b = none) → ports = s.ports) := by
  have tells (u : State) : ∃ ports, (if (u.box m).path = 3 then u.epEvent (u.box m).block.toNat 0 else u) = { u with ports := ports }
      ∧ ((∀ b, u.epPort b = none) → ports = u.ports) := by
    split
    · obtain ⟨ports, event, same⟩ := u.epEvent_eq (u.box m).block.toNat 0
      exact ⟨ports, event, fun noPort => same (noPort _)⟩
    · exact ⟨u.ports, rfl, fun _ => rfl⟩
  exact tells (s.setBox m ((s.box m).event done))

/-- An answer changes its mailbox, what is served, and the events of ports' hosts; it keeps the open handles. -/
theorem State.respond_eq (st : BitVec 8) (ws : List (BitVec 32)) : ∃ ports x,
    s.respond m st ws = { s with ports := ports, umf := { s.umf with serving := none, boxes := sset {} s.umf.boxes m x } }
      ∧ x.handles = (s.box m).handles ∧ ((∀ b, s.epPort b = none) → ports = s.ports) := by
  unfold State.respond
  dsimp only
  rw [State.modBox_eq]
  generalize buf_eq : ({ (State.box _ m) with buf := _ } : Mailbox) = x
  obtain ⟨ports, event, same⟩ := State.boxEvent_eq (({ s with umf := { s.umf with serving := none } } : State).setBox m x) m true
  rw [event, State.box_setBox]
  refine ⟨ports, x.event true, ?_, ?_, same⟩
  · simp only [State.setBox, sset_sset]
  · subst buf_eq
    rfl

/-- Mailbox m carries an open handle of command c on unit k. -/
def State.Carries (k : HUnit) (c : Nat) : Prop := ∃ h ∈ (s.box m).handles, h.unit = k ∧ h.res = none ∧ h.cmd = c

/-- Mailbox m has a handle on unit k with this result. -/
def State.Has (k : HUnit) (res : Option (BitVec 8 × BitVec 8)) : Prop := ∃ h ∈ (s.box m).handles, h.unit = k ∧ h.res = res

/-- The state in which an accepted command of mailbox m on unit k is done. -/
def State.taken (k : HUnit) : State :=
  let num : BitVec 16 := BitVec.ofNat 4 m.val ++ (s.box m).nextK
  (s.modBox m fun y => { y with lastK := (s.box m).nextK, handles := y.handles ++ [{ num, unit := k, cmd := y.cmd }] }).respond m 1
    [num.setWidth 32]

theorem State.taken_eq (k : HUnit) : ∃ ports boxes,
    s.taken m k = { s with ports := ports, umf := { s.umf with serving := none, boxes := boxes } }
      ∧ (s.taken m k).Carries m k (s.box m).cmd ∧ ((∀ b, s.epPort b = none) → ports = s.ports) := by
  unfold State.taken
  dsimp only
  rw [State.modBox_eq]
  obtain ⟨ports, x, answered, handles, same⟩ := State.respond_eq (s.setBox m _) m _ _
  rw [answered]
  refine ⟨ports, _, rfl, ?_, same⟩
  unfold State.Carries State.box
  dsimp only
  rw [sget_sset_same, handles, State.box_setBox]
  exact ⟨_, List.mem_append_right _ (List.mem_singleton_self _), rfl, rfl, rfl⟩

end

section
variable {s : State} {m : Fin 16} {k : HUnit} {c : Nat}

theorem State.Carries.of_handles {t : State} (h : s.Carries m k c) (handles : (t.box m).handles = (s.box m).handles) : t.Carries m k c := by
  unfold State.Carries
  rw [handles]
  exact h

theorem State.Carries.of_boxes {t : State} (h : s.Carries m k c) (boxes : t.umf.boxes = s.umf.boxes) : t.Carries m k c :=
  h.of_handles (congrArg (fun b => (sget ({} : Mailbox) b m.val).handles) boxes)

theorem State.Carries.has (h : s.Carries m k c) : s.Has m k none := by
  obtain ⟨h, mem, unit, open_, -⟩ := h
  exact ⟨h, mem, unit, open_⟩

theorem sget_map_handles (f : Handle → Handle) (b : Store Mailbox) (j : Nat) :
    (sget ({} : Mailbox) (b.map fun p => (p.1, { p.2 with handles := p.2.handles.map f })) j).handles
      = (sget ({} : Mailbox) b j).handles.map f := by
  induction b with
  | nil => rfl
  | cons p b ih =>
    rw [List.map_cons, sget, sget]
    split
    · rfl
    · exact ih

/-- The handle of a unit ends with its result. -/
theorem State.Carries.endHandle (h : s.Carries m k c) (st d : BitVec 8) : (s.endHandle k st d).Has m k (some (st, d)) := by
  obtain ⟨h, mem, unit, waits, -⟩ := h
  unfold State.Has State.endHandle State.box
  dsimp only
  rw [sget_map_handles]
  refine ⟨_, List.mem_map_of_mem mem, ?_⟩
  rw [if_pos ⟨unit, Option.isNone_iff_eq_none.mpr waits⟩]
  exact ⟨unit, rfl⟩

/-- The handle of an admission or of an Isle brought back ends well: DETAIL 1 tells that the Isle was admitted by command. -/
theorem State.Carries.endIsle {n : Fin 12} (h : s.Carries m (.isle n) c) :
    (s.endIsle n 1).Has m (.isle n) (some (0, if c = 49 then 1 else 0)) := by
  obtain ⟨h, mem, unit, waits, rfl⟩ := h
  unfold State.Has State.endIsle State.box
  dsimp only
  rw [sget_map_handles]
  refine ⟨_, List.mem_map_of_mem mem, ?_⟩
  have self : Fin.ofNat 12 n.val = n := Fin.ext (Nat.mod_eq_of_lt n.isLt)
  rw [if_pos ⟨unit.trans (congrArg HUnit.isle self.symm), Option.isNone_iff_eq_none.mpr waits⟩]
  exact ⟨unit, rfl⟩

/-- A command with room for its handle is taken. -/
theorem State.accepted_taken (free : s.unitBusy k = false) (room : (s.box m).handlesFull = false) (op : State → State) :
    s.accepted m k op = op (s.taken m k) := by
  rw [State.accepted, free, room]
  rfl

theorem State.command_served (serves : s.umf.serving = some m) (cmd : (s.box m).cmd = c) (f : Mailbox → State) :
    s.command m c f = .next (f (s.box m)) := congrArg Host.Outcome.next (if_pos ⟨serves, cmd⟩)

theorem State.withIsle_fit {n : Fin 12} {x : Mailbox} (names : x.argN 1 = n.val) (fit : s.isleFit n = true) (f : Fin 12 → State) :
    s.withIsle m x f = f n := by
  have lt : x.argN 1 < 12 := names ▸ n.isLt
  rw [State.withIsle, dif_pos lt, if_pos (names ▸ fit)]
  exact congrArg f (Fin.ext names)

end

section
variable {σ ι β : Type} {f : σ → ι → σ}

theorem foldl_apart {g : σ → β} {i : ι} (apart : ∀ s j, i ≠ j → g (f s j) = g s) {l : List ι} (other : i ∉ l) (s : σ) :
    g (l.foldl f s) = g s := by
  induction l generalizing s with
  | nil => rfl
  | cons j l ih =>
    rw [List.mem_cons, not_or] at other
    rw [List.foldl_cons, ih other.2, apart _ _ other.1]

/-- A fold whose steps each change their own part of the state changes a part once. -/
theorem foldl_own {g : σ → β} {i : ι} {own : β → β} (at_own : ∀ s, g (f s i) = own (g s)) (apart : ∀ s j, i ≠ j → g (f s j) = g s)
    {l : List ι} (once : l.Nodup) (h : i ∈ l) (s : σ) : g (l.foldl f s) = own (g s) := by
  induction l generalizing s with
  | nil => cases h
  | cons j l ih =>
    rw [List.nodup_cons] at once
    rw [List.foldl_cons]
    by_cases same : i = j
    · subst same
      rw [foldl_apart apart once.1, at_own]
    · rw [ih once.2 ((List.mem_cons.mp h).resolve_left same), apart _ _ same]

end

/-! ### Threads released (R398) -/

section
variable (s : State) (entry : Addr) (q : Nat) (k : Fin 2)

/-- Whether a core is off, and one of its threads. -/
def State.coreThread : Bool × Thread := ((s.core q).st == .dry, s.thread (2 * q + k))

/-- What a release leaves of a thread of a core. -/
def released (entry : Addr) (x : Bool × Thread) : Bool × Thread := if x.1 then x else (x.1, x.2.release entry)

theorem State.coreThread_releaseCore : (s.releaseCore q entry).coreThread q k = released entry (s.coreThread q k) := by
  unfold State.releaseCore released
  by_cases dry : (s.core q).st = .dry
  · rw [if_pos dry, if_pos (show (s.coreThread q k).1 = true from beq_iff_eq.mpr dry)]
  · rw [if_neg dry, if_neg (by simpa [State.coreThread] using dry)]
    have st (x : Core) : (if x.st = .slack ∧ !x.slackReq then { x with st := .run } else x : Core).st = .dry ↔ x.st = .dry := by
      split
      next slack => simp [slack.1]
      next => rfl
    refine Prod.ext ?_ ?_
    · simp only [State.coreThread, State.modCore_eq, State.core_setCore]
      exact Bool.eq_iff_iff.mpr (beq_iff_eq.trans ((st _).trans beq_iff_eq.symm))
    · match k with
      | 0 => simp [State.coreThread, State.thread_setThread_ne]
      | 1 => simp [State.coreThread, State.thread_setThread_ne]

theorem State.coreThread_releaseCore_ne {q p : Nat} (ne : q ≠ p) : (s.releaseCore p entry).coreThread q k = s.coreThread q k := by
  unfold State.releaseCore
  split
  · rfl
  · have first : 2 * q + k.val ≠ 2 * p := by omega
    have second : 2 * q + k.val ≠ 2 * p + 1 := by omega
    refine Prod.ext ?_ ?_
    · simp [State.coreThread, State.core_setCore_ne _ _ ne]
    · simp [State.coreThread, State.thread_setThread_ne _ _ first, State.thread_setThread_ne _ _ second]

/-- The cores of an Isle that a mask names are released. -/
def State.releaseCores (n : Nat) (mask : BitVec 32) : State :=
  (List.range 24).foldl (fun (s : State) c => if mask.getLsbD c then s.releaseCore (n * 24 + c) entry else s) s

theorem State.coreThread_releaseCores (n : Nat) (mask : BitVec 32) {c : Nat} (lt : c < 24) :
    (s.releaseCores entry n mask).coreThread (n * 24 + c) k
      = if mask.getLsbD c then released entry (s.coreThread (n * 24 + c) k) else s.coreThread (n * 24 + c) k := by
  refine foldl_own (g := fun s => s.coreThread (n * 24 + c) k) (own := fun x => if mask.getLsbD c then released entry x else x)
    (fun s => ?_) (fun s j ne => ?_) List.nodup_range (List.mem_range.mpr lt) s
  · split
    · exact s.coreThread_releaseCore entry ..
    · rfl
  · split
    · exact s.coreThread_releaseCore_ne entry k (by omega)
    · rfl

end

section
variable {s : State} {m : Fin 16} {n : Fin 12}

/-- What every thread of the Isle's cores is after a release. -/
theorem State.thread_releaseCores (entry : Addr) (mask : BitVec 32) {c : Nat} (k : Fin 2) (lt : c < 24) :
    ((mask.getLsbD c = true ∧ (s.core (n.val * 24 + c)).st ≠ .dry ∧ (s.thread (2 * (n.val * 24 + c) + k)).mode = .stopped) →
        let t := (s.releaseCores entry n mask).thread (2 * (n.val * 24 + c) + k)
        t.mode = .running ∧ t.pc = entry &&& ~~~3 ∧ t.priv = 2 ∧ t.vault = false)
      ∧ (mask.getLsbD c = false →
        (s.releaseCores entry n mask).thread (2 * (n.val * 24 + c) + k) = s.thread (2 * (n.val * 24 + c) + k)) := by
  have after : (s.releaseCores entry n mask).thread (2 * (n.val * 24 + c) + k) = _ :=
    congrArg Prod.snd (s.coreThread_releaseCores entry k n mask lt)
  refine ⟨fun ⟨named, awake, stopped⟩ => ?_, fun unnamed => ?_⟩
  · have on : ((s.core (n.val * 24 + c)).st == .dry) = false := beq_eq_false_iff_ne.mpr awake
    rw [if_pos named, released, State.coreThread, on, if_neg Bool.false_ne_true, Thread.release, if_pos stopped] at after
    intro t
    have started : t = _ := after
    rw [started]
    exact ⟨rfl, rfl, rfl, rfl⟩
  · rw [after, unnamed]
    rfl

theorem exec_isleRelease (serves : s.umf.serving = some m) (cmd : (s.box m).cmd = 48) (names : (s.box m).argN 1 = n.val)
    (fit : s.isleFit n = true) (free : s.unitBusy (.isle n) = false) (cond : (s.isle n).cond = .admitted)
    (awake : (s.isle n).st = .run ∨ (s.isle n).st = .slack) (small : (s.box m).argN 2 < 2 ^ 24) :
    exec (.isleRelease m) s
      = .next ((s.releaseCores ((s.box m).arg 4 ++ (s.box m).arg 3) n ((s.box m).arg 2)).respond m 0 []) := by
  have not_neap : (s.isle n).st ≠ .neap := by rcases awake with st | st <;> rw [st] <;> decide
  have not_dry : (s.isle n).st ≠ .dry := by rcases awake with st | st <;> rw [st] <;> decide
  show execIsleRelease m s = _
  rw [execIsleRelease, State.command_served serves cmd, State.withIsle_fit names fit, free, if_neg Bool.false_ne_true,
    if_neg (by simp only [cond, ne_eq, not_true_eq_false, false_or, not_or]; exact ⟨not_dry, Nat.not_le_of_lt small⟩)]
  dsimp only
  rw [if_neg not_neap, if_neg not_neap]
  rfl

end

/-! ### An Isle comes up (R226, R228, R231) -/

/-- What the training and the admission of an Isle find when it is admitted. -/
structure Agrees (s : State) (n : Nat) (tr : TrainIn) : Prop where
  version : s.umf.ucodeVer = s.umf.admref
  digest : (s.isle n).idigest = (s.strait n).refDigest
  okI : tr.okI = BitVec.allOnes 104
  okK : tr.okK = BitVec.allOnes 104
  offset : s.lh.run = false ∨ tr.ofs.toInt.natAbs ≤ 8
  quiet : tr.report = none

/-- State u is s with Isle n powered, trained and admitted. -/
structure Admitted (s : State) (n : Nat) (u : State) : Prop where
  cond : (u.isle n).cond = .admitted
  st : (u.isle n).st = .run
  vcore : (u.isle n).vcore = true
  iver : (u.isle n).iver = s.umf.ucodeVer
  umfLock : (u.isle n).umfLock = (s.isle n).umfLock
  mask : u.home.mask.getLsbD n = true
  up : (u.strait n).st = .up
  armed : (u.strait n).armed = true
  umf : u.umf = s.umf

section
variable {s : State} {n : Nat} {tr : TrainIn}

theorem State.claim_keeps (q core hub : Nat) : (s.claim q core hub).1.isle n = s.isle n ∧ (s.claim q core hub).1.strait n = s.strait n
    ∧ (s.claim q core hub).1.umf = s.umf ∧ (s.claim q core hub).1.lh = s.lh := by
  rw [State.claim_frame]
  exact ⟨rfl, rfl, rfl, rfl⟩

theorem State.trainStart_keeps (granted : claimOk s.ledger 16 40 = true) : ∃ v : State, s.trainStart n = (v, true)
    ∧ v.isle n = s.isle n ∧ (v.strait n).refDigest = (s.strait n).refDigest ∧ v.umf = s.umf ∧ v.lh = s.lh := by
  obtain ⟨isle, -, umf, lh⟩ := State.claim_keeps (s := s) (n := n) n 16 40
  refine ⟨_, s.trainStart_begins n granted, isle, ?_, umf, lh⟩
  rw [State.strait_setStrait]

theorem State.trained_keeps : ∃ t : State, s.trained n (BitVec.allOnes 104) (BitVec.allOnes 104) = (t, true)
    ∧ t.isle n = s.isle n ∧ (t.strait n).st = .up ∧ (t.strait n).refDigest = (s.strait n).refDigest ∧ t.umf = s.umf ∧ t.lh = s.lh := by
  obtain ⟨ledger, trained⟩ := s.trained_allOnes n
  have strait : ({ s.setStrait n (s.strait n).trained with ledger := ledger } : State).strait n = (s.strait n).trained :=
    (s.strait_setStrait n (s.strait n).trained :)
  refine ⟨_, trained, rfl, ?_, ?_, rfl, rfl⟩
  · rw [strait]
    rfl
  · rw [strait]
    rfl

theorem State.isleReset_keeps : (s.isleReset n).strait n = s.strait n ∧ (s.isleReset n).umf = s.umf ∧ (s.isleReset n).lh = s.lh := by
  obtain ⟨threads, cores, again⟩ := s.isleReset_eq n
  rw [again]
  exact ⟨rfl, rfl, rfl⟩

/-- An Isle that agrees is reset, trained and admitted. -/
theorem State.islePower_admits (lt : n < 12) (granted : claimOk s.ledger 16 40 = true) (agrees : Agrees s n tr) :
    ∃ u, s.islePower n tr = (u, 0) ∧ Admitted s n u := by
  obtain ⟨version, digest, okI, okK, offset, quiet⟩ := agrees
  have isle := s.isle_isleReset n
  obtain ⟨strait, umf, lh⟩ := s.isleReset_keeps (n := n)
  have granted_reset : claimOk (s.isleReset n).ledger 16 40 = true := (s.ledger_isleReset n).symm ▸ granted
  obtain ⟨v, begun, isle_v, ref_v, umf_v, lh_v⟩ := State.trainStart_keeps granted_reset (n := n)
  obtain ⟨t, trained, isle_t, up, ref_t, umf_t, lh_t⟩ := v.trained_keeps (n := n)
  rw [isle_v, isle] at isle_t
  rw [ref_v, strait] at ref_t
  rw [umf_v, umf] at umf_t
  rw [lh_v, lh] at lh_t
  have ver : t.verMismatch n = false := by
    rw [State.verMismatch, isle_t, umf_t, ← version]
    simp [Isle.restarted]
  have dig : t.digMismatch n = false := by
    rw [State.digMismatch, isle_t, ref_t, ← digest]
    exact bne_self_eq_false ..
  have lhm : t.lhMismatch tr.ofs = false := by
    rw [State.lhMismatch, lh_t]
    rcases offset with off | near
    · rw [off, Bool.false_and]
    · rw [ofsMag, decide_eq_false (Nat.not_lt_of_le near), Bool.and_false]
  obtain ⟨u, admits, umf_u, mask, ⟨_, _, _, _, isle_u⟩, _, _, strait_u⟩ := State.admission_admits lt (by rw [ver, dig, lhm]; rfl)
  refine ⟨u.setIsle n { u.isle n with st := .run }, ?_, ?_⟩
  · unfold State.islePower
    dsimp only
    rw [begun]
    dsimp only
    rw [okI, okK, trained]
    dsimp only
    rw [quiet]
    dsimp only
    rw [admits]
    rfl
  · rw [isle_t] at isle_u
    refine { cond := ?_, st := ?_, vcore := ?_, iver := ?_, umfLock := ?_, mask, up := ?_, armed := ?_, umf := umf_u.trans umf_t }
    · rw [State.isle_setIsle, isle_u]
    · rw [State.isle_setIsle]
    · rw [State.isle_setIsle, isle_u]; rfl
    · rw [State.isle_setIsle, isle_u]; rfl
    · rw [State.isle_setIsle, isle_u]; rfl
    · rw [State.strait_setIsle, strait_u]; exact up
    · rw [State.strait_setIsle, strait_u]

end

section
variable (s : State) (n : Nat)

/-- The ledger without the claims of a requester (R351). -/
def Ledger.freed (l : Ledger) (q : Nat) : Ledger :=
  let a := sget ({} : Amount) l.claimed q
  { l with claimed := sset {} l.claimed q ⟨a.core - a.core, a.hub - a.hub⟩ }

theorem State.ledger_vcoreOff : (s.vcoreOff n).ledger = s.ledger.freed n := rfl

/-- VCORE of an Isle that is severed or has lost its clock goes off (R226). -/
def State.lostOff : State := if (s.isle n).cond = .severed ∨ (s.isle n).cond = .clockLost then s.vcoreOff n else s

/-- What an Isle whose VCORE is off keeps when it goes off once more. -/
theorem State.lostOff_keeps (off : (s.isle n).vcore = false) : (s.lostOff n).isle n = s.isle n
    ∧ ((s.lostOff n).strait n).refDigest = (s.strait n).refDigest ∧ (s.lostOff n).umf = s.umf ∧ (s.lostOff n).lh = s.lh := by
  unfold State.lostOff
  split
  · unfold State.vcoreOff
    dsimp only
    simp only [State.modIsle_eq, State.modStrait_eq, State.isle_setIsle, State.strait_setIsle, State.strait_release]
    have same (y : Isle) (off : y.vcore = false) : { y with vcore := false } = y := by
      cases y
      cases off
      rfl
    refine ⟨same _ off, ?_, rfl, rfl⟩
    · rw [State.strait_setStrait]
  · exact ⟨rfl, rfl, rfl, rfl⟩

variable {s n} {t : State}

theorem State.ledger_lostOff_congr (ledger : t.ledger = s.ledger) (isle : t.isle n = s.isle n) :
    (t.lostOff n).ledger = (s.lostOff n).ledger := by
  unfold State.lostOff
  rw [isle]
  split
  · rw [State.ledger_vcoreOff, State.ledger_vcoreOff, ledger]
  · exact ledger

theorem State.ledger_claim_congr (ledger : t.ledger = s.ledger) (q core hub : Nat) :
    (t.claim q core hub).1.ledger = (s.claim q core hub).1.ledger := by
  unfold State.claim
  dsimp only
  rw [ledger]
  split
  · exact ledger
  · split <;> rfl

end

section
variable {s : State} {m : Fin 16} {n : Fin 12} {tr : TrainIn}

/-- The Isle runs, trained and admitted, with this microcode. -/
def State.Risen (u : State) (n : Nat) (ver : BitVec 24) : Prop :=
  (u.isle n).cond = .admitted ∧ (u.isle n).st = .run ∧ (u.isle n).vcore = true
  ∧ (u.isle n).iver = ver ∧ u.home.mask.getLsbD n = true ∧ (u.strait n).st = .up ∧ (u.strait n).armed = true

/-- The handle of an Isle that comes up and agrees ends well. -/
theorem State.powerAdmit_risen {t : State} {c : Nat} (carries : t.Carries m (.isle n) c) (granted : claimOk t.ledger 16 40 = true)
    (agrees : Agrees t n tr) : ∃ u, State.endAdmit (t.powerAdmit n tr) n = u ∧ u.Risen n t.umf.ucodeVer
      ∧ u.Has m (.isle n) (some (0, if c = 49 then 1 else 0)) ∧ (u.isle n).umfLock = (t.isle n).umfLock := by
  obtain ⟨u, power, h⟩ := State.islePower_admits n.isLt granted agrees
  refine ⟨u.endIsle n 1, ?_, ⟨h.cond, h.st, h.vcore, h.iver, h.mask, h.up, h.armed⟩, ?_, h.umfLock⟩
  · rw [State.powerAdmit, power]
    rfl
  · exact (carries.of_boxes (congrArg Umf.boxes h.umf)).endIsle

theorem Agrees.of_eq {t : State} {n : Nat} (h : Agrees s n tr) (ver : t.umf.ucodeVer = s.umf.ucodeVer) (ref : t.umf.admref = s.umf.admref)
    (idigest : (t.isle n).idigest = (s.isle n).idigest) (refDigest : (t.strait n).refDigest = (s.strait n).refDigest) (lh : t.lh = s.lh) :
    Agrees t n tr where
  version := by rw [ver, ref, h.version]
  digest := by rw [idigest, refDigest, h.digest]
  okI := h.okI
  okK := h.okK
  offset := lh ▸ h.offset
  quiet := h.quiet

/-- The command is taken, and every clause of its answer concerns the state in which it is done. -/
theorem State.taken_keeps (s : State) (m : Fin 16) (k : HUnit) : (s.taken m k).Carries m k (s.box m).cmd
    ∧ (s.taken m k).isles = s.isles ∧ (s.taken m k).straits = s.straits ∧ (s.taken m k).ledger = s.ledger ∧ (s.taken m k).lh = s.lh
    ∧ (s.taken m k).umf.ucodeVer = s.umf.ucodeVer ∧ (s.taken m k).umf.admref = s.umf.admref := by
  obtain ⟨ports, boxes, taken, carries, -⟩ := s.taken_eq m k
  refine ⟨carries, ?_⟩
  rw [taken]
  exact ⟨rfl, rfl, rfl, rfl, rfl, rfl⟩

section
variable (serves : s.umf.serving = some m) (names : (s.box m).argN 1 = n.val) (fit : s.isleFit n = true)
include serves names fit

section
variable (cmd : (s.box m).cmd = 49)
include cmd

theorem exec_isleAdmit_refuses (settled : (s.isle n).cond = .admitted ∨ (s.isle n).cond = .offline ∨ (s.isle n).cond = .out) :
    exec (.isleAdmit m tr) s = .next (s.respond m 3 []) := by
  show execIsleAdmit m tr s = _
  rw [execIsleAdmit, State.command_served serves cmd, State.withIsle_fit names fit]
  dsimp only
  rw [if_pos settled]

variable (free : s.unitBusy (.isle n) = false) (room : (s.box m).handlesFull = false)
variable (lost : ¬ ((s.isle n).cond = .admitted ∨ (s.isle n).cond = .offline ∨ (s.isle n).cond = .out))
variable (off : (s.isle n).vcore = false)
include free room lost off

/-- An Isle whose VCORE is off claims its bearing and comes up. -/
theorem execIsleAdmit_off : ∃ t : State, (t.Carries m (.isle n) 49 ∧ t.isle n = s.isle n
      ∧ (t.strait n).refDigest = (s.strait n).refDigest ∧ t.ledger = (s.lostOff n).ledger ∧ t.lh = s.lh
      ∧ t.umf.ucodeVer = s.umf.ucodeVer ∧ t.umf.admref = s.umf.admref)
    ∧ (∀ u, t.claim n 40 0 = (u, true) → exec (.isleAdmit m tr) s = .next (State.endAdmit (u.powerAdmit n tr) n))
    ∧ (∀ u, t.claim n 40 0 = (u, false) → exec (.isleAdmit m tr) s = .next (u.endHandle (.isle n) 7 1)) := by
  obtain ⟨carries, isles, straits, ledger, lh, ver, ref⟩ := s.taken_keeps m (.isle n)
  have isle : (s.taken m (.isle n)).isle n = s.isle n := congrArg (fun b => sget ({} : Isle) b n.val) isles
  have strait : (s.taken m (.isle n)).strait n = s.strait n := congrArg (fun b => sget ({} : Strait) b n.val) straits
  obtain ⟨isle_t, ref_t, umf_t, lh_t⟩ := (s.taken m (.isle n)).lostOff_keeps n (by rw [isle]; exact off)
  have ledger_t := State.ledger_lostOff_congr ledger isle
  have off_t : (((s.taken m (.isle n)).lostOff n).isle n).vcore = false := by rw [isle_t, isle, off]
  have same : (if (s.isle n).cond = .severed ∨ (s.isle n).cond = .clockLost then (s.taken m (.isle n)).vcoreOff n else s.taken m (.isle n))
      = (s.taken m (.isle n)).lostOff n := by rw [State.lostOff, isle]
  refine ⟨(s.taken m (.isle n)).lostOff n,
    ⟨?_, isle_t.trans isle, ref_t.trans (congrArg Strait.refDigest strait), ledger_t, lh_t.trans lh, ?_, ?_⟩,
    fun u claimed => ?_, fun u claimed => ?_⟩
  · exact (cmd ▸ carries).of_boxes (congrArg Umf.boxes umf_t)
  · rw [umf_t, ver]
  · rw [umf_t, ref]
  all_goals
    show execIsleAdmit m tr s = _
    rw [execIsleAdmit, State.command_served serves cmd, State.withIsle_fit names fit]
    dsimp only
    rw [if_neg lost, State.accepted_taken free room, same, off_t, if_neg Bool.false_ne_true, reqIsle, claimed]

/-- A severed Isle that agrees is admitted by command. -/
theorem exec_isleAdmit_risen (granted : claimOk (s.lostOff n).ledger 40 0 = true)
    (training : claimOk ((s.lostOff n).claim n 40 0).1.ledger 16 40 = true) (agrees : Agrees s n tr) :
    ∃ u, exec (.isleAdmit m tr) s = .next u ∧ u.Risen n s.umf.ucodeVer ∧ u.Has m (.isle n) (some (0, 1)) := by
  obtain ⟨t, ⟨carries, isle, digest, ledger, lh, ver, ref⟩, goes, -⟩ := execIsleAdmit_off (tr := tr) serves names fit cmd free room lost off
  have ok := State.claim_of_ok t n 40 0 (ledger ▸ granted)
  have training_t := State.ledger_claim_congr (s := s.lostOff n) ledger n.val 40 0 ▸ training
  have runs := goes _ ok
  obtain ⟨isle_v, strait_v, umf_v, lh_v⟩ := State.claim_keeps (s := t) (n := n) n 40 0
  generalize (t.claim n 40 0).1 = v at *
  obtain ⟨u, ends, risen, has, -⟩ := State.powerAdmit_risen (carries.of_boxes (congrArg Umf.boxes umf_v)) training_t
    (agrees.of_eq (by rw [umf_v, ver]) (by rw [umf_v, ref]) (by rw [isle_v, isle]) (by rw [strait_v, digest]) (by rw [lh_v, lh]))
  rw [umf_v, ver] at risen
  exact ⟨u, runs.trans (congrArg _ ends), risen, has⟩

theorem exec_isleAdmit_dark (refused : claimOk (s.lostOff n).ledger 40 0 = false) :
    ∃ u, exec (.isleAdmit m tr) s = .next u ∧ u.Has m (.isle n) (some (7, 1)) ∧ u.isle n = s.isle n := by
  obtain ⟨t, ⟨carries, isle, -, ledger, -, -, -⟩, -, stays⟩ := execIsleAdmit_off (tr := tr) serves names fit cmd free room lost off
  have no := State.claim_of_not_ok t n 40 0 (by decide) (ledger ▸ refused)
  refine ⟨_, stays _ no, (carries.of_boxes ?_).endHandle 7 1, ?_⟩
  · rw [State.claim_frame]
  · exact (State.isle_claim ..).trans isle

end
end

end

section
variable {s : State} {m : Fin 16} {n : Fin 12} {tr : TrainIn} (serves : s.umf.serving = some m) (cmd : (s.box m).cmd = 51)
  (names : (s.box m).argN 1 = n.val) (fit : s.isleFit n = true)
include serves cmd names fit

theorem exec_isleOnline_refuses (on : (s.isle n).cond ≠ .offline) : exec (.isleOnline m tr) s = .next (s.respond m 3 []) := by
  show execIsleOnline m tr s = _
  rw [execIsleOnline, State.command_served serves cmd, State.withIsle_fit names fit, if_pos on]

/-- An Isle that was taken offline and agrees is back, admitted and unlocked. -/
theorem exec_isleOnline_risen (offline : (s.isle n).cond = .offline) (free : s.unitBusy (.isle n) = false)
    (room : (s.box m).handlesFull = false) (granted : claimOk s.ledger 40 0 = true)
    (training : claimOk (s.claim n 40 0).1.ledger 16 40 = true) (agrees : Agrees s n tr) :
    ∃ u, exec (.isleOnline m tr) s = .next u ∧ u.Risen n s.umf.ucodeVer ∧ u.Has m (.isle n) (some (0, 0)) ∧ (u.isle n).umfLock = false := by
  obtain ⟨carries, isles, straits, ledger, lh, ver, ref⟩ := s.taken_keeps m (.isle n)
  have isle : (s.taken m (.isle n)).isle n = s.isle n := congrArg (fun b => sget ({} : Isle) b n.val) isles
  have strait : (s.taken m (.isle n)).strait n = s.strait n := congrArg (fun b => sget ({} : Strait) b n.val) straits
  have ok := State.claim_of_ok (s.taken m (.isle n)) n 40 0 (ledger ▸ granted)
  have training_t := State.ledger_claim_congr ledger n.val 40 0 ▸ training
  have runs : exec (.isleOnline m tr) s = .next (State.endAdmit
      ((((s.taken m (.isle n)).claim n 40 0).1.modIsle n fun y => { y with umfLock := false, cond := .out }).powerAdmit n tr) n) := by
    show execIsleOnline m tr s = _
    rw [execIsleOnline, State.command_served serves cmd, State.withIsle_fit names fit, if_neg (not_not.mpr offline),
      State.accepted_taken free room, reqIsle, ok]
  generalize s.taken m (.isle n) = t at *
  obtain ⟨isle_v, strait_v, umf_v, lh_v⟩ := State.claim_keeps (s := t) (n := n) n 40 0
  generalize (t.claim n 40 0).1 = v at *
  generalize freed : (v.modIsle n fun y => { y with umfLock := false, cond := .out }) = w at *
  have isle_w : w.isle n = { v.isle n with umfLock := false, cond := .out } := by rw [← freed]; exact v.isle_setIsle ..
  have umf_w : w.umf = v.umf := by rw [← freed]; rfl
  obtain ⟨u, ends, risen, has, unlocked⟩ := State.powerAdmit_risen (t := w) (carries.of_boxes (by rw [umf_w, umf_v]))
    (by rw [← freed]; exact training_t)
    (agrees.of_eq (by rw [umf_w, umf_v, ver]) (by rw [umf_w, umf_v, ref]) (by rw [isle_w, isle_v, isle])
      (by rw [← freed, State.modIsle_eq, State.strait_setIsle, strait_v, strait]) (by rw [← freed, ← lh, ← lh_v]; rfl))
  rw [umf_w, umf_v, ver] at risen
  rw [cmd] at has
  rw [isle_w] at unlocked
  exact ⟨u, runs.trans (congrArg _ ends), risen, has, unlocked⟩

end

/-! ### An Isle goes offline (R408) -/

/-- An Isle as it goes offline: its requests end, and Umfoent holds it. -/
def State.offlined (s : State) (n : Fin 12) : State :=
  ((s.dropRequests n).trwAbort n).modIsle n fun y => { y with umfLock := true, cond := .offline }

section
variable {s : State} {m : Fin 16} {n : Fin 12} (serves : s.umf.serving = some m) (cmd : (s.box m).cmd = 50)
  (names : (s.box m).argN 1 = n.val) (fit : s.isleFit n = true) (on : (s.isle n).cond ≠ .offline)
include serves cmd names fit on

/-- A Court command cannot power down an Isle that the Vault world holds. -/
theorem exec_isleOffline_vault (court : (s.box m).path = 0) (vault : s.isleVault n = true) : exec (.isleOffline m) s
    = .next ((s.setIsle n { s.isle n with
        stream := { (s.isle n).stream with counts := satCount (s.isle n).stream.counts 2 } }).respond m 7 [2]) := by
  show execIsleOffline m s = _
  rw [execIsleOffline, State.command_served serves cmd, State.withIsle_fit names fit, if_neg on, court, vault]
  rfl

variable (may : (s.box m).path ≠ 0 ∨ s.isleVault n = false)
include may

omit serves cmd names fit on in
theorem court_vault_false : ((s.box m).path = 0 && s.isleVault n) = false := by
  rcases may with path | court
  · rw [decide_eq_false path, Bool.false_and]
  · rw [court, Bool.and_false]

theorem exec_isleOffline_waits (cond : (s.isle n).cond = .admitted) (undrained : s.mayDry n = false) :
    exec (.isleOffline m) s = .next s := by
  show execIsleOffline m s = _
  rw [execIsleOffline, State.command_served serves cmd, State.withIsle_fit names fit, if_neg on, court_vault_false may, undrained, cond]
  rfl

theorem execIsleOffline_eq (drained : (s.isle n).cond = .admitted → s.mayDry n = true) (free : s.unitBusy (.isle n) = false)
    (room : (s.box m).handlesFull = false) : exec (.isleOffline m) s
      = .next ((((s.taken m (.isle n)).offlined n).isleDry n).endHandle (.isle n) 0 0) := by
  have goes : (decide ((s.isle n).cond = .admitted) && !s.mayDry n) = false := by
    by_cases cond : (s.isle n).cond = .admitted
    · rw [drained cond, Bool.not_true, Bool.and_false]
    · rw [decide_eq_false cond, Bool.false_and]
  show execIsleOffline m s = _
  rw [execIsleOffline, State.command_served serves cmd, State.withIsle_fit names fit, if_neg on, court_vault_false may,
    if_neg Bool.false_ne_true, goes, if_neg Bool.false_ne_true, State.accepted_taken free room]
  rfl

theorem exec_isleOffline_dry (drained : (s.isle n).cond = .admitted → s.mayDry n = true) (free : s.unitBusy (.isle n) = false)
    (room : (s.box m).handlesFull = false) : ∃ u, exec (.isleOffline m) s = .next u ∧ (u.isle n).st = .dry ∧ (u.isle n).vcore = false
      ∧ u.home.mask.getLsbD n = false ∧ (u.strait n).st = .down := by
  have keeps (t : State) : ((t.endHandle (.isle n) 0 0).isle n = t.isle n) ∧ (t.endHandle (.isle n) 0 0).home = t.home
      ∧ (t.endHandle (.isle n) 0 0).strait n = t.strait n := ⟨rfl, rfl, rfl⟩
  obtain ⟨st, vcore, -, mask, strait, -⟩ := ((s.taken m (.isle n)).offlined n).isleDry_off n
  obtain ⟨isle, home, strait_eq⟩ := keeps (((s.taken m (.isle n)).offlined n).isleDry n)
  refine ⟨_, execIsleOffline_eq serves cmd names fit on may drained free room, ?_, ?_, ?_, ?_⟩
  · rw [isle, st]
  · rw [isle, vcore]
  · rw [home, mask n.isLt]
  · rw [strait_eq, strait]

end

/-! ### Images (R406) -/

section
variable {s : State} {img : ImageIn}

theorem State.imageBad_good (sig : img.sigOk = true) (level : s.umf.floor.toNat ≤ img.security.toNat) : s.imageBad img true = none := by
  rw [State.imageBad, sig, if_neg (by decide), if_neg (Nat.not_lt_of_le level)]

theorem State.imageBad_old (sig : img.sigOk = true) (level : img.security.toNat < s.umf.floor.toNat) : s.imageBad img true = some 2 := by
  rw [State.imageBad, sig, if_neg (by decide), if_pos level]

theorem State.imageBad_unsigned {ok : Bool} (bad : ok = false ∨ img.sigOk = false) : s.imageBad img ok = some 1 := by
  rw [State.imageBad, if_pos]
  simpa using bad

end

/-! ### Microcode is loaded (R407) -/

section
variable {s : State}

theorem State.unitBusy_congr {t : State} (umf : t.umf = s.umf) (k : HUnit) : t.unitBusy k = s.unitBusy k := by
  unfold State.unitBusy
  rw [umf]

theorem State.umf_wakeIsle (n : Nat) : (s.wakeIsle n).umf = s.umf := by
  unfold State.wakeIsle
  split
  next raised =>
    obtain ⟨l, cs, is, rfl⟩ := State.isleRaise_frame raised
    rfl
  next => exact (congrArg State.umf (State.claim_frame ..) :)

/-- The Isle that is next is locked and parks, and Umfoent keeps what it knows. -/
theorem State.parkNext_locks {r : UcodeRun} {n : Fin 12} {todo : List (Fin 12)} (run : s.umf.ucode = some r) (next : r.todo = n :: todo) :
    s.parkNext.umf = s.umf ∧ (s.parkNext.isle n).umfLock = true ∧ (s.parkNext.isle n).parked = true := by
  obtain ⟨mailbox, _, version, digest, failed⟩ := r
  obtain rfl : _ = n :: todo := next
  unfold State.parkNext
  rw [run]
  dsimp only
  rw [State.modIsle_eq, State.isle_setIsle]
  refine ⟨?_, rfl, rfl⟩
  split
  · exact State.umf_wakeIsle n
  · rfl

variable {m : Fin 16} {n : Fin 12} {img : ImageIn} {s1 : State}

/-- The Isles of a mask of one Isle that takes a load. -/
theorem ucodeTodo_one (fit : s.isleFit n = true) (cond : (s.isle n).cond = .admitted ∨ (s.isle n).cond = .quarantined)
    (on : (s.isle n).st ≠ .dry) : ((List.finRange 12).filter fun k : Fin 12 => let c := (s.isle k).cond
      (2 ^ n.val).testBit k && s.isleFit k && (c == .admitted || c == .quarantined) && (s.isle k).st != .dry) = [n] := by
  have takes (k : Fin 12) (_ : k ∈ List.finRange 12) : ((2 ^ n.val).testBit k && s.isleFit k
      && ((s.isle k).cond == .admitted || (s.isle k).cond == .quarantined) && (s.isle k).st != .dry) = decide (k = n) := by
    rw [Nat.testBit_two_pow]
    by_cases same : k = n
    · subst same
      simpa [fit, on] using cond
    · have ne : n.val ≠ k.val := fun h => same (Fin.ext h.symm)
      rw [decide_eq_false ne, decide_eq_false same]
      rfl
  rw [List.filter_congr takes, List.filter_eq, (List.nodup_finRange 12).count, if_pos (List.mem_finRange n)]
  rfl

/-- A verified image starts a run over the Isles that it is for. -/
def State.loadUcode (t : State) (m : Fin 16) (n : Fin 12) (img : ImageIn) : State :=
  let r : UcodeRun := { mailbox := m, todo := [n], version := img.version, digest := img.digest }
  State.parkNext { t with umf := { t.umf with alt := img.version, altValid := true, ucode := some r } }

section
variable (serves : s.umf.serving = some m) (cmd : (s.box m).cmd = 52) (len : (s.box m).argN 3 ≠ 0) (mask : (s.box m).argN 4 = 2 ^ n.val)
  (fit : s.isleFit n = true) (cond : (s.isle n).cond = .admitted ∨ (s.isle n).cond = .quarantined) (on : (s.isle n).st ≠ .dry)
  (free : s.unitBusy (.isle n) = false)
include serves cmd len mask fit cond on free

theorem exec_ucodeLoad :
    (s.readImage (2 ^ 32 * (s.box m).argN 2 + (s.box m).argN 1) ((s.box m).argN 3) = (s1, none) → exec (.ucodeLoad m img) s = .next s1)
    ∧ ∀ ok, s.readImage (2 ^ 32 * (s.box m).argN 2 + (s.box m).argN 1) ((s.box m).argN 3) = (s1, some ok) →
      s1.unitBusy .ucode = false → (s1.box m).handlesFull = false →
        (∀ d, (s1.taken m .ucode).imageBad img ok = some d → exec (.ucodeLoad m img) s = .next ((s1.taken m .ucode).endHandle .ucode 9 d))
        ∧ ((s1.taken m .ucode).imageBad img ok = none → exec (.ucodeLoad m img) s = .next ((s1.taken m .ucode).loadUcode m n img)) := by
  have small : ¬ (4096 ≤ 2 ^ n.val ∨ (s.box m).argN 3 = 0) := by
    have lt : 2 ^ n.val < 2 ^ 12 := Nat.pow_lt_pow_right (by decide) n.isLt
    exact not_or.mpr ⟨Nat.not_le_of_lt lt, len⟩
  have idle : ([n].any fun k => s.unitBusy (.isle k)) = false := by rw [List.any_cons, List.any_nil, free]; rfl
  refine ⟨fun read => ?_, fun ok read freeU room => ⟨fun d bad => ?_, fun good => ?_⟩⟩
  all_goals
    show execUcodeLoad m img s = _
    rw [execUcodeLoad, State.command_served serves cmd]
    dsimp only
    rw [mask, ucodeTodo_one fit cond on, if_neg small, idle, if_neg Bool.false_ne_true, read]
  · dsimp only
    rw [State.accepted_taken freeU room, bad]
  · dsimp only
    rw [State.accepted_taken freeU room, good]
    rfl

end

/-- A good image starts the load of the Isle, which parks. -/
theorem State.loadUcode_starts (t : State) : (t.loadUcode m n img).umf
      = { t.umf with
          alt := img.version, altValid := true
          ucode := some { mailbox := m, todo := [n], version := img.version, digest := img.digest } }
    ∧ ((t.loadUcode m n img).isle n).umfLock = true ∧ ((t.loadUcode m n img).isle n).parked = true := by
  unfold State.loadUcode
  exact State.parkNext_locks rfl rfl

theorem State.ucode_none_of_free (free : s.unitBusy .ucode = false) : s.umf.ucode = none := by
  unfold State.unitBusy at free
  rw [Bool.or_eq_false_iff] at free
  cases run : s.umf.ucode with
  | none => rfl
  | some r =>
    rw [run] at free
    exact absurd free.2.symm Bool.false_ne_true

/-- A load that is taken ends at once with what is wrong with its image, or starts. -/
theorem exec_ucodeLoad_verdict {ok : Bool} (serves : s.umf.serving = some m) (cmd : (s.box m).cmd = 52) (len : (s.box m).argN 3 ≠ 0)
    (mask : (s.box m).argN 4 = 2 ^ n.val) (fit : s.isleFit n = true)
    (cond : (s.isle n).cond = .admitted ∨ (s.isle n).cond = .quarantined) (on : (s.isle n).st ≠ .dry) (free : s.unitBusy (.isle n) = false)
    (freeU : s.unitBusy .ucode = false) (room : (s.box m).handlesFull = false)
    (read : s.readImage (2 ^ 32 * (s.box m).argN 2 + (s.box m).argN 1) ((s.box m).argN 3) = (s1, some ok)) (same : s1.umf = s.umf) :
    ∃ u, exec (.ucodeLoad m img) s = .next u
      ∧ (ok = true → img.sigOk = true ∧ s.umf.floor.toNat ≤ img.security.toNat →
        u.umf.ucode = some { mailbox := m, todo := [n], version := img.version, digest := img.digest }
          ∧ u.umf.alt = img.version ∧ u.umf.altValid = true ∧ (u.isle n).umfLock = true ∧ (u.isle n).parked = true ∧ u.Has m .ucode none)
      ∧ (ok = true → img.sigOk = true → img.security.toNat < s.umf.floor.toNat → u.Has m .ucode (some (9, 2)) ∧ u.umf.ucode = none)
      ∧ (ok = false ∨ img.sigOk = false → u.Has m .ucode (some (9, 1)) ∧ u.umf.ucode = none) := by
  have box : s1.box m = s.box m := congrArg (fun u : Umf => sget ({} : Mailbox) u.boxes m.val) same
  obtain ⟨bad, fine⟩ := (exec_ucodeLoad serves cmd len mask fit cond on free (img := img) (s1 := s1)).2 ok read
    ((State.unitBusy_congr same _).trans freeU) (box.symm ▸ room)
  obtain ⟨ports, boxes, taken, carries, -⟩ := s1.taken_eq m .ucode
  have level : (s1.taken m .ucode).umf.floor = s.umf.floor := by rw [taken, same]
  have idle : (s1.taken m .ucode).umf.ucode = none := by
    rw [taken, same]
    exact (State.ucode_none_of_free freeU :)
  generalize s1.taken m .ucode = t at *
  cases verdict : t.imageBad img ok with
  | some d =>
    have ends : (t.endHandle .ucode 9 d).Has m .ucode (some (9, d)) := carries.endHandle 9 d
    refine ⟨_, bad d verdict, fun read_ok good => ?_, fun read_ok sig old => ?_, fun unsigned => ?_⟩
    · rw [read_ok, State.imageBad_good good.1 (level ▸ good.2)] at verdict
      cases verdict
    · rw [read_ok, State.imageBad_old sig (level ▸ old)] at verdict
      cases verdict
      exact ⟨ends, idle⟩
    · rw [State.imageBad_unsigned unsigned] at verdict
      cases verdict
      exact ⟨ends, idle⟩
  | none =>
    obtain ⟨umf, locked, parked⟩ := t.loadUcode_starts (m := m) (n := n) (img := img)
    refine ⟨_, fine verdict, fun _ _ => ⟨?_, ?_, ?_, locked, parked, ?_⟩, fun read_ok sig old => ?_, fun unsigned => ?_⟩
    · rw [umf]
    · rw [umf]
    · rw [umf]
    · exact State.Carries.has (carries.of_boxes (congrArg Umf.boxes umf :))
    · rw [read_ok, State.imageBad_old sig (level ▸ old)] at verdict
      cases verdict
    · rw [State.imageBad_unsigned unsigned] at verdict
      cases verdict

end

/-! ### An Isle has loaded (R407) -/

section
variable {s : State} {n : Fin 12} {r : UcodeRun}

/-- The end of an update installs its version as the reference of admissions. -/
theorem State.ucodeEnds_installs (s : State) (r : UcodeRun) : (s.ucodeEnds r).isles = s.isles ∧ (s.ucodeEnds r).umf.ucode = none
    ∧ (s.ucodeEnds r).umf.ucodeVer = r.version ∧ (s.ucodeEnds r).umf.admref = r.version ∧ (s.ucodeEnds r).umf.altValid = false
    ∧ (s.ucodeEnds r).board.flash.ucode = r.version := by
  unfold State.ucodeEnds
  dsimp only
  split <;> exact ⟨rfl, rfl, rfl, rfl, rfl, rfl⟩

theorem State.cond_ucodeFailed (s : State) (n : Nat) : ((s.ucodeFailed n).isle n).cond = .quarantined := by
  unfold State.ucodeFailed
  dsimp only
  rw [State.isle_quarantine]

/-- The Isle as its load leaves it. -/
def State.ucodeLoaded (s : State) (n : Fin 12) (r : UcodeRun) (ok : Bool) : State :=
  let s := if ok then s.modIsle n fun x => { x with iver := r.version } else s.ucodeFailed n
  let s := s.recKey posUmf 0o013005 n [r.version.setWidth 72, rp (if ok then 0 else 9)]
  s.modIsle n fun x => { x with umfLock := false, parked := false }

theorem State.isle_ucodeLoaded (ok : Bool) :
    ((s.ucodeLoaded n r ok).isle n).umfLock = false ∧ ((s.ucodeLoaded n r ok).isle n).parked = false
    ∧ (ok = true → ((s.ucodeLoaded n r ok).isle n).iver = r.version)
    ∧ (ok = false → ((s.ucodeLoaded n r ok).isle n).cond = .quarantined) := by
  unfold State.ucodeLoaded
  dsimp only
  rw [State.modIsle_eq, State.isle_setIsle]
  refine ⟨rfl, rfl, fun good => ?_, fun bad => ?_⟩
  · rw [if_pos good]
    exact (congrArg Isle.iver (s.isle_setIsle n { s.isle n with iver := r.version }) :)
  · have failed := s.cond_ucodeFailed n
    rw [if_neg (ne_true_of_eq_false bad)]
    generalize s.ucodeFailed n = t at *
    exact failed

variable (run : s.umf.ucode = some r) (next : r.todo = [n])
include run next

theorem exec_ucodeIsleParked_waits (undrained : s.isleDrained n = false) (ok : Bool) : exec (.ucodeIsleParked ok) s = .next s := by
  show execUcodeIsleParked ok s = _
  rw [execUcodeIsleParked, run]
  dsimp only
  rw [next]
  dsimp only
  rw [undrained, if_pos (.inr (.inl rfl))]

theorem exec_ucodeIsleParked_last (awake : (s.isle n).st ≠ .neap) (idle : ∀ c, c < 24 → s.coreLaunch (n.val * 24 + c) = false)
    (drained : s.isleDrained n = true) (ok : Bool) : ∃ r', exec (.ucodeIsleParked ok) s = .next ((s.ucodeLoaded n r ok).ucodeEnds r')
      ∧ r'.version = r.version := by
  have calm : ¬ ((s.isle n).st = .neap ∨ (!s.isleDrained n) = true
      ∨ ((List.range 24).any fun c => s.coreLaunch (n.val * 24 + c)) = true) := by
    rw [drained, List.any_eq_true]
    rintro (neap | drained | ⟨c, mem, launch⟩)
    · exact awake neap
    · exact Bool.false_ne_true drained
    · rw [idle c (List.mem_range.mp mem)] at launch
      exact Bool.false_ne_true launch
  refine ⟨{ r with todo := [], failed := if ok || r.failed.isSome then r.failed else some n }, ?_, rfl⟩
  show execUcodeIsleParked ok s = _
  rw [execUcodeIsleParked, run]
  dsimp only
  rw [next]
  dsimp only
  rw [if_neg calm]
  rfl

end

/-! ### The recorder is cleared (R416) -/

section
variable {s : State} {m : Fin 16}

section
variable (serves : s.umf.serving = some m) (cmd : (s.box m).cmd = 72)
include serves cmd

theorem exec_evrClear_locked (out : s.umf.scopes.getLsbD 2 = false) : exec (.evrClear m) s = .next (s.respond m 5 []) := by
  show execEvrClear m s = _
  rw [execEvrClear, State.command_served serves cmd, out]
  rfl

theorem exec_evrClear_taken (unlocked : s.umf.scopes.getLsbD 2 = true) (free : s.unitBusy .recorder = false)
    (room : (s.box m).handlesFull = false) : ∃ u, exec (.evrClear m) s = .next u ∧ u.Has m .recorder none
      ∧ u.evr = { s.evr with clearing := true, clearBy := if s.umf.lock = 2 then 1 else 0, clearBox := BitVec.ofNat 4 m.val } := by
  have runs : exec (.evrClear m) s = .next { s.taken m .recorder with evr := { (s.taken m .recorder).evr with
      clearing := true, clearBy := if (s.taken m .recorder).umf.lock = 2 then 1 else 0, clearBox := BitVec.ofNat 4 m.val } } := by
    show execEvrClear m s = _
    rw [execEvrClear, State.command_served serves cmd, unlocked, Bool.not_true, if_neg Bool.false_ne_true, State.accepted_taken free room]
  obtain ⟨ports, boxes, taken, carries, -⟩ := s.taken_eq m .recorder
  have evr : (s.taken m .recorder).evr = s.evr := by rw [taken]
  have lock : (s.taken m .recorder).umf.lock = s.umf.lock := by rw [taken]
  generalize s.taken m .recorder = t at *
  refine ⟨_, runs, State.Carries.has (carries.of_boxes rfl), ?_⟩
  rw [evr, lock]

end

/-- The record CLEARED: the sequence number that was reached, and who cleared. -/
def State.clearedRec (s : State) : Rec :=
  { code := 0o000001, src := 15, pos := posUmf, epoch := s.lh.epoch, count := s.lh.count, thread := 1023
    p0 := s.evr.seq.setWidth 72, p1 := s.evr.clearBy.setWidth 72, p2 := s.evr.clearBox.setWidth 72 }

theorem exec_evrClearDone (clearing : s.evr.clearing = true) : ∃ u, exec .evrClearDone s = .next u ∧ u.evr.clearing = false ∧ u.evr.seq = 1
    ∧ u.evr.ffill = 1 ∧ u.evr.tnext = 0 ∧ u.evr.tfull = false ∧ u.evr.travel = s.evr.travel ∧ u.evr.queue = s.evr.queue
    ∧ ∃ r : Rec, u.evr.slots = sset {} [] 0 r ∧ r.code = 1 ∧ r.seq = 0 ∧ r.p0 = s.evr.seq.setWidth 72
      ∧ r.p1 = s.evr.clearBy.setWidth 72 ∧ r.p2 = s.evr.clearBox.setWidth 72 := by
  have runs : exec .evrClearDone s = .next (State.endHandle
      { s with evr := { s.evr.zeroed.store s.clearedRec with clearing := false } } .recorder 0 0) := by
    show execEvrClearDone s = _
    rw [execEvrClearDone, clearing]
    rfl
  exact ⟨_, runs, rfl, rfl, rfl, rfl, rfl, rfl, rfl, { s.clearedRec with seq := 0, lost := s.evr.lost }, rfl, rfl, rfl, rfl, rfl, rfl⟩

/-! ### Firmware is staged and swapped (R406) -/

section
variable {img : ImageIn} {s1 : State} (serves : s.umf.serving = some m) (cmd : (s.box m).cmd = 80)
include serves cmd

theorem exec_fwStage_waits (read : s.readImage (2 ^ 32 * (s.box m).argN 2 + (s.box m).argN 1) ((s.box m).argN 3) = (s1, none)) (fl : Bool) :
    exec (.fwStage m img fl) s = .next s1 := by
  show execFwStage m img fl s = _
  rw [execFwStage, State.command_served serves cmd, read]

/-- The other slot holds the image, and the firmware stands by. -/
def State.staged (t : State) (img : ImageIn) : State :=
  let fl := t.board.flash
  let t := if t.umf.active then
      { t with
        umf := { t.umf with verA := img.version }
        board := { t.board with flash := { fl with slotA := img.version, digA := img.digest } } }
    else
      { t with
        umf := { t.umf with verB := img.version }
        board := { t.board with flash := { fl with slotB := img.version, digB := img.digest } } }
  { t with umf := { t.umf with standby := true } }

variable {ok : Bool} (read : s.readImage (2 ^ 32 * (s.box m).argN 2 + (s.box m).argN 1) ((s.box m).argN 3) = (s1, some ok))
  (free : s1.unitBusy .firmware = false) (room : (s1.box m).handlesFull = false)
include read free room

theorem exec_fwStage_bad {d : BitVec 8} (bad : (s1.taken m .firmware).imageBad img ok = some d) (fl : Bool) :
    exec (.fwStage m img fl) s = .next ((s1.taken m .firmware).endHandle .firmware 9 d) := by
  show execFwStage m img fl s = _
  rw [execFwStage, State.command_served serves cmd, read]
  dsimp only
  rw [State.accepted_taken free room, bad]

theorem exec_fwStage_good (good : (s1.taken m .firmware).imageBad img ok = none) (fl : Bool) : exec (.fwStage m img fl) s = .next
    (if fl then ((s1.taken m .firmware).staged img).endHandle .firmware 0 0 else (s1.taken m .firmware).endHandle .firmware 9 3) := by
  show execFwStage m img fl s = _
  rw [execFwStage, State.command_served serves cmd, read]
  dsimp only
  rw [State.accepted_taken free room, good]
  cases fl <;> rfl

end

theorem State.staged_eq (t : State) (img : ImageIn) : (t.staged img).umf.boxes = t.umf.boxes ∧ (t.staged img).umf.standby = true
    ∧ if t.umf.active then (t.staged img).umf.verA = img.version ∧ (t.staged img).umf.verB = t.umf.verB
      else (t.staged img).umf.verB = img.version ∧ (t.staged img).umf.verA = t.umf.verA := by
  unfold State.staged
  cases t.umf.active <;> exact ⟨rfl, rfl, rfl, rfl⟩

/-- A staged image stands by; one that is wrong, or a flash that fails, ends the command. -/
theorem exec_fwStage {img : ImageIn} {s1 : State} {ok : Bool} (serves : s.umf.serving = some m) (cmd : (s.box m).cmd = 80)
    (free : s.unitBusy .firmware = false) (room : (s.box m).handlesFull = false)
    (read : s.readImage (2 ^ 32 * (s.box m).argN 2 + (s.box m).argN 1) ((s.box m).argN 3) = (s1, some ok)) (same : s1.umf = s.umf) :
    (img.sigOk = true ∧ s.umf.floor.toNat ≤ img.security.toNat → ok = true →
      ∃ u, exec (.fwStage m img true) s = .next u ∧ u.umf.standby = true ∧ u.Has m .firmware (some (0, 0))
        ∧ (if s.umf.active then u.umf.verA = img.version ∧ u.umf.verB = s.umf.verB else u.umf.verB = img.version ∧ u.umf.verA = s.umf.verA))
    ∧ (img.sigOk = true ∧ s.umf.floor.toNat ≤ img.security.toNat → ok = true →
      ∃ u, exec (.fwStage m img false) s = .next u ∧ u.umf.standby = s.umf.standby ∧ u.Has m .firmware (some (9, 3)))
    ∧ ∀ fl, ok = false ∨ img.sigOk = false →
      ∃ u, exec (.fwStage m img fl) s = .next u ∧ u.Has m .firmware (some (9, 1)) ∧ u.board = s1.board := by
  have box : s1.box m = s.box m := congrArg (fun u : Umf => sget ({} : Mailbox) u.boxes m.val) same
  have free1 : s1.unitBusy .firmware = false := (State.unitBusy_congr same _).trans free
  have room1 : (s1.box m).handlesFull = false := box.symm ▸ room
  have bad := exec_fwStage_bad (img := img) (d := 1) serves cmd read free1 room1
  have good := exec_fwStage_good (img := img) serves cmd read free1 room1
  obtain ⟨ports, boxes, taken, carries, -⟩ := s1.taken_eq m .firmware
  have kept : (s1.taken m .firmware).umf = { s.umf with serving := none, boxes := boxes } := by rw [taken, same]
  have board : (s1.taken m .firmware).board = s1.board := by rw [taken]
  generalize s1.taken m .firmware = t at *
  have level : t.umf.floor = s.umf.floor := by rw [kept]
  refine ⟨fun fine read_ok => ?_, fun fine read_ok => ?_, fun fl unsigned => ?_⟩
  · obtain ⟨same_boxes, standby, slots⟩ := t.staged_eq img
    subst read_ok
    refine ⟨_, good (State.imageBad_good fine.1 (level ▸ fine.2)) true, standby, (carries.of_boxes same_boxes).endHandle 0 0, ?_⟩
    rw [kept] at slots
    exact slots
  · subst read_ok
    refine ⟨_, good (State.imageBad_good fine.1 (level ▸ fine.2)) false, ?_, carries.endHandle 9 3⟩
    exact (congrArg Umf.standby kept :)
  · exact ⟨_, bad (State.imageBad_unsigned unsigned) fl, carries.endHandle 9 1, board⟩

/-- The standby firmware is tested, and runs when it passes. -/
def State.swapTested (t : State) (selfTest : Bool) : State :=
  let old := t.fwVersion
  let new := if t.umf.active then t.umf.verA else t.umf.verB
  let st : BitVec 8 := if selfTest then 0 else 9
  let t := { t with umf := { t.umf with aliasNo := t.umf.aliasNo + if selfTest then 1 else 2 } }
  let t := if selfTest then
      { t with
        umf := { t.umf with
          active := !t.umf.active, standby := false
          measure := sset 0 t.umf.measure 2 (if t.umf.active then t.board.flash.digA else t.board.flash.digB) }
        board := { t.board with flash := { t.board.flash with bootB := !t.umf.active } } }
    else t
  t.recKey posUmf 0o013004 0 [old.setWidth 72, new.setWidth 72, st.setWidth 72]

theorem State.swapTested_eq (t : State) (selfTest : Bool) : (t.swapTested selfTest).umf.boxes = t.umf.boxes
    ∧ (t.swapTested selfTest).umf.aliasNo = t.umf.aliasNo + (if selfTest then 1 else 2)
    ∧ (selfTest = true → (t.swapTested selfTest).umf.active = !t.umf.active ∧ (t.swapTested selfTest).umf.standby = false
      ∧ (t.swapTested selfTest).board.flash.bootB = !t.umf.active)
    ∧ (selfTest = false → (t.swapTested selfTest).umf.active = t.umf.active ∧ (t.swapTested selfTest).board = t.board) := by
  cases selfTest with
  | true => exact ⟨rfl, rfl, fun _ => ⟨rfl, rfl, rfl⟩, nofun⟩
  | false => exact ⟨rfl, rfl, nofun, fun _ => ⟨rfl, rfl⟩⟩

section
variable (serves : s.umf.serving = some m) (cmd : (s.box m).cmd = 81)
include serves cmd

theorem exec_fwSwap_refuses (none_ready : s.umf.standby = false) (t : Bool) : exec (.fwSwap m t) s = .next (s.respond m 3 []) := by
  show execFwSwap m t s = _
  rw [execFwSwap, State.command_served serves cmd, none_ready]
  rfl

variable (ready : s.umf.standby = true) (free : s.unitBusy .firmware = false) (room : (s.box m).handlesFull = false)
include ready free room

/-- What a swap leaves: a key derived for each firmware that ran (R399), and the new one when its self-test passes. -/
theorem execFwSwap_eq (selfTest : Bool) : ∃ t : State,
    exec (.fwSwap m selfTest) s = .next (t.endHandle .firmware (if selfTest then 0 else 9) 0)
    ∧ t.Carries m .firmware 81 ∧ t.umf.aliasNo = s.umf.aliasNo + (if selfTest then 1 else 2)
    ∧ (selfTest = true → t.umf.active = !s.umf.active ∧ t.umf.standby = false ∧ t.board.flash.bootB = !s.umf.active)
    ∧ (selfTest = false → t.umf.active = s.umf.active ∧ t.board = s.board) := by
  have runs : exec (.fwSwap m selfTest) s
      = .next (((s.taken m .firmware).swapTested selfTest).endHandle .firmware (if selfTest then 0 else 9) 0) := by
    show execFwSwap m selfTest s = _
    rw [execFwSwap, State.command_served serves cmd, ready, Bool.not_true, if_neg Bool.false_ne_true, State.accepted_taken free room]
    rfl
  obtain ⟨ports, boxes, taken, carries, -⟩ := s.taken_eq m .firmware
  have active : (s.taken m .firmware).umf.active = s.umf.active := by rw [taken]
  have aliasNo : (s.taken m .firmware).umf.aliasNo = s.umf.aliasNo := by rw [taken]
  have board : (s.taken m .firmware).board = s.board := by rw [taken]
  rw [cmd] at carries
  generalize s.taken m .firmware = t at *
  obtain ⟨boxes_t, aliasNo_t, passes, fails⟩ := t.swapTested_eq selfTest
  refine ⟨_, runs, carries.of_boxes boxes_t, ?_, fun h => ?_, fun h => ?_⟩
  · rw [aliasNo_t, aliasNo]
  · obtain ⟨swapped, standby, boot⟩ := passes h
    exact ⟨swapped.trans (by rw [active]), standby, boot.trans (by rw [active])⟩
  · obtain ⟨kept, board_t⟩ := fails h
    exact ⟨kept.trans active, board_t.trans board⟩

/-- A standby firmware that passes its self-test runs. -/
theorem exec_fwSwap_passes : ∃ u, exec (.fwSwap m true) s = .next u ∧ u.umf.active = !s.umf.active ∧ u.umf.standby = false
    ∧ u.board.flash.bootB = !s.umf.active ∧ u.umf.aliasNo = s.umf.aliasNo + 1 ∧ u.Has m .firmware (some (0, 0)) := by
  obtain ⟨t, runs, carries, aliasNo, swapped, -⟩ := execFwSwap_eq serves cmd ready free room true
  obtain ⟨active, standby, boot⟩ := swapped rfl
  exact ⟨_, runs, active, standby, boot, aliasNo, carries.endHandle 0 0⟩

/-- One that fails it leaves the old firmware running, and a key was derived for both. -/
theorem exec_fwSwap_fails : ∃ u, exec (.fwSwap m false) s = .next u ∧ u.umf.active = s.umf.active ∧ u.board = s.board
    ∧ u.umf.aliasNo = s.umf.aliasNo + 2 ∧ u.Has m .firmware (some (9, 0)) := by
  obtain ⟨t, runs, carries, aliasNo, -, kept⟩ := execFwSwap_eq serves cmd ready free room false
  obtain ⟨active, board⟩ := kept rfl
  exact ⟨_, runs, active, board, aliasNo, carries.endHandle 9 0⟩

end
end

/-! ### A block is configured (R282, R283, R285, R386) -/

section
variable (s : State)

theorem State.cplHome_other {src : PortSrc} (other : ∀ k, src ≠ .home k) : s.cplHome src = s := by
  cases src with
  | home k => exact absurd rfl (other k)
  | _ => rfl

theorem State.cplHomes_other {l : List PortReq} (other : ∀ q ∈ l, ∀ k, q.src ≠ .home k) :
    l.foldl (fun s r => s.cplHome r.src) s = s := by
  induction l with
  | nil => rfl
  | cons q l ih =>
    rw [List.foldl_cons, s.cplHome_other (other q (List.mem_cons_self ..))]
    exact ih fun r mem => other r (List.mem_cons_of_mem q mem)

/-- A port that goes down and gives its requests up, none of them a home's, changes nothing but itself and the ledger. -/
theorem State.portDown_eq (p : Nat) (calm : ∀ q ∈ (s.port p).out, ∀ k, q.src ≠ .home k) :
    ∃ ledger x, (s.linkDown p 0).portGiveUp p = { s.setPort p x with ledger := ledger } ∧ x.link = 0 ∧ x.out = [] := by
  have down : ((s.linkDown p 0).port p).out = (s.port p).out := by
    unfold State.linkDown
    rw [State.modPort_eq, State.port_setPort]
    rfl
  unfold State.portGiveUp
  dsimp only
  rw [down, State.cplHomes_other _ calm, State.modPort_eq]
  unfold State.linkDown
  rw [State.modPort_eq, State.port_setPort]
  simp only [State.setPort, sset_sset]
  exact ⟨_, _, rfl, rfl, rfl⟩

/-- The ports of a block that a list names go down. -/
theorem State.portsDown (b : Nat) {l : List Nat} (once : l.Nodup) (calm : ∀ g ∈ l, ∀ q ∈ (s.port (8 * b + g)).out, ∀ k, q.src ≠ .home k) :
    ∃ u, l.foldl (fun s g => (s.linkDown (8 * b + g) 0).portGiveUp (8 * b + g)) s = u ∧ u.umf = s.umf ∧ u.board = s.board
      ∧ (∀ g ∈ l, (u.port (8 * b + g)).link = 0 ∧ (u.port (8 * b + g)).out = [])
      ∧ ∀ g, g ∉ l → u.port (8 * b + g) = s.port (8 * b + g) := by
  induction l generalizing s with
  | nil => exact ⟨s, rfl, rfl, rfl, nofun, fun _ _ => rfl⟩
  | cons g l ih =>
    rw [List.nodup_cons] at once
    obtain ⟨ledger, x, down, link, out⟩ := s.portDown_eq (8 * b + g) (calm g (List.mem_cons_self ..))
    have own : (({ s.setPort (8 * b + g) x with ledger := ledger } : State).port (8 * b + g)) = x := (s.port_setPort (8 * b + g) x :)
    have other (j : Nat) (ne : j ≠ g) : ({ s.setPort (8 * b + g) x with ledger := ledger } : State).port (8 * b + j) = s.port (8 * b + j) :=
      (s.port_setPort_ne x (by omega : 8 * b + j ≠ 8 * b + g) :)
    obtain ⟨u, rest, umf, board, downed, kept⟩ := ih { s.setPort (8 * b + g) x with ledger := ledger } once.2 fun j mem q => by
      rw [other j fun same => once.1 (same ▸ mem)]
      exact calm j (List.mem_cons_of_mem g mem) q
    refine ⟨u, by rw [List.foldl_cons, down]; exact rest, umf, board, fun j mem => ?_, fun j out_ => ?_⟩
    · obtain rfl | tail := List.mem_cons.mp mem
      · rw [kept _ once.1, own]
        exact ⟨link, out⟩
      · exact downed j tail
    · rw [List.mem_cons, not_or] at out_
      rw [kept _ out_.2, other _ out_.1]

end

theorem portsOf_starts (bound : BitVec 7) {g : Nat} (lt : g < 8) :
    ((portsOf bound).any fun p => p.1 == g) = true ↔ g = 0 ∨ bound.getLsbD (g - 1) = true := by
  unfold portsOf
  simp only [List.any_map, List.any_eq_true, List.mem_filter, List.mem_range, Function.comp_apply, beq_iff_eq, Bool.or_eq_true]
  exact ⟨fun ⟨_, ⟨_, starts⟩, same⟩ => same ▸ starts, fun starts => ⟨g, ⟨lt, starts⟩, rfl⟩⟩

section
variable (s : State) (b : Nat) (bound : BitVec 7) (roles cxl : BitVec 32)

/-- A granule's port with its role; a granule that starts no port has role 1. -/
def Port.withRole (x : Port) (bound : BitVec 7) (roles cxl : BitVec 32) (g : Nat) : Port :=
  if (portsOf bound).any fun p => p.1 == g then { x with role := BitVec.ofNat 2 (roles.toNat / 4 ^ g), cxl := cxl.getLsbD g }
  else { x with role := 1, cxl := false }

theorem Port.withRole_made (x : Port) {g : Nat} (lt : g < 8) (made : g = 0 ∨ bound.getLsbD (g - 1) = true) :
    x.withRole bound roles cxl g = { x with role := BitVec.ofNat 2 (roles.toNat / 4 ^ g), cxl := cxl.getLsbD g } :=
  if_pos ((portsOf_starts bound lt).mpr made)

theorem Port.withRole_inner (x : Port) {g : Nat} (lt : g < 8) (inner : ¬ (g = 0 ∨ bound.getLsbD (g - 1) = true)) :
    x.withRole bound roles cxl g = { x with role := 1, cxl := false } :=
  if_neg (mt (portsOf_starts bound lt).mp inner)

theorem State.port_setRoles {g : Nat} (lt : g < 8) :
    (s.setRoles b bound roles cxl).port (8 * b + g) = (s.port (8 * b + g)).withRole bound roles cxl g :=
  foldl_own (g := fun s : State => s.port (8 * b + g)) (own := fun x => x.withRole bound roles cxl g) (fun _ => State.port_setPort ..)
    (fun _ _ ne => State.port_setPort_ne _ _ (by omega)) List.nodup_range (List.mem_range.mpr lt) s

theorem State.setRoles_keeps : (s.setRoles b bound roles cxl).umf = s.umf ∧ (s.setRoles b bound roles cxl).board = s.board
    ∧ ∀ j, (s.setRoles b bound roles cxl).block j = s.block j := by
  unfold State.setRoles
  refine ⟨?_, ?_, fun j => ?_⟩
  · exact foldl_keeps (g := State.umf) (by exact fun _ _ => rfl) _ s
  · exact foldl_keeps (g := State.board) (by exact fun _ _ => rfl) _ s
  · exact foldl_keeps (g := fun s : State => s.block j) (by exact fun _ _ => rfl) _ s

/-- Giving endpoints their mailboxes keeps the open handles and all else. -/
theorem State.assignBoxes_keeps : s.assignBoxes.ports = s.ports ∧ s.assignBoxes.board = s.board
    ∧ ∀ m, (s.assignBoxes.box m).handles = (s.box m).handles := by
  unfold State.assignBoxes
  refine ⟨?_, ?_, fun m => ?_⟩
  · exact foldl_keeps (g := State.ports) (by exact fun _ _ => rfl) _ s
  · exact foldl_keeps (g := State.board) (by exact fun _ _ => rfl) _ s
  · refine foldl_keeps (g := fun s : State => (s.box m).handles) (fun s p => ?_) _ s
    rw [State.modBox_eq]
    by_cases same : m = p.2
    · rw [same, State.box_setBox]
    · rw [State.box_setBox_ne _ _ same]

/-- What the rings of an endpoint do not touch. -/
def State.besideRings (s : State) : Ports × Board × Umf := (s.ports, s.board, s.umf)

theorem State.assignRings_keeps : (s.assignRings b).besideRings = s.besideRings := by
  unfold State.assignRings
  dsimp only
  generalize freed : (s.epRings b).foldl _ s = t
  have first : t.besideRings = s.besideRings := by
    rw [← freed]
    refine foldl_keeps (g := State.besideRings) (fun u r => ?_) _ s
    split <;> rfl
  rw [← first]
  split
  · rfl
  · refine foldl_keeps (g := State.besideRings) (fun u i => ?_) _ t
    split <;> rfl

end

/-- The stored configuration of a block is that of its ports. -/
def State.storeConfig (s : State) (b : Nat) (bound : BitVec 7) : State :=
  let fl := s.board.flash
  let ps := (List.range 8).map fun g => 8 * b + g
  let fl := { fl with
    bounds := sset 0 fl.bounds b bound
    roles := ps.foldl (fun (r : Store (BitVec 2)) p => sset 1 r p (s.port p).role) fl.roles
    cxls := ps.foldl (fun (r : Store Bool) p => sset false r p (s.port p).cxl) fl.cxls }
  { s with board := { s.board with flash := fl } }

theorem State.storeConfig_keeps (s : State) (b : Nat) (bound : BitVec 7) : (s.storeConfig b bound).ports = s.ports
    ∧ (s.storeConfig b bound).umf = s.umf ∧ sget 0 (s.storeConfig b bound).board.flash.bounds b = bound :=
  ⟨rfl, rfl, sget_sset_same ..⟩

/-- The configuration of block b is stored, and its endpoint gets its mailbox and its rings. -/
def State.stored (s : State) (b : Nat) (bound : BitVec 7) : State := ((s.storeConfig b bound).assignBoxes).assignRings b

theorem State.stored_keeps (s : State) (b : Nat) (bound : BitVec 7) : (s.stored b bound).ports = s.ports
    ∧ sget 0 (s.stored b bound).board.flash.bounds b = bound ∧ ∀ m, ((s.stored b bound).box m).handles = (s.box m).handles := by
  obtain ⟨ports, umf, bounds⟩ := s.storeConfig_keeps b bound
  unfold State.stored
  generalize s.storeConfig b bound = c at *
  obtain ⟨boxes_ports, boxes_board, handles⟩ := c.assignBoxes_keeps
  generalize c.assignBoxes = d at *
  have rings := d.assignRings_keeps b
  simp only [State.besideRings, Prod.mk.injEq] at rings
  obtain ⟨rings_ports, rings_board, rings_umf⟩ := rings
  refine ⟨rings_ports.trans (boxes_ports.trans ports), ?_, fun m => ?_⟩
  · rw [rings_board, boxes_board, bounds]
  · rw [State.box, rings_umf, ← State.box, handles m, State.box, umf, ← State.box]

/-- The ports of a block take the roles of its configuration, which is stored. -/
def State.configured (s : State) (b : Nat) (bound : BitVec 7) (roles cxl : BitVec 32) : State :=
  ((s.modBlock b fun y => { y with bound }).setRoles b bound roles cxl).stored b bound

theorem State.configured_keeps (s : State) (b : Nat) (bound : BitVec 7) (roles cxl : BitVec 32) :
    ((s.configured b bound roles cxl).block b).bound = bound ∧ sget 0 (s.configured b bound roles cxl).board.flash.bounds b = bound
      ∧ (∀ m, ((s.configured b bound roles cxl).box m).handles = (s.box m).handles)
      ∧ ∀ g, g < 8 → (s.configured b bound roles cxl).port (8 * b + g) = (s.port (8 * b + g)).withRole bound roles cxl g := by
  unfold State.configured
  rw [State.modBlock_eq]
  generalize made : s.setBlock b _ = t
  have bound_t : (t.block b).bound = bound := by rw [← made, State.block_setBlock]
  have umf_t : t.umf = s.umf := by rw [← made]; rfl
  have port_t (p : Nat) : t.port p = s.port p := by rw [← made]; rfl
  have role (g : Nat) (lt : g < 8) := t.port_setRoles b bound roles cxl lt
  obtain ⟨umf, -, block⟩ := t.setRoles_keeps b bound roles cxl
  generalize t.setRoles b bound roles cxl = r at *
  obtain ⟨ports, bounds, handles⟩ := r.stored_keeps b bound
  refine ⟨?_, bounds, fun m => ?_, fun g lt => ?_⟩
  · rw [State.block, ports, ← State.block, block, bound_t]
  · rw [handles, State.box, umf, umf_t, ← State.box]
  · rw [State.port, ports, ← State.port, role g lt, port_t]

section
variable {s : State} {m : Fin 16} {b : Fin 12} (serves : s.umf.serving = some m) (cmd : (s.box m).cmd = 60)
  (names : (s.box m).argN 1 = b.val)
include serves cmd names

theorem exec_portConfig_refuses (illegal : blockLegal (((s.box m).arg 2).extractLsb' 1 7) ((s.box m).arg 3) ((s.box m).arg 4) = false) :
    exec (.portConfig m) s = .next (s.respond m 3 []) := by
  have lt : (s.box m).argN 1 < 12 := names ▸ b.isLt
  show execPortConfig m s = _
  rw [execPortConfig, State.command_served serves cmd, dif_pos lt]
  dsimp only
  rw [illegal, Bool.not_false, Bool.or_true, Bool.true_or, if_pos rfl]

theorem exec_portConfig_taken
    (plain : (s.box m).argN 2 < 256 ∧ (s.box m).argN 2 % 2 = 0 ∧ (s.box m).argN 3 < 65536 ∧ (s.box m).argN 4 < 256)
    (legal : blockLegal (((s.box m).arg 2).extractLsb' 1 7) ((s.box m).arg 3) ((s.box m).arg 4) = true)
    (noEnd : ∀ p ∈ portsOf (((s.box m).arg 2).extractLsb' 1 7), (s.box m).argN 3 / 4 ^ p.1 % 4 ≠ 2) (noPort : ∀ k, s.epPort k = none)
    (free : s.unitBusy (.block b) = false) (room : (s.box m).handlesFull = false) :
    exec (.portConfig m) s = .next ((((List.range 8).foldl (fun s g => (s.linkDown (8 * b + g) 0).portGiveUp (8 * b + g))
      ((s.taken m (.block b)).epReset b true)).configured b (((s.box m).arg 2).extractLsb' 1 7) ((s.box m).arg 3)
        ((s.box m).arg 4)).endHandle (.block b) 0 0) := by
  have lt : (s.box m).argN 1 < 12 := names ▸ b.isLt
  obtain rfl : b = ⟨(s.box m).argN 1, lt⟩ := Fin.ext names.symm
  have others : ((List.range 12).filter fun q => q != (s.box m).argN 1 && (s.epPort q).isSome) = [] := by
    refine List.filter_eq_nil_iff.mpr fun q _ => ?_
    rw [noPort, Option.isSome_none, Bool.and_false]
    exact Bool.false_ne_true
  have mine : ((portsOf (((s.box m).arg 2).extractLsb' 1 7)).filter fun p => ((s.box m).arg 3).toNat / 4 ^ p.1 % 4 == 2) = [] :=
    List.filter_eq_nil_iff.mpr fun p mem => fun same => noEnd p mem (beq_iff_eq.mp same)
  show execPortConfig m s = _
  rw [execPortConfig, State.command_served serves cmd, dif_pos lt]
  dsimp only
  rw [legal, others, mine, decide_eq_true plain, if_neg (by simp), State.accepted_taken free room]
  rfl

/-- A block takes a legal configuration without an endpoint: its links go down, and its handle ends OK. -/
theorem exec_portConfig (plain : (s.box m).argN 2 < 256 ∧ (s.box m).argN 2 % 2 = 0 ∧ (s.box m).argN 3 < 65536 ∧ (s.box m).argN 4 < 256)
    (legal : blockLegal (((s.box m).arg 2).extractLsb' 1 7) ((s.box m).arg 3) ((s.box m).arg 4) = true)
    (noEnd : ∀ p ∈ portsOf (((s.box m).arg 2).extractLsb' 1 7), (s.box m).argN 3 / 4 ^ p.1 % 4 ≠ 2) (noPort : ∀ k, s.epPort k = none)
    (calm : ∀ g, g < 8 → ∀ q ∈ (s.port (8 * b.val + g)).out, ∀ k, q.src ≠ .home k)
    (free : s.unitBusy (.block b) = false) (room : (s.box m).handlesFull = false) : ∃ u, exec (.portConfig m) s = .next u
      ∧ (u.block b).bound = ((s.box m).arg 2).extractLsb' 1 7 ∧ sget 0 u.board.flash.bounds b = ((s.box m).arg 2).extractLsb' 1 7
      ∧ u.Has m (.block b) (some (0, 0)) ∧ ∀ g, g < 8 → ∃ x : Port, x.link = 0 ∧ x.out = []
        ∧ u.port (8 * b.val + g) = x.withRole (((s.box m).arg 2).extractLsb' 1 7) ((s.box m).arg 3) ((s.box m).arg 4) g := by
  have runs := exec_portConfig_taken serves cmd names plain legal noEnd noPort free room
  obtain ⟨ports, boxes, taken, carries, same⟩ := s.taken_eq m (.block b)
  have port (p : Nat) : (s.taken m (.block b)).port p = s.port p := by rw [taken, same noPort]; rfl
  have kept : (s.taken m (.block b)).epReset b true = s.taken m (.block b) := by
    have no_port : (s.taken m (.block b)).epPort b = none := by rw [taken, same noPort]; exact noPort b
    rw [State.epReset, no_port]
  rw [kept] at runs
  generalize s.taken m (.block b) = t at *
  obtain ⟨u, down, umf, -, downed, -⟩ := t.portsDown b List.nodup_range (l := List.range 8) fun g mem => by
    rw [port]
    exact calm g (List.mem_range.mp mem)
  rw [down] at runs
  obtain ⟨bound, bounds, handles, roles⟩ := u.configured_keeps b (((s.box m).arg 2).extractLsb' 1 7) ((s.box m).arg 3) ((s.box m).arg 4)
  generalize u.configured _ _ _ _ = v at *
  refine ⟨_, runs, bound, bounds, ?_, fun g lt => ⟨u.port (8 * b.val + g), ?_, ?_, roles g lt⟩⟩
  · exact ((carries.of_boxes (congrArg Umf.boxes umf)).of_handles (handles m)).endHandle 0 0
  · exact (downed g (List.mem_range.mpr lt)).1
  · exact (downed g (List.mem_range.mpr lt)).2
end

/-! ### What Umfoent's service commands do -/

/-- Settles O58: what each service command answers, takes and leaves, and what ends it. -/
theorem machineServices : Obligations.MachineServices := by
  unfold Obligations.MachineServices
  intro s m n tr img s1 x y on onIsle room has s0 ready up good
  have agrees (h : ready) : Agrees s n tr := by
    obtain ⟨-, -, ver, dig, okI, okK, ofs, quiet⟩ := h
    exact ⟨ver, dig, okI, okK, ofs, quiet⟩
  refine ⟨?release, ?admission, ?offline, ?online, ?ucodeWaits, ?ucodeLoad, ?parked, ?ports, ?clear, ?cleared, ?stageWaits, ?stage, ?swap⟩
  case release =>
    rintro ⟨⟨serves, cmd⟩, names, fit⟩ free cond awake small
    obtain ⟨ports, boxes, answered, -, -⟩ := (s.releaseCores (x.arg 4 ++ x.arg 3) n (x.arg 2)).respond_eq m 0 []
    refine ⟨_, exec_isleRelease serves cmd names fit free cond awake small, ?_, fun c k lt => ?_⟩
    · rw [answered]
    · rw [answered]
      exact State.thread_releaseCores (n := n) _ _ k lt
  case admission =>
    rintro ⟨⟨serves, cmd⟩, names, fit⟩
    refine ⟨exec_isleAdmit_refuses serves names fit cmd, fun not_adm not_off not_out off rooms => ?_⟩
    have lost : ¬ (y.cond = .admitted ∨ y.cond = .offline ∨ y.cond = .out) := not_or.mpr ⟨not_adm, not_or.mpr ⟨not_off, not_out⟩⟩
    refine ⟨fun h => ?_, exec_isleAdmit_dark serves names fit cmd rooms.1 rooms.2 lost off⟩
    exact exec_isleAdmit_risen serves names fit cmd rooms.1 rooms.2 lost off h.1 h.2.1 (agrees h)
  case offline =>
    rintro ⟨⟨serves, cmd⟩, names, fit⟩ online
    refine ⟨exec_isleOffline_vault serves cmd names fit online, fun may => ⟨exec_isleOffline_waits serves cmd names fit online may, ?_⟩⟩
    exact fun drained rooms => exec_isleOffline_dry serves cmd names fit online may drained rooms.1 rooms.2
  case online =>
    rintro ⟨⟨serves, cmd⟩, names, fit⟩
    refine ⟨exec_isleOnline_refuses serves cmd names fit, fun offline rooms h => ?_⟩
    have same : s0 = s := if_neg (by rw [show y.cond = .offline from offline]; decide)
    obtain ⟨granted, training, -⟩ := id h
    rw [same] at granted training
    exact exec_isleOnline_risen serves cmd names fit offline rooms.1 rooms.2 granted training (agrees h)
  case ucodeWaits =>
    rintro ⟨serves, cmd⟩ len mask fit cond on_ free read
    exact (exec_ucodeLoad serves cmd len mask fit cond on_ free).1 read
  case ucodeLoad =>
    rintro ok ⟨serves, cmd⟩ len mask fit cond on_ free rooms read same
    exact exec_ucodeLoad_verdict serves cmd len mask fit cond on_ free rooms.1 rooms.2 read same
  case parked =>
    intro r run next awake idle
    refine ⟨exec_ucodeIsleParked_waits run next, fun drained ok => ?_⟩
    obtain ⟨r', runs, version⟩ := exec_ucodeIsleParked_last run next awake idle drained ok
    obtain ⟨isles, none_runs, ver, ref, noAlt, flash⟩ := (s.ucodeLoaded n r ok).ucodeEnds_installs r'
    have isle : ((s.ucodeLoaded n r ok).ucodeEnds r').isle n = (s.ucodeLoaded n r ok).isle n :=
      congrArg (fun b => sget ({} : Isle) b n.val) isles
    obtain ⟨unlocked, unparked, loaded, failed⟩ := s.isle_ucodeLoaded (n := n) (r := r) ok
    rw [version] at ver ref flash
    rw [← isle] at unlocked unparked loaded failed
    exact ⟨_, runs, unlocked, unparked, none_runs, ver, ref, noAlt, flash, loaded, failed⟩
  case ports =>
    rintro b ⟨serves, cmd⟩ names small even roles cxls bound
    refine ⟨exec_portConfig_refuses serves cmd names, fun legal noEnd noPort calm rooms => ?_⟩
    obtain ⟨u, runs, bound_u, bounds, has_u, port⟩ :=
      exec_portConfig serves cmd names ⟨small, even, roles, cxls⟩ legal noEnd noPort calm rooms.1 rooms.2
    refine ⟨u, runs, bound_u, bounds, has_u, fun g lt => ?_⟩
    obtain ⟨p, down, out, port_g⟩ := port g lt
    rw [port_g]
    by_cases made : g = 0 ∨ bound.getLsbD (g - 1) = true
    · rw [Port.withRole_made _ _ _ p lt made]
      exact ⟨down, out, fun _ => ⟨rfl, rfl⟩, fun inner => absurd made inner⟩
    · rw [Port.withRole_inner _ _ _ p lt made]
      exact ⟨down, out, fun h => absurd h made, fun _ => rfl⟩
  case clear =>
    rintro ⟨serves, cmd⟩
    exact ⟨exec_evrClear_locked serves cmd, fun unlocked rooms => exec_evrClear_taken serves cmd unlocked rooms.1 rooms.2⟩
  case cleared => exact exec_evrClearDone
  case stageWaits =>
    rintro ⟨serves, cmd⟩ read fl
    exact exec_fwStage_waits serves cmd read fl
  case stage =>
    rintro ok ⟨serves, cmd⟩ rooms read same
    exact exec_fwStage serves cmd rooms.1 rooms.2 read same
  case swap =>
    rintro ⟨serves, cmd⟩
    refine ⟨exec_fwSwap_refuses serves cmd, fun standby rooms => ?_⟩
    exact ⟨exec_fwSwap_passes serves cmd standby rooms.1 rooms.2, exec_fwSwap_fails serves cmd standby rooms.1 rooms.2⟩

end Sys2Proof.Machine
